-- ==== Sys2Proof/Word.lean ====
section
/-! DEFINITION. The word types of the Varno V12 model and their plainest arithmetic (R10, R13). -/

namespace Sys2Proof

/-- One byte (R10). -/
abbrev Byte := BitVec 8

/-- One 8-byte word: the data part of a core-store word (R68), a register or a record word. -/
abbrev Word := BitVec 64

/-- A tag of a core-store word or address register (R83): software reads and writes it as a number. -/
abbrev Tag := BitVec 4

/-- A tagged word: what a core-store word and an address register hold (R67, R68). -/
structure TWord where
  data : Word
  tag : Tag
deriving DecidableEq, Repr

/-- Data 0 with tag 0x0, Int64: what R75 leaves in every word. -/
def TWord.zero : TWord := ⟨0, 0⟩

/-- An Int64 word (tag 0x0). -/
def TWord.int (v : Word) : TWord := ⟨v, 0⟩

/-- The field [hi:lo] of a number (R10). -/
def fieldOf (n hi lo : Nat) : Nat := (n / 2 ^ lo) % 2 ^ (hi + 1 - lo)

/-- Bit i of a number is 1. -/
def bitOf (n i : Nat) : Bool := (n / 2 ^ i) % 2 == 1

/-- 1 for true and 0 for false. -/
def b2n (b : Bool) : Nat := if b then 1 else 0

/-- The signed value of the low w bits of n. -/
def sextOf (w n : Nat) : Int :=
  let m := n % 2 ^ w
  if 2 ^ w ≤ 2 * m then (m : Int) - 2 ^ w else m

/-- An integer wrapped to 64 bits (R108). -/
def wordOfInt (i : Int) : Word := BitVec.ofInt 64 i

end Sys2Proof
end

