-- ==== Sys2Proof/Syntax.lean ====
section
/-! DEFINITION. The commands of the Varno V12: one constructor of `Instr` per row of spec/opcode_table.json,
with the operand types they carry. The table gives its rows no fields, so the operands are the model's own
(log 6). What only the world outside the module can supply (an answer of a host, a physical upset, a sensor
reading, what a test found, what other modules of a span have) is an operand of the command that meets it (log 3, log 4,
log 10, log 27). -/

namespace Sys2Proof

/-- The two PCIe ports (R13). -/
inductive PortId | a | b
deriving DecidableEq, Repr

/-- Numbers of module resources (R13). Cores are physical cores, numbered as the aperture of R262. -/
abbrev CoreId := Fin 1296
abbrev DieId := Fin 12
abbrev BedId := Fin 4
abbrev StackId := Fin 8
abbrev LinkId := Fin 36
abbrev BundleId := Fin 64
abbrev PartId := Fin 16
abbrev MbxId := Fin 4

/-- How a host read can fail (R484). -/
inductive HostFail | unsupportedRequest | completerAbort | completionTimeout
deriving DecidableEq, Repr

/-- What a host returns for one read: its bytes, or a failure (R372, R484). -/
inductive HostReply
  | data (bytes : List Byte)
  | fail (f : HostFail)
deriving DecidableEq, Repr

/-- Size of a physical error in one codeword: correctable or not (R77, R297). -/
inductive ErrKind | single | double
deriving DecidableEq, Repr

/-- The three codewords of a core-store word (R76). -/
inductive CodePart | low | high | tag
deriving DecidableEq, Repr

/-- A physical upset that has come about in the module since the previous command (log 3). A codeword of a core's vector and mask
registers is named by its number, as the core's state numbers it. -/
inductive Upset
  | coreWord (core : CoreId) (word : Nat) (part : CodePart) (k : ErrKind)
  | syllable (core : CoreId) (index : Nat) (k : ErrKind)
  | vectorFile (core : CoreId) (codeword : Nat) (k : ErrKind)
  | control (core : CoreId)
  | farCacheLine (core : CoreId) (line : Nat)
  | coreTlb (core : CoreId)
  | dieTlb (die : DieId)
  | headstockTlb
  | tile (core : CoreId) (tile : Fin 4)
  | bedWord (bed : BedId) (word : Nat) (k : ErrKind)
  | stamp (bed : BedId) (line : Nat) (k : ErrKind)
  | hbmWord (pa4 : Nat) (k : ErrKind)
  | spareWord (stack : StackId) (spareRow : Nat) (word : Nat) (k : ErrKind)
  | pageEntry (part : PartId) (key : Nat) (k : ErrKind)
  | messagePayload (core : CoreId)
  | headstockSram (macroNo : Nat) (k : ErrKind)
deriving DecidableEq, Repr

/-- What the surroundings supply to a command: the upsets that came about before it, and the answers to host
reads it may need, keyed by host IOVA. -/
structure Env where
  upsets : List Upset
  host : List (Nat × HostReply)
deriving DecidableEq, Repr

/-- Surroundings that supply nothing. -/
def Env.quiet : Env := ⟨[], []⟩

/-- A turn unit of a partition on this module (R31). -/
inductive UnitRef
  | core (c : CoreId)
  | mover (c : CoreId)
  | drain (c : CoreId)
  | bulk (d : DieId)
  | reg (s : StackId)
  | recorder
deriving DecidableEq, Repr

/-- The movers that carry out moves (R267). -/
inductive MoverRef
  | core (c : CoreId)
  | bulk (d : DieId)
deriving DecidableEq, Repr

/-- A clock whose lock monitor can declare a loss (R448, R451). -/
inductive ClockRef
  | cclk (d : DieId) | mclk (d : DieId) | tclk (d : DieId)
  | bclk (b : BedId) | xclk (b : BedId) | hclk (s : StackId)
  | kclk | qclk | eclk | pclk (p : PortId) | refclk
deriving DecidableEq, Repr

/-- The unit of one of the three TLB kinds (R313). -/
inductive TlbUser
  | core (c : CoreId) | die (d : DieId) | headstock
deriving DecidableEq, Repr

/-- A die that holds chatter counters (R416). -/
inductive ChatDie
  | compute (d : DieId) | bed (b : BedId) | headstock
deriving DecidableEq, Repr

/-- A register of a function's PCIe configuration space that the manual names (R354, R358, R381, R383): the base addresses, the
expansion ROM's, MSI-X control, power management control, device control and device control 2, and the five AER registers in the
order of their offsets. -/
inductive PcieReg
  | bar0 | bar2 | bar4 | rom | msix | power | device | device2 | aer (n : Fin 5)
deriving DecidableEq, Repr

/-- Where a register of this module is written (R14): a port's BAR0 (R355) or its configuration space (R354, R383), the module
registers that only the control cores reach (R312, R334, R418, R467), or the ALERT register of the management target (R477). -/
inductive RegSpace
  | bar0 (p : PortId)
  | pcie (p : PortId) (r : PcieReg)
  | stack (s : StackId)
  | die (d : DieId)
  | chat
  | power
  | alert
deriving DecidableEq, Repr

/-- A lane carrier on which a spare can take a lane's place (R421). -/
inductive LaneRef
  | bundle (b : BundleId)
  | link (l : LinkId)
deriving DecidableEq, Repr

/-- A resource found failing by the built-in self-test (R474): of a core with its chatter class, 0x01 to 0x05. -/
inductive BistFail
  | core (c : CoreId) (cls : Nat)
  | arrayRow (c : CoreId) (row : Fin 33)
  | tlbWay (t : TlbUser) (way : Nat)
  | granule (b : BedId) (g : Nat)
  | bedDie (b : BedId)
  | stack (s : StackId)
  | fabric
deriving DecidableEq, Repr

/-- The far end a scale-out link finds in training (R459). -/
structure LinkPeer where
  serial : Nat
  link : Nat
  bciMajor : Nat
deriving DecidableEq, Repr

/-- What one power-up finds outside the state the module keeps (R439, R446, R459, R470, R474). -/
structure BootEnv where
  bootSel : Fin 4
  setIds : List Nat
  bist : List BistFail
  laneFails : List (BundleId × Nat)
  hbmFails : List StackId
  links : List (LinkId × LinkPeer)
deriving DecidableEq, Repr

/-- The action kinds an arm queue accepts (R36). -/
inductive ActKind | pass | run | launch | post | move | drain | share
deriving DecidableEq, Repr

/-- The unit of a core for which an image arms an entry in turn 0 (R33). -/
inductive CoreUnit | core | mover | drain
deriving DecidableEq, Repr

/-- One turn-0 arm entry of a program image: launch turn, descriptor handle, condition word (R38, R118). -/
structure ArmInit where
  unit : CoreUnit
  kind : ActKind
  turn : Nat
  handle : Word
  cond : Word
deriving DecidableEq, Repr

/-- What a program image gives one logical core (R33, R67, R98, R126, R129, R273). -/
structure CoreImage where
  entry : Nat
  code : List (Nat × Word)
  regs : List (Nat × TWord)
  words : List (Nat × TWord)
  arm : List ArmInit
  bind : List Word
deriving DecidableEq, Repr

/-- A share change that an image arms at a regulator (R36, R311). -/
structure ShareArm where
  stack : StackId
  turn : Nat
  rate : Nat
  burst : Nat
deriving DecidableEq, Repr

/-- The parts of a program image. The manual gives no byte layout for them (log 7), but for the bound table,
which stands here as the bytes of R343. -/
structure ProgImage where
  cores : List (Nat × CoreImage)
  bulk : List (Nat × ArmInit)
  shares : List ShareArm
  bound : List Byte
  montab : Nat
  montabData : List Byte
deriving DecidableEq, Repr

/-- What the firmware finds when it reads an image from the host: the host's bytes and, when they have an image's
structure, its parts (log 7). -/
structure ImageReply where
  reply : HostReply
  parts : Option ProgImage
deriving DecidableEq, Repr

/-- What another member module answers to a span handshake (R460), the link hops of the route to it (R461), and the logical cores
of the partition that it carries. -/
structure SpanAnswer where
  member : Nat
  spanId : Nat
  span : Nat
  startable : Bool
  reachable : Bool
  turn : Nat
  hops : Nat
  cores : List Nat
deriving DecidableEq, Repr

/-- What the other modules of a span have sent when a spur is broadcast on this one (R60, R460): nothing, every other member's done
count for the open turn, the master's spur for a turn, or the start that a PART_START on member 0 gives its members. -/
inductive SpanTurn
  | alone
  | counts
  | spur (turn : Nat)
  | start (answers : List SpanAnswer)
deriving DecidableEq, Repr

/-- A broadcast of a partition's spur, with what the other modules of its span have sent. -/
structure SpurFrom where
  part : PartId
  span : SpanTurn
deriving DecidableEq, Repr

/-- A read of a port's error counters: the whole register, or one half of it (R356). -/
structure CntRead where
  port : PortId
  half : Option (Fin 2)
deriving DecidableEq, Repr

/-- A message that is accepted (R117, R275, R457): the next one of a core's mesh port, by a core of this module, or by a core of
another module of the span; or one that a core of another module has sent. -/
inductive MsgStep
  | here (sender : CoreId)
  | out (sender : CoreId) (dst chan : Nat)
  | arrived (q : PartId) (src dst : Nat) (chan : Fin 16) (word : TWord)
deriving DecidableEq, Repr

/-- The commands of the module: one constructor per row of spec/opcode_table.json, in its order. -/
inductive Instr
  | powerGood (boot : BootEnv)
  | powerGoodWithdrawn (vin10mV : Nat)
  | modResetAssert
  | modResetDeassert (boot : BootEnv)
  | pcieLinkUp (p : PortId)
  | perstAssert (p : PortId)
  | perstDeassert (p : PortId)
  | functionLevelReset (p : PortId)
  | pcieLinkDown (p : PortId)
  | d3hotEntry (p : PortId)
  | trstNAssert
  | jtagBreak (c : CoreId)
  | lossOfLock (clk : ClockRef)
  | powerSample (watts : Nat) (vin10mV : Nat)
  | junctionSample (d : DieId) (celsius : Int)
  | railSwitchOff
  | bundleIssue (c : CoreId) (env : Env)
  | vectorLoadFaultPoint (c : CoreId) (env : Env)
  | ownActionDelivery (c : CoreId)
  | windowOverrun (c : CoreId)
  | haltNotice (c : CoreId)
  | patrolScrub (c : CoreId) (env : Env)
  | turnDone (q : PartId) (u : UnitRef)
  | spurBroadcast (b : SpurFrom)
  | spurReceipt (q : PartId) (u : UnitRef) (turn : Nat)
  | armFire (q : PartId) (u : UnitRef) (env : Env)
  | quiescentPointStop (q : PartId)
  | partStopTimeout (q : PartId)
  | tensorStreamComplete (c : CoreId) (env : Env)
  | passStart (c : CoreId) (env : Env)
  | passRetire (c : CoreId) (env : Env)
  | passAbort (c : CoreId) (env : Env)
  | drainFrontStart (c : CoreId) (env : Env)
  | drainRowVisit (c : CoreId) (env : Env)
  | drainComplete (c : CoreId)
  | monitorCounts (q : PartId)
  | numericsLogWrite (q : PartId)
  | moveStart (m : MoverRef) (q : PartId) (env : Env)
  | multicastSourceLine (d : DieId) (q : PartId) (env : Env)
  | moveComplete (m : MoverRef) (q : PartId) (env : Env)
  | notifyIncrement (q : PartId)
  | messageAccept (m : MsgStep) (env : Env)
  | farCacheFill (c : CoreId) (reg : Fin 8) (env : Env)
  | bedStoreAccess (b : BedId) (env : Env)
  | sweepVisit (b : BedId)
  | bedCacheFill (b : BedId)
  | regulatorRelease (s : StackId) (q : PartId)
  | hbmQueueEntry (s : StackId) (pc : Fin 64)
  | hbmServe (s : StackId) (pc : Fin 64) (idx : Nat) (env : Env)
  | remapLineCopy (s : StackId) (env : Env)
  | remapFlip (s : StackId)
  | remapPersist (s : StackId)
  | hbmPatrolScrub (s : StackId) (env : Env)
  | hbmTempSample (s : StackId) (quarterC : Int)
  | tlbWalk (t : TlbUser) (q : PartId) (va : Nat) (write : Bool) (env : Env)
  | faultQueueEnter (d : DieId) (engine : Fin 109)
  | fqResumeRetry (d : DieId) (entry : Fin 256)
  | fqResumeAbort (d : DieId) (entry : Fin 256)
  | accessCounterDecay (d : DieId)
  | hpqHeadRead (d : DieId)
  | hpqStatusRead (d : DieId)
  | hotPageRingWrite (p : PortId)
  | migrationCopyComplete (q : PartId) (reply : HostReply)
  | hostWindowReadFail (q : PartId) (u : UnitRef) (f : HostFail)
  | boundOverrun (q : PartId) (u : UnitRef)
  | degradationReadmission
  | routeChangeComplete (hops : List (PartId × Nat))
  | streamDoorbell (p : PortId) (q : PartId) (stream : Fin 64) (value : Word)
  | frameFetch (q : PartId) (stream : Fin 64) (entry : HostReply)
  | frameFetchComplete (q : PartId) (stream : Fin 64) (frame : HostReply) (env : Env)
  | postCompletion (q : PartId) (entry : HostReply)
  | noticeRingWrite (p : PortId)
  | ntcBaseWrite (p : PortId) (value : Word)
  | hprBaseWrite (p : PortId) (value : Word)
  | errCntRead (r : CntRead)
  | errCnt2Read (r : CntRead)
  | mbxRefusedRead (p : PortId) (m : MbxId)
  | hmbRefusedRead (p : PortId)
  | registerWrite (sp : RegSpace) (offset : Nat) (data : List Byte)
  | bar2Read (p : PortId) (offset : Nat) (len : Nat) (env : Env)
  | bar2Write (p : PortId) (offset : Nat) (data : List Byte)
  | mbxCommandComplete (p : PortId) (m : MbxId)
  | identify (p : PortId) (m : MbxId)
  | getHealth (p : PortId) (m : MbxId)
  | setEpoch (p : PortId) (m : MbxId)
  | partCreate (p : PortId) (m : MbxId)
  | partDestroy (p : PortId) (m : MbxId)
  | partStop (p : PortId) (m : MbxId)
  | partStart (p : PortId) (m : MbxId) (span : List SpanAnswer)
  | partReconfigure (p : PortId) (m : MbxId)
  | partQuery (p : PortId) (m : MbxId)
  | seedSet (p : PortId) (m : MbxId)
  | imageLoad (p : PortId) (m : MbxId) (image : ImageReply)
  | memMap (p : PortId) (m : MbxId)
  | memMapMigrate (p : PortId) (m : MbxId)
  | memUnmap (p : PortId) (m : MbxId)
  | windowOpen (p : PortId) (m : MbxId)
  | windowClose (p : PortId) (m : MbxId)
  | streamOpen (p : PortId) (m : MbxId)
  | streamClose (p : PortId) (m : MbxId)
  | recordConfig (p : PortId) (m : MbxId)
  | replayRun (p : PortId) (m : MbxId)
  | faultLogRead (p : PortId) (m : MbxId)
  | repairStatus (p : PortId) (m : MbxId)
  | repairCommit (p : PortId) (m : MbxId)
  | fwUpdate (p : PortId) (m : MbxId) (image : HostReply)
  | attestQuote (p : PortId) (m : MbxId)
  | lanePlanSet (p : PortId) (m : MbxId)
  | linkQuery (p : PortId) (m : MbxId)
  | diagRescueRead (p : PortId) (m : MbxId)
  | diagCoreStoreRead (p : PortId) (m : MbxId)
  | diagStampRead (p : PortId) (m : MbxId)
  | diagRegisterRead (p : PortId) (m : MbxId)
  | diagDebugBreak (p : PortId) (m : MbxId)
  | hmStatus (p : PortId)
  | hmLog (p : PortId)
  | hmDieReset (p : PortId)
  | hmFwRestart (p : PortId)
  | hmPortQuiesce (p : PortId)
  | hmSnapshot (p : PortId)
  | hmbComplete (p : PortId)
  | dieBistComplete (d : DieId) (bist : List BistFail)
  | chatterWindowStart (d : ChatDie)
  | laneSpareSwap (l : LaneRef)
  | flitCrcRetry (b : BundleId) (lane : Fin 18) (dead : Bool)
  | fecCodeword (l : LinkId) (lane : Fin 5) (corrected : Bool) (cut : List PartId)
  | scaleoutLinkTrain (l : LinkId) (peer : LinkPeer)
  | scaleoutLinkDown (l : Option LinkId) (cut : List PartId)
  | turnEndItem (q : PartId)
  | i3cOffsetWrite (offset : Byte)
  | setdasa (addr : Fin 128)
  | getVersion (p : PortId)
  | getCapabilities (p : PortId)
  | negotiateAlgorithms (p : PortId) (asymOk : Bool) (hashOk : Bool)
  | getDigests (p : PortId)
  | getCertificate (p : PortId) (slot : Nat) (offset : Nat) (len : Nat)
  | challenge (p : PortId) (slot : Nat) (nonce : List Byte)
  | getMeasurements (p : PortId) (index : Nat) (sign : Bool) (nonce : List Byte)
  | mbxDoorbellRefused (p : PortId) (m : MbxId)
  | hmbCmdRefused (p : PortId) (value : Word)
  | controlCoreBoot
  | computeDieReset (d : DieId)
deriving DecidableEq, Repr

end Sys2Proof
end

