-- ==== Sys2Proof/Decode.lean ====
section
/-! DEFINITION. The command that a word spells. The opcode table of the Varno V12 gives no row any bits, so no word
spells a command. -/

namespace Sys2Proof

/-- The command a word of `nbits` bits spells by the table: none, for the table gives no bits. -/
def decodeTableWord (_nbits _w : Nat) : Option Instr := none

end Sys2Proof
end

