-- ==== Sys2Proof/Machine/Map.lean ====
section
/-! DEFINITION. Sparse maps: how every memory, table and indexed group of the module is held. A map is a list of
(key, value) pairs in ONE canonical form, keys strictly rising and no entry equal to the default, so that equal
contents are equal lists. The default is what an unlisted key reads as, and is passed to each operation. -/

namespace Sys2Proof.Machine

/-- A sparse map from numbers to values. -/
abbrev SMap (α : Type) := List (Nat × α)

namespace SMap

/-- The value at key k; `d` where k is not listed. -/
def get {α : Type} (d : α) (k : Nat) : SMap α → α
  | [] => d
  | (j, v) :: rest => if j = k then v else get d k rest

/-- The map without key k. -/
def erase {α : Type} (k : Nat) (m : SMap α) : SMap α := m.filter fun e => decide (e.1 ≠ k)

/-- The map with key k holding v, v not being the default. -/
def insert {α : Type} (k : Nat) (v : α) : SMap α → SMap α
  | [] => [(k, v)]
  | (j, w) :: rest =>
    if j = k then (k, v) :: rest else if k < j then (k, v) :: (j, w) :: rest else (j, w) :: insert k v rest

/-- The map with key k holding v: writing the default removes the entry. -/
def set {α : Type} [DecidableEq α] (d : α) (k : Nat) (v : α) (m : SMap α) : SMap α :=
  if v = d then erase k m else insert k v m

/-- The map with key k changed by f. -/
def upd {α : Type} [DecidableEq α] (d : α) (k : Nat) (f : α → α) (m : SMap α) : SMap α :=
  set d k (f (get d k m)) m

/-- Every key of the map lies at or above lo, and the keys rise strictly. -/
def rising {α : Type} (lo : Nat) : SMap α → Bool
  | [] => true
  | (j, _) :: rest => decide (lo ≤ j) && rising (j + 1) rest

/-- No entry holds the default. -/
def noDefault {α : Type} [DecidableEq α] (d : α) : SMap α → Bool
  | [] => true
  | (_, v) :: rest => decide (v ≠ d) && noDefault d rest

/-- The canonical form. -/
def wf {α : Type} [DecidableEq α] (d : α) (m : SMap α) : Bool := rising 0 m && noDefault d m

/-- The map without the keys that p picks. -/
def drop {α : Type} (p : Nat → Bool) (m : SMap α) : SMap α := m.filter fun e => !p e.1

/-- Every listed value changed by f; an entry that f takes to the default goes. -/
def mapVals {α : Type} [DecidableEq α] (d : α) (f : Nat → α → α) (m : SMap α) : SMap α :=
  m.filterMap fun e => if f e.1 e.2 = d then none else some (e.1, f e.1 e.2)

end SMap

/-- A memory of bytes: what an unlisted address reads as is 0 (log 12). -/
abbrev Mem := SMap Byte

namespace Mem

/-- The canonical form of a memory. -/
abbrev wf (m : Mem) : Bool := SMap.wf 0 m

/-- The byte at address a. -/
def byte (m : Mem) (a : Nat) : Byte := SMap.get 0 a m

/-- n bytes from address a, lowest address first. -/
def read (m : Mem) (a : Nat) : Nat → List Byte
  | 0 => []
  | n + 1 => byte m a :: read m (a + 1) n

/-- The bytes stored from address a. -/
def write (m : Mem) (a : Nat) : List Byte → Mem
  | [] => m
  | b :: bs => write (SMap.set 0 a b m) (a + 1) bs

/-- The memory with n bytes from address a zero. -/
def clear (m : Mem) (a n : Nat) : Mem := m.filter fun e => decide (e.1 < a) || decide (a + n ≤ e.1)

end Mem

end Sys2Proof.Machine
end

