-- ==== Sys2Proof/Machine/Bits.lean ====
section
/-! DEFINITION. Numbers and their bytes (R10: byte order is little-endian), fields, ranges and the cyclic checks
of R114, as the other files of the machine use them. -/

namespace Sys2Proof.Machine

/-- n bytes of a number, least significant first (R10). -/
def leBytes (v : Nat) : Nat → List Byte
  | 0 => []
  | n + 1 => BitVec.ofNat 8 v :: leBytes (v / 256) n

/-- The number that bytes spell, least significant first (R10). -/
def leNat : List Byte → Nat
  | [] => 0
  | b :: bs => b.toNat + 256 * leNat bs

/-- n bytes of a number, most significant first. -/
def beBytes (v n : Nat) : List Byte := (leBytes v n).reverse

/-- The number that bytes spell, most significant first. -/
def beNat (bs : List Byte) : Nat := leNat bs.reverse

/-- The field of n bytes at offset o of a byte string, little-endian; bytes past its end read 0. -/
def fieldAt (bs : List Byte) (o n : Nat) : Nat := leNat ((bs.drop o).take n)

/-- The byte string with v's low n bytes at offset o. -/
def putAt (bs : List Byte) (o n v : Nat) : List Byte :=
  bs.take o ++ leBytes v n ++ bs.drop (o + n)

/-- The byte string with other bytes laid over it at offset o. -/
def overlay (bs : List Byte) (o : Nat) (new : List Byte) : List Byte :=
  bs.take o ++ new ++ bs.drop (o + new.length)

/-- A byte string cut or filled with zeros to n bytes. -/
def padTo (n : Nat) (bs : List Byte) : List Byte := bs.take n ++ List.replicate (n - bs.length) 0

/-- Two half-open ranges share an address. -/
def overlaps (a n b m : Nat) : Bool := decide (0 < n) && decide (0 < m) && decide (a < b + m) && decide (b < a + n)

/-- Range [a, a+n) lies inside [b, b+m). -/
def inside (a n b m : Nat) : Bool := decide (b ≤ a) && decide (a + n ≤ b + m)

/-- n is a multiple of k. -/
def aligned (n k : Nat) : Bool := n % k == 0

/-- The quotient rounded up. -/
def ceilDiv (a b : Nat) : Nat := (a + b - 1) / b

/-- n with bit i set to v. -/
def setBit (n i : Nat) (v : Bool) : Nat := if bitOf n i then (if v then n else n - 2 ^ i) else (if v then n + 2 ^ i else n)

/-- n with the field of w bits at lo replaced by v. -/
def setField (n lo w v : Nat) : Nat := n - (n / 2 ^ lo % 2 ^ w) * 2 ^ lo + (v % 2 ^ w) * 2 ^ lo

/-- A field of a word as a number. -/
def wf64 (w : Word) (hi lo : Nat) : Nat := fieldOf w.toNat hi lo

/-- A bit of a word. -/
def wbit (w : Word) (i : Nat) : Bool := bitOf w.toNat i

/-- A word whose low 32 bits are lo and high 32 bits hi. -/
def word32 (hi lo : Nat) : Word := BitVec.ofNat 64 (hi % 2 ^ 32 * 2 ^ 32 + lo % 2 ^ 32)

/-- The sum held at most. -/
def satAdd (a b top : Nat) : Nat := min (a + b) top

/-- The number of one bits among the low n. -/
def popCount (v : Nat) : Nat → Nat
  | 0 => 0
  | n + 1 => popCount v n + b2n (bitOf v n)

/-- The low n bits in reverse order (R115). -/
def revBits (v : Nat) : Nat → Nat
  | 0 => 0
  | n + 1 => revBits v n * 2 + b2n (bitOf v n)

/-- The lowest i, from i0 on within n steps, at which p holds. -/
def firstFrom (p : Nat → Bool) (i0 : Nat) : Nat → Option Nat
  | 0 => none
  | n + 1 => if p i0 then some i0 else firstFrom p (i0 + 1) n

/-- One bit of the reflected CRCs of R114. -/
def crcReflBit (poly : Nat) (crc : Nat) (inBit : Bool) : Nat :=
  if bitOf crc 0 != inBit then (crc / 2) ^^^ poly else crc / 2

/-- `crcstep` of R114 over n low bytes of a: polynomials 0 and 1 reflected, 2 as CRC-16-CCITT. -/
def crcStep (p n d a : Nat) : Nat :=
  if p < 2 then
    (List.range (8 * n)).foldl (fun c i => crcReflBit (if p = 0 then 0x82F63B78 else 0xEDB88320) c (bitOf a i))
      (d % 2 ^ 32)
  else
    (List.range (8 * n)).foldl (fun c k =>
      let bit := bitOf c 15 != bitOf a (8 * (k / 8) + (7 - k % 8))
      let c := c * 2 % 65536
      if bit then c ^^^ 0x1021 else c) (d % 65536)

/-- A list with its i-th element changed by f. -/
def modAt {α : Type} (i : Nat) (f : α → α) : List α → List α
  | [] => []
  | x :: xs => match i with
    | 0 => f x :: xs
    | k + 1 => x :: modAt k f xs

/-- The list without its i-th element. -/
def dropAt {α : Type} (i : Nat) (xs : List α) : List α := xs.take i ++ xs.drop (i + 1)

/-- The index of the first element p picks. -/
def indexWhere {α : Type} (p : α → Bool) : List α → Option Nat
  | [] => none
  | x :: xs => if p x then some 0 else (indexWhere p xs).map (· + 1)

/-- No two elements of a list of numbers are equal. -/
def distinct : List Nat → Bool
  | [] => true
  | x :: xs => !xs.contains x && distinct xs

end Sys2Proof.Machine
end

