-- ==== Sys2Proof/Machine/Sha.lean ====
section
/-! DEFINITION. SHA-256 as FIPS 180-4 defines it (R426), and the check of an RSASSA-PSS signature with SHA-256 and a
32-byte salt over a 3,072-bit modulus with exponent 65,537 (R469). -/

namespace Sys2Proof.Machine

/-- The round constants of FIPS 180-4. -/
def shaK : List Nat :=
  [0x428a2f98, 0x71374491, 0xb5c0fbcf, 0xe9b5dba5, 0x3956c25b, 0x59f111f1, 0x923f82a4, 0xab1c5ed5] ++
  [0xd807aa98, 0x12835b01, 0x243185be, 0x550c7dc3, 0x72be5d74, 0x80deb1fe, 0x9bdc06a7, 0xc19bf174] ++
  [0xe49b69c1, 0xefbe4786, 0x0fc19dc6, 0x240ca1cc, 0x2de92c6f, 0x4a7484aa, 0x5cb0a9dc, 0x76f988da] ++
  [0x983e5152, 0xa831c66d, 0xb00327c8, 0xbf597fc7, 0xc6e00bf3, 0xd5a79147, 0x06ca6351, 0x14292967] ++
  [0x27b70a85, 0x2e1b2138, 0x4d2c6dfc, 0x53380d13, 0x650a7354, 0x766a0abb, 0x81c2c92e, 0x92722c85] ++
  [0xa2bfe8a1, 0xa81a664b, 0xc24b8b70, 0xc76c51a3, 0xd192e819, 0xd6990624, 0xf40e3585, 0x106aa070] ++
  [0x19a4c116, 0x1e376c08, 0x2748774c, 0x34b0bcb5, 0x391c0cb3, 0x4ed8aa4a, 0x5b9cca4f, 0x682e6ff3] ++
  [0x748f82ee, 0x78a5636f, 0x84c87814, 0x8cc70208, 0x90befffa, 0xa4506ceb, 0xbef9a3f7, 0xc67178f2]

/-- The initial hash value of FIPS 180-4. -/
def shaInit : List Nat := [0x6a09e667, 0xbb67ae85, 0x3c6ef372, 0xa54ff53a, 0x510e527f, 0x9b05688c, 0x1f83d9ab, 0x5be0cd19]

/-- Right rotation of a 32-bit word. -/
def rotr32 (x n : Nat) : Nat := x / 2 ^ n + x % 2 ^ n * 2 ^ (32 - n)

/-- The 16 words of a block, each most significant byte first. -/
def shaWords : Nat → List Byte → List Nat
  | 0, _ => []
  | n + 1, bs => beNat (bs.take 4) :: shaWords n (bs.drop 4)

/-- The schedule words, newest first, n more of them. -/
def shaExtend : Nat → List Nat → List Nat
  | 0, ws => ws
  | n + 1, ws =>
    let a := ws.getD 14 0
    let b := ws.getD 1 0
    let s0 := rotr32 a 7 ^^^ rotr32 a 18 ^^^ a / 8
    let s1 := rotr32 b 17 ^^^ rotr32 b 19 ^^^ b / 1024
    shaExtend n ((ws.getD 15 0 + s0 + ws.getD 6 0 + s1) % 2 ^ 32 :: ws)

/-- The eight working variables. -/
structure ShaVars where
  a : Nat
  b : Nat
  c : Nat
  d : Nat
  e : Nat
  f : Nat
  g : Nat
  h : Nat

/-- One round with schedule word w and constant k. -/
def shaRound (v : ShaVars) (kw : Nat × Nat) : ShaVars :=
  let s1 := rotr32 v.e 6 ^^^ rotr32 v.e 11 ^^^ rotr32 v.e 25
  let ch := (v.e &&& v.f) ^^^ ((2 ^ 32 - 1 - v.e) &&& v.g)
  let t1 := v.h + s1 + ch + kw.1 + kw.2
  let s0 := rotr32 v.a 2 ^^^ rotr32 v.a 13 ^^^ rotr32 v.a 22
  let maj := (v.a &&& v.b) ^^^ (v.a &&& v.c) ^^^ (v.b &&& v.c)
  ⟨(t1 + s0 + maj) % 2 ^ 32, v.a, v.b, v.c, (v.d + t1) % 2 ^ 32, v.e, v.f, v.g⟩

/-- The hash value after one block. -/
def shaBlock (h : List Nat) (block : List Byte) : List Nat :=
  let ws := (shaExtend 48 (shaWords 16 block).reverse).reverse
  let g := fun i => h.getD i 0
  let v := (shaK.zip ws).foldl shaRound ⟨g 0, g 1, g 2, g 3, g 4, g 5, g 6, g 7⟩
  (h.zip [v.a, v.b, v.c, v.d, v.e, v.f, v.g, v.h]).map fun p => (p.1 + p.2) % 2 ^ 32

/-- The hash value after n blocks. -/
def shaBlocks : Nat → List Nat → List Byte → List Nat
  | 0, h, _ => h
  | n + 1, h, bs => shaBlocks n (shaBlock h (bs.take 64)) (bs.drop 64)

/-- The SHA-256 digest of a byte string, 32 bytes. -/
def sha256 (bs : List Byte) : List Byte :=
  let n := bs.length
  let pad := bs ++ [0x80] ++ List.replicate ((119 - n % 64) % 64) 0 ++ beBytes (8 * n) 8
  (shaBlocks (pad.length / 64) shaInit pad).flatMap fun w => beBytes w 4

/-- The mask generation of PSS over SHA-256: n hashes of the seed with a counter. -/
def mgf1 (seed : List Byte) : Nat → List Byte
  | 0 => []
  | n + 1 => mgf1 seed n ++ sha256 (seed ++ beBytes n 4)

/-- b to the power e modulo m, for an exponent of n bits. -/
def powMod (m b e : Nat) : Nat → Nat
  | 0 => 1 % m
  | n + 1 => let r := powMod m b (e / 2) n; if e % 2 = 1 then r * r % m * b % m else r * r % m

/-- Whether `sig` is an RSASSA-PSS signature of a message digest under modulus `m` and exponent `e` (RFC 8017: EM of 384 bytes, 3,071 bits
used, salt of 32 bytes). -/
def pssVerify (m e : Nat) (digest sig : List Byte) : Bool :=
  let s := beNat sig
  if m = 0 ∨ m ≤ s ∨ sig.length ≠ 384 then false else
  let em := beBytes (powMod m s e 32) 384
  let masked := em.take 351
  let h := (em.drop 351).take 32
  let mask := (mgf1 h 11).take 351
  let db := (masked.zip mask).map fun p => p.1 ^^^ p.2
  let db := (db.headD 0 &&& 0x7F) :: db.drop 1
  let salt := db.drop 319
  decide (em.getD 383 0 = 0xBC) && decide ((em.headD 0).toNat < 128)
    && (db.take 318).all (· == 0) && decide (db.getD 318 0 = 1)
    && decide (sha256 (List.replicate 8 0 ++ digest ++ salt) = h)

end Sys2Proof.Machine
end

