-- ==== Sys2Proof/Machine/Float.lean ====
section
/-! DEFINITION. Floating-point numbers of the module: their formats (R109, R151, R198, R225), exact values, and the
roundings of R109, R156, R181 and R185. Every operation computes the exact value first and rounds once. -/

namespace Sys2Proof.Machine

/-- What the largest exponent field of a format holds (R198). -/
inductive FSpecial | ieee | nanOnly | none
deriving DecidableEq, Repr

/-- A floating-point format: exponent and fraction widths, bias, special encodings. -/
structure FFmt where
  ew : Nat
  fw : Nat
  bias : Nat
  special : FSpecial
deriving DecidableEq, Repr

/-- The formats of R109, R198 and R225. -/
def fp64 : FFmt := ⟨11, 52, 1023, .ieee⟩
def fp32 : FFmt := ⟨8, 23, 127, .ieee⟩
def fp16 : FFmt := ⟨5, 10, 15, .ieee⟩
def bf16 : FFmt := ⟨8, 7, 127, .ieee⟩
def n22 : FFmt := ⟨8, 13, 127, .ieee⟩
def e5m2 : FFmt := ⟨5, 2, 15, .ieee⟩
def e4m3 : FFmt := ⟨4, 3, 7, .nanOnly⟩
def e2m1 : FFmt := ⟨2, 1, 1, .none⟩

/-- An exact value: NaN, an infinity, or (-1)^neg × m × 2^e. -/
inductive FVal
  | nan
  | inf (neg : Bool)
  | fin (neg : Bool) (m : Nat) (e : Int)
deriving DecidableEq, Repr

namespace FFmt

/-- Bits of an encoding. -/
def width (f : FFmt) : Nat := 1 + f.ew + f.fw

/-- The exponent of the last place of a subnormal. -/
def emin (f : FFmt) : Int := 1 - (f.bias : Int) - f.fw

/-- The magnitude code of infinity, or of the first code that is no finite number. -/
def infCode (f : FFmt) : Nat :=
  match f.special with
  | .ieee => (2 ^ f.ew - 1) * 2 ^ f.fw
  | .nanOnly => 2 ^ (f.ew + f.fw) - 1
  | .none => 2 ^ (f.ew + f.fw)

/-- The canonical quiet NaN (R109, R225, R234). -/
def nanCode (f : FFmt) : Nat :=
  match f.special with
  | .ieee => (2 ^ f.ew - 1) * 2 ^ f.fw + 2 ^ (f.fw - 1)
  | .nanOnly => 2 ^ (f.ew + f.fw) - 1
  | .none => 0

/-- The value that a magnitude code without a special meaning spells. -/
def magOf (f : FFmt) (code : Nat) : Nat × Int :=
  let x := code / 2 ^ f.fw
  let frac := code % 2 ^ f.fw
  if x = 0 then (frac, f.emin) else (2 ^ f.fw + frac, f.emin + (x : Int) - 1)

/-- The exact value of an encoding. -/
def decode (f : FFmt) (bits : Nat) : FVal :=
  let neg := bitOf bits (f.ew + f.fw)
  let code := bits % 2 ^ (f.ew + f.fw)
  if code < f.infCode then
    let (m, e) := f.magOf code
    .fin neg m e
  else if f.special = .ieee ∧ code = f.infCode then .inf neg
  else .nan

/-- How a value between two representable ones is rounded. -/
inductive Rnd | nearestEven | towardZero
deriving DecidableEq, Repr

end FFmt

/-- m / 2^s rounded (the quotient, and whether it was exact). -/
def shiftRound (r : FFmt.Rnd) (m s : Nat) : Nat :=
  let q := m / 2 ^ s
  let rem := m % 2 ^ s
  match r with
  | .towardZero => q
  | .nearestEven =>
    if s = 0 then q
    else if 2 * rem > 2 ^ s ∨ (2 * rem = 2 ^ s ∧ q % 2 = 1) then q + 1 else q

namespace FFmt

/-- The magnitude code nearest to m × 2^e under the rounding, which may reach or pass `infCode` on overflow. -/
def roundMag (f : FFmt) (r : Rnd) (m : Nat) (e : Int) : Nat :=
  if m = 0 then 0 else
    let q : Int := max (e + (Nat.log2 m : Int) - f.fw) f.emin
    let mant := if q ≤ e then m * 2 ^ (e - q).toNat else shiftRound r m (q - e).toNat
    (q - f.emin).toNat * 2 ^ f.fw + mant

/-- The largest finite magnitude code. -/
def maxCode (f : FFmt) : Nat := f.infCode - 1

/-- The sign bit in place. -/
def signBit (f : FFmt) (neg : Bool) : Nat := if neg then 2 ^ (f.ew + f.fw) else 0

/-- The encoding of an exact value, rounded: overflow gives an infinity where the format has one and the rounding
is to nearest, the largest finite value otherwise; NaN gives the canonical NaN. -/
def encodeWith (f : FFmt) (r : Rnd) : FVal → Nat
  | .nan => f.nanCode
  | .inf neg => f.signBit neg + (if f.special = .ieee then f.infCode else f.maxCode)
  | .fin neg m e =>
    let c := f.roundMag r m e
    f.signBit neg +
      (if c < f.infCode then c else if f.special = .ieee ∧ r = .nearestEven then f.infCode else f.maxCode)

/-- The encoding rounded to nearest even (R109). -/
def encode (f : FFmt) (v : FVal) : Nat := f.encodeWith .nearestEven v

/-- The value rounded to nearest even in the format. -/
def rn (f : FFmt) (v : FVal) : FVal := f.decode (f.encode v)

/-- Whether rounding a finite value to nearest even overflows the format. -/
def overflows (f : FFmt) : FVal → Bool
  | .fin _ m e => decide (f.infCode ≤ f.roundMag .nearestEven m e)
  | _ => false

end FFmt

namespace FVal

/-- +0. -/
def zero : FVal := .fin false 0 0

def isNan : FVal → Bool
  | .nan => true
  | _ => false

def isInf : FVal → Bool
  | .inf _ => true
  | _ => false

def isFinite : FVal → Bool
  | .fin _ _ _ => true
  | _ => false

def isZero : FVal → Bool
  | .fin _ m _ => m == 0
  | _ => false

def neg : FVal → FVal
  | .nan => .nan
  | .inf s => .inf (!s)
  | .fin s m e => .fin (!s) m e

def abs : FVal → FVal
  | .nan => .nan
  | .inf _ => .inf false
  | .fin _ m e => .fin false m e

/-- The sign; NaN counts as positive. -/
def sign : FVal → Bool
  | .nan => false
  | .inf s => s
  | .fin s _ _ => s

/-- An integer as an exact value. -/
def ofInt (i : Int) : FVal := .fin (decide (i < 0)) i.natAbs 0

/-- Signed mantissa at exponent e0 ≤ e. -/
def scaled (s : Bool) (m : Nat) (e e0 : Int) : Int :=
  let v : Int := (m : Int) * 2 ^ (e - e0).toNat
  if s then -v else v

/-- The exact sum; opposite infinities give NaN, an exact zero of unlike signs is +0 (IEEE 754, R109). -/
def add : FVal → FVal → FVal
  | .nan, _ => .nan
  | _, .nan => .nan
  | .inf s, .inf t => if s = t then .inf s else .nan
  | .inf s, .fin _ _ _ => .inf s
  | .fin _ _ _, .inf t => .inf t
  | .fin s m e, .fin t n g =>
    if m = 0 ∧ n = 0 then .fin (s && t) 0 0
    else
      let e0 := min e g
      let v := scaled s m e e0 + scaled t n g e0
      .fin (decide (v < 0)) v.natAbs e0

def sub (a b : FVal) : FVal := add a b.neg

/-- The exact product (R199 gives the same special cases). -/
def mul : FVal → FVal → FVal
  | .nan, _ => .nan
  | _, .nan => .nan
  | .inf s, .inf t => .inf (s != t)
  | .inf s, .fin t n _ => if n = 0 then .nan else .inf (s != t)
  | .fin s m _, .inf t => if m = 0 then .nan else .inf (s != t)
  | .fin s m e, .fin t n g => .fin (s != t) (m * n) (e + g)

/-- The quotient to at least 128 bits, with a last bit that says whether it is exact: enough to
round correctly in every format. -/
def div : FVal → FVal → FVal
  | .nan, _ => .nan
  | _, .nan => .nan
  | .inf _, .inf _ => .nan
  | .inf s, .fin t _ _ => .inf (s != t)
  | .fin s _ _, .inf t => .fin (s != t) 0 0
  | .fin s m e, .fin t n g =>
    if n = 0 then (if m = 0 then .nan else .inf (s != t))
    else
      let k := 128 + Nat.log2 n
      let q := m * 2 ^ k / n
      .fin (s != t) (2 * q + (if m * 2 ^ k % n = 0 then 0 else 1)) (e - g - k - 1)

end FVal

/-- Bits of the integer square root of n from bit b down to 0, above r already found. -/
def isqrtFrom (n r : Nat) : Nat → Nat
  | 0 => r
  | b + 1 => isqrtFrom n (if (r + 2 ^ b) * (r + 2 ^ b) ≤ n then r + 2 ^ b else r) b

/-- The integer square root. -/
def isqrt (n : Nat) : Nat := isqrtFrom n 0 (Nat.log2 n / 2 + 1)

namespace FVal

/-- The square root with a last bit that says whether it is exact. -/
def sqrt : FVal → FVal
  | .nan => .nan
  | .inf s => if s then .nan else .inf false
  | .fin s m e =>
    if m = 0 then .fin s 0 0
    else if s then .nan
    else
      let k : Nat := if e % 2 = 0 then 256 else 257
      let n := m * 2 ^ k
      let r := isqrt n
      .fin false (2 * r + (if r * r = n then 0 else 1)) ((e - k) / 2 - 1)

/-- The reciprocal square root (R181), with a last bit that says whether it is exact. -/
def rsqrt : FVal → FVal
  | .nan => .nan
  | .inf s => if s then .nan else .fin false 0 0
  | .fin s m e =>
    if m = 0 then .inf s
    else if s then .nan
    else
      let m' := if e % 2 = 0 then m else 2 * m
      let e' := if e % 2 = 0 then e else e - 1
      let k := 256 + Nat.log2 m'
      let q := isqrt (2 ^ (2 * k) / m')
      .fin false (2 * q + (if q * q * m' = 2 ^ (2 * k) then 0 else 1)) (-(e' / 2) - k - 1)

/-- a < b for values that are not NaN; −0 and +0 are equal. -/
def lt : FVal → FVal → Bool
  | .nan, _ => false
  | _, .nan => false
  | .inf s, .inf t => s && !t
  | .inf s, .fin _ _ _ => s
  | .fin _ _ _, .inf t => !t
  | .fin s m e, .fin t n g => let e0 := min e g; decide (scaled s m e e0 < scaled t n g e0)

/-- a = b as numbers. -/
def eq : FVal → FVal → Bool
  | .nan, _ => false
  | _, .nan => false
  | .inf s, .inf t => s == t
  | .inf _, .fin _ _ _ => false
  | .fin _ _ _, .inf _ => false
  | .fin s m e, .fin t n g => let e0 := min e g; decide (scaled s m e e0 = scaled t n g e0)

/-- a ≤ b as numbers. -/
def le (a b : FVal) : Bool := lt a b || eq a b

/-- IEEE 754-2019 maximum: NaN wins, −0 lies below +0 (R109). -/
def max (a b : FVal) : FVal :=
  if a.isNan || b.isNan then .nan
  else if lt a b then b else if lt b a then a else if a.sign then b else a

/-- IEEE 754-2019 minimum (R109). -/
def min (a b : FVal) : FVal :=
  if a.isNan || b.isNan then .nan
  else if lt a b then a else if lt b a then b else if a.sign then a else b

/-- A finite value rounded to an integer. -/
def roundInt (r : FFmt.Rnd) (s : Bool) (m : Nat) (e : Int) : Int :=
  let v : Int := if 0 ≤ e then (m : Int) * 2 ^ e.toNat else (shiftRound r m (-e).toNat : Int)
  if s then -v else v

/-- Conversion to a signed integer of w bits: rounded, saturated, NaN gives 0 (R109, R158). -/
def toInt (r : FFmt.Rnd) (w : Nat) : FVal → Int
  | .nan => 0
  | .inf s => if s then -(2 : Int) ^ (w - 1) else (2 : Int) ^ (w - 1) - 1
  | .fin s m e => Max.max (-(2 : Int) ^ (w - 1)) (Min.min ((2 : Int) ^ (w - 1) - 1) (roundInt r s m e))

/-- Whether that conversion saturates. -/
def toIntSat (r : FFmt.Rnd) (w : Nat) : FVal → Bool
  | .nan => false
  | .inf _ => true
  | .fin s m e => let v := roundInt r s m e; decide (v < -(2 : Int) ^ (w - 1)) || decide ((2 : Int) ^ (w - 1) - 1 < v)

end FVal

end Sys2Proof.Machine
end

