-- ==== Sys2Proof/Machine/Trans.lean ====
section
/-! DEFINITION. The functions 2^a and log2 a of R181 as values that round correctly: 320 bits of the exact result
and a last bit that keeps it off every tie (log 20). -/

namespace Sys2Proof.Machine

/-- floor(ln 2 × 2^320). -/
def ln2Fixed : Nat :=
  0xb17217f7d1cf79abc9e3b39803f2f6af40f343267298b62d8a0d175b8baafa2be7b876206debac98

/-- Σ x^k / k! for k from k0 on, x < 1 scaled by 2^320, `term` being the last term formed. -/
def expSeries (x : Nat) (term acc k : Nat) : Nat → Nat
  | 0 => acc
  | n + 1 =>
    let t := term * x / (k * 2 ^ 320)
    expSeries x t (acc + t) (k + 1) n

/-- 2^f × 2^320 for a fraction f scaled by 2^320. -/
def exp2Frac (f : Nat) : Nat :=
  expSeries (f * ln2Fixed / 2 ^ 320) (2 ^ 320) (2 ^ 320) 1 80

/-- Σ z^(2k+1) / (2k+1) for z scaled by 2^320: the inverse hyperbolic tangent. -/
def atanhSeries (z2 : Nat) (pow acc k : Nat) : Nat → Nat
  | 0 => acc
  | n + 1 =>
    let p := pow * z2 / 2 ^ 320
    atanhSeries z2 p (acc + p / (2 * k + 1)) (k + 1) n

/-- log2 of m / 2^l for 2^l ≤ m < 2^(l+1), scaled by 2^320. -/
def log2Frac (m l : Nat) : Nat :=
  let z := (m - 2 ^ l) * 2 ^ 320 / (m + 2 ^ l)
  let a := atanhSeries (z * z / 2 ^ 320) z z 1 110
  2 * a * 2 ^ 320 / ln2Fixed

namespace FVal

/-- 2^a with the special cases of R181. An integer a gives an exact power. Beyond the exponent range of every format
the result is a power so large or small that each format overflows or rounds to zero. -/
def exp2 : FVal → FVal
  | .nan => .nan
  | .inf s => if s then .fin false 0 0 else .inf false
  | .fin s m e =>
    let big := decide (m ≠ 0) && decide (16 ≤ e + (Nat.log2 m : Int))
    if big then .fin false 1 (if s then -65536 else 65536)
    else
      let fixed : Int := if 0 ≤ e then scaled s m e 0 * 2 ^ 320
        else if s then -(((m * 2 ^ 320 + 2 ^ (-e).toNat - 1) / 2 ^ (-e).toNat : Nat) : Int)
        else ((m * 2 ^ 320 / 2 ^ (-e).toNat : Nat) : Int)
      let n := fixed / 2 ^ 320
      let f := (fixed % 2 ^ 320).toNat
      let exact := decide (m = 0) || (decide (0 ≤ e) || m % 2 ^ (-e).toNat == 0)
      if exact then .fin false 1 n
      else .fin false (2 * exp2Frac f + 1) (n - 321)

/-- log2 a with the special cases of R181. -/
def log2 : FVal → FVal
  | .nan => .nan
  | .inf s => if s then .nan else .inf false
  | .fin s m e =>
    if m = 0 then .inf true
    else if s then .nan
    else
      let l := Nat.log2 m
      let n : Int := e + l
      if m = 2 ^ l then .ofInt n
      else
        let v : Int := n * 2 ^ 320 + log2Frac m l
        .fin (decide (v < 0)) (2 * v.natAbs + 1) (-321)

/-- 1 / a (R181): RCP of ±0 gives ±∞. -/
def rcp (a : FVal) : FVal := div (.fin false 1 0) a

end FVal

end Sys2Proof.Machine
end

