-- ==== Sys2Proof/Machine/Elem.lean ====
section
/-! DEFINITION. Element types and element arithmetic of the long-vector unit and of element programs
(R151, R156 to R159, R179 to R181), on elements held as their low-order bits. -/

namespace Sys2Proof.Machine

/-- The element types of R151. -/
inductive VTy | i8 | i16 | i32 | i64 | fp16 | bf16 | fp32 | fp64
deriving DecidableEq, Repr

namespace VTy

/-- The type of a code (R151); 0x8 to 0xF are reserved. -/
def ofCode : Nat → Option VTy
  | 0 => some .i8 | 1 => some .i16 | 2 => some .i32 | 3 => some .i64
  | 4 => some .fp16 | 5 => some .bf16 | 6 => some .fp32 | 7 => some .fp64
  | _ => none

/-- Width in bits. -/
def width : VTy → Nat
  | .i8 => 8 | .i16 => 16 | .i32 => 32 | .i64 => 64 | .fp16 => 16 | .bf16 => 16 | .fp32 => 32 | .fp64 => 64

/-- Width in bytes. -/
def bytes (t : VTy) : Nat := t.width / 8

/-- The greatest element count of a width (R151). -/
def vlmax (t : VTy) : Nat := 16384 / t.width

/-- The tag of core-store words of the type (R151). -/
def tag : VTy → Tag
  | .i8 => 4 | .i16 => 0 | .i32 => 0 | .i64 => 0 | .fp16 => 3 | .bf16 => 3 | .fp32 => 2 | .fp64 => 1

def isFloat : VTy → Bool
  | .i8 => false | .i16 => false | .i32 => false | .i64 => false
  | .fp16 => true | .bf16 => true | .fp32 => true | .fp64 => true

/-- The floating-point format of a float type. -/
def fmt : VTy → FFmt
  | .fp16 => Sys2Proof.Machine.fp16 | .bf16 => Sys2Proof.Machine.bf16 | .fp32 => Sys2Proof.Machine.fp32 | .fp64 => Sys2Proof.Machine.fp64
  | .i8 => Sys2Proof.Machine.fp64 | .i16 => Sys2Proof.Machine.fp64 | .i32 => Sys2Proof.Machine.fp64 | .i64 => Sys2Proof.Machine.fp64

/-- Elements per datapath cycle (R151). -/
def lanes (t : VTy) : Nat := 1024 / t.width

end VTy

/-- The low w bits of an integer. -/
def wrapTo (w : Nat) (i : Int) : Nat := (i % 2 ^ w).toNat

/-- `sat` of R157. -/
def satS (v : Nat) (x : Int) : Int := max (-(2 : Int) ^ (v - 1)) (min ((2 : Int) ^ (v - 1) - 1) x)

/-- `satu` of R157. -/
def satU (v : Nat) (x : Int) : Int := max 0 (min ((2 : Int) ^ v - 1) x)

/-- The rounding codes of R154. -/
inductive QRnd | truncate | halfUp | nearestEven
deriving DecidableEq, Repr

/-- The rounding of a code; 0b11 is reserved. -/
def QRnd.ofCode : Nat → Option QRnd
  | 0 => some .truncate | 1 => some .halfUp | 2 => some .nearestEven | _ => none

/-- `rshift` of R157: rounding right shift of a signed integer. -/
def rshift (x : Int) (s : Nat) (r : QRnd) : Int :=
  if s = 0 then x else
    let q := x / 2 ^ s
    let rem := x % 2 ^ s
    let h : Int := 2 ^ (s - 1)
    match r with
    | .truncate => q
    | .halfUp => if h ≤ rem then q + 1 else q
    | .nearestEven => if h < rem ∨ (rem = h ∧ q % 2 ≠ 0) then q + 1 else q

/-- The exact value of an element, integer types signed. -/
def elemVal (t : VTy) (a : Nat) : FVal := if t.isFloat then t.fmt.decode a else .ofInt (sextOf t.width a)

/-- The two-operand arithmetic of R156 and R179. -/
inductive EBin | add | sub | mul | min | max | div
deriving DecidableEq, Repr

/-- The exact integer result of a two-operand operation. -/
def intBin (op : EBin) (a b : Int) : Int :=
  match op with
  | .add => a + b | .sub => a - b | .mul => a * b | .min => min a b | .max => max a b | .div => 0

/-- The exact float result of a two-operand operation. -/
def fltBin (op : EBin) (a b : FVal) : FVal :=
  match op with
  | .add => a.add b | .sub => a.sub b | .mul => a.mul b | .min => a.min b | .max => a.max b | .div => a.div b

/-- A two-operand result (R156): floats rounded once, integers wrapped. -/
def elemBin (op : EBin) (t : VTy) (a b : Nat) : Nat :=
  if t.isFloat then t.fmt.encode (fltBin op (t.fmt.decode a) (t.fmt.decode b))
  else wrapTo t.width (intBin op (sextOf t.width a) (sextOf t.width b))

/-- a × b + c, rounded once (R156). -/
def elemFma (t : VTy) (a b c : Nat) : Nat :=
  if t.isFloat then t.fmt.encode (((t.fmt.decode a).mul (t.fmt.decode b)).add (t.fmt.decode c))
  else wrapTo t.width (sextOf t.width a * sextOf t.width b + sextOf t.width c)

/-- Negation (R156). -/
def elemNeg (t : VTy) (a : Nat) : Nat :=
  if t.isFloat then t.fmt.encode (t.fmt.decode a).neg else wrapTo t.width (-(sextOf t.width a))

/-- Absolute value (R156: of −2^(w−1) it is −2^(w−1)). -/
def elemAbs (t : VTy) (a : Nat) : Nat :=
  if t.isFloat then t.fmt.encode (t.fmt.decode a).abs else wrapTo t.width ((sextOf t.width a).natAbs : Int)

/-- Correctly rounded square root (R156). -/
def elemSqrt (t : VTy) (a : Nat) : Nat := t.fmt.encode (t.fmt.decode a).sqrt

/-- Shifts by a count of 0 to 63 (R156). -/
def elemShl (t : VTy) (a c : Nat) : Nat := if t.width ≤ c then 0 else a * 2 ^ c % 2 ^ t.width
def elemShr (t : VTy) (a c : Nat) : Nat := a % 2 ^ t.width / 2 ^ c
def elemSar (t : VTy) (a c : Nat) : Nat := wrapTo t.width (sextOf t.width a / 2 ^ c)

/-- The compares of R156. -/
inductive ECmp | eq | lt | le | un
deriving DecidableEq, Repr

/-- A compare: integers signed, floats false on NaN, except UN (R156). -/
def elemCmp (op : ECmp) (t : VTy) (a b : Nat) : Bool :=
  if t.isFloat then
    let x := t.fmt.decode a
    let y := t.fmt.decode b
    match op with
    | .eq => x.eq y | .lt => x.lt y | .le => x.le y | .un => x.isNan || y.isNan
  else
    let x := sextOf t.width a
    let y := sextOf t.width b
    match op with
    | .eq => decide (x = y) | .lt => decide (x < y) | .le => decide (x ≤ y) | .un => false

/-- Conversion between element types (R158; rounding toward zero by R179). -/
def elemCvt (src dst : VTy) (r : FFmt.Rnd) (a : Nat) : Nat :=
  match src.isFloat, dst.isFloat with
  | true, true => dst.fmt.encodeWith r (src.fmt.decode a)
  | true, false => wrapTo dst.width ((src.fmt.decode a).toInt r dst.width)
  | false, true => dst.fmt.encodeWith r (.ofInt (sextOf src.width a))
  | false, false => wrapTo dst.width (sextOf src.width a)

/-- Whether a conversion to an integer type saturates (R188). -/
def cvtSaturates (src dst : VTy) (r : FFmt.Rnd) (a : Nat) : Bool :=
  src.isFloat && !dst.isFloat && (src.fmt.decode a).toIntSat r dst.width

/-- A scalar operand as an element (R156): an FP operand rounded to nearest even, an INT operand's low w bits. -/
def elemScalar (t : VTy) (x : TWord) : Nat :=
  if x.tag = 1 then
    (if t.isFloat then t.fmt.encode (fp64.decode x.data.toNat)
      else wrapTo t.width ((fp64.decode x.data.toNat).toInt .nearestEven t.width))
  else x.data.toNat % 2 ^ t.width

/-- The fixed-point results of R157 for source elements a, b and old destination d. -/
def qAdd (w : Nat) (a b : Nat) : Nat := wrapTo w (satS w (sextOf w a + sextOf w b))
def qSub (w : Nat) (a b : Nat) : Nat := wrapTo w (satS w (sextOf w a - sextOf w b))
def qAddU (w : Nat) (a b : Nat) : Nat := wrapTo w (satU w ((a % 2 ^ w : Nat) + (b % 2 ^ w : Nat)))
def qSubU (w : Nat) (a b : Nat) : Nat := wrapTo w (satU w (((a % 2 ^ w : Nat) : Int) - (b % 2 ^ w : Nat)))
def qMul (w s : Nat) (r : QRnd) (a b : Nat) : Nat := wrapTo w (satS w (rshift (sextOf w a * sextOf w b) s r))
def qMac (w s : Nat) (r : QRnd) (d a b : Nat) : Nat :=
  wrapTo w (satS w (sextOf w d + rshift (sextOf w a * sextOf w b) s r))
def qNarrow (w s : Nat) (r : QRnd) (a : Nat) : Nat := wrapTo (w / 2) (satS (w / 2) (rshift (sextOf w a) s r))
def wMul (w : Nat) (a b : Nat) : Nat := wrapTo (2 * w) (sextOf w a * sextOf w b)
def wqMac (w : Nat) (d a b : Nat) : Nat := wrapTo (2 * w) (satS (2 * w) (sextOf (2 * w) d + sextOf w a * sextOf w b))

/-- Element i of width w of a register's bits (R150). -/
def elemAt (w : Nat) (v : Nat) (i : Nat) : Nat := v / 2 ^ (w * i) % 2 ^ w

/-- A register's bits with element i of width w replaced. -/
def elemSet (w : Nat) (v : Nat) (i x : Nat) : Nat := setField v (w * i) w x

/-- A register's bits with element i replaced by f i for the elements that p picks, among the first n. -/
def elemMap (w : Nat) (p : Nat → Bool) (f : Nat → Nat) (v : Nat) (n : Nat) : Nat :=
  (List.range n).foldl (fun v i => if p i then elemSet w v i (f i) else v) v

/-- Two values of lanes that may be empty, combined (R159 step 3). -/
def treePair (f : Nat → Nat → Nat) : Option Nat → Option Nat → Option Nat
  | none, y => y
  | x, none => x
  | some x, some y => some (f x y)

/-- One level of the binary tree. -/
def treeLevel (f : Nat → Nat → Nat) : List (Option Nat) → List (Option Nat)
  | x :: y :: rest => treePair f x y :: treeLevel f rest
  | xs => xs

/-- The fixed binary tree over a list of lane values, `fuel` levels deep at most. -/
def treeReduce (f : Nat → Nat → Nat) : Nat → List (Option Nat) → Option Nat
  | 0, xs => xs.headD none
  | k + 1, xs => treeReduce f k (treeLevel f xs)

/-- The value of one lane (R159 step 2): its active elements combined in ascending order. -/
def laneFold (f : Nat → Nat → Nat) (xs : List Nat) : Option Nat :=
  match xs with
  | [] => none
  | x :: rest => some (rest.foldl f x)

/-- The reduction of R159 over the active elements, given as (index, value) in ascending order. -/
def reduceElems (f : Nat → Nat → Nat) (lanes : Nat) (xs : List (Nat × Nat)) : Option Nat :=
  treeReduce f 8 ((List.range lanes).map fun j =>
    laneFold f ((xs.filter fun e => e.1 % lanes == j).map (·.2)))

/-- `srgen` of R259. -/
def srRound (n : Nat) (x0 x1 x2 x3 k0 k1 : Nat) : Nat :=
  match n with
  | 0 => x0
  | n + 1 =>
    let p := x0 * 0xD2B74407
    let q := x2 * 0xCA5A8263
    let y0 := (q / 2 ^ 32) ^^^ x1 ^^^ k0
    let y1 := q % 2 ^ 32
    let y2 := (p / 2 ^ 32) ^^^ x3 ^^^ k1
    let y3 := p % 2 ^ 32
    srRound n y0 y1 y2 y3 ((k0 + 0xA4F13C65) % 2 ^ 32) ((k1 + 0x7B2D9E4B) % 2 ^ 32)

/-- The stochastic-rounding generator (R259). -/
def srgen (seed tid e step : Nat) : Nat :=
  srRound 10 e step tid 0x6A1D0C57 (seed % 2 ^ 32) (seed / 2 ^ 32 % 2 ^ 32)

/-- SRND of R185: the encoding in `dst` of the value of `src` code a, and whether it saturated. -/
def stochRound (src dst : VTy) (a r : Nat) : Nat × Bool :=
  match src.fmt.decode a with
  | .nan => (dst.fmt.nanCode, false)
  | .inf s => (dst.fmt.signBit s + dst.fmt.infCode, false)
  | .fin s m e =>
    let lo := dst.fmt.roundMag .towardZero m e
    if dst.fmt.maxCode < lo then (dst.fmt.signBit s + dst.fmt.maxCode, true)
    else
      let (lm, le) := dst.fmt.magOf lo
      if FVal.eq (.fin false lm le) (.fin false m e) then (dst.fmt.signBit s + lo, false)
      else if lo = dst.fmt.maxCode then (dst.fmt.signBit s + dst.fmt.maxCode, true)
      else
        let (hm, he) := dst.fmt.magOf (lo + 1)
        let e0 := min e (min le he)
        let x := FVal.scaled false m e e0
        let l := FVal.scaled false lm le e0
        let h := FVal.scaled false hm he e0
        let f := (2 ^ 32 * (x - l) / (h - l)).toNat
        (dst.fmt.signBit s + (if r < f then lo + 1 else lo), false)

end Sys2Proof.Machine
end

