-- ==== Sys2Proof/Machine/Alu.lean ====
section
/-! DEFINITION. What the scalar instructions of slots S0, S1 and S2 compute from operand values that have passed
their tag checks (R107 to R109, R112 to R115). -/

namespace Sys2Proof.Machine

/-- The scalar ALU operations of slots S0 and S1 (R107). -/
inductive AluOp
  | nop | mov | add | sub | mul | mulh | mulhu | div | divu | rem | remu | min | max
  | shl | shr | sar | rol | and | or | xor | andn
  | cmpeq | cmpne | cmplt | cmpltu | cmple | cmpleu | sel
  | fadd | fsub | fmul | fma | fdiv | fsqrt | fmin | fmax | fneg | fabs
  | fcmpeq | fcmplt | fcmple | fcmpun | fcvti | icvtf
  | paddF32 | psubF32 | pmulF32 | paddBf16 | pmulBf16 | paddF16 | pmulF16 | paddsI8 | psubsI8
deriving DecidableEq, Repr

/-- The opcodes of R107. -/
def aluOf : Nat → Option AluOp
  | 0x000 => some .nop | 0x001 => some .mov | 0x010 => some .add | 0x011 => some .sub
  | 0x012 => some .mul | 0x013 => some .mulh | 0x014 => some .mulhu | 0x015 => some .div
  | 0x016 => some .divu | 0x017 => some .rem | 0x018 => some .remu | 0x01A => some .min
  | 0x01B => some .max | 0x020 => some .shl | 0x021 => some .shr | 0x022 => some .sar
  | 0x023 => some .rol | 0x028 => some .and | 0x029 => some .or | 0x02A => some .xor
  | 0x02B => some .andn | 0x030 => some .cmpeq | 0x031 => some .cmpne | 0x032 => some .cmplt
  | 0x033 => some .cmpltu | 0x034 => some .cmple | 0x035 => some .cmpleu | 0x038 => some .sel
  | 0x040 => some .fadd | 0x041 => some .fsub | 0x042 => some .fmul | 0x043 => some .fma
  | 0x044 => some .fdiv | 0x045 => some .fsqrt | 0x046 => some .fmin | 0x047 => some .fmax
  | 0x048 => some .fneg | 0x049 => some .fabs | 0x04A => some .fcmpeq | 0x04B => some .fcmplt
  | 0x04C => some .fcmple | 0x04D => some .fcmpun | 0x050 => some .fcvti | 0x051 => some .icvtf
  | 0x060 => some .paddF32 | 0x061 => some .psubF32 | 0x062 => some .pmulF32
  | 0x064 => some .paddBf16 | 0x065 => some .pmulBf16 | 0x066 => some .paddF16
  | 0x067 => some .pmulF16 | 0x068 => some .paddsI8 | 0x069 => some .psubsI8
  | _ => none

/-- A truth value as R108 writes it. -/
def boolWord (b : Bool) : TWord := .int (if b then 1 else 0)

/-- An FP64 word. -/
def fpWord (bits : Nat) : TWord := ⟨BitVec.ofNat 64 bits, 1⟩

/-- The signed quotient and remainder of R108. -/
def sdiv64 (a b : Word) : Word := wordOfInt (Int.tdiv a.toInt b.toInt)
def srem64 (a b : Word) : Word := wordOfInt (Int.tmod a.toInt b.toInt)

/-- A packed operation, lane by lane (R109). -/
def packed (w : Nat) (f : Nat → Nat → Nat) (a b : Word) : Word :=
  BitVec.ofNat 64 (elemMap w (fun _ => true) (fun i => f (elemAt w a.toNat i) (elemAt w b.toNat i)) 0 (64 / w))

/-- A float operation of two FP64 words. -/
def fop (op : EBin) (a b : Word) : TWord := fpWord (elemBin op .fp64 a.toNat b.toNat)

/-- The result of a scalar ALU operation: x the word at OP1 before the bundle, y and z the values of OP2 and OP3.
Nothing is written for NOP, and for SEL when c = 0. Divisors of 0 and unlike pointer pairs have been caught. -/
def aluResult (op : AluOp) (x y z : TWord) : Option TWord :=
  let a := y.data
  let b := z.data
  let sh := b.toNat % 64
  let keep (v : Word) : Option TWord := some ⟨v, y.tag⟩
  let int (v : Word) : Option TWord := some (.int v)
  match op with
  | .nop => none
  | .mov => some y
  | .add => some ⟨a + b, if y.tag = 5 then 5 else 0⟩
  | .sub => some ⟨a - b, if y.tag = 5 ∧ z.tag ≠ 5 then 5 else 0⟩
  | .mul => int (a * b)
  | .mulh => int (wordOfInt (a.toInt * b.toInt / 2 ^ 64))
  | .mulhu => int (BitVec.ofNat 64 (a.toNat * b.toNat / 2 ^ 64))
  | .div => int (sdiv64 a b)
  | .divu => int (BitVec.ofNat 64 (a.toNat / b.toNat))
  | .rem => int (srem64 a b)
  | .remu => int (BitVec.ofNat 64 (a.toNat % b.toNat))
  | .min => int (if a.toInt ≤ b.toInt then a else b)
  | .max => int (if a.toInt ≤ b.toInt then b else a)
  | .shl => keep (a <<< sh)
  | .shr => keep (a >>> sh)
  | .sar => keep (a.sshiftRight sh)
  | .rol => keep (a.rotateLeft sh)
  | .and => keep (a &&& b)
  | .or => keep (a ||| b)
  | .xor => keep (a ^^^ b)
  | .andn => keep (a &&& ~~~b)
  | .cmpeq => some (boolWord (a == b))
  | .cmpne => some (boolWord (a != b))
  | .cmplt => some (boolWord (decide (a.toInt < b.toInt)))
  | .cmpltu => some (boolWord (decide (a.toNat < b.toNat)))
  | .cmple => some (boolWord (decide (a.toInt ≤ b.toInt)))
  | .cmpleu => some (boolWord (decide (a.toNat ≤ b.toNat)))
  | .sel => if a = 0 then none else some z
  | .fadd => some (fop .add a b)
  | .fsub => some (fop .sub a b)
  | .fmul => some (fop .mul a b)
  | .fma => some (fpWord (elemFma .fp64 a.toNat b.toNat x.data.toNat))
  | .fdiv => some (fop .div a b)
  | .fsqrt => some (fpWord (elemSqrt .fp64 a.toNat))
  | .fmin => some (fop .min a b)
  | .fmax => some (fop .max a b)
  | .fneg => some (fpWord (elemNeg .fp64 a.toNat))
  | .fabs => some (fpWord (elemAbs .fp64 a.toNat))
  | .fcmpeq => some (boolWord (elemCmp .eq .fp64 a.toNat b.toNat))
  | .fcmplt => some (boolWord (elemCmp .lt .fp64 a.toNat b.toNat))
  | .fcmple => some (boolWord (elemCmp .le .fp64 a.toNat b.toNat))
  | .fcmpun => some (boolWord (elemCmp .un .fp64 a.toNat b.toNat))
  | .fcvti => int (wordOfInt ((fp64.decode a.toNat).toInt .nearestEven 64))
  | .icvtf => some (fpWord (fp64.encode (.ofInt a.toInt)))
  | .paddF32 => some ⟨packed 32 (elemBin .add .fp32) a b, 2⟩
  | .psubF32 => some ⟨packed 32 (elemBin .sub .fp32) a b, 2⟩
  | .pmulF32 => some ⟨packed 32 (elemBin .mul .fp32) a b, 2⟩
  | .paddBf16 => some ⟨packed 16 (elemBin .add .bf16) a b, 3⟩
  | .pmulBf16 => some ⟨packed 16 (elemBin .mul .bf16) a b, 3⟩
  | .paddF16 => some ⟨packed 16 (elemBin .add .fp16) a b, 3⟩
  | .pmulF16 => some ⟨packed 16 (elemBin .mul .fp16) a b, 3⟩
  | .paddsI8 => some ⟨packed 8 (qAdd 8) a b, 4⟩
  | .psubsI8 => some ⟨packed 8 (qSub 8) a b, 4⟩

/-- Whether the operation divides (R108: a divisor of 0 raises Integer Divide). -/
def AluOp.divides : AluOp → Bool
  | .div => true | .divu => true | .rem => true | .remu => true
  | _ => false

/-- Whether a pair of operand tags, each of INT or DPTR, is one the opcode allows (R107). -/
def AluOp.pairOk (op : AluOp) (t u : Tag) : Bool :=
  match op with
  | .sub => decide (¬ (t = 0 ∧ u = 5))
  | .cmpeq => decide (t = u) | .cmpne => decide (t = u) | .cmpltu => decide (t = u) | .cmpleu => decide (t = u)
  | _ => true

/-- The operations of slot S2 that compute a word from one source (R112, R115). -/
inductive BitOp | brev | parity | popc | clz | ctz
deriving DecidableEq, Repr

/-- Their results; n is BREV's count. -/
def bitResult (op : BitOp) (y : TWord) (n : Nat) : TWord :=
  let v := y.data.toNat
  match op with
  | .brev => ⟨BitVec.ofNat 64 (revBits v n), y.tag⟩
  | .parity => .int (BitVec.ofNat 64 (popCount v 64 % 2))
  | .popc => .int (BitVec.ofNat 64 (popCount v 64))
  | .clz => .int (BitVec.ofNat 64 (if v = 0 then 64 else 63 - Nat.log2 v))
  | .ctz => .int (BitVec.ofNat 64 ((firstFrom (bitOf v) 0 64).getD 64))

end Sys2Proof.Machine
end

