-- ==== Sys2Proof/Config.lean ====
section
/-! DEFINITION. What an implementation fixes and the manual does not, and the free values of the model.
Every opaque constant below has no body: nothing in Lean can say what it is, so a statement that holds, holds
whatever it is. -/

namespace Sys2Proof.Config

/-- Free values: the n-th value the manual leaves open. `State.free` supplies n (log 5). -/
opaque freeWord : Nat → Word

/-- The check bits of the error codes, which the manual does not assign to data bits (R414, log 21): SEC-DED
(39,32), extended Hamming (8,4), SEC-DED (64,56). -/
opaque check39 : BitVec 32 → BitVec 7
opaque check8 : BitVec 4 → BitVec 4
opaque check64 : BitVec 56 → BitVec 8

/-- The bits that stand in a codeword which an upset has hit (R414, log 21): by the memory word it belongs to, its number there, the
kind of the error and the bits that were written; they stay as they are from one read to the next. -/
opaque upsetBits : (place : Nat) → (codeword : Nat) → (err : Nat) → (written : Nat) → Nat

/-- The signature the identity key makes over a digest with the n-th salt (R469, R478, log 23): 384 bytes. -/
opaque identitySign : List Byte → Nat → BitVec 3072

/-- The endorsement certificate chain in the boot flash (R468, R478). -/
opaque endorsementChain : List Byte

/-- The SHA-256 of the firmware key that the boot ROM holds (R471). -/
opaque romKeyDigest : BitVec 256

/-- Whether byte offset `off` of partition `q`'s quota on bed die `b` lies in the page-table reserve (R314, log 16). -/
opaque inPageReserve : (q : Nat) → (b : Nat) → (off : Nat) → Bool

/-- Where the firmware looks for a page of partition `q`'s quota to hold the page table with number `table` (R314, log 16): its
first choice among the 4 KiB pages of the quota. -/
opaque pageTablePage : (q : Nat) → (table : Nat) → Nat

/-- The PCI-SIG vendor identifier of the vendor (R354). -/
opaque vendorId : BitVec 16

/-- The module's serial number, 16 bytes (R389). -/
opaque serial : BitVec 128

/-- The SHA-256 digest of the firmware image with which the module was shipped (R470, R480). -/
opaque shippedDigest : BitVec 256

/-- Values a delivered module reports for which the manual fixes no number (R389, R470; DESIGN CHOICE, log 8). -/
def shippedSvn : Nat := 1
def shippedFloor : Nat := 1
def shippedBuild : Nat := 1

end Sys2Proof.Config
end

