-- ==== Sys2Proof/Machine/CoreTypes.lean ====
section
/-! DEFINITION. The state of one compute core and of its turn units, movers and datapaths (spec chapters 02 to 09, 11). -/

namespace Sys2Proof.Machine

/-- A range of addresses: first address and length. -/
abbrev Rng := Nat × Nat

/-- One entry of an arm queue (R36): kind, launch turn, descriptor reference, condition word (R118), the core that
armed it, its place in that core's arming order (R239), the ranges it reads and writes in the core store (R190, R221,
R271), and for a share change its RATE and BURST (R311). -/
structure ArmEntry where
  kind : ActKind
  turn : Nat
  handle : Nat
  cond : Nat
  core : Nat
  seq : Nat
  rd : List Rng
  wr : List Rng
  rate : Nat
  burst : Nat
deriving DecidableEq, Repr

/-- A turn unit (R30, R36, R37, R41): turn counter, arm queue, arrival counters AC0 to AC7, whether it reported turn
done for its counter's turn, launch turn last armed (R38), the TCLK cycles counted against its bound (R350), and whether it has
reported that it is over its bound (R351). -/
structure TurnUnit where
  turn : Nat
  queue : List ArmEntry
  ac : SMap Nat
  done : Bool
  lastArmed : Nat
  tclk : Nat
  exceeded : Bool
deriving DecidableEq, Repr

/-- A turn unit at turn 0 with nothing armed (R32, R33). -/
def TurnUnit.reset : TurnUnit := ⟨0, [], [], false, 0, 0, false⟩

/-- Errors in the three codewords of a core-store word, 0 none, 1 correctable, 2 not (R76, R77). -/
structure CwErr where
  low : Nat
  high : Nat
  tag : Nat
deriving DecidableEq, Repr

/-- No error. -/
def CwErr.none : CwErr := ⟨0, 0, 0⟩

/-- A message in flight or in a receive buffer (R117, R275). -/
structure Msg where
  src : Nat
  dst : Nat
  chan : Nat
  word : TWord
deriving DecidableEq, Repr

/-- A line of 64 bytes as a far access receives it: its bytes, and 0 or the poison source code of an uncorrectable
read (R80, R161). -/
structure Line where
  bytes : List Byte
  bad : Nat
deriving DecidableEq, Repr

/-- A miss register of the far cache (R279): whether it is busy, the device virtual address of the line, the
physical line (address / 64), its read-only mark, secondary misses, the bytes that the core's own stores have written to the line
since the read set out and their mask (R280), whether a move of the core has written the line since (R271),
and the line once it has come back. -/
structure Mshr where
  busy : Bool
  va : Nat
  line : Nat
  ro : Bool
  sec : Nat
  own : List Byte
  mask : Nat
  stale : Bool
  got : Option Line
deriving DecidableEq, Repr

/-- A line held by a cache: physical line number, bytes, read-only mark, parity error (R277, R282, R286). -/
structure CacheLine where
  line : Nat
  bytes : List Byte
  ro : Bool
  perr : Bool
deriving DecidableEq, Repr

/-- A line of the write-combining buffer (R280): physical line, bytes, mask of the bytes written. -/
structure WcbLine where
  line : Nat
  bytes : List Byte
  mask : Nat
deriving DecidableEq, Repr

/-- A TLB entry (R313, R318): partition, first virtual page, its size in bytes, physical address, marks. -/
structure TlbEntry where
  part : Nat
  va : Nat
  size : Nat
  pa : Nat
  w : Bool
  ro : Bool
deriving DecidableEq, Repr

/-- Where a taken branch-class syllable leads once its delay bundle has committed (R119, R123, R144, R146). -/
inductive DelayAct
  | go (target : Nat) (closes : Bool)
  | fall
  | sys (n : Nat)
  | rte (words : List TWord)
deriving DecidableEq, Repr

/-- A branch whose delay bundle has not yet committed: the branch bundle's address and what follows. -/
structure Delay where
  branchPc : Nat
  act : DelayAct
deriving DecidableEq, Repr

/-- State of a tile (R238) apart from POISONED and from what the jobs in flight imply. -/
structure Tile where
  tall : Bool
  width : Nat
  poisoned : Bool
  parity : Bool
deriving DecidableEq, Repr

/-- A tile as R196 leaves it: square, FP32, not poisoned. -/
def Tile.reset : Tile := ⟨false, 0, false, false⟩

/-- One entry of a tile (R227): WIDE (64 bits for an FP64 pair), NAR, CNT, PINT, SATM. -/
structure TileEntry where
  wide : BitVec 64
  nar : BitVec 22
  cnt : Nat
  pint : Nat
  satm : Bool
deriving DecidableEq, Repr

/-- An entry as R227 leaves it. -/
def TileEntry.reset : TileEntry := ⟨0, 0, 0, 8, false⟩

/-- What has come of a line that a feeder asked for (R211, R215, R243): nothing yet, the line, or a translation failure. -/
inductive FeedGot
  | wait
  | line (l : Line)
  | fault
deriving DecidableEq, Repr

/-- A far line that a feeder asked for: the feeder (row feeder r has number r, column feeder j number 32 + j), its device virtual
address, and what came. -/
structure FeedRead where
  feeder : Nat
  va : Nat
  got : FeedGot
deriving DecidableEq, Repr

/-- An operand value as fed: the element's bits and, for MXFP4, the scale byte of its block. -/
abbrev Fed := Nat × Nat

/-- What the feeders' queues hold for one beat (R215): for each row of A and each column of B, its value for each k of the beat. -/
structure FedBeat where
  a : List (Nat × List Fed)
  b : List (Nat × List Fed)
deriving DecidableEq, Repr

/-- A fired matrix pass (R212, R216): its place in arming and firing order, turn, handle, descriptor words, its ranges, whether
it has started, the tiles whose other entries its start clears (R228, R241), whether it has begun its entries, the beats read,
the next beat whose lines are to be asked for with the number of its accesses already seen to, what each feeder was last asked for,
the feeders' queues and the lines asked for (R215), the failing element (R243), whether a feeder waits on a page
under migration (R324), and whether a line it asked for will never come (R53, R484). -/
structure PassJob where
  seq : Nat
  fire : Nat
  turn : Nat
  handle : Nat
  desc : List Word
  rd : List Rng
  started : Bool
  clear : List Nat
  began : Bool
  beat : Nat
  ahead : Nat
  asked : Nat
  lastAsk : SMap Nat
  queue : List FedBeat
  reads : List FeedRead
  fail : Option (Nat × Word)
  mig : Bool
  lost : Bool
deriving DecidableEq, Repr

/-- A pass that has just fired. -/
def PassJob.fired (seq fire turn handle : Nat) (desc : List Word) (rd : List Rng) : PassJob :=
  ⟨seq, fire, turn, handle, desc, rd, false, [], false, 0, 0, 0, [], [], [], none, false, false⟩

/-- A fired drain (R213, R218): besides what a pass holds, whether its front has started, the shape and width it reads the
tile in, the next row position, whether it writes nothing because its tile was POISONED, the row whose visit met a fault, and its statistics (R237). -/
structure DrainJob where
  seq : Nat
  fire : Nat
  turn : Nat
  handle : Nat
  desc : List Word
  rd : List Rng
  wr : List Rng
  started : Bool
  tall : Bool
  width : Nat
  row : Nat
  mute : Bool
  ended : Bool
  zeros : Nat
  sats : Nat
  nonfin : Nat
deriving DecidableEq, Repr

/-- A fired tensor-stream run (R171, R182): descriptor and program words as read at fire. -/
structure RunJob where
  seq : Nat
  fire : Nat
  turn : Nat
  handle : Nat
  desc : List TWord
  prog : List TWord
  rd : List Rng
  wr : List Rng
deriving DecidableEq, Repr

/-- A Matrix Pass Fault that has come about in the turn (R212, R243, R247): arming order, sub-cause, frame word 3,
whether a drain met it, tile, tile state code, handle. -/
structure MFault where
  seq : Nat
  sub : Nat
  addr : Word
  drain : Bool
  tile : Nat
  tstate : Nat
  handle : Nat
deriving DecidableEq, Repr

/-- What a move is doing with its current piece (R268, R270): waiting for the rest of `want` bytes, with the physical address of
the line that it has translated and asked for, holding the bytes to be written, or waiting for the acknowledgement of a write of n
bytes; `bad` the poison source of an uncorrectable line. -/
inductive MovePhase
  | idle
  | reading (want : Nat) (acc : List Byte) (bad : Nat) (asked : Option Nat)
  | have (acc : List Byte) (bad : Nat)
  | writing (n : Nat)
deriving DecidableEq, Repr

/-- A translation failure that holds a mover (R329): cause, address, write, walk level, table entry address, and the
fault-queue entry it is in, if it has entered. -/
structure Stall where
  cause : Nat
  va : Nat
  write : Bool
  level : Nat
  teaddr : Nat
  entry : Option Nat
deriving DecidableEq, Repr

/-- A move that has been given to a mover (R265, R270): `pos` bytes done; `zeroT` words zeroed for their tag, `zeroP` poison
words written to a host window (R268); `lines` the source lines that a multicast has read, by virtual address (R287). -/
structure MoveJob where
  handle : Nat
  core : Nat
  seq : Nat
  fire : Nat
  turn : Nat
  rd : List Rng
  wr : List Rng
  started : Bool
  desc : List Word
  pos : Nat
  phase : MovePhase
  zeroT : Nat
  zeroP : Nat
  stall : Option Stall
  lines : List (Nat × Line)
deriving DecidableEq, Repr

/-- A move that a mover has just been given. -/
def MoveJob.given (handle core seq fire turn : Nat) (rd wr : List Rng) : MoveJob :=
  ⟨handle, core, seq, fire, turn, rd, wr, false, [], 0, .idle, 0, 0, none, []⟩

/-- Counts that a run or a drain gave the numerics monitor (R249, R252): TID of a run; core and descriptor of a drain. -/
structure MonCount where
  drain : Bool
  tid : Nat
  core : Nat
  daddr : Nat
  nelem : Nat
  nzero : Nat
  nsat : Nat
  nnonf : Nat
  fault : Bool
deriving DecidableEq, Repr

/-- The part of a core that holds its datapath jobs, the counts on their way to the numerics monitor (R249), and the
source ranges of output posts that have fired but not completed (R373). -/
structure Jobs where
  passes : List PassJob
  drains : List DrainJob
  runs : List RunJob
  moves : List MoveJob
  counts : List MonCount
  posted : List Rng
deriving DecidableEq, Repr

/-- No job. -/
def Jobs.reset : Jobs := ⟨[], [], [], [], [], []⟩

/-- Pending and held deliveries of a core (R134, R135): interrupt events and turn-aligned exceptions that no spur has held
yet, each as (turn, vector), held exceptions, held interrupts, immediate vectors, Matrix Pass Faults of the turn,
whether vector 7 was delivered in the turn, the first faulted run of the turn (sub-cause, address), whether a run has faulted in
the turn. -/
structure Pend where
  events : List (Nat × Nat)
  turnExc : List (Nat × Nat)
  heldExc : List Nat
  heldInt : List Nat
  imm : List Nat
  mfaults : List MFault
  mdone : Bool
  vfault : Option (Nat × Word)
  vdone : Bool
deriving DecidableEq, Repr

/-- Nothing pending. -/
def Pend.reset : Pend := ⟨[], [], [], [], [], [], false, none, false⟩

/-- The far cache of a core with its miss registers and write-combining buffer (R277 to R282), and the lines
delivered to the bundle that waits at issue. -/
structure FarCache where
  lines : SMap CacheLine
  plru : SMap Nat
  mshr : SMap Mshr
  wcb : List WcbLine
  bundle : List (Nat × Line)
deriving DecidableEq, Repr

/-- An unused cache line. -/
def CacheLine.none : CacheLine := ⟨0, [], false, false⟩

/-- A free miss register. -/
def Mshr.free : Mshr := ⟨false, 0, 0, false, 0, [], 0, false, none⟩

/-- The far cache with nothing in it. -/
def FarCache.reset : FarCache := ⟨[], [], [], [], []⟩

/-- One physical core (R66), with its mover's and its drain unit's turn units; `lastTall` the shape of the
pass that started last (R196); `haltNote` while its halt notice is on the
way (R149), `overrun` while its report of a window overrun is (R143); `cycle` what CYCLE counts beside its die's own count of CCLK
cycles (R111); `vfErr` the errors of the register files' codewords, 1 correctable, 2 not (R170): codeword w of V r has number
256 r + w, of M r 4,096 + 32 r + w; `mig` while its bundle waits at issue on a page under migration (R324). -/
structure Core where
  part : Option Nat
  lcore : Nat
  halt : Nat
  haltVec : Nat
  haltNote : Bool
  a : SMap TWord
  pc : Nat
  delay : Option Delay
  branchOnly : Bool
  status : Word
  loopIn : Word
  loopOut : Word
  twait : Bool
  cycle : Word
  niLeft : Nat
  niOvt : Bool
  overrun : Bool
  store : SMap TWord
  storeErr : SMap CwErr
  bundles : SMap Word
  bundleErr : SMap Nat
  vfErr : SMap Nat
  ctlErr : Bool
  scrub : Nat
  v : SMap (BitVec 16384)
  m : SMap (BitVec 2048)
  vl : Nat
  vload : Bool
  mig : Bool
  tiles : SMap Tile
  lastTall : Bool
  entries : SMap TileEntry
  spareRow : Option Nat
  tu : TurnUnit
  mtu : TurnUnit
  dtu : TurnUnit
  armSeq : Nat
  fireSeq : Nat
  jobs : Jobs
  pend : Pend
  bind : SMap Word
  rx : SMap (List Msg)
  tx : List Msg
  msgErr : Bool
  far : FarCache
  tlb : List TlbEntry
  tlbErr : Bool
deriving DecidableEq, Repr

/-- A core that carries no logical core. Registers, stores and files to which the manual gives no value before an
image sets them hold 0 (log 11, log 12). -/
def Core.reset : Core where
  part := none
  lcore := 0
  halt := 0
  haltVec := 0
  haltNote := false
  a := []
  pc := 0
  delay := none
  branchOnly := false
  status := 0x100
  loopIn := 0
  loopOut := 0
  twait := true
  cycle := 0
  niLeft := 0
  niOvt := false
  overrun := false
  store := []
  storeErr := []
  bundles := []
  bundleErr := []
  vfErr := []
  ctlErr := false
  scrub := 0
  v := []
  m := []
  vl := 0
  vload := false
  mig := false
  tiles := []
  lastTall := false
  entries := []
  spareRow := none
  tu := TurnUnit.reset
  mtu := TurnUnit.reset
  dtu := TurnUnit.reset
  armSeq := 0
  fireSeq := 0
  jobs := Jobs.reset
  pend := Pend.reset
  bind := []
  rx := []
  tx := []
  msgErr := false
  far := FarCache.reset
  tlb := []
  tlbErr := false

end Sys2Proof.Machine
end

