-- ==== Sys2Proof/Machine/MemTypes.lean ====
section
/-! DEFINITION. The state of bed dies, HBM stacks and compute dies (spec chapters 11 to 13, 18). -/

namespace Sys2Proof.Machine

/-- Who waits for the answer to a memory request. -/
inductive Requester
  | miss (core : Nat) (reg : Nat)
  | wcb (core : Nat)
  | mover (core : Nat)
  | bulk (die : Nat)
  | feeder (core fire unit va : Nat)
  | monitor
  | recorder
  | bedFill (bed : Nat)
  | host
  | bar2 (p : PortId) (k : Nat)
  | frame (stream va : Nat)
deriving DecidableEq, Repr

/-- One request to a bed store or to HBM for (part of) one line (R290, R294): partition, race unit, low turn bits,
check enable, read-only mark, physical line, write or read, bytes, mask of written bytes, mask of 8-byte words to be
written with the check pattern of R81, requester. -/
structure MemReq where
  part : Nat
  unit : Nat
  turn16 : Nat
  chk : Bool
  ro : Bool
  line : Nat
  write : Bool
  bytes : List Byte
  mask : Nat
  poison : Nat
  who : Requester
deriving DecidableEq, Repr

/-- A bed-store stamp word without its check bits (R288). -/
structure Stamp where
  reader : Nat
  rstamp : Nat
  writer : Nat
  wstamp : Nat
deriving DecidableEq, Repr

/-- The cold stamp word (R288). -/
def Stamp.cold : Stamp := ⟨0xFFF, 0, 0xFFF, 0⟩

/-- One bed die (R285 to R291). Errors are kept per 8-byte word and per stamp word: 1 correctable, 2 not. -/
structure Bed where
  up : Bool
  store : Mem
  err : SMap Nat
  stamps : SMap Stamp
  stampErr : SMap Nat
  sweep : Nat
  sweepLeft : SMap Nat
  cacheMiB : Nat
  cache : SMap CacheLine
  plru : SMap Nat
  fillQ : List MemReq
  reqs : List MemReq
  refcyc : Nat
deriving DecidableEq, Repr

/-- A bed die after reset. -/
def Bed.reset : Bed := ⟨false, [], [], [], [], 0, [], 0, [], [], [], [], 0⟩

/-- The regulator of one partition on one stack (R308, R312): RATE, BURST, tokens in units of 1/256 of 1/8 of a line,
LINES, the transactions that wait, the turn unit. -/
structure Regulator where
  rate : Nat
  burst : Nat
  tokens : Nat
  lines : Nat
  waiting : List MemReq
  tu : TurnUnit
deriving DecidableEq, Repr

/-- A regulator with no share. -/
def Regulator.reset : Regulator := ⟨0, 0, 0, 0, [], TurnUnit.reset⟩

/-- An entry of a reorder queue: the transaction and how many younger ones have passed it (R295). -/
structure QEntry where
  req : MemReq
  passed : Nat
deriving DecidableEq, Repr

/-- A remap table entry (R301). -/
structure Remap where
  valid : Bool
  sid : Nat
  bank : Nat
  row : Nat
deriving DecidableEq, Repr

/-- An unused remap entry. -/
def Remap.none : Remap := ⟨false, 0, 0, 0⟩

/-- A row of a stack: pseudo-channel, SID, bank, row. -/
structure HRow where
  pc : Nat
  sid : Nat
  bank : Nat
  row : Nat
deriving DecidableEq, Repr

/-- The row copy in progress (R303): the row, its spare entry, the next line, transactions served since the last line
copy, whether the entry stands in the inactive table. -/
structure RowCopy where
  row : HRow
  spare : Nat
  line : Nat
  since : Nat
deriving DecidableEq, Repr

/-- One HBM stack (R292 to R312). -/
structure Stack where
  up : Bool
  temp : Int
  tmax : Int
  step : Nat
  sinceStep : Nat
  coolRun : Nat
  table0 : SMap Remap
  table1 : SMap Remap
  active : Nat
  copy : Option RowCopy
  pendingRows : List HRow
  deferred : Nat
  unpersist : List (Nat × HRow × Bool)
  noSpare : List HRow
  regs : SMap Regulator
  entering : List MemReq
  queues : SMap (List QEntry)
  spare : Mem
  spareErr : SMap Nat
  patrol : Nat
deriving DecidableEq, Repr

/-- A stack after reset, before training. -/
def Stack.reset : Stack where
  up := false
  temp := 0
  tmax := 0
  step := 8
  sinceStep := 10
  coolRun := 0
  table0 := []
  table1 := []
  active := 0
  copy := none
  pendingRows := []
  deferred := 0
  unpersist := []
  noSpare := []
  regs := []
  entering := []
  queues := []
  spare := []
  spareErr := []
  patrol := 0

/-- A fault-queue entry (R331), with the die's CCLK count at its creation (R330). -/
structure FqEntry where
  valid : Bool
  write : Bool
  part : Nat
  level : Nat
  cause : Nat
  va : Nat
  teaddr : Nat
  refcyc : Nat
  engines : List Nat
  turn : Nat
  cclk : Nat
deriving DecidableEq, Repr

/-- A free fault-queue entry. -/
def FqEntry.free : FqEntry := ⟨false, false, 0, 0, 0, 0, 0, 0, [], 0, 0⟩

/-- An access counter (R325): whether in use, partition, VA[47:21], count. -/
structure AccCtr where
  used : Bool
  part : Nat
  region : Nat
  count : Nat
deriving DecidableEq, Repr

/-- A free access counter. -/
def AccCtr.free : AccCtr := ⟨false, 0, 0, 0⟩

/-- A hot-page entry (R326). -/
structure HotEntry where
  part : Nat
  region : Nat
  refcyc : Nat
deriving DecidableEq, Repr

/-- The bulk mover of a die for one partition (R31, R267): turn unit and moves. -/
structure Bulk where
  tu : TurnUnit
  moves : List MoveJob
deriving DecidableEq, Repr

/-- A bulk mover with nothing to do. -/
def Bulk.reset : Bulk := ⟨TurnUnit.reset, []⟩

/-- One compute die (R23, R325 to R334, R425, R448, R453); `served` the partition that its bulk mover served last (R344),
`decayed` the number of decays made (R325). -/
structure Die where
  up : Bool
  fenced : Bool
  inBist : Bool
  refcyc : Nat
  cclk : Nat
  disabled : List Nat
  bulk : SMap Bulk
  served : Nat
  tlb : List TlbEntry
  tlbErr : Bool
  fq : SMap FqEntry
  stalled : List Nat
  fqOvf : Bool
  badRes : Bool
  hotThresh : Nat
  acc : SMap AccCtr
  decayed : Nat
  hpq : List HotEntry
  hpqDrop : Nat
deriving DecidableEq, Repr

/-- A compute die after reset. -/
def Die.reset : Die where
  up := false
  fenced := false
  inBist := false
  refcyc := 0
  cclk := 0
  disabled := []
  bulk := []
  served := 0
  tlb := []
  tlbErr := false
  fq := []
  stalled := []
  fqOvf := false
  badRes := false
  hotThresh := 0x80
  acc := []
  decayed := 0
  hpq := []
  hpqDrop := 0

end Sys2Proof.Machine
end

