-- ==== Sys2Proof/Machine/PartTypes.lean ====
section
/-! DEFINITION. The state of a partition (spec chapters 02, 10, 13, 14, 15, 17). -/

namespace Sys2Proof.Machine

/-- The states of R29 and R338. -/
inductive PartSt | empty | configured | running | stopped | faulted
deriving DecidableEq, Repr

/-- How the last stop of a partition came about (R59, R397). -/
inductive StopHow | never | boundary | quiescent | within
deriving DecidableEq, Repr

/-- A host window (R95). -/
structure Window where
  dva : Nat
  iova : Nat
  len : Nat
  writable : Bool
deriving DecidableEq, Repr

/-- What kind of mapping change a command asks for (R320, R133); a migration that has been made leaves only its notice to the
boundary. -/
inductive ChangeKind | map | unmap | windowOpen | windowClose | migrated
deriving DecidableEq, Repr

/-- A mapping change that waits for a turn boundary (R320), in a replay for that of the turn it was recorded in (R433; else
the turn is 0): the range, its new leaves as (address, length, physical address), the window table entry, and what
the recorder writes of its command (R427, R429). -/
structure MapChange where
  kind : ChangeKind
  va : Nat
  len : Nat
  pieces : List (Nat × Nat × Nat)
  w : Bool
  ro : Bool
  window : Option (Nat × Option Window)
  opcode : Nat
  params : List Byte
  key : Nat
  turn : Nat
deriving DecidableEq, Repr

/-- A region of the partition's mappings (R319, R327): first address, length, physical address, W, RO, MIG. The firmware
keeps it to judge later commands and writes the page tables from it; the translation uses the page tables. -/
structure Region where
  va : Nat
  len : Nat
  pa : Nat
  w : Bool
  ro : Bool
  mig : Bool
deriving DecidableEq, Repr

/-- The numerics monitor of a partition (R248 to R256): table address, counts of the open turn, log entries still to be
written, each with LOGBASE and LOGSZ of its own turn's table, next SEQ, whether a log write has failed, the turns that threshold
flags name (R255). -/
structure Monitor where
  montab : Nat
  counts : List MonCount
  logQ : List (Nat × Nat × List Byte)
  seq : Nat
  failed : Bool
  flags : List Nat
deriving DecidableEq, Repr

/-- The monitor of a partition whose image names no table. -/
def Monitor.reset : Monitor := ⟨0, [], [], 1, false, []⟩

/-- An output post that has fired (R58, R374, R430): stream, firing core, the bytes it produced, whether a word was
poisoned, and its turn. -/
structure Post where
  stream : Nat
  lcore : Nat
  bytes : List Byte
  poison : Bool
  turn : Nat
deriving DecidableEq, Repr

/-- Where an increment of an arrival counter travels (R270): the unit, the counter, the mover that sends it, and
the core that armed the move (R37). -/
structure Notify where
  unit : UnitRef
  ac : Nat
  sender : MoverRef
  by' : Nat
deriving DecidableEq, Repr

/-- A migration in progress (R327): the region, its destination, the port and mailbox of its command. -/
structure Migration where
  va : Nat
  dest : Nat
  port : PortId
  mbx : Nat
deriving DecidableEq, Repr

/-- A stream declaration (R341). -/
structure StreamDecl where
  num : Nat
  output : Bool
  lead : Bool
  period : Nat
  deadline : Nat
  hostlat : Nat
  bytes : Nat
deriving DecidableEq, Repr

/-- A fetched frame: its length, its bytes, and the turn in which its launch fired (R372, R373). -/
structure Frame where
  len : Nat
  fetched : Bool
  launched : Option Nat
deriving DecidableEq, Repr

/-- A fetch in progress: the frame, where the host holds it, its length, the submission's USER word, and the lines of it that a
migration has moved to HBM, by device virtual address, as they come. -/
structure Fetch where
  k : Nat
  buf : Nat
  len : Nat
  user : Word
  lines : List (Nat × Option Line)
deriving DecidableEq, Repr

/-- An open stream (R369 to R375, R404). Indices count submissions from STREAM_OPEN on without wrapping. -/
structure Stream where
  vector : Nat
  entries : Nat
  nslot : Nat
  sqIova : Nat
  cqIova : Nat
  slotBase : Nat
  slotStride : Nat
  core : Nat
  sqTail : Nat
  cqHead : Nat
  cqCount : Nat
  next : Nat
  taken : Nat
  frames : SMap Frame
  fetch : Option Fetch
deriving DecidableEq, Repr

/-- A frame not fetched. -/
def Frame.none : Frame := ⟨0, false, Option.none⟩

/-- The settings of a configuration record (R335, R393), and the record as its command carried it. -/
structure PartCfg where
  raceOff : Bool
  span : Nat
  member : Nat
  spanId : Nat
  groups : List Nat
  bedq : List Nat
  hbmCap : Nat
  hshare : Nat
  reg : List (Nat × Nat)
  ls : List Nat
  lks : Nat
  links : List Nat
  streams : List StreamDecl
  raw : List Byte
deriving DecidableEq, Repr

/-- A program image with the number of logical cores it is for and the SHA-256 of its bytes (R392, R428). -/
structure Image where
  parts : ProgImage
  ncore : Nat
  npro : Nat
  ncyc : Nat
  len : Nat
  digest : List Byte
deriving DecidableEq, Repr

/-- The capacities that admission used (R345, R346): least capacity in GB/s of roles M, W and H, least link rate, link
hops to the farthest member. -/
structure Caps where
  mcap : Nat
  wcap : Nat
  hcap : Nat
  lrate : Nat
  hops : Nat
deriving DecidableEq, Repr

/-- An admission report (R348, R396), times in picoseconds. -/
structure Report where
  worst : Nat
  limit : Nat
  margin : Nat
  turn : Nat
  term : Nat
  test : Nat
deriving DecidableEq, Repr

/-- No report yet: every byte 0. -/
def Report.none : Report := ⟨0, 0, 0, 0, 0, 0⟩

/-- A turn end that the recorder, or the replay, has still to deal with (R427, R430, R434). -/
structure TurnEnd where
  turn : Nat
  incomplete : Bool
  nd : Bool
  posts : List Post
deriving DecidableEq, Repr

/-- The recorder of a partition (R405, R426 to R431): mode, ring, offset of the next item, header fields, its turn unit,
occurrences of window lines in the open turn as (unit, line, count). -/
structure Recorder where
  mode : Nat
  ringVa : Nat
  ringLen : Nat
  off : Nat
  items : Nat
  first : Nat
  last : Nat
  nd : Bool
  fullstop : Bool
  incomplete : Bool
  isOpen : Bool
  epoch : Word
  tu : TurnUnit
  lines : List (Nat × Nat × Nat)
deriving DecidableEq, Repr

/-- A recorder that is OFF. -/
def Recorder.reset : Recorder := ⟨0, 0, 0, 0, 0, 0, 0, false, false, false, false, 0, TurnUnit.reset, []⟩

/-- An item of a record as the replay reads it (R429). -/
structure RecItem where
  kind : Nat
  flags : Nat
  unit : Nat
  len : Nat
  turn : Nat
  key : Nat
  sub : Nat
  content : List Byte
  digest : List Byte
deriving DecidableEq, Repr

/-- A replay in progress (R406, R433, R434): its command, its last turn, the record's items, turns compared, and the
divergence found: turn, unit, stream; window lines served in the open turn; what migrations installed, by host physical
address, with the regions they cover. -/
structure Replay where
  port : PortId
  mbx : Nat
  last : Nat
  items : List RecItem
  turns : Nat
  div : Option (Nat × Nat × Nat)
  lines : List (Nat × Nat × Nat)
  migrAt : List Nat
  migrMem : List (Nat × Byte)
deriving DecidableEq, Repr

/-- A partition (R335). `bedAt` and `hbmAt` are where the firmware has put its bed-store quotas (bed die, first 2 MiB granule,
number of granules) and its HBM capacity (first granule, number), in the order of offsets within each;
`remote` the logical cores of the partition that other modules of its span carry (R460). -/
structure Part where
  st : PartSt
  owner : PortId
  stopStat : Nat
  incomplete : Bool
  revoked : Bool
  nd : Bool
  turn : Nat
  how : StopHow
  cfg : Option PartCfg
  img : Option Image
  place : List (Nat × Nat)
  masterBed : Nat
  masterSlot : Nat
  bedAt : List (Nat × Nat × Nat)
  hbmAt : List (Nat × Nat)
  report : Report
  caps : Caps
  capsNext : Option Caps
  windows : SMap (Option Window)
  winNext : SMap (Option Window)
  regions : List Region
  regNext : List Region
  changes : List MapChange
  pt : SMap Word
  ptErr : SMap Nat
  streams : SMap (Option Stream)
  seed : Word
  seedNext : Option Word
  spurTo : List UnitRef
  stopReq : Option (PortId × Nat)
  posts : List Post
  postQ : List Post
  recd : Recorder
  recNext : Option (Nat × Nat × Nat)
  turnEnds : List TurnEnd
  replay : Option Replay
  mon : Monitor
  migr : Option Migration
  notifies : List Notify
  remote : List Nat
deriving DecidableEq, Repr

/-- No capacities. -/
def Caps.none : Caps := ⟨0, 0, 0, 0, 0⟩

/-- A partition number that names no partition: EMPTY (R338). -/
def Part.reset : Part where
  st := .empty
  owner := .a
  stopStat := 0
  incomplete := false
  revoked := false
  nd := false
  turn := 0
  how := .never
  cfg := none
  img := none
  place := []
  masterBed := 0
  masterSlot := 0
  bedAt := []
  hbmAt := []
  report := Report.none
  caps := Caps.none
  capsNext := none
  windows := []
  winNext := []
  regions := []
  regNext := []
  changes := []
  pt := []
  ptErr := []
  streams := []
  seed := 0
  seedNext := none
  spurTo := []
  stopReq := none
  posts := []
  postQ := []
  recd := Recorder.reset
  recNext := none
  turnEnds := []
  replay := none
  mon := Monitor.reset
  migr := none
  notifies := []
  remote := []

end Sys2Proof.Machine
end

