-- ==== Sys2Proof/Machine/HostTypes.lean ====
section
/-! DEFINITION. The state of the headstock, its ports, the fault log, the boot flash, power and lanes (spec chapters
15 to 19), and what the block has put on its ports. -/

namespace Sys2Proof.Machine

/-- An answer to an SPDM request (R479): the request's fields that matter, not a byte encoding (log 22). -/
inductive Spdm
  | busy
  | unexpected
  | version
  | capabilities
  | algorithms
  | noAlgorithm
  | digests (d : List Byte)
  | certificate (bytes : List Byte) (remainder : Nat)
  | challengeAuth (certDigest : List Byte) (measurements : List Byte) (signature : BitVec 3072)
  | measurements (count : Nat) (blocks : List (Nat × List Byte)) (signature : Option (BitVec 3072))
  | invalid
deriving DecidableEq, Repr

/-- What the block puts on its ports and pins (log 4), and on its scale-out links for the other modules of a span (R60, R117,
R460). -/
inductive Output
  | msix (p : PortId) (vector : Nat)
  | hostWrite (p : PortId) (iova : Nat) (bytes : List Byte)
  | readData (p : PortId) (bytes : List Byte)
  | bar2Data (p : PortId) (bytes : List Byte) (poisoned : Bool)
  | dieRead (d : DieId) (w0 w1 : Word)
  | spdm (p : PortId) (answer : Spdm)
  | mgmtRead (bytes : List Byte)
  | spanStart (part turn : Nat)
  | spanSpur (part turn : Nat)
  | spanDone (part turn count : Nat)
  | spanMsg (part : Nat) (m : Msg)
deriving DecidableEq, Repr

/-- Severities of fault-log entries (R422). -/
inductive Sev | info | transient | lasting | stop | health
deriving DecidableEq, Repr

/-- A fault-log entry (R422). -/
structure LogEntry where
  code : Nat
  cls : Nat
  sev : Sev
  part : Option Nat
  src : Nat
  refcyc : Nat
  epoch : Word
  turn : Nat
  addr : Nat
  unit : Nat
  count : Nat
  d0 : Nat
  d1 : Nat
deriving DecidableEq, Repr

/-- A notice the firmware has to write (R361). -/
structure Notice where
  kind : Nat
  part : Nat
  state : Nat
  status : Nat
  turn : Nat
  refcyc : Nat
  epoch : Word
deriving DecidableEq, Repr

/-- A notice or hot-page ring (R359, R360). -/
structure Ring where
  base : Nat
  en : Bool
  size : Nat
  head : Nat
  tail : Nat
  drop : Nat
deriving DecidableEq, Repr

/-- A ring after reset. -/
def Ring.reset : Ring := ⟨0, false, 0, 0, 0, 0⟩

/-- The result of a mailbox command: status and response block (R365, R386). -/
structure MbxResult where
  status : Nat
  data : List Byte
deriving DecidableEq, Repr

/-- What a command is judged by as it stood at acceptance (R387, R412): the state of the partition it names, the status with which
that state refuses a start, and the retired bundles. -/
structure Seen where
  st : PartSt
  refusal : Option Nat
  retired : List Nat
deriving DecidableEq, Repr

/-- Nothing seen. -/
def Seen.reset : Seen := ⟨.empty, none, []⟩

/-- A control mailbox (R362 to R367): STATE, LASTSTAT, ABANDONED, SEQ, REFUSED, the areas, the accepted copy, whether the
command in hand has been carried out, its result once there is one, its place in the module's order of acceptances (R391), and what
it is judged by. -/
structure Mbx where
  state : Nat
  lastStat : Nat
  abandoned : Bool
  seq : Nat
  refused : Nat
  cmd : Mem
  copy : Mem
  resp : Mem
  ran : Bool
  result : Option MbxResult
  order : Nat
  seen : Seen
deriving DecidableEq, Repr

/-- A mailbox after reset. -/
def Mbx.reset : Mbx := ⟨0, 0, false, 0, 0, [], [], [], false, none, 0, Seen.reset⟩

/-- The result of a hard-mailbox operation: RESULT, INFO, and the data area when it produces data. -/
structure HmbResult where
  result : Nat
  info : Nat
  data : Option (List Byte)
deriving DecidableEq, Repr

/-- The hard mailbox of a port (R377, R378). -/
structure Hmb where
  state : Nat
  result : Nat
  info : Nat
  refused : Nat
  op : Nat
  arg : Nat
  done : Option HmbResult
  data : Mem
deriving DecidableEq, Repr

/-- A hard mailbox after reset. -/
def Hmb.reset : Hmb := ⟨0, 0, 0, 0, 0, 0, none, []⟩

/-- An MSI-X table entry (R355, R358): address, data, mask bit. -/
structure MsixEntry where
  addr : Word
  data : Nat
  masked : Bool
deriving DecidableEq, Repr

/-- An MSI-X entry after reset: masked (log 31). -/
def MsixEntry.reset : MsixEntry := ⟨0, 0, true⟩

/-- How far the SPDM exchange of a port's DOE mailbox has come (R479). -/
inductive DoeStage | start | version | capabilities | algorithms
deriving DecidableEq, Repr

/-- The configuration registers of a function (R354, R358, R383): the base addresses, MSI-X Enable and Function Mask, payload and
read-request sizes as PCIe codes them, completion-timeout range and disabling, the AER registers. -/
structure PcieCfg where
  bar0 : Nat
  bar2 : Nat
  msixEn : Bool
  msixMask : Bool
  payload : Nat
  readReq : Nat
  ctoRange : Nat
  ctoOff : Bool
  aer : SMap Nat
deriving DecidableEq, Repr

/-- A function's configuration registers after reset (PRESUMED, log 31: as PCIe 6.0 resets them). -/
def PcieCfg.reset : PcieCfg := ⟨0, 0, false, false, 0, 2, 0, false, []⟩

/-- A line that a BAR2 read needs (R310, R357): its partition and physical line, the first byte and the number of bytes read of it, and,
once it has come, these bytes with whether the line was uncorrectable. What an unmapped page gives has come at once. -/
structure Bar2Line where
  part : Nat
  line : Nat
  first : Nat
  len : Nat
  got : Option (List Byte × Bool)
deriving DecidableEq, Repr

/-- A BAR2 read that waits for lines: its number, its lines in address order, and whether it has met an unmapped page. -/
structure Bar2Read where
  k : Nat
  lines : List Bar2Line
  unmapped : Bool
deriving DecidableEq, Repr

/-- One PCIe port (R354 to R383). -/
structure Port where
  cfg : PcieCfg
  linkUp : Bool
  perst : Bool
  quiesced : Bool
  d3 : Bool
  intCause : Nat
  bar2Unmap : Nat
  bar2Wr : Nat
  dbIgnored : Nat
  ringErr : Nat
  bar2Ue : Nat
  noBuf : Nat
  ntc : Ring
  hpr : Ring
  mbx : SMap Mbx
  hmb : Hmb
  msix : SMap MsixEntry
  pba : Nat
  bar2 : SMap (Option (Nat × Nat))
  reads : List Bar2Read
  readNext : Nat
  staged : SMap (Option Image)
  nextHandle : Nat
  notices : List Notice
  hot : List HotEntry
  doe : DoeStage
deriving DecidableEq, Repr

/-- A port after MOD_RESET_N: link down (R381), every register at its Reset value. -/
def Port.reset : Port where
  cfg := PcieCfg.reset
  linkUp := false
  perst := false
  quiesced := false
  d3 := false
  intCause := 0
  bar2Unmap := 0
  bar2Wr := 0
  dbIgnored := 0
  ringErr := 0
  bar2Ue := 0
  noBuf := 0
  ntc := Ring.reset
  hpr := Ring.reset
  mbx := []
  hmb := Hmb.reset
  msix := []
  pba := 0
  bar2 := []
  reads := []
  readNext := 0
  staged := []
  nextHandle := 1
  notices := []
  hot := []
  doe := .start

/-- Module health (R29, R424). -/
inductive Health | initializing | ready | degraded | failed
deriving DecidableEq, Repr

/-- A firmware slot of the boot flash (R471): how many of checks 1 to 3 of R471 its image passes (3 when all), SVN,
BUILD, and the SHA-256 of header, body and signature. -/
structure FwSlot where
  checks : Nat
  svn : Nat
  build : Nat
  digest : List Byte
deriving DecidableEq, Repr

/-- An entry of a remap list (R301, R305). -/
structure RemapRec where
  spare : Nat
  row : HRow
  defer : Bool
deriving DecidableEq, Repr

/-- The repair record (R468): retired cores, spare-row assignments, disabled TLB ways, withheld granules, retired bundles,
retired lanes, retired link lanes, chatter thresholds, bed-cache sizes in MiB. -/
structure Repair where
  cores : List Nat
  rows : SMap (Option Nat)
  ways : List (Nat × Nat)
  granules : List (Nat × Nat)
  bundles : List Nat
  lanes : List (Nat × Nat)
  linkLanes : List (Nat × Nat)
  thresh : SMap (Option Nat)
  bedCache : SMap Nat
deriving DecidableEq, Repr

/-- A record that names nothing. -/
def Repair.empty : Repair := ⟨[], [], [], [], [], [], [], [], []⟩

/-- The boot flash (R468): directory, floor, slots, lane plan, repair record, remap lists, and the marks that take effect at
the next reset (R419, R474); `pendWritten` the core marks that have been appended (R305, R419). -/
structure Flash where
  active : Option Nat
  floorPend : Option Nat
  floor : Nat
  slotA : FwSlot
  slotB : FwSlot
  plan : Option (List Nat)
  repair : Repair
  remaps : SMap (List RemapRec)
  pendCores : List Nat
  pendWritten : List Nat
  pendRows : List (Nat × Nat)
  pendWays : List (Nat × Nat)
  pendGranules : List (Nat × Nat)
deriving DecidableEq, Repr

/-- The flash of a delivered module (R389, R470), with the SVN, BUILD and floor that log 8 names. -/
def Flash.shipped : Flash where
  active := some 0
  floorPend := some 1
  floor := 1
  slotA := ⟨3, 1, 1, []⟩
  slotB := ⟨0, 0, 0, []⟩
  plan := none
  repair := Repair.empty
  remaps := []
  pendCores := []
  pendWritten := []
  pendRows := []
  pendWays := []
  pendGranules := []

/-- A chatter counter (R416): the window it counts in, and its count. -/
structure Chat where
  window : Nat
  count : Nat
deriving DecidableEq, Repr

/-- A counter that has counted nothing. -/
def Chat.zero : Chat := ⟨0, 0⟩

/-- A lane bundle (R441 to R447): role in force, retired, lasting-faulty lanes, spares used, working lanes, lanes whose
spare is in training, a retirement that waits for its route change, CRC retries in a window (R413). -/
structure Bundle where
  role : Nat
  retired : Bool
  lasting : List Nat
  spUsed : Nat
  good : Nat
  swaps : List Nat
  retiring : Bool
  retry : Chat
deriving DecidableEq, Repr

/-- A bundle before training. -/
def Bundle.reset : Bundle := ⟨0, false, [], 0, 18, [], false, Chat.zero⟩

/-- A scale-out link (R457 to R461): trained, lanes in use, spare in use, lasting lanes, a lane whose spare is in
training, whether it trained at reset, the far end, FEC corrections in a window (R413). -/
structure Link where
  up : Bool
  lanes : Nat
  spUsed : Bool
  lasting : List Nat
  swap : Option Nat
  trained : Bool
  peer : Option LinkPeer
  fec : Chat
deriving DecidableEq, Repr

/-- A link that is down. -/
def Link.reset : Link := ⟨false, 0, false, [], none, false, none, Chat.zero⟩

/-- Chatter counters (R415 to R418): thresholds written over those of the repair record, counters by resource,
lasting-faulty resources. -/
structure Chatter where
  thresh : SMap (Option Nat)
  counters : SMap Chat
  lasting : SMap Bool
deriving DecidableEq, Repr

/-- The headstock (R363, R391, R422, R424, R453, R478): health, firmware running, restart in progress, running slot and
the image that runs, whether programming mode is in force, epoch marker, reference-cycle counter, fault log, device key, the port the
hard-mailbox sequencer served last, partitions whose spur a route change holds, whether a degradation event waits for
its re-admission (R352), whether the power-up sequence has reached its step 8 (R475), how many mailbox commands have been accepted
(R391), and the two control cores (R66, log 87). -/
structure Headstock where
  health : Health
  fwRun : Bool
  fwRestart : Bool
  slot : Nat
  fw : FwSlot
  progMode : Bool
  epoch : Word
  refcyc : Nat
  log : SMap (Option LogEntry)
  logNext : Nat
  keyReady : Bool
  hmbLast : PortId
  routeHold : List Nat
  readmit : Bool
  bootDone : Bool
  tlb : List TlbEntry
  tlbErr : Bool
  planRoles : List Nat
  repairDigest : List Byte
  accepted : Nat
  control : SMap Core
deriving DecidableEq, Repr

/-- Power, junctions and pins (R456, R463 to R467, R470, R476). -/
structure Power where
  good : Bool
  modReset : Bool
  rails : Bool
  hist : List Nat
  vin : Nat
  upOk : Nat
  overRun : Nat
  step : SMap Nat
  stepAge : SMap Nat
  junc : SMap Int
  juncOk : SMap Nat
  tripCause : Nat
  tripSrc : Nat
  trip : Bool
  bootSel : Nat
  trst : Bool
  setFail : Bool
deriving DecidableEq, Repr

/-- The management target (R477): read offset, ALERT, dynamic address. -/
structure Mgmt where
  off : Nat
  alert : Nat
  addr : Option Nat
deriving DecidableEq, Repr

/-- The headstock after MOD_RESET_N. -/
def Headstock.reset : Headstock where
  health := .initializing
  fwRun := false
  fwRestart := false
  slot := 0
  fw := ⟨0, 0, 0, []⟩
  progMode := false
  epoch := 0
  refcyc := 0
  log := []
  logNext := 0
  keyReady := false
  hmbLast := .b
  routeHold := []
  readmit := false
  bootDone := false
  tlb := []
  tlbErr := false
  planRoles := []
  repairDigest := []
  accepted := 0
  control := []

/-- Power with MOD_RESET_N asserted and power good (log 9). -/
def Power.reset : Power where
  good := true
  modReset := true
  rails := true
  hist := []
  vin := 0
  upOk := 0
  overRun := 0
  step := []
  stepAge := []
  junc := []
  juncOk := []
  tripCause := 0
  tripSrc := 0xFF
  trip := false
  bootSel := 0
  trst := false
  setFail := false

end Sys2Proof.Machine
end

