-- ==== Sys2Proof/Machine/State.lean ====
section
/-! DEFINITION. The state of the module: everything the manual gives it, the queue of waiting commands, and the
model's own counter of free values and list of outputs; its stops; and the state right after reset. -/

namespace Sys2Proof.Machine

/-- The module. Groups of like things are sparse maps by their number in the manual, whose default is the thing as
reset leaves it. -/
structure State where
  pending : List Instr
  free : Nat
  out : List Output
  power : Power
  mgmt : Mgmt
  hs : Headstock
  chat : Chatter
  flash : Flash
  portA : Port
  portB : Port
  parts : SMap Part
  cores : SMap Core
  dies : SMap Die
  beds : SMap Bed
  hbms : SMap Stack
  hbm : Mem
  hbmErr : SMap Nat
  lanes : SMap Bundle
  links : SMap Link
deriving DecidableEq, Repr

/-- The stops of the model that are faults. -/
inductive Fault
  /-- Raised by no meaning: every effect of the manual is a next state. Safe. -/
  | none
deriving DecidableEq, Repr

/-- The stops of the model that are refusals. -/
inductive Refusal
  /-- Raised by an arm of Dispatch.lean for a command that has no meaning yet. Safe. -/
  | notModelled (mnemonic : String)
deriving DecidableEq, Repr

/-- The module right after reset: power good, MOD_RESET_N asserted, nothing listed in any memory, no command waiting. -/
def State.reset : State where
  pending := []
  free := 0
  out := []
  power := Power.reset
  mgmt := ⟨0, 0, Option.none⟩
  hs := Headstock.reset
  chat := ⟨[], [], []⟩
  flash := Flash.shipped
  portA := Port.reset
  portB := Port.reset
  parts := []
  cores := []
  dies := []
  beds := []
  hbms := []
  hbm := []
  hbmErr := []
  lanes := []
  links := []

end Sys2Proof.Machine
end

