-- ==== Sys2Proof/Machine/Ops.lean ====
section
/-! DEFINITION. The named operations over the state that the meanings of all families share: access to the indexed
groups, free values, outputs and vectors, the fault log, notices, module health, and stopping a partition. -/

namespace Sys2Proof.Machine

/-- A command's meaning that always has a next state. -/
abbrev Answer := Host.Outcome State Fault Refusal

namespace State

def core (s : State) (c : Nat) : Core := SMap.get Core.reset c s.cores
def updCore (c : Nat) (f : Core → Core) (s : State) : State := { s with cores := SMap.upd Core.reset c f s.cores }
def part (s : State) (q : Nat) : Part := SMap.get Part.reset q s.parts
def updPart (q : Nat) (f : Part → Part) (s : State) : State := { s with parts := SMap.upd Part.reset q f s.parts }
def die (s : State) (d : Nat) : Die := SMap.get Die.reset d s.dies
def updDie (d : Nat) (f : Die → Die) (s : State) : State := { s with dies := SMap.upd Die.reset d f s.dies }
def bed (s : State) (b : Nat) : Bed := SMap.get Bed.reset b s.beds
def updBed (b : Nat) (f : Bed → Bed) (s : State) : State := { s with beds := SMap.upd Bed.reset b f s.beds }
def stack (s : State) (k : Nat) : Stack := SMap.get Stack.reset k s.hbms
def updStack (k : Nat) (f : Stack → Stack) (s : State) : State := { s with hbms := SMap.upd Stack.reset k f s.hbms }
def lane (s : State) (b : Nat) : Bundle := SMap.get Bundle.reset b s.lanes
def updLane (b : Nat) (f : Bundle → Bundle) (s : State) : State := { s with lanes := SMap.upd Bundle.reset b f s.lanes }
def link (s : State) (l : Nat) : Link := SMap.get Link.reset l s.links
def updLink (l : Nat) (f : Link → Link) (s : State) : State := { s with links := SMap.upd Link.reset l f s.links }

def port (s : State) : PortId → Port
  | .a => s.portA
  | .b => s.portB

def updPort (p : PortId) (f : Port → Port) (s : State) : State :=
  match p with
  | .a => { s with portA := f s.portA }
  | .b => { s with portB := f s.portB }

def mbx (s : State) (p : PortId) (m : Nat) : Mbx := SMap.get Mbx.reset m (s.port p).mbx
def updMbx (p : PortId) (m : Nat) (f : Mbx → Mbx) (s : State) : State :=
  s.updPort p fun x => { x with mbx := SMap.upd Mbx.reset m f x.mbx }
def updHs (f : Headstock → Headstock) (s : State) : State := { s with hs := f s.hs }
def updPower (f : Power → Power) (s : State) : State := { s with power := f s.power }
def updFlash (f : Flash → Flash) (s : State) : State := { s with flash := f s.flash }

/-- The next free value (log 5). -/
def freeVal (s : State) : Word := Config.freeWord s.free
/-- The free value is used up. -/
def drew (s : State) : State := { s with free := s.free + 1 }
/-- n free values are used up. -/
def drewN (n : Nat) (s : State) : State := { s with free := s.free + n }

/-- Something put on a port or pin. -/
def emit (o : Output) (s : State) : State := { s with out := s.out ++ [o] }

end State

/-- The module runs: power is good and MOD_RESET_N is deasserted (R463, R473). -/
def State.running (s : State) : Bool := s.power.good && !s.power.modReset

/-- The other port. -/
def otherPort : PortId → PortId
  | .a => .b
  | .b => .a

/-- 0 for port A, 1 for port B (R359). -/
def portNum : PortId → Nat
  | .a => 0
  | .b => 1

/-- Die of a physical core (R262). -/
def dieOfCore (c : Nat) : Nat := c / 108
/-- Bed die that carries a compute die (R438). -/
def bedOfDie (d : Nat) : Nat := d / 3
/-- Bed die that carries a stack (R292). -/
def bedOfStack (k : Nat) : Nat := k / 2

/-- A vector may be sent: MSI-X is enabled, neither the function nor the vector is masked (R358, log 31). -/
def Port.sends (x : Port) (v : Nat) : Bool :=
  x.cfg.msixEn && !x.cfg.msixMask && !(SMap.get MsixEntry.reset v x.msix).masked

/-- MSI-X vector v of a port: one that may not be sent sets its pending bit (R358, log 31). -/
def msix (p : PortId) (v : Nat) (s : State) : State :=
  if !(s.port p).sends v then s.updPort p fun x => { x with pba := setBit x.pba v true }
  else s.emit (.msix p v)

/-- A vector with its INT_CAUSE bit (R358): vectors 0 to 3 share INT_CAUSE[3:0], 4 to 7 have bits 4 to 7. -/
def raiseVector (p : PortId) (v : Nat) (s : State) : State :=
  msix p v (s.updPort p fun x => { x with intCause := setBit x.intCause v true })

/-- An error counter of 16 bits goes up by one and holds at its top (R359). -/
def bump16 (n : Nat) : Nat := min (n + 1) 0xFFFF

/-- An error counter of a port increases, with vector 7; one that holds at its top does not increase and raises nothing (R358,
R359). -/
def portErr (p : PortId) (f : Port → Port) (s : State) : State :=
  if f (s.port p) = s.port p then s else raiseVector p 7 (s.updPort p f)

/-- The code of a partition state (R361). -/
def PartSt.code : PartSt → Nat
  | .empty => 0 | .configured => 1 | .running => 2 | .stopped => 3 | .faulted => 4

/-- The code of a health (R359). -/
def Health.code : Health → Nat
  | .initializing => 0 | .ready => 1 | .degraded => 2 | .failed => 3

/-- The health that MODH shows (R359, R379). -/
def State.modh (s : State) : Health := if s.hs.fwRestart then .initializing else s.hs.health

/-- The BCI status codes of R384. -/
def stOk : Nat := 0x00
def stBusyRefused : Nat := 0x01
def stBadCommand : Nat := 0x02
def stBadParameter : Nat := 0x03
def stNotStopped : Nat := 0x04
def stDeadline : Nat := 0x05
def stNoResources : Nat := 0x06
def stAuthFailed : Nat := 0x07
def stDieAbsent : Nat := 0x08
def stRevoked : Nat := 0x09
def stDiverged : Nat := 0x0A
def stBound : Nat := 0x0B
def stNotOwner : Nat := 0x0C
def stHostLost : Nat := 0x0D
def stNondet : Nat := 0x0E

/-- A fault-log entry of a code, every other field empty. -/
def LogEntry.ofCode (code : Nat) (sev : Sev) : LogEntry :=
  ⟨code, 0, sev, none, 0xFF, 0, 0, 0, 0, 0xFFFF, 0, 0, 0⟩

/-- The fault-log entry written at the next index, with the headstock's count, the marker in force and the
partition's turn (R422). -/
def logEvent (e : LogEntry) (s : State) : State :=
  let e := { e with
    refcyc := s.hs.refcyc
    epoch := s.hs.epoch
    turn := match e.part with
      | none => 0
      | some q => (s.part q).turn }
  s.updHs fun h => { h with
    log := SMap.set none h.logNext (some e) h.log
    logNext := (h.logNext + 1) % 4096 }

/-- A notice queued for a port's notice ring (R360, R361). -/
def notify (p : PortId) (kind part state status turn : Nat) (s : State) : State :=
  s.updPort p fun x => { x with notices := x.notices ++ [⟨kind, part, state, status, turn, s.hs.refcyc, s.hs.epoch⟩] }

/-- The notice of a partition's change of state, or of its revocation (R361). -/
def notifyPart (kind q : Nat) (s : State) : State :=
  notify (s.part q).owner kind q (s.part q).st.code (s.part q).stopStat (s.part q).turn s

/-- The stop of a partition to STOPPED that PART_STOP or REPLAY_RUN brings about is caused by a command of its port and makes
no notice (R361, log 47). -/
def byCommand (st : PartSt) (x : Part) : Bool := st == .stopped && (x.stopReq.isSome || x.replay.isSome)

/-- The code of a stop in PART_STOP's HOW (R397). -/
def StopHow.code : StopHow → Nat
  | .never => 0 | .boundary => 0 | .quiescent => 1 | .within => 2

/-- A PART_STOP that waits for the partition to leave RUNNING has its result (R397). -/
def finishStop (q : Nat) (s : State) : State :=
  match (s.part q).stopReq with
  | none => s
  | some (p, m) =>
    let x := s.part q
    let r : MbxResult := ⟨stOk, padTo 16 (leBytes x.turn 8 ++ leBytes x.how.code 1)⟩
    (s.updMbx p m fun b => { b with result := some r }).updPart q fun x => { x with stopReq := none }

/-- The open record of a partition has a turn end to write (R427, R430): the posts of the turn in the order of R58. -/
def closeTurn (incomplete : Bool) (x : Part) : Part :=
  { x with
    turnEnds := if x.recd.isOpen || x.replay.isSome then
        x.turnEnds ++ [⟨x.turn, incomplete, x.nd,
          (List.range 64).flatMap fun st => x.posts.filter fun y => y.stream == st⟩] else x.turnEnds
    posts := [] }

/-- What leaving RUNNING within a turn does to a partition (R53, R242, R256, R338, R372): the turn is incomplete, its
counts and fetches are discarded, a replay that had to complete the turn ends (R434). -/
def Part.stopped (st : PartSt) (stat : Nat) (x : Part) : Part :=
  let x := closeTurn true x
  { x with
    st := st
    stopStat := stat
    incomplete := true
    how := .within
    spurTo := []
    mon := { x.mon with counts := [] }
    streams := x.streams.map fun e => (e.1, e.2.map fun y => { y with fetch := none }) }

/-- Passes and drains of a core that have fired but not started never start (R242). -/
def Core.dropUnstarted (c : Core) : Core :=
  { c with jobs := { c.jobs with
      passes := c.jobs.passes.filter (·.started)
      drains := c.jobs.drains.filter (·.started) } }

/-- The fault-log entry of a Matrix Pass Fault (R247, R423). -/
def mfaultEntry (q lcore : Nat) (d : Nat) (delivered : Bool) (f : MFault) : LogEntry :=
  { LogEntry.ofCode 0x0030 .info with
    part := some q
    src := d
    addr := f.addr.toNat
    unit := lcore
    d0 := f.sub + f.tile * 256 + f.tstate * 1024 + b2n delivered * 4096
    d1 := f.handle }

/-- The entries of a core's Matrix Pass Faults that are still to be written (R247). -/
def flushMfaults (q c : Nat) (s : State) : State :=
  let x := s.core c
  let s := x.pend.mfaults.foldl (fun s f => logEvent (mfaultEntry q x.lcore (dieOfCore c) false f) s) s
  s.updCore c fun x => { x with pend := { x.pend with mfaults := [] } }

/-- The one fault-log entry of a move that zeroed words, when it ends (R268, R423): its die and unit. -/
def moveNote (q d unit : Nat) (j : MoveJob) (s : State) : State :=
  if j.zeroT = 0 ∧ j.zeroP = 0 then s
  else logEvent { LogEntry.ofCode 0x0021 .info with
    part := some q, src := d, addr := j.handle, unit := unit, count := j.zeroT + j.zeroP
    d0 := if j.zeroP = 0 then 0 else if j.zeroT = 0 then 1 else 2 } s

/-- A move whose entry has been made. -/
def MoveJob.noted (j : MoveJob) : MoveJob := { j with zeroT := 0, zeroP := 0 }

/-- The entries of the moves of a core's mover that a stop ends (R268). -/
def noteMoves (q c : Nat) (s : State) : State :=
  let x := s.core c
  (x.jobs.moves.foldl (fun s j => moveNote q (dieOfCore c) x.lcore j s) s).updCore c fun x =>
    { x with jobs := { x.jobs with moves := x.jobs.moves.map MoveJob.noted } }

/-- The entries of the moves of a die's bulk mover that a stop ends. -/
def noteBulk (q d : Nat) (s : State) : State :=
  ((SMap.get Bulk.reset q (s.die d).bulk).moves.foldl (fun s j => moveNote q d (0x800 + d) j s) s).updDie d fun x =>
    { x with bulk := SMap.upd Bulk.reset q (fun b => { b with moves := b.moves.map MoveJob.noted }) x.bulk }

/-- The cores of a partition, ascending by logical core. -/
def Part.phys (x : Part) : List Nat := x.place.map (·.2)

/-- A RUNNING partition stops within its turn (R338): state, stop status, fault-log entry 0x0050 with its origin (R423),
notice (R361). A replay that stops leaves the partition STOPPED (R406), but for what R353 and R425 decide whatever the partition's
state: the loss of a die or of the module, and a revocation. -/
def stopWithin (q : Nat) (st : PartSt) (stat origin : Nat) (s : State) : State :=
  if (s.part q).st = .running then
    let own := (s.part q).replay.isSome && stat != stDieAbsent && stat != stRevoked
    let st := if own then .stopped else st
    let stat := if own then stBadCommand else stat
    let cs := (s.part q).phys
    let s := cs.foldl (fun s c => noteMoves q c (flushMfaults q c (s.updCore c Core.dropUnstarted))) s
    let s := (List.range 12).foldl (fun s d => noteBulk q d s) s
    let s := s.updPart q (Part.stopped st stat)
    let s := logEvent { LogEntry.ofCode 0x0050 .stop with part := some q, src := 0x20, d0 := stat, d1 := origin } s
    let quiet := stat != stRevoked && byCommand st (s.part q)
    let s := finishStop q s
    if quiet then s else notifyPart (if stat = stRevoked then 2 else 1) q s
  else s

/-- A stop whose status is BAD_COMMAND and whose state is FAULTED (R338). -/
def faultPart (q : Nat) (s : State) : State := stopWithin q .faulted stBadCommand 0 s

/-- A partition loses a die it holds a group on (R353, R425). -/
def faultDieAbsent (origin q : Nat) (s : State) : State :=
  match (s.part q).st with
  | .running => stopWithin q .faulted stDieAbsent origin s
  | .empty => s
  | _ => notifyPart 1 q (s.updPart q fun x => { x with st := .faulted, stopStat := stDieAbsent })

/-- The partitions of the module. -/
def allParts : List Nat := List.range 16

/-- Whether a partition holds a core on a die. -/
def Part.onDie (x : Part) (d : Nat) : Bool := x.place.any fun e => dieOfCore e.2 == d

/-- Module health takes a value (R424): entry 0x0051, a notice to both ports, ALERT.HEALTH (R477). -/
def setHealth (h : Health) (s : State) : State :=
  let old := s.hs.health
  if old = h then s else
    let s := { s.updHs (fun x => { x with health := h }) with mgmt := { s.mgmt with alert := setBit s.mgmt.alert 2 true } }
    let s := logEvent { LogEntry.ofCode 0x0051 .health with src := 0x20, d0 := h.code, d1 := old.code } s
    notify .b 3 0 h.code 0 0 (notify .a 3 0 h.code 0 0 s)

/-- Whether a lane bundle is bed to bed (R441). -/
def bedToBed (b : Nat) : Bool := decide (b < 48)

/-- The DEGRADED conditions of R424. -/
def State.degradedCond (s : State) : Bool :=
  ((List.range 12).any fun d => (s.die d).fenced)
  || (s.lanes.any fun e => bedToBed e.1 && e.2.retired)
  || (s.links.any fun e => e.2.trained && decide (e.2.lanes ≠ 4))
  || (s.hbms.any fun e => !e.2.noSpare.isEmpty)

/-- READY and DEGRADED follow the DEGRADED conditions (R424). -/
def updateHealth (s : State) : State :=
  match s.hs.health with
  | .ready => if s.degradedCond then setHealth .degraded s else s
  | .degraded => if s.degradedCond then s else setHealth .ready s
  | _ => s

/-- A FAILED condition: every RUNNING partition stops with DIE_ABSENT (R424). -/
def enterFailed (s : State) : State :=
  let s := setHealth .failed s
  allParts.foldl (fun s q => stopWithin q .faulted stDieAbsent 0 s) s

/-- A degradation event: the firmware has to readmit the partitions (R352). -/
def degradation (s : State) : State := s.updHs fun h => { h with readmit := true }

/-- A core of a die that is lost holds no tile state and carries out no job (R242). What the tiles hold until the die has been
re-initialised is lost and nothing reads it; the model lists nothing for them. -/
def Core.lost (x : Core) : Core := { x with tiles := [], entries := [], jobs := Jobs.reset }

/-- The tiles and jobs of a die's cores and the moves of its bulk movers are lost (R242, R425). -/
def loseDie (d : Nat) (s : State) : State :=
  let s := (s.cores.filter fun e => dieOfCore e.1 == d).foldl (fun s e => s.updCore e.1 Core.lost) s
  s.updDie d fun x => { x with bulk := SMap.mapVals Bulk.reset (fun _ b => { b with moves := [] }) x.bulk }

/-- A compute die is fenced (R425): its tile state is lost, its partitions go to FAULTED with DIE_ABSENT, the module goes
DEGRADED. -/
def fenceDie (d why origin : Nat) (s : State) : State :=
  let s := s.updDie d fun x => { x with fenced := true }
  let s := logEvent { LogEntry.ofCode 0x0040 .health with src := d, d0 := why } s
  let s := loseDie d (allParts.foldl (fun s q => if (s.part q).onDie d then faultDieAbsent origin q s else s) s)
  updateHealth (degradation s)

end Sys2Proof.Machine
end

