-- ==== Sys2Proof/Machine/Faults.lean ====
section
/-! DEFINITION. Chatter counters, lasting-faulty resources and the repairs they start (R415 to R421, R303, R304), and
the physical upsets that arrive from outside (log 3). -/

namespace Sys2Proof.Machine

/-- A resource of a chatter class (R415). Its number within the class: core-store macro core × 64 + macro; core; TLB unit
(dies 0 to 11, headstock 12); bed macro bed × 2048 + granule, + 1024 for the stamp array (log 32); HBM row; lane
bundle × 18 + lane; link lane link × 5 + lane; headstock macro. -/
structure Res where
  cls : Nat
  id : Nat
deriving DecidableEq, Repr

/-- What `hbm_decode` gives (R293): stack, row, byte within the row. -/
structure HLoc where
  stack : Nat
  row : HRow
  col : Nat
deriving DecidableEq, Repr

/-- `hbm_decode` (R293). -/
def hbmDecode (pa : Nat) : HLoc :=
  let s := (pa / 2 ^ 8 % 8) ^^^ (pa / 2 ^ 19 % 8)
  let pc := (pa / 2 ^ 11 % 64) ^^^ (pa / 2 ^ 22 % 64)
  let o := pa / 2 ^ 17 * 256 + pa % 256
  ⟨s, ⟨pc, o / 2 ^ 28, o / 1024 % 16, o / 2 ^ 14 % 16384⟩, o % 1024⟩

/-- The physical address of a place on a stack: the inverse of `hbm_decode`. -/
def hbmEncode (l : HLoc) : Nat :=
  let o := ((l.row.sid * 16384 + l.row.row) * 16 + l.row.bank) * 1024 + l.col
  let hi := o / 256
  let pcb := l.row.pc ^^^ (hi / 2 ^ 5 % 64)
  let sb := l.stack ^^^ (hi / 4 % 8)
  hi * 2 ^ 17 + pcb * 2 ^ 11 + sb * 256 + o % 256

/-- The number of an HBM row within class 0x0A. -/
def rowId (k : Nat) (r : HRow) : Nat := (((k * 64 + r.pc) * 3 + r.sid) * 16 + r.bank) * 16384 + r.row

/-- The key of a resource in the chatter maps. -/
def Res.key (r : Res) : Nat := r.cls * 2 ^ 40 + r.id

/-- The bed die on whose side the lanes of a bundle are timed: the lower-numbered end of its connection (log 32). -/
def bedOfBundle (b : Nat) : Nat :=
  if b < 8 then 0 else if b < 16 then 2 else if b < 24 then 0 else if b < 32 then 1 else if b < 40 then 0
  else if b < 48 then 1 else (b - 48) / 4

/-- The die that holds a resource's counter (R416, R453): 0 to 11 a compute die, 0x10 to 0x13 a bed die, 0x20 the headstock. -/
def resDie (r : Res) : Nat :=
  if r.cls = 0x01 then dieOfCore (r.id / 64)
  else if r.cls ≤ 0x07 then dieOfCore r.id
  else if r.cls = 0x08 then (if r.id < 12 then r.id else 0x20)
  else if r.cls = 0x09 then 0x10 + r.id / 2048
  else if r.cls = 0x0A then 0x10 + bedOfStack (r.id / (64 * 3 * 16 * 16384))
  else if r.cls = 0x0B then 0x10 + bedOfBundle (r.id / 18)
  else if r.cls = 0x0C then 0x10 + r.id / 5 / 9
  else 0x20

/-- The reference-cycle count of a die by its code (R453). -/
def dieRefcyc (n : Nat) (s : State) : Nat :=
  if n < 12 then (s.die n).refcyc else if n < 0x20 then (s.bed (n - 0x10)).refcyc else s.hs.refcyc

/-- Reference-cycle count that times a resource's window (R416). -/
def resRefcyc (r : Res) (s : State) : Nat := dieRefcyc (resDie r) s

/-- SRC of a resource's fault-log entries (R422). -/
def resSrc (r : Res) : Nat :=
  if r.cls = 0x01 then dieOfCore (r.id / 64)
  else if r.cls ≤ 0x07 then dieOfCore r.id
  else if r.cls = 0x08 then (if r.id < 12 then r.id else 0x20)
  else if r.cls = 0x09 then 0x10 + r.id / 2048
  else if r.cls = 0x0A then 0x30 + r.id / (64 * 3 * 16 * 16384)
  else if r.cls = 0x0B then 0x10 + bedOfBundle (r.id / 18)
  else if r.cls = 0x0C then 0x40 + r.id / 5
  else 0x20

/-- Default thresholds (R415). -/
def defaultThresh (cls : Nat) : Nat :=
  if cls = 0x06 then 2 else if cls = 0x07 then 1 else if cls = 0x0A then 3 else if cls = 0x0C then 1048576 else 8

/-- The threshold in force (R418): the register, else the repair record's value, else the default; 0 acts as 1. -/
def thresholdReg (cls : Nat) (s : State) : Nat :=
  match SMap.get none cls s.chat.thresh with
  | some v => v
  | none => (SMap.get none cls s.flash.repair.thresh).getD (defaultThresh cls)

/-- Count of a resource in the current window (R416): a counter left from an earlier window has been cleared. -/
def chatCount (r : Res) (s : State) : Nat :=
  let c := SMap.get Chat.zero r.key s.chat.counters
  if c.window = resRefcyc r s / 2 ^ 27 then c.count else 0

/-- Marking a core for retirement at the next reset (R419). -/
def markCore (c : Nat) (s : State) : State :=
  s.updFlash fun f => if f.pendCores.contains c ∨ f.repair.cores.contains c then f
    else { f with pendCores := f.pendCores ++ [c] }

/-- The lowest-numbered spare of a pseudo-channel that no valid entry of the tables, no copy and no deferred entry holds
(R303, R304); `l` the stack's list in the flash. -/
def freeSpare (x : Stack) (l : List RemapRec) (pc : Nat) : Option Nat :=
  firstFrom (fun n => !(SMap.get Remap.none n x.table0).valid && !(SMap.get Remap.none n x.table1).valid
    && !(x.copy.any fun c => c.spare == n) && !(x.unpersist.any fun u => u.1 == n)
    && !(l.any fun r => r.spare == n)) (pc * 16) 16

/-- A row that becomes lasting-faulty is remapped, queued, deferred, or left in use (R303, R304). -/
def rowLasting (k : Nat) (r : HRow) (s : State) : State :=
  let x := s.stack k
  if x.noSpare.contains r then s
  else match freeSpare x (SMap.get [] k s.flash.remaps) r.pc with
  | none =>
    let s := s.updStack k fun x => { x with noSpare := x.noSpare ++ [r] }
    updateHealth (logEvent { LogEntry.ofCode 0x0004 .info with
      cls := 0x0A, src := 0x30 + k, addr := hbmEncode ⟨k, r, 0⟩ } s)
  | some n =>
    if x.copy.isNone then s.updStack k fun x => { x with copy := some ⟨r, n, 0, 0⟩ }
    else if x.pendingRows.length < 16 then s.updStack k fun x => { x with pendingRows := x.pendingRows ++ [r] }
    else s.updStack k fun x => { x with deferred := x.deferred + 1, unpersist := x.unpersist ++ [(n, r, true)] }

/-- The row that a class 0x0A number names. -/
def rowOfId (id : Nat) : HRow :=
  ⟨id / (16384 * 16 * 3) % 64, id / (16384 * 16) % 3, id / 16384 % 16, id % 16384⟩

/-- The dies that the connection of a bundle joins (R441): two bed dies, or a bed die and the headstock. -/
def bundleEnds (b : Nat) : Nat × Option Nat :=
  if b < 8 then (0, some 1) else if b < 16 then (2, some 3) else if b < 24 then (0, some 2) else if b < 32 then (1, some 3)
  else if b < 40 then (0, some 3) else if b < 48 then (1, some 2) else ((b - 48) / 4, none)

/-- The bed dies at which a partition has units or memory: those of its compute dies, its turn master and its quotas, and all
four when it holds HBM capacity (R25, R42, R292). -/
def Part.hasBed (x : Part) (b : Nat) : Bool :=
  (x.place.any fun e => bedOfDie (dieOfCore e.2) == b) || x.masterBed == b || (x.bedAt.any fun e => e.1 == b)
  || !x.hbmAt.isEmpty

/-- Routes of a partition cross a bundle's connection (R25, R274): it has units or memory at both of its bed dies, or at the bed
die that it joins to the headstock. Which bundle of a connection a route takes is the firmware's, so every route that crosses the
connection counts as one that changes (DESIGN CHOICE, log 39). -/
def Part.crosses (x : Part) (b : Nat) : Bool :=
  x.st != .empty && x.hasBed (bundleEnds b).1 && ((bundleEnds b).2.map fun e => x.hasBed e).getD true

/-- A bundle begins its retirement: the firmware holds the spurs of the partitions whose routes change until the new routes are in
place (R274, R443). -/
def startRetirement (b : Nat) (s : State) : State :=
  (s.updLane b fun x => { x with retiring := true }).updHs fun h => { h with
    routeHold := h.routeHold ++ allParts.filter fun q => (s.part q).crosses b && !h.routeHold.contains q }

/-- A lane becomes lasting-faulty: a spare is trained, or the bundle begins its retirement (R421, R443). -/
def laneLasting (b l : Nat) (s : State) : State :=
  let x := s.lane b
  if x.retired ∨ x.lasting.contains l then s
  else
    let s := s.updLane b fun x => { x with lasting := x.lasting ++ [l], good := x.good - 1 }
    if x.lasting.length < 2 then s.updLane b fun x => { x with swaps := x.swaps ++ [l] }
    else startRetirement b s

/-- The spare of a link is free for lane i. -/
def Link.spareFor (i : Nat) (x : Link) : Bool := !x.spUsed && x.swap.isNone && decide (i < 4) && !x.lasting.contains 4

/-- A lane of a link becomes lasting-faulty: the spare is trained, the link narrows, or it goes down (R421). What follows
for partitions is the caller's. -/
def linkLaneLasting (i : Nat) (x : Link) : Link :=
  let y := { x with lasting := x.lasting ++ [i] }
  if x.lasting.contains i then x
  else if x.spareFor i then { y with swap := some i }
  else if x.lanes = 4 then { y with lanes := 3 }
  else { y with lanes := 0, up := false, swap := none }

/-- The array of a core has its spare row in use or already marked for use (R223, R415). -/
def rowTaken (c : Nat) (s : State) : Bool :=
  (SMap.get none c s.flash.repair.rows).isSome || s.flash.pendRows.any fun e => e.1 == c

/-- The repair that a resource that becomes lasting-faulty gets, as DETAIL0 of entry 0x0002 gives it (R415, R423). -/
def repairCode (r : Res) (s : State) : Nat :=
  if r.cls ≤ 0x05 ∨ r.cls = 0x07 then 1
  else if r.cls = 0x06 then (if rowTaken r.id s then 1 else 6)
  else if r.cls = 0x08 then 5
  else if r.cls = 0x09 then 4
  else if r.cls = 0x0A then
    let k := r.id / (64 * 3 * 16 * 16384)
    (if (freeSpare (s.stack k) (SMap.get [] k s.flash.remaps) (rowOfId r.id).pc).isSome then 2 else 0)
  else if r.cls = 0x0B then (if (s.lane (r.id / 18)).lasting.length < 2 then 3 else 0)
  else if r.cls = 0x0C then (if (s.link (r.id / 5)).spareFor (r.id % 5) then 3 else 0)
  else 0

/-- The repair that a lasting-faulty resource starts (R415, R419, R421). -/
def startRepair (r : Res) (s : State) : State :=
  if r.cls = 0x01 then markCore (r.id / 64) s
  else if r.cls ≤ 0x05 ∨ r.cls = 0x07 then markCore r.id s
  else if r.cls = 0x06 then
    (if rowTaken r.id s then markCore r.id s
     else (s.updFlash fun f => { f with pendRows := f.pendRows ++ [(r.id, s.freeVal.toNat % 32)] }).drew)
  else if r.cls = 0x08 then
    (s.updFlash fun f => { f with pendWays := f.pendWays ++ [(r.id, s.freeVal.toNat % 16)] }).drew
  else if r.cls = 0x09 then
    s.updFlash fun f => { f with pendGranules := f.pendGranules ++ [(r.id / 2048, r.id % 1024)] }
  else if r.cls = 0x0A then rowLasting (r.id / (64 * 3 * 16 * 16384)) (rowOfId r.id) s
  else if r.cls = 0x0B then laneLasting (r.id / 18) (r.id % 18) s
  else if r.cls = 0x0C then s.updLink (r.id / 5) (linkLaneLasting (r.id % 5))
  else s

/-- A resource becomes lasting-faulty (R417): entry 0x0002, and its repair starts. -/
def becomeLasting (r : Res) (addr count : Nat) (ue : Bool) (s : State) : State :=
  let s := { s with chat := { s.chat with lasting := SMap.set false r.key true s.chat.lasting } }
  let s := logEvent { LogEntry.ofCode 0x0002 .lasting with
    cls := r.cls, src := resSrc r, addr := addr, count := count, d0 := repairCode r s, d1 := b2n ue } s
  startRepair r s

/-- A corrected event of a resource (R304, R416, R417): it is counted; a resource that is lasting-faulty makes no entry. -/
def chatter (r : Res) (addr : Nat) (s : State) : State :=
  let n := min (chatCount r s + 1) (2 ^ 32 - 1)
  let w := resRefcyc r s / 2 ^ 27
  let s := { s with chat := { s.chat with counters := SMap.set Chat.zero r.key ⟨w, n⟩ s.chat.counters } }
  if SMap.get false r.key s.chat.lasting then s
  else
    let s := if n = 1 then
        logEvent { LogEntry.ofCode 0x0001 .transient with cls := r.cls, src := resSrc r, addr := addr, count := 1 } s
      else s
    if max 1 (thresholdReg r.cls s) ≤ n then becomeLasting r addr n false s else s

/-- An uncorrectable error makes its resource lasting-faulty at once (R417). -/
def chatterUe (r : Res) (addr : Nat) (s : State) : State :=
  if SMap.get false r.key s.chat.lasting then s else becomeLasting r addr (chatCount r s) true s

/-- The core-store SRAM macro of a word (R70): bank a[6:3], macro a[21:20]. -/
def macroOfWord (w : Nat) : Nat := (w % 16) * 4 + w / 131072 % 4

/-- Device physical address of a core-store word (R262). -/
def coreWordPa (c w : Nat) : Nat := 0x009000000000 + c * 0x400000 + 8 * w

/-- ADDR of the entries of a resource for which the memory map has no address of its own (R423; DESIGN CHOICE, log 84): the first
address of the core's aperture for what a core holds, of the die's registers for a die TLB, of the module registers for the
headstock TLB, with the macro's number added for a macro of the headstock. -/
def resAddr (r : Res) : Nat :=
  if r.cls ≤ 0x07 then coreWordPa r.id 0
  else if r.cls = 0x08 ∧ r.id < 12 then 0x10000200000 + r.id * 0x10000
  else if r.cls = 0x08 then 0x10000000000
  else 0x10000000000 + r.id

/-- What a read of the core store met (R77, R482): a corrected word, or an uncorrectable one, with how it was found. -/
inductive CwHow | read | patrol | merge
deriving DecidableEq, Repr

/-- A codeword's error grows to at least k. -/
def errMax (k : ErrKind) (n : Nat) : Nat :=
  match k with
  | .single => max n 1
  | .double => 2

/-- A codeword of a core-store word is hit (R76). -/
def hitCw (p : CodePart) (k : ErrKind) (e : CwErr) : CwErr :=
  match p with
  | .low => { e with low := errMax k e.low }
  | .high => { e with high := errMax k e.high }
  | .tag => { e with tag := errMax k e.tag }

/-- One physical upset takes hold (log 3). -/
def applyUpset (s : State) : Upset → State
  | .coreWord c w p k => s.updCore c fun x => { x with storeErr := SMap.upd CwErr.none w (hitCw p k) x.storeErr }
  | .syllable c i k => s.updCore c fun x => { x with bundleErr := SMap.upd 0 i (errMax k) x.bundleErr }
  | .vectorFile c n k => s.updCore c fun x => { x with vfErr := SMap.upd 0 n (errMax k) x.vfErr }
  | .control c => s.updCore c fun x => { x with ctlErr := true }
  | .farCacheLine c i => s.updCore c fun x => { x with far := { x.far with
      lines := SMap.mapVals CacheLine.none (fun j l => if j = i then { l with perr := true } else l) x.far.lines } }
  | .coreTlb c => s.updCore c fun x => { x with tlbErr := true }
  | .dieTlb d => s.updDie d fun x => { x with tlbErr := true }
  | .headstockTlb => s.updHs fun x => { x with tlbErr := true }
  | .tile c t => s.updCore c fun x => { x with tiles := SMap.upd Tile.reset t (fun y => { y with parity := true }) x.tiles }
  | .bedWord b w k => s.updBed b fun x => { x with err := SMap.upd 0 w (errMax k) x.err }
  | .stamp b l k => s.updBed b fun x => { x with stampErr := SMap.upd 0 l (errMax k) x.stampErr }
  | .hbmWord a k => { s with hbmErr := SMap.upd 0 a (errMax k) s.hbmErr }
  | .spareWord k n w e => s.updStack k fun x => { x with spareErr := SMap.upd 0 (n * 256 + w) (errMax e) x.spareErr }
  | .pageEntry q i k => s.updPart q fun x => { x with ptErr := SMap.upd 0 i (errMax k) x.ptErr }
  | .messagePayload c => s.updCore c fun x => { x with msgErr := true }
  | .headstockSram m .single => chatter ⟨0x0D, m⟩ (resAddr ⟨0x0D, m⟩) s
  | .headstockSram m .double => chatterUe ⟨0x0D, m⟩ (resAddr ⟨0x0D, m⟩) s

/-- The upsets that came about before a command take hold. -/
def applyUpsets (us : List Upset) (s : State) : State := us.foldl applyUpset s

end Sys2Proof.Machine
end

