-- ==== Sys2Proof/Machine/Memory.lean ====
section
/-! DEFINITION. Device physical memory (R262): where an address lies, what a line of a bed store or of HBM reads as and how
a write changes it with the errors it meets (R81, R285, R293 to R298, R301 to R303), the Turn Race check on stamps
(R52, R288 to R290), and the queues that requests go through (R290, R294, R308). -/

namespace Sys2Proof.Machine

/-- Where a device physical address lies (R262). -/
inductive Loc
  | hbm
  | bed (b : Nat) (off : Nat)
  | aperture (core : Nat) (off : Nat)
  | regs (off : Nat)
  | host (p : PortId) (iova : Nat)
  | reserved
deriving DecidableEq, Repr

/-- The map of R262. -/
def locate (pa : Nat) : Loc :=
  if pa < 0x6000000000 then .hbm
  else if pa < 0x8000000000 then .reserved
  else if pa < 0x8200000000 then .bed ((pa - 0x8000000000) / 0x80000000) (pa % 0x80000000)
  else if pa < 0x9000000000 then .reserved
  else if pa < 0x9144000000 then .aperture ((pa - 0x9000000000) / 0x400000) (pa % 0x400000)
  else if pa < 0x10000000000 then .reserved
  else if pa < 0x10100000000 then .regs (pa - 0x10000000000)
  else if pa < 0x200000000000 then .reserved
  else if pa < 0x300000000000 then .host .a (pa - 0x200000000000)
  else if pa < 0x400000000000 then .host .b (pa - 0x300000000000)
  else .reserved

/-- First device physical address of a bed store. -/
def bedBase (b : Nat) : Nat := 0x8000000000 + b * 0x80000000

/-- First device physical address of a port's host aperture. -/
def hostBase : PortId → Nat
  | .a => 0x200000000000
  | .b => 0x300000000000

/-- The spare row that serves a row by the active table (R302): of a row remapped more than once, the spare taken last
(DESIGN CHOICE, log 40). -/
def spareOf (x : Stack) (r : HRow) : Option Nat :=
  let t := if x.active = 0 then x.table0 else x.table1
  (((List.range 16).map (r.pc * 16 + ·)).filter fun n => SMap.get Remap.none n t == ⟨true, r.sid, r.bank, r.row⟩).getLast?

/-- Whether a read or partial write found an error: nothing, corrected, uncorrectable. -/
inductive Found | clean | corrected | bad
deriving DecidableEq, Repr

/-- A line as stored: its bytes and the error of each of its codewords (0, 1, 2). -/
structure RawLine where
  bytes : List Byte
  errs : List Nat
deriving DecidableEq, Repr

/-- A line read out of a memory with codewords of cw bytes, its errors keyed by codeword number. -/
def rawRead (m : Mem) (err : SMap Nat) (a e n : Nat) : RawLine :=
  ⟨m.read a 64, (List.range n).map fun i => SMap.get 0 (e + i) err⟩

/-- The errors stored back from key e. -/
def rawErrs (err : SMap Nat) (e : Nat) : List Nat → SMap Nat
  | [] => err
  | v :: vs => rawErrs (SMap.set 0 e v err) (e + 1) vs

/-- What the errors of a line amount to. -/
def foundIn (errs : List Nat) : Found :=
  if errs.any (· == 2) then .bad else if errs.any (· == 1) then .corrected else .clean

/-- Where the bytes and errors of an HBM line stand: the user row, or a spare row of its stack. -/
inductive HSite
  | user (pa : Nat)
  | spare (k : Nat) (n : Nat) (col : Nat)
deriving DecidableEq, Repr

/-- The site that serves an HBM line (R302). -/
def hbmSite (pa : Nat) (s : State) : HSite :=
  let l := hbmDecode pa
  match spareOf (s.stack l.stack) l.row with
  | some n => .spare l.stack n l.col
  | none => .user pa

/-- The line at a site. -/
def siteRead (h : HSite) (s : State) : RawLine :=
  match h with
  | .user pa => ⟨s.hbm.read pa 64, (List.range 16).map fun i => SMap.get 0 (pa + 4 * i) s.hbmErr⟩
  | .spare k n col => rawRead (s.stack k).spare (s.stack k).spareErr (n * 1024 + col) (n * 256 + col / 4) 16

/-- The line at a site replaced. -/
def siteWrite (h : HSite) (l : RawLine) (s : State) : State :=
  match h with
  | .user pa =>
    { s with
      hbm := s.hbm.write pa l.bytes
      hbmErr := (l.errs.zipIdx.foldl (fun m e => SMap.set 0 (pa + 4 * e.2) e.1 m) s.hbmErr) }
  | .spare k n col => s.updStack k fun x => { x with
      spare := x.spare.write (n * 1024 + col) l.bytes
      spareErr := rawErrs x.spareErr (n * 256 + col / 4) l.errs }

/-- The chatter resource of an HBM line. -/
def hbmRes (pa : Nat) : Res := ⟨0x0A, rowId (hbmDecode pa).stack (hbmDecode pa).row⟩

/-- The chatter resource of a bed-store line, and of its stamp word (log 32). -/
def bedRes (b off : Nat) : Res := ⟨0x09, b * 2048 + off / 0x200000⟩
def stampRes (b off : Nat) : Res := ⟨0x09, b * 2048 + 1024 + off / 0x200000⟩

/-- The fault-log entry of an uncorrectable HBM line (R297, R298). -/
def hbmUe (pa : Nat) (partial' : Bool) (s : State) : State :=
  logEvent { LogEntry.ofCode 0x0032 .info with src := 0x30 + (hbmDecode pa).stack, addr := pa, d0 := b2n partial' } s

/-- Reading a line of HBM (R297). -/
def hbmRead (pa : Nat) (s : State) : State × Line :=
  let h := hbmSite pa s
  let l := siteRead h s
  match foundIn l.errs with
  | .clean => (s, ⟨l.bytes, 0⟩)
  | .corrected => (chatter (hbmRes pa) pa (siteWrite h { l with errs := List.replicate 16 0 } s), ⟨l.bytes, 0⟩)
  | .bad => (chatterUe (hbmRes pa) pa (hbmUe pa false s), ⟨l.bytes, 0x11⟩)

/-- Reading a line of a bed store (R285). -/
def bedRead (b off : Nat) (s : State) : State × Line :=
  let x := s.bed b
  let l := rawRead x.store x.err off (off / 8) 8
  let s1 := s.updBed b fun x => { x with err := rawErrs x.err (off / 8) (l.errs.map fun e => if e = 1 then 0 else e) }
  let s2 := if l.errs.any (· == 1) then chatter (bedRes b off) (bedBase b + off) s1 else s1
  if l.errs.any (· == 2) then (chatterUe (bedRes b off) (bedBase b + off) s2, ⟨l.bytes, 0x10⟩) else (s2, ⟨l.bytes, 0⟩)

/-- Reading a line of a bed store or of HBM; nothing else holds lines. -/
def lineRead (pa : Nat) (s : State) : State × Line :=
  match locate pa with
  | .hbm => hbmRead pa s
  | .bed b off => bedRead b off s
  | _ => (s, ⟨List.replicate 64 0, 0⟩)

/-- One byte chosen by the mask of written bytes. -/
def maskBytes (mask : Nat) (old new : List Byte) : List Byte :=
  (old.zip new).zipIdx.map fun e => if bitOf mask e.2 then e.1.2 else e.1.1

/-- One codeword of k bytes written under a mask, with what its read found (R285, R298): a whole codeword is replaced, a
partial one merges, and one found uncorrectable stays so. -/
def codewordWrite (k : Nat) (mask : Nat) (err : Nat) : Nat × Found :=
  let m := mask % 2 ^ k
  if m = 0 then (err, .clean)
  else if m = 2 ^ k - 1 then (0, .clean)
  else if err = 2 then (2, .bad)
  else (0, if err = 1 then .corrected else .clean)

/-- A line written under a mask in codewords of k bytes, with what the reads of its partial codewords found; a poison word
writes the check pattern in the whole line (R81). -/
def rawWrite (k : Nat) (l : RawLine) (bytes : List Byte) (mask poison : Nat) : RawLine × List Found :=
  let r := l.errs.zipIdx.map fun e => codewordWrite k (mask / 2 ^ (k * e.2)) e.1
  let keep := l.errs.zipIdx.map fun e => decide (codewordWrite k (mask / 2 ^ (k * e.2)) e.1 = (2, .bad))
  let b := (maskBytes mask l.bytes bytes).zipIdx.map fun e =>
    if keep.getD (e.2 / k) false then l.bytes.getD e.2 0 else e.1
  (⟨b, if poison = 0 then r.map (·.1) else r.map fun _ => 2⟩, r.map (·.2))

/-- The site that a row copy mirrors writes to (R303 step 2). -/
def mirrorOf (pa : Nat) (s : State) : Option HSite :=
  let l := hbmDecode pa
  match (s.stack l.stack).copy with
  | some c => if c.row = l.row then some (.spare l.stack c.spare l.col) else none
  | none => none

/-- Writing a line of HBM (R298). -/
def hbmWrite (pa : Nat) (bytes : List Byte) (mask poison : Nat) (s : State) : State :=
  let h := hbmSite pa s
  let (l, f) := rawWrite 4 (siteRead h s) bytes mask poison
  let s1 := siteWrite h l s
  let s2 := match mirrorOf pa s with
    | some m => siteWrite m (rawWrite 4 (siteRead m s1) bytes mask poison).1 s1
    | none => s1
  if f.contains .bad then chatterUe (hbmRes pa) pa (hbmUe pa true s2)
  else if f.contains .corrected then chatter (hbmRes pa) pa s2 else s2

/-- Writing a line of a bed store (R285). -/
def bedWrite (b off : Nat) (bytes : List Byte) (mask poison : Nat) (s : State) : State :=
  let x := s.bed b
  let (l, f) := rawWrite 8 (rawRead x.store x.err off (off / 8) 8) bytes mask poison
  let s1 := s.updBed b fun x => { x with store := x.store.write off l.bytes, err := rawErrs x.err (off / 8) l.errs }
  let s2 := if f.contains .corrected then chatter (bedRes b off) (bedBase b + off) s1 else s1
  if f.contains .bad then chatterUe (bedRes b off) (bedBase b + off) s2 else s2

/-- Writing a line of a bed store or of HBM. -/
def lineWrite (pa : Nat) (bytes : List Byte) (mask poison : Nat) (s : State) : State :=
  match locate pa with
  | .hbm => hbmWrite pa bytes mask poison s
  | .bed b off => bedWrite b off bytes mask poison s
  | _ => s

/-- What the Turn Race check of one access finds (R52, R290). -/
inductive RaceResult | pass | race (other : Nat) | stampUe
deriving DecidableEq, Repr

/-- R52 on a stamp word: the race unit that differs, or the stamp after the access. -/
def stampStep (w : Bool) (u t : Nat) (x : Stamp) : Stamp × Option Nat :=
  let wLive := decide (x.writer ≠ 0xFFF) && decide (x.wstamp = t % 65536)
  let rLive := decide (x.reader ≠ 0xFFF) && decide (x.rstamp = t % 65536)
  if wLive && decide (x.writer ≠ u) then (x, some x.writer)
  else if w then
    if rLive && decide (x.reader ≠ u) then (x, some x.reader)
    else ({ x with wstamp := t % 65536, writer := u }, none)
  else if rLive then ((if x.reader = u then x else { x with reader := 0xFFE }), none)
  else ({ x with rstamp := t % 65536, reader := u }, none)

/-- The check of one access to a bed-store line (R52, R288, R290). -/
def raceCheck (b off : Nat) (w : Bool) (u t : Nat) (s : State) : State × RaceResult :=
  let line := off / 64
  let x := s.bed b
  match SMap.get 0 line x.stampErr with
  | 2 =>
    let s := logEvent { LogEntry.ofCode 0x0026 .info with src := 0x10 + b, addr := bedBase b + 64 * line } s
    (chatterUe (stampRes b off) (bedBase b + 64 * line) s, .stampUe)
  | e =>
    let s := if e = 1 then chatter (stampRes b off) (bedBase b + 64 * line)
        (s.updBed b fun x => { x with stampErr := SMap.set 0 line 0 x.stampErr }) else s
    let (st, r) := stampStep w u t (SMap.get Stamp.cold line x.stamps)
    match r with
    | some o => (s, .race o)
    | none => (s.updBed b fun x => { x with stamps := SMap.set Stamp.cold line st x.stamps }, .pass)

/-- What follows an access that does not take effect: the entries of R53 and R290 and the partition's stop. -/
def raceStop (q b off u : Nat) (r : RaceResult) (s : State) : State :=
  match r with
  | .pass => s
  | .race o =>
    faultPart q (logEvent { LogEntry.ofCode 0x0011 .stop with
      part := some q, src := 0x10 + b, addr := bedBase b + off / 64 * 64, unit := u, d0 := o } s)
  | .stampUe => faultPart q s

/-- The regulator of a partition on a stack, changed. -/
def updReg (k q : Nat) (f : Regulator → Regulator) (s : State) : State :=
  s.updStack k fun x => { x with regs := SMap.upd Regulator.reset q f x.regs }

/-- Bytes of a line written under a mask as posted writes to host memory: one per run of written bytes. -/
def hostRuns (mask : Nat) (bytes : List Byte) (iova : Nat) : List (Nat × List Byte) :=
  (bytes.zipIdx.foldl (fun (acc : List (Nat × List Byte)) e =>
    if bitOf mask e.2 then
      match acc with
      | (a, bs) :: rest => if a + bs.length = iova + e.2 then (a, bs ++ [e.1]) :: rest else (iova + e.2, [e.1]) :: acc
      | [] => [(iova + e.2, [e.1])]
    else acc) []).reverse

/-- A write to host memory in a replay reaches only what a migration has installed (R406, R433). -/
def replayWrite (r : MemReq) (x : Part) : Part :=
  { x with replay := x.replay.map fun y =>
      if y.migrAt.any fun a => inside (64 * r.line) 64 a 0x200000 then
        { y with migrMem := Mem.write y.migrMem (64 * r.line) (maskBytes r.mask (Mem.read y.migrMem (64 * r.line) 64) r.bytes) }
      else y }

/-- A request sets out (R284): to its bed store, to the regulator of its partition on its stack, or, when it writes host
memory, out of the owning port as posted writes. A read of host memory waits for the host's answer. -/
def submit (r : MemReq) (s : State) : State :=
  match locate (64 * r.line) with
  | .bed b _ => s.updBed b fun x => { x with reqs := x.reqs ++ [r] }
  | .hbm => updReg (hbmDecode (64 * r.line)).stack r.part (fun g => { g with waiting := g.waiting ++ [r] }) s
  | .host p iova =>
    if !r.write then s
    else if ((s.part r.part).replay).isSome then s.updPart r.part (replayWrite r)
    else (hostRuns r.mask r.bytes iova).foldl (fun s e => s.emit (.hostWrite p e.1 e.2)) s
  | _ => s

/-- The requests on their way to a line, in the order in which its store will meet them. -/
def onTheWay (pa : Nat) (s : State) : List MemReq :=
  match locate pa with
  | .bed b _ => (s.bed b).reqs.filter fun r => r.line == pa / 64
  | .hbm =>
    let l := hbmDecode pa
    let x := s.stack l.stack
    let q := SMap.get [] l.row.pc x.queues
    (q.map (·.req) ++ x.entering ++ x.regs.flatMap fun g => g.2.waiting).filter fun r => r.line == pa / 64
  | _ => []

/-- A line overlaid with one write on its way. -/
def overWrite (code : Nat) (l : Line) (r : MemReq) : Line :=
  if r.write then
    ⟨maskBytes r.mask l.bytes r.bytes,
      if r.poison ≠ 0 then code else if r.mask % 2 ^ 64 = 2 ^ 64 - 1 then 0 else l.bad⟩
  else l

/-- A line as a read meets it that is ordered after every write on its way (log 18). -/
def lineNow (pa : Nat) (s : State) : State × Line :=
  let (s1, l) := lineRead pa s
  let code := match locate pa with | .hbm => 0x11 | _ => 0x10
  (s1, (onTheWay pa s).foldl (overWrite code) l)

/-- Every request of a partition is dropped from every queue (R33). -/
def purgeReqs (q : Nat) (s : State) : State :=
  { s with
    beds := SMap.mapVals Bed.reset (fun _ x => { x with reqs := x.reqs.filter (·.part != q) }) s.beds
    hbms := SMap.mapVals Stack.reset (fun _ x => { x with
      entering := x.entering.filter (·.part != q)
      queues := SMap.mapVals [] (fun _ l => l.filter (·.req.part != q)) x.queues
      regs := SMap.mapVals Regulator.reset (fun p g => if p = q then { g with waiting := [] } else g) x.regs }) s.hbms }

/-- Whether some request of a kind is still on its way to a bed store or into a reorder queue; a write in a reorder queue
has been acknowledged (R294). -/
def anyReq (p : MemReq → Bool) (s : State) : Bool :=
  (s.beds.any fun e => e.2.reqs.any p)
  || s.hbms.any fun e => e.2.entering.any p || (e.2.regs.any fun g => g.2.waiting.any p)
      || e.2.queues.any fun l => l.2.any fun y => !y.req.write && p y.req

end Sys2Proof.Machine
end

