-- ==== Sys2Proof/Machine/Xlate.lean ====
section
/-! DEFINITION. Address translation (R313 to R323): page-table walks, TLBs, the firmware's writes of page tables, and the
access counters of host windows (R325, R326). The tables' entries are held apart from the bytes of the bed store, which no mapping
reaches there (log 16). -/

namespace Sys2Proof.Machine

/-- What a translation gives: a page, or a cause with the walk level and the entry's address (R322, R331). -/
inductive Xl
  | ok (e : TlbEntry)
  | fail (cause level teaddr : Nat)
deriving DecidableEq, Repr

/-- Cause codes of R322. -/
def xNotMapped : Nat := 1
def xWriteProt : Nat := 2
def xBadEntry : Nat := 3
def xWalkUe : Nat := 4
def xMigrating : Nat := 5
def xLocalWindow : Nat := 6
def xAddrRange : Nat := 7
def xConvNoWindow : Nat := 8

/-- An address in the core-local window (R68). -/
def inLocal (va : Nat) : Bool := decide (va < 0x400000)

/-- A physical range of a page that a mapping may reach (R263, R317). -/
def pageAllowed (pa size : Nat) : Bool :=
  inside pa size 0 0x6000000000 || inside pa size 0x8000000000 0x200000000 || inside pa size 0x200000000000 0x200000000000

/-- Fields of a table entry (R316). -/
def peRun (w : Word) : Nat := wf64 w 60 58
def pePa (w : Word) : Nat := wf64 w 45 12 * 4096
def peMig (w : Word) : Bool := wbit w 6
def peRo (w : Word) : Bool := wbit w 5
def peW (w : Word) : Bool := wbit w 4
def peLeaf (w : Word) : Bool := wbit w 1
def peV (w : Word) : Bool := wbit w 0

/-- A valid entry of level `l` breaks R317. -/
def badEntry (l : Nat) (w : Word) : Bool :=
  let size := 2 ^ (12 + 9 * (l - 1))
  decide (wf64 w 63 61 ≠ 0) || decide (wf64 w 57 46 ≠ 0) || decide (wf64 w 11 7 ≠ 0) || decide (wf64 w 3 2 ≠ 0)
  || decide (5 ≤ peRun w)
  || (peLeaf w && decide (l = 4)) || (!peLeaf w && decide (l = 1))
  || (!peLeaf w && (peMig w || peRo w || peW w || decide (peRun w ≠ 0)))
  || (peLeaf w && ((decide (l = 3) && decide (peRun w ≠ 0)) || !aligned (pePa w) size || (peRo w && peW w)
      || !pageAllowed (pePa w) size))

/-- The number under which an entry of level l for an address is held: a table tree has one entry for each level and
address prefix (R315). -/
def peKey (l va : Nat) : Nat := l * 2 ^ 36 + va / 2 ^ (12 + 9 * (l - 1))

/-- The 4 KiB pages of a partition's bed-store quotas, as (bed die, byte offset in its bed store, byte offset in the quota). -/
def Part.quotaPage (x : Part) (n : Nat) : Option (Nat × Nat × Nat) :=
  let r := x.bedAt.foldl (fun (acc : Nat × Option (Nat × Nat × Nat)) e =>
    let pages := e.2.2 * 512
    if acc.2.isSome then acc
    else if acc.1 < pages then (acc.1, some (e.1, e.2.1 * 0x200000 + acc.1 * 4096, acc.1 * 4096))
    else (acc.1 - pages, none)) (n, none)
  r.2

/-- The page of the quota that holds a table: the first page at or after the firmware's first choice, in cyclic order, that lies
in the reserve for page tables (R314, log 16). -/
def tablePage (q : Nat) (x : Part) (key : Nat) : Option (Nat × Nat × Nat) :=
  let n := (x.bedAt.map fun e => e.2.2 * 512).sum
  match firstFrom (fun i => (x.quotaPage (i % n)).any fun g => Config.inPageReserve q g.1 g.2.2)
      (Config.pageTablePage q key % n) n with
  | some i => x.quotaPage (i % n)
  | none => x.quotaPage (Config.pageTablePage q key % n)

/-- The device physical address of a table: a 4 KiB-aligned page of the partition's quota (R314, R315). -/
def tableAddr (q : Nat) (x : Part) (key : Nat) : Nat :=
  match tablePage q x key with
  | some g => bedBase g.1 + g.2.1
  | none => bedBase 0

/-- The number of the table that holds the entries of a level for an address: that of the entry above it. -/
def tableKey (l va : Nat) : Nat := if l = 4 then 0 else peKey (l + 1) va

/-- The address of an entry: its table's address, and 8 bytes for each index (R315). -/
def peAddr (q : Nat) (x : Part) (l va : Nat) : Nat :=
  tableAddr q x (tableKey l va) + 8 * (va / 2 ^ (12 + 9 * (l - 1)) % 512)

/-- The page of a leaf of a size, with its run-hint group merged (R318). -/
def leafEntry (q va size : Nat) (w : Word) : TlbEntry :=
  let n := size * 2 ^ peRun w
  ⟨q, va / n * n, n, pePa w / n * n, peW w, peRo w⟩

/-- The walk at level `n` and below (R315, R317, R322). The level that a failure names is that of the entry at which the
walk stopped; it is 0 where the walk found its leaf (log 33). -/
def walkFrom (q : Nat) (x : Part) (va : Nat) (write : Bool) : (n : Nat) → Xl
  | 0 => .fail xBadEntry 0 0
  | l + 1 =>
    let w := SMap.get 0 (peKey (l + 1) va) x.pt
    if SMap.get 0 (peKey (l + 1) va) x.ptErr = 2 then .fail xWalkUe (l + 1) (peAddr q x (l + 1) va)
    else if !peV w then .fail xNotMapped (l + 1) 0
    else if badEntry (l + 1) w then .fail xBadEntry (l + 1) (peAddr q x (l + 1) va)
    else if peLeaf w then
      if write && !peW w then .fail xWriteProt 0 0
      else if peMig w then .fail xMigrating 0 0
      else .ok (leafEntry q va (2 ^ (12 + 9 * l)) w)
    else walkFrom q x va write l

/-- The result of a walk (R315). -/
def walk (q va : Nat) (write : Bool) (s : State) : Xl := walkFrom q (s.part q) va write 4

/-- The entries that a walk at level `n` and below reads, by their levels. -/
def walkLevels (x : Part) (va : Nat) : (n : Nat) → List Nat
  | 0 => []
  | l + 1 =>
    let w := SMap.get 0 (peKey (l + 1) va) x.pt
    if SMap.get 0 (peKey (l + 1) va) x.ptErr = 2 || !peV w || badEntry (l + 1) w || peLeaf w then [l + 1]
    else (l + 1) :: walkLevels x va l

/-- One entry is read from the bed store (R285, R314): a corrected error is written back and counted against its macro, an
uncorrectable one makes the macro lasting-faulty. -/
def entryRead (q l va : Nat) (s : State) : State :=
  let x := s.part q
  let key := peKey l va
  let r : Res := match tablePage q x (tableKey l va) with
    | some g => bedRes g.1 g.2.1
    | none => bedRes 0 0
  match SMap.get 0 key x.ptErr with
  | 0 => s
  | 1 => chatter r (peAddr q x l va) (s.updPart q fun x => { x with ptErr := SMap.set 0 key 0 x.ptErr })
  | _ => chatterUe r (peAddr q x l va) s

/-- A walk with what its reads of the bed store find (R314). -/
def walkRead (q va : Nat) (write : Bool) (s : State) : State × Xl :=
  ((walkLevels (s.part q) va 4).foldl (fun s l => entryRead q l va s) s, walk q va write s)

/-- Core, die and stack numbers as operands name them. -/
def coreNum (c : Nat) : CoreId := ⟨c % 1296, Nat.mod_lt _ (by decide)⟩
def dieNum (d : Nat) : DieId := ⟨d % 12, Nat.mod_lt _ (by decide)⟩
def stackNum (k : Nat) : StackId := ⟨k % 8, Nat.mod_lt _ (by decide)⟩

/-- The TLB of a user, and its parity mark (R313, R321). -/
def tlbOf (u : TlbUser) (s : State) : List TlbEntry × Bool :=
  match u with
  | .core c => ((s.core c).tlb, (s.core c).tlbErr)
  | .die d => ((s.die d).tlb, (s.die d).tlbErr)
  | .headstock => (s.hs.tlb, s.hs.tlbErr)

def setTlb (u : TlbUser) (l : List TlbEntry) (e : Bool) (s : State) : State :=
  match u with
  | .core c => s.updCore c fun x => { x with tlb := l, tlbErr := e }
  | .die d => s.updDie d fun x => { x with tlb := l, tlbErr := e }
  | .headstock => s.updHs fun x => { x with tlb := l, tlbErr := e }

/-- The chatter resource of a TLB (R415). -/
def tlbRes : TlbUser → Res
  | .core c => ⟨0x05, c⟩
  | .die d => ⟨0x08, d⟩
  | .headstock => ⟨0x08, 12⟩

/-- Entries of a TLB (R313). -/
def tlbSize : TlbUser → Nat
  | .core _ => 64 | .die _ => 4096 | .headstock => 1024

/-- The entry that holds an address of a partition. -/
def tlbFind (l : List TlbEntry) (q va : Nat) : Option TlbEntry :=
  l.find? fun e => e.part == q && decide (e.va ≤ va) && decide (va < e.va + e.size)

/-- A translation: a TLB hit, or a walk; an entry whose parity fails on the lookup is a miss and is counted (R321). -/
def translate (u : TlbUser) (q va : Nat) (write : Bool) (s : State) : State × Xl :=
  let t := tlbOf u s
  match tlbFind t.1 q va with
  | none => walkRead q va write s
  | some e =>
    if t.2 then walkRead q va write (chatter (tlbRes u) (resAddr (tlbRes u)) (setTlb u t.1 false s))
    else if write && !e.w then (s, .fail xWriteProt 0 0)
    else (s, .ok e)

/-- What the lookups and walks of a list of addresses find, apart from their translations (R314, R321). -/
def lookupAll (u : TlbUser) (q : Nat) (vas : List Nat) (s : State) : State :=
  vas.foldl (fun s va => (translate u q va false s).1) s

/-- The translation of a unit that never reaches the core-local window (R68, R322). -/
def translateFar (u : TlbUser) (q va : Nat) (write : Bool) (s : State) : State × Xl :=
  if inLocal va then (s, .fail xLocalWindow 0 0) else translate u q va write s

/-- Physical address under an entry. -/
def TlbEntry.at (e : TlbEntry) (va : Nat) : Nat := e.pa + (va - e.va)

/-- Every entry of a partition that touches a range leaves every TLB (R320, R321, R327). -/
def invalidate (q va len : Nat) (s : State) : State :=
  let keep := fun (e : TlbEntry) => !(e.part == q && overlaps e.va e.size va len)
  let s := s.updHs fun x => { x with tlb := x.tlb.filter keep }
  { s with
    cores := SMap.mapVals Core.reset (fun _ x => { x with tlb := x.tlb.filter keep }) s.cores
    dies := SMap.mapVals Die.reset (fun _ x => { x with tlb := x.tlb.filter keep }) s.dies }

/-- Every entry of a partition leaves every TLB (R321). -/
def invalidateAll (q : Nat) (s : State) : State := invalidate q 0 (2 ^ 48) s

/-- The word of a leaf (R316). -/
def leafWord (pa run : Nat) (w ro mig : Bool) : Word :=
  BitVec.ofNat 64 (run * 2 ^ 58 + pa + 64 * b2n mig + 32 * b2n ro + 16 * b2n w + 3)

/-- The word of a non-leaf entry: it points to the table at an address. -/
def nodeWord (next : Nat) : Word := BitVec.ofNat 64 (next + 1)

/-- A leaf of level l with the entries above it; `next` the address of the table below an entry, by the entry's number. -/
def putLeaf (next : Nat → Nat) (va l : Nat) (w : Word) (t : SMap Word) : SMap Word :=
  let node := fun (k : Nat) (t : SMap Word) => SMap.set 0 (peKey k va) (nodeWord (next (peKey k va))) t
  let t := SMap.set 0 (peKey l va) w t
  let t := if l ≤ 1 then node 2 t else t
  let t := if l ≤ 2 then node 3 t else t
  node 4 t

/-- The leaves of a run-hint group: n leaves of a size from va on, the first at pa. -/
def putLeaves (next : Nat → Nat) (g : Region) (l size run : Nat) : (n : Nat) → (va pa : Nat) → SMap Word → SMap Word
  | 0, _, _, t => t
  | n + 1, va, pa, t =>
    putLeaves next g l size run n (va + size) (pa + size) (putLeaf next va l (leafWord pa run g.w g.ro g.mig) t)

/-- The level of the largest page that fits at va and pa with `len` bytes left. -/
def leafLevel (va pa len : Nat) : Nat :=
  if aligned va (2 ^ 30) && aligned pa (2 ^ 30) && decide (2 ^ 30 ≤ len) then 3
  else if aligned va (2 ^ 21) && aligned pa (2 ^ 21) && decide (2 ^ 21 ≤ len) then 2 else 1

/-- The run hint of the leaf at va (R318): the largest group of leaves of level 1 or 2 that is aligned in both addresses and that
the range holds whole; a migrating range has none. -/
def runHint (l va pa len : Nat) (mig : Bool) : Nat :=
  let size := 2 ^ (12 + 9 * (l - 1))
  let fits := fun (r : Nat) => aligned va (size * 2 ^ r) && aligned pa (size * 2 ^ r) && decide (size * 2 ^ r ≤ len)
  if mig || decide (3 ≤ l) then 0
  else if fits 4 then 4 else if fits 3 then 3 else if fits 2 then 2 else if fits 1 then 1 else 0

/-- Leaves for [va, va + len) onto pa, at most `fuel` groups of them. Which page sizes and run hints the firmware picks among
those that fit changes only timing (R318, R400): here the largest pages and the largest groups. -/
def mapRange (next : Nat → Nat) (g : Region) : (fuel : Nat) → (va pa len : Nat) → SMap Word → SMap Word
  | 0, _, _, _, t => t
  | n + 1, va, pa, len, t =>
    if len = 0 then t else
      let l := leafLevel va pa len
      let r := runHint l va pa len g.mig
      let size := 2 ^ (12 + 9 * (l - 1))
      let all := size * 2 ^ r
      mapRange next g n (va + all) (pa + all) (len - all) (putLeaves next g l size r (2 ^ r) va pa t)

/-- The page tables of a list of regions. -/
def tablesOf (next : Nat → Nat) (gs : List Region) : SMap Word :=
  gs.foldl (fun t g => mapRange next g (g.len / 4096) g.va g.pa g.len t) []

/-- The firmware writes the page tables of new regions; an entry whose word does not change is not written, and one that is
written loses the errors it held (R285). -/
def setRegions (q : Nat) (gs : List Region) (x : Part) : Part :=
  let t := tablesOf (tableAddr q x) gs
  { x with
    regions := gs
    pt := t
    ptErr := x.ptErr.filter fun e => SMap.get 0 e.1 t == SMap.get 0 e.1 x.pt }

/-- A region cut to a range. -/
def Region.cut (g : Region) (va len : Nat) : List Region :=
  let lo := max g.va va
  let hi := min (g.va + g.len) (va + len)
  if lo < hi then [{ g with va := lo, len := hi - lo, pa := g.pa + (lo - g.va) }] else []

/-- What is left of regions outside a range, in ascending address order within each. -/
def regionsOutside (va len : Nat) (gs : List Region) : List Region :=
  gs.flatMap fun g => g.cut 0 va ++ g.cut (va + len) (2 ^ 48)

/-- What of regions lies inside a range. -/
def regionsInside (va len : Nat) (gs : List Region) : List Region := gs.flatMap fun g => g.cut va len

/-- Whether regions cover a whole range: what lies inside adds up to its length, no two regions overlapping. -/
def covered (va len : Nat) (gs : List Region) : Bool :=
  decide (((regionsInside va len gs).map (·.len)).sum = len)

/-- The access counter that takes a region: its own, a free one, or the one with the lowest count (R325). -/
def accSlot (x : SMap AccCtr) (q region : Nat) : Nat :=
  match x.find? fun e => e.2.used && e.2.part == q && e.2.region == region with
  | some e => e.1
  | none =>
    match firstFrom (fun i => !(SMap.get AccCtr.free i x).used) 0 4096 with
    | some i => i
    | none => (x.foldl (fun (m : Nat × Nat) e => if e.2.count < m.2 then (e.1, e.2.count) else m) (0, 256)).1

/-- A hot-page entry appended to a die's queue (R326). -/
def hotAppend (q region : Nat) (x : Die) : Die :=
  if x.hpq.length < 64 then { x with hpq := x.hpq ++ [⟨q, region, x.refcyc⟩] }
  else { x with hpqDrop := bump16 x.hpqDrop }

/-- A line read or written through a host window by a unit of a die (R325). -/
def countWindowDie (q va : Nat) (x : Die) : Die :=
  if x.hotThresh = 0 then x else
    let region := va / 2 ^ 21
    let i := accSlot x.acc q region
    let old := SMap.get AccCtr.free i x.acc
    let n := (if old.used && old.part == q && old.region == region then min 255 (old.count + 1) else 1)
    if x.hotThresh ≤ n then hotAppend q region { x with acc := SMap.set AccCtr.free i ⟨true, q, region, 0⟩ x.acc }
    else { x with acc := SMap.set AccCtr.free i ⟨true, q, region, n⟩ x.acc }

/-- The line is counted when its physical address is a host's. -/
def countWindow (d q va pa : Nat) (s : State) : State :=
  match locate pa with
  | .host _ _ => s.updDie d (countWindowDie q va)
  | _ => s

/-- A TLB takes the entry that a walk gave, which holds the whole run-hint group (R318). The one replaced when the TLB is full is
the oldest (log 28). -/
def tlbInstall (u : TlbUser) (e : TlbEntry) (s : State) : State :=
  let t := tlbOf u s
  if t.1.contains e then s
  else setTlb u (((e :: t.1).take (tlbSize u))) t.2 s

end Sys2Proof.Machine
end

