-- ==== Sys2Proof/Machine/CoreStore.lean ====
section
/-! DEFINITION. Reading and writing a core store with the errors its words hold (R76 to R82, R482). -/

namespace Sys2Proof.Machine

/-- The tag of poison. -/
def tagPoison : Tag := 0xF

/-- The core-store word at index w (byte address 8w). -/
def Core.word (x : Core) (w : Nat) : TWord := SMap.get TWord.zero w x.store

/-- The poison word of R80 with a source code. -/
def poisonWord (src : Nat) : TWord := ⟨BitVec.ofNat 64 (src * 2 ^ 56), tagPoison⟩

/-- The source code of R80 for errors in the codewords of a core-store word. -/
def CwErr.source (e : CwErr) : Nat :=
  match e.low == 2, e.high == 2, e.tag == 2 with
  | true, false, false => 1
  | false, true, false => 2
  | false, false, true => 3
  | _, _, _ => 4

/-- Some codeword is uncorrectable. -/
def CwErr.bad (e : CwErr) : Bool := e.low == 2 || e.high == 2 || e.tag == 2

/-- A word of a core store written whole, data and tag together (R82): whatever errors it held are gone. -/
def putWord (w : Nat) (v : TWord) (x : Core) : Core :=
  { x with store := SMap.set TWord.zero w v x.store, storeErr := SMap.set CwErr.none w CwErr.none x.storeErr }

/-- Words written whole from index w on. -/
def putWords (w : Nat) (vs : List TWord) (x : Core) : Core := (vs.zipIdx).foldl (fun x e => putWord (w + e.2) e.1 x) x

/-- The fault-log entry of an uncorrectable word that raises nothing (R78, R482). -/
def storeUeEntry (c w src : Nat) (how : CwHow) (s : State) : State :=
  match how with
  | .read => s
  | _ => logEvent { LogEntry.ofCode 0x0031 .info with
      part := (s.core c).part, src := dieOfCore c, addr := 8 * w, unit := if (s.core c).part.isSome then (s.core c).lcore else 0xFFFF
      d0 := src, d1 := if how = .merge then 1 else 0 } s

/-- A read of a word decodes its codewords (R77): a correctable word is corrected and counted, an uncorrectable one is
rewritten as poison (R79) and its macro becomes lasting-faulty (R417). -/
def touch (c w : Nat) (how : CwHow) (s : State) : State :=
  let e := SMap.get CwErr.none w (s.core c).storeErr
  if e = CwErr.none then s
  else if e.bad then
    let s := s.updCore c (putWord w (poisonWord e.source))
    chatterUe ⟨0x01, c * 64 + macroOfWord w⟩ (coreWordPa c w) (storeUeEntry c w e.source how s)
  else
    chatter ⟨0x01, c * 64 + macroOfWord w⟩ (coreWordPa c w)
      (s.updCore c fun x => { x with storeErr := SMap.set CwErr.none w CwErr.none x.storeErr })

/-- Reads of words in order. -/
def touchAll (c : Nat) (ws : List Nat) (how : CwHow) (s : State) : State := ws.foldl (fun s w => touch c w how s) s

/-- n words from index w on are read. -/
def touchRun (c w n : Nat) (s : State) : State := touchAll c ((List.range n).map (w + ·)) .read s

/-- A read of a word. -/
def readWord (c w : Nat) (s : State) : State × TWord :=
  let s := touch c w .read s
  (s, (s.core c).word w)

/-- The merge of R482 on a word that its read found in order: the bytes of the mask take new values, the others keep their
data when the tag stays and become 0 otherwise; a word of poison stays as it is. -/
def mergeTWord (mask : Nat) (new : List Byte) (tag : Tag) (old : TWord) : TWord :=
  if old.tag = tagPoison then old
  else
    let base := if old.tag = tag then leBytes old.data.toNat 8 else List.replicate 8 0
    ⟨BitVec.ofNat 64 (leNat (maskBytes mask base new)), tag⟩

/-- A write of a word under a byte mask (R163, R482); a full mask is a whole-word write. -/
def maskedWord (c w mask : Nat) (new : List Byte) (tag : Tag) (s : State) : State :=
  if mask % 256 = 255 then s.updCore c (putWord w ⟨BitVec.ofNat 64 (leNat new), tag⟩)
  else
    let s := touch c w .merge s
    s.updCore c fun x => { x with store := SMap.set TWord.zero w (mergeTWord mask new tag (x.word w)) x.store }

/-- Bytes stored from byte address a on with a tag (R163, R183, R372): word by word. -/
def storeBytes (c : Nat) (tag : Tag) : (fuel : Nat) → (a : Nat) → List Byte → State → State
  | 0, _, _, s => s
  | n + 1, a, bs, s =>
    if bs.isEmpty then s else
      let o := a % 8
      let k := min (8 - o) bs.length
      let new := padTo 8 (List.replicate o 0 ++ bs.take k)
      storeBytes c tag n (a + k) (bs.drop k) (maskedWord c (a / 8) ((2 ^ k - 1) * 2 ^ o) new tag s)

/-- The bytes of n words from word index w on, without reading errors. -/
def Core.bytes (x : Core) (w n : Nat) : List Byte :=
  (List.range n).flatMap fun i => leBytes (x.word (w + i)).data.toNat 8

/-- Core-local byte bounds (R72, R129). -/
def rescueBase : Nat := 0x3FFC00
def rescueWord : Nat := 0x3FFC00 / 8
def tableBase : Nat := 0x3FF400

end Sys2Proof.Machine
end

