-- ==== Sys2Proof/Machine/Flags.lean ====
section
/-! DEFINITION. STATUS, hardware-loop words and the pending deliveries of a core (R121 to R128, R131 to R143). -/

namespace Sys2Proof.Machine

/-- STATUS.PL is Supervisor (R127). -/
def Core.sup (x : Core) : Bool := wbit x.status 8
/-- STATUS.NIW (R127). -/
def Core.niw (x : Core) : Bool := wbit x.status 10
/-- The IMASK bit of an interrupt vector (R127). -/
def Core.imask (x : Core) (v : Nat) : Bool := wbit x.status (48 + (v - 16))

/-- STATUS from its fields (R127). -/
def mkStatus (imask : Nat) (wo niw pl : Bool) : Word :=
  BitVec.ofNat 64 (imask % 65536 * 2 ^ 48 + b2n wo * 2 ^ 11 + b2n niw * 2 ^ 10 + b2n pl * 2 ^ 8)

/-- A write of STATUS (R127): reserved bits stay 0, NIW is cleared by a 1. -/
def writeStatus (v : Word) (x : Core) : Core :=
  { x with
    status := mkStatus (wf64 v 63 48) (wbit v 11) (x.niw && !wbit v 10) (wbit v 8)
    niLeft := if wbit v 10 then 0 else x.niLeft }

/-- Fields of a hardware-loop word (R124); START and END as code addresses. -/
def lpActive (w : Word) : Bool := wbit w 63
def lpStart (w : Word) : Nat := wf64 w 59 46 * 8
def lpEnd (w : Word) : Nat := wf64 w 45 32 * 8
def lpCount (w : Word) : Nat := wf64 w 31 0

/-- A loop word (R124). -/
def mkLoop (start last count : Nat) : Word :=
  BitVec.ofNat 64 (2 ^ 63 + start / 8 % 16384 * 2 ^ 46 + last / 8 % 16384 * 2 ^ 32 + count % 2 ^ 32)

/-- A loop word is well formed (R124). -/
def loopOk (w : Word) : Bool :=
  decide (wf64 w 62 60 = 0) && (!lpActive w || (decide (lpStart w ≤ lpEnd w) && decide (1 ≤ lpCount w)))

/-- Two levels are properly nested (R124). -/
def loopsNested (inner outer : Word) : Bool :=
  !(lpActive inner && lpActive outer) ||
    (decide (lpStart outer ≤ lpStart inner) && decide (lpStart inner < lpEnd outer)
      && decide (lpStart outer ≤ lpEnd inner) && decide (lpEnd inner < lpEnd outer))

/-- A code address is the END of an active level (R123, R139). -/
def Core.isEnd (x : Core) (pc : Nat) : Bool :=
  (lpActive x.loopIn && decide (lpEnd x.loopIn = pc)) || (lpActive x.loopOut && decide (lpEnd x.loopOut = pc))

/-- COUNT of a level goes down by one: the word afterwards (R122); that of a level that has ended reads 0 whole (DESIGN CHOICE,
log 81). -/
def lpStep (w : Word) : Word := if lpCount w ≤ 1 then 0 else w - 1

/-- The bundle at `pc` has committed and the next is `next`: iteration of the checked level (R122). -/
def loopBack (pc next : Nat) (x : Core) : Core × Nat :=
  if lpActive x.loopIn then
    if lpEnd x.loopIn = pc then
      ({ x with loopIn := lpStep x.loopIn }, if 1 < lpCount x.loopIn then lpStart x.loopIn else next)
    else (x, next)
  else if lpActive x.loopOut && decide (lpEnd x.loopOut = pc) then
    ({ x with loopOut := lpStep x.loopOut }, if 1 < lpCount x.loopOut then lpStart x.loopOut else next)
  else (x, next)

/-- A target lies outside a level (R123). -/
def lpOutside (w : Word) (t : Nat) : Bool := decide (t < lpStart w) || decide (lpEnd w < t)

/-- A BR, BZ, BNZ or BRI is taken to a target outside levels (R123). -/
def leaveLoops (t : Nat) (x : Core) : Core :=
  if lpActive x.loopIn then
    if lpOutside x.loopIn t then
      { x with loopIn := 0, loopOut := if lpActive x.loopOut && lpOutside x.loopOut t then 0 else x.loopOut }
    else x
  else if lpActive x.loopOut && lpOutside x.loopOut t then { x with loopOut := 0 } else x

/-- n CCLK cycles run down an open window (R142). -/
def Core.passWindow (n : Nat) (x : Core) : Core := { x with niLeft := if x.niw then x.niLeft - n else x.niLeft }

/-- n CCLK cycles pass for a core beside those its die counts: CYCLE counts them, an open window runs down (R111, R142). -/
def Core.passCycles (n : Nat) (x : Core) : Core := { x with cycle := x.cycle + BitVec.ofNat 64 n }.passWindow n

/-- An interrupt event of a turn (R132): vectors 16 to 23, each once (R135). -/
def Core.event (v turn : Nat) (x : Core) : Core :=
  if x.pend.events.contains (turn, v) then x else { x with pend := { x.pend with events := x.pend.events ++ [(turn, v)] } }

/-- A turn-aligned exception of a turn (R37, R131). -/
def Core.turnExc (v turn : Nat) (x : Core) : Core :=
  if x.pend.turnExc.contains (turn, v) then x else { x with pend := { x.pend with turnExc := x.pend.turnExc ++ [(turn, v)] } }

/-- An immediate exception becomes pending (R131). -/
def Core.immediate (v : Nat) (x : Core) : Core :=
  if x.pend.imm.contains v then x else { x with pend := { x.pend with imm := x.pend.imm ++ [v] } }

/-- The lowest vector of a list. -/
def lowest (l : List Nat) : Option Nat :=
  match l with
  | [] => none
  | v :: vs => some (vs.foldl min v)

/-- The held item that is delivered next: exceptions first, then interrupts, each in ascending order (R135). -/
def Pend.nextHeld (p : Pend) : Option Nat :=
  match lowest p.heldExc with
  | some v => some v
  | none => lowest p.heldInt

/-- A held item is taken. -/
def Pend.dropHeld (v : Nat) (p : Pend) : Pend :=
  { p with heldExc := p.heldExc.filter (· != v), heldInt := p.heldInt.filter (· != v) }

/-- The vectors of a list of items that belong to a turn before `turn`, each once. -/
def vectorsBefore (turn : Nat) (l : List (Nat × Nat)) : List Nat :=
  ((l.filter fun e => decide (e.1 < turn)).map (·.2)).eraseDups

/-- What the spur for a turn holds (R132, R135 items 1 and 4): the items of the turns before it, with vector 19, an event of
every turn. Items of the turn that begins, which came about in a unit that had its spur earlier, stay for the next spur. -/
def Core.holdTurn (turn : Nat) (x : Core) : Core :=
  let ev := (vectorsBefore turn x.pend.events ++ [19]).filter fun v => x.imask v
  let later := fun (e : Nat × Nat) => decide (turn ≤ e.1)
  { x with pend := { x.pend with
      events := x.pend.events.filter later, turnExc := x.pend.turnExc.filter later
      heldExc := x.pend.heldExc ++ (vectorsBefore turn x.pend.turnExc).filter fun v => !x.pend.heldExc.contains v
      heldInt := x.pend.heldInt ++ ev.filter fun v => !x.pend.heldInt.contains v } }

end Sys2Proof.Machine
end

