-- ==== Sys2Proof/Machine/Entry.lean ====
section
/-! DEFINITION. Taking an exception, halting, and returning from an exception on a core (R72 to R74, R129, R130,
R138 to R149): the shared operations. -/

namespace Sys2Proof.Machine

/-- What an exception carries into its frame (R139): vector, sub-cause, effective address, failing syllable, slot (7 for
none), failing operand, saved code address, LE, TW, DS. -/
structure Exc where
  vec : Nat
  sub : Nat
  ea : Nat
  syll : Nat
  slot : Nat
  opnd : Nat
  pc : Nat
  le : Bool
  tw : Bool
  ds : Bool
deriving DecidableEq, Repr

/-- An exception that no syllable raised, taken at a bundle boundary. -/
def Exc.atBoundary (v pc : Nat) : Exc := ⟨v, 0, 0, 0, 7, 0, pc, false, false, false⟩

/-- An exception taken in TWAIT (R134). -/
def Exc.atTwait (v sub ea pc : Nat) : Exc := ⟨v, sub, ea, 0, 7, 0, pc, false, true, false⟩

/-- The cause word (R139). -/
def causeWord (e : Exc) (savefail : Nat) : Word :=
  BitVec.ofNat 64 (savefail * 2 ^ 24 + e.sub % 256 * 2 ^ 16 + b2n e.le * 2 ^ 15 + b2n e.tw * 2 ^ 14 + b2n e.ds * 2 ^ 13
    + e.opnd % 4 * 2 ^ 11 + e.slot % 8 * 2 ^ 8 + e.vec % 256)

/-- An address register. -/
def Core.areg (x : Core) (r : Nat) : TWord := SMap.get TWord.zero r x.a
def setAreg (r : Nat) (v : TWord) (x : Core) : Core := { x with a := SMap.set TWord.zero r v x.a }
def setAregs (r : Nat) (vs : List TWord) (x : Core) : Core := (vs.zipIdx).foldl (fun x e => setAreg (r + e.2) e.1 x) x

/-- A return link or a code address as a word (R99): data[16:0]. -/
def codeWord (pc : Nat) : Word := BitVec.ofNat 64 (pc % 2 ^ 17)

/-- The sixteen words of an exception frame (R139). -/
def frameWords (e : Exc) (savefail : Nat) (x : Core) : List TWord :=
  [⟨codeWord e.pc, 8⟩, ⟨x.status, 9⟩, .int (causeWord e savefail), .int (BitVec.ofNat 64 e.ea),
    .int (BitVec.ofNat 64 e.syll), .int x.loopIn, .int x.loopOut, .int (BitVec.ofNat 64 x.tu.turn)]
  ++ (List.range 8).map fun i => x.areg (8 + i)

/-- Rescue words 16 to 47 at a halt (R73, R74); that the reserved words 38 to 47, which R73 has written as 0, are written with
them at each halt is the model's choice (DESIGN CHOICE, log 81). -/
def haltWords (cause vec : Nat) (x : Core) : List TWord :=
  ((List.range 16).map x.areg)
  ++ [.int (codeWord x.pc), ⟨x.status, 9⟩, .int x.loopIn, .int x.loopOut, .int (BitVec.ofNat 64 x.tu.turn),
      .int (BitVec.ofNat 64 (vec * 256 + cause))]
  ++ List.replicate 10 TWord.zero

/-- A core halts (R74, R148, R149). -/
def haltCore (cause vec : Nat) (x : Core) : Core :=
  { putWords (rescueWord + 16) (haltWords cause vec x) x with
    halt := cause, haltVec := vec, haltNote := true, niLeft := 0 }

/-- A core machine check (R415): the halt with cause 0x03, and its count. -/
def machineCheck (c : Nat) (s : State) : State :=
  chatter ⟨0x07, c⟩ (coreWordPa c 0) (s.updCore c (haltCore 3 0))

/-- The word index of descriptor entry v (R129). -/
def entryWord (v : Nat) : Nat := (tableBase + 32 * v) / 8

/-- Fields of descriptor word 2 (R130). -/
def ctlNi (w : Word) : Nat := wf64 w 11 0
def ctlPl (w : Word) : Bool := wbit w 16
def ctlOvt (w : Word) : Bool := wbit w 17
def ctlStk (w : Word) : Bool := wbit w 18
def ctlValid (w : Word) : Bool := wbit w 19

/-- The stack pointer that CONTROL.STK chooses (R130). -/
def entrySp (v : Nat) (x : Core) : TWord :=
  if ctlStk (x.word (entryWord v + 2)).data && x.sup then x.areg 15 else x.word (entryWord v + 1)

/-- The save-failure reason of an entry to vector v, 0 when it succeeds (R147). -/
def entryFail (v : Nat) (x : Core) : Nat :=
  let w := fun i => x.word (entryWord v + i)
  let h := (w 0).data.toNat
  let sp := entrySp v x
  let a := sp.data.toNat
  if [0, 1, 2, 3].any fun i => decide ((w i).tag = tagPoison) then 7
  else if (w 0).tag ≠ 0 ∨ (w 1).tag ≠ 5 ∨ (w 2).tag ≠ 0 ∨ 9 < (w 3).tag.toNat ∨ !ctlValid (w 2).data
      ∨ wf64 (w 2).data 63 20 ≠ 0 ∨ wf64 (w 2).data 15 12 ≠ 0 then 1
  else if h % 8 ≠ 0 ∨ 0x1FFF8 < h then 2
  else if sp.tag ≠ 5 then 3
  else if 0x400000 < a then 4
  else if a % 64 ≠ 0 then 5
  else if a < 128 ∨ tableBase < a then 6
  else 0

/-- Entry to a vector on a core whose descriptor words have been read (R138, R148). -/
def enterCore (e : Exc) (x : Core) : Core :=
  let f := entryFail e.vec x
  if f = 0 then
    let ctl := (x.word (entryWord e.vec + 2)).data
    let ctx := x.word (entryWord e.vec + 3)
    let sp := (entrySp e.vec x).data
    let h := (x.word (entryWord e.vec)).data.toNat
    let y := putWords ((sp.toNat - 128) / 8) (frameWords e 0 x) x
    let y := setAreg 14 ctx (setAreg 15 ⟨sp - 128, 5⟩ y)
    { y with
      status := mkStatus (wf64 x.status 63 48) false (decide (0 < ctlNi ctl)) (ctlPl ctl)
      niLeft := 16 * ctlNi ctl
      niOvt := ctlOvt ctl
      loopIn := 0
      loopOut := 0
      pc := h
      delay := none
      branchOnly := false
      twait := false
      vload := false
      far := { x.far with bundle := [] } }
  else
    haltCore 1 e.vec (putWords rescueWord (frameWords e f x) { x with delay := none })

/-- TAKING AN EXCEPTION (R138): the four descriptor words are read, then the entry. -/
def enter (c : Nat) (e : Exc) (s : State) : State :=
  (touchRun c (entryWord e.vec) 4 s).updCore c (enterCore e)

/-- RETURN FROM EXCEPTION, after RTE's delay bundle (R146): `ws` the sixteen frame words RTE has checked. -/
def rteCore (ws : List TWord) (x : Core) : Core :=
  let w := fun i => (ws.getD i TWord.zero).data
  let st := w 1
  let x := setAregs 8 (ws.drop 8) x
  { x with
    status := mkStatus (wf64 st 63 48) (wbit st 11) false (wbit st 8)
    niLeft := 0
    loopIn := w 5
    loopOut := w 6
    pc := (w 0).toNat % 2 ^ 17
    twait := x.twait || wbit (w 2) 14
    branchOnly := wbit (w 2) 13 && !wbit (w 2) 14 }

end Sys2Proof.Machine
end

