-- ==== Sys2Proof/Machine/Desc.lean ====
section
/-! DEFINITION. The descriptors of passes, drains, tensor-stream runs, moves, launches and posts (R172 to R176, R203 to
R214, R265, R266, R373): their fields, the byte ranges they name, and the waits those ranges make (R190, R221, R271). -/

namespace Sys2Proof.Machine

/-- First byte past the last of a list of ranges merged into one smallest range. -/
def boundsOf (lo hi : Int) (size : Nat) : Option (Int × Nat) :=
  if hi < lo then none else some (lo, (hi - lo).toNat + size)

/-- Least and greatest value of n · stride for n below a count. -/
def spanOf (stride : Int) (count : Nat) : Int × Int :=
  let e := stride * (count - 1 : Nat)
  (min 0 e, max 0 e)

/-- Least and greatest sum of spans. -/
def spanSum (l : List (Int × Int)) : Int × Int := l.foldl (fun a b => (a.1 + b.1, a.2 + b.2)) (0, 0)

/-- A signed 32-bit field of a word. -/
def s32hi (w : Word) : Int := sextOf 32 (wf64 w 63 32)
def s32lo (w : Word) : Int := sextOf 32 (wf64 w 31 0)

/-- The words of a pass descriptor (R203), as data. -/
structure PassDesc where
  w : List Word

namespace PassDesc

def word (d : PassDesc) (n : Nat) : Word := d.w.getD n 0
def fmt (d : PassDesc) : Nat := wf64 (d.word 0) 3 0
def tall (d : PassDesc) : Bool := wbit (d.word 0) 4
def tile (d : PassDesc) : Nat := wf64 (d.word 0) 6 5
def acc (d : PassDesc) : Bool := wbit (d.word 0) 7
def prom (d : PassDesc) : Nat := wf64 (d.word 0) 9 8
def auns (d : PassDesc) : Bool := wbit (d.word 0) 10
def buns (d : PassDesc) : Bool := wbit (d.word 0) 11
def conv (d : PassDesc) : Nat := wf64 (d.word 0) 13 12
def csel (d : PassDesc) : Bool := wbit (d.word 0) 14
def k (d : PassDesc) : Nat := wf64 (d.word 1) 15 0 + 1
def mr (d : PassDesc) : Nat := wf64 (d.word 1) 22 16 + 1
def nc (d : PassDesc) : Nat := wf64 (d.word 1) 28 24 + 1
def k0 (d : PassDesc) : Nat := wf64 (d.word 1) 47 32 + 1

/-- The promotion interval (R204). -/
def interval (d : PassDesc) : Nat := [8, 4, 16, 32].getD d.prom 8

/-- Twice the element size in bytes (R197). -/
def esz2 (d : PassDesc) : Nat :=
  match d.fmt with
  | 0 => 1 | 6 => 4 | 7 => 4 | 8 => 8 | 9 => 16 | _ => 2

/-- The tag every core-store word of the operands carries (R197). -/
def wtag (d : PassDesc) : Tag :=
  match d.fmt with
  | 6 => 3 | 7 => 3 | 8 => 2 | 9 => 1 | _ => 4

/-- An operand: A (`true`) or B. -/
def base (d : PassDesc) (a : Bool) : Nat := wf64 (d.word (if a then 2 else 5)) 47 0
def st1 (d : PassDesc) (a : Bool) : Word := d.word (if a then 3 else 6)
def st2 (d : PassDesc) (a : Bool) : Word := d.word (if a then 4 else 7)
def sbase (d : PassDesc) (a : Bool) : Nat := wf64 (d.word (if a then 8 else 10)) 47 0
def sst (d : PassDesc) (a : Bool) : Word := d.word (if a then 9 else 11)

/-- Rows of an operand that the pass uses. -/
def rows (d : PassDesc) (a : Bool) : Nat := if a then d.mr else d.nc

/-- The operand is addressed by implicit convolution (R208). -/
def isConv (d : PassDesc) (a : Bool) : Bool := decide (d.conv ≠ 0) && (d.csel == a)

def cin (d : PassDesc) : Nat := wf64 (d.word 12) 11 0 + 1
def rw (d : PassDesc) : Nat := wf64 (d.word 12) 15 12 + 1
def rh (d : PassDesc) : Nat := wf64 (d.word 12) 19 16 + 1
def strx (d : PassDesc) : Nat := wf64 (d.word 12) 23 20 + 1
def dilx (d : PassDesc) : Nat := wf64 (d.word 12) 27 24 + 1
def dily (d : PassDesc) : Nat := wf64 (d.word 12) 31 28 + 1
def wx (d : PassDesc) : Nat := wf64 (d.word 12) 47 32 + 1
def wy (d : PassDesc) : Nat := wf64 (d.word 12) 63 48 + 1
def ox0 (d : PassDesc) : Int := s32lo (d.word 13)
def oy (d : PassDesc) : Int := sextOf 16 (wf64 (d.word 13) 47 32)

/-- Element index of (row i, k) of an operand, none where a convolution element is out of range (R209, R210). -/
def elem (d : PassDesc) (a : Bool) (i k : Nat) : Option Int :=
  if d.isConv a then
    let c := k % d.cin
    let rx := k / d.cin % d.rw
    let ry := k / (d.cin * d.rw)
    let px := d.ox0 + (i * d.strx + rx * d.dilx : Nat)
    let py := d.oy + (ry * d.dily : Nat)
    if 0 ≤ px ∧ px < d.wx ∧ 0 ≤ py ∧ py < d.wy then
      some (c * s32lo (d.st1 a) + px * s32hi (d.st1 a) + py * s32lo (d.st2 a))
    else none
  else
    some (i * s32lo (d.st1 a) + (k % d.k0 : Nat) * s32hi (d.st1 a) + (k / d.k0 : Nat) * s32lo (d.st2 a))

/-- Byte address of element index x (R209); an MXFP4 element shares its byte with its neighbour. -/
def byteOf (d : PassDesc) (a : Bool) (x : Int) : Int := d.base a + (x * d.esz2) / 2

/-- Byte address of the scale of row i for block q (R209). -/
def scaleAt (d : PassDesc) (a : Bool) (i q : Nat) : Int :=
  d.sbase a + i * s32lo (d.sst a) + q * s32hi (d.sst a)

/-- Least and greatest element index of an operand over the pass (R211). -/
def elemSpan (d : PassDesc) (a : Bool) : Option (Int × Int) :=
  if d.isConv a then
    let xs := (List.range (d.rows a)).flatMap fun i => (List.range d.rw).filterMap fun rx =>
      let px := d.ox0 + (i * d.strx + rx * d.dilx : Nat)
      if 0 ≤ px ∧ px < d.wx then some (px * s32hi (d.st1 a)) else none
    let ys := (List.range d.rh).filterMap fun ry =>
      let py := d.oy + (ry * d.dily : Nat)
      if 0 ≤ py ∧ py < d.wy then some (py * s32lo (d.st2 a)) else none
    match xs, ys with
    | x :: xs, y :: ys =>
      some (spanSum [spanOf (s32lo (d.st1 a)) d.cin, (xs.foldl min x, xs.foldl max x), (ys.foldl min y, ys.foldl max y)])
    | _, _ => none
  else
    some (spanSum [spanOf (s32lo (d.st1 a)) (d.rows a), spanOf (s32hi (d.st1 a)) (min d.k0 d.k),
      spanOf (s32lo (d.st2 a)) (ceilDiv d.k d.k0)])

/-- The byte range of an operand (R211): first byte and length; none when nothing is read. -/
def opRange (d : PassDesc) (a : Bool) : Option (Int × Nat) :=
  match d.elemSpan a with
  | none => none
  | some (lo, hi) => boundsOf (d.byteOf a lo) (d.byteOf a hi) (max 1 (d.esz2 / 2))

/-- The byte range of an operand's scales (R211). -/
def scRange (d : PassDesc) (a : Bool) : Option (Int × Nat) :=
  if d.fmt = 0 then
    let sp := spanSum [spanOf (s32lo (d.sst a)) (d.rows a), spanOf (s32hi (d.sst a)) (ceilDiv d.k 32)]
    boundsOf (d.sbase a + sp.1) (d.sbase a + sp.2) 1
  else none

end PassDesc

/-- A range of integers as an address range, when it lies at or above 0. -/
def rngOf (r : Option (Int × Nat)) : List Rng :=
  match r with
  | some (a, n) => if 0 ≤ a then [(a.toNat, n)] else [(0, n - (-a).toNat)]
  | none => []

/-- The part of ranges in the core-local window. -/
def localRngs (l : List Rng) : List Rng := l.filter fun r => inLocal r.1

/-- The words of a drain descriptor (R213). -/
structure DrainDesc where
  w : List Word

namespace DrainDesc

def word (d : DrainDesc) (n : Nat) : Word := d.w.getD n 0
def tile (d : DrainDesc) : Nat := wf64 (d.word 0) 1 0
def w64 (d : DrainDesc) : Bool := wbit (d.word 0) 2
def ofmt (d : DrainDesc) : Nat := wf64 (d.word 0) 6 3
def scale (d : DrainDesc) : Bool := wbit (d.word 0) 7
def bias (d : DrainDesc) : Bool := wbit (d.word 0) 8
def submax (d : DrainDesc) : Bool := wbit (d.word 0) 9
def exp2 (d : DrainDesc) : Bool := wbit (d.word 0) 10
def stats (d : DrainDesc) : Bool := wbit (d.word 0) 11
def init (d : DrainDesc) : Nat := wf64 (d.word 0) 13 12
def obase (d : DrainDesc) : Nat := wf64 (d.word 1) 21 0
def ors (d : DrainDesc) : Int := s32hi (d.word 1)
def biasBase (d : DrainDesc) : Nat := wf64 (d.word 2) 21 0
def initBase (d : DrainDesc) : Nat := wf64 (d.word 2) 53 32
def dscale (d : DrainDesc) : Word := d.word 3
def maxBase (d : DrainDesc) : Nat := wf64 (d.word 4) 21 0
def sumBase (d : DrainDesc) : Nat := wf64 (d.word 4) 53 32
def mr (d : DrainDesc) : Nat := wf64 (d.word 5) 6 0 + 1
def nc (d : DrainDesc) : Nat := wf64 (d.word 5) 12 8 + 1

/-- Output element size in bytes, 0 for no output (R214). -/
def osz (d : DrainDesc) : Nat := [4, 2, 2, 1, 1, 1, 4, 8].getD d.ofmt 0

/-- Tag of output words (R214). -/
def otag (d : DrainDesc) : Tag := ([2, 3, 3, 4, 4, 4, 0, 1] : List Tag).getD d.ofmt 0

/-- Bytes of a bias or init element (R213). -/
def rsz (d : DrainDesc) : Nat := if d.w64 then 8 else 4

/-- The output range. -/
def outRange (d : DrainDesc) : Option (Int × Nat) :=
  if d.osz = 0 then none else
    let sp := spanSum [spanOf d.ors d.mr, spanOf 1 d.nc]
    boundsOf (d.obase + sp.1 * d.osz) (d.obase + sp.2 * d.osz) d.osz

/-- The ranges a drain writes (R221). -/
def wrRanges (d : DrainDesc) : List Rng :=
  rngOf d.outRange ++ (if d.stats then [(d.maxBase, 4 * d.mr), (d.sumBase, 4 * d.mr)]
    else if d.submax then [(d.maxBase, 4 * d.mr)] else [])

/-- The ranges a drain reads (R221). -/
def rdRanges (d : DrainDesc) : List Rng :=
  (if d.bias then [(d.biasBase, 32 * d.rsz)] else []) ++ (if d.init = 2 then [(d.initBase, 32 * d.rsz)] else [])

end DrainDesc

/-- The words of a tensor-stream descriptor (R172). -/
structure RunDesc where
  w : List TWord

/-- The two words of a tensor (R175). -/
structure Tensor where
  base : Word
  stride : Word

namespace Tensor

def ty (t : Tensor) : Option VTy := VTy.ofCode (wf64 t.base 63 60)
def ssh (t : Tensor) : Nat := wf64 t.base 59 57
def s0 (t : Tensor) : Int := sextOf 8 (wf64 t.base 56 49)
def limit (t : Tensor) : Nat := wf64 t.base 44 22
def addr (t : Tensor) : Nat := wf64 t.base 21 0
def st (t : Tensor) (n : Nat) : Int := sextOf 16 (wf64 t.stride (16 * n - 1) (16 * n - 16))
def range (t : Tensor) : Rng := (t.addr, t.limit)

end Tensor

namespace RunDesc

def word (d : RunDesc) (n : Nat) : Word := (d.w.getD n TWord.zero).data
def ndim (d : RunDesc) : Nat := wf64 (d.word 0) 2 0
def nin (d : RunDesc) : Nat := wf64 (d.word 0) 4 3
def mask (d : RunDesc) : Bool := wbit (d.word 0) 5
def quiet (d : RunDesc) : Bool := wbit (d.word 0) 6
def nout (d : RunDesc) : Bool := wbit (d.word 0) 7
def ext (d : RunDesc) (i : Nat) : Nat := wf64 (d.word 1) (12 * i + 11) (12 * i) + 1
def paddr (d : RunDesc) : Nat := wf64 (d.word 2) 21 0
def saddr (d : RunDesc) : Nat := wf64 (d.word 3) 21 0
def tid (d : RunDesc) : Nat := wf64 (d.word 3) 47 32
def tensor (d : RunDesc) (n : Nat) : Tensor := ⟨d.word (4 + 2 * n), d.word (5 + 2 * n)⟩
def step (d : RunDesc) : Nat := wf64 (d.word 14) 31 0
def scalar (d : RunDesc) : TWord := d.w.getD 15 TWord.zero
def count (d : RunDesc) : Nat := d.ext 0 * d.ext 1 * d.ext 2 * d.ext 3 * d.ext 4

/-- The tensors present: inputs, then output (3), then mask (4). -/
def present (d : RunDesc) : List Nat :=
  List.range (min d.nin 3) ++ (if d.nout then [3] else []) ++ (if d.mask then [4] else [])

/-- Bytes of the program block for a header word (R177). -/
def progBytes (hdr : Word) : Nat := if wbit hdr 6 then 165 * 8 else 37 * 8

end RunDesc

/-- The words of a move descriptor (R265). -/
structure MoveDesc where
  w : List Word

namespace MoveDesc

def word (d : MoveDesc) (n : Nat) : Word := d.w.getD n 0
def kind (d : MoveDesc) : Nat := wf64 (d.word 0) 3 0
def srcl (d : MoveDesc) : Bool := wbit (d.word 0) 4
def dstl (d : MoveDesc) : Bool := wbit (d.word 0) 5
def tag (d : MoveDesc) : Nat := wf64 (d.word 0) 9 6
def srcCore (d : MoveDesc) : Nat := wf64 (d.word 1) 58 48
def src (d : MoveDesc) : Nat := wf64 (d.word 1) 47 0
def dstCore (d : MoveDesc) : Nat := wf64 (d.word 2) 58 48
def dst (d : MoveDesc) : Nat := wf64 (d.word 2) 47 0
def nrows (d : MoveDesc) : Nat := wf64 (d.word 3) 63 48 + 1
def rlen (d : MoveDesc) : Nat := wf64 (d.word 3) 22 0
def dstride (d : MoveDesc) : Int := s32hi (d.word 4)
def sstride (d : MoveDesc) : Int := s32lo (d.word 4)
def first (d : MoveDesc) : Nat := wf64 (d.word 5) 10 0
def ndest (d : MoveDesc) : Nat := wf64 (d.word 5) 26 16 + 1
def cstep (d : MoveDesc) : Nat := wf64 (d.word 5) 39 32
def nen (d : MoveDesc) : Bool := wbit (d.word 6) 16
def nunit (d : MoveDesc) : Nat := wf64 (d.word 6) 15 14
def nac (d : MoveDesc) : Nat := wf64 (d.word 6) 13 11
def ncore (d : MoveDesc) : Nat := wf64 (d.word 6) 10 0

/-- The byte range of a side over all its rows. -/
def sideRange (addr : Nat) (stride : Int) (rows rlen : Nat) : Option (Int × Nat) :=
  if rlen = 0 then none else
    let sp := spanOf stride rows
    boundsOf (addr + sp.1) (addr + sp.2) rlen

def srcRange (d : MoveDesc) : Option (Int × Nat) := sideRange d.src d.sstride d.nrows d.rlen
def dstRange (d : MoveDesc) : Option (Int × Nat) := sideRange d.dst d.dstride d.nrows d.rlen

/-- The core-store side in core `lc`: read ranges and written ranges (R271). -/
def sideRd (d : MoveDesc) (lc : Nat) : List Rng := if d.srcl && d.srcCore == lc then rngOf d.srcRange else []
def sideWr (d : MoveDesc) (lc : Nat) : List Rng := if d.dstl && d.dstCore == lc then rngOf d.dstRange else []

end MoveDesc

/-- n data words of a core store from byte address a. -/
def Core.words (x : Core) (a n : Nat) : List Word := (List.range n).map fun i => (x.word (a / 8 + i)).data
/-- n words with their tags from byte address a. -/
def Core.twords (x : Core) (a n : Nat) : List TWord := (List.range n).map fun i => x.word (a / 8 + i)

/-- The ranges of an action, read and written, taken when it is armed (R190, R221, R271, R373). -/
def rangesOf (kind : ActKind) (h : Nat) (x : Core) : List Rng × List Rng :=
  match kind with
  | .pass =>
    let d : PassDesc := ⟨x.words h 16⟩
    ((h, 128) :: localRngs (rngOf (d.opRange true) ++ rngOf (d.opRange false) ++ rngOf (d.scRange true) ++ rngOf (d.scRange false)), [])
  | .drain =>
    let d : DrainDesc := ⟨x.words h 8⟩
    ((h, 64) :: d.rdRanges, d.wrRanges)
  | .run =>
    let d : RunDesc := ⟨x.twords h 16⟩
    let hdr := (x.word (d.paddr / 8)).data
    ((h, 128) :: (d.paddr, RunDesc.progBytes hdr)
        :: (d.present.filter (· != 3)).map fun n => (d.tensor n).range,
      (d.saddr, 64) :: if d.nout then [(d.tensor 3).range] else [])
  | .move =>
    let d : MoveDesc := ⟨x.words h 8⟩
    ((h, 64) :: d.sideRd x.lcore, d.sideWr x.lcore)
  | .post =>
    let w := x.words h 2
    ([(wf64 (w.getD 1 0) 21 0, wf64 (w.getD 1 0) 63 32)], [])
  | .launch => ([], [])
  | .share => ([], [])

/-- Ranges held by armed and running actions of a core: first all (read or written), then the written ones. -/
def Core.heldEntries (x : Core) : List ArmEntry := x.tu.queue ++ x.mtu.queue ++ x.dtu.queue

/-- Every range held against writes (R190, R221, R271, R373). A pass stays until it retires, which is no earlier than its last
beat is fed. -/
def Core.heldRanges (x : Core) : List Rng :=
  x.heldEntries.flatMap (fun e => e.rd ++ e.wr)
  ++ x.jobs.passes.flatMap (·.rd)
  ++ x.jobs.drains.flatMap (fun j => j.rd ++ j.wr)
  ++ x.jobs.runs.flatMap (fun j => j.rd ++ j.wr)
  ++ x.jobs.moves.flatMap (fun j => j.rd ++ j.wr)
  ++ x.jobs.posted

/-- Every range held against reads. -/
def Core.heldWritten (x : Core) : List Rng :=
  x.heldEntries.flatMap (·.wr)
  ++ x.jobs.drains.flatMap (·.wr)
  ++ x.jobs.runs.flatMap (·.wr)
  ++ x.jobs.moves.flatMap (·.wr)

/-- The ranges of passes, drains and runs only, which a MOVE waits for (R190, R221). -/
def Core.heldByActions (x : Core) : List Rng :=
  ((x.heldEntries.filter fun e => e.kind == .pass || e.kind == .drain || e.kind == .run).flatMap fun e => e.rd ++ e.wr)
  ++ x.jobs.passes.flatMap (·.rd)
  ++ x.jobs.drains.flatMap (fun j => j.rd ++ j.wr)
  ++ x.jobs.runs.flatMap (fun j => j.rd ++ j.wr)

/-- Some held range meets [a, a + n). -/
def hits (l : List Rng) (a n : Nat) : Bool := l.any fun r => overlaps r.1 r.2 a n

/-- Some ranges of two actions meet (R190). -/
def meet (a b : List Rng) : Bool := a.any fun r => hits b r.1 r.2

/-- The ranges of one action meet the written ranges of the other (R221). -/
def clash (rd wr rd' wr' : List Rng) : Bool :=
  (wr.any fun r => hits (rd' ++ wr') r.1 r.2) || (wr'.any fun r => hits (rd ++ wr) r.1 r.2)

/-- Nothing fired before a pass or drain of a core delays it (R190, R221): no earlier run that shares an address with it, and no
earlier pass or drain whose written ranges it meets, or that meets its own. A pass has fed its last beat when it retires at the
latest. -/
def Core.clearFor (x : Core) (fire : Nat) (rd wr : List Rng) : Bool :=
  (x.jobs.passes.all fun p => decide (fire ≤ p.fire) || !clash rd wr p.rd [])
  && (x.jobs.drains.all fun p => decide (fire ≤ p.fire) || !clash rd wr p.rd p.wr)
  && (x.jobs.runs.all fun p => decide (fire ≤ p.fire) || !meet (rd ++ wr) (p.rd ++ p.wr))

/-- Nothing fired before a run of a core delays it (R190): no earlier pass, drain, run or move shares an address with it. -/
def Core.clearForRun (x : Core) (fire : Nat) (rs : List Rng) : Bool :=
  (x.jobs.passes.all fun p => decide (fire ≤ p.fire) || !meet rs p.rd)
  && (x.jobs.drains.all fun p => decide (fire ≤ p.fire) || !meet rs (p.rd ++ p.wr))
  && (x.jobs.runs.all fun p => decide (fire ≤ p.fire) || !meet rs (p.rd ++ p.wr))
  && (x.jobs.moves.all fun p => decide (fire ≤ p.fire) || !meet rs (p.rd ++ p.wr))

/-- A MOVE waits at issue (R190, R221). -/
def moveWaits (x : Core) (h : Nat) : Bool :=
  let d : MoveDesc := ⟨x.words h 8⟩
  (d.sideRd x.lcore ++ d.sideWr x.lcore).any fun r => hits x.heldByActions r.1 r.2

end Sys2Proof.Machine
end

