-- ==== Sys2Proof/Machine/Operands.lean ====
section
/-! DEFINITION. Operand forms: operand classes (R84), addressing modes (R90), the operand columns of the opcode tables of
slots S0, S1, S2, S4 and S5 (R107, R110 to R112, R116, R200), and the decoding of bundles with everything that makes one
an Illegal Bundle (R98 to R103). Slot S3 follows in Vector.lean. -/

namespace Sys2Proof.Machine

/-- Operand classes (R84), and four that opcode tables describe in words: INT or DPTR (R107), the source of RETAG and LDT
(R87, R112), SEND's payload (R117), STAG's word. -/
inductive Cls
  | int | fp | p32 | p16 | p8 | bits | dptr | hptr | dh | link | stat | any | raw | intPtr | retag | payload | stag
deriving DecidableEq, Repr

/-- The tags a class accepts (R84). -/
def Cls.accepts (c : Cls) (t : Tag) : Bool :=
  match c with
  | .int => t == 0
  | .fp => t == 1
  | .p32 => t == 2
  | .p16 => t == 3
  | .p8 => t == 4
  | .bits => t == 0 || t == 2 || t == 3 || t == 4
  | .dptr => t == 5
  | .hptr => t == 6
  | .dh => t == 7
  | .link => t == 8
  | .stat => t == 9
  | .any => decide (t.toNat ≤ 9)
  | .raw => true
  | .intPtr => t == 0 || t == 5
  | .retag => decide (t.toNat ≤ 6) || t == 9
  | .payload => decide (t.toNat ≤ 6) || t == 9 || t == 15
  | .stag => true

/-- Poison passes unreported in the classes of GETTAG and of SEND's payload (R81, R117), and under STAG, whose operand is a
destination (R87, log 45). -/
def Cls.takesPoison : Cls → Bool
  | .raw => true | .payload => true
  | .int => false | .fp => false | .p32 => false | .p16 => false | .p8 => false | .bits => false | .dptr => false
  | .hptr => false | .dh => false | .link => false | .stat => false | .any => false | .intPtr => false | .retag => false
  | .stag => true

/-- The tag a far operand takes (R106); none where it fails check 7. -/
def Cls.farTag : Cls → Option Tag
  | .int => some 0 | .fp => some 1 | .p32 => some 2 | .p16 => some 3 | .p8 => some 4 | .bits => some 0
  | .dptr => some 5 | .hptr => some 6 | .stat => some 9 | .intPtr => some 0
  | .dh => none | .link => none | .any => none | .raw => none | .retag => none | .payload => none | .stag => none

/-- Ranges of the immediates that opcode tables name (R103 item 6). -/
inductive ImmK | brev | crc | retag | stag | sys | mfsr | mtsr | shift | elem255 | vtype
deriving DecidableEq, Repr

/-- An immediate lies in its range. -/
def ImmK.ok (k : ImmK) (v : Int) : Bool :=
  match k with
  | .brev => decide (1 ≤ v) && decide (v ≤ 64)
  | .crc => decide (0 ≤ v) && decide (v ≤ 30) && decide (v % 4 ≠ 3)
  | .retag => (decide (0 ≤ v) && decide (v ≤ 6)) || v == 9 || v == 15
  | .stag => decide (0 ≤ v) && decide (v ≤ 15) && v != 8
  | .sys => decide (0 ≤ v) && decide (v ≤ 31)
  | .mfsr => decide (0 ≤ v) && decide (v ≤ 7)
  | .mtsr => v == 0 || v == 4 || v == 5 || v == 7
  | .shift => decide (0 ≤ v) && decide (v ≤ 2047)
  | .elem255 => decide (0 ≤ v) && decide (v ≤ 255)
  | .vtype => decide (0 ≤ v) && decide (v ≤ 7)

/-- What an operand position holds (R101): nothing, part of a long displacement, a destination, a source, a destination
that is also read, an address register, an immediate. -/
inductive OpK
  | none
  | disp
  | dst
  | src (c : Cls)
  | upd (c : Cls)
  | aregDst
  | aregSrc
  | imm (k : ImmK)
deriving DecidableEq, Repr

/-- An operand specifier (R90, R100). -/
structure Spec where
  bits : Nat
deriving DecidableEq, Repr

def Spec.mode (s : Spec) : Nat := s.bits / 4096 % 16
def Spec.r (s : Spec) : Nat := s.bits / 256 % 16
def Spec.f (s : Spec) : Nat := s.bits % 256
/-- The signed small immediate of mode 0x6. -/
def Spec.immVal (s : Spec) : Int := sextOf 12 s.bits

/-- A syllable (R100). -/
structure Syll where
  word : Nat
deriving DecidableEq, Repr

namespace Syll
def stop (s : Syll) : Bool := bitOf s.word 63
def slot (s : Syll) : Nat := fieldOf s.word 62 60
def op (s : Syll) : Nat := fieldOf s.word 59 48
def spec (s : Syll) (i : Nat) : Spec := ⟨fieldOf s.word (63 - 16 * i) (48 - 16 * i)⟩
/-- DISP of the long-immediate form (R101). -/
def disp (s : Syll) : Int := sextOf 32 s.word
end Syll

/-- The operand columns of a scalar ALU operation (R107). -/
def AluOp.cols : AluOp → List OpK
  | .nop => [.none, .none, .none]
  | .mov => [.dst, .src .any, .none]
  | .add => [.dst, .src .intPtr, .src .int]
  | .sub => [.dst, .src .intPtr, .src .intPtr]
  | .cmpeq => [.dst, .src .intPtr, .src .intPtr] | .cmpne => [.dst, .src .intPtr, .src .intPtr]
  | .cmpltu => [.dst, .src .intPtr, .src .intPtr] | .cmpleu => [.dst, .src .intPtr, .src .intPtr]
  | .mul => [.dst, .src .int, .src .int] | .mulh => [.dst, .src .int, .src .int] | .mulhu => [.dst, .src .int, .src .int]
  | .div => [.dst, .src .int, .src .int] | .divu => [.dst, .src .int, .src .int]
  | .rem => [.dst, .src .int, .src .int] | .remu => [.dst, .src .int, .src .int]
  | .min => [.dst, .src .int, .src .int] | .max => [.dst, .src .int, .src .int]
  | .cmplt => [.dst, .src .int, .src .int] | .cmple => [.dst, .src .int, .src .int]
  | .shl => [.dst, .src .bits, .src .int] | .shr => [.dst, .src .bits, .src .int]
  | .sar => [.dst, .src .bits, .src .int] | .rol => [.dst, .src .bits, .src .int]
  | .and => [.dst, .src .bits, .src .bits] | .or => [.dst, .src .bits, .src .bits]
  | .xor => [.dst, .src .bits, .src .bits] | .andn => [.dst, .src .bits, .src .bits]
  | .sel => [.dst, .src .int, .src .any]
  | .fadd => [.dst, .src .fp, .src .fp] | .fsub => [.dst, .src .fp, .src .fp] | .fmul => [.dst, .src .fp, .src .fp]
  | .fma => [.upd .fp, .src .fp, .src .fp]
  | .fdiv => [.dst, .src .fp, .src .fp]
  | .fsqrt => [.dst, .src .fp, .none]
  | .fmin => [.dst, .src .fp, .src .fp] | .fmax => [.dst, .src .fp, .src .fp]
  | .fneg => [.dst, .src .fp, .none] | .fabs => [.dst, .src .fp, .none]
  | .fcmpeq => [.dst, .src .fp, .src .fp] | .fcmplt => [.dst, .src .fp, .src .fp]
  | .fcmple => [.dst, .src .fp, .src .fp] | .fcmpun => [.dst, .src .fp, .src .fp]
  | .fcvti => [.dst, .src .fp, .none]
  | .icvtf => [.dst, .src .int, .none]
  | .paddF32 => [.dst, .src .p32, .src .p32] | .psubF32 => [.dst, .src .p32, .src .p32]
  | .pmulF32 => [.dst, .src .p32, .src .p32]
  | .paddBf16 => [.dst, .src .p16, .src .p16] | .pmulBf16 => [.dst, .src .p16, .src .p16]
  | .paddF16 => [.dst, .src .p16, .src .p16] | .pmulF16 => [.dst, .src .p16, .src .p16]
  | .paddsI8 => [.dst, .src .p8, .src .p8] | .psubsI8 => [.dst, .src .p8, .src .p8]

/-- The operations of slot S1's control table (R110). -/
inductive CtlOp | br | bz | bnz | bri | call | calli | ret | loop | sys | rte | twait | mfsr | mtsr
deriving DecidableEq, Repr

def ctlOf : Nat → Option CtlOp
  | 0x100 => some .br | 0x101 => some .bz | 0x102 => some .bnz | 0x103 => some .bri | 0x104 => some .call
  | 0x105 => some .calli | 0x106 => some .ret | 0x110 => some .loop | 0x120 => some .sys | 0x121 => some .rte
  | 0x130 => some .twait | 0x140 => some .mfsr | 0x141 => some .mtsr
  | _ => none

/-- The branch class (R110). -/
def CtlOp.branch : CtlOp → Bool
  | .br => true | .bz => true | .bnz => true | .bri => true | .call => true | .calli => true | .ret => true
  | .sys => true | .rte => true
  | .loop => false | .twait => false | .mfsr => false | .mtsr => false

/-- The operand columns of R110; MTSR's operand is STAT for STATUS and INT for the others (R111). -/
def CtlOp.cols (n : Int) : CtlOp → List OpK
  | .br => [.none, .disp, .disp]
  | .bz => [.src .int, .disp, .disp] | .bnz => [.src .int, .disp, .disp]
  | .bri => [.none, .src .int, .none]
  | .call => [.dst, .disp, .disp]
  | .calli => [.dst, .src .int, .none]
  | .ret => [.none, .src .link, .none]
  | .loop => [.src .int, .disp, .disp]
  | .sys => [.none, .imm .sys, .none]
  | .rte => [.none, .none, .none]
  | .twait => [.none, .none, .none]
  | .mfsr => [.dst, .imm .mfsr, .none]
  | .mtsr => [.none, .imm .mtsr, .src (if n = 0 then .stat else .int)]

/-- The operations of slot S2 (R112). -/
inductive S2Op
  | nop | aadd | asub | lda | sta | ldt (t : Nat) | bit (o : BitOp) | crcstep | cvhd | cvdh | gettag | retag | stag
deriving DecidableEq, Repr

def s2Of (o : Nat) : Option S2Op :=
  match o with
  | 0x000 => some .nop | 0x001 => some .aadd | 0x002 => some .asub | 0x003 => some .lda | 0x004 => some .sta
  | 0x019 => some (.ldt 9)
  | 0x030 => some (.bit .brev) | 0x031 => some (.bit .parity) | 0x032 => some (.bit .popc) | 0x033 => some (.bit .clz)
  | 0x034 => some (.bit .ctz)
  | 0x038 => some .crcstep | 0x040 => some .cvhd | 0x041 => some .cvdh | 0x050 => some .gettag | 0x051 => some .retag
  | 0x052 => some .stag
  | n => if 0x010 ≤ n ∧ n ≤ 0x016 then some (.ldt (n - 0x010)) else none

def S2Op.cols : S2Op → List OpK
  | .nop => [.none, .none, .none]
  | .aadd => [.aregDst, .src .dptr, .src .int]
  | .asub => [.aregDst, .src .dptr, .src .int]
  | .lda => [.aregDst, .src .any, .none]
  | .sta => [.dst, .aregSrc, .none]
  | .ldt _ => [.dst, .src .retag, .none]
  | .bit .brev => [.dst, .src .bits, .imm .brev]
  | .bit _ => [.dst, .src .bits, .none]
  | .crcstep => [.upd .int, .src .bits, .imm .crc]
  | .cvhd => [.dst, .src .hptr, .none]
  | .cvdh => [.dst, .src .dptr, .none]
  | .gettag => [.dst, .src .raw, .none]
  | .retag => [.dst, .src .retag, .imm .retag]
  | .stag => [.upd .stag, .imm .stag, .none]

/-- Address registers may stand as operands (R91). -/
def S2Op.takesAreg : S2Op → Bool
  | .aadd => true | .asub => true | .lda => true | .sta => true
  | .nop => false | .ldt _ => false | .bit _ => false | .crcstep => false | .cvhd => false | .cvdh => false
  | .gettag => false | .retag => false | .stag => false

/-- The operations of slot S4 (R200). -/
inductive S4Op | nop | mpass | mdrain
deriving DecidableEq, Repr

def s4Of : Nat → Option S4Op
  | 0x000 => some .nop | 0x001 => some .mpass | 0x002 => some .mdrain | _ => none

def S4Op.cols : S4Op → List OpK
  | .nop => [.none, .none, .none]
  | .mpass => [.none, .src .dh, .none]
  | .mdrain => [.none, .src .dh, .none]

/-- The operations of slot S5 (R116). -/
inductive S5Op | nop | move | send | recv | recvl | arm (k : ActKind) (bulk : Bool)
deriving DecidableEq, Repr

def s5Of : Nat → Option S5Op
  | 0x000 => some .nop | 0x001 => some .move | 0x010 => some .send | 0x011 => some .recv | 0x012 => some .recvl
  | 0x020 => some (.arm .pass false) | 0x021 => some (.arm .run false) | 0x022 => some (.arm .launch false)
  | 0x023 => some (.arm .post false) | 0x028 => some (.arm .move false) | 0x029 => some (.arm .drain false)
  | 0x02A => some (.arm .move true)
  | _ => none

def S5Op.cols : S5Op → List OpK
  | .nop => [.none, .none, .none]
  | .move => [.none, .src .dh, .none]
  | .send => [.src .int, .src .int, .src .payload]
  | .recv => [.dst, .src .int, .src .int]
  | .recvl => [.dst, .src .int, .none]
  | .arm _ _ => [.src .int, .src .dh, .src .int]

/-- The instruction of a syllable outside slot S3. -/
inductive Op
  | alu (o : AluOp)
  | ctl (o : CtlOp)
  | s2 (o : S2Op)
  | s4 (o : S4Op)
  | s5 (o : S5Op)
deriving DecidableEq, Repr

/-- The instruction of a syllable by slot and opcode; slot S3 has its own table. -/
def opOf (slot o : Nat) : Option Op :=
  match slot with
  | 0 => (aluOf o).map .alu
  | 1 => match aluOf o with
    | some a => some (.alu a)
    | none => (ctlOf o).map .ctl
  | 2 => (s2Of o).map .s2
  | 4 => (s4Of o).map .s4
  | 5 => (s5Of o).map .s5
  | _ => none

/-- The operand columns of an instruction; an MTSR's depend on its immediate. -/
def Op.cols (y : Syll) : Op → List OpK
  | .alu o => o.cols
  | .ctl o => o.cols (y.spec 2).immVal
  | .s2 o => o.cols
  | .s4 o => o.cols
  | .s5 o => o.cols

def Op.takesAreg : Op → Bool
  | .s2 o => o.takesAreg
  | .alu _ => false | .ctl _ => false | .s4 _ => false | .s5 _ => false

def Op.branch : Op → Bool
  | .ctl o => o.branch
  | .alu _ => false | .s2 _ => false | .s4 _ => false | .s5 _ => false

/-- A memory-operand specifier in mode 0x0 to 0x5 is well formed (R90, R91). -/
def Spec.memOk (s : Spec) : Bool := decide (s.mode ≤ 5) && (decide (s.mode ≠ 4) || decide (s.f / 4 % 4 = 0))

/-- A specifier fits its position (R90, R91, R101, R103 items 4, 6, 8). -/
def OpK.fits (areg : Bool) (s : Spec) : OpK → Bool
  | .none => decide (s.bits = 0)
  | .disp => true
  | .dst => s.memOk || (areg && decide (s.mode = 7))
  | .src _ => s.memOk || decide (s.mode = 6) || (areg && decide (s.mode = 7))
  | .upd _ => s.memOk
  | .aregDst => decide (s.mode = 7)
  | .aregSrc => decide (s.mode = 7)
  | .imm k => decide (s.mode = 6) && k.ok s.immVal

/-- The first position whose specifier does not fit, 1 to 3; 0 for none. -/
def misfit (areg : Bool) (y : Syll) (cols : List OpK) : Nat :=
  match (List.range 3).find? fun i => !(cols.getD i .none).fits areg (y.spec (i + 1)) with
  | some i => i + 1
  | none => 0

/-- The address registers that a memory specifier updates (R90 modes 0x1 and 0x2). -/
def Spec.updates (s : Spec) : List Nat := if s.mode = 1 ∨ s.mode = 2 then [s.r] else []

/-- The address register that the operand at a position outside S3 updates or writes (R93). -/
def OpK.areg (s : Spec) : OpK → List Nat
  | .none => []
  | .disp => []
  | .imm _ => []
  | .aregSrc => []
  | .aregDst => [s.r]
  | .dst => if s.mode = 7 then [s.r] else s.updates
  | .upd _ => s.updates
  | .src _ => s.updates

end Sys2Proof.Machine
end

