-- ==== Sys2Proof/Machine/Eval.lean ====
section
/-! DEFINITION. Evaluating the operands of a bundle against the state before it (R81, R84, R90 to R93, R106, R277 to
R282): what each operand reads, where results go, what the bundle still needs from far memory, what it raises. -/

namespace Sys2Proof.Machine

/-- A far line that an access needs: its virtual line address, physical line, read-only mark (R279). -/
structure FarNeed where
  va : Nat
  line : Nat
  ro : Bool
deriving DecidableEq, Repr

/-- The effects of a bundle, applied together at its commit (R93, R94). A vector or mask register written comes with the codewords
that are written whole and those written in part (R170). -/
inductive Fx
  | areg (r : Nat) (v : TWord)
  | word (w : Nat) (v : TWord)
  | far (va pa : Nat) (v : Word)
  | hit (va line : Nat)
  | status (v : Word)
  | loopIn (v : Word)
  | loopOut (v : Word)
  | vl (n : Nat)
  | nd
  | loop (start last count after : Nat)
  | branch (a : DelayAct)
  | twait
  | send (m : Msg)
  | recv (chan idx : Nat)
  | draw
  | arm (kind : ActKind) (bulk : Bool) (turn h cond : Nat)
  | move (h : Nat)
  | vreg (r : Nat) (v : Nat) (codes : List Nat × List Nat)
  | mreg (r : Nat) (v : Nat) (codes : List Nat × List Nat)
  | vst (tag : Tag) (ws : List (Nat × Nat × List Byte))
deriving DecidableEq, Repr

/-- What stops the evaluation of a syllable: an exception with sub-cause, effective address and operand, a wait, or a wait on a
page under migration (R322, R324). -/
inductive Stop
  | exc (vec sub ea opnd : Nat)
  | hold
  | mig
deriving DecidableEq, Repr

/-- Where a result goes. -/
inductive Place
  | nowhere
  | areg (r : Nat)
  | word (w : Nat)
  | far (va pa : Nat)
deriving DecidableEq, Repr

/-- An evaluated operand. -/
structure OpR where
  v : TWord
  place : Place
  ea : Nat
  fx : List Fx
  needs : List FarNeed

/-- An operand that holds nothing. -/
def OpR.empty : OpR := ⟨TWord.zero, .nowhere, 0, [], []⟩

/-- The context of an evaluation: the core as the bundle finds it, its number and partition, the module, the bundle's
address and the address after it. -/
structure Cx where
  c : Nat
  q : Nat
  x : Core
  s : State
  pc : Nat
  next : Nat

/-- A translation without its side of counting (R321). -/
def xlPure (cx : Cx) (va : Nat) (write : Bool) : Xl :=
  match tlbFind cx.x.tlb cx.q va with
  | none => walk cx.q va write cx.s
  | some e =>
    if cx.x.tlbErr then walk cx.q va write cx.s
    else if write && !e.w then .fail xWriteProt 0 0
    else .ok e

/-- The far-cache line of a physical line, when one is valid and its parity holds (R277, R282). -/
def farFind (f : FarCache) (line : Nat) : Option (Nat × CacheLine) :=
  match f.lines.find? fun e => e.1 / 8 == line % 128 && e.2.line == line with
  | some e => if e.2.perr then none else some e
  | none => none

/-- A line as the bundle meets it: one that came for this bundle, or a hit. -/
def lineFor (cx : Cx) (va line : Nat) : Option (Line × List Fx) :=
  match cx.x.far.bundle.find? fun e => e.1 == line with
  | some e => some (e.2, [])
  | none => match farFind cx.x.far line with
    | some e => some (⟨e.2.bytes, 0⟩, [.hit va line])
    | none => none

/-- The effective address of a memory specifier with element size E (R90), after checks 1 and 2 of R92. -/
def effAddr (x : Core) (s : Spec) (e : Nat) : Option Nat :=
  let a := (x.areg s.r).data
  if s.mode ≤ 4 ∧ (x.areg s.r).tag ≠ 5 then none
  else if s.mode = 4 ∧ (x.areg (s.f / 16)).tag ≠ 0 then none
  else some (match s.mode with
    | 2 => (a - BitVec.ofNat 64 e).toNat
    | 3 => (a + wordOfInt (sextOf 8 s.f * e)).toNat
    | 4 => (a + (x.areg (s.f / 16)).data * BitVec.ofNat 64 (2 ^ (s.f % 4))).toNat
    | 5 => (s.bits % 4096) * 8
    | _ => a.toNat)

/-- The register update of modes 0x1 and 0x2 (R90). -/
def specUpdate (x : Core) (s : Spec) (e : Nat) : List Fx :=
  let a := x.areg s.r
  match s.mode with
  | 1 => [.areg s.r ⟨a.data + BitVec.ofNat 64 e, a.tag⟩]
  | 2 => [.areg s.r ⟨a.data - BitVec.ofNat 64 e, a.tag⟩]
  | _ => []

/-- Checks 3 to 6 of R92 for an access of n bytes aligned to `al` at ea: the physical page for a far one. -/
def checkAccess (cx : Cx) (ea n al : Nat) (write : Bool) : Except (Option (Nat × Nat)) (Option TlbEntry) :=
  if 2 ^ 48 ≤ ea then .error (some (5, xAddrRange))
  else if !cx.x.sup && overlaps ea n tableBase 0xC00 then .error (some (2, 0))
  else if ea % al ≠ 0 || (decide (ea < 0x400000) && decide (0x400000 < ea + n)) then .error (some (4, 0))
  else if inLocal ea then .ok none
  else match xlPure cx ea write with
    | .ok e => .ok (some e)
    | .fail cause _ _ => if cause = xMigrating then .error none else .error (some (5, cause))

/-- A class meets the value of an operand (R81, R84): the exception, if any. -/
def classFault (c : Cls) (v : TWord) : Option (Nat × Nat) :=
  if v.tag = tagPoison && !c.takesPoison then some (3, wf64 v.data 63 56)
  else if c.accepts v.tag then none else some (0, 0)

/-- A small immediate in a class (R84, R90): an FP operand is converted to FP64. -/
def immWord (c : Cls) (i : Int) : TWord :=
  match c with
  | .fp => fpWord (fp64.encode (.ofInt i))
  | _ => .int (wordOfInt i)

/-- A memory operand of 8 bytes (R92), read in a class, written, or both; `far` the tag a far word takes. -/
def memOperand (cx : Cx) (pos : Nat) (s : Spec) (read : Option Cls) (write : Bool) (far : Option Tag) : Except Stop OpR :=
  match effAddr cx.x s 8 with
  | none => .error (.exc 0 0 0 pos)
  | some ea =>
    let fx := specUpdate cx.x s 8
    match checkAccess cx ea 8 8 write with
    | .error none => .error .mig
    | .error (some (v, sub)) => .error (.exc v sub ea pos)
    | .ok none =>
      if (write && hits cx.x.heldRanges ea 8) || (read.isSome && hits cx.x.heldWritten ea 8) then .error .hold
      else
        let v := cx.x.word (ea / 8)
        match read.bind fun c => classFault c v with
        | some (e, sub) => .error (.exc e sub ea pos)
        | none => .ok ⟨v, .word (ea / 8), ea, fx, []⟩
    | .ok (some e) =>
      let pa := e.at ea
      match read with
      | none => .ok ⟨TWord.zero, .far ea pa, ea, fx, []⟩
      | some _ =>
        match far with
        | none => .error (.exc 0 0 ea pos)
        | some t =>
          match lineFor cx ea (pa / 64) with
          | none => .ok ⟨⟨0, t⟩, .far ea pa, ea, fx, [⟨ea / 64 * 64, pa / 64, e.ro⟩]⟩
          | some (l, h) =>
            if l.bad ≠ 0 then .error (.exc 3 l.bad ea pos)
            else .ok ⟨⟨BitVec.ofNat 64 (fieldAt l.bytes (pa % 64) 8), t⟩, .far ea pa, ea, fx ++ h, []⟩

/-- An operand read in a class: memory, small immediate, or address register (R90). -/
def srcOperand (cx : Cx) (pos : Nat) (s : Spec) (c : Cls) (far : Option Tag) : Except Stop OpR :=
  if s.mode = 6 then
    let v := immWord c s.immVal
    if c.accepts v.tag then .ok { OpR.empty with v := v } else .error (.exc 0 0 0 pos)
  else if s.mode = 7 then
    let v := cx.x.areg s.r
    match classFault c v with
    | some (e, sub) => .error (.exc e sub 0 pos)
    | none => .ok { OpR.empty with v := v, place := .areg s.r }
  else memOperand cx pos s (some c) false far

/-- The operand at a position (R92, R101); `ldt` the tag that LDT names (R106, R112). -/
def operand (cx : Cx) (y : Syll) (ldt : Option Tag) (k : OpK) (pos : Nat) : Except Stop OpR :=
  let s := y.spec pos
  match k with
  | .none => .ok OpR.empty
  | .disp => .ok OpR.empty
  | .imm _ => .ok { OpR.empty with v := .int (wordOfInt s.immVal) }
  | .aregDst => .ok { OpR.empty with place := .areg s.r }
  | .aregSrc =>
    match classFault .any (cx.x.areg s.r) with
    | some (e, sub) => .error (.exc e sub 0 pos)
    | none => .ok { OpR.empty with v := cx.x.areg s.r }
  | .dst =>
    if s.mode = 7 then .ok { OpR.empty with place := .areg s.r }
    else memOperand cx pos s none true none
  | .upd c => memOperand cx pos s (some c) true c.farTag
  | .src c => srcOperand cx pos s c (match ldt with | some t => some t | none => c.farTag)

/-- The result written at a place (R85, R86): a handle or link cannot leave the core store. -/
def putRes (p : Place) (ea : Nat) (v : TWord) : Except Stop (List Fx) :=
  match p with
  | .nowhere => .ok []
  | .areg r => .ok [.areg r v]
  | .word w => .ok [.word w v]
  | .far va pa => if v.tag = 7 ∨ v.tag = 8 then .error (.exc 0 0 ea 1) else .ok [.far va pa v.data]

/-- What evaluating a syllable gives: its effects, or what it still needs. -/
structure SyR where
  fx : List Fx
  needs : List FarNeed
  load : Bool

end Sys2Proof.Machine
end

