-- ==== Sys2Proof/Machine/FarCache.lean ====
section
/-! DEFINITION. The far cache of a core: replacement bits, fills, miss registers, write-combining buffer and far stores
(R277 to R283), and the memory requests of a partition's units (R290, R294). -/

namespace Sys2Proof.Machine

/-- The bits of a replacement tree after an access to way w (R278): every bit on its path points away. -/
def plruTouch : (levels : Nat) → (node w bits : Nat) → Nat
  | 0, _, _, bits => bits
  | k + 1, node, w, bits =>
    let d := w / 2 ^ k % 2
    plruTouch k (2 * node + 1 + d) w (setBit bits node (decide (d = 0)))

/-- The way that the bits point to (R278). -/
def plruVictim : (levels : Nat) → (node w bits : Nat) → Nat
  | 0, _, w, _ => w
  | k + 1, node, w, bits =>
    let d := b2n (bitOf bits node)
    plruVictim k (2 * node + 1 + d) (2 * w + d) bits

/-- A request of a unit of a partition for one line (R290). -/
def mkReq (q unit turn : Nat) (ro : Bool) (line : Nat) (who : Requester) (s : State) : MemReq where
  part := q
  unit := unit
  turn16 := turn % 65536
  chk := ((s.part q).cfg.map fun c => !c.raceOff).getD true
  ro := ro
  line := line
  write := false
  bytes := []
  mask := 0
  poison := 0
  who := who

/-- The same request as a write. -/
def MemReq.writing (r : MemReq) (bytes : List Byte) (mask poison : Nat) : MemReq :=
  { r with write := true, bytes := bytes, mask := mask, poison := poison }

/-- A read or write request of a core's own accesses. -/
def coreReq (c q : Nat) (ro : Bool) (line : Nat) (who : Requester) (s : State) : MemReq :=
  mkReq q (s.core c).lcore (s.core c).tu.turn ro line who s

/-- The lines of the write-combining buffer that p picks are written out (R280). -/
def flushWcb (c q : Nat) (p : WcbLine → Bool) (s : State) : State :=
  let ls := (s.core c).far.wcb
  let s := s.updCore c fun x => { x with far := { x.far with wcb := ls.filter fun l => !p l } }
  (ls.filter p).foldl (fun s l => submit ((coreReq c q false l.line (.wcb c) s).writing l.bytes l.mask 0) s) s

/-- A line is dropped from a far cache. -/
def dropLine (line : Nat) (f : FarCache) : FarCache := { f with lines := f.lines.filter fun e => e.2.line != line }

/-- A line that a move of the core writes is dropped, and one whose read is under way will not be installed (R271). -/
def moveDrops (line : Nat) (f : FarCache) : FarCache :=
  { dropLine line f with
    mshr := SMap.mapVals Mshr.free (fun _ m => if m.busy && m.line == line then { m with stale := true } else m) f.mshr }

/-- A hit sets the replacement bits of its set (R278). -/
def farHit (line : Nat) (f : FarCache) : FarCache :=
  match farFind f line with
  | some e => { f with plru := SMap.upd 0 (line % 128) (plruTouch 3 0 (e.1 % 8)) f.plru }
  | none => f

/-- The way a fill takes (R278): the lowest invalid one, else the victim. -/
def farWay (f : FarCache) (line : Nat) : Nat :=
  let set := line % 128
  match firstFrom (fun w => SMap.get CacheLine.none (set * 8 + w) f.lines == CacheLine.none) 0 8 with
  | some w => w
  | none => plruVictim 3 0 0 (SMap.get 0 set f.plru)

/-- A line installed, with the line it evicts (R278, R281). -/
def farInstall (l : CacheLine) (f : FarCache) : FarCache × CacheLine :=
  let f := dropLine l.line f
  let w := farWay f l.line
  let k := l.line % 128 * 8 + w
  let old := SMap.get CacheLine.none k f.lines
  ({ f with
    lines := SMap.set CacheLine.none k l f.lines
    plru := SMap.upd 0 (l.line % 128) (plruTouch 3 0 w) f.plru }, old)

/-- Bytes over a line at an offset. -/
def overBytes (o : Nat) (new : List Byte) (l : CacheLine) : CacheLine := { l with bytes := overlay l.bytes o new }

/-- A parity failure of a cached line on a hit is counted, and the line is refetched (R282). -/
def farParity (c line : Nat) (s : State) : State :=
  if (s.core c).far.lines.any fun e => e.2.line == line && e.2.perr then
    chatter ⟨0x04, c⟩ (64 * line) (s.updCore c fun x => { x with far := dropLine line x.far })
  else s

/-- A store to a line whose read is under way is kept with its miss register, so that the line is installed with it (R280). -/
def missStore (line o : Nat) (new : List Byte) (f : FarCache) : FarCache :=
  { f with mshr := SMap.mapVals Mshr.free (fun _ m =>
      if m.busy && m.line == line then
        { m with own := overlay (padTo 64 m.own) o new, mask := m.mask ||| ((2 ^ new.length - 1) * 2 ^ o) }
      else m) f.mshr }

/-- A far store of 8 bytes (R280, R282): a hit updates the line, one whose parity fails is counted and drops it, and the store
enters the write-combining buffer. -/
def farStore (c q va pa : Nat) (v : Word) (s : State) : State :=
  let line := pa / 64
  let o := pa % 64
  let new := leBytes v.toNat 8
  let s := farParity c line (countWindow (dieOfCore c) q va pa s)
  let s := s.updCore c fun x => { x with far := missStore line o new x.far }
  let s := s.updCore c fun x =>
    match farFind x.far line with
    | some e => { x with far := farHit line { x.far with lines := SMap.set CacheLine.none e.1 (overBytes o new e.2) x.far.lines } }
    | none => x
  let w := (s.core c).far.wcb
  let s := if (w.any fun l => l.line == line) || decide (w.length < 4) then s
    else flushWcb c q (fun l => w.head? == some l) s
  s.updCore c fun x =>
    let w := x.far.wcb
    let w := if w.any fun l => l.line == line then
        w.map fun l => if l.line = line then { l with bytes := overlay l.bytes o new, mask := l.mask ||| (255 * 2 ^ o) } else l
      else w ++ [⟨line, overlay (List.replicate 64 0) o new, 255 * 2 ^ o⟩]
    { x with far := { x.far with wcb := w } }

/-- The key of a bed-cache line's first way: sets are chosen by line number (R286, log 36). -/
def bedSet (x : Bed) (line : Nat) : Nat := line % (max 1 (x.cacheMiB * 1024))

/-- A line in a bed cache (R286). -/
def bedFind (x : Bed) (line : Nat) : Option (Nat × CacheLine) :=
  if x.cacheMiB = 0 then none else x.cache.find? fun e => e.1 / 16 == bedSet x line && e.2.line == line

/-- A line enters a bed cache's fill queue, which accepts fills below 64 entries, and a victim's offer up to 48 (R283, R286). -/
def offerFill (limit : Nat) (line : Nat) (bytes : List Byte) (s : State) : State :=
  match locate (64 * line) with
  | .hbm =>
    s.updBed (bedOfStack (hbmDecode (64 * line)).stack) fun x =>
      if x.cacheMiB ≠ 0 && decide (x.fillQ.length < limit) then { x with fillQ := x.fillQ ++
        [{ part := 0, unit := 0, turn16 := 0, chk := false, ro := true, line := line, write := false, bytes := bytes, mask := 0
           poison := 0, who := .bedFill (bedOfStack (hbmDecode (64 * line)).stack) }] }
      else x
  | _ => s

/-- A write to a line drops its bed-cache copy, and a fill of it that has not been made (R286). -/
def dropBedCopy (line : Nat) (s : State) : State :=
  match locate (64 * line) with
  | .hbm => s.updBed (bedOfStack (hbmDecode (64 * line)).stack) fun x => { x with
      cache := x.cache.filter fun e => e.2.line != line
      fillQ := x.fillQ.filter fun r => r.line != line }
  | _ => s

/-- The victim of a far-cache fill is offered to the bed cache when it is of a read-only region of HBM (R283). -/
def offerVictim (v : CacheLine) (s : State) : State :=
  if v.ro && v != CacheLine.none then offerFill 49 v.line v.bytes s else s

/-- A far-cache miss sets out: a line of HBM that its bed cache holds, and to which no write is on its way, comes from there
without a charge (R286); every other goes to its store. -/
def submitMiss (c i : Nat) (r : MemReq) (s : State) : State :=
  match locate (64 * r.line) with
  | .hbm =>
    let b := bedOfStack (hbmDecode (64 * r.line)).stack
    (match bedFind (s.bed b) r.line with
      | some e =>
        if (onTheWay (64 * r.line) s).any (·.write) then submit r s
        else
          let s := s.updBed b fun x => { x with plru := SMap.upd 0 (bedSet x r.line) (plruTouch 4 0 (e.1 % 16)) x.plru }
          s.updCore c fun x => { x with far := { x.far with
            mshr := SMap.upd Mshr.free i (fun m => { m with got := some ⟨e.2.bytes, 0⟩ }) x.far.mshr } }
      | none => submit r s)
  | _ => submit r s

/-- A line that a bundle needs takes a miss register when none is busy with it and one is free (R279); its read is ordered
after the core's own buffered stores (R280). -/
def requestLine (c q : Nat) (n : FarNeed) (more : Nat) (s : State) : State :=
  let f := (s.core c).far
  if f.mshr.any fun e => e.2.busy && e.2.line == n.line then s
  else match firstFrom (fun i => SMap.get Mshr.free i f.mshr == Mshr.free) 0 8 with
  | none => s
  | some i =>
    let s := flushWcb c q (fun l => l.line == n.line) (farParity c n.line s)
    let s := s.updCore c fun x => { x with far := { x.far with mshr := SMap.set Mshr.free i ⟨true, n.va, n.line, n.ro, min 4 more, [], 0, false, none⟩ x.far.mshr } }
    let s := countWindow (dieOfCore c) q n.va (64 * n.line) s
    submitMiss c i (coreReq c q n.ro n.line (.miss c i) s) s

/-- The lines a bundle needs are requested in order. -/
def requestLines (c q : Nat) : List FarNeed → State → State
  | [], s => s
  | n :: rest, s => requestLines c q rest (requestLine c q n (rest.filter fun m => m.line == n.line).length s)

end Sys2Proof.Machine
end

