-- ==== Sys2Proof/Machine/Scalar.lean ====
section
/-! DEFINITION. What the instructions of slots S0, S1, S2, S4 and S5 do with their operands (R87, R96, R107 to R124, R144,
R145, R200, R201): effects to commit, or the exception they raise. -/

namespace Sys2Proof.Machine

/-- The code address after the bundle that begins at a. -/
def bundleEnd (x : Core) (a : Nat) : Nat :=
  match firstFrom (fun i => wbit (SMap.get 0 i x.bundles) 63) (a / 8) 6 with
  | some i => 8 * i + 8
  | none => 0x20000

/-- An exception that no operand caused. -/
def raise (vec sub : Nat) : Except Stop (List Fx) := .error (.exc vec sub 0 0)

/-- A code address that a branch may take (R120). -/
def targetOk (t : Int) : Bool := decide (0 ≤ t) && decide (t % 8 = 0) && decide (t ≤ 0x1FFF8)

/-- A branch-class syllable with its target, if it names one (R119, R120, R123). Of a bad target and a forbidden place at a loop's
END, whose order no rule gives, the bad target raises (DESIGN CHOICE, log 81). -/
def branchTo (cx : Cx) (t : Option Int) (act : DelayAct) (fx : List Fx) : Except Stop (List Fx) :=
  if t.any fun t => !targetOk t then raise 1 0
  else if cx.x.isEnd cx.pc || cx.x.isEnd cx.next then raise 8 0
  else .ok (fx ++ [.branch act])

/-- LOOP (R121). -/
def doLoop (cx : Cx) (c : Word) (disp : Int) : Except Stop (List Fx) :=
  let e : Int := cx.pc + 8 * disp
  let x := cx.x
  let inside' := fun (w : Word) =>
    decide (lpStart w ≤ cx.pc) && decide (cx.pc < lpEnd w) && decide ((lpStart w : Int) ≤ e) && decide (e < lpEnd w)
  if c.toInt < 0 ∨ 2 ^ 32 - 1 < c.toInt ∨ 0x1FFF8 < e ∨ e < cx.next ∨ x.delay.isSome
      ∨ (lpActive x.loopIn && lpActive x.loopOut)
      ∨ (lpActive x.loopIn && !inside' x.loopIn) ∨ (lpActive x.loopOut && !inside' x.loopOut) then raise 8 0
  else .ok [.loop cx.next e.toNat c.toNat (bundleEnd x e.toNat)]

/-- MFSR (R111). -/
def readSr (cx : Cx) (n : Nat) : TWord :=
  match n with
  | 0 => ⟨cx.x.status, 9⟩
  | 1 => .int (BitVec.ofNat 64 cx.x.tu.turn)
  | 2 => .int (BitVec.ofNat 64 cx.x.lcore)
  | 3 => .int (BitVec.ofNat 64 cx.q)
  | 4 => .int cx.x.loopIn
  | 5 => .int cx.x.loopOut
  | 6 => .int (BitVec.ofNat 64 (cx.s.die (dieOfCore cx.c)).cclk + cx.x.cycle)
  | _ => .int (BitVec.ofNat 64 cx.x.vl)

/-- MTSR (R111, R124, R127, R153). -/
def writeSr (cx : Cx) (n : Nat) (v : Word) : Except Stop (List Fx) :=
  match n with
  | 0 => .ok [.status v]
  | 4 => if !loopOk v then raise 1 0 else if !loopsNested v cx.x.loopOut then raise 8 0 else .ok [.loopIn v]
  | 5 => if !loopOk v then raise 1 0 else if !loopsNested cx.x.loopIn v then raise 8 0 else .ok [.loopOut v]
  | _ => if v.toInt < 0 ∨ 2048 < v.toInt then raise 6 1 else .ok [.vl v.toNat]

/-- The class of each word of a frame that RTE reads (R145); words 3 and 4 have none. -/
def frameClass : List (Option Cls) :=
  [some .link, some .stat, some .int, none, none, some .int, some .int, some .int] ++ List.replicate 8 (some .any)

/-- A word of RTE's frame meets its class; one without a class may hold any tag but poison's (R81, R145). -/
def frameFault (i : Nat) (v : TWord) : Option (Nat × Nat) :=
  match frameClass.getD i none with
  | some c => classFault c v
  | none => if v.tag = tagPoison then some (3, wf64 v.data 63 56) else none

/-- RTE's checks of its frame (R145), after the check of its place (R123, log 44). -/
def doRte (cx : Cx) : Except Stop (List Fx) :=
  let x := cx.x
  let a := (x.areg 15).data.toNat
  if (x.areg 15).tag ≠ 5 then raise 0 0
  else match checkAccess cx a 128 64 false with
  | .error none => .error .mig
  | .error (some (v, sub)) => .error (.exc v sub a 0)
  | .ok (some _) =>
    match xlPure cx (a + 64) false with
    | .fail cause _ _ => if cause = xMigrating then .error .mig else .error (.exc 5 cause (a + 64) 0)
    | .ok _ => .error (.exc 0 0 a 0)
  | .ok none =>
    if hits x.heldWritten a 128 then .error .hold
    else
      let ws := x.twords a 16
      match (List.range 16).findSome? fun i =>
          (frameFault i (ws.getD i TWord.zero)).map fun e => (i, e) with
      | some (i, e) => .error (.exc e.1 e.2 (a + 8 * i) 0)
      | none =>
        let lin := (ws.getD 5 TWord.zero).data
        let lout := (ws.getD 6 TWord.zero).data
        if !loopOk lin || !loopOk lout then raise 1 0
        else if !loopsNested lin lout then raise 8 0
        else branchTo cx none (.rte ws) []

/-- The instructions of R110. -/
def doCtl (cx : Cx) (y : Syll) (o : CtlOp) (a b c : OpR) : Except Stop (List Fx) :=
  let rel : Int := cx.pc + 8 * y.disp
  match o with
  | .br => branchTo cx (some rel) (.go rel.toNat true) []
  | .bz => branchTo cx (some rel) (if a.v.data = 0 then .go rel.toNat true else .fall) []
  | .bnz => branchTo cx (some rel) (if a.v.data ≠ 0 then .go rel.toNat true else .fall) []
  | .bri => branchTo cx (some b.v.data.toInt) (.go b.v.data.toNat true) []
  | .call =>
    match putRes a.place a.ea ⟨codeWord (bundleEnd cx.x cx.next), 8⟩ with
    | .error e => .error e
    | .ok fx => branchTo cx (some rel) (.go rel.toNat false) fx
  | .calli =>
    match putRes a.place a.ea ⟨codeWord (bundleEnd cx.x cx.next), 8⟩ with
    | .error e => .error e
    | .ok fx => branchTo cx (some b.v.data.toInt) (.go b.v.data.toNat false) fx
  | .ret => branchTo cx (some b.v.data.toInt) (.go b.v.data.toNat false) []
  | .loop => doLoop cx a.v.data y.disp
  | .sys => branchTo cx none (.sys b.v.data.toNat) []
  | .rte =>
    match branchTo cx none .fall [] with
    | .error e => .error e
    | .ok _ => doRte cx
  | .twait => .ok [.twait]
  | .mfsr =>
    match putRes a.place a.ea (readSr cx b.v.data.toNat) with
    | .error e => .error e
    | .ok fx => .ok (fx ++ if b.v.data.toNat = 6 then [.nd] else [])
  | .mtsr => writeSr cx b.v.data.toNat c.v.data

/-- CVHD and CVDH (R96): the open windows in force. -/
def convert (toDevice : Bool) (p : Part) (v : Nat) : Option Nat :=
  let m := p.windows.findSome? fun e => e.2.bind fun w =>
    let lo := if toDevice then w.iova else w.dva
    let dest := if toDevice then w.dva else w.iova
    if lo ≤ v ∧ v < lo + w.len then some (dest + (v - lo)) else none
  m

/-- The instructions of R112. -/
def doS2 (cx : Cx) (y : Syll) (o : S2Op) (a b c : OpR) : Except Stop (List Fx) :=
  let put := putRes a.place a.ea
  match o with
  | .nop => .ok []
  | .aadd => put ⟨b.v.data + c.v.data, 5⟩
  | .asub => put ⟨b.v.data - c.v.data, 5⟩
  | .lda => put b.v
  | .sta => put b.v
  | .ldt t => put ⟨b.v.data, BitVec.ofNat 4 t⟩
  | .bit o => put (bitResult o b.v c.v.data.toNat)
  | .crcstep =>
    let k := c.v.data.toNat
    put (.int (BitVec.ofNat 64 (crcStep (k % 4) (k / 4 + 1) a.v.data.toNat b.v.data.toNat)))
  | .cvhd =>
    match convert true (cx.s.part cx.q) b.v.data.toNat with
    | some r => put ⟨BitVec.ofNat 64 r, 5⟩
    | none => raise 5 xConvNoWindow
  | .cvdh =>
    match convert false (cx.s.part cx.q) b.v.data.toNat with
    | some r => put ⟨BitVec.ofNat 64 r, 6⟩
    | none => raise 5 xConvNoWindow
  | .gettag => put (.int (BitVec.ofNat 64 b.v.tag.toNat))
  | .retag => put ⟨b.v.data, BitVec.ofNat 4 c.v.data.toNat⟩
  | .stag => put ⟨a.v.data, BitVec.ofNat 4 (y.spec 2).immVal.toNat⟩

/-- A handle is well formed (R113). -/
def handleOk (w : Word) : Bool := decide (w.toNat < 2 ^ 22) && decide (w.toNat % 64 = 0)

/-- The conditions of a condition word (R118): counter and count. -/
def condsOf (w : Nat) : List (Nat × Nat) :=
  (if bitOf w 15 then [(fieldOf w 10 8, fieldOf w 7 0)] else [])
  ++ (if bitOf w 31 then [(fieldOf w 26 24, fieldOf w 23 16)] else [])

/-- A condition word is well formed (R38, R118). -/
def condOk (w : Nat) : Bool :=
  decide (w < 2 ^ 32) && decide (fieldOf w 30 27 = 0) && decide (fieldOf w 14 11 = 0)
  && (bitOf w 31 || decide (fieldOf w 26 16 = 0)) && (bitOf w 15 || decide (fieldOf w 10 0 = 0))
  && (condsOf w).all (fun c => decide (c.2 ≠ 0))
  && !(bitOf w 15 && bitOf w 31 && decide (fieldOf w 10 8 = fieldOf w 26 24))

/-- The queue an arm instruction writes: 0 core, 1 mover, 2 drain unit, 3 bulk mover. -/
def armQueue (k : ActKind) (bulk : Bool) : Nat :=
  if bulk then 3 else
    match k with
    | .move => 1 | .drain => 2 | .pass => 0 | .run => 0 | .launch => 0 | .post => 0 | .share => 0

/-- The turn unit of a queue of R36. -/
def armUnit (cx : Cx) (n : Nat) : TurnUnit :=
  match n with
  | 0 => cx.x.tu
  | 1 => cx.x.mtu
  | 2 => cx.x.dtu
  | _ => (SMap.get Bulk.reset cx.q (cx.s.die (dieOfCore cx.c)).bulk).tu

/-- The arm requests of a bundle so far for a queue: their launch turns. -/
def armedFor (n : Nat) (fx : List Fx) : List Nat :=
  fx.filterMap fun f =>
    match f with
    | .arm k b t _ _ => if armQueue k b = n then some t else none
    | _ => none

/-- An arm request into a unit's queue is refused (R38): `turn` the current turn, which is that of the core that asks. -/
def armRefused (turn : Nat) (u : TurnUnit) (ahead : List Nat) (t cond : Nat) : Bool :=
  decide (t < turn) || decide (turn + 65535 < t) || decide (t < ahead.getLastD u.lastArmed)
  || decide (16 ≤ u.queue.length + ahead.length) || !condOk cond

/-- Arming (R38, R118, R201). -/
def doArm (cx : Cx) (fx : List Fx) (k : ActKind) (bulk : Bool) (t h cond : Word) (hea : Nat) : Except Stop (List Fx) :=
  let n := armQueue k bulk
  if !handleOk h then .error (.exc 0 0 hea 2)
  else if 2 ^ 48 ≤ t.toNat ∨ armRefused cx.x.tu.turn (armUnit cx n) (armedFor n fx) t.toNat cond.toNat then raise 13 0
  else .ok [.arm k bulk t.toNat h.toNat cond.toNat]

/-- A logical core of the partition (R117). -/
def Part.hasCore (p : Part) (n : Nat) : Bool := (p.place.any fun e => e.1 == n) || p.remote.contains n

/-- The messages of a channel in a receive buffer. -/
def Core.rxOf (x : Core) (chan : Nat) : List Msg := SMap.get [] chan x.rx

/-- The instructions of R116 and R200. -/
def doS5 (cx : Cx) (fx : List Fx) (o : S5Op) (a b c : OpR) : Except Stop (List Fx) :=
  match o with
  | .nop => .ok []
  | .move =>
    if !handleOk b.v.data then .error (.exc 0 0 b.ea 2)
    else if moveWaits cx.x b.v.data.toNat then .error .hold
    else .ok [.move b.v.data.toNat]
  | .send =>
    if !(cx.s.part cx.q).hasCore a.v.data.toNat || decide (15 < b.v.data.toNat) then raise 14 0
    else if 16 ≤ cx.x.tx.length then .error .hold
    else .ok [.send ⟨cx.x.lcore, a.v.data.toNat, b.v.data.toNat, c.v⟩]
  | .recv =>
    if !(cx.s.part cx.q).hasCore b.v.data.toNat || decide (15 < c.v.data.toNat) then raise 14 0
    else
      let l := cx.x.rxOf c.v.data.toNat
      match indexWhere (fun m => m.src == b.v.data.toNat) l with
      | none => .error .hold
      | some i =>
        match putRes a.place a.ea ((l[i]?).elim TWord.zero (·.word)) with
        | .error e => .error e
        | .ok fx => .ok (fx ++ [.recv c.v.data.toNat i])
  | .recvl =>
    if 15 < b.v.data.toNat then raise 14 0
    else
      let l := cx.x.rxOf b.v.data.toNat
      let heads := (l.zipIdx).filterMap fun e =>
        if (l.take e.2).any (fun m => m.src == e.1.src) then none else some e.2
      match heads[cx.s.freeVal.toNat % heads.length]? with
      | none => .error .hold
      | some i =>
        match putRes a.place a.ea ((l[i]?).elim TWord.zero (·.word)) with
        | .error e => .error e
        | .ok fx => .ok (fx ++ [.recv b.v.data.toNat i, .nd, .draw])
  | .arm k bulk => doArm cx fx k bulk a.v.data b.v.data c.v.data b.ea

/-- The own part of an instruction once its operands are evaluated. -/
def doOp (cx : Cx) (fx : List Fx) (y : Syll) (o : Op) (a b c : OpR) : Except Stop (List Fx) :=
  match o with
  | .alu o =>
    if !o.pairOk b.v.tag c.v.tag then .error (.exc 0 0 c.ea 3)
    else if o.divides && decide (c.v.data = 0) then raise 12 0
    else match aluResult o a.v b.v c.v with
      | none => .ok []
      | some r => putRes a.place a.ea r
  | .ctl o => doCtl cx y o a b c
  | .s2 o => doS2 cx y o a b c
  | .s4 .nop => .ok []
  | .s4 .mpass => doArm cx fx .pass false (BitVec.ofNat 64 cx.x.tu.turn) b.v.data 0 b.ea
  | .s4 .mdrain => doArm cx fx .drain false (BitVec.ofNat 64 cx.x.tu.turn) b.v.data 0 b.ea
  | .s5 o => doS5 cx fx o a b c

/-- The instruction needs Supervisor level (R125, R137). -/
def needsSup (y : Syll) : Op → Bool
  | .ctl .rte => true
  | .ctl .mtsr => decide ((y.spec 2).immVal ≠ 7)
  | .s2 .stag => true
  | _ => false

/-- The tag that LDT names (R112). -/
def ldtTag : Op → Option Tag
  | .s2 (.ldt t) => some (BitVec.ofNat 4 t)
  | _ => none

/-- The updates of operand registers and cache hits of three operands. -/
def sideFx (a b c : OpR) : List Fx := a.fx ++ b.fx ++ c.fx

/-- A syllable outside slot S3 (R137 item 2): the opcode's privilege, the operands in order, then its own part. An
instruction whose far operands have not all arrived does nothing yet. -/
def evalScalar (cx : Cx) (fx : List Fx) (y : Syll) (o : Op) : Except Stop SyR :=
  if needsSup y o && !cx.x.sup then .error (.exc 2 0 0 0)
  else
    let k := o.cols y
    match operand cx y (ldtTag o) (k.getD 0 .none) 1 with
    | .error e => .error e
    | .ok a =>
      match operand cx y (ldtTag o) (k.getD 1 .none) 2 with
      | .error e => .error e
      | .ok b =>
        match operand cx y (ldtTag o) (k.getD 2 .none) 3 with
        | .error e => .error e
        | .ok c =>
          if (a.needs ++ b.needs ++ c.needs).isEmpty then
            match doOp cx fx y o a b c with
            | .error e => .error e
            | .ok f => .ok ⟨sideFx a b c ++ f, [], false⟩
          else .ok ⟨[], a.needs ++ b.needs ++ c.needs, false⟩

end Sys2Proof.Machine
end

