-- ==== Sys2Proof/Machine/Vector.lean ====
section
/-! DEFINITION. The long-vector unit (R150 to R166): the opcodes and operand fields of slot S3, and what its instructions
compute, load and store. -/

namespace Sys2Proof.Machine

/-- The bitwise operations of slot S3. -/
inductive VLogic | and | or | xor | andn
deriving DecidableEq, Repr

/-- The shifts of slot S3. -/
inductive VShift | shl | shr | sar
deriving DecidableEq, Repr

/-- The saturating two-operand operations (R157). -/
inductive VQBin | add | sub | addu | subu
deriving DecidableEq, Repr

/-- How the elements of a memory instruction are addressed (R160). -/
inductive VAddr | unit | strided | indexed
deriving DecidableEq, Repr

/-- The operations of slot S3 (R155); `sc` marks a scalar last operand. -/
inductive VOp
  | vnop | vsetvl | vmld | vmst
  | ld (a : VAddr) (ff : Bool)
  | st (a : VAddr)
  | bin (o : EBin) (sc : Bool)
  | fma (sc : Bool)
  | sqrt | neg | abs
  | logic (o : VLogic)
  | shift (o : VShift)
  | qbin (o : VQBin)
  | qmul (sc : Bool) | qmac (sc : Bool) | qnarrow | wmul (sc : Bool) | wqmac (sc : Bool)
  | cmp (o : ECmp)
  | mlogic (o : VLogic)
  | mpopc | mfirst
  | mov (sc : Bool)
  | iota | sldn | slup | ext | cvt
  | red (o : EBin)
deriving DecidableEq, Repr

/-- The operation of OPCODE[11:4] (R155). -/
def vopOf : Nat → Option VOp
  | 0x00 => some .vnop | 0x01 => some .vsetvl | 0x06 => some .vmld | 0x07 => some .vmst
  | 0x08 => some (.ld .unit false) | 0x09 => some (.ld .strided false) | 0x0A => some (.ld .indexed false)
  | 0x0B => some (.ld .unit true)
  | 0x0C => some (.st .unit) | 0x0D => some (.st .strided) | 0x0E => some (.st .indexed)
  | 0x10 => some (.bin .add false) | 0x11 => some (.bin .add true)
  | 0x12 => some (.bin .sub false) | 0x13 => some (.bin .sub true)
  | 0x14 => some (.bin .mul false) | 0x15 => some (.bin .mul true)
  | 0x16 => some (.fma false) | 0x17 => some (.fma true)
  | 0x18 => some (.bin .min false) | 0x19 => some (.bin .max false)
  | 0x1A => some (.bin .div false) | 0x1B => some .sqrt | 0x1C => some .neg | 0x1D => some .abs
  | 0x20 => some (.logic .and) | 0x21 => some (.logic .or) | 0x22 => some (.logic .xor)
  | 0x23 => some (.shift .shl) | 0x24 => some (.shift .shr) | 0x25 => some (.shift .sar)
  | 0x30 => some (.qbin .add) | 0x31 => some (.qbin .sub) | 0x32 => some (.qbin .addu) | 0x33 => some (.qbin .subu)
  | 0x34 => some (.qmul false) | 0x35 => some (.qmul true) | 0x36 => some (.qmac false) | 0x37 => some (.qmac true)
  | 0x38 => some .qnarrow
  | 0x39 => some (.wmul false) | 0x3A => some (.wmul true) | 0x3B => some (.wqmac false) | 0x3C => some (.wqmac true)
  | 0x40 => some (.cmp .eq) | 0x41 => some (.cmp .lt) | 0x42 => some (.cmp .le) | 0x43 => some (.cmp .un)
  | 0x48 => some (.mlogic .and) | 0x49 => some (.mlogic .or) | 0x4A => some (.mlogic .andn)
  | 0x4B => some .mpopc | 0x4C => some .mfirst
  | 0x50 => some (.mov false) | 0x51 => some (.mov true) | 0x52 => some .iota
  | 0x53 => some .sldn | 0x54 => some .slup | 0x55 => some .ext | 0x58 => some .cvt
  | 0x60 => some (.red .add) | 0x61 => some (.red .max) | 0x62 => some (.red .min)
  | _ => none

/-- The types an operation's row lists (R155). -/
def VOp.typeOk (t : VTy) : VOp → Bool
  | .vnop => t == .i8 | .vmld => t == .i8 | .vmst => t == .i8
  | .mlogic _ => t == .i8 | .mpopc => t == .i8 | .mfirst => t == .i8
  | .bin .div _ => t.isFloat
  | .sqrt => t.isFloat
  | .cmp .un => t.isFloat
  | .logic _ => !t.isFloat | .shift _ => !t.isFloat | .iota => !t.isFloat
  | .qbin _ => t == .i8 || t == .i16 || t == .i32
  | .wmul _ => t == .i8 || t == .i16 || t == .i32
  | .wqmac _ => t == .i8 || t == .i16 || t == .i32
  | .qmul _ => t == .i16 || t == .i32
  | .qmac _ => t == .i16 || t == .i32
  | .qnarrow => t == .i16 || t == .i32 || t == .i64
  | .ext => t == .i64 || t == .fp64
  | .vsetvl => true | .ld _ _ => true | .st _ => true | .bin _ _ => true | .fma _ => true | .neg => true | .abs => true
  | .cmp _ => true | .mov _ => true | .sldn => true | .slup => true | .cvt => true | .red _ => true

/-- An S3 instruction: operation and type. -/
structure VIns where
  op : VOp
  ty : VTy
deriving DecidableEq, Repr

/-- The instruction of an S3 opcode (R155). -/
def vinsOf (o : Nat) : Option VIns :=
  match vopOf (o / 16), VTy.ofCode (o % 16) with
  | some v, some t => if v.typeOk t then some ⟨v, t⟩ else none
  | _, _ => none

/-- What an S3 operand position holds (R154, R155): a vector or mask register field (`ctl` the control field), a base, or
an ordinary operand. -/
inductive VPos
  | none
  | v (ctl : Bool)
  | m (ctl : Bool)
  | base
  | dst
  | src (c : Cls)
  | imm (k : ImmK)
deriving DecidableEq, Repr

/-- The class of a scalar operand of a type (log 30). -/
def VTy.cls (t : VTy) : Cls := if t.isFloat then .fp else .int

/-- A last operand that is a vector or, marked so, a scalar. -/
def lastPos (sc : Bool) (c : Cls) : VPos := if sc then .src c else .v false

/-- The operand columns of R155. -/
def VIns.cols (i : VIns) : List VPos :=
  match i.op with
  | .vnop => [.none, .none, .none]
  | .vsetvl => [.dst, .src .int, .none]
  | .vmld => [.m true, .base, .none]
  | .vmst => [.base, .m true, .none]
  | .ld .unit _ => [.v true, .base, .none]
  | .ld .strided _ => [.v true, .base, .src .int]
  | .ld .indexed _ => [.v true, .base, .v false]
  | .st .unit => [.base, .v true, .none]
  | .st .strided => [.base, .v true, .src .int]
  | .st .indexed => [.base, .v true, .v false]
  | .bin _ sc => [.v true, .v false, lastPos sc i.ty.cls]
  | .fma sc => [.v true, .v false, lastPos sc i.ty.cls]
  | .sqrt => [.v true, .v false, .none]
  | .neg => [.v true, .v false, .none]
  | .abs => [.v true, .v false, .none]
  | .logic _ => [.v true, .v false, .v false]
  | .shift _ => [.v true, .v false, .src .int]
  | .qbin _ => [.v true, .v false, .v false]
  | .qmul sc => [.v true, .v false, lastPos sc .int]
  | .qmac sc => [.v true, .v false, lastPos sc .int]
  | .qnarrow => [.v true, .v false, .none]
  | .wmul sc => [.v true, .v false, lastPos sc .int]
  | .wqmac sc => [.v true, .v false, lastPos sc .int]
  | .cmp _ => [.m true, .v false, .v false]
  | .mlogic _ => [.m true, .m false, .m false]
  | .mpopc => [.dst, .m true, .none]
  | .mfirst => [.dst, .m true, .none]
  | .mov sc => [.v true, lastPos sc i.ty.cls, .none]
  | .iota => [.v true, .none, .none]
  | .sldn => [.v true, .v false, .imm .shift]
  | .slup => [.v true, .v false, .imm .shift]
  | .ext => [.dst, .v true, .imm .elem255]
  | .cvt => [.v true, .v false, .imm .vtype]
  | .red _ => [.dst, .v true, .src i.ty.cls]

/-- Fields of a register field (R154); REG is the specifier's r. -/
def Spec.mk' (s : Spec) : Bool := bitOf s.bits 15
def Spec.msk (s : Spec) : Nat := s.bits / 4096 % 8
def Spec.rnd (s : Spec) : Nat := s.bits / 64 % 4
def Spec.sh (s : Spec) : Nat := s.bits % 64

/-- Instructions that use RND and SH, and those that require MK = 0 (R154). -/
def VOp.usesQ : VOp → Bool
  | .qmul _ => true | .qmac _ => true | .qnarrow => true | _ => false
def VOp.unmasked : VOp → Bool
  | .vmld => true | .vmst => true | .ext => true | .mpopc => true | .mfirst => true | _ => false

/-- A register field is well formed (R154). -/
def regFieldOk (o : VOp) (ctl : Bool) (s : Spec) : Bool :=
  if ctl then
    (if s.mk' then !o.unmasked else s.msk == 0) && (if o.usesQ then s.rnd != 3 else s.bits % 256 == 0)
  else s.bits / 4096 == 0 && s.bits % 256 == 0

/-- A specifier fits an S3 position (R90, R91, R103, R154, R160). -/
def VPos.fits (o : VOp) (s : Spec) : VPos → Bool
  | .none => s.bits == 0
  | .v ctl => regFieldOk o ctl s
  | .m ctl => regFieldOk o ctl s && decide (s.r < 8)
  | .base => s.memOk && [0, 3, 4, 5].contains s.mode
  | .dst => s.memOk
  | .src _ => s.memOk || s.mode == 6
  | .imm k => s.mode == 6 && k.ok s.immVal

/-- The first S3 position whose specifier does not fit, 1 to 3; 0 for none. -/
def VIns.misfit (i : VIns) (y : Syll) : Nat :=
  match (List.range 3).find? fun k => !(i.cols.getD k .none).fits i.op (y.spec (k + 1)) with
  | some k => k + 1
  | none => 0

/-- The address register that the operand at an S3 position updates (R93). -/
def VPos.areg (s : Spec) : VPos → List Nat
  | .none => []
  | .v _ => []
  | .m _ => []
  | .base => []
  | .imm _ => []
  | .dst => s.updates
  | .src _ => s.updates

/-- The instruction can write VL (R153). -/
def VIns.writesVl (i : VIns) : Bool :=
  match i.op with
  | .vsetvl => true
  | .ld _ ff => ff
  | _ => false

/-- The instruction is a load (R164). -/
def VIns.isLoad (i : VIns) : Bool :=
  match i.op with
  | .vmld => true
  | .ld _ _ => true
  | _ => false

/-- The widest element among those an instruction reads or writes (R152); 8 for those that VL does not govern. -/
def VIns.govern (i : VIns) (y : Syll) : Nat :=
  let w := i.ty.width
  match i.op with
  | .vnop => 8 | .vsetvl => 8 | .vmld => 8 | .vmst => 8 | .mlogic _ => 8 | .mpopc => 8 | .mfirst => 8 | .ext => 8
  | .ld .indexed _ => max w 32
  | .st .indexed => max w 32
  | .wmul _ => 2 * w
  | .wqmac _ => 2 * w
  | .cvt => max w (((VTy.ofCode (y.spec 3).immVal.toNat).map VTy.width).getD 8)
  | _ => w

/-- A vector register as bits. -/
def Core.vbits (x : Core) (r : Nat) : Nat := (SMap.get 0 r x.v).toNat
/-- A mask register as bits. -/
def Core.mbits (x : Core) (r : Nat) : Nat := (SMap.get 0 r x.m).toNat

/-- The elements that are active under a control field (R152). -/
def active (x : Core) (s : Spec) (i : Nat) : Bool :=
  decide (i < x.vl) && (!s.mk' || bitOf (x.mbits s.msk) i)

/-- The active elements in ascending order. -/
def actives (x : Core) (s : Spec) : List Nat := (List.range x.vl).filter (active x s)

/-- Bitwise operations; ANDN complements its second source, as the scalar ANDN of R107 does (DEDUCED, log 81). -/
def vlogic (o : VLogic) (w a b : Nat) : Nat :=
  match o with
  | .and => a &&& b
  | .or => a ||| b
  | .xor => a ^^^ b
  | .andn => a &&& (2 ^ w - 1 - b % 2 ^ w)

/-- Shifts by the low 6 bits of the count (R156). -/
def vshift (o : VShift) (t : VTy) (a c : Nat) : Nat :=
  match o with
  | .shl => elemShl t a c
  | .shr => elemShr t a c
  | .sar => elemSar t a c

/-- Saturating operations (R157). -/
def vqbin (o : VQBin) (w a b : Nat) : Nat :=
  match o with
  | .add => qAdd w a b
  | .sub => qSub w a b
  | .addu => qAddU w a b
  | .subu => qSubU w a b

/-- The result of a reduction (R159) for initial value b and active elements in ascending order. -/
def vreduce (o : EBin) (t : VTy) (b : Nat) (xs : List (Nat × Nat)) : TWord :=
  let r := match reduceElems (elemBin o t) t.lanes xs with
    | some v => elemBin o t b v
    | none => b
  if t.isFloat then fpWord (fp64.encode (t.fmt.decode r)) else .int (wordOfInt (sextOf t.width r))

/-- The new bits of the destination register of an arithmetic, conversion or permute instruction (R156 to R158): d its old
bits, a and b element functions by width, sc the scalar operand. None for instructions with another kind of result. -/
def vresult (i : VIns) (y : Syll) (p : Nat → Bool) (n d a b : Nat) (sc : TWord) : Option Nat :=
  let t := i.ty
  let w := t.width
  let ea := elemAt w a
  let rhs := fun (s : Bool) (k : Nat) => if s then elemScalar t sc else elemAt w b k
  let q := (QRnd.ofCode (y.spec 1).rnd).getD .truncate
  let sh := (y.spec 1).sh
  let mapW := fun (w' : Nat) (f : Nat → Nat) => some (elemMap w' p f d n)
  let imm := (y.spec 3).immVal.toNat
  match i.op with
  | .bin o s => mapW w fun k => elemBin o t (ea k) (rhs s k)
  | .fma s => mapW w fun k => elemFma t (ea k) (rhs s k) (elemAt w d k)
  | .sqrt => mapW w fun k => elemSqrt t (ea k)
  | .neg => mapW w fun k => elemNeg t (ea k)
  | .abs => mapW w fun k => elemAbs t (ea k)
  | .logic o => mapW w fun k => vlogic o w (ea k) (elemAt w b k)
  | .shift o => mapW w fun k => vshift o t (ea k) (sc.data.toNat % 64)
  | .qbin o => mapW w fun k => vqbin o w (ea k) (elemAt w b k)
  | .qmul s => mapW w fun k => qMul w sh q (ea k) (rhs s k)
  | .qmac s => mapW w fun k => qMac w sh q (elemAt w d k) (ea k) (rhs s k)
  | .qnarrow => mapW (w / 2) fun k => qNarrow w sh q (ea k)
  | .wmul s => mapW (2 * w) fun k => wMul w (ea k) (rhs s k)
  | .wqmac s => mapW (2 * w) fun k => wqMac w (elemAt (2 * w) d k) (ea k) (rhs s k)
  | .mov s => mapW w fun k => if s then elemScalar t sc else ea k
  | .iota => mapW w fun k => k % 2 ^ w
  | .sldn => mapW w fun k => if k + imm < t.vlmax then elemAt w a (k + imm) else 0
  | .slup => some (elemMap w (fun k => p k && decide (imm ≤ k)) (fun k => elemAt w a (k - imm)) d n)
  | .cvt =>
    match VTy.ofCode imm with
    | some t' => mapW w fun k => elemCvt t' t .nearestEven (elemAt t'.width a k)
    | none => some d
  | _ => none

/-- Mask bits with bit k set to f k for the picked k below n. -/
def maskMap (p : Nat → Bool) (f : Nat → Bool) (m n : Nat) : Nat :=
  (List.range n).foldl (fun m k => if p k then setBit m k (f k) else m) m

/-- The codewords of a register file that hold elements of width w, the register's first codeword being `base`: those whose every
bit lies in the elements, and those that the elements fill in part (R170). Nothing is listed while no codeword holds an error. -/
def codesOf (x : Core) (base w : Nat) (ks : List Nat) : List Nat × List Nat :=
  if x.vfErr.isEmpty then ([], [])
  else ((ks.map fun k => base + w * k / 64).eraseDups).partition fun n =>
    decide ((ks.filter fun k => base + w * k / 64 == n).length * w = 64)

/-- Every codeword that holds elements of width w of V r, of M r. -/
def vCodes (x : Core) (r w : Nat) (ks : List Nat) : List Nat := (codesOf x (256 * r) w ks).1 ++ (codesOf x (256 * r) w ks).2
def mCodes (x : Core) (r : Nat) (ks : List Nat) : List Nat :=
  (codesOf x (4096 + 32 * r) 1 ks).1 ++ (codesOf x (4096 + 32 * r) 1 ks).2

/-- The codewords of vector and mask registers that an S3 instruction reads at issue (R170): those that hold its active source
elements, its accumulators and the mask bits below VL. A codeword that a destination fills in part is read when it is written. -/
def VIns.codesRead (i : VIns) (y : Syll) (x : Core) : List Nat :=
  let w := i.ty.width
  let s := y.spec (match i.op with | .st _ => 2 | .vmst => 2 | .red _ => 2 | _ => 1)
  let ks := actives x s
  let all := List.range x.vl
  let mask := if s.mk' then mCodes x s.msk all else []
  let d := fun (w' : Nat) => vCodes x (y.spec 1).r w' ks
  let a := fun (w' : Nat) => vCodes x (y.spec 2).r w' ks
  let b := fun (sc : Bool) => if sc then [] else vCodes x (y.spec 3).r w ks
  let imm := (y.spec 3).immVal.toNat
  mask ++ match i.op with
  | .vnop => [] | .vsetvl => [] | .vmld => [] | .iota => []
  | .vmst => mCodes x (y.spec 2).r (List.range 2048)
  | .ld .indexed _ => vCodes x (y.spec 3).r 32 ks
  | .ld _ _ => []
  | .st .indexed => a w ++ vCodes x (y.spec 3).r 32 ks
  | .st _ => a w
  | .bin _ sc => a w ++ b sc
  | .fma sc => d w ++ a w ++ b sc
  | .sqrt => a w | .neg => a w | .abs => a w | .shift _ => a w | .qnarrow => a w | .red _ => a w
  | .logic _ => a w ++ b false
  | .qbin _ => a w ++ b false
  | .qmul sc => a w ++ b sc
  | .qmac sc => d w ++ a w ++ b sc
  | .wmul sc => a w ++ b sc
  | .wqmac sc => d (2 * w) ++ a w ++ b sc
  | .cmp _ => a w ++ b false
  | .mlogic _ => mCodes x (y.spec 2).r ks ++ mCodes x (y.spec 3).r ks
  | .mpopc => mCodes x (y.spec 2).r all
  | .mfirst => mCodes x (y.spec 2).r all
  | .mov sc => if sc then [] else a w
  | .sldn => vCodes x (y.spec 2).r w ((ks.map (· + imm)).filter fun k => decide (k < i.ty.vlmax))
  | .slup => vCodes x (y.spec 2).r w ((ks.filter fun k => decide (imm ≤ k)).map (· - imm))
  | .ext => vCodes x (y.spec 2).r 64 [imm]
  | .cvt => a (((VTy.ofCode imm).map VTy.width).getD w)

/-- The width of the elements that an arithmetic, conversion or permute instruction writes, and the elements (R156 to R158). -/
def VIns.written (i : VIns) (y : Syll) (x : Core) : Nat × List Nat :=
  let w := i.ty.width
  let ks := actives x (y.spec 1)
  match i.op with
  | .qnarrow => (w / 2, ks)
  | .wmul _ => (2 * w, ks)
  | .wqmac _ => (2 * w, ks)
  | .slup => (w, ks.filter fun k => decide ((y.spec 3).immVal.toNat ≤ k))
  | _ => (w, ks)

/-- A vector register written in elements of width w; a mask register written in some of its bits. -/
def vregFx (x : Core) (r w : Nat) (ks : List Nat) (v : Nat) : Fx := .vreg r v (codesOf x (256 * r) w ks)
def mregFx (x : Core) (r : Nat) (ks : List Nat) (v : Nat) : Fx := .mreg r v (codesOf x (4096 + 32 * r) 1 ks)

/-- What one element of a load meets (R161): its value, a line still to come, a failed check, a wait, a wait on a page under
migration. -/
inductive ElR
  | val (v : Nat) (line : Option (Nat × Nat))
  | need (n : FarNeed)
  | bad (vec sub : Nat)
  | hold
  | mig
deriving DecidableEq, Repr

/-- Checks 3 to 7 of R92 on an element of n bytes at ea, and its value. -/
def loadElem (cx : Cx) (n : Nat) (tag : Tag) (ea : Nat) : ElR :=
  match checkAccess cx ea n n false with
  | .error none => .mig
  | .error (some (v, sub)) => .bad v sub
  | .ok none =>
    if hits cx.x.heldWritten ea n then .hold
    else
      let v := cx.x.word (ea / 8)
      if v.tag = tagPoison then .bad 3 (wf64 v.data 63 56)
      else if v.tag ≠ tag then .bad 0 0
      else .val (v.data.toNat / 2 ^ (8 * (ea % 8)) % 2 ^ (8 * n)) none
  | .ok (some e) =>
    let pa := e.at ea
    match lineFor cx ea (pa / 64) with
    | none => .need ⟨ea / 64 * 64, pa / 64, e.ro⟩
    | some (l, h) =>
      if l.bad ≠ 0 then .bad 3 l.bad
      else .val (fieldAt l.bytes (pa % 64) n) (if h.isEmpty then none else some (ea / 64 * 64, pa / 64))

/-- Effective addresses of the elements (R160): element i of an instruction at base B. -/
def elemEa (x : Core) (a : VAddr) (t : VTy) (b : Word) (stride : Word) (idx : Nat) (i : Nat) : Nat :=
  match a with
  | .unit => (b + BitVec.ofNat 64 (i * t.bytes)).toNat
  | .strided => (b + BitVec.ofNat 64 i * stride).toNat
  | .indexed => (b + wordOfInt (sextOf 32 (elemAt 32 (x.vbits idx) i))).toNat

/-- The first failing element of a load (R161), if any. -/
def firstBad : List (Nat × Nat × ElR) → Option (Nat × Nat × Nat × Nat)
  | [] => none
  | (i, ea, .bad v s) :: _ => some (i, ea, v, s)
  | _ :: rest => firstBad rest

/-- The elements before the first failing one. -/
def beforeBad (l : List (Nat × Nat × ElR)) : List (Nat × Nat × ElR) :=
  l.takeWhile fun e =>
    match e.2.2 with
    | .bad _ _ => false
    | _ => true

/-- Lines still to come, in order of first element, each once (R162). -/
def needsOf (l : List (Nat × Nat × ElR)) : List FarNeed :=
  l.foldl (fun acc e =>
    match e.2.2 with
    | .need n => if acc.any fun m => m.line == n.line then acc else acc ++ [n]
    | _ => acc) []

/-- Cache hits of a load, each line once. -/
def hitsOf (l : List (Nat × Nat × ElR)) : List Fx :=
  l.foldl (fun acc e =>
    match e.2.2 with
    | .val _ (some k) => if acc.contains (.hit k.1 k.2) then acc else acc ++ [.hit k.1 k.2]
    | _ => acc) []

/-- Elements as values. -/
def valsOf (l : List (Nat × Nat × ElR)) : List (Nat × Nat) :=
  l.filterMap fun e =>
    match e.2.2 with
    | .val v _ => some (e.1, v)
    | _ => none

/-- What a load comes to once its elements are known (R161, R164, R165): `ff` for VLDFF. -/
def loadOutcome (ff : Bool) (opnd : Nat) (els : List (Nat × Nat × ElR)) :
    Except Stop (List FarNeed × List (Nat × Nat) × List Fx) :=
  let ok := beforeBad els
  if ok.any fun e => e.2.2 == .mig then .error .mig
  else if ok.any fun e => e.2.2 == .hold then .error .hold
  else
    let needs := needsOf ok
    if !needs.isEmpty then .ok (needs, [], [])
    else match firstBad els with
      | none => .ok ([], valsOf ok, hitsOf ok)
      | some (i, ea, v, s) =>
        if ff && !ok.isEmpty then .ok ([], valsOf ok, hitsOf ok ++ [.vl i]) else .error (.exc v s ea opnd)

/-- A vector load's destination with the loaded elements. -/
def loadInto (w d : Nat) (vals : List (Nat × Nat)) : Nat := vals.foldl (fun d e => elemSet w d e.1 e.2) d

/-- An element of a store added to the words to be written (R163). -/
def addStore (n : Nat) (ws : List (Nat × Nat × List Byte)) (e : Nat × Nat) : List (Nat × Nat × List Byte) :=
  let w := e.1 / 8
  let o := e.1 % 8
  let mask := (2 ^ n - 1) * 2 ^ o
  let new := overlay (List.replicate 8 0) o (leBytes e.2 n)
  match indexWhere (fun f => f.1 == w) ws with
  | none => ws ++ [(w, mask, new)]
  | some k => modAt k (fun f => (w, f.2.1 ||| mask, maskBytes mask f.2.2 new)) ws

/-- The checks of a store (R163) over the addresses of its active elements. -/
def storeCheck (cx : Cx) (n opnd : Nat) (eas : List Nat) : Option Stop :=
  let c := fun ea =>
    match checkAccess cx ea n n true with
    | .error (some (v, sub)) => if v = 5 ∧ sub ≠ xAddrRange then none else some (Stop.exc v sub ea opnd)
    | _ => none
  match eas.findSome? c with
  | some e => some e
  | none =>
    match eas.find? fun ea => !inLocal ea with
    | some ea => some (.exc 6 2 ea opnd)
    | none => if eas.any fun ea => hits cx.x.heldRanges ea n then some .hold else none

/-- The base operand (R160): checks 1 and 2 of R92. -/
def baseOperand (cx : Cx) (t : VTy) (s : Spec) (pos : Nat) : Except Stop OpR :=
  match effAddr cx.x s t.bytes with
  | none => .error (.exc 0 0 0 pos)
  | some ea => .ok { OpR.empty with ea := ea }

/-- The operand at an S3 position. -/
def voperand (cx : Cx) (i : VIns) (y : Syll) (k : VPos) (pos : Nat) : Except Stop OpR :=
  match k with
  | .none => .ok OpR.empty
  | .v _ => .ok OpR.empty
  | .m _ => .ok OpR.empty
  | .base => baseOperand cx i.ty (y.spec pos) pos
  | .dst => memOperand cx pos (y.spec pos) none true none
  | .src c => srcOperand cx pos (y.spec pos) c c.farTag
  | .imm _ => .ok { OpR.empty with v := .int (wordOfInt (y.spec pos).immVal) }

/-- A load's elements, when it is carried out (R161, R162, R165); before its fault point it is only known to be a load. -/
def doLoad (cx : Cx) (i : VIns) (y : Syll) (full : Bool) (b c : OpR) : Except Stop SyR :=
  if !full then .ok ⟨[], [], true⟩
  else
    let s := y.spec 1
    let n := i.ty.bytes
    match i.op with
    | .ld a ff =>
      let ea := elemEa cx.x a i.ty (BitVec.ofNat 64 b.ea) c.v.data (y.spec 3).r
      let els := (actives cx.x s).map fun k => (k, ea k, loadElem cx n i.ty.tag (ea k))
      match loadOutcome ff (if a = .unit then 2 else 3) els with
      | .error e => .error e
      | .ok (needs, vals, fx) =>
        if needs.isEmpty then
          .ok ⟨fx ++ [vregFx cx.x s.r i.ty.width (vals.map (·.1)) (loadInto i.ty.width (cx.x.vbits s.r) vals)], [], true⟩
        else .ok ⟨[], needs, true⟩
    | _ =>
      let els := (List.range 32).map fun k =>
        let ea := (BitVec.ofNat 64 b.ea + BitVec.ofNat 64 (8 * k)).toNat
        (k, ea, loadElem cx 8 0 ea)
      match loadOutcome false 2 els with
      | .error e => .error e
      | .ok (needs, vals, fx) =>
        if needs.isEmpty then .ok ⟨fx ++ [mregFx cx.x s.r (List.range 2048) (loadInto 64 0 vals)], [], true⟩ else .ok ⟨[], needs, true⟩

/-- A store (R163). -/
def doStore (cx : Cx) (i : VIns) (y : Syll) (a c : OpR) : Except Stop (List Fx) :=
  let s := y.spec 2
  let b : Word := BitVec.ofNat 64 a.ea
  match i.op with
  | .st m =>
    let n := i.ty.bytes
    let ea := elemEa cx.x m i.ty b c.v.data (y.spec 3).r
    let ks := actives cx.x s
    match storeCheck cx n (if m = .unit then 1 else 3) (ks.map ea) with
    | some e => .error e
    | none => .ok [.vst i.ty.tag ((ks.map fun k => (ea k, elemAt i.ty.width (cx.x.vbits s.r) k)).foldl (addStore n) [])]
  | _ =>
    let ea := fun (k : Nat) => (b + BitVec.ofNat 64 (8 * k)).toNat
    match storeCheck cx 8 1 ((List.range 32).map ea) with
    | some e => .error e
    | none => .ok [.vst 0 (((List.range 32).map fun k => (ea k, elemAt 64 (cx.x.mbits s.r) k)).foldl (addStore 8) [])]

/-- The own part of an S3 instruction other than a load or store. -/
def doVec (cx : Cx) (i : VIns) (y : Syll) (a b c : OpR) : Except Stop (List Fx) :=
  let x := cx.x
  let s := y.spec 1
  let s2 := y.spec 2
  match i.op with
  | .vnop => .ok []
  | .vsetvl =>
    let n := (min (max b.v.data.toInt 0) i.ty.vlmax).toNat
    match putRes a.place a.ea (.int (BitVec.ofNat 64 n)) with
    | .error e => .error e
    | .ok fx => .ok (fx ++ [.vl n])
  | .cmp o =>
    let w := i.ty.width
    .ok [mregFx x s.r (actives x s) (maskMap (active x s)
      (fun k => elemCmp o i.ty (elemAt w (x.vbits s2.r) k) (elemAt w (x.vbits (y.spec 3).r) k)) (x.mbits s.r) x.vl)]
  | .mlogic o =>
    .ok [mregFx x s.r (actives x s) (maskMap (active x s)
      (fun k => bitOf (vlogic o 2048 (x.mbits s2.r) (x.mbits (y.spec 3).r)) k) (x.mbits s.r) x.vl)]
  | .mpopc => putRes a.place a.ea (.int (BitVec.ofNat 64 (popCount (x.mbits s2.r) x.vl)))
  | .mfirst =>
    putRes a.place a.ea (.int (match firstFrom (bitOf (x.mbits s2.r)) 0 x.vl with
      | some k => BitVec.ofNat 64 k
      | none => -1))
  | .ext =>
    putRes a.place a.ea ⟨BitVec.ofNat 64 (elemAt 64 (x.vbits s2.r) (y.spec 3).immVal.toNat), if i.ty = .fp64 then 1 else 0⟩
  | .red o =>
    putRes a.place a.ea (vreduce o i.ty (elemScalar i.ty c.v)
      ((actives x s2).map fun k => (k, elemAt i.ty.width (x.vbits s2.r) k)))
  | .mov true => .ok (((vresult i y (active x s) x.vl (x.vbits s.r) 0 0 b.v).map fun r => [vregFx x s.r (i.written y x).1 (i.written y x).2 r]).getD [])
  | _ =>
    .ok (((vresult i y (active x s) x.vl (x.vbits s.r) (x.vbits s2.r) (x.vbits (y.spec 3).r) c.v).map fun r =>
      [vregFx x s.r (i.written y x).1 (i.written y x).2 r]).getD [])

/-- A syllable of slot S3 (R137 item 2, R152, R164): its operands, VL_RANGE, then its own part; `full` at its fault point. -/
def evalVector (cx : Cx) (full : Bool) (y : Syll) (i : VIns) : Except Stop SyR :=
  match voperand cx i y (i.cols.getD 0 .none) 1 with
  | .error e => .error e
  | .ok a =>
    match voperand cx i y (i.cols.getD 1 .none) 2 with
    | .error e => .error e
    | .ok b =>
      match voperand cx i y (i.cols.getD 2 .none) 3 with
      | .error e => .error e
      | .ok c =>
        if 16384 / i.govern y < cx.x.vl then .error (.exc 6 1 0 0)
        else if !(a.needs ++ b.needs ++ c.needs).isEmpty then .ok ⟨[], a.needs ++ b.needs ++ c.needs, i.isLoad⟩
        else if i.isLoad then
          match doLoad cx i y full b c with
          | .error e => .error e
          | .ok r => .ok { r with fx := sideFx a b c ++ r.fx }
        else
          match (match i.op with
            | .st _ => doStore cx i y a c
            | .vmst => doStore cx i y a c
            | _ => doVec cx i y a b c) with
          | .error e => .error e
          | .ok fx => .ok ⟨sideFx a b c ++ fx, [], false⟩

end Sys2Proof.Machine
end

