-- ==== Sys2Proof/Machine/Bundle.lean ====
section
/-! DEFINITION. Bundles (R93, R94, R98 to R105, R119 to R123, R134 to R137, R164): forming and decoding one, evaluating its
syllables in slot order, what it waits for, its commit, and what is delivered at its boundary. -/

namespace Sys2Proof.Machine

/-- The instruction of a syllable. -/
inductive Ins
  | op (o : Op)
  | vec (i : VIns)
deriving DecidableEq, Repr

/-- The instruction of a slot and opcode (R103 item 3). -/
def insOf (slot o : Nat) : Option Ins :=
  if slot = 3 then (vinsOf o).map .vec else (opOf slot o).map .op

def Ins.misfit (y : Syll) : Ins → Nat
  | .op o => Sys2Proof.Machine.misfit o.takesAreg y (o.cols y)
  | .vec i => i.misfit y

/-- The address register that the operand at position `k` + 1 updates or writes (R93). -/
def Ins.aregAt (y : Syll) (k : Nat) : Ins → List Nat
  | .op o => ((o.cols y).getD k .none).areg (y.spec (k + 1))
  | .vec i => (i.cols.getD k .none).areg (y.spec (k + 1))

/-- The address registers that a syllable updates or writes (R93). -/
def Ins.aregWrites (y : Syll) (ins : Ins) : List Nat := (List.range 3).flatMap fun k => ins.aregAt y k

/-- The first operand, 1 to 3, whose update names a register that the bundle already updates or writes; 0 for none. -/
def Ins.twice (y : Syll) (regs : List Nat) (ins : Ins) : Nat :=
  let ok := fun k => distinct (regs ++ (List.range (k + 1)).flatMap fun j => ins.aregAt y j)
  match (List.range 3).find? fun k => !ok k with
  | some k => k + 1
  | none => 0

/-- The operand at which a syllable's decoding fails, 1 to 3 (R103 items 4, 5, 6 and 8); 0 for none. -/
def Ins.badOperand (y : Syll) (regs : List Nat) (ins : Ins) : Nat :=
  let m := ins.misfit y
  let t := ins.twice y regs
  if m = 0 then t else if t = 0 then m else min m t

/-- The instruction can write VL (R153). -/
def Ins.writesVl (y : Syll) : Ins → Bool
  | .op (.ctl .mtsr) => (y.spec 2).immVal == 7
  | .op _ => false
  | .vec i => i.writesVl

def Ins.branch : Ins → Bool
  | .op o => o.branch
  | .vec _ => false

def Ins.isLoad : Ins → Bool
  | .op _ => false
  | .vec i => i.isLoad

/-- The codewords of the vector and mask registers that an instruction reads at issue (R170). -/
def Ins.codesRead (y : Syll) (x : Core) : Ins → List Nat
  | .op _ => []
  | .vec i => i.codesRead y x

/-- A decoded bundle, or the syllable and operand at which its decoding failed; no syllable failed where the bundle runs past
the end of the bundle store (R99, log 52). -/
inductive Dec
  | ok (l : List (Syll × Ins)) (next : Nat)
  | bad (y : Option Syll) (opnd : Nat)
deriving DecidableEq, Repr

/-- Decoding from syllable number i on (R102, R103): `prev` the last syllable, `regs` the address registers written so far,
`vl` whether VL has a writer. -/
def decodeFrom (x : Core) : (fuel : Nat) → (i : Nat) → (prev : Option Syll) → (regs : List Nat) → (vl : Bool)
    → (acc : List (Syll × Ins)) → Dec
  | 0, _, _, _, _, _ => .bad none 0
  | n + 1, i, prev, regs, vl, acc =>
    if 16384 ≤ i then .bad none 0
    else
      let y : Syll := ⟨(SMap.get 0 i x.bundles).toNat⟩
      if 6 ≤ y.slot || prev.any (fun p => decide (y.slot ≤ p.slot)) || (decide (y.slot = 5) && !y.stop) then .bad (some y) 0
      else match insOf y.slot y.op with
      | none => .bad (some y) 0
      | some ins =>
        let w := ins.aregWrites y
        if ins.badOperand y regs ≠ 0 then .bad (some y) (ins.badOperand y regs)
        else if (vl && ins.writesVl y) || (x.delay.isSome && ins.branch) then .bad (some y) 0
        else if y.stop then .ok (acc ++ [(y, ins)]) (8 * (i + 1))
        else decodeFrom x n (i + 1) (some y) (regs ++ w) (vl || ins.writesVl y) (acc ++ [(y, ins)])

/-- The bundle at the core's code address. -/
def decodeBundle (x : Core) : Dec := decodeFrom x 7 (x.pc / 8) none [] false []

/-- What evaluating a bundle comes to; `mig` where it waits on a page under migration (R324). -/
inductive BunR
  | exc (e : Exc)
  | wait (needs : List FarNeed) (mig : Bool)
  | issue (fx : List Fx) (load : Bool)
deriving DecidableEq, Repr

/-- The exception of a syllable (R134, R139 to R141); SYS has its own sub-cause. -/
def syllExc (cx : Cx) (y : Syll) (vec sub ea opnd : Nat) : Exc :=
  let ds := cx.x.delay
  ⟨vec, sub, ea, y.word, y.slot, opnd, (ds.map (·.branchPc)).getD cx.pc, cx.x.isEnd cx.pc, false, ds.isSome⟩

/-- The Illegal Bundle of a bundle whose decoding failed (R103, R139). -/
def decodeExc (cx : Cx) (y : Option Syll) (opnd : Nat) : Exc :=
  match y with
  | some y => syllExc cx y 1 0 0 opnd
  | none => { syllExc cx ⟨0⟩ 1 0 0 0 with slot := 7 }

/-- A syllable evaluated. -/
def evalIns (cx : Cx) (full : Bool) (fx : List Fx) (y : Syll) : Ins → Except Stop SyR
  | .op o => evalScalar cx fx y o
  | .vec i => evalVector cx full y i

/-- The syllables in slot order (R137 item 2). A failure behind a line that has still to come is known only once the line
has come. -/
def evalAll (cx : Cx) (full : Bool) : List (Syll × Ins) → List Fx → List FarNeed → Bool → BunR
  | [], fx, needs, load => if needs.isEmpty then .issue fx load else .wait needs false
  | (y, ins) :: rest, fx, needs, load =>
    match evalIns cx full fx y ins with
    | .ok r => evalAll cx full rest (fx ++ r.fx) (needs ++ r.needs) (load || r.load)
    | .error .hold => .wait needs false
    | .error .mig => .wait needs true
    | .error (.exc v sub ea opnd) => if needs.isEmpty then .exc (syllExc cx y v sub ea opnd) else .wait needs false

/-- The context of a core's bundle. -/
def cxOf (c q : Nat) (s : State) (next : Nat) : Cx := ⟨c, q, s.core c, s, (s.core c).pc, next⟩

/-- The syllables in effect: only the branch after a return with DS = 1 (R146). -/
def inEffect (x : Core) (l : List (Syll × Ins)) : List (Syll × Ins) := if x.branchOnly then l.filter (·.2.branch) else l

/-- The core's bundle evaluated. -/
def evalBundle (c q : Nat) (full : Bool) (s : State) : BunR × Nat :=
  let x := s.core c
  match decodeBundle x with
  | .bad y opnd => (.exc (decodeExc (cxOf c q s x.pc) y opnd), x.pc)
  | .ok l next => (evalAll (cxOf c q s next) full (inEffect x l) [] [] false, next)

/-- The core-store words that the operands of a syllable read, apart from a vector load's elements. -/
def syllReads (x : Core) (y : Syll) (ins : Ins) : List Nat :=
  let mem := fun (pos e : Nat) =>
    let sp := y.spec pos
    if sp.mode ≤ 5 then
      match effAddr x sp e with
      | some ea => if inLocal ea && decide (ea % 8 = 0) then [ea / 8] else []
      | none => []
    else []
  match ins with
  | .op o =>
    ((o.cols y).zipIdx.flatMap fun k =>
      match k.1 with
      | .src _ => mem (k.2 + 1) 8
      | .upd _ => mem (k.2 + 1) 8
      | _ => [])
    ++ (if o = .ctl .rte then
        (if (x.areg 15).tag = 5 && inLocal (x.areg 15).data.toNat
          then (List.range 16).map ((x.areg 15).data.toNat / 8 + ·) else [])
      else [])
  | .vec i =>
    i.cols.zipIdx.flatMap fun k =>
      match k.1 with
      | .src _ => mem (k.2 + 1) 8
      | _ => []

/-- The core-store words that the elements of a vector load read (R160, R168), once its operands have come. -/
def loadReads (cx : Cx) (y : Syll) (ins : Ins) : List Nat :=
  let x := cx.x
  match ins with
  | .vec i =>
    match voperand cx i y (i.cols.getD 1 .none) 2, voperand cx i y (i.cols.getD 2 .none) 3 with
    | .ok b, .ok c =>
      if !(b.needs ++ c.needs).isEmpty then []
      else
        let local' := fun (ea : Nat) => if inLocal ea then some (ea / 8) else none
        match i.op with
        | .ld a _ => (actives x (y.spec 1)).filterMap fun k =>
            local' (elemEa x a i.ty (BitVec.ofNat 64 b.ea) c.v.data (y.spec 3).r k)
        | .vmld => (List.range 32).filterMap fun k => local' (BitVec.ofNat 64 b.ea + BitVec.ofNat 64 (8 * k)).toNat
        | _ => []
    | _, _ => []
  | _ => []

/-- The words that the bundle of a core reads, those of its loads' elements when they are carried out. -/
def bundleReads (c q : Nat) (full : Bool) (s : State) : List Nat :=
  let x := s.core c
  match decodeBundle x with
  | .bad _ _ => []
  | .ok l next => (inEffect x l).flatMap fun e =>
    syllReads x e.1 e.2 ++ if full then loadReads (cxOf c q s next) e.1 e.2 else []

/-- The reads of a bundle decode the codewords of the words they meet (R77, R79). -/
def touchBundle (c q : Nat) (full : Bool) (s : State) : State :=
  if (s.core c).storeErr.isEmpty then s else touchAll c (bundleReads c q full s) .read s

/-- A word as a read of it leaves it (R77, R79), with neither a count nor an entry. -/
def calmWord (x : Core) (w : Nat) : Core :=
  let e := SMap.get CwErr.none w x.storeErr
  if e.bad then putWord w (poisonWord e.source) x else { x with storeErr := SMap.set CwErr.none w CwErr.none x.storeErr }

/-- The bundle of a core holds a VLDFF (R165). -/
def firstFaultLoad (x : Core) : Bool :=
  match decodeBundle x with
  | .bad _ _ => false
  | .ok l _ => (inEffect x l).any fun e =>
    match e.2 with
    | .vec ⟨.ld _ true, _⟩ => true
    | _ => false

/-- The words of a VLDFF that truncates at element k: those of the elements up to k (R165). -/
def truncReads (c q k : Nat) (s : State) : List Nat :=
  let x := s.core c
  match decodeBundle x with
  | .bad _ _ => []
  | .ok l next => (inEffect x l).flatMap fun e =>
    loadReads (cxOf c q { s with cores := SMap.upd Core.reset c (fun x => { x with vl := min x.vl (k + 1) }) s.cores } next) e.1 e.2

/-- The VL that a first-fault load's truncation sets. -/
def truncAt (fx : List Fx) : Option Nat :=
  fx.findSome? fun
    | .vl k => some k
    | _ => none

/-- The reads of a load at its fault point. Where a VLDFF truncates, the words of the elements up to the failing one are read with
no count and no entry, and those above it are not read (R165); where it waits for lines, none is read. -/
def touchLoad (c q : Nat) (s : State) : State :=
  if (s.core c).storeErr.isEmpty then s
  else if firstFaultLoad (s.core c) then
    let calm := fun (ws : List Nat) => s.updCore c fun x => ws.foldl calmWord x
    match (evalBundle c q true (calm (bundleReads c q true s))).1 with
    | .wait _ _ => s
    | .issue fx _ =>
      match truncAt fx with
      | some k => calm (truncReads c q k s)
      | none => touchBundle c q true s
    | .exc _ => touchBundle c q true s
  else touchBundle c q true s

/-- Codewords of the register files hold no error any more. -/
def vfClear (cs : List Nat) (m : SMap Nat) : SMap Nat := SMap.drop (fun k => cs.contains k) m

/-- One effect of a bundle at its commit (R93, R94, R163). -/
def applyFx (c q : Nat) (s : State) : Fx → State
  | .areg r v => s.updCore c (setAreg r v)
  | .word w v => s.updCore c (putWord w v)
  | .far va pa v => farStore c q va pa v s
  | .hit va line =>
    let s := flushWcb c q (fun l => l.line == line) s
    countWindow (dieOfCore c) q va (64 * line) (s.updCore c fun x => { x with far := farHit line x.far })
  | .status v => s.updCore c (writeStatus v)
  | .loopIn v => s.updCore c fun x => { x with loopIn := v }
  | .loopOut v => s.updCore c fun x => { x with loopOut := v }
  | .vl n => s.updCore c fun x => { x with vl := n }
  | .nd => s.updPart q fun x => { x with nd := true }
  | .loop st en n after => s.updCore c fun x =>
    if n = 0 then { x with pc := after }
    else { x with
      loopOut := if lpActive x.loopIn then x.loopIn else x.loopOut
      loopIn := mkLoop st en n }
  | .branch a => s.updCore c fun x => { x with delay := some ⟨x.pc, a⟩ }
  | .twait => s.updCore c fun x => { x with twait := true, pend := { x.pend with heldInt := [] } }
  | .send m => s.updCore c fun x => { x with tx := x.tx ++ [m] }
  | .recv chan i => s.updCore c fun x => { x with rx := SMap.upd [] chan (dropAt i) x.rx }
  | .draw => s.drew
  | .arm k bulk t h cond =>
    let x := s.core c
    let (rd, wr) := if bulk then ([], []) else rangesOf k h x
    let e : ArmEntry := ⟨k, t, h, cond, c, x.armSeq, rd, wr, 0, 0⟩
    let add := fun (u : TurnUnit) => { u with queue := u.queue ++ [e], lastArmed := t }
    let s := s.updCore c fun x => { x with armSeq := x.armSeq + 1 }
    match armQueue k bulk with
    | 0 => s.updCore c fun x => { x with tu := add x.tu }
    | 1 => s.updCore c fun x => { x with mtu := add x.mtu }
    | 2 => s.updCore c fun x => { x with dtu := add x.dtu }
    | _ => s.updDie (dieOfCore c) fun d => { d with bulk := SMap.upd Bulk.reset q (fun b => { b with tu := add b.tu }) d.bulk }
  | .move h => s.updCore c fun x =>
    let (rd, wr) := rangesOf .move h x
    let j := MoveJob.given h c x.armSeq x.fireSeq x.tu.turn rd wr
    { x with armSeq := x.armSeq + 1, fireSeq := x.fireSeq + 1, jobs := { x.jobs with moves := x.jobs.moves ++ [j] } }
  | .vreg r v cs => s.updCore c fun x => { x with v := SMap.set 0 r (BitVec.ofNat 16384 v) x.v, vfErr := vfClear cs.1 x.vfErr }
  | .mreg r v cs => s.updCore c fun x => { x with m := SMap.set 0 r (BitVec.ofNat 2048 v) x.m, vfErr := vfClear cs.1 x.vfErr }
  | .vst tag ws => ws.foldl (fun s e => maskedWord c e.1 e.2.1 e.2.2 tag s) s

/-- Whether an effect waits for what the bundle's loop end does (R111, R121, R122). -/
def Fx.late : Fx → Bool
  | .loopIn _ => true | .loopOut _ => true | .loop _ _ _ _ => true
  | _ => false

/-- SYS enters vector 32 + n after its delay bundle (R144); where that bundle is TWAIT, issue resumes in the handler after the
spur (log 43). -/
def sysExc (n pc : Nat) : Exc := ⟨32 + n, n, 0, 0, 1, 0, pc, false, false, false⟩

/-- The delay bundle of a branch has committed; `next` is the bundle after it (R119, R144, R146). -/
def takeDelay (c next : Nat) (d : Delay) (s : State) : State :=
  match d.act with
  | .go t closes => s.updCore c fun x =>
    let x := if closes then leaveLoops t x else x
    { x with pc := t, delay := none }
  | .fall => s.updCore c fun x => { x with pc := next, delay := none }
  | .sys n =>
    let tw := (s.core c).twait
    (enter c (sysExc n next) (s.updCore c fun x => { x with pc := next, delay := none })).updCore c fun x =>
      { x with twait := tw }
  | .rte ws => s.updCore c fun x => rteCore ws { x with delay := none }

/-- The commit of a bundle with its effects (R93, R94): the code address after it, loop ends, then what waits for them. CCLK
cycles have passed, one at least (log 13). -/
def commit (c q next : Nat) (fx : List Fx) (s : State) : State :=
  let old := (s.core c).delay
  let s := (fx.filter fun f => !f.late).foldl (applyFx c q) s
  let s := if fx.contains .twait then flushWcb c q (fun _ => true) s else s
  let stall := s.freeVal.toNat
  let s := s.drew.updCore c fun x =>
    let (x, pc) := loopBack x.pc next x
    { x.passCycles (1 + stall) with pc := pc, branchOnly := false, vload := false, mig := false, far := { x.far with bundle := [] } }
  let s := (fx.filter Fx.late).foldl (applyFx c q) s
  match old with
  | some d => takeDelay c (s.core c).pc d s
  | none => s

/-- Immediate exceptions and held items may be taken at this boundary (R135, R136). -/
def Core.atBoundary (x : Core) : Bool := x.delay.isNone && !x.branchOnly

/-- The lowest pending immediate exception is taken (R131, R134). -/
def takeImmediate (c : Nat) (s : State) : Option State :=
  let x := s.core c
  (lowest x.pend.imm).map fun v =>
    let e := if x.twait then Exc.atTwait v 0 0 x.pc else Exc.atBoundary v x.pc
    enter c e (s.updCore c fun x => { x with pend := { x.pend with imm := x.pend.imm.filter (· != v) } })

/-- An immediate exception of a core, taken at once where the core stands at a boundary (R131, R136). -/
def raiseImmediate (c v : Nat) (s : State) : State :=
  let s := s.updCore c (Core.immediate v)
  let x := s.core c
  if x.atBoundary && !x.vload && decide (x.halt = 0) then (takeImmediate c s).getD s else s

/-- The next held item is taken where NIW is 0 (R135). -/
def takeHeld (c : Nat) (s : State) : Option State :=
  let x := s.core c
  if x.niw then none
  else x.pend.nextHeld.map fun v =>
    enter c (Exc.atBoundary v x.pc) (s.updCore c fun x => { x with pend := x.pend.dropHeld v })

/-- A held exception is taken at TWAIT (R135 item 5). -/
def takeHeldAtTwait (c : Nat) (s : State) : Option State :=
  let x := s.core c
  if x.tu.done then none
  else (lowest x.pend.heldExc).map fun v =>
    enter c (Exc.atTwait v 0 0 x.pc) (s.updCore c fun x => { x with pend := x.pend.dropHeld v })

/-- What is delivered at a bundle boundary instead of a bundle (R137). -/
def deliver (c : Nat) (s : State) : Option State :=
  let x := s.core c
  if !x.atBoundary then none
  else match takeImmediate c s with
  | some t => some t
  | none => if x.twait then takeHeldAtTwait c s else takeHeld c s

/-- A core of a RUNNING partition that is not halted, past turn 0: the partition (R33, R149). -/
def State.coreRuns (s : State) (c : Nat) : Option Nat :=
  let x := s.core c
  x.part.bind fun q => if (s.part q).st = .running ∧ x.halt = 0 ∧ 1 ≤ x.tu.turn then some q else none

/-- The syllables that a bundle's fetch reads: up to its stop bit, six at most (R98, R102). -/
def fetched (x : Core) : List Nat :=
  let l := ((List.range 6).map (x.pc / 8 + ·)).filter fun i => decide (i < 16384)
  let stop := fun (i : Nat) => (Syll.mk (SMap.get 0 i x.bundles).toNat).stop
  l.take (((indexWhere stop l).map (· + 1)).getD 6)

/-- A register-file codeword that is read (R170): a corrected error is counted. -/
def vfRead (c : Nat) (s : State) (n : Nat) : State :=
  if SMap.get 0 n (s.core c).vfErr = 1 then
    chatter ⟨0x03, c⟩ (resAddr ⟨0x03, c⟩) (s.updCore c fun x => { x with vfErr := SMap.set 0 n 0 x.vfErr })
  else s

/-- Register-file codewords are read (R170): a machine check where one is uncorrectable, else corrected events. -/
def vfReads (c : Nat) (cs : List Nat) (s : State) : Option State × State :=
  if cs.any fun n => SMap.get 0 n (s.core c).vfErr == 2 then
    (some (machineCheck c (chatterUe ⟨0x03, c⟩ (resAddr ⟨0x03, c⟩) s)), s)
  else (none, cs.foldl (vfRead c) s)

/-- A corrected syllable (R98). -/
def syllRead (c : Nat) (s : State) (i : Nat) : State :=
  if SMap.get 0 i (s.core c).bundleErr = 1 then
    chatter ⟨0x02, c⟩ (resAddr ⟨0x02, c⟩) (s.updCore c fun x => { x with bundleErr := SMap.set 0 i 0 x.bundleErr })
  else s

/-- What the codewords of the front end do to a bundle that issues (R98, R170, R415): a machine check, or corrected events. -/
def frontEnd (c : Nat) (s : State) : Option State × State :=
  let x := s.core c
  if x.ctlErr then (some (machineCheck c (s.updCore c fun x => { x with ctlErr := false })), s)
  else if (fetched x).any fun i => SMap.get 0 i x.bundleErr == 2 then
    (some (machineCheck c (chatterUe ⟨0x02, c⟩ (resAddr ⟨0x02, c⟩) s)), s)
  else
    let s := (fetched x).foldl (syllRead c) s
    match decodeBundle x with
    | .ok l _ => vfReads c ((inEffect x l).flatMap fun e => e.2.codesRead e.1 x) s
    | .bad _ _ => (none, s)

/-- The addresses beyond the core-local window that the evaluation of a bundle translated. -/
def BunR.lookups : BunR → List Nat
  | .exc e => if (e.vec = 5 ∨ e.vec = 3) ∧ !inLocal e.ea ∧ e.ea < 2 ^ 48 then [e.ea] else []
  | .wait l _ => l.map (·.va)
  | .issue fx _ => fx.flatMap fun
    | .far va _ _ => [va]
    | .hit va _ => [va]
    | _ => []

/-- Register-file codewords that a bundle's results fill in part, which are read as they are written (R170). -/
def mergeCodes (fx : List Fx) : List Nat :=
  fx.flatMap fun
    | .vreg _ _ cs => cs.2
    | .mreg _ _ cs => cs.2
    | _ => []

/-- A bundle commits, unless a codeword that its results fill in part is uncorrectable (R170). -/
def commitChecked (c q next : Nat) (fx : List Fx) (s : State) : State :=
  match vfReads c (mergeCodes fx) s with
  | (some t, _) => t
  | (none, s) => commit c q next fx s

/-- The evaluation of a bundle carried out: an exception, a wait at which something else may be delivered, or the commit. A
load issues, and commits at its fault point (R164). -/
def carryOut (c q : Nat) (full : Bool) (r : BunR) (next : Nat) (s : State) : State :=
  let s := lookupAll (.core (coreNum c)) q r.lookups s
  match r with
  | .exc e => enter c e s
  | .wait needs mig =>
    let s := (requestLines c q needs s).updCore c fun x => { x with mig := mig }
    if full then s else (deliver c s).getD s
  | .issue fx load =>
    if full then commitChecked c q next fx s
    else match deliver c s with
      | some t => t
      | none => if load then s.updCore c fun x => { x with vload := true, mig := false } else commitChecked c q next fx s

/-- The first-armed Matrix Pass Fault of the turn is known (R247): every pass and drain with a launch turn of N or less has
fired and then completed, faulted or failed a check. -/
def Core.faultsKnown (x : Core) : Bool :=
  x.jobs.passes.isEmpty && x.jobs.drains.isEmpty
  && ((x.tu.queue ++ x.dtu.queue).all fun e => !(e.kind == .pass || e.kind == .drain) || decide (x.tu.turn < e.turn))

/-- The first-armed of the turn's Matrix Pass Faults. -/
def firstFault : List MFault → Option MFault
  | [] => none
  | f :: fs => some (fs.foldl (fun m g => if g.seq < m.seq then g else m) f)

/-- The Matrix Pass Fault that can be delivered now, at most one in a turn (R134, R247). -/
def Core.mfaultReady (x : Core) : Option MFault :=
  if x.pend.mdone then none
  else if x.faultsKnown then firstFault x.pend.mfaults else none

/-- An own-action exception is delivered at TWAIT (R134, R187, R247). -/
def ownAction (c q : Nat) (s : State) : State :=
  let x := s.core c
  match x.pend.vfault with
  | some (sub, addr) =>
    enter c (Exc.atTwait 6 sub addr.toNat x.pc) (s.updCore c fun x => { x with
      pend := { x.pend with vfault := none } })
  | none =>
    match x.mfaultReady with
    | some f =>
      let s := x.pend.mfaults.foldl (fun s g => logEvent (mfaultEntry q x.lcore (dieOfCore c) (g == f) g) s) s
      enter c (Exc.atTwait 7 f.sub f.addr.toNat x.pc) (s.updCore c fun x => { x with
        pend := { x.pend with mdone := true, mfaults := [] } })
    | none => (deliver c s).getD s

/-- What is delivered to a core in TWAIT (R134, R137): immediate exceptions, then own-action exceptions, then held exceptions; once
the core has reported turn done only the first. -/
def twaitStep (c q : Nat) (s : State) : State :=
  match takeImmediate c s with
  | some t => t
  | none => if (s.core c).tu.done then s else ownAction c q s

/-- BUNDLE_ISSUE (R104, R105, R134 to R137) on a core that runs for partition q. -/
def bundleStep (c q : Nat) (s : State) : State :=
  let x := s.core c
  if x.twait && x.atBoundary then twaitStep c q s
  else if x.twait || x.vload then s
  else match frontEnd c s with
  | (some t, _) => t
  | (none, s) =>
    let s := touchBundle c q false s
    let (r, next) := evalBundle c q false s
    carryOut c q false r next s

/-- BUNDLE_ISSUE. -/
def execBundleIssue (c : CoreId) (env : Env) (s : State) : Answer :=
  let s := applyUpsets env.upsets s
  .next (match s.coreRuns c with
    | some q => bundleStep c q s
    | none => s)

/-- A load's bundle at its fault point (R164, R165, R168): it commits whole, or the load's exception is delivered, or the
load waits for a line. -/
def faultPointStep (c q : Nat) (s : State) : State :=
  if (s.core c).vload && !(s.core c).twait then
    let s := touchLoad c q s
    let (r, next) := evalBundle c q true s
    carryOut c q true r next s
  else s

/-- VECTOR_LOAD_FAULT_POINT. -/
def execVectorLoadFaultPoint (c : CoreId) (env : Env) (s : State) : Answer :=
  let s := applyUpsets env.upsets s
  .next (match s.coreRuns c with
    | some q => faultPointStep c q s
    | none => s)

/-- OWN_ACTION_DELIVERY (R134, R137). -/
def execOwnActionDelivery (c : CoreId) (s : State) : Answer :=
  .next (match s.coreRuns c with
    | some q =>
      let x := s.core c
      if x.twait && x.atBoundary && !x.tu.done then twaitStep c q s else s
    | none => s)

end Sys2Proof.Machine
end

