-- ==== Sys2Proof/Machine/Units.lean ====
section
/-! DEFINITION. Turn units (R30, R31, R36), arrival counters and their bindings (R37, R273), and messages (R117, R275). -/

namespace Sys2Proof.Machine

/-- The mover of a core and its drain unit as units; the recorder; the bulk mover of a die; the regulator of a stack. -/
def unitTu (q : Nat) (u : UnitRef) (s : State) : TurnUnit :=
  match u with
  | .core c => (s.core c).tu
  | .mover c => (s.core c).mtu
  | .drain c => (s.core c).dtu
  | .bulk d => (SMap.get Bulk.reset q (s.die d).bulk).tu
  | .reg k => (SMap.get Regulator.reset q (s.stack k).regs).tu
  | .recorder => (s.part q).recd.tu

/-- A partition's bulk mover on a die, changed. -/
def updBulk (d q : Nat) (f : Bulk → Bulk) (s : State) : State :=
  s.updDie d fun x => { x with bulk := SMap.upd Bulk.reset q f x.bulk }

/-- A unit changed. -/
def updTu (q : Nat) (u : UnitRef) (f : TurnUnit → TurnUnit) (s : State) : State :=
  match u with
  | .core c => s.updCore c fun x => { x with tu := f x.tu }
  | .mover c => s.updCore c fun x => { x with mtu := f x.mtu }
  | .drain c => s.updCore c fun x => { x with dtu := f x.dtu }
  | .bulk d => updBulk d q (fun b => { b with tu := f b.tu }) s
  | .reg k => updReg k q (fun g => { g with tu := f g.tu }) s
  | .recorder => s.updPart q fun x => { x with recd := { x.recd with tu := f x.recd.tu } }

/-- The dies that carry a group of a partition, ascending. -/
def Part.dies (x : Part) : List Nat := (List.range 12).filter fun d => x.onDie d

/-- The turn units of a partition on this module (R31). -/
def Part.units (x : Part) : List UnitRef :=
  (x.phys.flatMap fun c => [UnitRef.core (coreNum c), .mover (coreNum c), .drain (coreNum c)])
  ++ (x.dies.map fun d => UnitRef.bulk (dieNum d))
  ++ (if ((x.cfg.map (·.hbmCap)).getD 0) = 0 then [] else (List.range 8).map fun k => UnitRef.reg (stackNum k))
  ++ (if x.recd.mode = 0 then [] else [.recorder])

/-- The core that hears of a counter overflow (R37); `by'` the core that armed the move, for a bulk mover. -/
def overflowCore (u : UnitRef) (by' : Nat) : Nat :=
  match u with
  | .core c => c
  | .mover c => c
  | .drain c => c
  | .bulk _ => by'
  | .reg _ => by'
  | .recorder => by'

/-- An increment of an arrival counter (R37). -/
def bumpCounter (q : Nat) (u : UnitRef) (ac by' : Nat) (s : State) : State :=
  let n := SMap.get 0 ac (unitTu q u s).ac
  if n < 65535 then updTu q u (fun t => { t with ac := SMap.set 0 ac (n + 1) t.ac }) s
  else (s.updCore (overflowCore u by') (Core.turnExc 13 (unitTu q u s).turn)).updPart q fun x => { x with nd := true }

/-- Fields of an event-binding entry (R273). -/
def bindV (w : Word) : Bool := wbit w 23
def bindUnit (w : Word) : Nat := wf64 w 22 21
def bindAc (w : Word) : Nat := wf64 w 20 18
def bindEvt (w : Word) : Nat := wf64 w 11 8
def bindSel (w : Word) : Nat := wf64 w 7 0

/-- The unit of a core that a binding's UNIT names. -/
def coreUnit (c n : Nat) : UnitRef :=
  match n with
  | 0 => .core (coreNum c)
  | 1 => .mover (coreNum c)
  | _ => .drain (coreNum c)

/-- An event of a core increments every counter that its table binds to it (R273). -/
def coreEvent (q c evt sel : Nat) (s : State) : State :=
  (List.range 16).foldl (fun s i =>
    let w := SMap.get 0 i (s.core c).bind
    if bindV w && bindEvt w == evt && bindSel w == sel then bumpCounter q (coreUnit c (bindUnit w)) (bindAc w) c s else s) s

/-- The physical core of a logical core. -/
def Part.physOf (x : Part) (lc : Nat) : Option Nat := (x.place.find? fun e => e.1 == lc).map (·.2)

/-- An earlier message of the port goes to the same channel of the same receiver (R275). -/
def behind (ahead : List Msg) (m : Msg) : Bool := ahead.any fun a => a.dst == m.dst && a.chan == m.chan

/-- A message can be accepted by a core of this module (R275): its receiver's channel has a free place, no earlier message of the
port goes to the same channel, and the receiver has the spur of the sender's turn. -/
def acceptable (q c : Nat) (s : State) (ahead : List Msg) (m : Msg) : Bool :=
  match (s.part q).physOf m.dst with
  | none => false
  | some r =>
    !behind ahead m && decide (((s.core r).rxOf m.chan).length < 8) && (s.core r).tu.turn == (s.core c).tu.turn

/-- The place in a port of the message accepted next. -/
def nextAccept (q c : Nat) (s : State) : List Msg → List Msg → Nat → Option (Nat × Msg)
  | [], _, _ => none
  | m :: rest, ahead, i => if acceptable q c s ahead m then some (i, m) else nextAccept q c s rest (ahead ++ [m]) (i + 1)

/-- A message enters the buffer of a core in a turn (R81, R132, R273, R275). -/
def rxMsg (q r turn : Nat) (m : Msg) (s : State) : State :=
  let s := s.updCore r fun x => ({ x with rx := SMap.upd [] m.chan (· ++ [m]) x.rx }).event 16 turn
  coreEvent q r 1 m.chan s

/-- The message at a place of a core's mesh port leaves it, with what became of its word on the mesh (R81). -/
def popMsg (c i : Nat) (m : Msg) (s : State) : State × Msg :=
  (s.updCore c fun x => { x with tx := dropAt i x.tx, msgErr := false },
    if (s.core c).msgErr then { m with word := poisonWord 0x12 } else m)

/-- A message enters the buffer of a core of this module. -/
def acceptMsg (q c i r : Nat) (m : Msg) (s : State) : State :=
  let (t, m) := popMsg c i m s
  rxMsg q r (s.core c).tu.turn m t

/-- A message that a core of another module accepts leaves on a scale-out link (R457; log 27). -/
def sendOut (q c dst chan : Nat) (s : State) : State :=
  let l := (s.core c).tx
  match indexWhere (fun m => m.dst == dst && m.chan == chan) l with
  | some i =>
    (match l[i]?, (s.part q).remote.contains dst with
      | some m, true =>
        let (t, m) := popMsg c i m s
        t.emit (.spanMsg q m)
      | _, _ => s)
  | none => s

/-- A message that a core of another module has sent arrives (R117, R275): at a core with a free place that has the turn's spur. -/
def msgArrives (q src dst chan : Nat) (word : TWord) (s : State) : State :=
  let p := s.part q
  match p.physOf dst with
  | some r =>
    if p.st = .running ∧ p.remote.contains src = true ∧ ((s.core r).rxOf chan).length < 8 ∧ (s.core r).tu.turn = p.turn then
      rxMsg q r p.turn ⟨src, dst, chan, word⟩ s
    else s
  | none => s

/-- The partition of a core, when it is RUNNING: units of a partition act only then. -/
def State.runsPart (s : State) (c : Nat) : Option Nat :=
  (s.core c).part.bind fun q => if (s.part q).st = .running then some q else none

/-- MESSAGE_ACCEPT (R275, R457). -/
def execMessageAccept (m : MsgStep) (env : Env) (s : State) : Answer :=
  let s := applyUpsets env.upsets s
  .next (match m with
    | .here c => (match s.runsPart c with
      | some q =>
        (match nextAccept q c s (s.core c).tx [] 0 with
          | some (i, m) => (match (s.part q).physOf m.dst with
            | some r => acceptMsg q c i r m s
            | none => s)
          | none => s)
      | none => s)
    | .out c dst chan => (match s.runsPart c with
      | some q => sendOut q c dst chan s
      | none => s)
    | .arrived q src dst chan word => msgArrives q src dst chan word s)

/-- NOTIFY_INCREMENT (R270): the oldest increment on the mesh arrives at a unit that has the turn's spur. -/
def execNotifyIncrement (q : PartId) (s : State) : Answer :=
  let x := s.part q
  .next (match x.notifies with
    | n :: rest =>
      if x.st = .running ∧ (unitTu q n.unit s).turn = x.turn then
        bumpCounter q n.unit n.ac n.by' (s.updPart q fun x => { x with notifies := rest })
      else s
    | [] => s)

/-- HALT_NOTICE (R149): the firmware logs the halt and, for causes 0x01 and 0x03, stops the partition. -/
def execHaltNotice (c : CoreId) (s : State) : Answer :=
  let x := s.core c
  .next (if x.haltNote && s.hs.fwRun then
      let s := s.updCore c fun x => { x with haltNote := false }
      let s := logEvent { LogEntry.ofCode 0x0010 .stop with
        part := x.part, src := dieOfCore c, addr := x.pc, unit := if x.part.isSome then x.lcore else 0xFFFF
        d0 := (if x.halt = 1 then 9 else 0) + 256 * x.halt, d1 := x.haltVec } s
      (match x.part with
        | some q => if x.halt = 1 ∨ x.halt = 3 then faultPart q s else s
        | none => s)
    else s)

/-- PATROL_SCRUB (R78): one word of each bank, in address order. -/
def execPatrolScrub (c : CoreId) (env : Env) (s : State) : Answer :=
  let s := applyUpsets env.upsets s
  .next (if (s.die (dieOfCore c)).up then
      let row := (s.core c).scrub
      let s := touchAll c ((List.range 16).map (row * 16 + ·)) .patrol s
      s.updCore c fun x => { x with scrub := (row + 1) % 32768 }
    else s)

end Sys2Proof.Machine
end

