-- ==== Sys2Proof/Machine/Record.lean ====
section
/-! DEFINITION. The recorder's ring and its items (R426 to R431), and the reads that units of a partition make of host memory,
from the host or, in a replay, from the record (R427, R433, R484). -/

namespace Sys2Proof.Machine

/-- The answer that the surroundings hold for a read of host memory; a read that nobody answers meets its completion
timeout (log 4). -/
def hostAnswer (env : Env) (iova : Nat) : HostReply :=
  ((env.host.find? fun e => e.1 == iova).map (·.2)).getD (.fail .completionTimeout)

/-- The DETAIL0 code of a failed read (R423). -/
def hostFailCode : HostFail → Nat
  | .unsupportedRequest => 0 | .completerAbort => 1 | .completionTimeout => 2

/-- The running firmware's build identifier (R389). -/
def State.build (s : State) : Nat := s.hs.fw.build

/-- Bytes written at a device virtual address by the recorder, line by line; a page that does not translate takes nothing. -/
def recWrite (q : Nat) : (fuel : Nat) → (va : Nat) → List Byte → State → State
  | 0, _, _, s => s
  | n + 1, va, bs, s =>
    if bs.isEmpty then s else
      let o := va % 64
      let k := min (64 - o) bs.length
      let s := match walkRead q va true s with
        | (s, .fail _ _ _) => s
        | (s, .ok e) =>
          let r := mkReq q 0xFFF (s.part q).recd.tu.turn e.ro (e.at va / 64) .recorder s
          submit ({ r with chk := false }.writing (padTo 64 (List.replicate o 0 ++ bs.take k)) ((2 ^ k - 1) * 2 ^ o) 0) s
      recWrite q n (va + k) (bs.drop k) s

/-- Bytes written by the recorder. -/
def recPut (q va : Nat) (bs : List Byte) (s : State) : State := recWrite q (bs.length / 64 + 2) va bs s

/-- The first 256 bytes of a record (R428), with the mark of R62 as it stands. -/
def recHeader (q : Nat) (s : State) : List Byte :=
  let p := s.part q
  let r := p.recd
  let cfg := (p.cfg.map (·.raw)).getD []
  padTo 256 (leBytes 1 2 ++ leBytes r.mode 1
    ++ leBytes (b2n (r.nd || p.nd) + 2 * b2n r.fullstop + 4 * b2n r.incomplete + 8 * b2n r.isOpen) 1 ++ leBytes q 1
    ++ leBytes ((p.cfg.map (·.span)).getD 1) 1 ++ leBytes ((p.cfg.map (·.member)).getD 0) 1 ++ leBytes 0 1
    ++ leBytes s.build 8 ++ padTo 32 ((p.img.map (·.digest)).getD []) ++ sha256 cfg
    ++ leBytes r.first 8 ++ leBytes r.last 8 ++ leBytes r.off 8 ++ leBytes r.items 8 ++ leBytes r.epoch.toNat 8)

/-- The header rewritten (R428). -/
def recHead (q : Nat) (s : State) : State := recPut q (s.part q).recd.ringVa (recHeader q s) s

/-- The 32 bytes before an item's payload (R429). -/
def itemHeader (kind flags unit len turn key sub paylen : Nat) : List Byte :=
  leBytes kind 1 ++ leBytes flags 1 ++ leBytes unit 2 ++ leBytes len 4 ++ leBytes turn 8 ++ leBytes key 8 ++ leBytes sub 4
  ++ leBytes paylen 4

/-- An item is appended where it fits. -/
def recAppend (q : Nat) (bs : List Byte) (s : State) : State :=
  let r := (s.part q).recd
  recPut q (r.ringVa + r.off) bs (s.updPart q fun p => { p with recd := { p.recd with
    off := p.recd.off + bs.length, items := p.recd.items + 1 } })

/-- The record ends (R431): STOP code; the header says so. -/
def recStop (q code : Nat) (s : State) : State :=
  let r := (s.part q).recd
  if !r.isOpen then s
  else
    let s := s.updPart q fun p => { p with recd := { p.recd with
      isOpen := false, fullstop := decide (code = 1), incomplete := decide (code = 2) } }
    let s := if r.off + 32 ≤ r.ringLen then recAppend q (itemHeader 0x22 0 0xFFFF 0 (s.part q).turn 0 code 0) s else s
    recHead q s

/-- An item of an open record, unless it would pass the ring's end (R429, R431). -/
def recItem (q kind flags unit len turn key sub : Nat) (payload : List Byte) (s : State) : State :=
  let r := (s.part q).recd
  if !r.isOpen then s
  else if r.ringLen < r.off + 32 + payload.length then recStop q 1 s
  else recAppend q (itemHeader kind flags unit len turn key sub payload.length ++ payload) s

/-- Bytes padded with zeros to a multiple of 32. -/
def pad32 (bs : List Byte) : List Byte := padTo (ceilDiv bs.length 32 * 32) bs

/-- The bytes that the posts of a turn produced (R430). -/
def TurnEnd.bytes (e : TurnEnd) : List Byte := e.posts.flatMap (·.bytes)

/-- The 16 bytes of a post in a TURN_END payload (R430). -/
def postEntry (o : Post) : List Byte :=
  leBytes (o.stream % 64 + o.lcore % 2048 * 2 ^ 6 + o.bytes.length % 2 ^ 32 * 2 ^ 32) 8 ++ (sha256 o.bytes).take 8

/-- The payload of a TURN_END item (R430). -/
def TurnEnd.payload (e : TurnEnd) : List Byte := pad32 (sha256 e.bytes ++ e.posts.flatMap postEntry)

/-- The TURN_END item of the oldest turn that has ended, then the header (R427, R428); an incomplete turn ends the record
(R431). -/
def putTurnEnd (q : Nat) (e : TurnEnd) (s : State) : State :=
  if (s.part q).recd.isOpen then
    let s := recItem q 0x20 (2 * b2n e.nd + 4 * b2n e.incomplete) 0xFFFF e.posts.length e.turn 0 0 e.payload s
    if (s.part q).recd.isOpen then
      let s := s.updPart q fun p => { p with recd := { p.recd with last := e.turn, nd := p.recd.nd || e.nd } }
      if e.incomplete then recStop q 2 s else recHead q s
    else s
  else s

/-- The turn ends still to be written are written, and the record ends (R431). -/
def recEnd (q code : Nat) (s : State) : State :=
  if (s.part q).recd.isOpen then
    let l := (s.part q).turnEnds
    let s := l.foldl (fun s e => putTurnEnd q e s) (s.updPart q fun p => { p with turnEnds := [] })
    recStop q code s
  else s

/-- An input item of the open turn (R426, R427). -/
def recInput (q kind unit key sub : Nat) (content : List Byte) (s : State) : State :=
  let p := s.part q
  if p.recd.isOpen then
    let full := p.recd.mode == 2
    recItem q kind (b2n full) unit content.length p.turn key sub ((if full then pad32 content else []) ++ sha256 content) s
  else s

/-- The record begins (R405, R428): header block and START item, its first turn that of the partition. -/
def recStart (q mode va len : Nat) (s : State) : State :=
  let s := s.updPart q fun p => { p with recd := { p.recd with
    mode := mode, ringVa := va, ringLen := len, off := 4096, items := 0, first := p.turn, last := 0, nd := p.nd
    fullstop := false, incomplete := false, isOpen := true, epoch := s.hs.epoch, lines := []
    tu := { TurnUnit.reset with turn := p.turn - 1 } } }
  let s := recPut q va (padTo 4096 (recHeader q s)) s
  recItem q 0x21 0 0xFFFF 0 (s.part q).turn 0 0 [] s

/-- How often a (unit, line) pair has occurred in a list. -/
def occurrences (l : List (Nat × Nat × Nat)) (unit va : Nat) : Nat :=
  ((l.find? fun e => e.1 == unit && e.2.1 == va).map fun e => e.2.2).getD 0

/-- One more occurrence. -/
def occurred (l : List (Nat × Nat × Nat)) (unit va : Nat) : List (Nat × Nat × Nat) :=
  if l.any fun e => e.1 == unit && e.2.1 == va then
    l.map fun e => if e.1 == unit && e.2.1 == va then (e.1, e.2.1, e.2.2 + 1) else e
  else l ++ [(unit, va, 1)]

/-- A window line was delivered to a unit (R427). -/
def recLine (q unit va : Nat) (bytes : List Byte) (s : State) : State :=
  let n := occurrences (s.part q).recd.lines unit va
  if (s.part q).recd.isOpen then
    recInput q 0x11 unit va n bytes
      (s.updPart q fun p => { p with recd := { p.recd with lines := occurred p.recd.lines unit va } })
  else s

/-- A replay ends (R406): its command has a result, and a partition that still runs is stopped within its turn; one that the loss
of a die or a revocation has stopped stays as it is (R353, R425). -/
def replayEnd (q : Nat) (s : State) : State :=
  match (s.part q).replay with
  | none => s
  | some y =>
    let (st, d, u, m) := match y.div with
      | some (d, u, m) => (stDiverged, d, u, m)
      | none => (stOk, 0, s.freeVal.toNat, 0xFF)
    let res : MbxResult := ⟨st, padTo 24 (leBytes y.turns 8 ++ leBytes d 8 ++ leBytes u 2 ++ leBytes m 1)⟩
    let s := s.drew.updMbx y.port y.mbx fun b => { b with result := some res }
    let s := stopWithin q .stopped stBadCommand 0 s
    s.updPart q fun p => { p with replay := none, turnEnds := [] }

/-- A replay ends with a divergence (R434). -/
def replayDiverge (q turn unit stream : Nat) (s : State) : State :=
  replayEnd q (s.updPart q fun p => { p with replay := p.replay.map fun y => { y with div := some (turn, unit, stream) } })

/-- The item that serves the n-th request: its own occurrence, or the last recorded one (R433). -/
def pickItem (l : List RecItem) (n : Nat) : Option RecItem :=
  match l.find? fun i => i.sub == n with
  | some i => some i
  | none => l.getLast?

/-- A line of host memory in a replay: from the turn's window-line items, or from what a migration installed (R433). -/
def replayLine (q unit va pa : Nat) (y : Replay) (s : State) : State × Option Line :=
  let t := (s.part q).turn
  let n := occurrences y.lines unit va
  let its := y.items.filter fun i => i.kind == 0x11 && i.turn == t && i.unit == unit && i.key == va
  match pickItem its n with
  | some i =>
    if sha256 i.content = i.digest then
      (s.updPart q fun p => { p with replay := p.replay.map fun y => { y with lines := occurred y.lines unit va } },
        some ⟨padTo 64 i.content, 0⟩)
    else (replayDiverge q t 0xFFFE 0xFF s, none)
  | none =>
    if y.migrAt.any fun a => inside pa 64 a 0x200000 then (s, some ⟨Mem.read y.migrMem pa 64, 0⟩)
    else (replayDiverge q t 0xFFFD 0xFF s, none)

/-- A read of host memory by a unit fails (R484). -/
def hostReadFails (q unit va iova : Nat) (f : HostFail) (s : State) : State :=
  stopWithin q .faulted stHostLost 0 (logEvent { LogEntry.ofCode 0x0027 .stop with
    part := some q, src := 0x20, addr := va, unit := unit, d0 := hostFailCode f, d1 := iova } s)

/-- The reads through a host window by unit `unit` of a partition (R427, R433, R484): the line at device virtual address va
and physical address pa. -/
def hostLine (q unit va pa iova : Nat) (env : Env) (s : State) : State × Option Line :=
  match (s.part q).replay with
  | some y => replayLine q unit va pa y s
  | none =>
    match hostAnswer env iova with
    | .fail f => (hostReadFails q unit va iova f s, none)
    | .data bs => let l := padTo 64 bs; (recLine q unit va l s, some ⟨l, 0⟩)

/-- The first place at which a turn's posts differ from those recorded (R434): the post's core and stream. -/
def firstDiff : List (List Byte) → List (List Byte) → Option (Nat × Nat)
  | [], [] => none
  | a :: as, b :: bs => if a = b then firstDiff as bs else some (postName a)
  | a :: _, [] => some (postName a)
  | [], b :: _ => some (postName b)
where
  postName (e : List Byte) : Nat × Nat := (fieldAt e 0 4 / 64 % 2048, fieldAt e 0 4 % 64)

/-- The post entries of a TURN_END payload. -/
def entriesOf (pay : List Byte) (n : Nat) : List (List Byte) := (List.range n).map fun k => (pay.drop (32 + 16 * k)).take 16

/-- A replayed turn has been compared. -/
def countTurn (q : Nat) (s : State) : State :=
  s.updPart q fun p => { p with replay := p.replay.map fun y => { y with turns := y.turns + 1 } }

/-- The end of a replayed turn against the recorded one (R434). -/
def compareTurn (q : Nat) (e : TurnEnd) (y : Replay) (s : State) : State :=
  let finish := fun (s : State) => if y.last ≤ e.turn ∨ e.incomplete = true then replayEnd q s else s
  match y.items.find? fun i => i.kind == 0x20 && i.turn == e.turn with
  | none => finish s
  | some i =>
    if bitOf i.flags 2 then finish s
    else if e.incomplete then replayDiverge q e.turn 0xFFFC 0xFF s
    else
      let s := countTurn q s
      match firstDiff (e.posts.map postEntry) (entriesOf i.content i.len) with
      | some (u, m) => replayDiverge q e.turn u m s
      | none => if i.content.take 32 = sha256 e.bytes then finish s else replayDiverge q e.turn 0xFFFF 0xFF s

/-- TURN_END_ITEM (R427, R430, R434): the oldest turn that has ended is recorded, and in a replay compared. -/
def execTurnEndItem (q : PartId) (s : State) : Answer :=
  .next (match (s.part q).turnEnds with
    | [] => s
    | e :: rest =>
      if s.running then
        let s := putTurnEnd q e (s.updPart q fun p => { p with turnEnds := rest })
        (match (s.part q).replay with
          | some y => compareTurn q e y s
          | none => s)
      else s)

end Sys2Proof.Machine
end

