-- ==== Sys2Proof/Machine/Direct.lean ====
section
/-! DEFINITION. Lines that come back from a memory to others than cores and movers: to the feeders of a matrix pass, which ask for them
here (R211, R215, R243, R294), to a BAR2 read (R357), and to a frame's fetch (R327, R372). -/

namespace Sys2Proof.Machine

/-- A pass of a core, by its place in firing order. -/
def Core.pass? (x : Core) (fire : Nat) : Option PassJob := x.jobs.passes.find? fun p => p.fire == fire

/-- A pass of a core changed. -/
def updPass (fire : Nat) (f : PassJob → PassJob) (x : Core) : Core :=
  { x with jobs := { x.jobs with passes := x.jobs.passes.map fun p => if p.fire = fire then f p else p } }

/-- What came for the line that a feeder has waited for longest at this address. -/
def putGot (unit va : Nat) (g : FeedGot) : List FeedRead → List FeedRead
  | [] => []
  | r :: rest => if r.feeder = unit ∧ r.va = va ∧ r.got = .wait then { r with got := g } :: rest else r :: putGot unit va g rest

/-- A line has come for a feeder of a core. -/
def feederGot (c fire unit va : Nat) (l : Line) (s : State) : State :=
  s.updCore c (updPass fire fun j => { j with reads := putGot unit va (.line l) j.reads })

/-- A line that a feeder waits for will not come: its access has not taken effect (R53, R290), or the host has not answered
(R484). -/
def feederLost (c fire : Nat) (s : State) : State := s.updCore c (updPass fire fun j => { j with lost := true })

/-- A feeder of a core asks for the line at a device virtual address (R211, R215, R243, R323): it is on its way, has failed its
translation, or waits for a migration, which the answer says. -/
def askLine (c q fire unit va : Nat) (env : Env) (s : State) : State × Bool :=
  let put := fun (g : FeedGot) (s : State) => s.updCore c (updPass fire fun j => { j with reads := j.reads ++ [⟨unit, va, g⟩] })
  match translateFar (.core (coreNum c)) q va false s with
  | (s, .fail cause _ _) => if cause = xMigrating then (s, true) else (put .fault s, false)
  | (s, .ok e) =>
    let pa := e.at va
    let s := countWindow (dieOfCore c) q va pa (tlbInstall (.core (coreNum c)) e s)
    match locate pa with
    | .host _ iova =>
      (match hostLine q (s.core c).lcore va pa iova env s with
        | (s, some l) => (put (.line l) s, false)
        | (s, none) => (feederLost c fire (put .wait s), false))
    | _ =>
      let s := put .wait s
      (submit (mkReq q (s.core c).lcore (s.core c).tu.turn e.ro (pa / 64) (.feeder c fire unit va) s) s, false)

/-- What a feeder's queue gives for a line: what came of it, and the queue without the lines that the feeder is past. -/
def takeRead (unit va : Nat) : List FeedRead → Option (FeedGot × List FeedRead)
  | [] => none
  | r :: rest =>
    if r.feeder ≠ unit then (takeRead unit va rest).map fun g => (g.1, r :: g.2)
    else if r.va = va then some (r.got, r :: rest)
    else takeRead unit va rest

/-- What a line gives a BAR2 read: an uncorrectable one reads all ones (R357). -/
def Bar2Line.take (l : Line) (x : Bar2Line) : Bar2Line :=
  { x with got := some (if l.bad = 0 then ((l.bytes.drop x.first).take x.len, false) else (List.replicate x.len 0xFF, true)) }

/-- A BAR2 read completes (R357): data, whether poisoned, and what counts. -/
def bar2End (p : PortId) (r : Bar2Read) (s : State) : State :=
  let got := r.lines.map fun x => x.got.getD ([], false)
  let ue := got.any (·.2)
  let s := s.emit (.bar2Data p (got.flatMap (·.1)) ue)
  let s := if ue then portErr p (fun x => { x with bar2Ue := bump16 x.bar2Ue }) s else s
  if r.unmapped then portErr p (fun x => { x with bar2Unmap := bump16 x.bar2Unmap }) s else s

/-- Every line of a BAR2 read has come. -/
def Bar2Read.whole (r : Bar2Read) : Bool := r.lines.all fun x => x.got.isSome

/-- A line comes for a BAR2 read, which completes with its last one. -/
def bar2Got (p : PortId) (k line : Nat) (l : Line) (s : State) : State :=
  match (s.port p).reads.find? fun r => r.k == k with
  | some r =>
    let r : Bar2Read := { r with lines := r.lines.map fun x => if x.line = line ∧ x.got = none then x.take l else x }
    if r.whole then bar2End p r (s.updPort p fun y => { y with reads := y.reads.filter fun r => r.k != k })
    else s.updPort p fun y => { y with reads := y.reads.map fun x => if x.k = k then r else x }
  | none => s

/-- An open stream changed. -/
def updStream (q n : Nat) (f : Stream → Stream) (s : State) : State :=
  s.updPart q fun p => { p with streams := SMap.upd none n (fun y => y.map f) p.streams }

/-- A line of a frame comes from HBM (R327). -/
def frameGot (q n va : Nat) (l : Line) (s : State) : State :=
  updStream q n (fun y => { y with fetch := y.fetch.map fun f => { f with
    lines := f.lines.map fun e => if e.1 = va ∧ e.2 = none then (va, some l) else e } }) s

end Sys2Proof.Machine
end

