-- ==== Sys2Proof/Machine/Stream.lean ====
section
/-! DEFINITION. Tensor-stream runs and element programs (R171 to R191): the checks when a run fires, the evaluation of its
elements, and its summary record. -/

namespace Sys2Proof.Machine

/-- An operation word of an element program (R178). -/
structure EOp where
  w : Word
deriving DecidableEq, Repr

namespace EOp
def opc (o : EOp) : Nat := wf64 o.w 63 58
def ty (o : EOp) : Option VTy := VTy.ofCode (wf64 o.w 57 54)
def dst (o : EOp) : Nat := wf64 o.w 53 50
def src (o : EOp) (i : Nat) : Nat := wf64 o.w (49 - 4 * i) (46 - 4 * i)
def rnd (o : EOp) : Nat := wf64 o.w 37 36
def imm (o : EOp) : Nat := wf64 o.w 31 0
def isSt (o : EOp) : Bool := o.opc == 0x38
def isSrnd (o : EOp) : Bool := o.opc == 0x39
end EOp

/-- What IMM holds (R178, R179). -/
inductive EImm | none | shift | cvt
deriving DecidableEq, Repr

/-- Sources, IMM and allowed types of an operation code (R179). -/
def eopInfo : Nat → Option (Nat × EImm × (VTy → Bool))
  | 0x00 => some (0, .none, fun _ => true)
  | 0x01 => some (2, .none, fun _ => true) | 0x02 => some (2, .none, fun _ => true)
  | 0x03 => some (2, .none, fun _ => true) | 0x04 => some (3, .none, fun _ => true)
  | 0x05 => some (2, .none, fun _ => true) | 0x06 => some (2, .none, fun _ => true)
  | 0x07 => some (1, .none, fun _ => true) | 0x08 => some (1, .none, fun _ => true)
  | 0x09 => some (2, .none, fun t => t == .i8 || t == .i16 || t == .i32)
  | 0x0A => some (2, .none, fun t => t == .i8 || t == .i16 || t == .i32)
  | 0x0B => some (2, .shift, fun t => t == .i16 || t == .i32)
  | 0x10 => some (2, .none, fun _ => true) | 0x11 => some (2, .none, fun _ => true)
  | 0x12 => some (2, .none, fun _ => true) | 0x13 => some (2, .none, VTy.isFloat)
  | 0x14 => some (3, .none, fun t => t == .i64)
  | 0x18 => some (2, .none, fun t => !t.isFloat) | 0x19 => some (2, .none, fun t => !t.isFloat)
  | 0x1A => some (2, .none, fun t => !t.isFloat)
  | 0x1B => some (1, .shift, fun t => !t.isFloat) | 0x1C => some (1, .shift, fun t => !t.isFloat)
  | 0x1D => some (1, .shift, fun t => !t.isFloat)
  | 0x20 => some (1, .cvt, fun _ => true)
  | 0x28 => some (1, .none, VTy.isFloat) | 0x29 => some (1, .none, VTy.isFloat)
  | 0x2A => some (1, .none, VTy.isFloat) | 0x2B => some (1, .none, VTy.isFloat)
  | 0x30 => some (1, .none, fun t => t == .i32 || t == .fp32)
  | 0x31 => some (0, .none, fun t => t == .i64)
  | 0x38 => some (1, .none, fun _ => true)
  | 0x39 => some (1, .none, fun t => t == .fp32 || t == .fp64)
  | _ => none

/-- The pairings of SRND (R185). -/
def srndPair (src dst : VTy) : Bool :=
  (src == .fp64 && dst == .fp32) || (src == .fp32 && (dst == .bf16 || dst == .fp16))

/-- A source selector that names an input names one that is present (R182). -/
def selOk (nin sel : Nat) : Bool := decide (sel < 8) || decide (0xB ≤ sel) || decide (sel - 8 < nin)

/-- An operation word is well formed in a run with these inputs, output type, UPD and LUT (R178, R179, R182, R185). -/
def EOp.ok (o : EOp) (nin : Nat) (out : Option VTy) (upd lut : Bool) : Bool :=
  match eopInfo o.opc, o.ty with
  | some (n, k, tyOk), some t =>
    tyOk t && decide (wf64 o.w 35 32 = 0)
    && (if o.isSt || o.isSrnd then o.dst == 0 else decide (o.dst < 8))
    && ((List.range 3).all fun i => if i < n then selOk nin (o.src i) else o.src i == 0)
    && (if o.opc = 0x0B then o.rnd != 3 else o.rnd == 0)
    && (match k with
      | .none => o.imm == 0
      | .shift => decide (o.imm < 64)
      | .cvt => decide (o.imm < 32) && decide (o.imm % 16 ≤ 7))
    && (!o.isSt || out == some t) && (!o.isSrnd || (upd && (out.any fun d => srndPair t d)))
    && (o.opc != 0x30 || lut)
  | _, _ => false

/-- An element program with its constants and table (R177). -/
structure EProg where
  hdr : Word
  ops : List EOp
  k : List TWord
  lut : List Nat

/-- Header fields (R177). -/
def pNops (h : Word) : Nat := wf64 h 4 0 + 1
def pUpd (h : Word) : Bool := wbit h 5
def pLut (h : Word) : Bool := wbit h 6
def pArf (h : Word) : Bool := wbit h 7
def pSums (h : Word) : Nat := wf64 h 11 8

/-- The words of a program block that a run reads, by number (R177). -/
def blockWords (h : Word) : List Nat :=
  List.range (pNops h + 1) ++ [33, 34, 35, 36] ++ if pLut h then (List.range 128).map (· + 37) else []

/-- The block at an address of a core store. -/
def progAt (x : Core) (a : Nat) : EProg :=
  let w := fun i => x.word (a / 8 + i)
  let h := (w 0).data
  { hdr := h
    ops := (List.range (pNops h)).map fun i => ⟨(w (i + 1)).data⟩
    k := (List.range 4).map fun i => w (33 + i)
    lut := if pLut h then (List.range 128).flatMap fun i => [wf64 (w (37 + i)).data 31 0, wf64 (w (37 + i)).data 63 32] else [] }

/-- The first number of a list that p picks, as a descriptor or block address. -/
def firstAt (base : Nat) (l : List Nat) (p : Nat → Bool) : Option Nat := (l.find? p).map fun i => base + 8 * i

/-- Descriptor check 3 of R182: the words that break R173 to R175; for too many elements the EXTENTS word (DESIGN CHOICE,
log 82). -/
def runFieldBad (d : RunDesc) (i : Nat) : Bool :=
  let w := d.word i
  let tensorBad := fun (n : Nat) =>
    let t := d.tensor n
    if d.present.contains n then
      if i % 2 = 0 then t.ty.isNone || decide (wf64 t.base 48 45 ≠ 0) || (n == 4 && t.ty != some .i8) else false
    else w != 0
  match i with
  | 0 => decide (wf64 w 63 8 ≠ 0) || decide (d.ndim = 0) || decide (5 < d.ndim)
  | 1 => decide (wf64 w 63 60 ≠ 0) || ((List.range 5).any fun k => decide (d.ndim ≤ k) && decide (d.ext k ≠ 1))
      || decide (0xFFFFFFFE < d.count)
  | 2 => decide (wf64 w 63 22 ≠ 0)
  | 3 => decide (wf64 w 31 22 ≠ 0) || decide (wf64 w 63 48 ≠ 0)
  | 14 => decide (wf64 w 63 32 ≠ 0)
  | 15 => false
  | n => tensorBad ((n - 4) / 2)

/-- Some range of a list meets [a, a + n). -/
def RunDesc.meets (d : RunDesc) (a n : Nat) (ts : List Nat) : Bool :=
  ts.any fun k => overlaps (d.tensor k).addr (d.tensor k).limit a n

/-- Descriptor check 4 of R182: the words whose range is misplaced. Of the several words that one failure concerns the model names
one (DESIGN CHOICE, log 82): the SUMMARY word for a summary slot that is misplaced or overlaps a range, the OUT base word for an
output range that overlaps the program block or the descriptor. -/
def runRangeBad (d : RunDesc) (h plen : Nat) (i : Nat) : Bool :=
  match i with
  | 2 => !aligned d.paddr 64 || decide (tableBase < d.paddr + plen)
  | 3 => !aligned d.saddr 64 || d.meets d.saddr 64 d.present || overlaps d.saddr 64 d.paddr plen
      || overlaps d.saddr 64 h 128
  | n =>
    let k := (n - 4) / 2
    if 4 ≤ n ∧ n % 2 = 0 ∧ d.present.contains k then
      let t := d.tensor k
      !aligned t.addr ((t.ty.map VTy.bytes).getD 1) || decide (tableBase < t.addr + t.limit)
      || (k == 3 && (overlaps t.addr t.limit d.paddr plen || overlaps t.addr t.limit h 128))
    else false

/-- Program check 6 of R182: the block words in error; for a missing ST or SRND the header, for a second one that operation (DESIGN
CHOICE, log 82). -/
def progBad (x : Core) (d : RunDesc) (p : EProg) (i : Nat) : Bool :=
  let w := x.word (d.paddr / 8 + i)
  let out := if d.nout then (d.tensor 3).ty else none
  let n := p.ops.length
  let isOut := fun (o : EOp) => o.isSt || o.isSrnd
  if i = 0 then
    w.tag != 0 || decide (wf64 w.data 63 12 ≠ 0) || decide (8 < pSums w.data) || (pSums w.data == 8 && !d.nout)
    || (d.nout && !p.ops.any isOut)
  else if i ≤ n then
    let o : EOp := ⟨w.data⟩
    w.tag != 0 || !o.ok d.nin out (pUpd p.hdr) (pLut p.hdr)
    || (isOut o && (!d.nout || (p.ops.take (i - 1)).any isOut))
  else if i < 37 then w.tag != 0 && w.tag != 1
  else w.tag != 0

/-- Sub-cause and address of the first of a list of words, as numbers from a base address, that p picks. -/
def failAt (sub base : Nat) (l : List Nat) (p : Nat → Bool) : Option (Nat × Nat) := (firstAt base l p).map fun a => (sub, a)

/-- Fire-time checks 1 to 4 of R182 on a core whose descriptor words have been read: sub-cause and address of the first that
fails. -/
def descCheck (x : Core) (h : Nat) : Option (Nat × Nat) :=
  let d : RunDesc := ⟨x.twords h 16⟩
  let tag := fun i => (x.word (h / 8 + i)).tag
  (failAt 0x17 h (List.range 16) fun i => tag i == tagPoison).orElse fun _ =>
  (failAt 0x10 h (List.range 16) fun i => tag i != 0 && !(i == 15 && tag i == 1)).orElse fun _ =>
  (failAt 0x11 h (List.range 16) (runFieldBad d)).orElse fun _ =>
  failAt 0x12 h (List.range 14) (runRangeBad d h (RunDesc.progBytes (progAt x d.paddr).hdr))

/-- Fire-time checks 5 and 6 of R182 on a core whose block words have been read. -/
def blockCheck (x : Core) (h : Nat) : Option (Nat × Nat) :=
  let d : RunDesc := ⟨x.twords h 16⟩
  let p := progAt x d.paddr
  (failAt 0x17 d.paddr (blockWords p.hdr) fun i => (x.word (d.paddr / 8 + i)).tag == tagPoison).orElse fun _ =>
  failAt 0x13 d.paddr (blockWords p.hdr) (progBad x d p)

/-- The first run of a turn to fault is what vector 6 reports, once in the turn (R187). -/
def setVfault (sub : Nat) (addr : Word) (x : Core) : Core :=
  if x.pend.vdone then x else { x with pend := { x.pend with vfault := some (sub, addr), vdone := true } }

/-- A run that has passed its checks joins the jobs of its core. -/
def addRun (e : ArmEntry) (x : Core) : Core :=
  let d : RunDesc := ⟨x.twords e.handle 16⟩
  let words := (blockWords (progAt x d.paddr).hdr).length
  let j : RunJob := ⟨e.seq, x.fireSeq, x.tu.turn, e.handle, x.twords e.handle 16,
    (List.range (max words 37 + 128)).map fun i => x.word (d.paddr / 8 + i), e.rd, e.wr⟩
  { x with jobs := { x.jobs with runs := x.jobs.runs ++ [j] } }

/-- A tensor-stream run fires (R182): the descriptor is read and checked, then the program block. -/
def fireRun (c : Nat) (e : ArmEntry) (s : State) : State :=
  let s := (touchRun c (e.handle / 8) 16 s).updCore c fun x => { x with fireSeq := x.fireSeq + 1 }
  match descCheck (s.core c) e.handle with
  | some (sub, addr) => s.updCore c (setVfault sub (BitVec.ofNat 64 addr))
  | none =>
    let d : RunDesc := ⟨(s.core c).twords e.handle 16⟩
    let s := touchAll c ((blockWords (progAt (s.core c) d.paddr).hdr).map (d.paddr / 8 + ·)) .read s
    match blockCheck (s.core c) e.handle with
    | some (sub, addr) => s.updCore c (setVfault sub (BitVec.ofNat 64 addr))
    | none => s.updCore c (addRun e)

/-- The program of a run as its core read it when it fired. -/
def RunJob.progOf (j : RunJob) : EProg :=
  let w := fun i => j.prog.getD i TWord.zero
  let h := (w 0).data
  { hdr := h
    ops := (List.range (pNops h)).map fun i => ⟨(w (i + 1)).data⟩
    k := (List.range 4).map fun i => w (33 + i)
    lut := if pLut h then (List.range 128).flatMap fun i => [wf64 (w (37 + i)).data 31 0, wf64 (w (37 + i)).data 63 32] else [] }

/-- The indices of element e (R174). -/
def RunDesc.index (d : RunDesc) (e : Nat) : List Nat :=
  [e % d.ext 0, e / d.ext 0 % d.ext 1, e / (d.ext 0 * d.ext 1) % d.ext 2,
    e / (d.ext 0 * d.ext 1 * d.ext 2) % d.ext 3, e / (d.ext 0 * d.ext 1 * d.ext 2 * d.ext 3)]

/-- The byte offset of an element in a tensor (R176). -/
def Tensor.off (t : Tensor) (w : Nat) (ix : List Nat) : Int :=
  let i := fun k => ((ix.getD k 0 : Nat) : Int)
  (w / 8 : Nat) * (i 0 * t.s0 + i 1 * t.st 1 + (i 2 * t.st 2 + i 3 * t.st 3 + i 4 * t.st 4) * 2 ^ t.ssh)

/-- An element's program in progress: temporaries with the type that last wrote each, output, whether an operation
saturated, substitutions, an arithmetic fault. -/
structure EvSt where
  temps : List (Nat × VTy)
  out : Option Nat
  sat : Bool
  exc : Nat
  fault : Option Nat

/-- The start of an element (R180). -/
def EvSt.start : EvSt := ⟨List.replicate 8 (0, .i64), none, false, 0, none⟩

/-- The result of an operation: value and type, its condition (0 none, 1 invalid, 2 overflow, 3 integer range), the value
that quiet mode puts in its place, whether it saturated (R181, R186, R188). -/
structure EOut where
  v : Nat
  ty : VTy
  cond : Nat
  quiet : Nat
  sat : Bool

/-- A float result with its condition (R181). -/
def floatOut (t : VTy) (ops : List FVal) (r : Nat) : EOut :=
  let v := t.fmt.decode r
  if v.isNan && !ops.any FVal.isNan then ⟨r, t, 1, 0, false⟩
  else if v.isInf && ops.all FVal.isFinite then ⟨r, t, 2, t.fmt.signBit v.sign + t.fmt.maxCode, false⟩
  else ⟨r, t, 0, r, false⟩

/-- An integer result with its condition. -/
def intOut (t : VTy) (exact : Int) : EOut :=
  let w := t.width
  ⟨wrapTo w exact, t, if satS w exact = exact then 0 else 3, wrapTo w (satS w exact), false⟩

/-- A plain result. -/
def plainOut (t : VTy) (v : Nat) : EOut := ⟨v, t, 0, v, false⟩

/-- A saturating result. -/
def satOut (t : VTy) (exact : Int) : EOut :=
  let r := satS t.width exact
  ⟨wrapTo t.width r, t, 0, wrapTo t.width r, decide (r ≠ exact)⟩

/-- A two-operand arithmetic result of either kind. -/
def arithOut (o : EBin) (t : VTy) (a b : Nat) : EOut :=
  if t.isFloat then floatOut t [t.fmt.decode a, t.fmt.decode b] (elemBin o t a b)
  else intOut t (intBin o (sextOf t.width a) (sextOf t.width b))

/-- The result of an operation other than NOP, ST and SRND (R179 to R181); e the element's linear index. Its type is the operation's
own, in which R189 reads a temporary that it wrote: of a compare too, whose 1 or 0 is then read in the type that it compared
(DEDUCED, log 82). -/
def eopOut (o : EOp) (t : VTy) (lut : List Nat) (e : Nat) (a b c : Nat) : EOut :=
  let w := t.width
  let bool := fun (p : Bool) => plainOut t (b2n p)
  let fn := fun (f : FVal → FVal) => floatOut t [t.fmt.decode a] (t.fmt.encode (f (t.fmt.decode a)))
  match o.opc with
  | 0x01 => arithOut .add t a b
  | 0x02 => arithOut .sub t a b
  | 0x03 => arithOut .mul t a b
  | 0x04 =>
    if t.isFloat then floatOut t [t.fmt.decode a, t.fmt.decode b, t.fmt.decode c] (elemFma t a b c)
    else intOut t (sextOf w a * sextOf w b + sextOf w c)
  | 0x05 => plainOut t (elemBin .min t a b)
  | 0x06 => plainOut t (elemBin .max t a b)
  | 0x07 => if t.isFloat then plainOut t (elemAbs t a) else intOut t ((sextOf w a).natAbs : Int)
  | 0x08 => if t.isFloat then plainOut t (elemNeg t a) else intOut t (-(sextOf w a))
  | 0x09 => satOut t (sextOf w a + sextOf w b)
  | 0x0A => satOut t (sextOf w a - sextOf w b)
  | 0x0B => satOut t (rshift (sextOf w a * sextOf w b) o.imm ((QRnd.ofCode o.rnd).getD .truncate))
  | 0x10 => bool (elemCmp .eq t a b)
  | 0x11 => bool (elemCmp .lt t a b)
  | 0x12 => bool (elemCmp .le t a b)
  | 0x13 => bool (elemCmp .un t a b)
  | 0x14 => plainOut t (if a ≠ 0 then b else c)
  | 0x18 => plainOut t (a &&& b)
  | 0x19 => plainOut t (a ||| b)
  | 0x1A => plainOut t (a ^^^ b)
  | 0x1B => plainOut t (elemShl t a o.imm)
  | 0x1C => plainOut t (elemShr t a o.imm)
  | 0x1D => plainOut t (elemSar t a o.imm)
  | 0x20 =>
    let src := (VTy.ofCode (o.imm % 16)).getD .i64
    let r := if bitOf o.imm 4 then FFmt.Rnd.towardZero else .nearestEven
    let v := elemCvt src t r a
    if t.isFloat then floatOut t [elemVal src a] v else { plainOut t v with sat := cvtSaturates src t r a }
  | 0x28 => fn FVal.exp2
  | 0x29 => fn FVal.log2
  | 0x2A => fn FVal.rcp
  | 0x2B => fn FVal.rsqrt
  | 0x30 => plainOut t (lut.getD (a % 256) 0)
  | _ => plainOut t e

/-- A source selector's value in the type in which the operation reads it (R178, R180). -/
def srcVal (ev : EvSt) (ins : List Nat) (p : TWord) (k : List TWord) (t : VTy) (sel : Nat) : Nat :=
  if sel < 8 then (ev.temps.getD sel (0, .i64)).1 % 2 ^ t.width
  else if sel < 0xB then ins.getD (sel - 8) 0 % 2 ^ t.width
  else if sel = 0xB then elemScalar t p
  else elemScalar t (k.getD (sel - 0xC) TWord.zero)

/-- What an element's program needs to know of its run. -/
structure RunCx where
  prog : EProg
  scalar : TWord
  quiet : Bool
  out : VTy
  seed : Nat
  tid : Nat
  step : Nat

/-- One operation of an element (R180, R186). -/
def evalOp (r : RunCx) (e : Nat) (ins : List Nat) (ev : EvSt) (o : EOp) : EvSt :=
  if ev.fault.isSome then ev
  else match o.ty with
  | none => ev
  | some t =>
    let rt := if o.opc = 0x20 then (VTy.ofCode (o.imm % 16)).getD t else t
    let v := fun i => srcVal ev ins r.scalar r.prog.k rt (o.src i)
    if o.opc = 0 then ev
    else if o.isSt then { ev with out := some (v 0) }
    else if o.isSrnd then
      let (x, sat) := stochRound t r.out (v 0) (srgen r.seed r.tid e r.step)
      { ev with out := some x, sat := ev.sat || sat }
    else
      let y := eopOut o t r.prog.lut e (v 0) (v 1) (v 2)
      let ev := { ev with sat := ev.sat || y.sat }
      if r.quiet then
        { ev with temps := modAt o.dst (fun _ => (y.quiet, y.ty)) ev.temps, exc := ev.exc + b2n (decide (y.cond ≠ 0)) }
      else if pArf r.prog.hdr && decide (y.cond = 1) then { ev with fault := some 0x18 }
      else if pArf r.prog.hdr && decide (y.cond = 2) then { ev with fault := some 0x19 }
      else { ev with temps := modAt o.dst (fun _ => (y.v, y.ty)) ev.temps }

/-- A run in progress: the module, the output word being formed, every output word's mask and bytes, the counts of R188, the
fault that stopped it (element, sub-cause, address). -/
structure RunSt where
  s : State
  buf : Option (Nat × Nat × List Byte)
  full : SMap (Nat × List Byte)
  nelem : Nat
  nonfin : Nat
  zero : Nat
  sat : Nat
  exc : Nat
  oor : Nat
  least : Option Nat
  most : Option Nat
  lanes : List (Option Nat)
  any : Bool
  all : Bool
  fault : Option (Nat × Nat × Word)

/-- A run before its first element. -/
def RunSt.start (s : State) : RunSt :=
  ⟨s, none, [], 0, 0, 0, 0, 0, 0, none, none, List.replicate 16 none, false, true, none⟩

/-- The output word being formed is written (R163, R183). -/
def RunSt.flush (c : Nat) (tag : Tag) (r : RunSt) : RunSt :=
  match r.buf with
  | some (w, mask, bs) => { r with s := maskedWord c w mask bs tag r.s, buf := none }
  | none => r

/-- What an input element meets (R186). -/
inductive InR | ok (v : Nat) | oor | tag | poison
deriving DecidableEq, Repr

/-- An element of a tensor is read (R176, R183). -/
def readElem (c : Nat) (tag : Tag) (t : Tensor) (ix : List Nat) (r : RunSt) : RunSt × InR :=
  let ty := t.ty.getD .i8
  let o := t.off ty.width ix
  if o < 0 ∨ (t.limit : Int) < o + ty.bytes then (r, .oor)
  else
    let a := t.addr + o.toNat
    let r := if r.buf.any fun b => b.1 == a / 8 then r.flush c tag else r
    let s := touch c (a / 8) .read r.s
    let w := (s.core c).word (a / 8)
    let r := { r with s := s }
    if w.tag = tagPoison then (r, .poison)
    else if w.tag ≠ ty.tag then (r, .tag)
    else (r, .ok (w.data.toNat / 2 ^ (8 * (a % 8)) % 2 ^ ty.width))

/-- The address that a fault of R187 reports. -/
def faultAddr (t : Tensor) (ix : List Nat) : Word := wordOfInt (t.addr + t.off (t.ty.getD .i8).width ix)

/-- A count of a summary record goes up (R188). -/
def up32 (n k : Nat) : Nat := min (n + k) (2 ^ 32 - 1)

/-- The inputs of an element in order (R183, R186): their values, or the run stopped. -/
def readInputs (c : Nat) (tag : Tag) (d : RunDesc) (quiet : Bool) (e : Nat) (ix : List Nat) :
    List Nat → List Nat → RunSt → RunSt × List Nat
  | [], acc, r => (r, acc)
  | n :: rest, acc, r =>
    let t := d.tensor n
    match readElem c tag t ix r with
    | (r, .ok v) => readInputs c tag d quiet e ix rest (acc ++ [v]) r
    | (r, .poison) => ({ r with fault := some (e, 0x17, faultAddr t ix) }, acc)
    | (r, .oor) =>
      if quiet then readInputs c tag d quiet e ix rest (acc ++ [0]) { r with oor := up32 r.oor 1 }
      else ({ r with fault := some (e, 0x14, faultAddr t ix) }, acc)
    | (r, .tag) =>
      if quiet then readInputs c tag d quiet e ix rest (acc ++ [0]) { r with oor := up32 r.oor 1 }
      else ({ r with fault := some (e, 0x16, faultAddr t ix) }, acc)

/-- Whether an element is active (R184). -/
def maskActive (c : Nat) (tag : Tag) (d : RunDesc) (quiet : Bool) (e : Nat) (ix : List Nat) (r : RunSt) : RunSt × Bool :=
  if !d.mask then (r, true)
  else
    let t := d.tensor 4
    match readElem c tag t ix r with
    | (r, .ok v) => (r, decide (v ≠ 0))
    | (r, .oor) => ({ r with oor := up32 r.oor 1 }, false)
    | (r, .poison) => ({ r with fault := some (e, 0x17, faultAddr t ix) }, false)
    | (r, .tag) => if quiet then ({ r with oor := up32 r.oor 1 }, false)
        else ({ r with fault := some (e, 0x16, faultAddr t ix) }, false)

/-- An output element is written at address a (R183): its word is formed until another word's turn. -/
def writeElem (c : Nat) (tag : Tag) (n a v : Nat) (r : RunSt) : RunSt :=
  let w := a / 8
  let m := (2 ^ n - 1) * 2 ^ (a % 8)
  let new := overlay (List.replicate 8 0) (a % 8) (leBytes v n)
  let r := if r.buf.any fun b => b.1 != w then r.flush c tag else r
  let (bm, bb) := match r.buf with
    | some (_, bm, bb) => (bm, bb)
    | none => (0, List.replicate 8 0)
  let (fm, fb) := SMap.get (0, List.replicate 8 0) w r.full
  { r with
    buf := some (w, bm ||| m, maskBytes m bb new)
    full := SMap.set (0, []) w (fm ||| m, maskBytes m fb new) r.full }

/-- An observed value as FP64 (R189). -/
def toFp64 (t : VTy) (v : Nat) : Nat := fp64.encode (elemVal t v)

/-- The summary observes a value (R188, R189). -/
def observe (e : Nat) (f : Nat) (r : RunSt) : RunSt :=
  let v := fp64.decode f
  let fin := v.isFinite
  let nz := !v.isZero
  let pick := fun (o : EBin) (m : Option Nat) => if fin then some (match m with
    | none => f
    | some g => elemBin o .fp64 g f) else m
  { r with
    nelem := up32 r.nelem 1
    nonfin := up32 r.nonfin (b2n !fin)
    zero := up32 r.zero (b2n v.isZero)
    least := pick .min r.least
    most := pick .max r.most
    lanes := if fin then modAt (e % 16) (fun l => some (match l with
      | none => f
      | some g => elemBin .add .fp64 g f)) r.lanes else r.lanes
    any := r.any || nz
    all := r.all && nz }

/-- The element's output, observation and counts, once its program has ended (R183, R186, R189). -/
def endElem (c : Nat) (tag : Tag) (d : RunDesc) (rc : RunCx) (e : Nat) (ix : List Nat) (ev : EvSt) (r : RunSt) : RunSt :=
  let t := d.tensor 3
  let o := t.off rc.out.width ix
  let inR := decide (0 ≤ o) && decide (o + rc.out.bytes ≤ (t.limit : Int))
  match ev.fault with
  | some f => { r with fault := some (e, f, 0) }
  | none =>
    if d.nout && !inR && !rc.quiet then { r with fault := some (e, 0x15, faultAddr t ix) }
    else
      let r := if d.nout then
          (if inR then writeElem c tag rc.out.bytes (t.addr + o.toNat) (ev.out.getD 0) r else { r with oor := up32 r.oor 1 })
        else r
      let sums := pSums rc.prog.hdr
      let (v, ty) := if sums = 8 then (ev.out.getD 0, rc.out) else ev.temps.getD sums (0, .i64)
      observe e (toFp64 ty v) { r with sat := up32 r.sat (b2n ev.sat), exc := up32 r.exc ev.exc }

/-- One element of a run (R183, R184); one that faults adds to no count (R187). -/
def runElem (c : Nat) (tag : Tag) (d : RunDesc) (rc : RunCx) (r : RunSt) (e : Nat) : RunSt :=
  if r.fault.isSome then r
  else
    let ix := d.index e
    match maskActive c tag d rc.quiet e ix r with
    | (r, false) => r
    | (r, true) =>
      let (t, ins) := readInputs c tag d rc.quiet e ix (List.range (min d.nin 3)) [] r
      if t.fault.isSome then { t with oor := r.oor }
      else endElem c tag d rc e ix (rc.prog.ops.foldl (evalOp rc e ins) EvSt.start) t

/-- Words of which every element was written are written whole (R183). -/
def wholeWords (c : Nat) (tag : Tag) (r : RunSt) : State :=
  r.full.foldl (fun s e => if e.2.1 % 256 = 255 then s.updCore c (putWord e.1 ⟨BitVec.ofNat 64 (leNat e.2.2), tag⟩) else s) r.s

/-- The summary record (R188). -/
def summaryWords (d : RunDesc) (turn : Nat) (r : RunSt) : List TWord :=
  let sum := (treeReduce (elemBin .add .fp64) 4 r.lanes).getD 0
  let (fi, fc, fb) := match r.fault with
    | some (e, f, _) => (e, f, 1)
    | none => (0xFFFFFFFF, 0, 0)
  [.int (word32 r.nonfin r.nelem), .int (word32 r.sat r.zero),
    fpWord (r.least.getD (fp64.encode (.inf false))), fpWord (r.most.getD (fp64.encode (.inf true))), fpWord sum,
    .int (word32 r.exc r.oor),
    .int (BitVec.ofNat 64 (fb * 2 ^ 42 + b2n r.all * 2 ^ 41 + b2n r.any * 2 ^ 40 + fc * 2 ^ 32 + fi)),
    .int (BitVec.ofNat 64 (d.tid * 2 ^ 48 + turn % 2 ^ 48))]

/-- A whole run (R183 to R189). -/
def runAll (c q : Nat) (j : RunJob) (s : State) : RunSt :=
  let d : RunDesc := ⟨j.desc⟩
  let out := ((d.tensor 3).ty).getD .i64
  let rc : RunCx := ⟨j.progOf, d.scalar, d.quiet, out, (s.part q).seed.toNat, d.tid, d.step⟩
  ((List.range d.count).foldl (runElem c out.tag d rc) (RunSt.start s)).flush c out.tag

/-- A run ends (R187 to R189, R249): summary record, vector 20, the run's event when it completed, its counts to the
monitor, and its fault. -/
def endRun (c q : Nat) (j : RunJob) (s : State) : State :=
  let d : RunDesc := ⟨j.desc⟩
  let r := runAll c q j s
  let s := wholeWords c (((d.tensor 3).ty).getD .i64).tag r
  let s := s.updCore c fun x =>
    let x := (putWords (d.saddr / 8) (summaryWords d j.turn r) x).event 20 j.turn
    let n : MonCount := ⟨false, d.tid, x.lcore, 0, r.nelem, r.zero, r.sat, r.nonfin, r.fault.isSome⟩
    let x := { x with jobs := { x.jobs with
      runs := x.jobs.runs.drop 1
      counts := if d.tid ≠ 0 ∧ (s.part q).mon.montab ≠ 0 then x.jobs.counts ++ [n] else x.jobs.counts } }
    match r.fault with
    | some (_, f, a) => setVfault f a x
    | none => x
  if r.fault.isNone then coreEvent q c 5 0 s else s

/-- TENSOR_STREAM_COMPLETE (R171, R188): the oldest run. -/
def execTensorStreamComplete (c : CoreId) (env : Env) (s : State) : Answer :=
  let s := applyUpsets env.upsets s
  .next (match s.coreRuns c, (s.core c).jobs.runs with
    | some q, j :: _ => if (s.core c).clearForRun j.fire (j.rd ++ j.wr) then endRun c q j s else s
    | _, _ => s)

end Sys2Proof.Machine
end

