-- ==== Sys2Proof/Machine/Matrix.lean ====
section
/-! DEFINITION. Matrix passes (R193 to R212, R215 to R217, R220, R224 to R230, R238 to R247): the checks when one fires, its
start, its arithmetic, its retirement and its abort. -/

namespace Sys2Proof.Machine

/-- The recorded width that a pass gives its tile (R224): 0 FP32, 1 I32, 2 FP64. -/
def PassDesc.width (d : PassDesc) : Nat := if d.fmt = 5 then 1 else if d.fmt = 9 then 2 else 0

/-- A tile's record. -/
def Core.tile (x : Core) (t : Nat) : Tile := SMap.get Tile.reset t x.tiles
def setTile (t : Nat) (f : Tile → Tile) (x : Core) : Core := { x with tiles := SMap.upd Tile.reset t f x.tiles }
def setTiles (ts : List Nat) (f : Tile → Tile) (x : Core) : Core := ts.foldl (fun x t => setTile t f x) x

/-- The tiles that an action on tile t concerns: its FP64 pair, when the action or the tile's record is FP64 (R238, R241). -/
def Core.span (x : Core) (t : Nat) (wide : Bool) : List Nat :=
  if wide || (x.tile t).width == 2 then [t / 2 * 2, t / 2 * 2 + 1] else [t]

/-- The tiles of a pass or drain with these descriptor words. -/
def Core.passTiles (x : Core) (w : List Word) : List Nat := let d : PassDesc := ⟨w⟩; x.span d.tile (d.fmt == 9)
def Core.drainTiles (x : Core) (w : List Word) : List Nat := let d : DrainDesc := ⟨w⟩; x.span d.tile d.w64

/-- Two lists of tiles have one in common. -/
def shareTile (a b : List Nat) : Bool := a.any b.contains

/-- A front is sweeping (R238): started, its last row position not yet visited. -/
def DrainJob.sweeping (j : DrainJob) : Bool := j.started && !j.ended && decide (j.row < 32)

/-- The cell index of a logical entry (R194). -/
def cellOf (tall : Bool) (i j : Nat) : Nat := if tall then i % 32 * 32 + 8 * (i / 32) + j else i * 32 + j

/-- The key under which the entry at a cell of tile t is held; an FP64 entry stands at the even tile of its pair (R193). -/
def entryKey (width t cell : Nat) : Nat := (if width = 2 then t / 2 * 2 else t) * 1024 + cell

/-- The state of tiles that a fault-log entry shows (R238, R423), as the fault finds it. -/
def Core.tileState (x : Core) (ts : List Nat) : Nat :=
  if ts.any fun t => (x.tile t).poisoned then 3
  else if x.jobs.drains.any fun j => j.sweeping && shareTile ts (x.drainTiles j.desc) then 2
  else if x.jobs.passes.any fun j => j.started && shareTile ts (x.passTiles j.desc) then 1
  else 0

/-- A Matrix Pass Fault comes about (R247). One that comes after the turn's delivery, or once the
partition has stopped, is logged at once. -/
def matrixFault (q c : Nat) (f : MFault) (s : State) : State :=
  let x := s.core c
  if x.pend.mdone ∨ (s.part q).st ≠ .running then logEvent (mfaultEntry q x.lcore (dieOfCore c) false f) s
  else s.updCore c fun x => { x with pend := { x.pend with mfaults := x.pend.mfaults ++ [f] } }

/-- A bit range of a word is zero. -/
def zeroBits (w : Word) (hi lo : Nat) : Bool := wf64 w hi lo == 0

/-- Check 3 of R212 on word n of a pass descriptor (R204 to R209): it breaks a rule. -/
def PassDesc.badField (d : PassDesc) (n : Nat) : Bool :=
  let w := d.word n
  let mx := d.fmt == 0
  let operandWord := fun (a : Bool) (k : Nat) =>
    match k with
    | 0 => !zeroBits w 63 48
    | 1 => mx && (s32hi w != 1 || s32lo w % 2 != 0)
    | _ => !zeroBits w 63 32 || (mx && s32lo w % 2 != 0) || (d.isConv a && d.conv == 1 && s32lo w != 0)
  let scaleWord := fun (k : Nat) => if mx then k == 0 && !zeroBits w 63 48 else w != 0
  match n with
  | 0 =>
    !zeroBits w 63 15 || d.conv == 3 || decide (9 < d.fmt) || ((d.auns || d.buns) && d.fmt != 5)
    || (d.prom == 3 && d.fmt != 5) || (decide (6 ≤ d.fmt) && d.prom != 0) || (d.fmt == 9 && d.tile % 2 == 1)
    || (mx && d.conv != 0)
  | 1 =>
    !zeroBits w 63 48 || !zeroBits w 31 29 || !zeroBits w 23 23 || d.k % d.k0 != 0
    || decide ((if d.tall then 8 else 32) < d.nc) || decide ((if d.tall then 128 else 32) < d.mr)
    || (mx && (d.k % 32 != 0 || d.k0 % 32 != 0))
  | 2 => operandWord true 0
  | 3 => operandWord true 1
  | 4 => operandWord true 2
  | 5 => operandWord false 0
  | 6 => operandWord false 1
  | 7 => operandWord false 2
  | 8 => scaleWord 0
  | 9 => scaleWord 1
  | 10 => scaleWord 0
  | 11 => scaleWord 1
  | 12 =>
    if d.conv = 0 then w != 0
    else d.k != d.cin * d.rw * d.rh || (d.conv == 1 && (!zeroBits w 63 48 || !zeroBits w 31 28 || !zeroBits w 19 16))
  | 13 => if d.conv = 0 then w != 0 else !zeroBits w 63 48 || (d.conv == 1 && !zeroBits w 47 32)
  | _ => w != 0

/-- A range lies where R211 allows. -/
def rangeOk (r : Option (Int × Nat)) : Bool :=
  match r with
  | none => true
  | some (a, n) =>
    (decide (0 ≤ a) && decide (a + n ≤ (tableBase : Int)))
    || (decide (0x400000 ≤ a) && decide (a + n ≤ (2 ^ 48 : Int)))

/-- Check 4 of R212 on word n of a pass descriptor. -/
def PassDesc.badRange (d : PassDesc) (n : Nat) : Bool :=
  let al := max 1 (d.esz2 / 2)
  match n with
  | 2 => !rangeOk (d.opRange true) || !aligned (d.base true) al
  | 5 => !rangeOk (d.opRange false) || !aligned (d.base false) al
  | 8 => !rangeOk (d.scRange true)
  | 10 => !rangeOk (d.scRange false)
  | _ => false

/-- The checks of R212 when a pass fires: sub-cause and address of the first that fails. -/
def passCheck (x : Core) (h : Nat) : Option (Nat × Nat) :=
  let d : PassDesc := ⟨x.words h 16⟩
  let tag := fun i => (x.word (h / 8 + i)).tag
  let at' := fun (sub : Nat) (o : Option Nat) => o.map fun a => (sub, a)
  ((at' 0x01 (firstAt h (List.range 16) fun i => tag i == tagPoison)).orElse fun _ =>
   (at' 0x02 (firstAt h (List.range 16) fun i => tag i != 0)).orElse fun _ =>
   (at' 0x03 (firstAt h (List.range 16) d.badField)).orElse fun _ =>
   at' 0x04 (firstAt h (List.range 16) d.badRange))

/-- A pass fires (R212). -/
def firePass (q c : Nat) (e : ArmEntry) (s : State) : State :=
  let s := touchRun c (e.handle / 8) 16 s
  let x := s.core c
  let d : PassDesc := ⟨x.words e.handle 16⟩
  let s := s.updCore c fun x => { x with fireSeq := x.fireSeq + 1 }
  match passCheck x e.handle with
  | some (sub, addr) =>
    let ts := x.passTiles d.w
    matrixFault q c ⟨e.seq, sub, BitVec.ofNat 64 addr, false, d.tile, x.tileState ts, e.handle⟩ s
  | none =>
    s.updCore c fun x => { x with jobs := { x.jobs with
      passes := x.jobs.passes ++ [PassJob.fired e.seq x.fireSeq x.tu.turn e.handle d.w e.rd] } }

/-- A pass of the same core, armed before `seq` and not yet fired, on one of these tiles (R239). -/
def Core.armedOn (x : Core) (k : ActKind) (seq : Nat) (ts : List Nat) : Bool :=
  (x.tu.queue ++ x.dtu.queue).any fun e => e.kind == k && decide (e.seq < seq)
    && shareTile ts (if k = .pass then x.passTiles (x.words e.handle 16) else x.drainTiles (x.words e.handle 8))

/-- The start conditions of a fired pass (R216, R220, R221, R239), apart from the timing of feeds. -/
def Core.passMayStart (x : Core) (j : PassJob) : Bool :=
  let d : PassDesc := ⟨j.desc⟩
  let ts := x.passTiles j.desc
  let shape := d.tall == x.lastTall || (!(x.jobs.passes.any (·.started)) && !(x.jobs.drains.any DrainJob.sweeping))
  !(x.jobs.passes.any fun p => p.started && shareTile ts (x.passTiles p.desc ++ p.clear)) && shape
  && !x.armedOn .drain j.seq ts
  && (x.jobs.drains.all fun f => !shareTile ts (x.drainTiles f.desc) || (if f.started
      then !f.sweeping || decide (f.width ≠ 2) || decide (16 ≤ f.row) else decide (j.seq < f.seq)))
  && x.clearFor j.fire j.rd []

/-- A pass leaves the list of jobs. -/
def dropPass (fire : Nat) (x : Core) : Core :=
  { x with jobs := { x.jobs with passes := x.jobs.passes.filter fun p => p.fire != fire } }

/-- A pass that may start does; one with a far operand has the write-combining buffer drained before it (R196, R271, R212 check 5, R228, R241, R245). -/
def startPass (q c : Nat) (j : PassJob) (s : State) : State :=
  let x := s.core c
  let d : PassDesc := ⟨j.desc⟩
  let ts := x.passTiles j.desc
  let t := x.tile d.tile
  let fault := fun (sub : Nat) => matrixFault q c ⟨j.seq, sub, 0, false, d.tile, x.tileState ts, j.handle⟩
  if d.acc && (t.tall != d.tall || t.width != d.width) then fault 0x05 (s.updCore c (dropPass j.fire))
  else if d.acc && t.poisoned then coreEvent q c 2 0 (fault 0x14 (s.updCore c (dropPass j.fire)))
  else
    let far := [d.opRange true, d.opRange false, d.scRange true, d.scRange false].any fun r => r.any fun y => decide (0x400000 ≤ y.1)
    let s := if far then flushWcb c q (fun _ => true) s else s
    let clear := if !d.acc && (t.tall != d.tall || t.width != d.width) then ts else []
    s.updCore c fun x =>
      let x := if d.acc then x else setTiles ts (fun y => { y with tall := d.tall, width := d.width, poisoned := false }) x
      { x with
        lastTall := d.tall
        jobs := { x.jobs with passes := x.jobs.passes.map fun p =>
          if p.fire = j.fire then { p with started := true, clear := clear } else p } }

/-- The format of an operand's elements (R197). -/
def PassDesc.elemFmt (d : PassDesc) (a : Bool) : FFmt :=
  match d.fmt with
  | 0 => e2m1
  | 1 => e4m3
  | 2 => e5m2
  | 3 => if a then e4m3 else e5m2
  | 4 => if a then e5m2 else e4m3
  | 6 => bf16
  | 7 => fp16
  | 8 => fp32
  | _ => fp64

/-- The exact value of a fed operand (R198, R199). -/
def PassDesc.value (d : PassDesc) (a : Bool) (v : Fed) : FVal :=
  let x := (d.elemFmt a).decode v.1
  if d.fmt = 0 then
    (if v.2 = 255 then .nan
      else match x with
        | .fin s m e => .fin s m (e + ((v.2 : Int) - 127))
        | y => y)
  else x

/-- An INT8 operand as an integer (R198). -/
def PassDesc.intValue (d : PassDesc) (a : Bool) (v : Fed) : Int :=
  if (if a then d.auns else d.buns) then (v.1 : Int) else sextOf 8 v.1

/-- Promotion of the narrow accumulator into the wide entry (R228). -/
def promote (width : Nat) (e : TileEntry) : TileEntry :=
  if width = 1 then
    let s := sextOf 32 (e.wide.toNat % 2 ^ 32) + sextOf 22 e.nar.toNat
    let r := satS 32 s
    { e with wide := BitVec.ofNat 64 (wrapTo 32 r), nar := 0, cnt := 0, satm := e.satm || decide (r ≠ s) }
  else
    { e with
      wide := BitVec.ofNat 64 (fp32.encode ((fp32.decode (e.wide.toNat % 2 ^ 32)).add (n22.decode e.nar.toNat)))
      nar := 0, cnt := 0 }

/-- An entry at the start of a pass that updates it (R228). -/
def PassDesc.begin' (d : PassDesc) (e : TileEntry) : TileEntry :=
  let narrow := decide (d.fmt ≤ 5)
  let e := if !d.acc then { e with wide := 0, nar := 0, cnt := 0, satm := false }
    else if e.cnt ≠ 0 ∧ (!narrow ∨ d.interval ≠ e.pint) then promote d.width e else e
  if narrow then { e with pint := d.interval } else e

/-- One product enters an entry (R225, R226, R228). -/
def PassDesc.accumulate (d : PassDesc) (e : TileEntry) (a b : Fed) : TileEntry :=
  let p := (d.value true a).mul (d.value false b)
  let wide := fun (f : FFmt) => { e with wide := BitVec.ofNat 64 (f.encode ((f.decode e.wide.toNat).add p)) }
  let counted := fun (e : TileEntry) =>
    let e := { e with cnt := e.cnt + 1 }
    if e.cnt = d.interval then promote d.width e else e
  match d.fmt with
  | 5 => counted { e with nar := BitVec.ofInt 22 (sextOf 22 e.nar.toNat + d.intValue true a * d.intValue false b) }
  | 6 => wide fp32
  | 7 => wide fp32
  | 8 => wide fp32
  | 9 => wide fp64
  | _ => counted { e with nar := BitVec.ofNat 22 (n22.encode ((n22.decode e.nar.toNat).add p)) }

/-- The entries of a pass. -/
abbrev Entries := SMap TileEntry

/-- One step of k over all entries (R195). -/
def accStep (d : PassDesc) (as bs : List (Nat × Fed)) (m : Entries) : Entries :=
  as.foldl (fun m a => bs.foldl (fun m b =>
    SMap.upd TileEntry.reset (entryKey d.width d.tile (cellOf d.tall a.1 b.1)) (fun e => d.accumulate e a.2 b.2) m) m) m

/-- The number of beats (R205). -/
def PassDesc.beats (d : PassDesc) : Nat := if d.fmt = 0 then d.k / 2 else d.k

/-- The entries within the extent of a pass, by key. -/
def PassDesc.keys (d : PassDesc) : List Nat :=
  (List.range d.mr).flatMap fun i => (List.range d.nc).map fun j => entryKey d.width d.tile (cellOf d.tall i j)

/-- The entries as a pass begins them (R228, R241): a pass whose start changed the record clears every other entry of the tiles
that it had. -/
def beginEntries (j : PassJob) (m : Entries) : Entries :=
  let d : PassDesc := ⟨j.desc⟩
  let m := m.filter fun e => !j.clear.contains (e.1 / 1024) || d.keys.contains e.1
  d.keys.foldl (fun m k => SMap.upd TileEntry.reset k d.begin' m) m

/-- One beat enters the entries (R195, R228): both k of a beat of MXFP4, in order. -/
def PassDesc.accBeat (d : PassDesc) (m : Entries) (b : FedBeat) : Entries :=
  (List.range (if d.fmt = 0 then 2 else 1)).foldl (fun m n =>
    let at' := fun (l : List (Nat × List Fed)) => l.map fun e => (e.1, e.2.getD n (0, 127))
    accStep d (at' b.a) (at' b.b) m) m

/-- The entries after beats that a pass has taken in (R228): the first of them begins the pass. -/
def PassJob.entries (j : PassJob) (m : Entries) : Entries :=
  j.queue.foldl (PassDesc.accBeat ⟨j.desc⟩) (if j.began then m else beginEntries j m)

/-- No front sweeps the tiles of a pass. -/
def Core.frontsClear (x : Core) (j : PassJob) : Bool :=
  !(x.jobs.drains.any fun f => f.sweeping && shareTile (x.passTiles j.desc) (x.drainTiles f.desc))

/-- Some tile of a pass has a parity error. -/
def Core.passParity (x : Core) (j : PassJob) : Bool := (x.passTiles j.desc).any fun t => (x.tile t).parity

/-- The array takes in what the queues of a started pass hold, once no front is ahead of it (R217, R220). -/
def takeIn (fire : Nat) (x : Core) : Core :=
  match x.pass? fire with
  | some j =>
    if x.frontsClear j && !x.passParity j then
      updPass fire (fun p => { p with began := true, queue := [] }) { x with entries := j.entries x.entries }
    else x
  | none => x

/-- What a feeder's read of bytes comes to: the value, a sub-cause of R246, or a wait. -/
inductive FeedR
  | ok (v : Nat)
  | bad (sub : Nat)
  | hold
deriving DecidableEq, Repr

/-- A beat being read: the module, the lines that the feeders have, and the first failure or wait, with the address of the element
or scale byte. -/
structure FeedSt where
  s : State
  reads : List FeedRead
  fail : Option (FeedR × Int)

/-- A value of n bytes read by a feeder (R197, R211, R215, R243). -/
def feedRead (c : Nat) (tag : Tag) (unit n va : Nat) (f : FeedSt) : FeedSt × FeedR :=
  if inLocal va then
    let s := touch c (va / 8) .read f.s
    let w := (s.core c).word (va / 8)
    ({ f with s := s },
      if w.tag = tagPoison then .bad 0x10 else if w.tag ≠ tag then .bad 0x11
      else .ok (w.data.toNat / 2 ^ (8 * (va % 8)) % 2 ^ (8 * n)))
  else
    match takeRead unit (va / 64 * 64) f.reads with
    | none => (f, .hold)
    | some (g, rest) =>
      ({ f with reads := rest },
        match g with
        | .wait => .hold
        | .fault => .bad 0x12
        | .line l => if l.bad ≠ 0 then .bad 0x13 else .ok (fieldAt l.bytes (va % 64) n))

/-- The feeder of a row of an operand (R194, R215): row feeders before column feeders. -/
def feederOf (a : Bool) (i : Nat) : Nat := if a then i % 32 else 32 + i

/-- Element (i, k) of an operand with its scale (R198, R209, R210): the element is judged before its scale byte (DESIGN CHOICE, log 83). -/
def feedElem (c : Nat) (d : PassDesc) (a : Bool) (i k : Nat) (f : FeedSt) : FeedSt × Fed :=
  if f.fail.isSome then (f, (0, 127))
  else
    let scale := fun (f : FeedSt) (v : Nat) =>
      if d.fmt = 0 then
        let sa := d.scaleAt a i (k / 32)
        match feedRead c 4 (feederOf a i) 1 sa.toNat f with
        | (f, .ok m) => (f, (v, m))
        | (f, r) => ({ f with fail := some (r, sa) }, (v, 127))
      else (f, (v, 127))
    match d.elem a i k with
    | none => scale f 0
    | some x =>
      let va := d.byteOf a x
      match feedRead c d.wtag (feederOf a i) (max 1 (d.esz2 / 2)) va.toNat f with
      | (f, .ok v) => scale f (if d.fmt = 0 then (if x % 2 = 0 then v % 16 else v / 16) else v)
      | (f, r) => ({ f with fail := some (r, va) }, (0, 127))

/-- The elements of a row of an operand, for each k of a beat. -/
def feedKs (c : Nat) (d : PassDesc) (a : Bool) (i : Nat) : List Nat → FeedSt → List Fed → FeedSt × List Fed
  | [], f, acc => (f, acc)
  | k :: ks, f, acc =>
    let (f, v) := feedElem c d a i k f
    feedKs c d a i ks f (acc ++ [v])

/-- The elements of rows of an operand in a beat, in the order of their feeders, and of one feeder's rows in ascending order (R194,
R243; log 83). -/
def feedRows (c : Nat) (d : PassDesc) (a : Bool) (ks : List Nat) :
    List Nat → FeedSt → List (Nat × List Fed) → FeedSt × List (Nat × List Fed)
  | [], f, acc => (f, acc)
  | i :: rest, f, acc =>
    let (f, v) := feedKs c d a i ks f []
    feedRows c d a ks rest f (acc ++ [(i, v)])

/-- The rows of an operand in feeder order: row feeder r serves r, r + 32, r + 64, r + 96 (R194). -/
def feedOrder (n : Nat) : List Nat :=
  (List.range 32).flatMap fun r => ([r, r + 32, r + 64, r + 96] : List Nat).filter fun i => decide (i < n)

/-- The k of a beat (R205). -/
def PassDesc.beatKs (d : PassDesc) (b : Nat) : List Nat := if d.fmt = 0 then [2 * b, 2 * b + 1] else [b]

/-- A beat read by the feeders (R195, R197, R215): A before B. -/
def readBeat (c : Nat) (d : PassDesc) (b : Nat) (f : FeedSt) : FeedSt × FedBeat :=
  let (f, a) := feedRows c d true (d.beatKs b) (feedOrder d.mr) f []
  let (f, b) := feedRows c d false (d.beatKs b) (feedOrder d.nc) f []
  (f, ⟨a, b⟩)

/-- The accesses for element (i, k) of an operand: the feeder, and the address of the element or of its scale byte. -/
def PassDesc.accs (d : PassDesc) (a : Bool) (i k : Nat) : List (Nat × Nat) :=
  (match d.elem a i k with
    | some x => [(feederOf a i, (d.byteOf a x).toNat)]
    | none => [])
  ++ (if d.fmt = 0 then [(feederOf a i, (d.scaleAt a i (k / 32)).toNat)] else [])

/-- The accesses of a beat, in the order in which they are made. -/
def PassDesc.beatAccs (d : PassDesc) (b : Nat) : List (Nat × Nat) :=
  [true, false].flatMap fun a => (feedOrder (d.rows a)).flatMap fun i => (d.beatKs b).flatMap fun k => d.accs a i k

/-- What a feeder keeps after an access: the core-store word or the far line, as a number that is not 0 (R215). -/
def keptKey (va : Nat) : Nat := if inLocal va then 2 * (va / 8) + 1 else 2 * (va / 64) + 2

/-- The lines that accesses need and that their feeders do not keep are asked for, in order, until one waits for a
migration. -/
def askAccs (c q fire : Nat) (env : Env) : List (Nat × Nat) → State → State × Bool
  | [], s => (s.updCore c (updPass fire fun j => { j with ahead := j.ahead + 1, asked := 0 }), false)
  | (unit, va) :: rest, s =>
    let kept := ((s.core c).pass? fire).any fun j => SMap.get 0 unit j.lastAsk == keptKey va
    match (if kept || inLocal va then (s, false) else askLine c q fire unit (va / 64 * 64) env s) with
    | (s, true) => (s.updCore c (updPass fire fun j => { j with mig := true }), true)
    | (s, false) =>
      askAccs c q fire env rest (s.updCore c (updPass fire fun j =>
        { j with asked := j.asked + 1, lastAsk := SMap.set 0 unit (keptKey va) j.lastAsk }))

/-- The feeders ask for the lines of at most 32 beats ahead of the one that they read next (R215, R217). -/
def askAhead (c q fire : Nat) (env : Env) : (fuel : Nat) → State → State
  | 0, s => s
  | n + 1, s =>
    match (s.core c).pass? fire with
    | some j =>
      let d : PassDesc := ⟨j.desc⟩
      if j.lost || decide (min d.beats (j.beat + 32) ≤ j.ahead) then s
      else match askAccs c q fire env ((d.beatAccs j.ahead).drop j.asked) s with
        | (s, true) => s
        | (s, false) => askAhead c q fire env n s
    | none => s

/-- The feeders of a started pass read on (R215): at most as far as beat `lim`, at most 32 beats beyond what the array has
taken in, and until a line has not come or an element fails (R243). -/
def pump (c q fire : Nat) (env : Env) (lim : Nat) : (fuel : Nat) → State → State
  | 0, s => s
  | n + 1, s =>
    let s := s.updCore c (takeIn fire)
    match (s.core c).pass? fire with
    | some j =>
      let d : PassDesc := ⟨j.desc⟩
      if j.fail.isSome || j.lost || decide (min lim d.beats ≤ j.beat) || decide (32 ≤ j.queue.length) then s
      else
        let s := askAhead c q fire env 32 s
        let (f, v) := readBeat c d j.beat ⟨s, (((s.core c).pass? fire).map (·.reads)).getD [], none⟩
        match f.fail with
        | some (.hold, _) => s
        | some (.bad sub, a) => f.s.updCore c (updPass fire fun p => { p with fail := some (sub, wordOfInt a) })
        | _ => pump c q fire env lim n (f.s.updCore c (updPass fire fun p =>
            { p with beat := p.beat + 1, reads := f.reads, queue := p.queue ++ [v] }))
    | none => s

/-- The feeders of one started pass go on. -/
def feedPass (c q : Nat) (env : Env) (lim : Nat) (j : PassJob) (s : State) : State :=
  let s := s.updCore c (updPass j.fire fun p => { p with mig := false })
  pump c q j.fire env lim ((⟨j.desc⟩ : PassDesc).beats + 1) s

/-- The feeders of every started pass go on, as far as their lines have come. -/
def feedStarted (c : Nat) (env : Env) (s : State) : State :=
  match (s.core c).part with
  | some q =>
    ((s.core c).jobs.passes.filter (·.started)).foldl (fun s j => feedPass c q env (⟨j.desc⟩ : PassDesc).beats j s) s
  | none => s

/-- The feeders of a pass have read every beat, or will read no more. -/
def PassJob.readAll (j : PassJob) : Bool :=
  decide ((⟨j.desc⟩ : PassDesc).beats ≤ j.beat) || j.fail.isSome || j.lost

/-- PASS_START (R215, R216): the pass that fired first of those not started, once every beat of those before it has been
fed; its feeders fill their queues. -/
def execPassStart (c : CoreId) (env : Env) (s : State) : Answer :=
  let s := feedStarted c env (applyUpsets env.upsets s)
  .next (match s.runsPart c, (s.core c).jobs.passes.find? (fun p => !p.started) with
    | some q, some j =>
      if (s.core c).passMayStart j && ((s.core c).jobs.passes.all fun p => !p.started || p.readAll) then
        feedPass c q env 32 j (startPass q c j s)
      else s
    | _, _ => s)

/-- A line comes for a feeder of a core (R211, R215). -/
def feederLine (c fire unit va : Nat) (l : Line) (env : Env) (s : State) : State :=
  feedStarted c env (feederGot c fire unit va l s)

/-- An entry that nothing can recover: its items are free values (R243, log 5). -/
def freeEntry (w : Word) : TileEntry :=
  ⟨w, BitVec.ofNat 22 (w.toNat / 4), w.toNat % 4, 8, wbit w 5⟩

/-- Entries whose content is lost, by key. -/
def freeEntries (c : Nat) (keys : List Nat) (s : State) : State :=
  let base := s.free
  let put := fun (m : Entries) (e : Nat × Nat) => SMap.set TileEntry.reset e.1 (freeEntry (Config.freeWord (base + e.2))) m
  { s with free := base + keys.length }.updCore c fun x => { x with entries := keys.zipIdx.foldl put x.entries }

/-- Tiles become POISONED; what they hold is no longer looked at for a parity error. -/
def markPoisoned (ts : List Nat) (x : Core) : Core := setTiles ts (fun y => { y with poisoned := true, parity := false }) x

/-- The tiles of an aborted action become POISONED, their content lost (R243). -/
def poisonTiles (c : Nat) (ts : List Nat) (s : State) : State :=
  freeEntries c (ts.flatMap fun t => (List.range 1024).map (t * 1024 + ·)) (s.updCore c (markPoisoned ts))

/-- A tile parity error met by an action is counted (R243, R415). -/
def countParity (c : Nat) (s : State) : State := chatter ⟨0x06, c⟩ (coreWordPa c 0) s

/-- The started pass that retires or aborts next; the started passes that meet no failure retire in the order of their
starts. -/
def Core.firstStarted (x : Core) : Option PassJob := x.jobs.passes.find? (·.started)

/-- A pass that has taken in every beat retires (R202, R217, R228). -/
def retirePass (c q : Nat) (j : PassJob) (s : State) : State := coreEvent q c 2 0 (s.updCore c (dropPass j.fire))

/-- A pass aborts (R243). -/
def abortPass (c q : Nat) (j : PassJob) (sub : Nat) (addr : Word) (s : State) : State :=
  let x := s.core c
  let d : PassDesc := ⟨j.desc⟩
  let ts := x.passTiles j.desc
  let s := matrixFault q c ⟨j.seq, sub, addr, false, d.tile, x.tileState ts, j.handle⟩ s
  coreEvent q c 2 0 (poisonTiles c ts (s.updCore c (dropPass j.fire)))

/-- A started pass that a line will never reach, since its access has not taken effect or the host has not answered, ends with its
tile POISONED (DESIGN CHOICE, log 83). -/
def losePass (c : Nat) (j : PassJob) (s : State) : State :=
  poisonTiles c ((s.core c).passTiles j.desc) (s.updCore c (dropPass j.fire))

/-- A started pass has taken in every beat without a failure. -/
def PassJob.complete (j : PassJob) : Bool :=
  decide ((⟨j.desc⟩ : PassDesc).beats ≤ j.beat) && j.queue.isEmpty && j.began && j.fail.isNone

/-- PASS_RETIRE (R217, R228, R242): a started pass retires even when its partition has stopped. -/
def execPassRetire (c : CoreId) (env : Env) (s : State) : Answer :=
  let s := feedStarted c env (applyUpsets env.upsets s)
  .next (match (s.core c).part, (s.core c).firstStarted with
    | some q, some j =>
      if j.lost then losePass c j s
      else if j.complete && (s.core c).frontsClear j && !(s.core c).passParity j then retirePass c q j s
      else s
    | _, _ => s)

/-- The failure for which a started pass aborts (R243): a parity error of its tile, or its failing element. -/
def Core.passFails (x : Core) (j : PassJob) : Option (Nat × Word) :=
  if !x.frontsClear j then none else if x.passParity j then some (0x15, 0) else j.fail

/-- PASS_ABORT (R243): the first of the started passes that meets a failure. -/
def execPassAbort (c : CoreId) (env : Env) (s : State) : Answer :=
  let s := feedStarted c env (applyUpsets env.upsets s)
  .next (match (s.core c).part, (s.core c).jobs.passes.find? (fun j => j.started && ((s.core c).passFails j).isSome) with
    | some q, some j =>
      (match (s.core c).passFails j with
        | some (sub, a) => abortPass c q j sub a (if (s.core c).passParity j then countParity c s else s)
        | none => s)
    | _, _ => s)

end Sys2Proof.Machine
end

