-- ==== Sys2Proof/Machine/Moves.lean ====
section
/-! DEFINITION. Moves (R264 to R272, R280, R281, R287, R329): the checks at a move's start, its transfers piece by piece, its
completion, and the answers of the memories to a mover. -/

namespace Sys2Proof.Machine

/-- The moves that a mover has for a partition, oldest first. -/
def movesOf (m : MoverRef) (q : Nat) (s : State) : List MoveJob :=
  match m with
  | .core c => (s.core c).jobs.moves
  | .bulk d => (SMap.get Bulk.reset q (s.die d).bulk).moves

/-- The moves of a mover changed. -/
def updMoves (m : MoverRef) (q : Nat) (f : List MoveJob → List MoveJob) (s : State) : State :=
  match m with
  | .core c => s.updCore c fun x => { x with jobs := { x.jobs with moves := f x.jobs.moves } }
  | .bulk d => updBulk d q (fun b => { b with moves := f b.moves }) s

/-- The move in hand changed. -/
def updHead (m : MoverRef) (q : Nat) (f : MoveJob → MoveJob) (s : State) : State := updMoves m q (modAt 0 f) s

/-- Die, race unit, turn, TLB and requester of a mover (R289, R313). -/
def moverDie : MoverRef → Nat
  | .core c => dieOfCore c
  | .bulk d => d
def moverRace (m : MoverRef) (s : State) : Nat :=
  match m with
  | .core c => (s.core c).lcore
  | .bulk d => 0x800 + d
def moverTurn (m : MoverRef) (q : Nat) (s : State) : Nat :=
  match m with
  | .core c => (s.core c).mtu.turn
  | .bulk d => (SMap.get Bulk.reset q (s.die d).bulk).tu.turn
def moverTlb : MoverRef → TlbUser
  | .core c => .core c
  | .bulk d => .die d
def moverWho : MoverRef → Requester
  | .core c => .mover c
  | .bulk d => .bulk d

/-- Whether a mover carries out moves for a partition: the partition is RUNNING, and a core mover's core is its (R30). -/
def moverRuns (m : MoverRef) (q : Nat) (s : State) : Bool :=
  decide ((s.part q).st = .running) && (match m with
    | .core c => (s.core c).part == some q
    | .bulk d => (s.part q).onDie d)

/-- Check 2 of R269. -/
def moveFieldsOk (d : MoveDesc) : Bool :=
  let z := fun (n hi lo : Nat) => wf64 (d.word n) hi lo == 0
  let mc := d.kind == 1
  z 0 63 10 && decide (d.kind ≤ 2) && (decide (d.tag ≤ 6) || d.tag == 9) && (d.tag == 0 || (!d.srcl && d.dstl))
  && z 1 63 59 && z 2 63 59 && z 3 47 23 && decide (1 ≤ d.rlen) && decide (d.rlen ≤ 4194304)
  && (d.kind != 2 || (d.word 1 == 0 && d.sstride == 0))
  && (if mc then z 5 63 40 && z 5 31 27 && z 5 15 11 && d.cstep != 0 else d.word 5 == 0)
  && (d.srcl || d.srcCore == 0) && ((d.dstl && !mc) || d.dstCore == 0)
  && z 6 63 17 && (d.nen || d.word 6 == 0) && (!mc || d.ncore == 0) && d.word 7 == 0

/-- Check 3 of R269: the kind and sides that R267 allows a mover. -/
def moveSidesOk (m : MoverRef) (lcore : Nat) (d : MoveDesc) : Bool :=
  match m with
  | .core _ => (d.kind == 0 && (!d.srcl || d.srcCore == lcore)) || (d.kind == 2 && !d.srcl && !d.dstl)
  | .bulk _ => (d.kind == 0 && !d.srcl) || (d.kind == 1 && !d.srcl && d.dstl)

/-- The destination cores of a multicast (R267). -/
def MoveDesc.dests (d : MoveDesc) : List Nat := (List.range d.ndest).map fun m => d.first + m * d.cstep

/-- Check 4 of R269. -/
def moveCoresOk (p : Part) (d : MoveDesc) : Bool :=
  (!d.srcl || p.hasCore d.srcCore) && (if d.kind = 1 then d.dests.all p.hasCore else !d.dstl || p.hasCore d.dstCore)
  && (!d.nen || d.kind == 1 || p.hasCore d.ncore)

/-- Check 5 of R269 on one side. -/
def moveSideOk (addr : Nat) (stride : Int) (rlen : Nat) (r : Option (Int × Nat)) : Bool :=
  aligned addr 8 && aligned rlen 8 && stride % 8 == 0
  && (match r with
    | some (a, n) => decide (0 ≤ a) && decide (a + n ≤ (tableBase : Int))
    | none => true)

/-- The checks of R269 on the descriptor of a move that `x` armed: the first that fails. -/
def moveCheck (m : MoverRef) (p : Part) (x : Core) (h : Nat) : Option Nat :=
  let d : MoveDesc := ⟨x.words h 8⟩
  if ((List.range 8).any fun i => (x.word (h / 8 + i)).tag != 0) then some 1
  else if !moveFieldsOk d then some 2
  else if !moveSidesOk m x.lcore d then some 3
  else if !moveCoresOk p d then some 4
  else if (d.srcl && !moveSideOk d.src d.sstride d.rlen d.srcRange) || (d.dstl && !moveSideOk d.dst d.dstride d.rlen d.dstRange)
    then some 5
  else if d.kind = 2 ∧ !(aligned d.dst 64 && aligned d.rlen 64 && d.dstride % 64 == 0) then some 6
  else none

/-- The move in hand ends, with the entry due for one that zeroed words (R268). -/
def dropMove (m : MoverRef) (q : Nat) (s : State) : State :=
  match movesOf m q s with
  | j :: _ => moveNote q (moverDie m) (moverRace m s) j (updMoves m q (fun l => l.drop 1) s)
  | [] => s

/-- A move is refused at its start, or a multicast at a source line (R269). -/
def refuseMove (m : MoverRef) (q check : Nat) (j : MoveJob) (s : State) : State :=
  let s := dropMove m q s
  faultPart q (logEvent { LogEntry.ofCode 0x0020 .stop with
    part := some q, src := (moverDie m), addr := j.handle, unit := moverRace m s, d0 := check } s)

/-- Total bytes of a move, and the row and the place within it of byte `pos` (R268). -/
def MoveDesc.total (d : MoveDesc) : Nat := d.nrows * d.rlen
def MoveDesc.srcAt (d : MoveDesc) (pos : Nat) : Nat :=
  (wordOfInt (d.src + (pos / d.rlen : Nat) * d.sstride + (pos % d.rlen : Nat))).toNat
def MoveDesc.dstAt (d : MoveDesc) (pos : Nat) : Nat :=
  (wordOfInt (d.dst + (pos / d.rlen : Nat) * d.dstride + (pos % d.rlen : Nat))).toNat
def MoveDesc.rowLeft (d : MoveDesc) (pos : Nat) : Nat := d.rlen - pos % d.rlen

/-- A core-store word as a move carries it to another core store (R79, R81, R268). -/
def carried (v : TWord) : TWord := if v.tag = 7 ∨ v.tag = 8 then TWord.zero else v

/-- A copy from core store to core store, word by word (R268). -/
def copyWords (c r : Nat) (d : MoveDesc) : (n : Nat) → (pos : Nat) → State × Nat → State × Nat
  | 0, _, a => a
  | n + 1, pos, (s, z) =>
    let (s, v) := readWord c (d.srcAt pos / 8) s
    let s := s.updCore r (putWord (d.dstAt pos / 8) (carried v))
    copyWords c r d n (pos + 8) (s, z + b2n (v.tag = 7 ∨ v.tag = 8))

/-- Bytes of a core store from byte address a, with the words in which poison stands and those zeroed for their tag, each
counted where its first byte is read (R268). -/
def storeRead (c : Nat) : (n : Nat) → (a : Nat) → State → State × List Byte × Nat × Nat
  | 0, _, s => (s, [], 0, 0)
  | n + 1, a, s =>
    let (s, v) := readWord c (a / 8) s
    let zero := decide (v.tag = 7 ∨ v.tag = 8)
    let b : Byte := if zero then 0 else BitVec.ofNat 8 (v.data.toNat / 2 ^ (8 * (a % 8)))
    let (s, bs, p, z) := storeRead c n (a + 1) s
    (s, b :: bs, p + b2n (v.tag = tagPoison), z + b2n (zero && decide (a % 8 = 0)))

/-- Poison words among n bytes from address a, counted where the first byte stands. -/
def poisonStarts (x : Core) (a n : Nat) : Nat :=
  ((List.range n).filter fun i => decide ((a + i) % 8 = 0) && decide ((x.word ((a + i) / 8)).tag = tagPoison)).length

/-- A translation failure stalls the move (R329). -/
def stallMove (m : MoverRef) (q va : Nat) (write : Bool) (cause level te : Nat) (s : State) : State :=
  updHead m q (fun j => { j with stall := some ⟨cause, va, write, level, te, none⟩ }) s

/-- The piece in hand is done: n bytes. -/
def pieceDone (m : MoverRef) (q n : Nat) (s : State) : State :=
  updHead m q (fun j => { j with pos := j.pos + n, phase := .idle }) s

/-- How many bytes the next piece has: within a row, a destination line, for far sources a source line unless a word lies
across two, and no more than a forward overlap leaves apart (R268). -/
def pieceLen (q : Nat) (d : MoveDesc) (pos : Nat) (s : State) : Nat :=
  let src := d.srcAt pos
  let dst := d.dstAt pos
  let left := d.rowLeft pos
  if d.kind = 2 then 64
  else if d.srcl then min left (64 - dst % 64)
  else if d.dstl then (if src % 8 = 0 then min left (64 - src % 64) else min left 8)
  else
    let n := min left (min (64 - src % 64) (64 - dst % 64))
    match walk q src false s, walk q dst false s with
    | .ok e, .ok f =>
      let a := e.at src
      let b := f.at dst
      if a < b ∧ b < a + n then b - a else n
    | _, _ => n

/-- A line comes for the piece in hand, whose first `acc` bytes are there; whether the piece is whole. -/
def takeLine (m : MoverRef) (q : Nat) (d : MoveDesc) (pos want : Nat) (acc : List Byte) (bad : Nat) (l : Line) (s : State) : State :=
  let va := d.srcAt pos + acc.length
  let acc := acc ++ (l.bytes.drop (va % 64)).take (min (want - acc.length) (64 - va % 64))
  let bad := if l.bad ≠ 0 then l.bad else bad
  updHead m q (fun j => { j with phase := if want ≤ acc.length then .have acc bad else .reading want acc bad none }) s

/-- A line is translated and asked for, for a piece whose first `acc` bytes are there (R271, R280, R290): the core's own buffered
stores go first. -/
def moveRead (m : MoverRef) (q : Nat) (d : MoveDesc) (pos want : Nat) (acc : List Byte) (bad : Nat) (s : State) : State :=
  let va := d.srcAt pos + acc.length
  match translateFar (moverTlb m) q va false s with
  | (s, .fail cause level te) =>
    stallMove m q va false cause level te (updHead m q (fun j => { j with phase := .reading want acc bad none }) s)
  | (s, .ok e) =>
    let pa := e.at va
    let s := countWindow (moverDie m) q va pa (tlbInstall (moverTlb m) e s)
    let s := match m with
      | .core c => flushWcb c q (fun l => l.line == pa / 64) s
      | .bulk _ => s
    let s := updHead m q (fun j => { j with phase := .reading want acc bad (some pa) }) s
    match locate pa with
    | .host _ _ => s
    | _ => submit (mkReq q (moverRace m s) (moverTurn m q s) e.ro (pa / 64) (moverWho m) s) s

/-- The host answers a mover's read of a line (R427, R484); whether it has a line. -/
def moveHost (m : MoverRef) (q : Nat) (d : MoveDesc) (pos want : Nat) (acc : List Byte) (bad pa : Nat) (env : Env) (s : State) :
    State × Bool :=
  match locate pa with
  | .host _ iova =>
    (match hostLine q (moverRace m s) ((d.srcAt pos + acc.length) / 64 * 64) (pa / 64 * 64) (iova / 64 * 64) env s with
      | (s, some l) => (takeLine m q d pos want acc bad l s, true)
      | (s, none) => (dropMove m q s, false))
  | _ => (s, false)

/-- The words that n bytes of a far source give a core store (R81, R86, R268). -/
def farWords (tag : Nat) (bytes : List Byte) (bad : Nat) : List TWord :=
  (List.range (bytes.length / 8)).map fun i =>
    if bad ≠ 0 then poisonWord bad else ⟨BitVec.ofNat 64 (fieldAt bytes (8 * i) 8), BitVec.ofNat 4 tag⟩

/-- Words written into the core stores of a move's destinations (R264, R287). -/
def deliverWords (q : Nat) (d : MoveDesc) (pos : Nat) (ws : List TWord) (s : State) : State :=
  (if d.kind = 1 then d.dests else [d.dstCore]).foldl (fun s lc =>
    match (s.part q).physOf lc with
    | some r => s.updCore r (putWords (d.dstAt pos / 8) ws)
    | none => s) s

/-- A line of zeros enters a core's far cache as FZERO writes it (R281); the line that it evicts may go to a bed cache
(R283). -/
def farZero (c line : Nat) (ro : Bool) (s : State) : State :=
  let (f, v) := farInstall ⟨line, List.replicate 64 0, ro, false⟩ (moveDrops line (s.core c).far)
  offerVictim v (s.updCore c fun x => { x with far := f })

/-- A piece written to far memory (R271, R268, R281): `bad` says whether poison is among its bytes. -/
def moveWrite (m : MoverRef) (q : Nat) (d : MoveDesc) (pos : Nat) (bytes : List Byte) (bad : Bool) (s : State) : State × Bool :=
  let va := d.dstAt pos
  let n := bytes.length
  match translateFar (moverTlb m) q va true s with
  | (s, .fail cause level te) => (stallMove m q va true cause level te s, false)
  | (s, .ok e) =>
    let pa := e.at va
    let s := countWindow (moverDie m) q va pa (tlbInstall (moverTlb m) e s)
    let s := match m with
      | .core c => if d.kind = 2 then farZero c (pa / 64) e.ro s else s.updCore c fun x => { x with far := moveDrops (pa / 64) x.far }
      | .bulk _ => s
    let o := pa % 64
    let host := match locate pa with
      | .host _ _ => true
      | _ => false
    let bytes := if host && bad then List.replicate n 0 else bytes
    let r := mkReq q (moverRace m s) (moverTurn m q s) e.ro (pa / 64) (moverWho m) s
    let r := r.writing (padTo 64 (List.replicate o 0 ++ bytes)) ((2 ^ n - 1) * 2 ^ o) (if bad && !host then 1 else 0)
    let s := updHead m q (fun j => if host && bad then { j with zeroP := j.zeroP + ceilDiv n 8 } else j) s
    if host then (pieceDone m q n (submit r s), true)
    else (submit r (updHead m q (fun j => { j with phase := .writing n }) s), false)

/-- Poison in the bytes of a core store that a piece takes to a host window becomes 8 zero bytes each (R81); elsewhere the
line takes the check pattern. -/
def coreToFar (m : MoverRef) (q : Nat) (c : Nat) (d : MoveDesc) (pos n : Nat) (s : State) : State × Bool :=
  let a := d.srcAt pos
  let (s, bs, p, z) := storeRead c n a s
  match translateFar (moverTlb m) q (d.dstAt pos) true s with
  | (s, .fail cause level te) => (stallMove m q (d.dstAt pos) true cause level te s, false)
  | (s, .ok e) =>
    let s := updHead m q (fun j => { j with zeroT := j.zeroT + z }) s
    match locate (e.at (d.dstAt pos)) with
    | .host _ _ =>
      let x := s.core c
      let bs := bs.zipIdx.map fun b => if (x.word ((a + b.2) / 8)).tag = tagPoison then 0 else b.1
      let s := updHead m q (fun j => { j with zeroP := j.zeroP + poisonStarts x a n }) s
      moveWrite m q d pos bs false s
    | _ => moveWrite m q d pos bs (decide (p ≠ 0)) s

/-- A move has a line to translate, or bytes to write, before it waits for anything (R344). -/
def MoveJob.wants (j : MoveJob) : Bool :=
  j.started && j.stall.isNone && (match j.phase with
    | .idle => decide (j.pos < (⟨j.desc⟩ : MoveDesc).total)
    | .reading _ _ _ a => a.isNone
    | .have _ _ => true
    | .writing _ => false)

/-- The partition whose move a die's bulk mover serves next: round robin among those with a line to move (R344). -/
def bulkNext (d : Nat) (s : State) : Option Nat :=
  ((List.range 16).map fun k => ((s.die d).served + 1 + k) % 16).find? fun q =>
    moverRuns (.bulk (dieNum d)) q s && (movesOf (.bulk (dieNum d)) q s).head?.any MoveJob.wants

/-- A mover may move the next line of a partition (R344). -/
def serves (m : MoverRef) (q : Nat) (s : State) : Bool :=
  match m with
  | .core _ => true
  | .bulk d => bulkNext d s == some q

/-- A mover moves a line of a partition. -/
def servedNow (m : MoverRef) (q : Nat) (s : State) : State :=
  match m with
  | .core _ => s
  | .bulk d => s.updDie d fun x => { x with served := q }

/-- A move with nothing under way begins its next piece. -/
def movePiece (m : MoverRef) (q : Nat) (d : MoveDesc) (pos : Nat) (s : State) : State × Bool :=
  if d.kind = 2 then moveWrite m q d pos (List.replicate 64 0) false s
  else
    let n := pieceLen q d pos s
    match (s.part q).physOf d.srcCore with
    | some c =>
      if d.srcl && d.dstl then
        match (s.part q).physOf d.dstCore with
        | some r =>
          let (s, z) := copyWords c r d (d.rowLeft pos / 8) pos (s, 0)
          (pieceDone m q (d.rowLeft pos) (updHead m q (fun j => { j with zeroT := j.zeroT + z }) s), true)
        | none => (s, false)
      else if d.srcl then coreToFar m q c d pos n s
      else (moveRead m q d pos n [] 0 s, true)
    | none => if d.srcl then (s, false) else (moveRead m q d pos n [] 0 s, true)

/-- One step of the move in hand; whether it can go on at once. -/
def moveStep (m : MoverRef) (q : Nat) (hostOk : Bool) (env : Env) (s : State) : State × Bool :=
  match movesOf m q s with
  | [] => (s, false)
  | j :: _ =>
    let d : MoveDesc := ⟨j.desc⟩
    if !j.started || j.stall.isSome || !(moverRuns m q s) then (s, false)
    else match j.phase with
    | .writing _ => (s, false)
    | .reading want acc bad (some pa) => if hostOk then moveHost m q d j.pos want acc bad pa env s else (s, false)
    | .reading want acc bad none =>
      if serves m q s then (moveRead m q d j.pos want acc bad (servedNow m q s), true) else (s, false)
    | .have acc bad =>
      if !serves m q s then (s, false)
      else if d.dstl then (pieceDone m q acc.length (deliverWords q d j.pos (farWords d.tag acc bad) s), true)
      else moveWrite m q d j.pos acc (decide (bad ≠ 0)) (servedNow m q s)
    | .idle =>
      if decide (d.total ≤ j.pos) || d.kind == 1 || !serves m q s then (s, false) else movePiece m q d j.pos (servedNow m q s)

/-- The move in hand goes on as far as it can. -/
def moveRun (m : MoverRef) (q : Nat) (hostOk : Bool) (env : Env) : (fuel : Nat) → State → State
  | 0, s => s
  | n + 1, s =>
    match moveStep m q hostOk env s with
    | (s, true) => moveRun m q hostOk env n s
    | (s, false) => s

/-- Steps enough for every piece of a move. -/
def moveFuel (m : MoverRef) (q : Nat) (s : State) : Nat :=
  match movesOf m q s with
  | j :: _ => 4 * (⟨j.desc⟩ : MoveDesc).total + 4
  | [] => 0

/-- The moves of a bulk mover go on in round robin, a line at a time, as far as they can without the host (R344). -/
def bulkRun (d : Nat) : (fuel : Nat) → State → State
  | 0, s => s
  | n + 1, s =>
    match bulkNext d s with
    | none => s
    | some q =>
      let (t, go) := moveStep (.bulk (dieNum d)) q false Env.quiet s
      if go || bulkNext d t != some q then bulkRun d n t else t

/-- The moves that a mover has in hand go on: that of a partition, with what the host answers, and those of the others that a bulk
mover serves. -/
def moveOn (m : MoverRef) (q : Nat) (hostOk : Bool) (env : Env) (s : State) : State :=
  let s := moveRun m q hostOk env (moveFuel m q s) s
  match m with
  | .core _ => s
  | .bulk d => bulkRun d ((allParts.map fun q => moveFuel m q s).sum + 1) s

/-- The oldest move starts (R265, R269). -/
def startMove (m : MoverRef) (q : Nat) (j : MoveJob) (s : State) : State :=
  let s := touchRun j.core (j.handle / 8) 8 s
  let x := s.core j.core
  match moveCheck m (s.part q) x j.handle with
  | some n => refuseMove m q n j s
  | none => moveOn m q false Env.quiet (updHead m q (fun j => { j with started := true, desc := x.words j.handle 8 }) s)

/-- No fault of a bulk mover's moves is still to be resumed: it starts no later move before (R329). -/
def noFault (m : MoverRef) (s : State) : Bool :=
  match m with
  | .core _ => true
  | .bulk _ => allParts.all fun q => ((movesOf m q s).head?.bind (·.stall)).isNone

/-- MOVE_START (R269, R270, R329): the mover's oldest move, once no earlier one is under way. -/
def execMoveStart (m : MoverRef) (q : PartId) (env : Env) (s : State) : Answer :=
  let s := applyUpsets env.upsets s
  .next (match movesOf m q s with
    | j :: _ => if moverRuns m q s && noFault m s && !j.started then startMove m q j s else s
    | [] => s)

/-- The source lines of the next piece of a multicast, by virtual address. -/
def MoveDesc.pieceLines (d : MoveDesc) (pos n : Nat) : List Nat :=
  let a := d.srcAt pos / 64 * 64
  let b := (d.srcAt pos + (n - 1)) / 64 * 64
  if a = b then [a] else [a, b]

/-- A source line that a multicast has read. -/
def MoveJob.lineAt (j : MoveJob) (va : Nat) : Option Line := (j.lines.find? fun e => e.1 == va).map (·.2)

/-- The first source line that the next piece of a multicast still lacks. -/
def MoveJob.lacks (j : MoveJob) (q : Nat) (s : State) : Option Nat :=
  let d : MoveDesc := ⟨j.desc⟩
  (d.pieceLines j.pos (pieceLen q d j.pos s)).find? fun va => (j.lineAt va).isNone

/-- The pieces of a multicast whose source lines are there go to every destination (R287). -/
def multicastOn (m : MoverRef) (q : Nat) : (fuel : Nat) → State → State
  | 0, s => s
  | n + 1, s =>
    match movesOf m q s with
    | j :: _ =>
      let d : MoveDesc := ⟨j.desc⟩
      if decide (d.total ≤ j.pos) || (j.lacks q s).isSome then s
      else
        let k := pieceLen q d j.pos s
        let ls := (d.pieceLines j.pos k).map fun va => (j.lineAt va).getD ⟨[], 0⟩
        let bytes := ((ls.flatMap (·.bytes)).drop (d.srcAt j.pos % 64)).take k
        let bad := ((ls.find? fun l => l.bad != 0).map (·.bad)).getD 0
        multicastOn m q n (pieceDone m q k (deliverWords q d j.pos (farWords d.tag bytes bad) s))
    | [] => s

/-- One source line of a multicast is read, each line once (R269, R287): a line that is not in a bed store ends the move. -/
def sourceLine (m : MoverRef) (q va : Nat) (j : MoveJob) (s : State) : State :=
  match translateFar (moverTlb m) q va false s with
  | (s, .fail cause level te) => stallMove m q va false cause level te s
  | (s, .ok t) =>
    match locate (t.at va) with
    | .bed _ _ =>
      let s := updHead m q (fun j => { j with phase := .reading 64 [] 0 (some (t.at va)) }) (tlbInstall (moverTlb m) t s)
      submit (mkReq q (moverRace m s) (moverTurn m q s) t.ro (t.at va / 64) (moverWho m) s) s
    | _ => refuseMove m q 3 j s

/-- MULTICAST_SOURCE_LINE (R287, R344). -/
def execMulticastSourceLine (d : DieId) (q : PartId) (env : Env) (s : State) : Answer :=
  let s := applyUpsets env.upsets s
  let m : MoverRef := .bulk d
  .next (match movesOf m q s with
    | j :: _ =>
      if moverRuns m q s && (⟨j.desc⟩ : MoveDesc).kind == 1 && j.wants && serves m q s then
        (match j.lacks q s with
          | some va => bulkRun d ((allParts.map fun q => moveFuel m q s).sum + 1) (sourceLine m q va j (servedNow m q s))
          | none => s)
      else s
    | [] => s)

/-- The unit that NOTIFY names (R266). -/
def notifyUnit (c n : Nat) : UnitRef := if n = 3 then .bulk (dieNum (dieOfCore c)) else coreUnit c n

/-- The core that hears of a counter that a move's increment overflows (R37): the one that armed it, or, where the firmware
armed it for a bulk mover in turn 0 (its place in arming order is 0), the partition's lowest logical core on the die. -/
def armedBy (m : MoverRef) (q : Nat) (j : MoveJob) (s : State) : Nat :=
  match m with
  | .core _ => j.core
  | .bulk d => if j.seq = 0 then ((s.part q).phys.find? fun c => dieOfCore c == d).getD j.core else j.core

/-- The increments of a completed move set out (R270). -/
def sendNotifies (m : MoverRef) (q : Nat) (j : MoveJob) (s : State) : State :=
  let d : MoveDesc := ⟨j.desc⟩
  if !d.nen then s
  else
    let cores := (if d.kind = 1 then d.dests else [d.ncore]).filterMap fun lc => (s.part q).physOf lc
    let by' := armedBy m q j s
    s.updPart q fun p => { p with notifies := p.notifies ++ cores.map fun c => ⟨notifyUnit c d.nunit, d.nac, m, by'⟩ }

/-- The move in hand completes (R132, R270, R273). -/
def finishMove (m : MoverRef) (q : Nat) (j : MoveJob) (s : State) : State :=
  let s := sendNotifies m q j (dropMove m q s)
  match m with
  | .core c => coreEvent q c 6 0 (s.updCore c fun x => x.event 17 x.mtu.turn)
  | .bulk _ => s

/-- MOVE_COMPLETE (R270): the move in hand goes on with what the host answers, and completes once every byte is written and
acknowledged. -/
def execMoveComplete (m : MoverRef) (q : PartId) (env : Env) (s : State) : Answer :=
  let s := moveOn m q true env (applyUpsets env.upsets s)
  .next (match movesOf m q s with
    | j :: _ =>
      if moverRuns m q s && j.started && j.phase == .idle && decide ((⟨j.desc⟩ : MoveDesc).total ≤ j.pos) then finishMove m q j s else s
    | [] => s)

/-- A memory answers a mover's read (R268, R287). -/
def moverGot (m : MoverRef) (q : Nat) (l : Line) (s : State) : State :=
  match movesOf m q s with
  | j :: _ =>
    let d : MoveDesc := ⟨j.desc⟩
    (match j.phase with
      | .reading want acc bad (some _) =>
        if d.kind = 1 then
          let va := (j.lacks q s).getD 0
          let s := updHead m q (fun j => { j with phase := .idle, lines := j.lines ++ [(va, l)] }) s
          moveOn m q false Env.quiet (multicastOn m q (moveFuel m q s) s)
        else moveOn m q false Env.quiet (takeLine m q d j.pos want acc bad l s)
      | _ => s)
  | [] => s

/-- A memory acknowledges a mover's write (R270). -/
def moverAck (m : MoverRef) (q : Nat) (s : State) : State :=
  match movesOf m q s with
  | j :: _ =>
    (match j.phase with
      | .writing n => moveOn m q false Env.quiet (pieceDone m q n s)
      | _ => s)
  | [] => s

end Sys2Proof.Machine
end

