-- ==== Sys2Proof/Machine/Bed.lean ====
section
/-! DEFINITION. Bed dies (R54, R283, R285 to R291): the service of a bed store, the sweep of stamps, the bed cache, and the
fills of far caches (R278, R279, R282). -/

namespace Sys2Proof.Machine

/-- A line comes back to the unit that asked for it (R268, R279). -/
def answerRead (r : MemReq) (l : Line) (env : Env) (s : State) : State :=
  match r.who with
  | .miss c i => s.updCore c fun x => { x with far := { x.far with
      mshr := SMap.upd Mshr.free i (fun m => if m.busy && m.line == r.line then { m with got := some l } else m) x.far.mshr } }
  | .mover c => moverGot (.core (coreNum c)) r.part l s
  | .bulk d => moverGot (.bulk (dieNum d)) r.part l s
  | .feeder c fire unit va => feederLine c fire unit va l env s
  | .bar2 p k => bar2Got p k r.line l s
  | .frame n va => frameGot r.part n va l s
  | _ => s

/-- A write is acknowledged (R41, R270). -/
def answerWrite (r : MemReq) (s : State) : State :=
  match r.who with
  | .mover c => moverAck (.core (coreNum c)) r.part s
  | .bulk d => moverAck (.bulk (dieNum d)) r.part s
  | _ => s

/-- The unit whose access does not take effect is never answered (R53, R290). -/
def answerNever (r : MemReq) (s : State) : State :=
  match r.who with
  | .feeder c fire _ _ => feederLost c fire s
  | _ => s

/-- A bed store serves a request once the Turn Race check has passed it (R285, R290). -/
def bedServe (b off : Nat) (r : MemReq) (env : Env) (s : State) : State :=
  if r.write then answerWrite r (bedWrite b off r.bytes r.mask r.poison s)
  else
    let (s, l) := bedRead b off s
    answerRead r l env s

/-- The oldest request of a bed store: the check, and the access or the stop (R52, R53, R290). -/
def bedAccess (b off : Nat) (r : MemReq) (env : Env) (s : State) : State :=
  if r.chk && !r.ro then
    match raceCheck b off r.write r.unit r.turn16 s with
    | (s, .pass) => bedServe b off r env s
    | (s, x) => raceStop r.part b off r.unit x (answerNever r s)
  else bedServe b off r env s

/-- BED_STORE_ACCESS (R285, R290). -/
def execBedStoreAccess (b : BedId) (env : Env) (s : State) : Answer :=
  let s := applyUpsets env.upsets s
  .next (match (s.bed b).reqs with
    | r :: rest =>
      let s := s.updBed b fun x => { x with reqs := rest }
      (match locate (64 * r.line) with
        | .bed _ off => bedAccess b off r env s
        | _ => s)
    | [] => s)

/-- The ranges of lines that hold quotas on a bed die: first line, number of lines, partition, in address order. -/
def quotaLines (b : Nat) (s : State) : List (Nat × Nat × Nat) :=
  let l := allParts.flatMap fun q => ((s.part q).bedAt.filter fun e => e.1 == b).map fun e => (e.2.1 * 32768, e.2.2 * 32768, q)
  l.mergeSort fun a c => decide (a.1 ≤ c.1)

/-- The quota line at or above a line, else the first one. -/
def nextQuota (l : List (Nat × Nat × Nat)) (at' : Nat) : Option (Nat × Nat) :=
  match l.find? fun e => decide (at' < e.1 + e.2.1) && decide (0 < e.2.1) with
  | some e => some (max at' e.1, e.2.2)
  | none => (l.find? fun e => decide (0 < e.2.1)).map fun e => (e.1, e.2.2)

/-- A stamp more than 16,384 turns behind becomes cold (R54). -/
def ageStamp (turn : Nat) (x : Stamp) : Stamp :=
  let old := fun (t : Nat) => decide (16384 < (turn + 65536 - t) % 65536)
  let x := if x.reader ≠ 0xFFF && old x.rstamp then { x with reader := 0xFFF, rstamp := 0 } else x
  if x.writer ≠ 0xFFF && old x.wstamp then { x with writer := 0xFFF, wstamp := 0 } else x

/-- An uncorrectable stamp word that the sweep meets while the line's partition runs is handled as one that an access meets (R288,
R290; DEDUCED, log 32). -/
def sweepUe (b line q : Nat) (s : State) : State :=
  let s := if (s.part q).st = .running then
      logEvent { LogEntry.ofCode 0x0026 .info with src := 0x10 + b, addr := bedBase b + 64 * line } s else s
  faultPart q (chatterUe (stampRes b (64 * line)) (bedBase b + 64 * line) s)

/-- The sweep engine visits a line of a partition (R288, R291). -/
def sweepLine (b line q : Nat) (s : State) : State :=
  let x := s.bed b
  let e := SMap.get 0 line x.stampErr
  let s := if e = 1 then chatter (stampRes b (64 * line)) (bedBase b + 64 * line)
      (s.updBed b fun x => { x with stampErr := SMap.set 0 line 0 x.stampErr })
    else if e = 2 then sweepUe b line q s else s
  let turn := (s.part q).turn % 65536
  s.updBed b fun x => { x with
    sweep := line + 1
    sweepLeft := SMap.upd 0 q (fun n => n - 1) x.sweepLeft
    stamps := if e = 2 then x.stamps else SMap.upd Stamp.cold line (ageStamp turn) x.stamps }

/-- SWEEP_VISIT (R54, R291). -/
def execSweepVisit (b : BedId) (s : State) : Answer :=
  .next (match nextQuota (quotaLines b s) (s.bed b).sweep with
    | some (line, q) => sweepLine b line q s
    | none => s)

/-- A line installed in a bed cache (R278, R286). -/
def bedInstall (line : Nat) (bytes : List Byte) (x : Bed) : Bed :=
  if x.cacheMiB = 0 then x
  else
    let x := { x with cache := x.cache.filter fun e => e.2.line != line }
    let set := bedSet x line
    let w := (firstFrom (fun w => SMap.get CacheLine.none (set * 16 + w) x.cache == CacheLine.none) 0 16).getD
      (plruVictim 4 0 0 (SMap.get 0 set x.plru))
    { x with
      cache := SMap.set CacheLine.none (set * 16 + w) ⟨line, bytes, true, false⟩ x.cache
      plru := SMap.upd 0 set (plruTouch 4 0 w) x.plru }

/-- BED_CACHE_FILL (R286): the oldest fill. -/
def execBedCacheFill (b : BedId) (s : State) : Answer :=
  .next (s.updBed b fun x =>
    match x.fillQ with
    | r :: rest => bedInstall r.line r.bytes { x with fillQ := rest }
    | [] => x)

/-- A line has come for a miss register, with what the core has stored to it since (R280): it is installed unless it is
uncorrectable or a move has written it since (R271), and serves the bundle (R279, R282). -/
def fillFar (c i : Nat) (m : Mshr) (l : Line) (s : State) : State :=
  let l := { l with bytes := if m.mask = 0 then l.bytes else maskBytes m.mask l.bytes (padTo 64 m.own) }
  let s := s.updCore c fun x => { x with far := { x.far with
    mshr := SMap.set Mshr.free i Mshr.free x.far.mshr
    bundle := x.far.bundle ++ [(m.line, l)] } }
  if l.bad ≠ 0 ∨ m.stale = true then s
  else
    let (f, v) := farInstall ⟨m.line, l.bytes, m.ro, false⟩ (s.core c).far
    offerVictim v (s.updCore c fun x => { x with far := f })

/-- FAR_CACHE_FILL (R279, R427, R484): a line of a store that has come back, or one that the host answers. -/
def execFarCacheFill (c : CoreId) (reg : Fin 8) (env : Env) (s : State) : Answer :=
  let s := applyUpsets env.upsets s
  let m := SMap.get Mshr.free reg (s.core c).far.mshr
  .next (match s.coreRuns c, m.busy with
    | some q, true =>
      (match m.got with
        | some l => fillFar c reg m l s
        | none =>
          (match locate (64 * m.line) with
            | .host _ iova =>
              (match hostLine q (s.core c).lcore m.va (64 * m.line) iova env s with
                | (s, some l) => fillFar c reg m l s
                | (s, none) => s.updCore c fun x => { x with far := { x.far with mshr := SMap.set Mshr.free reg Mshr.free x.far.mshr } })
            | _ => s))
    | _, _ => s)

end Sys2Proof.Machine
end

