-- ==== Sys2Proof/Machine/Hbm.lean ====
section
/-! DEFINITION. HBM stacks (R292 to R305, R308): regulators, reorder queues, service, patrol scrub and row remapping. -/

namespace Sys2Proof.Machine

/-- REGULATOR_RELEASE (R308): the oldest transaction of a partition that waits on a stack takes a token. -/
def execRegulatorRelease (k : StackId) (q : PartId) (s : State) : Answer :=
  let g := SMap.get Regulator.reset q (s.stack k).regs
  .next (match g.waiting with
    | r :: rest =>
      if 2048 ≤ g.tokens then
        (updReg k q (fun g => { g with tokens := g.tokens - 2048, lines := (g.lines + 1) % 2 ^ 38, waiting := rest }) s).updStack k
          fun x => { x with entering := x.entering ++ [r] }
      else s
    | [] => s)

/-- The pseudo-channel of a transaction (R293). -/
def reqPc (r : MemReq) : Nat := (hbmDecode (64 * r.line)).row.pc

/-- HBM_QUEUE_ENTRY (R286, R294): the oldest transaction for a pseudo-channel enters its reorder queue; a write is
acknowledged there, and drops the bed-cache copy. -/
def execHbmQueueEntry (k : StackId) (pc : Fin 64) (s : State) : Answer :=
  let x := s.stack k
  .next (match indexWhere (fun r => reqPc r == pc) x.entering, x.entering.find? fun r => reqPc r == pc with
    | some i, some r =>
      if (SMap.get [] pc x.queues).length < 64 then
        let s := s.updStack k fun x => { x with
          entering := dropAt i x.entering, queues := SMap.upd [] pc (· ++ [⟨r, 0⟩]) x.queues }
        if r.write then answerWrite r (dropBedCopy r.line s) else s
      else s
    | _, _ => s)

/-- Entry i may be served next (R295): no older one is for its line, none has been passed over by 32 younger ones. -/
def mayServe (l : List QEntry) (i : Nat) (r : MemReq) : Bool :=
  (l.take i).all fun e => e.req.line != r.line && decide (e.passed < 32)

/-- The transactions served since the last line copy of the row copy on this pseudo-channel (R303). -/
def countServed (k pc : Nat) (s : State) : State :=
  s.updStack k fun x => { x with copy := x.copy.map fun c => if c.row.pc = pc then { c with since := c.since + 1 } else c }

/-- A transaction leaves its queue for the stack (R297, R298, R302). -/
def serveHbm (k pc : Nat) (r : MemReq) (env : Env) (s : State) : State :=
  let s := countServed k pc s
  if r.write then hbmWrite (64 * r.line) r.bytes r.mask r.poison s
  else
    let stale := (SMap.get [] pc (s.stack k).queues).any fun e => e.req.write && e.req.line == r.line
    let (s, l) := hbmRead (64 * r.line) s
    let s := match r.who with
      | .miss _ _ => if l.bad = 0 && !stale then offerFill 64 r.line l.bytes s else s
      | _ => s
    answerRead r l env s

/-- HBM_SERVE (R295): the entry at a place of a reorder queue. -/
def execHbmServe (k : StackId) (pc : Fin 64) (idx : Nat) (env : Env) (s : State) : Answer :=
  let s := applyUpsets env.upsets s
  let l := SMap.get [] pc (s.stack k).queues
  .next (match l[idx]? with
    | some e =>
      if mayServe l idx e.req then
        let rest := ((l.take idx).map fun e => { e with passed := e.passed + 1 }) ++ l.drop (idx + 1)
        serveHbm k pc e.req env (s.updStack k fun x => { x with queues := SMap.set [] pc rest x.queues })
      else s
    | none => s)

/-- A transaction of the controller itself, of n steps, enters a reorder queue last and is served (R294 to R296): there is a place, no
older entry is for its line, and none has been passed over too often. -/
def ownTurn (k pc line n : Nat) (s : State) : Bool :=
  let l := SMap.get [] pc (s.stack k).queues
  decide (l.length < 64) && l.all fun e => e.req.line != line && decide (e.passed + n ≤ 32)

/-- The entries of a reorder queue have been passed over by n younger ones. -/
def passOver (k pc n : Nat) (s : State) : State :=
  s.updStack k fun x => { x with queues := SMap.upd [] pc (fun l => l.map fun e => { e with passed := e.passed + n }) x.queues }

/-- The user site of line n of a row (R293). -/
def rowLine (k : Nat) (r : HRow) (n : Nat) : Nat := hbmEncode ⟨k, r, 64 * n⟩

/-- One line of the row copied to its spare (R303 step 3); after the last one the new entry stands in the inactive table
(step 4). -/
def copyLine (k : Nat) (c : RowCopy) (s : State) : State :=
  let pa := rowLine k c.row c.line
  let h := hbmSite pa s
  let l := siteRead h s
  let s := match foundIn l.errs with
    | .clean => s
    | .corrected => chatter (hbmRes pa) pa (siteWrite h { l with errs := l.errs.map fun _ => 0 } s)
    | .bad => chatterUe (hbmRes pa) pa (hbmUe pa false s)
  let errs := l.errs.map fun e => if e = 2 then 2 else 0
  let s := siteWrite (.spare k c.spare (64 * c.line)) ⟨l.bytes, errs⟩ s
  s.updStack k fun x =>
    let x := { x with copy := some { c with line := c.line + 1, since := 0 } }
    if c.line < 15 then x
    else
      let e : Remap := ⟨true, c.row.sid, c.row.bank, c.row.row⟩
      if x.active = 0 then { x with table1 := SMap.set Remap.none c.spare e x.table1 }
      else { x with table0 := SMap.set Remap.none c.spare e x.table0 }

/-- REMAP_LINE_COPY (R296, R303): at most one for every 32 transactions served, or with the queue empty; a read and a write. -/
def execRemapLineCopy (k : StackId) (env : Env) (s : State) : Answer :=
  let s := applyUpsets env.upsets s
  .next (match (s.stack k).copy with
    | some c =>
      if c.line < 16 ∧ (32 ≤ c.since ∨ (SMap.get [] c.row.pc (s.stack k).queues).isEmpty = true)
          ∧ ownTurn k c.row.pc (rowLine k c.row c.line / 64) 2 s = true then
        copyLine k c (passOver k c.row.pc 2 s)
      else s
    | none => s)

/-- The spares of a pseudo-channel that are left (R423). -/
def sparesLeft (k pc : Nat) (s : State) : Nat :=
  ((List.range 16).filter fun i => !(SMap.get Remap.none (pc * 16 + i) (s.stack k).table0).valid
    && !(SMap.get Remap.none (pc * 16 + i) (s.stack k).table1).valid).length

/-- The pending rows of a stack, oldest first, until one takes a spare (R304). -/
def startPending (k : Nat) : (fuel : Nat) → State → State
  | 0, s => s
  | n + 1, s =>
    match (s.stack k).pendingRows with
    | r :: rest =>
      if (s.stack k).copy.isSome then s
      else startPending k n (rowLasting k r (s.updStack k fun x => { x with pendingRows := rest }))
    | [] => s

/-- A row whose repair has taken effect is lasting-faulty no longer (R417). -/
def rowRepaired (k : Nat) (r : HRow) (s : State) : State :=
  { s with chat := { s.chat with lasting := SMap.set false (Res.key ⟨0x0A, rowId k r⟩) false s.chat.lasting } }

/-- REMAP_FLIP (R303 steps 5 and 6). -/
def execRemapFlip (k : StackId) (s : State) : Answer :=
  .next (match (s.stack k).copy with
    | some c =>
      if c.line = 16 then
        let e : Remap := ⟨true, c.row.sid, c.row.bank, c.row.row⟩
        let s := s.updStack k fun x => { x with
          active := 1 - x.active
          table0 := SMap.set Remap.none c.spare e x.table0
          table1 := SMap.set Remap.none c.spare e x.table1
          copy := none
          unpersist := x.unpersist ++ [(c.spare, c.row, false)] }
        let s := logEvent { LogEntry.ofCode 0x0003 .info with
          cls := 0x0A, src := 0x30 + k, addr := rowLine k c.row 0, count := sparesLeft k c.row.pc s, d0 := 2 } s
        startPending k 17 (rowRepaired k c.row s)
      else s
    | none => s)

/-- What a stack's list in the boot flash still lacks is appended (R305). -/
def persistRemaps (k : Nat) (s : State) : State :=
  let l := (s.stack k).unpersist.map fun u => (⟨u.1, u.2.1, u.2.2⟩ : RemapRec)
  (s.updFlash fun f => { f with remaps := SMap.upd [] k (· ++ l) f.remaps }).updStack k fun x => { x with unpersist := [] }

/-- The core marks are appended (R419). -/
def persistCores (s : State) : State := s.updFlash fun f => { f with pendWritten := f.pendCores }

/-- REMAP_PERSIST (R305, R419): the firmware appends a stack's remaps, and the marks of cores under the same rule. -/
def execRemapPersist (k : StackId) (s : State) : Answer :=
  .next (if s.hs.fwRun then persistCores (persistRemaps k s) else s)

/-- Lines of the user capacity of a pseudo-channel (R292). -/
def pcLines : Nat := 3 * 16384 * 16 * 16

/-- The physical address of line n of a pseudo-channel in patrol order. -/
def patrolPa (k pc n : Nat) : Nat := rowLine k ⟨pc, n / (16384 * 16 * 16), n / 16 % 16, n / 256 % 16384⟩ (n % 16)

/-- The patrol scrub reads a line of a pseudo-channel (R296, R299). -/
def patrolLine (k n pc : Nat) (s : State) : State := (hbmRead (patrolPa k pc n) (passOver k pc 1 s)).1

/-- HBM_PATROL_SCRUB (R296, R299): one line of each pseudo-channel, once it is each read's turn. -/
def execHbmPatrolScrub (k : StackId) (env : Env) (s : State) : Answer :=
  let s := applyUpsets env.upsets s
  let n := (s.stack k).patrol
  .next (if (s.stack k).up && (List.range 64).all fun pc => ownTurn k pc (patrolPa k pc n / 64) 1 s then
      let s := (List.range 64).foldl (fun s pc => patrolLine k n pc s) s
      s.updStack k fun x => { x with patrol := (n + 1) % pcLines }
    else s)

end Sys2Proof.Machine
end

