-- ==== Sys2Proof/Machine/Drain.lean ====
section
/-! DEFINITION. Drains (R213, R214, R218, R219, R221, R230, R233 to R240, R244): the checks when one fires, its front, the
transform of a row position, and its completion. -/

namespace Sys2Proof.Machine

/-- Check 3 of R212 on word n of a drain descriptor (R213, R214). -/
def DrainDesc.badField (d : DrainDesc) (n : Nat) : Bool :=
  let w := d.word n
  match n with
  | 0 =>
    !zeroBits w 63 14 || d.init == 3 || decide (8 < d.ofmt) || (d.ofmt == 7 && !d.w64)
    || (d.w64 && (decide (d.tile % 2 = 1) || decide (d.ofmt < 7) || d.submax || d.exp2 || d.stats))
  | 1 => !zeroBits w 31 22
  | 2 => !zeroBits w 31 22 || !zeroBits w 63 54
  | 3 => false
  | 4 => !zeroBits w 31 22 || !zeroBits w 63 54
  | 5 => !zeroBits w 7 7 || !zeroBits w 63 13
  | _ => w != 0

/-- A row lies in the core store where R212 check 4 allows. -/
def rowOk (a n size : Nat) : Bool := aligned a size && decide (a + n ≤ tableBase)

/-- Check 4 of R212 on word n of a drain descriptor, over the rows that its DCTRL has it use; SUBMAX alone already writes the max
row (DESIGN CHOICE, log 83). The shape is not yet known: bias and init rows are taken as R221 takes them. -/
def DrainDesc.badRange (d : DrainDesc) (n : Nat) : Bool :=
  match n with
  | 1 =>
    match d.outRange with
    | none => false
    | some (a, k) => decide (a < 0) || !rowOk a.toNat k 1 || !aligned d.obase d.osz
  | 2 => (d.bias && !rowOk d.biasBase (32 * d.rsz) d.rsz) || (d.init == 2 && !rowOk d.initBase (32 * d.rsz) d.rsz)
  | 4 => ((d.stats || d.submax) && !rowOk d.maxBase (4 * d.mr) 4) || (d.stats && !rowOk d.sumBase (4 * d.mr) 4)
  | _ => false

/-- The checks of R212 when a drain fires. -/
def drainCheck (x : Core) (h : Nat) : Option (Nat × Nat) :=
  let d : DrainDesc := ⟨x.words h 8⟩
  let tag := fun i => (x.word (h / 8 + i)).tag
  let at' := fun (sub : Nat) (o : Option Nat) => o.map fun a => (sub, a)
  ((at' 0x08 (firstAt h (List.range 8) fun i => tag i == tagPoison)).orElse fun _ =>
   (at' 0x09 (firstAt h (List.range 8) fun i => if i = 3 then tag i != 1 else tag i != 0)).orElse fun _ =>
   (at' 0x0A (firstAt h (List.range 8) d.badField)).orElse fun _ =>
   at' 0x0B (firstAt h (List.range 8) d.badRange))

/-- A drain fires (R212). -/
def fireDrain (q c : Nat) (e : ArmEntry) (s : State) : State :=
  let s := touchRun c (e.handle / 8) 8 s
  let x := s.core c
  let d : DrainDesc := ⟨x.words e.handle 8⟩
  let s := s.updCore c fun x => { x with fireSeq := x.fireSeq + 1 }
  match drainCheck x e.handle with
  | some (sub, addr) =>
    matrixFault q c ⟨e.seq, sub, BitVec.ofNat 64 addr, true, d.tile, x.tileState (x.drainTiles d.w), e.handle⟩ s
  | none =>
    let j : DrainJob := ⟨e.seq, x.fireSeq, x.dtu.turn, e.handle, d.w, e.rd, e.wr, false, false, 0, 0, false, false, 0, 0, 0⟩
    s.updCore c fun x => { x with jobs := { x.jobs with drains := x.jobs.drains ++ [j] } }

/-- The start conditions of a fired drain's front (R218, R221, R239). -/
def Core.frontMayStart (x : Core) (j : DrainJob) : Bool :=
  let ts := x.drainTiles j.desc
  !(x.jobs.drains.any DrainJob.sweeping)
  && !x.armedOn .pass j.seq ts
  && (x.jobs.passes.all fun p => !shareTile ts (x.passTiles p.desc) || (!p.started && decide (j.seq < p.seq)))
  && x.clearFor j.fire j.rd j.wr

/-- A drain leaves the list of jobs. -/
def dropDrain (fire : Nat) (x : Core) : Core :=
  { x with jobs := { x.jobs with drains := x.jobs.drains.filter fun p => p.fire != fire } }

/-- A drain of a core changed. -/
def updDrain (fire : Nat) (f : DrainJob → DrainJob) (x : Core) : Core :=
  { x with jobs := { x.jobs with drains := x.jobs.drains.map fun p => if p.fire = fire then f p else p } }

/-- Columns of a shape (R194). -/
def columns (tall : Bool) : Nat := if tall then 8 else 32

/-- The words of the bias row and of the init row that a drain needs (R213, R244). -/
def DrainDesc.rowWords (d : DrainDesc) (tall : Bool) : List Nat :=
  let row := fun (b : Nat) => (List.range (columns tall * d.rsz / 8)).map (b / 8 + ·)
  let edge := fun (b : Nat) => if d.rsz = 4 ∧ b % 8 = 4 then [b / 8 + columns tall * d.rsz / 8] else []
  (if d.bias then row d.biasBase ++ edge d.biasBase else [])
  ++ (if d.init = 2 then row d.initBase ++ edge d.initBase else [])

/-- A word of a row is in order, or a sub-cause of R246. -/
def rowFault (tag : Tag) (v : TWord) : Option Nat :=
  if v.tag = tagPoison then some 0x17 else if v.tag ≠ tag then some 0x16 else none

/-- The first faulty word of a list. -/
def firstRowFault (tag : Tag) (x : Core) : List Nat → Option (Nat × Nat)
  | [] => none
  | w :: rest =>
    match rowFault tag (x.word w) with
    | some sub => some (sub, 8 * w)
    | none => firstRowFault tag x rest

/-- Counts of a drain that has completed go to the monitor (R237, R249). -/
def giveCounts (q : Nat) (j : DrainJob) (s : State) (x : Core) : Core :=
  let d : DrainDesc := ⟨j.desc⟩
  if (s.part q).mon.montab = 0 then x
  else { x with jobs := { x.jobs with
    counts := x.jobs.counts ++ [⟨true, 0, x.lcore, j.handle, d.mr * d.nc, j.zeros, j.sats, j.nonfin, false⟩] } }

/-- A drain whose front may start: check 5, the rows, and a POISONED tile (R212, R218, R244). Of several faulty words the first
of the bias row, then of the init row, gives sub-cause and address (DESIGN CHOICE, log 83). -/
def startFront (q c : Nat) (j : DrainJob) (s : State) : State :=
  let d : DrainDesc := ⟨j.desc⟩
  let ts := (s.core c).drainTiles j.desc
  let t := (s.core c).tile d.tile
  let fault := fun (sub : Nat) (addr : Nat) (s : State) =>
    matrixFault q c ⟨j.seq, sub, BitVec.ofNat 64 addr, true, d.tile, (s.core c).tileState ts, j.handle⟩ s
  let rows := if t.tall then 128 else 32
  if (d.w64 != (t.width == 2)) || decide (rows < d.mr) || decide (columns t.tall < d.nc) then
    (fault 0x05 0 s).updCore c (dropDrain j.fire)
  else
    let s := touchAll c (d.rowWords t.tall) .read s
    match firstRowFault (if d.w64 then 1 else 2) (s.core c) (d.rowWords t.tall) with
    | some (sub, a) =>
      let s := (fault sub a s).updCore c fun x => (giveCounts q j s (dropDrain j.fire x)).event 18 x.dtu.turn
      coreEvent q c 4 0 (coreEvent q c 3 0 s)
    | none =>
      let s := if t.poisoned then fault 0x14 0 s else s
      coreEvent q c 3 0 (s.updCore c (updDrain j.fire fun j => { j with
        started := true, tall := t.tall, width := t.width, mute := t.poisoned }))

/-- DRAIN_FRONT_START (R218): the drain that fired first of those whose front has not started. -/
def execDrainFrontStart (c : CoreId) (env : Env) (s : State) : Answer :=
  let s := applyUpsets env.upsets s
  .next (match s.runsPart c, (s.core c).jobs.drains.find? (fun p => !p.started) with
    | some q, some j => if (s.core c).frontMayStart j then startFront q c j s else s
    | _, _ => s)

/-- The value that a drain reads from an entry (R230), and whether the read or the entry saturated. -/
def readEntry (width : Nat) (e : TileEntry) : FVal × Bool :=
  match width with
  | 2 => (fp64.decode e.wide.toNat, false)
  | 1 =>
    let w := sextOf 32 (e.wide.toNat % 2 ^ 32)
    let s := if e.cnt = 0 then w else w + sextOf 22 e.nar.toNat
    (.ofInt (satS 32 s), e.satm || decide (satS 32 s ≠ s))
  | _ =>
    let w := fp32.decode (e.wide.toNat % 2 ^ 32)
    (if e.cnt = 0 then w else fp32.rn (w.add (n22.decode e.nar.toNat)), e.satm)

/-- A bias or init element (R213). -/
def DrainDesc.rowElem (d : DrainDesc) (x : Core) (base j : Nat) : FVal :=
  let a := base + j * d.rsz
  let v := (x.word (a / 8)).data.toNat / 2 ^ (8 * (a % 8))
  if d.w64 then fp64.decode v else fp32.decode (v % 2 ^ 32)

/-- An FP32 value in the core store. -/
def fp32At (x : Core) (a : Nat) : FVal := fp32.decode ((x.word (a / 8)).data.toNat / 2 ^ (8 * (a % 8)) % 2 ^ 32)

/-- The running maximum over values that are not empty. -/
def maxOf (l : List FVal) : FVal :=
  match l with
  | [] => .nan
  | v :: vs => vs.foldl FVal.max v

/-- The transform of a logical row (R233): the values y, and the new maximum when SUBMAX applies. -/
def DrainDesc.transform (d : DrainDesc) (x : Core) (i : Nat) (vs : List FVal) : List FVal × FVal :=
  let rn := fun (v : FVal) => if d.w64 then fp64.rn v else fp32.rn v
  let xs := if d.scale then vs.map fun v => rn (v.mul (fp64.decode d.dscale.toNat)) else vs
  let xs := if d.bias then xs.zipIdx.map fun e => rn (e.1.add (d.rowElem x d.biasBase e.2)) else xs
  let m := if d.submax then FVal.max (fp32At x (d.maxBase + 4 * i)) (maxOf xs) else .nan
  let xs := if d.submax then xs.map fun v => if m = .inf true then .inf true else rn (v.sub m) else xs
  let xs := if d.exp2 then xs.map fun v => rn v.exp2 else xs
  (xs, m)

/-- The output conversion (R234): bits, whether it counts as saturated, and the value written. -/
def DrainDesc.convert (d : DrainDesc) (v : FVal) : Nat × Bool × FVal :=
  let flt := fun (f : FFmt) => (f.encode v, false, f.rn v)
  let int := fun (w : Nat) => (wrapTo w (v.toInt .nearestEven w), v.toIntSat .nearestEven w, FVal.ofInt (v.toInt .nearestEven w))
  match d.ofmt with
  | 0 => flt fp32
  | 1 => flt bf16
  | 2 => flt fp16
  | 3 => (e4m3.encode v, v.isInf || e4m3.overflows v, e4m3.rn v)
  | 4 => flt e5m2
  | 5 => int 8
  | 6 => int 32
  | 7 => flt fp64
  | _ => if d.w64 then (0, false, v) else (0, false, fp32.rn v)

/-- What a row position's visit gives: the bytes stored as (address, value) with their size, and the statistics. -/
structure RowOut where
  out : List (Nat × Nat)
  stats : List (Nat × Nat)
  zeros : Nat
  sats : Nat
  nonfin : Nat

/-- The outputs of one logical row (R233 to R237). -/
def rowOutputs (x : Core) (j : DrainJob) (i : Nat) (r : RowOut) : RowOut :=
  let d : DrainDesc := ⟨j.desc⟩
  let es := (List.range d.nc).map fun k =>
    readEntry j.width (SMap.get TileEntry.reset (entryKey j.width d.tile (cellOf j.tall i k)) x.entries)
  let (ys, m) := d.transform x i (es.map (·.1))
  let cs := ys.map d.convert
  let f32 := fun (v : FVal) => fp32.encode v
  let sum := match ys.map fp32.rn with
    | [] => FVal.zero
    | y :: rest => rest.foldl (fun a b => fp32.rn (a.add b)) y
  let mx := if d.submax then m else maxOf (ys.map fp32.rn)
  { out := if d.osz = 0 then r.out else
      r.out ++ cs.zipIdx.map fun e => ((d.obase + d.osz * (i * d.ors + (e.2 : Nat))).toNat, e.1.1)
    stats := if d.stats then r.stats ++ [(d.maxBase + 4 * i, f32 mx), (d.sumBase + 4 * i, f32 sum)] else r.stats
    zeros := r.zeros + (cs.filter fun e => e.2.2.isZero).length
    sats := r.sats + ((es.zip cs).filter fun e => e.1.2 || e.2.2.1).length
    nonfin := r.nonfin + (cs.filter fun e => !e.2.2.isFinite).length }

/-- The logical rows of a row position within a drain's extent (R194, R218). -/
def DrainJob.rows (j : DrainJob) : List Nat :=
  let d : DrainDesc := ⟨j.desc⟩
  (if j.tall then [j.row, j.row + 32, j.row + 64, j.row + 96] else [j.row]).filter fun i => decide (i < d.mr)

/-- What INIT leaves in an entry (R219, R236). -/
def DrainDesc.initEntry (d : DrainDesc) (x : Core) (width k : Nat) (e : TileEntry) : TileEntry :=
  let v := d.rowElem x d.initBase k
  let wide := if d.init = 1 then 0
    else if width = 1 then wrapTo 32 (v.toInt .nearestEven 32)
    else if width = 2 then fp64.encode v else fp32.encode v
  { e with wide := BitVec.ofNat 64 wide, nar := 0, cnt := 0, satm := false }

/-- The entries of a row position initialised (R219). -/
def initRow (j : DrainJob) (x : Core) : Core :=
  let d : DrainDesc := ⟨j.desc⟩
  if d.init = 0 then x
  else
    let cells := (if j.tall then [j.row, j.row + 32, j.row + 64, j.row + 96] else [j.row]).flatMap fun i =>
      (List.range (columns j.tall)).map fun k => (k, entryKey j.width d.tile (cellOf j.tall i k))
    { x with entries := cells.foldl (fun m e => SMap.upd TileEntry.reset e.2 (d.initEntry x j.width e.1) m) x.entries }

/-- Values of n bytes stored with a tag, words whose every byte is written being written whole (R163, R214). -/
def storeVals (c : Nat) (tag : Tag) (n : Nat) (l : List (Nat × Nat)) (s : State) : State :=
  (l.foldl (addStore n) []).foldl (fun s e => maskedWord c e.1 e.2.1 e.2.2 tag s) s

/-- A visit that meets no fault (R218, R219, R233 to R237). -/
def visitRow (c : Nat) (j : DrainJob) (s : State) : State :=
  let d : DrainDesc := ⟨j.desc⟩
  let x := s.core c
  let r : RowOut := if j.mute then ⟨[], [], 0, 0, 0⟩
    else j.rows.foldl (fun r i => rowOutputs x j i r) ⟨[], [], 0, 0, 0⟩
  let s := s.updCore c (initRow j)
  let s := storeVals c 2 4 r.stats (storeVals c d.otag d.osz r.out s)
  let s := s.updCore c (updDrain j.fire fun j => { j with
    row := j.row + 1, zeros := j.zeros + r.zeros, sats := j.sats + r.sats, nonfin := j.nonfin + r.nonfin })
  if j.row = 31 ∧ d.init ≠ 0 then
    s.updCore c fun x => setTiles (x.drainTiles j.desc) (fun t => { t with poisoned := false }) x
  else s

/-- A visit that meets a fault: the front ends (R244). -/
def faultRow (q c : Nat) (j : DrainJob) (sub addr : Nat) (poison : Bool) (s : State) : State :=
  let d : DrainDesc := ⟨j.desc⟩
  let x := s.core c
  let ts := x.drainTiles j.desc
  let s := matrixFault q c ⟨j.seq, sub, BitVec.ofNat 64 addr, true, d.tile, x.tileState ts, j.handle⟩ s
  let s := s.updCore c (updDrain j.fire fun j => { j with ended := true })
  if poison then s.updCore c fun x => setTiles ts (fun y => { y with poisoned := true }) x else s

/-- A visit that meets a parity error (R244): which entry is bad is not known, so that what the rows not yet visited hold is lost
with the mark of the error. -/
def parityRow (q c : Nat) (j : DrainJob) (s : State) : State :=
  let ts := (s.core c).drainTiles j.desc
  let keys := ts.flatMap fun t => (List.range (1024 - 32 * j.row)).map (t * 1024 + 32 * j.row + ·)
  freeEntries c keys ((faultRow q c j 0x15 0 true (countParity c s)).updCore c (markPoisoned ts))

/-- The words of the row maxima that a visit reads (R233). -/
def DrainJob.maxWords (j : DrainJob) : List Nat :=
  let d : DrainDesc := ⟨j.desc⟩
  if d.submax && !j.mute then j.rows.map fun i => (d.maxBase + 4 * i) / 8 else []

/-- The visit of the next row position. -/
def visit (q c : Nat) (j : DrainJob) (s : State) : State :=
  let d : DrainDesc := ⟨j.desc⟩
  if ((s.core c).drainTiles j.desc).any fun t => ((s.core c).tile t).parity then
    parityRow q c j s
  else
    let s := touchAll c j.maxWords .read s
    match firstRowFault 2 (s.core c) j.maxWords with
    | some (sub, a) => faultRow q c j sub a (decide (d.init ≠ 0)) s
    | none => visitRow c j s

/-- DRAIN_ROW_VISIT (R218, R219, R242): a started front completes even when its partition has stopped. -/
def execDrainRowVisit (c : CoreId) (env : Env) (s : State) : Answer :=
  let s := applyUpsets env.upsets s
  .next (match (s.core c).part, (s.core c).jobs.drains.find? DrainJob.sweeping with
    | some q, some j => visit q c j s
    | _, _ => s)

/-- DRAIN_COMPLETE (R202, R218, R237, R244): the oldest drain whose front has ended. -/
def execDrainComplete (c : CoreId) (s : State) : Answer :=
  .next (match (s.core c).part, (s.core c).jobs.drains with
    | some q, j :: _ =>
      if j.started && !j.sweeping then
        coreEvent q c 4 0 (s.updCore c fun x => (giveCounts q j s (dropDrain j.fire x)).event 18 x.dtu.turn)
      else s
    | _, _ => s)

end Sys2Proof.Machine
end

