-- ==== Sys2Proof/Machine/Monitor.lean ====
section
/-! DEFINITION. The numerics monitor (R248 to R256): its table, the counts it gathers, the entries of a completed turn, and
their way into the log ring. -/

namespace Sys2Proof.Machine

/-- The bytes of n lines of device virtual addresses as walks and the stores give them; none where an address does not translate,
or a line is uncorrectable. -/
def peekLines (q : Nat) : (n : Nat) → (va : Nat) → State → State × Option (List Byte)
  | 0, _, s => (s, some [])
  | n + 1, va, s =>
    match walkRead q va false s with
    | (s, .fail _ _ _) => (s, none)
    | (s, .ok e) =>
      let (s, l) := lineNow (e.at va) s
      if l.bad ≠ 0 then (s, none)
      else
        let (s, rest) := peekLines q n (va + 64) s
        (s, rest.map fun r => l.bytes ++ r)

/-- A tensor entry (R250). -/
structure TensEntry where
  w0 : Nat
  w1 : Nat

namespace TensEntry
def tid (e : TensEntry) : Nat := fieldOf e.w0 15 0
def slb (e : TensEntry) : Nat := fieldOf e.w0 19 16
def last (e : TensEntry) : Nat := e.tid + 2 ^ e.slb - 1
def zth (e : TensEntry) : Nat := fieldOf e.w0 47 32
def sth (e : TensEntry) : Nat := fieldOf e.w0 63 48
def nth (e : TensEntry) : Nat := fieldOf e.w1 15 0
def ok (e : TensEntry) : Bool :=
  decide (fieldOf e.w0 31 23 = 0) && decide (e.w1 / 65536 = 0) && decide (e.slb ≤ 8) && decide (e.tid ≠ 0)
end TensEntry

/-- A drain binding (R250). -/
structure DrainBind where
  w : Nat

namespace DrainBind
def core (b : DrainBind) : Nat := fieldOf b.w 48 38
def daddr (b : DrainBind) : Nat := fieldOf b.w 37 16
def tid (b : DrainBind) : Nat := fieldOf b.w 15 0
end DrainBind

/-- The monitor table as read (R250). -/
structure MonTable where
  base : Nat
  sz : Nat
  tens : List TensEntry
  binds : List DrainBind

/-- The TIDs of entries ascend with ranges that do not overlap (R251). -/
def tensAscend : List TensEntry → Bool
  | a :: b :: rest => decide (a.last < b.tid) && tensAscend (b :: rest)
  | _ => true

/-- NTENS and NBIND of a header (R250). -/
def monNtens (bs : List Byte) : Nat := fieldOf (fieldAt bs 0 8) 8 0
def monNbind (bs : List Byte) : Nat := fieldOf (fieldAt bs 0 8) 24 16

/-- The lines that hold the header, the tensor entries and the drain bindings that a header counts (R250). -/
def monLines (bs : List Byte) : Nat :=
  ceilDiv (max (64 + 16 * monNtens bs) (if monNbind bs = 0 then 0 else 4160 + 8 * monNbind bs)) 64

/-- The table that bytes spell, when it is valid (R251): the conditions of that rule and no other, so that a header may count more
entries than R250 gives room for, and LOGBASE or a TID need not be aligned (log 85). -/
def monTable (p : Part) (bs : List Byte) : Option MonTable :=
  let w := fun o => fieldAt bs o 8
  let ntens := monNtens bs
  let nbind := monNbind bs
  let t : MonTable := ⟨w 8 % 2 ^ 48, w 16 % 32,
    (List.range ntens).map fun n => ⟨w (64 + 16 * n), w (72 + 16 * n)⟩,
    (List.range nbind).map fun n => ⟨w (4160 + 8 * n)⟩⟩
  let ok := decide (w 0 / 2 ^ 25 = 0) && decide (fieldOf (w 0) 15 9 = 0)
    && decide (w 8 < 2 ^ 48) && decide (w 16 < 32) && decide (6 ≤ t.sz) && decide (t.sz ≤ 20)
    && ([24, 32, 40, 48, 56].all fun o => w o == 0)
    && t.tens.all TensEntry.ok && tensAscend t.tens
    && (t.binds.all fun b => decide (b.w < 2 ^ 49) && p.hasCore b.core && aligned b.daddr 64 && decide (b.daddr < tableBase))
    && distinct (t.binds.map fun b => b.core * 2 ^ 22 + b.daddr)
  if ok then some t else none

/-- The identifier under which counts are gathered (R252). -/
def countTid (t : MonTable) (n : MonCount) : Option Nat :=
  if n.drain then (t.binds.find? fun b => b.core == n.core && b.daddr == n.daddr).map DrainBind.tid else some n.tid

/-- Counts gathered under an entry. -/
def gathered (t : MonTable) (e : TensEntry) (l : List MonCount) : List MonCount :=
  l.filter fun n => (countTid t n).any fun i => decide (e.tid ≤ i) && decide (i ≤ e.last)

/-- A share (R252). -/
def share (n total : Nat) : Nat := if total = 0 then 0 else 65536 * n / total

/-- A log entry (R253) as bytes, with whether it trips. -/
def logOf (turn seq : Nat) (e : TensEntry) (l : List MonCount) : Bool × List Byte :=
  let top := 2 ^ 32 - 1
  let sum := fun (f : MonCount → Nat) => (l.map f).sum
  let held := fun (f : MonCount → Nat) => min (sum f) top
  let ne := held MonCount.nelem
  let nz := held MonCount.nzero
  let ns := held MonCount.nsat
  let nn := held MonCount.nnonf
  let nrun := (l.filter fun n => !n.drain).length
  let ndr := (l.filter (·.drain)).length
  let zs := share nz ne
  let ss := share ns ne
  let nsh := share nn ne
  let zt := bitOf e.w0 20 && decide (e.zth < zs)
  let st := bitOf e.w0 21 && decide (e.sth < ss)
  let nt := bitOf e.w0 22 && decide (e.nth < nsh)
  let full := fun (f : MonCount → Nat) => decide (top < sum f) || l.any fun n => f n == top
  let cap := full MonCount.nelem || full MonCount.nzero || full MonCount.nsat || full MonCount.nnonf
    || decide (65535 < nrun) || decide (65535 < ndr)
  let fl := b2n zt + 2 * b2n st + 4 * b2n nt + 8 * b2n (l.any (·.fault)) + 16 * b2n cap
  (zt || st || nt,
    leBytes turn 6 ++ leBytes e.tid 2 ++ leBytes ne 4 ++ leBytes nz 4 ++ leBytes ns 4 ++ leBytes nn 4
    ++ leBytes zs 4 ++ leBytes ss 4 ++ leBytes nsh 8 ++ leBytes (min nrun 65535) 2 ++ leBytes (min ndr 65535) 6
    ++ leBytes fl 8 ++ leBytes seq 8)

/-- The entry of a turn whose table is invalid (R253). -/
def badTableLog (turn seq : Nat) : Bool × List Byte :=
  (false, leBytes turn 8 ++ List.replicate 40 0 ++ leBytes 32 8 ++ leBytes seq 8)

/-- The table at MONTAB as it is read (R250, R251): LOGBASE and LOGSZ of the header as it stands, and the table when it is valid.
MONTAB is a device virtual address (log 34); a table whose header cannot be read gives no place for an entry (log 85). -/
def readTable (q : Nat) (s : State) : State × Option (Nat × Nat) × Option MonTable :=
  let p := s.part q
  match peekLines q 1 p.mon.montab s with
  | (s, none) => (s, none, none)
  | (s, some h) =>
    let (s, bs) := peekLines q (monLines h) p.mon.montab s
    (s, some (fieldAt h 8 8 % 2 ^ 48, fieldAt h 16 8 % 32), bs.bind (monTable p))

/-- What the monitor makes of a turn's counts (R252, R253, R255): the log entries with whether any check trips. -/
def turnLogs (turn : Nat) (m : Monitor) (t : Option MonTable) : List (Bool × List Byte) :=
  match t with
  | none => [badTableLog turn m.seq]
  | some t =>
    let es := t.tens.filter fun e => !(gathered t e m.counts).isEmpty
    es.zipIdx.map fun (e : TensEntry × Nat) => logOf turn (m.seq + e.2) e.1 (gathered t e.1 m.counts)

/-- The entries of turn N once it has completed, and its threshold flag, which names turn N + 1 (R251 to R255). They go to the ring
that the table of turn N names. -/
def monitorTurn (q : Nat) (s : State) : State :=
  let p := s.part q
  if p.mon.montab = 0 then s
  else
    let (s, place, t) := readTable q s
    let logs := turnLogs p.turn p.mon t
    let (b, z) := place.getD (0, 0)
    s.updPart q fun p =>
      let m := p.mon
      { p with mon := { m with
          counts := []
          flags := if logs.any (·.1) then m.flags ++ [p.turn + 1] else m.flags
          logQ := m.logQ ++ logs.map fun e => (b, z, e.2)
          seq := m.seq + logs.length } }

/-- MONITOR_COUNTS (R249): the monitor accepts the counts that have been on their way longest, of the lowest core. -/
def execMonitorCounts (q : PartId) (s : State) : Answer :=
  .next (match (s.part q).phys.find? fun c => !(s.core c).jobs.counts.isEmpty with
    | some c =>
      if (s.part q).st = .running then
        let n := (s.core c).jobs.counts.take 1
        (s.updCore c fun x => { x with jobs := { x.jobs with counts := x.jobs.counts.drop 1 } }).updPart q fun p =>
          { p with mon := { p.mon with counts := p.mon.counts ++ n } }
      else s
    | none => s)

/-- The place of an entry in the ring (R254): the place comes from its SEQ. -/
def logAddr (base size : Nat) (bytes : List Byte) : Nat := base + 64 * ((fieldAt bytes 56 8 - 1) % 2 ^ size)

/-- The translation of a log write. -/
def logXlate (q va : Nat) (s : State) : State × Xl :=
  if inLocal va then (s, .fail xLocalWindow 0 0) else walkRead q va true s

/-- Bytes of a log entry are written within one line. -/
def logPart (q va : Nat) (bytes : List Byte) (e : TlbEntry) (s : State) : State :=
  let o := va % 64
  let r := { mkReq q 0xFFF (s.part q).turn e.ro (e.at va / 64) .monitor s with chk := false }
  submit (r.writing (padTo 64 (List.replicate o 0 ++ bytes)) ((2 ^ bytes.length - 1) * 2 ^ o) 0) s

/-- A log write has failed (R254). -/
def logFails (q base cause : Nat) (s : State) : State :=
  logEvent { LogEntry.ofCode 0x0025 .info with
    part := some q, src := 0x10 + (s.part q).masterBed, addr := base, d0 := cause }
    (s.updPart q fun p => { p with mon := { p.mon with logQ := p.mon.logQ.drop 1, failed := true } })

/-- The log write that has waited longest (R254): an entry whose LOGBASE is not a multiple of 64 lies in two lines. -/
def logWrite (q base size : Nat) (bytes : List Byte) (s : State) : State :=
  let drop := fun (s : State) => s.updPart q fun p => { p with mon := { p.mon with logQ := p.mon.logQ.drop 1 } }
  if (s.part q).mon.failed then drop s
  else
    let va := logAddr base size bytes
    let k := 64 - va % 64
    let (s, x) := logXlate q va s
    let (s, y) := if k = 64 then (s, x) else logXlate q (va + k) s
    match x, y with
    | .ok e, .ok f =>
      let s := logPart q va (bytes.take k) e (drop s)
      if k = 64 then s else logPart q (va + k) (bytes.drop k) f s
    | .fail cause _ _, _ => if cause = xMigrating then s else logFails q base cause s
    | _, .fail cause _ _ => if cause = xMigrating then s else logFails q base cause s

/-- NUMERICS_LOG_WRITE (R253 to R255). -/
def execNumericsLogWrite (q : PartId) (s : State) : Answer :=
  .next (match (s.part q).mon.logQ with
    | (base, size, bytes) :: _ => logWrite q base size bytes s
    | [] => s)

end Sys2Proof.Machine
end

