-- ==== Sys2Proof/Machine/Turn.lean ====
section
/-! DEFINITION. The turn (R30 to R34, R41 to R47, R54, R59, R132 to R135, R255, R256, R320, R405, R427): turn-done reports, the
spur, what a boundary applies, and the stops at a boundary or a quiescent point. -/

namespace Sys2Proof.Machine

/-- Condition 1 of R41 for a turn. -/
def TurnUnit.clearOf (t : TurnUnit) (turn : Nat) : Bool := t.queue.all fun e => decide (turn < e.turn)

/-- Condition 1 of R41 for the unit's own turn. -/
def TurnUnit.queueClear (t : TurnUnit) : Bool := t.clearOf t.turn

/-- Conditions 1 and 2 of R41 for a core's drain unit in the turn that the core is in, and the acceptance of its counts
(R249). -/
def Core.drainClear (x : Core) : Bool :=
  x.dtu.clearOf x.tu.turn && x.jobs.drains.isEmpty && !(x.jobs.counts.any (·.drain))

/-- The actions and deliveries of a core itself that keep it from reporting (R41, R134, R135, R247, R249). -/
def Core.coreClear (x : Core) (q : Part) : Bool :=
  x.tu.queueClear && x.jobs.passes.isEmpty && x.jobs.runs.isEmpty && x.jobs.counts.isEmpty
  && !(q.postQ.any fun y => y.lcore == x.lcore)
  && x.tx.isEmpty && x.twait && x.delay.isNone && x.drainClear
  && x.pend.vfault.isNone && x.pend.mfaults.isEmpty && x.pend.imm.isEmpty && x.pend.heldExc.isEmpty
  && x.far.wcb.isEmpty && !(x.far.mshr.any fun e => e.2.busy) && decide (x.halt = 0)

/-- No request of a requester is still to be acknowledged (R41 condition 3). -/
def quiet (q : Nat) (p : Requester → Bool) (s : State) : Bool := !anyReq (fun r => r.part == q && p r.who) s

/-- A requester is one of a core's own accesses. -/
def Requester.ofCore (c : Nat) : Requester → Bool
  | .miss d _ => d == c
  | .wcb d => d == c
  | _ => false

/-- The conditions of R41 for a unit. -/
def unitReady (q : Nat) (u : UnitRef) (s : State) : Bool :=
  let p := s.part q
  match u with
  | .core c => (s.core c).coreClear p && quiet q (Requester.ofCore c) s
  | .mover c =>
    let x := s.core c
    x.mtu.queueClear && x.jobs.moves.isEmpty && !(p.notifies.any fun n => n.sender == .core c)
    && quiet q (fun r => r == .mover c) s && x.tu.done
  | .drain c => (s.core c).drainClear && (s.core c).tu.done
  | .bulk d =>
    let b := SMap.get Bulk.reset q (s.die d).bulk
    b.tu.queueClear && b.moves.isEmpty && !(p.notifies.any fun n => n.sender == .bulk d)
    && quiet q (fun r => r == .bulk d) s
    && (p.phys.all fun c => dieOfCore c != d || (s.core c).tu.done)
  | .reg k => (SMap.get Regulator.reset q (s.stack k).regs).tu.queueClear
  | .recorder =>
    p.turnEnds.isEmpty && quiet q (fun r => r == .recorder) s
    && (p.units.all fun v => v == .recorder || (unitTu q v s).done)

/-- Every unit of a partition has reported turn done for the open turn; turn 0 has no reports (R33, R42). -/
def turnComplete (q : Nat) (s : State) : Bool :=
  (s.part q).turn == 0 || (s.part q).units.all fun u => (unitTu q u s).done

/-- The modules of a partition's span (R460), and this module's member number. -/
def Part.span (x : Part) : Nat := (x.cfg.map (·.span)).getD 1
def Part.member (x : Part) : Nat := (x.cfg.map (·.member)).getD 0

/-- The turn relay of a module that is not the master's forwards the count of its units (R60). -/
def forwardDone (q : Nat) (s : State) : State :=
  let p := s.part q
  if p.member = 0 then s else s.emit (.spanDone q p.turn p.units.length)

/-- What follows the last report of a turn (R60, R253, R427). -/
def completeTurn (q : Nat) (s : State) : State :=
  if turnComplete q s then forwardDone q ((monitorTurn q s).updPart q (closeTurn false)) else s

/-- TURN_DONE (R41): a unit reports. -/
def execTurnDone (q : PartId) (u : UnitRef) (s : State) : Answer :=
  let p := s.part q
  let t := unitTu q u s
  .next (if p.st = .running ∧ p.units.contains u = true ∧ t.done = false ∧ 1 ≤ t.turn ∧ t.turn = p.turn
      ∧ unitReady q u s = true then
    completeTurn q (updTu q u (fun t => { t with done := true }) s) else s)

/-- Lines of a partition's quota on a bed die. -/
def Part.bedLines (x : Part) (b : Nat) : Nat := ((x.bedAt.filter fun e => e.1 == b).map fun e => e.2.2 * 32768).sum

/-- Every bed die has reported its sweep of a partition's quota (R54, R291). -/
def sweepDone (q : Nat) (s : State) : Bool := s.beds.all fun e => SMap.get 0 q e.2.sweepLeft == 0

/-- The bed dies begin a block of 16,384 turns for a partition. -/
def startSweep (q : Nat) (s : State) : State :=
  (List.range 4).foldl (fun s b => s.updBed b fun x => { x with
    sweepLeft := SMap.set 0 q ((s.part q).bedLines b) x.sweepLeft }) s

/-- A fetch that is not complete is discarded (R372). -/
def Part.noFetch (p : Part) : Part :=
  { p with streams := p.streams.map fun e => (e.1, e.2.map fun y => { y with fetch := none }) }

/-- The stop of a RUNNING partition at a point where no unit acts (R59, R372): the turn is complete, or it resumes. -/
def stopAt (q : Nat) (how : StopHow) (stat : Nat) (incomplete : Bool) (s : State) : State :=
  let s := s.updPart q fun p => { p.noFetch with st := .stopped, stopStat := stat, incomplete := incomplete, how := how }
  if byCommand .stopped (s.part q) then finishStop q s else notifyPart 1 q s

/-- The words of a notice in a core's rescue area (R73, R133). -/
def noticeWords (count kind turn va len : Nat) : List TWord :=
  [.int (BitVec.ofNat 64 (count * 2 ^ 32 + kind)), .int (BitVec.ofNat 64 turn), .int (BitVec.ofNat 64 va),
    .int (BitVec.ofNat 64 len)]

/-- A notice is posted to every core of a partition (R133): `turn` is the turn it names, the event belongs to the turn
before. A notice that names the same turn as an earlier one is counted with it. -/
def postNotice (q kind turn va len : Nat) (s : State) : State :=
  (s.part q).phys.foldl (fun s c => s.updCore c fun x =>
    let old := x.word (rescueWord + 48)
    let same := decide ((x.word (rescueWord + 49)).data.toNat = turn)
    let n := if same then wf64 old.data 63 32 + 1 else 1
    (putWords (rescueWord + 48) (noticeWords n kind turn va len) x).event 23 (turn - 1)) s

/-- The regions and windows of a partition after one mapping change (R95, R320). A closed window leaves the regions that a
migration has taken out of it, which count as mappings of HBM capacity (R401, DEDUCED, log 38). -/
def changed (c : MapChange) (owner : PortId) (rs : List Region) (ws : SMap (Option Window)) :
    List Region × SMap (Option Window) :=
  match c.kind with
  | .map =>
    (regionsOutside c.va c.len rs ++ c.pieces.map (fun e => ⟨e.1, e.2.1, e.2.2, c.w, c.ro, false⟩), ws)
  | .unmap => (regionsOutside c.va c.len rs, ws)
  | .windowOpen =>
    match c.window with
    | some (i, some w) =>
      (rs ++ [⟨w.dva, w.len, hostBase owner + w.iova, w.writable, false, false⟩], SMap.set none i (some w) ws)
    | _ => (rs, ws)
  | .windowClose =>
    match c.window with
    | some (i, _) =>
      (rs.flatMap (fun g => if g.pa < hostBase .a then [g] else regionsOutside c.va c.len [g]), SMap.set none i none ws)
    | none => (rs, ws)
  | .migrated => (rs, ws)

/-- One mapping change takes effect at the boundary before turn `turn` (R133, R320); of a migration only the notice is
left. -/
def applyChange (q turn : Nat) (c : MapChange) (s : State) : State :=
  if c.kind = .migrated then postNotice q 2 turn c.va c.len s
  else
    let p := s.part q
    let (rs, ws) := changed c p.owner p.regions p.windows
    let s := s.updPart q fun p => { setRegions q rs p with windows := ws }
    postNotice q 1 turn c.va c.len (invalidate q c.va c.len s)

/-- The mapping changes due at a boundary, in the order in which their commands completed; in a replay those recorded for the
turn (R433). -/
def MapChange.due (turn : Nat) (c : MapChange) : Bool := decide (c.turn = 0 ∨ c.turn = turn)

/-- The boundary's mapping changes take effect (R320). -/
def applyChanges (q turn : Nat) (l : List MapChange) (s : State) : State :=
  l.foldl (fun s c => applyChange q turn c s) (s.updPart q fun p => { p with changes := p.changes.filter fun c => !c.due turn })

/-- The commands that took effect at the boundary are recorded (R427). -/
def recordChanges (q : Nat) (l : List MapChange) (s : State) : State :=
  (l.filter fun c => c.kind != .migrated).foldl (fun s c => recInput q 0x12 0xFFFF c.key c.opcode c.params s) s

/-- The record that a new mode takes the place of ends (R405, R431). -/
def endOldRecord (q : Nat) (s : State) : State := if (s.part q).recNext.isSome then recEnd q 0 s else s

/-- A recording mode takes effect (R405, R427, R431), once the mappings of the turn hold. -/
def applyRecord (q : Nat) (s : State) : State :=
  match (s.part q).recNext with
  | none => s
  | some (mode, va, len) =>
    let s := s.updPart q fun p => { p with recNext := none }
    if mode = 0 then s.updPart q fun p => { p with recd := { p.recd with mode := 0 } } else recStart q mode va len s

/-- The seed in force from the turn that begins (R258, R399, R427), in a replay the recorded one (R433). -/
def applySeed (q turn : Nat) (s : State) : State :=
  let p := s.part q
  let rec' := (p.replay.bind fun y => y.items.find? fun i => i.kind == 0x13 && i.turn == turn).map fun i =>
    BitVec.ofNat 64 (leNat i.content)
  match rec'.orElse fun _ => p.seedNext with
  | some v => recInput q 0x13 0xFFFF 0 0 (leBytes v.toNat 8) (s.updPart q fun p => { p with seed := v, seedNext := none })
  | none => if turn = 1 then recInput q 0x13 0xFFFF 0 0 (leBytes p.seed.toNat 8) s else s

/-- The host physical address of a device virtual address in a partition's windows. -/
def Part.windowPa (p : Part) (va : Nat) : Option Nat :=
  (p.windows.find? fun e => e.2.any fun w => decide (w.dva ≤ va) && decide (va < w.dva + w.len)).bind fun e =>
    e.2.map fun w => hostBase p.owner + w.iova + (va - w.dva)

/-- One recorded migration installed in a replay (R433); its notice names the turn after its own (R133). -/
def installItem (p : Part) (i : RecItem) : Part :=
  match p.windowPa i.key with
  | some pa => { p with
      replay := p.replay.map fun y => { y with migrAt := y.migrAt ++ [pa], migrMem := Mem.write y.migrMem pa i.content }
      changes := p.changes ++ [⟨.migrated, i.key, 0x200000, [], false, false, none, 0, [], 0, i.turn + 1⟩] }
  | none => p

/-- The contents of the migrations recorded for the turn are installed at its start (R433). -/
def installMigrations (q turn : Nat) (s : State) : State :=
  let due := ((s.part q).replay.map fun y => y.items.filter fun i => i.kind == 0x14 && i.turn == turn).getD []
  s.updPart q fun p => due.foldl installItem p

/-- Bytes that the firmware writes at a device virtual address of a partition, line by line. -/
def pokeBytes (q : Nat) : (fuel : Nat) → (va : Nat) → List Byte → State → State
  | 0, _, _, s => s
  | n + 1, va, bs, s =>
    if bs.isEmpty then s else
      let o := va % 64
      let k := min (64 - o) bs.length
      let s := match walk q va false s with
        | .ok e => lineWrite (e.at va / 64 * 64) (padTo 64 (List.replicate o 0 ++ bs.take k)) ((2 ^ k - 1) * 2 ^ o) 0 s
        | .fail _ _ _ => s
      pokeBytes q n (va + k) (bs.drop k) s

/-- What the firmware writes at the end of turn 0, once the mappings hold: the image's monitor table (R250, log 34). -/
def endTurn0 (q : Nat) (s : State) : State :=
  match (s.part q).img with
  | some i => pokeBytes q (i.parts.montabData.length / 64 + 2) i.parts.montab i.parts.montabData s
  | none => s

/-- The master of a span sends its spur to the other modules (R60). -/
def sendSpur (q : Nat) (s : State) : State :=
  let p := s.part q
  if p.member = 0 ∧ 1 < p.span then s.emit (.spanSpur q p.turn) else s

/-- The spur for turn n + 1 is broadcast: what the boundary applies, the new turn, the units it travels to (R45, R49, R54, R60,
R405). -/
def broadcast (q : Nat) (s : State) : State :=
  let n := (s.part q).turn
  let due := (s.part q).changes.filter (MapChange.due (n + 1))
  let s := s.updPart q fun p => { p with
    turn := n + 1
    caps := p.capsNext.getD p.caps
    capsNext := none
    recd := { p.recd with lines := [] }
    replay := p.replay.map fun y => { y with lines := [] }
    mon := { p.mon with flags := p.mon.flags.filter fun t => decide (n ≤ t) } }
  let s := applyRecord q (applyChanges q (n + 1) due (endOldRecord q s))
  let s := applySeed q (n + 1) (recordChanges q due s)
  let s := installMigrations q (n + 1) (if n = 0 then endTurn0 q s else s)
  let s := if n = 0 ∨ (n + 1) % 16384 = 0 then startSweep q s else s
  sendSpur q (s.updPart q fun p => { p with spurTo := p.units })

/-- The holds of R47 on a complete turn. -/
def spurHeld (q : Nat) (s : State) : Bool :=
  let p := s.part q
  (p.turn % 16384 == 16383 && !sweepDone q s) || s.hs.routeHold.contains q
  || (p.replay.any fun y => decide (y.last ≤ p.turn))

/-- A command, seed or migration item recorded for a turn whose contents fail its digest (R433). -/
def badItem (p : Part) (turn : Nat) : Bool :=
  p.replay.any fun y => y.items.any fun i =>
    (i.kind == 0x12 || i.kind == 0x13 || i.kind == 0x14) && i.turn == turn && sha256 i.content != i.digest

/-- The turn master, once every report has come (R45). -/
def masterSpur (q : Nat) (s : State) : State :=
  let p := s.part q
  if p.st = .running ∧ p.spurTo = [] ∧ turnComplete q s = true then
    (if p.stopReq.isSome then (if p.mon.logQ.isEmpty then stopAt q .boundary p.stopStat false s else s)
    else if p.turn = 2 ^ 48 - 2 then stopAt q .boundary stBadCommand true s
    else if spurHeld q s then s
    else if badItem p (p.turn + 1) then replayDiverge q (p.turn + 1) 0xFFFE 0xFF s
    else broadcast q s)
  else s

/-- The spur reaches a unit's counter (R43, R350). -/
def TurnUnit.spur (turn : Nat) (t : TurnUnit) : TurnUnit := { t with turn := turn, done := false, tclk := 0, exceeded := false }

/-- The spur reaches a core (R43, R49, R135, R187, R247): its far cache drops what is not read-only, its counter is set, the
deliveries that come once in a turn may come again, and a core in TWAIT resumes with the events of the old turn held. A core that a
Debug exception took out of TWAIT after its report goes on in its handler: nothing is held, and the events wait for the next spur
that finds it in TWAIT (DESIGN CHOICE, log 80). -/
def coreSpur (turn : Nat) (flag : Bool) (x : Core) : Core :=
  let f := { x.far with lines := x.far.lines.filter fun e => e.2.ro }
  let x := { x with far := f, tu := x.tu.spur turn, pend := { x.pend with mdone := false, vdone := false } }
  let x := if flag then x.event 21 (turn - 1) else x
  if x.twait then { x.holdTurn turn with twait := false } else x

/-- A spur whose turn is the counter's plus 1 takes effect at a unit (R43). -/
def takeSpur (q : Nat) (u : UnitRef) (turn : Nat) (s : State) : State :=
  let flag := (s.part q).mon.flags.contains (turn - 1)
  let s := s.updPart q fun p => { p with spurTo := p.spurTo.filter fun v => v != u }
  match u with
  | .core c => s.updCore c (coreSpur turn flag)
  | u => updTu q u (TurnUnit.spur turn) s

/-- The core that hears of a unit's Mesh Error (R44). The rule gives a unit of no core none: a bulk mover's is heard by the
partition's lowest core on its die, another unit's by the partition's lowest core (DESIGN CHOICE, log 80). -/
def meshErrorCore (q : Nat) (u : UnitRef) (s : State) : Nat :=
  match u with
  | .core c => c
  | .mover c => c
  | .drain c => c
  | .bulk d => ((s.part q).phys.find? fun c => dieOfCore c == d).getD 0
  | .reg _ => (s.part q).phys.headD 0
  | .recorder => (s.part q).phys.headD 0

/-- The race unit or logical core that names a unit in a fault-log entry (R289, R422). -/
def unitCode (u : UnitRef) (s : State) : Nat :=
  match u with
  | .core c => (s.core c).lcore
  | .mover c => (s.core c).lcore
  | .drain c => (s.core c).lcore
  | .bulk d => 0x800 + d
  | .reg _ => 0xFFFF
  | .recorder => 0xFFFF

/-- The source of a unit's fault-log entries (R422). -/
def unitSrc (u : UnitRef) : Nat :=
  match u with
  | .core c => dieOfCore c
  | .mover c => dieOfCore c
  | .drain c => dieOfCore c
  | .bulk d => d
  | .reg k => 0x30 + k
  | .recorder => 0x20

/-- A spur that is not the counter plus 1 (R44). -/
def spurMismatch (q : Nat) (u : UnitRef) (turn : Nat) (s : State) : State :=
  let held := (unitTu q u s).turn
  let s := raiseImmediate (meshErrorCore q u s) 14 s
  faultPart q (logEvent { LogEntry.ofCode 0x0013 .stop with
    part := some q, src := unitSrc u, unit := unitCode u s, d0 := turn, d1 := held } s)

/-- The handshake of R460 succeeds: every other member answers exactly once, agrees on the span, can start at this turn, and
can be reached. -/
def handshakeOk (c : PartCfg) (turn : Nat) (l : List SpanAnswer) : Bool :=
  (l.length == c.span - 1)
  && (((List.range c.span).filter (· != c.member)).all fun k => (l.filter fun a => a.member == k).length == 1)
  && l.all fun a => a.spanId == c.spanId && a.span == c.span && a.startable && a.reachable && a.turn == turn

/-- The partition runs, from its turn boundary or from the quiescent point at which it stopped (R32, R33, R338); the handshake of a
span has fixed its routes and told which logical cores the other members carry (R346, R460). -/
def startPart (q : Nat) (span : List SpanAnswer) (s : State) : State :=
  s.updPart q fun x => { x with
    st := .running
    stopStat := 0
    nd := x.nd || (x.cfg.any (·.raceOff))
    caps := if span.isEmpty then x.caps else { x.caps with hops := (span.map (·.hops)).foldl max 0 }
    remote := span.flatMap (·.cores) }

/-- The status with which PART_START is refused in a partition that is not RUNNING (R338, R353). -/
def startRefusal (x : Part) : Option Nat :=
  if x.st = .faulted then some x.stopStat
  else if x.revoked then some stRevoked
  else if x.st = .stopped ∧ x.incomplete = true then some x.stopStat
  else none

/-- A PART_START on member 0 starts this member too (R460). -/
def memberStart (q : Nat) (answers : List SpanAnswer) (s : State) : State :=
  let x := s.part q
  match x.cfg with
  | some c =>
    if (x.st = .configured ∨ x.st = .stopped) ∧ c.member ≠ 0 ∧ startRefusal x = none ∧ handshakeOk c x.turn answers = true then
      startPart q answers s
    else s
  | none => s

/-- The turn relay of a member that is not member 0 gets the master's spur (R44, R60): it broadcasts it on its own module. -/
def relaySpur (q turn : Nat) (s : State) : State :=
  let p := s.part q
  if p.st = .running ∧ p.spurTo = [] then
    (if turn ≠ p.turn + 1 then spurMismatch q (p.units.headD .recorder) turn s
    else if turnComplete q s then broadcast q s
    else s)
  else s

/-- A member that is not member 0 stops at a boundary for which the master has sent no spur (R59; DESIGN CHOICE, log 80). -/
def memberStop (q : Nat) (s : State) : State :=
  let p := s.part q
  if p.st = .running ∧ p.spurTo = [] ∧ turnComplete q s = true ∧ p.stopReq.isSome = true ∧ p.mon.logQ.isEmpty = true then
    stopAt q .boundary p.stopStat false s
  else s

/-- SPUR_BROADCAST (R45, R60, R460): at the turn master, which waits for the counts of every other member of a span; at the relay of
a member, with the master's spur or its start. -/
def execSpurBroadcast (b : SpurFrom) (s : State) : Answer :=
  let q := b.part
  let p := s.part q
  .next (match b.span with
    | .alone => if p.span ≤ 1 then masterSpur q s else if p.member ≠ 0 then memberStop q s else s
    | .counts => if 1 < p.span ∧ p.member = 0 then masterSpur q s else s
    | .spur turn => if 1 < p.span ∧ p.member ≠ 0 then relaySpur q turn s else s
    | .start answers => if 1 < p.span then memberStart q answers s else s)

/-- SPUR_RECEIPT (R43, R44). -/
def execSpurReceipt (q : PartId) (u : UnitRef) (turn : Nat) (s : State) : Answer :=
  let p := s.part q
  .next (if p.st = .running ∧ p.units.contains u = true then
    (if turn ≠ (unitTu q u s).turn + 1 then spurMismatch q u turn s
    else if p.spurTo.contains u then takeSpur q u turn s
    else s)
  else s)

/-- The frame that the stream at the head of a core's queue needs next has been fetched (R39, R372). -/
def frameReady (p : Part) (m : Nat) : Bool :=
  match SMap.get none m p.streams with
  | some y => (SMap.get Frame.none y.next y.frames).fetched
  | none => false

/-- A core's queue head is a launch whose turn has come and whose frame has not been fetched (R59). The descriptor's first
word names the stream (R373). -/
def launchWaits (q : Nat) (x : Core) (s : State) : Bool :=
  match x.tu.queue with
  | e :: _ => e.kind == .launch && decide (e.turn ≤ x.tu.turn)
      && !frameReady (s.part q) (wf64 (x.word (e.handle / 8)).data 5 0)
  | [] => false

/-- A unit stands at a quiescent point (R59). The mover, drain unit and bulk mover of a core that waits lack only that core's
report (DEDUCED, log 35). -/
def quiescent (q : Nat) (u : UnitRef) (s : State) : Bool :=
  let p := s.part q
  let idle := fun (c : Nat) => (s.core c).tu.done ||
    (launchWaits q (s.core c) s && (s.core c).twait
      && (let x := s.core c; { x with tu := { x.tu with queue := [] } }.coreClear p) && quiet q (Requester.ofCore c) s)
  (unitTu q u s).done ||
  match u with
  | .core c => idle c
  | .mover c => idle c && (s.core c).mtu.queueClear && (s.core c).jobs.moves.isEmpty
      && !(p.notifies.any fun n => n.sender == .core c) && quiet q (fun r => r == .mover c) s
  | .drain c => idle c && (s.core c).drainClear
  | .bulk d =>
    let b := SMap.get Bulk.reset q (s.die d).bulk
    b.tu.queueClear && b.moves.isEmpty && !(p.notifies.any fun n => n.sender == .bulk d)
    && quiet q (fun r => r == .bulk d) s && (p.phys.all fun c => dieOfCore c != d || idle c)
  | .reg k => unitReady q (.reg k) s
  | .recorder => p.turnEnds.isEmpty && quiet q (fun r => r == .recorder) s

/-- QUIESCENT_POINT_STOP (R59). -/
def execQuiescentPointStop (q : PartId) (s : State) : Answer :=
  let p := s.part q
  .next (if p.st = .running ∧ p.stopReq.isSome = true ∧ p.spurTo = [] ∧ turnComplete q s = false
      ∧ (p.units.all fun u => quiescent q u s) = true then stopAt q .quiescent p.stopStat false s else s)

/-- PART_STOP_TIMEOUT (R59): 100 ms have passed since the command was accepted. -/
def execPartStopTimeout (q : PartId) (s : State) : Answer :=
  .next (if (s.part q).st = .running ∧ (s.part q).stopReq.isSome = true then stopWithin q .stopped stBadCommand 0 s else s)

end Sys2Proof.Machine
end

