-- ==== Sys2Proof/Machine/FaultQueue.lean ====
section
/-! DEFINITION. TLB walks, fault queues, access counters and hot-page queues of the compute dies, migrations, and host-window
reads that fail (R313 to R315, R325 to R334, R484). -/

namespace Sys2Proof.Machine

/-- A translation user serves a partition (R313). -/
def tlbServes (u : TlbUser) (q : Nat) (s : State) : Bool :=
  match u with
  | .core c => (s.core c).part == some q
  | .die d => (s.part q).onDie d
  | .headstock => (s.part q).st != .empty

/-- The race unit of the host mover that serves a partition (R289): that of its owner's port. -/
def hostMoverUnit (q : Nat) (s : State) : Nat := if (s.part q).owner = .a then 0x810 else 0x811

/-- TLB_WALK (R315, R318, R321): an address that misses is walked; the leaf it reaches enters the TLB. -/
def execTlbWalk (t : TlbUser) (q : PartId) (va : Nat) (write : Bool) (env : Env) (s : State) : Answer :=
  let s := applyUpsets env.upsets s
  .next (if tlbServes t q s && !inLocal va && decide (va < 2 ^ 48) then
      (match translate t q va write s with
        | (s, .ok e) => tlbInstall t e s
        | (s, .fail _ _ _) => s)
    else s)

/-- The mover that an engine of a die is for a partition (R329). -/
def engineMover (d e : Nat) : MoverRef := if e < 108 then .core (coreNum (108 * d + e)) else .bulk (dieNum d)

/-- The stall of a mover's move in hand. -/
def stallOf (d e q : Nat) (s : State) : Option Stall := (movesOf (engineMover d e) q s).head?.bind (·.stall)

/-- The partition and the stall with which an engine waits to enter its die's fault queue: the bulk mover has one fault
outstanding at most, and serves the partitions in turn (R329). -/
def engineFault (d e : Nat) (s : State) : Option (Nat × Stall) :=
  if e < 108 then
    (s.core (108 * d + e)).part.bind fun q => (stallOf d e q s).bind fun x => if x.entry.isNone then some (q, x) else none
  else if allParts.any fun q => (stallOf d e q s).any (·.entry.isSome) then none
  else allParts.findSome? fun q => (stallOf d e q s).map fun x => (q, x)

/-- The entry that a fault merges into (R330 step 1). -/
def mergeEntry (q : Nat) (f : Stall) (x : Die) : Option Nat :=
  firstFrom (fun n =>
    let e := SMap.get FqEntry.free n x.fq
    e.valid && e.part == q && e.va / 4096 == f.va / 4096 && e.cause == f.cause && decide (x.cclk ≤ e.cclk + 64)) 0 256

/-- An entry created (R330 step 2, R331). -/
def newEntry (d e q : Nat) (f : Stall) (s : State) : FqEntry :=
  let x := s.die d
  ⟨true, f.write, q, f.level, f.cause, f.va, f.teaddr, x.refcyc, [e], (s.part q).turn, x.cclk⟩

/-- The fault of an engine enters entry n. -/
def putFault (d e q n : Nat) (y : FqEntry) (s : State) : State :=
  updHead (engineMover d e) q (fun j => { j with stall := j.stall.map fun f => { f with entry := some n } })
    (s.updDie d fun x => { x with fq := SMap.set FqEntry.free n y x.fq })

/-- The fault of an engine merges, or takes the lowest free entry; none when the queue is full (R330). -/
def enterFault (d e : Nat) (s : State) : Option State :=
  (engineFault d e s).bind fun (q, f) =>
    let x := s.die d
    match mergeEntry q f x with
    | some n =>
      let y := SMap.get FqEntry.free n x.fq
      some (putFault d e q n { y with write := y.write || f.write, engines := y.engines ++ [e] } s)
    | none => (firstFrom (fun n => !(SMap.get FqEntry.free n x.fq).valid) 0 256).map fun n =>
        putFault d e q n (newEntry d e q f s) s

/-- The stalled engines enter in the order in which their faults occurred, as entries free (R330 step 3). -/
def enterStalled (d : Nat) : (fuel : Nat) → State → State
  | 0, s => s
  | n + 1, s =>
    match (s.die d).stalled with
    | [] => s
    | e :: rest =>
      let drop := fun (s : State) => s.updDie d fun x => { x with stalled := rest }
      if (engineFault d e s).isNone then enterStalled d n (drop s)
      else match enterFault d e s with
        | some s => enterStalled d n (drop s)
        | none => s

/-- FAULT_QUEUE_ENTER (R330): a fault merges or takes a free entry behind those that wait, else its engine stays stalled. -/
def execFaultQueueEnter (d : DieId) (engine : Fin 109) (s : State) : Answer :=
  let s := enterStalled d 110 s
  let x := s.die d
  .next (match engineFault d engine s with
    | none => s
    | some (q, f) =>
      if x.stalled.contains engine then s
      else
        let stall := s.updDie d fun x => { x with stalled := x.stalled ++ [engine.val], fqOvf := true }
        if x.stalled.isEmpty || (mergeEntry q f x).isSome then (enterFault d engine s).getD stall else stall)

/-- An engine of a freed entry issues its stalled request again (R332). -/
def retryEngine (d q n : Nat) (s : State) (e : Nat) : State :=
  let m := engineMover d e
  match stallOf d e q s with
  | some f =>
    if f.entry = some n then
      let s := updHead m q (fun j => { j with stall := none }) s
      let s := if e < 108 then s.updCore (108 * d + e) (fun x => x.event 22 x.mtu.turn) else s
      moveOn m q false Env.quiet s
    else s
  | none => s

/-- The bad resume of R332. -/
def badResume (d : Nat) (s : State) : State := s.updDie d fun x => { x with badRes := true }

/-- FQ_RESUME with retry (R332): the entry is freed, its engines go on, and the stalled ones enter. -/
def fqRetry (d n : Nat) (s : State) : State :=
  let y := SMap.get FqEntry.free n (s.die d).fq
  if y.valid then
    let s := s.updDie d fun x => { x with fq := SMap.set FqEntry.free n FqEntry.free x.fq }
    enterStalled d 110 (y.engines.foldl (retryEngine d y.part n) s)
  else badResume d s

/-- An engine of an aborted entry ends its move (R332). -/
def abortEngine (d q n : Nat) (s : State) (e : Nat) : State :=
  match stallOf d e q s with
  | some f => if f.entry = some n then dropMove (engineMover d e) q s else s
  | none => s

/-- Engine bits of an entry, from engine `lo` on, w of them (R331). -/
def engBits (y : FqEntry) (lo w : Nat) : Nat := ((y.engines.filter fun e => decide (lo ≤ e ∧ e < lo + w)).map fun e => 2 ^ (e - lo)).sum

/-- Word 0 of an entry (R331). -/
def fqWord0 (y : FqEntry) : Nat :=
  b2n y.valid * 2 ^ 63 + b2n y.write * 2 ^ 56 + y.part * 2 ^ 52 + y.level * 2 ^ 48 + y.cause * 2 ^ 40 + y.engines.length

/-- The words of an entry (R331). -/
def fqWords (y : FqEntry) : List Nat :=
  [fqWord0 y, y.va % 2 ^ 48, y.teaddr, y.refcyc, engBits y 0 64, engBits y 64 45, y.turn, 0]

/-- FQ_RESUME with abort (R332, R423). -/
def fqAbort (d n : Nat) (s : State) : State :=
  let y := SMap.get FqEntry.free n (s.die d).fq
  if y.valid then
    let s := s.updDie d fun x => { x with fq := SMap.set FqEntry.free n FqEntry.free x.fq }
    let s := y.engines.foldl (abortEngine d y.part n) s
    let s := logEvent { LogEntry.ofCode 0x0022 .stop with
      part := some y.part, src := d, addr := y.va, count := y.engines.length, d0 := fqWord0 y, d1 := engBits y 0 64 } s
    enterStalled d 110 (faultPart y.part s)
  else badResume d s

/-- A migration of the region in which an entry's address lies is under way (R327). -/
def entryMigrating (y : FqEntry) (s : State) : Bool := (s.part y.part).migr.any fun m => inside y.va 1 m.va 0x200000

/-- FQ_RESUME_RETRY (R332 to R334): the firmware, which alone has a die's registers, retries an entry whose cause is MIGRATING once the
migration has ended. -/
def execFqResumeRetry (d : DieId) (entry : Fin 256) (s : State) : Answer :=
  let y := SMap.get FqEntry.free entry (s.die d).fq
  .next (if s.hs.fwRun && (!y.valid || (y.cause == xMigrating && !entryMigrating y s)) then fqRetry d entry s else s)

/-- FQ_RESUME_ABORT (R332 to R334): the firmware aborts an entry with any other cause. -/
def execFqResumeAbort (d : DieId) (entry : Fin 256) (s : State) : Answer :=
  let y := SMap.get FqEntry.free entry (s.die d).fq
  .next (if s.hs.fwRun && (!y.valid || y.cause != xMigrating) then fqAbort d entry s else s)

/-- One counter halved; one that still reaches a threshold that has been lowered is appended and cleared (R325). -/
def decayCtr (x : Die) (e : Nat × AccCtr) : Die :=
  let n := e.2.count / 2
  if x.hotThresh ≠ 0 ∧ x.hotThresh ≤ n then
    hotAppend e.2.part e.2.region { x with acc := SMap.set AccCtr.free e.1 { e.2 with count := 0 } x.acc }
  else { x with acc := SMap.set AccCtr.free e.1 { e.2 with count := n } x.acc }

/-- ACCESS_COUNTER_DECAY (R325): once for every 2^20 cycles of the die's reference-cycle counter. -/
def execAccessCounterDecay (d : DieId) (s : State) : Answer :=
  let x := s.die d
  .next (if x.decayed ≠ x.refcyc / 2 ^ 20 then
      s.updDie d fun x => { x.acc.foldl decayCtr x with decayed := (x.decayed + 1) % 2 ^ 28 }
    else s)

/-- The words of a hot-page entry (R326). -/
def hotWords (h : HotEntry) : Nat × Nat := (h.part % 16 * 2 ^ 48 + h.region % 2 ^ 27 * 2 ^ 21, h.refcyc % 2 ^ 48)

/-- HPQ_HEAD_READ (R326, R334): the firmware takes the oldest entry for the port that owns its partition. -/
def execHpqHeadRead (d : DieId) (s : State) : Answer :=
  .next (if s.hs.fwRun then
      (match (s.die d).hpq with
        | h :: rest =>
          let s := (s.updDie d fun x => { x with hpq := rest }).emit
            (.dieRead d (BitVec.ofNat 64 (hotWords h).1) (BitVec.ofNat 64 (hotWords h).2))
          if (s.part h.part).st = .empty then s
          else s.updPort (s.part h.part).owner fun x => { x with hot := x.hot ++ [h] }
        | [] => s.emit (.dieRead d 0 0))
    else s)

/-- HPQ_STATUS (R334). -/
def hpqStatus (x : Die) : Nat := x.hpqDrop * 2 ^ 32 + x.hpq.length

/-- HPQ_STATUS_READ (R16, R334): the read clears DROP. -/
def execHpqStatusRead (d : DieId) (s : State) : Answer :=
  .next (if s.hs.fwRun then
      (s.emit (.dieRead d (BitVec.ofNat 64 (hpqStatus (s.die d))) 0)).updDie d fun x => { x with hpqDrop := 0 }
    else s)

/-- Bytes that a host mover writes from a device physical address of HBM on, line by line, each through its reorder queue (R294,
R310). -/
def pokeLines (q : Nat) : (fuel : Nat) → (pa : Nat) → List Byte → State → State
  | 0, _, _, s => s
  | n + 1, pa, bs, s =>
    if bs.isEmpty then s
    else
      let r := (mkReq q (hostMoverUnit q s) (s.part q).turn false (pa / 64) .host s).writing (padTo 64 (bs.take 64)) (2 ^ 64 - 1) 0
      pokeLines q n (pa + 64) (bs.drop 64) (submit r s)

/-- The regions of a partition with the part of one in a 2 MiB range changed by f (R327). -/
def changeRegion (va : Nat) (f : Region → Region) (gs : List Region) : List Region :=
  regionsOutside va 0x200000 gs ++ (regionsInside va 0x200000 gs).map f

/-- The address that lies `off` bytes into runs of 2 MiB granules. -/
def granuleAt : List (Nat × Nat) → (off : Nat) → Nat
  | [], _ => 0
  | (g, n) :: rest, off => if off < n * 0x200000 then g * 0x200000 + off else granuleAt rest (off - n * 0x200000)

/-- The device physical address of an offset of a partition's HBM capacity (R314). -/
def hbmTarget (x : Part) (off : Nat) : Nat := granuleAt x.hbmAt off

/-- Every fault-queue entry of a partition whose cause is MIGRATING and whose address lies in a region is resumed (R327 step 4). -/
def retryRegion (q va : Nat) (s : State) : State :=
  (List.range 12).foldl (fun s d =>
    let ns := ((s.die d).fq.filter fun e => e.2.valid && e.2.part == q && e.2.cause == xMigrating && inside e.2.va 1 va 0x200000).map (·.1)
    ns.foldl (fun s n => fqRetry d n s) s) s

/-- A migration ends with its region's leaves as f makes them: every TLB forgets the region, and those that wait go on
(R327). -/
def endMigration (q : Nat) (m : Migration) (f : Region → Region) (s : State) : State :=
  let s := s.updPart q fun p => { setRegions q (changeRegion m.va f p.regions) p with
    regNext := changeRegion m.va f p.regNext, migr := none }
  retryRegion q m.va (invalidate q m.va 0x200000 s)

/-- The restoration of R327: the leaves are host leaves as before. -/
def restoreMigration (q : Nat) (m : Migration) (s : State) : State := endMigration q m (fun g => { g with mig := false }) s

/-- A mover's read of a line that it has translated is under way to a region at a physical address. -/
def readingIn (lo : Nat) (l : List MoveJob) : Bool :=
  l.any fun j => match j.phase with
    | .reading _ _ _ (some pa) => inside pa 1 lo 0x200000
    | _ => false

/-- No access of a partition to host lines of a region is under way (R327 step 1): of its cores and of their movers, or of a bulk
mover. -/
def regionQuiet (q lo : Nat) (s : State) : Bool :=
  ((s.part q).phys.all fun c =>
    let f := (s.core c).far
    (f.wcb.all fun w => !inside (64 * w.line) 64 lo 0x200000)
    && (f.mshr.all fun m => !(m.2.busy && inside (64 * m.2.line) 64 lo 0x200000))
    && !readingIn lo (s.core c).jobs.moves)
  && s.dies.all fun e => !readingIn lo (SMap.get Bulk.reset q e.2.bulk).moves

/-- A mailbox command has its result. -/
def finishMbx (p : PortId) (m status : Nat) (data : List Byte) (s : State) : State :=
  s.updMbx p m fun b => { b with result := some ⟨status, data⟩ }

/-- MIGRATION_COPY_COMPLETE (R327, R401, R427, R133): the copied region takes the place of the host's, or the copy has failed. -/
def execMigrationCopyComplete (q : PartId) (reply : HostReply) (s : State) : Answer :=
  let p := s.part q
  .next (match p.migr with
    | none => s
    | some m =>
      let lo := ((regionsInside m.va 0x200000 p.regions).head?.map (·.pa)).getD 0
      if !regionQuiet q lo s then s
      else match reply with
        | .fail _ => finishMbx m.port m.mbx stHostLost [] (restoreMigration q m s)
        | .data bs =>
          let bs := padTo 0x200000 bs
          let s := pokeLines q 0x8000 m.dest bs s
          let s := recInput q 0x14 0xFFFF m.va 0 bs s
          let s := endMigration q m (fun g => { g with pa := m.dest + (g.va - m.va), mig := false }) s
          let s := s.updPart q fun p => { p with
            changes := p.changes ++ [⟨.migrated, m.va, 0x200000, [], false, false, none, 0, [], 0, 0⟩] }
          finishMbx m.port m.mbx stOk [] s)

/-- The host line that a unit waits for: device virtual address and host IOVA. -/
def awaitedLine (q : Nat) (u : UnitRef) (s : State) : Option (Nat × Nat) :=
  let ofMover := fun (m : MoverRef) =>
    (movesOf m q s).head?.bind fun j =>
      match j.phase with
      | .reading _ acc _ (some pa) =>
        (match locate pa with
          | .host _ iova => some ((⟨j.desc⟩ : MoveDesc).srcAt j.pos + acc.length, iova)
          | _ => none)
      | _ => none
  match u with
  | .core c => (s.core c).far.mshr.findSome? fun e =>
      if e.2.busy && e.2.got.isNone then (match locate (64 * e.2.line) with
        | .host _ iova => some (e.2.va, iova)
        | _ => none) else none
  | .mover c => ofMover (.core c)
  | .bulk d => ofMover (.bulk d)
  | .drain _ => none
  | .reg _ => none
  | .recorder => none

/-- The race unit that names a unit in a fault-log entry (R289). -/
def raceOf (u : UnitRef) (s : State) : Nat := unitCode u s

/-- HOST_WINDOW_READ_FAIL (R484): the host line that a unit waits for does not come. -/
def execHostWindowReadFail (q : PartId) (u : UnitRef) (f : HostFail) (s : State) : Answer :=
  .next (if (s.part q).st = .running ∧ (s.part q).replay = none ∧ (s.part q).units.contains u = true then
      (match awaitedLine q u s with
        | some (va, iova) => hostReadFails q (raceOf u s) va iova f s
        | none => s)
    else s)

end Sys2Proof.Machine
end

