-- ==== Sys2Proof/Machine/Ports.lean ====
section
/-! DEFINITION. The PCIe ports (R354 to R361, R381 to R383): port events, the notice and hot-page rings, and the registers
that a read changes. -/

namespace Sys2Proof.Machine

/-- A replay whose command is abandoned ends with its partition STOPPED (R406). -/
def abandonReplay (q : Nat) (s : State) : State :=
  if (s.part q).replay.isSome then
    (stopWithin q .stopped stBadCommand 0 s).updPart q fun p => { p with
      replay := none, turnEnds := [], st := .stopped, stopStat := stBadCommand, incomplete := true }
  else s

/-- The commands in hand that name a partition and come from a port are abandoned (R367): what they had begun is undone. -/
def abandonPart (p : PortId) (s : State) (q : Nat) : State :=
  let x := s.part q
  let s := if x.replay.any fun y => y.port == p then abandonReplay q s else s
  let s := match x.migr with
    | some m => if m.port = p then restoreMigration q m s else s
    | none => s
  s.updPart q fun x => { x with stopReq := x.stopReq.filter fun r => r.1 != p }

/-- The slot that an abandoned FW_UPDATE was writing is left invalid, if it had begun to write it (R367); which is not the manual's
to say (log 86). -/
def abandonFlash (p : PortId) (s : State) (m : Nat) : State :=
  let b := s.mbx p m
  if decide (b.state = 1) && b.result.isNone && fieldAt (b.copy.read 0 2) 0 2 == 0x0060 then
    let begun := wbit s.freeVal 0
    let n := 1 - s.flash.active.getD 0
    let s := s.drew
    if begun then s.updFlash fun f =>
        if n = 0 then { f with slotA := ⟨0, 0, 0, []⟩ } else { f with slotB := ⟨0, 0, 0, []⟩ }
      else s
  else s

/-- Every command in hand of a port is abandoned (R367). -/
def abandonPort (p : PortId) (s : State) : State :=
  (List.range 4).foldl (abandonFlash p) (allParts.foldl (abandonPart p) s)

/-- The output posts of a port's partitions, and the submission entries that they wait for, are gone with the host (R381, log
77). -/
def dropPosts (p : PortId) (s : State) : State :=
  allParts.foldl (fun s q => if (s.part q).owner = p then
    let s := s.updPart q fun x => { x with postQ := [] }
    (s.part q).phys.foldl (fun s c => s.updCore c fun x => { x with jobs := { x.jobs with posted := [] } }) s
    else s) s

/-- The RUNNING partitions of a port stop within the turn with HOST_LOST (R381). -/
def hostLost (p : PortId) (origin : Nat) (s : State) : State :=
  allParts.foldl (fun s q => if (s.part q).owner = p then stopWithin q .faulted stHostLost origin s else s) s

/-- The port's registers, mailboxes and staged images at their Reset values; BAR2 keeps its page mappings, and the firmware
the entries it has still to write to the rings (R381, R392). -/
def portReset (x : Port) : Port :=
  { Port.reset with bar2 := x.bar2, readNext := x.readNext, nextHandle := x.nextHandle, notices := x.notices, hot := x.hot }

/-- A port event other than HM_PORT_QUIESCE (R381): `f` says what becomes of the link. -/
def portEvent (p : PortId) (f : Port → Port → Port) (s : State) : State :=
  let s := dropPosts p (abandonPort p (hostLost p 7 s))
  s.updPort p fun x => f x (portReset x)

/-- PCIE_LINK_UP (R381, R473 step 2a). -/
def execPcieLinkUp (p : PortId) (s : State) : Answer :=
  .next (if s.running && !(s.port p).perst then s.updPort p fun x => { x with linkUp := true } else s)

/-- PERST_ASSERT (R381). -/
def execPerstAssert (p : PortId) (s : State) : Answer :=
  .next (if s.running then portEvent p (fun _ y => { y with perst := true }) s else s.updPort p fun x => { x with perst := true })

/-- PERST_DEASSERT (R381): the link may train again. -/
def execPerstDeassert (p : PortId) (s : State) : Answer := .next (s.updPort p fun x => { x with perst := false })

/-- FUNCTION_LEVEL_RESET (R381): the link stays up. -/
def execFunctionLevelReset (p : PortId) (s : State) : Answer :=
  .next (if s.running && (s.port p).linkUp then portEvent p (fun x y => { y with linkUp := x.linkUp, perst := x.perst }) s else s)

/-- The link of a port goes down (R381). -/
def linkLost (p : PortId) (s : State) : State := portEvent p (fun x y => { y with perst := x.perst }) s

/-- PCIE_LINK_DOWN (R381). -/
def execPcieLinkDown (p : PortId) (s : State) : Answer := .next (if s.running && (s.port p).linkUp then linkLost p s else s)

/-- A function enters D3hot (R381): as a function-level reset, and it answers no memory request until it is in D0 again. -/
def enterD3 (p : PortId) (s : State) : State :=
  portEvent p (fun x y => { y with linkUp := x.linkUp, perst := x.perst, d3 := true }) s

/-- D3HOT_ENTRY (R381). -/
def execD3hotEntry (p : PortId) (s : State) : Answer :=
  .next (if s.running && (s.port p).linkUp && !(s.port p).d3 then enterD3 p s else s)

/-- A ring after an entry of `bytes` is offered: the ring, and where the entry goes (R360). -/
def Ring.put (r : Ring) (esz : Nat) : Ring × Option Nat :=
  let n := 2 ^ (r.size + 4)
  if !r.en then (r, none)
  else if (r.tail + 65536 - r.head) % 65536 = n then ({ r with drop := bump16 r.drop }, none)
  else ({ r with tail := (r.tail + 1) % 65536 }, some (r.base + esz * (r.tail % n)))

/-- The words of a notice as bytes (R361). -/
def noticeBytes (n : Notice) : List Byte :=
  leBytes (n.state % 16 * 2 ^ 24 + n.status % 256 * 2 ^ 16 + n.part % 16 * 2 ^ 8 + n.kind % 256) 8
  ++ leBytes (n.turn % 2 ^ 48) 8 ++ leBytes (n.refcyc % 2 ^ 48) 8 ++ leBytes n.epoch.toNat 8

/-- NOTICE_RING_WRITE (R360, R361): the firmware writes the oldest notice. -/
def execNoticeRingWrite (p : PortId) (s : State) : Answer :=
  let x := s.port p
  .next (match x.notices with
    | n :: rest =>
      if s.hs.fwRun then
        let (r, a) := x.ntc.put 32
        let s := s.updPort p fun x => { x with notices := rest, ntc := r }
        (match a with
          | some iova => raiseVector p 5 (s.emit (.hostWrite p iova (noticeBytes n)))
          | none => s)
      else s
    | [] => s)

/-- HOT_PAGE_RING_WRITE (R326, R360): the firmware writes the oldest hot-page entry it has taken for the port. -/
def execHotPageRingWrite (p : PortId) (s : State) : Answer :=
  let x := s.port p
  .next (match x.hot with
    | h :: rest =>
      if s.hs.fwRun then
        let (r, a) := x.hpr.put 16
        let s := s.updPort p fun x => { x with hot := rest, hpr := r }
        (match a with
          | some iova =>
            raiseVector p 6 (s.emit (.hostWrite p iova (leBytes (hotWords h).1 8 ++ leBytes (hotWords h).2 8)))
          | none => s)
      else s
    | [] => s)

/-- A write of a ring's BASE register (R359, R360): the bytes of the mask take new values. -/
def Ring.writeBase (r : Ring) (v : Word) : Ring :=
  let size := wf64 v 3 0
  let en := wbit v 4 && decide (size ≤ 8)
  let r' := { r with base := wf64 v 63 12 * 4096, en := en, size := size }
  if en && !r.en then { r' with head := 0, tail := 0, drop := 0 } else r'

/-- BASE as it reads (R359). -/
def Ring.baseWord (r : Ring) : Word := BitVec.ofNat 64 (r.base + 16 * b2n r.en + r.size % 16)

/-- TAIL as it reads (R359). -/
def Ring.tailWord (r : Ring) : Nat := r.drop * 65536 + r.tail

/-- The host reaches a port's registers: the module runs, the link is up (R381), and the function is in D0 (log 77). -/
def State.reaches (s : State) (p : PortId) : Bool := s.running && (s.port p).linkUp && !(s.port p).d3

/-- NTC_BASE_WRITE (R360). -/
def execNtcBaseWrite (p : PortId) (value : Word) (s : State) : Answer :=
  .next (if s.reaches p then s.updPort p fun x => { x with ntc := x.ntc.writeBase value } else s)

/-- HPR_BASE_WRITE (R360). -/
def execHprBaseWrite (p : PortId) (value : Word) (s : State) : Answer :=
  .next (if s.reaches p then s.updPort p fun x => { x with hpr := x.hpr.writeBase value } else s)

/-- ERR_CNT and ERR_CNT2 as they read (R359). -/
def Port.errCnt (x : Port) : Nat := x.bar2Unmap * 2 ^ 48 + x.bar2Wr * 2 ^ 32 + x.dbIgnored * 2 ^ 16 + x.ringErr
def Port.errCnt2 (x : Port) : Nat := x.bar2Ue * 2 ^ 16 + x.noBuf

/-- A read of a register by the host: its 8 bytes. -/
def readReg (p : PortId) (v : Nat) (s : State) : State := s.emit (.readData p (leBytes v 8))

/-- The four bytes of one half of a register (R356). -/
def readHalf (p : PortId) (v : Nat) (h : Fin 2) (s : State) : State := s.emit (.readData p (leBytes (v / 2 ^ (32 * h.val)) 4))

/-- ERR_CNT_READ (R14, R16, R356, R359): the read clears the counters that it returns. -/
def execErrCntRead (r : CntRead) (s : State) : Answer :=
  let p := r.port
  let v := (s.port p).errCnt
  .next (if s.reaches p then
      (match r.half with
        | none => (readReg p v s).updPort p fun x => { x with bar2Unmap := 0, bar2Wr := 0, dbIgnored := 0, ringErr := 0 }
        | some 0 => (readHalf p v 0 s).updPort p fun x => { x with dbIgnored := 0, ringErr := 0 }
        | some 1 => (readHalf p v 1 s).updPort p fun x => { x with bar2Unmap := 0, bar2Wr := 0 })
    else s)

/-- ERR_CNT2_READ (R14, R16, R356, R359): its high half is reserved, and a read of it clears nothing. -/
def execErrCnt2Read (r : CntRead) (s : State) : Answer :=
  let p := r.port
  let v := (s.port p).errCnt2
  .next (if s.reaches p then
      (match r.half with
        | none => (readReg p v s).updPort p fun x => { x with bar2Ue := 0, noBuf := 0 }
        | some 0 => (readHalf p v 0 s).updPort p fun x => { x with bar2Ue := 0, noBuf := 0 }
        | some 1 => readHalf p v 1 s)
    else s)

/-- MBX_REFUSED_READ (R16, R362). -/
def execMbxRefusedRead (p : PortId) (m : MbxId) (s : State) : Answer :=
  .next (if s.reaches p then (readReg p (s.mbx p m).refused s).updMbx p m fun x => { x with refused := 0 } else s)

/-- HMB_REFUSED_READ (R16, R377). -/
def execHmbRefusedRead (p : PortId) (s : State) : Answer :=
  .next (if s.reaches p then
      (readReg p (s.port p).hmb.refused s).updPort p fun x => { x with hmb := { x.hmb with refused := 0 } }
    else s)

/-- The lines that n bytes from BAR2 offset o touch: offset, first byte and length within each. -/
def bar2Spans : (fuel : Nat) → (o n : Nat) → List (Nat × Nat)
  | 0, _, _ => []
  | k + 1, o, n => if n = 0 then [] else let m := min n (64 - o % 64); (o, m) :: bar2Spans k (o + m) (n - m)

/-- What a BAR2 read needs of a line (R357): n bytes from BAR2 offset o, which an unmapped page gives as all ones. -/
def bar2Need (p : PortId) (s : State) (e : Nat × Nat) : Bar2Line :=
  match SMap.get none (e.1 / 0x200000) (s.port p).bar2 with
  | some (q, off) =>
    let pa := hbmTarget (s.part q) (off + e.1 % 0x200000)
    ⟨q, pa / 64, pa % 64, e.2, none⟩
  | none => ⟨0, 0, 0, e.2, some (List.replicate e.2 0xFF, false)⟩

/-- A BAR2 read asks for a line of HBM, charged to the partition (R310). -/
def bar2Ask (p : PortId) (k : Nat) (s : State) (x : Bar2Line) : State :=
  if x.got.isSome then s
  else submit (mkReq x.part (hostMoverUnit x.part s) (s.part x.part).turn false x.line (.bar2 p k) s) s

/-- BAR2_READ (R294, R310, R357, R381): the read goes out to its lines, and completes when they have come. -/
def execBar2Read (p : PortId) (offset len : Nat) (env : Env) (s : State) : Answer :=
  let s := applyUpsets env.upsets s
  .next (if s.reaches p then
      let k := (s.port p).readNext
      let need := (bar2Spans (len / 64 + 2) offset len).map (bar2Need p s)
      let r : Bar2Read := ⟨k, need, need.any fun x => x.got.isSome⟩
      if r.whole then bar2End p r s
      else need.foldl (bar2Ask p k) (s.updPort p fun x => { x with reads := x.reads ++ [r], readNext := k + 1 })
    else s)

/-- A configuration register as it reads (R354, R383; its bits as PCIe 6.0 places them: PRESUMED, log 31). BAR4/BAR5 and the expansion
ROM's base are not implemented and read 0, and No_Soft_Reset reads 0 (R381). -/
def Port.pcieReg (x : Port) (r : PcieReg) : Nat :=
  let c := x.cfg
  match r with
  | .bar0 => c.bar0 * 2 ^ 16 + 4
  | .bar2 => c.bar2 * 2 ^ 36 + 12
  | .bar4 => 0
  | .rom => 0
  | .msix => 63 + b2n c.msixMask * 2 ^ 14 + b2n c.msixEn * 2 ^ 15
  | .power => if x.d3 then 3 else 0
  | .device => c.payload * 2 ^ 5 + c.readReq * 2 ^ 12
  | .device2 => c.ctoRange + b2n c.ctoOff * 2 ^ 4
  | .aer n => SMap.get 0 n.val c.aer

/-- Pending vectors that may be sent are sent (R358, log 31). -/
def sendPending (p : PortId) (s : State) : State :=
  (List.range 64).foldl (fun s v =>
    if bitOf (s.port p).pba v && (s.port p).sends v then
      (s.updPort p fun x => { x with pba := setBit x.pba v false }).emit (.msix p v)
    else s) s

/-- The register takes a new value (R354, R358, R383, log 31): of an AER register the two status ones, the first and the fourth, are
cleared by 1. -/
def PcieCfg.put (r : PcieReg) (v : Nat) (c : PcieCfg) : PcieCfg :=
  match r with
  | .bar0 => { c with bar0 := v / 2 ^ 16 % 2 ^ 48 }
  | .bar2 => { c with bar2 := v / 2 ^ 36 % 2 ^ 28 }
  | .bar4 => c
  | .rom => c
  | .msix => { c with msixMask := bitOf v 14, msixEn := bitOf v 15 }
  | .power => c
  | .device => { c with payload := fieldOf v 7 5, readReq := fieldOf v 14 12 }
  | .device2 => { c with ctoRange := fieldOf v 3 0, ctoOff := bitOf v 4 }
  | .aer n =>
    let f := fun (old : Nat) => if n = 0 ∨ n = 3 then old &&& (v ^^^ (2 ^ 32 - 1)) else v % 2 ^ 32
    { c with aer := SMap.upd 0 n.val f c.aer }

/-- A write of a configuration register by the host (R354, R358, R381, R383): the bytes that are written take new values, in D3hot
too. PowerState 3 is the entry into D3hot, 0 the return to D0. -/
def writePcie (p : PortId) (r : PcieReg) (o : Nat) (data : List Byte) (s : State) : State :=
  let x := s.port p
  let old := match r with
    | .aer n => if n = 0 ∨ n = 3 then 0 else x.pcieReg r
    | _ => x.pcieReg r
  let v := leNat (overlay (leBytes old 8) o data)
  if r = .power then
    (if v % 4 = 3 ∧ x.d3 = false then enterD3 p s
     else if v % 4 = 0 then s.updPort p fun x => { x with d3 := false } else s)
  else sendPending p (s.updPort p fun x => { x with cfg := x.cfg.put r v })

/-- BAR2_WRITE (R357): discarded and counted. -/
def execBar2Write (p : PortId) (_offset : Nat) (_data : List Byte) (s : State) : Answer :=
  .next (if s.reaches p then portErr p (fun x => { x with bar2Wr := bump16 x.bar2Wr }) s else s)

end Sys2Proof.Machine
end

