-- ==== Sys2Proof/Machine/Admission.lean ====
section
/-! DEFINITION. Admission (R340, R341, R343 to R351): the configuration record, the bound table, the algorithm of R346 and its
report, and the run-time limits. Times are rational numbers of nanoseconds; `none` is an infinite one. -/

namespace Sys2Proof.Machine

/-- A stream declaration (R341). -/
def declOf (bs : List Byte) : StreamDecl :=
  let a := fieldAt bs 0 8
  let b := fieldAt bs 8 8
  ⟨fieldOf a 5 0, bitOf a 6, bitOf a 7, fieldOf a 31 8, fieldOf a 55 32, fieldOf b 39 32, fieldOf b 31 0⟩

/-- The reserved bits of a stream declaration are 0. -/
def declClear (bs : List Byte) : Bool := decide (fieldOf (fieldAt bs 0 8) 63 56 = 0) && decide (fieldOf (fieldAt bs 8 8) 63 40 = 0)

/-- Bytes of stream declaration k in a configuration record (R393). -/
def declBytes (bs : List Byte) (k : Nat) : List Byte := (bs.drop (144 + 16 * k)).take 16

/-- The settings that a configuration record carries (R393). -/
def cfgOf (bs : List Byte) : PartCfg where
  raceOff := bitOf (fieldAt bs 4 1) 0
  span := fieldAt bs 6 1
  member := fieldAt bs 7 1
  spanId := fieldAt bs 8 4
  groups := (List.range 300).filter fun g => bitOf (fieldAt bs 24 40) g
  bedq := (List.range 4).map fun n => fieldAt bs (64 + 2 * n) 2
  hbmCap := fieldAt bs 72 4
  hshare := fieldAt bs 76 2
  reg := (List.range 8).map fun s => (fieldAt bs (80 + 4 * s) 1, fieldAt bs (82 + 4 * s) 2)
  ls := (List.range 3).map fun r => fieldAt bs (112 + 2 * r) 2
  lks := fieldAt bs 118 2
  links := (List.range 36).filter fun k => bitOf (fieldAt bs 120 8) k
  streams := (List.range (fieldAt bs 5 1)).map fun k => declOf (declBytes bs k)
  raw := bs

/-- IMGHANDLE and SRSEED of a configuration record. -/
def cfgImage (bs : List Byte) : Nat := fieldAt bs 0 4
def cfgSeed (bs : List Byte) : Word := BitVec.ofNat 64 (fieldAt bs 16 8)

/-- Logical cores of a partition's settings, ascending. -/
def PartCfg.cores (c : PartCfg) : List Nat := c.groups.flatMap fun g => [4 * g, 4 * g + 1, 4 * g + 2, 4 * g + 3]

/-- The lead stream. -/
def PartCfg.lead (c : PartCfg) : Option StreamDecl := c.streams.find? (·.lead)

/-- Stream declarations keep R341. -/
def streamsOk (l : List StreamDecl) : Bool :=
  distinct (l.map (·.num)) && decide ((l.filter (·.lead)).length = 1)
  && l.all fun d =>
    decide (1 ≤ d.period) && decide (d.period ≤ 16000000) && decide (d.deadline ≤ 16000000)
    && decide (1 ≤ d.hostlat) && decide (d.hostlat ≤ 255)
    && (if d.lead then !d.output && decide (d.deadline ≠ 0) else decide (d.deadline = 0))
    && (l.all fun e => !e.lead || decide (e.period = d.period))

/-- The fields of a configuration record that are judged by themselves (R308, R309, R335, R393); `window` gives the bed cache's
size in 2 MiB units on each bed die. -/
def cfgFieldsOk (window : Nat → Nat) (bs : List Byte) : Bool :=
  let c := cfgOf bs
  let n := fieldAt bs 5 1
  decide (fieldAt bs 4 1 < 2) && decide (1 ≤ n) && decide (n ≤ 64) && decide (1 ≤ c.span) && decide (c.span ≤ 8)
  && decide (c.member < c.span) && (decide (c.span ≠ 1) || decide (c.spanId = 0)) && decide (fieldAt bs 12 4 = 0)
  && decide (fieldAt bs 24 40 < 2 ^ 300) && !c.groups.isEmpty
  && (c.bedq.zipIdx.all fun e => decide (e.1 + window e.2 ≤ 1024)) && decide (c.hbmCap ≤ 196608)
  && decide (1 ≤ c.hshare) && decide (c.hshare ≤ 192) && decide (fieldAt bs 78 2 = 0)
  && ((List.range 8).all fun s => decide (fieldAt bs (81 + 4 * s) 1 = 0))
  && (c.reg.all fun r => decide (r.1 ≤ 240) && (if r.1 = 0 then decide (r.2 = 0) else decide (1 ≤ r.2) && decide (r.2 ≤ 4096))
      && (decide (c.hbmCap = 0) || decide (r.1 ≠ 0)))
  && (c.ls.all fun v => decide (v ≤ 256)) && decide (c.lks ≤ 256) && (!c.links.isEmpty || decide (c.lks = 0))
  && (decide (c.span = 1) || !c.links.isEmpty) && decide (fieldAt bs 120 8 < 2 ^ 36)
  && decide (fieldAt bs 128 8 = 0) && decide (fieldAt bs 136 8 = 0)
  && ((List.range n).all fun k => declClear (declBytes bs k)) && streamsOk c.streams

/-- The bound table of an image with its number of logical cores (R343). -/
structure Bounds where
  table : List Byte
  ncore : Nat
deriving DecidableEq, Repr

namespace Bounds

/-- Bytes of a turn entry, and where entry t, from 1 on, begins. -/
def size (b : Bounds) : Nat := 52 + 12 * b.ncore
def off (b : Bounds) (t : Nat) : Nat := 16 + (t - 1) * b.size
def hl (b : Bounds) (t s : Nat) : Nat := fieldAt b.table (b.off t + 4 * s) 4
def lb (b : Bounds) (t r : Nat) : Nat := fieldAt b.table (b.off t + 32 + 4 * r) 4
def lk (b : Bounds) (t : Nat) : Nat := fieldAt b.table (b.off t + 44) 4
def rec' (b : Bounds) (t x : Nat) : Nat := fieldAt b.table (b.off t + 48 + 4 * x) 4
def cyc (b : Bounds) (t x : Nat) : Nat := b.rec' t x % 2 ^ 24
def npass (b : Bounds) (t x : Nat) : Nat := b.rec' t x / 2 ^ 24

/-- A table is well formed for its image (R343). -/
def ok (b : Bounds) (npro ncyc : Nat) : Bool :=
  decide (fieldAt b.table 0 4 = npro) && decide (fieldAt b.table 4 4 = ncyc) && decide (fieldAt b.table 8 4 = b.ncore)
  && decide (fieldAt b.table 12 4 = 0) && decide (npro ≤ 65535) && decide (1 ≤ ncyc) && decide (ncyc ≤ 65536)
  && decide (npro + ncyc ≤ 65536) && decide (b.table.length = 16 + (npro + ncyc) * b.size)

end Bounds

/-- The bound table of an image. -/
def Image.bounds (i : Image) : Bounds := ⟨i.parts.bound, i.ncore⟩

/-- The bound-table entry of a working turn (R340). -/
def Image.entry (i : Image) (t : Nat) : Nat := if t ≤ i.npro then t else i.npro + (t - i.npro - 1) % i.ncyc + 1

/-- A quotient; a term on a share or a capacity of 0 is infinite (R346). -/
def termOf (a b : Rat) : Option Rat := if b = 0 then none else some (a / b)

/-- The traffic terms of turn entry t with their codes (R346, R348): only traffic that is there has one. -/
def trafficTerms (c : PartCfg) (b : Bounds) (k : Caps) (t : Nat) : List (Nat × Option Rat) :=
  ((List.range 8).filterMap fun s =>
    if b.hl t s = 0 then none else some (1 + s, termOf ((b.hl t s : Rat) * 1000000000) (((c.reg.getD s (0, 0)).1 : Rat) * 78125000)))
  ++ ([(0, k.mcap), (1, k.wcap), (2, k.hcap)].filterMap fun (r, cap) =>
    if b.lb t r = 0 then none else some (9 + r, termOf (b.lb t r) (((c.ls.getD r 0 : Nat) : Rat) / 256 * cap)))
  ++ (if b.lk t = 0 then [] else [(12, termOf (b.lk t) ((c.lks : Rat) / 256 * k.lrate))])

/-- The largest of a list of terms, 0 when there is none. -/
def largest (l : List (Nat × Option Rat)) : Option Rat :=
  l.foldl (fun m e => match m, e.2 with
    | some a, some b => some (max a b)
    | _, _ => none) (some 0)

/-- The compute term of turn entry t (R346); `d` the spare-row cycles of the i-th logical core (R222). -/
def computeTerm (b : Bounds) (d : Nat → Nat) (t : Nat) : Rat :=
  ((List.range (3 * b.ncore + 1)).foldl (fun m x =>
    max m (b.cyc t x + b.npass t x * (if x < 3 * b.ncore then d (x / 3) else 0))) 0 : Nat) * 5 / 9

/-- The advance (R346). -/
def advance (hops : Nat) : Rat := 400 + 1500 * hops

/-- xt(t) and tt(t) of R346. -/
def xtOf (c : PartCfg) (b : Bounds) (k : Caps) (t : Nat) : Option Rat := largest (trafficTerms c b k t)
def ttOf (c : PartCfg) (b : Bounds) (k : Caps) (d : Nat → Nat) (t : Nat) : Option Rat :=
  (xtOf c b k t).map fun x => computeTerm b d t + x + advance k.hops

/-- Whether admission accepts, with what its report says before rounding (R346, R348): worst case, limit, margin, turn, term,
test. -/
structure Verdict where
  ok : Bool
  worst : Option Rat
  limit : Rat
  margin : Option Rat
  turn : Nat
  term : Nat
  test : Nat

/-- The largest of terms in code order, the lowest code on a tie (R396). -/
def dominant (l : List (Nat × Rat)) : Nat :=
  match l with
  | [] => 0
  | e :: rest => (rest.foldl (fun (m : Nat × Rat) y => if m.2 < y.2 ∨ (m.2 = y.2 ∧ y.1 < m.1) then y else m) e).1

/-- The terms of a turn for the report (R348). -/
def turnTerms (c : PartCfg) (b : Bounds) (k : Caps) (d : Nat → Nat) (t : Nat) : List (Nat × Rat) :=
  (0, computeTerm b d t) :: (trafficTerms c b k t).filterMap fun e => e.2.map fun v => (e.1, v)

/-- R346. -/
def admitPartition (c : PartCfg) (i : Image) (k : Caps) (d : Nat → Nat) : Verdict :=
  let b := i.bounds
  let lead := c.lead.getD ⟨0, false, true, 0, 0, 0, 0⟩
  let limit : Rat := lead.deadline * 1000
  let turns := (List.range (i.npro + i.ncyc)).map (· + 1)
  match turns.find? fun t => (xtOf c b k t).isNone with
  | some t =>
    let code := (((trafficTerms c b k t).find? fun e => e.2.isNone).map (·.1)).getD 0
    ⟨false, none, limit, none, t, code, 0⟩
  | none =>
    let tt := fun (t : Nat) => (ttOf c b k d t).getD 0
    let cyc := turns.drop i.npro
    let tcyc := (cyc.map tt).sum
    let m : Int := (16384 / i.ncyc : Nat) - 1
    let w : Rat := max 0 (20972000 - m * ((lead.period : Int) * 1000))
    let hs : Rat := (c.hshare : Rat) / 4
    let ii : Rat := 2000 + lead.hostlat * 1000 + lead.bytes / hs
    let e : Rat := 2000 + (((c.streams.filter (·.output)).map (·.bytes)).sum : Nat) / hs
    let r := ii + tcyc + w + e
    let per := ii + tcyc + w
    let plimit : Rat := lead.period * 1000
    let top := cyc.foldl (fun (m : Nat) t => if m = 0 ∨ tt m < tt t then t else m) 0
    let test := if limit < r then 0 else if plimit < per then 1 else if plimit - per < limit - r then 1 else 0
    let term := dominant (turnTerms c b k d top ++ [(13, if test = 0 then ii + e else ii), (14, w)])
    let (worst, lim) := if test = 0 then (r, limit) else (per, plimit)
    ⟨decide (r ≤ limit) && decide (per ≤ plimit), some worst, lim, some (if worst ≤ lim then lim - worst else worst - lim),
      top, term, test⟩

/-- A time in whole picoseconds; the manual does not say how a fraction is rounded, so `up` is free. -/
def psOf (x : Rat) (up : Bool) : Nat :=
  let y := x * 1000
  (y.floor + (if up && decide (y ≠ y.floor) then 1 else 0)).toNat

/-- The report of a verdict (R348, R396); the three low bits of `f` say how fractions are rounded. -/
def Verdict.report (v : Verdict) (f : Word) : Report :=
  let inf := 2 ^ 64 - 1
  ⟨(v.worst.map fun x => psOf x (wbit f 0)).getD inf, psOf v.limit (wbit f 1),
    (v.margin.map fun x => psOf x (wbit f 2)).getD inf, v.turn, v.term, v.test⟩

/-- The report as a response block (R396). -/
def Report.bytes (r : Report) : List Byte :=
  padTo 32 (leBytes r.worst 8 ++ leBytes r.limit 8 ++ leBytes r.margin 8 ++ leBytes r.turn 4 ++ leBytes r.term 1 ++ leBytes r.test 1)

/-- The least capacity of a role over the bed-to-bed connections (R345, R346). -/
def minCap (role : Nat) (s : State) : Nat :=
  ((List.range 6).map fun k =>
    64 * ((List.range 8).filter fun i => (s.lane (8 * k + i)).role == role && !(s.lane (8 * k + i)).retired).length).foldl min 512

/-- Rate of a link (R345). -/
def linkRate (l : Link) : Nat := if !l.up then 0 else if l.lanes = 4 then 200 else 150

/-- The least rate over the held links that are up, 0 when none is (R346). -/
def minLinkRate (links : List Nat) (s : State) : Nat :=
  match (links.map s.link).filter (·.up) with
  | [] => 0
  | l :: rest => rest.foldl (fun m x => min m (linkRate x)) (linkRate l)

/-- The capacities in force, with a number of link hops. -/
def capsOf (c : PartCfg) (hops : Nat) (s : State) : Caps := ⟨minCap 0 s, minCap 1 s, minCap 2 s, minLinkRate c.links s, hops⟩

/-- d of the i-th logical core of a placement (R222). -/
def spareOfPlace (place : List (Nat × Nat)) (s : State) (i : Nat) : Nat :=
  b2n ((s.core ((place.getD i (0, 0)).2)).spareRow.isSome)

/-- LIM(t, u) of R350 for unit record x, in TCLK cycles. -/
def limitOf (c : PartCfg) (i : Image) (k : Caps) (d : Nat → Nat) (turn x : Nat) : Nat :=
  let b := i.bounds
  let t := i.entry turn
  let n := b.cyc t x + b.npass t x * (if x < 3 * b.ncore then d (x / 3) else 0)
  ((2 / 5 * ((n : Rat) * 5 / 9 + (xtOf c b k t).getD 0)).ceil).toNat

/-- The unit record of a unit (R343): regulators and the recorder have none. -/
def recordOf (p : Part) (u : UnitRef) (lc : Nat → Nat) : Option Nat :=
  let ix := fun (c : Nat) => indexWhere (fun n => n == lc c) (p.place.map (·.1))
  match u with
  | .core c => (ix c).map (3 * ·)
  | .mover c => (ix c).map (3 * · + 1)
  | .drain c => (ix c).map (3 * · + 2)
  | .bulk _ => some (3 * p.place.length)
  | .reg _ => none
  | .recorder => none

/-- The limit of a unit in the partition's open turn, none when it has no bound (R344, R350, R427). -/
def unitLimit (q : Nat) (u : UnitRef) (s : State) : Option Nat :=
  let p := s.part q
  match p.cfg, p.img, recordOf p u (fun c => (s.core c).lcore) with
  | some c, some i, some x =>
    if p.turn = 0 then none else some (limitOf c i p.caps (spareOfPlace p.place s) (unitTu q u s).turn x)
  | _, _, _ => none

end Sys2Proof.Machine
end

