-- ==== Sys2Proof/Machine/Parts.lean ====
section
/-! DEFINITION. Program images (R38, R88, R273, R343, R392), what a partition holds (R23, R335, R337, R347), and how the firmware
builds, clears and releases one (R33, R75, R196, R285, R300, R338, R339). -/

namespace Sys2Proof.Machine

/-- The kinds a unit of a core accepts (R36). -/
def kindFits (u : CoreUnit) (k : ActKind) : Bool :=
  match u with
  | .core => k == .pass || k == .run || k == .launch || k == .post
  | .mover => k == .move
  | .drain => k == .drain

/-- The rules of R38 for the turn-0 entries of one queue, in order: turns, conditions and handles. -/
def queueOk (l : List (Nat × Nat × Nat)) : Bool :=
  decide (l.length ≤ 16)
  && (l.all fun e => decide (1 ≤ e.1) && decide (e.1 ≤ 65535) && condOk e.2.1 && handleOk (BitVec.ofNat 64 e.2.2))
  && (l.zip (l.drop 1)).all fun e => decide (e.1.1 ≤ e.2.1)

/-- An entry as `queueOk` judges it. -/
def armJudged (a : ArmInit) : Nat × Nat × Nat := (a.turn, a.cond.toNat, a.handle.toNat)

/-- The turn-0 entries of a core for one of its units, in image order. -/
def armOf (x : CoreImage) (u : CoreUnit) : List ArmInit := x.arm.filter fun a => a.unit == u

/-- Tags that an image may give (R88). -/
def imageTag (t : Tag) : Bool := decide (t.toNat ≤ 7) || t == 9 || t == 0xF

/-- An event-binding entry keeps R273. -/
def bindOk (w : Word) : Bool :=
  if bindV w then
    decide (wf64 w 63 24 = 0) && decide (wf64 w 17 12 = 0) && decide (bindUnit w ≤ 2)
    && decide (1 ≤ bindEvt w) && decide (bindEvt w ≤ 7)
    && decide (bindSel w < (if bindEvt w = 1 then 16 else if bindEvt w = 7 then 64 else 1))
  else decide (w = 0)

/-- What an image gives one core keeps R38, R67, R88, R98, R126 and R273. -/
def coreImageOk (x : CoreImage) : Bool :=
  decide (x.entry < 0x20000) && aligned x.entry 8 && (x.code.all fun e => decide (e.1 < 16384))
  && (x.regs.all fun e => decide (e.1 < 16) && imageTag e.2.tag) && (x.words.all fun e => decide (e.1 < 524288) && imageTag e.2.tag)
  && (x.arm.all fun a => kindFits a.unit a.kind)
  && ([CoreUnit.core, .mover, .drain].all fun u => queueOk ((armOf x u).map armJudged))
  && decide (x.bind.length ≤ 16) && x.bind.all bindOk

/-- The bulk entries of an image that name the cores of one group of four are judged as one queue (R38). -/
def bulkOk (l : List (Nat × ArmInit)) : Bool :=
  l.all fun e => e.2.kind == .move && decide (e.1 < 1200)
    && queueOk (((l.filter fun f => f.1 / 4 == e.1 / 4).map fun f => (armJudged f.2)).mergeSort fun a b => decide (a.1 ≤ b.1))

/-- The share changes of an image for each regulator (R38, R308, R311). -/
def sharesOk (l : List ShareArm) : Bool :=
  (l.all fun e => decide (e.stack < 8) && decide (e.rate ≤ 240)
    && (if e.rate = 0 then decide (e.burst = 0) else decide (1 ≤ e.burst) && decide (e.burst ≤ 4096)))
  && (List.range 8).all fun k => queueOk ((l.filter fun e => e.stack == k).map fun e => (e.turn, 0, 0))

/-- The image that host bytes spell, when its parts keep every rule that IMAGE_LOAD checks (R392); it is `len` bytes long. -/
def imageOf (bytes : List Byte) (len : Nat) (parts : ProgImage) : Option Image :=
  let b := parts.bound
  let i : Image := ⟨parts, fieldAt b 8 4, fieldAt b 0 4, fieldAt b 4 4, len, sha256 (padTo len bytes)⟩
  let ok := i.bounds.ok i.npro i.ncyc && distinct (parts.cores.map (·.1)) && decide (parts.cores.length ≤ i.ncore)
    && (parts.cores.all fun c => decide (c.1 < 1200) && coreImageOk c.2) && bulkOk parts.bulk && sharesOk parts.shares
    && decide (parts.montab < 2 ^ 48) && aligned parts.montab 64
  if ok then some i else none

/-- 2 MiB units that a staged image occupies (R392). -/
def Image.units (i : Image) : Nat := ceilDiv i.len 0x200000

/-- Staged images of both ports, in 2 MiB units, without the one of port p under handle `but`. -/
def stagedUnits (p : PortId) (but : Nat) (s : State) : Nat :=
  let sum := fun (x : Port) (f : Nat → Bool) => ((x.staged.filter fun e => f e.1).map fun e => (e.2.map Image.units).getD 0).sum
  sum (s.port p) (· != but) + sum (s.port (otherPort p)) fun _ => true

/-- The settings of every partition but q. -/
def otherCfgs (q : Nat) (s : State) : List (Nat × PartCfg) :=
  allParts.filterMap fun r => if r = q then none else (s.part r).cfg.map fun c => (r, c)

/-- The most that a partition takes of a stack's RATE: its settings', that in force, and those of the share changes that wait in its
regulator (R309, R311). -/
def rateHeld (k q : Nat) (s : State) : Nat :=
  let g := SMap.get Regulator.reset q (s.stack k).regs
  let own := ((s.part q).cfg.map fun c => (c.reg.getD k (0, 0)).1).getD 0
  g.tu.queue.foldl (fun m e => max m e.rate) (max own g.rate)

/-- HBM capacity held by other partitions, in 2 MiB units. -/
def hbmHeld (q : Nat) (s : State) : Nat := ((otherCfgs q s).map fun e => e.2.hbmCap).sum

/-- The device positions of a die's enabled cores (R23, R420). -/
def enabledOn (d : Nat) (s : State) : List Nat :=
  let x := s.die d
  if x.up && !x.fenced then (List.range 108).filter fun i => !x.disabled.contains i else []

/-- Logical cores enabled (R23, R389). -/
def enabledCores (s : State) : Nat := ((List.range 12).map fun d => (enabledOn d s).length).sum

/-- The free enabled physical cores of a die, ascending, for a partition that gives up what it holds (R337, R419). -/
def freeOn (q d : Nat) (s : State) : List Nat :=
  ((enabledOn d s).map (108 * d + ·)).filter fun c =>
    (match (s.core c).part with
      | none => true
      | some r => r == q) && !s.flash.pendCores.contains c

/-- The groups are placed on the dies in ascending order (R337): logical core and physical core. -/
def placeGroups : List Nat → (free : List (List Nat)) → Option (List (Nat × Nat))
  | [], _ => some []
  | g :: gs, free =>
    match indexWhere (fun l => decide (4 ≤ l.length)) free with
    | none => none
    | some i =>
      let l := free.getD i []
      (placeGroups gs (modAt i (fun l => l.drop 4) free)).map fun rest => ((List.range 4).map fun k => (4 * g + k, l.getD k 0)) ++ rest

/-- The placement of a configuration. -/
def placement (q : Nat) (c : PartCfg) (s : State) : Option (List (Nat × Nat)) :=
  placeGroups c.groups ((List.range 12).map fun d => freeOn q d s)

/-- Bed-cache window in 2 MiB granules (R286). -/
def bedWindow (s : State) (b : Nat) : Nat := (s.bed b).cacheMiB / 2

/-- The granules of a bed die that a partition may take, ascending: outside the window, not withheld, not held by another. -/
def freeGranules (q b : Nat) (s : State) : List Nat :=
  let held := allParts.flatMap fun r => if r = q then [] else (s.part r).bedAt.filterMap fun e => if e.1 = b then some e.2 else none
  (List.range (1024 - bedWindow s b)).filter fun g =>
    !s.flash.repair.granules.contains (b, g) && !held.any fun e => decide (e.1 ≤ g) && decide (g < e.1 + e.2)

/-- Ascending numbers as runs: first and length. -/
def runsOf : List Nat → List (Nat × Nat)
  | [] => []
  | g :: gs =>
    match runsOf gs with
    | (h, n) :: rest => if h = g + 1 then (g, n + 1) :: rest else (g, 1) :: (h, n) :: rest
    | [] => [(g, 1)]

/-- The HBM granules that no other partition holds, ascending. -/
def freeHbm (q : Nat) (s : State) : List Nat :=
  let held := allParts.flatMap fun r => if r = q then [] else (s.part r).hbmAt
  (List.range 196608).filter fun g => !held.any fun e => decide (e.1 ≤ g) && decide (g < e.1 + e.2)

/-- Entries of an image for one die's bulk mover after placement, in the order in which the firmware writes them (R38). -/
def bulkEntries (i : Image) (place : List (Nat × Nat)) (d : Nat) : List (Nat × ArmInit) :=
  (i.parts.bulk.filter fun e => place.any fun y => y.1 == e.1 && dieOfCore y.2 == d).mergeSort fun a b =>
    decide (a.2.turn < b.2.turn) || (decide (a.2.turn = b.2.turn) && decide (a.1 ≤ b.1))

/-- Among the turn-0 entries for turn p + 1 in the queue of the core that consumes the lead stream, the first is that stream's
launch (R340): the record names no consuming core, so some core of the image must be it (DEDUCED, log 37). -/
def leadLaunchOk (c : PartCfg) (i : Image) : Bool :=
  match c.lead with
  | none => false
  | some d => i.parts.cores.any fun e =>
      match (armOf e.2 .core).find? fun a => a.turn == i.npro + 1 with
      | some a => a.kind == .launch
          && ((e.2.words.find? fun w => w.1 == a.handle.toNat / 8).map fun w => wf64 w.2.data 5 0).getD 0 == d.num
      | none => false

/-- Step 3 of R347 beyond the record's own fields. -/
def cfgFits (q : Nat) (c : PartCfg) (i : Image) (s : State) : Bool :=
  let cores := c.cores
  let turns := (List.range (i.npro + i.ncyc)).map (· + 1)
  let b := i.bounds
  decide (i.ncore = cores.length)
  && (i.parts.cores.all fun e => cores.contains e.1) && (i.parts.bulk.all fun e => cores.contains e.1)
  && leadLaunchOk c i
  && ((List.range 8).all fun k =>
    let others := ((otherCfgs q s).map fun e => rateHeld k e.1 s).sum
    decide ((c.reg.getD k (0, 0)).1 + others ≤ 240)
    && (i.parts.shares.filter fun e => e.stack == k).all fun e =>
      decide (e.rate + others ≤ 240) && (decide (c.hbmCap = 0) || decide (e.rate ≠ 0)))
  && (turns.all fun t =>
    ((List.range 8).all fun k => decide (b.hl t k = 0) || decide ((c.reg.getD k (0, 0)).1 ≠ 0))
    && ((List.range 3).all fun r => decide (b.lb t r = 0) || decide (c.ls.getD r 0 ≠ 0))
    && (decide (b.lk t = 0) || decide (c.lks ≠ 0)))

/-- Step 4 of R347, apart from placement. -/
def resourcesFit (q : Nat) (p : PortId) (handle : Nat) (c : PartCfg) (i : Image) (s : State) : Bool :=
  let others := otherCfgs q s
  let sum := fun (f : PartCfg → Nat) => (others.map fun e => f e.2).sum
  let b := i.bounds
  let turns := (List.range (i.npro + i.ncyc)).map (· + 1)
  (c.groups.all fun g => others.all fun e => !e.2.groups.contains g)
  && decide (c.groups.length + sum (·.groups.length) ≤ enabledCores s / 4)
  && ((List.range 4).all fun n => decide (c.bedq.getD n 0 ≤ (freeGranules q n s).length))
  && decide (c.hbmCap + hbmHeld q s + stagedUnits p handle s ≤ 196608)
  && ((List.range 3).all fun r => decide (c.ls.getD r 0 + sum (fun e => e.ls.getD r 0) ≤ 256))
  && (c.links.all fun k => decide (c.lks + sum (fun e => if e.links.contains k then e.lks else 0) ≤ 256) && (s.link k).up)
  && decide (c.hshare + ((others.filter fun e => (s.part e.1).owner == p).map fun e => e.2.hshare).sum ≤ 192)
  && ((List.range 3).all fun r => decide (minCap r s ≠ 0) || turns.all fun t => decide (b.lb t r = 0))
  && (decide (minLinkRate c.links s ≠ 0) || turns.all fun t => decide (b.lk t = 0))

/-- The bed die that carries the most of a placement's cores (R42). Of bed dies that carry equally many, the lowest-numbered one
(DESIGN CHOICE, log 80: the rule names none). -/
def masterBedOf (place : List (Nat × Nat)) : Nat :=
  let n := fun (b : Nat) => (place.filter fun e => bedOfDie (dieOfCore e.2) == b).length
  (List.range 4).foldl (fun m b => if n m < n b then b else m) 0

/-- The lowest turn-master slot of a bed die that no other partition holds (R42). -/
def freeSlot (q b : Nat) (s : State) : Nat :=
  (firstFrom (fun k => !(otherCfgs q s).any fun e => (s.part e.1).masterBed == b && (s.part e.1).masterSlot == k) 0 16).getD 0

/-- The rescue words that assignment leaves (R73, R75, R133): firmware scratch. -/
def scratchFrom : Nat := rescueWord + 52

/-- A core that no partition holds: its units and its front end are as reset leaves them; its store, scrubber, spare row and
CYCLE go on. -/
def releasedCore (x : Core) : Core :=
  { Core.reset with
    cycle := x.cycle, store := x.store, storeErr := x.storeErr, ctlErr := x.ctlErr, scrub := x.scrub
    spareRow := x.spareRow }

/-- A turn-0 entry in its queue (R33, R38). -/
def armFirst (c seq : Nat) (x : Core) (a : ArmInit) : ArmEntry :=
  let (rd, wr) := rangesOf a.kind a.handle.toNat x
  ⟨a.kind, a.turn, a.handle.toNat, a.cond.toNat, c, seq, rd, wr, 0, 0⟩

/-- A turn unit with the turn-0 entries of its queue. -/
def firstTu (l : List ArmEntry) : TurnUnit := { TurnUnit.reset with queue := l, lastArmed := (l.getLast?.map (·.turn)).getD 0 }

/-- A core assigned to a partition, in turn 0 (R33, R67, R75, R98, R126, R129, R196, R273). -/
def assignedCore (q lc c : Nat) (im : CoreImage) (x : Core) : Core :=
  let base : Core := { releasedCore x with
    part := some q
    lcore := lc
    store := im.words.foldl (fun m e => SMap.set TWord.zero e.1 e.2 m) (x.store.filter fun e => decide (scratchFrom ≤ e.1))
    storeErr := x.storeErr.filter fun e => decide (scratchFrom ≤ e.1)
    a := im.regs.foldl (fun m e => SMap.set TWord.zero e.1 e.2 m) []
    pc := im.entry
    bundles := im.code.foldl (fun m e => SMap.set 0 e.1 e.2 m) []
    bind := (im.bind.zipIdx).foldl (fun m e => SMap.set 0 e.2 e.1 m) [] }
  let es := im.arm.zipIdx.map fun e => (e.1.unit, armFirst c (e.2 + 1) base e.1)
  let of := fun (u : CoreUnit) => firstTu ((es.filter fun e => e.1 == u).map (·.2))
  { base with tu := of .core, mtu := of .mover, dtu := of .drain, armSeq := im.arm.length + 1 }

/-- Nothing in a core for a logical core that an image does not name. -/
def emptyImage : CoreImage := ⟨0, [], [], [], [], []⟩

/-- What an image gives a logical core. -/
def Image.coreOf (i : Image) (lc : Nat) : CoreImage := ((i.parts.cores.find? fun e => e.1 == lc).map (·.2)).getD emptyImage

/-- The cores of a placement are assigned. -/
def assignCores (q : Nat) (i : Image) (place : List (Nat × Nat)) (s : State) : State :=
  place.foldl (fun s e => s.updCore e.2 (assignedCore q e.1 e.2 (i.coreOf e.1))) s

/-- The bulk movers' turn-0 entries of a partition: the firmware arms them, so their place in arming order is 0 (R37, R38). -/
def armBulks (q : Nat) (i : Image) (place : List (Nat × Nat)) (s : State) : State :=
  (List.range 12).foldl (fun s d =>
    if place.any fun e => dieOfCore e.2 == d then
      updBulk d q (fun _ => { Bulk.reset with tu := firstTu ((bulkEntries i place d).map fun e =>
        let c := ((place.find? fun y => y.1 == e.1).map (·.2)).getD 0
        { armFirst c 0 (s.core c) e.2 with rd := [], wr := [] }) }) s
    else s) s

/-- The regulators of a partition with its shares and their turn-0 changes (R308, R311). -/
def setRegs (q : Nat) (c : PartCfg) (i : Image) (s : State) : State :=
  (List.range 8).foldl (fun s k =>
    let (rate, burst) := c.reg.getD k (0, 0)
    let es := (i.parts.shares.filter fun e => e.stack == k).map fun e =>
      (⟨.share, e.turn, 0, 0, 0, 0, [], [], e.rate, e.burst⟩ : ArmEntry)
    updReg k q (fun g => { Regulator.reset with
      rate := rate, burst := burst, tokens := burst * 2048, lines := g.lines, tu := firstTu es }) s) s

/-- A range of a bed store is zero, its stamps cold (R285). -/
def zeroBed (b g n : Nat) (s : State) : State :=
  let a := g * 0x200000
  let len := n * 0x200000
  let out := fun (u : Nat) (k : Nat) => decide (k < a / u) || decide ((a + len) / u ≤ k)
  s.updBed b fun x => { x with
    store := x.store.clear a len
    err := x.err.filter fun e => out 8 e.1
    stamps := x.stamps.filter fun e => out 64 e.1
    stampErr := x.stampErr.filter fun e => out 64 e.1 }

/-- The user address that byte `k` of a stack's spare rows serves by the active table, or will serve once the copy in progress has
ended, if any (R302, R303). -/
def servedBy (j : Nat) (x : Stack) (k : Nat) : Option Nat :=
  let r := SMap.get Remap.none (k / 1024) (if x.active = 0 then x.table0 else x.table1)
  if r.valid then some (hbmEncode ⟨j, ⟨k / 1024 / 16, r.sid, r.bank, r.row⟩, k % 1024⟩)
  else match x.copy with
    | some c => if c.spare = k / 1024 then some (hbmEncode ⟨j, c.row, k % 1024⟩) else none
    | none => none

/-- A range of HBM is zero but for the ranges in `keep`, wherever its lines are served from, and no bed cache holds a line of it
(R286, R300, R432). -/
def zeroHbm (keep : List Rng) (g n : Nat) (s : State) : State :=
  let a := g * 0x200000
  let len := n * 0x200000
  let inR := fun (k : Nat) => inside k 1 a len && !keep.any fun r => inside k 1 r.1 r.2
  { s with
    hbm := s.hbm.filter fun e => !inR e.1
    hbmErr := s.hbmErr.filter fun e => !inR e.1
    hbms := SMap.mapVals Stack.reset (fun j x => { x with
      spare := x.spare.filter fun e => !(servedBy j x e.1).any inR
      spareErr := x.spareErr.filter fun e => !(servedBy j x (4 * e.1)).any inR }) s.hbms
    beds := SMap.mapVals Bed.reset (fun _ x => { x with
      cache := x.cache.filter fun e => !inR (64 * e.2.line)
      fillQ := x.fillQ.filter fun r => !inR (64 * r.line) }) s.beds }

/-- The BAR2 reads that wait for lines of a partition have them, before its requests are dropped (R33, R357; log 18). -/
def settleBar2 (q : Nat) (s : State) : State :=
  [PortId.a, PortId.b].foldl (fun s p => (s.port p).reads.foldl (fun s r => r.lines.foldl (fun s x =>
    if x.part = q ∧ x.got = none then
      let (s, l) := lineNow (64 * x.line) s
      bar2Got p r.k x.line l s
    else s) s) s) s

/-- Everything of a partition leaves the units that served it (R33, R321, R357); LINES, which only MOD_RESET_N clears, stays
(R312). -/
def clearUnits (q : Nat) (s : State) : State :=
  let s := purgeReqs q (invalidateAll q (settleBar2 q s))
  let s := (s.part q).phys.foldl (fun s c => s.updCore c releasedCore) s
  let s := { s with
    dies := SMap.mapVals Die.reset (fun _ x => { x with
      bulk := SMap.set Bulk.reset q Bulk.reset x.bulk
      fq := x.fq.filter fun e => e.2.part != q
      acc := x.acc.filter fun e => e.2.part != q }) s.dies
    hbms := SMap.mapVals Stack.reset (fun _ x => { x with regs := SMap.upd Regulator.reset q (fun g => { Regulator.reset with lines := g.lines }) x.regs }) s.hbms
    beds := SMap.mapVals Bed.reset (fun _ x => { x with sweepLeft := SMap.set 0 q 0 x.sweepLeft }) s.beds }
  let pages := fun (x : Port) => { x with bar2 := x.bar2.filter fun e => !e.2.any fun y => y.1 == q }
  (s.updPort .a pages).updPort .b pages

/-- The record of a partition ends (R431). -/
def endRecord (q code : Nat) (s : State) : State := recEnd q code s

/-- The units of a partition stand in turn 0 with what its image gives them (R33, R75, R196, R285). -/
def loadUnits (q : Nat) (c : PartCfg) (i : Image) (s : State) : State :=
  let p := s.part q
  let s := p.bedAt.foldl (fun s e => zeroBed e.1 e.2.1 e.2.2 s) s
  setRegs q c i (armBulks q i p.place (assignCores q i p.place s))

/-- A partition is built (R338, R394, R395): CONFIGURED, in turn 0. -/
def buildPart (q : Nat) (p : PortId) (c : PartCfg) (i : Image) (place : List (Nat × Nat)) (rep : Report) (seed : Word) (s : State) :
    State :=
  let s := clearUnits q (endRecord q 3 s)
  let b := masterBedOf place
  let new : Part := { Part.reset with
    st := .configured
    owner := p
    cfg := some c
    img := some i
    place := place
    masterBed := b
    masterSlot := freeSlot q b s
    bedAt := (List.range 4).flatMap fun n => (runsOf ((freeGranules q n s).take (c.bedq.getD n 0))).map fun r => (n, r.1, r.2)
    hbmAt := runsOf ((freeHbm q s).take c.hbmCap)
    report := rep
    caps := capsOf c (c.span - 1) s
    seed := seed
    mon := { Monitor.reset with montab := i.parts.montab } }
  let s := s.updPart q fun _ => new
  let s := new.hbmAt.foldl (fun s e => zeroHbm [] e.1 e.2 s) s
  loadUnits q c i s

/-- A partition is released (R338, R397). -/
def destroyPart (q : Nat) (s : State) : State := (clearUnits q (endRecord q 3 s)).updPart q fun _ => Part.reset

/-- The checks of R347 from step 3 on, with what an accepted command does: status and admission report. -/
def configure (q : Nat) (p : PortId) (bs : List Byte) (keep : Option Image) (s : State) : State × Nat × List Byte :=
  let c := cfgOf bs
  let h := cfgImage bs
  let img := if h = 0 then keep else SMap.get none h (s.port p).staged
  match img with
  | none => (s, stBadParameter, [])
  | some i =>
    if !cfgFieldsOk (bedWindow s) bs || !cfgFits q c i s then (s, stBadParameter, [])
    else if !resourcesFit q p h c i s then (s, stNoResources, [])
    else match placement q c s with
      | none => (s, stNoResources, [])
      | some place =>
        if (List.range 12).any fun d => decide (16 < (bulkEntries i place d).length) then (s, stNoResources, [])
        else
          let v := admitPartition c i (capsOf c (c.span - 1) s) (spareOfPlace place s)
          let rep := v.report s.freeVal
          let s := s.drew
          if v.ok then
            let s := s.updPort p fun x => { x with staged := SMap.set none h none x.staged }
            (buildPart q p c i place rep (cfgSeed bs) s, stOk, rep.bytes)
          else (s, stDeadline, rep.bytes)

/-- Every write of a partition on its way to HBM lands, in the order in which each line will meet them. -/
def settleWrites (q : Nat) (s : State) : State :=
  let of := fun (x : Stack) => (x.queues.flatMap fun l => l.2.map (·.req)) ++ x.entering ++ (SMap.get Regulator.reset q x.regs).waiting
  ((s.hbms.flatMap fun e => of e.2).filter fun r => r.part == q && r.write).foldl (fun s r =>
    hbmWrite (64 * r.line) r.bytes r.mask r.poison s) s

/-- A partition is cleared as an accepted PART_RECONFIGURE with unchanged settings would clear it; mappings, windows and streams,
the bytes of the record ring, and the two marks that only PART_RECONFIGURE and PART_DESTROY clear, are kept (R33, R62, R339, R353,
R406, R432). -/
def rewindPart (q ringVa ringLen : Nat) (s : State) : State :=
  let p := s.part q
  match p.cfg, p.img with
  | some c, some i =>
    let s := endRecord q 3 (settleWrites q s)
    let bar2 := (s.port p.owner).bar2
    let s := (clearUnits q s).updPort p.owner fun x => { x with bar2 := bar2 }
    let s := s.updPart q fun p => { p with
      stopStat := 0, incomplete := false, turn := 0, how := .never, posts := [], postQ := []
      recd := Recorder.reset, recNext := none, turnEnds := [], spurTo := [], notifies := []
      streams := p.streams.map fun e => (e.1, e.2.map fun y => { y with next := 0, taken := 0, frames := [], fetch := none })
      mon := { Monitor.reset with montab := i.parts.montab } }
    let keep := (regionsInside ringVa ringLen p.regions).map fun g => (g.pa, g.len)
    let s := p.hbmAt.foldl (fun s e => zeroHbm keep e.1 e.2 s) s
    loadUnits q c i s
  | _, _ => s

end Sys2Proof.Machine
end

