-- ==== Sys2Proof/Machine/Streams.lean ====
section
/-! DEFINITION. Stream rings (R369 to R375): doorbells, frame fetches, completion entries and output posts. -/

namespace Sys2Proof.Machine

/-- An open stream of a partition. -/
def Part.stream (p : Part) (n : Nat) : Option Stream := SMap.get none n p.streams

/-- The declaration of a stream. -/
def Part.decl (p : Part) (n : Nat) : Option StreamDecl := p.cfg.bind fun c => c.streams.find? fun d => d.num == n

/-- The doorbell checks of R370, modulo 2^16. -/
def doorbellOk (y : Stream) (tail head : Nat) : Bool :=
  let sub := fun (a b : Nat) => (a + 65536 - b % 65536) % 65536
  decide (sub tail head ≤ y.entries) && decide (sub tail y.sqTail ≤ y.entries)
  && decide (sub head y.cqHead ≤ sub (y.cqCount % 65536) y.cqHead)

/-- An accepted doorbell: the indices go on (R370). -/
def ring (tail head : Nat) (y : Stream) : Stream :=
  let sub := fun (a b : Nat) => (a + 65536 - b % 65536) % 65536
  { y with sqTail := y.sqTail + sub tail y.sqTail, cqHead := y.cqHead + sub head y.cqHead }

/-- A write of a stream doorbell (R369, R370, R381). -/
def doorbell (p : PortId) (q n : Nat) (value : Word) (s : State) : State :=
  if (s.port p).quiesced then s
  else if (s.part q).st = .empty ∨ (s.part q).owner ≠ p then portErr p (fun x => { x with dbIgnored := bump16 x.dbIgnored }) s
  else match (s.part q).stream n with
    | none => portErr p (fun x => { x with dbIgnored := bump16 x.dbIgnored }) s
    | some y =>
      if doorbellOk y (wf64 value 15 0) (wf64 value 31 16) then updStream q n (ring (wf64 value 15 0) (wf64 value 31 16)) s
      else portErr p (fun x => { x with ringErr := bump16 x.ringErr }) s

/-- STREAM_DOORBELL (R369, R370). -/
def execStreamDoorbell (p : PortId) (q : PartId) (stream : Fin 64) (value : Word) (s : State) : Answer :=
  .next (if s.reaches p then doorbell p q stream value s else s)

/-- A submission entry (R371): buffer, length, USER, and whether its reserved words are 0. -/
structure SubEntry where
  buf : Nat
  len : Nat
  user : Word
  clear : Bool
deriving DecidableEq, Repr

/-- The entry that 32 bytes spell. -/
def subEntry (bs : List Byte) : SubEntry :=
  ⟨fieldAt bs 0 8, fieldAt bs 8 4, BitVec.ofNat 64 (fieldAt bs 16 8), decide (fieldAt bs 12 4 = 0) && decide (fieldAt bs 24 8 = 0)⟩

/-- The open window in which [iova, iova + len) lies (R371). -/
def Part.windowOf (p : Part) (iova len : Nat) : Option Window :=
  (p.windows.findSome? fun e => e.2.bind fun w => if inside iova len w.iova w.len then some w else none)

/-- A completion entry (R375) and its vector. -/
def putCompletion (q n cstat len : Nat) (user : Word) (sub turn : Nat) (s : State) : State :=
  match (s.part q).stream n with
  | none => s
  | some y =>
    let p := (s.part q).owner
    let ph := b2n (y.cqCount / y.entries % 2 = 0)
    let bytes := leBytes user.toNat 8 ++ leBytes (ph * 2 ^ 63 + cstat % 256 * 2 ^ 40 + len % 2 ^ 32) 8
      ++ leBytes (sub % 65536 * 2 ^ 48 + turn % 2 ^ 48) 8 ++ leBytes (n % 64 * 16 + q % 16) 8
    let s := s.emit (.hostWrite p (y.cqIova + 32 * (y.cqCount % y.entries)) bytes)
    msix p y.vector (updStream q n (fun y => { y with cqCount := y.cqCount + 1 }) s)

/-- The stop of a stream failure (R372, R373, R374, R423), with the race unit it befell. -/
def streamFault (unit q n cstat addr index : Nat) (s : State) : State :=
  faultPart q (logEvent { LogEntry.ofCode 0x0024 .stop with
    part := some q, src := 0x20, addr := addr, unit := unit, d0 := cstat % 256 + n % 64 * 256, d1 := index } s)

/-- Completion statuses (R375). -/
def csOk : Nat := 0
def csTruncated : Nat := 1
def csBadEntry : Nat := 2
def csHostError : Nat := 3
def csPoison : Nat := 4

/-- A turn in which a launch fired has completed. -/
def turnOver (q t : Nat) (s : State) : Bool := decide (t < (s.part q).turn) || turnComplete q s

/-- The next frame of a stream may be fetched (R372): it has been submitted (in a replay the record holds it), no other fetch
is under way, and its slot is free. -/
def mayFetch (q : Nat) (y : Stream) (s : State) : Bool :=
  y.fetch.isNone && decide (0 < y.nslot) && (decide (y.taken < y.sqTail) || (s.part q).replay.isSome)
  && (decide (y.taken < y.nslot) ||
    match (SMap.get Frame.none (y.taken - y.nslot) y.frames).launched with
    | some t => turnOver q t s
    | none => false)

/-- What the host mover's translation of a page says (R323). -/
inductive MoverX
  | go
  | wait
  | fail (cause va : Nat)
deriving DecidableEq, Repr

/-- A host mover translates through the headstock's TLB (R313, R321). -/
def hostXlate (q va : Nat) (write : Bool) (s : State) : State × Xl :=
  match translateFar .headstock q va write s with
  | (s, .ok e) => (tlbInstall .headstock e s, .ok e)
  | (s, x) => (s, x)

/-- The pages of n bytes from a device virtual address translate for the host mover. -/
def moverX (q : Nat) (write : Bool) : (fuel : Nat) → (va n : Nat) → State → State × MoverX
  | 0, _, _, s => (s, .go)
  | k + 1, va, n, s =>
    if n = 0 then (s, .go) else
      let m := min n (64 - va % 64)
      match hostXlate q va write s with
      | (s, .ok _) => moverX q write k (va + m) (n - m) s
      | (s, .fail cause _ _) => (s, if cause = xMigrating then .wait else .fail cause va)

/-- A host mover's translation failure (R323, R423). -/
def hostMoverFault (q cause va : Nat) (s : State) : State :=
  faultPart q (logEvent { LogEntry.ofCode 0x0023 .stop with
    part := some q, src := 0x20, addr := va, unit := hostMoverUnit q s, d0 := cause } s)

/-- A fetch fails (R372): completion entry, fault-log entry, stop. -/
def fetchFails (q n k cstat addr : Nat) (user : Word) (s : State) : State :=
  let s := updStream q n (fun y => { y with fetch := none, taken := k + 1 }) s
  streamFault (hostMoverUnit q s) q n cstat addr k (putCompletion q n cstat 0 user k (s.part q).turn s)

/-- The lines of a frame that have been asked for (R327). -/
def Part.fetchLines (p : Part) (n : Nat) : List (Nat × Option Line) := (((p.stream n).bind (·.fetch)).map (·.lines)).getD []

/-- The lines of a frame that a migration has moved to HBM are asked for, each once (R294, R310, R327): `len` bytes from va on. -/
def frameAsk (q n : Nat) : (fuel : Nat) → (va len : Nat) → State → State
  | 0, _, _, s => s
  | k + 1, va, len, s =>
    if len = 0 then s else
      let m := min (64 - va % 64) len
      let at' := va - va % 64
      let s := match hostXlate q va false s with
        | (s, .ok e) => (match locate (e.at va) with
          | .hbm =>
            if ((s.part q).fetchLines n).any fun x => x.1 == at' then s
            else
              let s := updStream q n (fun y => { y with fetch := y.fetch.map fun f => { f with lines := f.lines ++ [(at', none)] } }) s
              submit (mkReq q (hostMoverUnit q s) (s.part q).turn e.ro (e.at va / 64) (.frame n at') s) s
          | _ => s)
        | (s, .fail _ _ _) => s
      frameAsk q n k (va + m) (len - m) s

/-- A frame's bytes, those of lines in HBM from there and the others as the host has answered, and for each byte the poison source of
its line (R81, R327). -/
def frameBytes (lines : List (Nat × Option Line)) : (fuel : Nat) → (va : Nat) → List Byte → List (Byte × Nat)
  | 0, _, bs => bs.map fun b => (b, 0)
  | k + 1, va, bs =>
    if bs.isEmpty then [] else
      let m := min (64 - va % 64) bs.length
      let here := match (lines.find? fun e => e.1 == va - va % 64).bind (·.2) with
        | some l => ((l.bytes.drop (va % 64)).take m).map fun b => (b, l.bad)
        | none => (bs.take m).map fun b => (b, 0)
      here ++ frameBytes lines k (va + m) (bs.drop m)

/-- Every core of a partition has the spur of the open turn, and the recorder can still take an item of it (R270, R427). -/
def turnOpen (q : Nat) (s : State) : Bool :=
  let p := s.part q
  p.spurTo.isEmpty && !(decide (p.recd.mode ≠ 0) && p.recd.tu.done)

/-- The words of a slot that hold a byte of an uncorrectable line become poison words (R81, R268). -/
def poisonSlot (c slot : Nat) (bytes : List (Byte × Nat)) (s : State) : State :=
  s.updCore c fun x => (bytes.zipIdx.filter fun e => e.1.2 != 0).foldl (fun x e =>
    putWord ((slot + e.2) / 8) (poisonWord e.1.2) x) x

/-- A frame enters its slot (R273, R372): the bytes, the stream's indices, and the event in every core that binds it. -/
def putFrame (q n : Nat) (f : Fetch) (y : Stream) (bytes : List (Byte × Nat)) (s : State) : State :=
  let p := s.part q
  let slot := y.slotBase + y.slotStride * (f.k % y.nslot)
  let s := match p.physOf y.core with
    | some c => poisonSlot c slot bytes (storeBytes c 0 (f.len / 8 + 2) slot (bytes.map (·.1)) s)
    | none => s
  let s := updStream q n (fun y => { y with
    fetch := none, taken := f.k + 1, frames := SMap.set Frame.none f.k ⟨f.len, true, none⟩ y.frames }) s
  p.phys.foldl (fun s c => coreEvent q c 7 n s) s

/-- A fetch completes (R375, R427). -/
def finishFetch (q n : Nat) (f : Fetch) (y : Stream) (bytes : List (Byte × Nat)) (s : State) : State :=
  let p := s.part q
  let s := putFrame q n f y bytes s
  let s := recInput q 0x10 y.core f.k n (bytes.map (·.1)) s
  putCompletion q n csOk f.len f.user f.k p.turn s

/-- The next frame of a stream in a replay (R433, R434): from the record, once its turn has come. A frame for which a launch
waits and which the record lacks ends the replay. -/
def replayFrame (q n : Nat) (y : Stream) (r : Replay) (s : State) : State :=
  let p := s.part q
  match r.items.find? fun i => i.kind == 0x10 && i.sub == n && i.key == y.taken with
  | some i =>
    if p.turn < i.turn ∨ turnOpen q s = false then s
    else if sha256 i.content = i.digest then putFrame q n ⟨y.taken, 0, i.content.length, 0, []⟩ y (i.content.map fun b => (b, 0)) s
    else replayDiverge q p.turn 0xFFFE 0xFF s
  | none => if p.phys.any fun c => launchWaits q (s.core c) s then replayDiverge q p.turn 0xFFFD 0xFF s else s

/-- FRAME_FETCH (R371, R372): the host mover reads the next submission entry and begins the fetch. PART_START has ended turn 0
(R33), and with it come the windows opened in it (R320). -/
def execFrameFetch (q : PartId) (stream : Fin 64) (entry : HostReply) (s : State) : Answer :=
  let p := s.part q
  .next (match p.stream stream, p.decl stream with
    | some y, some d =>
      if p.st ≠ .running ∨ p.turn = 0 ∨ d.output = true ∨ mayFetch q y s = false then s
      else match p.replay with
      | some r => replayFrame q stream y r s
      | none =>
        let at' := y.sqIova + 32 * (y.taken % y.entries)
        (match entry with
          | .fail _ => (fetchFails q stream y.taken csHostError at' s.freeVal s).drew
          | .data bs =>
            let e := subEntry (padTo 32 bs)
            let w := p.windowOf e.buf e.len
            if !e.clear || decide (e.len < 1) || decide (d.bytes < e.len) || w.isNone then
              fetchFails q stream y.taken csBadEntry at' e.user s
            else updStream q stream (fun y => { y with fetch := some ⟨y.taken, e.buf, e.len, e.user, []⟩ }) s)
    | _, _ => s)

/-- FRAME_FETCH_COMPLETE (R323, R372): the host's answer to the frame's read. Until the lines of it that are in HBM have come the
fetch stays in hand. -/
def execFrameFetchComplete (q : PartId) (stream : Fin 64) (frame : HostReply) (env : Env) (s : State) : Answer :=
  let s := applyUpsets env.upsets s
  let p := s.part q
  .next (match p.stream stream with
    | some y =>
      (match y.fetch with
        | some f =>
          if p.st = .running ∧ turnOpen q s = true then
            (match frame with
              | .fail _ => fetchFails q stream f.k csHostError f.buf f.user s
              | .data bs =>
                let va := ((p.windowOf f.buf f.len).map fun w => w.dva + (f.buf - w.iova)).getD 0
                (match moverX q false (f.len / 64 + 2) va f.len s with
                  | (s, .wait) => s
                  | (s, .fail cause a) => hostMoverFault q cause a s
                  | (s, .go) =>
                    let s := frameAsk q stream (f.len / 64 + 2) va f.len s
                    let lines := (s.part q).fetchLines stream
                    if lines.all fun e => e.2.isSome then
                      finishFetch q stream f y (frameBytes lines (f.len / 64 + 2) va (padTo f.len bs)) s
                    else s))
          else s
        | none => s)
    | none => s)

/-- Bytes that the host mover writes at a device virtual address: to the host, or to HBM where a migration has moved the page, through
its reorder queue (R294). -/
def hostMoverWrite (q : Nat) : (fuel : Nat) → (va : Nat) → List Byte → State → State
  | 0, _, _, s => s
  | k + 1, va, bs, s =>
    if bs.isEmpty then s else
      let m := min (64 - va % 64) bs.length
      let s := match hostXlate q va true s with
        | (s, .fail _ _ _) => s
        | (s, .ok e) =>
          (match locate (e.at va) with
            | .host p iova => s.emit (.hostWrite p iova (bs.take m))
            | _ =>
              let o := va % 64
              let r := mkReq q (hostMoverUnit q s) (s.part q).turn e.ro (e.at va / 64) .host s
              submit (r.writing (padTo 64 (List.replicate o 0 ++ bs.take m)) ((2 ^ m - 1) * 2 ^ o) 0) s)
      hostMoverWrite q k (va + m) (bs.drop m) s

/-- A post with its submission entry (R374, R375). -/
def finishPost (q : Nat) (o : Post) (y : Stream) (d : StreamDecl) (entry : HostReply) (s : State) : State :=
  let k := y.taken
  let at' := y.sqIova + 32 * (k % y.entries)
  let s := updStream q o.stream (fun y => { y with taken := k + 1 }) s
  let bad := fun (cstat : Nat) (user : Word) (s : State) =>
    streamFault (hostMoverUnit q s) q o.stream cstat at' k (putCompletion q o.stream cstat 0 user k o.turn s)
  match entry with
  | .fail _ => (bad csHostError s.freeVal s).drew
  | .data bs =>
    let e := subEntry (padTo 32 bs)
    match (s.part q).windowOf e.buf e.len with
    | some w =>
      if !e.clear || decide (e.len < 1) || !w.writable || !d.output then bad csBadEntry e.user s
      else
        let out := o.bytes.take e.len
        let s := hostMoverWrite q (out.length / 64 + 2) (w.dva + (e.buf - w.iova)) out s
        let cstat := if o.poison then csPoison else if out.length < o.bytes.length then csTruncated else csOk
        putCompletion q o.stream cstat out.length e.user k o.turn s
    | none => bad csBadEntry e.user s

/-- Whether a post waits for a page under migration, or fails in translation (R323). -/
def postX (q : Nat) (o : Post) (entry : HostReply) (s : State) : State × MoverX :=
  match entry with
  | .fail _ => (s, .go)
  | .data bs =>
    let e := subEntry (padTo 32 bs)
    match (s.part q).windowOf e.buf e.len with
    | some w =>
      let n := min e.len o.bytes.length
      if w.writable then moverX q true (n / 64 + 2) (w.dva + (e.buf - w.iova)) n s else (s, .go)
    | none => (s, .go)

/-- The oldest fired post of a core no longer holds its source range (R373). -/
def dropPosted (p : Part) (lcore : Nat) (s : State) : State :=
  match p.physOf lcore with
  | some c => s.updCore c fun x => { x with jobs := { x.jobs with posted := x.jobs.posted.drop 1 } }
  | none => s

/-- The oldest post that has not completed (R58, R374, R433): in a replay it writes nothing. -/
def completePost (q : Nat) (o : Post) (entry : HostReply) (s : State) : State :=
  let p := s.part q
  let done := fun (s : State) => dropPosted p o.lcore (s.updPart q fun p => { p with postQ := p.postQ.drop 1 })
  if p.replay.isSome then done s
  else match p.stream o.stream, p.decl o.stream with
    | some y, some d =>
      if y.taken < y.sqTail then
        (match postX q o entry s with
          | (s, .wait) => s
          | (s, .fail cause a) => hostMoverFault q cause a (done s)
          | (s, .go) => finishPost q o y d entry (done s))
      else portErr p.owner (fun x => { x with noBuf := bump16 x.noBuf }) (done s)
    | _, _ => portErr p.owner (fun x => { x with noBuf := bump16 x.noBuf }) (done s)

/-- POST_COMPLETION (R58, R374). -/
def execPostCompletion (q : PartId) (entry : HostReply) (s : State) : Answer :=
  .next (match (s.part q).postQ with
    | o :: _ => completePost q o entry s
    | [] => s)

end Sys2Proof.Machine
end

