-- ==== Sys2Proof/Machine/Mailbox.lean ====
section
/-! DEFINITION. The control mailboxes (R362 to R368), what the host and the firmware write to registers (R334, R355, R356, R358
to R360, R377, R378, R418, R477), and how a command's response is written (R365). -/

namespace Sys2Proof.Machine

/-- A command as the firmware reads it from the accepted copy (R364). -/
structure Cmd where
  op : Nat
  plen : Nat
  part : Nat
  tag : Nat
  clear : Bool
  params : List Byte
deriving DecidableEq, Repr

/-- The command in a mailbox's copy. -/
def Mbx.command (b : Mbx) : Cmd :=
  let h := b.copy.read 0 32
  let plen := fieldAt h 2 2
  ⟨fieldAt h 0 2, plen, fieldAt h 4 1, fieldAt h 8 8,
    decide (fieldAt h 5 3 = 0) && decide (fieldAt h 16 16 = 0), b.copy.read 32 (min plen 4064)⟩

/-- A field of n bytes of the parameter block (R386). -/
def Cmd.field (c : Cmd) (o n : Nat) : Nat := fieldAt c.params o n

/-- n parameter bytes from offset o are 0. -/
def Cmd.zero (c : Cmd) (o n : Nat) : Bool := decide (c.field o n = 0)

/-- What the header's PART may be (R388). -/
inductive PartUse | p | none | either
deriving DecidableEq, Repr

/-- The states column of R388. -/
inductive StateRule | any | empty | notRunning | stopped
deriving DecidableEq, Repr

/-- A row of the command summary (R388): PART, states, class (0 free, 1 partition, 2 module), parameter block length. -/
structure OpInfo where
  use : PartUse
  rule : StateRule
  cls : Nat
  len : Nat

/-- The command summary (R388) with the parameter lengths of R389 to R414; the parameters give the counts on which some
lengths depend. -/
def opInfo (op : Nat) (bs : List Byte) : Option OpInfo :=
  match op with
  | 0x0001 => some ⟨.none, .any, 0, 0⟩
  | 0x0002 => some ⟨.none, .any, 0, 0⟩
  | 0x0003 => some ⟨.none, .any, 0, 8⟩
  | 0x0010 => some ⟨.p, .empty, 1, 144 + 16 * fieldAt bs 5 1⟩
  | 0x0011 => some ⟨.p, .notRunning, 1, 0⟩
  | 0x0012 => some ⟨.p, .any, 1, 0⟩
  | 0x0013 => some ⟨.p, .any, 1, 0⟩
  | 0x0014 => some ⟨.p, .notRunning, 1, 144 + 16 * fieldAt bs 5 1⟩
  | 0x0015 => some ⟨.p, .any, 0, 0⟩
  | 0x0016 => some ⟨.p, .any, 1, 8⟩
  | 0x0020 => some ⟨.none, .any, 1, 24⟩
  | 0x0021 => some ⟨.p, .any, 1, 32⟩
  | 0x0022 => some ⟨.p, .any, 1, 16⟩
  | 0x0023 => some ⟨.p, .any, 1, 32⟩
  | 0x0024 => some ⟨.p, .any, 1, 8⟩
  | 0x0030 => some ⟨.p, .notRunning, 1, 40⟩
  | 0x0031 => some ⟨.p, .notRunning, 1, 8⟩
  | 0x0040 => some ⟨.p, .any, 1, 24⟩
  | 0x0041 => some ⟨.p, .stopped, 1, 24⟩
  | 0x0050 => some ⟨.none, .any, 0, 8⟩
  | 0x0051 => some ⟨.none, .any, 0, 0⟩
  | 0x0052 => some ⟨.none, .any, 2, 0⟩
  | 0x0060 => some ⟨.none, .any, 2, 16⟩
  | 0x0061 => some ⟨.either, .any, 0, 32⟩
  | 0x0070 => some ⟨.none, .any, 2, 4 + fieldAt bs 0 2⟩
  | 0x0071 => some ⟨.none, .any, 0, 0⟩
  | 0x0080 => some ⟨.either, .any, 2, 24⟩
  | _ => none

/-- PART is one that the command allows. -/
def PartUse.ok (u : PartUse) (part : Nat) : Bool :=
  match u with
  | .p => decide (part < 16)
  | .none => decide (part = 0xFF)
  | .either => decide (part < 16) || decide (part = 0xFF)

/-- The commands that a FAILED module still carries out (R368). -/
def exemptFailed (op : Nat) : Bool := [0x0001, 0x0002, 0x0050, 0x0061, 0x0060].contains op

/-- The command that a BUSY mailbox holds: one refused at its acceptance has ended. -/
def Mbx.holds (b : Mbx) : Option Cmd := if b.state = 1 ∧ (b.ran = true ∨ b.result.isNone = true) then some b.command else none

/-- Every mailbox of both ports but one. -/
def otherMailboxes (p : PortId) (m : Nat) : List (PortId × Nat) :=
  ([PortId.a, .b].flatMap fun r => (List.range 4).map fun k => (r, k)).filter fun e => e != (p, m)

/-- A conflict of R366. -/
def conflicts (p : PortId) (m : Nat) (c : Cmd) (cls : Nat) (s : State) : Bool :=
  (otherMailboxes p m).any fun e =>
    match (s.mbx e.1 e.2).holds with
    | none => false
    | some d =>
      match opInfo d.op d.params with
      | none => false
      | some i => (cls == 2 && i.cls == 2) || (cls == 1 && i.cls == 1 && decide (c.part < 16) && d.part == c.part)

/-- The state rules of R387 and R388. -/
def stateStatus (r : StateRule) (x : Part) : Option Nat :=
  match r, x.st with
  | .empty, .empty => none
  | .empty, _ => some stNoResources
  | _, .empty => some stBadParameter
  | .any, _ => none
  | .notRunning, .running => some stNotStopped
  | .notRunning, _ => none
  | .stopped, .running => some stNotStopped
  | .stopped, .configured => some stBadCommand
  | .stopped, _ => none

/-- What the acceptance checks of R364 give a command: a status that ends it, or none. -/
def acceptStatus (p : PortId) (m : Nat) (c : Cmd) (s : State) : Option Nat :=
  match opInfo c.op c.params with
  | none => some stBadCommand
  | some i =>
    let x := s.part c.part
    if !c.clear || decide (c.plen ≠ i.len) || decide (4064 < c.plen) || !i.use.ok c.part then some stBadParameter
    else if s.modh = .failed ∧ exemptFailed c.op = false then some stNoResources
    else if c.part < 16 ∧ x.st ≠ .empty ∧ x.owner ≠ p ∧ c.op ≠ 0x0015 ∧ c.op ≠ 0x0010 then some stNotOwner
    else if conflicts p m c i.cls s then some stBusyRefused
    else if c.part < 16 ∧ (stateStatus i.rule x).isSome then stateStatus i.rule x
    else if c.op = 0x0080 ∧ (c.field 0 1 = 0 ∨ 5 < c.field 0 1) then some stBadParameter
    else none

/-- The firmware runs on the control cores (R363). -/
def State.fwUp (s : State) : Bool := s.hs.fwRun && !s.hs.fwRestart

/-- A doorbell is accepted (R363). -/
def doorbellTaken (p : PortId) (m : Nat) (s : State) : Bool :=
  decide ((s.mbx p m).state ≠ 1) && decide (s.modh ≠ .initializing) && !(s.port p).quiesced && s.fwUp

/-- A counter of refusals holds at 2^32 − 1 (R362, R377). -/
def bump32 (n : Nat) : Nat := min (n + 1) (2 ^ 32 - 1)

/-- A refused doorbell (R363). -/
def refuseDoorbell (p : PortId) (m : Nat) (s : State) : State := s.updMbx p m fun b => { b with refused := bump32 b.refused }

/-- What a command is judged by, as it stands at its acceptance (R387, R412). -/
def seenBy (part : Nat) (s : State) : Seen :=
  let x := s.part part
  ⟨x.st, startRefusal x, (List.range 64).filter fun b => (s.lane b).retired⟩

/-- A write of RING = 1 (R363, R364, R391). -/
def ringMailbox (p : PortId) (m : Nat) (s : State) : State :=
  if doorbellTaken p m s then
    let s := s.updMbx p m fun b => { b with
      state := 1, seq := (b.seq + 1) % 2 ^ 32, copy := b.cmd, ran := false, result := none, order := s.hs.accepted }
    let s := s.updHs fun h => { h with accepted := h.accepted + 1 }
    let s := s.updMbx p m fun b => { b with seen := seenBy b.command.part s }
    match acceptStatus p m (s.mbx p m).command s with
    | some st => s.updMbx p m fun b => { b with result := some ⟨st, []⟩ }
    | none => s
  else refuseDoorbell p m s

/-- MBX_DOORBELL_REFUSED (R363): a write of RING = 1 that is not accepted. -/
def execMbxDoorbellRefused (p : PortId) (m : MbxId) (s : State) : Answer :=
  .next (if s.reaches p && !doorbellTaken p m s then refuseDoorbell p m s else s)

/-- A write of HMB_CMD (R377, R378): OP and ARG, and whether OP's half is written. -/
def writeHmb (p : PortId) (opHalf : Bool) (op arg : Nat) (s : State) : State :=
  s.updPort p fun x =>
    if x.hmb.state = 1 then { x with hmb := { x.hmb with refused := bump32 x.hmb.refused } }
    else if opHalf && decide (op ≠ 0) then { x with hmb := { x.hmb with state := 1, op := op, arg := arg, done := none } }
    else { x with hmb := { x.hmb with arg := arg } }

/-- HMB_CMD_REFUSED (R378): a write while BUSY. -/
def execHmbCmdRefused (p : PortId) (value : Word) (s : State) : Answer :=
  .next (if s.reaches p && decide ((s.port p).hmb.state = 1) then
      writeHmb p true (wf64 value 3 0) (wf64 value 63 32) s else s)

/-- The bytes of a 64-bit register with a write laid over them (R356). -/
def mergeReg (old : Nat) (o : Nat) (data : List Byte) : Word := BitVec.ofNat 64 (leNat (overlay (leBytes old 8) o data))

/-- The 16 bytes of an MSI-X table entry. -/
def msixBytes (e : MsixEntry) : List Byte := leBytes e.addr.toNat 8 ++ leBytes e.data 4 ++ leBytes (b2n e.masked) 4

/-- The entry that 16 bytes spell. -/
def msixOf (bs : List Byte) : MsixEntry := ⟨BitVec.ofNat 64 (fieldAt bs 0 8), fieldAt bs 8 4, fieldAt bs 12 1 % 2 == 1⟩

/-- A write of the MSI-X table (R355, R358, log 31): a vector that is unmasked with its pending bit set is sent. -/
def writeMsix (p : PortId) (o : Nat) (data : List Byte) (s : State) : State :=
  let v := o / 16
  let e := msixOf (overlay (msixBytes (SMap.get MsixEntry.reset v (s.port p).msix)) (o % 16) data)
  sendPending p (s.updPort p fun x => { x with msix := SMap.set MsixEntry.reset v e x.msix })

/-- A write of a port register of BAR0 below 0x2000 (R359, R362, R377), as its 64-bit register and the place within. -/
def writePortReg (p : PortId) (base o : Nat) (data : List Byte) (s : State) : State :=
  let x := s.port p
  let v := mergeReg 0 o data
  let low := decide (o = 0)
  if base = 0x0010 then s.updPort p fun x => { x with intCause := x.intCause &&& (v.toNat ^^^ (2 ^ 64 - 1)) }
  else if base = 0x0040 then s.updPort p fun x => { x with ntc := x.ntc.writeBase (mergeReg x.ntc.baseWord.toNat o data) }
  else if base = 0x0048 then (if low then s.updPort p fun x => { x with ntc := { x.ntc with head := wf64 v 15 0 } } else s)
  else if base = 0x0060 then s.updPort p fun x => { x with hpr := x.hpr.writeBase (mergeReg x.hpr.baseWord.toNat o data) }
  else if base = 0x0068 then (if low then s.updPort p fun x => { x with hpr := { x.hpr with head := wf64 v 15 0 } } else s)
  else if 0x0100 ≤ base ∧ base < 0x0180 ∧ base % 0x20 = 0 then
    (if low && wbit v 0 then ringMailbox p ((base - 0x0100) / 0x20) s else s)
  else if base = 0x0200 then
    writeHmb p low (wf64 v 3 0) (wf64 (mergeReg (x.hmb.arg * 2 ^ 32) o data) 63 32) s
  else s

/-- A write of BAR0 by the host (R355, R356). -/
def writeBar0 (p : PortId) (off : Nat) (data : List Byte) (s : State) : State :=
  let n := data.length
  let reg := (n == 4 || n == 8) && decide (off % n = 0)
  let o := off % 8
  if off < 0x2000 then (if reg then writePortReg p (off - o) o data s else s)
  else if off < 0x4000 then
    (if reg && decide (o = 0) then
      doorbell p ((off - 0x2000) / 512) ((off - 0x2000) / 8 % 64) (mergeReg 0 0 data) s else s)
  else if off < 0x4400 then (if reg then writeMsix p (off - 0x4000) data s else s)
  else if 0x8000 ≤ off ∧ off < 0x10000 ∧ off % 0x2000 < 0x1000 ∧ off % 64 + n ≤ 64 then
    s.updMbx p ((off - 0x8000) / 0x2000) fun b => { b with cmd := b.cmd.write (off % 0x2000) data }
  else s

/-- A write of a die's translation registers by the firmware (R332, R334). -/
def writeDieReg (d off : Nat) (data : List Byte) (s : State) : State :=
  let o := off % 8
  let v := mergeReg 0 o data
  if off / 8 = 0 then s.updDie d fun x => { x with
    badRes := x.badRes && !wbit v 33
    fqOvf := x.fqOvf && !wbit v 32 }
  else if off = 8 then (if wbit v 8 then fqAbort d (wf64 v 7 0) s else fqRetry d (wf64 v 7 0) s)
  else if off / 8 = 2 then s.updDie d fun x => { x with hotThresh := wf64 (mergeReg x.hotThresh o data) 7 0 }
  else s

/-- A write of a chatter threshold (R418). -/
def writeChat (off : Nat) (data : List Byte) (s : State) : State :=
  let c := off / 8
  if 1 ≤ c ∧ c ≤ 0x0D then
    let v := wf64 (mergeReg (thresholdReg c s) (off % 8) data) 31 0
    { s with chat := { s.chat with thresh := SMap.set none c (some v) s.chat.thresh } }
  else s

/-- An access of a register is aligned and of 4 or 8 bytes (R356). -/
def regSize (off : Nat) (data : List Byte) : Bool :=
  (data.length == 4 || data.length == 8) && decide (off % data.length = 0)

/-- REGISTER_WRITE: a write by the host (R354, R355, R383), by the firmware (R312, R334, R418, R467) or over the management bus (R477). -/
def execRegisterWrite (sp : RegSpace) (offset : Nat) (data : List Byte) (s : State) : Answer :=
  .next (match sp with
    | .bar0 p => if s.reaches p then writeBar0 p offset data s else s
    | .pcie p r => if s.running && (s.port p).linkUp then writePcie p r offset data s else s
    | .stack _ => s
    | .power => s
    | .die d => if s.fwUp && regSize offset data then writeDieReg d offset data s else s
    | .chat => if s.fwUp && regSize offset data then writeChat offset data s else s
    | .alert =>
      match data with
      | [b] => if offset = 10 then
          { s with mgmt := { s.mgmt with alert := s.mgmt.alert &&& (b.toNat % 16 ^^^ 15) } } else s
      | _ => s)

/-- A command's response is written and its mailbox completes (R365): header and block, over what the area held. -/
def completeMailbox (p : PortId) (m : Nat) (r : MbxResult) (s : State) : State :=
  let b := s.mbx p m
  let c := b.command
  let h := leBytes c.op 2 ++ leBytes r.data.length 2 ++ leBytes r.status 1 ++ leBytes 0 3 ++ leBytes c.tag 8
    ++ leBytes b.seq 4 ++ List.replicate 12 0
  raiseVector p m (s.updMbx p m fun b => { b with
    resp := b.resp.write 0 (h ++ r.data)
    lastStat := r.status
    abandoned := false
    state := if r.status = stOk then 2 else 3
    result := none })

/-- MBX_COMMAND_COMPLETE (R365). -/
def execMbxCommandComplete (p : PortId) (m : MbxId) (s : State) : Answer :=
  let b := s.mbx p m
  .next (if b.state = 1 ∧ s.fwUp = true then
      (match b.result with
        | some r => completeMailbox p m r s
        | none => s)
    else s)

/-- A mailbox holds a command of this opcode that the firmware has still to carry out. -/
def toRun (p : PortId) (m op : Nat) (s : State) : Bool :=
  let b := s.mbx p m
  s.fwUp && decide (b.state = 1) && !b.ran && b.result.isNone && decide (b.command.op = op)

/-- A command is carried out, and ends in the same step when its result is there (R365); a result that comes later, and the refusal
of a command at its acceptance, are ended by MBX_COMMAND_COMPLETE. -/
def runLater (p : PortId) (m op : Nat) (f : Cmd → State → State × Option MbxResult) (s : State) : State :=
  if toRun p m op s then
    let c := (s.mbx p m).command
    let (s, r) := f c (s.updMbx p m fun b => { b with ran := true })
    match r with
    | some r => completeMailbox p m r s
    | none => s
  else s

/-- A command is carried out and ends. -/
def runCmd (p : PortId) (m op : Nat) (f : Cmd → State → State × MbxResult) (s : State) : State :=
  runLater p m op (fun c s => let (s, r) := f c s; (s, some r)) s

/-- A result with a status and no response block (R386). -/
def MbxResult.only (st : Nat) : MbxResult := ⟨st, []⟩
/-- OK with a response block. -/
def MbxResult.ok (bs : List Byte) : MbxResult := ⟨stOk, bs⟩

end Sys2Proof.Machine
end

