-- ==== Sys2Proof/Machine/CmdModule.lean ====
section
/-! DEFINITION. The commands about the module (R389 to R391, R407 to R413, R471, R480, R481): identity, health, the epoch
marker, the fault log, repairs, firmware, attestation, lanes and links. -/

namespace Sys2Proof.Machine

/-- The severity as the fault log encodes it (R422). -/
def Sev.code : Sev → Nat
  | .info => 0 | .transient => 1 | .lasting => 2 | .stop => 3 | .health => 4

/-- The 64 bytes of the fault-log entry at an index (R422). -/
def LogEntry.bytes (e : LogEntry) (index : Nat) : List Byte :=
  leBytes (e.code * 2 ^ 48 + e.cls * 2 ^ 40 + e.sev.code * 2 ^ 37
    + (match e.part with
      | some q => 2 ^ 36 + q * 2 ^ 32
      | none => 0) + e.src * 2 ^ 24 + index) 8
  ++ leBytes (e.refcyc % 2 ^ 48) 8 ++ leBytes e.epoch.toNat 8 ++ leBytes (e.turn % 2 ^ 48) 8 ++ leBytes e.addr 8
  ++ leBytes (e.unit % 2 ^ 16 * 2 ^ 32 + e.count % 2 ^ 32) 8 ++ leBytes e.d0 8 ++ leBytes e.d1 8

/-- n entries of the fault log from an index on; one never written reads as 0 (R379, R407). -/
def logBytes (start n : Nat) (s : State) : List Byte :=
  (List.range n).flatMap fun i =>
    let k := (start + i) % 4096
    match SMap.get none k s.hs.log with
    | some e => e.bytes k
    | none => List.replicate 64 0

/-- The slot that the directory names ACTIVE; without a valid entry it names slot A (R470). -/
def Flash.activeSlot (f : Flash) : Nat := f.active.getD 0

/-- The floor to be applied at the next reset (R389, R470). -/
def Flash.floorNext (f : Flash) : Nat := f.floorPend.getD f.floor

/-- A slot of the flash. -/
def Flash.slot (f : Flash) (n : Nat) : FwSlot := if n = 0 then f.slotA else f.slotB

/-- SVN that IDENTIFY reports of a slot: 0 when it is invalid. -/
def FwSlot.shownSvn (x : FwSlot) : Nat := if x.checks = 3 then x.svn else 0

/-- The digest of a slot's image (R480); the image that the module was shipped with is not in the manual. -/
def FwSlot.digestOf (x : FwSlot) : List Byte := if x.digest.isEmpty then leBytes Config.shippedDigest.toNat 32 else x.digest

/-- The block of IDENTIFY (R389). -/
def identifyBytes (p : PortId) (s : State) : List Byte :=
  let f := s.flash
  [1, 1, 2, 1, 0] ++ leBytes f.activeSlot 1 ++ leBytes (portNum p) 1 ++ leBytes 0 1 ++ leBytes s.build 8
  ++ leBytes f.slotA.shownSvn 4 ++ leBytes f.slotB.shownSvn 4 ++ leBytes f.floor 4 ++ leBytes f.floorNext 4
  ++ leBytes (enabledCores s) 2 ++ List.replicate 14 0 ++ leBytes Config.serial.toNat 16

/-- IDENTIFY (R389). -/
def execIdentify (p : PortId) (m : MbxId) (s : State) : Answer :=
  .next (runCmd p m 0x0001 (fun _ s => (s, .ok (identifyBytes p s))) s)

/-- The state of a compute die (R380). -/
def Die.code (x : Die) : Nat := if x.inBist then 1 else if x.fenced || !x.up then 0 else 2

/-- Bits [31:0] of HM_STATUS word 1 (R380). -/
def dieStates (s : State) : Nat :=
  ((List.range 12).map fun d => (s.die d).code * 4 ^ d).sum
  + ((List.range 4).map fun b => (if (s.bed b).up then 2 else 0) * 4 ^ (12 + b)).sum

/-- A signed value as a 16-bit field. -/
def s16 (i : Int) : Nat := wrapTo 16 i

/-- The state of a link in GET_HEALTH (R390). -/
def Link.code (x : Link) : Nat := if !x.up then 0 else if x.lanes = 3 then 1 else if x.spUsed then 2 else 3

/-- The block of GET_HEALTH (R390). -/
def healthBytes (s : State) : List Byte :=
  leBytes s.modh.code 1 ++ List.replicate 7 0 ++ leBytes (dieStates s) 4 ++ List.replicate 4 0
  ++ ((List.range 8).flatMap fun k => leBytes ((s.stack k).step % 16 * 2 ^ 16 + s16 (s.stack k).temp) 4)
  ++ leBytes ((List.range 36).map fun l => (s.link l).code * 4 ^ l).sum 9 ++ List.replicate 3 0
  ++ leBytes ((List.range 48).filter fun b => (s.lane b).retired).length 2 ++ leBytes (enabledCores s) 2
  ++ leBytes s.hs.logNext 2 ++ List.replicate 6 0 ++ leBytes s.hs.epoch.toNat 8

/-- GET_HEALTH (R390). -/
def execGetHealth (p : PortId) (m : MbxId) (s : State) : Answer :=
  .next (runCmd p m 0x0002 (fun _ s => (s, .ok (healthBytes s))) s)

/-- No mailbox holds a SET_EPOCH that was accepted earlier and has still to be carried out (R391). -/
def firstEpoch (p : PortId) (m : Nat) (s : State) : Bool :=
  (otherMailboxes p m).all fun e =>
    let b := s.mbx e.1 e.2
    !(b.state == 1 && b.result.isNone && b.command.op == 0x0003 && decide (b.order < (s.mbx p m).order))

/-- SET_EPOCH (R391): the commands are carried out in the order of their acceptance. -/
def execSetEpoch (p : PortId) (m : MbxId) (s : State) : Answer :=
  .next (if firstEpoch p m s then runCmd p m 0x0003 (fun c s =>
    (s.updHs fun h => { h with epoch := BitVec.ofNat 64 (c.field 0 8) }, .ok (leBytes s.hs.epoch.toNat 8))) s
  else s)

/-- FAULT_LOG_READ (R407). -/
def execFaultLogRead (p : PortId) (m : MbxId) (s : State) : Answer :=
  .next (runCmd p m 0x0050 (fun c s =>
    let start := c.field 0 2
    let n := c.field 2 1
    if 4095 < start ∨ n < 1 ∨ 63 < n ∨ c.zero 3 5 = false then (s, .only stBadParameter)
    else (s, .ok (leBytes s.hs.logNext 2 ++ leBytes n 1 ++ List.replicate 5 0 ++ logBytes start n s))) s)

/-- Cores of a die that a list names. -/
def coresOn (d : Nat) (l : List Nat) : Nat := (l.filter fun c => dieOfCore c == d).length

/-- Spare cores of a die still usable (R408): not enabled, not retired, not marked. -/
def sparesOn (d : Nat) (s : State) : Nat :=
  ((s.die d).disabled.filter fun i =>
    !s.flash.repair.cores.contains (108 * d + i) && !s.flash.pendCores.contains (108 * d + i)).length

/-- Spares of a stack that hold a valid entry (R312). -/
def Stack.used (x : Stack) : Nat :=
  ((List.range 1024).filter fun n => (SMap.get Remap.none n x.table0).valid || (SMap.get Remap.none n x.table1).valid).length

/-- The block of REPAIR_STATUS (R408). -/
def repairBytes (s : State) : List Byte :=
  ((List.range 12).flatMap fun d => leBytes (coresOn d s.flash.repair.cores) 1)
  ++ ((List.range 12).flatMap fun d => leBytes (sparesOn d s) 1)
  ++ ((List.range 12).flatMap fun d => leBytes (coresOn d s.flash.pendCores) 1) ++ List.replicate 4 0
  ++ (List.range 8).flatMap fun k =>
    let x := s.stack k
    leBytes (x.used + x.deferred * 2 ^ 11 + x.unpersist.length * 2 ^ 22 + x.pendingRows.length * 2 ^ 33
      + x.noSpare.length % 1024 * 2 ^ 38) 8

/-- REPAIR_STATUS (R408). -/
def execRepairStatus (p : PortId) (m : MbxId) (s : State) : Answer :=
  .next (runCmd p m 0x0051 (fun _ s => (s, .ok (repairBytes s))) s)

/-- REPAIR_COMMIT (R408): remaps and core marks are appended at once. -/
def execRepairCommit (p : PortId) (m : MbxId) (s : State) : Answer :=
  .next (runCmd p m 0x0052 (fun _ s =>
    let n := ((List.range 8).map fun k => (s.stack k).unpersist.length).sum
      + (s.flash.pendCores.filter fun c => !s.flash.pendWritten.contains c).length
    (persistCores ((List.range 8).foldl (fun s k => persistRemaps k s) s), .ok (padTo 8 (leBytes n 4)))) s)

/-- How many of checks 1 to 3 of R471 an image passes. The modulus and the exponent are little-endian (R10), the signature is an
octet string of RFC 8017 (log 23). -/
def fwChecks (bs : List Byte) : Nat :=
  let n := fieldAt bs 16 4
  if fieldAt bs 0 4 ≠ 0x31574656 ∨ bs.length < 512 + n + 384 ∨ 2 ^ 24 < 512 + n + 384 then 0
  else if sha256 ((bs.drop 20).take 388) ≠ leBytes Config.romKeyDigest.toNat 32 then 1
  else if pssVerify (fieldAt bs 20 384) (fieldAt bs 404 4) (sha256 (bs.take (512 + n))) ((bs.drop (512 + n)).take 384) then 3
  else 2

/-- A firmware image as a slot holds it. -/
def slotOf (bs : List Byte) : FwSlot :=
  ⟨fwChecks bs, fieldAt bs 4 4, fieldAt bs 8 8, sha256 (bs.take (512 + fieldAt bs 16 4 + 384))⟩

/-- A slot that holds no valid image. -/
def FwSlot.invalid : FwSlot := ⟨0, 0, 0, []⟩

/-- A slot written. -/
def Flash.putSlot (n : Nat) (x : FwSlot) (f : Flash) : Flash := if n = 0 then { f with slotA := x } else { f with slotB := x }

/-- FW_UPDATE (R409, R410, R471): the slot that is not active is written, and named or made the floor as asked. -/
def fwUpdateRun (image : HostReply) (c : Cmd) (s : State) : State × MbxResult :=
  let iova := c.field 0 8
  let len := c.field 8 4
  let flags := c.field 12 1
  if len < 4096 ∨ 2 ^ 24 < len ∨ len % 4096 ≠ 0 ∨ 2 ^ 44 < iova + len ∨ 4 ≤ flags ∨ c.zero 13 3 = false then
    (s, .only stBadParameter)
  else
    let n := 1 - s.flash.activeSlot
    match image with
    | .fail _ => (s.updFlash (Flash.putSlot n FwSlot.invalid), .only stHostLost)
    | .data bs =>
      let x := slotOf (padTo len bs)
      if x.checks ≠ 3 ∨ x.svn < s.flash.floorNext then (s.updFlash (Flash.putSlot n FwSlot.invalid), .only stAuthFailed)
      else
        let s := s.updFlash fun f =>
          let f := f.putSlot n x
          let f := if bitOf flags 0 then { f with active := some n } else f
          if bitOf flags 1 then { f with floorPend := some x.svn } else f
        (s, .ok (padTo 16 (leBytes n 4 ++ leBytes x.svn 4 ++ leBytes s.flash.floorNext 4)))

/-- FW_UPDATE (R409). -/
def execFwUpdate (p : PortId) (m : MbxId) (image : HostReply) (s : State) : Answer :=
  .next (runCmd p m 0x0060 (fwUpdateRun image) s)

/-- The measurements of R480 that a port is shown, by index; `q` a partition whose image is asked for. -/
def measurement (i : Nat) (s : State) : List Byte :=
  if i = 1 then s.hs.fw.digestOf
  else if i = 2 then sha256 (s.hs.planRoles.map fun r => BitVec.ofNat 8 r)
  else if i = 3 then s.hs.repairDigest
  else padTo 32 (((s.part (i - 16)).img.map (·.digest)).getD [])

/-- The indices that are reported to a port (R480). -/
def indicesFor (p : PortId) (s : State) : List Nat :=
  [1, 2, 3] ++ ((allParts.filter fun q => (s.part q).st != .empty && (s.part q).owner == p).map (16 + ·))

/-- An evidence record (R481). -/
def evidence (p : PortId) (nonce : List Byte) (is : List Nat) (s : State) : List Byte :=
  let n := is.length
  let body := leBytes 1 2 ++ leBytes n 1 ++ leBytes (portNum p) 1 ++ List.replicate 4 0 ++ padTo 32 nonce
    ++ sha256 Config.endorsementChain
    ++ is.flatMap fun i =>
      padTo 8 (leBytes i 1) ++ leBytes (if i = 1 then s.hs.fw.svn else 0) 8 ++ padTo 32 (measurement i s)
  body ++ beBytes (Config.identitySign body s.free).toNat 384

/-- ATTEST_QUOTE (R411, R481). -/
def execAttestQuote (p : PortId) (m : MbxId) (s : State) : Answer :=
  .next (runCmd p m 0x0061 (fun c s =>
    let is := [1, 2, 3] ++ if c.part < 16 then [16 + c.part] else []
    (s.drew, .ok (evidence p (c.params.take 32) is s))) s)

/-- The connection of a bundle (R441). -/
def connOf (b : Nat) : Nat := if b < 48 then b / 8 else 6 + (b - 48) / 4

/-- The bundles of a connection (R441). -/
def bundlesOf (c : Nat) : List Nat := (List.range 64).filter fun b => connOf b == c

/-- Every connection keeps a working bundle of role T and one of role M (R412); `gone` names the retired bundles. -/
def planOk (roles gone : List Nat) : Bool :=
  roles.all (· < 4) && (List.range 10).all fun c =>
    let w := (bundlesOf c).filter fun b => !gone.contains b
    (w.any fun b => roles.getD b 4 == 3) && w.any fun b => roles.getD b 4 == 0

/-- LANE_PLAN_SET (R412): judged by the bundles retired when the command was accepted. -/
def execLanePlanSet (p : PortId) (m : MbxId) (s : State) : Answer :=
  let gone := (s.mbx p m).seen.retired
  .next (runCmd p m 0x0070 (fun c s =>
    let roles := (List.range 64).map fun b => c.field (4 + b) 1
    if c.field 0 2 ≠ 64 ∨ c.zero 2 2 = false ∨ planOk roles gone = false then (s, .only stBadParameter)
    else (s.updFlash fun f => { f with plan := some roles }, .ok [])) s)

/-- A count of the current window of a bed die (R416). -/
def windowCount (b : Nat) (c : Chat) (s : State) : Nat := if c.window = (s.bed b).refcyc / 2 ^ 27 then c.count else 0

/-- The entry of a bundle and of a link in LINK_QUERY (R413). -/
def bundleEntry (b : Nat) (s : State) : Nat :=
  let x := s.lane b
  x.role % 4 + 4 * b2n x.retired + x.good * 8 + x.spUsed * 2 ^ 8
    + min (windowCount (bedOfBundle b) x.retry s) (2 ^ 22 - 1) * 2 ^ 10
def linkEntry (l : Nat) (s : State) : Nat :=
  let x := s.link l
  (if x.up then x.lanes else 0) + 8 * b2n x.spUsed + 16 * b2n x.up
    + min (windowCount (l / 9) x.fec s) (2 ^ 32 - 1) * 2 ^ 32

/-- LINK_QUERY (R413). -/
def execLinkQuery (p : PortId) (m : MbxId) (s : State) : Answer :=
  .next (runCmd p m 0x0071 (fun _ s =>
    (s, .ok (leBytes 64 2 ++ [0, 0] ++ ((List.range 64).flatMap fun b => leBytes (bundleEntry b s) 4)
      ++ (List.range 36).flatMap fun l => leBytes (linkEntry l s) 8))) s)

end Sys2Proof.Machine
end

