-- ==== Sys2Proof/Machine/Hmb.lean ====
section
/-! DEFINITION. The hard mailbox (R377 to R380): its operations, and what an operation's completion shows. -/

namespace Sys2Proof.Machine

/-- The sequencer may carry out the operation that port p has had accepted: it runs one at a time and serves the ports in
turn (R378). -/
def hmTurn (p : PortId) (s : State) : Bool :=
  let x := (s.port p).hmb
  let y := (s.port (otherPort p)).hmb
  s.running && decide (x.state = 1) && x.done.isNone
  && !(decide (y.state = 1) && (y.done.isSome || decide (s.hs.hmbLast = p)))

/-- An operation of the hard mailbox is carried out: `f` takes its argument, and gives its result. -/
def hmRun (p : PortId) (op : Nat) (f : Nat → State → State × HmbResult) (s : State) : State :=
  let x := (s.port p).hmb
  if hmTurn p s && decide (x.op = op) then
    let (s, r) := f x.arg s
    s.updPort p fun x => { x with hmb := { x.hmb with done := some r } }
  else s

/-- A result without data. -/
def HmbResult.only (st : Nat) : HmbResult := ⟨st, 0, none⟩

/-- Word 2 of HM_STATUS (R380). -/
def partStates (s : State) : Nat :=
  (allParts.map fun q =>
    let x := s.part q
    (x.st.code + (if x.st = .empty then 0 else 8 * portNum x.owner)) * 16 ^ q).sum

/-- Word 3 of HM_STATUS (R380). -/
def portStates (s : State) : Nat :=
  let boxes := fun (p : PortId) => ((List.range 4).map fun m => (s.mbx p m).state * 4 ^ m).sum
  boxes .a + boxes .b * 256 + b2n s.portA.linkUp * 2 ^ 16 + b2n s.portB.linkUp * 2 ^ 17

/-- The HM_STATUS record (R380). -/
def statusRecord (s : State) : List Byte :=
  [s.modh.code + 16 * b2n s.fwUp + 32 * s.flash.activeSlot, dieStates s, partStates s, portStates s, s.hs.refcyc % 2 ^ 48,
    s.hs.logNext, s.hs.epoch.toNat].flatMap fun w => leBytes w 8

/-- HM_STATUS (R379, R380). -/
def execHmStatus (p : PortId) (s : State) : Answer :=
  .next (hmRun p 1 (fun _ s => (s, ⟨stOk, 0, some (padTo 4096 (statusRecord s))⟩)) s)

/-- HM_LOG (R379). -/
def execHmLog (p : PortId) (s : State) : Answer :=
  .next (hmRun p 2 (fun arg s =>
    if 4096 ≤ arg then (s, .only stBadParameter)
    else (s, ⟨stOk, s.hs.logNext, some (logBytes arg 64 s)⟩)) s)

/-- The resource of a key of the chatter maps. -/
def resOfKey (key : Nat) : Res := ⟨key / 2 ^ 40, key % 2 ^ 40⟩

/-- A core of a die that is reset (R454): what it held is gone, but not which partition it has been placed for. -/
def lostCore (x : Core) : Core := { Core.reset with part := x.part, lcore := x.lcore }

/-- The reset of a compute die (R454, R455 steps 2 to 4): its cores, translation state, chatter counters and
reference-cycle counter; BIST runs. -/
def resetDie (d : Nat) (s : State) : State :=
  let s := s.updDie d fun _ => { Die.reset with fenced := true, inBist := true }
  let s := { s with chat := { s.chat with counters := s.chat.counters.filter fun e => resDie (resOfKey e.1) != d } }
  { s with cores := SMap.mapVals Core.reset (fun c x => if dieOfCore c = d then lostCore x else x) s.cores }

/-- HM_DIE_RESET (R379, R455 steps 1 to 4, R475). -/
def execHmDieReset (p : PortId) (s : State) : Answer :=
  .next (hmRun p 3 (fun arg s =>
    if !s.hs.bootDone then (s, .only stBadCommand)
    else if 11 < arg then (s, .only stBadParameter)
    else
      let s := if (s.die arg).fenced then s else fenceDie arg 2 3 s
      (resetDie arg s, .only stOk)) s)

/-- HM_FW_RESTART ends every BUSY mailbox of a port (R367). -/
def abandonMailboxes (p : PortId) (s : State) : State :=
  (List.range 4).foldl (fun s m => s.updMbx p m fun b =>
    if b.state = 1 then { b with state := 3, abandoned := true, result := none } else b) s

/-- HM_FW_RESTART (R367, R379, R454, R475). -/
def execHmFwRestart (p : PortId) (s : State) : Answer :=
  .next (hmRun p 4 (fun _ s =>
    if !s.hs.bootDone then (s, .only stBadCommand)
    else
      let s := allParts.foldl (fun s q => stopWithin q .faulted stBadCommand 4 s) s
      let s := abandonMailboxes .b (abandonMailboxes .a (abandonPort .b (abandonPort .a s)))
      (s.updHs fun h => { h with fwRun := false, fwRestart := true, control := [] }, .only stOk)) s)

/-- A request of the port's host mover is outstanding (R381): a frame's fetch, a post, or the copy of a migration. -/
def hostBusy (p : PortId) (s : State) : Bool :=
  allParts.any fun q =>
    let x := s.part q
    x.st != .empty && x.owner == p
    && (!x.postQ.isEmpty || x.migr.isSome || x.streams.any fun e => e.2.any fun y => y.fetch.isSome)

/-- HM_PORT_QUIESCE (R381): it completes once no request of the port's host mover is outstanding. Until then it stays in hand, and
is carried out again. -/
def execHmPortQuiesce (p : PortId) (s : State) : Answer :=
  .next (if hmTurn p s && decide ((s.port p).hmb.op = 5) then
      let s := hostLost p 5 (s.updPort p fun x => { x with quiesced := true })
      if hostBusy p s then s else s.updPort p fun x => { x with hmb := { x.hmb with done := some (.only stOk) } }
    else s)

/-- A core freezes (R74, R242): started passes and fronts poison their tiles, and no job of its array goes on. A halted core
stays as it is. -/
def freezeCore (x : Core) : Core :=
  if x.halt ≠ 0 then x
  else
    let ts := ((x.jobs.passes.filter (·.started)).flatMap fun j => x.passTiles j.desc)
      ++ (x.jobs.drains.filter (·.started)).flatMap fun j => x.drainTiles j.desc
    haltCore 2 0 { setTiles ts (fun t => { t with poisoned := true }) x with jobs := { x.jobs with passes := [], drains := [] } }

/-- The cores that an HM_SNAPSHOT names, or the RESULT that refuses it (R379); a fenced die answers nothing (R425). -/
def snapshotCores (p : PortId) (arg : Nat) (s : State) : Nat × List Nat :=
  if bitOf arg 31 then
    let d := arg % 16
    let cs := (List.range 108).map (108 * d + ·)
    if fieldOf arg 30 4 ≠ 0 ∨ 11 < d then (stBadParameter, [])
    else if (s.die d).fenced || !(s.die d).up then (stDieAbsent, [])
    else if cs.any fun c => (s.core c).part.any fun q => (s.part q).owner != p then (stNotOwner, [])
    else (stOk, cs)
  else
    let x := s.part (fieldOf arg 19 16)
    if fieldOf arg 30 20 ≠ 0 ∨ fieldOf arg 15 11 ≠ 0 ∨ x.st = .empty then (stBadParameter, [])
    else match x.physOf (fieldOf arg 10 0) with
      | none => (stBadParameter, [])
      | some c =>
        if x.owner ≠ p then (stNotOwner, [])
        else if (s.die (dieOfCore c)).fenced then (stDieAbsent, [])
        else (stOk, [c])

/-- HM_SNAPSHOT (R74, R242, R379). -/
def execHmSnapshot (p : PortId) (s : State) : Answer :=
  .next (hmRun p 6 (fun arg s =>
    let (st, cs) := snapshotCores p arg s
    let qs := cs.filterMap fun c => (s.core c).part
    let s := cs.foldl (fun s c => s.updCore c freezeCore) s
    (allParts.foldl (fun s q => if qs.contains q then stopWithin q .faulted stBadCommand 6 s else s) s, .only st)) s)

/-- What the sequencer holds for a port once its operation has been carried out: an OP that names none has no effect
(R379). -/
def hmDone (x : Hmb) : Option HmbResult := if 7 ≤ x.op then some (.only stBadCommand) else x.done

/-- HMB_COMPLETE (R378): data area, INFO, RESULT and STATE, then INT_CAUSE.HMB and vector 4. -/
def execHmbComplete (p : PortId) (s : State) : Answer :=
  let x := (s.port p).hmb
  .next (match hmDone x with
    | some r =>
      if s.running && decide (x.state = 1) && (x.done.isSome || hmTurn p s) then
        let s := s.updPort p fun x => { x with hmb := { x.hmb with
          state := if r.result = stOk then 2 else 3
          result := r.result
          info := r.info
          done := none
          data := match r.data with
            | some bs => x.hmb.data.write 0 bs
            | none => x.hmb.data } }
        raiseVector p 4 (s.updHs fun h => { h with hmbLast := p })
      else s
    | none => s)

end Sys2Proof.Machine
end

