-- ==== Sys2Proof/Machine/Dies.lean ====
section
/-! DEFINITION. Repairs found by the built-in self-test and the cores that a compute die then enables (R23, R222, R223, R419,
R420, R455, R474); compute dies that reset or return (R425); the start of a chatter window (R416). -/

namespace Sys2Proof.Machine

/-- The 0x0002 entry of a repair that BIST has led to (R474). -/
def bistEntry (cls addr code : Nat) (r : Res) (s : State) : State :=
  logEvent { LogEntry.ofCode 0x0002 .lasting with cls := cls, src := resSrc r, addr := addr, d0 := code, d1 := 1 } s

/-- A core is retired in the repair record (R419, R474). -/
def retireCore (c cls : Nat) (s : State) : State :=
  if s.flash.repair.cores.contains c then s
  else bistEntry cls (coreWordPa c 0) 1 ⟨cls, c⟩
    (s.updFlash fun f => { f with repair := { f.repair with cores := f.repair.cores ++ [c] } })

/-- A row of an array fails BIST (R222, R223, R474); row 32 is the spare row. -/
def rowFails (c row : Nat) (s : State) : State :=
  match SMap.get none c s.flash.repair.rows with
  | some p => if p = row then s else retireCore c 0x06 s
  | none =>
    if row = 32 then retireCore c 0x06 s
    else bistEntry 0x06 (coreWordPa c 0) 6 ⟨0x06, c⟩
      (s.updFlash fun f => { f with repair := { f.repair with rows := SMap.set none c (some row) f.repair.rows } })

/-- A TLB way fails BIST: a core's retires the core, another is disabled (R415, R474). -/
def wayFails (t : TlbUser) (way : Nat) (s : State) : State :=
  let disable := fun (n : Nat) =>
    if s.flash.repair.ways.contains (n, way) then s
    else bistEntry 0x08 way 5 ⟨0x08, n⟩ (s.updFlash fun f => { f with repair := { f.repair with ways := f.repair.ways ++ [(n, way)] } })
  match t with
  | .core c => retireCore c 0x05 s
  | .die d => disable d
  | .headstock => disable 12

/-- One failure that BIST reports, against the repair record (R474); those that lose the module are `bistFatal`'s. -/
def applyBist (s : State) : BistFail → State
  | .core c k => retireCore c k s
  | .arrayRow c r => rowFails c r s
  | .tlbWay t w => wayFails t w s
  | .granule b g =>
    if s.flash.repair.granules.contains (b.val, g) then s
    else bistEntry 0x09 (g * 0x200000) 4 ⟨0x09, b * 2048 + g⟩
      (s.updFlash fun f => { f with repair := { f.repair with granules := f.repair.granules ++ [(b.val, g)] } })
  | .bedDie _ => s
  | .stack _ => s
  | .fabric => s

/-- A failure that takes the module to FAILED (R424, R474). -/
def bistFatal : BistFail → Bool
  | .bedDie _ => true
  | .stack _ => true
  | .fabric => true
  | .core _ _ => false
  | .arrayRow _ _ => false
  | .tlbWay _ _ => false
  | .granule _ _ => false

/-- The die that a failure lies on. -/
def bistOn (d : Nat) : BistFail → Bool
  | .core c _ => dieOfCore c == d
  | .arrayRow c _ => dieOfCore c == d
  | .tlbWay (.core c) _ => dieOfCore c == d
  | .tlbWay (.die e) _ => e.val == d
  | .tlbWay .headstock _ => false
  | .granule _ _ => false
  | .bedDie _ => false
  | .stack _ => false
  | .fabric => false

/-- The row that BIST finds failing in an array, for a spare-row assignment marked before (R222). -/
def bistRow (bist : List BistFail) (c : Nat) : Option Nat :=
  bist.findSome? fun
    | .arrayRow e r => if e.val = c ∧ r.val < 32 then some r.val else none
    | _ => none

/-- The pending retirements and spare-row assignments of the cores that `on` picks take effect (R419, R222, R455, R474). -/
def applyPending (on : Nat → Bool) (bist : List BistFail) (s : State) : State :=
  s.updFlash fun f =>
    let now := f.pendCores.filter on
    let rows := f.pendRows.filter fun e => on e.1
    { f with
      repair := { f.repair with
        cores := f.repair.cores ++ now.filter fun c => !f.repair.cores.contains c
        rows := rows.foldl (fun m e => SMap.set none e.1 (some ((bistRow bist e.1).getD e.2)) m) f.repair.rows }
      pendCores := f.pendCores.filter fun c => !on c
      pendWritten := f.pendWritten.filter fun c => !on c
      pendRows := f.pendRows.filter fun e => !on e.1 }

/-- The usable cores of a compute die, by position (R420). -/
def usable (d : Nat) (s : State) : List Nat :=
  (List.range 108).filter fun i => !s.flash.repair.cores.contains (108 * d + i)

/-- A compute die comes up with 100 enabled cores, or stays fenced (R23, R420, R455). The firmware takes the lowest-numbered
usable cores (DESIGN CHOICE, log 40). -/
def enableDie (d : Nat) (s : State) : State :=
  let l := usable d s
  let off := (List.range 108).filter fun i => !(l.take 100).contains i
  let s := s.updDie d fun x => { x with up := true, inBist := false, fenced := decide (l.length < 100), disabled := off }
  (s.flash.repair.rows.filter fun e => dieOfCore e.1 == d).foldl (fun s e => s.updCore e.1 fun x => { x with spareRow := e.2 }) s

/-- The resources of a die's cores are no longer lasting-faulty once their repairs have taken effect (R417). -/
def clearLasting (d : Nat) (s : State) : State :=
  { s with chat := { s.chat with lasting := s.chat.lasting.filter fun e =>
      !(decide ((resOfKey e.1).cls ≤ 0x07) && resDie (resOfKey e.1) == d) } }

/-- DIE_BIST_COMPLETE (R420, R425, R455): the die returns its usable cores, or stays fenced. -/
def execDieBistComplete (d : DieId) (bist : List BistFail) (s : State) : Answer :=
  .next (if s.running && s.power.rails && (s.die d).inBist then
      let on := fun (c : Nat) => dieOfCore c == d.val
      let s := (bist.filter (bistOn d)).foldl applyBist (applyPending on bist s)
      let s := clearLasting d (enableDie d s)
      if (s.die d).fenced then s
      else updateHealth (logEvent { LogEntry.ofCode 0x0041 .health with src := d, count := (usable d s).length } s)
    else s)

/-- COMPUTE_DIE_RESET (R425): a die that resets on its own is fenced. -/
def execComputeDieReset (d : DieId) (s : State) : Answer :=
  .next (if s.running && s.power.rails && (s.die d).up && !(s.die d).fenced then fenceDie d 1 0 s else s)

/-- The die of a chatter window as `resDie` numbers it. -/
def chatDie : ChatDie → Nat
  | .compute d => d
  | .bed b => 0x10 + b
  | .headstock => 0x20

/-- A counter left from an earlier window is cleared (R416). -/
def Chat.inWindow (w : Nat) (c : Chat) : Chat := if c.window = w then c else Chat.zero

/-- CHATTER_WINDOW_START (R416): as a die's window begins its counters clear, with the counts that LINK_QUERY shows. -/
def execChatterWindowStart (d : ChatDie) (s : State) : Answer :=
  let n := chatDie d
  let w := dieRefcyc n s / 2 ^ 27
  let counters := SMap.mapVals Chat.zero (fun k c => if resDie (resOfKey k) = n then c.inWindow w else c) s.chat.counters
  .next (if s.running then
      { s with
        chat := { s.chat with counters := counters }
        lanes := SMap.mapVals Bundle.reset (fun b x => if 0x10 + bedOfBundle b = n then { x with retry := x.retry.inWindow w } else x)
          s.lanes
        links := SMap.mapVals Link.reset (fun l x => if 0x10 + l / 9 = n then { x with fec := x.fec.inWindow w } else x) s.links }
    else s)

end Sys2Proof.Machine
end

