-- ==== Sys2Proof/Machine/Lanes.lean ====
section
/-! DEFINITION. Lane bundles and scale-out links while the module runs (R274, R421, R441 to R447, R457 to R461), and
re-admission after a degradation (R61, R352, R353). -/

namespace Sys2Proof.Machine

/-- A lane of a bundle carries flits: a lasting-faulty one until its spare has taken its place or its bundle is retired, a
spare once it is in use (R421, R442, R443). -/
def Bundle.carries (l : Nat) (x : Bundle) : Bool :=
  !x.retired && (!x.lasting.contains l || x.swaps.contains l || (x.retiring && x.lasting.getLast? == some l))
  && (decide (l < 16) || (l == 16 && decide (1 ≤ x.spUsed))
    || (l == 17 && (decide (x.spUsed = 2) || (x.spUsed == 1 && x.lasting.contains 16))))

/-- One more in a count that LINK_QUERY shows (R413). -/
def Chat.bumped (w : Nat) (c : Chat) : Chat := ⟨w, min ((c.inWindow w).count + 1) (2 ^ 32 - 1)⟩

/-- The chatter window of a bed die (R416). -/
def bedWin (b : Nat) (s : State) : Nat := (s.bed b).refcyc / 2 ^ 27

/-- FLIT_CRC_RETRY (R417, R442): a retry counts in the lane that the CRC names; a lane that passes no flit at all is
lasting-faulty at once. -/
def execFlitCrcRetry (b : BundleId) (lane : Fin 18) (dead : Bool) (s : State) : Answer :=
  .next (if s.running && (s.lane b).carries lane then
      let s := s.updLane b fun x => { x with retry := x.retry.bumped (bedWin (bedOfBundle b) s) }
      let r : Res := ⟨0x0B, b * 18 + lane⟩
      if dead then chatterUe r r.id s else chatter r r.id s
    else s)

/-- A repair of a lane, a bundle or a link is complete (R423). -/
def laneDone (cls src addr count code : Nat) (s : State) : State :=
  logEvent { LogEntry.ofCode 0x0003 .info with cls := cls, src := src, addr := addr, count := count, d0 := code } s

/-- The oldest trained spare of a bundle takes its lane's place (R421). -/
def swapBundle (b : Nat) (s : State) : State :=
  let x := s.lane b
  match x.swaps with
  | l :: rest =>
    if x.retired then s
    else
      let s := s.updLane b fun x => { x with swaps := rest, spUsed := x.spUsed + 1 }
      let s := s.updFlash fun f => { f with repair := { f.repair with lanes := f.repair.lanes ++ [(b, l)] } }
      laneDone 0x0B (0x10 + bedOfBundle b) (b * 18 + l) (2 - min 2 (x.spUsed + 1)) 3 s
  | [] => s

/-- A lane of a link is marked retired in the repair record (R421). -/
def retireLinkLane (l i : Nat) (s : State) : State :=
  s.updFlash fun f => { f with repair := { f.repair with linkLanes := f.repair.linkLanes ++ [(l, i)] } }

/-- The trained spare of a link takes its lane's place (R421). -/
def swapLink (l : Nat) (s : State) : State :=
  match (s.link l).swap with
  | some i =>
    let s := retireLinkLane l i (s.updLink l fun x => { x with swap := none, spUsed := true })
    laneDone 0x0C (0x40 + l) (l * 5 + i) 0 3 s
  | none => s

/-- LANE_SPARE_SWAP (R421). -/
def execLaneSpareSwap (l : LaneRef) (s : State) : Answer :=
  .next (if s.running then
      (match l with
        | .bundle b => swapBundle b s
        | .link k => swapLink k s)
    else s)

/-- A partition of several modules holds a link. -/
def Part.holdsLink (l : Nat) (p : Part) : Bool := p.cfg.any fun c => decide (1 < c.span) && c.links.contains l

/-- A partition has a route left to every member (R61, R461): it holds a link that is up, and, where it spans more than two
modules, the other modules' links still join its members (`cut` names the partitions for which they do not, log 27). -/
def routeLeft (cut : List PartId) (q : Nat) (s : State) : Bool :=
  (s.part q).cfg.any fun c =>
    (c.links.any fun k => (s.link k).up) && (decide (c.span = 2) || !cut.any fun r => r.val == q)

/-- A held link is down (R61, R421, R461): partitions without a route stop, the others' spurs are held until the routes are
recomputed. -/
def linkGone (l : Nat) (cut : List PartId) (s : State) : State :=
  let s := updateHealth (degradation s)
  let held := allParts.filter fun q => (s.part q).holdsLink l
  let lost := held.filter fun q => !routeLeft cut q s
  let s := s.updHs fun h => { h with routeHold := h.routeHold ++ held.filter fun q => !lost.contains q && !h.routeHold.contains q }
  lost.foldl (fun s q => faultPart q s) s

/-- The last link between two other members of a span is down (R61): the partition stops here too. -/
def cutElsewhere (s : State) (q : PartId) : State := if 2 < (s.part q).span then faultPart q s else s

/-- SCALEOUT_LINK_DOWN (R61, R461): of one of this module's links, or of links between other modules only. -/
def execScaleoutLinkDown (l : Option LinkId) (cut : List PartId) (s : State) : Answer :=
  .next (match l with
    | some l =>
      if s.running && (s.link l).up then
        linkGone l cut (s.updLink l fun x => { x with up := false, lanes := 0, swap := none })
      else s
    | none => if s.running then cut.foldl cutElsewhere s else s)

/-- What a further lasting-faulty lane of a link has led to (R421): a narrower link, or none. -/
def linkChanged (l i : Nat) (old : Link) (cut : List PartId) (s : State) : State :=
  let x := s.link l
  if x.lanes = old.lanes ∧ x.up = old.up then s
  else
    let s := laneDone 0x0C (0x40 + l) (l * 5 + i) x.lanes 0 (retireLinkLane l i s)
    if x.up then updateHealth (degradation s) else linkGone l cut s

/-- A lane of a link carries codewords. -/
def Link.carries (i : Nat) (x : Link) : Bool :=
  x.up && (!x.lasting.contains i || x.swap == some i) && (decide (i < 4) || x.spUsed)

/-- FEC_CODEWORD (R417, R458): a corrected codeword counts in its lane; one that cannot be corrected is replayed, and makes the
lane lasting-faulty, as an uncorrectable error of any class does (DEDUCED, log 27). -/
def execFecCodeword (l : LinkId) (lane : Fin 5) (corrected : Bool) (cut : List PartId) (s : State) : Answer :=
  let r : Res := ⟨0x0C, l * 5 + lane⟩
  .next (if s.running && (s.link l).carries lane then
      (if corrected then
        let s := s.updLink l fun x => { x with fec := x.fec.bumped (bedWin (l / 9) s) }
        linkChanged l lane (s.link l) cut (chatter r r.id s)
      else linkChanged l lane (s.link l) cut (chatterUe r r.id s))
    else s)

/-- Lanes in use of a link that trains with the lanes of a list lost (R421, R457). -/
def lanesWithout (bad : List Nat) : Nat := if bad.length ≤ 1 then 4 else if bad.length = 2 then 3 else 0

/-- A link trains (R459): with a far end that is a V12 of the same major version, and lanes enough. -/
def trainLink (l : Nat) (peer : LinkPeer) (s : State) : State :=
  let bad := (s.link l).lasting
  let n := lanesWithout bad
  if peer.bciMajor = 1 ∧ n ≠ 0 then
    s.updLink l fun x => { x with
      up := true, lanes := n, spUsed := !bad.contains 4 && decide (1 ≤ bad.length), swap := none, peer := some peer }
  else s

/-- SCALEOUT_LINK_TRAIN (R459). -/
def execScaleoutLinkTrain (l : LinkId) (peer : LinkPeer) (s : State) : Answer :=
  .next (if s.running && s.power.rails && s.hs.bootDone && !(s.link l).up then updateHealth (trainLink l peer s) else s)

/-- A working bundle of a connection in a role. -/
def roleBundles (c role : Nat) (s : State) : List Nat :=
  (bundlesOf c).filter fun b => !(s.lane b).retired && (s.lane b).role == role

/-- A lost role T (3) or M (0) of a connection goes to its highest-numbered working bundle of role H (2), or else W (1)
(R447). -/
def giveRole (role : Nat) (s : State) (c : Nat) : State :=
  if (roleBundles c role s).isEmpty then
    match ((roleBundles c 2 s).getLast?).or (roleBundles c 1 s).getLast? with
    | some b => s.updLane b fun x => { x with role := role }
    | none => s
  else s

/-- Lost roles are given anew on every connection (R447). -/
def giveRoles (s : State) : State := (List.range 10).foldl (giveRole 0) ((List.range 10).foldl (giveRole 3) s)

/-- A connection has no bundle left (R447). -/
def State.cutOff (s : State) : Bool := (List.range 10).any fun c => (bundlesOf c).all fun b => (s.lane b).retired

/-- A bundle is retired (R421, R443, R454). -/
def retireBundle (s : State) (b : Nat) : State :=
  let x := s.lane b
  let s := s.updLane b fun x => { x with retired := true, retiring := false, swaps := [] }
  let s := s.updFlash fun f => { f with repair := { f.repair with bundles := f.repair.bundles ++ [b] } }
  laneDone 0x0B (0x10 + bedOfBundle b) b x.good 0 (if bedToBed b then degradation s else s)

/-- The hops of a partition's new routes (R61, R461), which the capacities that wait for a boundary take over. -/
def putHops (s : State) (e : PartId × Nat) : State :=
  s.updPart e.1 fun x =>
    if x.cfg.any fun c => decide (1 ≤ e.2) && decide (e.2 < c.span) then
      { x with caps := { x.caps with hops := e.2 }, capsNext := x.capsNext.map fun k => { k with hops := e.2 } }
    else x

/-- The partitions whose spur is held have no traffic in flight (R274): their turn is complete, or they wait at a quiescent
point of R59 (DEDUCED, log 46). -/
def holdersQuiet (s : State) : Bool :=
  s.hs.routeHold.all fun q => (s.part q).st != .running ||
    ((s.part q).spurTo.isEmpty && (turnComplete q s || (s.part q).units.all fun u => quiescent q u s))

/-- ROUTE_CHANGE_COMPLETE (R274, R443, R447, R461): retiring bundles are retired, lost roles given anew, the spurs released. -/
def execRouteChangeComplete (hops : List (PartId × Nat)) (s : State) : Answer :=
  let bs := (List.range 64).filter fun b => (s.lane b).retiring
  .next (if s.running && s.hs.fwRun && (!bs.isEmpty || !s.hs.routeHold.isEmpty) && holdersQuiet s then
      let s := giveRoles (bs.foldl retireBundle s)
      let s := hops.foldl putHops (s.updHs fun h => { h with routeHold := [] })
      if s.cutOff then enterFailed s else updateHealth s
    else s)

/-- A partition holds a group on a lost compute die (R353). -/
def Part.lostDie (s : State) (x : Part) : Bool := (List.range 12).any fun d => x.onDie d && (s.die d).fenced

/-- Re-admission of one partition (R346, R352, R353). A FAULTED partition that holds no lost die is judged too; R353 gives it no
outcome, so it takes the new capacities and report and nothing else (DESIGN CHOICE, log 64). -/
def readmit (s : State) (q : Nat) : State :=
  let x := s.part q
  match x.cfg, x.img with
  | some c, some i =>
    if x.lostDie s then s
    else
      let k := capsOf c x.caps.hops s
      let v := admitPartition c i k (spareOfPlace x.place s)
      let rep := v.report s.freeVal
      let s := s.drew.updPart q fun p => { p with report := rep }
      if v.ok ∨ x.st = .faulted then
        s.updPart q fun p => if p.st = .running then { p with capsNext := some k } else { p with caps := k, capsNext := none }
      else
        let s := s.updPart q fun p => { p with revoked := true }
        if x.st = .running then stopWithin q .stopped stRevoked 0 s else if x.revoked then s else notifyPart 2 q s
  | _, _ => s

/-- DEGRADATION_READMISSION (R352): after a degradation event, once the routes are in place, every partition that is not
EMPTY. -/
def execDegradationReadmission (s : State) : Answer :=
  .next (if s.running && s.hs.fwRun && s.hs.readmit && s.hs.routeHold.isEmpty then
      allParts.foldl readmit (s.updHs fun h => { h with readmit := false })
    else s)

end Sys2Proof.Machine
end

