-- ==== Sys2Proof/Machine/Power.lean ====
section
/-! DEFINITION. Power, temperature and clocks (R306, R307, R450, R451, R463 to R467): samples, throttling, thermal trips and
losses of lock. -/

namespace Sys2Proof.Machine

/-- STEP of a compute die, and power samples since it last changed (R464, R467). -/
def Power.stepOf (x : Power) (d : Nat) : Nat := SMap.get 6 d x.step
def Power.ageOf (x : Power) (d : Nat) : Nat := SMap.get 100 d x.stepAge

/-- Averages over the last n samples of 10 µs; a sample not yet taken counts as 0 (R464). -/
def Power.avg (x : Power) (n : Nat) : Nat := (x.hist.take n).sum / n
def Power.p100 (x : Power) : Nat := x.avg 10
def Power.p10 (x : Power) : Nat := x.avg 1000

/-- Sums compared in place of averages, so that no rounding comes between: the average of n samples exceeds w. -/
def Power.above (x : Power) (n w : Nat) : Bool := decide (w * n < (x.hist.take n).sum)

/-- A thermal trip (R465, R466, R477): nothing more happens while one is in force. -/
def thermalTrip (cause src d0 : Nat) (s : State) : State :=
  if s.power.trip then s
  else
    let s := s.updPower fun x => { x with trip := true, tripCause := cause, tripSrc := src }
    let s := { s with mgmt := { s.mgmt with alert := setBit s.mgmt.alert 3 true } }
    logEvent { LogEntry.ofCode 0x0060 .health with src := src, d0 := d0 } (enterFailed s)

/-- A die takes a new STEP (R464, R477). -/
def putStep (d n : Nat) (s : State) : State :=
  let old := s.power.stepOf d
  let s := s.updPower fun x => { x with step := SMap.set 6 d n x.step, stepAge := SMap.set 100 d 0 x.stepAge }
  if old = 6 ∧ n < 6 then { s with mgmt := { s.mgmt with alert := setBit s.mgmt.alert 1 true } } else s

/-- The step rules of R464 for one die. -/
def stepDie (s : State) (d : Nat) : State :=
  let x := s.power
  let n := x.stepOf d
  let down := x.above 1000 1800 || x.above 10 2100 || decide (100 < SMap.get 0 d x.junc)
  if x.ageOf d < 100 then s
  else if down then (if 0 < n then putStep d (n - 1) s else s)
  else if n < 6 ∧ 1000 ≤ x.upOk ∧ 100 ≤ SMap.get 0 d x.juncOk then putStep d (n + 1) s
  else s

/-- One sample of 10 µs enters the averages (R464, R465). -/
def Power.sampled (watts vin : Nat) (x : Power) : Power :=
  let x := { x with
    hist := (watts :: x.hist).take 1000
    vin := vin
    stepAge := (List.range 12).foldl (fun m d => SMap.set 100 d (min 100 (SMap.get 100 d m + 1)) m) x.stepAge }
  { x with
    upOk := if x.above 1000 1700 || x.above 10 2000 then 0 else min 1000 (x.upOk + 1)
    overRun := if x.above 1000 1800 then min 10000 (x.overRun + 1) else 0 }

/-- POWER_SAMPLE (R464, R465, R477). -/
def execPowerSample (watts vin10mV : Nat) (s : State) : Answer :=
  .next (if s.running then
      let vin := vin10mV % 65536
      let outside := fun (v : Nat) => decide (v < 4000) || decide (6000 < v)
      let left := outside vin && (s.power.vin == 0 || !outside s.power.vin)
      let s := s.updPower (Power.sampled watts vin)
      let s := if left then { s with mgmt := { s.mgmt with alert := setBit s.mgmt.alert 0 true } } else s
      let s := (List.range 12).foldl stepDie s
      if s.power.above 10 2300 then thermalTrip 4 0x20 0 s
      else if 10000 ≤ s.power.overRun ∧ ((List.range 12).all fun d => s.power.stepOf d == 0) = true then thermalTrip 3 0x20 0 s
      else s
    else s)

/-- JUNCTION_SAMPLE (R464, R465). -/
def execJunctionSample (d : DieId) (celsius : Int) (s : State) : Answer :=
  .next (if s.running && s.power.rails then
      let s := s.updPower fun x => { x with
        junc := SMap.set 0 d celsius x.junc
        juncOk := SMap.upd 0 d (fun n => if celsius ≤ 95 then min 100 (n + 1) else 0) x.juncOk }
      let s := stepDie s d
      if 110 ≤ celsius then thermalTrip 2 d 0 s else s
    else s)

/-- A sample of a stack's sensor (R306): temperature, highest temperature, STEP. -/
def Stack.sampled (t : Int) (x : Stack) : Stack :=
  let x := { x with temp := t, tmax := max x.tmax t, sinceStep := min 10 (x.sinceStep + 1)
                    coolRun := if t ≤ 360 then min 100 (x.coolRun + 1) else 0 }
  if 380 < t ∧ 4 < x.step ∧ 10 ≤ x.sinceStep then { x with step := x.step - 1, sinceStep := 0 }
  else if 100 ≤ x.coolRun ∧ x.step < 8 then { x with step := x.step + 1, sinceStep := 0 }
  else x

/-- HBM_TEMP_SAMPLE (R306, R307). -/
def execHbmTempSample (k : StackId) (quarterC : Int) (s : State) : Answer :=
  .next (if s.running && s.power.rails && (s.stack k).up then
      let t := sextOf 16 (BitVec.ofInt 16 quarterC).toNat
      let s := s.updStack k (Stack.sampled t)
      if 420 ≤ t then thermalTrip 1 (0x30 + k) (BitVec.ofInt 16 t).toNat s else s
    else s)

/-- RAIL_SWITCH_OFF (R466 step 3): after a trip, compute dies, bed dies and stacks lose their power and what they held. -/
def execRailSwitchOff (s : State) : Answer :=
  .next (if s.power.trip && s.power.rails then
      { s with
        power := { s.power with rails := false }
        cores := [], dies := [], beds := [], hbms := [], hbm := [], hbmErr := [] }
    else s)

/-- LOSS_OF_LOCK (R451, R425, R381). -/
def execLossOfLock (clk : ClockRef) (s : State) : Answer :=
  let fence := fun (d : DieId) => if (s.die d).fenced then s else fenceDie d 0 0 s
  .next (if s.running then
      (match clk with
        | .cclk d => fence d
        | .mclk d => fence d
        | .tclk d => fence d
        | .bclk _ => enterFailed s
        | .xclk _ => enterFailed s
        | .hclk _ => enterFailed s
        | .kclk => enterFailed s
        | .qclk => enterFailed s
        | .eclk => enterFailed s
        | .refclk => enterFailed s
        | .pclk p => if (s.port p).linkUp then linkLost p s else s)
    else s)

/-- TRST_N_ASSERT (R456): the test access ports alone are reset; while it is asserted no Debug break is requested. -/
def execTrstNAssert (s : State) : Answer := .next (s.updPower fun x => { x with trst := true })

/-- A break request raises Debug in a core (R131, R134): at once where the core runs, else as soon as it does. -/
def debugBreak (c : Nat) (s : State) : State :=
  if (s.coreRuns c).isSome then raiseImmediate c 15 s else s.updCore c (Core.immediate 15)

/-- JTAG_BREAK (R131, R456): a break request over JTAG. -/
def execJtagBreak (c : CoreId) (s : State) : Answer :=
  .next (if s.running && s.power.rails && !s.power.trst && (s.core c).part.isSome then debugBreak c s else s)

end Sys2Proof.Machine
end

