-- ==== Sys2Proof/Machine/Boot.lean ====
section
/-! DEFINITION. Power good, MOD_RESET_N and the power-up sequence (R305, R439, R444 to R447, R454, R459, R463, R466, R470 to
R475), and the boot that follows HM_FW_RESTART (R379). -/

namespace Sys2Proof.Machine

/-- A port under MOD_RESET_N (R381): its pin PERSTx_N goes its own way. -/
def resetPort (x : Port) : Port := { Port.reset with perst := x.perst }

/-- What MOD_RESET_N leaves (R454): the boot flash, the supply and the pins; the queue of commands, the outputs and the
free values are the model's. -/
def resetAll (s : State) : State :=
  { State.reset with
    pending := s.pending
    free := s.free
    out := s.out
    power := { Power.reset with good := s.power.good, trst := s.power.trst, setFail := s.power.setFail }
    flash := { s.flash with pendCores := s.flash.pendWritten }
    portA := resetPort s.portA
    portB := resetPort s.portB }

/-- A firmware image may boot (R471). -/
def FwSlot.boots (floor : Nat) (x : FwSlot) : Bool := x.checks == 3 && decide (floor ≤ x.svn)

/-- The floor that the boot ROM applies (R410, R472), and the directory as it reads it (R470). -/
def applyFloor (f : Flash) : Flash :=
  let pend := f.floorNext
  if f.floor < pend ∧ ([f.slotA, f.slotB].any (FwSlot.boots pend)) = true then { f with floor := pend } else f

/-- The slots that the boot selection allows, in the order in which they are tried (R470). -/
def bootOrder (sel : Nat) (f : Flash) : List Nat :=
  if sel = 0 then [f.activeSlot, 1 - f.activeSlot] else if sel = 1 then [0] else if sel = 2 then [1] else []

/-- The slot that boots (R470, R471). -/
def bootSlot (sel : Nat) (f : Flash) : Option Nat := (bootOrder sel f).find? fun n => (f.slot n).boots f.floor

/-- The control cores start the firmware of a slot. -/
def startFw (n : Nat) (s : State) : State :=
  s.updHs fun h => { h with fwRun := true, fwRestart := false, slot := n, fw := s.flash.slot n }

/-- Step 4 of R473: pending repairs take effect, BIST is held against the repair record (R474), the dies come up. -/
def bistStep (boot : BootEnv) (s : State) : State :=
  let s := boot.bist.foldl applyBist (applyPending (fun _ => true) boot.bist s)
  let s := s.updFlash fun f => { f with
    repair := { f.repair with ways := f.repair.ways ++ f.pendWays, granules := f.repair.granules ++ f.pendGranules }
    pendWays := [], pendGranules := [] }
  let s := (List.range 4).foldl (fun s b => s.updBed b fun x => { x with
    up := true, cacheMiB := SMap.get 0 b s.flash.repair.bedCache }) s
  let s := (List.range 12).foldl (fun s d =>
    let s := enableDie d s
    if (s.die d).fenced then logEvent { LogEntry.ofCode 0x0040 .health with src := d, d0 := 3 } s else s) s
  let digest := (List.range 4).flatMap fun i => leBytes (Config.freeWord (s.free + i)).toNat 8
  (s.updHs fun h => { h with keyReady := true, repairDigest := digest }).drewN 4

/-- The default lane plan (R445). -/
def defaultRole (b : Nat) : Nat :=
  if b < 48 then [3, 0, 0, 0, 1, 1, 2, 2].getD (b % 8) 0 else [3, 0, 0, 2].getD (b % 4) 0

/-- A stored plan passes the checks of R412 with every bundle working: one retired since is R446's and R447's matter
(DEDUCED, log 41). -/
def storedPlanOk (roles : List Nat) : Bool :=
  roles.length == 64 && roles.all (· < 4) && (List.range 10).all fun c =>
    ((bundlesOf c).any fun b => roles.getD b 4 == 3) && (bundlesOf c).any fun b => roles.getD b 4 == 0

/-- The plan in force after this reset (R445, R446). -/
def planOf (f : Flash) : List Nat :=
  match f.plan with
  | some l => if storedPlanOk l then l else (List.range 64).map defaultRole
  | none => (List.range 64).map defaultRole

/-- A bundle after training (R413, R446): `bad` its lanes that are retired or fail training. -/
def trainedBundle (role : Nat) (marked : Bool) (bad : List Nat) : Bundle :=
  if marked then { Bundle.reset with role := role, retired := true, good := 0 }
  else if 2 < bad.length then { Bundle.reset with role := role, retired := true, good := 18 - bad.length, lasting := bad }
  else { Bundle.reset with
    role := role, good := 18 - bad.length, lasting := bad, spUsed := (bad.filter (· < 16)).length }

/-- The lanes of a bundle that do not train. -/
def badLanes (b : Nat) (boot : BootEnv) (f : Flash) : List Nat :=
  (List.range 18).filter fun l => f.repair.lanes.contains (b, l) || boot.laneFails.any fun e => e.1.val == b && e.2 == l

/-- Step 5 of R473: lane training under the plan (R446, R447). -/
def laneStep (boot : BootEnv) (s : State) : State :=
  let plan := planOf s.flash
  let s := (List.range 64).foldl (fun s b => s.updLane b fun _ =>
    trainedBundle (plan.getD b 0) (s.flash.repair.bundles.contains b) (badLanes b boot s.flash)) s
  giveRoles (s.updHs fun h => { h with planRoles := plan })

/-- A stack's remap list as its tables (R305). -/
def remapTable (l : List RemapRec) : SMap Remap :=
  l.foldl (fun m r => SMap.set Remap.none r.spare ⟨true, r.row.sid, r.row.bank, r.row.row⟩ m) []

/-- Step 6 of R473: the stacks train, their remap lists are loaded (R305). -/
def hbmStep (s : State) : State :=
  let s := (List.range 8).foldl (fun s k =>
    let t := remapTable (SMap.get [] k s.flash.remaps)
    s.updStack k fun x => { x with up := true, table0 := t, table1 := t, active := 0 }) s
  s.updFlash fun f => { f with remaps := f.remaps.map fun e => (e.1, e.2.map fun r => { r with defer := false }) }

/-- The lanes of a link that the repair record marks retired (R421). -/
def linkBad (l : Nat) (f : Flash) : List Nat := (f.repair.linkLanes.filter fun x => x.1 == l).map (·.2)

/-- Step 7 of R473: the links train (R459), but for their retired lanes (R421). -/
def linkStep (boot : BootEnv) (s : State) : State :=
  let s := (List.range 36).foldl (fun s l => s.updLink l fun x => { x with lasting := linkBad l s.flash }) s
  boot.links.foldl (fun s e => (trainLink e.1 e.2 s).updLink e.1 fun x => { x with trained := x.up }) s

/-- Step 8 of R473: the health, under R424. -/
def healthStep (s : State) : State :=
  let s := s.updHs fun h => { h with bootDone := true }
  setHealth (if s.degradedCond then .degraded else .ready) s

/-- Steps 4 to 8 of R473, once the firmware runs. -/
def dieSteps (boot : BootEnv) (s : State) : State :=
  if boot.bist.any bistFatal then enterFailed (s.updHs fun h => { h with keyReady := true })
  else
    let s := laneStep boot (bistStep boot s)
    if s.cutOff then enterFailed s
    else if !boot.hbmFails.isEmpty then enterFailed s
    else healthStep (linkStep boot (hbmStep s))

/-- THE POWER-UP SEQUENCE (R439, R470 to R474). A condition of FAILED ends it at its step. -/
def powerUp (boot : BootEnv) (s : State) : State :=
  let sel := boot.bootSel.val
  let s := s.updPower fun x => { x with rails := true, bootSel := sel, setFail := x.setFail || !distinctSet boot.setIds }
  if sel = 3 then enterFailed s
  else
    let s := s.updFlash applyFloor
    match bootSlot sel s.flash with
    | none => enterFailed s
    | some n => if s.power.setFail then enterFailed s else dieSteps boot (startFw n s)
where
  /-- The sixteen set identifiers are equal (R439). -/
  distinctSet (ids : List Nat) : Bool := ids.length == 16 && ids.all fun i => i == ids.headD 0

/-- POWER_GOOD (R463, R473). -/
def execPowerGood (boot : BootEnv) (s : State) : Answer :=
  .next (if s.power.good then s
    else
      let s := s.updPower fun x => { x with good := true, rails := true }
      if s.power.modReset then s else powerUp boot s)

/-- POWER_GOOD_WITHDRAWN (R463): the effect of MOD_RESET_N, with every rail off. -/
def execPowerGoodWithdrawn (vin10mV : Nat) (s : State) : Answer :=
  .next (if s.power.good && (decide (vin10mV < 3700) || decide (6200 < vin10mV)) then
      let pin := s.power.modReset
      (resetAll s).updPower fun x => { x with good := false, rails := false, modReset := pin, setFail := false }
    else s)

/-- MOD_RESET_ASSERT (R454). -/
def execModResetAssert (s : State) : Answer :=
  .next (if s.running then resetAll s else s.updPower fun x => { x with modReset := true })

/-- MOD_RESET_DEASSERT (R473). -/
def execModResetDeassert (boot : BootEnv) (s : State) : Answer :=
  .next (if s.power.modReset then
      let s := s.updPower fun x => { x with modReset := false }
      if s.power.good then powerUp boot s else s
    else s)

/-- The restarted firmware frees the fault-queue entries of partitions that are not RUNNING (R454). -/
def freeFaults (s : State) : State :=
  { s with dies := SMap.mapVals Die.reset (fun _ x => { x with
      fq := x.fq.filter fun e => (s.part e.2.part).st == .running }) s.dies }

/-- CONTROL_CORE_BOOT (R379, R454, R470): the restart that HM_FW_RESTART began ends. -/
def execControlCoreBoot (s : State) : Answer :=
  .next (if s.running && s.hs.fwRestart then
      (match bootSlot s.power.bootSel s.flash with
        | some n => freeFaults (startFw n s)
        | none => enterFailed (s.updHs fun h => { h with fwRestart := false }))
    else s)

end Sys2Proof.Machine
end

