-- ==== Sys2Proof/Machine/Bounds.lean ====
section
/-! DEFINITION. The run-time bounds (R57, R143, R324, R350, R351): a unit over its limit, and a non-interruptible window that
runs out. -/

namespace Sys2Proof.Machine

/-- The fault-log entry of a unit over its bound (R351, R423). -/
def boundEntry (q : Nat) (u : UnitRef) (count limit window : Nat) (s : State) : State :=
  logEvent { LogEntry.ofCode 0x0012 .stop with
    part := some q, src := unitSrc u, unit := unitCode u s, count := count, d0 := limit, d1 := window } s

/-- A unit's count exceeds its limit in the open turn (R351); a replay checks no bound (R433). -/
def overBound (q : Nat) (u : UnitRef) (s : State) : Option (Nat × Nat) :=
  let t := unitTu q u s
  let p := s.part q
  match unitLimit q u s with
  | some l => if p.st = .running ∧ p.replay.isNone = true ∧ t.done = false ∧ t.turn = p.turn ∧ l < t.tclk then some (t.tclk, l) else none
  | none => none

/-- The core that takes Bound Exceeded for a unit (R351). -/
def boundCore (u : UnitRef) : Option Nat :=
  match u with
  | .core c => some c
  | .mover c => some c
  | .drain c => some c
  | .bulk _ => none
  | .reg _ => none
  | .recorder => none

/-- The entries of every unit that is over its limit at the stop (R351). -/
def boundEntries (q : Nat) (us : List UnitRef) (s : State) : State :=
  us.foldl (fun s u =>
    match overBound q u s with
    | some (n, l) => boundEntry q u n l 0 s
    | none => s) s

/-- A unit reports its overrun (R351 step 1): the core it belongs to takes Bound Exceeded. -/
def reportOverrun (q : Nat) (s : State) (u : UnitRef) : State :=
  if (overBound q u s).isSome && !(unitTu q u s).exceeded then
    let s := updTu q u (fun t => { t with exceeded := true }) s
    match boundCore u with
    | some c => if (s.core c).pend.imm.contains 10 then s else raiseImmediate c 10 s
    | none => s
  else s

/-- The firmware's stop for an overrun (R351 steps 2 and 3): by then every unit over its limit has reported. -/
def boundStop (q : Nat) (s : State) : State :=
  let us := (s.part q).units
  stopWithin q .faulted stBound 0 (boundEntries q us (us.foldl (reportOverrun q) s))

/-- BOUND_OVERRUN (R351): a unit over its limit reports; with the report made, the firmware stops the partition. -/
def execBoundOverrun (q : PartId) (u : UnitRef) (s : State) : Answer :=
  .next (if (s.part q).units.contains u && (overBound q u s).isSome then
      (if (unitTu q u s).exceeded then boundStop q s else reportOverrun q s u)
    else s)

/-- The window of a core expires (R143 steps 1, 2 and 4): held items may be delivered from here on, until the firmware acts on the
report. -/
def windowExpires (c : Nat) (s : State) : State :=
  let ovt := (s.core c).niOvt
  let s := s.updCore c fun x => { x with
    status := mkStatus (wf64 x.status 63 48) true false x.sup, niLeft := 0, overrun := true }
  if ovt then raiseImmediate c 11 s else s

/-- The firmware's stop for an overrun of a window (R143). -/
def windowStop (c q : Nat) (s : State) : State :=
  let u := UnitRef.core (coreNum c)
  let s := s.updCore c fun x => { x with overrun := false }
  stopWithin q .faulted stBound 0 (boundEntry q u (unitTu q u s).tclk ((unitLimit q u s).getD 0) 1 s)

/-- WINDOW_OVERRUN (R143): a window whose cycles have run out expires; with the overrun reported, the firmware stops the
partition. -/
def execWindowOverrun (c : CoreId) (s : State) : Answer :=
  let x := s.core c
  .next (match x.part with
    | some q =>
      if (s.part q).st ≠ .running ∨ x.tu.turn = 0 then s
      else if x.overrun then windowStop c q s
      else if decide (x.halt = 0) && x.niw && decide (x.niLeft = 0) then windowExpires c s
      else s
    | none => s)

/-- A move waits on a page under migration (R324). -/
def MoveJob.migrating (j : MoveJob) : Bool := j.stall.any fun f => f.cause == xMigrating

/-- The cores whose reports a unit other than a core awaits (R41). -/
def awaited (q : Nat) (u : UnitRef) (s : State) : List Nat :=
  match u with
  | .core _ => []
  | .mover c => [c]
  | .drain c => [c]
  | .bulk d => (s.part q).phys.filter fun c => dieOfCore c == d
  | .reg _ => []
  | .recorder => []

/-- A mover, drain unit or bulk mover has nothing of its own left to do in the turn (R41). -/
def ownClear (q : Nat) (u : UnitRef) (s : State) : Bool :=
  let p := s.part q
  match u with
  | .core _ => false
  | .mover c =>
    let x := s.core c
    x.mtu.queueClear && x.jobs.moves.isEmpty && !(p.notifies.any fun n => n.sender == .core c) && quiet q (fun r => r == .mover c) s
  | .drain c => (s.core c).drainClear
  | .bulk d =>
    let b := SMap.get Bulk.reset q (s.die d).bulk
    b.tu.queueClear && b.moves.isEmpty && !(p.notifies.any fun n => n.sender == .bulk d) && quiet q (fun r => r == .bulk d) s
  | .reg _ => false
  | .recorder => false

/-- A core waits, at issue or in a feeder, on a page under migration (R324). -/
def migWaits (q : Nat) (x : Core) (s : State) : Bool :=
  (s.part q).migr.isSome && (x.mig || x.jobs.passes.any (·.mig))

/-- A core's cycles do not count: its queue's head waits for a frame, or it waits on a page under migration (R57, R324). -/
def coreExcused (q c : Nat) (s : State) : Bool := launchWaits q (s.core c) s || migWaits q (s.core c) s

/-- A unit lacks only the reports of cores, and the cycles of each of these do not count (R57, R324; DEDUCED, log 48). -/
def unitExcused (q : Nat) (u : UnitRef) (s : State) : Bool :=
  let l := (awaited q u s).filter fun c => !(s.core c).tu.done
  ownClear q u s && !l.isEmpty && l.all fun c => coreExcused q c s

/-- A unit's TCLK cycles count against its bound (R57, R324, R350): not while its queue's head waits for a frame, nor while it
waits on a page under migration, nor while it lacks only the report of a core that waits so. -/
def counts (q : Nat) (u : UnitRef) (s : State) : Bool :=
  !unitExcused q u s &&
  match u with
  | .core c => !coreExcused q c s
  | .mover c => !(s.core c).jobs.moves.any MoveJob.migrating
  | .drain _ => true
  | .bulk d => !(SMap.get Bulk.reset q (s.die d).bulk).moves.any MoveJob.migrating
  | .reg _ => true
  | .recorder => true

/-- n TCLK cycles pass for the units of a RUNNING partition that have not reported (R350). -/
def passTclk (n : Nat) (s : State) (q : Nat) : State :=
  if (s.part q).st = .running then
    (s.part q).units.foldl (fun s u =>
      let t := unitTu q u s
      if t.done = false ∧ 1 ≤ t.turn ∧ counts q u s = true then updTu q u (fun t => { t with tclk := t.tclk + n }) s else s) s
  else s

end Sys2Proof.Machine
end

