-- ==== Sys2Proof/Machine/CmdMem.lean ====
section
/-! DEFINITION. The commands on mappings, windows, streams, recording and replay (R95, R263, R319, R320, R327, R400 to R406,
R432, R433). -/

namespace Sys2Proof.Machine

/-- A mapping change waits for its boundary; later commands are judged with it applied (R320). -/
def addChange (q : Nat) (c : MapChange) (s : State) : State :=
  s.updPart q fun p =>
    let (rs, ws) := changed c p.owner p.regNext p.winNext
    { p with changes := p.changes ++ [c], regNext := rs, winNext := ws }

/-- KEY of a command's item (R429): MBX_SEQ with the port in bit 32. -/
def cmdKey (p : PortId) (m : Nat) (s : State) : Nat := (s.mbx p m).seq + portNum p * 2 ^ 32

/-- The pieces of [off, off + len) of a target of 2 MiB granules given as runs, as (length, address). -/
def pieces : List (Nat × Nat) → (base off len : Nat) → List (Nat × Nat)
  | [], _, _, _ => []
  | (g, n) :: rest, base, off, len =>
    let size := n * 0x200000
    if len = 0 then []
    else if off < size then
      let k := min len (size - off)
      (k, base + g * 0x200000 + off) :: pieces rest base 0 (len - k)
    else pieces rest base (off - size) len

/-- The runs of a MEM_MAP target, and the address of its first granule (R400). -/
def targetRuns (p : Part) (target : Nat) : Nat × List (Nat × Nat) :=
  if target = 0 then (0, p.hbmAt) else (bedBase (target - 1), p.bedAt.filterMap fun e => if e.1 = target - 1 then some e.2 else none)

/-- The size of a target in bytes. -/
def targetSize (p : Part) (target : Nat) : Nat := ((targetRuns p target).2.map (·.2)).sum * 0x200000

/-- Physical pieces given device virtual addresses from va on, as (address, length, physical address). -/
def placeAt (va : Nat) : List (Nat × Nat) → List (Nat × Nat × Nat)
  | [] => []
  | (n, pa) :: rest => (va, n, pa) :: placeAt (va + n) rest

/-- The leaves of a mapping of a target. -/
def targetPieces (p : Part) (va target off len : Nat) : List (Nat × Nat × Nat) :=
  placeAt va (pieces (targetRuns p target).2 (targetRuns p target).1 off len)

/-- 2 MiB above a window's range stays unmapped (R95). -/
def guard : Nat := 0x200000

/-- The windows that later commands are judged by (R320). -/
def Part.nextWindows (p : Part) : List (Nat × Window) := p.winNext.filterMap fun e => e.2.map fun w => (e.1, w)

/-- A range meets no mapping, no window and no window's guard space (R95, R400). -/
def rangeFree (p : Part) (va len : Nat) : Bool :=
  !(p.regNext.any fun g => overlaps va len g.va g.len)
  && !(p.nextWindows.any fun e => overlaps va len e.2.dva (e.2.len + guard))

/-- A 4 KiB-granular range of the device virtual space above the core-local window (R68, R400). -/
def dvaOk (va len : Nat) : Bool :=
  aligned va 4096 && aligned len 4096 && decide (4096 ≤ len) && decide (0x400000 ≤ va) && decide (va + len ≤ 2 ^ 48)

/-- No byte of a target range lies in the page-table reserve (R314, R400). -/
def reserveFree (q target off len : Nat) : Bool :=
  target == 0 || (List.range (len / 4096)).all fun i => !Config.inPageReserve q (target - 1) (off + 4096 * i)

/-- Every mapping of the pages of some pieces has this RO (R319). -/
def roAgrees (p : Part) (ro : Bool) (l : List (Nat × Nat × Nat)) : Bool :=
  p.regNext.all fun g => g.ro == ro || !l.any fun e => overlaps e.2.2 e.2.1 g.pa g.len

/-- The BAR2 pages of a host-visible mapping: page and offset (R400). -/
def bar2Pages (first off len : Nat) : List (Nat × Nat) := (List.range (len / 0x200000)).map fun i => (first + i, off + i * 0x200000)

/-- The mapping change of a MEM_MAP (R400). -/
def mapChange (p : Part) (key : Nat) (bs : List Byte) : MapChange :=
  let va := fieldAt bs 0 8
  let len := fieldAt bs 8 8
  let flags := fieldAt bs 25 1
  ⟨.map, va, len, targetPieces p va (fieldAt bs 24 1) (fieldAt bs 16 8) len, bitOf flags 0, bitOf flags 1, none, 0x0021, bs, key, 0⟩

/-- MEM_MAP without MIGRATE is acceptable (R263, R319, R400). -/
def memMapOk (q : Nat) (p : PortId) (bs : List Byte) (s : State) : Bool :=
  let x := s.part q
  let c := mapChange x 0 bs
  let target := fieldAt bs 24 1
  let off := fieldAt bs 16 8
  let flags := fieldAt bs 25 1
  dvaOk c.va c.len && aligned off 4096 && decide (target ≤ 4) && decide (flags < 16) && decide (fieldAt bs 28 4 = 0)
  && !(c.w && c.ro) && decide (off + c.len ≤ targetSize x target) && rangeFree x c.va c.len && reserveFree q target off c.len
  && roAgrees x c.ro c.pieces
  && (!bitOf flags 3 || (target == 0 && aligned c.va 0x200000 && aligned off 0x200000 && aligned c.len 0x200000
      && (bar2Pages (fieldAt bs 26 2) off c.len).all fun e =>
        decide (e.1 < 32768) && (SMap.get none e.1 (s.port p).bar2).isNone))

/-- MEM_MAP (R400). -/
def memMapRun (p : PortId) (m : Nat) (c : Cmd) (s : State) : State × Option MbxResult :=
  let q := c.part
  if !memMapOk q p c.params s then (s, some (.only stBadParameter))
  else
    let ch := mapChange (s.part q) (cmdKey p m s) c.params
    let s := addChange q ch s
    let s := if bitOf (c.field 25 1) 3 then
        s.updPort p fun x => { x with bar2 := (bar2Pages (c.field 26 2) (c.field 16 8) ch.len).foldl (fun b e =>
          SMap.set none e.1 (some (q, e.2)) b) x.bar2 }
      else s
    (s, some (.ok []))

/-- The MIGRATE flag of a command in a mailbox (R400). -/
def isMigrate (p : PortId) (m : Nat) (s : State) : Bool := bitOf ((s.mbx p m).command.field 25 1) 2

/-- MEM_MAP (R400). -/
def execMemMap (p : PortId) (m : MbxId) (s : State) : Answer :=
  .next (if isMigrate p m s then s else runLater p m 0x0021 (memMapRun p m) s)

/-- A migration is acceptable (R401): the region lies in one window, every page of it is still a host page in force, and no
mapping uses the destination. -/
def migrateOk (q : Nat) (bs : List Byte) (s : State) : Bool :=
  let x := s.part q
  let va := fieldAt bs 0 8
  let off := fieldAt bs 16 8
  let host := fun (gs : List Region) =>
    covered va 0x200000 gs && (regionsInside va 0x200000 gs).all fun g => decide (hostBase .a ≤ g.pa)
  dvaOk va (fieldAt bs 8 8) && aligned va 0x200000 && decide (fieldAt bs 8 8 = 0x200000) && aligned off 0x200000
  && decide (fieldAt bs 24 1 = 0) && decide (fieldAt bs 25 1 = 4) && decide (fieldAt bs 28 4 = 0)
  && decide (off + 0x200000 ≤ targetSize x 0)
  && (x.nextWindows.any fun e => inside va 0x200000 e.2.dva e.2.len) && host x.regions && host x.regNext
  && !((x.regions ++ x.regNext).any fun g => overlaps (hbmTarget x off) 0x200000 g.pa g.len)

/-- Step 1 of R327: MIG in every leaf of the region, and no TLB holds it. -/
def beginMigration (p : PortId) (m q va dest : Nat) (s : State) : State :=
  let mark := fun (gs : List Region) => changeRegion va (fun g => { g with mig := true }) gs
  let s := s.updPart q fun x => { setRegions q (mark x.regions) x with
    regNext := mark x.regNext, migr := some ⟨va, dest, p, m⟩ }
  invalidate q va 0x200000 s

/-- MEM_MAP_MIGRATE (R327, R401): the command stays BUSY until the copy has completed. -/
def execMemMapMigrate (p : PortId) (m : MbxId) (s : State) : Answer :=
  .next (if isMigrate p m s then runLater p m 0x0021 (fun c s =>
      if migrateOk c.part c.params s then
        (beginMigration p m c.part (c.field 0 8) (hbmTarget (s.part c.part) (c.field 16 8)) s, none)
      else (s, some (.only stBadParameter))) s
    else s)

/-- The mapping change of a MEM_UNMAP (R402). -/
def unmapChange (key : Nat) (bs : List Byte) : MapChange :=
  ⟨.unmap, fieldAt bs 0 8, fieldAt bs 8 8, [], false, false, none, 0x0022, bs, key, 0⟩

/-- MEM_UNMAP (R402): BAR2 pages of the range go at once. -/
def memUnmapRun (p : PortId) (m : Nat) (c : Cmd) (s : State) : State × MbxResult :=
  let q := c.part
  let x := s.part q
  let ch := unmapChange (cmdKey p m s) c.params
  let gone := regionsInside ch.va ch.len x.regNext
  if !dvaOk ch.va ch.len || !covered ch.va ch.len x.regNext || (gone.any fun g => decide (hostBase .a ≤ g.pa)) then
    (s, .only stBadParameter)
  else
    let s := addChange q ch s
    (s.updPort p fun y => { y with bar2 := y.bar2.filter fun e =>
      !(e.2.any fun b => b.1 == q && gone.any fun g => overlaps (hbmTarget x b.2) 0x200000 g.pa g.len) }, .ok [])

/-- MEM_UNMAP (R402). -/
def execMemUnmap (p : PortId) (m : MbxId) (s : State) : Answer := .next (runCmd p m 0x0022 (memUnmapRun p m) s)

/-- The lowest free index of the window table (R403). -/
def freeWindow (x : Part) : Option Nat := firstFrom (fun i => (SMap.get none i x.winNext).isNone) 0 64

/-- The mapping change of a WINDOW_OPEN at an index (R403). -/
def openChange (i key : Nat) (bs : List Byte) : MapChange :=
  let w : Window := ⟨fieldAt bs 0 8, fieldAt bs 8 8, fieldAt bs 16 8, bitOf (fieldAt bs 24 1) 0⟩
  ⟨.windowOpen, w.dva, w.len, [], w.writable, false, some (i, some w), 0x0023, bs, key, 0⟩

/-- WINDOW_OPEN (R95, R263, R403). -/
def windowOpenRun (p : PortId) (m : Nat) (c : Cmd) (s : State) : State × MbxResult :=
  let q := c.part
  let x := s.part q
  let dva := c.field 0 8
  let iova := c.field 8 8
  let len := c.field 16 8
  if !dvaOk dva len || !aligned iova 4096 || decide (2 ^ 44 < iova + len) || decide (1 < c.field 24 1) || !c.zero 25 7
      || !rangeFree x dva len || (x.regNext.any fun g => overlaps (dva + len) guard g.va g.len)
      || (x.nextWindows.any fun e => overlaps (dva + len) guard e.2.dva e.2.len || overlaps iova len e.2.iova e.2.len) then
    (s, .only stBadParameter)
  else match freeWindow x with
    | none => (s, .only stNoResources)
    | some i => (addChange q (openChange i (cmdKey p m s) c.params) s, .ok (leBytes i 8))

/-- WINDOW_OPEN (R403). -/
def execWindowOpen (p : PortId) (m : MbxId) (s : State) : Answer := .next (runCmd p m 0x0023 (windowOpenRun p m) s)

/-- The mapping change of a WINDOW_CLOSE (R403). -/
def closeChange (x : Part) (key : Nat) (bs : List Byte) : MapChange :=
  let i := fieldAt bs 0 1
  let w := (SMap.get none i x.winNext).getD ⟨0, 0, 0, false⟩
  ⟨.windowClose, w.dva, w.len, [], false, false, some (i, none), 0x0024, bs, key, 0⟩

/-- An open stream keeps a ring in a window (R403, R404). -/
def holdsRing (x : Part) (w : Window) : Bool :=
  x.streams.any fun e => e.2.any fun y =>
    overlaps y.sqIova (32 * y.entries) w.iova w.len || overlaps y.cqIova (32 * y.entries) w.iova w.len

/-- WINDOW_CLOSE (R403). -/
def windowCloseRun (p : PortId) (m : Nat) (c : Cmd) (s : State) : State × MbxResult :=
  let q := c.part
  let x := s.part q
  match SMap.get none (c.field 0 1) x.winNext with
  | none => (s, .only stBadParameter)
  | some w =>
    if !c.zero 1 7 || holdsRing x w || (x.migr.any fun g => inside g.va 1 w.dva w.len) then (s, .only stBadParameter)
    else (addChange q (closeChange x (cmdKey p m s) c.params) s, .ok [])

/-- WINDOW_CLOSE (R403). -/
def execWindowClose (p : PortId) (m : MbxId) (s : State) : Answer := .next (runCmd p m 0x0024 (windowCloseRun p m) s)

/-- A power of two from 16 to 4,096 (R404). -/
def entriesOk (n : Nat) : Bool := [16, 32, 64, 128, 256, 512, 1024, 2048, 4096].contains n

/-- A ring lies in one open window (R404). -/
def ringOk (x : Part) (iova entries : Nat) (write : Bool) : Bool :=
  aligned iova 32 && x.nextWindows.any fun e => inside iova (32 * entries) e.2.iova e.2.len && (!write || e.2.writable)

/-- STREAM_OPEN's stream (R404): both indices start at 0. -/
def openStream (bs : List Byte) : Stream :=
  ⟨fieldAt bs 1 1, fieldAt bs 2 2, fieldAt bs 4 2, fieldAt bs 8 8, fieldAt bs 16 8, fieldAt bs 24 4, fieldAt bs 28 4, fieldAt bs 32 4,
    0, 0, 0, 0, 0, [], none⟩

/-- STREAM_OPEN is acceptable (R404). -/
def streamOpenOk (x : Part) (bs : List Byte) : Bool :=
  let y := openStream bs
  let n := fieldAt bs 0 1
  match x.decl n with
  | none => false
  | some d =>
    (x.stream n).isNone && decide (8 ≤ y.vector) && decide (y.vector ≤ 63) && entriesOk y.entries
    && decide (fieldAt bs 6 2 = 0) && decide (fieldAt bs 36 4 = 0)
    && ringOk x y.sqIova y.entries false && ringOk x y.cqIova y.entries true
    && (if d.output then decide (y.nslot = 0) && decide (y.slotBase = 0) && decide (y.slotStride = 0) && decide (y.core = 0)
      else decide (1 ≤ y.nslot) && decide (y.nslot ≤ 16) && aligned y.slotBase 8 && aligned y.slotStride 8
        && decide (d.bytes ≤ y.slotStride) && decide (y.slotBase + (y.nslot - 1) * y.slotStride + d.bytes ≤ tableBase)
        && x.hasCore y.core)

/-- STREAM_OPEN (R404). -/
def execStreamOpen (p : PortId) (m : MbxId) (s : State) : Answer :=
  .next (runCmd p m 0x0030 (fun c s =>
    if streamOpenOk (s.part c.part) c.params then
      (s.updPart c.part fun x => { x with
        streams := SMap.set none (c.field 0 1) (some (openStream c.params)) x.streams }, .ok [])
    else (s, .only stBadParameter)) s)

/-- STREAM_CLOSE (R404): what has not been fetched is discarded. -/
def execStreamClose (p : PortId) (m : MbxId) (s : State) : Answer :=
  .next (runCmd p m 0x0031 (fun c s =>
    if c.zero 1 7 && ((s.part c.part).stream (c.field 0 1)).isSome then
      (s.updPart c.part fun x => { x with streams := SMap.set none (c.field 0 1) none x.streams }, .ok [])
    else (s, .only stBadParameter)) s)

/-- A range lies in mappings of the partition's HBM capacity (R406), for a ring that is written in writable ones (R405). -/
def inCapacity (write : Bool) (gs : List Region) (va len : Nat) : Bool :=
  covered va len gs && (regionsInside va len gs).all fun g => (g.w || !write) && decide (g.pa + g.len ≤ 0x6000000000)

/-- RECORD_CONFIG (R405). -/
def execRecordConfig (p : PortId) (m : MbxId) (s : State) : Answer :=
  .next (runCmd p m 0x0040 (fun c s =>
    let mode := c.field 0 1
    let va := c.field 8 8
    let len := c.field 16 8
    let x := s.part c.part
    if 2 < mode ∨ c.zero 1 7 = false then (s, .only stBadParameter)
    else if mode = 0 then
      (if va = 0 ∧ len = 0 then (s.updPart c.part fun x => { x with recNext := some (0, 0, 0) }, .ok [])
       else (s, .only stBadParameter))
    else if len < 0x200000 ∨ len % 0x200000 ≠ 0 ∨ inCapacity true x.regNext va len = false then (s, .only stBadParameter)
    else (s.updPart c.part fun x => { x with recNext := some (mode, va, len) }, .ok [])) s)

/-- Bytes that the firmware reads at a device virtual address under a partition's mappings, line by line; what the reads correct or
find uncorrectable counts as of any read (R297). -/
def peekBytes (gs : List Region) : (fuel : Nat) → (va n : Nat) → State → State × List Byte
  | 0, _, _, s => (s, [])
  | k + 1, va, n, s =>
    if n = 0 then (s, []) else
      let m := min n (64 - va % 64)
      let (s, here) := match gs.find? fun g => inside va 1 g.va g.len with
        | some g =>
          let pa := g.pa + (va - g.va)
          let (s, l) := lineNow (pa / 64 * 64) s
          (s, (l.bytes.drop (va % 64)).take m)
        | none => (s, List.replicate m 0)
      let (s, rest) := peekBytes gs k (va + m) (n - m) s
      (s, here ++ rest)

/-- The items of a record (R429): n items from the bytes that follow its header block; none when they run past the end. -/
def itemsOf : (n : Nat) → List Byte → Option (List RecItem)
  | 0, _ => some []
  | n + 1, bs =>
    let plen := fieldAt bs 28 4
    let kind := fieldAt bs 0 1
    let len := fieldAt bs 4 4
    if bs.length < 32 + plen then none
    else
      let pay := (bs.drop 32).take plen
      let input := decide (0x10 ≤ kind) && decide (kind ≤ 0x14)
      let i : RecItem := ⟨kind, fieldAt bs 1 1, fieldAt bs 2 2, len, fieldAt bs 8 8, fieldAt bs 16 8, fieldAt bs 24 4,
        if input then pay.take len else pay, if input then pay.drop (plen - 32) else []⟩
      (itemsOf n (bs.drop (32 + plen))).map (i :: ·)

/-- The input items of a record (R427). -/
def RecItem.isInput (i : RecItem) : Bool := decide (0x10 ≤ i.kind) && decide (i.kind ≤ 0x14)

/-- The mapping change that a recorded command makes at its turn (R427, R433). -/
def replayChange (x : Part) (i : RecItem) : Option MapChange :=
  let at' := fun (c : MapChange) => some { c with turn := i.turn }
  if i.kind ≠ 0x12 then none
  else if i.sub = 0x0021 then at' (mapChange x i.key i.content)
  else if i.sub = 0x0022 then at' (unmapChange i.key i.content)
  else if i.sub = 0x0023 then (freeWindow x).bind fun k => at' (openChange k i.key i.content)
  else if i.sub = 0x0024 then at' (closeChange x i.key i.content)
  else none

/-- The recorded commands in order, each judged with those before it applied. -/
def replayChanges (x : Part) : List RecItem → List MapChange
  | [] => []
  | i :: rest =>
    match replayChange x i with
    | none => replayChanges x rest
    | some c =>
      let (rs, ws) := changed c x.owner x.regNext x.winNext
      c :: replayChanges { x with regNext := rs, winNext := ws } rest

/-- The checks of R406 and R432 on a record's header and items: the status that refuses it. -/
def recordRefusal (x : Part) (h : List Byte) (build len : Nat) (items : Option (List RecItem)) : Option Nat :=
  let cfg := (x.cfg.map (·.raw)).getD []
  let img := padTo 32 ((x.img.map (·.digest)).getD [])
  if fieldAt h 0 2 ≠ 1 ∨ fieldAt h 8 8 ≠ build ∨ (h.drop 16).take 32 ≠ img ∨ (h.drop 48).take 32 ≠ sha256 cfg
      ∨ fieldAt h 80 8 ≠ 1 ∨ len < fieldAt h 96 8 ∨ fieldAt h 96 8 < 4096 then some stBadParameter
  else match items with
    | none => some stBadParameter
    | some l =>
      if l.any fun i => i.isInput && !bitOf i.flags 0 then some stBadParameter
      else if bitOf (fieldAt h 3 1) 0 then some stNondet
      else none

/-- The replay begins (R406 steps 2 and 3, R433). -/
def beginReplay (p : PortId) (m q va len last : Nat) (items : List RecItem) (s : State) : State :=
  let s := rewindPart q va len s
  let s := s.updPart q fun x => { x with
    st := .running
    changes := x.changes ++ replayChanges x items
    replay := some ⟨p, m, last, items, 0, none, [], [], []⟩ }
  if last = 0 then replayEnd q s else s

/-- The bytes of a record that follow its header block, as far as its ring reaches (R428). -/
def ringLen (h : List Byte) (len : Nat) : Nat := min (fieldAt h 96 8) len - 4096

/-- The items of a record whose header block reads as given. -/
def ringItems (gs : List Region) (va len : Nat) (h : List Byte) (s : State) : Option (List RecItem) :=
  itemsOf (fieldAt h 104 8) (peekBytes gs (ringLen h len / 64 + 2) (va + 4096) (ringLen h len) s).2

/-- The reads of a record count what they correct or find uncorrectable (R297). -/
def ringRead (gs : List Region) (va n : Nat) (s : State) : State :=
  (peekBytes gs (n / 64 + 2) (va + 4096) n (peekBytes gs 16 va 256 s).1).1

/-- REPLAY_RUN (R406, R432): the result comes when the replay ends. The firmware finds the ring by the mappings that every completed
command has made, whether or not their boundary has come (R320; DEDUCED, log 38). -/
def replayRun (p : PortId) (m : Nat) (c : Cmd) (s : State) : State × Option MbxResult :=
  let q := c.part
  let va := c.field 0 8
  let len := c.field 8 8
  let x := s.part q
  if len < 4096 ∨ inCapacity false x.regNext va len = false then (s, some (.only stBadParameter))
  else
    let t := settleWrites q s
    let h := (peekBytes x.regNext 16 va 256 t).2
    let items := ringItems x.regNext va len h t
    let s := ringRead x.regNext va (ringLen h len) s
    match recordRefusal x h s.build len items with
    | some st => (s, some (.only st))
    | none =>
      let recLast := fieldAt h 88 8
      let last := if c.field 16 8 = 0 then recLast else min (c.field 16 8) recLast
      (beginReplay p m q va len last (items.getD []) s, none)

/-- REPLAY_RUN (R406). -/
def execReplayRun (p : PortId) (m : MbxId) (s : State) : Answer := .next (runLater p m 0x0041 (replayRun p m) s)

end Sys2Proof.Machine
end

