-- ==== Sys2Proof/Machine/CmdPart.lean ====
section
/-! DEFINITION. The commands that create, change, start, stop and question partitions, set seeds and stage images (R392 to
R399, R460). -/

namespace Sys2Proof.Machine

/-- PART_CREATE and PART_RECONFIGURE (R347, R393 to R396). -/
def configCmd (p : PortId) (keep : Option Image) (c : Cmd) (s : State) : State × MbxResult :=
  let (s, st, rep) := configure c.part p c.params keep s
  (s, ⟨st, rep⟩)

/-- PART_CREATE (R394). -/
def execPartCreate (p : PortId) (m : MbxId) (s : State) : Answer :=
  .next (runCmd p m 0x0010 (configCmd p none) s)

/-- PART_RECONFIGURE (R395): an image handle of 0 keeps the image. -/
def execPartReconfigure (p : PortId) (m : MbxId) (s : State) : Answer :=
  .next (runCmd p m 0x0014 (fun c s => configCmd p (s.part c.part).img c s) s)

/-- PART_DESTROY (R397). -/
def execPartDestroy (p : PortId) (m : MbxId) (s : State) : Answer :=
  .next (runCmd p m 0x0011 (fun c s => (destroyPart c.part s, .ok [])) s)

/-- The response of PART_STOP (R397). -/
def stopBytes (x : Part) : List Byte := padTo 16 (leBytes x.turn 8 ++ leBytes x.how.code 1)

/-- PART_STOP (R59, R397): a RUNNING partition is asked to stop, and the result comes once it is no longer RUNNING. -/
def execPartStop (p : PortId) (m : MbxId) (s : State) : Answer :=
  .next (runLater p m 0x0012 (fun c s =>
    let x := s.part c.part
    if x.st = .running then (s.updPart c.part fun x => { x with stopReq := some (p, m) }, none)
    else (s, some (.ok (stopBytes x)))) s)

/-- PART_START (R338, R387, R397, R460), judged by the state at acceptance: where an event has changed the partition since, its
effect comes after the start's, and the partition stays as the event has left it. Member 0 of a span tells the others of the
start. -/
def partStartRun (seen : Seen) (span : List SpanAnswer) (c : Cmd) (s : State) : State × MbxResult :=
  let q := c.part
  let x := s.part q
  match x.cfg with
  | none => (s, .only stBadParameter)
  | some cfg =>
    if cfg.member ≠ 0 then (s, .only stBadCommand)
    else if seen.st = .running then (s, .ok [])
    else match seen.refusal with
      | some st => (s, .only st)
      | none =>
        if cfg.span ≠ 1 ∧ handshakeOk cfg x.turn span = false then (s, .only stBadParameter)
        else if x.st = .running ∨ (startRefusal x).isSome then (s, .ok [])
        else if cfg.span = 1 then (startPart q [] s, .ok [])
        else ((startPart q span s).emit (.spanStart q x.turn), .ok [])

/-- PART_START (R397). -/
def execPartStart (p : PortId) (m : MbxId) (span : List SpanAnswer) (s : State) : Answer :=
  .next (runCmd p m 0x0013 (partStartRun (s.mbx p m).seen span) s)

/-- The block of PART_QUERY (R398). -/
def queryBytes (x : Part) : List Byte :=
  leBytes x.st.code 1 ++ leBytes x.stopStat 1
  ++ leBytes (b2n x.incomplete + 2 * b2n x.revoked + 4 * b2n x.nd + 8 * portNum x.owner + 16 * b2n (x.recd.mode ≠ 0)) 1
  ++ leBytes 0 1 ++ leBytes x.place.length 4 ++ leBytes x.turn 8 ++ x.report.bytes

/-- PART_QUERY (R398). -/
def execPartQuery (p : PortId) (m : MbxId) (s : State) : Answer :=
  .next (runCmd p m 0x0015 (fun c s => (s, .ok (queryBytes (s.part c.part)))) s)

/-- SEED_SET (R258, R399): the seed waits for the first boundary after the command ends. -/
def execSeedSet (p : PortId) (m : MbxId) (s : State) : Answer :=
  .next (runCmd p m 0x0016 (fun c s =>
    let x := s.part c.part
    (s.updPart c.part fun x => { x with seedNext := some (BitVec.ofNat 64 (c.field 0 8)) },
      .ok (leBytes (x.seedNext.getD x.seed).toNat 8 ++ leBytes (x.turn + 1) 8))) s)

/-- The response of IMAGE_LOAD (R392). -/
def imageBytes (h : Nat) (i : Image) : List Byte := leBytes h 4 ++ leBytes i.ncore 4 ++ leBytes i.npro 4 ++ leBytes i.ncyc 4

/-- A handle that a port has not staged an image under, from its next one on. -/
def freshHandle (x : Port) : Nat :=
  let h := ((List.range 9).map fun k => (x.nextHandle - 1 + k) % (2 ^ 32 - 1) + 1).find? fun h => (SMap.get none h x.staged).isNone
  h.getD 1

/-- A staged image is released (R392). -/
def releaseImage (p : PortId) (h : Nat) (s : State) : State × MbxResult :=
  match SMap.get none h (s.port p).staged with
  | some i => (s.updPort p fun x => { x with staged := SMap.set none h none x.staged }, .ok (imageBytes h i))
  | none => (s, .only stBadParameter)

/-- A program image is read, checked and staged (R392). -/
def stageImage (p : PortId) (len : Nat) (image : ImageReply) (s : State) : State × MbxResult :=
  if 8 ≤ (s.port p).staged.length ∨ 196608 < ceilDiv len 0x200000 + hbmHeld 16 s + stagedUnits p 0 s then (s, .only stNoResources)
  else match image.reply with
    | .fail _ => (s, .only stHostLost)
    | .data bs =>
      match image.parts.bind (imageOf bs len) with
      | none => (s, .only stBadParameter)
      | some i =>
        let h := freshHandle (s.port p)
        (s.updPort p fun x => { x with staged := SMap.set none h (some i) x.staged, nextHandle := h % (2 ^ 32 - 1) + 1 },
          .ok (imageBytes h i))

/-- IMAGE_LOAD (R392). -/
def execImageLoad (p : PortId) (m : MbxId) (image : ImageReply) (s : State) : Answer :=
  .next (runCmd p m 0x0020 (fun c s =>
    let iova := c.field 0 8
    let len := c.field 8 4
    let h := c.field 12 4
    if c.zero 16 8 = false then (s, .only stBadParameter)
    else if iova = 0 ∧ len = 0 then releaseImage p h s
    else if iova = 0 ∨ h ≠ 0 ∨ 2 ^ 44 < iova + len ∨ len < 4096 ∨ 2 ^ 30 < len ∨ len % 4096 ≠ 0 then (s, .only stBadParameter)
    else stageImage p len image s) s)

end Sys2Proof.Machine
end

