-- ==== Sys2Proof/Machine/CmdDiag.lean ====
section
/-! DEFINITION. DIAG_RUN (R414) and what the module registers read as (R312, R334, R418, R467). -/

namespace Sys2Proof.Machine

/-- The response of a diagnostic test (R414): the data's length, then the data. -/
def diagData (bs : List Byte) : MbxResult := .ok (leBytes bs.length 4 ++ List.replicate 4 0 ++ bs)

/-- A DIAG_RUN of one test; parameter checks common to all (R414). -/
def diagRun (p : PortId) (m test : Nat) (f : Cmd → State → State × MbxResult) (s : State) : State :=
  if (s.mbx p m).command.field 0 1 = test then
    runCmd p m 0x0080 (fun c s => if c.zero 1 3 && c.zero 20 4 then f c s else (s, .only stBadParameter)) s
  else s

/-- A test that names a logical core of a partition (R387, R414): the partition, its physical core, or the status that refuses it.
`stopped` says whether the partition, as it stood at acceptance, must not be RUNNING. -/
def diagCore (c : Cmd) (stopped : Bool) (seen : Seen) (s : State) : Nat × Option Nat :=
  if 16 ≤ c.part then (stBadParameter, none)
  else
    match (s.part c.part).physOf (c.field 4 4) with
    | none => (stBadParameter, none)
    | some r =>
      if stopped ∧ seen.st = .running then (stNotStopped, none)
      else if (s.die (dieOfCore r)).fenced then (stDieAbsent, none)
      else (stOk, some r)

/-- A codeword as it is stored: data bits, then check bits; one that an upset has hit holds other bits (log 21). -/
def storedBits (place cw err bits clean : Nat) : Nat :=
  if err = 0 then clean else Config.upsetBits place cw err clean % 2 ^ bits

/-- The codeword of 32 data bits, of a tag, and of a stamp (R76, R288). -/
def code39 (v : Nat) : Nat := v % 2 ^ 32 + (Config.check39 (BitVec.ofNat 32 v)).toNat * 2 ^ 32
def code8 (v : Nat) : Nat := v % 2 ^ 4 + (Config.check8 (BitVec.ofNat 4 v)).toNat * 2 ^ 4
def code64 (v : Nat) : Nat := v % 2 ^ 56 + (Config.check64 (BitVec.ofNat 56 v)).toNat * 2 ^ 56

/-- The three codewords of word i of core r's store (R76). -/
def coreCodes (r i : Nat) (x : Core) : Nat × Nat × Nat :=
  let w := x.word i
  let e := SMap.get CwErr.none i x.storeErr
  let at' := r * 2 ^ 20 + i
  (storedBits at' 0 e.low 39 (code39 w.data.toNat), storedBits at' 1 e.high 39 (code39 (w.data.toNat / 2 ^ 32)),
    storedBits at' 2 e.tag 8 (code8 w.tag.toNat))

/-- The 86 bits of a core-store word (R76). -/
def coreBits (r i : Nat) (x : Core) : Nat :=
  let (l, h, t) := coreCodes r i x
  l + h * 2 ^ 39 + t * 2 ^ 78

/-- The data bits of a core-store word as they are stored (R76, R414). -/
def coreData (r i : Nat) (x : Core) : Nat :=
  let (l, h, _) := coreCodes r i x
  l % 2 ^ 32 + h % 2 ^ 32 * 2 ^ 32

/-- DIAG_RESCUE_READ (R72, R414): the rescue area of a core, its bits as they are stored. -/
def execDiagRescueRead (p : PortId) (m : MbxId) (s : State) : Answer :=
  .next (diagRun p m 1 (fun c s =>
    match diagCore c true (s.mbx p m).seen s with
    | (_, some r) => (s, diagData ((List.range 128).flatMap fun i => leBytes (coreData r (rescueWord + i) (s.core r)) 8))
    | (st, none) => (s, .only st)) s)

/-- DIAG_CORE_STORE_READ (R76, R414): the stored bits as they are. -/
def execDiagCoreStoreRead (p : PortId) (m : MbxId) (s : State) : Answer :=
  .next (diagRun p m 2 (fun c s =>
    let a := c.field 8 8
    let n := c.field 16 4
    match diagCore c true (s.mbx p m).seen s with
    | (_, some r) =>
      if n < 1 ∨ 250 < n ∨ a % 8 ≠ 0 ∨ 0x400000 < a + 8 * n then (s, .only stBadParameter)
      else (s, diagData ((List.range n).flatMap fun i => leBytes (coreBits r (a / 8 + i) (s.core r)) 16))
    | (st, none) => (s, .only st)) s)

/-- The 64-bit stamp word of line l of bed die b (R288). -/
def stampWord (b l : Nat) (x : Bed) : Nat :=
  let t := SMap.get Stamp.cold l x.stamps
  storedBits (2 ^ 40 + b * 2 ^ 32 + l) 0 (SMap.get 0 l x.stampErr) 64
    (code64 (t.wstamp + t.writer * 2 ^ 16 + t.rstamp * 2 ^ 28 + t.reader * 2 ^ 44))

/-- DIAG_STAMP_READ (R288, R414). -/
def execDiagStampRead (p : PortId) (m : MbxId) (s : State) : Answer :=
  .next (diagRun p m 3 (fun c s =>
    let a := c.field 8 8
    let n := c.field 16 4
    match locate a with
    | .bed b off =>
      if c.part ≠ 0xFF ∨ n < 1 ∨ 500 < n ∨ a % 64 ≠ 0 ∨ 0x80000000 < off + 64 * n then (s, .only stBadParameter)
      else (s, diagData ((List.range n).flatMap fun i => leBytes (stampWord b (off / 64 + i) (s.bed b)) 8))
    | _ => (s, .only stBadParameter)) s)

/-- HBM_TEMP and HBM_REMAP (R312). -/
def tempReg (x : Stack) : Nat := s16 x.temp + s16 x.tmax * 2 ^ 16 + x.step % 16 * 2 ^ 32
def remapReg (x : Stack) : Nat :=
  x.active + 2 * b2n x.copy.isSome + (x.copy.map (·.spare)).getD 0 * 2 ^ 12 + x.pendingRows.length * 2 ^ 22
  + x.used * 2 ^ 27 + x.deferred * 2 ^ 38 + x.unpersist.length * 2 ^ 49

/-- A remap entry as its register (R301). -/
def remapWord (r : Remap) : Nat := if r.valid then 2 ^ 31 + r.sid * 2 ^ 22 + r.bank * 2 ^ 18 + r.row else 0

/-- A register of a stack (R312). -/
def stackReg (x : Stack) (o : Nat) : Nat :=
  let reg := fun (q : Nat) => SMap.get Regulator.reset q x.regs
  let pair := fun (t : SMap Remap) (n : Nat) => remapWord (SMap.get Remap.none n t) + remapWord (SMap.get Remap.none (n + 1) t) * 2 ^ 32
  if o = 0 then tempReg x
  else if o = 8 then remapReg x
  else if 0x100 ≤ o ∧ o < 0x200 then
    (let g := reg ((o - 0x100) / 16)
     if o % 16 = 0 then g.rate + g.burst * 2 ^ 16 else g.lines + g.tokens / 2048 * 2 ^ 38)
  else if 0x1000 ≤ o ∧ o < 0x2000 then pair x.table0 ((o - 0x1000) / 4)
  else if 0x2000 ≤ o ∧ o < 0x3000 then pair x.table1 ((o - 0x2000) / 4)
  else 0

/-- A register of a die (R331, R334). WO and read-to-clear fields are read without their effect. -/
def dieReg (x : Die) (o : Nat) : Nat :=
  if o = 0 then (x.fq.filter fun e => e.2.valid).length + x.stalled.length * 2 ^ 16 + b2n x.fqOvf * 2 ^ 32 + b2n x.badRes * 2 ^ 33
  else if o = 0x10 then x.hotThresh
  else if o = 0x18 then hpqStatus x
  else if 0x4000 ≤ o ∧ o < 0x8000 then (fqWords (SMap.get FqEntry.free ((o - 0x4000) / 64) x.fq)).getD (o % 64 / 8) 0
  else if o = 0x8000 then ((x.hpq.head?).map fun h => (hotWords h).1).getD 0
  else if o = 0x8008 then ((x.hpq.head?).map fun h => (hotWords h).2).getD 0
  else 0

/-- A register of the power manager (R467). -/
def powerReg (s : State) (o : Nat) : Nat :=
  let w := s.power
  if o = 0 then w.vin % 2 ^ 16 + w.p100 % 2 ^ 16 * 2 ^ 16 + w.p10 % 2 ^ 16 * 2 ^ 32
  else if o = 8 then ((List.range 12).map fun d => w.stepOf d * 16 ^ d).sum
  else if o = 0x10 then w.tripCause + w.tripSrc * 2 ^ 8
  else 0

/-- A module register at an offset of the module-register range (R262, R312, R334, R418, R467). -/
def moduleReg (o : Nat) (s : State) : Nat :=
  if 0x100000 ≤ o ∧ o < 0x180000 then stackReg (s.stack ((o - 0x100000) / 0x10000)) (o % 0x10000)
  else if 0x200000 ≤ o ∧ o < 0x2C0000 then dieReg (s.die ((o - 0x200000) / 0x10000)) (o % 0x10000)
  else if 0x300008 ≤ o ∧ o ≤ 0x300068 then thresholdReg ((o - 0x300000) / 8) s
  else if 0x400000 ≤ o ∧ o ≤ 0x400010 then powerReg s (o - 0x400000)
  else 0

/-- The die whose registers an offset of the module-register range names, when it is fenced. -/
def fencedReg (o : Nat) (s : State) : Bool :=
  decide (0x200000 ≤ o) && decide (o < 0x2C0000) && (s.die ((o - 0x200000) / 0x10000)).fenced

/-- DIAG_REGISTER_READ (R414). -/
def execDiagRegisterRead (p : PortId) (m : MbxId) (s : State) : Answer :=
  .next (diagRun p m 4 (fun c s =>
    let a := c.field 8 8
    let n := c.field 16 4
    if c.part ≠ 0xFF ∨ n < 1 ∨ 500 < n ∨ a % 8 ≠ 0 ∨ a < 0x10000000000 ∨ 0x10100000000 < a + 8 * n then (s, .only stBadParameter)
    else
      let o := a - 0x10000000000
      if (List.range n).any fun i => fencedReg (o + 8 * i) s then (s, .only stDieAbsent)
      else (s, diagData ((List.range n).flatMap fun i => leBytes (moduleReg (o + 8 * i) s) 8))) s)

/-- DIAG_DEBUG_BREAK (R131, R414): vector 15 in a core. -/
def execDiagDebugBreak (p : PortId) (m : MbxId) (s : State) : Answer :=
  .next (diagRun p m 5 (fun c s =>
    match diagCore c false (s.mbx p m).seen s with
    | (_, some r) => (debugBreak r s, diagData [])
    | (st, none) => (s, .only st)) s)

end Sys2Proof.Machine
end

