-- ==== Sys2Proof/Machine/Fire.lean ====
section
/-! DEFINITION. The firing of arm-queue entries (R36, R37, R39, R118, R216, R265, R311, R373). -/

namespace Sys2Proof.Machine

/-- The input conditions of an entry are met (R37, R39). -/
def condsMet (t : TurnUnit) (cond : Nat) : Bool := (condsOf cond).all fun k => decide (k.2 ≤ SMap.get 0 k.1 t.ac)

/-- A firing subtracts its conditions' counts (R37). -/
def takeConds (cond : Nat) (t : TurnUnit) : TurnUnit :=
  { t with ac := (condsOf cond).foldl (fun m k => SMap.upd 0 k.1 (· - k.2) m) t.ac }

/-- Words of a launch or post descriptor beyond word 1, and the tags of all (R373). -/
def descClear (x : Core) (h : Nat) : Bool :=
  ((List.range 8).all fun i => (x.word (h / 8 + i)).tag == 0)
  && (List.range 6).all fun i => (x.word (h / 8 + 2 + i)).data == 0

/-- Fields of a launch or post descriptor. -/
def descStream (x : Core) (h : Nat) : Nat := wf64 (x.word (h / 8)).data 5 0
def launchAddr (x : Core) (h : Nat) : Nat := wf64 (x.word (h / 8 + 1)).data 21 0
def postSrc (x : Core) (h : Nat) : Nat := wf64 (x.word (h / 8 + 1)).data 21 0
def postLen (x : Core) (h : Nat) : Nat := wf64 (x.word (h / 8 + 1)).data 63 32

/-- A launch descriptor keeps to R373; the consuming core of a stream that is not open is not known. -/
def launchOk (p : Part) (x : Core) (h : Nat) : Bool :=
  descClear x h && decide (wf64 (x.word (h / 8)).data 63 6 = 0)
  && ((p.decl (descStream x h)).any fun d => !d.output)
  && ((p.stream (descStream x h)).all fun y => y.core == x.lcore)
  && decide (wf64 (x.word (h / 8 + 1)).data 63 22 = 0) && aligned (launchAddr x h) 8
  && decide (launchAddr x h + 16 ≤ tableBase)

/-- A post descriptor keeps to R373. -/
def postOk (p : Part) (x : Core) (h : Nat) : Bool :=
  descClear x h && decide (wf64 (x.word (h / 8)).data 63 6 = 0)
  && ((p.decl (descStream x h)).any fun d => d.output && decide (1 ≤ postLen x h) && decide (postLen x h ≤ d.bytes))
  && decide (wf64 (x.word (h / 8 + 1)).data 31 22 = 0) && aligned (postSrc x h) 8
  && decide (postSrc x h + postLen x h ≤ tableBase)

/-- A launch or post whose descriptor breaks R373 stops the partition; the manual names no CSTAT for it. -/
def badDesc (q c h : Nat) (s : State) : State :=
  (streamFault (s.core c).lcore q (descStream (s.core c) h) (s.freeVal.toNat % 256) h 0 s).drew

/-- A stream launch fires (R373): k and LEN at RECADDR. -/
def fireLaunch (q c h : Nat) (s : State) : State :=
  let p := s.part q
  let x := s.core c
  let n := descStream x h
  match p.stream n with
  | none => s
  | some y =>
    let f := SMap.get Frame.none y.next y.frames
    let s := s.updCore c (putWords (launchAddr x h / 8) [.int (BitVec.ofNat 64 y.next), .int (BitVec.ofNat 64 f.len)])
    updStream q n (fun y => { y with
      next := y.next + 1
      frames := SMap.set Frame.none y.next { f with launched := some x.tu.turn } y.frames }) s

/-- An output post fires (R58, R373). -/
def firePost (q c h : Nat) (s : State) : State :=
  let x := s.core c
  let n := postLen x h
  let a := postSrc x h
  let s := touchRun c (a / 8) (ceilDiv n 8) s
  let y := s.core c
  let ws := (List.range (ceilDiv n 8)).map fun i => y.word (a / 8 + i)
  let bytes := (ws.flatMap fun w => if w.tag = tagPoison then List.replicate 8 0 else leBytes w.data.toNat 8).take n
  let o : Post := ⟨descStream x h, x.lcore, bytes, ws.any fun w => w.tag == tagPoison, x.tu.turn⟩
  let s := s.updCore c fun x => { x with jobs := { x.jobs with posted := x.jobs.posted ++ [(a, n)] } }
  s.updPart q fun p => { p with posts := p.posts ++ [o], postQ := p.postQ ++ [o] }

/-- A move fires (R265): it is given to its mover. -/
def fireMove (m : MoverRef) (q : Nat) (e : ArmEntry) (s : State) : State :=
  let fire := match m with
    | .core c => (s.core c).fireSeq
    | .bulk _ => 0
  let j := MoveJob.given e.handle e.core e.seq fire (moverTurn m q s) e.rd e.wr
  let s := match m with
    | .core c => s.updCore c fun x => { x with fireSeq := x.fireSeq + 1 }
    | .bulk _ => s
  updMoves m q (fun l => l ++ [j]) s

/-- A share change fires (R311): the bucket keeps its tokens up to the new capacity. -/
def fireShare (k q : Nat) (e : ArmEntry) (s : State) : State :=
  updReg k q (fun g => { g with rate := e.rate, burst := e.burst, tokens := min g.tokens (e.burst * 2048) }) s

/-- What may hold a head entry besides its turn and conditions (R216, R373). -/
def mayFire (q : Nat) (u : UnitRef) (e : ArmEntry) (s : State) : Bool :=
  match u with
  | .core c =>
    decide ((s.core c).halt = 0) &&
    (if e.kind = .pass then decide (((s.core c).jobs.passes.filter fun j => !j.started).length < 4)
     else if e.kind = .launch then
      !launchOk (s.part q) (s.core c) e.handle || frameReady (s.part q) (descStream (s.core c) e.handle)
     else true)
  | .mover c => decide ((s.core c).halt = 0)
  | .drain c => decide ((s.core c).halt = 0)
  | _ => true

/-- The entry acts. -/
def fireEntry (q : Nat) (u : UnitRef) (e : ArmEntry) (s : State) : State :=
  match u, e.kind with
  | .core c, .pass => firePass q c e s
  | .core c, .run => fireRun c e s
  | .core c, .launch =>
    let s := touchRun c (e.handle / 8) 8 s
    if launchOk (s.part q) (s.core c) e.handle then fireLaunch q c e.handle s else badDesc q c e.handle s
  | .core c, .post =>
    let s := touchRun c (e.handle / 8) 8 s
    if postOk (s.part q) (s.core c) e.handle then firePost q c e.handle s else badDesc q c e.handle s
  | .mover c, .move => fireMove (.core c) q e s
  | .bulk d, .move => fireMove (.bulk d) q e s
  | .drain c, .drain => fireDrain q c e s
  | .reg k, .share => fireShare k q e s
  | _, _ => s

/-- ARM_FIRE (R39): the entry at the head of a unit's queue. -/
def execArmFire (q : PartId) (u : UnitRef) (env : Env) (s : State) : Answer :=
  let s := applyUpsets env.upsets s
  let p := s.part q
  let t := unitTu q u s
  .next (match t.queue with
    | e :: _ =>
      if p.st = .running ∧ p.units.contains u = true ∧ 1 ≤ t.turn ∧ e.turn ≤ t.turn ∧ condsMet t e.cond = true
          ∧ mayFire q u e s = true then
        fireEntry q u e (updTu q u (fun t => { takeConds e.cond t with queue := t.queue.drop 1 }) s)
      else s
    | [] => s)

end Sys2Proof.Machine
end

