-- ==== Sys2Proof/Machine/Mgmt.lean ====
section
/-! DEFINITION. The management target (R477) and SPDM over each port's DOE mailbox (R478 to R480). -/

namespace Sys2Proof.Machine

/-- I3C_OFFSET_WRITE (R477). -/
def execI3cOffsetWrite (offset : Byte) (s : State) : Answer :=
  .next (if s.running then { s with mgmt := { s.mgmt with off := offset.toNat } } else s)

/-- SETDASA (R477). -/
def execSetdasa (addr : Fin 128) (s : State) : Answer :=
  .next (if s.running then { s with mgmt := { s.mgmt with addr := some addr } } else s)

/-- The largest of temperatures, the least value a byte shows when there is none. -/
def hottest (l : List Int) : Int :=
  match l with
  | [] => -128
  | t :: rest => rest.foldl max t

/-- The management status block (R477). A quarter of a degree of a stack is rounded down (DESIGN CHOICE, log 42). -/
def mgmtBlock (s : State) : List Byte :=
  let health := s.modh.code + 4 * b2n s.power.trip + 8 * b2n (s.hs.health = .failed)
  leBytes 1 1 ++ leBytes health 1 ++ leBytes s.power.tripCause 1 ++ leBytes s.power.tripSrc 1 ++ leBytes s.power.vin 2
  ++ leBytes s.power.p10 2 ++ leBytes (wrapTo 8 (hottest ((List.range 12).map fun d => SMap.get 0 d s.power.junc))) 1
  ++ leBytes (wrapTo 8 (hottest ((List.range 8).map fun k => (s.stack k).temp / 4))) 1 ++ leBytes s.mgmt.alert 1
  ++ List.replicate 5 0

/-- What a private read returns: the block from the offset (R477); the table of commands has no row for it. -/
def mgmtRead (s : State) : List Byte := (mgmtBlock s).drop s.mgmt.off

/-- MGMT_ALERT_N, FAULT_N and THERM_TRIP_N are asserted (R466, R476, R477). -/
def alertPin (s : State) : Bool := decide (s.mgmt.alert ≠ 0)
def faultPin (s : State) : Bool := s.hs.health == .failed
def tripPin (s : State) : Bool := s.power.trip

/-- An answer goes out, and the exchange stands at a stage. -/
def answerSpdm (p : PortId) (a : Spdm) (s : State) : State := s.emit (.spdm p a)
def setStage (p : PortId) (g : DoeStage) (s : State) : State := s.updPort p fun x => { x with doe := g }

/-- A request over the DOE mailbox of a port (R479): Busy while the firmware is not running; else `f` answers. -/
def spdmRun (p : PortId) (f : State → State) (s : State) : State :=
  if s.reaches p then (if s.fwUp && s.hs.keyReady then f s else answerSpdm p .busy s) else s

/-- A request that needs the negotiation to be complete (R479). -/
def spdmAfter (p : PortId) (f : State → State) (s : State) : State :=
  spdmRun p (fun s => if (s.port p).doe = .algorithms then f s else answerSpdm p .unexpected s) s

/-- GET_VERSION (R479): it begins the exchange anew. -/
def execGetVersion (p : PortId) (s : State) : Answer :=
  .next (spdmRun p (fun s => answerSpdm p .version (setStage p .version s)) s)

/-- GET_CAPABILITIES (R479). -/
def execGetCapabilities (p : PortId) (s : State) : Answer :=
  .next (spdmRun p (fun s =>
    if (s.port p).doe = .version then answerSpdm p .capabilities (setStage p .capabilities s) else answerSpdm p .unexpected s) s)

/-- NEGOTIATE_ALGORITHMS (R479): the requester offers RSASSA-PSS 3072 and SHA-256, or has no algorithm in common. -/
def execNegotiateAlgorithms (p : PortId) (asymOk hashOk : Bool) (s : State) : Answer :=
  .next (spdmRun p (fun s =>
    if (s.port p).doe ≠ .capabilities then answerSpdm p .unexpected s
    else if asymOk && hashOk then answerSpdm p .algorithms (setStage p .algorithms s)
    else answerSpdm p .noAlgorithm s) s)

/-- GET_DIGESTS (R479): slot 0's. -/
def execGetDigests (p : PortId) (s : State) : Answer :=
  .next (spdmAfter p (fun s => answerSpdm p (.digests (sha256 Config.endorsementChain)) s) s)

/-- GET_CERTIFICATE (R479): a portion of slot 0's chain. -/
def execGetCertificate (p : PortId) (slot offset len : Nat) (s : State) : Answer :=
  .next (spdmAfter p (fun s =>
    let chain := Config.endorsementChain
    if slot ≠ 0 ∨ chain.length ≤ offset then answerSpdm p .invalid s
    else
      let bs := (chain.drop offset).take len
      answerSpdm p (.certificate bs (chain.length - offset - bs.length)) s) s)

/-- What a signature covers, by the fields that this model's answers hold (log 22). -/
def transcript (nonce : List Byte) (blocks : List (Nat × List Byte)) : List Byte :=
  nonce ++ sha256 Config.endorsementChain ++ blocks.flatMap fun e => leBytes e.1 1 ++ e.2

/-- The measurements of some indices (R480). -/
def blocksOf (is : List Nat) (s : State) : List (Nat × List Byte) := is.map fun i => (i, measurement i s)

/-- CHALLENGE (R479): the summary covers every measurement that the port is shown. -/
def execChallenge (p : PortId) (slot : Nat) (nonce : List Byte) (s : State) : Answer :=
  .next (spdmAfter p (fun s =>
    if slot ≠ 0 then answerSpdm p .invalid s
    else
      let bs := blocksOf (indicesFor p s) s
      let all := sha256 (bs.flatMap fun e => leBytes e.1 1 ++ e.2)
      (answerSpdm p (.challengeAuth (sha256 Config.endorsementChain) all (Config.identitySign (transcript nonce bs) s.free)) s).drew) s)

/-- GET_MEASUREMENTS (R479, R480): index 0 asks for their number, 0xFF for all. -/
def execGetMeasurements (p : PortId) (index : Nat) (sign : Bool) (nonce : List Byte) (s : State) : Answer :=
  .next (spdmAfter p (fun s =>
    let is := indicesFor p s
    let give := fun (n : Nat) (bs : List (Nat × List Byte)) =>
      let sig := if sign then some (Config.identitySign (transcript nonce bs) s.free) else none
      (answerSpdm p (.measurements n bs sig) s).drew
    if index = 0 then give is.length []
    else if index = 0xFF then give is.length (blocksOf is s)
    else if is.contains index then give 1 (blocksOf [index] s)
    else answerSpdm p .invalid s) s)

end Sys2Proof.Machine
end

