-- ==== Sys2Proof/Machine/Dispatch.lean ====
section
/-! DEFINITION. The effect of every command, one arm per row of the opcode table, in the table's order. -/

namespace Sys2Proof.Machine

/-- A command's effect on everything but the queue. -/
def exec (i : Instr) (s : State) : Host.Outcome State Fault Refusal :=
  match i with
  | .powerGood boot => Sys2Proof.Machine.execPowerGood boot s
  | .powerGoodWithdrawn vin10mV => Sys2Proof.Machine.execPowerGoodWithdrawn vin10mV s
  | .modResetAssert => Sys2Proof.Machine.execModResetAssert s
  | .modResetDeassert boot => Sys2Proof.Machine.execModResetDeassert boot s
  | .pcieLinkUp p => Sys2Proof.Machine.execPcieLinkUp p s
  | .perstAssert p => Sys2Proof.Machine.execPerstAssert p s
  | .perstDeassert p => Sys2Proof.Machine.execPerstDeassert p s
  | .functionLevelReset p => Sys2Proof.Machine.execFunctionLevelReset p s
  | .pcieLinkDown p => Sys2Proof.Machine.execPcieLinkDown p s
  | .d3hotEntry p => Sys2Proof.Machine.execD3hotEntry p s
  | .trstNAssert => Sys2Proof.Machine.execTrstNAssert s
  | .jtagBreak c => Sys2Proof.Machine.execJtagBreak c s
  | .lossOfLock clk => Sys2Proof.Machine.execLossOfLock clk s
  | .powerSample watts vin10mV => Sys2Proof.Machine.execPowerSample watts vin10mV s
  | .junctionSample d celsius => Sys2Proof.Machine.execJunctionSample d celsius s
  | .railSwitchOff => Sys2Proof.Machine.execRailSwitchOff s
  | .bundleIssue c env => Sys2Proof.Machine.execBundleIssue c env s
  | .vectorLoadFaultPoint c env => Sys2Proof.Machine.execVectorLoadFaultPoint c env s
  | .ownActionDelivery c => Sys2Proof.Machine.execOwnActionDelivery c s
  | .windowOverrun c => Sys2Proof.Machine.execWindowOverrun c s
  | .haltNotice c => Sys2Proof.Machine.execHaltNotice c s
  | .patrolScrub c env => Sys2Proof.Machine.execPatrolScrub c env s
  | .turnDone q u => Sys2Proof.Machine.execTurnDone q u s
  | .spurBroadcast b => Sys2Proof.Machine.execSpurBroadcast b s
  | .spurReceipt q u turn => Sys2Proof.Machine.execSpurReceipt q u turn s
  | .armFire q u env => Sys2Proof.Machine.execArmFire q u env s
  | .quiescentPointStop q => Sys2Proof.Machine.execQuiescentPointStop q s
  | .partStopTimeout q => Sys2Proof.Machine.execPartStopTimeout q s
  | .tensorStreamComplete c env => Sys2Proof.Machine.execTensorStreamComplete c env s
  | .passStart c env => Sys2Proof.Machine.execPassStart c env s
  | .passRetire c env => Sys2Proof.Machine.execPassRetire c env s
  | .passAbort c env => Sys2Proof.Machine.execPassAbort c env s
  | .drainFrontStart c env => Sys2Proof.Machine.execDrainFrontStart c env s
  | .drainRowVisit c env => Sys2Proof.Machine.execDrainRowVisit c env s
  | .drainComplete c => Sys2Proof.Machine.execDrainComplete c s
  | .monitorCounts q => Sys2Proof.Machine.execMonitorCounts q s
  | .numericsLogWrite q => Sys2Proof.Machine.execNumericsLogWrite q s
  | .moveStart m q env => Sys2Proof.Machine.execMoveStart m q env s
  | .multicastSourceLine d q env => Sys2Proof.Machine.execMulticastSourceLine d q env s
  | .moveComplete m q env => Sys2Proof.Machine.execMoveComplete m q env s
  | .notifyIncrement q => Sys2Proof.Machine.execNotifyIncrement q s
  | .messageAccept m env => Sys2Proof.Machine.execMessageAccept m env s
  | .farCacheFill c reg env => Sys2Proof.Machine.execFarCacheFill c reg env s
  | .bedStoreAccess b env => Sys2Proof.Machine.execBedStoreAccess b env s
  | .sweepVisit b => Sys2Proof.Machine.execSweepVisit b s
  | .bedCacheFill b => Sys2Proof.Machine.execBedCacheFill b s
  | .regulatorRelease k q => Sys2Proof.Machine.execRegulatorRelease k q s
  | .hbmQueueEntry k pc => Sys2Proof.Machine.execHbmQueueEntry k pc s
  | .hbmServe k pc idx env => Sys2Proof.Machine.execHbmServe k pc idx env s
  | .remapLineCopy k env => Sys2Proof.Machine.execRemapLineCopy k env s
  | .remapFlip k => Sys2Proof.Machine.execRemapFlip k s
  | .remapPersist k => Sys2Proof.Machine.execRemapPersist k s
  | .hbmPatrolScrub k env => Sys2Proof.Machine.execHbmPatrolScrub k env s
  | .hbmTempSample k quarterC => Sys2Proof.Machine.execHbmTempSample k quarterC s
  | .tlbWalk t q va write env => Sys2Proof.Machine.execTlbWalk t q va write env s
  | .faultQueueEnter d engine => Sys2Proof.Machine.execFaultQueueEnter d engine s
  | .fqResumeRetry d entry => Sys2Proof.Machine.execFqResumeRetry d entry s
  | .fqResumeAbort d entry => Sys2Proof.Machine.execFqResumeAbort d entry s
  | .accessCounterDecay d => Sys2Proof.Machine.execAccessCounterDecay d s
  | .hpqHeadRead d => Sys2Proof.Machine.execHpqHeadRead d s
  | .hpqStatusRead d => Sys2Proof.Machine.execHpqStatusRead d s
  | .hotPageRingWrite p => Sys2Proof.Machine.execHotPageRingWrite p s
  | .migrationCopyComplete q reply => Sys2Proof.Machine.execMigrationCopyComplete q reply s
  | .hostWindowReadFail q u f => Sys2Proof.Machine.execHostWindowReadFail q u f s
  | .boundOverrun q u => Sys2Proof.Machine.execBoundOverrun q u s
  | .degradationReadmission => Sys2Proof.Machine.execDegradationReadmission s
  | .routeChangeComplete hops => Sys2Proof.Machine.execRouteChangeComplete hops s
  | .streamDoorbell p q stream value => Sys2Proof.Machine.execStreamDoorbell p q stream value s
  | .frameFetch q stream entry => Sys2Proof.Machine.execFrameFetch q stream entry s
  | .frameFetchComplete q stream frame env => Sys2Proof.Machine.execFrameFetchComplete q stream frame env s
  | .postCompletion q entry => Sys2Proof.Machine.execPostCompletion q entry s
  | .noticeRingWrite p => Sys2Proof.Machine.execNoticeRingWrite p s
  | .ntcBaseWrite p value => Sys2Proof.Machine.execNtcBaseWrite p value s
  | .hprBaseWrite p value => Sys2Proof.Machine.execHprBaseWrite p value s
  | .errCntRead r => Sys2Proof.Machine.execErrCntRead r s
  | .errCnt2Read r => Sys2Proof.Machine.execErrCnt2Read r s
  | .mbxRefusedRead p m => Sys2Proof.Machine.execMbxRefusedRead p m s
  | .hmbRefusedRead p => Sys2Proof.Machine.execHmbRefusedRead p s
  | .registerWrite sp offset data => Sys2Proof.Machine.execRegisterWrite sp offset data s
  | .bar2Read p offset len env => Sys2Proof.Machine.execBar2Read p offset len env s
  | .bar2Write p offset data => Sys2Proof.Machine.execBar2Write p offset data s
  | .mbxCommandComplete p m => Sys2Proof.Machine.execMbxCommandComplete p m s
  | .identify p m => Sys2Proof.Machine.execIdentify p m s
  | .getHealth p m => Sys2Proof.Machine.execGetHealth p m s
  | .setEpoch p m => Sys2Proof.Machine.execSetEpoch p m s
  | .partCreate p m => Sys2Proof.Machine.execPartCreate p m s
  | .partDestroy p m => Sys2Proof.Machine.execPartDestroy p m s
  | .partStop p m => Sys2Proof.Machine.execPartStop p m s
  | .partStart p m span => Sys2Proof.Machine.execPartStart p m span s
  | .partReconfigure p m => Sys2Proof.Machine.execPartReconfigure p m s
  | .partQuery p m => Sys2Proof.Machine.execPartQuery p m s
  | .seedSet p m => Sys2Proof.Machine.execSeedSet p m s
  | .imageLoad p m image => Sys2Proof.Machine.execImageLoad p m image s
  | .memMap p m => Sys2Proof.Machine.execMemMap p m s
  | .memMapMigrate p m => Sys2Proof.Machine.execMemMapMigrate p m s
  | .memUnmap p m => Sys2Proof.Machine.execMemUnmap p m s
  | .windowOpen p m => Sys2Proof.Machine.execWindowOpen p m s
  | .windowClose p m => Sys2Proof.Machine.execWindowClose p m s
  | .streamOpen p m => Sys2Proof.Machine.execStreamOpen p m s
  | .streamClose p m => Sys2Proof.Machine.execStreamClose p m s
  | .recordConfig p m => Sys2Proof.Machine.execRecordConfig p m s
  | .replayRun p m => Sys2Proof.Machine.execReplayRun p m s
  | .faultLogRead p m => Sys2Proof.Machine.execFaultLogRead p m s
  | .repairStatus p m => Sys2Proof.Machine.execRepairStatus p m s
  | .repairCommit p m => Sys2Proof.Machine.execRepairCommit p m s
  | .fwUpdate p m image => Sys2Proof.Machine.execFwUpdate p m image s
  | .attestQuote p m => Sys2Proof.Machine.execAttestQuote p m s
  | .lanePlanSet p m => Sys2Proof.Machine.execLanePlanSet p m s
  | .linkQuery p m => Sys2Proof.Machine.execLinkQuery p m s
  | .diagRescueRead p m => Sys2Proof.Machine.execDiagRescueRead p m s
  | .diagCoreStoreRead p m => Sys2Proof.Machine.execDiagCoreStoreRead p m s
  | .diagStampRead p m => Sys2Proof.Machine.execDiagStampRead p m s
  | .diagRegisterRead p m => Sys2Proof.Machine.execDiagRegisterRead p m s
  | .diagDebugBreak p m => Sys2Proof.Machine.execDiagDebugBreak p m s
  | .hmStatus p => Sys2Proof.Machine.execHmStatus p s
  | .hmLog p => Sys2Proof.Machine.execHmLog p s
  | .hmDieReset p => Sys2Proof.Machine.execHmDieReset p s
  | .hmFwRestart p => Sys2Proof.Machine.execHmFwRestart p s
  | .hmPortQuiesce p => Sys2Proof.Machine.execHmPortQuiesce p s
  | .hmSnapshot p => Sys2Proof.Machine.execHmSnapshot p s
  | .hmbComplete p => Sys2Proof.Machine.execHmbComplete p s
  | .dieBistComplete d bist => Sys2Proof.Machine.execDieBistComplete d bist s
  | .chatterWindowStart d => Sys2Proof.Machine.execChatterWindowStart d s
  | .laneSpareSwap l => Sys2Proof.Machine.execLaneSpareSwap l s
  | .flitCrcRetry b lane dead => Sys2Proof.Machine.execFlitCrcRetry b lane dead s
  | .fecCodeword l lane corrected cut => Sys2Proof.Machine.execFecCodeword l lane corrected cut s
  | .scaleoutLinkTrain l peer => Sys2Proof.Machine.execScaleoutLinkTrain l peer s
  | .scaleoutLinkDown l cut => Sys2Proof.Machine.execScaleoutLinkDown l cut s
  | .turnEndItem q => Sys2Proof.Machine.execTurnEndItem q s
  | .i3cOffsetWrite offset => Sys2Proof.Machine.execI3cOffsetWrite offset s
  | .setdasa addr => Sys2Proof.Machine.execSetdasa addr s
  | .getVersion p => Sys2Proof.Machine.execGetVersion p s
  | .getCapabilities p => Sys2Proof.Machine.execGetCapabilities p s
  | .negotiateAlgorithms p asymOk hashOk => Sys2Proof.Machine.execNegotiateAlgorithms p asymOk hashOk s
  | .getDigests p => Sys2Proof.Machine.execGetDigests p s
  | .getCertificate p slot offset len => Sys2Proof.Machine.execGetCertificate p slot offset len s
  | .challenge p slot nonce => Sys2Proof.Machine.execChallenge p slot nonce s
  | .getMeasurements p index sign nonce => Sys2Proof.Machine.execGetMeasurements p index sign nonce s
  | .mbxDoorbellRefused p m => Sys2Proof.Machine.execMbxDoorbellRefused p m s
  | .hmbCmdRefused p value => Sys2Proof.Machine.execHmbCmdRefused p value s
  | .controlCoreBoot => Sys2Proof.Machine.execControlCoreBoot s
  | .computeDieReset d => Sys2Proof.Machine.execComputeDieReset d s

end Sys2Proof.Machine
end

