-- ==== Sys2Proof/Machine/Time.lean ====
section
/-! DEFINITION. Time: what one REFCLK cycle of 10 ns does whatever is commanded (R111, R142, R308, R350, R448, R453). It is what
a step does when no command waits (DESIGN CHOICE, log 2). -/

namespace Sys2Proof.Machine

/-- CCLK cycles of a die in one REFCLK cycle: 1.8 + 0.1 × STEP GHz over 100 MHz (R448, R464). -/
def cclkPer (d : Nat) (s : State) : Nat := 18 + s.power.stepOf d

/-- A regulator's tokens after one REFCLK cycle: RATE × 78,125,000 × STEP / 4 lines a second, in units of 1/2048 line, up to
BURST lines (R306, R308). -/
def Regulator.gain (step : Nat) (g : Regulator) : Regulator :=
  { g with tokens := min (g.tokens + g.rate * step * 400) (g.burst * 2048) }

/-- One REFCLK cycle. -/
def tick (s : State) : State :=
  if s.running then
    let s := allParts.foldl (passTclk 4) s
    { s with
      hs := { s.hs with refcyc := (s.hs.refcyc + 1) % 2 ^ 48 }
      dies := SMap.mapVals Die.reset (fun d x => if x.up then
        { x with refcyc := (x.refcyc + 1) % 2 ^ 48, cclk := x.cclk + cclkPer d s } else x) s.dies
      beds := SMap.mapVals Bed.reset (fun _ x => if x.up then { x with refcyc := (x.refcyc + 1) % 2 ^ 48 } else x) s.beds
      hbms := SMap.mapVals Stack.reset (fun _ x => { x with
        regs := SMap.mapVals Regulator.reset (fun _ g => g.gain x.step) x.regs }) s.hbms
      cores := SMap.mapVals Core.reset (fun c x => x.passWindow (cclkPer (dieOfCore c) s)) s.cores }
  else s

end Sys2Proof.Machine
end

