-- ==== Sys2Proof/Machine/Step.lean ====
section
/-! DEFINITION. One step of the block: the command at the front of the queue, or, when none waits, one REFCLK cycle. -/

namespace Sys2Proof.Machine

/-- One step: the front command with the queue's rest; on an empty queue one REFCLK cycle passes (DESIGN CHOICE, log 2). -/
def step (s : State) : Host.Outcome State Fault Refusal :=
  match s.pending with
  | [] => .next (tick s)
  | c :: rest => exec c { s with pending := rest }

namespace State

/-- The state with the command that a word spells put at the front of the queue. -/
def withFetchWord (s : State) (nbits w : Nat) : State :=
  match decodeTableWord nbits w with
  | some c => { s with pending := c :: s.pending }
  | none => s

end State

end Sys2Proof.Machine
end

