-- ==== Sys2Proof/Machine/Views.lean ====
section
/-! DEFINITION. What BAR0 reads as (R355, R356, R358, R359, R362, R377), the configuration values of a function (R354), and
which reads have no row in the table of commands because they change nothing. -/

namespace Sys2Proof.Machine

/-- PORT_STATUS (R359). -/
def portStatus (p : PortId) (s : State) : Nat :=
  let owned := (allParts.map fun q => b2n ((s.part q).st != .empty && (s.part q).owner == p) * 2 ^ q).sum
  s.modh.code + 16 * b2n (s.port p).quiesced + 32 * b2n (s.port (otherPort p)).linkUp + owned * 2 ^ 16

/-- MBX_STATUS (R362). -/
def mbxStatus (b : Mbx) (s : State) : Nat := b.state + s.modh.code * 2 ^ 8 + b2n b.abandoned * 2 ^ 16 + b.lastStat * 2 ^ 24

/-- HMB_STAT (R377). -/
def hmbStat (x : Hmb) : Nat := x.state + x.result * 2 ^ 24 + x.info * 2 ^ 32

/-- A register of a control mailbox (R362). -/
def mbxReg (b : Mbx) (o : Nat) (s : State) : Nat :=
  if o = 0x08 then mbxStatus b s else if o = 0x10 then b.seq else if o = 0x18 then b.refused else 0

/-- A 64-bit register of BAR0 as it reads (R355, R359, R362, R377); WO fields and reserved ranges read 0. -/
def bar0Reg (p : PortId) (base : Nat) (s : State) : Nat :=
  let x := s.port p
  if base = 0x0000 then 0x0100 + portNum p
  else if base = 0x0008 then portStatus p s
  else if base = 0x0010 then x.intCause
  else if base = 0x0018 then x.errCnt
  else if base = 0x0020 then x.errCnt2
  else if base = 0x0040 then x.ntc.baseWord.toNat
  else if base = 0x0048 then x.ntc.head
  else if base = 0x0050 then x.ntc.tailWord
  else if base = 0x0060 then x.hpr.baseWord.toNat
  else if base = 0x0068 then x.hpr.head
  else if base = 0x0070 then x.hpr.tailWord
  else if 0x0100 ≤ base ∧ base < 0x0180 then mbxReg (s.mbx p ((base - 0x0100) / 0x20)) (base % 0x20) s
  else if base = 0x0208 then hmbStat x.hmb
  else if base = 0x0210 then x.hmb.refused
  else 0

/-- n bytes read at an offset of BAR0 (R355, R356). A read of ERR_CNT, ERR_CNT2, MBX_REFUSED or HMB_REFUSED, whole or by half,
is a command of its own, for it clears what it returns. -/
def bar0Read (p : PortId) (off n : Nat) (s : State) : List Byte :=
  let x := s.port p
  let m := (off - 0x8000) / 0x2000
  if off < 0x2000 then
    (if (n = 4 ∨ n = 8) ∧ off % n = 0 then ((leBytes (bar0Reg p (off / 8 * 8) s) 8).drop (off % 8)).take n else List.replicate n 0)
  else if off < 0x4000 then List.replicate n 0
  else if off < 0x4400 then ((msixBytes (SMap.get MsixEntry.reset ((off - 0x4000) / 16) x.msix)).drop (off % 16)).take n
  else if 0x4800 ≤ off ∧ off < 0x4808 then ((leBytes x.pba 8).drop (off % 8)).take n
  else if 0x6000 ≤ off ∧ off < 0x7000 then x.hmb.data.read (off - 0x6000) n
  else if 0x8000 ≤ off ∧ off < 0x10000 then
    (if off % 0x2000 < 0x1000 then (s.mbx p m).cmd.read (off % 0x1000) n else (s.mbx p m).resp.read (off % 0x1000) n)
  else List.replicate n 0

/-- The 16-bit words of a function's configuration values (R354): vendor, device, revision, class, subsystem vendor and
subsystem. -/
def configIds : List Nat := [Config.vendorId.toNat, 0x0C12, 0x02, 0x120000, Config.vendorId.toNat, 0x000A]

/-- The sizes of BAR0 and BAR2 in bytes, and the header type (R354): a type 0 endpoint of one function. The base addresses read by
`Port.pcieReg`: BAR0/BAR1 a 64-bit BAR that is not prefetchable, BAR2/BAR3 a prefetchable one, the others 0. -/
def barSizes : Nat × Nat := (64 * 1024, 64 * 1024 * 1024 * 1024)
def headerType : Nat := 0

end Sys2Proof.Machine
end

