-- ==== Sys2Proof/Safety.lean ====
section
/-! DEFINITION. Safe runs, and the form in which the state keeps its indexed groups. -/

namespace Sys2Proof

/-- A step that goes on: it ends neither in a fault nor in a refusal. -/
def Goes (o : Host.Outcome Machine.State Machine.Fault Machine.Refusal) : Prop := ∃ t, o = .next t

end Sys2Proof

namespace Sys2Proof.Machine

/-- The canonical form of the state: the HBM memory, its error marks and every indexed group list their keys strictly
rising and list nothing that equals what an unlisted key reads as, so that equal contents are equal data. -/
structure State.Canon (s : State) : Prop where
  cores : SMap.wf Core.reset s.cores = true
  parts : SMap.wf Part.reset s.parts = true
  dies : SMap.wf Die.reset s.dies = true
  beds : SMap.wf Bed.reset s.beds = true
  hbms : SMap.wf Stack.reset s.hbms = true
  hbm : Mem.wf s.hbm = true
  hbmErr : SMap.wf 0 s.hbmErr = true
  lanes : SMap.wf Bundle.reset s.lanes = true
  links : SMap.wf Link.reset s.links = true

/-- What no command undoes: the queue that waits is as it was, what has been put out stays put out, and a free value
that has been used is not used again. -/
structure State.Forward (s t : State) : Prop where
  pending : t.pending = s.pending
  out : s.out <+: t.out
  free : s.free ≤ t.free

/-- What only a reset of the module undoes (R424, R466): module health FAILED, and a thermal trip with its cause. -/
structure State.Latched (s t : State) : Prop where
  health : s.hs.health = .failed → t.hs.health = .failed
  trip : s.power.trip = true → t.power.trip = true ∧ t.power.tripCause = s.power.tripCause

/-- The moves of a partition at a die's bulk mover. -/
def State.bulkOf (s : State) (d q : Nat) : Bulk := SMap.get Bulk.reset q (s.die d).bulk

/-- What stopping partitions leaves alone (R242, R268, R338, R361): it makes fault-log entries and notices, gives a waiting
PART_STOP its result, changes partitions and their cores, and takes from the moves of the bulk movers no more than the counts
of zeroed words that the entries now hold; everything else is as it was. -/
structure State.StopOnly (s t : State) : Prop where
  rest : { t with hs := s.hs, portA := s.portA, portB := s.portB, parts := s.parts, cores := s.cores, dies := s.dies } = s
  die : ∀ d, { t.die d with bulk := (s.die d).bulk } = s.die d
  bulk : ∀ d q, { t.bulkOf d q with moves := (s.bulkOf d q).moves } = s.bulkOf d q ∧
    (t.bulkOf d q).moves.map MoveJob.noted = (s.bulkOf d q).moves.map MoveJob.noted
  hs : { t.hs with log := s.hs.log, logNext := s.hs.logNext } = s.hs
  port : ∀ p, { t.port p with notices := (s.port p).notices, mbx := (s.port p).mbx } = s.port p

end Sys2Proof.Machine
end

