-- ==== Sys2Proof/Certificates/Slice0/Obligations.lean ====
section
/-! DEFINITION. The statements for the provers: what the rules of spec/ say a command does, where each command completes,
what it leaves alone, and what every step keeps. -/

open Sys2Proof Sys2Proof.Machine

/-- The log entry 2 and the block's queue: a step is the front command's effect on the state with the queue's rest. -/
def Obligations.StepRunsFront : Prop := ∀ (c : Instr) (rest : List Instr) (s : State),
  step { s with pending := c :: rest } = exec c { s with pending := rest }

/-- R448, R453 and log 2 (DESIGN CHOICE: a step on an empty queue is one REFCLK cycle): the counters of the headstock, of
every compute die and of every bed die that is up go on by one modulo 2^48; what a tick does not time stays. -/
def Obligations.EmptyQueueTick : Prop := ∀ s : State, s.pending = [] →
  (s.running = false → step s = .next s) ∧
  (s.running = true → s.Canon → ∃ t, step s = .next t ∧
    t.hs = { s.hs with refcyc := (s.hs.refcyc + 1) % 2 ^ 48 } ∧
    (∀ d, (s.die d).up = true → (t.die d).refcyc = ((s.die d).refcyc + 1) % 2 ^ 48) ∧
    (∀ b, (s.bed b).up = true → (t.bed b).refcyc = ((s.bed b).refcyc + 1) % 2 ^ 48) ∧
    t = { s with hs := t.hs, parts := t.parts, cores := t.cores, dies := t.dies, beds := t.beds, hbms := t.hbms })

/-- No command of the table ends in a fault or a refusal: every state has a next one. -/
def Obligations.EveryCommandGoes : Prop := ∀ (c : Instr) (s : State), Goes (exec c s)

/-- The queue is served first in, first out, what has been put on the ports stays put out, and no free value (log 5) is used
twice, whatever the step. -/
def Obligations.StepServesQueueInOrder : Prop := ∀ s t : State, step s = .next t →
  t.pending = s.pending.tail ∧ s.out <+: t.out ∧ s.free ≤ t.free

/-- The state after reset has the canonical form. -/
def Obligations.ResetCanon : Prop := State.reset.Canon

/-- Every step keeps the canonical form of the HBM memory, its error marks and every indexed group of the module. -/
def Obligations.StepKeepsCanon : Prop := ∀ s t : State, s.Canon → step s = .next t → t.Canon

/-- R424 (FAILED is left only through MOD_RESET_N) and R466 (THERM_TRIP_N stays asserted until MOD_RESET_N or the loss of power
good): no other command undoes either. -/
def Obligations.OnlyResetLeavesFailed : Prop := ∀ (c : Instr) (s t : State),
  (∀ b, c ≠ .powerGood b) → (∀ v, c ≠ .powerGoodWithdrawn v) → c ≠ .modResetAssert → (∀ b, c ≠ .modResetDeassert b) →
  exec c s = .next t →
  (s.hs.health = .failed → t.hs.health = .failed) ∧
  (s.power.trip = true → t.power.trip = true ∧ t.power.tripCause = s.power.tripCause)

/-- What R454 says MOD_RESET_N leaves: every partition EMPTY, every core, die, bed die, stack, bundle and link as reset, the
headstock with health INITIALIZING, epoch 0, an empty fault log and a reference-cycle count of 0, no chatter count, both
ports at their Reset values but for their own pin; the boot flash but for core marks not yet appended (R305, R419). -/
def AfterModReset (s t : State) : Prop :=
  (∀ q, t.part q = Part.reset) ∧ (∀ c, t.core c = Core.reset) ∧ (∀ d, t.die d = Die.reset) ∧ (∀ b, t.bed b = Bed.reset) ∧
  (∀ k, t.stack k = Stack.reset) ∧ (∀ b, t.lane b = Bundle.reset) ∧ (∀ l, t.link l = Link.reset) ∧ (∀ a, t.hbm.byte a = 0) ∧
  t.hs = Headstock.reset ∧ t.chat = ⟨[], [], []⟩ ∧
  (∀ p, t.port p = { Port.reset with perst := (s.port p).perst }) ∧
  t.flash = { s.flash with pendCores := s.flash.pendWritten } ∧
  t.pending = s.pending ∧ t.free = s.free ∧ t.out = s.out

/-- R454, R463: MOD_RESET_N, and a VIN48 below 37.0 V or above 62.0 V, which takes every rail off as well. -/
def Obligations.ModuleReset : Prop := ∀ s : State,
  (s.running = true → ∃ t, exec .modResetAssert s = .next t ∧ AfterModReset s t ∧
    t.power.good = true ∧ t.power.modReset = true ∧ t.power.trip = false) ∧
  (s.running = false → exec .modResetAssert s = .next { s with power := { s.power with modReset := true } }) ∧
  (∀ v, s.power.good = true → v < 3700 ∨ 6200 < v → ∃ t, exec (.powerGoodWithdrawn v) s = .next t ∧ AfterModReset s t ∧
    t.power.good = false ∧ t.power.rails = false ∧ t.power.modReset = s.power.modReset) ∧
  (∀ v, ¬(s.power.good = true ∧ (v < 3700 ∨ 6200 < v)) → exec (.powerGoodWithdrawn v) s = .next s)

/-- R470, R472, R473: what the power-up sequence leaves. -/
def PoweredUp (boot : BootEnv) (s t : State) : Prop :=
  t.power.good = true ∧ t.power.modReset = false ∧ t.power.rails = true ∧ t.power.bootSel = boot.bootSel.val ∧
  t.hs.health ≠ .initializing ∧ t.pending = s.pending ∧
  (boot.bootSel.val = 3 → t.hs.health = .failed ∧ t.hs.fwRun = s.hs.fwRun ∧ t.flash = s.flash) ∧
  (boot.bootSel.val ≠ 3 → t.flash.floor = (applyFloor s.flash).floor) ∧
  (boot.bootSel.val ≠ 3 → bootSlot boot.bootSel (applyFloor s.flash) = none → t.hs.health = .failed) ∧
  (∀ n, boot.bootSel.val ≠ 3 → bootSlot boot.bootSel (applyFloor s.flash) = some n → t.power.setFail = false →
    t.hs.fwRun = true ∧ t.hs.slot = n)

/-- R463, R470, R472, R473: the power-up sequence runs at the later of power good and the deassertion of MOD_RESET_N. -/
def Obligations.PowerUpSequence : Prop := ∀ (boot : BootEnv) (s : State),
  (s.power.good = false → s.power.modReset = false → ∃ t, exec (.powerGood boot) s = .next t ∧ PoweredUp boot s t) ∧
  (s.power.good = false → s.power.modReset = true →
    exec (.powerGood boot) s = .next { s with power := { s.power with good := true, rails := true } }) ∧
  (s.power.good = true → exec (.powerGood boot) s = .next s) ∧
  (s.power.good = true → s.power.modReset = true → ∃ t, exec (.modResetDeassert boot) s = .next t ∧ PoweredUp boot s t) ∧
  (s.power.good = false → s.power.modReset = true →
    exec (.modResetDeassert boot) s = .next { s with power := { s.power with modReset := false } }) ∧
  (s.power.modReset = false → exec (.modResetDeassert boot) s = .next s)

/-- A port's registers, mailboxes, rings, configuration and staged images at their Reset values (R381, R383, R392). -/
def PortAtReset (y : Port) : Prop :=
  y.quiesced = false ∧ y.intCause = 0 ∧ y.bar2Unmap = 0 ∧ y.bar2Wr = 0 ∧ y.dbIgnored = 0 ∧ y.ringErr = 0 ∧ y.bar2Ue = 0 ∧
  y.noBuf = 0 ∧ y.ntc = Ring.reset ∧ y.hpr = Ring.reset ∧ y.mbx = [] ∧ y.hmb = Hmb.reset ∧ y.msix = [] ∧ y.pba = 0 ∧
  y.staged = [] ∧ y.doe = .start ∧ y.cfg = PcieCfg.reset

/-- R381, R473 step 2a: PERSTx_N takes the port to its Reset values and its link down; a function-level reset and D3hot keep the
link; a link down or hot reset takes it down; each is carried out on every running module whose port's link is up (PERSTx_N
whether or not it is), with no other condition. The pin released, and a link that trains, change that and nothing else. -/
def Obligations.PortEventsAndPins : Prop := ∀ (p : PortId) (s : State),
  (s.running = true →
    ∃ t, exec (.perstAssert p) s = .next t ∧ PortAtReset (t.port p) ∧
      (t.port p).perst = true ∧ (t.port p).linkUp = false ∧ (t.port p).d3 = false ∧ (t.port p).bar2 = (s.port p).bar2) ∧
  (s.running = true → (s.port p).linkUp = true →
    ∃ t, exec (.functionLevelReset p) s = .next t ∧ PortAtReset (t.port p) ∧
      (t.port p).perst = (s.port p).perst ∧ (t.port p).linkUp = true ∧ (t.port p).d3 = false ∧ (t.port p).bar2 = (s.port p).bar2) ∧
  (s.running = true → (s.port p).linkUp = true →
    ∃ t, exec (.pcieLinkDown p) s = .next t ∧ PortAtReset (t.port p) ∧
      (t.port p).perst = (s.port p).perst ∧ (t.port p).linkUp = false ∧ (t.port p).d3 = false ∧ (t.port p).bar2 = (s.port p).bar2) ∧
  (s.running = true → (s.port p).linkUp = true → (s.port p).d3 = false →
    ∃ t, exec (.d3hotEntry p) s = .next t ∧ PortAtReset (t.port p) ∧
      (t.port p).perst = (s.port p).perst ∧ (t.port p).linkUp = true ∧ (t.port p).d3 = true ∧ (t.port p).bar2 = (s.port p).bar2) ∧
  (∃ t, exec (.perstDeassert p) s = .next t ∧ t.port p = { s.port p with perst := false } ∧
    t.port (otherPort p) = s.port (otherPort p) ∧ { t with portA := s.portA, portB := s.portB } = s) ∧
  (s.running = true → (s.port p).perst = false →
    ∃ t, exec (.pcieLinkUp p) s = .next t ∧ t.port p = { s.port p with linkUp := true } ∧
      t.port (otherPort p) = s.port (otherPort p) ∧ { t with portA := s.portA, portB := s.portB } = s) ∧
  (s.running = true → (s.port p).perst = true → exec (.pcieLinkUp p) s = .next s) ∧
  (s.running = true → (s.port p).linkUp = false →
    exec (.functionLevelReset p) s = .next s ∧ exec (.pcieLinkDown p) s = .next s ∧ exec (.d3hotEntry p) s = .next s) ∧
  (s.running = false → ∃ t, exec (.perstAssert p) s = .next t ∧ t.port p = { s.port p with perst := true } ∧
    t.port (otherPort p) = s.port (otherPort p) ∧ { t with portA := s.portA, portB := s.portB } = s)

/-- No partition has a replay or a migration in hand, and no mailbox of port p an FW_UPDATE. -/
def NoneInHand (p : PortId) (s : State) : Prop :=
  (∀ q, q < 16 → (s.part q).replay = none ∧ (s.part q).migr = none) ∧ ∀ m, fieldAt ((s.mbx p m).copy.read 0 2) 0 2 ≠ 0x0060

/-- What the loss of port p's host does outside the port: the port's RUNNING partitions stop within the turn and are FAULTED with
HOST_LOST (0x0D), every other partition keeps its state; health and all that is not a partition, its cores, its moves at the bulk
movers, the fault log or a port stays. -/
def HostGone (p : PortId) (s t : State) : Prop :=
  (∀ q, q < 16 → (s.part q).st = .running → (s.part q).owner = p →
    (t.part q).st = .faulted ∧ (t.part q).stopStat = 0x0D ∧ (t.part q).incomplete = true ∧ (t.part q).turn = (s.part q).turn) ∧
  (∀ q, q < 16 → (s.part q).st ≠ .running ∨ (s.part q).owner ≠ p →
    (t.part q).st = (s.part q).st ∧ (t.part q).stopStat = (s.part q).stopStat ∧ (t.part q).turn = (s.part q).turn) ∧
  (∀ q, q < 16 → (s.part q).owner = p → (t.part q).postQ = []) ∧
  { t with hs := s.hs, portA := s.portA, portB := s.portB, parts := s.parts, cores := s.cores, dies := s.dies } = s ∧
  (∀ d, { t.die d with bulk := (s.die d).bulk } = s.die d) ∧
  { t.hs with log := s.hs.log, logNext := s.hs.logNext } = s.hs ∧
  (t.port (otherPort p)).linkUp = (s.port (otherPort p)).linkUp ∧ (t.port (otherPort p)).quiesced = (s.port (otherPort p)).quiesced

/-- R381: what PERSTx_N, a function-level reset, a link down and D3hot each do to the partitions and to the rest of the module,
where nothing of the port's that would be abandoned (R367) is in hand; D3hot of a function that is there already changes nothing. -/
def Obligations.HostLost : Prop := ∀ (p : PortId) (s : State), s.running = true → NoneInHand p s →
  (∃ t, exec (.perstAssert p) s = .next t ∧ HostGone p s t) ∧
  ((s.port p).linkUp = true → ∃ t, exec (.functionLevelReset p) s = .next t ∧ HostGone p s t) ∧
  ((s.port p).linkUp = true → ∃ t, exec (.pcieLinkDown p) s = .next t ∧ HostGone p s t) ∧
  ((s.port p).linkUp = true → (s.port p).d3 = false → ∃ t, exec (.d3hotEntry p) s = .next t ∧ HostGone p s t) ∧
  ((s.port p).d3 = true → exec (.d3hotEntry p) s = .next s)

/-- R456: "TRST_N resets the IEEE 1149.1 test access ports of every die and nothing else", of which the model holds that
the pin is asserted (log 29); while it is, a JTAG break request does nothing. R131, R134: else the request makes Debug (vector 15)
pending in a core that does not run or is between a branch and its delay bundle; where the core runs at a boundary with nothing
immediate pending, in TWAIT or not, it enters Debug at once. -/
def Obligations.TestAccessAndDebug : Prop := ∀ (c : CoreId) (q : Nat) (s : State),
  exec .trstNAssert s = .next { s with power := { s.power with trst := true } } ∧
  (s.power.trst = true → exec (.jtagBreak c) s = .next s) ∧
  (s.running = true → s.power.rails = true → s.power.trst = false → (s.core c).part = some q →
    (s.coreRuns c = none ∨ (s.core c).delay.isSome = true → ∃ t, exec (.jtagBreak c) s = .next t ∧ 15 ∈ (t.core c).pend.imm ∧
      { t.core c with pend := (s.core c).pend } = s.core c ∧
      { (t.core c).pend with imm := (s.core c).pend.imm } = (s.core c).pend ∧
      (∀ i, i ≠ c.val → t.core i = s.core i) ∧ { t with cores := s.cores } = s) ∧
    (s.coreRuns c = some q → (s.core c).delay = none → (s.core c).branchOnly = false → (s.core c).vload = false →
      (s.core c).pend.imm = [] → (s.core c).storeErr = [] → entryFail 15 (s.core c) = 0 →
      ∃ t, exec (.jtagBreak c) s = .next t ∧ (t.core c).pc = ((s.core c).word (entryWord 15)).data.toNat ∧
        (t.core c).pend = (s.core c).pend ∧ (t.core c).twait = false ∧
        (∀ i, i ≠ c.val → t.core i = s.core i) ∧ { t with cores := s.cores } = s))

/-- R353, R425: what the fencing of die d does: the partitions that hold a group on it leave RUNNING, CONFIGURED or STOPPED for
FAULTED with DIE_ABSENT (0x08), whatever they replay, the others keep their state; the tiles and jobs of its cores are lost
(R242); health READY becomes DEGRADED (R424). -/
def DieFenced (d : Nat) (s t : State) : Prop :=
  (t.die d).fenced = true ∧ { t.die d with fenced := (s.die d).fenced, bulk := (s.die d).bulk } = s.die d ∧
  (∀ e, e ≠ d → { t.die e with bulk := (s.die e).bulk } = s.die e) ∧
  (∀ c, dieOfCore c = d → (t.core c).tiles = [] ∧ (t.core c).entries = [] ∧ (t.core c).jobs = Jobs.reset) ∧
  (s.hs.health = .ready → t.hs.health = .degraded) ∧ (s.hs.health ≠ .ready → d < 12 → t.hs.health = s.hs.health) ∧
  (∀ q, q < 16 → (s.part q).onDie d = true → (s.part q).st ≠ .empty →
    (t.part q).st = .faulted ∧ (t.part q).stopStat = 0x08) ∧
  (∀ q, q < 16 → (s.part q).onDie d = false → t.part q = s.part q) ∧
  t.flash = s.flash ∧ t.hbm = s.hbm ∧ t.beds = s.beds ∧ t.hbms = s.hbms ∧ t.lanes = s.lanes ∧ t.links = s.links ∧
  t.power = s.power ∧ t.pending = s.pending ∧ t.out = s.out ∧ t.free = s.free

/-- What R424 says entry to FAILED does: the RUNNING partitions are FAULTED with DIE_ABSENT (0x08), the others keep their state. -/
def Failed (s t : State) : Prop :=
  t.hs.health = .failed ∧
  (∀ q, q < 16 → (s.part q).st = .running → (t.part q).st = .faulted ∧ (t.part q).stopStat = 0x08) ∧
  (∀ q, (s.part q).st ≠ .running → t.part q = s.part q)

/-- R451: the outcome of a loss of lock by the clock lost. -/
def LossOfLockRule : Prop := ∀ s : State, s.running = true →
  (∀ d : DieId, (s.die d).fenced = false →
    (∃ t, exec (.lossOfLock (.cclk d)) s = .next t ∧ DieFenced d s t) ∧
    (∃ t, exec (.lossOfLock (.mclk d)) s = .next t ∧ DieFenced d s t) ∧
    (∃ t, exec (.lossOfLock (.tclk d)) s = .next t ∧ DieFenced d s t)) ∧
  (∀ b : BedId, (∃ t, exec (.lossOfLock (.bclk b)) s = .next t ∧ Failed s t) ∧
    (∃ t, exec (.lossOfLock (.xclk b)) s = .next t ∧ Failed s t)) ∧
  (∀ k : StackId, ∃ t, exec (.lossOfLock (.hclk k)) s = .next t ∧ Failed s t) ∧
  (∀ c : ClockRef, c = .kclk ∨ c = .qclk ∨ c = .eclk ∨ c = .refclk → ∃ t, exec (.lossOfLock c) s = .next t ∧ Failed s t) ∧
  (∀ p : PortId, (s.port p).linkUp = true → ∃ t, exec (.lossOfLock (.pclk p)) s = .next t ∧
    PortAtReset (t.port p) ∧ (NoneInHand p s → HostGone p s t) ∧ (t.port p).linkUp = false)

/-- R425: a compute die that resets on its own is fenced. -/
def ComputeDieResetRule : Prop := ∀ (d : DieId) (s : State), s.running = true → s.power.rails = true →
  (s.die d).up = true → (s.die d).fenced = false → ∃ t, exec (.computeDieReset d) s = .next t ∧ DieFenced d s t

/-- R425, R451: a clock's loss of lock, by the clock, and a compute die that resets on its own. -/
def Obligations.LossOfDies : Prop := LossOfLockRule ∧ ComputeDieResetRule

/-- R464 and R465: a power sample enters the averages; each die's STEP changes by at most one and stays within 0 to 6; a P100
above 2,300 W trips the module with cause 0x04, and nothing but the supply's registers, ALERT and what a trip does changes. -/
def PowerSampleRule : Prop := ∀ (w v : Nat) (s : State), s.running = true → ∃ t,
  exec (.powerSample w v) s = .next t ∧
  t.power.hist = (w :: s.power.hist).take 1000 ∧ t.power.vin = v % 65536 ∧
  (∀ d, d < 12 → t.power.stepOf d = s.power.stepOf d ∨ t.power.stepOf d + 1 = s.power.stepOf d ∨
    (t.power.stepOf d = s.power.stepOf d + 1 ∧ t.power.stepOf d ≤ 6)) ∧
  (s.power.trip = false → 2300 * 10 < ((w :: s.power.hist).take 10).sum →
    t.power.trip = true ∧ t.power.tripCause = 4 ∧ t.power.tripSrc = 0x20 ∧ Failed s t) ∧
  (t.power.trip = s.power.trip → { t with power := s.power, mgmt := s.mgmt } = s)

/-- R464 and R465: a junction sample is held for its die; at 110 °C or above it trips the module with cause 0x02 and the die as
its source. -/
def JunctionSampleRule : Prop := ∀ (d : DieId) (x : Int) (s : State), s.running = true → s.power.rails = true → ∃ t,
  exec (.junctionSample d x) s = .next t ∧ SMap.get 0 d t.power.junc = x ∧
  (∀ e, e ≠ d.val → SMap.get 0 e t.power.junc = SMap.get 0 e s.power.junc ∧ t.power.stepOf e = s.power.stepOf e) ∧
  (s.power.trip = false → 110 ≤ x → t.power.trip = true ∧ t.power.tripCause = 2 ∧ t.power.tripSrc = d ∧ Failed s t) ∧
  (x < 110 → { t with power := s.power, mgmt := s.mgmt } = s)

/-- R466 step 3: after a trip the rails of the compute dies, bed dies and stacks are off, and what they held is gone; the
headstock, its ports, the fault log and the boot flash stay powered. -/
def RailsOffRule : Prop := ∀ s : State, s.power.trip = true → s.power.rails = true → ∃ t,
  exec .railSwitchOff s = .next t ∧ t.power = { s.power with rails := false } ∧
  (∀ c, t.core c = Core.reset) ∧ (∀ d, t.die d = Die.reset) ∧ (∀ b, t.bed b = Bed.reset) ∧ (∀ k, t.stack k = Stack.reset) ∧
  (∀ a, t.hbm.byte a = 0) ∧ t.hs = s.hs ∧ t.portA = s.portA ∧ t.portB = s.portB ∧ t.parts = s.parts ∧ t.flash = s.flash ∧
  t.chat = s.chat ∧ t.mgmt = s.mgmt ∧ t.lanes = s.lanes ∧ t.links = s.links ∧ t.pending = s.pending ∧ t.out = s.out

/-- R464 to R466: a power sample, a junction sample, and the rails that go off after a trip. -/
def Obligations.PowerManager : Prop := PowerSampleRule ∧ JunctionSampleRule ∧ RailsOffRule

/-- Nothing outside core c differs. -/
def OnlyCore (c : Nat) (s t : State) : Prop := (∀ i, i ≠ c → t.core i = s.core i) ∧ { t with cores := s.cores } = s

/-- R139: the frame of an exception stands in core y from word index b on, core x being as the exception found it. -/
def FrameStands (e : Exc) (savefail b : Nat) (x y : Core) : Prop :=
  let w := fun i => y.word (b + i)
  w 0 = ⟨BitVec.ofNat 64 (e.pc % 2 ^ 17), 8⟩ ∧ w 1 = ⟨x.status, 9⟩ ∧
  (w 2).tag = 0 ∧ wf64 (w 2).data 7 0 = e.vec % 256 ∧ wf64 (w 2).data 10 8 = e.slot % 8 ∧ wf64 (w 2).data 12 11 = e.opnd % 4 ∧
  wbit (w 2).data 13 = e.ds ∧ wbit (w 2).data 14 = e.tw ∧ wbit (w 2).data 15 = e.le ∧ wf64 (w 2).data 23 16 = e.sub % 256 ∧
  wf64 (w 2).data 31 24 = savefail ∧ wf64 (w 2).data 63 32 = 0 ∧
  w 3 = .int (BitVec.ofNat 64 e.ea) ∧ w 4 = .int (BitVec.ofNat 64 e.syll) ∧ w 5 = .int x.loopIn ∧ w 6 = .int x.loopOut ∧
  w 7 = .int (BitVec.ofNat 64 x.tu.turn) ∧ (∀ i, i < 8 → w (8 + i) = x.areg (8 + i))

/-- R138, R139: an entry whose checks pass. Word index k of descriptor entry v is `entryWord v + k`. R148: an entry that fails a
check leaves its frame and the halt words in the rescue area and halts the core with cause 0x01. -/
def Obligations.ExceptionEntry : Prop := ∀ (e : Exc) (x : Core),
  let y := enterCore e x
  (entryFail e.vec x = 0 →
    let d := fun i => x.word (entryWord e.vec + i)
    let sp := (entrySp e.vec x).data
    let b := (sp.toNat - 128) / 8
    FrameStands e 0 b x y ∧
    (∀ w, w < b ∨ b + 16 ≤ w → y.word w = x.word w) ∧
    y.areg 15 = ⟨sp - 128, 5⟩ ∧ y.areg 14 = d 3 ∧ (∀ r, r < 14 → y.areg r = x.areg r) ∧
    y.sup = ctlPl (d 2).data ∧ wbit y.status 11 = false ∧ y.niw = decide (0 < ctlNi (d 2).data) ∧
    wf64 y.status 63 48 = wf64 x.status 63 48 ∧ y.niLeft = 16 * ctlNi (d 2).data ∧ y.niOvt = ctlOvt (d 2).data ∧
    lpActive y.loopIn = false ∧ lpActive y.loopOut = false ∧ y.pc = (d 0).data.toNat ∧ y.twait = false ∧ y.delay = none ∧
    { y with store := x.store, storeErr := x.storeErr, a := x.a, status := x.status, niLeft := x.niLeft, niOvt := x.niOvt,
             loopIn := x.loopIn, loopOut := x.loopOut, pc := x.pc, delay := x.delay, branchOnly := x.branchOnly, twait := x.twait,
             vload := x.vload, far := x.far } = x) ∧
  (entryFail e.vec x ≠ 0 →
    let r := fun i => y.word (rescueWord + i)
    FrameStands e (entryFail e.vec x) rescueWord x y ∧
    (∀ i, i < 16 → r (16 + i) = x.areg i) ∧ r 32 = ⟨BitVec.ofNat 64 (x.pc % 2 ^ 17), 8⟩ ∧ r 33 = ⟨x.status, 9⟩ ∧
    r 34 = .int x.loopIn ∧ r 35 = .int x.loopOut ∧ r 36 = .int (BitVec.ofNat 64 x.tu.turn) ∧
    r 37 = .int (BitVec.ofNat 64 (e.vec * 256 + 1)) ∧
    (∀ w, w < rescueWord ∨ rescueWord + 48 ≤ w → y.word w = x.word w) ∧
    y.halt = 1 ∧ y.haltVec = e.vec ∧ y.haltNote = true ∧
    { y with store := x.store, storeErr := x.storeErr, halt := x.halt, haltVec := x.haltVec, haltNote := x.haltNote,
             niLeft := x.niLeft, delay := x.delay } = x)

/-- R146: what the end of RTE's delay bundle does with the sixteen frame words. -/
def Obligations.ReturnFromException : Prop := ∀ (ws : List TWord) (x : Core), ws.length = 16 →
  let y := rteCore ws x
  let w := fun i => (ws.getD i TWord.zero)
  y.sup = wbit (w 1).data 8 ∧ y.niw = false ∧ wbit y.status 11 = wbit (w 1).data 11 ∧
  wf64 y.status 63 48 = wf64 (w 1).data 63 48 ∧ y.niLeft = 0 ∧ y.loopIn = (w 5).data ∧ y.loopOut = (w 6).data ∧
  (∀ i, i < 8 → y.areg (8 + i) = w (8 + i)) ∧ (∀ r, r < 8 → y.areg r = x.areg r) ∧
  y.pc = (w 0).data.toNat % 2 ^ 17 ∧
  (wbit (w 2).data 14 = true → y.twait = true ∧ y.branchOnly = false) ∧
  (wbit (w 2).data 14 = false → y.twait = x.twait ∧ y.branchOnly = wbit (w 2).data 13) ∧
  { y with a := x.a, status := x.status, niLeft := x.niLeft, loopIn := x.loopIn, loopOut := x.loopOut, pc := x.pc,
           twait := x.twait, branchOnly := x.branchOnly } = x

/-- R138, R139, R145 and R146 together: a handler that changes no frame word and returns at once resumes the interrupted code
with every address register, both loop levels, and STATUS but for NIW, as the exception found them. -/
def Obligations.ExceptionRoundTrip : Prop := ∀ (e : Exc) (x : Core), entryFail e.vec x = 0 → e.pc < 2 ^ 17 →
  x.status = mkStatus (wf64 x.status 63 48) (wbit x.status 11) x.niw x.sup →
  let y := enterCore e x
  let z := rteCore (y.twords (y.areg 15).data.toNat 16) y
  (∀ r, r < 16 → z.areg r = x.areg r) ∧ z.loopIn = x.loopIn ∧ z.loopOut = x.loopOut ∧
  z.status = mkStatus (wf64 x.status 63 48) (wbit x.status 11) false x.sup ∧ z.pc = e.pc ∧ z.twait = e.tw ∧
  z.branchOnly = (e.ds && !e.tw)

/-- R127: a write of STATUS. -/
def Obligations.StatusWrite : Prop := ∀ (v : Word) (x : Core),
  let y := writeStatus v x
  y.sup = wbit v 8 ∧ wbit y.status 11 = wbit v 11 ∧ y.niw = (x.niw && !wbit v 10) ∧ wf64 y.status 63 48 = wf64 v 63 48 ∧
  wf64 y.status 7 0 = 0 ∧ wbit y.status 9 = false ∧ wf64 y.status 47 12 = 0 ∧
  (wbit v 10 = true → y.niLeft = 0) ∧ (wbit v 10 = false → y.niLeft = x.niLeft) ∧
  { y with status := x.status, niLeft := x.niLeft } = x

/-- Core c runs for partition q, holds no error in what a bundle reads, and nothing is to be delivered at its boundary. -/
def ReadyToIssue (c q : Nat) (s : State) : Prop :=
  s.coreRuns c = some q ∧ (s.core c).twait = false ∧ (s.core c).ctlErr = false ∧ (s.core c).bundleErr = [] ∧
  (s.core c).storeErr = [] ∧ (s.core c).vfErr = [] ∧ deliver c s = none

/-- The lookups of the far addresses that a bundle's evaluation translated have been made (R314, R321). -/
def lookedUp (c : CoreId) (q : Nat) (r : BunR) (s : State) : State := lookupAll (.core c) q r.lookups s

/-- R94, R134, R137, R164: after the upsets that come with the command (log 3), a bundle commits whole, or takes its exception, or
waits at issue for the far lines that it asks for, or, holding a vector load, waits for its fault point, at which it does one of
the first three. -/
def Obligations.BundleIssue : Prop := ∀ (c : CoreId) (q : Nat) (env : Env) (s₀ : State),
  let s := applyUpsets env.upsets s₀
  ReadyToIssue c q s →
  ((s.core c).vload = false →
    (∀ e next, evalBundle c q false s = (.exc e, next) →
      exec (.bundleIssue c env) s₀ = .next (enter c e (lookedUp c q (.exc e) s))) ∧
    (∀ ns mig next, evalBundle c q false s = (.wait ns mig, next) → exec (.bundleIssue c env) s₀ =
      .next ((requestLines c q ns (lookedUp c q (.wait ns mig) s)).updCore c fun x => { x with mig := mig })) ∧
    (∀ fx next, evalBundle c q false s = (.issue fx false, next) →
      exec (.bundleIssue c env) s₀ = .next (commit c q next fx (lookedUp c q (.issue fx false) s))) ∧
    (∀ fx next, evalBundle c q false s = (.issue fx true, next) → exec (.bundleIssue c env) s₀ =
      .next ((lookedUp c q (.issue fx true) s).updCore c fun x => { x with vload := true, mig := false }))) ∧
  ((s.core c).vload = true →
    (∀ e next, evalBundle c q true s = (.exc e, next) →
      exec (.vectorLoadFaultPoint c env) s₀ = .next (enter c e (lookedUp c q (.exc e) s))) ∧
    (∀ ns mig next, evalBundle c q true s = (.wait ns mig, next) → exec (.vectorLoadFaultPoint c env) s₀ =
      .next ((requestLines c q ns (lookedUp c q (.wait ns mig) s)).updCore c fun x => { x with mig := mig })) ∧
    (∀ fx load next, evalBundle c q true s = (.issue fx load, next) →
      exec (.vectorLoadFaultPoint c env) s₀ = .next (commit c q next fx (lookedUp c q (.issue fx load) s))))

/-- R93, R94: a bundle whose one effect is the write of an address register, or of a core-store word, outside every loop and
delay slot: it writes that, goes on at the next bundle, and changes nothing else of the module but the core's cycle count and
window, its record of errors in the word it writes, and what its issue latched. -/
def BundleCommitRule : Prop := ∀ (c q next : Nat) (s : State),
  (s.core c).delay = none → lpActive (s.core c).loopIn = false → lpActive (s.core c).loopOut = false →
  let x := s.core c
  (∀ r v, let t := commit c q next [.areg r v] s
    let y := t.core c
    y.areg r = v ∧ (∀ i, i ≠ r → y.areg i = x.areg i) ∧ y.pc = next ∧ y.delay = none ∧ t.free = s.free + 1 ∧
    { y with a := x.a, pc := x.pc, cycle := x.cycle, niLeft := x.niLeft, branchOnly := x.branchOnly, vload := x.vload, mig := x.mig, far := x.far } = x ∧
    (∀ i, i ≠ c → t.core i = s.core i) ∧ { t with cores := s.cores, free := s.free } = s) ∧
  (∀ w v, let t := commit c q next [.word w v] s
    let y := t.core c
    y.word w = v ∧ (∀ i, i ≠ w → y.word i = x.word i) ∧ y.pc = next ∧ y.delay = none ∧ t.free = s.free + 1 ∧
    SMap.get CwErr.none w y.storeErr = CwErr.none ∧
    (∀ i, i ≠ w → SMap.get CwErr.none i y.storeErr = SMap.get CwErr.none i x.storeErr) ∧
    { y with store := x.store, storeErr := x.storeErr, pc := x.pc, cycle := x.cycle, niLeft := x.niLeft,
             branchOnly := x.branchOnly, vload := x.vload, mig := x.mig, far := x.far } = x ∧
    (∀ i, i ≠ c → t.core i = s.core i) ∧ { t with cores := s.cores, free := s.free } = s)

/-- R90, R92, R107, R108, R141: a scalar ALU instruction on three core-store words in short absolute mode that no action
holds: its result, or the exception with the effective address of the operand at fault. -/
def ScalarAluRule : Prop := ∀ (cx : Cx) (fx : List Fx) (y : Syll) (o : AluOp) (k l : Cls),
  (Op.alu o).cols y = [.dst, .src k, .src l] → (y.spec 1).mode = 5 → (y.spec 2).mode = 5 → (y.spec 3).mode = 5 →
  let i := (y.spec 1).bits % 4096
  let m := (y.spec 2).bits % 4096
  let n := (y.spec 3).bits % 4096
  let a := cx.x.word m
  let b := cx.x.word n
  hits cx.x.heldRanges (8 * i) 8 = false → hits cx.x.heldWritten (8 * m) 8 = false → hits cx.x.heldWritten (8 * n) 8 = false →
  (classFault k a = none → classFault l b = none → o.pairOk a.tag b.tag = true →
    (o.divides = true → b.data ≠ 0) → ∀ v, aluResult o (cx.x.word i) a b = some v →
      evalScalar cx fx y (.alu o) = .ok ⟨[.word i v], [], false⟩) ∧
  (∀ e, classFault k a = some e → evalScalar cx fx y (.alu o) = .error (.exc e.1 e.2 (8 * m) 2)) ∧
  (∀ e, classFault k a = none → classFault l b = some e → evalScalar cx fx y (.alu o) = .error (.exc e.1 e.2 (8 * n) 3)) ∧
  (classFault k a = none → classFault l b = none → o.pairOk a.tag b.tag = true → o.divides = true → b.data = 0 →
    evalScalar cx fx y (.alu o) = .error (.exc 12 0 0 0))

/-- R91, R112: AADD and ASUB on address registers. -/
def AddressArithmeticRule : Prop := ∀ (cx : Cx) (fx : List Fx) (y : Syll),
  (y.spec 1).mode = 7 → (y.spec 2).mode = 7 → (y.spec 3).mode = 7 →
  let a := cx.x.areg (y.spec 2).r
  let b := cx.x.areg (y.spec 3).r
  (a.tag = 5 → b.tag = 0 →
    evalScalar cx fx y (.s2 .aadd) = .ok ⟨[.areg (y.spec 1).r ⟨a.data + b.data, 5⟩], [], false⟩ ∧
    evalScalar cx fx y (.s2 .asub) = .ok ⟨[.areg (y.spec 1).r ⟨a.data - b.data, 5⟩], [], false⟩) ∧
  (a.tag ≠ 5 → a.tag ≠ tagPoison →
    evalScalar cx fx y (.s2 .aadd) = .error (.exc 0 0 0 2) ∧ evalScalar cx fx y (.s2 .asub) = .error (.exc 0 0 0 2))

/-- R90 to R94, R107, R108, R112: what scalar instructions write, and the commit of a bundle that writes one register or word. -/
def Obligations.ScalarBundles : Prop := BundleCommitRule ∧ ScalarAluRule ∧ AddressArithmeticRule

/-- R134, R187: a faulted vector run or program is delivered at TWAIT as vector 6, with TW set and no slot. -/
def Obligations.OwnActionDelivery : Prop := ∀ (c : CoreId) (q sub : Nat) (a : Word) (s : State), s.coreRuns c = some q →
  (s.core c).twait = true → (s.core c).tu.done = false → (s.core c).pend.imm = [] → (s.core c).delay = none →
  (s.core c).branchOnly = false →
  (s.core c).pend.vfault = some (sub, a) → (s.core c).storeErr = [] → entryFail 6 (s.core c) = 0 →
  ∃ t, exec (.ownActionDelivery c) s = .next t ∧ OnlyCore c s t ∧
    (t.core c).pend = { (s.core c).pend with vfault := none } ∧ (t.core c).twait = false ∧
    (t.core c).pc = ((s.core c).word (entryWord 6)).data.toNat ∧
    FrameStands ⟨6, sub, a.toNat, 0, 7, 0, (s.core c).pc, false, true, false⟩ 0
      (((entrySp 6 (s.core c)).data.toNat - 128) / 8) (s.core c) (t.core c)

/-- What a stop of partition q within its turn leaves (R338, R361), where q runs no replay: state, stop status, the turn marked
incomplete, every other partition as it was, and of the module only what `State.StopOnly` names. -/
def StoppedWithin (q : Nat) (st : PartSt) (stat : Nat) (s t : State) : Prop :=
  (t.part q).st = st ∧ (t.part q).stopStat = stat ∧ (t.part q).incomplete = true ∧ (t.part q).turn = (s.part q).turn ∧
  (t.part q).how = .within ∧ (∀ i, i ≠ q → t.part i = s.part i) ∧ State.StopOnly s t

/-- A stop of partition q makes no fault-log entry but its own: no fault of a pass or drain waits for its delivery, and no move has
zeroed a word (R247, R268). -/
def QuietStop (q : Nat) (s : State) : Prop :=
  (∀ c ∈ (s.part q).phys, (s.core c).pend.mfaults = [] ∧ ∀ j ∈ (s.core c).jobs.moves, j.zeroT = 0 ∧ j.zeroP = 0) ∧
  ∀ d, ∀ j ∈ (s.bulkOf d q).moves, j.zeroT = 0 ∧ j.zeroP = 0

/-- R143: a window that runs out closes at once: NIW 0, WO 1, nothing else of the core changed, and its report is on the way; with
CONTROL.OVT, a core at a boundary with nothing immediate pending enters Window Overrun (vector 11). With the report made, the
firmware stops the partition, FAULTED with BOUND_EXCEEDED (0x0B). -/
def WindowOverrunRule : Prop := ∀ (c : CoreId) (q : Nat) (s : State),
  let x := s.core c
  (s.coreRuns c = some q → x.overrun = false → x.niw = true → x.niLeft = 0 →
    (x.niOvt = false → ∃ t, exec (.windowOverrun c) s = .next t ∧ OnlyCore c s t ∧
      (t.core c).niw = false ∧ wbit (t.core c).status 11 = true ∧ (t.core c).sup = x.sup ∧
      wf64 (t.core c).status 63 48 = wf64 x.status 63 48 ∧ (t.core c).overrun = true ∧
      { t.core c with status := x.status, overrun := false } = x) ∧
    (x.niOvt = true → x.delay = none → x.branchOnly = false → x.vload = false → x.pend.imm = [] → x.storeErr = [] →
      entryFail 11 x = 0 → ∃ t, exec (.windowOverrun c) s = .next t ∧ OnlyCore c s t ∧
        (t.core c).pc = (x.word (entryWord 11)).data.toNat ∧ (t.core c).overrun = true ∧ (t.core c).pend = x.pend)) ∧
  (x.part = some q → (s.part q).st = .running → (s.part q).replay = none → x.tu.turn ≠ 0 → x.overrun = true →
    ∃ t, exec (.windowOverrun c) s = .next t ∧ StoppedWithin q .faulted 0x0B s t ∧ (t.core c).overrun = false)

/-- R149, R423: the halt notice of a core makes entry 0x0010 at the log's next index, and for a save failure or a machine check
its RUNNING partition is FAULTED; else the partition stays. -/
def HaltNoticeRule : Prop := ∀ (c : CoreId) (q : Nat) (s : State), s.hs.fwRun = true → (s.core c).haltNote = true →
  (s.core c).part = some q →
  ∃ t, exec (.haltNotice c) s = .next t ∧ (t.core c).haltNote = false ∧ (t.core c).halt = (s.core c).halt ∧
    (QuietStop q s → ∃ l, SMap.get none s.hs.logNext t.hs.log = some l ∧ l.code = 0x0010 ∧ l.part = some q ∧ l.src = dieOfCore c ∧
      l.addr = (s.core c).pc ∧ l.unit = (s.core c).lcore ∧ l.turn = (s.part q).turn ∧ l.refcyc = s.hs.refcyc) ∧
    t.hs.health = s.hs.health ∧
    ((s.part q).st = .running → (s.part q).replay = none → (s.core c).halt = 1 ∨ (s.core c).halt = 3 →
      (t.part q).st = .faulted ∧ (t.part q).stopStat = 0x02 ∧ (t.part q).incomplete = true) ∧
    ((s.core c).halt ≠ 1 → (s.core c).halt ≠ 3 → ∀ i, t.part i = s.part i)

/-- R77, R78: the patrol scrub reads one word of each bank in address order; where none of them holds an error it changes
nothing but its own place. -/
def PatrolScrubRule : Prop := ∀ (c : CoreId) (env : Env) (s₀ : State),
  let s := applyUpsets env.upsets s₀
  (s.die (dieOfCore c)).up = true →
  ∃ t, exec (.patrolScrub c env) s₀ = .next t ∧ (t.core c).scrub = ((s.core c).scrub + 1) % 32768 ∧
    (∀ w, w < (s.core c).scrub * 16 ∨ (s.core c).scrub * 16 + 16 ≤ w → (t.core c).word w = (s.core c).word w) ∧
    (∀ i, i < 16 → SMap.get CwErr.none ((s.core c).scrub * 16 + i) (t.core c).storeErr = CwErr.none) ∧
    (∀ i, i < 16 → (SMap.get CwErr.none ((s.core c).scrub * 16 + i) (s.core c).storeErr).bad = false →
      (t.core c).word ((s.core c).scrub * 16 + i) = (s.core c).word ((s.core c).scrub * 16 + i)) ∧
    ((∀ i, i < 16 → SMap.get CwErr.none ((s.core c).scrub * 16 + i) (s.core c).storeErr = CwErr.none) →
      (t.core c) = { s.core c with scrub := (t.core c).scrub } ∧ OnlyCore c s t)

/-- R77, R78, R143, R149, R423: what a core does of its own: a window that runs out, the notice of its halt, and its patrol scrub. -/
def Obligations.CoreNotices : Prop := WindowOverrunRule ∧ HaltNoticeRule ∧ PatrolScrubRule

/-- R41, R42, R60, R427: a unit that has nothing left to do in the turn reports turn done; the last report completes the turn, so
that its posts are closed and, where a record is open, a turn end waits to be written; a module that is not the master's then
forwards the count of its units. -/
def Obligations.TurnDone : Prop := ∀ (q : PartId) (u : UnitRef) (s : State),
  let p := s.part q
  let n := unitTu q u s
  (unitReady q u s = false → exec (.turnDone q u) s = .next s) ∧
  (p.st = .running → p.units.contains u = true → n.done = false → 1 ≤ n.turn → n.turn = p.turn → unitReady q u s = true →
    ∃ t, exec (.turnDone q u) s = .next t ∧ unitTu q u t = { n with done := true } ∧
      (∀ v, v ≠ u → unitTu q v t = unitTu q v s) ∧
      (t.part q).st = .running ∧ (t.part q).turn = p.turn ∧ (t.part q).spurTo = p.spurTo ∧ (∀ i, i ≠ q.val → t.part i = s.part i) ∧
      ((∃ v, p.units.contains v = true ∧ v ≠ u ∧ (unitTu q v s).done = false) →
        (t.part q).posts = p.posts ∧ (t.part q).turnEnds = p.turnEnds ∧ (t.part q).mon = p.mon ∧ t.out = s.out ∧
        { t with parts := s.parts, cores := s.cores, dies := s.dies, hbms := s.hbms } = s) ∧
      ((∀ v, p.units.contains v = true → v ≠ u → (unitTu q v s).done = true) →
        (t.part q).posts = [] ∧ (p.recd.isOpen = false → p.replay = none → (t.part q).turnEnds = p.turnEnds) ∧
        (p.recd.isOpen = true → ∃ e, (t.part q).turnEnds = p.turnEnds ++ [e] ∧ e.turn = p.turn ∧ e.incomplete = false) ∧
        (p.member = 0 → t.out = s.out) ∧ (p.member ≠ 0 → t.out = s.out ++ [.spanDone q p.turn p.units.length]) ∧
        (p.mon.montab = 0 →
          { t with parts := s.parts, cores := s.cores, dies := s.dies, hbms := s.hbms, out := s.out } = s)))

/-- A partition stopped where no unit acts by the PART_STOP of mailbox r (R59, R372, R397): what is under way of its streams'
fetches is dropped. -/
def StoppedAt (q : Nat) (how : StopHow) (r : PortId × Nat) (s t : State) : Prop :=
  t.part q = { (s.part q).noFetch with st := .stopped, incomplete := false, how := how, stopReq := none } ∧
  (∃ b, (t.mbx r.1 r.2).result = some b ∧ b.status = 0 ∧ leNat (b.data.take 8) = (s.part q).turn % 2 ^ 64) ∧
  (∀ i, i ≠ q → t.part i = s.part i) ∧ { t with parts := s.parts, portA := s.portA, portB := s.portB } = s

/-- What comes to the turn master of a partition: nothing more where it has one module, else the counts of every other member
(R42, R60). -/
def ToMaster (p : Part) (sp : SpanTurn) : Prop := (p.span ≤ 1 ∧ sp = .alone) ∨ (1 < p.span ∧ p.member = 0 ∧ sp = .counts)

/-- A boundary at which nothing waits to take effect, and no block of turns begins (R45, R49, R54, R320, R399, R405). -/
def PlainBoundary (p : Part) : Prop :=
  p.replay = none ∧ p.recNext = none ∧ p.changes = [] ∧ p.seedNext = none ∧ 1 ≤ p.turn ∧ (p.turn + 1) % 16384 ≠ 0

/-- What a spur broadcast at such a boundary leaves: the next turn, on its way to every unit of this module. -/
def Broadcasts (q : Nat) (s t : State) : Prop :=
  let p := s.part q
  t.part q = { p with turn := p.turn + 1, caps := p.capsNext.getD p.caps, capsNext := none, recd := { p.recd with lines := [] }
                      mon := { p.mon with flags := p.mon.flags.filter fun n => decide (p.turn ≤ n) }, spurTo := p.units } ∧
  (∀ i, i ≠ q → t.part i = s.part i) ∧ { t with parts := s.parts, out := s.out } = s

/-- R45, R47, R54, R59, R60: what the turn master does once every unit of the partition has reported. -/
def MasterSpurRule : Prop := ∀ (q : PartId) (sp : SpanTurn) (s : State),
  let p := s.part q
  ToMaster p sp →
  (p.st ≠ .running ∨ p.spurTo ≠ [] ∨ turnComplete q s = false → exec (.spurBroadcast ⟨q, sp⟩) s = .next s) ∧
  (p.st = .running → p.spurTo = [] → turnComplete q s = true →
    (∀ r, p.stopReq = some r → p.mon.logQ = [] →
      ∃ t, exec (.spurBroadcast ⟨q, sp⟩) s = .next t ∧ StoppedAt q .boundary r s t) ∧
    (p.stopReq = none → p.turn ≠ 2 ^ 48 - 2 → spurHeld q s = true → exec (.spurBroadcast ⟨q, sp⟩) s = .next s) ∧
    (p.stopReq = none → p.turn = 2 ^ 48 - 2 → ∃ t, exec (.spurBroadcast ⟨q, sp⟩) s = .next t ∧
      (t.part q).st = .stopped ∧ (t.part q).stopStat = 0x02 ∧ (t.part q).incomplete = true ∧ (t.part q).turn = p.turn) ∧
    (p.stopReq = none → p.turn ≠ 2 ^ 48 - 2 → spurHeld q s = false → PlainBoundary p →
      ∃ t, exec (.spurBroadcast ⟨q, sp⟩) s = .next t ∧ Broadcasts q s t ∧
        t.out = s.out ++ if 1 < p.span then [.spanSpur q (p.turn + 1)] else []))

/-- R44, R60, R460: on another member the relay broadcasts the master's spur, and a start makes the partition RUNNING. -/
def RelayRule : Prop := ∀ (q : PartId) (s : State),
  let p := s.part q
  1 < p.span → p.member ≠ 0 →
  (p.st = .running → p.spurTo = [] → turnComplete q s = true → PlainBoundary p →
    ∃ t, exec (.spurBroadcast ⟨q, .spur (p.turn + 1)⟩) s = .next t ∧ Broadcasts q s t ∧ t.out = s.out) ∧
  (turnComplete q s = false → exec (.spurBroadcast ⟨q, .spur (p.turn + 1)⟩) s = .next s) ∧
  (∀ (c : PartCfg) (l : List SpanAnswer), p.cfg = some c → p.st = .configured ∨ p.st = .stopped → startRefusal p = none →
    handshakeOk c p.turn l = true → ∃ t, exec (.spurBroadcast ⟨q, .start l⟩) s = .next t ∧
      (t.part q).st = .running ∧ (t.part q).stopStat = 0 ∧ (t.part q).turn = p.turn ∧
      (∀ i, i ≠ q.val → t.part i = s.part i) ∧ { t with parts := s.parts } = s)

/-- R43, R44, R49, R135: a spur whose turn is the unit's counter plus 1 takes effect: the counter follows, a core in TWAIT
issues again with the enabled events of the turns before held, those of the new turn left to the next spur, and its far cache drops
what is not read-only; another turn number is a Mesh Error (vector 14): entered at once by a core at a boundary, else pending. -/
def SpurReceiptRule : Prop := ∀ (q : PartId) (u : UnitRef) (turn : Nat) (s : State),
  let p := s.part q
  let n := unitTu q u s
  p.st = .running → p.units.contains u = true →
  (turn = n.turn + 1 → p.spurTo.contains u = true →
    ∃ t, exec (.spurReceipt q u turn) s = .next t ∧
      unitTu q u t = { n with turn := turn, done := false, tclk := 0, exceeded := false } ∧
      (∀ v, v ≠ u → unitTu q v t = unitTu q v s) ∧ (t.part q).spurTo = p.spurTo.filter (fun v => v != u) ∧
      (t.part q).turn = p.turn ∧ (t.part q).st = .running ∧ (∀ i, i ≠ q.val → t.part i = s.part i) ∧
      (∀ c : CoreId, u = .core c →
        let y := (s.core c).pend
        let z := (t.core c).pend
        (∀ l ∈ (t.core c).far.lines, l.2.ro = true) ∧ (t.core c).store = (s.core c).store ∧ (t.core c).a = (s.core c).a ∧
        (t.core c).twait = false ∧ z.mdone = false ∧ z.vdone = false ∧
        ((s.core c).twait = true →
          (∀ e ∈ z.events, turn ≤ e.1) ∧ (∀ e ∈ z.turnExc, turn ≤ e.1) ∧
          (∀ v k, (k, v) ∈ y.events → k < turn → (s.core c).imask v = true → v ∈ z.heldInt) ∧
          ((s.core c).imask 19 = true → 19 ∈ z.heldInt) ∧
          (∀ v ∈ z.heldInt, v ∈ y.heldInt ∨ ((s.core c).imask v = true ∧ (v = 19 ∨ v = 21 ∨ ∃ k, (k, v) ∈ y.events ∧ k < turn))) ∧
          (∀ v k, (k, v) ∈ y.turnExc → k < turn → v ∈ z.heldExc)))) ∧
  (turn = n.turn + 1 → p.spurTo.contains u = false → exec (.spurReceipt q u turn) s = .next s) ∧
  (turn ≠ n.turn + 1 → p.replay = none →
    let x := s.core (meshErrorCore q u s)
    x.storeErr = [] → ∃ t, exec (.spurReceipt q u turn) s = .next t ∧ StoppedWithin q .faulted 0x02 s t ∧
      (x.atBoundary = false ∨ x.vload = true ∨ x.halt ≠ 0 → 14 ∈ (t.core (meshErrorCore q u s)).pend.imm) ∧
      (x.atBoundary = true → x.vload = false → x.halt = 0 → x.pend.imm = [] → entryFail 14 x = 0 →
        (t.core (meshErrorCore q u s)).pc = (x.word (entryWord 14)).data.toNat))

/-- R43 to R49, R54, R59, R60, R135: the turn master's spur once every unit has reported, its relay on the other modules of a span,
and its receipt by a unit. -/
def Obligations.TurnSpur : Prop := MasterSpurRule ∧ RelayRule ∧ SpurReceiptRule

/-- R37, R39, R265, R311: the head of an arm queue waits for its turn and its counters; when it fires it leaves the queue, its
counts are subtracted, and its action begins. -/
def Obligations.ArmFire : Prop := ∀ (q : PartId) (u : UnitRef) (env : Env) (e : ArmEntry) (rest : List ArmEntry) (s₀ : State),
  let s := applyUpsets env.upsets s₀
  let n := unitTu q u s
  n.queue = e :: rest → (s.part q).st = .running → (s.part q).units.contains u = true → 1 ≤ n.turn →
  (n.turn < e.turn ∨ condsMet n e.cond = false ∨ mayFire q u e s = false → exec (.armFire q u env) s₀ = .next s) ∧
  (e.turn ≤ n.turn → condsMet n e.cond = true →
    (mayFire q u e s = true → ∃ t, exec (.armFire q u env) s₀ = .next t ∧
      unitTu q u t = { takeConds e.cond n with queue := rest }) ∧
    (∀ k : StackId, u = .reg k → e.kind = .share → ∃ t, exec (.armFire q u env) s₀ = .next t ∧
      (let g := SMap.get Regulator.reset q (s.stack k).regs
       SMap.get Regulator.reset q (t.stack k).regs = { g with
        tu := { takeConds e.cond g.tu with queue := rest }, rate := e.rate, burst := e.burst
        tokens := min g.tokens (e.burst * 2048) }) ∧
      (∀ i, i ≠ k.val → t.stack i = s.stack i) ∧ { t with hbms := s.hbms } = s) ∧
    (∀ c : CoreId, u = .mover c → e.kind = .move → (s.core c).halt = 0 → ∃ t, exec (.armFire q u env) s₀ = .next t ∧
      (t.core c).mtu = { takeConds e.cond n with queue := rest } ∧ OnlyCore c s t ∧
      (∃ j, (t.core c).jobs.moves = (s.core c).jobs.moves ++ [j] ∧ j.handle = e.handle ∧ j.turn = n.turn ∧ j.started = false)) ∧
    (∀ d : DieId, u = .bulk d → e.kind = .move → ∃ t, exec (.armFire q u env) s₀ = .next t ∧
      { t with dies := s.dies } = s ∧ (∀ i, i ≠ d.val → t.die i = s.die i) ∧
      ∃ j, (t.bulkOf d q).moves = (s.bulkOf d q).moves ++ [j] ∧ j.handle = e.handle ∧ j.turn = n.turn ∧ j.started = false) ∧
    (∀ c : CoreId, u = .core c → e.kind = .pass → (s.core c).halt = 0 → (s.core c).storeErr = [] →
      ((s.core c).jobs.passes.filter fun j => !j.started).length < 4 → passCheck (s.core c) e.handle = none →
      ∃ t, exec (.armFire q u env) s₀ = .next t ∧ (t.core c).tu = { takeConds e.cond n with queue := rest } ∧ OnlyCore c s t ∧
      (∃ j, (t.core c).jobs.passes = (s.core c).jobs.passes ++ [j] ∧ j.handle = e.handle ∧ j.turn = n.turn ∧ j.started = false ∧
        j.desc = (s.core c).words e.handle 16)))

/-- R59, R397: a stop at a quiescent point, and the stop that comes 100 ms after PART_STOP. -/
def StopPointsRule : Prop := ∀ (q : PartId) (r : PortId × Nat) (s : State), (s.part q).st = .running →
  (s.part q).stopReq = some r →
  ((s.part q).spurTo = [] → turnComplete q s = false → (∀ u, (s.part q).units.contains u = true → quiescent q u s = true) →
    ∃ t, exec (.quiescentPointStop q) s = .next t ∧ StoppedAt q .quiescent r s t) ∧
  (∃ t, exec (.partStopTimeout q) s = .next t ∧ StoppedWithin q .stopped 0x02 s t ∧
    ∃ b, (t.mbx r.1 r.2).result = some b ∧ b.status = 0 ∧ b.data.getD 8 0 = 2)

/-- R351: a unit over its limit reports, and its core takes Bound Exceeded (vector 10), at once where it stands at a boundary; with the
report made, the firmware stops the partition with BOUND_EXCEEDED, and every unit over its limit has reported by then. -/
def BoundOverrunRule : Prop := ∀ (q : PartId) (u : UnitRef) (s : State), (s.part q).units.contains u = true →
  (overBound q u s).isSome = true →
  ((unitTu q u s).exceeded = false → (∀ c, boundCore u = some c → (s.core c).storeErr = []) →
    ∃ t, exec (.boundOverrun q u) s = .next t ∧ (unitTu q u t).exceeded = true ∧ (t.part q).st = .running ∧
      { t with cores := s.cores, dies := s.dies, hbms := s.hbms, parts := s.parts } = s ∧
      ∀ c, boundCore u = some c →
        let x := s.core c
        (∀ i, i ≠ c → t.core i = s.core i) ∧
        (x.atBoundary = false ∨ x.vload = true ∨ x.halt ≠ 0 → 10 ∈ (t.core c).pend.imm) ∧
        (x.atBoundary = true → x.vload = false → x.halt = 0 → x.pend.imm = [] → entryFail 10 x = 0 →
          (t.core c).pc = (x.word (entryWord 10)).data.toNat)) ∧
  ((unitTu q u s).exceeded = true →
    ∃ t, exec (.boundOverrun q u) s = .next t ∧ (t.part q).st = .faulted ∧ (t.part q).stopStat = 0x0B ∧
      (t.part q).incomplete = true ∧ (∀ i, i ≠ q.val → t.part i = s.part i) ∧
      (∀ v c, (s.part q).units.contains v = true → (overBound q v s).isSome = true → (unitTu q v s).exceeded = false →
        boundCore v = some c → (s.core c).atBoundary = false → 10 ∈ (t.core c).pend.imm) ∧
      ((∀ v, (s.part q).units.contains v = true → (overBound q v s).isSome = true → (unitTu q v s).exceeded = true) →
        StoppedWithin q .faulted 0x0B s t))

/-- R59, R351, R397: a partition's stop at a quiescent point, 100 ms after its PART_STOP, or by a unit over its limit. -/
def Obligations.PartitionStops : Prop := StopPointsRule ∧ BoundOverrunRule
/-- R183, R187, R188, R190: the oldest run, once nothing fired before it touches its ranges, ends with its summary record, vector
20 of the turn that armed it and, where an element faulted, the fault pending if no fault of a run has been noted in this turn;
one that something holds up does nothing. -/
def Obligations.TensorRun : Prop := ∀ (c : CoreId) (q : Nat) (env : Env) (j : RunJob) (rest : List RunJob) (s₀ : State),
  let s := applyUpsets env.upsets s₀
  s.coreRuns c = some q → (s.core c).jobs.runs = j :: rest →
  ((s.core c).clearForRun j.fire (j.rd ++ j.wr) = false → exec (.tensorStreamComplete c env) s₀ = .next s) ∧
  ((s.core c).clearForRun j.fire (j.rd ++ j.wr) = true →
    let d : RunDesc := ⟨j.desc⟩
    let r := runAll c q j s
    let y := (wholeWords c (((d.tensor 3).ty).getD .i64).tag r).core c
    ∃ t, exec (.tensorStreamComplete c env) s₀ = .next t ∧
      (∀ i, i < 8 → (t.core c).word (d.saddr / 8 + i) = (summaryWords d j.turn r).getD i TWord.zero) ∧
      (∀ w, w < d.saddr / 8 ∨ d.saddr / 8 + 8 ≤ w → (t.core c).word w = y.word w) ∧
      (j.turn, 20) ∈ (t.core c).pend.events ∧ (t.core c).jobs.runs = y.jobs.runs.drop 1 ∧ (t.core c).a = y.a ∧
      (∀ e f a, r.fault = some (e, f, a) → y.pend.vdone = false →
        (t.core c).pend.vfault = some (f, a) ∧ (t.core c).pend.vdone = true) ∧
      (r.fault = none ∨ y.pend.vdone = true →
        (t.core c).pend.vfault = y.pend.vfault ∧ (t.core c).pend.vdone = y.pend.vdone))

/-- The fault of a pass or drain on core c waits for its delivery (R247). -/
def FaultPends (c : Nat) (seq sub tile handle : Nat) (s t : State) : Prop :=
  ∃ f, (t.core c).pend.mfaults = (s.core c).pend.mfaults ++ [f] ∧ f.seq = seq ∧ f.sub = sub ∧ f.tile = tile ∧ f.handle = handle

/-- R196, R212 check 5, R215, R216, R228, R241, R245: the start of the pass that fired first, when the feeders of those before it
have gone on: once they have read all they will. A pass whose tile has its shape and width, or which clears it, starts, and its own
feeders go ahead; ACC = 1 on a tile of another shape or width is fault 0x05, on a POISONED tile it does nothing but leave fault
TILE_POISONED (0x14), the pass-retired event (event 2) occurring in that step. -/
def Obligations.PassStart : Prop := ∀ (c : CoreId) (q : Nat) (env : Env) (j : PassJob) (s₀ : State),
  let s := feedStarted c env (applyUpsets env.upsets s₀)
  let x := s.core c
  let d : PassDesc := ⟨j.desc⟩
  let k := x.tile d.tile
  let ready := x.passMayStart j && x.jobs.passes.all fun p => !p.started || p.readAll
  s.runsPart c = some q → x.jobs.passes.find? (fun p => !p.started) = some j →
  (ready = false → exec (.passStart c env) s₀ = .next s) ∧
  (ready = true →
    (d.acc = false ∨ (k.tall = d.tall ∧ k.width = d.width ∧ k.poisoned = false) → x.far.wcb = [] →
      ∃ u, exec (.passStart c env) s₀ = .next (feedPass c q env 32 j u) ∧ OnlyCore c s u ∧ (u.core c).lastTall = d.tall ∧
        (d.acc = false → ∀ i ∈ x.passTiles j.desc, ((u.core c).tile i).tall = d.tall ∧ ((u.core c).tile i).width = d.width ∧
          ((u.core c).tile i).poisoned = false) ∧
        (∀ i, d.acc = true ∨ i ∉ x.passTiles j.desc → (u.core c).tile i = x.tile i) ∧
        (u.core c).jobs.passes = x.jobs.passes.map (fun p => if p.fire = j.fire then { p with
          started := true
          clear := if d.acc = false ∧ ¬(k.tall = d.tall ∧ k.width = d.width) then x.passTiles j.desc else [] } else p) ∧
        (u.core c).entries = x.entries ∧ (u.core c).store = x.store) ∧
    (d.acc = true → k.tall ≠ d.tall ∨ k.width ≠ d.width → x.pend.mdone = false →
      ∃ t, exec (.passStart c env) s₀ = .next t ∧ OnlyCore c s t ∧ FaultPends c j.seq 0x05 d.tile j.handle s t ∧
        (∀ p ∈ (t.core c).jobs.passes, p.fire ≠ j.fire) ∧ (t.core c).tiles = x.tiles ∧ (t.core c).entries = x.entries) ∧
    (d.acc = true → k.tall = d.tall → k.width = d.width → k.poisoned = true → x.pend.mdone = false →
      ∃ u t, exec (.passStart c env) s₀ = .next t ∧ (∀ i, t.core i = (coreEvent q c 2 0 u).core i) ∧
        { t with cores := (coreEvent q c 2 0 u).cores } = coreEvent q c 2 0 u ∧ OnlyCore c s u ∧
        FaultPends c j.seq 0x14 d.tile j.handle s u ∧
        (u.core c).tiles = x.tiles ∧ (u.core c).entries = x.entries ∧ (u.core c).store = x.store ∧
        (u.core c).lastTall = x.lastTall ∧
        (u.core c).jobs = { x.jobs with passes := x.jobs.passes.filter fun p => p.fire != j.fire } ∧
        ∀ i, (t.core i).tiles = (s.core i).tiles ∧ (t.core i).entries = (s.core i).entries ∧
          (t.core i).store = (s.core i).store))

/-- R202, R217, R242, R243: a started pass that has taken in every beat retires with its event; one that a line will never reach
ends with its tiles POISONED (the model's choice, log 83); one that meets a failure aborts, poisons its tiles and leaves Matrix
Pass Fault with the failure's sub-cause. -/
def PassEndRule : Prop := ∀ (c : CoreId) (q : Nat) (env : Env) (j : PassJob) (s₀ : State),
  let s := feedStarted c env (applyUpsets env.upsets s₀)
  let x := s.core c
  let d : PassDesc := ⟨j.desc⟩
  let left := x.jobs.passes.filter fun p => p.fire != j.fire
  let lost := fun (t : State) => (t.core c).jobs.passes = left ∧
    (∀ i ∈ x.passTiles j.desc, ((t.core c).tile i).poisoned = true ∧ ((t.core c).tile i).parity = false) ∧
    (∀ i, i ∉ x.passTiles j.desc → (t.core c).tile i = x.tile i) ∧ (∀ i, i ≠ c.val → (t.core i).tiles = (s.core i).tiles)
  x.part = some q →
  (x.firstStarted = some j → j.lost = false → j.complete = true → x.frontsClear j = true → x.passParity j = false →
    ∃ u, exec (.passRetire c env) s₀ = .next (coreEvent q c 2 0 u) ∧ OnlyCore c s u ∧
      u.core c = { x with jobs := { x.jobs with passes := left } }) ∧
  (x.firstStarted = some j → j.lost = false → j.complete = false ∨ x.frontsClear j = false ∨ x.passParity j = true →
    exec (.passRetire c env) s₀ = .next s) ∧
  (x.firstStarted = some j → j.lost = true → ∃ t, exec (.passRetire c env) s₀ = .next t ∧ lost t ∧ (t.part q).st = (s.part q).st) ∧
  (∀ sub a, x.jobs.passes.find? (fun p => p.started && (x.passFails p).isSome) = some j → x.passFails j = some (sub, a) →
    ∃ t, exec (.passAbort c env) s₀ = .next t ∧ lost t ∧
      ((s.part q).st = .running → x.pend.mdone = false → FaultPends c j.seq sub d.tile j.handle s t)) ∧
  (x.jobs.passes.find? (fun p => p.started && (x.passFails p).isSome) = none → exec (.passAbort c env) s₀ = .next s)

/-- R194, R195, R225 to R228: what the array makes of the beats in the queues of a pass that is not of MXFP4: the entry of row i and
column k takes in the products of row i of A and column k of B, beat after beat, from what the pass begins it with; every entry
outside the extent stays, but for those that a changed record clears. -/
def PassArithmeticRule : Prop := ∀ (x : Core) (j : PassJob) (n : Nat) (A B : Nat → Nat → Fed),
  let d : PassDesc := ⟨j.desc⟩
  let y := takeIn j.fire x
  x.pass? j.fire = some j → x.frontsClear j = true → x.passParity j = false → d.fmt ≠ 0 →
  d.mr ≤ (if d.tall then 128 else 32) → d.nc ≤ columns d.tall →
  j.queue = (List.range n).map (fun t => ⟨(feedOrder d.mr).map fun i => (i, [A t i]), (feedOrder d.nc).map fun k => (k, [B t k])⟩) →
  (∀ i k, i < d.mr → k < d.nc →
    let key := entryKey d.width d.tile (cellOf d.tall i k)
    let e := SMap.get TileEntry.reset key x.entries
    SMap.get TileEntry.reset key y.entries =
      (List.range n).foldl (fun e t => d.accumulate e (A t i) (B t k)) (if j.began then e else d.begin' e)) ∧
  (∀ key, key ∉ d.keys → j.began = true ∨ key / 1024 ∉ j.clear →
    SMap.get TileEntry.reset key y.entries = SMap.get TileEntry.reset key x.entries) ∧
  (∀ key, key ∉ d.keys → j.began = false → key / 1024 ∈ j.clear → SMap.get TileEntry.reset key y.entries = TileEntry.reset) ∧
  y.store = x.store ∧ y.tiles = x.tiles

/-- R194, R195, R202, R217, R225 to R228, R242, R243: what a pass accumulates, and its end. -/
def Obligations.PassEnd : Prop := PassArithmeticRule ∧ PassEndRule

/-- R212 check 5, R218, R219, R237, R244, R249: a drain's front, a visit that has no row maxima to read, and its completion. -/
def Obligations.Drain : Prop := ∀ (c : CoreId) (q : Nat) (env : Env) (j : DrainJob) (s₀ : State),
  let s := applyUpsets env.upsets s₀
  let x := s.core c
  let d : DrainDesc := ⟨j.desc⟩
  let k := x.tile d.tile
  let fits := (d.w64 == (k.width == 2)) && decide (d.mr ≤ if k.tall then 128 else 32) && decide (d.nc ≤ columns k.tall)
  (s.runsPart c = some q → x.jobs.drains.find? (fun p => !p.started) = some j → x.frontMayStart j = true →
    (fits = true → k.poisoned = false → x.storeErr = [] →
      firstRowFault (if d.w64 then 1 else 2) x (d.rowWords k.tall) = none →
      ∃ t, exec (.drainFrontStart c env) s₀ = .next t ∧ (t.core c).jobs.drains = x.jobs.drains.map (fun p =>
        if p.fire = j.fire then { p with started := true, tall := k.tall, width := k.width, mute := false } else p) ∧
        (t.core c).store = x.store ∧ (t.core c).entries = x.entries ∧ (t.core c).tiles = x.tiles) ∧
    (fits = false → x.pend.mdone = false → ∃ t, exec (.drainFrontStart c env) s₀ = .next t ∧ OnlyCore c s t ∧
      FaultPends c j.seq 0x05 d.tile j.handle s t ∧ (∀ p ∈ (t.core c).jobs.drains, p.fire ≠ j.fire))) ∧
  (x.part = some q → x.jobs.drains.find? DrainJob.sweeping = some j → j.maxWords = [] →
    (x.drainTiles j.desc).any (fun i => (x.tile i).parity) = false →
    ∃ t, exec (.drainRowVisit c env) s₀ = .next t ∧
      (t.core c).jobs.drains.map (fun p => (p.fire, p.row)) =
        x.jobs.drains.map (fun p => (p.fire, if p.fire = j.fire then p.row + 1 else p.row)) ∧
      (d.init = 0 → (t.core c).entries = x.entries ∧ (t.core c).tiles = x.tiles) ∧
      (j.mute = true → (t.core c).store = x.store) ∧
      (j.row = 31 → d.init ≠ 0 → ∀ i ∈ x.drainTiles j.desc, ((t.core c).tile i).poisoned = false)) ∧
  (∀ rest, x.part = some q → x.jobs.drains = j :: rest → j.started = true → j.sweeping = false →
    ∃ t, exec (.drainComplete c) s = .next t ∧ (∀ p ∈ (t.core c).jobs.drains, p.fire ≠ j.fire) ∧
      (x.dtu.turn, 18) ∈ (t.core c).pend.events ∧ (t.core c).store = x.store ∧ (t.core c).entries = x.entries ∧
      ((s.part q).mon.montab = 0 → (t.core c).jobs.counts = x.jobs.counts) ∧
      ((s.part q).mon.montab ≠ 0 → ∃ n, (t.core c).jobs.counts = x.jobs.counts ++ [n] ∧ n.drain = true ∧
        n.core = x.lcore ∧ n.daddr = j.handle ∧ n.nelem = d.mr * d.nc ∧ n.nzero = j.zeros ∧ n.nsat = j.sats ∧ n.nnonf = j.nonfin))

/-- R249, R253, R254: the monitor takes the counts that have waited longest; a log entry of 64 bytes whose place is 64-aligned goes
there as one whole-line write, what its walk finds in the page tables done first, and a failed translation ends the logging with
entry 0x0025 that names the ring's LOGBASE. -/
def Obligations.NumericsMonitor : Prop := ∀ (q : PartId) (s : State),
  let p := s.part q
  (∀ c n rest, p.st = .running → p.phys.find? (fun c => !(s.core c).jobs.counts.isEmpty) = some c →
    (s.core c).jobs.counts = n :: rest → ∃ t, exec (.monitorCounts q) s = .next t ∧
      (t.core c).jobs = { (s.core c).jobs with counts := rest } ∧ (t.part q).mon = { p.mon with counts := p.mon.counts ++ [n] } ∧
      (∀ i, i ≠ c → t.core i = s.core i) ∧ { t with cores := s.cores, parts := s.parts } = s) ∧
  (∀ base size bytes rest, p.mon.logQ = (base, size, bytes) :: rest →
    let va := logAddr base size bytes
    let u := (walkRead q va true s).1
    (p.mon.failed = true → ∃ t, exec (.numericsLogWrite q) s = .next t ∧ (t.part q).mon = { p.mon with logQ := rest } ∧
      { t with parts := s.parts } = s) ∧
    (∀ e, p.mon.failed = false → bytes.length = 64 → va % 64 = 0 → inLocal va = false → walk q va true s = .ok e →
      let line := e.at va / 64
      let entry := fun (r : MemReq) => r.part = q.val ∧ r.write = true ∧ r.bytes = bytes ∧ r.mask = 2 ^ 64 - 1 ∧ r.line = line ∧
        r.poison = 0 ∧ r.chk = false
      (locate (64 * line) = .hbm →
        let k := (hbmDecode (64 * line)).stack
        let g := SMap.get Regulator.reset q (u.stack k).regs
        ∃ t r, exec (.numericsLogWrite q) s = .next t ∧ (t.part q).mon = { p.mon with logQ := rest } ∧ entry r ∧
          SMap.get Regulator.reset q (t.stack k).regs = { g with waiting := g.waiting ++ [r] } ∧ (∀ i, i ≠ k → t.stack i = u.stack i) ∧
          { t with parts := u.parts, hbms := u.hbms } = u) ∧
      (∀ b off, locate (64 * line) = .bed b off →
        ∃ t r, exec (.numericsLogWrite q) s = .next t ∧ (t.part q).mon = { p.mon with logQ := rest } ∧ entry r ∧
          (t.bed b).reqs = (u.bed b).reqs ++ [r] ∧ { t with parts := u.parts, beds := u.beds } = u)) ∧
    (∀ cause l te, p.mon.failed = false → va % 64 = 0 → inLocal va = false → walk q va true s = .fail cause l te →
      (cause = xMigrating → exec (.numericsLogWrite q) s = .next u) ∧
      (cause ≠ xMigrating →
        ∃ t, exec (.numericsLogWrite q) s = .next t ∧ (t.part q).mon = { p.mon with logQ := rest, failed := true } ∧
          (∃ y, SMap.get none u.hs.logNext t.hs.log = some y ∧ y.code = 0x0025 ∧ y.part = some q.val ∧ y.addr = base ∧
            y.d0 = cause) ∧ { t with parts := u.parts, hs := u.hs } = u)))

/-- R268, R269, R81: a core's mover starts the oldest move; one that fails a check stops the partition, and a copy of one row
between two core stores has carried every word, handles and links as zero, when it starts. -/
def Obligations.MoveStart : Prop := ∀ (c : CoreId) (q : PartId) (env : Env) (j : MoveJob) (rest : List MoveJob) (s₀ : State),
  let s := applyUpsets env.upsets s₀
  let x := s.core j.core
  let d : MoveDesc := ⟨x.words j.handle 8⟩
  (s.core c).jobs.moves = j :: rest → (s.core c).part = some q.val → (s.part q).st = .running → j.started = false → x.storeErr = [] →
  (∀ n, moveCheck (.core c) (s.part q) x j.handle = some n → (s.part q).replay = none →
    ∃ t, exec (.moveStart (.core c) q env) s₀ = .next t ∧ StoppedWithin q .faulted 0x02 s t ∧ (t.core c).jobs.moves = rest) ∧
  (∀ a r, moveCheck (.core c) (s.part q) x j.handle = none → d.kind = 0 → d.srcl = true → d.dstl = true → d.nrows = 1 →
    (s.part q).physOf d.srcCore = some a → (s.part q).physOf d.dstCore = some r → a ≠ r → (s.core a).storeErr = [] →
    j.pos = 0 → j.phase = .idle → j.stall = none →
    ∃ t, exec (.moveStart (.core c) q env) s₀ = .next t ∧
      (∀ i, i < d.rlen / 8 → (t.core r).word (d.dst / 8 + i) = carried ((s.core a).word (d.src / 8 + i))) ∧
      (∀ w, w < d.dst / 8 ∨ d.dst / 8 + d.rlen / 8 ≤ w → (t.core r).word w = (s.core r).word w) ∧
      (t.core a).store = (s.core a).store ∧ t.parts = s.parts ∧ t.hbm = s.hbm ∧ t.beds = s.beds ∧
      (∃ k, (t.core c).jobs.moves = k :: rest ∧ k.started = true ∧ k.pos = d.rlen ∧ k.phase = .idle))

/-- R132, R270, R37, R287: a move whose every byte is written and acknowledged, once the move in hand has gone on as far as it can,
leaves its mover, sends its increments, and raises the mover's event of its turn in its core; an increment arrives at a unit that
has the turn's spur; a multicast asks once for the next source line that it lacks, here one of a bed store. -/
def Obligations.MoveEnd : Prop := ∀ (q : PartId) (env : Env) (s₀ : State),
  let s := applyUpsets env.upsets s₀
  let p := s.part q
  (∀ m, let u := moveOn m q true env s
    (∀ j rest, movesOf m q u = j :: rest → moverRuns m q u = true → j.started = true → j.phase = .idle →
      (⟨j.desc⟩ : MoveDesc).total ≤ j.pos →
      ∃ t, exec (.moveComplete m q env) s₀ = .next t ∧ movesOf m q t = rest ∧
        ((⟨j.desc⟩ : MoveDesc).nen = false → (t.part q).notifies = (u.part q).notifies) ∧
        (∀ r, (⟨j.desc⟩ : MoveDesc).nen = true → (⟨j.desc⟩ : MoveDesc).kind ≠ 1 →
          (u.part q).physOf (⟨j.desc⟩ : MoveDesc).ncore = some r →
          ∃ n, (t.part q).notifies = (u.part q).notifies ++ [n] ∧ n.unit = notifyUnit r (⟨j.desc⟩ : MoveDesc).nunit ∧
            n.ac = (⟨j.desc⟩ : MoveDesc).nac ∧ n.sender = m) ∧
        (∀ c : CoreId, m = .core c → ((u.core c).mtu.turn, 17) ∈ (t.core c).pend.events)) ∧
    (∀ j rest, movesOf m q u = j :: rest → j.started = false ∨ j.phase ≠ .idle ∨ j.pos < (⟨j.desc⟩ : MoveDesc).total →
      exec (.moveComplete m q env) s₀ = .next u)) ∧
  (∀ (c : CoreId) j rest, (s.core c).jobs.moves = j :: rest → j.phase = .idle → (⟨j.desc⟩ : MoveDesc).total ≤ j.pos →
    moveOn (.core c) q true env s = s) ∧
  (∀ n rest, p.notifies = n :: rest → p.st = .running → (unitTu q n.unit s).turn = p.turn →
    ∃ t, exec (.notifyIncrement q) s = .next t ∧ (t.part q).notifies = rest ∧
      (SMap.get 0 n.ac (unitTu q n.unit s).ac < 65535 →
        SMap.get 0 n.ac (unitTu q n.unit t).ac = SMap.get 0 n.ac (unitTu q n.unit s).ac + 1 ∧
        (∀ i, i ≠ n.ac → SMap.get 0 i (unitTu q n.unit t).ac = SMap.get 0 i (unitTu q n.unit s).ac)) ∧
      (65535 ≤ SMap.get 0 n.ac (unitTu q n.unit s).ac →
        (unitTu q n.unit t).ac = (unitTu q n.unit s).ac ∧ (p.turn, 13) ∈ (t.core (overflowCore n.unit n.by')).pend.turnExc ∧
        (t.part q).nd = true)) ∧
  (∀ (d : DieId) j rest va u e b off off', movesOf (.bulk d) q s = j :: rest → moverRuns (.bulk d) q s = true →
    (⟨j.desc⟩ : MoveDesc).kind = 1 → j.wants = true → j.lacks q s = some va → (∀ i, i ≠ q.val → movesOf (.bulk d) i s = []) →
    translateFar (.die d) q va false (servedNow (.bulk d) q s) = (u, .ok e) →
    locate (e.at va) = .bed b off → locate (64 * (e.at va / 64)) = .bed b off' →
    ∃ t, exec (.multicastSourceLine d q env) s₀ = .next t ∧
      ∃ r, (t.bed b).reqs = (u.bed b).reqs ++ [r] ∧ r.part = q.val ∧ r.write = false ∧ r.who = .bulk d ∧ r.unit = 0x800 + d.val ∧
        r.line = e.at va / 64)

/-- R81, R117, R132, R275, R457: the message accepted next leaves its port and enters its receiver's channel behind those that wait
there, with vector 16 of the turn; one whose payload failed its check arrives as poison 0x12. One for a core of another module
leaves on a link, and one from there enters the channel of its receiver, where that has room and the turn's spur. -/
def Obligations.MessageAccept : Prop := ∀ (c : CoreId) (env : Env) (s₀ : State),
  let s := applyUpsets env.upsets s₀
  let sent := fun (m : Msg) => if (s.core c).msgErr then { m with word := poisonWord 0x12 } else m
  let enters := fun (r : Nat) (m : Msg) (turn : Nat) (t : State) =>
    (t.core r).rxOf m.chan = (s.core r).rxOf m.chan ++ [m] ∧ (∀ k, k ≠ m.chan → (t.core r).rxOf k = (s.core r).rxOf k) ∧
    (turn, 16) ∈ (t.core r).pend.events ∧ (t.core r).store = (s.core r).store ∧ (t.core r).a = (s.core r).a
  (∀ q i r m, s.runsPart c = some q → nextAccept q c s (s.core c).tx [] 0 = some (i, m) → (s.part q).physOf m.dst = some r →
    ∃ t, exec (.messageAccept (.here c) env) s₀ = .next t ∧ (t.core c).tx = dropAt i (s.core c).tx ∧ (t.core c).msgErr = false ∧
      enters r (sent m) (s.core c).tu.turn t ∧
      (∀ k, k ≠ c.val → k ≠ r → (t.core k).rx = (s.core k).rx ∧ (t.core k).tx = (s.core k).tx)) ∧
  (∀ q dst chan i m, s.runsPart c = some q → indexWhere (fun m => m.dst == dst && m.chan == chan) (s.core c).tx = some i →
    (s.core c).tx[i]? = some m → (s.part q).remote.contains dst = true →
    ∃ t, exec (.messageAccept (.out c dst chan) env) s₀ = .next t ∧ t.out = s.out ++ [.spanMsg q (sent m)] ∧
      (t.core c).tx = dropAt i (s.core c).tx ∧ (t.core c).msgErr = false ∧ (∀ k, k ≠ c.val → t.core k = s.core k) ∧
      { t with cores := s.cores, out := s.out } = s) ∧
  (∀ (q : PartId) src dst (chan : Fin 16) word r, let p := s.part q
    p.physOf dst = some r →
    (p.st = .running → p.remote.contains src = true → ((s.core r).rxOf chan).length < 8 → (s.core r).tu.turn = p.turn →
      ∃ t, exec (.messageAccept (.arrived q src dst chan word) env) s₀ = .next t ∧ enters r ⟨src, dst, chan, word⟩ p.turn t ∧
        (∀ k, (t.core k).tx = (s.core k).tx) ∧ t.out = s.out) ∧
    (p.remote.contains src = false ∨ 8 ≤ ((s.core r).rxOf chan).length ∨ (s.core r).tu.turn ≠ p.turn →
      exec (.messageAccept (.arrived q src dst chan word) env) s₀ = .next s))

/-- R285, R290: a whole or partial line write that a bed store takes without a Turn Race check, in a store without errors: the bytes
of the mask take their new values, every other byte of the store stays. -/
def BedWritten (b off : Nat) (r : MemReq) (s t : State) : Prop :=
  (∀ i, i < 64 → (t.bed b).store.byte (off + i) = if bitOf r.mask i then r.bytes.getD i 0 else (s.bed b).store.byte (off + i)) ∧
  (∀ a, a < off ∨ off + 64 ≤ a → (t.bed b).store.byte a = (s.bed b).store.byte a)

/-- R52, R53, R285, R290: the oldest request of a bed store. One that the Turn Race check passes is served and leaves its
stamp; one that it does not pass stores nothing and stops its partition with BAD_COMMAND. -/
def Obligations.BedStoreAccess : Prop := ∀ (b : BedId) (off : Nat) (r : MemReq) (rest : List MemReq) (env : Env) (s₀ : State),
  let s := applyUpsets env.upsets s₀
  let st := SMap.get Stamp.cold (off / 64) (s.bed b).stamps
  (s.bed b).reqs = r :: rest → locate (64 * r.line) = .bed b off → (s.bed b).err = [] → (s.bed b).stampErr = [] →
  (r.chk = false ∨ r.ro = true ∨ (stampStep r.write r.unit r.turn16 st).2 = none →
    r.write = true → r.poison = 0 → r.bytes.length = 64 →
    ((∀ c, r.who ≠ .mover c) → (∀ d, r.who ≠ .bulk d) →
      ∃ t, exec (.bedStoreAccess b env) s₀ = .next t ∧ (t.bed b).reqs = rest ∧ BedWritten b off r s t ∧
        (r.chk = true → r.ro = false → SMap.get Stamp.cold (off / 64) (t.bed b).stamps = (stampStep r.write r.unit r.turn16 st).1) ∧
        (∀ i, i ≠ b.val → t.bed i = s.bed i) ∧ { t with beds := s.beds } = s) ∧
    (∀ m j js n, (∃ c, r.who = .mover c ∧ m = .core (coreNum c)) ∨ (∃ d, r.who = .bulk d ∧ m = .bulk (dieNum d)) →
      movesOf m r.part s = j :: js → j.phase = .writing n → (⟨j.desc⟩ : MoveDesc).total ≤ j.pos + n →
      (∀ d, m = .bulk d → ∀ i, i ≠ r.part → movesOf m i s = []) →
      ∃ t, exec (.bedStoreAccess b env) s₀ = .next t ∧ (t.bed b).reqs = rest ∧ BedWritten b off r s t ∧
        movesOf m r.part t = { j with pos := j.pos + n, phase := .idle } :: js ∧
        (∀ i, i ≠ b.val → t.bed i = s.bed i) ∧ { t with beds := s.beds, cores := s.cores, dies := s.dies } = s)) ∧
  (∀ c i, r.chk = false ∨ r.ro = true ∨ (stampStep r.write r.unit r.turn16 st).2 = none → r.write = false → r.who = .miss c i →
    (SMap.get Mshr.free i (s.core c).far.mshr).busy = true → (SMap.get Mshr.free i (s.core c).far.mshr).line = r.line →
    ∃ t, exec (.bedStoreAccess b env) s₀ = .next t ∧ (t.bed b).reqs = rest ∧ (t.bed b).store = (s.bed b).store ∧
      (SMap.get Mshr.free i (t.core c).far.mshr).got = some ⟨(s.bed b).store.read off 64, 0⟩) ∧
  (∀ o, r.chk = true → r.ro = false → (stampStep r.write r.unit r.turn16 st).2 = some o → (s.part r.part).st = .running →
    (s.part r.part).replay = none →
    ∃ t, exec (.bedStoreAccess b env) s₀ = .next t ∧ (t.bed b).store = (s.bed b).store ∧ (t.bed b).stamps = (s.bed b).stamps ∧
      (t.part r.part).st = .faulted ∧ (t.part r.part).stopStat = 0x02 ∧ (t.part r.part).incomplete = true)

/-- R52: the race rule on a stamp word: in a turn, a line may have one writer and no reader but that writer, or readers alone. -/
def Obligations.TurnRaceRule : Prop := ∀ (u v n m : Nat) (x : Stamp), u < 0xFFE → v < 0xFFE → n < 65536 → m < 65536 →
  let y := (stampStep true u n x).1
  let z := (stampStep false u n x).1
  ((stampStep true u n x).2 = none →
    (m = n → v ≠ u → (stampStep true v m y).2 = some u ∧ (stampStep false v m y).2 = some u) ∧
    ((stampStep true u n y).2 = none ∧ (stampStep false u n y).2 = none)) ∧
  ((stampStep false u n x).2 = none → m = n → v ≠ u →
    (stampStep false v m z).2 = none ∨ (x.writer = u ∧ x.wstamp = n)) ∧
  ((stampStep false u n x).2 = none → m = n → v ≠ u → (stampStep true v m z).2 ≠ none)

/-- R54, R278, R279, R280, R282, R286, R288, R291: the sweep engine's visit of a quota line, one whose stamp word is uncorrectable among
them (log 32), the oldest fill of a bed cache, and a line that has come back to a core, with what the core has stored to it since. -/
def Obligations.LinesAndStamps : Prop := ∀ s : State,
  (∀ (b : BedId) line q, nextQuota (quotaLines b s) (s.bed b).sweep = some (line, q) → SMap.get 0 line (s.bed b).stampErr = 0 →
    ∃ t, exec (.sweepVisit b) s = .next t ∧ (t.bed b).sweep = line + 1 ∧
      SMap.get Stamp.cold line (t.bed b).stamps = ageStamp ((s.part q).turn % 65536) (SMap.get Stamp.cold line (s.bed b).stamps) ∧
      (∀ i, i ≠ line → SMap.get Stamp.cold i (t.bed b).stamps = SMap.get Stamp.cold i (s.bed b).stamps) ∧
      SMap.get 0 q (t.bed b).sweepLeft = SMap.get 0 q (s.bed b).sweepLeft - 1 ∧ (t.bed b).store = (s.bed b).store ∧
      (∀ i, i ≠ b.val → t.bed i = s.bed i) ∧ { t with beds := s.beds } = s) ∧
  (∀ (b : BedId) line q, nextQuota (quotaLines b s) (s.bed b).sweep = some (line, q) → SMap.get 0 line (s.bed b).stampErr = 2 →
    (s.part q).st = .running → (s.part q).replay = none →
    ∃ t, exec (.sweepVisit b) s = .next t ∧ (t.part q).st = .faulted ∧ (t.part q).stopStat = 0x02 ∧
      (t.bed b).stamps = (s.bed b).stamps ∧ (t.bed b).store = (s.bed b).store ∧ (t.bed b).sweep = line + 1) ∧
  (∀ (b : BedId) r rest, (s.bed b).fillQ = r :: rest → (s.bed b).cacheMiB ≠ 0 →
    ∃ t, exec (.bedCacheFill b) s = .next t ∧ (t.bed b).fillQ = rest ∧
      (∃ k, bedFind (t.bed b) r.line = some (k, ⟨r.line, r.bytes, true, false⟩)) ∧ (t.bed b).store = (s.bed b).store ∧
      (∀ i, i ≠ b.val → t.bed i = s.bed i) ∧ { t with beds := s.beds } = s) ∧
  (∀ (c : CoreId) (g : Fin 8) q l h, s.coreRuns c = some q → (SMap.get Mshr.free g (s.core c).far.mshr).busy = true →
    (SMap.get Mshr.free g (s.core c).far.mshr).got = some l →
    let m := SMap.get Mshr.free g (s.core c).far.mshr
    let bytes := if m.mask = 0 then l.bytes else maskBytes m.mask l.bytes (padTo 64 m.own)
    bytes ≠ [] →
    ∃ t, exec (.farCacheFill c g ⟨[], h⟩) s = .next t ∧ SMap.get Mshr.free g (t.core c).far.mshr = Mshr.free ∧
      (m.line, ⟨bytes, l.bad⟩) ∈ (t.core c).far.bundle ∧
      (l.bad = 0 → m.stale = false → ∃ k y, farFind (t.core c).far m.line = some (k, y) ∧ y.bytes = bytes ∧ y.ro = m.ro) ∧
      (l.bad ≠ 0 ∨ m.stale = true → (t.core c).far.lines = (s.core c).far.lines) ∧ (t.core c).store = (s.core c).store ∧
      (∀ i, i ≠ c.val → t.core i = s.core i))

/-- R294 to R296, R298, R299, R308: a transaction takes a token of its regulator, enters its reorder queue, and is served from
it; the patrol scrub of a stack without errors, once no older entry is in its way, only goes on, the entries having been
passed over once more; R306: a temperature sample is held, and its highest. -/
def Obligations.HbmService : Prop := ∀ (k : StackId) (env : Env) (s₀ : State),
  let s := applyUpsets env.upsets s₀
  let x := s.stack k
  let free := fun (pc : Nat) => ownTurn k pc (patrolPa k pc x.patrol / 64) 1 s
  (∀ (q : PartId) r rest, (SMap.get Regulator.reset q x.regs).waiting = r :: rest →
    let g := SMap.get Regulator.reset q x.regs
    (g.tokens < 2048 → exec (.regulatorRelease k q) s = .next s) ∧
    (2048 ≤ g.tokens → ∃ t, exec (.regulatorRelease k q) s = .next t ∧ (t.stack k).entering = x.entering ++ [r] ∧
      SMap.get Regulator.reset q (t.stack k).regs = { g with tokens := g.tokens - 2048, lines := (g.lines + 1) % 2 ^ 38, waiting := rest } ∧
      (∀ i, i ≠ k.val → t.stack i = s.stack i) ∧ { t with hbms := s.hbms } = s)) ∧
  (∀ (pc : Fin 64) i r, indexWhere (fun r => reqPc r == pc) x.entering = some i →
    x.entering.find? (fun r => reqPc r == pc) = some r → (SMap.get [] pc.val x.queues).length < 64 →
    r.write = false ∨ ((∀ c, r.who ≠ .mover c) ∧ (∀ d, r.who ≠ .bulk d)) →
    ∃ t, exec (.hbmQueueEntry k pc) s = .next t ∧ (t.stack k).entering = dropAt i x.entering ∧
      SMap.get [] pc.val (t.stack k).queues = SMap.get [] pc.val x.queues ++ [⟨r, 0⟩] ∧
      (∀ b, ∀ e ∈ (t.bed b).cache, e ∈ (s.bed b).cache) ∧ { t with hbms := s.hbms, beds := s.beds } = s) ∧
  (∀ (pc : Fin 64) i e, (SMap.get [] pc.val x.queues)[i]? = some e →
    (mayServe (SMap.get [] pc.val x.queues) i e.req = false → exec (.hbmServe k pc i env) s₀ = .next s) ∧
    (mayServe (SMap.get [] pc.val x.queues) i e.req = true → s.hbmErr = [] → (∀ j, (s.stack j).spareErr = []) →
      let pa := 64 * e.req.line
      let h := hbmSite pa s
      (e.req.write = true → e.req.poison = 0 → e.req.bytes.length = 64 → mirrorOf pa s = none →
        ∃ t, exec (.hbmServe k pc i env) s₀ = .next t ∧
          (SMap.get [] pc.val (t.stack k).queues).map (·.req) = dropAt i ((SMap.get [] pc.val x.queues).map (·.req)) ∧
          (∀ n, n < 64 → (siteRead h t).bytes.getD n 0 =
            if bitOf e.req.mask n then e.req.bytes.getD n 0 else (siteRead h s).bytes.getD n 0) ∧
          (∀ u, h = .user u → (∀ a, a < u ∨ u + 64 ≤ a → t.hbm.byte a = s.hbm.byte a) ∧ (∀ j, (t.stack j).spare = (s.stack j).spare)) ∧
          (∀ j n col, h = .spare j n col → t.hbm = s.hbm ∧ (∀ a, a < n * 1024 + col ∨ n * 1024 + col + 64 ≤ a →
            (t.stack j).spare.byte a = (s.stack j).spare.byte a) ∧ (∀ o, o ≠ j → (t.stack o).spare = (s.stack o).spare)) ∧
          { t with hbms := s.hbms, hbm := s.hbm } = s) ∧
      (∀ c n, e.req.write = false → e.req.who = .miss c n → (SMap.get Mshr.free n (s.core c).far.mshr).busy = true →
        (SMap.get Mshr.free n (s.core c).far.mshr).line = e.req.line →
        ∃ t, exec (.hbmServe k pc i env) s₀ = .next t ∧
          (SMap.get [] pc.val (t.stack k).queues).map (·.req) = dropAt i ((SMap.get [] pc.val x.queues).map (·.req)) ∧
          (SMap.get Mshr.free n (t.core c).far.mshr).got = some ⟨(siteRead h s).bytes, 0⟩ ∧
          t.hbm = s.hbm ∧ (∀ j, (t.stack j).spare = (s.stack j).spare)))) ∧
  ((x.up = true → s.hbmErr = [] → (∀ i, (s.stack i).spareErr = []) → (∀ pc, pc < 64 → free pc = true) →
      ∃ t, exec (.hbmPatrolScrub k env) s₀ = .next t ∧
        { t.stack k with queues := x.queues } = { x with patrol := (x.patrol + 1) % pcLines } ∧
        (∀ pc, pc < 64 → SMap.get [] pc (t.stack k).queues =
          (SMap.get [] pc x.queues).map fun e => { e with passed := e.passed + 1 }) ∧
        (∀ i, i ≠ k.val → t.stack i = s.stack i) ∧ { t with hbms := s.hbms } = s) ∧
    (∀ pc, pc < 64 → free pc = false → exec (.hbmPatrolScrub k env) s₀ = .next s)) ∧
  (∀ v : Int, s.running = true → s.power.rails = true → x.up = true → -32768 ≤ v → v < 32768 → ∃ t,
    exec (.hbmTempSample k v) s = .next t ∧ (t.stack k).temp = v ∧ (t.stack k).tmax = max x.tmax v ∧
    ((t.stack k).step = x.step ∨ (t.stack k).step + 1 = x.step ∨ (t.stack k).step = x.step + 1) ∧
    (v < 420 → (∀ i, i ≠ k.val → t.stack i = s.stack i) ∧ { t with hbms := s.hbms } = s) ∧
    (420 ≤ v → s.power.trip = false → t.power.trip = true ∧ t.power.tripCause = 1 ∧ t.power.tripSrc = 0x30 + k.val))

/-- R303, R305, R417, R419: one line of a row copy in a stack without errors, at most one for every 32 transactions served while the
queue is not empty, the flip that ends the copy and with it the row's lasting fault, and the firmware's append to
the boot flash. -/
def Obligations.RowRemap : Prop := ∀ (k : StackId) (env : Env) (s₀ : State),
  let s := applyUpsets env.upsets s₀
  let x := s.stack k
  (∀ c, x.copy = some c → c.line < 16 → 32 ≤ c.since ∨ SMap.get [] c.row.pc x.queues = [] →
    ownTurn k c.row.pc (rowLine k c.row c.line / 64) 2 s = true → s.hbmErr = [] → x.spareErr = [] →
    hbmSite (rowLine k c.row c.line) s = .user (rowLine k c.row c.line) →
    ∃ t, exec (.remapLineCopy k env) s₀ = .next t ∧
      (t.stack k).copy = some { c with line := c.line + 1, since := 0 } ∧
      (∀ i, i < 64 → (t.stack k).spare.byte (c.spare * 1024 + 64 * c.line + i) = s.hbm.byte (rowLine k c.row c.line + i)) ∧
      (c.line < 15 → (t.stack k).table0 = x.table0 ∧ (t.stack k).table1 = x.table1) ∧
      (c.line = 15 → SMap.get Remap.none c.spare (if x.active = 0 then (t.stack k).table1 else (t.stack k).table0)
        = ⟨true, c.row.sid, c.row.bank, c.row.row⟩) ∧
      SMap.get [] c.row.pc (t.stack k).queues = (SMap.get [] c.row.pc x.queues).map (fun e => { e with passed := e.passed + 2 }) ∧
      (t.stack k).active = x.active ∧ (∀ i, i ≠ k.val → t.stack i = s.stack i) ∧ { t with hbms := s.hbms } = s) ∧
  (∀ c, x.copy = some c → c.line < 16 → c.since < 32 → SMap.get [] c.row.pc x.queues ≠ [] → exec (.remapLineCopy k env) s₀ = .next s) ∧
  (∀ c, x.copy = some c → c.line = 16 → x.pendingRows = [] → ∃ t, exec (.remapFlip k) s = .next t ∧
    (t.stack k).active = 1 - x.active ∧ (t.stack k).copy = none ∧
    SMap.get Remap.none c.spare (t.stack k).table0 = ⟨true, c.row.sid, c.row.bank, c.row.row⟩ ∧
    SMap.get Remap.none c.spare (t.stack k).table1 = ⟨true, c.row.sid, c.row.bank, c.row.row⟩ ∧
    (t.stack k).unpersist = x.unpersist ++ [(c.spare, c.row, false)] ∧
    (∃ l, SMap.get none s.hs.logNext t.hs.log = some l ∧ l.code = 0x0003 ∧ l.src = 0x30 + k.val ∧ l.cls = 0x0A ∧ l.d0 = 2) ∧
    (∀ r : Res, SMap.get false r.key t.chat.lasting =
      if r.key = Res.key ⟨0x0A, rowId k c.row⟩ then false else SMap.get false r.key s.chat.lasting) ∧
    (∀ i, i ≠ k.val → t.stack i = s.stack i) ∧ { t with hbms := s.hbms, hs := s.hs, chat := s.chat } = s) ∧
  (s.hs.fwRun = true → ∃ t, exec (.remapPersist k) s = .next t ∧ (t.stack k).unpersist = [] ∧
    SMap.get [] k.val t.flash.remaps = SMap.get [] k.val s.flash.remaps ++ x.unpersist.map (fun u => ⟨u.1, u.2.1, u.2.2⟩) ∧
    (∀ i, i ≠ k.val → SMap.get [] i t.flash.remaps = SMap.get [] i s.flash.remaps ∧ t.stack i = s.stack i) ∧
    t.flash.pendWritten = s.flash.pendCores ∧ t.flash.pendCores = s.flash.pendCores ∧ t.flash.repair = s.flash.repair ∧
    { t with hbms := s.hbms, flash := s.flash } = s)

/-- R313, R315, R318: an address that a TLB does not hold is walked, and the leaf found serves it from then on; R330 to R333: a
fault takes the lowest free entry of its die's fault queue; the firmware retries an entry whose cause is MIGRATING once the
migration has ended, which frees it, and aborts any other, which frees it and stops the partition; a resume of a free entry sets
BADRES. -/
def Obligations.TranslationFaults : Prop := ∀ (d : DieId) (s : State),
  (∀ (c : CoreId) (q : PartId) va w h, (s.core c).part = some q.val → inLocal va = false → va < 2 ^ 48 →
    let u := (walkRead q va w s).1
    (∀ e, tlbFind (s.core c).tlb q va = none → walk q va w s = .ok e →
      ∃ t, exec (.tlbWalk (.core c) q va w ⟨[], h⟩) s = .next t ∧ e ∈ (t.core c).tlb ∧ (t.core c).tlb.length ≤ max 64 (u.core c).tlb.length ∧
        { t.core c with tlb := (u.core c).tlb } = u.core c ∧ (∀ i, i ≠ c.val → t.core i = u.core i) ∧ { t with cores := u.cores } = u) ∧
    (∀ cause l te, tlbFind (s.core c).tlb q va = none → walk q va w s = .fail cause l te →
      exec (.tlbWalk (.core c) q va w ⟨[], h⟩) s = .next u) ∧
    (∀ e, tlbFind (s.core c).tlb q va = some e → (s.core c).tlbErr = false → w = false ∨ e.w = true →
      exec (.tlbWalk (.core c) q va w ⟨[], h⟩) s = .next s)) ∧
  (∀ (g : Fin 109) q f n, (s.die d).stalled = [] → engineFault d g s = some (q, f) → mergeEntry q f (s.die d) = none →
    firstFrom (fun n => !(SMap.get FqEntry.free n (s.die d).fq).valid) 0 256 = some n →
    ∃ t, exec (.faultQueueEnter d g) s = .next t ∧
      SMap.get FqEntry.free n (t.die d).fq = ⟨true, f.write, q, f.level, f.cause, f.va, f.teaddr, (s.die d).refcyc, [g.val],
        (s.part q).turn, (s.die d).cclk⟩ ∧
      (∀ i, i ≠ n → SMap.get FqEntry.free i (t.die d).fq = SMap.get FqEntry.free i (s.die d).fq) ∧
      (stallOf d g q t).bind (·.entry) = some n ∧ t.parts = s.parts) ∧
  (∀ n : Fin 256, s.hs.fwRun = true → (SMap.get FqEntry.free n (s.die d).fq).valid = false →
    exec (.fqResumeRetry d n) s = .next (badResume d s) ∧ exec (.fqResumeAbort d n) s = .next (badResume d s) ∧
    ((badResume d s).die d).badRes = true) ∧
  (∀ n : Fin 256, s.hs.fwRun = true → (SMap.get FqEntry.free n (s.die d).fq).valid = true →
    let y := SMap.get FqEntry.free n (s.die d).fq
    (y.cause ≠ xMigrating ∨ entryMigrating y s = true → exec (.fqResumeRetry d n) s = .next s) ∧
    (y.cause = xMigrating → exec (.fqResumeAbort d n) s = .next s) ∧
    (y.engines = [] → (s.die d).stalled = [] →
      (y.cause = xMigrating → entryMigrating y s = false →
        ∃ t, exec (.fqResumeRetry d n) s = .next t ∧ SMap.get FqEntry.free n (t.die d).fq = FqEntry.free ∧ { t with dies := s.dies } = s) ∧
      (y.cause ≠ xMigrating → (s.part y.part).st = .running → (s.part y.part).replay = none →
        ∃ t, exec (.fqResumeAbort d n) s = .next t ∧ SMap.get FqEntry.free n (t.die d).fq = FqEntry.free ∧
          (t.part y.part).st = .faulted ∧ (t.part y.part).stopStat = 0x02)))

/-- R325, R326, R334: access counters halve, hot pages go to the port that owns their partition, and HPQ_STATUS clears DROP. -/
def Obligations.HotPages : Prop := ∀ (d : DieId) (p : PortId) (s : State),
  (∀ n y, (s.die d).decayed ≠ (s.die d).refcyc / 2 ^ 20 → (s.die d).acc = [(n, y)] → (s.die d).hotThresh = 0 →
    ∃ t, exec (.accessCounterDecay d) s = .next t ∧ (t.die d).decayed = ((s.die d).decayed + 1) % 2 ^ 28 ∧
      SMap.get AccCtr.free n (t.die d).acc = { y with count := y.count / 2 } ∧ (t.die d).hpq = (s.die d).hpq ∧
      { t with dies := s.dies } = s) ∧
  ((s.die d).decayed = (s.die d).refcyc / 2 ^ 20 → exec (.accessCounterDecay d) s = .next s) ∧
  (s.hs.fwRun = true →
    (∀ h rest, (s.die d).hpq = h :: rest → (s.part h.part).st ≠ .empty →
      ∃ t, exec (.hpqHeadRead d) s = .next t ∧ (t.die d).hpq = rest ∧
        (t.port (s.part h.part).owner).hot = (s.port (s.part h.part).owner).hot ++ [h] ∧
        t.out = s.out ++ [.dieRead d (BitVec.ofNat 64 (h.part % 16 * 2 ^ 48 + h.region % 2 ^ 27 * 2 ^ 21))
          (BitVec.ofNat 64 (h.refcyc % 2 ^ 48))]) ∧
    ((s.die d).hpq = [] → exec (.hpqHeadRead d) s = .next (s.emit (.dieRead d 0 0))) ∧
    (∃ t, exec (.hpqStatusRead d) s = .next t ∧ t.die d = { s.die d with hpqDrop := 0 } ∧
      t.out = s.out ++ [.dieRead d (BitVec.ofNat 64 ((s.die d).hpqDrop * 2 ^ 32 + (s.die d).hpq.length)) 0] ∧
      { t with dies := s.dies, out := s.out } = s) ∧
    (∀ h rest, (s.port p).hot = h :: rest →
      ((s.port p).hpr.en = false → ∃ t, exec (.hotPageRingWrite p) s = .next t ∧ (t.port p).hot = rest ∧ t.out = s.out) ∧
      ((s.port p).hpr.en = true → ((s.port p).hpr.tail + 65536 - (s.port p).hpr.head) % 65536 ≠ 2 ^ ((s.port p).hpr.size + 4) →
        ∃ t, exec (.hotPageRingWrite p) s = .next t ∧ (t.port p).hot = rest ∧
          (t.port p).hpr = { (s.port p).hpr with tail := ((s.port p).hpr.tail + 1) % 65536 } ∧
          bitOf (t.port p).intCause 6 = true ∧
          (∃ w, .hostWrite p ((s.port p).hpr.base + 16 * ((s.port p).hpr.tail % 2 ^ ((s.port p).hpr.size + 4))) w ∈ t.out ∧
            w.length = 16))))

/-- R327, R484: a migration whose copy the host does not answer is undone and its command ends with HOST_LOST; a host line that does
not come stops its partition with HOST_LOST. -/
def Obligations.HostReadsFail : Prop := ∀ (q : PartId) (s : State),
  (∀ m f, (s.part q).migr = some m →
    regionQuiet q (((regionsInside m.va 0x200000 (s.part q).regions).head?.map (·.pa)).getD 0) s = true →
    (∀ i, i < 12 → (s.die i).fq = []) →
    ∃ t, exec (.migrationCopyComplete q (.fail f)) s = .next t ∧ (t.part q).migr = none ∧
      (t.part q).regions = changeRegion m.va (fun g => { g with mig := false }) (s.part q).regions ∧
      (t.mbx m.port m.mbx).result = some ⟨0x0D, []⟩ ∧ t.hbm = s.hbm ∧ (t.part q).st = (s.part q).st) ∧
  (∀ u f va iova, (s.part q).st = .running → (s.part q).replay = none → (s.part q).units.contains u = true →
    awaitedLine q u s = some (va, iova) →
    ∃ t, exec (.hostWindowReadFail q u f) s = .next t ∧ StoppedWithin q .faulted 0x0D s t ∧
      (QuietStop q s → ∃ l, SMap.get none s.hs.logNext t.hs.log = some l ∧
        l.code = 0x0027 ∧ l.part = some q.val ∧ l.addr = va ∧ l.d1 = iova))

/-- R346, R352, R353, R274, R443: the re-admission that a degradation event asks for, of every partition that is not EMPTY and holds no
lost die, and the completion of a route change. What a FAULTED partition takes from it is the model's choice (log 64). -/
def Obligations.Readmission : Prop := ∀ s : State, s.running = true → s.hs.fwRun = true →
  (s.hs.readmit = true → s.hs.routeHold = [] → ∃ t, exec .degradationReadmission s = .next t ∧ t.hs.readmit = false ∧
    t.hs.health = s.hs.health ∧
    (∀ q c i, q < 16 → (s.part q).cfg = some c → (s.part q).img = some i →
      let x := s.part q
      let k := capsOf c x.caps.hops s
      let ok := (admitPartition c i k (spareOfPlace x.place s)).ok
      (x.lostDie s = true → t.part q = x) ∧
      (x.lostDie s = false →
        (x.st = .running → ok = false → (t.part q).revoked = true ∧ (t.part q).st = .stopped ∧ (t.part q).stopStat = 0x09) ∧
        (x.st = .running → ok = true → (t.part q).st = .running ∧ (t.part q).capsNext = some k ∧ (t.part q).revoked = x.revoked) ∧
        (x.st ≠ .running → ok = true ∨ x.st = .faulted → (t.part q).st = x.st ∧ (t.part q).caps = k ∧ (t.part q).capsNext = none ∧
          (t.part q).revoked = x.revoked) ∧
        (x.st ≠ .running → x.st ≠ .faulted → ok = false → (t.part q).st = x.st ∧ (t.part q).revoked = true)))) ∧
  (∀ hops, s.hs.routeHold ≠ [] ∨ (∃ b, b < 64 ∧ (s.lane b).retiring = true) → holdersQuiet s = true →
    ∃ t, exec (.routeChangeComplete hops) s = .next t ∧ t.hs.routeHold = [] ∧
      (∀ b, b < 64 → (s.lane b).retiring = true → (t.lane b).retired = true ∧ (t.lane b).retiring = false ∧ b ∈ t.flash.repair.bundles) ∧
      (∀ b, b < 64 → (s.lane b).retiring = false → (t.lane b).retired = (s.lane b).retired))

/-- A vector of a port with its INT_CAUSE bit (R358): the bit is set, and the vector is sent or, where MSI-X is not enabled, or the
function or the vector is masked, pends. -/
def Signalled (p : PortId) (v : Nat) (s t : State) : Prop :=
  bitOf (t.port p).intCause v = true ∧ ((s.port p).sends v = true → .msix p v ∈ t.out) ∧
  ((s.port p).sends v = false → bitOf (t.port p).pba v = true)

/-- An error counter of a port that stood at n has gone on (R358, R359): it holds at 0xFFFF, and vector 7 comes with an increase. -/
def Counted (p : PortId) (n m : Nat) (s t : State) : Prop := m = bump16 n ∧ (n < 0xFFFF → Signalled p 7 s t)

/-- A completion entry of a stream in the host's memory (R375): the bytes written at the entry's place, with USER, LEN, CSTAT,
SUB, and the index of the stream counted on. -/
def Completed (q n : Nat) (y : Stream) (user : Word) (len cstat sub : Nat) (s t : State) : Prop :=
  (∃ z, (t.part q).stream n = some z ∧ z.cqCount = y.cqCount + 1 ∧ z.taken = sub + 1 ∧ z.fetch = none) ∧
  ∃ w, .hostWrite (s.part q).owner (y.cqIova + 32 * (y.cqCount % y.entries)) w ∈ t.out ∧ w.length = 32 ∧
    fieldAt w 0 8 = user.toNat ∧ fieldAt w 8 4 = len % 2 ^ 32 ∧ fieldAt w 13 1 = cstat ∧ fieldAt w 22 2 = sub % 2 ^ 16 ∧
    bitOf (fieldAt w 8 8) 63 = decide (y.cqCount / y.entries % 2 = 0)

/-- R369, R370, R359: a doorbell of an open stream of a partition that the port owns takes the new indices where the three checks
hold, and counts RING_ERR where they do not; one of another port's partition counts DB_IGNORED. -/
def StreamDoorbellsRule : Prop := ∀ (p : PortId) (q : PartId) (n : Fin 64) (v : Word) (s : State),
  s.reaches p = true → (s.port p).quiesced = false →
  (∀ y, (s.part q).st ≠ .empty → (s.part q).owner = p → (s.part q).stream n = some y →
    (doorbellOk y (wf64 v 15 0) (wf64 v 31 16) = true → ∃ t z, exec (.streamDoorbell p q n v) s = .next t ∧
      (t.part q).stream n = some z ∧ z.sqTail % 65536 = wf64 v 15 0 ∧ z.cqHead % 65536 = wf64 v 31 16 ∧
      y.sqTail ≤ z.sqTail ∧ z.sqTail ≤ y.sqTail + y.entries ∧ y.cqHead ≤ z.cqHead ∧
      z = { y with sqTail := z.sqTail, cqHead := z.cqHead } ∧ { t with parts := s.parts } = s) ∧
    (doorbellOk y (wf64 v 15 0) (wf64 v 31 16) = false → ∃ t, exec (.streamDoorbell p q n v) s = .next t ∧
      Counted p (s.port p).ringErr (t.port p).ringErr s t ∧ t.parts = s.parts)) ∧
  ((s.part q).st = .empty ∨ (s.part q).owner ≠ p → ∃ t, exec (.streamDoorbell p q n v) s = .next t ∧
    Counted p (s.port p).dbIgnored (t.port p).dbIgnored s t ∧ t.parts = s.parts)

/-- R371, R372: the fetch of a submission entry that the rules allow is under way; one they do not allow ends with BAD_ENTRY and
stops the partition. -/
def FrameFetchBeginsRule : Prop := ∀ (q : PartId) (n : Fin 64) (bs : List Byte) (y : Stream) (d : StreamDecl) (s : State),
  (s.part q).st = .running → (s.part q).turn ≠ 0 → (s.part q).replay = none → (s.part q).stream n = some y →
  (s.part q).decl n = some d → d.output = false → mayFetch q y s = true → bs.length = 32 →
  let e := subEntry bs
  let good := fieldAt bs 12 4 = 0 ∧ fieldAt bs 24 8 = 0 ∧ 1 ≤ fieldAt bs 8 4 ∧ fieldAt bs 8 4 ≤ d.bytes ∧
    (∃ w, (s.part q).windowOf e.buf e.len = some w)
  (good → ∃ t, exec (.frameFetch q n (.data bs)) s = .next t ∧
    (t.part q).stream n = some { y with fetch := some ⟨y.taken, fieldAt bs 0 8, fieldAt bs 8 4, BitVec.ofNat 64 (fieldAt bs 16 8), []⟩ } ∧
    { t with parts := s.parts } = s) ∧
  (¬ good → ∃ t, exec (.frameFetch q n (.data bs)) s = .next t ∧ (t.part q).st = .faulted ∧ (t.part q).stopStat = 0x02 ∧
    (QuietStop q s → ∃ l, SMap.get none s.hs.logNext t.hs.log = some l ∧ l.code = 0x0024))

/-- R372, R273, R313, R327, R375: a frame whose host read answers, once its pages translate for the host mover and those of its lines
that a migration has moved to HBM have come from there, is written to its slot, counts in the stream, and has a completion entry with
OK; until they have come, they are asked for and the fetch stays in hand. -/
def FrameArrivesRule : Prop := ∀ (q : PartId) (n : Fin 64) (bs : List Byte) (env : Env) (y : Stream) (f : Fetch) (s₀ : State),
  let s := applyUpsets env.upsets s₀
  let va := (((s.part q).windowOf f.buf f.len).map fun w => w.dva + (f.buf - w.iova)).getD 0
  let x := moverX q false (f.len / 64 + 2) va f.len s
  let u := frameAsk q n (f.len / 64 + 2) va f.len x.1
  let lines := (u.part q).fetchLines n
  let got := frameBytes lines (f.len / 64 + 2) va (padTo f.len bs)
  (s.part q).st = .running → turnOpen q s = true → (s.part q).stream n = some y → y.fetch = some f →
  x.2 = .go →
  ((lines.any fun e => e.2.isNone) = true → exec (.frameFetchComplete q n (.data bs) env) s₀ = .next u) ∧
  ((lines.all fun e => e.2.isSome) = true →
  ∃ t, exec (.frameFetchComplete q n (.data bs) env) s₀ = .next t ∧ Completed q n y f.user f.len 0 f.k s t ∧
    (∀ z, (t.part q).stream n = some z → SMap.get Frame.none f.k z.frames = ⟨f.len, true, none⟩ ∧ z.sqTail = y.sqTail) ∧
    (∀ c a, (s.part q).physOf y.core = some c → a = y.slotBase + y.slotStride * (f.k % y.nslot) → a % 8 = 0 →
      got.length = f.len → (∀ e ∈ got, e.2 = 0) →
      ∀ i, i < f.len / 8 → ((t.core c).word (a / 8 + i)).data.toNat = fieldAt (got.map (·.1)) (8 * i) 8))

/-- R369 to R372, R375, R273: a stream's doorbells, the fetch of a frame and its arrival. -/
def Obligations.StreamInput : Prop := StreamDoorbellsRule ∧ FrameFetchBeginsRule ∧ FrameArrivesRule

/-- R58, R374, R375: the oldest post with a submission entry that the rules allow is written and completes with POISON, TRUNCATED
or OK; one without an entry counts NO_BUF. -/
def Obligations.OutputPost : Prop := ∀ (q : PartId) (o : Post) (rest : List Post) (y : Stream) (d : StreamDecl) (bs : List Byte)
    (s : State), (s.part q).postQ = o :: rest → (s.part q).replay = none → (s.part q).stream o.stream = some y →
  (s.part q).decl o.stream = some d →
  (∀ w, d.output = true → y.taken < y.sqTail → y.fetch = none → bs.length = 32 → (subEntry bs).clear = true → 1 ≤ (subEntry bs).len →
    (s.part q).windowOf (subEntry bs).buf (subEntry bs).len = some w → w.writable = true →
    (postX q o (.data bs) s).2 = .go →
    ∃ t, exec (.postCompletion q (.data bs)) s = .next t ∧ (t.part q).postQ = rest ∧
      Completed q o.stream y (subEntry bs).user (min (subEntry bs).len o.bytes.length)
        (if o.poison then 4 else if (subEntry bs).len < o.bytes.length then 1 else 0) y.taken s t ∧
      (let va := w.dva + ((subEntry bs).buf - w.iova)
       let out := o.bytes.take (subEntry bs).len
       ∀ e r iova, out ≠ [] → out.length ≤ 64 - va % 64 → (hostXlate q va true (postX q o (.data bs) s).1).2 = .ok e → locate (e.at va) = .host r iova →
        .hostWrite r iova out ∈ t.out)) ∧
  (y.sqTail ≤ y.taken → ∀ e, ∃ t, exec (.postCompletion q e) s = .next t ∧ (t.part q).postQ = rest ∧
    (t.part q).stream o.stream = some y ∧
    Counted (s.part q).owner (s.port (s.part q).owner).noBuf (t.port (s.part q).owner).noBuf s t)

/-- R359, R360: a write of NTC_BASE or HPR_BASE sets BASE, EN and SIZE; one that sets EN takes HEAD, TAIL and DROP to 0. The
oldest notice goes to its place in the ring, counts DROP where the ring is full, and is discarded where EN is 0. -/
def Obligations.NoticeAndRings : Prop := ∀ (p : PortId) (s : State),
  (∀ v : Word, s.reaches p = true →
    let after := fun (r r' : Ring) => r'.base = wf64 v 63 12 * 4096 ∧ r'.size = wf64 v 3 0 ∧
      (r'.en = true ↔ wbit v 4 = true ∧ wf64 v 3 0 ≤ 8) ∧
      (r.en = false → r'.en = true → r'.head = 0 ∧ r'.tail = 0 ∧ r'.drop = 0) ∧
      (r.en = true ∨ r'.en = false → r'.head = r.head ∧ r'.tail = r.tail ∧ r'.drop = r.drop)
    (∃ t, exec (.ntcBaseWrite p v) s = .next t ∧ after (s.port p).ntc (t.port p).ntc ∧
      { t.port p with ntc := (s.port p).ntc } = s.port p ∧ t.port (otherPort p) = s.port (otherPort p) ∧
      { t with portA := s.portA, portB := s.portB } = s) ∧
    (∃ t, exec (.hprBaseWrite p v) s = .next t ∧ after (s.port p).hpr (t.port p).hpr ∧
      { t.port p with hpr := (s.port p).hpr } = s.port p ∧ t.port (otherPort p) = s.port (otherPort p) ∧
      { t with portA := s.portA, portB := s.portB } = s)) ∧
  (∀ n rest, s.hs.fwRun = true → (s.port p).notices = n :: rest →
    let r := (s.port p).ntc
    ((r.tail + 65536 - r.head) % 65536 ≠ 2 ^ (r.size + 4) → r.en = true → ∃ t w, exec (.noticeRingWrite p) s = .next t ∧
      (t.port p).notices = rest ∧ (t.port p).ntc = { r with tail := (r.tail + 1) % 65536 } ∧ Signalled p 5 s t ∧
      .hostWrite p (r.base + 32 * (r.tail % 2 ^ (r.size + 4))) w ∈ t.out ∧ w.length = 32 ∧ fieldAt w 0 1 = n.kind % 256 ∧
      fieldAt w 1 1 = n.part % 16 ∧ fieldAt w 2 1 = n.status % 256 ∧ fieldAt w 3 1 = n.state % 16 ∧ fieldAt w 8 8 = n.turn % 2 ^ 48 ∧
      fieldAt w 16 8 = n.refcyc % 2 ^ 48 ∧ fieldAt w 24 8 = n.epoch.toNat) ∧
    ((r.tail + 65536 - r.head) % 65536 = 2 ^ (r.size + 4) → r.en = true → ∃ t, exec (.noticeRingWrite p) s = .next t ∧
      (t.port p).notices = rest ∧ (t.port p).ntc = { r with drop := bump16 r.drop } ∧ t.out = s.out) ∧
    (r.en = false → ∃ t, exec (.noticeRingWrite p) s = .next t ∧ (t.port p).notices = rest ∧ (t.port p).ntc = r ∧ t.out = s.out))

/-- What a read that clears a register of port p puts out (R16, R356): the register's bytes, or those of one half; and of the module,
only that port changes. -/
def ReadOnlyPort (p : PortId) (bs : List Byte) (s t : State) : Prop :=
  t.out = s.out ++ [.readData p bs] ∧ t.port (otherPort p) = s.port (otherPort p) ∧
  { t with portA := s.portA, portB := s.portB, out := s.out } = s

/-- R14, R16, R356, R359, R362, R377: a read of ERR_CNT, ERR_CNT2, MBX_REFUSED or HMB_REFUSED gives the counters and clears them; a read
of one half of ERR_CNT or ERR_CNT2 clears the counters of that half. -/
def ReadsThatClearRule : Prop := ∀ (p : PortId) (m : MbxId) (s : State), s.reaches p = true →
  let x := s.port p
  let low := x.dbIgnored * 2 ^ 16 + x.ringErr
  let high := x.bar2Unmap * 2 ^ 16 + x.bar2Wr
  let low2 := x.bar2Ue * 2 ^ 16 + x.noBuf
  (∃ t, exec (.errCntRead ⟨p, none⟩) s = .next t ∧
    t.port p = { x with bar2Unmap := 0, bar2Wr := 0, dbIgnored := 0, ringErr := 0 } ∧
    ReadOnlyPort p (leBytes (high * 2 ^ 32 + low) 8) s t) ∧
  (low < 2 ^ 32 → ∃ t, exec (.errCntRead ⟨p, some 0⟩) s = .next t ∧ t.port p = { x with dbIgnored := 0, ringErr := 0 } ∧
    ReadOnlyPort p (leBytes low 4) s t) ∧
  (low < 2 ^ 32 → ∃ t, exec (.errCntRead ⟨p, some 1⟩) s = .next t ∧ t.port p = { x with bar2Unmap := 0, bar2Wr := 0 } ∧
    ReadOnlyPort p (leBytes high 4) s t) ∧
  (∃ t, exec (.errCnt2Read ⟨p, none⟩) s = .next t ∧ t.port p = { x with bar2Ue := 0, noBuf := 0 } ∧
    ReadOnlyPort p (leBytes low2 8) s t) ∧
  (low2 < 2 ^ 32 → (∃ t, exec (.errCnt2Read ⟨p, some 0⟩) s = .next t ∧ t.port p = { x with bar2Ue := 0, noBuf := 0 } ∧
      ReadOnlyPort p (leBytes low2 4) s t) ∧
    ∃ t, exec (.errCnt2Read ⟨p, some 1⟩) s = .next t ∧ t.port p = x ∧ ReadOnlyPort p (leBytes 0 4) s t) ∧
  (∃ t, exec (.mbxRefusedRead p m) s = .next t ∧ t.mbx p m = { s.mbx p m with refused := 0 } ∧
    (∀ i, i ≠ m.val → t.mbx p i = s.mbx p i) ∧ { t.port p with mbx := x.mbx } = x ∧ ReadOnlyPort p (leBytes (s.mbx p m).refused 8) s t) ∧
  (∃ t, exec (.hmbRefusedRead p) s = .next t ∧ t.port p = { x with hmb := { x.hmb with refused := 0 } } ∧
    ReadOnlyPort p (leBytes x.hmb.refused 8) s t)

/-- R356, R358, R359, R334, R381, R418, R477: writes of INT_CAUSE (of which each 1 clears a bit), of a ring's HEAD, of a mailbox's command
area, of a function's PowerState, which takes it back to D0 (log 77), of a die's BADRES and FQOVF, of a chatter threshold, and of
ALERT. -/
def RegisterWritesRule : Prop := ∀ s : State,
  (∀ p : PortId, s.reaches p = true →
    (∀ v : Word, ∃ t, exec (.registerWrite (.bar0 p) 0x0010 (leBytes v.toNat 8)) s = .next t ∧
      (∀ i, i < 64 → bitOf (t.port p).intCause i = (bitOf (s.port p).intCause i && !(wbit v i))) ∧
      { t.port p with intCause := (s.port p).intCause } = s.port p ∧ { t with portA := s.portA, portB := s.portB } = s) ∧
    (∀ v : Word, ∃ t, exec (.registerWrite (.bar0 p) 0x0048 (leBytes v.toNat 8)) s = .next t ∧
      t.port p = { s.port p with ntc := { (s.port p).ntc with head := wf64 v 15 0 } } ∧ { t with portA := s.portA, portB := s.portB } = s) ∧
    (∀ (m : MbxId) o (bs : List Byte), o < 0x1000 → 1 ≤ bs.length → o % 64 + bs.length ≤ 64 →
      ∃ t, exec (.registerWrite (.bar0 p) (0x8000 + 0x2000 * m + o) bs) s = .next t ∧
        (∀ a, (t.mbx p m).cmd.byte a = if o ≤ a ∧ a < o + bs.length then bs.getD (a - o) 0 else (s.mbx p m).cmd.byte a) ∧
        { t.mbx p m with cmd := (s.mbx p m).cmd } = s.mbx p m ∧ { t.port p with mbx := (s.port p).mbx } = s.port p ∧
        { t with portA := s.portA, portB := s.portB } = s)) ∧
  (∀ (p : PortId) v, v < 2 ^ 32 → v % 4 = 0 → s.running = true → (s.port p).linkUp = true →
    ∃ t, exec (.registerWrite (.pcie p .power) 0 (leBytes v 4)) s = .next t ∧ t.port p = { s.port p with d3 := false } ∧
      t.port (otherPort p) = s.port (otherPort p) ∧ { t with portA := s.portA, portB := s.portB } = s) ∧
  (s.fwUp = true →
    (∀ (d : DieId) (v : Word), ∃ t, exec (.registerWrite (.die d) 0 (leBytes v.toNat 8)) s = .next t ∧
      t.die d = { s.die d with badRes := (s.die d).badRes && !wbit v 33, fqOvf := (s.die d).fqOvf && !wbit v 32 } ∧
      (∀ i, i ≠ d.val → t.die i = s.die i) ∧ { t with dies := s.dies } = s) ∧
    (∀ c (v : Word), 1 ≤ c → c ≤ 0x0D → ∃ t, exec (.registerWrite .chat (8 * c) (leBytes v.toNat 8)) s = .next t ∧
      thresholdReg c t = wf64 v 31 0 ∧ (∀ k, k ≠ c → thresholdReg k t = thresholdReg k s) ∧
      { t with chat := s.chat } = s ∧ t.chat.counters = s.chat.counters)) ∧
  (∀ b : Byte, ∃ t, exec (.registerWrite .alert 10 [b]) s = .next t ∧
    (∀ i, i < 4 → bitOf t.mgmt.alert i = (bitOf s.mgmt.alert i && !b.getLsbD i)) ∧ { t with mgmt := s.mgmt } = s)

/-- R14, R16, R334, R356, R358, R359, R362, R377, R381, R418, R477: the register reads that clear, and register writes. -/
def Obligations.PortRegisters : Prop := ReadsThatClearRule ∧ RegisterWritesRule

/-- R294, R308, R310, R357, R381: a BAR2 read of a page that is not mapped reads all ones and counts; one of a mapped page asks for its
line at the regulator of the partition whose HBM it is, and completes with the line's bytes when the stack serves it; a write is
discarded and counts. -/
def Obligations.Bar2Access : Prop := ∀ (p : PortId) (o n : Nat) (env : Env) (s₀ : State),
  let s := applyUpsets env.upsets s₀
  1 ≤ n → o % 64 + n ≤ 64 → s.reaches p = true →
  (SMap.get none (o / 0x200000) (s.port p).bar2 = none → ∃ t, exec (.bar2Read p o n env) s₀ = .next t ∧
    .bar2Data p (List.replicate n 0xFF) false ∈ t.out ∧ Counted p (s.port p).bar2Unmap (t.port p).bar2Unmap s t ∧
    { t with portA := s.portA, portB := s.portB, out := s.out } = s) ∧
  (∀ q off, SMap.get none (o / 0x200000) (s.port p).bar2 = some (q, off) →
    let pa := hbmTarget (s.part q) (off + o % 0x200000)
    let k := (hbmDecode pa).stack
    let r := mkReq q (hostMoverUnit q s) (s.part q).turn false (pa / 64) (.bar2 p (s.port p).readNext) s
    pa < 0x6000000000 →
    ∃ t, exec (.bar2Read p o n env) s₀ = .next t ∧
      (t.port p).reads = (s.port p).reads ++ [⟨(s.port p).readNext, [⟨q, pa / 64, pa % 64, n, none⟩], false⟩] ∧
      (SMap.get Regulator.reset q (t.stack k).regs).waiting = (SMap.get Regulator.reset q (s.stack k).regs).waiting ++ [r] ∧
      (t.port p).bar2Unmap = (s.port p).bar2Unmap ∧ { t with portA := s.portA, portB := s.portB, hbms := s.hbms } = s) ∧
  (∀ (k : StackId) (pc : Fin 64) i e q first m, (SMap.get [] pc.val (s.stack k).queues)[i]? = some e →
    mayServe (SMap.get [] pc.val (s.stack k).queues) i e.req = true → s.hbmErr = [] → (∀ j, (s.stack j).spareErr = []) →
    e.req.write = false → e.req.who = .bar2 p o →
    (s.port p).reads.find? (fun x => x.k == o) = some ⟨o, [⟨q, e.req.line, first, m, none⟩], false⟩ →
    ∃ t, exec (.hbmServe k pc i env) s₀ = .next t ∧
      t.out = s.out ++ [.bar2Data p (((siteRead (hbmSite (64 * e.req.line) s) s).bytes.drop first).take m) false] ∧
      (t.port p).reads = (s.port p).reads.filter (fun x => x.k != o) ∧ t.hbm = s.hbm) ∧
  (∀ bs, ∃ t, exec (.bar2Write p o bs) s = .next t ∧ Counted p (s.port p).bar2Wr (t.port p).bar2Wr s t ∧
    { t with portA := s.portA, portB := s.portB, out := s.out } = s)

/-- R362, R363, R365, R377, R378: a doorbell that is accepted takes a copy of the command area and makes the mailbox BUSY; one that
is not counts in REFUSED; so does a write of HMB_CMD while BUSY. A command that has its result completes: response header and
block, LASTSTAT, DONE or ERROR, and the mailbox's vector. -/
def Obligations.MailboxCommands : Prop := ∀ (p : PortId) (m : MbxId) (s : State),
  (s.reaches p = true → ∀ bs, bs = leBytes 1 8 →
    (doorbellTaken p m s = true → ∃ t, exec (.registerWrite (.bar0 p) (0x0100 + 0x20 * m) bs) s = .next t ∧
      (t.mbx p m).state = 1 ∧ (t.mbx p m).seq = ((s.mbx p m).seq + 1) % 2 ^ 32 ∧ (t.mbx p m).copy = (s.mbx p m).cmd ∧
      (t.mbx p m).refused = (s.mbx p m).refused ∧ (t.mbx p m).order = s.hs.accepted ∧ t.hs.accepted = s.hs.accepted + 1 ∧
      (∀ i, i ≠ m.val → t.mbx p i = s.mbx p i) ∧ t.parts = s.parts) ∧
    (doorbellTaken p m s = false → ∃ t, exec (.mbxDoorbellRefused p m) s = .next t ∧
      exec (.registerWrite (.bar0 p) (0x0100 + 0x20 * m) bs) s = .next t ∧
      t.mbx p m = { s.mbx p m with refused := min ((s.mbx p m).refused + 1) (2 ^ 32 - 1) } ∧
      (∀ i, i ≠ m.val → t.mbx p i = s.mbx p i) ∧ { t with portA := s.portA, portB := s.portB } = s)) ∧
  (s.reaches p = true → (s.port p).hmb.state = 1 → ∀ v, ∃ t, exec (.hmbCmdRefused p v) s = .next t ∧
    (t.port p).hmb = { (s.port p).hmb with refused := min ((s.port p).hmb.refused + 1) (2 ^ 32 - 1) } ∧
    { t.port p with hmb := (s.port p).hmb } = s.port p ∧ { t with portA := s.portA, portB := s.portB } = s) ∧
  (∀ r, (s.mbx p m).state = 1 → s.fwUp = true → (s.mbx p m).result = some r →
    let c := (s.mbx p m).command
    ∃ t, exec (.mbxCommandComplete p m) s = .next t ∧ (t.mbx p m).state = (if r.status = 0 then 2 else 3) ∧
      (t.mbx p m).lastStat = r.status ∧ (t.mbx p m).result = none ∧ (t.mbx p m).abandoned = false ∧
      (t.mbx p m).seq = (s.mbx p m).seq ∧ Signalled p m s t ∧
      (t.mbx p m).resp.read 0 (32 + r.data.length) = leBytes c.op 2 ++ leBytes r.data.length 2 ++ leBytes r.status 1 ++ leBytes 0 3
        ++ leBytes c.tag 8 ++ leBytes (s.mbx p m).seq 4 ++ List.replicate 12 0 ++ r.data ∧
      { t with portA := s.portA, portB := s.portB, out := s.out } = s)
/-- A command ends in the step that carries it out (R365): its mailbox shows DONE or ERROR and LASTSTAT, the response is written over what
the area held, header and then block, and the mailbox's vector follows; the mailbox is otherwise as it was. -/
def Answered (p : PortId) (m : Nat) (st : Nat) (bs : List Byte) (s t : State) : Prop :=
  let b := s.mbx p m
  let c := b.command
  let header := leBytes c.op 2 ++ leBytes bs.length 2 ++ leBytes st 1 ++ leBytes 0 3 ++ leBytes c.tag 8 ++ leBytes b.seq 4 ++
    List.replicate 12 0
  t.mbx p m = { b with
    ran := true, result := none, abandoned := false, lastStat := st, state := if st = 0 then 2 else 3
    resp := b.resp.write 0 (header ++ bs) } ∧
  Signalled p m s t

/-- The state in which the firmware has taken up the command of a mailbox. -/
def takenUp (p : PortId) (m : Nat) (s : State) : State := s.updMbx p m fun b => { b with ran := true }

/-- Of the module nothing changes but mailbox m of port p and the vector that ends its command: INT_CAUSE, the vector sent or pending. -/
def OnlyBox (p : PortId) (m : Nat) (s t : State) : Prop :=
  { t.port p with mbx := (s.port p).mbx, intCause := (s.port p).intCause, pba := (s.port p).pba } = s.port p ∧
  (∀ i, i ≠ m → t.mbx p i = s.mbx p i) ∧ t.port (otherPort p) = s.port (otherPort p) ∧
  (t.out = s.out ∨ t.out = s.out ++ [.msix p m]) ∧ { t with portA := s.portA, portB := s.portB, out := s.out } = s

/-- R389, R390, R398, R407, R408, R411, R413, R481: the commands that only ask answer with OK and the block of their table, and
change nothing else but that a quote uses up one free value. -/
def Obligations.ModuleQueries : Prop := ∀ (p : PortId) (m : MbxId) (s : State),
  let c := (s.mbx p m).command
  (toRun p m 0x0001 s = true → ∃ t bs, exec (.identify p m) s = .next t ∧ Answered p m 0 bs s t ∧ OnlyBox p m s t ∧
    bs.length = 64 ∧ bs.take 5 = [1, 1, 2, 1, 0] ∧ fieldAt bs 5 1 = s.flash.activeSlot % 256 ∧ fieldAt bs 6 1 = portNum p ∧
    fieldAt bs 8 8 = s.build % 2 ^ 64 ∧ fieldAt bs 16 4 = s.flash.slotA.shownSvn % 2 ^ 32 ∧
    fieldAt bs 20 4 = s.flash.slotB.shownSvn % 2 ^ 32 ∧ fieldAt bs 24 4 = s.flash.floor % 2 ^ 32 ∧
    fieldAt bs 28 4 = s.flash.floorNext % 2 ^ 32 ∧ fieldAt bs 32 2 = enabledCores s % 2 ^ 16 ∧
    fieldAt bs 48 16 = Config.serial.toNat) ∧
  (toRun p m 0x0002 s = true → ∃ t bs, exec (.getHealth p m) s = .next t ∧ Answered p m 0 bs s t ∧ OnlyBox p m s t ∧
    bs.length = 80 ∧ fieldAt bs 0 1 = s.modh.code ∧ fieldAt bs 8 4 = dieStates s % 2 ^ 32 ∧
    (∀ k, k < 8 → fieldAt bs (16 + 4 * k) 2 = wrapTo 16 (s.stack k).temp) ∧
    fieldAt bs 60 2 = ((List.range 48).filter fun b => (s.lane b).retired).length ∧ fieldAt bs 62 2 = enabledCores s % 2 ^ 16 ∧
    fieldAt bs 64 2 = s.hs.logNext % 2 ^ 16 ∧ fieldAt bs 72 8 = s.hs.epoch.toNat) ∧
  (toRun p m 0x0050 s = true →
    (c.field 0 2 < 4096 ∧ 1 ≤ c.field 2 1 ∧ c.field 2 1 ≤ 63 ∧ c.zero 3 5 = true →
      ∃ t bs, exec (.faultLogRead p m) s = .next t ∧ Answered p m 0 bs s t ∧ OnlyBox p m s t ∧ bs.length = 8 + 64 * c.field 2 1 ∧
        fieldAt bs 0 2 = s.hs.logNext % 2 ^ 16 ∧ fieldAt bs 2 1 = c.field 2 1 ∧
        (∀ i k, i < c.field 2 1 → k = (c.field 0 2 + i) % 4096 →
          (SMap.get none k s.hs.log = none → (bs.drop (8 + 64 * i)).take 64 = List.replicate 64 0) ∧
          (∀ e, SMap.get none k s.hs.log = some e → (bs.drop (8 + 64 * i)).take 64 = e.bytes k))) ∧
    (¬ (c.field 0 2 < 4096 ∧ 1 ≤ c.field 2 1 ∧ c.field 2 1 ≤ 63 ∧ c.zero 3 5 = true) →
      ∃ t, exec (.faultLogRead p m) s = .next t ∧ Answered p m 0x03 [] s t ∧ OnlyBox p m s t)) ∧
  (toRun p m 0x0051 s = true → ∃ t bs, exec (.repairStatus p m) s = .next t ∧ Answered p m 0 bs s t ∧ OnlyBox p m s t ∧
    bs.length = 104 ∧ (∀ d, d < 12 → fieldAt bs d 1 = coresOn d s.flash.repair.cores % 256 ∧ fieldAt bs (12 + d) 1 = sparesOn d s % 256 ∧
      fieldAt bs (24 + d) 1 = coresOn d s.flash.pendCores % 256)) ∧
  (toRun p m 0x0015 s = true → ∃ t bs, exec (.partQuery p m) s = .next t ∧ Answered p m 0 bs s t ∧ OnlyBox p m s t ∧
    (let x := s.part c.part
     bs.length = 48 ∧ fieldAt bs 0 1 = x.st.code ∧ fieldAt bs 1 1 = x.stopStat % 256 ∧
     fieldAt bs 2 1 = b2n x.incomplete + 2 * b2n x.revoked + 4 * b2n x.nd + 8 * portNum x.owner + 16 * b2n (x.recd.mode ≠ 0) ∧
     fieldAt bs 4 4 = x.place.length % 2 ^ 32 ∧ fieldAt bs 8 8 = x.turn % 2 ^ 64 ∧ bs.drop 16 = x.report.bytes)) ∧
  (toRun p m 0x0071 s = true → ∃ t bs, exec (.linkQuery p m) s = .next t ∧ Answered p m 0 bs s t ∧ OnlyBox p m s t ∧
    bs.length = 548 ∧ fieldAt bs 0 2 = 64 ∧
    (∀ b, b < 64 → fieldAt bs (4 + 4 * b) 4 % 8 = (s.lane b).role % 4 + 4 * b2n (s.lane b).retired) ∧
    (∀ l, l < 36 → (s.link l).lanes ≤ 4 → fieldAt bs (260 + 8 * l) 8 % 32 =
      (if (s.link l).up then (s.link l).lanes else 0) + 8 * b2n (s.link l).spUsed + 16 * b2n (s.link l).up)) ∧
  (toRun p m 0x0061 s = true → ∃ t bs, exec (.attestQuote p m) s = .next t ∧ Answered p m 0 bs s t ∧
    OnlyBox p m s { t with free := s.free } ∧ t.free = s.free + 1 ∧
    (let n := if c.part < 16 then 4 else 3
     bs.length = 456 + 48 * n ∧ fieldAt bs 0 2 = 1 ∧ fieldAt bs 2 1 = n ∧ fieldAt bs 3 1 = portNum p ∧
     (c.params.length = 32 → (bs.drop 8).take 32 = c.params) ∧ (∀ i, i < 3 → fieldAt bs (72 + 48 * i) 1 = i + 1)))

/-- R391, R399, R405, R408, R409, R410, R412: the epoch marker, in the order in which its commands were accepted, a seed, the recorder's mode, the appending of repairs, a firmware
update and a lane plan, judged by the bundles retired when it was accepted. -/
def Obligations.ModuleSettings : Prop := ∀ (p : PortId) (m : MbxId) (s : State),
  let c := (s.mbx p m).command
  let x := s.part c.part
  (firstEpoch p m s = false → exec (.setEpoch p m) s = .next s) ∧
  (toRun p m 0x0003 s = true → firstEpoch p m s = true → ∃ t, exec (.setEpoch p m) s = .next t ∧ Answered p m 0 (leBytes s.hs.epoch.toNat 8) s t ∧
    t.hs = { s.hs with epoch := BitVec.ofNat 64 (c.field 0 8) } ∧ OnlyBox p m s { t with hs := s.hs }) ∧
  (toRun p m 0x0016 s = true → ∃ t, exec (.seedSet p m) s = .next t ∧
    Answered p m 0 (leBytes (x.seedNext.getD x.seed).toNat 8 ++ leBytes (x.turn + 1) 8) s t ∧
    t.part c.part = { x with seedNext := some (BitVec.ofNat 64 (c.field 0 8)) } ∧ (∀ i, i ≠ c.part → t.part i = s.part i) ∧
    OnlyBox p m s { t with parts := s.parts }) ∧
  (toRun p m 0x0040 s = true →
    (let off := c.field 0 1 = 0 ∧ c.field 8 8 = 0 ∧ c.field 16 8 = 0
     let on := 1 ≤ c.field 0 1 ∧ c.field 0 1 ≤ 2 ∧ 0x200000 ≤ c.field 16 8 ∧ c.field 16 8 % 0x200000 = 0 ∧
       inCapacity true x.regNext (c.field 8 8) (c.field 16 8) = true
     (c.zero 1 7 = true ∧ (off ∨ on) → ∃ t, exec (.recordConfig p m) s = .next t ∧ Answered p m 0 [] s t ∧
        t.part c.part = { x with recNext := some (c.field 0 1, c.field 8 8, c.field 16 8) } ∧
        OnlyBox p m s { t with parts := s.parts }) ∧
     (¬ (c.zero 1 7 = true ∧ (off ∨ on)) → ∃ t, exec (.recordConfig p m) s = .next t ∧ Answered p m 0x03 [] s t ∧ OnlyBox p m s t))) ∧
  (toRun p m 0x0052 s = true → ∃ t bs, exec (.repairCommit p m) s = .next t ∧ Answered p m 0 bs s t ∧ bs.length = 8 ∧
    (∀ k, k < 8 → (t.stack k).unpersist = [] ∧
      SMap.get [] k t.flash.remaps = SMap.get [] k s.flash.remaps ++ (s.stack k).unpersist.map (fun u => ⟨u.1, u.2.1, u.2.2⟩)) ∧
    t.flash.pendWritten = s.flash.pendCores ∧ t.flash.repair = s.flash.repair ∧
    OnlyBox p m s { t with hbms := s.hbms, flash := s.flash }) ∧
  (toRun p m 0x0070 s = true →
    (let roles := (List.range 64).map fun b => c.field (4 + b) 1
     let good := c.field 0 2 = 64 ∧ c.zero 2 2 = true ∧ planOk roles (s.mbx p m).seen.retired = true
     (good → ∃ t, exec (.lanePlanSet p m) s = .next t ∧
       Answered p m 0 [] s t ∧ t.flash = { s.flash with plan := some roles } ∧ OnlyBox p m s { t with flash := s.flash }) ∧
     (¬ good → ∃ t, exec (.lanePlanSet p m) s = .next t ∧ Answered p m 0x03 [] s t ∧ OnlyBox p m s t))) ∧
  (toRun p m 0x0060 s = true → 4096 ≤ c.field 8 4 → c.field 8 4 ≤ 2 ^ 24 → c.field 8 4 % 4096 = 0 →
    c.field 0 8 + c.field 8 4 ≤ 2 ^ 44 → c.field 12 1 < 4 → c.zero 13 3 = true → s.flash.activeSlot ≤ 1 →
    let n := 1 - s.flash.activeSlot
    (∀ bs : List Byte, bs.length = c.field 8 4 → ∃ t, exec (.fwUpdate p m (.data bs)) s = .next t ∧
      t.flash.slot (1 - n) = s.flash.slot (1 - n) ∧ t.flash.floor = s.flash.floor ∧ t.flash.repair = s.flash.repair ∧
      OnlyBox p m s { t with flash := s.flash } ∧
      if fwChecks bs = 3 ∧ s.flash.floorNext ≤ fieldAt bs 4 4 then
        (∃ r, Answered p m 0 r s t ∧ r.length = 16 ∧ fieldAt r 0 4 = n ∧ fieldAt r 4 4 = fieldAt bs 4 4 ∧
          fieldAt r 8 4 = t.flash.floorNext % 2 ^ 32) ∧
        t.flash.slot n = slotOf bs ∧ t.flash.active = (if bitOf (c.field 12 1) 0 then some n else s.flash.active) ∧
        t.flash.floorPend = (if bitOf (c.field 12 1) 1 then some (fieldAt bs 4 4) else s.flash.floorPend)
      else
        Answered p m 0x07 [] s t ∧ (t.flash.slot n).checks = 0 ∧ t.flash.active = s.flash.active ∧
          t.flash.floorPend = s.flash.floorPend) ∧
    (∀ f, ∃ t, exec (.fwUpdate p m (.fail f)) s = .next t ∧ Answered p m 0x0D [] s t ∧ (t.flash.slot n).checks = 0))

/-- What an accepted configuration record leaves (R33, R338, R394, R395): the partition CONFIGURED in turn 0 with the settings,
the image and the placement, its cores assigned, its HBM zero, its report returned, and the image's handle used up. -/
def Configured (p : PortId) (q handle : Nat) (c : PartCfg) (i : Image) (place : List (Nat × Nat)) (t : State) : Prop :=
  let x := t.part q
  x.st = .configured ∧ x.owner = p ∧ x.cfg = some c ∧ x.img = some i ∧ x.place = place ∧ x.turn = 0 ∧ x.stopStat = 0 ∧
  x.revoked = false ∧ x.streams = [] ∧ x.windows = [] ∧ SMap.get none handle (t.port p).staged = none ∧
  (∀ e ∈ place, (t.core e.2).part = some q) ∧
  (∀ e ∈ x.hbmAt, ∀ a, e.1 * 0x200000 ≤ a → a < (e.1 + e.2) * 0x200000 → t.hbm.byte a = 0)

/-- R394: PART_CREATE of a partition that is not EMPTY gives NO_RESOURCES, whichever port owns it, once the checks of R364 that come
first are passed; the partition that an accepted one leaves is CONFIGURED in turn 0, owned by the issuing port, and holds no mapping,
window, open stream or BAR2 page, and its recording is OFF. -/
def Obligations.CreatedPartition : Prop := ∀ (p : PortId) (m : MbxId) (s : State),
  (let c : Cmd := { (s.mbx p m) with copy := (s.mbx p m).cmd }.command
   s.reaches p = true → doorbellTaken p m s = true → c.op = 0x0010 → c.clear = true → c.plen = 144 + 16 * c.field 5 1 → c.plen ≤ 4064 → c.part < 16 →
   s.modh ≠ .failed → conflicts p m c 1 s = false → (s.part c.part).st ≠ .empty →
   ∃ t, exec (.registerWrite (.bar0 p) (0x0100 + 0x20 * m) (leBytes 1 8)) s = .next t ∧
    (t.mbx p m).result = some ⟨0x06, []⟩ ∧ t.parts = s.parts ∧ t.cores = s.cores) ∧
  (toRun p m 0x0010 s = true → ∃ t, exec (.partCreate p m) s = .next t ∧ ((t.mbx p m).lastStat = 0 →
    let q := (s.mbx p m).command.part
    let y := t.part q
    y.st = .configured ∧ y.turn = 0 ∧ y.owner = p ∧ y.regions = [] ∧ y.regNext = [] ∧ y.changes = [] ∧ y.windows = [] ∧
    y.winNext = [] ∧ y.streams = [] ∧ y.recd.mode = 0 ∧ y.recNext = none ∧
    (∀ o, ∀ e ∈ (t.port o).bar2, ∀ g, e.2 = some g → g.1 ≠ q)))

/-- R33, R338, R347, R387, R392, R394 to R397, R460: a record that every check of R347 passes configures its partition, for PART_CREATE and
for PART_RECONFIGURE; one that admission refuses gives DEADLINE with its report and changes no partition; PART_DESTROY, PART_STOP,
PART_START, judged by the state at its acceptance (R387), and IMAGE_LOAD. -/
def Obligations.PartitionCommands : Prop := ∀ (p : PortId) (m : MbxId) (s : State),
  let cmd := (s.mbx p m).command
  let q := cmd.part
  let x := s.part q
  let c := cfgOf cmd.params
  let h := cfgImage cmd.params
  let u := takenUp p m s
  (∀ i place keep, (if h = 0 then keep else SMap.get none h (s.port p).staged) = some i → cfgFieldsOk (bedWindow u) cmd.params = true →
    cfgFits q c i u = true → resourcesFit q p h c i u = true → placement q c u = some place →
    (∀ d, d < 12 → (bulkEntries i place d).length ≤ 16) →
    let v := admitPartition c i (capsOf c (c.span - 1) u) (spareOfPlace place u)
    (v.ok = true →
      (keep = none → toRun p m 0x0010 s = true → ∃ t bs, exec (.partCreate p m) s = .next t ∧ Answered p m 0 bs s t ∧
        bs.length = 32 ∧ (t.part q).report.bytes = bs ∧ Configured p q h c i place t) ∧
      (keep = x.img → toRun p m 0x0014 s = true → ∃ t bs, exec (.partReconfigure p m) s = .next t ∧ Answered p m 0 bs s t ∧
        bs.length = 32 ∧ (t.part q).report.bytes = bs ∧ Configured p q h c i place t)) ∧
    (v.ok = false → keep = none → toRun p m 0x0010 s = true → ∃ t bs, exec (.partCreate p m) s = .next t ∧
      Answered p m 0x05 bs s t ∧ bs.length = 32 ∧ OnlyBox p m s { t with free := s.free })) ∧
  (toRun p m 0x0011 s = true → ∃ t, exec (.partDestroy p m) s = .next t ∧ Answered p m 0 [] s t ∧ t.part q = Part.reset ∧
    (∀ k ∈ x.phys, (t.core k).part = none)) ∧
  (toRun p m 0x0012 s = true →
    (x.st = .running → ∃ t, exec (.partStop p m) s = .next t ∧ t.part q = { x with stopReq := some (p, m.val) } ∧
      t.mbx p m = { s.mbx p m with ran := true } ∧ OnlyBox p m s { t with parts := s.parts }) ∧
    (x.st ≠ .running → ∃ t bs, exec (.partStop p m) s = .next t ∧ Answered p m 0 bs s t ∧ OnlyBox p m s t ∧ bs.length = 16 ∧
      fieldAt bs 0 8 = x.turn % 2 ^ 64 ∧ fieldAt bs 8 1 = x.how.code)) ∧
  (∀ span k, toRun p m 0x0013 s = true → x.cfg = some k →
    let seen := (s.mbx p m).seen
    (k.member ≠ 0 → ∃ t, exec (.partStart p m span) s = .next t ∧ Answered p m 0x02 [] s t ∧ OnlyBox p m s t) ∧
    (k.member = 0 → seen.st = .running → ∃ t, exec (.partStart p m span) s = .next t ∧ Answered p m 0 [] s t ∧ OnlyBox p m s t) ∧
    (∀ st, k.member = 0 → seen.st ≠ .running → seen.refusal = some st →
      ∃ t, exec (.partStart p m span) s = .next t ∧ Answered p m st [] s t ∧ OnlyBox p m s t) ∧
    (k.member = 0 → seen.st ≠ .running → seen.refusal = none →
      (k.span ≠ 1 → handshakeOk k x.turn span = false →
        ∃ t, exec (.partStart p m span) s = .next t ∧ Answered p m 0x03 [] s t ∧ OnlyBox p m s t) ∧
      (k.span = 1 ∨ handshakeOk k x.turn span = true →
        (x.st = .running ∨ startRefusal x ≠ none →
          ∃ t, exec (.partStart p m span) s = .next t ∧ Answered p m 0 [] s t ∧ OnlyBox p m s t) ∧
        (x.st ≠ .running → startRefusal x = none → ∃ t, exec (.partStart p m span) s = .next t ∧ Answered p m 0 [] s t ∧
          (t.part q).st = .running ∧ (t.part q).stopStat = 0 ∧ (t.part q).nd = (x.nd || k.raceOff) ∧
          (k.span = 1 → (t.part q).caps = x.caps ∧ (t.part q).remote = [] ∧ OnlyBox p m s { t with parts := s.parts }) ∧
          (k.span ≠ 1 → (t.part q).remote = span.flatMap (·.cores) ∧ .spanStart q x.turn ∈ t.out) ∧
          { t.part q with st := x.st, stopStat := x.stopStat, nd := x.nd, caps := x.caps, remote := x.remote } = x ∧
          (∀ i, i ≠ q → t.part i = s.part i))))) ∧
  (∀ img bs parts i, toRun p m 0x0020 s = true → cmd.zero 16 8 = true →
    (cmd.field 0 8 = 0 → cmd.field 8 4 = 0 → SMap.get none (cmd.field 12 4) (s.port p).staged = some i →
      ∃ t, exec (.imageLoad p m img) s = .next t ∧ Answered p m 0 (imageBytes (cmd.field 12 4) i) s t ∧
        SMap.get none (cmd.field 12 4) (t.port p).staged = none) ∧
    (cmd.field 0 8 ≠ 0 → cmd.field 12 4 = 0 → 4096 ≤ cmd.field 8 4 → cmd.field 8 4 ≤ 2 ^ 30 → cmd.field 8 4 % 4096 = 0 →
      cmd.field 0 8 + cmd.field 8 4 ≤ 2 ^ 44 → (s.port p).staged.length < 8 → img.reply = .data bs → img.parts = some parts →
      imageOf bs (cmd.field 8 4) parts = some i →
      ceilDiv (cmd.field 8 4) 0x200000 + hbmHeld 16 u + stagedUnits p 0 u ≤ 196608 →
      ∃ t n, exec (.imageLoad p m img) s = .next t ∧ Answered p m 0 (imageBytes n i) s t ∧ n ≠ 0 ∧ n < 2 ^ 32 ∧
        SMap.get none n (s.port p).staged = none ∧ SMap.get none n (t.port p).staged = some i ∧
        (∀ k, k ≠ n → SMap.get none k (t.port p).staged = SMap.get none k (s.port p).staged)))

/-- R95, R319, R320, R327, R400 to R404, R406, R432: a mapping command that its checks allow is kept for the next boundary, with the
mappings in force as they are; one they do not allow gives BAD_PARAMETER; a migration marks its region; streams open and
close; a replay begins from turn 0. -/
def Obligations.MappingCommands : Prop := ∀ (p : PortId) (m : MbxId) (s : State),
  let c := (s.mbx p m).command
  let x := s.part c.part
  let kept := fun (k : ChangeKind) (va len : Nat) (t : State) =>
    (∃ ch, (t.part c.part).changes = x.changes ++ [ch] ∧ ch.kind = k ∧ ch.va = va ∧ ch.len = len) ∧
    (t.part c.part).regions = x.regions ∧ (t.part c.part).windows = x.windows ∧ (∀ i, i ≠ c.part → t.part i = s.part i) ∧
    { t with parts := s.parts, portA := s.portA, portB := s.portB, out := s.out } = s
  let bad := fun (i : Instr) => ∃ t, exec i s = .next t ∧ Answered p m 0x03 [] s t ∧ OnlyBox p m s t
  (toRun p m 0x0021 s = true → isMigrate p m s = false →
    (memMapOk c.part p c.params s = true → ∃ t, exec (.memMap p m) s = .next t ∧ Answered p m 0 [] s t ∧
      kept .map (c.field 0 8) (c.field 8 8) t) ∧
    (memMapOk c.part p c.params s = false → bad (.memMap p m))) ∧
  (toRun p m 0x0021 s = true → isMigrate p m s = true →
    (migrateOk c.part c.params s = true → ∃ t, exec (.memMapMigrate p m) s = .next t ∧
      (t.mbx p m).result = (s.mbx p m).result ∧ (t.mbx p m).state = 1 ∧ (t.mbx p m).ran = true ∧
      (t.part c.part).migr = some ⟨c.field 0 8, hbmTarget x (c.field 16 8), p, m.val⟩ ∧
      (t.part c.part).regions = changeRegion (c.field 0 8) (fun g => { g with mig := true }) x.regions ∧ t.hbm = s.hbm) ∧
    (migrateOk c.part c.params s = false → bad (.memMapMigrate p m))) ∧
  (toRun p m 0x0022 s = true →
    let va := c.field 0 8
    let len := c.field 8 8
    let ok := dvaOk va len && covered va len x.regNext && (regionsInside va len x.regNext).all fun g => decide (g.pa < hostBase .a)
    (ok = true → ∃ t, exec (.memUnmap p m) s = .next t ∧ Answered p m 0 [] s t ∧ kept .unmap va len t) ∧
    (ok = false → bad (.memUnmap p m))) ∧
  (toRun p m 0x0023 s = true →
    let dva := c.field 0 8
    let iova := c.field 8 8
    let len := c.field 16 8
    dvaOk dva len = true → iova % 4096 = 0 → iova + len ≤ 2 ^ 44 → c.field 24 1 ≤ 1 → c.zero 25 7 = true → rangeFree x dva len = true →
    (∀ g ∈ x.regNext, overlaps (dva + len) 0x200000 g.va g.len = false) →
    (∀ e ∈ x.nextWindows, overlaps (dva + len) 0x200000 e.2.dva e.2.len = false ∧ overlaps iova len e.2.iova e.2.len = false) →
    (∀ i, freeWindow x = some i → ∃ t, exec (.windowOpen p m) s = .next t ∧ Answered p m 0 (leBytes i 8) s t ∧
      kept .windowOpen dva len t ∧ SMap.get none i (t.part c.part).winNext = some ⟨dva, iova, len, bitOf (c.field 24 1) 0⟩) ∧
    (freeWindow x = none → ∃ t, exec (.windowOpen p m) s = .next t ∧ Answered p m 0x06 [] s t ∧ OnlyBox p m s t)) ∧
  (toRun p m 0x0024 s = true →
    (∀ w, SMap.get none (c.field 0 1) x.winNext = some w → c.zero 1 7 = true → holdsRing x w = false → x.migr = none →
      ∃ t, exec (.windowClose p m) s = .next t ∧ Answered p m 0 [] s t ∧ kept .windowClose w.dva w.len t ∧
        SMap.get none (c.field 0 1) (t.part c.part).winNext = none) ∧
    (SMap.get none (c.field 0 1) x.winNext = none ∨ c.zero 1 7 = false → bad (.windowClose p m))) ∧
  (toRun p m 0x0030 s = true →
    (streamOpenOk x c.params = true → ∃ t y, exec (.streamOpen p m) s = .next t ∧ Answered p m 0 [] s t ∧
      (t.part c.part).stream (c.field 0 1) = some y ∧ y.vector = c.field 1 1 ∧ y.entries = c.field 2 2 ∧ y.sqIova = c.field 8 8 ∧
      y.cqIova = c.field 16 8 ∧ y.sqTail = 0 ∧ y.cqHead = 0 ∧ y.cqCount = 0 ∧ y.taken = 0 ∧
      (∀ n, n ≠ c.field 0 1 → (t.part c.part).stream n = x.stream n)) ∧
    (streamOpenOk x c.params = false → bad (.streamOpen p m))) ∧
  (toRun p m 0x0031 s = true →
    (c.zero 1 7 = true → x.stream (c.field 0 1) ≠ none → ∃ t, exec (.streamClose p m) s = .next t ∧ Answered p m 0 [] s t ∧
      (t.part c.part).stream (c.field 0 1) = none ∧ (∀ n, n ≠ c.field 0 1 → (t.part c.part).stream n = x.stream n)) ∧
    (x.stream (c.field 0 1) = none → bad (.streamClose p m))) ∧
  (toRun p m 0x0041 s = true →
    let va := c.field 0 8
    let len := c.field 8 8
    (len < 4096 ∨ inCapacity false x.regNext va len = false → bad (.replayRun p m)) ∧
    (4096 ≤ len → inCapacity false x.regNext va len = true →
      let u := settleWrites c.part (takenUp p m s)
      let h := (peekBytes x.regNext 16 va 256 u).2
      let items := ringItems x.regNext va len h u
      (∀ st, recordRefusal x h s.build len items = some st → ∃ t, exec (.replayRun p m) s = .next t ∧ Answered p m st [] s t ∧
        OnlyBox p m (ringRead x.regNext va (ringLen h len) (takenUp p m s)) t) ∧
      (∀ k i l, recordRefusal x h s.build len items = none → items = some l → x.cfg = some k → x.img = some i → fieldAt h 88 8 ≠ 0 →
        ∃ t r, exec (.replayRun p m) s = .next t ∧ (t.part c.part).st = .running ∧ (t.part c.part).turn = 0 ∧
          (t.part c.part).replay = some r ∧ r.items = l ∧ r.port = p ∧
          r.last = (if c.field 16 8 = 0 then fieldAt h 88 8 else min (c.field 16 8) (fieldAt h 88 8)) ∧
          (t.part c.part).cfg = some k ∧ (t.part c.part).img = some i ∧ (t.part c.part).place = x.place)))

/-- R72, R76, R131, R134, R288, R387, R414: what the diagnostic tests read, of a core that they may name and of stamps and registers,
and the break request of the fifth, which a core that runs at a boundary takes at once. -/
def Obligations.Diagnostics : Prop := ∀ (p : PortId) (m : MbxId) (s : State),
  let c := (s.mbx p m).command
  let a := c.field 8 8
  let n := c.field 16 4
  let seen := (s.mbx p m).seen
  toRun p m 0x0080 s = true → c.zero 1 3 = true → c.zero 20 4 = true →
  (∀ r, c.field 0 1 = 1 → diagCore c true seen s = (0, some r) → ∃ t bs, exec (.diagRescueRead p m) s = .next t ∧
    Answered p m 0 bs s t ∧ OnlyBox p m s t ∧ bs.length = 1032 ∧ fieldAt bs 0 4 = 1024 ∧
    (∀ i, i < 128 → SMap.get CwErr.none (0x3FFC00 / 8 + i) (s.core r).storeErr = CwErr.none →
      fieldAt bs (8 + 8 * i) 8 = ((s.core r).word (0x3FFC00 / 8 + i)).data.toNat)) ∧
  (∀ r, c.field 0 1 = 2 → diagCore c true seen s = (0, some r) → 1 ≤ n → n ≤ 250 → a % 8 = 0 → a + 8 * n ≤ 0x400000 →
    (s.core r).storeErr = [] → ∃ t bs, exec (.diagCoreStoreRead p m) s = .next t ∧ Answered p m 0 bs s t ∧
    OnlyBox p m s t ∧ bs.length = 8 + 16 * n ∧ fieldAt bs 0 4 = 16 * n ∧
    (∀ i, i < n → fieldAt bs (8 + 16 * i) 16 % 2 ^ 32 = ((s.core r).word (a / 8 + i)).data.toNat % 2 ^ 32 ∧
      fieldAt bs (8 + 16 * i) 16 / 2 ^ 39 % 2 ^ 32 = ((s.core r).word (a / 8 + i)).data.toNat / 2 ^ 32 ∧
      fieldAt bs (8 + 16 * i) 16 / 2 ^ 78 % 16 = ((s.core r).word (a / 8 + i)).tag.toNat)) ∧
  (∀ b off, c.field 0 1 = 3 → locate a = .bed b off → c.part = 0xFF → 1 ≤ n → n ≤ 500 → a % 64 = 0 → off + 64 * n ≤ 0x80000000 →
    (s.bed b).stampErr = [] → ∃ t bs, exec (.diagStampRead p m) s = .next t ∧ Answered p m 0 bs s t ∧
    OnlyBox p m s t ∧ bs.length = 8 + 8 * n ∧
    (∀ i, i < n → let y := SMap.get Stamp.cold (off / 64 + i) (s.bed b).stamps
      y.wstamp < 2 ^ 16 → y.writer < 2 ^ 12 → y.rstamp < 2 ^ 16 → y.reader < 2 ^ 12 →
      fieldAt bs (8 + 8 * i) 8 % 2 ^ 56 = y.wstamp + y.writer * 2 ^ 16 + y.rstamp * 2 ^ 28 + y.reader * 2 ^ 44)) ∧
  (c.field 0 1 = 4 → c.part = 0xFF → 1 ≤ n → n ≤ 500 → a % 8 = 0 → 0x10000000000 ≤ a → a + 8 * n ≤ 0x10100000000 →
    (∀ i, i < n → fencedReg (a - 0x10000000000 + 8 * i) s = false) →
    ∃ t bs, exec (.diagRegisterRead p m) s = .next t ∧ Answered p m 0 bs s t ∧ OnlyBox p m s t ∧ bs.length = 8 + 8 * n ∧
      (∀ i, i < n → fieldAt bs (8 + 8 * i) 8 = moduleReg (a - 0x10000000000 + 8 * i) s % 2 ^ 64)) ∧
  (∀ r, c.field 0 1 = 5 → diagCore c false seen s = (0, some r) → s.coreRuns r = none ∨ (s.core r).delay.isSome = true →
    ∃ t, exec (.diagDebugBreak p m) s = .next t ∧ Answered p m 0 (List.replicate 8 0) s t ∧ 15 ∈ (t.core r).pend.imm ∧
      { t.core r with pend := (s.core r).pend } = s.core r ∧ (∀ i, i ≠ r → t.core i = s.core i) ∧ OnlyBox p m s { t with cores := s.cores }) ∧
  (∀ r q, c.field 0 1 = 5 → diagCore c false seen s = (0, some r) → s.coreRuns r = some q → (s.core r).delay = none →
    (s.core r).branchOnly = false → (s.core r).vload = false → (s.core r).pend.imm = [] → (s.core r).storeErr = [] →
    entryFail 15 (s.core r) = 0 →
    ∃ t, exec (.diagDebugBreak p m) s = .next t ∧ Answered p m 0 (List.replicate 8 0) s t ∧
      (t.core r).pc = ((s.core r).word (entryWord 15)).data.toNat ∧ (t.core r).pend = (s.core r).pend ∧ (t.core r).twait = false ∧
      (∀ i, i ≠ r → t.core i = s.core i) ∧ OnlyBox p m s { t with cores := s.cores }) ∧
  (c.field 0 1 = 1 → 16 ≤ c.part → ∃ t, exec (.diagRescueRead p m) s = .next t ∧ Answered p m 0x03 [] s t ∧ OnlyBox p m s t) ∧
  (∀ r, c.field 0 1 = 1 → c.part < 16 → seen.st = .running → (s.part c.part).physOf (c.field 4 4) = some r →
    ∃ t, exec (.diagRescueRead p m) s = .next t ∧ Answered p m 0x04 [] s t ∧ OnlyBox p m s t)

/-- The operation in the hard mailbox of port p has been carried out: its outcome is there; the mailbox is otherwise as it was. -/
def HmbDone (p : PortId) (r : HmbResult) (s t : State) : Prop := (t.port p).hmb = { (s.port p).hmb with done := some r }

/-- R378 to R381, R74, R367, R425, R455: the operations of the hard mailbox and their completion; a quiesced port's is done once no
request of its host mover is outstanding. -/
def Obligations.HardMailbox : Prop := ∀ (p : PortId) (s : State),
  let x := (s.port p).hmb
  (hmTurn p s = true →
    (x.op = 1 → ∃ t bs, exec (.hmStatus p) s = .next t ∧ HmbDone p ⟨0, 0, some bs⟩ s t ∧ bs.length = 4096 ∧
      fieldAt bs 8 8 = dieStates s % 2 ^ 64 ∧ fieldAt bs 32 8 = s.hs.refcyc % 2 ^ 48 ∧ fieldAt bs 40 8 = s.hs.logNext % 2 ^ 64 ∧
      fieldAt bs 48 8 = s.hs.epoch.toNat ∧ { t with portA := s.portA, portB := s.portB } = s) ∧
    (x.op = 2 → (4096 ≤ x.arg → ∃ t, exec (.hmLog p) s = .next t ∧ HmbDone p ⟨0x03, 0, none⟩ s t) ∧
      (x.arg < 4096 → ∃ t bs, exec (.hmLog p) s = .next t ∧ HmbDone p ⟨0, s.hs.logNext, some bs⟩ s t ∧ bs.length = 4096 ∧
        (∀ e, SMap.get none x.arg s.hs.log = some e → bs.take 64 = e.bytes x.arg) ∧
        { t with portA := s.portA, portB := s.portB } = s)) ∧
    (x.op = 3 → (s.hs.bootDone = false → ∃ t, exec (.hmDieReset p) s = .next t ∧ HmbDone p ⟨0x02, 0, none⟩ s t) ∧
      (s.hs.bootDone = true → 11 < x.arg → ∃ t, exec (.hmDieReset p) s = .next t ∧ HmbDone p ⟨0x03, 0, none⟩ s t) ∧
      (s.hs.bootDone = true → x.arg ≤ 11 → ∃ t, exec (.hmDieReset p) s = .next t ∧
        (t.port p).hmb.done = some ⟨0, 0, none⟩ ∧ t.die x.arg = { Die.reset with fenced := true, inBist := true } ∧
        (∀ d, d ≠ x.arg → t.die d = s.die d) ∧
        (∀ c, dieOfCore c = x.arg → t.core c = { Core.reset with part := (t.core c).part, lcore := (t.core c).lcore }) ∧
        (∀ q, q < 16 → (s.die x.arg).fenced = false → (s.part q).onDie x.arg = true → (s.part q).st ≠ .empty →
          (t.part q).st = .faulted ∧ (t.part q).stopStat = 0x08))) ∧
    (x.op = 4 → s.hs.bootDone = true → NoneInHand p s → NoneInHand (otherPort p) s → ∃ t, exec (.hmFwRestart p) s = .next t ∧
      (t.port p).hmb.done = some ⟨0, 0, none⟩ ∧ t.hs.fwRun = false ∧ t.hs.fwRestart = true ∧ t.hs.epoch = s.hs.epoch ∧
      (∀ q, q < 16 → (s.part q).st = .running → (t.part q).st = .faulted ∧ (t.part q).stopStat = 0x02) ∧
      (∀ r (m : Fin 4), (s.mbx r m).state = 1 → (t.mbx r m).state = 3 ∧ (t.mbx r m).abandoned = true) ∧
      (∀ r (m : Fin 4), (s.mbx r m).state ≠ 1 → (t.mbx r m).state = (s.mbx r m).state)) ∧
    (x.op = 5 → ∃ t, exec (.hmPortQuiesce p) s = .next t ∧ (hostBusy p t = false → (t.port p).hmb.done = some ⟨0, 0, none⟩) ∧
      (hostBusy p t = true → (t.port p).hmb.done = none) ∧
      (t.port p).quiesced = true ∧ (t.port p).linkUp = (s.port p).linkUp ∧ (t.port p).intCause = (s.port p).intCause ∧
      (∀ q, q < 16 → (s.part q).st = .running → (s.part q).owner = p → (s.part q).replay = none →
        (t.part q).st = .faulted ∧ (t.part q).stopStat = 0x0D) ∧
      (∀ q, q < 16 → (s.part q).st ≠ .running ∨ (s.part q).owner ≠ p → (t.part q).st = (s.part q).st)) ∧
    (x.op = 6 → ∀ st cs, snapshotCores p x.arg s = (st, cs) →
      (st ≠ 0 → ∃ t, exec (.hmSnapshot p) s = .next t ∧ HmbDone p ⟨st, 0, none⟩ s t ∧ t.cores = s.cores ∧ t.parts = s.parts) ∧
      (∀ c q, st = 0 → cs = [c] → (s.core c).part = some q → q < 16 → (s.part q).st = .running → (s.part q).replay = none →
        (s.core c).halt = 0 → ∃ t, exec (.hmSnapshot p) s = .next t ∧ (t.port p).hmb.done = some ⟨0, 0, none⟩ ∧
          (t.core c).halt = 2 ∧ (∀ w, w < 0x3FFC00 / 8 → (t.core c).word w = (s.core c).word w) ∧ (t.core c).a = (s.core c).a ∧ (t.core c).pc = (s.core c).pc ∧
          (t.part q).st = .faulted ∧ (t.part q).stopStat = 0x02))) ∧
  (x.state = 1 → 7 ≤ x.op → hmTurn p s = true → ∃ t, exec (.hmbComplete p) s = .next t ∧ (t.port p).hmb.state = 3 ∧
    (t.port p).hmb.result = 0x02 ∧ (t.port p).hmb.data = x.data ∧ Signalled p 4 s t ∧ t.parts = s.parts) ∧
  (∀ r, s.running = true → x.state = 1 → x.op < 7 → x.done = some r → ∃ t, exec (.hmbComplete p) s = .next t ∧
    (t.port p).hmb.state = (if r.result = 0 then 2 else 3) ∧ (t.port p).hmb.result = r.result ∧ (t.port p).hmb.info = r.info ∧
    (∀ bs, r.data = some bs → (t.port p).hmb.data.read 0 bs.length = bs) ∧ (r.data = none → (t.port p).hmb.data = x.data) ∧
    (t.port p).hmb.refused = x.refused ∧ Signalled p 4 s t ∧ t.hs = { s.hs with hmbLast := p } ∧ t.parts = s.parts ∧ t.cores = s.cores)

/-- R23, R420, R455, R416, R417, R421, R442, R458, R459, R461: a die whose self-test ends, the window of the chatter counters, a
trained spare that takes its lane's place, retries and codewords, of which one that cannot be corrected makes its lane lasting-faulty
(log 27), and links that train or go down, here or between other members of a span (R61). -/
def Obligations.DiesAndLanes : Prop := ∀ s : State, s.running = true →
  (∀ d : DieId, s.power.rails = true → (s.die d).inBist = true → s.flash.pendCores = [] → s.flash.pendRows = [] →
    let good := ((List.range 108).filter fun i => !s.flash.repair.cores.contains (108 * d + i)).length
    ∃ t, exec (.dieBistComplete d []) s = .next t ∧ (t.die d).inBist = false ∧ (t.die d).up = true ∧
      (t.die d).fenced = decide (good < 100) ∧ (100 ≤ good → (t.die d).disabled.length = 8) ∧ (∀ e, e ≠ d.val → t.die e = s.die e) ∧
      (100 ≤ good → ∃ l, SMap.get none s.hs.logNext t.hs.log = some l ∧ l.code = 0x0041 ∧ l.src = d.val)) ∧
  (∀ d : ChatDie, ∃ t, exec (.chatterWindowStart d) s = .next t ∧
    (let w := dieRefcyc (chatDie d) s / 2 ^ 27
     (∀ e ∈ t.chat.counters, resDie (resOfKey e.1) = chatDie d → e.2.window = w) ∧
     (∀ e ∈ s.chat.counters, e.2 ≠ Chat.zero → resDie (resOfKey e.1) ≠ chatDie d ∨ e.2.window = w → e ∈ t.chat.counters)) ∧
    t.chat.lasting = s.chat.lasting ∧ { t with chat := s.chat, lanes := s.lanes, links := s.links } = s) ∧
  (∀ (b : BundleId) l rest, (s.lane b).swaps = l :: rest → (s.lane b).retired = false →
    ∃ t, exec (.laneSpareSwap (.bundle b)) s = .next t ∧ t.lane b = { s.lane b with swaps := rest, spUsed := (s.lane b).spUsed + 1 } ∧
      t.flash.repair.lanes = s.flash.repair.lanes ++ [(b.val, l)] ∧ (∀ i, i ≠ b.val → t.lane i = s.lane i) ∧
      (∃ e, SMap.get none s.hs.logNext t.hs.log = some e ∧ e.code = 0x0003 ∧ e.cls = 0x0B ∧ e.addr = b * 18 + l ∧ e.d0 = 3) ∧
      { t with lanes := s.lanes, hs := s.hs, flash := s.flash } = s) ∧
  (∀ (k : LinkId) i, (s.link k).swap = some i →
    ∃ t, exec (.laneSpareSwap (.link k)) s = .next t ∧ t.link k = { s.link k with swap := none, spUsed := true } ∧
      (∀ j, j ≠ k.val → t.link j = s.link j) ∧ { t with links := s.links, hs := s.hs, flash := s.flash } = s) ∧
  (∀ (b : BundleId) (lane : Fin 18), (s.lane b).carries lane = true → ∃ t, exec (.flitCrcRetry b lane false) s = .next t ∧
    (t.lane b).retry.window = (s.bed (bedOfBundle b)).refcyc / 2 ^ 27 ∧
    (t.lane b).retry.count = (if (s.lane b).retry.window = (s.bed (bedOfBundle b)).refcyc / 2 ^ 27 then
      min ((s.lane b).retry.count + 1) (2 ^ 32 - 1) else 1)) ∧
  (∀ (l : LinkId) (lane : Fin 5) cut, (s.link l).carries lane = true →
    (SMap.get false (Res.key ⟨0x0C, l * 5 + lane⟩) s.chat.lasting = false → (s.link l).lasting.contains lane.val = false →
      ∃ t, exec (.fecCodeword l lane false cut) s = .next t ∧ (t.link l).fec = (s.link l).fec ∧ lane.val ∈ (t.link l).lasting ∧
        SMap.get false (Res.key ⟨0x0C, l * 5 + lane⟩) t.chat.lasting = true ∧
        ((∀ q, q < 16 → (s.part q).holdsLink l = false) →
          ∃ e, SMap.get none s.hs.logNext t.hs.log = some e ∧ e.code = 0x0002 ∧ e.cls = 0x0C ∧ e.d1 = 1)) ∧
    (SMap.get false (Res.key ⟨0x0C, l * 5 + lane⟩) s.chat.lasting = true → exec (.fecCodeword l lane false cut) s = .next s) ∧
    (∃ t, exec (.fecCodeword l lane true cut) s = .next t ∧ (t.link l).fec.window = (s.bed (l / 9)).refcyc / 2 ^ 27 ∧
      (t.link l).fec.count = (if (s.link l).fec.window = (s.bed (l / 9)).refcyc / 2 ^ 27 then
        min ((s.link l).fec.count + 1) (2 ^ 32 - 1) else 1))) ∧
  (∀ (l : LinkId) peer, s.power.rails = true → s.hs.bootDone = true → (s.link l).up = false → (s.link l).lasting = [] →
    (peer.bciMajor = 1 → ∃ t, exec (.scaleoutLinkTrain l peer) s = .next t ∧ (t.link l).up = true ∧ (t.link l).lanes = 4 ∧
      (t.link l).spUsed = false ∧ (t.link l).peer = some peer ∧ (∀ j, j ≠ l.val → t.link j = s.link j)) ∧
    (peer.bciMajor ≠ 1 → ∃ t, exec (.scaleoutLinkTrain l peer) s = .next t ∧ (t.link l).up = false)) ∧
  (∀ (l : LinkId) cut, (s.link l).up = true → ∃ t, exec (.scaleoutLinkDown (some l) cut) s = .next t ∧ (t.link l).up = false ∧
    (t.link l).lanes = 0 ∧ (∀ j, j ≠ l.val → t.link j = s.link j) ∧ t.hs.readmit = true ∧
    (∀ q, q < 16 → (s.part q).holdsLink l = false → t.part q = s.part q) ∧
    (∀ (q : PartId) cfg, (s.part q).holdsLink l = true → (s.part q).st = .running → (s.part q).replay = none →
      (s.part q).cfg = some cfg → (∀ k, k ∈ cfg.links → k ≠ l.val → (s.link k).up = false) ∨ (cfg.span ≠ 2 ∧ q ∈ cut) →
      (t.part q).st = .faulted ∧ (t.part q).stopStat = 0x02)) ∧
  (∀ cut, ∃ t, exec (.scaleoutLinkDown none cut) s = .next t ∧ t.links = s.links ∧
    (∀ q : PartId, q ∈ cut → 2 < (s.part q).span → (s.part q).st = .running → (s.part q).replay = none →
      (t.part q).st = .faulted ∧ (t.part q).stopStat = 0x02) ∧
    (∀ q : PartId, q ∉ cut ∨ (s.part q).span ≤ 2 → t.part q = s.part q))

/-- What an SPDM request puts out at port p, and the stage at which it leaves the exchange; nothing else changes (R479). -/
def Replied (p : PortId) (a : Spdm) (g : DoeStage) (s t : State) : Prop :=
  t.out = s.out ++ [.spdm p a] ∧ (t.port p).doe = g ∧ { t.port p with doe := (s.port p).doe } = s.port p ∧
  t.port (otherPort p) = s.port (otherPort p) ∧ { t with portA := s.portA, portB := s.portB, out := s.out } = s

/-- R477, R479, R480: the management target's registers, and the SPDM exchange. -/
def Obligations.ManagementAndSpdm : Prop := ∀ s : State,
  (s.running = true → ∀ (b : Byte) (a : Fin 128),
    exec (.i3cOffsetWrite b) s = .next { s with mgmt := { s.mgmt with off := b.toNat } } ∧
    exec (.setdasa a) s = .next { s with mgmt := { s.mgmt with addr := some a } }) ∧
  (∀ p : PortId, s.reaches p = true → s.fwUp = true → s.hs.keyReady = true →
    let g := (s.port p).doe
    let chain := Config.endorsementChain
    (∃ t, exec (.getVersion p) s = .next t ∧ Replied p .version .version s t) ∧
    (g = .version → ∃ t, exec (.getCapabilities p) s = .next t ∧ Replied p .capabilities .capabilities s t) ∧
    (g ≠ .version → ∃ t, exec (.getCapabilities p) s = .next t ∧ Replied p .unexpected g s t) ∧
    (g = .capabilities → ∃ t, exec (.negotiateAlgorithms p true true) s = .next t ∧ Replied p .algorithms .algorithms s t) ∧
    (g = .capabilities → ∀ x y, x = false ∨ y = false →
      ∃ t, exec (.negotiateAlgorithms p x y) s = .next t ∧ Replied p .noAlgorithm g s t) ∧
    (g ≠ .capabilities → ∀ x y, ∃ t, exec (.negotiateAlgorithms p x y) s = .next t ∧ Replied p .unexpected g s t) ∧
    (g = .algorithms → ∃ t, exec (.getDigests p) s = .next t ∧ Replied p (.digests (sha256 chain)) g s t) ∧
    (g = .algorithms → ∀ o n, o < chain.length → ∃ t bs, exec (.getCertificate p 0 o n) s = .next t ∧ bs = (chain.drop o).take n ∧
      Replied p (.certificate bs (chain.length - o - bs.length)) g s t) ∧
    (g = .algorithms → ∀ k o n, k ≠ 0 ∨ chain.length ≤ o →
      ∃ t, exec (.getCertificate p k o n) s = .next t ∧ Replied p .invalid g s t) ∧
    (g = .algorithms → ∀ nonce, ∃ t sum sig, exec (.challenge p 0 nonce) s = .next t ∧
      t.out = s.out ++ [.spdm p (.challengeAuth (sha256 chain) sum sig)] ∧ t.free = s.free + 1 ∧
      { t with out := s.out, free := s.free } = s) ∧
    (g = .algorithms → ∀ sign nonce, ∃ t bl sig, exec (.getMeasurements p 0xFF sign nonce) s = .next t ∧
      t.out = s.out ++ [.spdm p (.measurements bl.length bl sig)] ∧ bl.map (·.1) = indicesFor p s ∧
      (∀ e ∈ bl, e.2 = measurement e.1 s) ∧ (sig.isSome = sign) ∧ { t with out := s.out, free := s.free } = s) ∧
    (g ≠ .algorithms → (∃ t, exec (.getDigests p) s = .next t ∧ Replied p .unexpected g s t) ∧
      (∀ k o n, ∃ t, exec (.getCertificate p k o n) s = .next t ∧ Replied p .unexpected g s t) ∧
      (∀ k o, ∃ t, exec (.challenge p k o) s = .next t ∧ Replied p .unexpected g s t) ∧
      (∀ i b o, ∃ t, exec (.getMeasurements p i b o) s = .next t ∧ Replied p .unexpected g s t)))

/-- R454, R470, R427, R430: the restart of the firmware, and the end of a turn whose items are written. -/
def Obligations.RestartAndTurnEnd : Prop := ∀ s : State,
  (s.running = true → s.hs.fwRestart = true →
    (∀ n, bootSlot s.power.bootSel s.flash = some n → ∃ t, exec .controlCoreBoot s = .next t ∧ t.hs.fwRun = true ∧ t.hs.fwRestart = false ∧
      t.hs.slot = n ∧ t.hs.fw = s.flash.slot n ∧ t.hs.health = s.hs.health ∧ t.parts = s.parts ∧ t.cores = s.cores) ∧
    (bootSlot s.power.bootSel s.flash = none → ∃ t, exec .controlCoreBoot s = .next t ∧ t.hs.health = .failed)) ∧
  (∀ (q : PartId) e rest, s.running = true → (s.part q).turnEnds = e :: rest → (s.part q).replay = none →
    (s.part q).recd.isOpen = true → (s.part q).recd.off + 32 + e.payload.length ≤ (s.part q).recd.ringLen →
    ∃ t, exec (.turnEndItem q) s = .next t ∧ (t.part q).turnEnds = rest ∧
      (e.incomplete = false → (t.part q).recd = { (s.part q).recd with
        off := (s.part q).recd.off + 32 + e.payload.length, items := (s.part q).recd.items + 1, last := e.turn
        nd := (s.part q).recd.nd || e.nd }) ∧
      (e.incomplete = true → (t.part q).recd.isOpen = false ∧ (t.part q).recd.incomplete = true) ∧
      (∀ i, i ≠ q.val → t.part i = s.part i) ∧ t.cores = s.cores ∧ t.hbm = s.hbm)

/-- R381, R454, R473, R424, R391, R470, log 9 and log 7: the state after reset, in which power is good and MOD_RESET_N is asserted: health
INITIALIZING, the epoch marker 0, no entry of the fault log, every partition EMPTY, both links down, every register of a port
at its Reset value, and nothing fetched or put out. -/
def Obligations.ResetValues : Prop :=
  let s := State.reset
  s.hs.health = .initializing ∧ s.hs.epoch = 0 ∧ s.hs.log = [] ∧ s.hs.logNext = 0 ∧ s.hs.refcyc = 0 ∧ s.hs.fwRun = false ∧
  (∀ q, s.part q = Part.reset ∧ (s.part q).st = .empty ∧ (s.part q).turn = 0) ∧ (∀ c, s.core c = Core.reset ∧ (s.core c).part = none) ∧
  (∀ p, s.port p = Port.reset ∧ (s.port p).linkUp = false ∧ PortAtReset (s.port p)) ∧ (∀ a, s.hbm.byte a = 0) ∧
  (∀ d, (s.die d).up = false ∧ (s.die d).fenced = false) ∧ (∀ l, (s.link l).up = false) ∧
  s.power.good = true ∧ s.power.modReset = true ∧ s.power.trip = false ∧ s.running = false ∧ s.pending = [] ∧ s.out = [] ∧ s.free = 0
end

