-- ==== Sys2Proof/Laws/Map.lean ====
section
/-! SUPPORT. What the operations of sparse maps do: reads after writes, and that each keeps the canonical form. -/

namespace Sys2Proof.Machine

variable {α : Type} [DecidableEq α] (d : α)

omit [DecidableEq α] in
/-- No key of the map lies below lo. -/
theorem SMap.rising_le {lo : Nat} {m : SMap α} (h : SMap.rising lo m = true) : ∀ e ∈ m, lo ≤ e.1 := by
  induction m generalizing lo with
  | nil => simp
  | cons x m ih =>
    simp only [SMap.rising, Bool.and_eq_true, decide_eq_true_eq] at h
    intro e he
    rcases List.mem_cons.1 he with rfl | he
    · exact h.1
    · exact le_trans (by omega) (ih h.2 e he)

omit [DecidableEq α] in
theorem SMap.rising_mono {lo lo' : Nat} (hl : lo' ≤ lo) {m : SMap α} (h : SMap.rising lo m = true) :
    SMap.rising lo' m = true := by
  cases m with
  | nil => rfl
  | cons x m =>
    simp only [SMap.rising, Bool.and_eq_true, decide_eq_true_eq] at h ⊢
    exact ⟨le_trans hl h.1, h.2⟩

omit [DecidableEq α] in
theorem SMap.rising_of_le {lo lo' : Nat} {m : SMap α} (h : SMap.rising lo m = true) (hk : ∀ e ∈ m, lo' ≤ e.1) :
    SMap.rising lo' m = true := by
  cases m with
  | nil => rfl
  | cons x m =>
    simp only [SMap.rising, Bool.and_eq_true, decide_eq_true_eq] at h ⊢
    exact ⟨hk x (by simp), h.2⟩

omit [DecidableEq α] in
theorem SMap.rising_filter {lo : Nat} (p : Nat × α → Bool) {m : SMap α} (h : SMap.rising lo m = true) :
    SMap.rising lo (m.filter p) = true := by
  induction m generalizing lo with
  | nil => rfl
  | cons x m ih =>
    simp only [SMap.rising, Bool.and_eq_true, decide_eq_true_eq] at h
    rw [List.filter_cons]
    split
    · simp only [SMap.rising, Bool.and_eq_true, decide_eq_true_eq]
      exact ⟨h.1, ih h.2⟩
    · exact SMap.rising_mono (by omega) (ih h.2)

theorem SMap.noDefault_iff {m : SMap α} : SMap.noDefault d m = true ↔ ∀ e ∈ m, e.2 ≠ d := by
  induction m with
  | nil => simp [SMap.noDefault]
  | cons x m ih => simp [SMap.noDefault, ih]

theorem SMap.wf_iff {m : SMap α} : SMap.wf d m = true ↔ SMap.rising 0 m = true ∧ ∀ e ∈ m, e.2 ≠ d := by
  simp [SMap.wf, SMap.noDefault_iff]

theorem SMap.wf_filter (p : Nat × α → Bool) {m : SMap α} (h : SMap.wf d m = true) : SMap.wf d (m.filter p) = true := by
  rw [SMap.wf_iff] at h ⊢
  exact ⟨SMap.rising_filter p h.1, fun e he => h.2 e (List.mem_filter.1 he).1⟩

omit [DecidableEq α] in
theorem SMap.mem_insert {k : Nat} {v : α} {m : SMap α} {e : Nat × α} (h : e ∈ SMap.insert k v m) : e = (k, v) ∨ e ∈ m := by
  induction m with
  | nil => simpa [SMap.insert] using h
  | cons x m ih =>
    simp only [SMap.insert] at h
    split at h
    · rcases List.mem_cons.1 h with h | h
      · exact .inl h
      · exact .inr (List.mem_cons_of_mem _ h)
    · split at h
      · rcases List.mem_cons.1 h with h | h
        · exact .inl h
        · exact .inr h
      · rcases List.mem_cons.1 h with h | h
        · exact .inr (by simp [h])
        · rcases ih h with h | h
          · exact .inl h
          · exact .inr (List.mem_cons_of_mem _ h)

omit [DecidableEq α] in
theorem SMap.rising_insert {lo k : Nat} (hk : lo ≤ k) (v : α) {m : SMap α} (h : SMap.rising lo m = true) :
    SMap.rising lo (SMap.insert k v m) = true := by
  induction m generalizing lo with
  | nil => simpa [SMap.insert, SMap.rising] using hk
  | cons x m ih =>
    simp only [SMap.rising, Bool.and_eq_true, decide_eq_true_eq] at h
    simp only [SMap.insert]
    split
    · rename_i hx
      subst hx
      simp only [SMap.rising, Bool.and_eq_true, decide_eq_true_eq]
      exact ⟨h.1, h.2⟩
    · split
      · simp only [SMap.rising, Bool.and_eq_true, decide_eq_true_eq]
        exact ⟨hk, by omega, h.2⟩
      · simp only [SMap.rising, Bool.and_eq_true, decide_eq_true_eq]
        exact ⟨h.1, ih (by omega) h.2⟩

/-- A write keeps the canonical form. -/
theorem SMap.wf_set (k : Nat) (v : α) {m : SMap α} (h : SMap.wf d m = true) : SMap.wf d (SMap.set d k v m) = true := by
  unfold SMap.set
  split
  · exact SMap.wf_filter d _ h
  · rename_i hv
    rw [SMap.wf_iff] at h ⊢
    refine ⟨SMap.rising_insert (Nat.zero_le _) v h.1, fun e he => ?_⟩
    rcases SMap.mem_insert he with rfl | he
    · exact hv
    · exact h.2 e he

/-- A change of one key keeps the canonical form. -/
theorem SMap.wf_upd (k : Nat) (f : α → α) {m : SMap α} (h : SMap.wf d m = true) : SMap.wf d (SMap.upd d k f m) = true :=
  SMap.wf_set d k _ h

theorem SMap.mem_mapVals {f : Nat → α → α} {m : SMap α} {e : Nat × α} (h : e ∈ SMap.mapVals d f m) :
    e.2 ≠ d ∧ ∃ x ∈ m, x.1 = e.1 := by
  simp only [SMap.mapVals, List.mem_filterMap] at h
  obtain ⟨x, hx, h⟩ := h
  split at h
  · cases h
  · cases h
    exact ⟨‹_›, x, hx, rfl⟩

theorem SMap.rising_mapVals (f : Nat → α → α) {lo : Nat} {m : SMap α} (h : SMap.rising lo m = true) :
    SMap.rising lo (SMap.mapVals d f m) = true := by
  induction m generalizing lo with
  | nil => rfl
  | cons x m ih =>
    simp only [SMap.rising, Bool.and_eq_true, decide_eq_true_eq] at h
    have := ih h.2
    simp only [SMap.mapVals, List.filterMap_cons]
    split
    · exact SMap.rising_mono (by omega) this
    · rename_i y hy
      split at hy
      · cases hy
      · cases hy
        simp only [SMap.rising, Bool.and_eq_true, decide_eq_true_eq]
        exact ⟨h.1, this⟩

/-- A change of every value keeps the canonical form. -/
theorem SMap.wf_mapVals (f : Nat → α → α) {m : SMap α} (h : SMap.wf d m = true) : SMap.wf d (SMap.mapVals d f m) = true := by
  rw [SMap.wf_iff] at h ⊢
  exact ⟨SMap.rising_mapVals d f h.1, fun e he => (SMap.mem_mapVals d he).1⟩

theorem SMap.wf_foldl_set {β : Type} (k : β → Nat) (v : β → α) (l : List β) {m : SMap α} (h : SMap.wf d m = true) :
    SMap.wf d (l.foldl (fun m e => SMap.set d (k e) (v e) m) m) = true := by
  induction l generalizing m with
  | nil => exact h
  | cons x l ih => exact ih (SMap.wf_set d _ _ h)

omit [DecidableEq α] in
theorem SMap.get_insert (k : Nat) (v : α) (m : SMap α) : SMap.get d k (SMap.insert k v m) = v := by
  induction m with
  | nil => simp [SMap.insert, SMap.get]
  | cons x m ih =>
    simp only [SMap.insert]
    split
    · simp [SMap.get]
    · split
      · simp [SMap.get]
      · rename_i h _
        simp [SMap.get, h, ih]

omit [DecidableEq α] in
theorem SMap.get_insert_ne {j k : Nat} (hj : j ≠ k) (v : α) (m : SMap α) :
    SMap.get d j (SMap.insert k v m) = SMap.get d j m := by
  induction m with
  | nil => simp [SMap.insert, SMap.get, hj.symm]
  | cons x m ih =>
    simp only [SMap.insert]
    split
    · rename_i h
      simp [SMap.get, hj.symm, h]
    · split
      · simp [SMap.get, hj.symm]
      · simp [SMap.get, ih]

omit [DecidableEq α] in
theorem SMap.get_erase (k : Nat) (m : SMap α) : SMap.get d k (SMap.erase k m) = d := by
  induction m with
  | nil => rfl
  | cons x m ih =>
    simp only [SMap.erase, List.filter_cons] at ih ⊢
    split
    · rename_i h
      simp only [SMap.get]
      rw [if_neg (by simpa using h)]
      exact ih
    · exact ih

omit [DecidableEq α] in
theorem SMap.get_erase_ne {j k : Nat} (hj : j ≠ k) (m : SMap α) : SMap.get d j (SMap.erase k m) = SMap.get d j m := by
  induction m with
  | nil => rfl
  | cons x m ih =>
    simp only [SMap.erase, List.filter_cons] at ih ⊢
    split
    · simp only [SMap.get, ih]
    · rename_i h
      simp only [decide_eq_true_eq, not_not] at h
      simp only [SMap.get]
      rw [if_neg (by omega)]
      exact ih

/-- A read after a write of the same key. -/
@[simp] theorem SMap.get_set (k : Nat) (v : α) (m : SMap α) : SMap.get d k (SMap.set d k v m) = v := by
  unfold SMap.set
  split
  · rename_i h
    rw [SMap.get_erase, h]
  · exact SMap.get_insert d k v m

/-- A write leaves every other key alone. -/
theorem SMap.get_set_ne {j k : Nat} (hj : j ≠ k) (v : α) (m : SMap α) : SMap.get d j (SMap.set d k v m) = SMap.get d j m := by
  unfold SMap.set
  split
  · exact SMap.get_erase_ne d hj m
  · exact SMap.get_insert_ne d hj v m

@[simp] theorem SMap.get_upd (k : Nat) (f : α → α) (m : SMap α) : SMap.get d k (SMap.upd d k f m) = f (SMap.get d k m) :=
  SMap.get_set d k _ m

theorem SMap.get_upd_ne {j k : Nat} (hj : j ≠ k) (f : α → α) (m : SMap α) :
    SMap.get d j (SMap.upd d k f m) = SMap.get d j m :=
  SMap.get_set_ne d hj _ m

omit [DecidableEq α] in
@[simp] theorem SMap.get_nil (k : Nat) : SMap.get d k ([] : SMap α) = d := rfl

omit [DecidableEq α] in
theorem SMap.get_of_lt {lo k : Nat} (hk : k < lo) {m : SMap α} (h : SMap.rising lo m = true) : SMap.get d k m = d := by
  induction m generalizing lo with
  | nil => rfl
  | cons x m ih =>
    simp only [SMap.rising, Bool.and_eq_true, decide_eq_true_eq] at h
    simp only [SMap.get]
    rw [if_neg (by omega)]
    exact ih (by omega) h.2

/-- A change of every value, where the default stays the default. -/
theorem SMap.get_mapVals (f : Nat → α → α) (k : Nat) (hd : f k d = d) {lo : Nat} {m : SMap α}
    (h : SMap.rising lo m = true) : SMap.get d k (SMap.mapVals d f m) = f k (SMap.get d k m) := by
  induction m generalizing lo with
  | nil => exact hd.symm
  | cons x m ih =>
    simp only [SMap.rising, Bool.and_eq_true, decide_eq_true_eq] at h
    have ih := ih h.2
    by_cases hx : x.1 = k
    · have hm := SMap.rising_mapVals d f h.2
      simp only [SMap.mapVals, List.filterMap_cons, SMap.get, hx, if_true]
      split
      · rename_i hy
        split at hy
        · rename_i hf
          rw [hf]
          exact SMap.get_of_lt d (by omega) hm
        · cases hy
      · rename_i y hy
        split at hy
        · cases hy
        · cases hy
          simp [SMap.get]
    · simp only [SMap.mapVals, List.filterMap_cons, SMap.get, hx, if_false]
      split
      · exact ih
      · rename_i y hy
        split at hy
        · cases hy
        · cases hy
          rw [SMap.get, if_neg hx]
          exact ih

/-- Storing bytes keeps the canonical form. -/
theorem Mem.wf_write (m : Mem) (a : Nat) (bs : List Byte) (h : m.wf = true) : (m.write a bs).wf = true := by
  induction bs generalizing m a with
  | nil => exact h
  | cons b bs ih => exact ih _ _ (SMap.wf_set 0 a b h)

/-- Zeroing bytes keeps the canonical form. -/
theorem Mem.wf_clear (m : Mem) (a n : Nat) (h : m.wf = true) : (m.clear a n).wf = true := SMap.wf_filter 0 _ h

/-- A store leaves every byte outside the stored bytes alone. -/
theorem Mem.byte_write_ne (m : Mem) (a : Nat) (bs : List Byte) {b : Nat} (h : b < a ∨ a + bs.length ≤ b) :
    (m.write a bs).byte b = m.byte b := by
  induction bs generalizing m a with
  | nil => rfl
  | cons x bs ih =>
    simp only [List.length_cons] at h
    rw [Mem.write, ih _ _ (by omega)]
    exact SMap.get_set_ne 0 (by omega) _ _

/-- A stored byte reads back. -/
theorem Mem.byte_write (m : Mem) (a : Nat) (bs : List Byte) (i : Nat) (h : i < bs.length) :
    (m.write a bs).byte (a + i) = bs[i] := by
  induction bs generalizing m a i with
  | nil => cases h
  | cons x bs ih =>
    cases i with
    | zero =>
      rw [Mem.write, Mem.byte_write_ne _ _ _ (by omega)]
      exact SMap.get_set 0 _ _ _
    | succ i =>
      have := ih (SMap.set 0 a x m) (a + 1) i (by simpa using h)
      rw [Mem.write, show a + (i + 1) = a + 1 + i by omega, this]
      rfl

end Sys2Proof.Machine
end

