-- ==== Sys2Proof/Laws/State.lean ====
section
/-! SUPPORT. One lemma for each field under each update of the state, and the reads of the indexed groups after their
updates. -/

namespace Sys2Proof.Machine

variable (s : State)

@[simp] theorem State.updCore_pending (c : Nat) (f : Core → Core) : (s.updCore c f).pending = s.pending := rfl
@[simp] theorem State.updCore_free (c : Nat) (f : Core → Core) : (s.updCore c f).free = s.free := rfl
@[simp] theorem State.updCore_out (c : Nat) (f : Core → Core) : (s.updCore c f).out = s.out := rfl
@[simp] theorem State.updCore_power (c : Nat) (f : Core → Core) : (s.updCore c f).power = s.power := rfl
@[simp] theorem State.updCore_mgmt (c : Nat) (f : Core → Core) : (s.updCore c f).mgmt = s.mgmt := rfl
@[simp] theorem State.updCore_hs (c : Nat) (f : Core → Core) : (s.updCore c f).hs = s.hs := rfl
@[simp] theorem State.updCore_chat (c : Nat) (f : Core → Core) : (s.updCore c f).chat = s.chat := rfl
@[simp] theorem State.updCore_flash (c : Nat) (f : Core → Core) : (s.updCore c f).flash = s.flash := rfl
@[simp] theorem State.updCore_portA (c : Nat) (f : Core → Core) : (s.updCore c f).portA = s.portA := rfl
@[simp] theorem State.updCore_portB (c : Nat) (f : Core → Core) : (s.updCore c f).portB = s.portB := rfl
@[simp] theorem State.updCore_parts (c : Nat) (f : Core → Core) : (s.updCore c f).parts = s.parts := rfl
@[simp] theorem State.updCore_cores (c : Nat) (f : Core → Core) : (s.updCore c f).cores = SMap.upd Core.reset c f s.cores := rfl
@[simp] theorem State.updCore_dies (c : Nat) (f : Core → Core) : (s.updCore c f).dies = s.dies := rfl
@[simp] theorem State.updCore_beds (c : Nat) (f : Core → Core) : (s.updCore c f).beds = s.beds := rfl
@[simp] theorem State.updCore_hbms (c : Nat) (f : Core → Core) : (s.updCore c f).hbms = s.hbms := rfl
@[simp] theorem State.updCore_hbm (c : Nat) (f : Core → Core) : (s.updCore c f).hbm = s.hbm := rfl
@[simp] theorem State.updCore_hbmErr (c : Nat) (f : Core → Core) : (s.updCore c f).hbmErr = s.hbmErr := rfl
@[simp] theorem State.updCore_lanes (c : Nat) (f : Core → Core) : (s.updCore c f).lanes = s.lanes := rfl
@[simp] theorem State.updCore_links (c : Nat) (f : Core → Core) : (s.updCore c f).links = s.links := rfl
@[simp] theorem State.updPart_pending (q : Nat) (f : Part → Part) : (s.updPart q f).pending = s.pending := rfl
@[simp] theorem State.updPart_free (q : Nat) (f : Part → Part) : (s.updPart q f).free = s.free := rfl
@[simp] theorem State.updPart_out (q : Nat) (f : Part → Part) : (s.updPart q f).out = s.out := rfl
@[simp] theorem State.updPart_power (q : Nat) (f : Part → Part) : (s.updPart q f).power = s.power := rfl
@[simp] theorem State.updPart_mgmt (q : Nat) (f : Part → Part) : (s.updPart q f).mgmt = s.mgmt := rfl
@[simp] theorem State.updPart_hs (q : Nat) (f : Part → Part) : (s.updPart q f).hs = s.hs := rfl
@[simp] theorem State.updPart_chat (q : Nat) (f : Part → Part) : (s.updPart q f).chat = s.chat := rfl
@[simp] theorem State.updPart_flash (q : Nat) (f : Part → Part) : (s.updPart q f).flash = s.flash := rfl
@[simp] theorem State.updPart_portA (q : Nat) (f : Part → Part) : (s.updPart q f).portA = s.portA := rfl
@[simp] theorem State.updPart_portB (q : Nat) (f : Part → Part) : (s.updPart q f).portB = s.portB := rfl
@[simp] theorem State.updPart_parts (q : Nat) (f : Part → Part) : (s.updPart q f).parts = SMap.upd Part.reset q f s.parts := rfl
@[simp] theorem State.updPart_cores (q : Nat) (f : Part → Part) : (s.updPart q f).cores = s.cores := rfl
@[simp] theorem State.updPart_dies (q : Nat) (f : Part → Part) : (s.updPart q f).dies = s.dies := rfl
@[simp] theorem State.updPart_beds (q : Nat) (f : Part → Part) : (s.updPart q f).beds = s.beds := rfl
@[simp] theorem State.updPart_hbms (q : Nat) (f : Part → Part) : (s.updPart q f).hbms = s.hbms := rfl
@[simp] theorem State.updPart_hbm (q : Nat) (f : Part → Part) : (s.updPart q f).hbm = s.hbm := rfl
@[simp] theorem State.updPart_hbmErr (q : Nat) (f : Part → Part) : (s.updPart q f).hbmErr = s.hbmErr := rfl
@[simp] theorem State.updPart_lanes (q : Nat) (f : Part → Part) : (s.updPart q f).lanes = s.lanes := rfl
@[simp] theorem State.updPart_links (q : Nat) (f : Part → Part) : (s.updPart q f).links = s.links := rfl
@[simp] theorem State.updDie_pending (d : Nat) (f : Die → Die) : (s.updDie d f).pending = s.pending := rfl
@[simp] theorem State.updDie_free (d : Nat) (f : Die → Die) : (s.updDie d f).free = s.free := rfl
@[simp] theorem State.updDie_out (d : Nat) (f : Die → Die) : (s.updDie d f).out = s.out := rfl
@[simp] theorem State.updDie_power (d : Nat) (f : Die → Die) : (s.updDie d f).power = s.power := rfl
@[simp] theorem State.updDie_mgmt (d : Nat) (f : Die → Die) : (s.updDie d f).mgmt = s.mgmt := rfl
@[simp] theorem State.updDie_hs (d : Nat) (f : Die → Die) : (s.updDie d f).hs = s.hs := rfl
@[simp] theorem State.updDie_chat (d : Nat) (f : Die → Die) : (s.updDie d f).chat = s.chat := rfl
@[simp] theorem State.updDie_flash (d : Nat) (f : Die → Die) : (s.updDie d f).flash = s.flash := rfl
@[simp] theorem State.updDie_portA (d : Nat) (f : Die → Die) : (s.updDie d f).portA = s.portA := rfl
@[simp] theorem State.updDie_portB (d : Nat) (f : Die → Die) : (s.updDie d f).portB = s.portB := rfl
@[simp] theorem State.updDie_parts (d : Nat) (f : Die → Die) : (s.updDie d f).parts = s.parts := rfl
@[simp] theorem State.updDie_cores (d : Nat) (f : Die → Die) : (s.updDie d f).cores = s.cores := rfl
@[simp] theorem State.updDie_dies (d : Nat) (f : Die → Die) : (s.updDie d f).dies = SMap.upd Die.reset d f s.dies := rfl
@[simp] theorem State.updDie_beds (d : Nat) (f : Die → Die) : (s.updDie d f).beds = s.beds := rfl
@[simp] theorem State.updDie_hbms (d : Nat) (f : Die → Die) : (s.updDie d f).hbms = s.hbms := rfl
@[simp] theorem State.updDie_hbm (d : Nat) (f : Die → Die) : (s.updDie d f).hbm = s.hbm := rfl
@[simp] theorem State.updDie_hbmErr (d : Nat) (f : Die → Die) : (s.updDie d f).hbmErr = s.hbmErr := rfl
@[simp] theorem State.updDie_lanes (d : Nat) (f : Die → Die) : (s.updDie d f).lanes = s.lanes := rfl
@[simp] theorem State.updDie_links (d : Nat) (f : Die → Die) : (s.updDie d f).links = s.links := rfl
@[simp] theorem State.updBed_pending (b : Nat) (f : Bed → Bed) : (s.updBed b f).pending = s.pending := rfl
@[simp] theorem State.updBed_free (b : Nat) (f : Bed → Bed) : (s.updBed b f).free = s.free := rfl
@[simp] theorem State.updBed_out (b : Nat) (f : Bed → Bed) : (s.updBed b f).out = s.out := rfl
@[simp] theorem State.updBed_power (b : Nat) (f : Bed → Bed) : (s.updBed b f).power = s.power := rfl
@[simp] theorem State.updBed_mgmt (b : Nat) (f : Bed → Bed) : (s.updBed b f).mgmt = s.mgmt := rfl
@[simp] theorem State.updBed_hs (b : Nat) (f : Bed → Bed) : (s.updBed b f).hs = s.hs := rfl
@[simp] theorem State.updBed_chat (b : Nat) (f : Bed → Bed) : (s.updBed b f).chat = s.chat := rfl
@[simp] theorem State.updBed_flash (b : Nat) (f : Bed → Bed) : (s.updBed b f).flash = s.flash := rfl
@[simp] theorem State.updBed_portA (b : Nat) (f : Bed → Bed) : (s.updBed b f).portA = s.portA := rfl
@[simp] theorem State.updBed_portB (b : Nat) (f : Bed → Bed) : (s.updBed b f).portB = s.portB := rfl
@[simp] theorem State.updBed_parts (b : Nat) (f : Bed → Bed) : (s.updBed b f).parts = s.parts := rfl
@[simp] theorem State.updBed_cores (b : Nat) (f : Bed → Bed) : (s.updBed b f).cores = s.cores := rfl
@[simp] theorem State.updBed_dies (b : Nat) (f : Bed → Bed) : (s.updBed b f).dies = s.dies := rfl
@[simp] theorem State.updBed_beds (b : Nat) (f : Bed → Bed) : (s.updBed b f).beds = SMap.upd Bed.reset b f s.beds := rfl
@[simp] theorem State.updBed_hbms (b : Nat) (f : Bed → Bed) : (s.updBed b f).hbms = s.hbms := rfl
@[simp] theorem State.updBed_hbm (b : Nat) (f : Bed → Bed) : (s.updBed b f).hbm = s.hbm := rfl
@[simp] theorem State.updBed_hbmErr (b : Nat) (f : Bed → Bed) : (s.updBed b f).hbmErr = s.hbmErr := rfl
@[simp] theorem State.updBed_lanes (b : Nat) (f : Bed → Bed) : (s.updBed b f).lanes = s.lanes := rfl
@[simp] theorem State.updBed_links (b : Nat) (f : Bed → Bed) : (s.updBed b f).links = s.links := rfl
@[simp] theorem State.updStack_pending (k : Nat) (f : Stack → Stack) : (s.updStack k f).pending = s.pending := rfl
@[simp] theorem State.updStack_free (k : Nat) (f : Stack → Stack) : (s.updStack k f).free = s.free := rfl
@[simp] theorem State.updStack_out (k : Nat) (f : Stack → Stack) : (s.updStack k f).out = s.out := rfl
@[simp] theorem State.updStack_power (k : Nat) (f : Stack → Stack) : (s.updStack k f).power = s.power := rfl
@[simp] theorem State.updStack_mgmt (k : Nat) (f : Stack → Stack) : (s.updStack k f).mgmt = s.mgmt := rfl
@[simp] theorem State.updStack_hs (k : Nat) (f : Stack → Stack) : (s.updStack k f).hs = s.hs := rfl
@[simp] theorem State.updStack_chat (k : Nat) (f : Stack → Stack) : (s.updStack k f).chat = s.chat := rfl
@[simp] theorem State.updStack_flash (k : Nat) (f : Stack → Stack) : (s.updStack k f).flash = s.flash := rfl
@[simp] theorem State.updStack_portA (k : Nat) (f : Stack → Stack) : (s.updStack k f).portA = s.portA := rfl
@[simp] theorem State.updStack_portB (k : Nat) (f : Stack → Stack) : (s.updStack k f).portB = s.portB := rfl
@[simp] theorem State.updStack_parts (k : Nat) (f : Stack → Stack) : (s.updStack k f).parts = s.parts := rfl
@[simp] theorem State.updStack_cores (k : Nat) (f : Stack → Stack) : (s.updStack k f).cores = s.cores := rfl
@[simp] theorem State.updStack_dies (k : Nat) (f : Stack → Stack) : (s.updStack k f).dies = s.dies := rfl
@[simp] theorem State.updStack_beds (k : Nat) (f : Stack → Stack) : (s.updStack k f).beds = s.beds := rfl
@[simp] theorem State.updStack_hbms (k : Nat) (f : Stack → Stack) : (s.updStack k f).hbms = SMap.upd Stack.reset k f s.hbms := rfl
@[simp] theorem State.updStack_hbm (k : Nat) (f : Stack → Stack) : (s.updStack k f).hbm = s.hbm := rfl
@[simp] theorem State.updStack_hbmErr (k : Nat) (f : Stack → Stack) : (s.updStack k f).hbmErr = s.hbmErr := rfl
@[simp] theorem State.updStack_lanes (k : Nat) (f : Stack → Stack) : (s.updStack k f).lanes = s.lanes := rfl
@[simp] theorem State.updStack_links (k : Nat) (f : Stack → Stack) : (s.updStack k f).links = s.links := rfl
@[simp] theorem State.updLane_pending (b : Nat) (f : Bundle → Bundle) : (s.updLane b f).pending = s.pending := rfl
@[simp] theorem State.updLane_free (b : Nat) (f : Bundle → Bundle) : (s.updLane b f).free = s.free := rfl
@[simp] theorem State.updLane_out (b : Nat) (f : Bundle → Bundle) : (s.updLane b f).out = s.out := rfl
@[simp] theorem State.updLane_power (b : Nat) (f : Bundle → Bundle) : (s.updLane b f).power = s.power := rfl
@[simp] theorem State.updLane_mgmt (b : Nat) (f : Bundle → Bundle) : (s.updLane b f).mgmt = s.mgmt := rfl
@[simp] theorem State.updLane_hs (b : Nat) (f : Bundle → Bundle) : (s.updLane b f).hs = s.hs := rfl
@[simp] theorem State.updLane_chat (b : Nat) (f : Bundle → Bundle) : (s.updLane b f).chat = s.chat := rfl
@[simp] theorem State.updLane_flash (b : Nat) (f : Bundle → Bundle) : (s.updLane b f).flash = s.flash := rfl
@[simp] theorem State.updLane_portA (b : Nat) (f : Bundle → Bundle) : (s.updLane b f).portA = s.portA := rfl
@[simp] theorem State.updLane_portB (b : Nat) (f : Bundle → Bundle) : (s.updLane b f).portB = s.portB := rfl
@[simp] theorem State.updLane_parts (b : Nat) (f : Bundle → Bundle) : (s.updLane b f).parts = s.parts := rfl
@[simp] theorem State.updLane_cores (b : Nat) (f : Bundle → Bundle) : (s.updLane b f).cores = s.cores := rfl
@[simp] theorem State.updLane_dies (b : Nat) (f : Bundle → Bundle) : (s.updLane b f).dies = s.dies := rfl
@[simp] theorem State.updLane_beds (b : Nat) (f : Bundle → Bundle) : (s.updLane b f).beds = s.beds := rfl
@[simp] theorem State.updLane_hbms (b : Nat) (f : Bundle → Bundle) : (s.updLane b f).hbms = s.hbms := rfl
@[simp] theorem State.updLane_hbm (b : Nat) (f : Bundle → Bundle) : (s.updLane b f).hbm = s.hbm := rfl
@[simp] theorem State.updLane_hbmErr (b : Nat) (f : Bundle → Bundle) : (s.updLane b f).hbmErr = s.hbmErr := rfl
@[simp] theorem State.updLane_lanes (b : Nat) (f : Bundle → Bundle) : (s.updLane b f).lanes = SMap.upd Bundle.reset b f s.lanes := rfl
@[simp] theorem State.updLane_links (b : Nat) (f : Bundle → Bundle) : (s.updLane b f).links = s.links := rfl
@[simp] theorem State.updLink_pending (l : Nat) (f : Link → Link) : (s.updLink l f).pending = s.pending := rfl
@[simp] theorem State.updLink_free (l : Nat) (f : Link → Link) : (s.updLink l f).free = s.free := rfl
@[simp] theorem State.updLink_out (l : Nat) (f : Link → Link) : (s.updLink l f).out = s.out := rfl
@[simp] theorem State.updLink_power (l : Nat) (f : Link → Link) : (s.updLink l f).power = s.power := rfl
@[simp] theorem State.updLink_mgmt (l : Nat) (f : Link → Link) : (s.updLink l f).mgmt = s.mgmt := rfl
@[simp] theorem State.updLink_hs (l : Nat) (f : Link → Link) : (s.updLink l f).hs = s.hs := rfl
@[simp] theorem State.updLink_chat (l : Nat) (f : Link → Link) : (s.updLink l f).chat = s.chat := rfl
@[simp] theorem State.updLink_flash (l : Nat) (f : Link → Link) : (s.updLink l f).flash = s.flash := rfl
@[simp] theorem State.updLink_portA (l : Nat) (f : Link → Link) : (s.updLink l f).portA = s.portA := rfl
@[simp] theorem State.updLink_portB (l : Nat) (f : Link → Link) : (s.updLink l f).portB = s.portB := rfl
@[simp] theorem State.updLink_parts (l : Nat) (f : Link → Link) : (s.updLink l f).parts = s.parts := rfl
@[simp] theorem State.updLink_cores (l : Nat) (f : Link → Link) : (s.updLink l f).cores = s.cores := rfl
@[simp] theorem State.updLink_dies (l : Nat) (f : Link → Link) : (s.updLink l f).dies = s.dies := rfl
@[simp] theorem State.updLink_beds (l : Nat) (f : Link → Link) : (s.updLink l f).beds = s.beds := rfl
@[simp] theorem State.updLink_hbms (l : Nat) (f : Link → Link) : (s.updLink l f).hbms = s.hbms := rfl
@[simp] theorem State.updLink_hbm (l : Nat) (f : Link → Link) : (s.updLink l f).hbm = s.hbm := rfl
@[simp] theorem State.updLink_hbmErr (l : Nat) (f : Link → Link) : (s.updLink l f).hbmErr = s.hbmErr := rfl
@[simp] theorem State.updLink_lanes (l : Nat) (f : Link → Link) : (s.updLink l f).lanes = s.lanes := rfl
@[simp] theorem State.updLink_links (l : Nat) (f : Link → Link) : (s.updLink l f).links = SMap.upd Link.reset l f s.links := rfl
@[simp] theorem State.updHs_pending (f : Headstock → Headstock) : (s.updHs f).pending = s.pending := rfl
@[simp] theorem State.updHs_free (f : Headstock → Headstock) : (s.updHs f).free = s.free := rfl
@[simp] theorem State.updHs_out (f : Headstock → Headstock) : (s.updHs f).out = s.out := rfl
@[simp] theorem State.updHs_power (f : Headstock → Headstock) : (s.updHs f).power = s.power := rfl
@[simp] theorem State.updHs_mgmt (f : Headstock → Headstock) : (s.updHs f).mgmt = s.mgmt := rfl
@[simp] theorem State.updHs_hs (f : Headstock → Headstock) : (s.updHs f).hs = f s.hs := rfl
@[simp] theorem State.updHs_chat (f : Headstock → Headstock) : (s.updHs f).chat = s.chat := rfl
@[simp] theorem State.updHs_flash (f : Headstock → Headstock) : (s.updHs f).flash = s.flash := rfl
@[simp] theorem State.updHs_portA (f : Headstock → Headstock) : (s.updHs f).portA = s.portA := rfl
@[simp] theorem State.updHs_portB (f : Headstock → Headstock) : (s.updHs f).portB = s.portB := rfl
@[simp] theorem State.updHs_parts (f : Headstock → Headstock) : (s.updHs f).parts = s.parts := rfl
@[simp] theorem State.updHs_cores (f : Headstock → Headstock) : (s.updHs f).cores = s.cores := rfl
@[simp] theorem State.updHs_dies (f : Headstock → Headstock) : (s.updHs f).dies = s.dies := rfl
@[simp] theorem State.updHs_beds (f : Headstock → Headstock) : (s.updHs f).beds = s.beds := rfl
@[simp] theorem State.updHs_hbms (f : Headstock → Headstock) : (s.updHs f).hbms = s.hbms := rfl
@[simp] theorem State.updHs_hbm (f : Headstock → Headstock) : (s.updHs f).hbm = s.hbm := rfl
@[simp] theorem State.updHs_hbmErr (f : Headstock → Headstock) : (s.updHs f).hbmErr = s.hbmErr := rfl
@[simp] theorem State.updHs_lanes (f : Headstock → Headstock) : (s.updHs f).lanes = s.lanes := rfl
@[simp] theorem State.updHs_links (f : Headstock → Headstock) : (s.updHs f).links = s.links := rfl
@[simp] theorem State.updPower_pending (f : Power → Power) : (s.updPower f).pending = s.pending := rfl
@[simp] theorem State.updPower_free (f : Power → Power) : (s.updPower f).free = s.free := rfl
@[simp] theorem State.updPower_out (f : Power → Power) : (s.updPower f).out = s.out := rfl
@[simp] theorem State.updPower_power (f : Power → Power) : (s.updPower f).power = f s.power := rfl
@[simp] theorem State.updPower_mgmt (f : Power → Power) : (s.updPower f).mgmt = s.mgmt := rfl
@[simp] theorem State.updPower_hs (f : Power → Power) : (s.updPower f).hs = s.hs := rfl
@[simp] theorem State.updPower_chat (f : Power → Power) : (s.updPower f).chat = s.chat := rfl
@[simp] theorem State.updPower_flash (f : Power → Power) : (s.updPower f).flash = s.flash := rfl
@[simp] theorem State.updPower_portA (f : Power → Power) : (s.updPower f).portA = s.portA := rfl
@[simp] theorem State.updPower_portB (f : Power → Power) : (s.updPower f).portB = s.portB := rfl
@[simp] theorem State.updPower_parts (f : Power → Power) : (s.updPower f).parts = s.parts := rfl
@[simp] theorem State.updPower_cores (f : Power → Power) : (s.updPower f).cores = s.cores := rfl
@[simp] theorem State.updPower_dies (f : Power → Power) : (s.updPower f).dies = s.dies := rfl
@[simp] theorem State.updPower_beds (f : Power → Power) : (s.updPower f).beds = s.beds := rfl
@[simp] theorem State.updPower_hbms (f : Power → Power) : (s.updPower f).hbms = s.hbms := rfl
@[simp] theorem State.updPower_hbm (f : Power → Power) : (s.updPower f).hbm = s.hbm := rfl
@[simp] theorem State.updPower_hbmErr (f : Power → Power) : (s.updPower f).hbmErr = s.hbmErr := rfl
@[simp] theorem State.updPower_lanes (f : Power → Power) : (s.updPower f).lanes = s.lanes := rfl
@[simp] theorem State.updPower_links (f : Power → Power) : (s.updPower f).links = s.links := rfl
@[simp] theorem State.updFlash_pending (f : Flash → Flash) : (s.updFlash f).pending = s.pending := rfl
@[simp] theorem State.updFlash_free (f : Flash → Flash) : (s.updFlash f).free = s.free := rfl
@[simp] theorem State.updFlash_out (f : Flash → Flash) : (s.updFlash f).out = s.out := rfl
@[simp] theorem State.updFlash_power (f : Flash → Flash) : (s.updFlash f).power = s.power := rfl
@[simp] theorem State.updFlash_mgmt (f : Flash → Flash) : (s.updFlash f).mgmt = s.mgmt := rfl
@[simp] theorem State.updFlash_hs (f : Flash → Flash) : (s.updFlash f).hs = s.hs := rfl
@[simp] theorem State.updFlash_chat (f : Flash → Flash) : (s.updFlash f).chat = s.chat := rfl
@[simp] theorem State.updFlash_flash (f : Flash → Flash) : (s.updFlash f).flash = f s.flash := rfl
@[simp] theorem State.updFlash_portA (f : Flash → Flash) : (s.updFlash f).portA = s.portA := rfl
@[simp] theorem State.updFlash_portB (f : Flash → Flash) : (s.updFlash f).portB = s.portB := rfl
@[simp] theorem State.updFlash_parts (f : Flash → Flash) : (s.updFlash f).parts = s.parts := rfl
@[simp] theorem State.updFlash_cores (f : Flash → Flash) : (s.updFlash f).cores = s.cores := rfl
@[simp] theorem State.updFlash_dies (f : Flash → Flash) : (s.updFlash f).dies = s.dies := rfl
@[simp] theorem State.updFlash_beds (f : Flash → Flash) : (s.updFlash f).beds = s.beds := rfl
@[simp] theorem State.updFlash_hbms (f : Flash → Flash) : (s.updFlash f).hbms = s.hbms := rfl
@[simp] theorem State.updFlash_hbm (f : Flash → Flash) : (s.updFlash f).hbm = s.hbm := rfl
@[simp] theorem State.updFlash_hbmErr (f : Flash → Flash) : (s.updFlash f).hbmErr = s.hbmErr := rfl
@[simp] theorem State.updFlash_lanes (f : Flash → Flash) : (s.updFlash f).lanes = s.lanes := rfl
@[simp] theorem State.updFlash_links (f : Flash → Flash) : (s.updFlash f).links = s.links := rfl
@[simp] theorem State.drew_pending : (s.drew).pending = s.pending := rfl
@[simp] theorem State.drew_free : (s.drew).free = s.free + 1 := rfl
@[simp] theorem State.drew_out : (s.drew).out = s.out := rfl
@[simp] theorem State.drew_power : (s.drew).power = s.power := rfl
@[simp] theorem State.drew_mgmt : (s.drew).mgmt = s.mgmt := rfl
@[simp] theorem State.drew_hs : (s.drew).hs = s.hs := rfl
@[simp] theorem State.drew_chat : (s.drew).chat = s.chat := rfl
@[simp] theorem State.drew_flash : (s.drew).flash = s.flash := rfl
@[simp] theorem State.drew_portA : (s.drew).portA = s.portA := rfl
@[simp] theorem State.drew_portB : (s.drew).portB = s.portB := rfl
@[simp] theorem State.drew_parts : (s.drew).parts = s.parts := rfl
@[simp] theorem State.drew_cores : (s.drew).cores = s.cores := rfl
@[simp] theorem State.drew_dies : (s.drew).dies = s.dies := rfl
@[simp] theorem State.drew_beds : (s.drew).beds = s.beds := rfl
@[simp] theorem State.drew_hbms : (s.drew).hbms = s.hbms := rfl
@[simp] theorem State.drew_hbm : (s.drew).hbm = s.hbm := rfl
@[simp] theorem State.drew_hbmErr : (s.drew).hbmErr = s.hbmErr := rfl
@[simp] theorem State.drew_lanes : (s.drew).lanes = s.lanes := rfl
@[simp] theorem State.drew_links : (s.drew).links = s.links := rfl
@[simp] theorem State.drewN_pending (n : Nat) : (s.drewN n).pending = s.pending := rfl
@[simp] theorem State.drewN_free (n : Nat) : (s.drewN n).free = s.free + n := rfl
@[simp] theorem State.drewN_out (n : Nat) : (s.drewN n).out = s.out := rfl
@[simp] theorem State.drewN_power (n : Nat) : (s.drewN n).power = s.power := rfl
@[simp] theorem State.drewN_mgmt (n : Nat) : (s.drewN n).mgmt = s.mgmt := rfl
@[simp] theorem State.drewN_hs (n : Nat) : (s.drewN n).hs = s.hs := rfl
@[simp] theorem State.drewN_chat (n : Nat) : (s.drewN n).chat = s.chat := rfl
@[simp] theorem State.drewN_flash (n : Nat) : (s.drewN n).flash = s.flash := rfl
@[simp] theorem State.drewN_portA (n : Nat) : (s.drewN n).portA = s.portA := rfl
@[simp] theorem State.drewN_portB (n : Nat) : (s.drewN n).portB = s.portB := rfl
@[simp] theorem State.drewN_parts (n : Nat) : (s.drewN n).parts = s.parts := rfl
@[simp] theorem State.drewN_cores (n : Nat) : (s.drewN n).cores = s.cores := rfl
@[simp] theorem State.drewN_dies (n : Nat) : (s.drewN n).dies = s.dies := rfl
@[simp] theorem State.drewN_beds (n : Nat) : (s.drewN n).beds = s.beds := rfl
@[simp] theorem State.drewN_hbms (n : Nat) : (s.drewN n).hbms = s.hbms := rfl
@[simp] theorem State.drewN_hbm (n : Nat) : (s.drewN n).hbm = s.hbm := rfl
@[simp] theorem State.drewN_hbmErr (n : Nat) : (s.drewN n).hbmErr = s.hbmErr := rfl
@[simp] theorem State.drewN_lanes (n : Nat) : (s.drewN n).lanes = s.lanes := rfl
@[simp] theorem State.drewN_links (n : Nat) : (s.drewN n).links = s.links := rfl
@[simp] theorem State.emit_pending (o : Output) : (s.emit o).pending = s.pending := rfl
@[simp] theorem State.emit_free (o : Output) : (s.emit o).free = s.free := rfl
@[simp] theorem State.emit_out (o : Output) : (s.emit o).out = s.out ++ [o] := rfl
@[simp] theorem State.emit_power (o : Output) : (s.emit o).power = s.power := rfl
@[simp] theorem State.emit_mgmt (o : Output) : (s.emit o).mgmt = s.mgmt := rfl
@[simp] theorem State.emit_hs (o : Output) : (s.emit o).hs = s.hs := rfl
@[simp] theorem State.emit_chat (o : Output) : (s.emit o).chat = s.chat := rfl
@[simp] theorem State.emit_flash (o : Output) : (s.emit o).flash = s.flash := rfl
@[simp] theorem State.emit_portA (o : Output) : (s.emit o).portA = s.portA := rfl
@[simp] theorem State.emit_portB (o : Output) : (s.emit o).portB = s.portB := rfl
@[simp] theorem State.emit_parts (o : Output) : (s.emit o).parts = s.parts := rfl
@[simp] theorem State.emit_cores (o : Output) : (s.emit o).cores = s.cores := rfl
@[simp] theorem State.emit_dies (o : Output) : (s.emit o).dies = s.dies := rfl
@[simp] theorem State.emit_beds (o : Output) : (s.emit o).beds = s.beds := rfl
@[simp] theorem State.emit_hbms (o : Output) : (s.emit o).hbms = s.hbms := rfl
@[simp] theorem State.emit_hbm (o : Output) : (s.emit o).hbm = s.hbm := rfl
@[simp] theorem State.emit_hbmErr (o : Output) : (s.emit o).hbmErr = s.hbmErr := rfl
@[simp] theorem State.emit_lanes (o : Output) : (s.emit o).lanes = s.lanes := rfl
@[simp] theorem State.emit_links (o : Output) : (s.emit o).links = s.links := rfl
@[simp] theorem State.updPort_pending (p : PortId) (f : Port → Port) : (s.updPort p f).pending = s.pending := by cases p <;> rfl
@[simp] theorem State.updPort_free (p : PortId) (f : Port → Port) : (s.updPort p f).free = s.free := by cases p <;> rfl
@[simp] theorem State.updPort_out (p : PortId) (f : Port → Port) : (s.updPort p f).out = s.out := by cases p <;> rfl
@[simp] theorem State.updPort_power (p : PortId) (f : Port → Port) : (s.updPort p f).power = s.power := by cases p <;> rfl
@[simp] theorem State.updPort_mgmt (p : PortId) (f : Port → Port) : (s.updPort p f).mgmt = s.mgmt := by cases p <;> rfl
@[simp] theorem State.updPort_hs (p : PortId) (f : Port → Port) : (s.updPort p f).hs = s.hs := by cases p <;> rfl
@[simp] theorem State.updPort_chat (p : PortId) (f : Port → Port) : (s.updPort p f).chat = s.chat := by cases p <;> rfl
@[simp] theorem State.updPort_flash (p : PortId) (f : Port → Port) : (s.updPort p f).flash = s.flash := by cases p <;> rfl
@[simp] theorem State.updPort_parts (p : PortId) (f : Port → Port) : (s.updPort p f).parts = s.parts := by cases p <;> rfl
@[simp] theorem State.updPort_cores (p : PortId) (f : Port → Port) : (s.updPort p f).cores = s.cores := by cases p <;> rfl
@[simp] theorem State.updPort_dies (p : PortId) (f : Port → Port) : (s.updPort p f).dies = s.dies := by cases p <;> rfl
@[simp] theorem State.updPort_beds (p : PortId) (f : Port → Port) : (s.updPort p f).beds = s.beds := by cases p <;> rfl
@[simp] theorem State.updPort_hbms (p : PortId) (f : Port → Port) : (s.updPort p f).hbms = s.hbms := by cases p <;> rfl
@[simp] theorem State.updPort_hbm (p : PortId) (f : Port → Port) : (s.updPort p f).hbm = s.hbm := by cases p <;> rfl
@[simp] theorem State.updPort_hbmErr (p : PortId) (f : Port → Port) : (s.updPort p f).hbmErr = s.hbmErr := by cases p <;> rfl
@[simp] theorem State.updPort_lanes (p : PortId) (f : Port → Port) : (s.updPort p f).lanes = s.lanes := by cases p <;> rfl
@[simp] theorem State.updPort_links (p : PortId) (f : Port → Port) : (s.updPort p f).links = s.links := by cases p <;> rfl
@[simp] theorem State.updMbx_pending (p : PortId) (m : Nat) (f : Mbx → Mbx) : (s.updMbx p m f).pending = s.pending := by cases p <;> rfl
@[simp] theorem State.updMbx_free (p : PortId) (m : Nat) (f : Mbx → Mbx) : (s.updMbx p m f).free = s.free := by cases p <;> rfl
@[simp] theorem State.updMbx_out (p : PortId) (m : Nat) (f : Mbx → Mbx) : (s.updMbx p m f).out = s.out := by cases p <;> rfl
@[simp] theorem State.updMbx_power (p : PortId) (m : Nat) (f : Mbx → Mbx) : (s.updMbx p m f).power = s.power := by cases p <;> rfl
@[simp] theorem State.updMbx_mgmt (p : PortId) (m : Nat) (f : Mbx → Mbx) : (s.updMbx p m f).mgmt = s.mgmt := by cases p <;> rfl
@[simp] theorem State.updMbx_hs (p : PortId) (m : Nat) (f : Mbx → Mbx) : (s.updMbx p m f).hs = s.hs := by cases p <;> rfl
@[simp] theorem State.updMbx_chat (p : PortId) (m : Nat) (f : Mbx → Mbx) : (s.updMbx p m f).chat = s.chat := by cases p <;> rfl
@[simp] theorem State.updMbx_flash (p : PortId) (m : Nat) (f : Mbx → Mbx) : (s.updMbx p m f).flash = s.flash := by cases p <;> rfl
@[simp] theorem State.updMbx_parts (p : PortId) (m : Nat) (f : Mbx → Mbx) : (s.updMbx p m f).parts = s.parts := by cases p <;> rfl
@[simp] theorem State.updMbx_cores (p : PortId) (m : Nat) (f : Mbx → Mbx) : (s.updMbx p m f).cores = s.cores := by cases p <;> rfl
@[simp] theorem State.updMbx_dies (p : PortId) (m : Nat) (f : Mbx → Mbx) : (s.updMbx p m f).dies = s.dies := by cases p <;> rfl
@[simp] theorem State.updMbx_beds (p : PortId) (m : Nat) (f : Mbx → Mbx) : (s.updMbx p m f).beds = s.beds := by cases p <;> rfl
@[simp] theorem State.updMbx_hbms (p : PortId) (m : Nat) (f : Mbx → Mbx) : (s.updMbx p m f).hbms = s.hbms := by cases p <;> rfl
@[simp] theorem State.updMbx_hbm (p : PortId) (m : Nat) (f : Mbx → Mbx) : (s.updMbx p m f).hbm = s.hbm := by cases p <;> rfl
@[simp] theorem State.updMbx_hbmErr (p : PortId) (m : Nat) (f : Mbx → Mbx) : (s.updMbx p m f).hbmErr = s.hbmErr := by cases p <;> rfl
@[simp] theorem State.updMbx_lanes (p : PortId) (m : Nat) (f : Mbx → Mbx) : (s.updMbx p m f).lanes = s.lanes := by cases p <;> rfl
@[simp] theorem State.updMbx_links (p : PortId) (m : Nat) (f : Mbx → Mbx) : (s.updMbx p m f).links = s.links := by cases p <;> rfl

/-- A group depends on its map alone. -/
theorem State.core_of {s t : State} (h : s.cores = t.cores) (j : Nat) : s.core j = t.core j := by
  simp only [State.core, h]
@[simp] theorem State.core_updCore (j : Nat) (f : Core → Core) : (s.updCore j f).core j = f (s.core j) := SMap.get_upd _ _ _ _
theorem State.core_updCore_ne {i j : Nat} (h : i ≠ j) (f : Core → Core) : (s.updCore j f).core i = s.core i :=
  SMap.get_upd_ne _ h _ _
@[simp] theorem State.core_updPart (j : Nat) (q : Nat) (f : Part → Part) : (s.updPart q f).core j = s.core j := rfl
@[simp] theorem State.core_updDie (j : Nat) (d : Nat) (f : Die → Die) : (s.updDie d f).core j = s.core j := rfl
@[simp] theorem State.core_updBed (j : Nat) (b : Nat) (f : Bed → Bed) : (s.updBed b f).core j = s.core j := rfl
@[simp] theorem State.core_updStack (j : Nat) (k : Nat) (f : Stack → Stack) : (s.updStack k f).core j = s.core j := rfl
@[simp] theorem State.core_updLane (j : Nat) (b : Nat) (f : Bundle → Bundle) : (s.updLane b f).core j = s.core j := rfl
@[simp] theorem State.core_updLink (j : Nat) (l : Nat) (f : Link → Link) : (s.updLink l f).core j = s.core j := rfl
@[simp] theorem State.core_updHs (j : Nat) (f : Headstock → Headstock) : (s.updHs f).core j = s.core j := rfl
@[simp] theorem State.core_updPower (j : Nat) (f : Power → Power) : (s.updPower f).core j = s.core j := rfl
@[simp] theorem State.core_updFlash (j : Nat) (f : Flash → Flash) : (s.updFlash f).core j = s.core j := rfl
@[simp] theorem State.core_drew (j : Nat) : (s.drew).core j = s.core j := rfl
@[simp] theorem State.core_drewN (j : Nat) (n : Nat) : (s.drewN n).core j = s.core j := rfl
@[simp] theorem State.core_emit (j : Nat) (o : Output) : (s.emit o).core j = s.core j := rfl
@[simp] theorem State.core_updPort (j : Nat) (p : PortId) (f : Port → Port) : (s.updPort p f).core j = s.core j := by cases p <;> rfl
@[simp] theorem State.core_updMbx (j : Nat) (p : PortId) (m : Nat) (f : Mbx → Mbx) : (s.updMbx p m f).core j = s.core j := by cases p <;> rfl

/-- A group depends on its map alone. -/
theorem State.part_of {s t : State} (h : s.parts = t.parts) (j : Nat) : s.part j = t.part j := by
  simp only [State.part, h]
@[simp] theorem State.part_updPart (j : Nat) (f : Part → Part) : (s.updPart j f).part j = f (s.part j) := SMap.get_upd _ _ _ _
theorem State.part_updPart_ne {i j : Nat} (h : i ≠ j) (f : Part → Part) : (s.updPart j f).part i = s.part i :=
  SMap.get_upd_ne _ h _ _
@[simp] theorem State.part_updCore (j : Nat) (c : Nat) (f : Core → Core) : (s.updCore c f).part j = s.part j := rfl
@[simp] theorem State.part_updDie (j : Nat) (d : Nat) (f : Die → Die) : (s.updDie d f).part j = s.part j := rfl
@[simp] theorem State.part_updBed (j : Nat) (b : Nat) (f : Bed → Bed) : (s.updBed b f).part j = s.part j := rfl
@[simp] theorem State.part_updStack (j : Nat) (k : Nat) (f : Stack → Stack) : (s.updStack k f).part j = s.part j := rfl
@[simp] theorem State.part_updLane (j : Nat) (b : Nat) (f : Bundle → Bundle) : (s.updLane b f).part j = s.part j := rfl
@[simp] theorem State.part_updLink (j : Nat) (l : Nat) (f : Link → Link) : (s.updLink l f).part j = s.part j := rfl
@[simp] theorem State.part_updHs (j : Nat) (f : Headstock → Headstock) : (s.updHs f).part j = s.part j := rfl
@[simp] theorem State.part_updPower (j : Nat) (f : Power → Power) : (s.updPower f).part j = s.part j := rfl
@[simp] theorem State.part_updFlash (j : Nat) (f : Flash → Flash) : (s.updFlash f).part j = s.part j := rfl
@[simp] theorem State.part_drew (j : Nat) : (s.drew).part j = s.part j := rfl
@[simp] theorem State.part_drewN (j : Nat) (n : Nat) : (s.drewN n).part j = s.part j := rfl
@[simp] theorem State.part_emit (j : Nat) (o : Output) : (s.emit o).part j = s.part j := rfl
@[simp] theorem State.part_updPort (j : Nat) (p : PortId) (f : Port → Port) : (s.updPort p f).part j = s.part j := by cases p <;> rfl
@[simp] theorem State.part_updMbx (j : Nat) (p : PortId) (m : Nat) (f : Mbx → Mbx) : (s.updMbx p m f).part j = s.part j := by cases p <;> rfl

/-- A group depends on its map alone. -/
theorem State.die_of {s t : State} (h : s.dies = t.dies) (j : Nat) : s.die j = t.die j := by
  simp only [State.die, h]
@[simp] theorem State.die_updDie (j : Nat) (f : Die → Die) : (s.updDie j f).die j = f (s.die j) := SMap.get_upd _ _ _ _
theorem State.die_updDie_ne {i j : Nat} (h : i ≠ j) (f : Die → Die) : (s.updDie j f).die i = s.die i :=
  SMap.get_upd_ne _ h _ _
@[simp] theorem State.die_updCore (j : Nat) (c : Nat) (f : Core → Core) : (s.updCore c f).die j = s.die j := rfl
@[simp] theorem State.die_updPart (j : Nat) (q : Nat) (f : Part → Part) : (s.updPart q f).die j = s.die j := rfl
@[simp] theorem State.die_updBed (j : Nat) (b : Nat) (f : Bed → Bed) : (s.updBed b f).die j = s.die j := rfl
@[simp] theorem State.die_updStack (j : Nat) (k : Nat) (f : Stack → Stack) : (s.updStack k f).die j = s.die j := rfl
@[simp] theorem State.die_updLane (j : Nat) (b : Nat) (f : Bundle → Bundle) : (s.updLane b f).die j = s.die j := rfl
@[simp] theorem State.die_updLink (j : Nat) (l : Nat) (f : Link → Link) : (s.updLink l f).die j = s.die j := rfl
@[simp] theorem State.die_updHs (j : Nat) (f : Headstock → Headstock) : (s.updHs f).die j = s.die j := rfl
@[simp] theorem State.die_updPower (j : Nat) (f : Power → Power) : (s.updPower f).die j = s.die j := rfl
@[simp] theorem State.die_updFlash (j : Nat) (f : Flash → Flash) : (s.updFlash f).die j = s.die j := rfl
@[simp] theorem State.die_drew (j : Nat) : (s.drew).die j = s.die j := rfl
@[simp] theorem State.die_drewN (j : Nat) (n : Nat) : (s.drewN n).die j = s.die j := rfl
@[simp] theorem State.die_emit (j : Nat) (o : Output) : (s.emit o).die j = s.die j := rfl
@[simp] theorem State.die_updPort (j : Nat) (p : PortId) (f : Port → Port) : (s.updPort p f).die j = s.die j := by cases p <;> rfl
@[simp] theorem State.die_updMbx (j : Nat) (p : PortId) (m : Nat) (f : Mbx → Mbx) : (s.updMbx p m f).die j = s.die j := by cases p <;> rfl

/-- A group depends on its map alone. -/
theorem State.bed_of {s t : State} (h : s.beds = t.beds) (j : Nat) : s.bed j = t.bed j := by
  simp only [State.bed, h]
@[simp] theorem State.bed_updBed (j : Nat) (f : Bed → Bed) : (s.updBed j f).bed j = f (s.bed j) := SMap.get_upd _ _ _ _
theorem State.bed_updBed_ne {i j : Nat} (h : i ≠ j) (f : Bed → Bed) : (s.updBed j f).bed i = s.bed i :=
  SMap.get_upd_ne _ h _ _
@[simp] theorem State.bed_updCore (j : Nat) (c : Nat) (f : Core → Core) : (s.updCore c f).bed j = s.bed j := rfl
@[simp] theorem State.bed_updPart (j : Nat) (q : Nat) (f : Part → Part) : (s.updPart q f).bed j = s.bed j := rfl
@[simp] theorem State.bed_updDie (j : Nat) (d : Nat) (f : Die → Die) : (s.updDie d f).bed j = s.bed j := rfl
@[simp] theorem State.bed_updStack (j : Nat) (k : Nat) (f : Stack → Stack) : (s.updStack k f).bed j = s.bed j := rfl
@[simp] theorem State.bed_updLane (j : Nat) (b : Nat) (f : Bundle → Bundle) : (s.updLane b f).bed j = s.bed j := rfl
@[simp] theorem State.bed_updLink (j : Nat) (l : Nat) (f : Link → Link) : (s.updLink l f).bed j = s.bed j := rfl
@[simp] theorem State.bed_updHs (j : Nat) (f : Headstock → Headstock) : (s.updHs f).bed j = s.bed j := rfl
@[simp] theorem State.bed_updPower (j : Nat) (f : Power → Power) : (s.updPower f).bed j = s.bed j := rfl
@[simp] theorem State.bed_updFlash (j : Nat) (f : Flash → Flash) : (s.updFlash f).bed j = s.bed j := rfl
@[simp] theorem State.bed_drew (j : Nat) : (s.drew).bed j = s.bed j := rfl
@[simp] theorem State.bed_drewN (j : Nat) (n : Nat) : (s.drewN n).bed j = s.bed j := rfl
@[simp] theorem State.bed_emit (j : Nat) (o : Output) : (s.emit o).bed j = s.bed j := rfl
@[simp] theorem State.bed_updPort (j : Nat) (p : PortId) (f : Port → Port) : (s.updPort p f).bed j = s.bed j := by cases p <;> rfl
@[simp] theorem State.bed_updMbx (j : Nat) (p : PortId) (m : Nat) (f : Mbx → Mbx) : (s.updMbx p m f).bed j = s.bed j := by cases p <;> rfl

/-- A group depends on its map alone. -/
theorem State.stack_of {s t : State} (h : s.hbms = t.hbms) (j : Nat) : s.stack j = t.stack j := by
  simp only [State.stack, h]
@[simp] theorem State.stack_updStack (j : Nat) (f : Stack → Stack) : (s.updStack j f).stack j = f (s.stack j) := SMap.get_upd _ _ _ _
theorem State.stack_updStack_ne {i j : Nat} (h : i ≠ j) (f : Stack → Stack) : (s.updStack j f).stack i = s.stack i :=
  SMap.get_upd_ne _ h _ _
@[simp] theorem State.stack_updCore (j : Nat) (c : Nat) (f : Core → Core) : (s.updCore c f).stack j = s.stack j := rfl
@[simp] theorem State.stack_updPart (j : Nat) (q : Nat) (f : Part → Part) : (s.updPart q f).stack j = s.stack j := rfl
@[simp] theorem State.stack_updDie (j : Nat) (d : Nat) (f : Die → Die) : (s.updDie d f).stack j = s.stack j := rfl
@[simp] theorem State.stack_updBed (j : Nat) (b : Nat) (f : Bed → Bed) : (s.updBed b f).stack j = s.stack j := rfl
@[simp] theorem State.stack_updLane (j : Nat) (b : Nat) (f : Bundle → Bundle) : (s.updLane b f).stack j = s.stack j := rfl
@[simp] theorem State.stack_updLink (j : Nat) (l : Nat) (f : Link → Link) : (s.updLink l f).stack j = s.stack j := rfl
@[simp] theorem State.stack_updHs (j : Nat) (f : Headstock → Headstock) : (s.updHs f).stack j = s.stack j := rfl
@[simp] theorem State.stack_updPower (j : Nat) (f : Power → Power) : (s.updPower f).stack j = s.stack j := rfl
@[simp] theorem State.stack_updFlash (j : Nat) (f : Flash → Flash) : (s.updFlash f).stack j = s.stack j := rfl
@[simp] theorem State.stack_drew (j : Nat) : (s.drew).stack j = s.stack j := rfl
@[simp] theorem State.stack_drewN (j : Nat) (n : Nat) : (s.drewN n).stack j = s.stack j := rfl
@[simp] theorem State.stack_emit (j : Nat) (o : Output) : (s.emit o).stack j = s.stack j := rfl
@[simp] theorem State.stack_updPort (j : Nat) (p : PortId) (f : Port → Port) : (s.updPort p f).stack j = s.stack j := by cases p <;> rfl
@[simp] theorem State.stack_updMbx (j : Nat) (p : PortId) (m : Nat) (f : Mbx → Mbx) : (s.updMbx p m f).stack j = s.stack j := by cases p <;> rfl

/-- A group depends on its map alone. -/
theorem State.lane_of {s t : State} (h : s.lanes = t.lanes) (j : Nat) : s.lane j = t.lane j := by
  simp only [State.lane, h]
@[simp] theorem State.lane_updLane (j : Nat) (f : Bundle → Bundle) : (s.updLane j f).lane j = f (s.lane j) := SMap.get_upd _ _ _ _
theorem State.lane_updLane_ne {i j : Nat} (h : i ≠ j) (f : Bundle → Bundle) : (s.updLane j f).lane i = s.lane i :=
  SMap.get_upd_ne _ h _ _
@[simp] theorem State.lane_updCore (j : Nat) (c : Nat) (f : Core → Core) : (s.updCore c f).lane j = s.lane j := rfl
@[simp] theorem State.lane_updPart (j : Nat) (q : Nat) (f : Part → Part) : (s.updPart q f).lane j = s.lane j := rfl
@[simp] theorem State.lane_updDie (j : Nat) (d : Nat) (f : Die → Die) : (s.updDie d f).lane j = s.lane j := rfl
@[simp] theorem State.lane_updBed (j : Nat) (b : Nat) (f : Bed → Bed) : (s.updBed b f).lane j = s.lane j := rfl
@[simp] theorem State.lane_updStack (j : Nat) (k : Nat) (f : Stack → Stack) : (s.updStack k f).lane j = s.lane j := rfl
@[simp] theorem State.lane_updLink (j : Nat) (l : Nat) (f : Link → Link) : (s.updLink l f).lane j = s.lane j := rfl
@[simp] theorem State.lane_updHs (j : Nat) (f : Headstock → Headstock) : (s.updHs f).lane j = s.lane j := rfl
@[simp] theorem State.lane_updPower (j : Nat) (f : Power → Power) : (s.updPower f).lane j = s.lane j := rfl
@[simp] theorem State.lane_updFlash (j : Nat) (f : Flash → Flash) : (s.updFlash f).lane j = s.lane j := rfl
@[simp] theorem State.lane_drew (j : Nat) : (s.drew).lane j = s.lane j := rfl
@[simp] theorem State.lane_drewN (j : Nat) (n : Nat) : (s.drewN n).lane j = s.lane j := rfl
@[simp] theorem State.lane_emit (j : Nat) (o : Output) : (s.emit o).lane j = s.lane j := rfl
@[simp] theorem State.lane_updPort (j : Nat) (p : PortId) (f : Port → Port) : (s.updPort p f).lane j = s.lane j := by cases p <;> rfl
@[simp] theorem State.lane_updMbx (j : Nat) (p : PortId) (m : Nat) (f : Mbx → Mbx) : (s.updMbx p m f).lane j = s.lane j := by cases p <;> rfl

/-- A group depends on its map alone. -/
theorem State.link_of {s t : State} (h : s.links = t.links) (j : Nat) : s.link j = t.link j := by
  simp only [State.link, h]
@[simp] theorem State.link_updLink (j : Nat) (f : Link → Link) : (s.updLink j f).link j = f (s.link j) := SMap.get_upd _ _ _ _
theorem State.link_updLink_ne {i j : Nat} (h : i ≠ j) (f : Link → Link) : (s.updLink j f).link i = s.link i :=
  SMap.get_upd_ne _ h _ _
@[simp] theorem State.link_updCore (j : Nat) (c : Nat) (f : Core → Core) : (s.updCore c f).link j = s.link j := rfl
@[simp] theorem State.link_updPart (j : Nat) (q : Nat) (f : Part → Part) : (s.updPart q f).link j = s.link j := rfl
@[simp] theorem State.link_updDie (j : Nat) (d : Nat) (f : Die → Die) : (s.updDie d f).link j = s.link j := rfl
@[simp] theorem State.link_updBed (j : Nat) (b : Nat) (f : Bed → Bed) : (s.updBed b f).link j = s.link j := rfl
@[simp] theorem State.link_updStack (j : Nat) (k : Nat) (f : Stack → Stack) : (s.updStack k f).link j = s.link j := rfl
@[simp] theorem State.link_updLane (j : Nat) (b : Nat) (f : Bundle → Bundle) : (s.updLane b f).link j = s.link j := rfl
@[simp] theorem State.link_updHs (j : Nat) (f : Headstock → Headstock) : (s.updHs f).link j = s.link j := rfl
@[simp] theorem State.link_updPower (j : Nat) (f : Power → Power) : (s.updPower f).link j = s.link j := rfl
@[simp] theorem State.link_updFlash (j : Nat) (f : Flash → Flash) : (s.updFlash f).link j = s.link j := rfl
@[simp] theorem State.link_drew (j : Nat) : (s.drew).link j = s.link j := rfl
@[simp] theorem State.link_drewN (j : Nat) (n : Nat) : (s.drewN n).link j = s.link j := rfl
@[simp] theorem State.link_emit (j : Nat) (o : Output) : (s.emit o).link j = s.link j := rfl
@[simp] theorem State.link_updPort (j : Nat) (p : PortId) (f : Port → Port) : (s.updPort p f).link j = s.link j := by cases p <;> rfl
@[simp] theorem State.link_updMbx (j : Nat) (p : PortId) (m : Nat) (f : Mbx → Mbx) : (s.updMbx p m f).link j = s.link j := by cases p <;> rfl

@[simp] theorem State.port_updCore (i : PortId) (c : Nat) (f : Core → Core) : (s.updCore c f).port i = s.port i := by cases i <;> rfl
@[simp] theorem State.mbx_updCore (i : PortId) (j : Nat) (c : Nat) (f : Core → Core) : (s.updCore c f).mbx i j = s.mbx i j := by cases i <;> rfl
@[simp] theorem State.port_updPart (i : PortId) (q : Nat) (f : Part → Part) : (s.updPart q f).port i = s.port i := by cases i <;> rfl
@[simp] theorem State.mbx_updPart (i : PortId) (j : Nat) (q : Nat) (f : Part → Part) : (s.updPart q f).mbx i j = s.mbx i j := by cases i <;> rfl
@[simp] theorem State.port_updDie (i : PortId) (d : Nat) (f : Die → Die) : (s.updDie d f).port i = s.port i := by cases i <;> rfl
@[simp] theorem State.mbx_updDie (i : PortId) (j : Nat) (d : Nat) (f : Die → Die) : (s.updDie d f).mbx i j = s.mbx i j := by cases i <;> rfl
@[simp] theorem State.port_updBed (i : PortId) (b : Nat) (f : Bed → Bed) : (s.updBed b f).port i = s.port i := by cases i <;> rfl
@[simp] theorem State.mbx_updBed (i : PortId) (j : Nat) (b : Nat) (f : Bed → Bed) : (s.updBed b f).mbx i j = s.mbx i j := by cases i <;> rfl
@[simp] theorem State.port_updStack (i : PortId) (k : Nat) (f : Stack → Stack) : (s.updStack k f).port i = s.port i := by cases i <;> rfl
@[simp] theorem State.mbx_updStack (i : PortId) (j : Nat) (k : Nat) (f : Stack → Stack) : (s.updStack k f).mbx i j = s.mbx i j := by cases i <;> rfl
@[simp] theorem State.port_updLane (i : PortId) (b : Nat) (f : Bundle → Bundle) : (s.updLane b f).port i = s.port i := by cases i <;> rfl
@[simp] theorem State.mbx_updLane (i : PortId) (j : Nat) (b : Nat) (f : Bundle → Bundle) : (s.updLane b f).mbx i j = s.mbx i j := by cases i <;> rfl
@[simp] theorem State.port_updLink (i : PortId) (l : Nat) (f : Link → Link) : (s.updLink l f).port i = s.port i := by cases i <;> rfl
@[simp] theorem State.mbx_updLink (i : PortId) (j : Nat) (l : Nat) (f : Link → Link) : (s.updLink l f).mbx i j = s.mbx i j := by cases i <;> rfl
@[simp] theorem State.port_updHs (i : PortId) (f : Headstock → Headstock) : (s.updHs f).port i = s.port i := by cases i <;> rfl
@[simp] theorem State.mbx_updHs (i : PortId) (j : Nat) (f : Headstock → Headstock) : (s.updHs f).mbx i j = s.mbx i j := by cases i <;> rfl
@[simp] theorem State.port_updPower (i : PortId) (f : Power → Power) : (s.updPower f).port i = s.port i := by cases i <;> rfl
@[simp] theorem State.mbx_updPower (i : PortId) (j : Nat) (f : Power → Power) : (s.updPower f).mbx i j = s.mbx i j := by cases i <;> rfl
@[simp] theorem State.port_updFlash (i : PortId) (f : Flash → Flash) : (s.updFlash f).port i = s.port i := by cases i <;> rfl
@[simp] theorem State.mbx_updFlash (i : PortId) (j : Nat) (f : Flash → Flash) : (s.updFlash f).mbx i j = s.mbx i j := by cases i <;> rfl
@[simp] theorem State.port_drew (i : PortId) : (s.drew).port i = s.port i := by cases i <;> rfl
@[simp] theorem State.mbx_drew (i : PortId) (j : Nat) : (s.drew).mbx i j = s.mbx i j := by cases i <;> rfl
@[simp] theorem State.port_drewN (i : PortId) (n : Nat) : (s.drewN n).port i = s.port i := by cases i <;> rfl
@[simp] theorem State.mbx_drewN (i : PortId) (j : Nat) (n : Nat) : (s.drewN n).mbx i j = s.mbx i j := by cases i <;> rfl
@[simp] theorem State.port_emit (i : PortId) (o : Output) : (s.emit o).port i = s.port i := by cases i <;> rfl
@[simp] theorem State.mbx_emit (i : PortId) (j : Nat) (o : Output) : (s.emit o).mbx i j = s.mbx i j := by cases i <;> rfl

@[simp] theorem State.port_updPort (p : PortId) (f : Port → Port) : (s.updPort p f).port p = f (s.port p) := by cases p <;> rfl
theorem State.port_updPort_ne {i p : PortId} (h : i ≠ p) (f : Port → Port) : (s.updPort p f).port i = s.port i := by
  cases i <;> cases p <;> first | rfl | exact absurd rfl h
@[simp] theorem State.mbx_updMbx (p : PortId) (m : Nat) (f : Mbx → Mbx) : (s.updMbx p m f).mbx p m = f (s.mbx p m) := by
  simp [State.mbx, State.updMbx]
theorem State.mbx_updMbx_ne {i j : Nat} (p : PortId) (h : i ≠ j) (f : Mbx → Mbx) : (s.updMbx p j f).mbx p i = s.mbx p i := by
  simp [State.mbx, State.updMbx, SMap.get_upd_ne _ h]
@[simp] theorem State.updPort_running (p : PortId) (f : Port → Port) : (s.updPort p f).running = s.running := by cases p <;> rfl
@[simp] theorem State.updMbx_running (p : PortId) (m : Nat) (f : Mbx → Mbx) : (s.updMbx p m f).running = s.running := by
  cases p <;> rfl

end Sys2Proof.Machine
end

