-- ==== Sys2Proof/Laws/Canon.lean ====
section
/-! SUPPORT. Every operation and every meaning keeps the canonical form of the state: one lemma for each. -/

namespace Sys2Proof.Machine

/-- A state that may be absent is canonical where it is there. -/
structure OptCanon (o : Option State) : Prop where
  out : ∀ t, o = some t → t.Canon


theorem canon_ite {c : Prop} [Decidable c] {a b : State} (ha : a.Canon) (hb : b.Canon) : (if c then a else b).Canon := by
  split
  · exact ha
  · exact hb

theorem canon_foldl {α : Type} {g : State → α → State} {l : List α} {s : State} (h : s.Canon)
    (hg : ∀ s a, s.Canon → (g s a).Canon) : (l.foldl g s).Canon := by
  induction l generalizing s with
  | nil => exact h
  | cons x l ih => exact ih (hg _ _ h)

theorem canonOpt_none : OptCanon none := ⟨fun _ h => by cases h⟩

theorem canonOpt_some {s : State} (h : s.Canon) : OptCanon (some s) := ⟨fun _ e => by cases e; exact h⟩

theorem canonOpt_ite {c : Prop} [Decidable c] {a b : Option State} (ha : OptCanon a) (hb : OptCanon b) :
    OptCanon (if c then a else b) := by
  split
  · exact ha
  · exact hb

theorem canonOpt_map {α : Type} {o : Option α} {f : α → State} (h : ∀ a, (f a).Canon) : OptCanon (o.map f) := by
  cases o with
  | none => exact canonOpt_none
  | some a => exact canonOpt_some (h a)

theorem canonOpt_bind {α : Type} {o : Option α} {f : α → Option State} (h : ∀ a, OptCanon (f a)) : OptCanon (o.bind f) := by
  cases o with
  | none => exact canonOpt_none
  | some a => exact h a

theorem canon_getD {o : Option State} {s : State} (h : OptCanon o) (hs : s.Canon) : (o.getD s).Canon := by
  cases o with
  | none => exact hs
  | some a => exact h.out a rfl

theorem canon_of_pair {β : Type} {p : State × β} {a : State} {b : β} (e : p = (a, b)) (h : p.1.Canon) : a.Canon := by
  subst e; exact h

theorem canon_of_opt {p : Option State} {a : State} (e : p = some a) (h : OptCanon p) : a.Canon := h.out a e

theorem canonOpt_of_pair {β : Type} {p : Option State × β} {a : Option State} {b : β} (e : p = (a, b)) (h : OptCanon p.1) :
    OptCanon a := by
  subst e; exact h

theorem canon_of_fst {p : Option State × State} {a b : State} (e : p = (some a, b)) (h : OptCanon p.1 ∧ p.2.Canon) :
    a.Canon := by
  subst e; exact h.1.out _ rfl

theorem canon_of_snd {p : Option State × State} {a : Option State} {b : State} (e : p = (a, b)) (h : OptCanon p.1 ∧ p.2.Canon) :
    b.Canon := by
  subst e; exact h.2


/-- A change of what is no indexed group. -/
theorem canon_misc {s : State} {pending free out power mgmt hs chat flash portA portB} (h : s.Canon) :
    State.Canon ⟨pending, free, out, power, mgmt, hs, chat, flash, portA, portB, s.parts, s.cores, s.dies, s.beds, s.hbms,
      s.hbm, s.hbmErr, s.lanes, s.links⟩ := { h with }

variable {s : State} (h : s.Canon)
include h

theorem State.updCore_canon (c : Nat) (f : Core → Core) : (s.updCore c f).Canon := { h with cores := SMap.wf_upd _ _ _ h.cores }
theorem State.updPart_canon (c : Nat) (f : Part → Part) : (s.updPart c f).Canon := { h with parts := SMap.wf_upd _ _ _ h.parts }
theorem State.updDie_canon (c : Nat) (f : Die → Die) : (s.updDie c f).Canon := { h with dies := SMap.wf_upd _ _ _ h.dies }
theorem State.updBed_canon (c : Nat) (f : Bed → Bed) : (s.updBed c f).Canon := { h with beds := SMap.wf_upd _ _ _ h.beds }
theorem State.updStack_canon (c : Nat) (f : Stack → Stack) : (s.updStack c f).Canon := { h with hbms := SMap.wf_upd _ _ _ h.hbms }
theorem State.updLane_canon (c : Nat) (f : Bundle → Bundle) : (s.updLane c f).Canon := { h with lanes := SMap.wf_upd _ _ _ h.lanes }
theorem State.updLink_canon (c : Nat) (f : Link → Link) : (s.updLink c f).Canon := { h with links := SMap.wf_upd _ _ _ h.links }
theorem State.updPort_canon (p : PortId) (f : Port → Port) : (s.updPort p f).Canon := by cases p <;> exact { h with }
theorem State.updMbx_canon (p : PortId) (m : Nat) (f : Mbx → Mbx) : (s.updMbx p m f).Canon := State.updPort_canon h p _
theorem State.updHs_canon (f : Headstock → Headstock) : (s.updHs f).Canon := { h with }
theorem State.updPower_canon (f : Power → Power) : (s.updPower f).Canon := { h with }
theorem State.updFlash_canon (f : Flash → Flash) : (s.updFlash f).Canon := { h with }
theorem State.drew_canon : s.drew.Canon := { h with }
theorem State.drewN_canon (n : Nat) : (s.drewN n).Canon := { h with }
theorem State.emit_canon (o : Output) : (s.emit o).Canon := { h with }

omit h

theorem msix_canon (p : PortId) (v : Nat) (s : State) (hC : s.Canon) : (msix p v s).Canon := by
  unfold msix
  repeat' first
    | with_reducible assumption
    | with_reducible apply canon_ite
    | with_reducible apply State.updPort_canon
    | with_reducible apply State.emit_canon

theorem raiseVector_canon (p : PortId) (v : Nat) (s : State) (hC : s.Canon) : (raiseVector p v s).Canon := by
  unfold raiseVector
  repeat' first
    | with_reducible assumption
    | with_reducible apply State.updPort_canon
    | with_reducible apply msix_canon

theorem portErr_canon (p : PortId) (f : Port → Port) (s : State) (hC : s.Canon) : (portErr p f s).Canon := by
  unfold portErr
  repeat' first
    | with_reducible assumption
    | with_reducible apply canon_ite
    | with_reducible apply State.updPort_canon
    | with_reducible apply raiseVector_canon

theorem logEvent_canon (e : LogEntry) (s : State) (hC : s.Canon) : (logEvent e s).Canon := by
  unfold logEvent
  repeat' first
    | with_reducible assumption
    | with_reducible apply State.updHs_canon

theorem notify_canon (p : PortId) (kind part state status turn : Nat) (s : State) (hC : s.Canon) : (notify p kind part state status turn s).Canon := by
  unfold notify
  repeat' first
    | with_reducible assumption
    | with_reducible apply State.updPort_canon

theorem notifyPart_canon (kind q : Nat) (s : State) (hC : s.Canon) : (notifyPart kind q s).Canon := by
  unfold notifyPart
  repeat' first
    | with_reducible assumption
    | with_reducible apply notify_canon

theorem finishStop_canon (q : Nat) (s : State) (hC : s.Canon) : (finishStop q s).Canon := by
  unfold finishStop
  repeat' first
    | with_reducible assumption
    | with_reducible apply State.updPart_canon
    | with_reducible apply State.updMbx_canon
    | intro _ _ _
    | intro _
    | dsimp only
    | split

theorem flushMfaults_canon (q c : Nat) (s : State) (hC : s.Canon) : (flushMfaults q c s).Canon := by
  unfold flushMfaults
  repeat' first
    | with_reducible assumption
    | with_reducible apply canon_foldl
    | with_reducible apply State.updCore_canon
    | with_reducible apply logEvent_canon
    | intro _ _ _

theorem moveNote_canon (q d unit : Nat) (j : MoveJob) (s : State) (hC : s.Canon) : (moveNote q d unit j s).Canon := by
  unfold moveNote
  repeat' first
    | with_reducible assumption
    | with_reducible apply canon_ite
    | with_reducible apply logEvent_canon

theorem noteMoves_canon (q c : Nat) (s : State) (hC : s.Canon) : (noteMoves q c s).Canon := by
  unfold noteMoves
  repeat' first
    | with_reducible assumption
    | with_reducible apply canon_foldl
    | with_reducible apply State.updCore_canon
    | with_reducible apply moveNote_canon
    | intro _ _ _

theorem noteBulk_canon (q d : Nat) (s : State) (hC : s.Canon) : (noteBulk q d s).Canon := by
  unfold noteBulk
  repeat' first
    | with_reducible assumption
    | with_reducible apply canon_foldl
    | with_reducible apply State.updDie_canon
    | with_reducible apply moveNote_canon
    | intro _ _ _

theorem stopWithin_canon (q : Nat) (st : PartSt) (stat origin : Nat) (s : State) (hC : s.Canon) : (stopWithin q st stat origin s).Canon := by
  unfold stopWithin
  repeat' first
    | with_reducible assumption
    | with_reducible apply canon_ite
    | with_reducible apply canon_foldl
    | with_reducible apply State.updCore_canon
    | with_reducible apply State.updPart_canon
    | with_reducible apply logEvent_canon
    | with_reducible apply notifyPart_canon
    | with_reducible apply finishStop_canon
    | with_reducible apply flushMfaults_canon
    | with_reducible apply noteMoves_canon
    | with_reducible apply noteBulk_canon
    | intro _ _ _

theorem faultPart_canon (q : Nat) (s : State) (hC : s.Canon) : (faultPart q s).Canon := by
  unfold faultPart
  repeat' first
    | with_reducible assumption
    | with_reducible apply stopWithin_canon

theorem faultDieAbsent_canon (origin q : Nat) (s : State) (hC : s.Canon) : (faultDieAbsent origin q s).Canon := by
  unfold faultDieAbsent
  repeat' first
    | with_reducible assumption
    | with_reducible apply State.updPart_canon
    | with_reducible apply notifyPart_canon
    | with_reducible apply stopWithin_canon
    | intro _ _ _
    | intro _
    | dsimp only
    | split

theorem setHealth_canon (h : Health) (s : State) (hC : s.Canon) : (setHealth h s).Canon := by
  unfold setHealth
  repeat' first
    | with_reducible assumption
    | with_reducible apply canon_ite
    | with_reducible apply State.updHs_canon
    | with_reducible apply logEvent_canon
    | with_reducible apply notify_canon
    | intro _ _ _
    | intro _
    | dsimp only
    | split
    | (with_reducible apply canon_misc; with_reducible first | assumption | apply State.updHs_canon | apply logEvent_canon | apply notify_canon)

theorem updateHealth_canon (s : State) (hC : s.Canon) : (updateHealth s).Canon := by
  unfold updateHealth
  repeat' first
    | with_reducible assumption
    | with_reducible apply canon_ite
    | with_reducible apply setHealth_canon
    | intro _ _ _
    | intro _
    | dsimp only
    | split

theorem enterFailed_canon (s : State) (hC : s.Canon) : (enterFailed s).Canon := by
  unfold enterFailed
  repeat' first
    | with_reducible assumption
    | with_reducible apply canon_foldl
    | with_reducible apply stopWithin_canon
    | with_reducible apply setHealth_canon
    | intro _ _ _

theorem degradation_canon (s : State) (hC : s.Canon) : (degradation s).Canon := by
  unfold degradation
  repeat' first
    | with_reducible assumption
    | with_reducible apply State.updHs_canon

theorem loseDie_canon (d : Nat) (s : State) (hC : s.Canon) : (loseDie d s).Canon := by
  unfold loseDie
  repeat' first
    | with_reducible assumption
    | with_reducible apply canon_foldl
    | with_reducible apply State.updCore_canon
    | with_reducible apply State.updDie_canon
    | intro _ _ _

theorem fenceDie_canon (d why origin : Nat) (s : State) (hC : s.Canon) : (fenceDie d why origin s).Canon := by
  unfold fenceDie
  repeat' first
    | with_reducible assumption
    | with_reducible apply canon_ite
    | with_reducible apply canon_foldl
    | with_reducible apply State.updDie_canon
    | with_reducible apply logEvent_canon
    | with_reducible apply faultDieAbsent_canon
    | with_reducible apply updateHealth_canon
    | with_reducible apply degradation_canon
    | with_reducible apply loseDie_canon
    | intro _ _ _

theorem markCore_canon (c : Nat) (s : State) (hC : s.Canon) : (markCore c s).Canon := by
  unfold markCore
  repeat' first
    | with_reducible assumption
    | with_reducible apply canon_ite
    | with_reducible apply State.updFlash_canon

theorem rowLasting_canon (k : Nat) (r : HRow) (s : State) (hC : s.Canon) : (rowLasting k r s).Canon := by
  unfold rowLasting
  repeat' first
    | with_reducible assumption
    | with_reducible apply canon_ite
    | with_reducible apply State.updStack_canon
    | with_reducible apply logEvent_canon
    | with_reducible apply updateHealth_canon
    | intro _ _ _
    | intro _
    | dsimp only
    | split

theorem startRetirement_canon (b : Nat) (s : State) (hC : s.Canon) : (startRetirement b s).Canon := by
  unfold startRetirement
  repeat' first
    | with_reducible assumption
    | with_reducible apply State.updLane_canon
    | with_reducible apply State.updHs_canon

theorem laneLasting_canon (b l : Nat) (s : State) (hC : s.Canon) : (laneLasting b l s).Canon := by
  unfold laneLasting
  repeat' first
    | with_reducible assumption
    | with_reducible apply canon_ite
    | with_reducible apply State.updLane_canon
    | with_reducible apply startRetirement_canon

theorem startRepair_canon (r : Res) (s : State) (hC : s.Canon) : (startRepair r s).Canon := by
  unfold startRepair
  repeat' first
    | with_reducible assumption
    | with_reducible apply canon_ite
    | with_reducible apply State.updLink_canon
    | with_reducible apply State.updFlash_canon
    | with_reducible apply State.drew_canon
    | with_reducible apply markCore_canon
    | with_reducible apply rowLasting_canon
    | with_reducible apply laneLasting_canon

theorem becomeLasting_canon (r : Res) (addr count : Nat) (ue : Bool) (s : State) (hC : s.Canon) : (becomeLasting r addr count ue s).Canon := by
  unfold becomeLasting
  repeat' first
    | with_reducible assumption
    | with_reducible apply logEvent_canon
    | with_reducible apply startRepair_canon
    | intro _ _ _
    | intro _
    | dsimp only
    | split
    | (with_reducible apply canon_misc; with_reducible first | assumption | apply logEvent_canon | apply startRepair_canon)

theorem chatter_canon (r : Res) (addr : Nat) (s : State) (hC : s.Canon) : (chatter r addr s).Canon := by
  unfold chatter
  repeat' first
    | with_reducible assumption
    | with_reducible apply canon_ite
    | with_reducible apply logEvent_canon
    | with_reducible apply becomeLasting_canon
    | intro _ _ _
    | intro _
    | dsimp only
    | split
    | (with_reducible apply canon_misc; with_reducible first | assumption | apply logEvent_canon | apply becomeLasting_canon)

theorem chatterUe_canon (r : Res) (addr : Nat) (s : State) (hC : s.Canon) : (chatterUe r addr s).Canon := by
  unfold chatterUe
  repeat' first
    | with_reducible assumption
    | with_reducible apply canon_ite
    | with_reducible apply becomeLasting_canon

theorem applyUpset_canon (s : State) (x0 : Upset) (hC : s.Canon) : (applyUpset s x0).Canon := by
  unfold applyUpset
  split
  case h_12 => exact { hC with hbmErr := SMap.wf_upd _ _ _ hC.hbmErr }
  all_goals first
    | exact State.updCore_canon hC _ _
    | exact State.updDie_canon hC _ _
    | exact State.updBed_canon hC _ _
    | exact State.updStack_canon hC _ _
    | exact State.updPart_canon hC _ _
    | exact State.updHs_canon hC _
    | exact chatter_canon _ _ _ hC
    | exact chatterUe_canon _ _ _ hC

theorem applyUpsets_canon (us : List Upset) (s : State) (hC : s.Canon) : (applyUpsets us s).Canon := by
  unfold applyUpsets
  repeat' first
    | with_reducible assumption
    | with_reducible apply canon_foldl
    | with_reducible apply applyUpset_canon

theorem siteWrite_canon (h : HSite) (l : RawLine) (s : State) (hC : s.Canon) : (siteWrite h l s).Canon := by
  unfold siteWrite
  repeat' first
    | with_reducible assumption
    | with_reducible apply canon_foldl
    | with_reducible apply State.updStack_canon
    | intro _ _ _
    | intro _
    | dsimp only
    | split
    | with_reducible apply SMap.wf_mapVals
    | with_reducible apply SMap.wf_upd
    | with_reducible apply SMap.wf_filter
    | with_reducible apply Mem.wf_write
    | with_reducible apply Mem.wf_clear
    | with_reducible apply SMap.wf_foldl_set
    | with_reducible apply State.Canon.cores
    | with_reducible apply State.Canon.parts
    | with_reducible apply State.Canon.dies
    | with_reducible apply State.Canon.beds
    | with_reducible apply State.Canon.hbms
    | with_reducible apply State.Canon.hbm
    | with_reducible apply State.Canon.hbmErr
    | with_reducible apply State.Canon.lanes
    | with_reducible apply State.Canon.links
    | with_reducible apply State.Canon.mk

theorem hbmUe_canon (pa : Nat) (partial' : Bool) (s : State) (hC : s.Canon) : (hbmUe pa partial' s).Canon := by
  unfold hbmUe
  repeat' first
    | with_reducible assumption
    | with_reducible apply logEvent_canon

theorem hbmRead_canon (pa : Nat) (s : State) (hC : s.Canon) : ((hbmRead pa s).1).Canon := by
  unfold hbmRead
  repeat' first
    | with_reducible assumption
    | with_reducible apply chatter_canon
    | with_reducible apply chatterUe_canon
    | with_reducible apply siteWrite_canon
    | with_reducible apply hbmUe_canon
    | intro _ _ _
    | intro _
    | dsimp only
    | split

theorem bedRead_canon (b off : Nat) (s : State) (hC : s.Canon) : ((bedRead b off s).1).Canon := by
  unfold bedRead
  repeat' first
    | with_reducible assumption
    | with_reducible apply canon_ite
    | with_reducible apply State.updBed_canon
    | with_reducible apply chatter_canon
    | with_reducible apply chatterUe_canon
    | intro _ _ _
    | intro _
    | dsimp only
    | split

theorem lineRead_canon (pa : Nat) (s : State) (hC : s.Canon) : ((lineRead pa s).1).Canon := by
  unfold lineRead
  repeat' first
    | with_reducible assumption
    | with_reducible apply hbmRead_canon
    | with_reducible apply bedRead_canon
    | intro _ _ _
    | intro _
    | dsimp only
    | split

theorem hbmWrite_canon (pa : Nat) (bytes : List Byte) (mask poison : Nat) (s : State) (hC : s.Canon) : (hbmWrite pa bytes mask poison s).Canon := by
  unfold hbmWrite
  repeat' first
    | with_reducible assumption
    | with_reducible apply canon_ite
    | with_reducible apply chatter_canon
    | with_reducible apply chatterUe_canon
    | with_reducible apply siteWrite_canon
    | with_reducible apply hbmUe_canon
    | intro _ _ _
    | intro _
    | dsimp only
    | split

theorem bedWrite_canon (b off : Nat) (bytes : List Byte) (mask poison : Nat) (s : State) (hC : s.Canon) : (bedWrite b off bytes mask poison s).Canon := by
  unfold bedWrite
  repeat' first
    | with_reducible assumption
    | with_reducible apply canon_ite
    | with_reducible apply State.updBed_canon
    | with_reducible apply chatter_canon
    | with_reducible apply chatterUe_canon

theorem lineWrite_canon (pa : Nat) (bytes : List Byte) (mask poison : Nat) (s : State) (hC : s.Canon) : (lineWrite pa bytes mask poison s).Canon := by
  unfold lineWrite
  repeat' first
    | with_reducible assumption
    | with_reducible apply hbmWrite_canon
    | with_reducible apply bedWrite_canon
    | intro _ _ _
    | intro _
    | dsimp only
    | split

theorem raceCheck_canon (b off : Nat) (w : Bool) (u t : Nat) (s : State) (hC : s.Canon) : ((raceCheck b off w u t s).1).Canon := by
  unfold raceCheck
  repeat' first
    | with_reducible assumption
    | with_reducible apply canon_ite
    | with_reducible apply State.updBed_canon
    | with_reducible apply logEvent_canon
    | with_reducible apply chatter_canon
    | with_reducible apply chatterUe_canon
    | intro _ _ _
    | intro _
    | dsimp only
    | split

theorem raceStop_canon (q b off u : Nat) (r : RaceResult) (s : State) (hC : s.Canon) : (raceStop q b off u r s).Canon := by
  unfold raceStop
  repeat' first
    | with_reducible assumption
    | with_reducible apply logEvent_canon
    | with_reducible apply faultPart_canon
    | intro _ _ _
    | intro _
    | dsimp only
    | split

theorem updReg_canon (k q : Nat) (f : Regulator → Regulator) (s : State) (hC : s.Canon) : (updReg k q f s).Canon := by
  unfold updReg
  repeat' first
    | with_reducible assumption
    | with_reducible apply State.updStack_canon

theorem submit_canon (r : MemReq) (s : State) (hC : s.Canon) : (submit r s).Canon := by
  unfold submit
  repeat' first
    | with_reducible assumption
    | with_reducible apply canon_ite
    | with_reducible apply canon_foldl
    | with_reducible apply State.updPart_canon
    | with_reducible apply State.updBed_canon
    | with_reducible apply State.emit_canon
    | with_reducible apply updReg_canon
    | intro _ _ _
    | intro _
    | dsimp only
    | split

theorem lineNow_canon (pa : Nat) (s : State) (hC : s.Canon) : ((lineNow pa s).1).Canon := by
  unfold lineNow
  repeat' first
    | with_reducible assumption
    | with_reducible apply canon_foldl
    | with_reducible apply lineRead_canon

theorem purgeReqs_canon (q : Nat) (s : State) (hC : s.Canon) : (purgeReqs q s).Canon := by
  unfold purgeReqs
  repeat' first
    | with_reducible assumption
    | with_reducible apply canon_ite
    | intro _ _ _
    | intro _
    | dsimp only
    | split
    | with_reducible apply SMap.wf_mapVals
    | with_reducible apply SMap.wf_upd
    | with_reducible apply SMap.wf_filter
    | with_reducible apply Mem.wf_write
    | with_reducible apply Mem.wf_clear
    | with_reducible apply SMap.wf_foldl_set
    | with_reducible apply State.Canon.cores
    | with_reducible apply State.Canon.parts
    | with_reducible apply State.Canon.dies
    | with_reducible apply State.Canon.beds
    | with_reducible apply State.Canon.hbms
    | with_reducible apply State.Canon.hbm
    | with_reducible apply State.Canon.hbmErr
    | with_reducible apply State.Canon.lanes
    | with_reducible apply State.Canon.links
    | with_reducible apply State.Canon.mk

theorem entryRead_canon (q l va : Nat) (s : State) (hC : s.Canon) : (entryRead q l va s).Canon := by
  unfold entryRead
  repeat' first
    | with_reducible assumption
    | with_reducible apply State.updPart_canon
    | with_reducible apply chatter_canon
    | with_reducible apply chatterUe_canon
    | intro _ _ _
    | intro _
    | dsimp only
    | split

theorem walkRead_canon (q va : Nat) (write : Bool) (s : State) (hC : s.Canon) : ((walkRead q va write s).1).Canon := by
  unfold walkRead
  repeat' first
    | with_reducible assumption
    | with_reducible apply canon_foldl
    | with_reducible apply entryRead_canon
    | intro _ _ _

theorem setTlb_canon (u : TlbUser) (l : List TlbEntry) (e : Bool) (s : State) (hC : s.Canon) : (setTlb u l e s).Canon := by
  unfold setTlb
  repeat' first
    | with_reducible assumption
    | with_reducible apply State.updCore_canon
    | with_reducible apply State.updDie_canon
    | with_reducible apply State.updHs_canon
    | intro _ _ _
    | intro _
    | dsimp only
    | split

theorem translate_canon (u : TlbUser) (q va : Nat) (write : Bool) (s : State) (hC : s.Canon) : ((translate u q va write s).1).Canon := by
  unfold translate
  repeat' first
    | with_reducible assumption
    | with_reducible apply canon_ite
    | with_reducible apply chatter_canon
    | with_reducible apply walkRead_canon
    | with_reducible apply setTlb_canon
    | intro _ _ _
    | intro _
    | dsimp only
    | split

theorem lookupAll_canon (u : TlbUser) (q : Nat) (vas : List Nat) (s : State) (hC : s.Canon) : (lookupAll u q vas s).Canon := by
  unfold lookupAll
  repeat' first
    | with_reducible assumption
    | with_reducible apply canon_foldl
    | with_reducible apply translate_canon
    | intro _ _ _

theorem translateFar_canon (u : TlbUser) (q va : Nat) (write : Bool) (s : State) (hC : s.Canon) : ((translateFar u q va write s).1).Canon := by
  unfold translateFar
  repeat' first
    | with_reducible assumption
    | with_reducible apply canon_ite
    | with_reducible apply translate_canon
    | intro _ _ _
    | intro _
    | dsimp only
    | split

theorem invalidate_canon (q va len : Nat) (s : State) (hC : s.Canon) : (invalidate q va len s).Canon := by
  unfold invalidate
  repeat' first
    | with_reducible assumption
    | with_reducible apply State.updHs_canon
    | intro _ _ _
    | intro _
    | dsimp only
    | split
    | with_reducible apply SMap.wf_mapVals
    | with_reducible apply SMap.wf_upd
    | with_reducible apply SMap.wf_filter
    | with_reducible apply Mem.wf_write
    | with_reducible apply Mem.wf_clear
    | with_reducible apply SMap.wf_foldl_set
    | with_reducible apply State.Canon.cores
    | with_reducible apply State.Canon.parts
    | with_reducible apply State.Canon.dies
    | with_reducible apply State.Canon.beds
    | with_reducible apply State.Canon.hbms
    | with_reducible apply State.Canon.hbm
    | with_reducible apply State.Canon.hbmErr
    | with_reducible apply State.Canon.lanes
    | with_reducible apply State.Canon.links
    | with_reducible apply State.Canon.mk

theorem invalidateAll_canon (q : Nat) (s : State) (hC : s.Canon) : (invalidateAll q s).Canon := by
  unfold invalidateAll
  repeat' first
    | with_reducible assumption
    | with_reducible apply invalidate_canon

theorem countWindow_canon (d q va pa : Nat) (s : State) (hC : s.Canon) : (countWindow d q va pa s).Canon := by
  unfold countWindow
  repeat' first
    | with_reducible assumption
    | with_reducible apply State.updDie_canon
    | intro _ _ _
    | intro _
    | dsimp only
    | split

theorem tlbInstall_canon (u : TlbUser) (e : TlbEntry) (s : State) (hC : s.Canon) : (tlbInstall u e s).Canon := by
  unfold tlbInstall
  repeat' first
    | with_reducible assumption
    | with_reducible apply canon_ite
    | with_reducible apply setTlb_canon

theorem storeUeEntry_canon (c w src : Nat) (how : CwHow) (s : State) (hC : s.Canon) : (storeUeEntry c w src how s).Canon := by
  unfold storeUeEntry
  repeat' first
    | with_reducible assumption
    | with_reducible apply canon_ite
    | with_reducible apply logEvent_canon
    | intro _ _ _
    | intro _
    | dsimp only
    | split

theorem touch_canon (c w : Nat) (how : CwHow) (s : State) (hC : s.Canon) : (touch c w how s).Canon := by
  unfold touch
  repeat' first
    | with_reducible assumption
    | with_reducible apply canon_ite
    | with_reducible apply State.updCore_canon
    | with_reducible apply chatter_canon
    | with_reducible apply chatterUe_canon
    | with_reducible apply storeUeEntry_canon

theorem touchAll_canon (c : Nat) (ws : List Nat) (how : CwHow) (s : State) (hC : s.Canon) : (touchAll c ws how s).Canon := by
  unfold touchAll
  repeat' first
    | with_reducible assumption
    | with_reducible apply canon_foldl
    | with_reducible apply touch_canon
    | intro _ _ _

theorem touchRun_canon (c w n : Nat) (s : State) (hC : s.Canon) : (touchRun c w n s).Canon := by
  unfold touchRun
  repeat' first
    | with_reducible assumption
    | with_reducible apply touchAll_canon

theorem readWord_canon (c w : Nat) (s : State) (hC : s.Canon) : ((readWord c w s).1).Canon := by
  unfold readWord
  repeat' first
    | with_reducible assumption
    | with_reducible apply touch_canon

theorem maskedWord_canon (c w mask : Nat) (new : List Byte) (tag : Tag) (s : State) (hC : s.Canon) : (maskedWord c w mask new tag s).Canon := by
  unfold maskedWord
  repeat' first
    | with_reducible assumption
    | with_reducible apply canon_ite
    | with_reducible apply State.updCore_canon
    | with_reducible apply touch_canon

theorem storeBytes_canon (c : Nat) (tag : Tag) (x0 : Nat) (x1 : Nat) (x2 : List Byte) (x3 : State) (hC : x3.Canon) : (storeBytes c tag x0 x1 x2 x3).Canon := by
  induction x0 generalizing x1 x2 x3 with
  | zero =>
    unfold storeBytes
    repeat' first
      | with_reducible assumption
  | succ n ih =>
    unfold storeBytes
    repeat' first
      | with_reducible apply ih
      | with_reducible assumption
      | with_reducible apply canon_ite
      | with_reducible apply maskedWord_canon

theorem machineCheck_canon (c : Nat) (s : State) (hC : s.Canon) : (machineCheck c s).Canon := by
  unfold machineCheck
  repeat' first
    | with_reducible assumption
    | with_reducible apply State.updCore_canon
    | with_reducible apply chatter_canon

theorem enter_canon (c : Nat) (e : Exc) (s : State) (hC : s.Canon) : (enter c e s).Canon := by
  unfold enter
  repeat' first
    | with_reducible assumption
    | with_reducible apply State.updCore_canon
    | with_reducible apply touchRun_canon

theorem flushWcb_canon (c q : Nat) (p : WcbLine → Bool) (s : State) (hC : s.Canon) : (flushWcb c q p s).Canon := by
  unfold flushWcb
  repeat' first
    | with_reducible assumption
    | with_reducible apply canon_foldl
    | with_reducible apply State.updCore_canon
    | with_reducible apply submit_canon
    | intro _ _ _

theorem farParity_canon (c line : Nat) (s : State) (hC : s.Canon) : (farParity c line s).Canon := by
  unfold farParity
  repeat' first
    | with_reducible assumption
    | with_reducible apply canon_ite
    | with_reducible apply State.updCore_canon
    | with_reducible apply chatter_canon

theorem farStore_canon (c q va pa : Nat) (v : Word) (s : State) (hC : s.Canon) : (farStore c q va pa v s).Canon := by
  unfold farStore
  repeat' first
    | with_reducible assumption
    | with_reducible apply canon_ite
    | with_reducible apply State.updCore_canon
    | with_reducible apply countWindow_canon
    | with_reducible apply flushWcb_canon
    | with_reducible apply farParity_canon

theorem offerFill_canon (limit : Nat) (line : Nat) (bytes : List Byte) (s : State) (hC : s.Canon) : (offerFill limit line bytes s).Canon := by
  unfold offerFill
  repeat' first
    | with_reducible assumption
    | with_reducible apply canon_ite
    | with_reducible apply State.updBed_canon
    | intro _ _ _
    | intro _
    | dsimp only
    | split

theorem dropBedCopy_canon (line : Nat) (s : State) (hC : s.Canon) : (dropBedCopy line s).Canon := by
  unfold dropBedCopy
  repeat' first
    | with_reducible assumption
    | with_reducible apply State.updBed_canon
    | intro _ _ _
    | intro _
    | dsimp only
    | split

theorem offerVictim_canon (v : CacheLine) (s : State) (hC : s.Canon) : (offerVictim v s).Canon := by
  unfold offerVictim
  repeat' first
    | with_reducible assumption
    | with_reducible apply canon_ite
    | with_reducible apply offerFill_canon

theorem submitMiss_canon (c i : Nat) (r : MemReq) (s : State) (hC : s.Canon) : (submitMiss c i r s).Canon := by
  unfold submitMiss
  repeat' first
    | with_reducible assumption
    | with_reducible apply canon_ite
    | with_reducible apply State.updCore_canon
    | with_reducible apply State.updBed_canon
    | with_reducible apply submit_canon
    | intro _ _ _
    | intro _
    | dsimp only
    | split

theorem requestLine_canon (c q : Nat) (n : FarNeed) (more : Nat) (s : State) (hC : s.Canon) : (requestLine c q n more s).Canon := by
  unfold requestLine
  repeat' first
    | with_reducible assumption
    | with_reducible apply canon_ite
    | with_reducible apply State.updCore_canon
    | with_reducible apply countWindow_canon
    | with_reducible apply flushWcb_canon
    | with_reducible apply farParity_canon
    | with_reducible apply submitMiss_canon
    | intro _ _ _
    | intro _
    | dsimp only
    | split

theorem requestLines_canon (c q : Nat) (x0 : List FarNeed) (x1 : State) (hC : x1.Canon) : (requestLines c q x0 x1).Canon := by
  induction x0 generalizing x1 with
  | nil =>
    unfold requestLines
    repeat' first
      | with_reducible assumption
  | cons a l ih =>
    unfold requestLines
    repeat' first
      | with_reducible apply ih
      | with_reducible assumption
      | with_reducible apply requestLine_canon

theorem touchBundle_canon (c q : Nat) (full : Bool) (s : State) (hC : s.Canon) : (touchBundle c q full s).Canon := by
  unfold touchBundle
  repeat' first
    | with_reducible assumption
    | with_reducible apply canon_ite
    | with_reducible apply touchAll_canon

theorem touchLoad_canon (c q : Nat) (s : State) (hC : s.Canon) : (touchLoad c q s).Canon := by
  unfold touchLoad
  repeat' first
    | with_reducible assumption
    | with_reducible apply canon_ite
    | with_reducible apply canon_foldl
    | with_reducible apply State.updCore_canon
    | with_reducible apply touchBundle_canon
    | intro _ _ _
    | intro _
    | dsimp only
    | split

theorem applyFx_canon (c q : Nat) (s : State) (x0 : Fx) (hC : s.Canon) : (applyFx c q s x0).Canon := by
  unfold applyFx
  repeat' first
    | with_reducible assumption
    | with_reducible apply canon_ite
    | with_reducible apply canon_foldl
    | with_reducible apply State.updCore_canon
    | with_reducible apply State.updPart_canon
    | with_reducible apply State.updDie_canon
    | with_reducible apply State.drew_canon
    | with_reducible apply countWindow_canon
    | with_reducible apply maskedWord_canon
    | with_reducible apply flushWcb_canon
    | with_reducible apply farStore_canon
    | intro _ _ _
    | intro _
    | dsimp only
    | split

theorem takeDelay_canon (c next : Nat) (d : Delay) (s : State) (hC : s.Canon) : (takeDelay c next d s).Canon := by
  unfold takeDelay
  repeat' first
    | with_reducible assumption
    | with_reducible apply canon_ite
    | with_reducible apply State.updCore_canon
    | with_reducible apply enter_canon
    | intro _ _ _
    | intro _
    | dsimp only
    | split

theorem commit_canon (c q next : Nat) (fx : List Fx) (s : State) (hC : s.Canon) : (commit c q next fx s).Canon := by
  unfold commit
  repeat' first
    | with_reducible assumption
    | with_reducible apply canon_ite
    | with_reducible apply canon_foldl
    | with_reducible apply State.updCore_canon
    | with_reducible apply State.drew_canon
    | with_reducible apply flushWcb_canon
    | with_reducible apply applyFx_canon
    | with_reducible apply takeDelay_canon
    | intro _ _ _
    | intro _
    | dsimp only
    | split

theorem takeImmediate_canon (c : Nat) (s : State) (hC : s.Canon) : OptCanon (takeImmediate c s) := by
  unfold takeImmediate
  repeat' first
    | with_reducible assumption
    | with_reducible apply canon_ite
    | with_reducible apply canon_getD
    | with_reducible apply canonOpt_bind
    | with_reducible apply canonOpt_map
    | with_reducible apply canonOpt_ite
    | with_reducible exact canonOpt_none
    | with_reducible apply canonOpt_some
    | with_reducible apply State.updCore_canon
    | with_reducible apply enter_canon
    | intro _ _ _
    | intro _

theorem raiseImmediate_canon (c v : Nat) (s : State) (hC : s.Canon) : (raiseImmediate c v s).Canon := by
  unfold raiseImmediate
  repeat' first
    | with_reducible assumption
    | with_reducible apply canon_ite
    | with_reducible apply canon_getD
    | with_reducible apply canonOpt_bind
    | with_reducible apply canonOpt_map
    | with_reducible apply canonOpt_ite
    | with_reducible exact canonOpt_none
    | with_reducible apply canonOpt_some
    | with_reducible apply State.updCore_canon
    | with_reducible apply takeImmediate_canon

theorem takeHeld_canon (c : Nat) (s : State) (hC : s.Canon) : OptCanon (takeHeld c s) := by
  unfold takeHeld
  repeat' first
    | with_reducible assumption
    | with_reducible apply canon_ite
    | with_reducible apply canon_getD
    | with_reducible apply canonOpt_bind
    | with_reducible apply canonOpt_map
    | with_reducible apply canonOpt_ite
    | with_reducible exact canonOpt_none
    | with_reducible apply canonOpt_some
    | with_reducible apply State.updCore_canon
    | with_reducible apply enter_canon
    | intro _ _ _
    | intro _

theorem takeHeldAtTwait_canon (c : Nat) (s : State) (hC : s.Canon) : OptCanon (takeHeldAtTwait c s) := by
  unfold takeHeldAtTwait
  repeat' first
    | with_reducible assumption
    | with_reducible apply canon_ite
    | with_reducible apply canon_getD
    | with_reducible apply canonOpt_bind
    | with_reducible apply canonOpt_map
    | with_reducible apply canonOpt_ite
    | with_reducible exact canonOpt_none
    | with_reducible apply canonOpt_some
    | with_reducible apply State.updCore_canon
    | with_reducible apply enter_canon
    | intro _ _ _
    | intro _

theorem deliver_canon (c : Nat) (s : State) (hC : s.Canon) : OptCanon (deliver c s) := by
  unfold deliver
  repeat' first
    | with_reducible assumption
    | with_reducible apply canon_ite
    | with_reducible apply canon_getD
    | with_reducible apply canonOpt_bind
    | with_reducible apply canonOpt_map
    | with_reducible apply canonOpt_ite
    | with_reducible exact canonOpt_none
    | with_reducible apply canonOpt_some
    | with_reducible apply takeImmediate_canon
    | with_reducible apply takeHeld_canon
    | with_reducible apply takeHeldAtTwait_canon
    | intro _ _ _
    | intro _
    | dsimp only
    | split
    | (with_reducible apply canon_misc; with_reducible first | assumption | apply takeImmediate_canon | apply takeHeld_canon | apply takeHeldAtTwait_canon)
    | (refine canon_of_opt (by with_reducible assumption) ?_)

theorem vfRead_canon (c : Nat) (s : State) (n : Nat) (hC : s.Canon) : (vfRead c s n).Canon := by
  unfold vfRead
  repeat' first
    | with_reducible assumption
    | with_reducible apply canon_ite
    | with_reducible apply State.updCore_canon
    | with_reducible apply chatter_canon

theorem vfReads_canon (c : Nat) (cs : List Nat) (s : State) (hC : s.Canon) : OptCanon (vfReads c cs s).1 ∧ ((vfReads c cs s).2).Canon := by
  unfold vfReads
  repeat' first
    | with_reducible apply And.intro
    | with_reducible assumption
    | with_reducible apply canon_ite
    | with_reducible apply canon_foldl
    | with_reducible apply canon_getD
    | with_reducible apply canonOpt_bind
    | with_reducible apply canonOpt_map
    | with_reducible apply canonOpt_ite
    | with_reducible exact canonOpt_none
    | with_reducible apply canonOpt_some
    | with_reducible apply chatterUe_canon
    | with_reducible apply machineCheck_canon
    | with_reducible apply vfRead_canon
    | intro _ _ _
    | intro _
    | dsimp only
    | split

theorem syllRead_canon (c : Nat) (s : State) (i : Nat) (hC : s.Canon) : (syllRead c s i).Canon := by
  unfold syllRead
  repeat' first
    | with_reducible assumption
    | with_reducible apply canon_ite
    | with_reducible apply State.updCore_canon
    | with_reducible apply chatter_canon

theorem frontEnd_canon (c : Nat) (s : State) (hC : s.Canon) : OptCanon (frontEnd c s).1 ∧ ((frontEnd c s).2).Canon := by
  unfold frontEnd
  repeat' first
    | with_reducible apply And.intro
    | with_reducible assumption
    | with_reducible apply canon_ite
    | with_reducible apply canon_foldl
    | with_reducible apply canon_getD
    | with_reducible apply canonOpt_bind
    | with_reducible apply canonOpt_map
    | with_reducible apply canonOpt_ite
    | with_reducible exact canonOpt_none
    | with_reducible apply canonOpt_some
    | with_reducible apply State.updCore_canon
    | with_reducible apply chatterUe_canon
    | with_reducible apply machineCheck_canon
    | with_reducible refine (vfReads_canon _ _ _ ?_).1
    | with_reducible refine (vfReads_canon _ _ _ ?_).2
    | with_reducible apply vfReads_canon
    | with_reducible apply syllRead_canon
    | intro _ _ _
    | intro _
    | dsimp only
    | split

theorem commitChecked_canon (c q next : Nat) (fx : List Fx) (s : State) (hC : s.Canon) : (commitChecked c q next fx s).Canon := by
  unfold commitChecked
  repeat' first
    | with_reducible assumption
    | with_reducible apply canon_getD
    | with_reducible apply canonOpt_bind
    | with_reducible apply canonOpt_map
    | with_reducible exact canonOpt_none
    | with_reducible apply canonOpt_some
    | with_reducible apply commit_canon
    | with_reducible refine (vfReads_canon _ _ _ ?_).1
    | with_reducible refine (vfReads_canon _ _ _ ?_).2
    | with_reducible apply vfReads_canon
    | intro _ _ _
    | intro _
    | dsimp only
    | split
    | (with_reducible apply canon_misc; with_reducible first | assumption | apply commit_canon | apply vfReads_canon)
    | (refine canon_of_pair (by with_reducible assumption) ?_)
    | (refine canon_of_opt (by with_reducible assumption) ?_)
    | (refine canonOpt_of_pair (by with_reducible assumption) ?_)
    | (refine canon_of_fst (by with_reducible assumption) ?_)
    | (refine canon_of_snd (by with_reducible assumption) ?_)

theorem carryOut_canon (c q : Nat) (full : Bool) (r : BunR) (next : Nat) (s : State) (hC : s.Canon) : (carryOut c q full r next s).Canon := by
  unfold carryOut
  repeat' first
    | with_reducible assumption
    | with_reducible apply canon_ite
    | with_reducible apply canon_getD
    | with_reducible apply canonOpt_bind
    | with_reducible apply canonOpt_map
    | with_reducible apply canonOpt_ite
    | with_reducible exact canonOpt_none
    | with_reducible apply canonOpt_some
    | with_reducible apply State.updCore_canon
    | with_reducible apply lookupAll_canon
    | with_reducible apply enter_canon
    | with_reducible apply requestLines_canon
    | with_reducible apply deliver_canon
    | with_reducible apply commitChecked_canon
    | intro _ _ _
    | intro _
    | dsimp only
    | split
    | (with_reducible apply canon_misc; with_reducible first | assumption | apply State.updCore_canon | apply lookupAll_canon | apply enter_canon | apply requestLines_canon | apply deliver_canon | apply commitChecked_canon)
    | (refine canon_of_opt (by with_reducible assumption) ?_)

theorem ownAction_canon (c q : Nat) (s : State) (hC : s.Canon) : (ownAction c q s).Canon := by
  unfold ownAction
  repeat' first
    | with_reducible assumption
    | with_reducible apply canon_foldl
    | with_reducible apply canon_getD
    | with_reducible apply canonOpt_bind
    | with_reducible apply canonOpt_map
    | with_reducible exact canonOpt_none
    | with_reducible apply canonOpt_some
    | with_reducible apply State.updCore_canon
    | with_reducible apply logEvent_canon
    | with_reducible apply enter_canon
    | with_reducible apply deliver_canon
    | intro _ _ _
    | intro _
    | dsimp only
    | split

theorem twaitStep_canon (c q : Nat) (s : State) (hC : s.Canon) : (twaitStep c q s).Canon := by
  unfold twaitStep
  repeat' first
    | with_reducible assumption
    | with_reducible apply canon_ite
    | with_reducible apply canon_getD
    | with_reducible apply canonOpt_bind
    | with_reducible apply canonOpt_map
    | with_reducible apply canonOpt_ite
    | with_reducible exact canonOpt_none
    | with_reducible apply canonOpt_some
    | with_reducible apply takeImmediate_canon
    | with_reducible apply ownAction_canon
    | intro _ _ _
    | intro _
    | dsimp only
    | split
    | (with_reducible apply canon_misc; with_reducible first | assumption | apply takeImmediate_canon | apply ownAction_canon)
    | (refine canon_of_opt (by with_reducible assumption) ?_)

theorem bundleStep_canon (c q : Nat) (s : State) (hC : s.Canon) : (bundleStep c q s).Canon := by
  unfold bundleStep
  repeat' first
    | with_reducible assumption
    | with_reducible apply canon_ite
    | with_reducible apply canon_getD
    | with_reducible apply canonOpt_bind
    | with_reducible apply canonOpt_map
    | with_reducible apply canonOpt_ite
    | with_reducible exact canonOpt_none
    | with_reducible apply canonOpt_some
    | with_reducible apply touchBundle_canon
    | with_reducible refine (frontEnd_canon _ _ ?_).1
    | with_reducible refine (frontEnd_canon _ _ ?_).2
    | with_reducible apply frontEnd_canon
    | with_reducible apply carryOut_canon
    | with_reducible apply twaitStep_canon
    | intro _ _ _
    | intro _
    | dsimp only
    | split
    | (with_reducible apply canon_misc; with_reducible first | assumption | apply touchBundle_canon | apply frontEnd_canon | apply carryOut_canon | apply twaitStep_canon)
    | (refine canon_of_pair (by with_reducible assumption) ?_)
    | (refine canon_of_opt (by with_reducible assumption) ?_)
    | (refine canonOpt_of_pair (by with_reducible assumption) ?_)
    | (refine canon_of_fst (by with_reducible assumption) ?_)
    | (refine canon_of_snd (by with_reducible assumption) ?_)

theorem execBundleIssue_canon (c : CoreId) (env : Env) (s : State) (hC : s.Canon) : ∀ t', execBundleIssue c env s = .next t' → t'.Canon := by
  unfold execBundleIssue
  intro _ hE
  cases hE
  repeat' first
    | with_reducible assumption
    | with_reducible apply applyUpsets_canon
    | with_reducible apply bundleStep_canon
    | intro _ _ _
    | intro _
    | dsimp only
    | split

theorem faultPointStep_canon (c q : Nat) (s : State) (hC : s.Canon) : (faultPointStep c q s).Canon := by
  unfold faultPointStep
  repeat' first
    | with_reducible assumption
    | with_reducible apply canon_ite
    | with_reducible apply touchLoad_canon
    | with_reducible apply carryOut_canon

theorem execVectorLoadFaultPoint_canon (c : CoreId) (env : Env) (s : State) (hC : s.Canon) : ∀ t', execVectorLoadFaultPoint c env s = .next t' → t'.Canon := by
  unfold execVectorLoadFaultPoint
  intro _ hE
  cases hE
  repeat' first
    | with_reducible assumption
    | with_reducible apply applyUpsets_canon
    | with_reducible apply faultPointStep_canon
    | intro _ _ _
    | intro _
    | dsimp only
    | split

theorem execOwnActionDelivery_canon (c : CoreId) (s : State) (hC : s.Canon) : ∀ t', execOwnActionDelivery c s = .next t' → t'.Canon := by
  unfold execOwnActionDelivery
  intro _ hE
  cases hE
  repeat' first
    | with_reducible assumption
    | with_reducible apply canon_ite
    | with_reducible apply twaitStep_canon
    | intro _ _ _
    | intro _
    | dsimp only
    | split

theorem updBulk_canon (d q : Nat) (f : Bulk → Bulk) (s : State) (hC : s.Canon) : (updBulk d q f s).Canon := by
  unfold updBulk
  repeat' first
    | with_reducible assumption
    | with_reducible apply State.updDie_canon

theorem updTu_canon (q : Nat) (u : UnitRef) (f : TurnUnit → TurnUnit) (s : State) (hC : s.Canon) : (updTu q u f s).Canon := by
  unfold updTu
  repeat' first
    | with_reducible assumption
    | with_reducible apply State.updCore_canon
    | with_reducible apply State.updPart_canon
    | with_reducible apply updReg_canon
    | with_reducible apply updBulk_canon
    | intro _ _ _
    | intro _
    | dsimp only
    | split

theorem bumpCounter_canon (q : Nat) (u : UnitRef) (ac by' : Nat) (s : State) (hC : s.Canon) : (bumpCounter q u ac by' s).Canon := by
  unfold bumpCounter
  repeat' first
    | with_reducible assumption
    | with_reducible apply canon_ite
    | with_reducible apply State.updCore_canon
    | with_reducible apply State.updPart_canon
    | with_reducible apply updTu_canon

theorem coreEvent_canon (q c evt sel : Nat) (s : State) (hC : s.Canon) : (coreEvent q c evt sel s).Canon := by
  unfold coreEvent
  repeat' first
    | with_reducible assumption
    | with_reducible apply canon_ite
    | with_reducible apply canon_foldl
    | with_reducible apply bumpCounter_canon
    | intro _ _ _

theorem rxMsg_canon (q r turn : Nat) (m : Msg) (s : State) (hC : s.Canon) : (rxMsg q r turn m s).Canon := by
  unfold rxMsg
  repeat' first
    | with_reducible assumption
    | with_reducible apply State.updCore_canon
    | with_reducible apply coreEvent_canon

theorem popMsg_canon (c i : Nat) (m : Msg) (s : State) (hC : s.Canon) : ((popMsg c i m s).1).Canon := by
  unfold popMsg
  repeat' first
    | with_reducible assumption
    | with_reducible apply canon_ite
    | with_reducible apply State.updCore_canon

theorem acceptMsg_canon (q c i r : Nat) (m : Msg) (s : State) (hC : s.Canon) : (acceptMsg q c i r m s).Canon := by
  unfold acceptMsg
  repeat' first
    | with_reducible assumption
    | with_reducible apply rxMsg_canon
    | with_reducible apply popMsg_canon

theorem sendOut_canon (q c dst chan : Nat) (s : State) (hC : s.Canon) : (sendOut q c dst chan s).Canon := by
  unfold sendOut
  repeat' first
    | with_reducible assumption
    | with_reducible apply State.emit_canon
    | with_reducible apply popMsg_canon
    | intro _ _ _
    | intro _
    | dsimp only
    | split

theorem msgArrives_canon (q src dst chan : Nat) (word : TWord) (s : State) (hC : s.Canon) : (msgArrives q src dst chan word s).Canon := by
  unfold msgArrives
  repeat' first
    | with_reducible assumption
    | with_reducible apply canon_ite
    | with_reducible apply rxMsg_canon
    | intro _ _ _
    | intro _
    | dsimp only
    | split

theorem execMessageAccept_canon (m : MsgStep) (env : Env) (s : State) (hC : s.Canon) : ∀ t', execMessageAccept m env s = .next t' → t'.Canon := by
  unfold execMessageAccept
  intro _ hE
  cases hE
  repeat' first
    | with_reducible assumption
    | with_reducible apply applyUpsets_canon
    | with_reducible apply acceptMsg_canon
    | with_reducible apply sendOut_canon
    | with_reducible apply msgArrives_canon
    | intro _ _ _
    | intro _
    | dsimp only
    | split

theorem execNotifyIncrement_canon (q : PartId) (s : State) (hC : s.Canon) : ∀ t', execNotifyIncrement q s = .next t' → t'.Canon := by
  unfold execNotifyIncrement
  intro _ hE
  cases hE
  repeat' first
    | with_reducible assumption
    | with_reducible apply canon_ite
    | with_reducible apply State.updPart_canon
    | with_reducible apply bumpCounter_canon
    | intro _ _ _
    | intro _
    | dsimp only
    | split

theorem execHaltNotice_canon (c : CoreId) (s : State) (hC : s.Canon) : ∀ t', execHaltNotice c s = .next t' → t'.Canon := by
  unfold execHaltNotice
  intro _ hE
  cases hE
  repeat' first
    | with_reducible assumption
    | with_reducible apply canon_ite
    | with_reducible apply State.updCore_canon
    | with_reducible apply logEvent_canon
    | with_reducible apply faultPart_canon
    | intro _ _ _
    | intro _
    | dsimp only
    | split

theorem execPatrolScrub_canon (c : CoreId) (env : Env) (s : State) (hC : s.Canon) : ∀ t', execPatrolScrub c env s = .next t' → t'.Canon := by
  unfold execPatrolScrub
  intro _ hE
  cases hE
  repeat' first
    | with_reducible assumption
    | with_reducible apply canon_ite
    | with_reducible apply State.updCore_canon
    | with_reducible apply applyUpsets_canon
    | with_reducible apply touchAll_canon

theorem canon_runst_of_pair {β : Type} {p : RunSt × β} {a : RunSt} {b : β} (e : p = (a, b)) (h : p.1.s.Canon) : a.s.Canon := by
  subst e; exact h

theorem canon_runst_foldl {α : Type} {g : RunSt → α → RunSt} {l : List α} {r : RunSt} (h : r.s.Canon)
    (hg : ∀ r a, r.s.Canon → ((g r a).s).Canon) : ((l.foldl g r).s).Canon := by
  induction l generalizing r with
  | nil => exact h
  | cons x l ih => exact ih (hg _ _ h)

theorem fireRun_canon (c : Nat) (e : ArmEntry) (s : State) (hC : s.Canon) : (fireRun c e s).Canon := by
  unfold fireRun
  repeat' first
    | with_reducible assumption
    | with_reducible apply State.updCore_canon
    | with_reducible apply touchAll_canon
    | with_reducible apply touchRun_canon
    | intro _ _ _
    | intro _
    | dsimp only
    | split

theorem RunSt.start_canon (s : State) (hC : s.Canon) : ((RunSt.start s).s).Canon := by
  unfold RunSt.start
  repeat' first
    | with_reducible assumption

theorem RunSt.flush_canon (c : Nat) (tag : Tag) (r : RunSt) (hC : r.s.Canon) : ((RunSt.flush c tag r).s).Canon := by
  unfold RunSt.flush
  repeat' first
    | with_reducible assumption
    | with_reducible apply maskedWord_canon
    | intro _ _ _
    | intro _
    | dsimp only
    | split

theorem readElem_canon (c : Nat) (tag : Tag) (t : Tensor) (ix : List Nat) (r : RunSt) (hC : r.s.Canon) : ((readElem c tag t ix r).1.s).Canon := by
  unfold readElem
  repeat' first
    | with_reducible assumption
    | with_reducible apply canon_ite
    | with_reducible apply touch_canon
    | with_reducible apply RunSt.flush_canon
    | intro _ _ _
    | intro _
    | dsimp only
    | split

theorem readInputs_canon (c : Nat) (tag : Tag) (d : RunDesc) (quiet : Bool) (e : Nat) (ix : List Nat) (x0 : List Nat) (x1 : List Nat) (x2 : RunSt) (hC : x2.s.Canon) : ((readInputs c tag d quiet e ix x0 x1 x2).1.s).Canon := by
  induction x0 generalizing x1 x2 with
  | nil =>
    unfold readInputs
    repeat' first
      | with_reducible assumption
  | cons a l ih =>
    unfold readInputs
    repeat' first
      | with_reducible apply ih
      | with_reducible assumption
      | with_reducible apply canon_ite
      | with_reducible apply readElem_canon
      | intro _ _ _
      | intro _
      | dsimp only
      | split
      | (with_reducible apply canon_misc; with_reducible first | assumption | apply readElem_canon)
      | (refine canon_of_pair (by with_reducible assumption) ?_)
      | with_reducible apply canon_runst_foldl
      | (refine canon_runst_of_pair (by with_reducible assumption) ?_)

theorem maskActive_canon (c : Nat) (tag : Tag) (d : RunDesc) (quiet : Bool) (e : Nat) (ix : List Nat) (r : RunSt) (hC : r.s.Canon) : ((maskActive c tag d quiet e ix r).1.s).Canon := by
  unfold maskActive
  repeat' first
    | with_reducible assumption
    | with_reducible apply canon_ite
    | with_reducible apply readElem_canon
    | intro _ _ _
    | intro _
    | dsimp only
    | split
    | (with_reducible apply canon_misc; with_reducible first | assumption | apply readElem_canon)
    | (refine canon_of_pair (by with_reducible assumption) ?_)
    | with_reducible apply canon_runst_foldl
    | (refine canon_runst_of_pair (by with_reducible assumption) ?_)

theorem writeElem_canon (c : Nat) (tag : Tag) (n a v : Nat) (r : RunSt) (hC : r.s.Canon) : ((writeElem c tag n a v r).s).Canon := by
  unfold writeElem
  repeat' first
    | with_reducible assumption
    | with_reducible apply canon_ite
    | with_reducible apply RunSt.flush_canon
    | intro _ _ _
    | intro _
    | dsimp only
    | split

theorem observe_canon (e : Nat) (f : Nat) (r : RunSt) (hC : r.s.Canon) : ((observe e f r).s).Canon := by
  unfold observe
  repeat' first
    | with_reducible assumption

theorem endElem_canon (c : Nat) (tag : Tag) (d : RunDesc) (rc : RunCx) (e : Nat) (ix : List Nat) (ev : EvSt) (r : RunSt) (hC : r.s.Canon) : ((endElem c tag d rc e ix ev r).s).Canon := by
  unfold endElem
  repeat' first
    | with_reducible assumption
    | with_reducible apply canon_ite
    | with_reducible apply writeElem_canon
    | with_reducible apply observe_canon
    | intro _ _ _
    | intro _
    | dsimp only
    | split

theorem runElem_canon (c : Nat) (tag : Tag) (d : RunDesc) (rc : RunCx) (r : RunSt) (e : Nat) (hC : r.s.Canon) : ((runElem c tag d rc r e).s).Canon := by
  unfold runElem
  repeat' first
    | with_reducible assumption
    | with_reducible apply canon_ite
    | with_reducible apply canon_foldl
    | with_reducible apply RunSt.start_canon
    | with_reducible apply readInputs_canon
    | with_reducible apply maskActive_canon
    | with_reducible apply endElem_canon
    | intro _ _ _
    | intro _
    | dsimp only
    | split
    | (with_reducible apply canon_misc; with_reducible first | assumption | apply RunSt.start_canon | apply readInputs_canon | apply maskActive_canon | apply endElem_canon | apply canon_foldl)
    | (refine canon_of_pair (by with_reducible assumption) ?_)
    | with_reducible apply canon_runst_foldl
    | (refine canon_runst_of_pair (by with_reducible assumption) ?_)

theorem wholeWords_canon (c : Nat) (tag : Tag) (r : RunSt) (hC : r.s.Canon) : (wholeWords c tag r).Canon := by
  unfold wholeWords
  repeat' first
    | with_reducible assumption
    | with_reducible apply canon_ite
    | with_reducible apply canon_foldl
    | with_reducible apply State.updCore_canon
    | intro _ _ _

theorem runAll_canon (c q : Nat) (j : RunJob) (s : State) (hC : s.Canon) : ((runAll c q j s).s).Canon := by
  unfold runAll
  repeat' first
    | with_reducible assumption
    | with_reducible apply canon_foldl
    | with_reducible apply RunSt.start_canon
    | with_reducible apply RunSt.flush_canon
    | with_reducible apply runElem_canon
    | intro _ _ _
    | intro _
    | dsimp only
    | split
    | (with_reducible apply canon_misc; with_reducible first | assumption | apply RunSt.start_canon | apply RunSt.flush_canon | apply runElem_canon | apply canon_foldl)
    | with_reducible apply canon_runst_foldl

theorem endRun_canon (c q : Nat) (j : RunJob) (s : State) (hC : s.Canon) : (endRun c q j s).Canon := by
  unfold endRun
  repeat' first
    | with_reducible assumption
    | with_reducible apply canon_ite
    | with_reducible apply State.updCore_canon
    | with_reducible apply coreEvent_canon
    | with_reducible apply wholeWords_canon
    | with_reducible apply runAll_canon

theorem execTensorStreamComplete_canon (c : CoreId) (env : Env) (s : State) (hC : s.Canon) : ∀ t', execTensorStreamComplete c env s = .next t' → t'.Canon := by
  unfold execTensorStreamComplete
  intro _ hE
  cases hE
  repeat' first
    | with_reducible assumption
    | with_reducible apply canon_ite
    | with_reducible apply applyUpsets_canon
    | with_reducible apply endRun_canon
    | intro _ _ _
    | intro _
    | dsimp only
    | split

theorem peekLines_canon (q : Nat) (x0 : Nat) (x1 : Nat) (x2 : State) (hC : x2.Canon) : ((peekLines q x0 x1 x2).1).Canon := by
  induction x0 generalizing x1 x2 with
  | zero =>
    unfold peekLines
    repeat' first
      | with_reducible assumption
  | succ n ih =>
    unfold peekLines
    repeat' first
      | with_reducible apply ih
      | with_reducible assumption
      | with_reducible apply canon_ite
      | with_reducible apply lineNow_canon
      | with_reducible apply walkRead_canon
      | intro _ _ _
      | intro _
      | dsimp only
      | split
      | (with_reducible apply canon_misc; with_reducible first | assumption | apply lineNow_canon | apply walkRead_canon)
      | (refine canon_of_pair (by with_reducible assumption) ?_)

theorem readTable_canon (q : Nat) (s : State) (hC : s.Canon) : ((readTable q s).1).Canon := by
  unfold readTable
  repeat' first
    | with_reducible assumption
    | with_reducible apply peekLines_canon
    | intro _ _ _
    | intro _
    | dsimp only
    | split
    | (with_reducible apply canon_misc; with_reducible first | assumption | apply peekLines_canon)
    | (refine canon_of_pair (by with_reducible assumption) ?_)

theorem monitorTurn_canon (q : Nat) (s : State) (hC : s.Canon) : (monitorTurn q s).Canon := by
  unfold monitorTurn
  repeat' first
    | with_reducible assumption
    | with_reducible apply canon_ite
    | with_reducible apply State.updPart_canon
    | with_reducible apply readTable_canon

theorem execMonitorCounts_canon (q : PartId) (s : State) (hC : s.Canon) : ∀ t', execMonitorCounts q s = .next t' → t'.Canon := by
  unfold execMonitorCounts
  intro _ hE
  cases hE
  repeat' first
    | with_reducible assumption
    | with_reducible apply canon_ite
    | with_reducible apply State.updCore_canon
    | with_reducible apply State.updPart_canon
    | intro _ _ _
    | intro _
    | dsimp only
    | split

theorem logXlate_canon (q va : Nat) (s : State) (hC : s.Canon) : ((logXlate q va s).1).Canon := by
  unfold logXlate
  repeat' first
    | with_reducible assumption
    | with_reducible apply canon_ite
    | with_reducible apply walkRead_canon
    | intro _ _ _
    | intro _
    | dsimp only
    | split

theorem logPart_canon (q va : Nat) (bytes : List Byte) (e : TlbEntry) (s : State) (hC : s.Canon) : (logPart q va bytes e s).Canon := by
  unfold logPart
  repeat' first
    | with_reducible assumption
    | with_reducible apply submit_canon

theorem logFails_canon (q base cause : Nat) (s : State) (hC : s.Canon) : (logFails q base cause s).Canon := by
  unfold logFails
  repeat' first
    | with_reducible assumption
    | with_reducible apply State.updPart_canon
    | with_reducible apply logEvent_canon

theorem logWrite_canon (q base size : Nat) (bytes : List Byte) (s : State) (hC : s.Canon) : (logWrite q base size bytes s).Canon := by
  unfold logWrite
  repeat' first
    | with_reducible assumption
    | with_reducible apply canon_ite
    | with_reducible apply State.updPart_canon
    | with_reducible apply logXlate_canon
    | with_reducible apply logPart_canon
    | with_reducible apply logFails_canon
    | intro _ _ _
    | intro _
    | dsimp only
    | split

theorem execNumericsLogWrite_canon (q : PartId) (s : State) (hC : s.Canon) : ∀ t', execNumericsLogWrite q s = .next t' → t'.Canon := by
  unfold execNumericsLogWrite
  intro _ hE
  cases hE
  repeat' first
    | with_reducible assumption
    | with_reducible apply logWrite_canon
    | intro _ _ _
    | intro _
    | dsimp only
    | split

theorem recWrite_canon (q : Nat) (x0 : Nat) (x1 : Nat) (x2 : List Byte) (x3 : State) (hC : x3.Canon) : (recWrite q x0 x1 x2 x3).Canon := by
  induction x0 generalizing x1 x2 x3 with
  | zero =>
    unfold recWrite
    repeat' first
      | with_reducible assumption
  | succ n ih =>
    unfold recWrite
    repeat' first
      | with_reducible apply ih
      | with_reducible assumption
      | with_reducible apply canon_ite
      | with_reducible apply submit_canon
      | with_reducible apply walkRead_canon
      | intro _ _ _
      | intro _
      | dsimp only
      | split
      | (with_reducible apply canon_misc; with_reducible first | assumption | apply submit_canon | apply walkRead_canon)
      | (refine canon_of_pair (by with_reducible assumption) ?_)

theorem recPut_canon (q va : Nat) (bs : List Byte) (s : State) (hC : s.Canon) : (recPut q va bs s).Canon := by
  unfold recPut
  repeat' first
    | with_reducible assumption
    | with_reducible apply recWrite_canon

theorem recHead_canon (q : Nat) (s : State) (hC : s.Canon) : (recHead q s).Canon := by
  unfold recHead
  repeat' first
    | with_reducible assumption
    | with_reducible apply recPut_canon

theorem recAppend_canon (q : Nat) (bs : List Byte) (s : State) (hC : s.Canon) : (recAppend q bs s).Canon := by
  unfold recAppend
  repeat' first
    | with_reducible assumption
    | with_reducible apply State.updPart_canon
    | with_reducible apply recPut_canon

theorem recStop_canon (q code : Nat) (s : State) (hC : s.Canon) : (recStop q code s).Canon := by
  unfold recStop
  repeat' first
    | with_reducible assumption
    | with_reducible apply canon_ite
    | with_reducible apply State.updPart_canon
    | with_reducible apply recHead_canon
    | with_reducible apply recAppend_canon

theorem recItem_canon (q kind flags unit len turn key sub : Nat) (payload : List Byte) (s : State) (hC : s.Canon) : (recItem q kind flags unit len turn key sub payload s).Canon := by
  unfold recItem
  repeat' first
    | with_reducible assumption
    | with_reducible apply canon_ite
    | with_reducible apply recAppend_canon
    | with_reducible apply recStop_canon

theorem putTurnEnd_canon (q : Nat) (e : TurnEnd) (s : State) (hC : s.Canon) : (putTurnEnd q e s).Canon := by
  unfold putTurnEnd
  repeat' first
    | with_reducible assumption
    | with_reducible apply canon_ite
    | with_reducible apply State.updPart_canon
    | with_reducible apply recHead_canon
    | with_reducible apply recStop_canon
    | with_reducible apply recItem_canon

theorem recEnd_canon (q code : Nat) (s : State) (hC : s.Canon) : (recEnd q code s).Canon := by
  unfold recEnd
  repeat' first
    | with_reducible assumption
    | with_reducible apply canon_ite
    | with_reducible apply canon_foldl
    | with_reducible apply State.updPart_canon
    | with_reducible apply recStop_canon
    | with_reducible apply putTurnEnd_canon
    | intro _ _ _

theorem recInput_canon (q kind unit key sub : Nat) (content : List Byte) (s : State) (hC : s.Canon) : (recInput q kind unit key sub content s).Canon := by
  unfold recInput
  repeat' first
    | with_reducible assumption
    | with_reducible apply canon_ite
    | with_reducible apply recItem_canon

theorem recStart_canon (q mode va len : Nat) (s : State) (hC : s.Canon) : (recStart q mode va len s).Canon := by
  unfold recStart
  repeat' first
    | with_reducible assumption
    | with_reducible apply State.updPart_canon
    | with_reducible apply recPut_canon
    | with_reducible apply recItem_canon

theorem recLine_canon (q unit va : Nat) (bytes : List Byte) (s : State) (hC : s.Canon) : (recLine q unit va bytes s).Canon := by
  unfold recLine
  repeat' first
    | with_reducible assumption
    | with_reducible apply canon_ite
    | with_reducible apply State.updPart_canon
    | with_reducible apply recInput_canon

theorem replayEnd_canon (q : Nat) (s : State) (hC : s.Canon) : (replayEnd q s).Canon := by
  unfold replayEnd
  repeat' first
    | with_reducible assumption
    | with_reducible apply State.updPart_canon
    | with_reducible apply State.updMbx_canon
    | with_reducible apply State.drew_canon
    | with_reducible apply stopWithin_canon
    | intro _ _ _
    | intro _
    | dsimp only
    | split

theorem replayDiverge_canon (q turn unit stream : Nat) (s : State) (hC : s.Canon) : (replayDiverge q turn unit stream s).Canon := by
  unfold replayDiverge
  repeat' first
    | with_reducible assumption
    | with_reducible apply State.updPart_canon
    | with_reducible apply replayEnd_canon

theorem replayLine_canon (q unit va pa : Nat) (y : Replay) (s : State) (hC : s.Canon) : ((replayLine q unit va pa y s).1).Canon := by
  unfold replayLine
  repeat' first
    | with_reducible assumption
    | with_reducible apply canon_ite
    | with_reducible apply State.updPart_canon
    | with_reducible apply replayDiverge_canon
    | intro _ _ _
    | intro _
    | dsimp only
    | split

theorem hostReadFails_canon (q unit va iova : Nat) (f : HostFail) (s : State) (hC : s.Canon) : (hostReadFails q unit va iova f s).Canon := by
  unfold hostReadFails
  repeat' first
    | with_reducible assumption
    | with_reducible apply logEvent_canon
    | with_reducible apply stopWithin_canon

theorem hostLine_canon (q unit va pa iova : Nat) (env : Env) (s : State) (hC : s.Canon) : ((hostLine q unit va pa iova env s).1).Canon := by
  unfold hostLine
  repeat' first
    | with_reducible assumption
    | with_reducible apply recLine_canon
    | with_reducible apply replayLine_canon
    | with_reducible apply hostReadFails_canon
    | intro _ _ _
    | intro _
    | dsimp only
    | split

theorem countTurn_canon (q : Nat) (s : State) (hC : s.Canon) : (countTurn q s).Canon := by
  unfold countTurn
  repeat' first
    | with_reducible assumption
    | with_reducible apply State.updPart_canon

theorem compareTurn_canon (q : Nat) (e : TurnEnd) (y : Replay) (s : State) (hC : s.Canon) : (compareTurn q e y s).Canon := by
  unfold compareTurn
  repeat' first
    | with_reducible assumption
    | with_reducible apply canon_ite
    | with_reducible apply replayEnd_canon
    | with_reducible apply replayDiverge_canon
    | with_reducible apply countTurn_canon
    | intro _ _ _
    | intro _
    | dsimp only
    | split

theorem execTurnEndItem_canon (q : PartId) (s : State) (hC : s.Canon) : ∀ t', execTurnEndItem q s = .next t' → t'.Canon := by
  unfold execTurnEndItem
  intro _ hE
  cases hE
  repeat' first
    | with_reducible assumption
    | with_reducible apply canon_ite
    | with_reducible apply State.updPart_canon
    | with_reducible apply putTurnEnd_canon
    | with_reducible apply compareTurn_canon
    | intro _ _ _
    | intro _
    | dsimp only
    | split

theorem feederGot_canon (c fire unit va : Nat) (l : Line) (s : State) (hC : s.Canon) : (feederGot c fire unit va l s).Canon := by
  unfold feederGot
  repeat' first
    | with_reducible assumption
    | with_reducible apply State.updCore_canon

theorem feederLost_canon (c fire : Nat) (s : State) (hC : s.Canon) : (feederLost c fire s).Canon := by
  unfold feederLost
  repeat' first
    | with_reducible assumption
    | with_reducible apply State.updCore_canon

theorem askLine_canon (c q fire unit va : Nat) (env : Env) (s : State) (hC : s.Canon) : ((askLine c q fire unit va env s).1).Canon := by
  unfold askLine
  repeat' first
    | with_reducible assumption
    | with_reducible apply canon_ite
    | with_reducible apply State.updCore_canon
    | with_reducible apply submit_canon
    | with_reducible apply translateFar_canon
    | with_reducible apply countWindow_canon
    | with_reducible apply tlbInstall_canon
    | with_reducible apply hostLine_canon
    | with_reducible apply feederLost_canon
    | intro _ _ _
    | intro _
    | dsimp only
    | split
    | (with_reducible apply canon_misc; with_reducible first | assumption | apply State.updCore_canon | apply submit_canon | apply translateFar_canon | apply countWindow_canon | apply tlbInstall_canon | apply hostLine_canon | apply feederLost_canon)
    | (refine canon_of_pair (by with_reducible assumption) ?_)

theorem bar2End_canon (p : PortId) (r : Bar2Read) (s : State) (hC : s.Canon) : (bar2End p r s).Canon := by
  unfold bar2End
  repeat' first
    | with_reducible assumption
    | with_reducible apply canon_ite
    | with_reducible apply State.emit_canon
    | with_reducible apply portErr_canon

theorem bar2Got_canon (p : PortId) (k line : Nat) (l : Line) (s : State) (hC : s.Canon) : (bar2Got p k line l s).Canon := by
  unfold bar2Got
  repeat' first
    | with_reducible assumption
    | with_reducible apply canon_ite
    | with_reducible apply State.updPort_canon
    | with_reducible apply bar2End_canon
    | intro _ _ _
    | intro _
    | dsimp only
    | split

theorem updStream_canon (q n : Nat) (f : Stream → Stream) (s : State) (hC : s.Canon) : (updStream q n f s).Canon := by
  unfold updStream
  repeat' first
    | with_reducible assumption
    | with_reducible apply State.updPart_canon

theorem frameGot_canon (q n va : Nat) (l : Line) (s : State) (hC : s.Canon) : (frameGot q n va l s).Canon := by
  unfold frameGot
  repeat' first
    | with_reducible assumption
    | with_reducible apply canon_ite
    | with_reducible apply updStream_canon

theorem canon_feedst_of_pair {β : Type} {p : FeedSt × β} {a : FeedSt} {b : β} (e : p = (a, b)) (h : p.1.s.Canon) : a.s.Canon := by
  subst e; exact h

theorem matrixFault_canon (q c : Nat) (f : MFault) (s : State) (hC : s.Canon) : (matrixFault q c f s).Canon := by
  unfold matrixFault
  repeat' first
    | with_reducible assumption
    | with_reducible apply canon_ite
    | with_reducible apply State.updCore_canon
    | with_reducible apply logEvent_canon

theorem firePass_canon (q c : Nat) (e : ArmEntry) (s : State) (hC : s.Canon) : (firePass q c e s).Canon := by
  unfold firePass
  repeat' first
    | with_reducible assumption
    | with_reducible apply State.updCore_canon
    | with_reducible apply touchRun_canon
    | with_reducible apply matrixFault_canon
    | intro _ _ _
    | intro _
    | dsimp only
    | split

theorem startPass_canon (q c : Nat) (j : PassJob) (s : State) (hC : s.Canon) : (startPass q c j s).Canon := by
  unfold startPass
  repeat' first
    | with_reducible assumption
    | with_reducible apply canon_ite
    | with_reducible apply State.updCore_canon
    | with_reducible apply flushWcb_canon
    | with_reducible apply coreEvent_canon
    | with_reducible apply matrixFault_canon

theorem feedRead_canon (c : Nat) (tag : Tag) (unit n va : Nat) (f : FeedSt) (hC : f.s.Canon) : ((feedRead c tag unit n va f).1.s).Canon := by
  unfold feedRead
  repeat' first
    | with_reducible assumption
    | with_reducible apply canon_ite
    | with_reducible apply touch_canon
    | intro _ _ _
    | intro _
    | dsimp only
    | split

theorem feedElem_canon (c : Nat) (d : PassDesc) (a : Bool) (i k : Nat) (f : FeedSt) (hC : f.s.Canon) : ((feedElem c d a i k f).1.s).Canon := by
  unfold feedElem
  repeat' first
    | with_reducible assumption
    | with_reducible apply canon_ite
    | with_reducible apply feedRead_canon
    | intro _ _ _
    | intro _
    | dsimp only
    | split
    | (with_reducible apply canon_misc; with_reducible first | assumption | apply feedRead_canon)
    | (refine canon_of_pair (by with_reducible assumption) ?_)
    | (refine canon_feedst_of_pair (by with_reducible assumption) ?_)

theorem feedKs_canon (c : Nat) (d : PassDesc) (a : Bool) (i : Nat) (x0 : List Nat) (x1 : FeedSt) (x2 : List Fed) (hC : x1.s.Canon) : ((feedKs c d a i x0 x1 x2).1.s).Canon := by
  induction x0 generalizing x1 x2 with
  | nil =>
    unfold feedKs
    repeat' first
      | with_reducible assumption
  | cons a l ih =>
    unfold feedKs
    repeat' first
      | with_reducible apply ih
      | with_reducible assumption
      | with_reducible apply feedElem_canon

theorem feedRows_canon (c : Nat) (d : PassDesc) (a : Bool) (ks : List Nat) (x0 : List Nat) (x1 : FeedSt) (x2 : List (Nat × List Fed)) (hC : x1.s.Canon) : ((feedRows c d a ks x0 x1 x2).1.s).Canon := by
  induction x0 generalizing x1 x2 with
  | nil =>
    unfold feedRows
    repeat' first
      | with_reducible assumption
  | cons a l ih =>
    unfold feedRows
    repeat' first
      | with_reducible apply ih
      | with_reducible assumption
      | with_reducible apply feedKs_canon

theorem readBeat_canon (c : Nat) (d : PassDesc) (b : Nat) (f : FeedSt) (hC : f.s.Canon) : ((readBeat c d b f).1.s).Canon := by
  unfold readBeat
  repeat' first
    | with_reducible assumption
    | with_reducible apply feedRows_canon

theorem askAccs_canon (c q fire : Nat) (env : Env) (x0 : List (Nat × Nat)) (x1 : State) (hC : x1.Canon) : ((askAccs c q fire env x0 x1).1).Canon := by
  induction x0 generalizing x1 with
  | nil =>
    unfold askAccs
    repeat' first
      | with_reducible assumption
      | with_reducible apply canon_ite
      | with_reducible apply State.updCore_canon
  | cons a l ih =>
    unfold askAccs
    repeat' first
      | with_reducible apply ih
      | with_reducible assumption
      | with_reducible apply canon_ite
      | with_reducible apply State.updCore_canon
      | with_reducible apply askLine_canon
      | intro _ _ _
      | intro _
      | dsimp only
      | split
      | (with_reducible apply canon_misc; with_reducible first | assumption | apply State.updCore_canon | apply askLine_canon)
      | (refine canon_of_pair (by with_reducible assumption) ?_)

theorem askAhead_canon (c q fire : Nat) (env : Env) (x0 : Nat) (x1 : State) (hC : x1.Canon) : (askAhead c q fire env x0 x1).Canon := by
  induction x0 generalizing x1 with
  | zero =>
    unfold askAhead
    repeat' first
      | with_reducible assumption
  | succ n ih =>
    unfold askAhead
    repeat' first
      | with_reducible apply ih
      | with_reducible assumption
      | with_reducible apply canon_ite
      | with_reducible apply askAccs_canon
      | intro _ _ _
      | intro _
      | dsimp only
      | split
      | (with_reducible apply canon_misc; with_reducible first | assumption | apply askAccs_canon)
      | (refine canon_of_pair (by with_reducible assumption) ?_)

theorem pump_canon (c q fire : Nat) (env : Env) (lim : Nat) (x0 : Nat) (x1 : State) (hC : x1.Canon) : (pump c q fire env lim x0 x1).Canon := by
  induction x0 generalizing x1 with
  | zero =>
    unfold pump
    repeat' first
      | with_reducible assumption
  | succ n ih =>
    unfold pump
    repeat' first
      | with_reducible apply ih
      | with_reducible assumption
      | with_reducible apply canon_ite
      | with_reducible apply State.updCore_canon
      | with_reducible apply readBeat_canon
      | with_reducible apply askAhead_canon
      | intro _ _ _
      | intro _
      | dsimp only
      | split

theorem feedPass_canon (c q : Nat) (env : Env) (lim : Nat) (j : PassJob) (s : State) (hC : s.Canon) : (feedPass c q env lim j s).Canon := by
  unfold feedPass
  repeat' first
    | with_reducible assumption
    | with_reducible apply State.updCore_canon
    | with_reducible apply pump_canon

theorem feedStarted_canon (c : Nat) (env : Env) (s : State) (hC : s.Canon) : (feedStarted c env s).Canon := by
  unfold feedStarted
  repeat' first
    | with_reducible assumption
    | with_reducible apply canon_foldl
    | with_reducible apply feedPass_canon
    | intro _ _ _
    | intro _
    | dsimp only
    | split

theorem execPassStart_canon (c : CoreId) (env : Env) (s : State) (hC : s.Canon) : ∀ t', execPassStart c env s = .next t' → t'.Canon := by
  unfold execPassStart
  intro _ hE
  cases hE
  repeat' first
    | with_reducible assumption
    | with_reducible apply canon_ite
    | with_reducible apply applyUpsets_canon
    | with_reducible apply startPass_canon
    | with_reducible apply feedPass_canon
    | with_reducible apply feedStarted_canon
    | intro _ _ _
    | intro _
    | dsimp only
    | split

theorem feederLine_canon (c fire unit va : Nat) (l : Line) (env : Env) (s : State) (hC : s.Canon) : (feederLine c fire unit va l env s).Canon := by
  unfold feederLine
  repeat' first
    | with_reducible assumption
    | with_reducible apply feederGot_canon
    | with_reducible apply feedStarted_canon

theorem freeEntries_canon (c : Nat) (keys : List Nat) (s : State) (hC : s.Canon) : (freeEntries c keys s).Canon := by
  unfold freeEntries
  repeat' first
    | with_reducible assumption
    | with_reducible apply canon_foldl
    | with_reducible apply State.updCore_canon
    | intro _ _ _
    | intro _
    | dsimp only
    | split
    | (with_reducible apply canon_misc; with_reducible first | assumption | apply State.updCore_canon | apply canon_foldl)

theorem poisonTiles_canon (c : Nat) (ts : List Nat) (s : State) (hC : s.Canon) : (poisonTiles c ts s).Canon := by
  unfold poisonTiles
  repeat' first
    | with_reducible assumption
    | with_reducible apply State.updCore_canon
    | with_reducible apply freeEntries_canon

theorem countParity_canon (c : Nat) (s : State) (hC : s.Canon) : (countParity c s).Canon := by
  unfold countParity
  repeat' first
    | with_reducible assumption
    | with_reducible apply chatter_canon

theorem retirePass_canon (c q : Nat) (j : PassJob) (s : State) (hC : s.Canon) : (retirePass c q j s).Canon := by
  unfold retirePass
  repeat' first
    | with_reducible assumption
    | with_reducible apply State.updCore_canon
    | with_reducible apply coreEvent_canon

theorem abortPass_canon (c q : Nat) (j : PassJob) (sub : Nat) (addr : Word) (s : State) (hC : s.Canon) : (abortPass c q j sub addr s).Canon := by
  unfold abortPass
  repeat' first
    | with_reducible assumption
    | with_reducible apply State.updCore_canon
    | with_reducible apply coreEvent_canon
    | with_reducible apply matrixFault_canon
    | with_reducible apply poisonTiles_canon

theorem losePass_canon (c : Nat) (j : PassJob) (s : State) (hC : s.Canon) : (losePass c j s).Canon := by
  unfold losePass
  repeat' first
    | with_reducible assumption
    | with_reducible apply State.updCore_canon
    | with_reducible apply poisonTiles_canon

theorem execPassRetire_canon (c : CoreId) (env : Env) (s : State) (hC : s.Canon) : ∀ t', execPassRetire c env s = .next t' → t'.Canon := by
  unfold execPassRetire
  intro _ hE
  cases hE
  repeat' first
    | with_reducible assumption
    | with_reducible apply canon_ite
    | with_reducible apply applyUpsets_canon
    | with_reducible apply feedStarted_canon
    | with_reducible apply retirePass_canon
    | with_reducible apply losePass_canon
    | intro _ _ _
    | intro _
    | dsimp only
    | split

theorem execPassAbort_canon (c : CoreId) (env : Env) (s : State) (hC : s.Canon) : ∀ t', execPassAbort c env s = .next t' → t'.Canon := by
  unfold execPassAbort
  intro _ hE
  cases hE
  repeat' first
    | with_reducible assumption
    | with_reducible apply canon_ite
    | with_reducible apply applyUpsets_canon
    | with_reducible apply feedStarted_canon
    | with_reducible apply countParity_canon
    | with_reducible apply abortPass_canon
    | intro _ _ _
    | intro _
    | dsimp only
    | split

theorem fireDrain_canon (q c : Nat) (e : ArmEntry) (s : State) (hC : s.Canon) : (fireDrain q c e s).Canon := by
  unfold fireDrain
  repeat' first
    | with_reducible assumption
    | with_reducible apply State.updCore_canon
    | with_reducible apply touchRun_canon
    | with_reducible apply matrixFault_canon
    | intro _ _ _
    | intro _
    | dsimp only
    | split

theorem startFront_canon (q c : Nat) (j : DrainJob) (s : State) (hC : s.Canon) : (startFront q c j s).Canon := by
  unfold startFront
  repeat' first
    | with_reducible assumption
    | with_reducible apply canon_ite
    | with_reducible apply State.updCore_canon
    | with_reducible apply touchAll_canon
    | with_reducible apply coreEvent_canon
    | with_reducible apply matrixFault_canon
    | intro _ _ _
    | intro _
    | dsimp only
    | split

theorem execDrainFrontStart_canon (c : CoreId) (env : Env) (s : State) (hC : s.Canon) : ∀ t', execDrainFrontStart c env s = .next t' → t'.Canon := by
  unfold execDrainFrontStart
  intro _ hE
  cases hE
  repeat' first
    | with_reducible assumption
    | with_reducible apply canon_ite
    | with_reducible apply applyUpsets_canon
    | with_reducible apply startFront_canon
    | intro _ _ _
    | intro _
    | dsimp only
    | split

theorem storeVals_canon (c : Nat) (tag : Tag) (n : Nat) (l : List (Nat × Nat)) (s : State) (hC : s.Canon) : (storeVals c tag n l s).Canon := by
  unfold storeVals
  repeat' first
    | with_reducible assumption
    | with_reducible apply canon_foldl
    | with_reducible apply maskedWord_canon
    | intro _ _ _

theorem visitRow_canon (c : Nat) (j : DrainJob) (s : State) (hC : s.Canon) : (visitRow c j s).Canon := by
  unfold visitRow
  repeat' first
    | with_reducible assumption
    | with_reducible apply canon_ite
    | with_reducible apply canon_foldl
    | with_reducible apply State.updCore_canon
    | with_reducible apply storeVals_canon

theorem faultRow_canon (q c : Nat) (j : DrainJob) (sub addr : Nat) (poison : Bool) (s : State) (hC : s.Canon) : (faultRow q c j sub addr poison s).Canon := by
  unfold faultRow
  repeat' first
    | with_reducible assumption
    | with_reducible apply canon_ite
    | with_reducible apply State.updCore_canon
    | with_reducible apply matrixFault_canon

theorem parityRow_canon (q c : Nat) (j : DrainJob) (s : State) (hC : s.Canon) : (parityRow q c j s).Canon := by
  unfold parityRow
  repeat' first
    | with_reducible assumption
    | with_reducible apply State.updCore_canon
    | with_reducible apply freeEntries_canon
    | with_reducible apply countParity_canon
    | with_reducible apply faultRow_canon

theorem visit_canon (q c : Nat) (j : DrainJob) (s : State) (hC : s.Canon) : (visit q c j s).Canon := by
  unfold visit
  repeat' first
    | with_reducible assumption
    | with_reducible apply canon_ite
    | with_reducible apply touchAll_canon
    | with_reducible apply visitRow_canon
    | with_reducible apply faultRow_canon
    | with_reducible apply parityRow_canon
    | intro _ _ _
    | intro _
    | dsimp only
    | split

theorem execDrainRowVisit_canon (c : CoreId) (env : Env) (s : State) (hC : s.Canon) : ∀ t', execDrainRowVisit c env s = .next t' → t'.Canon := by
  unfold execDrainRowVisit
  intro _ hE
  cases hE
  repeat' first
    | with_reducible assumption
    | with_reducible apply applyUpsets_canon
    | with_reducible apply visit_canon
    | intro _ _ _
    | intro _
    | dsimp only
    | split

theorem execDrainComplete_canon (c : CoreId) (s : State) (hC : s.Canon) : ∀ t', execDrainComplete c s = .next t' → t'.Canon := by
  unfold execDrainComplete
  intro _ hE
  cases hE
  repeat' first
    | with_reducible assumption
    | with_reducible apply canon_ite
    | with_reducible apply State.updCore_canon
    | with_reducible apply coreEvent_canon
    | intro _ _ _
    | intro _
    | dsimp only
    | split

theorem forwardDone_canon (q : Nat) (s : State) (hC : s.Canon) : (forwardDone q s).Canon := by
  unfold forwardDone
  repeat' first
    | with_reducible assumption
    | with_reducible apply canon_ite
    | with_reducible apply State.emit_canon

theorem completeTurn_canon (q : Nat) (s : State) (hC : s.Canon) : (completeTurn q s).Canon := by
  unfold completeTurn
  repeat' first
    | with_reducible assumption
    | with_reducible apply canon_ite
    | with_reducible apply State.updPart_canon
    | with_reducible apply monitorTurn_canon
    | with_reducible apply forwardDone_canon

theorem execTurnDone_canon (q : PartId) (u : UnitRef) (s : State) (hC : s.Canon) : ∀ t', execTurnDone q u s = .next t' → t'.Canon := by
  unfold execTurnDone
  intro _ hE
  cases hE
  repeat' first
    | with_reducible assumption
    | with_reducible apply canon_ite
    | with_reducible apply updTu_canon
    | with_reducible apply completeTurn_canon

theorem startSweep_canon (q : Nat) (s : State) (hC : s.Canon) : (startSweep q s).Canon := by
  unfold startSweep
  repeat' first
    | with_reducible assumption
    | with_reducible apply canon_foldl
    | with_reducible apply State.updBed_canon
    | intro _ _ _

theorem stopAt_canon (q : Nat) (how : StopHow) (stat : Nat) (incomplete : Bool) (s : State) (hC : s.Canon) : (stopAt q how stat incomplete s).Canon := by
  unfold stopAt
  repeat' first
    | with_reducible assumption
    | with_reducible apply canon_ite
    | with_reducible apply State.updPart_canon
    | with_reducible apply notifyPart_canon
    | with_reducible apply finishStop_canon

theorem postNotice_canon (q kind turn va len : Nat) (s : State) (hC : s.Canon) : (postNotice q kind turn va len s).Canon := by
  unfold postNotice
  repeat' first
    | with_reducible assumption
    | with_reducible apply canon_ite
    | with_reducible apply canon_foldl
    | with_reducible apply State.updCore_canon
    | intro _ _ _

theorem applyChange_canon (q turn : Nat) (c : MapChange) (s : State) (hC : s.Canon) : (applyChange q turn c s).Canon := by
  unfold applyChange
  repeat' first
    | with_reducible assumption
    | with_reducible apply canon_ite
    | with_reducible apply State.updPart_canon
    | with_reducible apply invalidate_canon
    | with_reducible apply postNotice_canon

theorem applyChanges_canon (q turn : Nat) (l : List MapChange) (s : State) (hC : s.Canon) : (applyChanges q turn l s).Canon := by
  unfold applyChanges
  repeat' first
    | with_reducible assumption
    | with_reducible apply canon_foldl
    | with_reducible apply State.updPart_canon
    | with_reducible apply applyChange_canon
    | intro _ _ _

theorem recordChanges_canon (q : Nat) (l : List MapChange) (s : State) (hC : s.Canon) : (recordChanges q l s).Canon := by
  unfold recordChanges
  repeat' first
    | with_reducible assumption
    | with_reducible apply canon_foldl
    | with_reducible apply recInput_canon
    | intro _ _ _

theorem endOldRecord_canon (q : Nat) (s : State) (hC : s.Canon) : (endOldRecord q s).Canon := by
  unfold endOldRecord
  repeat' first
    | with_reducible assumption
    | with_reducible apply canon_ite
    | with_reducible apply recEnd_canon

theorem applyRecord_canon (q : Nat) (s : State) (hC : s.Canon) : (applyRecord q s).Canon := by
  unfold applyRecord
  repeat' first
    | with_reducible assumption
    | with_reducible apply canon_ite
    | with_reducible apply State.updPart_canon
    | with_reducible apply recStart_canon
    | intro _ _ _
    | intro _
    | dsimp only
    | split

theorem applySeed_canon (q turn : Nat) (s : State) (hC : s.Canon) : (applySeed q turn s).Canon := by
  unfold applySeed
  repeat' first
    | with_reducible assumption
    | with_reducible apply canon_ite
    | with_reducible apply State.updPart_canon
    | with_reducible apply recInput_canon
    | intro _ _ _
    | intro _
    | dsimp only
    | split

theorem installMigrations_canon (q turn : Nat) (s : State) (hC : s.Canon) : (installMigrations q turn s).Canon := by
  unfold installMigrations
  repeat' first
    | with_reducible assumption
    | with_reducible apply canon_foldl
    | with_reducible apply State.updPart_canon

theorem pokeBytes_canon (q : Nat) (x0 : Nat) (x1 : Nat) (x2 : List Byte) (x3 : State) (hC : x3.Canon) : (pokeBytes q x0 x1 x2 x3).Canon := by
  induction x0 generalizing x1 x2 x3 with
  | zero =>
    unfold pokeBytes
    repeat' first
      | with_reducible assumption
  | succ n ih =>
    unfold pokeBytes
    repeat' first
      | with_reducible apply ih
      | with_reducible assumption
      | with_reducible apply canon_ite
      | with_reducible apply lineWrite_canon
      | intro _ _ _
      | intro _
      | dsimp only
      | split

theorem endTurn0_canon (q : Nat) (s : State) (hC : s.Canon) : (endTurn0 q s).Canon := by
  unfold endTurn0
  repeat' first
    | with_reducible assumption
    | with_reducible apply pokeBytes_canon
    | intro _ _ _
    | intro _
    | dsimp only
    | split

theorem sendSpur_canon (q : Nat) (s : State) (hC : s.Canon) : (sendSpur q s).Canon := by
  unfold sendSpur
  repeat' first
    | with_reducible assumption
    | with_reducible apply canon_ite
    | with_reducible apply State.emit_canon

theorem broadcast_canon (q : Nat) (s : State) (hC : s.Canon) : (broadcast q s).Canon := by
  unfold broadcast
  repeat' first
    | with_reducible assumption
    | with_reducible apply canon_ite
    | with_reducible apply State.updPart_canon
    | with_reducible apply startSweep_canon
    | with_reducible apply applyChanges_canon
    | with_reducible apply recordChanges_canon
    | with_reducible apply endOldRecord_canon
    | with_reducible apply applyRecord_canon
    | with_reducible apply applySeed_canon
    | with_reducible apply installMigrations_canon
    | with_reducible apply endTurn0_canon
    | with_reducible apply sendSpur_canon

theorem masterSpur_canon (q : Nat) (s : State) (hC : s.Canon) : (masterSpur q s).Canon := by
  unfold masterSpur
  repeat' first
    | with_reducible assumption
    | with_reducible apply canon_ite
    | with_reducible apply replayDiverge_canon
    | with_reducible apply stopAt_canon
    | with_reducible apply broadcast_canon

theorem takeSpur_canon (q : Nat) (u : UnitRef) (turn : Nat) (s : State) (hC : s.Canon) : (takeSpur q u turn s).Canon := by
  unfold takeSpur
  repeat' first
    | with_reducible assumption
    | with_reducible apply State.updCore_canon
    | with_reducible apply State.updPart_canon
    | with_reducible apply updTu_canon
    | intro _ _ _
    | intro _
    | dsimp only
    | split

theorem spurMismatch_canon (q : Nat) (u : UnitRef) (turn : Nat) (s : State) (hC : s.Canon) : (spurMismatch q u turn s).Canon := by
  unfold spurMismatch
  repeat' first
    | with_reducible assumption
    | with_reducible apply logEvent_canon
    | with_reducible apply faultPart_canon
    | with_reducible apply raiseImmediate_canon

theorem startPart_canon (q : Nat) (span : List SpanAnswer) (s : State) (hC : s.Canon) : (startPart q span s).Canon := by
  unfold startPart
  repeat' first
    | with_reducible assumption
    | with_reducible apply canon_ite
    | with_reducible apply canon_foldl
    | with_reducible apply State.updPart_canon

theorem memberStart_canon (q : Nat) (answers : List SpanAnswer) (s : State) (hC : s.Canon) : (memberStart q answers s).Canon := by
  unfold memberStart
  repeat' first
    | with_reducible assumption
    | with_reducible apply canon_ite
    | with_reducible apply startPart_canon
    | intro _ _ _
    | intro _
    | dsimp only
    | split

theorem relaySpur_canon (q turn : Nat) (s : State) (hC : s.Canon) : (relaySpur q turn s).Canon := by
  unfold relaySpur
  repeat' first
    | with_reducible assumption
    | with_reducible apply canon_ite
    | with_reducible apply broadcast_canon
    | with_reducible apply spurMismatch_canon

theorem memberStop_canon (q : Nat) (s : State) (hC : s.Canon) : (memberStop q s).Canon := by
  unfold memberStop
  repeat' first
    | with_reducible assumption
    | with_reducible apply canon_ite
    | with_reducible apply stopAt_canon

theorem execSpurBroadcast_canon (b : SpurFrom) (s : State) (hC : s.Canon) : ∀ t', execSpurBroadcast b s = .next t' → t'.Canon := by
  unfold execSpurBroadcast
  intro _ hE
  cases hE
  repeat' first
    | with_reducible assumption
    | with_reducible apply canon_ite
    | with_reducible apply RunSt.start_canon
    | with_reducible apply masterSpur_canon
    | with_reducible apply memberStart_canon
    | with_reducible apply relaySpur_canon
    | with_reducible apply memberStop_canon
    | intro _ _ _
    | intro _
    | dsimp only
    | split

theorem execSpurReceipt_canon (q : PartId) (u : UnitRef) (turn : Nat) (s : State) (hC : s.Canon) : ∀ t', execSpurReceipt q u turn s = .next t' → t'.Canon := by
  unfold execSpurReceipt
  intro _ hE
  cases hE
  repeat' first
    | with_reducible assumption
    | with_reducible apply canon_ite
    | with_reducible apply takeSpur_canon
    | with_reducible apply spurMismatch_canon

theorem execQuiescentPointStop_canon (q : PartId) (s : State) (hC : s.Canon) : ∀ t', execQuiescentPointStop q s = .next t' → t'.Canon := by
  unfold execQuiescentPointStop
  intro _ hE
  cases hE
  repeat' first
    | with_reducible assumption
    | with_reducible apply canon_ite
    | with_reducible apply stopAt_canon

theorem execPartStopTimeout_canon (q : PartId) (s : State) (hC : s.Canon) : ∀ t', execPartStopTimeout q s = .next t' → t'.Canon := by
  unfold execPartStopTimeout
  intro _ hE
  cases hE
  repeat' first
    | with_reducible assumption
    | with_reducible apply canon_ite
    | with_reducible apply stopWithin_canon

theorem updMoves_canon (m : MoverRef) (q : Nat) (f : List MoveJob → List MoveJob) (s : State) (hC : s.Canon) : (updMoves m q f s).Canon := by
  unfold updMoves
  repeat' first
    | with_reducible assumption
    | with_reducible apply State.updCore_canon
    | with_reducible apply updBulk_canon
    | intro _ _ _
    | intro _
    | dsimp only
    | split

theorem updHead_canon (m : MoverRef) (q : Nat) (f : MoveJob → MoveJob) (s : State) (hC : s.Canon) : (updHead m q f s).Canon := by
  unfold updHead
  repeat' first
    | with_reducible assumption
    | with_reducible apply updMoves_canon

theorem dropMove_canon (m : MoverRef) (q : Nat) (s : State) (hC : s.Canon) : (dropMove m q s).Canon := by
  unfold dropMove
  repeat' first
    | with_reducible assumption
    | with_reducible apply moveNote_canon
    | with_reducible apply updMoves_canon
    | intro _ _ _
    | intro _
    | dsimp only
    | split

theorem refuseMove_canon (m : MoverRef) (q check : Nat) (j : MoveJob) (s : State) (hC : s.Canon) : (refuseMove m q check j s).Canon := by
  unfold refuseMove
  repeat' first
    | with_reducible assumption
    | with_reducible apply logEvent_canon
    | with_reducible apply faultPart_canon
    | with_reducible apply dropMove_canon

theorem copyWords_canon (c r : Nat) (d : MoveDesc) (n pos : Nat) (x : State × Nat) (hC : x.1.Canon) :
    ((copyWords c r d n pos x).1).Canon := by
  induction n generalizing pos x with
  | zero => exact hC
  | succ n ih =>
    unfold copyWords
    apply ih
    apply State.updCore_canon
    exact readWord_canon _ _ _ hC

theorem storeRead_canon (c : Nat) (x0 : Nat) (x1 : Nat) (x2 : State) (hC : x2.Canon) : ((storeRead c x0 x1 x2).1).Canon := by
  induction x0 generalizing x1 x2 with
  | zero =>
    unfold storeRead
    repeat' first
      | with_reducible assumption
  | succ n ih =>
    unfold storeRead
    repeat' first
      | with_reducible apply ih
      | with_reducible assumption
      | with_reducible apply canon_ite
      | with_reducible apply readWord_canon

theorem stallMove_canon (m : MoverRef) (q va : Nat) (write : Bool) (cause level te : Nat) (s : State) (hC : s.Canon) : (stallMove m q va write cause level te s).Canon := by
  unfold stallMove
  repeat' first
    | with_reducible assumption
    | with_reducible apply updHead_canon

theorem pieceDone_canon (m : MoverRef) (q n : Nat) (s : State) (hC : s.Canon) : (pieceDone m q n s).Canon := by
  unfold pieceDone
  repeat' first
    | with_reducible assumption
    | with_reducible apply updHead_canon

theorem takeLine_canon (m : MoverRef) (q : Nat) (d : MoveDesc) (pos want : Nat) (acc : List Byte) (bad : Nat) (l : Line) (s : State) (hC : s.Canon) : (takeLine m q d pos want acc bad l s).Canon := by
  unfold takeLine
  repeat' first
    | with_reducible assumption
    | with_reducible apply canon_ite
    | with_reducible apply updHead_canon

theorem moveRead_canon (m : MoverRef) (q : Nat) (d : MoveDesc) (pos want : Nat) (acc : List Byte) (bad : Nat) (s : State) (hC : s.Canon) : (moveRead m q d pos want acc bad s).Canon := by
  unfold moveRead
  repeat' first
    | with_reducible assumption
    | with_reducible apply submit_canon
    | with_reducible apply translateFar_canon
    | with_reducible apply countWindow_canon
    | with_reducible apply tlbInstall_canon
    | with_reducible apply flushWcb_canon
    | with_reducible apply updHead_canon
    | with_reducible apply stallMove_canon
    | intro _ _ _
    | intro _
    | dsimp only
    | split
    | (with_reducible apply canon_misc; with_reducible first | assumption | apply submit_canon | apply translateFar_canon | apply countWindow_canon | apply tlbInstall_canon | apply flushWcb_canon | apply updHead_canon | apply stallMove_canon)
    | (refine canon_of_pair (by with_reducible assumption) ?_)

theorem moveHost_canon (m : MoverRef) (q : Nat) (d : MoveDesc) (pos want : Nat) (acc : List Byte) (bad pa : Nat) (env : Env) (s : State) (hC : s.Canon) : ((moveHost m q d pos want acc bad pa env s).1).Canon := by
  unfold moveHost
  repeat' first
    | with_reducible assumption
    | with_reducible apply hostLine_canon
    | with_reducible apply dropMove_canon
    | with_reducible apply takeLine_canon
    | intro _ _ _
    | intro _
    | dsimp only
    | split
    | (with_reducible apply canon_misc; with_reducible first | assumption | apply hostLine_canon | apply dropMove_canon | apply takeLine_canon)
    | (refine canon_of_pair (by with_reducible assumption) ?_)

theorem deliverWords_canon (q : Nat) (d : MoveDesc) (pos : Nat) (ws : List TWord) (s : State) (hC : s.Canon) : (deliverWords q d pos ws s).Canon := by
  unfold deliverWords
  repeat' first
    | with_reducible assumption
    | with_reducible apply canon_ite
    | with_reducible apply canon_foldl
    | with_reducible apply State.updCore_canon
    | intro _ _ _
    | intro _
    | dsimp only
    | split

theorem farZero_canon (c line : Nat) (ro : Bool) (s : State) (hC : s.Canon) : (farZero c line ro s).Canon := by
  unfold farZero
  repeat' first
    | with_reducible assumption
    | with_reducible apply State.updCore_canon
    | with_reducible apply offerVictim_canon

theorem moveWrite_canon (m : MoverRef) (q : Nat) (d : MoveDesc) (pos : Nat) (bytes : List Byte) (bad : Bool) (s : State) (hC : s.Canon) : ((moveWrite m q d pos bytes bad s).1).Canon := by
  unfold moveWrite
  repeat' first
    | with_reducible assumption
    | with_reducible apply canon_ite
    | with_reducible apply State.updCore_canon
    | with_reducible apply submit_canon
    | with_reducible apply translateFar_canon
    | with_reducible apply countWindow_canon
    | with_reducible apply tlbInstall_canon
    | with_reducible apply updHead_canon
    | with_reducible apply stallMove_canon
    | with_reducible apply pieceDone_canon
    | with_reducible apply farZero_canon
    | intro _ _ _
    | intro _
    | dsimp only
    | split
    | (with_reducible apply canon_misc; with_reducible first | assumption | apply State.updCore_canon | apply submit_canon | apply translateFar_canon | apply countWindow_canon | apply tlbInstall_canon | apply updHead_canon | apply stallMove_canon | apply pieceDone_canon | apply farZero_canon)
    | (refine canon_of_pair (by with_reducible assumption) ?_)

theorem coreToFar_canon (m : MoverRef) (q : Nat) (c : Nat) (d : MoveDesc) (pos n : Nat) (s : State) (hC : s.Canon) : ((coreToFar m q c d pos n s).1).Canon := by
  unfold coreToFar
  repeat' first
    | with_reducible assumption
    | with_reducible apply canon_ite
    | with_reducible apply translateFar_canon
    | with_reducible apply updHead_canon
    | with_reducible apply storeRead_canon
    | with_reducible apply stallMove_canon
    | with_reducible apply moveWrite_canon
    | intro _ _ _
    | intro _
    | dsimp only
    | split
    | (with_reducible apply canon_misc; with_reducible first | assumption | apply translateFar_canon | apply updHead_canon | apply storeRead_canon | apply stallMove_canon | apply moveWrite_canon)
    | (refine canon_of_pair (by with_reducible assumption) ?_)

theorem servedNow_canon (m : MoverRef) (q : Nat) (s : State) (hC : s.Canon) : (servedNow m q s).Canon := by
  unfold servedNow
  repeat' first
    | with_reducible assumption
    | with_reducible apply State.updDie_canon
    | intro _ _ _
    | intro _
    | dsimp only
    | split

theorem movePiece_canon (m : MoverRef) (q : Nat) (d : MoveDesc) (pos : Nat) (s : State) (hC : s.Canon) : ((movePiece m q d pos s).1).Canon := by
  unfold movePiece
  repeat' first
    | with_reducible assumption
    | with_reducible apply canon_ite
    | with_reducible apply updHead_canon
    | with_reducible apply copyWords_canon
    | with_reducible apply pieceDone_canon
    | with_reducible apply moveRead_canon
    | with_reducible apply moveWrite_canon
    | with_reducible apply coreToFar_canon
    | intro _ _ _
    | intro _
    | dsimp only
    | split

theorem moveStep_canon (m : MoverRef) (q : Nat) (hostOk : Bool) (env : Env) (s : State) (hC : s.Canon) : ((moveStep m q hostOk env s).1).Canon := by
  unfold moveStep
  repeat' first
    | with_reducible assumption
    | with_reducible apply canon_ite
    | with_reducible apply pieceDone_canon
    | with_reducible apply moveRead_canon
    | with_reducible apply moveHost_canon
    | with_reducible apply deliverWords_canon
    | with_reducible apply moveWrite_canon
    | with_reducible apply servedNow_canon
    | with_reducible apply movePiece_canon
    | intro _ _ _
    | intro _
    | dsimp only
    | split

theorem moveRun_canon (m : MoverRef) (q : Nat) (hostOk : Bool) (env : Env) (x0 : Nat) (x1 : State) (hC : x1.Canon) : (moveRun m q hostOk env x0 x1).Canon := by
  induction x0 generalizing x1 with
  | zero =>
    unfold moveRun
    repeat' first
      | with_reducible assumption
  | succ n ih =>
    unfold moveRun
    repeat' first
      | with_reducible apply ih
      | with_reducible assumption
      | with_reducible apply moveStep_canon
      | intro _ _ _
      | intro _
      | dsimp only
      | split
      | (with_reducible apply canon_misc; with_reducible first | assumption | apply moveStep_canon)
      | (refine canon_of_pair (by with_reducible assumption) ?_)

theorem bulkRun_canon (d : Nat) (x0 : Nat) (x1 : State) (hC : x1.Canon) : (bulkRun d x0 x1).Canon := by
  induction x0 generalizing x1 with
  | zero =>
    unfold bulkRun
    repeat' first
      | with_reducible assumption
  | succ n ih =>
    unfold bulkRun
    repeat' first
      | with_reducible apply ih
      | with_reducible assumption
      | with_reducible apply canon_ite
      | with_reducible apply moveStep_canon
      | intro _ _ _
      | intro _
      | dsimp only
      | split

theorem moveOn_canon (m : MoverRef) (q : Nat) (hostOk : Bool) (env : Env) (s : State) (hC : s.Canon) : (moveOn m q hostOk env s).Canon := by
  unfold moveOn
  repeat' first
    | with_reducible assumption
    | with_reducible apply moveRun_canon
    | with_reducible apply bulkRun_canon
    | intro _ _ _
    | intro _
    | dsimp only
    | split

theorem startMove_canon (m : MoverRef) (q : Nat) (j : MoveJob) (s : State) (hC : s.Canon) : (startMove m q j s).Canon := by
  unfold startMove
  repeat' first
    | with_reducible assumption
    | with_reducible apply touchRun_canon
    | with_reducible apply updHead_canon
    | with_reducible apply refuseMove_canon
    | with_reducible apply moveOn_canon
    | intro _ _ _
    | intro _
    | dsimp only
    | split

theorem execMoveStart_canon (m : MoverRef) (q : PartId) (env : Env) (s : State) (hC : s.Canon) : ∀ t', execMoveStart m q env s = .next t' → t'.Canon := by
  unfold execMoveStart
  intro _ hE
  cases hE
  repeat' first
    | with_reducible assumption
    | with_reducible apply canon_ite
    | with_reducible apply applyUpsets_canon
    | with_reducible apply startMove_canon
    | intro _ _ _
    | intro _
    | dsimp only
    | split

theorem multicastOn_canon (m : MoverRef) (q : Nat) (x0 : Nat) (x1 : State) (hC : x1.Canon) : (multicastOn m q x0 x1).Canon := by
  induction x0 generalizing x1 with
  | zero =>
    unfold multicastOn
    repeat' first
      | with_reducible assumption
  | succ n ih =>
    unfold multicastOn
    repeat' first
      | with_reducible apply ih
      | with_reducible assumption
      | with_reducible apply canon_ite
      | with_reducible apply pieceDone_canon
      | with_reducible apply deliverWords_canon
      | intro _ _ _
      | intro _
      | dsimp only
      | split

theorem sourceLine_canon (m : MoverRef) (q va : Nat) (j : MoveJob) (s : State) (hC : s.Canon) : (sourceLine m q va j s).Canon := by
  unfold sourceLine
  repeat' first
    | with_reducible assumption
    | with_reducible apply submit_canon
    | with_reducible apply translateFar_canon
    | with_reducible apply tlbInstall_canon
    | with_reducible apply updHead_canon
    | with_reducible apply refuseMove_canon
    | with_reducible apply stallMove_canon
    | intro _ _ _
    | intro _
    | dsimp only
    | split
    | (with_reducible apply canon_misc; with_reducible first | assumption | apply submit_canon | apply translateFar_canon | apply tlbInstall_canon | apply updHead_canon | apply refuseMove_canon | apply stallMove_canon)
    | (refine canon_of_pair (by with_reducible assumption) ?_)

theorem execMulticastSourceLine_canon (d : DieId) (q : PartId) (env : Env) (s : State) (hC : s.Canon) : ∀ t', execMulticastSourceLine d q env s = .next t' → t'.Canon := by
  unfold execMulticastSourceLine
  intro _ hE
  cases hE
  repeat' first
    | with_reducible assumption
    | with_reducible apply canon_ite
    | with_reducible apply applyUpsets_canon
    | with_reducible apply servedNow_canon
    | with_reducible apply bulkRun_canon
    | with_reducible apply sourceLine_canon
    | intro _ _ _
    | intro _
    | dsimp only
    | split

theorem sendNotifies_canon (m : MoverRef) (q : Nat) (j : MoveJob) (s : State) (hC : s.Canon) : (sendNotifies m q j s).Canon := by
  unfold sendNotifies
  repeat' first
    | with_reducible assumption
    | with_reducible apply canon_ite
    | with_reducible apply State.updPart_canon

theorem finishMove_canon (m : MoverRef) (q : Nat) (j : MoveJob) (s : State) (hC : s.Canon) : (finishMove m q j s).Canon := by
  unfold finishMove
  repeat' first
    | with_reducible assumption
    | with_reducible apply State.updCore_canon
    | with_reducible apply coreEvent_canon
    | with_reducible apply dropMove_canon
    | with_reducible apply sendNotifies_canon
    | intro _ _ _
    | intro _
    | dsimp only
    | split

theorem execMoveComplete_canon (m : MoverRef) (q : PartId) (env : Env) (s : State) (hC : s.Canon) : ∀ t', execMoveComplete m q env s = .next t' → t'.Canon := by
  unfold execMoveComplete
  intro _ hE
  cases hE
  repeat' first
    | with_reducible assumption
    | with_reducible apply canon_ite
    | with_reducible apply applyUpsets_canon
    | with_reducible apply moveOn_canon
    | with_reducible apply finishMove_canon
    | intro _ _ _
    | intro _
    | dsimp only
    | split

theorem moverGot_canon (m : MoverRef) (q : Nat) (l : Line) (s : State) (hC : s.Canon) : (moverGot m q l s).Canon := by
  unfold moverGot
  repeat' first
    | with_reducible assumption
    | with_reducible apply canon_ite
    | with_reducible apply updHead_canon
    | with_reducible apply takeLine_canon
    | with_reducible apply moveOn_canon
    | with_reducible apply multicastOn_canon
    | intro _ _ _
    | intro _
    | dsimp only
    | split

theorem moverAck_canon (m : MoverRef) (q : Nat) (s : State) (hC : s.Canon) : (moverAck m q s).Canon := by
  unfold moverAck
  repeat' first
    | with_reducible assumption
    | with_reducible apply pieceDone_canon
    | with_reducible apply moveOn_canon
    | intro _ _ _
    | intro _
    | dsimp only
    | split

theorem answerRead_canon (r : MemReq) (l : Line) (env : Env) (s : State) (hC : s.Canon) : (answerRead r l env s).Canon := by
  unfold answerRead
  repeat' first
    | with_reducible assumption
    | with_reducible apply canon_ite
    | with_reducible apply State.updCore_canon
    | with_reducible apply bar2Got_canon
    | with_reducible apply frameGot_canon
    | with_reducible apply feederLine_canon
    | with_reducible apply moverGot_canon
    | intro _ _ _
    | intro _
    | dsimp only
    | split

theorem answerWrite_canon (r : MemReq) (s : State) (hC : s.Canon) : (answerWrite r s).Canon := by
  unfold answerWrite
  repeat' first
    | with_reducible assumption
    | with_reducible apply moverAck_canon
    | intro _ _ _
    | intro _
    | dsimp only
    | split

theorem answerNever_canon (r : MemReq) (s : State) (hC : s.Canon) : (answerNever r s).Canon := by
  unfold answerNever
  repeat' first
    | with_reducible assumption
    | with_reducible apply feederLost_canon
    | intro _ _ _
    | intro _
    | dsimp only
    | split

theorem bedServe_canon (b off : Nat) (r : MemReq) (env : Env) (s : State) (hC : s.Canon) : (bedServe b off r env s).Canon := by
  unfold bedServe
  repeat' first
    | with_reducible assumption
    | with_reducible apply canon_ite
    | with_reducible apply bedRead_canon
    | with_reducible apply bedWrite_canon
    | with_reducible apply answerRead_canon
    | with_reducible apply answerWrite_canon

theorem bedAccess_canon (b off : Nat) (r : MemReq) (env : Env) (s : State) (hC : s.Canon) : (bedAccess b off r env s).Canon := by
  unfold bedAccess
  repeat' first
    | with_reducible assumption
    | with_reducible apply canon_ite
    | with_reducible apply raceCheck_canon
    | with_reducible apply raceStop_canon
    | with_reducible apply answerNever_canon
    | with_reducible apply bedServe_canon
    | intro _ _ _
    | intro _
    | dsimp only
    | split
    | (with_reducible apply canon_misc; with_reducible first | assumption | apply raceCheck_canon | apply raceStop_canon | apply answerNever_canon | apply bedServe_canon)
    | (refine canon_of_pair (by with_reducible assumption) ?_)

theorem execBedStoreAccess_canon (b : BedId) (env : Env) (s : State) (hC : s.Canon) : ∀ t', execBedStoreAccess b env s = .next t' → t'.Canon := by
  unfold execBedStoreAccess
  intro _ hE
  cases hE
  repeat' first
    | with_reducible assumption
    | with_reducible apply State.updBed_canon
    | with_reducible apply applyUpsets_canon
    | with_reducible apply bedAccess_canon
    | intro _ _ _
    | intro _
    | dsimp only
    | split

theorem sweepUe_canon (b line q : Nat) (s : State) (hC : s.Canon) : (sweepUe b line q s).Canon := by
  unfold sweepUe
  repeat' first
    | with_reducible assumption
    | with_reducible apply canon_ite
    | with_reducible apply logEvent_canon
    | with_reducible apply faultPart_canon
    | with_reducible apply chatterUe_canon

theorem sweepLine_canon (b line q : Nat) (s : State) (hC : s.Canon) : (sweepLine b line q s).Canon := by
  unfold sweepLine
  repeat' first
    | with_reducible assumption
    | with_reducible apply canon_ite
    | with_reducible apply State.updBed_canon
    | with_reducible apply chatter_canon
    | with_reducible apply sweepUe_canon

theorem execSweepVisit_canon (b : BedId) (s : State) (hC : s.Canon) : ∀ t', execSweepVisit b s = .next t' → t'.Canon := by
  unfold execSweepVisit
  intro _ hE
  cases hE
  repeat' first
    | with_reducible assumption
    | with_reducible apply sweepLine_canon
    | intro _ _ _
    | intro _
    | dsimp only
    | split

theorem execBedCacheFill_canon (b : BedId) (s : State) (hC : s.Canon) : ∀ t', execBedCacheFill b s = .next t' → t'.Canon := by
  unfold execBedCacheFill
  intro _ hE
  cases hE
  repeat' first
    | with_reducible assumption
    | with_reducible apply State.updBed_canon

theorem fillFar_canon (c i : Nat) (m : Mshr) (l : Line) (s : State) (hC : s.Canon) : (fillFar c i m l s).Canon := by
  unfold fillFar
  repeat' first
    | with_reducible assumption
    | with_reducible apply canon_ite
    | with_reducible apply State.updCore_canon
    | with_reducible apply offerVictim_canon

theorem execFarCacheFill_canon (c : CoreId) (reg : Fin 8) (env : Env) (s : State) (hC : s.Canon) : ∀ t', execFarCacheFill c reg env s = .next t' → t'.Canon := by
  unfold execFarCacheFill
  intro _ hE
  cases hE
  repeat' first
    | with_reducible assumption
    | with_reducible apply State.updCore_canon
    | with_reducible apply applyUpsets_canon
    | with_reducible apply hostLine_canon
    | with_reducible apply fillFar_canon
    | intro _ _ _
    | intro _
    | dsimp only
    | split
    | (with_reducible apply canon_misc; with_reducible first | assumption | apply State.updCore_canon | apply applyUpsets_canon | apply hostLine_canon | apply fillFar_canon)
    | (refine canon_of_pair (by with_reducible assumption) ?_)

theorem execRegulatorRelease_canon (k : StackId) (q : PartId) (s : State) (hC : s.Canon) : ∀ t', execRegulatorRelease k q s = .next t' → t'.Canon := by
  unfold execRegulatorRelease
  intro _ hE
  cases hE
  repeat' first
    | with_reducible assumption
    | with_reducible apply canon_ite
    | with_reducible apply State.updStack_canon
    | with_reducible apply updReg_canon
    | intro _ _ _
    | intro _
    | dsimp only
    | split

theorem execHbmQueueEntry_canon (k : StackId) (pc : Fin 64) (s : State) (hC : s.Canon) : ∀ t', execHbmQueueEntry k pc s = .next t' → t'.Canon := by
  unfold execHbmQueueEntry
  intro _ hE
  cases hE
  repeat' first
    | with_reducible assumption
    | with_reducible apply canon_ite
    | with_reducible apply State.updStack_canon
    | with_reducible apply dropBedCopy_canon
    | with_reducible apply answerWrite_canon
    | intro _ _ _
    | intro _
    | dsimp only
    | split

theorem countServed_canon (k pc : Nat) (s : State) (hC : s.Canon) : (countServed k pc s).Canon := by
  unfold countServed
  repeat' first
    | with_reducible assumption
    | with_reducible apply canon_ite
    | with_reducible apply State.updStack_canon

theorem serveHbm_canon (k pc : Nat) (r : MemReq) (env : Env) (s : State) (hC : s.Canon) : (serveHbm k pc r env s).Canon := by
  unfold serveHbm
  repeat' first
    | with_reducible assumption
    | with_reducible apply canon_ite
    | with_reducible apply hbmRead_canon
    | with_reducible apply hbmWrite_canon
    | with_reducible apply offerFill_canon
    | with_reducible apply answerRead_canon
    | with_reducible apply countServed_canon
    | intro _ _ _
    | intro _
    | dsimp only
    | split

theorem execHbmServe_canon (k : StackId) (pc : Fin 64) (idx : Nat) (env : Env) (s : State) (hC : s.Canon) : ∀ t', execHbmServe k pc idx env s = .next t' → t'.Canon := by
  unfold execHbmServe
  intro _ hE
  cases hE
  repeat' first
    | with_reducible assumption
    | with_reducible apply canon_ite
    | with_reducible apply State.updStack_canon
    | with_reducible apply applyUpsets_canon
    | with_reducible apply serveHbm_canon
    | intro _ _ _
    | intro _
    | dsimp only
    | split

theorem passOver_canon (k pc n : Nat) (s : State) (hC : s.Canon) : (passOver k pc n s).Canon := by
  unfold passOver
  repeat' first
    | with_reducible assumption
    | with_reducible apply State.updStack_canon

theorem copyLine_canon (k : Nat) (c : RowCopy) (s : State) (hC : s.Canon) : (copyLine k c s).Canon := by
  unfold copyLine
  repeat' first
    | with_reducible assumption
    | with_reducible apply canon_ite
    | with_reducible apply State.updStack_canon
    | with_reducible apply chatter_canon
    | with_reducible apply chatterUe_canon
    | with_reducible apply siteWrite_canon
    | with_reducible apply hbmUe_canon
    | intro _ _ _
    | intro _
    | dsimp only
    | split

theorem execRemapLineCopy_canon (k : StackId) (env : Env) (s : State) (hC : s.Canon) : ∀ t', execRemapLineCopy k env s = .next t' → t'.Canon := by
  unfold execRemapLineCopy
  intro _ hE
  cases hE
  repeat' first
    | with_reducible assumption
    | with_reducible apply canon_ite
    | with_reducible apply applyUpsets_canon
    | with_reducible apply passOver_canon
    | with_reducible apply copyLine_canon
    | intro _ _ _
    | intro _
    | dsimp only
    | split

theorem startPending_canon (k : Nat) (x0 : Nat) (x1 : State) (hC : x1.Canon) : (startPending k x0 x1).Canon := by
  induction x0 generalizing x1 with
  | zero =>
    unfold startPending
    repeat' first
      | with_reducible assumption
  | succ n ih =>
    unfold startPending
    repeat' first
      | with_reducible apply ih
      | with_reducible assumption
      | with_reducible apply canon_ite
      | with_reducible apply State.updStack_canon
      | with_reducible apply rowLasting_canon
      | intro _ _ _
      | intro _
      | dsimp only
      | split

theorem rowRepaired_canon (k : Nat) (r : HRow) (s : State) (hC : s.Canon) : (rowRepaired k r s).Canon := by
  unfold rowRepaired
  repeat' first
    | with_reducible assumption
    | intro _ _ _
    | intro _
    | dsimp only
    | split
    | (with_reducible apply canon_misc; with_reducible first | assumption)

theorem execRemapFlip_canon (k : StackId) (s : State) (hC : s.Canon) : ∀ t', execRemapFlip k s = .next t' → t'.Canon := by
  unfold execRemapFlip
  intro _ hE
  cases hE
  repeat' first
    | with_reducible assumption
    | with_reducible apply canon_ite
    | with_reducible apply State.updStack_canon
    | with_reducible apply logEvent_canon
    | with_reducible apply startPending_canon
    | with_reducible apply rowRepaired_canon
    | intro _ _ _
    | intro _
    | dsimp only
    | split

theorem persistRemaps_canon (k : Nat) (s : State) (hC : s.Canon) : (persistRemaps k s).Canon := by
  unfold persistRemaps
  repeat' first
    | with_reducible assumption
    | with_reducible apply State.updStack_canon
    | with_reducible apply State.updFlash_canon

theorem persistCores_canon (s : State) (hC : s.Canon) : (persistCores s).Canon := by
  unfold persistCores
  repeat' first
    | with_reducible assumption
    | with_reducible apply State.updFlash_canon

theorem execRemapPersist_canon (k : StackId) (s : State) (hC : s.Canon) : ∀ t', execRemapPersist k s = .next t' → t'.Canon := by
  unfold execRemapPersist
  intro _ hE
  cases hE
  repeat' first
    | with_reducible assumption
    | with_reducible apply canon_ite
    | with_reducible apply persistRemaps_canon
    | with_reducible apply persistCores_canon

theorem patrolLine_canon (k n pc : Nat) (s : State) (hC : s.Canon) : (patrolLine k n pc s).Canon := by
  unfold patrolLine
  repeat' first
    | with_reducible assumption
    | with_reducible apply hbmRead_canon
    | with_reducible apply passOver_canon

theorem execHbmPatrolScrub_canon (k : StackId) (env : Env) (s : State) (hC : s.Canon) : ∀ t', execHbmPatrolScrub k env s = .next t' → t'.Canon := by
  unfold execHbmPatrolScrub
  intro _ hE
  cases hE
  repeat' first
    | with_reducible assumption
    | with_reducible apply canon_ite
    | with_reducible apply canon_foldl
    | with_reducible apply State.updStack_canon
    | with_reducible apply applyUpsets_canon
    | with_reducible apply patrolLine_canon
    | intro _ _ _

theorem execTlbWalk_canon (t : TlbUser) (q : PartId) (va : Nat) (write : Bool) (env : Env) (s : State) (hC : s.Canon) : ∀ t', execTlbWalk t q va write env s = .next t' → t'.Canon := by
  unfold execTlbWalk
  intro _ hE
  cases hE
  repeat' first
    | with_reducible assumption
    | with_reducible apply canon_ite
    | with_reducible apply applyUpsets_canon
    | with_reducible apply translate_canon
    | with_reducible apply tlbInstall_canon
    | intro _ _ _
    | intro _
    | dsimp only
    | split
    | (with_reducible apply canon_misc; with_reducible first | assumption | apply applyUpsets_canon | apply translate_canon | apply tlbInstall_canon)
    | (refine canon_of_pair (by with_reducible assumption) ?_)

theorem putFault_canon (d e q n : Nat) (y : FqEntry) (s : State) (hC : s.Canon) : (putFault d e q n y s).Canon := by
  unfold putFault
  repeat' first
    | with_reducible assumption
    | with_reducible apply State.updDie_canon
    | with_reducible apply updHead_canon

theorem enterFault_canon (d e : Nat) (s : State) (hC : s.Canon) : OptCanon (enterFault d e s) := by
  unfold enterFault
  repeat' first
    | with_reducible assumption
    | with_reducible apply canon_getD
    | with_reducible apply canonOpt_bind
    | with_reducible apply canonOpt_map
    | with_reducible exact canonOpt_none
    | with_reducible apply canonOpt_some
    | with_reducible apply putFault_canon
    | intro _ _ _
    | intro _
    | dsimp only
    | split

theorem enterStalled_canon (d : Nat) (x0 : Nat) (x1 : State) (hC : x1.Canon) : (enterStalled d x0 x1).Canon := by
  induction x0 generalizing x1 with
  | zero =>
    unfold enterStalled
    repeat' first
      | with_reducible assumption
  | succ n ih =>
    unfold enterStalled
    repeat' first
      | with_reducible apply ih
      | with_reducible assumption
      | with_reducible apply canon_ite
      | with_reducible apply canon_getD
      | with_reducible apply canonOpt_bind
      | with_reducible apply canonOpt_map
      | with_reducible apply canonOpt_ite
      | with_reducible exact canonOpt_none
      | with_reducible apply canonOpt_some
      | with_reducible apply State.updDie_canon
      | with_reducible apply enterFault_canon
      | intro _ _ _
      | intro _
      | dsimp only
      | split
      | (with_reducible apply canon_misc; with_reducible first | assumption | apply State.updDie_canon | apply enterFault_canon)
      | (refine canon_of_opt (by with_reducible assumption) ?_)

theorem execFaultQueueEnter_canon (d : DieId) (engine : Fin 109) (s : State) (hC : s.Canon) : ∀ t', execFaultQueueEnter d engine s = .next t' → t'.Canon := by
  unfold execFaultQueueEnter
  intro _ hE
  cases hE
  repeat' first
    | with_reducible assumption
    | with_reducible apply canon_ite
    | with_reducible apply canon_getD
    | with_reducible apply canonOpt_bind
    | with_reducible apply canonOpt_map
    | with_reducible apply canonOpt_ite
    | with_reducible exact canonOpt_none
    | with_reducible apply canonOpt_some
    | with_reducible apply State.updDie_canon
    | with_reducible apply enterFault_canon
    | with_reducible apply enterStalled_canon
    | intro _ _ _
    | intro _
    | dsimp only
    | split

theorem retryEngine_canon (d q n : Nat) (s : State) (e : Nat) (hC : s.Canon) : (retryEngine d q n s e).Canon := by
  unfold retryEngine
  repeat' first
    | with_reducible assumption
    | with_reducible apply canon_ite
    | with_reducible apply State.updCore_canon
    | with_reducible apply updHead_canon
    | with_reducible apply moveOn_canon
    | intro _ _ _
    | intro _
    | dsimp only
    | split

theorem badResume_canon (d : Nat) (s : State) (hC : s.Canon) : (badResume d s).Canon := by
  unfold badResume
  repeat' first
    | with_reducible assumption
    | with_reducible apply State.updDie_canon

theorem fqRetry_canon (d n : Nat) (s : State) (hC : s.Canon) : (fqRetry d n s).Canon := by
  unfold fqRetry
  repeat' first
    | with_reducible assumption
    | with_reducible apply canon_ite
    | with_reducible apply canon_foldl
    | with_reducible apply State.updDie_canon
    | with_reducible apply enterStalled_canon
    | with_reducible apply retryEngine_canon
    | with_reducible apply badResume_canon

theorem abortEngine_canon (d q n : Nat) (s : State) (e : Nat) (hC : s.Canon) : (abortEngine d q n s e).Canon := by
  unfold abortEngine
  repeat' first
    | with_reducible assumption
    | with_reducible apply canon_ite
    | with_reducible apply dropMove_canon
    | intro _ _ _
    | intro _
    | dsimp only
    | split

theorem fqAbort_canon (d n : Nat) (s : State) (hC : s.Canon) : (fqAbort d n s).Canon := by
  unfold fqAbort
  repeat' first
    | with_reducible assumption
    | with_reducible apply canon_ite
    | with_reducible apply canon_foldl
    | with_reducible apply State.updDie_canon
    | with_reducible apply logEvent_canon
    | with_reducible apply faultPart_canon
    | with_reducible apply enterStalled_canon
    | with_reducible apply badResume_canon
    | with_reducible apply abortEngine_canon

theorem execFqResumeRetry_canon (d : DieId) (entry : Fin 256) (s : State) (hC : s.Canon) : ∀ t', execFqResumeRetry d entry s = .next t' → t'.Canon := by
  unfold execFqResumeRetry
  intro _ hE
  cases hE
  repeat' first
    | with_reducible assumption
    | with_reducible apply canon_ite
    | with_reducible apply fqRetry_canon

theorem execFqResumeAbort_canon (d : DieId) (entry : Fin 256) (s : State) (hC : s.Canon) : ∀ t', execFqResumeAbort d entry s = .next t' → t'.Canon := by
  unfold execFqResumeAbort
  intro _ hE
  cases hE
  repeat' first
    | with_reducible assumption
    | with_reducible apply canon_ite
    | with_reducible apply fqAbort_canon

theorem execAccessCounterDecay_canon (d : DieId) (s : State) (hC : s.Canon) : ∀ t', execAccessCounterDecay d s = .next t' → t'.Canon := by
  unfold execAccessCounterDecay
  intro _ hE
  cases hE
  repeat' first
    | with_reducible assumption
    | with_reducible apply canon_ite
    | with_reducible apply canon_foldl
    | with_reducible apply State.updDie_canon

theorem execHpqHeadRead_canon (d : DieId) (s : State) (hC : s.Canon) : ∀ t', execHpqHeadRead d s = .next t' → t'.Canon := by
  unfold execHpqHeadRead
  intro _ hE
  cases hE
  repeat' first
    | with_reducible assumption
    | with_reducible apply canon_ite
    | with_reducible apply State.updDie_canon
    | with_reducible apply State.updPort_canon
    | with_reducible apply State.emit_canon
    | intro _ _ _
    | intro _
    | dsimp only
    | split

theorem execHpqStatusRead_canon (d : DieId) (s : State) (hC : s.Canon) : ∀ t', execHpqStatusRead d s = .next t' → t'.Canon := by
  unfold execHpqStatusRead
  intro _ hE
  cases hE
  repeat' first
    | with_reducible assumption
    | with_reducible apply canon_ite
    | with_reducible apply State.updDie_canon
    | with_reducible apply State.emit_canon

theorem pokeLines_canon (q : Nat) (x0 : Nat) (x1 : Nat) (x2 : List Byte) (x3 : State) (hC : x3.Canon) : (pokeLines q x0 x1 x2 x3).Canon := by
  induction x0 generalizing x1 x2 x3 with
  | zero =>
    unfold pokeLines
    repeat' first
      | with_reducible assumption
  | succ n ih =>
    unfold pokeLines
    repeat' first
      | with_reducible apply ih
      | with_reducible assumption
      | with_reducible apply canon_ite
      | with_reducible apply submit_canon

theorem retryRegion_canon (q va : Nat) (s : State) (hC : s.Canon) : (retryRegion q va s).Canon := by
  unfold retryRegion
  repeat' first
    | with_reducible assumption
    | with_reducible apply canon_foldl
    | with_reducible apply fqRetry_canon
    | intro _ _ _

theorem endMigration_canon (q : Nat) (m : Migration) (f : Region → Region) (s : State) (hC : s.Canon) : (endMigration q m f s).Canon := by
  unfold endMigration
  repeat' first
    | with_reducible assumption
    | with_reducible apply State.updPart_canon
    | with_reducible apply invalidate_canon
    | with_reducible apply retryRegion_canon

theorem restoreMigration_canon (q : Nat) (m : Migration) (s : State) (hC : s.Canon) : (restoreMigration q m s).Canon := by
  unfold restoreMigration
  repeat' first
    | with_reducible assumption
    | with_reducible apply endMigration_canon

theorem finishMbx_canon (p : PortId) (m status : Nat) (data : List Byte) (s : State) (hC : s.Canon) : (finishMbx p m status data s).Canon := by
  unfold finishMbx
  repeat' first
    | with_reducible assumption
    | with_reducible apply State.updMbx_canon

theorem execMigrationCopyComplete_canon (q : PartId) (reply : HostReply) (s : State) (hC : s.Canon) : ∀ t', execMigrationCopyComplete q reply s = .next t' → t'.Canon := by
  unfold execMigrationCopyComplete
  intro _ hE
  cases hE
  repeat' first
    | with_reducible assumption
    | with_reducible apply canon_ite
    | with_reducible apply State.updPart_canon
    | with_reducible apply recInput_canon
    | with_reducible apply pokeLines_canon
    | with_reducible apply endMigration_canon
    | with_reducible apply restoreMigration_canon
    | with_reducible apply finishMbx_canon
    | intro _ _ _
    | intro _
    | dsimp only
    | split

theorem execHostWindowReadFail_canon (q : PartId) (u : UnitRef) (f : HostFail) (s : State) (hC : s.Canon) : ∀ t', execHostWindowReadFail q u f s = .next t' → t'.Canon := by
  unfold execHostWindowReadFail
  intro _ hE
  cases hE
  repeat' first
    | with_reducible assumption
    | with_reducible apply canon_ite
    | with_reducible apply hostReadFails_canon
    | intro _ _ _
    | intro _
    | dsimp only
    | split

theorem abandonReplay_canon (q : Nat) (s : State) (hC : s.Canon) : (abandonReplay q s).Canon := by
  unfold abandonReplay
  repeat' first
    | with_reducible assumption
    | with_reducible apply canon_ite
    | with_reducible apply State.updPart_canon
    | with_reducible apply stopWithin_canon

theorem abandonPart_canon (p : PortId) (s : State) (q : Nat) (hC : s.Canon) : (abandonPart p s q).Canon := by
  unfold abandonPart
  repeat' first
    | with_reducible assumption
    | with_reducible apply canon_ite
    | with_reducible apply State.updPart_canon
    | with_reducible apply restoreMigration_canon
    | with_reducible apply abandonReplay_canon
    | intro _ _ _
    | intro _
    | dsimp only
    | split

theorem abandonFlash_canon (p : PortId) (s : State) (m : Nat) (hC : s.Canon) : (abandonFlash p s m).Canon := by
  unfold abandonFlash
  repeat' first
    | with_reducible assumption
    | with_reducible apply canon_ite
    | with_reducible apply State.updFlash_canon
    | with_reducible apply State.drew_canon

theorem abandonPort_canon (p : PortId) (s : State) (hC : s.Canon) : (abandonPort p s).Canon := by
  unfold abandonPort
  repeat' first
    | with_reducible assumption
    | with_reducible apply canon_foldl
    | with_reducible apply abandonPart_canon
    | with_reducible apply abandonFlash_canon

theorem dropPosts_canon (p : PortId) (s : State) (hC : s.Canon) : (dropPosts p s).Canon := by
  unfold dropPosts
  repeat' first
    | with_reducible assumption
    | with_reducible apply canon_ite
    | with_reducible apply canon_foldl
    | with_reducible apply State.updCore_canon
    | with_reducible apply State.updPart_canon
    | intro _ _ _

theorem hostLost_canon (p : PortId) (origin : Nat) (s : State) (hC : s.Canon) : (hostLost p origin s).Canon := by
  unfold hostLost
  repeat' first
    | with_reducible assumption
    | with_reducible apply canon_ite
    | with_reducible apply canon_foldl
    | with_reducible apply stopWithin_canon
    | intro _ _ _

theorem portEvent_canon (p : PortId) (f : Port → Port → Port) (s : State) (hC : s.Canon) : (portEvent p f s).Canon := by
  unfold portEvent
  repeat' first
    | with_reducible assumption
    | with_reducible apply State.updPort_canon
    | with_reducible apply abandonPort_canon
    | with_reducible apply dropPosts_canon
    | with_reducible apply hostLost_canon

theorem execPcieLinkUp_canon (p : PortId) (s : State) (hC : s.Canon) : ∀ t', execPcieLinkUp p s = .next t' → t'.Canon := by
  unfold execPcieLinkUp
  intro _ hE
  cases hE
  repeat' first
    | with_reducible assumption
    | with_reducible apply canon_ite
    | with_reducible apply State.updPort_canon

theorem execPerstAssert_canon (p : PortId) (s : State) (hC : s.Canon) : ∀ t', execPerstAssert p s = .next t' → t'.Canon := by
  unfold execPerstAssert
  intro _ hE
  cases hE
  repeat' first
    | with_reducible assumption
    | with_reducible apply canon_ite
    | with_reducible apply State.updPort_canon
    | with_reducible apply portEvent_canon

theorem execPerstDeassert_canon (p : PortId) (s : State) (hC : s.Canon) : ∀ t', execPerstDeassert p s = .next t' → t'.Canon := by
  unfold execPerstDeassert
  intro _ hE
  cases hE
  repeat' first
    | with_reducible assumption
    | with_reducible apply State.updPort_canon

theorem execFunctionLevelReset_canon (p : PortId) (s : State) (hC : s.Canon) : ∀ t', execFunctionLevelReset p s = .next t' → t'.Canon := by
  unfold execFunctionLevelReset
  intro _ hE
  cases hE
  repeat' first
    | with_reducible assumption
    | with_reducible apply canon_ite
    | with_reducible apply portEvent_canon

theorem linkLost_canon (p : PortId) (s : State) (hC : s.Canon) : (linkLost p s).Canon := by
  unfold linkLost
  repeat' first
    | with_reducible assumption
    | with_reducible apply portEvent_canon

theorem execPcieLinkDown_canon (p : PortId) (s : State) (hC : s.Canon) : ∀ t', execPcieLinkDown p s = .next t' → t'.Canon := by
  unfold execPcieLinkDown
  intro _ hE
  cases hE
  repeat' first
    | with_reducible assumption
    | with_reducible apply canon_ite
    | with_reducible apply linkLost_canon

theorem enterD3_canon (p : PortId) (s : State) (hC : s.Canon) : (enterD3 p s).Canon := by
  unfold enterD3
  repeat' first
    | with_reducible assumption
    | with_reducible apply portEvent_canon

theorem execD3hotEntry_canon (p : PortId) (s : State) (hC : s.Canon) : ∀ t', execD3hotEntry p s = .next t' → t'.Canon := by
  unfold execD3hotEntry
  intro _ hE
  cases hE
  repeat' first
    | with_reducible assumption
    | with_reducible apply canon_ite
    | with_reducible apply enterD3_canon

theorem execNoticeRingWrite_canon (p : PortId) (s : State) (hC : s.Canon) : ∀ t', execNoticeRingWrite p s = .next t' → t'.Canon := by
  unfold execNoticeRingWrite
  intro _ hE
  cases hE
  repeat' first
    | with_reducible assumption
    | with_reducible apply canon_ite
    | with_reducible apply State.updPort_canon
    | with_reducible apply State.emit_canon
    | with_reducible apply raiseVector_canon
    | intro _ _ _
    | intro _
    | dsimp only
    | split

theorem execHotPageRingWrite_canon (p : PortId) (s : State) (hC : s.Canon) : ∀ t', execHotPageRingWrite p s = .next t' → t'.Canon := by
  unfold execHotPageRingWrite
  intro _ hE
  cases hE
  repeat' first
    | with_reducible assumption
    | with_reducible apply canon_ite
    | with_reducible apply State.updPort_canon
    | with_reducible apply State.emit_canon
    | with_reducible apply raiseVector_canon
    | intro _ _ _
    | intro _
    | dsimp only
    | split

theorem execNtcBaseWrite_canon (p : PortId) (value : Word) (s : State) (hC : s.Canon) : ∀ t', execNtcBaseWrite p value s = .next t' → t'.Canon := by
  unfold execNtcBaseWrite
  intro _ hE
  cases hE
  repeat' first
    | with_reducible assumption
    | with_reducible apply canon_ite
    | with_reducible apply State.updPort_canon

theorem execHprBaseWrite_canon (p : PortId) (value : Word) (s : State) (hC : s.Canon) : ∀ t', execHprBaseWrite p value s = .next t' → t'.Canon := by
  unfold execHprBaseWrite
  intro _ hE
  cases hE
  repeat' first
    | with_reducible assumption
    | with_reducible apply canon_ite
    | with_reducible apply State.updPort_canon

theorem readReg_canon (p : PortId) (v : Nat) (s : State) (hC : s.Canon) : (readReg p v s).Canon := by
  unfold readReg
  repeat' first
    | with_reducible assumption
    | with_reducible apply State.emit_canon

theorem readHalf_canon (p : PortId) (v : Nat) (h : Fin 2) (s : State) (hC : s.Canon) : (readHalf p v h s).Canon := by
  unfold readHalf
  repeat' first
    | with_reducible assumption
    | with_reducible apply State.emit_canon

theorem execErrCntRead_canon (r : CntRead) (s : State) (hC : s.Canon) : ∀ t', execErrCntRead r s = .next t' → t'.Canon := by
  unfold execErrCntRead
  intro _ hE
  cases hE
  repeat' first
    | with_reducible assumption
    | with_reducible apply canon_ite
    | with_reducible apply State.updPort_canon
    | with_reducible apply readReg_canon
    | with_reducible apply readHalf_canon
    | intro _ _ _
    | intro _
    | dsimp only
    | split

theorem execErrCnt2Read_canon (r : CntRead) (s : State) (hC : s.Canon) : ∀ t', execErrCnt2Read r s = .next t' → t'.Canon := by
  unfold execErrCnt2Read
  intro _ hE
  cases hE
  repeat' first
    | with_reducible assumption
    | with_reducible apply canon_ite
    | with_reducible apply State.updPort_canon
    | with_reducible apply readReg_canon
    | with_reducible apply readHalf_canon
    | intro _ _ _
    | intro _
    | dsimp only
    | split

theorem execMbxRefusedRead_canon (p : PortId) (m : MbxId) (s : State) (hC : s.Canon) : ∀ t', execMbxRefusedRead p m s = .next t' → t'.Canon := by
  unfold execMbxRefusedRead
  intro _ hE
  cases hE
  repeat' first
    | with_reducible assumption
    | with_reducible apply canon_ite
    | with_reducible apply State.updMbx_canon
    | with_reducible apply readReg_canon

theorem execHmbRefusedRead_canon (p : PortId) (s : State) (hC : s.Canon) : ∀ t', execHmbRefusedRead p s = .next t' → t'.Canon := by
  unfold execHmbRefusedRead
  intro _ hE
  cases hE
  repeat' first
    | with_reducible assumption
    | with_reducible apply canon_ite
    | with_reducible apply State.updPort_canon
    | with_reducible apply readReg_canon

theorem bar2Ask_canon (p : PortId) (k : Nat) (s : State) (x : Bar2Line) (hC : s.Canon) : (bar2Ask p k s x).Canon := by
  unfold bar2Ask
  repeat' first
    | with_reducible assumption
    | with_reducible apply canon_ite
    | with_reducible apply submit_canon

theorem execBar2Read_canon (p : PortId) (offset len : Nat) (env : Env) (s : State) (hC : s.Canon) : ∀ t', execBar2Read p offset len env s = .next t' → t'.Canon := by
  unfold execBar2Read
  intro _ hE
  cases hE
  repeat' first
    | with_reducible assumption
    | with_reducible apply canon_ite
    | with_reducible apply canon_foldl
    | with_reducible apply State.updPort_canon
    | with_reducible apply applyUpsets_canon
    | with_reducible apply bar2End_canon
    | with_reducible apply bar2Ask_canon

theorem sendPending_canon (p : PortId) (s : State) (hC : s.Canon) : (sendPending p s).Canon := by
  unfold sendPending
  repeat' first
    | with_reducible assumption
    | with_reducible apply canon_ite
    | with_reducible apply canon_foldl
    | with_reducible apply State.updPort_canon
    | with_reducible apply State.emit_canon
    | with_reducible apply msix_canon
    | intro _ _ _

theorem writePcie_canon (p : PortId) (r : PcieReg) (o : Nat) (data : List Byte) (s : State) (hC : s.Canon) : (writePcie p r o data s).Canon := by
  unfold writePcie
  repeat' first
    | with_reducible assumption
    | with_reducible apply canon_ite
    | with_reducible apply State.updPort_canon
    | with_reducible apply enterD3_canon
    | with_reducible apply sendPending_canon

theorem execBar2Write_canon (p : PortId) (_offset : Nat) (_data : List Byte) (s : State) (hC : s.Canon) : ∀ t', execBar2Write p _offset _data s = .next t' → t'.Canon := by
  unfold execBar2Write
  intro _ hE
  cases hE
  repeat' first
    | with_reducible assumption
    | with_reducible apply canon_ite
    | with_reducible apply portErr_canon

theorem thermalTrip_canon (cause src d0 : Nat) (s : State) (hC : s.Canon) : (thermalTrip cause src d0 s).Canon := by
  unfold thermalTrip
  repeat' first
    | with_reducible assumption
    | with_reducible apply canon_ite
    | with_reducible apply State.updPower_canon
    | with_reducible apply logEvent_canon
    | with_reducible apply enterFailed_canon
    | intro _ _ _
    | intro _
    | dsimp only
    | split
    | (with_reducible apply canon_misc; with_reducible first | assumption | apply State.updPower_canon | apply logEvent_canon | apply enterFailed_canon)

theorem putStep_canon (d n : Nat) (s : State) (hC : s.Canon) : (putStep d n s).Canon := by
  unfold putStep
  repeat' first
    | with_reducible assumption
    | with_reducible apply canon_ite
    | with_reducible apply State.updPower_canon
    | intro _ _ _
    | intro _
    | dsimp only
    | split
    | (with_reducible apply canon_misc; with_reducible first | assumption | apply State.updPower_canon)

theorem stepDie_canon (s : State) (d : Nat) (hC : s.Canon) : (stepDie s d).Canon := by
  unfold stepDie
  repeat' first
    | with_reducible assumption
    | with_reducible apply canon_ite
    | with_reducible apply putStep_canon

theorem execPowerSample_canon (watts vin10mV : Nat) (s : State) (hC : s.Canon) : ∀ t', execPowerSample watts vin10mV s = .next t' → t'.Canon := by
  unfold execPowerSample
  intro _ hE
  cases hE
  repeat' first
    | with_reducible assumption
    | with_reducible apply canon_ite
    | with_reducible apply canon_foldl
    | with_reducible apply State.updPower_canon
    | with_reducible apply thermalTrip_canon
    | with_reducible apply stepDie_canon
    | intro _ _ _
    | intro _
    | dsimp only
    | split
    | (with_reducible apply canon_misc; with_reducible first | assumption | apply State.updPower_canon | apply thermalTrip_canon | apply stepDie_canon | apply canon_foldl)

theorem execJunctionSample_canon (d : DieId) (celsius : Int) (s : State) (hC : s.Canon) : ∀ t', execJunctionSample d celsius s = .next t' → t'.Canon := by
  unfold execJunctionSample
  intro _ hE
  cases hE
  repeat' first
    | with_reducible assumption
    | with_reducible apply canon_ite
    | with_reducible apply State.updPower_canon
    | with_reducible apply thermalTrip_canon
    | with_reducible apply stepDie_canon

theorem execHbmTempSample_canon (k : StackId) (quarterC : Int) (s : State) (hC : s.Canon) : ∀ t', execHbmTempSample k quarterC s = .next t' → t'.Canon := by
  unfold execHbmTempSample
  intro _ hE
  cases hE
  repeat' first
    | with_reducible assumption
    | with_reducible apply canon_ite
    | with_reducible apply State.updStack_canon
    | with_reducible apply thermalTrip_canon

theorem execRailSwitchOff_canon (s : State) (hC : s.Canon) : ∀ t', execRailSwitchOff s = .next t' → t'.Canon := by
  unfold execRailSwitchOff
  intro _ hE
  cases hE
  repeat' first
    | with_reducible assumption
    | with_reducible apply canon_ite
    | intro _ _ _
    | intro _
    | dsimp only
    | split
    | with_reducible apply SMap.wf_mapVals
    | with_reducible apply SMap.wf_upd
    | with_reducible apply SMap.wf_filter
    | with_reducible apply Mem.wf_write
    | with_reducible apply Mem.wf_clear
    | with_reducible apply SMap.wf_foldl_set
    | with_reducible apply State.Canon.cores
    | with_reducible apply State.Canon.parts
    | with_reducible apply State.Canon.dies
    | with_reducible apply State.Canon.beds
    | with_reducible apply State.Canon.hbms
    | with_reducible apply State.Canon.hbm
    | with_reducible apply State.Canon.hbmErr
    | with_reducible apply State.Canon.lanes
    | with_reducible apply State.Canon.links
    | with_reducible apply State.Canon.mk
    | exact rfl

theorem execLossOfLock_canon (clk : ClockRef) (s : State) (hC : s.Canon) : ∀ t', execLossOfLock clk s = .next t' → t'.Canon := by
  unfold execLossOfLock
  intro _ hE
  cases hE
  repeat' first
    | with_reducible assumption
    | with_reducible apply canon_ite
    | with_reducible apply enterFailed_canon
    | with_reducible apply fenceDie_canon
    | with_reducible apply linkLost_canon
    | intro _ _ _
    | intro _
    | dsimp only
    | split

theorem execTrstNAssert_canon (s : State) (hC : s.Canon) : ∀ t', execTrstNAssert s = .next t' → t'.Canon := by
  unfold execTrstNAssert
  intro _ hE
  cases hE
  repeat' first
    | with_reducible assumption
    | with_reducible apply State.updPower_canon

theorem debugBreak_canon (c : Nat) (s : State) (hC : s.Canon) : (debugBreak c s).Canon := by
  unfold debugBreak
  repeat' first
    | with_reducible assumption
    | with_reducible apply canon_ite
    | with_reducible apply State.updCore_canon
    | with_reducible apply raiseImmediate_canon

theorem execJtagBreak_canon (c : CoreId) (s : State) (hC : s.Canon) : ∀ t', execJtagBreak c s = .next t' → t'.Canon := by
  unfold execJtagBreak
  intro _ hE
  cases hE
  repeat' first
    | with_reducible assumption
    | with_reducible apply canon_ite
    | with_reducible apply debugBreak_canon

theorem assignCores_canon (q : Nat) (i : Image) (place : List (Nat × Nat)) (s : State) (hC : s.Canon) : (assignCores q i place s).Canon := by
  unfold assignCores
  repeat' first
    | with_reducible assumption
    | with_reducible apply canon_foldl
    | with_reducible apply State.updCore_canon
    | intro _ _ _

theorem armBulks_canon (q : Nat) (i : Image) (place : List (Nat × Nat)) (s : State) (hC : s.Canon) : (armBulks q i place s).Canon := by
  unfold armBulks
  repeat' first
    | with_reducible assumption
    | with_reducible apply canon_ite
    | with_reducible apply canon_foldl
    | with_reducible apply updBulk_canon
    | intro _ _ _

theorem setRegs_canon (q : Nat) (c : PartCfg) (i : Image) (s : State) (hC : s.Canon) : (setRegs q c i s).Canon := by
  unfold setRegs
  repeat' first
    | with_reducible assumption
    | with_reducible apply canon_foldl
    | with_reducible apply updReg_canon
    | intro _ _ _

theorem zeroBed_canon (b g n : Nat) (s : State) (hC : s.Canon) : (zeroBed b g n s).Canon := by
  unfold zeroBed
  repeat' first
    | with_reducible assumption
    | with_reducible apply State.updBed_canon

theorem zeroHbm_canon (keep : List Rng) (g n : Nat) (s : State) (hC : s.Canon) : (zeroHbm keep g n s).Canon := by
  unfold zeroHbm
  repeat' first
    | with_reducible assumption
    | intro _ _ _
    | intro _
    | dsimp only
    | split
    | with_reducible apply SMap.wf_mapVals
    | with_reducible apply SMap.wf_upd
    | with_reducible apply SMap.wf_filter
    | with_reducible apply Mem.wf_write
    | with_reducible apply Mem.wf_clear
    | with_reducible apply SMap.wf_foldl_set
    | with_reducible apply State.Canon.cores
    | with_reducible apply State.Canon.parts
    | with_reducible apply State.Canon.dies
    | with_reducible apply State.Canon.beds
    | with_reducible apply State.Canon.hbms
    | with_reducible apply State.Canon.hbm
    | with_reducible apply State.Canon.hbmErr
    | with_reducible apply State.Canon.lanes
    | with_reducible apply State.Canon.links
    | with_reducible apply State.Canon.mk

theorem settleBar2_canon (q : Nat) (s : State) (hC : s.Canon) : (settleBar2 q s).Canon := by
  unfold settleBar2
  repeat' first
    | with_reducible assumption
    | with_reducible apply canon_ite
    | with_reducible apply canon_foldl
    | with_reducible apply lineNow_canon
    | with_reducible apply bar2Got_canon
    | intro _ _ _

theorem clearUnits_canon (q : Nat) (s : State) (hC : s.Canon) : (clearUnits q s).Canon := by
  unfold clearUnits
  repeat' first
    | with_reducible assumption
    | with_reducible apply canon_foldl
    | with_reducible apply State.updCore_canon
    | with_reducible apply State.updPort_canon
    | with_reducible apply purgeReqs_canon
    | with_reducible apply invalidateAll_canon
    | with_reducible apply settleBar2_canon
    | intro _ _ _
    | intro _
    | dsimp only
    | split
    | with_reducible apply SMap.wf_mapVals
    | with_reducible apply SMap.wf_upd
    | with_reducible apply SMap.wf_filter
    | with_reducible apply Mem.wf_write
    | with_reducible apply Mem.wf_clear
    | with_reducible apply SMap.wf_foldl_set
    | with_reducible apply State.Canon.cores
    | with_reducible apply State.Canon.parts
    | with_reducible apply State.Canon.dies
    | with_reducible apply State.Canon.beds
    | with_reducible apply State.Canon.hbms
    | with_reducible apply State.Canon.hbm
    | with_reducible apply State.Canon.hbmErr
    | with_reducible apply State.Canon.lanes
    | with_reducible apply State.Canon.links
    | with_reducible apply State.Canon.mk

theorem endRecord_canon (q code : Nat) (s : State) (hC : s.Canon) : (endRecord q code s).Canon := by
  unfold endRecord
  repeat' first
    | with_reducible assumption
    | with_reducible apply recEnd_canon

theorem loadUnits_canon (q : Nat) (c : PartCfg) (i : Image) (s : State) (hC : s.Canon) : (loadUnits q c i s).Canon := by
  unfold loadUnits
  repeat' first
    | with_reducible assumption
    | with_reducible apply canon_foldl
    | with_reducible apply assignCores_canon
    | with_reducible apply armBulks_canon
    | with_reducible apply setRegs_canon
    | with_reducible apply zeroBed_canon
    | intro _ _ _

theorem buildPart_canon (q : Nat) (p : PortId) (c : PartCfg) (i : Image) (place : List (Nat × Nat)) (rep : Report) (seed : Word) (s : State) (hC : s.Canon) : (buildPart q p c i place rep seed s).Canon := by
  unfold buildPart
  repeat' first
    | with_reducible assumption
    | with_reducible apply canon_foldl
    | with_reducible apply State.updPart_canon
    | with_reducible apply zeroHbm_canon
    | with_reducible apply clearUnits_canon
    | with_reducible apply endRecord_canon
    | with_reducible apply loadUnits_canon
    | intro _ _ _

theorem destroyPart_canon (q : Nat) (s : State) (hC : s.Canon) : (destroyPart q s).Canon := by
  unfold destroyPart
  repeat' first
    | with_reducible assumption
    | with_reducible apply State.updPart_canon
    | with_reducible apply clearUnits_canon
    | with_reducible apply endRecord_canon

theorem configure_canon (q : Nat) (p : PortId) (bs : List Byte) (keep : Option Image) (s : State) (hC : s.Canon) : ((configure q p bs keep s).1).Canon := by
  unfold configure
  repeat' first
    | with_reducible assumption
    | with_reducible apply canon_ite
    | with_reducible apply State.updPort_canon
    | with_reducible apply State.drew_canon
    | with_reducible apply buildPart_canon
    | intro _ _ _
    | intro _
    | dsimp only
    | split

theorem settleWrites_canon (q : Nat) (s : State) (hC : s.Canon) : (settleWrites q s).Canon := by
  unfold settleWrites
  repeat' first
    | with_reducible assumption
    | with_reducible apply canon_foldl
    | with_reducible apply hbmWrite_canon
    | intro _ _ _

theorem rewindPart_canon (q ringVa ringLen : Nat) (s : State) (hC : s.Canon) : (rewindPart q ringVa ringLen s).Canon := by
  unfold rewindPart
  repeat' first
    | with_reducible assumption
    | with_reducible apply canon_foldl
    | with_reducible apply State.updPart_canon
    | with_reducible apply State.updPort_canon
    | with_reducible apply zeroHbm_canon
    | with_reducible apply clearUnits_canon
    | with_reducible apply endRecord_canon
    | with_reducible apply loadUnits_canon
    | with_reducible apply settleWrites_canon
    | intro _ _ _
    | intro _
    | dsimp only
    | split

theorem doorbell_canon (p : PortId) (q n : Nat) (value : Word) (s : State) (hC : s.Canon) : (doorbell p q n value s).Canon := by
  unfold doorbell
  repeat' first
    | with_reducible assumption
    | with_reducible apply canon_ite
    | with_reducible apply portErr_canon
    | with_reducible apply updStream_canon
    | intro _ _ _
    | intro _
    | dsimp only
    | split

theorem execStreamDoorbell_canon (p : PortId) (q : PartId) (stream : Fin 64) (value : Word) (s : State) (hC : s.Canon) : ∀ t', execStreamDoorbell p q stream value s = .next t' → t'.Canon := by
  unfold execStreamDoorbell
  intro _ hE
  cases hE
  repeat' first
    | with_reducible assumption
    | with_reducible apply canon_ite
    | with_reducible apply doorbell_canon

theorem putCompletion_canon (q n cstat len : Nat) (user : Word) (sub turn : Nat) (s : State) (hC : s.Canon) : (putCompletion q n cstat len user sub turn s).Canon := by
  unfold putCompletion
  repeat' first
    | with_reducible assumption
    | with_reducible apply State.emit_canon
    | with_reducible apply msix_canon
    | with_reducible apply updStream_canon
    | intro _ _ _
    | intro _
    | dsimp only
    | split

theorem streamFault_canon (unit q n cstat addr index : Nat) (s : State) (hC : s.Canon) : (streamFault unit q n cstat addr index s).Canon := by
  unfold streamFault
  repeat' first
    | with_reducible assumption
    | with_reducible apply logEvent_canon
    | with_reducible apply faultPart_canon

theorem hostXlate_canon (q va : Nat) (write : Bool) (s : State) (hC : s.Canon) : ((hostXlate q va write s).1).Canon := by
  unfold hostXlate
  repeat' first
    | with_reducible assumption
    | with_reducible apply translateFar_canon
    | with_reducible apply tlbInstall_canon
    | intro _ _ _
    | intro _
    | dsimp only
    | split
    | (with_reducible apply canon_misc; with_reducible first | assumption | apply translateFar_canon | apply tlbInstall_canon)
    | (refine canon_of_pair (by with_reducible assumption) ?_)

theorem moverX_canon (q : Nat) (write : Bool) (x0 : Nat) (x10 : Nat) (x11 : Nat) (x2 : State) (hC : x2.Canon) : ((moverX q write x0 x10 x11 x2).1).Canon := by
  induction x0 generalizing x10 x11 x2 with
  | zero =>
    unfold moverX
    repeat' first
      | with_reducible assumption
  | succ n ih =>
    unfold moverX
    repeat' first
      | with_reducible apply ih
      | with_reducible assumption
      | with_reducible apply canon_ite
      | with_reducible apply hostXlate_canon
      | intro _ _ _
      | intro _
      | dsimp only
      | split
      | (with_reducible apply canon_misc; with_reducible first | assumption | apply hostXlate_canon)
      | (refine canon_of_pair (by with_reducible assumption) ?_)

theorem hostMoverFault_canon (q cause va : Nat) (s : State) (hC : s.Canon) : (hostMoverFault q cause va s).Canon := by
  unfold hostMoverFault
  repeat' first
    | with_reducible assumption
    | with_reducible apply logEvent_canon
    | with_reducible apply faultPart_canon

theorem fetchFails_canon (q n k cstat addr : Nat) (user : Word) (s : State) (hC : s.Canon) : (fetchFails q n k cstat addr user s).Canon := by
  unfold fetchFails
  repeat' first
    | with_reducible assumption
    | with_reducible apply updStream_canon
    | with_reducible apply putCompletion_canon
    | with_reducible apply streamFault_canon

theorem frameAsk_canon (q n : Nat) (x0 : Nat) (x10 : Nat) (x11 : Nat) (x2 : State) (hC : x2.Canon) : (frameAsk q n x0 x10 x11 x2).Canon := by
  induction x0 generalizing x10 x11 x2 with
  | zero =>
    unfold frameAsk
    repeat' first
      | with_reducible assumption
  | succ n ih =>
    unfold frameAsk
    repeat' first
      | with_reducible apply ih
      | with_reducible assumption
      | with_reducible apply canon_ite
      | with_reducible apply submit_canon
      | with_reducible apply updStream_canon
      | with_reducible apply hostXlate_canon
      | intro _ _ _
      | intro _
      | dsimp only
      | split
      | (with_reducible apply canon_misc; with_reducible first | assumption | apply submit_canon | apply updStream_canon | apply hostXlate_canon)
      | (refine canon_of_pair (by with_reducible assumption) ?_)

theorem poisonSlot_canon (c slot : Nat) (bytes : List (Byte × Nat)) (s : State) (hC : s.Canon) : (poisonSlot c slot bytes s).Canon := by
  unfold poisonSlot
  repeat' first
    | with_reducible assumption
    | with_reducible apply canon_foldl
    | with_reducible apply State.updCore_canon

theorem putFrame_canon (q n : Nat) (f : Fetch) (y : Stream) (bytes : List (Byte × Nat)) (s : State) (hC : s.Canon) : (putFrame q n f y bytes s).Canon := by
  unfold putFrame
  repeat' first
    | with_reducible assumption
    | with_reducible apply canon_foldl
    | with_reducible apply storeBytes_canon
    | with_reducible apply coreEvent_canon
    | with_reducible apply updStream_canon
    | with_reducible apply poisonSlot_canon
    | intro _ _ _
    | intro _
    | dsimp only
    | split

theorem finishFetch_canon (q n : Nat) (f : Fetch) (y : Stream) (bytes : List (Byte × Nat)) (s : State) (hC : s.Canon) : (finishFetch q n f y bytes s).Canon := by
  unfold finishFetch
  repeat' first
    | with_reducible assumption
    | with_reducible apply recInput_canon
    | with_reducible apply putCompletion_canon
    | with_reducible apply putFrame_canon

theorem replayFrame_canon (q n : Nat) (y : Stream) (r : Replay) (s : State) (hC : s.Canon) : (replayFrame q n y r s).Canon := by
  unfold replayFrame
  repeat' first
    | with_reducible assumption
    | with_reducible apply canon_ite
    | with_reducible apply replayDiverge_canon
    | with_reducible apply putFrame_canon
    | intro _ _ _
    | intro _
    | dsimp only
    | split

theorem execFrameFetch_canon (q : PartId) (stream : Fin 64) (entry : HostReply) (s : State) (hC : s.Canon) : ∀ t', execFrameFetch q stream entry s = .next t' → t'.Canon := by
  unfold execFrameFetch
  intro _ hE
  cases hE
  repeat' first
    | with_reducible assumption
    | with_reducible apply canon_ite
    | with_reducible apply State.drew_canon
    | with_reducible apply updStream_canon
    | with_reducible apply fetchFails_canon
    | with_reducible apply replayFrame_canon
    | intro _ _ _
    | intro _
    | dsimp only
    | split

theorem execFrameFetchComplete_canon (q : PartId) (stream : Fin 64) (frame : HostReply) (env : Env) (s : State) (hC : s.Canon) : ∀ t', execFrameFetchComplete q stream frame env s = .next t' → t'.Canon := by
  unfold execFrameFetchComplete
  intro _ hE
  cases hE
  repeat' first
    | with_reducible assumption
    | with_reducible apply canon_ite
    | with_reducible apply applyUpsets_canon
    | with_reducible apply moverX_canon
    | with_reducible apply hostMoverFault_canon
    | with_reducible apply fetchFails_canon
    | with_reducible apply frameAsk_canon
    | with_reducible apply finishFetch_canon
    | intro _ _ _
    | intro _
    | dsimp only
    | split
    | (with_reducible apply canon_misc; with_reducible first | assumption | apply applyUpsets_canon | apply moverX_canon | apply hostMoverFault_canon | apply fetchFails_canon | apply frameAsk_canon | apply finishFetch_canon)
    | (refine canon_of_pair (by with_reducible assumption) ?_)

theorem hostMoverWrite_canon (q : Nat) (x0 : Nat) (x1 : Nat) (x2 : List Byte) (x3 : State) (hC : x3.Canon) : (hostMoverWrite q x0 x1 x2 x3).Canon := by
  induction x0 generalizing x1 x2 x3 with
  | zero =>
    unfold hostMoverWrite
    repeat' first
      | with_reducible assumption
  | succ n ih =>
    unfold hostMoverWrite
    repeat' first
      | with_reducible apply ih
      | with_reducible assumption
      | with_reducible apply canon_ite
      | with_reducible apply State.emit_canon
      | with_reducible apply submit_canon
      | with_reducible apply hostXlate_canon
      | intro _ _ _
      | intro _
      | dsimp only
      | split
      | (with_reducible apply canon_misc; with_reducible first | assumption | apply State.emit_canon | apply submit_canon | apply hostXlate_canon)
      | (refine canon_of_pair (by with_reducible assumption) ?_)

theorem finishPost_canon (q : Nat) (o : Post) (y : Stream) (d : StreamDecl) (entry : HostReply) (s : State) (hC : s.Canon) : (finishPost q o y d entry s).Canon := by
  unfold finishPost
  repeat' first
    | with_reducible assumption
    | with_reducible apply canon_ite
    | with_reducible apply State.drew_canon
    | with_reducible apply updStream_canon
    | with_reducible apply putCompletion_canon
    | with_reducible apply streamFault_canon
    | with_reducible apply hostMoverWrite_canon
    | intro _ _ _
    | intro _
    | dsimp only
    | split

theorem postX_canon (q : Nat) (o : Post) (entry : HostReply) (s : State) (hC : s.Canon) : ((postX q o entry s).1).Canon := by
  unfold postX
  repeat' first
    | with_reducible assumption
    | with_reducible apply canon_ite
    | with_reducible apply moverX_canon
    | intro _ _ _
    | intro _
    | dsimp only
    | split

theorem dropPosted_canon (p : Part) (lcore : Nat) (s : State) (hC : s.Canon) : (dropPosted p lcore s).Canon := by
  unfold dropPosted
  repeat' first
    | with_reducible assumption
    | with_reducible apply State.updCore_canon
    | intro _ _ _
    | intro _
    | dsimp only
    | split

theorem completePost_canon (q : Nat) (o : Post) (entry : HostReply) (s : State) (hC : s.Canon) : (completePost q o entry s).Canon := by
  unfold completePost
  repeat' first
    | with_reducible assumption
    | with_reducible apply canon_ite
    | with_reducible apply State.updPart_canon
    | with_reducible apply portErr_canon
    | with_reducible apply hostMoverFault_canon
    | with_reducible apply finishPost_canon
    | with_reducible apply postX_canon
    | with_reducible apply dropPosted_canon
    | intro _ _ _
    | intro _
    | dsimp only
    | split
    | (with_reducible apply canon_misc; with_reducible first | assumption | apply State.updPart_canon | apply portErr_canon | apply hostMoverFault_canon | apply finishPost_canon | apply postX_canon | apply dropPosted_canon)
    | (refine canon_of_pair (by with_reducible assumption) ?_)

theorem execPostCompletion_canon (q : PartId) (entry : HostReply) (s : State) (hC : s.Canon) : ∀ t', execPostCompletion q entry s = .next t' → t'.Canon := by
  unfold execPostCompletion
  intro _ hE
  cases hE
  repeat' first
    | with_reducible assumption
    | with_reducible apply completePost_canon
    | intro _ _ _
    | intro _
    | dsimp only
    | split

theorem badDesc_canon (q c h : Nat) (s : State) (hC : s.Canon) : (badDesc q c h s).Canon := by
  unfold badDesc
  repeat' first
    | with_reducible assumption
    | with_reducible apply State.drew_canon
    | with_reducible apply streamFault_canon

theorem fireLaunch_canon (q c h : Nat) (s : State) (hC : s.Canon) : (fireLaunch q c h s).Canon := by
  unfold fireLaunch
  repeat' first
    | with_reducible assumption
    | with_reducible apply State.updCore_canon
    | with_reducible apply updStream_canon
    | intro _ _ _
    | intro _
    | dsimp only
    | split

theorem firePost_canon (q c h : Nat) (s : State) (hC : s.Canon) : (firePost q c h s).Canon := by
  unfold firePost
  repeat' first
    | with_reducible assumption
    | with_reducible apply canon_ite
    | with_reducible apply State.updCore_canon
    | with_reducible apply State.updPart_canon
    | with_reducible apply touchRun_canon

theorem fireMove_canon (m : MoverRef) (q : Nat) (e : ArmEntry) (s : State) (hC : s.Canon) : (fireMove m q e s).Canon := by
  unfold fireMove
  repeat' first
    | with_reducible assumption
    | with_reducible apply State.updCore_canon
    | with_reducible apply updMoves_canon
    | intro _ _ _
    | intro _
    | dsimp only
    | split

theorem fireShare_canon (k q : Nat) (e : ArmEntry) (s : State) (hC : s.Canon) : (fireShare k q e s).Canon := by
  unfold fireShare
  repeat' first
    | with_reducible assumption
    | with_reducible apply updReg_canon

theorem fireEntry_canon (q : Nat) (u : UnitRef) (e : ArmEntry) (s : State) (hC : s.Canon) : (fireEntry q u e s).Canon := by
  unfold fireEntry
  repeat' first
    | with_reducible assumption
    | with_reducible apply canon_ite
    | with_reducible apply touchRun_canon
    | with_reducible apply fireRun_canon
    | with_reducible apply firePass_canon
    | with_reducible apply fireDrain_canon
    | with_reducible apply badDesc_canon
    | with_reducible apply fireLaunch_canon
    | with_reducible apply firePost_canon
    | with_reducible apply fireMove_canon
    | with_reducible apply fireShare_canon
    | intro _ _ _
    | intro _
    | dsimp only
    | split

theorem execArmFire_canon (q : PartId) (u : UnitRef) (env : Env) (s : State) (hC : s.Canon) : ∀ t', execArmFire q u env s = .next t' → t'.Canon := by
  unfold execArmFire
  intro _ hE
  cases hE
  repeat' first
    | with_reducible assumption
    | with_reducible apply canon_ite
    | with_reducible apply applyUpsets_canon
    | with_reducible apply updTu_canon
    | with_reducible apply fireEntry_canon
    | intro _ _ _
    | intro _
    | dsimp only
    | split

theorem refuseDoorbell_canon (p : PortId) (m : Nat) (s : State) (hC : s.Canon) : (refuseDoorbell p m s).Canon := by
  unfold refuseDoorbell
  repeat' first
    | with_reducible assumption
    | with_reducible apply State.updMbx_canon

theorem ringMailbox_canon (p : PortId) (m : Nat) (s : State) (hC : s.Canon) : (ringMailbox p m s).Canon := by
  unfold ringMailbox
  repeat' first
    | with_reducible assumption
    | with_reducible apply canon_ite
    | with_reducible apply State.updMbx_canon
    | with_reducible apply State.updHs_canon
    | with_reducible apply refuseDoorbell_canon
    | intro _ _ _
    | intro _
    | dsimp only
    | split

theorem execMbxDoorbellRefused_canon (p : PortId) (m : MbxId) (s : State) (hC : s.Canon) : ∀ t', execMbxDoorbellRefused p m s = .next t' → t'.Canon := by
  unfold execMbxDoorbellRefused
  intro _ hE
  cases hE
  repeat' first
    | with_reducible assumption
    | with_reducible apply canon_ite
    | with_reducible apply refuseDoorbell_canon

theorem writeHmb_canon (p : PortId) (opHalf : Bool) (op arg : Nat) (s : State) (hC : s.Canon) : (writeHmb p opHalf op arg s).Canon := by
  unfold writeHmb
  repeat' first
    | with_reducible assumption
    | with_reducible apply canon_ite
    | with_reducible apply State.updPort_canon

theorem execHmbCmdRefused_canon (p : PortId) (value : Word) (s : State) (hC : s.Canon) : ∀ t', execHmbCmdRefused p value s = .next t' → t'.Canon := by
  unfold execHmbCmdRefused
  intro _ hE
  cases hE
  repeat' first
    | with_reducible assumption
    | with_reducible apply canon_ite
    | with_reducible apply writeHmb_canon

theorem writeMsix_canon (p : PortId) (o : Nat) (data : List Byte) (s : State) (hC : s.Canon) : (writeMsix p o data s).Canon := by
  unfold writeMsix
  repeat' first
    | with_reducible assumption
    | with_reducible apply State.updPort_canon
    | with_reducible apply msix_canon
    | with_reducible apply sendPending_canon

theorem writePortReg_canon (p : PortId) (base o : Nat) (data : List Byte) (s : State) (hC : s.Canon) : (writePortReg p base o data s).Canon := by
  unfold writePortReg
  repeat' first
    | with_reducible assumption
    | with_reducible apply canon_ite
    | with_reducible apply State.updPort_canon
    | with_reducible apply ringMailbox_canon
    | with_reducible apply writeHmb_canon

theorem writeBar0_canon (p : PortId) (off : Nat) (data : List Byte) (s : State) (hC : s.Canon) : (writeBar0 p off data s).Canon := by
  unfold writeBar0
  repeat' first
    | with_reducible assumption
    | with_reducible apply canon_ite
    | with_reducible apply State.updMbx_canon
    | with_reducible apply doorbell_canon
    | with_reducible apply writeMsix_canon
    | with_reducible apply writePortReg_canon

theorem writeDieReg_canon (d off : Nat) (data : List Byte) (s : State) (hC : s.Canon) : (writeDieReg d off data s).Canon := by
  unfold writeDieReg
  repeat' first
    | with_reducible assumption
    | with_reducible apply canon_ite
    | with_reducible apply State.updDie_canon
    | with_reducible apply fqRetry_canon
    | with_reducible apply fqAbort_canon

theorem writeChat_canon (off : Nat) (data : List Byte) (s : State) (hC : s.Canon) : (writeChat off data s).Canon := by
  unfold writeChat
  repeat' first
    | with_reducible assumption
    | with_reducible apply canon_ite
    | intro _ _ _
    | intro _
    | dsimp only
    | split
    | (with_reducible apply canon_misc; with_reducible first | assumption)

theorem execRegisterWrite_canon (sp : RegSpace) (offset : Nat) (data : List Byte) (s : State) (hC : s.Canon) : ∀ t', execRegisterWrite sp offset data s = .next t' → t'.Canon := by
  unfold execRegisterWrite
  intro _ hE
  cases hE
  repeat' first
    | with_reducible assumption
    | with_reducible apply canon_ite
    | with_reducible apply writePcie_canon
    | with_reducible apply writeBar0_canon
    | with_reducible apply writeDieReg_canon
    | with_reducible apply writeChat_canon
    | intro _ _ _
    | intro _
    | dsimp only
    | split
    | (with_reducible apply canon_misc; with_reducible first | assumption | apply writePcie_canon | apply writeBar0_canon | apply writeDieReg_canon | apply writeChat_canon)

theorem completeMailbox_canon (p : PortId) (m : Nat) (r : MbxResult) (s : State) (hC : s.Canon) : (completeMailbox p m r s).Canon := by
  unfold completeMailbox
  repeat' first
    | with_reducible assumption
    | with_reducible apply canon_ite
    | with_reducible apply State.updMbx_canon
    | with_reducible apply raiseVector_canon

theorem execMbxCommandComplete_canon (p : PortId) (m : MbxId) (s : State) (hC : s.Canon) : ∀ t', execMbxCommandComplete p m s = .next t' → t'.Canon := by
  unfold execMbxCommandComplete
  intro _ hE
  cases hE
  repeat' first
    | with_reducible assumption
    | with_reducible apply canon_ite
    | with_reducible apply completeMailbox_canon
    | intro _ _ _
    | intro _
    | dsimp only
    | split

theorem runLater_canon (p : PortId) (m op : Nat) (f : Cmd → State → State × Option MbxResult) (s : State) (hC : s.Canon)
    (hf : ∀ c s, s.Canon → ((f c s).1).Canon) : (runLater p m op f s).Canon := by
  unfold runLater
  dsimp only
  split
  · have h := hf (s.mbx p m).command (s.updMbx p m fun b => { b with ran := true }) (State.updMbx_canon hC p m _)
    split
    · exact completeMailbox_canon p m _ _ h
    · exact h
  · exact hC

theorem runCmd_canon (p : PortId) (m op : Nat) (f : Cmd → State → State × MbxResult) (s : State) (hC : s.Canon)
    (hf : ∀ c s, s.Canon → ((f c s).1).Canon) : (runCmd p m op f s).Canon :=
  runLater_canon p m op _ s hC hf

theorem execIdentify_canon (p : PortId) (m : MbxId) (s : State) (hC : s.Canon) : ∀ t', execIdentify p m s = .next t' → t'.Canon := by
  unfold execIdentify
  intro _ hE
  cases hE
  repeat' first
    | with_reducible assumption
    | with_reducible apply runCmd_canon
    | intro _ _ _

theorem execGetHealth_canon (p : PortId) (m : MbxId) (s : State) (hC : s.Canon) : ∀ t', execGetHealth p m s = .next t' → t'.Canon := by
  unfold execGetHealth
  intro _ hE
  cases hE
  repeat' first
    | with_reducible assumption
    | with_reducible apply runCmd_canon
    | intro _ _ _

theorem execSetEpoch_canon (p : PortId) (m : MbxId) (s : State) (hC : s.Canon) : ∀ t', execSetEpoch p m s = .next t' → t'.Canon := by
  unfold execSetEpoch
  intro _ hE
  cases hE
  repeat' first
    | with_reducible assumption
    | with_reducible apply canon_ite
    | with_reducible apply State.updHs_canon
    | with_reducible apply runCmd_canon
    | intro _ _ _

theorem execFaultLogRead_canon (p : PortId) (m : MbxId) (s : State) (hC : s.Canon) : ∀ t', execFaultLogRead p m s = .next t' → t'.Canon := by
  unfold execFaultLogRead
  intro _ hE
  cases hE
  repeat' first
    | with_reducible assumption
    | with_reducible apply canon_ite
    | with_reducible apply RunSt.start_canon
    | with_reducible apply runCmd_canon
    | intro _ _ _
    | intro _
    | dsimp only
    | split

theorem execRepairStatus_canon (p : PortId) (m : MbxId) (s : State) (hC : s.Canon) : ∀ t', execRepairStatus p m s = .next t' → t'.Canon := by
  unfold execRepairStatus
  intro _ hE
  cases hE
  repeat' first
    | with_reducible assumption
    | with_reducible apply runCmd_canon
    | intro _ _ _

theorem execRepairCommit_canon (p : PortId) (m : MbxId) (s : State) (hC : s.Canon) : ∀ t', execRepairCommit p m s = .next t' → t'.Canon := by
  unfold execRepairCommit
  intro _ hE
  cases hE
  repeat' first
    | with_reducible assumption
    | with_reducible apply canon_foldl
    | with_reducible apply persistRemaps_canon
    | with_reducible apply persistCores_canon
    | with_reducible apply runCmd_canon
    | intro _ _ _

theorem fwUpdateRun_canon (image : HostReply) (c : Cmd) (s : State) (hC : s.Canon) : ((fwUpdateRun image c s).1).Canon := by
  unfold fwUpdateRun
  repeat' first
    | with_reducible assumption
    | with_reducible apply canon_ite
    | with_reducible apply State.updFlash_canon
    | intro _ _ _
    | intro _
    | dsimp only
    | split

theorem execFwUpdate_canon (p : PortId) (m : MbxId) (image : HostReply) (s : State) (hC : s.Canon) : ∀ t', execFwUpdate p m image s = .next t' → t'.Canon := by
  unfold execFwUpdate
  intro _ hE
  cases hE
  repeat' first
    | with_reducible assumption
    | with_reducible apply runCmd_canon
    | with_reducible apply fwUpdateRun_canon

theorem execAttestQuote_canon (p : PortId) (m : MbxId) (s : State) (hC : s.Canon) : ∀ t', execAttestQuote p m s = .next t' → t'.Canon := by
  unfold execAttestQuote
  intro _ hE
  cases hE
  repeat' first
    | with_reducible assumption
    | with_reducible apply canon_ite
    | with_reducible apply State.drew_canon
    | with_reducible apply runCmd_canon
    | intro _ _ _

theorem execLanePlanSet_canon (p : PortId) (m : MbxId) (s : State) (hC : s.Canon) : ∀ t', execLanePlanSet p m s = .next t' → t'.Canon := by
  unfold execLanePlanSet
  intro _ hE
  cases hE
  repeat' first
    | with_reducible assumption
    | with_reducible apply canon_ite
    | with_reducible apply State.updFlash_canon
    | with_reducible apply runCmd_canon
    | intro _ _ _
    | intro _
    | dsimp only
    | split

theorem execLinkQuery_canon (p : PortId) (m : MbxId) (s : State) (hC : s.Canon) : ∀ t', execLinkQuery p m s = .next t' → t'.Canon := by
  unfold execLinkQuery
  intro _ hE
  cases hE
  repeat' first
    | with_reducible assumption
    | with_reducible apply runCmd_canon
    | intro _ _ _

theorem configCmd_canon (p : PortId) (keep : Option Image) (c : Cmd) (s : State) (hC : s.Canon) : ((configCmd p keep c s).1).Canon := by
  unfold configCmd
  repeat' first
    | with_reducible assumption
    | with_reducible apply configure_canon

theorem execPartCreate_canon (p : PortId) (m : MbxId) (s : State) (hC : s.Canon) : ∀ t', execPartCreate p m s = .next t' → t'.Canon := by
  unfold execPartCreate
  intro _ hE
  cases hE
  repeat' first
    | with_reducible assumption
    | with_reducible apply runCmd_canon
    | with_reducible apply configCmd_canon

theorem execPartReconfigure_canon (p : PortId) (m : MbxId) (s : State) (hC : s.Canon) : ∀ t', execPartReconfigure p m s = .next t' → t'.Canon := by
  unfold execPartReconfigure
  intro _ hE
  cases hE
  repeat' first
    | with_reducible assumption
    | with_reducible apply runCmd_canon
    | with_reducible apply configCmd_canon
    | intro _ _ _

theorem execPartDestroy_canon (p : PortId) (m : MbxId) (s : State) (hC : s.Canon) : ∀ t', execPartDestroy p m s = .next t' → t'.Canon := by
  unfold execPartDestroy
  intro _ hE
  cases hE
  repeat' first
    | with_reducible assumption
    | with_reducible apply destroyPart_canon
    | with_reducible apply runCmd_canon
    | intro _ _ _

theorem execPartStop_canon (p : PortId) (m : MbxId) (s : State) (hC : s.Canon) : ∀ t', execPartStop p m s = .next t' → t'.Canon := by
  unfold execPartStop
  intro _ hE
  cases hE
  repeat' first
    | with_reducible assumption
    | with_reducible apply canon_ite
    | with_reducible apply State.updPart_canon
    | with_reducible apply runLater_canon
    | intro _ _ _
    | intro _
    | dsimp only
    | split

theorem partStartRun_canon (seen : Seen) (span : List SpanAnswer) (c : Cmd) (s : State) (hC : s.Canon) : ((partStartRun seen span c s).1).Canon := by
  unfold partStartRun
  repeat' first
    | with_reducible assumption
    | with_reducible apply canon_ite
    | with_reducible apply State.emit_canon
    | with_reducible apply startPart_canon
    | intro _ _ _
    | intro _
    | dsimp only
    | split

theorem execPartStart_canon (p : PortId) (m : MbxId) (span : List SpanAnswer) (s : State) (hC : s.Canon) : ∀ t', execPartStart p m span s = .next t' → t'.Canon := by
  unfold execPartStart
  intro _ hE
  cases hE
  repeat' first
    | with_reducible assumption
    | with_reducible apply runCmd_canon
    | with_reducible apply partStartRun_canon

theorem execPartQuery_canon (p : PortId) (m : MbxId) (s : State) (hC : s.Canon) : ∀ t', execPartQuery p m s = .next t' → t'.Canon := by
  unfold execPartQuery
  intro _ hE
  cases hE
  repeat' first
    | with_reducible assumption
    | with_reducible apply runCmd_canon
    | intro _ _ _

theorem execSeedSet_canon (p : PortId) (m : MbxId) (s : State) (hC : s.Canon) : ∀ t', execSeedSet p m s = .next t' → t'.Canon := by
  unfold execSeedSet
  intro _ hE
  cases hE
  repeat' first
    | with_reducible assumption
    | with_reducible apply State.updPart_canon
    | with_reducible apply runCmd_canon
    | intro _ _ _

theorem releaseImage_canon (p : PortId) (h : Nat) (s : State) (hC : s.Canon) : ((releaseImage p h s).1).Canon := by
  unfold releaseImage
  repeat' first
    | with_reducible assumption
    | with_reducible apply State.updPort_canon
    | intro _ _ _
    | intro _
    | dsimp only
    | split

theorem stageImage_canon (p : PortId) (len : Nat) (image : ImageReply) (s : State) (hC : s.Canon) : ((stageImage p len image s).1).Canon := by
  unfold stageImage
  repeat' first
    | with_reducible assumption
    | with_reducible apply canon_ite
    | with_reducible apply State.updPort_canon
    | intro _ _ _
    | intro _
    | dsimp only
    | split

theorem execImageLoad_canon (p : PortId) (m : MbxId) (image : ImageReply) (s : State) (hC : s.Canon) : ∀ t', execImageLoad p m image s = .next t' → t'.Canon := by
  unfold execImageLoad
  intro _ hE
  cases hE
  repeat' first
    | with_reducible assumption
    | with_reducible apply canon_ite
    | with_reducible apply runCmd_canon
    | with_reducible apply releaseImage_canon
    | with_reducible apply stageImage_canon
    | intro _ _ _
    | intro _
    | dsimp only
    | split

theorem addChange_canon (q : Nat) (c : MapChange) (s : State) (hC : s.Canon) : (addChange q c s).Canon := by
  unfold addChange
  repeat' first
    | with_reducible assumption
    | with_reducible apply State.updPart_canon

theorem memMapRun_canon (p : PortId) (m : Nat) (c : Cmd) (s : State) (hC : s.Canon) : ((memMapRun p m c s).1).Canon := by
  unfold memMapRun
  repeat' first
    | with_reducible assumption
    | with_reducible apply canon_ite
    | with_reducible apply canon_foldl
    | with_reducible apply State.updPort_canon
    | with_reducible apply addChange_canon
    | intro _ _ _
    | intro _
    | dsimp only
    | split

theorem execMemMap_canon (p : PortId) (m : MbxId) (s : State) (hC : s.Canon) : ∀ t', execMemMap p m s = .next t' → t'.Canon := by
  unfold execMemMap
  intro _ hE
  cases hE
  repeat' first
    | with_reducible assumption
    | with_reducible apply canon_ite
    | with_reducible apply runLater_canon
    | with_reducible apply memMapRun_canon

theorem beginMigration_canon (p : PortId) (m q va dest : Nat) (s : State) (hC : s.Canon) : (beginMigration p m q va dest s).Canon := by
  unfold beginMigration
  repeat' first
    | with_reducible assumption
    | with_reducible apply State.updPart_canon
    | with_reducible apply invalidate_canon

theorem execMemMapMigrate_canon (p : PortId) (m : MbxId) (s : State) (hC : s.Canon) : ∀ t', execMemMapMigrate p m s = .next t' → t'.Canon := by
  unfold execMemMapMigrate
  intro _ hE
  cases hE
  repeat' first
    | with_reducible assumption
    | with_reducible apply canon_ite
    | with_reducible apply runLater_canon
    | with_reducible apply beginMigration_canon
    | intro _ _ _
    | intro _
    | dsimp only
    | split

theorem memUnmapRun_canon (p : PortId) (m : Nat) (c : Cmd) (s : State) (hC : s.Canon) : ((memUnmapRun p m c s).1).Canon := by
  unfold memUnmapRun
  repeat' first
    | with_reducible assumption
    | with_reducible apply canon_ite
    | with_reducible apply State.updPort_canon
    | with_reducible apply addChange_canon
    | intro _ _ _
    | intro _
    | dsimp only
    | split

theorem execMemUnmap_canon (p : PortId) (m : MbxId) (s : State) (hC : s.Canon) : ∀ t', execMemUnmap p m s = .next t' → t'.Canon := by
  unfold execMemUnmap
  intro _ hE
  cases hE
  repeat' first
    | with_reducible assumption
    | with_reducible apply runCmd_canon
    | with_reducible apply memUnmapRun_canon

theorem windowOpenRun_canon (p : PortId) (m : Nat) (c : Cmd) (s : State) (hC : s.Canon) : ((windowOpenRun p m c s).1).Canon := by
  unfold windowOpenRun
  repeat' first
    | with_reducible assumption
    | with_reducible apply canon_ite
    | with_reducible apply addChange_canon
    | intro _ _ _
    | intro _
    | dsimp only
    | split

theorem execWindowOpen_canon (p : PortId) (m : MbxId) (s : State) (hC : s.Canon) : ∀ t', execWindowOpen p m s = .next t' → t'.Canon := by
  unfold execWindowOpen
  intro _ hE
  cases hE
  repeat' first
    | with_reducible assumption
    | with_reducible apply runCmd_canon
    | with_reducible apply windowOpenRun_canon

theorem windowCloseRun_canon (p : PortId) (m : Nat) (c : Cmd) (s : State) (hC : s.Canon) : ((windowCloseRun p m c s).1).Canon := by
  unfold windowCloseRun
  repeat' first
    | with_reducible assumption
    | with_reducible apply canon_ite
    | with_reducible apply addChange_canon
    | intro _ _ _
    | intro _
    | dsimp only
    | split

theorem execWindowClose_canon (p : PortId) (m : MbxId) (s : State) (hC : s.Canon) : ∀ t', execWindowClose p m s = .next t' → t'.Canon := by
  unfold execWindowClose
  intro _ hE
  cases hE
  repeat' first
    | with_reducible assumption
    | with_reducible apply runCmd_canon
    | with_reducible apply windowCloseRun_canon

theorem execStreamOpen_canon (p : PortId) (m : MbxId) (s : State) (hC : s.Canon) : ∀ t', execStreamOpen p m s = .next t' → t'.Canon := by
  unfold execStreamOpen
  intro _ hE
  cases hE
  repeat' first
    | with_reducible assumption
    | with_reducible apply canon_ite
    | with_reducible apply State.updPart_canon
    | with_reducible apply runCmd_canon
    | intro _ _ _
    | intro _
    | dsimp only
    | split

theorem execStreamClose_canon (p : PortId) (m : MbxId) (s : State) (hC : s.Canon) : ∀ t', execStreamClose p m s = .next t' → t'.Canon := by
  unfold execStreamClose
  intro _ hE
  cases hE
  repeat' first
    | with_reducible assumption
    | with_reducible apply canon_ite
    | with_reducible apply State.updPart_canon
    | with_reducible apply runCmd_canon
    | intro _ _ _
    | intro _
    | dsimp only
    | split

theorem execRecordConfig_canon (p : PortId) (m : MbxId) (s : State) (hC : s.Canon) : ∀ t', execRecordConfig p m s = .next t' → t'.Canon := by
  unfold execRecordConfig
  intro _ hE
  cases hE
  repeat' first
    | with_reducible assumption
    | with_reducible apply canon_ite
    | with_reducible apply State.updPart_canon
    | with_reducible apply runCmd_canon
    | intro _ _ _
    | intro _
    | dsimp only
    | split

theorem peekBytes_canon (gs : List Region) (x0 : Nat) (x10 : Nat) (x11 : Nat) (x2 : State) (hC : x2.Canon) : ((peekBytes gs x0 x10 x11 x2).1).Canon := by
  induction x0 generalizing x10 x11 x2 with
  | zero =>
    unfold peekBytes
    repeat' first
      | with_reducible assumption
  | succ n ih =>
    unfold peekBytes
    repeat' first
      | with_reducible apply ih
      | with_reducible assumption
      | with_reducible apply canon_ite
      | with_reducible apply lineNow_canon
      | intro _ _ _
      | intro _
      | dsimp only
      | split

theorem beginReplay_canon (p : PortId) (m q va len last : Nat) (items : List RecItem) (s : State) (hC : s.Canon) : (beginReplay p m q va len last items s).Canon := by
  unfold beginReplay
  repeat' first
    | with_reducible assumption
    | with_reducible apply canon_ite
    | with_reducible apply State.updPart_canon
    | with_reducible apply replayEnd_canon
    | with_reducible apply rewindPart_canon

theorem ringRead_canon (gs : List Region) (va n : Nat) (s : State) (hC : s.Canon) : (ringRead gs va n s).Canon := by
  unfold ringRead
  repeat' first
    | with_reducible assumption
    | with_reducible apply peekBytes_canon

theorem replayRun_canon (p : PortId) (m : Nat) (c : Cmd) (s : State) (hC : s.Canon) : ((replayRun p m c s).1).Canon := by
  unfold replayRun
  repeat' first
    | with_reducible assumption
    | with_reducible apply canon_ite
    | with_reducible apply settleWrites_canon
    | with_reducible apply peekBytes_canon
    | with_reducible apply beginReplay_canon
    | with_reducible apply ringRead_canon
    | intro _ _ _
    | intro _
    | dsimp only
    | split

theorem execReplayRun_canon (p : PortId) (m : MbxId) (s : State) (hC : s.Canon) : ∀ t', execReplayRun p m s = .next t' → t'.Canon := by
  unfold execReplayRun
  intro _ hE
  cases hE
  repeat' first
    | with_reducible assumption
    | with_reducible apply runLater_canon
    | with_reducible apply replayRun_canon

theorem diagRun_canon (p : PortId) (m test : Nat) (f : Cmd → State → State × MbxResult) (s : State) (hC : s.Canon)
    (hf : ∀ c s, s.Canon → ((f c s).1).Canon) : (diagRun p m test f s).Canon := by
  unfold diagRun
  split
  · refine runCmd_canon p m _ _ s hC fun c s h => ?_
    split
    · exact hf c s h
    · exact h
  · exact hC

theorem execDiagRescueRead_canon (p : PortId) (m : MbxId) (s : State) (hC : s.Canon) : ∀ t', execDiagRescueRead p m s = .next t' → t'.Canon := by
  unfold execDiagRescueRead
  intro _ hE
  cases hE
  repeat' first
    | with_reducible assumption
    | with_reducible apply diagRun_canon
    | intro _ _ _
    | intro _
    | dsimp only
    | split

theorem execDiagCoreStoreRead_canon (p : PortId) (m : MbxId) (s : State) (hC : s.Canon) : ∀ t', execDiagCoreStoreRead p m s = .next t' → t'.Canon := by
  unfold execDiagCoreStoreRead
  intro _ hE
  cases hE
  repeat' first
    | with_reducible assumption
    | with_reducible apply canon_ite
    | with_reducible apply diagRun_canon
    | intro _ _ _
    | intro _
    | dsimp only
    | split

theorem execDiagStampRead_canon (p : PortId) (m : MbxId) (s : State) (hC : s.Canon) : ∀ t', execDiagStampRead p m s = .next t' → t'.Canon := by
  unfold execDiagStampRead
  intro _ hE
  cases hE
  repeat' first
    | with_reducible assumption
    | with_reducible apply canon_ite
    | with_reducible apply diagRun_canon
    | intro _ _ _
    | intro _
    | dsimp only
    | split

theorem execDiagRegisterRead_canon (p : PortId) (m : MbxId) (s : State) (hC : s.Canon) : ∀ t', execDiagRegisterRead p m s = .next t' → t'.Canon := by
  unfold execDiagRegisterRead
  intro _ hE
  cases hE
  repeat' first
    | with_reducible assumption
    | with_reducible apply canon_ite
    | with_reducible apply diagRun_canon
    | intro _ _ _
    | intro _
    | dsimp only
    | split

theorem execDiagDebugBreak_canon (p : PortId) (m : MbxId) (s : State) (hC : s.Canon) : ∀ t', execDiagDebugBreak p m s = .next t' → t'.Canon := by
  unfold execDiagDebugBreak
  intro _ hE
  cases hE
  repeat' first
    | with_reducible assumption
    | with_reducible apply debugBreak_canon
    | with_reducible apply diagRun_canon
    | intro _ _ _
    | intro _
    | dsimp only
    | split

theorem hmRun_canon (p : PortId) (op : Nat) (f : Nat → State → State × HmbResult) (s : State) (hC : s.Canon)
    (hf : ∀ c s, s.Canon → ((f c s).1).Canon) : (hmRun p op f s).Canon := by
  unfold hmRun
  dsimp only
  split
  · exact State.updPort_canon (hf _ s hC) p _
  · exact hC

theorem execHmStatus_canon (p : PortId) (s : State) (hC : s.Canon) : ∀ t', execHmStatus p s = .next t' → t'.Canon := by
  unfold execHmStatus
  intro _ hE
  cases hE
  repeat' first
    | with_reducible assumption
    | with_reducible apply hmRun_canon
    | intro _ _ _

theorem execHmLog_canon (p : PortId) (s : State) (hC : s.Canon) : ∀ t', execHmLog p s = .next t' → t'.Canon := by
  unfold execHmLog
  intro _ hE
  cases hE
  repeat' first
    | with_reducible assumption
    | with_reducible apply canon_ite
    | with_reducible apply hmRun_canon
    | intro _ _ _
    | intro _
    | dsimp only
    | split

theorem resetDie_canon (d : Nat) (s : State) (hC : s.Canon) : (resetDie d s).Canon := by
  unfold resetDie
  repeat' first
    | with_reducible assumption
    | with_reducible apply canon_ite
    | with_reducible apply State.updDie_canon
    | intro _ _ _
    | intro _
    | dsimp only
    | split
    | with_reducible apply SMap.wf_mapVals
    | with_reducible apply SMap.wf_upd
    | with_reducible apply SMap.wf_filter
    | with_reducible apply Mem.wf_write
    | with_reducible apply Mem.wf_clear
    | with_reducible apply SMap.wf_foldl_set
    | with_reducible apply State.Canon.cores
    | with_reducible apply State.Canon.parts
    | with_reducible apply State.Canon.dies
    | with_reducible apply State.Canon.beds
    | with_reducible apply State.Canon.hbms
    | with_reducible apply State.Canon.hbm
    | with_reducible apply State.Canon.hbmErr
    | with_reducible apply State.Canon.lanes
    | with_reducible apply State.Canon.links
    | with_reducible apply State.Canon.mk

theorem execHmDieReset_canon (p : PortId) (s : State) (hC : s.Canon) : ∀ t', execHmDieReset p s = .next t' → t'.Canon := by
  unfold execHmDieReset
  intro _ hE
  cases hE
  repeat' first
    | with_reducible assumption
    | with_reducible apply canon_ite
    | with_reducible apply fenceDie_canon
    | with_reducible apply hmRun_canon
    | with_reducible apply resetDie_canon
    | intro _ _ _
    | intro _
    | dsimp only
    | split

theorem abandonMailboxes_canon (p : PortId) (s : State) (hC : s.Canon) : (abandonMailboxes p s).Canon := by
  unfold abandonMailboxes
  repeat' first
    | with_reducible assumption
    | with_reducible apply canon_ite
    | with_reducible apply canon_foldl
    | with_reducible apply State.updMbx_canon
    | intro _ _ _

theorem execHmFwRestart_canon (p : PortId) (s : State) (hC : s.Canon) : ∀ t', execHmFwRestart p s = .next t' → t'.Canon := by
  unfold execHmFwRestart
  intro _ hE
  cases hE
  repeat' first
    | with_reducible assumption
    | with_reducible apply canon_ite
    | with_reducible apply canon_foldl
    | with_reducible apply State.updHs_canon
    | with_reducible apply stopWithin_canon
    | with_reducible apply abandonPort_canon
    | with_reducible apply hmRun_canon
    | with_reducible apply abandonMailboxes_canon
    | intro _ _ _
    | intro _
    | dsimp only
    | split

theorem execHmPortQuiesce_canon (p : PortId) (s : State) (hC : s.Canon) : ∀ t', execHmPortQuiesce p s = .next t' → t'.Canon := by
  unfold execHmPortQuiesce
  intro _ hE
  cases hE
  repeat' first
    | with_reducible assumption
    | with_reducible apply canon_ite
    | with_reducible apply State.updPort_canon
    | with_reducible apply hostLost_canon

theorem execHmSnapshot_canon (p : PortId) (s : State) (hC : s.Canon) : ∀ t', execHmSnapshot p s = .next t' → t'.Canon := by
  unfold execHmSnapshot
  intro _ hE
  cases hE
  repeat' first
    | with_reducible assumption
    | with_reducible apply canon_ite
    | with_reducible apply canon_foldl
    | with_reducible apply State.updCore_canon
    | with_reducible apply stopWithin_canon
    | with_reducible apply hmRun_canon
    | intro _ _ _

theorem execHmbComplete_canon (p : PortId) (s : State) (hC : s.Canon) : ∀ t', execHmbComplete p s = .next t' → t'.Canon := by
  unfold execHmbComplete
  intro _ hE
  cases hE
  repeat' first
    | with_reducible assumption
    | with_reducible apply canon_ite
    | with_reducible apply State.updPort_canon
    | with_reducible apply State.updHs_canon
    | with_reducible apply raiseVector_canon
    | intro _ _ _
    | intro _
    | dsimp only
    | split

theorem bistEntry_canon (cls addr code : Nat) (r : Res) (s : State) (hC : s.Canon) : (bistEntry cls addr code r s).Canon := by
  unfold bistEntry
  repeat' first
    | with_reducible assumption
    | with_reducible apply logEvent_canon

theorem retireCore_canon (c cls : Nat) (s : State) (hC : s.Canon) : (retireCore c cls s).Canon := by
  unfold retireCore
  repeat' first
    | with_reducible assumption
    | with_reducible apply canon_ite
    | with_reducible apply State.updFlash_canon
    | with_reducible apply bistEntry_canon

theorem rowFails_canon (c row : Nat) (s : State) (hC : s.Canon) : (rowFails c row s).Canon := by
  unfold rowFails
  repeat' first
    | with_reducible assumption
    | with_reducible apply canon_ite
    | with_reducible apply State.updFlash_canon
    | with_reducible apply bistEntry_canon
    | with_reducible apply retireCore_canon
    | intro _ _ _
    | intro _
    | dsimp only
    | split

theorem wayFails_canon (t : TlbUser) (way : Nat) (s : State) (hC : s.Canon) : (wayFails t way s).Canon := by
  unfold wayFails
  repeat' first
    | with_reducible assumption
    | with_reducible apply canon_ite
    | with_reducible apply State.updFlash_canon
    | with_reducible apply bistEntry_canon
    | with_reducible apply retireCore_canon
    | intro _ _ _
    | intro _
    | dsimp only
    | split

theorem applyBist_canon (s : State) (x0 : BistFail) (hC : s.Canon) : (applyBist s x0).Canon := by
  unfold applyBist
  repeat' first
    | with_reducible assumption
    | with_reducible apply canon_ite
    | with_reducible apply State.updFlash_canon
    | with_reducible apply bistEntry_canon
    | with_reducible apply retireCore_canon
    | with_reducible apply rowFails_canon
    | with_reducible apply wayFails_canon
    | intro _ _ _
    | intro _
    | dsimp only
    | split

theorem applyPending_canon (on : Nat → Bool) (bist : List BistFail) (s : State) (hC : s.Canon) : (applyPending on bist s).Canon := by
  unfold applyPending
  repeat' first
    | with_reducible assumption
    | with_reducible apply canon_foldl
    | with_reducible apply State.updFlash_canon

theorem enableDie_canon (d : Nat) (s : State) (hC : s.Canon) : (enableDie d s).Canon := by
  unfold enableDie
  repeat' first
    | with_reducible assumption
    | with_reducible apply canon_foldl
    | with_reducible apply State.updCore_canon
    | with_reducible apply State.updDie_canon
    | intro _ _ _

theorem clearLasting_canon (d : Nat) (s : State) (hC : s.Canon) : (clearLasting d s).Canon := by
  unfold clearLasting
  repeat' first
    | with_reducible assumption
    | intro _ _ _
    | intro _
    | dsimp only
    | split
    | (with_reducible apply canon_misc; with_reducible first | assumption)

theorem execDieBistComplete_canon (d : DieId) (bist : List BistFail) (s : State) (hC : s.Canon) : ∀ t', execDieBistComplete d bist s = .next t' → t'.Canon := by
  unfold execDieBistComplete
  intro _ hE
  cases hE
  repeat' first
    | with_reducible assumption
    | with_reducible apply canon_ite
    | with_reducible apply canon_foldl
    | with_reducible apply logEvent_canon
    | with_reducible apply updateHealth_canon
    | with_reducible apply applyBist_canon
    | with_reducible apply applyPending_canon
    | with_reducible apply enableDie_canon
    | with_reducible apply clearLasting_canon

theorem execComputeDieReset_canon (d : DieId) (s : State) (hC : s.Canon) : ∀ t', execComputeDieReset d s = .next t' → t'.Canon := by
  unfold execComputeDieReset
  intro _ hE
  cases hE
  repeat' first
    | with_reducible assumption
    | with_reducible apply canon_ite
    | with_reducible apply fenceDie_canon

theorem execChatterWindowStart_canon (d : ChatDie) (s : State) (hC : s.Canon) : ∀ t', execChatterWindowStart d s = .next t' → t'.Canon := by
  unfold execChatterWindowStart
  intro _ hE
  cases hE
  repeat' first
    | with_reducible assumption
    | with_reducible apply canon_ite
    | intro _ _ _
    | intro _
    | dsimp only
    | split
    | with_reducible apply SMap.wf_mapVals
    | with_reducible apply SMap.wf_upd
    | with_reducible apply SMap.wf_filter
    | with_reducible apply Mem.wf_write
    | with_reducible apply Mem.wf_clear
    | with_reducible apply SMap.wf_foldl_set
    | with_reducible apply State.Canon.cores
    | with_reducible apply State.Canon.parts
    | with_reducible apply State.Canon.dies
    | with_reducible apply State.Canon.beds
    | with_reducible apply State.Canon.hbms
    | with_reducible apply State.Canon.hbm
    | with_reducible apply State.Canon.hbmErr
    | with_reducible apply State.Canon.lanes
    | with_reducible apply State.Canon.links
    | with_reducible apply State.Canon.mk

theorem execFlitCrcRetry_canon (b : BundleId) (lane : Fin 18) (dead : Bool) (s : State) (hC : s.Canon) : ∀ t', execFlitCrcRetry b lane dead s = .next t' → t'.Canon := by
  unfold execFlitCrcRetry
  intro _ hE
  cases hE
  repeat' first
    | with_reducible assumption
    | with_reducible apply canon_ite
    | with_reducible apply State.updLane_canon
    | with_reducible apply chatter_canon
    | with_reducible apply chatterUe_canon

theorem laneDone_canon (cls src addr count code : Nat) (s : State) (hC : s.Canon) : (laneDone cls src addr count code s).Canon := by
  unfold laneDone
  repeat' first
    | with_reducible assumption
    | with_reducible apply logEvent_canon

theorem swapBundle_canon (b : Nat) (s : State) (hC : s.Canon) : (swapBundle b s).Canon := by
  unfold swapBundle
  repeat' first
    | with_reducible assumption
    | with_reducible apply canon_ite
    | with_reducible apply State.updLane_canon
    | with_reducible apply State.updFlash_canon
    | with_reducible apply laneDone_canon
    | intro _ _ _
    | intro _
    | dsimp only
    | split

theorem retireLinkLane_canon (l i : Nat) (s : State) (hC : s.Canon) : (retireLinkLane l i s).Canon := by
  unfold retireLinkLane
  repeat' first
    | with_reducible assumption
    | with_reducible apply State.updFlash_canon

theorem swapLink_canon (l : Nat) (s : State) (hC : s.Canon) : (swapLink l s).Canon := by
  unfold swapLink
  repeat' first
    | with_reducible assumption
    | with_reducible apply State.updLink_canon
    | with_reducible apply laneDone_canon
    | with_reducible apply retireLinkLane_canon
    | intro _ _ _
    | intro _
    | dsimp only
    | split

theorem execLaneSpareSwap_canon (l : LaneRef) (s : State) (hC : s.Canon) : ∀ t', execLaneSpareSwap l s = .next t' → t'.Canon := by
  unfold execLaneSpareSwap
  intro _ hE
  cases hE
  repeat' first
    | with_reducible assumption
    | with_reducible apply canon_ite
    | with_reducible apply swapBundle_canon
    | with_reducible apply swapLink_canon
    | intro _ _ _
    | intro _
    | dsimp only
    | split

theorem linkGone_canon (l : Nat) (cut : List PartId) (s : State) (hC : s.Canon) : (linkGone l cut s).Canon := by
  unfold linkGone
  repeat' first
    | with_reducible assumption
    | with_reducible apply canon_foldl
    | with_reducible apply State.updHs_canon
    | with_reducible apply faultPart_canon
    | with_reducible apply updateHealth_canon
    | with_reducible apply degradation_canon
    | intro _ _ _

theorem cutElsewhere_canon (s : State) (q : PartId) (hC : s.Canon) : (cutElsewhere s q).Canon := by
  unfold cutElsewhere
  repeat' first
    | with_reducible assumption
    | with_reducible apply canon_ite
    | with_reducible apply faultPart_canon

theorem execScaleoutLinkDown_canon (l : Option LinkId) (cut : List PartId) (s : State) (hC : s.Canon) : ∀ t', execScaleoutLinkDown l cut s = .next t' → t'.Canon := by
  unfold execScaleoutLinkDown
  intro _ hE
  cases hE
  repeat' first
    | with_reducible assumption
    | with_reducible apply canon_ite
    | with_reducible apply canon_foldl
    | with_reducible apply State.updLink_canon
    | with_reducible apply linkGone_canon
    | with_reducible apply cutElsewhere_canon
    | intro _ _ _
    | intro _
    | dsimp only
    | split

theorem linkChanged_canon (l i : Nat) (old : Link) (cut : List PartId) (s : State) (hC : s.Canon) : (linkChanged l i old cut s).Canon := by
  unfold linkChanged
  repeat' first
    | with_reducible assumption
    | with_reducible apply canon_ite
    | with_reducible apply updateHealth_canon
    | with_reducible apply degradation_canon
    | with_reducible apply laneDone_canon
    | with_reducible apply retireLinkLane_canon
    | with_reducible apply linkGone_canon

theorem execFecCodeword_canon (l : LinkId) (lane : Fin 5) (corrected : Bool) (cut : List PartId) (s : State) (hC : s.Canon) : ∀ t', execFecCodeword l lane corrected cut s = .next t' → t'.Canon := by
  unfold execFecCodeword
  intro _ hE
  cases hE
  repeat' first
    | with_reducible assumption
    | with_reducible apply canon_ite
    | with_reducible apply State.updLink_canon
    | with_reducible apply chatter_canon
    | with_reducible apply chatterUe_canon
    | with_reducible apply linkChanged_canon

theorem trainLink_canon (l : Nat) (peer : LinkPeer) (s : State) (hC : s.Canon) : (trainLink l peer s).Canon := by
  unfold trainLink
  repeat' first
    | with_reducible assumption
    | with_reducible apply canon_ite
    | with_reducible apply State.updLink_canon

theorem execScaleoutLinkTrain_canon (l : LinkId) (peer : LinkPeer) (s : State) (hC : s.Canon) : ∀ t', execScaleoutLinkTrain l peer s = .next t' → t'.Canon := by
  unfold execScaleoutLinkTrain
  intro _ hE
  cases hE
  repeat' first
    | with_reducible assumption
    | with_reducible apply canon_ite
    | with_reducible apply updateHealth_canon
    | with_reducible apply trainLink_canon

theorem giveRole_canon (role : Nat) (s : State) (c : Nat) (hC : s.Canon) : (giveRole role s c).Canon := by
  unfold giveRole
  repeat' first
    | with_reducible assumption
    | with_reducible apply canon_ite
    | with_reducible apply State.updLane_canon
    | intro _ _ _
    | intro _
    | dsimp only
    | split

theorem giveRoles_canon (s : State) (hC : s.Canon) : (giveRoles s).Canon := by
  unfold giveRoles
  repeat' first
    | with_reducible assumption
    | with_reducible apply canon_foldl
    | with_reducible apply giveRole_canon

theorem retireBundle_canon (s : State) (b : Nat) (hC : s.Canon) : (retireBundle s b).Canon := by
  unfold retireBundle
  repeat' first
    | with_reducible assumption
    | with_reducible apply canon_ite
    | with_reducible apply State.updLane_canon
    | with_reducible apply State.updFlash_canon
    | with_reducible apply degradation_canon
    | with_reducible apply laneDone_canon

theorem putHops_canon (s : State) (e : PartId × Nat) (hC : s.Canon) : (putHops s e).Canon := by
  unfold putHops
  repeat' first
    | with_reducible assumption
    | with_reducible apply canon_ite
    | with_reducible apply State.updPart_canon

theorem execRouteChangeComplete_canon (hops : List (PartId × Nat)) (s : State) (hC : s.Canon) : ∀ t', execRouteChangeComplete hops s = .next t' → t'.Canon := by
  unfold execRouteChangeComplete
  intro _ hE
  cases hE
  repeat' first
    | with_reducible assumption
    | with_reducible apply canon_ite
    | with_reducible apply canon_foldl
    | with_reducible apply State.updHs_canon
    | with_reducible apply updateHealth_canon
    | with_reducible apply enterFailed_canon
    | with_reducible apply giveRoles_canon
    | with_reducible apply retireBundle_canon
    | with_reducible apply putHops_canon

theorem readmit_canon (s : State) (q : Nat) (hC : s.Canon) : (readmit s q).Canon := by
  unfold readmit
  repeat' first
    | with_reducible assumption
    | with_reducible apply canon_ite
    | with_reducible apply State.updPart_canon
    | with_reducible apply State.drew_canon
    | with_reducible apply notifyPart_canon
    | with_reducible apply stopWithin_canon
    | intro _ _ _
    | intro _
    | dsimp only
    | split

theorem execDegradationReadmission_canon (s : State) (hC : s.Canon) : ∀ t', execDegradationReadmission s = .next t' → t'.Canon := by
  unfold execDegradationReadmission
  intro _ hE
  cases hE
  repeat' first
    | with_reducible assumption
    | with_reducible apply canon_ite
    | with_reducible apply canon_foldl
    | with_reducible apply State.updHs_canon
    | with_reducible apply readmit_canon

theorem resetAll_canon (s : State) : (resetAll s).Canon := by
  unfold resetAll
  exact ⟨rfl, rfl, rfl, rfl, rfl, rfl, rfl, rfl, rfl⟩

theorem startFw_canon (n : Nat) (s : State) (hC : s.Canon) : (startFw n s).Canon := by
  unfold startFw
  repeat' first
    | with_reducible assumption
    | with_reducible apply State.updHs_canon

theorem bistStep_canon (boot : BootEnv) (s : State) (hC : s.Canon) : (bistStep boot s).Canon := by
  unfold bistStep
  repeat' first
    | with_reducible assumption
    | with_reducible apply canon_ite
    | with_reducible apply canon_foldl
    | with_reducible apply State.updBed_canon
    | with_reducible apply State.updHs_canon
    | with_reducible apply State.updFlash_canon
    | with_reducible apply State.drewN_canon
    | with_reducible apply logEvent_canon
    | with_reducible apply applyBist_canon
    | with_reducible apply applyPending_canon
    | with_reducible apply enableDie_canon
    | intro _ _ _

theorem laneStep_canon (boot : BootEnv) (s : State) (hC : s.Canon) : (laneStep boot s).Canon := by
  unfold laneStep
  repeat' first
    | with_reducible assumption
    | with_reducible apply canon_foldl
    | with_reducible apply State.updLane_canon
    | with_reducible apply State.updHs_canon
    | with_reducible apply giveRoles_canon
    | intro _ _ _

theorem hbmStep_canon (s : State) (hC : s.Canon) : (hbmStep s).Canon := by
  unfold hbmStep
  repeat' first
    | with_reducible assumption
    | with_reducible apply canon_foldl
    | with_reducible apply State.updStack_canon
    | with_reducible apply State.updFlash_canon
    | intro _ _ _

theorem linkStep_canon (boot : BootEnv) (s : State) (hC : s.Canon) : (linkStep boot s).Canon := by
  unfold linkStep
  repeat' first
    | with_reducible assumption
    | with_reducible apply canon_foldl
    | with_reducible apply State.updLink_canon
    | with_reducible apply trainLink_canon
    | intro _ _ _

theorem healthStep_canon (s : State) (hC : s.Canon) : (healthStep s).Canon := by
  unfold healthStep
  repeat' first
    | with_reducible assumption
    | with_reducible apply canon_ite
    | with_reducible apply State.updHs_canon
    | with_reducible apply setHealth_canon

theorem dieSteps_canon (boot : BootEnv) (s : State) (hC : s.Canon) : (dieSteps boot s).Canon := by
  unfold dieSteps
  repeat' first
    | with_reducible assumption
    | with_reducible apply canon_ite
    | with_reducible apply State.updHs_canon
    | with_reducible apply enterFailed_canon
    | with_reducible apply bistStep_canon
    | with_reducible apply laneStep_canon
    | with_reducible apply hbmStep_canon
    | with_reducible apply linkStep_canon
    | with_reducible apply healthStep_canon

theorem powerUp_canon (boot : BootEnv) (s : State) (hC : s.Canon) : (powerUp boot s).Canon := by
  unfold powerUp
  repeat' first
    | with_reducible assumption
    | with_reducible apply canon_ite
    | with_reducible apply State.updPower_canon
    | with_reducible apply State.updFlash_canon
    | with_reducible apply enterFailed_canon
    | with_reducible apply startFw_canon
    | with_reducible apply dieSteps_canon
    | intro _ _ _
    | intro _
    | dsimp only
    | split

theorem execPowerGood_canon (boot : BootEnv) (s : State) (hC : s.Canon) : ∀ t', execPowerGood boot s = .next t' → t'.Canon := by
  unfold execPowerGood
  intro _ hE
  cases hE
  repeat' first
    | with_reducible assumption
    | with_reducible apply canon_ite
    | with_reducible apply State.updPower_canon
    | with_reducible apply powerUp_canon

theorem execPowerGoodWithdrawn_canon (vin10mV : Nat) (s : State) (hC : s.Canon) : ∀ t', execPowerGoodWithdrawn vin10mV s = .next t' → t'.Canon := by
  unfold execPowerGoodWithdrawn
  intro _ hE
  cases hE
  repeat' first
    | with_reducible assumption
    | with_reducible apply canon_ite
    | with_reducible apply State.updPower_canon
    | with_reducible apply resetAll_canon

theorem execModResetAssert_canon (s : State) (hC : s.Canon) : ∀ t', execModResetAssert s = .next t' → t'.Canon := by
  unfold execModResetAssert
  intro _ hE
  cases hE
  repeat' first
    | with_reducible assumption
    | with_reducible apply canon_ite
    | with_reducible apply State.updPower_canon
    | with_reducible apply resetAll_canon

theorem execModResetDeassert_canon (boot : BootEnv) (s : State) (hC : s.Canon) : ∀ t', execModResetDeassert boot s = .next t' → t'.Canon := by
  unfold execModResetDeassert
  intro _ hE
  cases hE
  repeat' first
    | with_reducible assumption
    | with_reducible apply canon_ite
    | with_reducible apply State.updPower_canon
    | with_reducible apply powerUp_canon

theorem freeFaults_canon (s : State) (hC : s.Canon) : (freeFaults s).Canon := by
  unfold freeFaults
  repeat' first
    | with_reducible assumption
    | intro _ _ _
    | intro _
    | dsimp only
    | split
    | with_reducible apply SMap.wf_mapVals
    | with_reducible apply SMap.wf_upd
    | with_reducible apply SMap.wf_filter
    | with_reducible apply Mem.wf_write
    | with_reducible apply Mem.wf_clear
    | with_reducible apply SMap.wf_foldl_set
    | with_reducible apply State.Canon.cores
    | with_reducible apply State.Canon.parts
    | with_reducible apply State.Canon.dies
    | with_reducible apply State.Canon.beds
    | with_reducible apply State.Canon.hbms
    | with_reducible apply State.Canon.hbm
    | with_reducible apply State.Canon.hbmErr
    | with_reducible apply State.Canon.lanes
    | with_reducible apply State.Canon.links
    | with_reducible apply State.Canon.mk

theorem execControlCoreBoot_canon (s : State) (hC : s.Canon) : ∀ t', execControlCoreBoot s = .next t' → t'.Canon := by
  unfold execControlCoreBoot
  intro _ hE
  cases hE
  repeat' first
    | with_reducible assumption
    | with_reducible apply canon_ite
    | with_reducible apply State.updHs_canon
    | with_reducible apply enterFailed_canon
    | with_reducible apply startFw_canon
    | with_reducible apply freeFaults_canon
    | intro _ _ _
    | intro _
    | dsimp only
    | split

theorem boundEntry_canon (q : Nat) (u : UnitRef) (count limit window : Nat) (s : State) (hC : s.Canon) : (boundEntry q u count limit window s).Canon := by
  unfold boundEntry
  repeat' first
    | with_reducible assumption
    | with_reducible apply logEvent_canon

theorem boundEntries_canon (q : Nat) (us : List UnitRef) (s : State) (hC : s.Canon) : (boundEntries q us s).Canon := by
  unfold boundEntries
  repeat' first
    | with_reducible assumption
    | with_reducible apply canon_foldl
    | with_reducible apply boundEntry_canon
    | intro _ _ _
    | intro _
    | dsimp only
    | split

theorem reportOverrun_canon (q : Nat) (s : State) (u : UnitRef) (hC : s.Canon) : (reportOverrun q s u).Canon := by
  unfold reportOverrun
  repeat' first
    | with_reducible assumption
    | with_reducible apply canon_ite
    | with_reducible apply raiseImmediate_canon
    | with_reducible apply updTu_canon
    | intro _ _ _
    | intro _
    | dsimp only
    | split

theorem boundStop_canon (q : Nat) (s : State) (hC : s.Canon) : (boundStop q s).Canon := by
  unfold boundStop
  repeat' first
    | with_reducible assumption
    | with_reducible apply canon_foldl
    | with_reducible apply stopWithin_canon
    | with_reducible apply boundEntries_canon
    | with_reducible apply reportOverrun_canon

theorem execBoundOverrun_canon (q : PartId) (u : UnitRef) (s : State) (hC : s.Canon) : ∀ t', execBoundOverrun q u s = .next t' → t'.Canon := by
  unfold execBoundOverrun
  intro _ hE
  cases hE
  repeat' first
    | with_reducible assumption
    | with_reducible apply canon_ite
    | with_reducible apply reportOverrun_canon
    | with_reducible apply boundStop_canon

theorem windowExpires_canon (c : Nat) (s : State) (hC : s.Canon) : (windowExpires c s).Canon := by
  unfold windowExpires
  repeat' first
    | with_reducible assumption
    | with_reducible apply canon_ite
    | with_reducible apply State.updCore_canon
    | with_reducible apply raiseImmediate_canon

theorem windowStop_canon (c q : Nat) (s : State) (hC : s.Canon) : (windowStop c q s).Canon := by
  unfold windowStop
  repeat' first
    | with_reducible assumption
    | with_reducible apply State.updCore_canon
    | with_reducible apply stopWithin_canon
    | with_reducible apply boundEntry_canon

theorem execWindowOverrun_canon (c : CoreId) (s : State) (hC : s.Canon) : ∀ t', execWindowOverrun c s = .next t' → t'.Canon := by
  unfold execWindowOverrun
  intro _ hE
  cases hE
  repeat' first
    | with_reducible assumption
    | with_reducible apply canon_ite
    | with_reducible apply windowExpires_canon
    | with_reducible apply windowStop_canon
    | intro _ _ _
    | intro _
    | dsimp only
    | split

theorem passTclk_canon (n : Nat) (s : State) (q : Nat) (hC : s.Canon) : (passTclk n s q).Canon := by
  unfold passTclk
  repeat' first
    | with_reducible assumption
    | with_reducible apply canon_ite
    | with_reducible apply canon_foldl
    | with_reducible apply updTu_canon
    | intro _ _ _

theorem tick_canon (s : State) (hC : s.Canon) : (tick s).Canon := by
  unfold tick
  repeat' first
    | with_reducible assumption
    | with_reducible apply canon_ite
    | with_reducible apply canon_foldl
    | with_reducible apply passTclk_canon
    | intro _ _ _
    | intro _
    | dsimp only
    | split
    | with_reducible apply SMap.wf_mapVals
    | with_reducible apply SMap.wf_upd
    | with_reducible apply SMap.wf_filter
    | with_reducible apply Mem.wf_write
    | with_reducible apply Mem.wf_clear
    | with_reducible apply SMap.wf_foldl_set
    | with_reducible apply State.Canon.cores
    | with_reducible apply State.Canon.parts
    | with_reducible apply State.Canon.dies
    | with_reducible apply State.Canon.beds
    | with_reducible apply State.Canon.hbms
    | with_reducible apply State.Canon.hbm
    | with_reducible apply State.Canon.hbmErr
    | with_reducible apply State.Canon.lanes
    | with_reducible apply State.Canon.links
    | with_reducible apply State.Canon.mk

theorem execI3cOffsetWrite_canon (offset : Byte) (s : State) (hC : s.Canon) : ∀ t', execI3cOffsetWrite offset s = .next t' → t'.Canon := by
  unfold execI3cOffsetWrite
  intro _ hE
  cases hE
  repeat' first
    | with_reducible assumption
    | with_reducible apply canon_ite
    | intro _ _ _
    | intro _
    | dsimp only
    | split
    | (with_reducible apply canon_misc; with_reducible first | assumption)

theorem execSetdasa_canon (addr : Fin 128) (s : State) (hC : s.Canon) : ∀ t', execSetdasa addr s = .next t' → t'.Canon := by
  unfold execSetdasa
  intro _ hE
  cases hE
  repeat' first
    | with_reducible assumption
    | with_reducible apply canon_ite
    | intro _ _ _
    | intro _
    | dsimp only
    | split
    | (with_reducible apply canon_misc; with_reducible first | assumption)

theorem answerSpdm_canon (p : PortId) (a : Spdm) (s : State) (hC : s.Canon) : (answerSpdm p a s).Canon := by
  unfold answerSpdm
  repeat' first
    | with_reducible assumption
    | with_reducible apply State.emit_canon

theorem setStage_canon (p : PortId) (g : DoeStage) (s : State) (hC : s.Canon) : (setStage p g s).Canon := by
  unfold setStage
  repeat' first
    | with_reducible assumption
    | with_reducible apply State.updPort_canon

theorem spdmRun_canon (p : PortId) (f : State → State) (s : State) (hC : s.Canon)
    (hf : ∀ s, s.Canon → (f s).Canon) : (spdmRun p f s).Canon := by
  unfold spdmRun
  split
  · split
    · exact hf s hC
    · exact State.emit_canon hC _
  · exact hC

theorem spdmAfter_canon (p : PortId) (f : State → State) (s : State) (hC : s.Canon)
    (hf : ∀ s, s.Canon → (f s).Canon) : (spdmAfter p f s).Canon := by
  unfold spdmAfter
  refine spdmRun_canon p _ s hC fun s h => ?_
  split
  · exact hf s h
  · exact State.emit_canon h _

theorem execGetVersion_canon (p : PortId) (s : State) (hC : s.Canon) : ∀ t', execGetVersion p s = .next t' → t'.Canon := by
  unfold execGetVersion
  intro _ hE
  cases hE
  repeat' first
    | with_reducible assumption
    | with_reducible apply answerSpdm_canon
    | with_reducible apply setStage_canon
    | with_reducible apply spdmRun_canon
    | intro _ _ _
    | intro _

theorem execGetCapabilities_canon (p : PortId) (s : State) (hC : s.Canon) : ∀ t', execGetCapabilities p s = .next t' → t'.Canon := by
  unfold execGetCapabilities
  intro _ hE
  cases hE
  repeat' first
    | with_reducible assumption
    | with_reducible apply canon_ite
    | with_reducible apply answerSpdm_canon
    | with_reducible apply setStage_canon
    | with_reducible apply spdmRun_canon
    | intro _ _ _
    | intro _

theorem execNegotiateAlgorithms_canon (p : PortId) (asymOk hashOk : Bool) (s : State) (hC : s.Canon) : ∀ t', execNegotiateAlgorithms p asymOk hashOk s = .next t' → t'.Canon := by
  unfold execNegotiateAlgorithms
  intro _ hE
  cases hE
  repeat' first
    | with_reducible assumption
    | with_reducible apply canon_ite
    | with_reducible apply answerSpdm_canon
    | with_reducible apply setStage_canon
    | with_reducible apply spdmRun_canon
    | intro _ _ _
    | intro _

theorem execGetDigests_canon (p : PortId) (s : State) (hC : s.Canon) : ∀ t', execGetDigests p s = .next t' → t'.Canon := by
  unfold execGetDigests
  intro _ hE
  cases hE
  repeat' first
    | with_reducible assumption
    | with_reducible apply answerSpdm_canon
    | with_reducible apply spdmAfter_canon

theorem execGetCertificate_canon (p : PortId) (slot offset len : Nat) (s : State) (hC : s.Canon) : ∀ t', execGetCertificate p slot offset len s = .next t' → t'.Canon := by
  unfold execGetCertificate
  intro _ hE
  cases hE
  repeat' first
    | with_reducible assumption
    | with_reducible apply canon_ite
    | with_reducible apply answerSpdm_canon
    | with_reducible apply spdmAfter_canon
    | intro _ _ _
    | intro _

theorem execChallenge_canon (p : PortId) (slot : Nat) (nonce : List Byte) (s : State) (hC : s.Canon) : ∀ t', execChallenge p slot nonce s = .next t' → t'.Canon := by
  unfold execChallenge
  intro _ hE
  cases hE
  repeat' first
    | with_reducible assumption
    | with_reducible apply canon_ite
    | with_reducible apply State.drew_canon
    | with_reducible apply answerSpdm_canon
    | with_reducible apply spdmAfter_canon
    | intro _ _ _
    | intro _

theorem execGetMeasurements_canon (p : PortId) (index : Nat) (sign : Bool) (nonce : List Byte) (s : State) (hC : s.Canon) : ∀ t', execGetMeasurements p index sign nonce s = .next t' → t'.Canon := by
  unfold execGetMeasurements
  intro _ hE
  cases hE
  repeat' first
    | with_reducible assumption
    | with_reducible apply canon_ite
    | with_reducible apply State.drew_canon
    | with_reducible apply answerSpdm_canon
    | with_reducible apply spdmAfter_canon
    | intro _ _ _
    | intro _

end Sys2Proof.Machine
end

