-- ==== Sys2Proof/Laws/Forward.lean ====
section
/-! SUPPORT. No operation and no meaning touches the queue that waits, takes back an output or uses a free value twice: one lemma for each. -/

namespace Sys2Proof.Machine

/-- A state that may be absent has come forward where it is there. -/
structure OptFwd (z : State) (o : Option State) : Prop where
  out : ∀ t, o = some t → z.Forward t


theorem fwd_ite {z : State} {c : Prop} [Decidable c] {a b : State} (ha : z.Forward a) (hb : z.Forward b) : z.Forward (if c then a else b) := by
  split
  · exact ha
  · exact hb

theorem fwd_foldl {z : State} {α : Type} {g : State → α → State} {l : List α} {s : State} (h : z.Forward s)
    (hg : ∀ s a, z.Forward s → z.Forward (g s a)) : z.Forward (l.foldl g s) := by
  induction l generalizing s with
  | nil => exact h
  | cons x l ih => exact ih (hg _ _ h)

theorem fwdOpt_none {z : State} : OptFwd z none := ⟨fun _ h => by cases h⟩

theorem fwdOpt_some {z : State} {s : State} (h : z.Forward s) : OptFwd z (some s) := ⟨fun _ e => by cases e; exact h⟩

theorem fwdOpt_ite {z : State} {c : Prop} [Decidable c] {a b : Option State} (ha : OptFwd z a) (hb : OptFwd z b) :
    OptFwd z (if c then a else b) := by
  split
  · exact ha
  · exact hb

theorem fwdOpt_map {z : State} {α : Type} {o : Option α} {f : α → State} (h : ∀ a, z.Forward (f a)) : OptFwd z (o.map f) := by
  cases o with
  | none => exact fwdOpt_none
  | some a => exact fwdOpt_some (h a)

theorem fwdOpt_bind {z : State} {α : Type} {o : Option α} {f : α → Option State} (h : ∀ a, OptFwd z (f a)) : OptFwd z (o.bind f) := by
  cases o with
  | none => exact fwdOpt_none
  | some a => exact h a

theorem fwd_getD {z : State} {o : Option State} {s : State} (h : OptFwd z o) (hs : z.Forward s) : z.Forward (o.getD s) := by
  cases o with
  | none => exact hs
  | some a => exact h.out a rfl

theorem fwd_of_pair {z : State} {β : Type} {p : State × β} {a : State} {b : β} (e : p = (a, b)) (h : z.Forward p.1) : z.Forward a := by
  subst e; exact h

theorem fwd_of_opt {z : State} {p : Option State} {a : State} (e : p = some a) (h : OptFwd z p) : z.Forward a := h.out a e

theorem fwdOpt_of_pair {z : State} {β : Type} {p : Option State × β} {a : Option State} {b : β} (e : p = (a, b)) (h : OptFwd z p.1) :
    OptFwd z a := by
  subst e; exact h

theorem fwd_of_fst {z : State} {p : Option State × State} {a b : State} (e : p = (some a, b)) (h : OptFwd z p.1 ∧ z.Forward p.2) :
    z.Forward a := by
  subst e; exact h.1.out _ rfl

theorem fwd_of_snd {z : State} {p : Option State × State} {a : Option State} {b : State} (e : p = (a, b)) (h : OptFwd z p.1 ∧ z.Forward p.2) :
    z.Forward b := by
  subst e; exact h.2


/-- A change of anything else. -/
theorem fwd_misc {z s : State} {power mgmt hs chat flash portA portB parts cores dies beds hbms hbm hbmErr lanes links}
    (h : z.Forward s) : z.Forward ⟨s.pending, s.free, s.out, power, mgmt, hs, chat, flash, portA, portB, parts, cores, dies,
      beds, hbms, hbm, hbmErr, lanes, links⟩ := ⟨h.pending, h.out, h.free⟩

/-- Nothing done. -/
theorem State.Forward.refl (s : State) : s.Forward s := ⟨rfl, List.prefix_refl _, Nat.le_refl _⟩

variable {z s : State} (h : z.Forward s)
include h

theorem State.updCore_fwd (c : Nat) (f : Core → Core) : z.Forward (s.updCore c f) := ⟨h.pending, h.out, h.free⟩
theorem State.updPart_fwd (c : Nat) (f : Part → Part) : z.Forward (s.updPart c f) := ⟨h.pending, h.out, h.free⟩
theorem State.updDie_fwd (c : Nat) (f : Die → Die) : z.Forward (s.updDie c f) := ⟨h.pending, h.out, h.free⟩
theorem State.updBed_fwd (c : Nat) (f : Bed → Bed) : z.Forward (s.updBed c f) := ⟨h.pending, h.out, h.free⟩
theorem State.updStack_fwd (c : Nat) (f : Stack → Stack) : z.Forward (s.updStack c f) := ⟨h.pending, h.out, h.free⟩
theorem State.updLane_fwd (c : Nat) (f : Bundle → Bundle) : z.Forward (s.updLane c f) := ⟨h.pending, h.out, h.free⟩
theorem State.updLink_fwd (c : Nat) (f : Link → Link) : z.Forward (s.updLink c f) := ⟨h.pending, h.out, h.free⟩
theorem State.updPort_fwd (p : PortId) (f : Port → Port) : z.Forward (s.updPort p f) := by
  cases p <;> exact ⟨h.pending, h.out, h.free⟩
theorem State.updMbx_fwd (p : PortId) (m : Nat) (f : Mbx → Mbx) : z.Forward (s.updMbx p m f) := State.updPort_fwd h p _
theorem State.updHs_fwd (f : Headstock → Headstock) : z.Forward (s.updHs f) := ⟨h.pending, h.out, h.free⟩
theorem State.updPower_fwd (f : Power → Power) : z.Forward (s.updPower f) := ⟨h.pending, h.out, h.free⟩
theorem State.updFlash_fwd (f : Flash → Flash) : z.Forward (s.updFlash f) := ⟨h.pending, h.out, h.free⟩
theorem State.drew_fwd : z.Forward s.drew := ⟨h.pending, h.out, Nat.le_succ_of_le h.free⟩
theorem State.drewN_fwd (n : Nat) : z.Forward (s.drewN n) := ⟨h.pending, h.out, Nat.le_trans h.free (Nat.le_add_right _ _)⟩
theorem State.emit_fwd (o : Output) : z.Forward (s.emit o) := ⟨h.pending, h.out.trans (List.prefix_append _ _), h.free⟩

omit h

theorem msix_fwd {z : State} (p : PortId) (v : Nat) (s : State) (hC : z.Forward s) : z.Forward (msix p v s) := by
  unfold msix
  repeat' first
    | with_reducible assumption
    | with_reducible apply fwd_ite
    | with_reducible apply State.updPort_fwd
    | with_reducible apply State.emit_fwd

theorem raiseVector_fwd {z : State} (p : PortId) (v : Nat) (s : State) (hC : z.Forward s) : z.Forward (raiseVector p v s) := by
  unfold raiseVector
  repeat' first
    | with_reducible assumption
    | with_reducible apply State.updPort_fwd
    | with_reducible apply msix_fwd

theorem portErr_fwd {z : State} (p : PortId) (f : Port → Port) (s : State) (hC : z.Forward s) : z.Forward (portErr p f s) := by
  unfold portErr
  repeat' first
    | with_reducible assumption
    | with_reducible apply fwd_ite
    | with_reducible apply State.updPort_fwd
    | with_reducible apply raiseVector_fwd

theorem logEvent_fwd {z : State} (e : LogEntry) (s : State) (hC : z.Forward s) : z.Forward (logEvent e s) := by
  unfold logEvent
  repeat' first
    | with_reducible assumption
    | with_reducible apply State.updHs_fwd

theorem notify_fwd {z : State} (p : PortId) (kind part state status turn : Nat) (s : State) (hC : z.Forward s) : z.Forward (notify p kind part state status turn s) := by
  unfold notify
  repeat' first
    | with_reducible assumption
    | with_reducible apply State.updPort_fwd

theorem notifyPart_fwd {z : State} (kind q : Nat) (s : State) (hC : z.Forward s) : z.Forward (notifyPart kind q s) := by
  unfold notifyPart
  repeat' first
    | with_reducible assumption
    | with_reducible apply notify_fwd

theorem finishStop_fwd {z : State} (q : Nat) (s : State) (hC : z.Forward s) : z.Forward (finishStop q s) := by
  unfold finishStop
  repeat' first
    | with_reducible assumption
    | with_reducible apply State.updPart_fwd
    | with_reducible apply State.updMbx_fwd
    | intro _ _ _
    | intro _
    | dsimp only
    | split

theorem flushMfaults_fwd {z : State} (q c : Nat) (s : State) (hC : z.Forward s) : z.Forward (flushMfaults q c s) := by
  unfold flushMfaults
  repeat' first
    | with_reducible assumption
    | with_reducible apply fwd_foldl
    | with_reducible apply State.updCore_fwd
    | with_reducible apply logEvent_fwd
    | intro _ _ _

theorem moveNote_fwd {z : State} (q d unit : Nat) (j : MoveJob) (s : State) (hC : z.Forward s) : z.Forward (moveNote q d unit j s) := by
  unfold moveNote
  repeat' first
    | with_reducible assumption
    | with_reducible apply fwd_ite
    | with_reducible apply logEvent_fwd

theorem noteMoves_fwd {z : State} (q c : Nat) (s : State) (hC : z.Forward s) : z.Forward (noteMoves q c s) := by
  unfold noteMoves
  repeat' first
    | with_reducible assumption
    | with_reducible apply fwd_foldl
    | with_reducible apply State.updCore_fwd
    | with_reducible apply moveNote_fwd
    | intro _ _ _

theorem noteBulk_fwd {z : State} (q d : Nat) (s : State) (hC : z.Forward s) : z.Forward (noteBulk q d s) := by
  unfold noteBulk
  repeat' first
    | with_reducible assumption
    | with_reducible apply fwd_foldl
    | with_reducible apply State.updDie_fwd
    | with_reducible apply moveNote_fwd
    | intro _ _ _

theorem stopWithin_fwd {z : State} (q : Nat) (st : PartSt) (stat origin : Nat) (s : State) (hC : z.Forward s) : z.Forward (stopWithin q st stat origin s) := by
  unfold stopWithin
  repeat' first
    | with_reducible assumption
    | with_reducible apply fwd_ite
    | with_reducible apply fwd_foldl
    | with_reducible apply State.updCore_fwd
    | with_reducible apply State.updPart_fwd
    | with_reducible apply logEvent_fwd
    | with_reducible apply notifyPart_fwd
    | with_reducible apply finishStop_fwd
    | with_reducible apply flushMfaults_fwd
    | with_reducible apply noteMoves_fwd
    | with_reducible apply noteBulk_fwd
    | intro _ _ _

theorem faultPart_fwd {z : State} (q : Nat) (s : State) (hC : z.Forward s) : z.Forward (faultPart q s) := by
  unfold faultPart
  repeat' first
    | with_reducible assumption
    | with_reducible apply stopWithin_fwd

theorem faultDieAbsent_fwd {z : State} (origin q : Nat) (s : State) (hC : z.Forward s) : z.Forward (faultDieAbsent origin q s) := by
  unfold faultDieAbsent
  repeat' first
    | with_reducible assumption
    | with_reducible apply State.updPart_fwd
    | with_reducible apply notifyPart_fwd
    | with_reducible apply stopWithin_fwd
    | intro _ _ _
    | intro _
    | dsimp only
    | split

theorem setHealth_fwd {z : State} (h : Health) (s : State) (hC : z.Forward s) : z.Forward (setHealth h s) := by
  unfold setHealth
  repeat' first
    | with_reducible assumption
    | with_reducible apply fwd_ite
    | with_reducible apply State.updHs_fwd
    | with_reducible apply logEvent_fwd
    | with_reducible apply notify_fwd
    | intro _ _ _
    | intro _
    | dsimp only
    | split
    | (with_reducible apply fwd_misc; with_reducible first | assumption | apply State.updHs_fwd | apply logEvent_fwd | apply notify_fwd)

theorem updateHealth_fwd {z : State} (s : State) (hC : z.Forward s) : z.Forward (updateHealth s) := by
  unfold updateHealth
  repeat' first
    | with_reducible assumption
    | with_reducible apply fwd_ite
    | with_reducible apply setHealth_fwd
    | intro _ _ _
    | intro _
    | dsimp only
    | split

theorem enterFailed_fwd {z : State} (s : State) (hC : z.Forward s) : z.Forward (enterFailed s) := by
  unfold enterFailed
  repeat' first
    | with_reducible assumption
    | with_reducible apply fwd_foldl
    | with_reducible apply stopWithin_fwd
    | with_reducible apply setHealth_fwd
    | intro _ _ _

theorem degradation_fwd {z : State} (s : State) (hC : z.Forward s) : z.Forward (degradation s) := by
  unfold degradation
  repeat' first
    | with_reducible assumption
    | with_reducible apply State.updHs_fwd

theorem loseDie_fwd {z : State} (d : Nat) (s : State) (hC : z.Forward s) : z.Forward (loseDie d s) := by
  unfold loseDie
  repeat' first
    | with_reducible assumption
    | with_reducible apply fwd_foldl
    | with_reducible apply State.updCore_fwd
    | with_reducible apply State.updDie_fwd
    | intro _ _ _

theorem fenceDie_fwd {z : State} (d why origin : Nat) (s : State) (hC : z.Forward s) : z.Forward (fenceDie d why origin s) := by
  unfold fenceDie
  repeat' first
    | with_reducible assumption
    | with_reducible apply fwd_ite
    | with_reducible apply fwd_foldl
    | with_reducible apply State.updDie_fwd
    | with_reducible apply logEvent_fwd
    | with_reducible apply faultDieAbsent_fwd
    | with_reducible apply updateHealth_fwd
    | with_reducible apply degradation_fwd
    | with_reducible apply loseDie_fwd
    | intro _ _ _

theorem markCore_fwd {z : State} (c : Nat) (s : State) (hC : z.Forward s) : z.Forward (markCore c s) := by
  unfold markCore
  repeat' first
    | with_reducible assumption
    | with_reducible apply fwd_ite
    | with_reducible apply State.updFlash_fwd

theorem rowLasting_fwd {z : State} (k : Nat) (r : HRow) (s : State) (hC : z.Forward s) : z.Forward (rowLasting k r s) := by
  unfold rowLasting
  repeat' first
    | with_reducible assumption
    | with_reducible apply fwd_ite
    | with_reducible apply State.updStack_fwd
    | with_reducible apply logEvent_fwd
    | with_reducible apply updateHealth_fwd
    | intro _ _ _
    | intro _
    | dsimp only
    | split

theorem startRetirement_fwd {z : State} (b : Nat) (s : State) (hC : z.Forward s) : z.Forward (startRetirement b s) := by
  unfold startRetirement
  repeat' first
    | with_reducible assumption
    | with_reducible apply State.updLane_fwd
    | with_reducible apply State.updHs_fwd

theorem laneLasting_fwd {z : State} (b l : Nat) (s : State) (hC : z.Forward s) : z.Forward (laneLasting b l s) := by
  unfold laneLasting
  repeat' first
    | with_reducible assumption
    | with_reducible apply fwd_ite
    | with_reducible apply State.updLane_fwd
    | with_reducible apply startRetirement_fwd

theorem startRepair_fwd {z : State} (r : Res) (s : State) (hC : z.Forward s) : z.Forward (startRepair r s) := by
  unfold startRepair
  repeat' first
    | with_reducible assumption
    | with_reducible apply fwd_ite
    | with_reducible apply State.updLink_fwd
    | with_reducible apply State.updFlash_fwd
    | with_reducible apply State.drew_fwd
    | with_reducible apply markCore_fwd
    | with_reducible apply rowLasting_fwd
    | with_reducible apply laneLasting_fwd

theorem becomeLasting_fwd {z : State} (r : Res) (addr count : Nat) (ue : Bool) (s : State) (hC : z.Forward s) : z.Forward (becomeLasting r addr count ue s) := by
  unfold becomeLasting
  repeat' first
    | with_reducible assumption
    | with_reducible apply logEvent_fwd
    | with_reducible apply startRepair_fwd
    | intro _ _ _
    | intro _
    | dsimp only
    | split
    | (with_reducible apply fwd_misc; with_reducible first | assumption | apply logEvent_fwd | apply startRepair_fwd)

theorem chatter_fwd {z : State} (r : Res) (addr : Nat) (s : State) (hC : z.Forward s) : z.Forward (chatter r addr s) := by
  unfold chatter
  repeat' first
    | with_reducible assumption
    | with_reducible apply fwd_ite
    | with_reducible apply logEvent_fwd
    | with_reducible apply becomeLasting_fwd
    | intro _ _ _
    | intro _
    | dsimp only
    | split
    | (with_reducible apply fwd_misc; with_reducible first | assumption | apply logEvent_fwd | apply becomeLasting_fwd)

theorem chatterUe_fwd {z : State} (r : Res) (addr : Nat) (s : State) (hC : z.Forward s) : z.Forward (chatterUe r addr s) := by
  unfold chatterUe
  repeat' first
    | with_reducible assumption
    | with_reducible apply fwd_ite
    | with_reducible apply becomeLasting_fwd

theorem applyUpset_fwd {z : State} (s : State) (x0 : Upset) (hC : z.Forward s) : z.Forward (applyUpset s x0) := by
  unfold applyUpset
  repeat' first
    | with_reducible assumption
    | with_reducible apply fwd_ite
    | with_reducible apply State.updCore_fwd
    | with_reducible apply State.updPart_fwd
    | with_reducible apply State.updDie_fwd
    | with_reducible apply State.updBed_fwd
    | with_reducible apply State.updStack_fwd
    | with_reducible apply State.updHs_fwd
    | with_reducible apply chatter_fwd
    | with_reducible apply chatterUe_fwd
    | intro _ _ _
    | intro _
    | dsimp only
    | split
    | (with_reducible apply fwd_misc; with_reducible first | assumption | apply State.updCore_fwd | apply State.updPart_fwd | apply State.updDie_fwd | apply State.updBed_fwd | apply State.updStack_fwd | apply State.updHs_fwd | apply chatter_fwd | apply chatterUe_fwd)

theorem applyUpsets_fwd {z : State} (us : List Upset) (s : State) (hC : z.Forward s) : z.Forward (applyUpsets us s) := by
  unfold applyUpsets
  repeat' first
    | with_reducible assumption
    | with_reducible apply fwd_foldl
    | with_reducible apply applyUpset_fwd

theorem siteWrite_fwd {z : State} (h : HSite) (l : RawLine) (s : State) (hC : z.Forward s) : z.Forward (siteWrite h l s) := by
  unfold siteWrite
  repeat' first
    | with_reducible assumption
    | with_reducible apply fwd_foldl
    | with_reducible apply State.updStack_fwd
    | intro _ _ _
    | intro _
    | dsimp only
    | split
    | (with_reducible apply fwd_misc; with_reducible first | assumption | apply State.updStack_fwd | apply fwd_foldl)

theorem hbmUe_fwd {z : State} (pa : Nat) (partial' : Bool) (s : State) (hC : z.Forward s) : z.Forward (hbmUe pa partial' s) := by
  unfold hbmUe
  repeat' first
    | with_reducible assumption
    | with_reducible apply logEvent_fwd

theorem hbmRead_fwd {z : State} (pa : Nat) (s : State) (hC : z.Forward s) : z.Forward ((hbmRead pa s).1) := by
  unfold hbmRead
  repeat' first
    | with_reducible assumption
    | with_reducible apply chatter_fwd
    | with_reducible apply chatterUe_fwd
    | with_reducible apply siteWrite_fwd
    | with_reducible apply hbmUe_fwd
    | intro _ _ _
    | intro _
    | dsimp only
    | split

theorem bedRead_fwd {z : State} (b off : Nat) (s : State) (hC : z.Forward s) : z.Forward ((bedRead b off s).1) := by
  unfold bedRead
  repeat' first
    | with_reducible assumption
    | with_reducible apply fwd_ite
    | with_reducible apply State.updBed_fwd
    | with_reducible apply chatter_fwd
    | with_reducible apply chatterUe_fwd
    | intro _ _ _
    | intro _
    | dsimp only
    | split

theorem lineRead_fwd {z : State} (pa : Nat) (s : State) (hC : z.Forward s) : z.Forward ((lineRead pa s).1) := by
  unfold lineRead
  repeat' first
    | with_reducible assumption
    | with_reducible apply hbmRead_fwd
    | with_reducible apply bedRead_fwd
    | intro _ _ _
    | intro _
    | dsimp only
    | split

theorem hbmWrite_fwd {z : State} (pa : Nat) (bytes : List Byte) (mask poison : Nat) (s : State) (hC : z.Forward s) : z.Forward (hbmWrite pa bytes mask poison s) := by
  unfold hbmWrite
  repeat' first
    | with_reducible assumption
    | with_reducible apply fwd_ite
    | with_reducible apply chatter_fwd
    | with_reducible apply chatterUe_fwd
    | with_reducible apply siteWrite_fwd
    | with_reducible apply hbmUe_fwd
    | intro _ _ _
    | intro _
    | dsimp only
    | split

theorem bedWrite_fwd {z : State} (b off : Nat) (bytes : List Byte) (mask poison : Nat) (s : State) (hC : z.Forward s) : z.Forward (bedWrite b off bytes mask poison s) := by
  unfold bedWrite
  repeat' first
    | with_reducible assumption
    | with_reducible apply fwd_ite
    | with_reducible apply State.updBed_fwd
    | with_reducible apply chatter_fwd
    | with_reducible apply chatterUe_fwd

theorem lineWrite_fwd {z : State} (pa : Nat) (bytes : List Byte) (mask poison : Nat) (s : State) (hC : z.Forward s) : z.Forward (lineWrite pa bytes mask poison s) := by
  unfold lineWrite
  repeat' first
    | with_reducible assumption
    | with_reducible apply hbmWrite_fwd
    | with_reducible apply bedWrite_fwd
    | intro _ _ _
    | intro _
    | dsimp only
    | split

theorem raceCheck_fwd {z : State} (b off : Nat) (w : Bool) (u t : Nat) (s : State) (hC : z.Forward s) : z.Forward ((raceCheck b off w u t s).1) := by
  unfold raceCheck
  repeat' first
    | with_reducible assumption
    | with_reducible apply fwd_ite
    | with_reducible apply State.updBed_fwd
    | with_reducible apply logEvent_fwd
    | with_reducible apply chatter_fwd
    | with_reducible apply chatterUe_fwd
    | intro _ _ _
    | intro _
    | dsimp only
    | split

theorem raceStop_fwd {z : State} (q b off u : Nat) (r : RaceResult) (s : State) (hC : z.Forward s) : z.Forward (raceStop q b off u r s) := by
  unfold raceStop
  repeat' first
    | with_reducible assumption
    | with_reducible apply logEvent_fwd
    | with_reducible apply faultPart_fwd
    | intro _ _ _
    | intro _
    | dsimp only
    | split

theorem updReg_fwd {z : State} (k q : Nat) (f : Regulator → Regulator) (s : State) (hC : z.Forward s) : z.Forward (updReg k q f s) := by
  unfold updReg
  repeat' first
    | with_reducible assumption
    | with_reducible apply State.updStack_fwd

theorem submit_fwd {z : State} (r : MemReq) (s : State) (hC : z.Forward s) : z.Forward (submit r s) := by
  unfold submit
  repeat' first
    | with_reducible assumption
    | with_reducible apply fwd_ite
    | with_reducible apply fwd_foldl
    | with_reducible apply State.updPart_fwd
    | with_reducible apply State.updBed_fwd
    | with_reducible apply State.emit_fwd
    | with_reducible apply updReg_fwd
    | intro _ _ _
    | intro _
    | dsimp only
    | split

theorem lineNow_fwd {z : State} (pa : Nat) (s : State) (hC : z.Forward s) : z.Forward ((lineNow pa s).1) := by
  unfold lineNow
  repeat' first
    | with_reducible assumption
    | with_reducible apply fwd_foldl
    | with_reducible apply lineRead_fwd

theorem purgeReqs_fwd {z : State} (q : Nat) (s : State) (hC : z.Forward s) : z.Forward (purgeReqs q s) := by
  unfold purgeReqs
  repeat' first
    | with_reducible assumption
    | with_reducible apply fwd_ite
    | intro _ _ _
    | intro _
    | dsimp only
    | split
    | (with_reducible apply fwd_misc; with_reducible first | assumption)

theorem entryRead_fwd {z : State} (q l va : Nat) (s : State) (hC : z.Forward s) : z.Forward (entryRead q l va s) := by
  unfold entryRead
  repeat' first
    | with_reducible assumption
    | with_reducible apply State.updPart_fwd
    | with_reducible apply chatter_fwd
    | with_reducible apply chatterUe_fwd
    | intro _ _ _
    | intro _
    | dsimp only
    | split

theorem walkRead_fwd {z : State} (q va : Nat) (write : Bool) (s : State) (hC : z.Forward s) : z.Forward ((walkRead q va write s).1) := by
  unfold walkRead
  repeat' first
    | with_reducible assumption
    | with_reducible apply fwd_foldl
    | with_reducible apply entryRead_fwd
    | intro _ _ _

theorem setTlb_fwd {z : State} (u : TlbUser) (l : List TlbEntry) (e : Bool) (s : State) (hC : z.Forward s) : z.Forward (setTlb u l e s) := by
  unfold setTlb
  repeat' first
    | with_reducible assumption
    | with_reducible apply State.updCore_fwd
    | with_reducible apply State.updDie_fwd
    | with_reducible apply State.updHs_fwd
    | intro _ _ _
    | intro _
    | dsimp only
    | split

theorem translate_fwd {z : State} (u : TlbUser) (q va : Nat) (write : Bool) (s : State) (hC : z.Forward s) : z.Forward ((translate u q va write s).1) := by
  unfold translate
  repeat' first
    | with_reducible assumption
    | with_reducible apply fwd_ite
    | with_reducible apply chatter_fwd
    | with_reducible apply walkRead_fwd
    | with_reducible apply setTlb_fwd
    | intro _ _ _
    | intro _
    | dsimp only
    | split

theorem lookupAll_fwd {z : State} (u : TlbUser) (q : Nat) (vas : List Nat) (s : State) (hC : z.Forward s) : z.Forward (lookupAll u q vas s) := by
  unfold lookupAll
  repeat' first
    | with_reducible assumption
    | with_reducible apply fwd_foldl
    | with_reducible apply translate_fwd
    | intro _ _ _

theorem translateFar_fwd {z : State} (u : TlbUser) (q va : Nat) (write : Bool) (s : State) (hC : z.Forward s) : z.Forward ((translateFar u q va write s).1) := by
  unfold translateFar
  repeat' first
    | with_reducible assumption
    | with_reducible apply fwd_ite
    | with_reducible apply translate_fwd
    | intro _ _ _
    | intro _
    | dsimp only
    | split

theorem invalidate_fwd {z : State} (q va len : Nat) (s : State) (hC : z.Forward s) : z.Forward (invalidate q va len s) := by
  unfold invalidate
  repeat' first
    | with_reducible assumption
    | with_reducible apply State.updHs_fwd
    | intro _ _ _
    | intro _
    | dsimp only
    | split
    | (with_reducible apply fwd_misc; with_reducible first | assumption | apply State.updHs_fwd)

theorem invalidateAll_fwd {z : State} (q : Nat) (s : State) (hC : z.Forward s) : z.Forward (invalidateAll q s) := by
  unfold invalidateAll
  repeat' first
    | with_reducible assumption
    | with_reducible apply invalidate_fwd

theorem countWindow_fwd {z : State} (d q va pa : Nat) (s : State) (hC : z.Forward s) : z.Forward (countWindow d q va pa s) := by
  unfold countWindow
  repeat' first
    | with_reducible assumption
    | with_reducible apply State.updDie_fwd
    | intro _ _ _
    | intro _
    | dsimp only
    | split

theorem tlbInstall_fwd {z : State} (u : TlbUser) (e : TlbEntry) (s : State) (hC : z.Forward s) : z.Forward (tlbInstall u e s) := by
  unfold tlbInstall
  repeat' first
    | with_reducible assumption
    | with_reducible apply fwd_ite
    | with_reducible apply setTlb_fwd

theorem storeUeEntry_fwd {z : State} (c w src : Nat) (how : CwHow) (s : State) (hC : z.Forward s) : z.Forward (storeUeEntry c w src how s) := by
  unfold storeUeEntry
  repeat' first
    | with_reducible assumption
    | with_reducible apply fwd_ite
    | with_reducible apply logEvent_fwd
    | intro _ _ _
    | intro _
    | dsimp only
    | split

theorem touch_fwd {z : State} (c w : Nat) (how : CwHow) (s : State) (hC : z.Forward s) : z.Forward (touch c w how s) := by
  unfold touch
  repeat' first
    | with_reducible assumption
    | with_reducible apply fwd_ite
    | with_reducible apply State.updCore_fwd
    | with_reducible apply chatter_fwd
    | with_reducible apply chatterUe_fwd
    | with_reducible apply storeUeEntry_fwd

theorem touchAll_fwd {z : State} (c : Nat) (ws : List Nat) (how : CwHow) (s : State) (hC : z.Forward s) : z.Forward (touchAll c ws how s) := by
  unfold touchAll
  repeat' first
    | with_reducible assumption
    | with_reducible apply fwd_foldl
    | with_reducible apply touch_fwd
    | intro _ _ _

theorem touchRun_fwd {z : State} (c w n : Nat) (s : State) (hC : z.Forward s) : z.Forward (touchRun c w n s) := by
  unfold touchRun
  repeat' first
    | with_reducible assumption
    | with_reducible apply touchAll_fwd

theorem readWord_fwd {z : State} (c w : Nat) (s : State) (hC : z.Forward s) : z.Forward ((readWord c w s).1) := by
  unfold readWord
  repeat' first
    | with_reducible assumption
    | with_reducible apply touch_fwd

theorem maskedWord_fwd {z : State} (c w mask : Nat) (new : List Byte) (tag : Tag) (s : State) (hC : z.Forward s) : z.Forward (maskedWord c w mask new tag s) := by
  unfold maskedWord
  repeat' first
    | with_reducible assumption
    | with_reducible apply fwd_ite
    | with_reducible apply State.updCore_fwd
    | with_reducible apply touch_fwd

theorem storeBytes_fwd {z : State} (c : Nat) (tag : Tag) (x0 : Nat) (x1 : Nat) (x2 : List Byte) (x3 : State) (hC : z.Forward x3) : z.Forward (storeBytes c tag x0 x1 x2 x3) := by
  induction x0 generalizing x1 x2 x3 with
  | zero =>
    unfold storeBytes
    repeat' first
      | with_reducible assumption
  | succ n ih =>
    unfold storeBytes
    repeat' first
      | with_reducible apply ih
      | with_reducible assumption
      | with_reducible apply fwd_ite
      | with_reducible apply maskedWord_fwd

theorem machineCheck_fwd {z : State} (c : Nat) (s : State) (hC : z.Forward s) : z.Forward (machineCheck c s) := by
  unfold machineCheck
  repeat' first
    | with_reducible assumption
    | with_reducible apply State.updCore_fwd
    | with_reducible apply chatter_fwd

theorem enter_fwd {z : State} (c : Nat) (e : Exc) (s : State) (hC : z.Forward s) : z.Forward (enter c e s) := by
  unfold enter
  repeat' first
    | with_reducible assumption
    | with_reducible apply State.updCore_fwd
    | with_reducible apply touchRun_fwd

theorem flushWcb_fwd {z : State} (c q : Nat) (p : WcbLine → Bool) (s : State) (hC : z.Forward s) : z.Forward (flushWcb c q p s) := by
  unfold flushWcb
  repeat' first
    | with_reducible assumption
    | with_reducible apply fwd_foldl
    | with_reducible apply State.updCore_fwd
    | with_reducible apply submit_fwd
    | intro _ _ _

theorem farParity_fwd {z : State} (c line : Nat) (s : State) (hC : z.Forward s) : z.Forward (farParity c line s) := by
  unfold farParity
  repeat' first
    | with_reducible assumption
    | with_reducible apply fwd_ite
    | with_reducible apply State.updCore_fwd
    | with_reducible apply chatter_fwd

theorem farStore_fwd {z : State} (c q va pa : Nat) (v : Word) (s : State) (hC : z.Forward s) : z.Forward (farStore c q va pa v s) := by
  unfold farStore
  repeat' first
    | with_reducible assumption
    | with_reducible apply fwd_ite
    | with_reducible apply State.updCore_fwd
    | with_reducible apply countWindow_fwd
    | with_reducible apply flushWcb_fwd
    | with_reducible apply farParity_fwd

theorem offerFill_fwd {z : State} (limit : Nat) (line : Nat) (bytes : List Byte) (s : State) (hC : z.Forward s) : z.Forward (offerFill limit line bytes s) := by
  unfold offerFill
  repeat' first
    | with_reducible assumption
    | with_reducible apply fwd_ite
    | with_reducible apply State.updBed_fwd
    | intro _ _ _
    | intro _
    | dsimp only
    | split

theorem dropBedCopy_fwd {z : State} (line : Nat) (s : State) (hC : z.Forward s) : z.Forward (dropBedCopy line s) := by
  unfold dropBedCopy
  repeat' first
    | with_reducible assumption
    | with_reducible apply State.updBed_fwd
    | intro _ _ _
    | intro _
    | dsimp only
    | split

theorem offerVictim_fwd {z : State} (v : CacheLine) (s : State) (hC : z.Forward s) : z.Forward (offerVictim v s) := by
  unfold offerVictim
  repeat' first
    | with_reducible assumption
    | with_reducible apply fwd_ite
    | with_reducible apply offerFill_fwd

theorem submitMiss_fwd {z : State} (c i : Nat) (r : MemReq) (s : State) (hC : z.Forward s) : z.Forward (submitMiss c i r s) := by
  unfold submitMiss
  repeat' first
    | with_reducible assumption
    | with_reducible apply fwd_ite
    | with_reducible apply State.updCore_fwd
    | with_reducible apply State.updBed_fwd
    | with_reducible apply submit_fwd
    | intro _ _ _
    | intro _
    | dsimp only
    | split

theorem requestLine_fwd {z : State} (c q : Nat) (n : FarNeed) (more : Nat) (s : State) (hC : z.Forward s) : z.Forward (requestLine c q n more s) := by
  unfold requestLine
  repeat' first
    | with_reducible assumption
    | with_reducible apply fwd_ite
    | with_reducible apply State.updCore_fwd
    | with_reducible apply countWindow_fwd
    | with_reducible apply flushWcb_fwd
    | with_reducible apply farParity_fwd
    | with_reducible apply submitMiss_fwd
    | intro _ _ _
    | intro _
    | dsimp only
    | split

theorem requestLines_fwd {z : State} (c q : Nat) (x0 : List FarNeed) (x1 : State) (hC : z.Forward x1) : z.Forward (requestLines c q x0 x1) := by
  induction x0 generalizing x1 with
  | nil =>
    unfold requestLines
    repeat' first
      | with_reducible assumption
  | cons a l ih =>
    unfold requestLines
    repeat' first
      | with_reducible apply ih
      | with_reducible assumption
      | with_reducible apply requestLine_fwd

theorem touchBundle_fwd {z : State} (c q : Nat) (full : Bool) (s : State) (hC : z.Forward s) : z.Forward (touchBundle c q full s) := by
  unfold touchBundle
  repeat' first
    | with_reducible assumption
    | with_reducible apply fwd_ite
    | with_reducible apply touchAll_fwd

theorem touchLoad_fwd {z : State} (c q : Nat) (s : State) (hC : z.Forward s) : z.Forward (touchLoad c q s) := by
  unfold touchLoad
  repeat' first
    | with_reducible assumption
    | with_reducible apply fwd_ite
    | with_reducible apply fwd_foldl
    | with_reducible apply State.updCore_fwd
    | with_reducible apply touchBundle_fwd
    | intro _ _ _
    | intro _
    | dsimp only
    | split

theorem applyFx_fwd {z : State} (c q : Nat) (s : State) (x0 : Fx) (hC : z.Forward s) : z.Forward (applyFx c q s x0) := by
  unfold applyFx
  repeat' first
    | with_reducible assumption
    | with_reducible apply fwd_ite
    | with_reducible apply fwd_foldl
    | with_reducible apply State.updCore_fwd
    | with_reducible apply State.updPart_fwd
    | with_reducible apply State.updDie_fwd
    | with_reducible apply State.drew_fwd
    | with_reducible apply countWindow_fwd
    | with_reducible apply maskedWord_fwd
    | with_reducible apply flushWcb_fwd
    | with_reducible apply farStore_fwd
    | intro _ _ _
    | intro _
    | dsimp only
    | split

theorem takeDelay_fwd {z : State} (c next : Nat) (d : Delay) (s : State) (hC : z.Forward s) : z.Forward (takeDelay c next d s) := by
  unfold takeDelay
  repeat' first
    | with_reducible assumption
    | with_reducible apply fwd_ite
    | with_reducible apply State.updCore_fwd
    | with_reducible apply enter_fwd
    | intro _ _ _
    | intro _
    | dsimp only
    | split

theorem commit_fwd {z : State} (c q next : Nat) (fx : List Fx) (s : State) (hC : z.Forward s) : z.Forward (commit c q next fx s) := by
  unfold commit
  repeat' first
    | with_reducible assumption
    | with_reducible apply fwd_ite
    | with_reducible apply fwd_foldl
    | with_reducible apply State.updCore_fwd
    | with_reducible apply State.drew_fwd
    | with_reducible apply flushWcb_fwd
    | with_reducible apply applyFx_fwd
    | with_reducible apply takeDelay_fwd
    | intro _ _ _
    | intro _
    | dsimp only
    | split

theorem takeImmediate_fwd {z : State} (c : Nat) (s : State) (hC : z.Forward s) : OptFwd z (takeImmediate c s) := by
  unfold takeImmediate
  repeat' first
    | with_reducible assumption
    | with_reducible apply fwd_ite
    | with_reducible apply fwd_getD
    | with_reducible apply fwdOpt_bind
    | with_reducible apply fwdOpt_map
    | with_reducible apply fwdOpt_ite
    | with_reducible exact fwdOpt_none
    | with_reducible apply fwdOpt_some
    | with_reducible apply State.updCore_fwd
    | with_reducible apply enter_fwd
    | intro _ _ _
    | intro _

theorem raiseImmediate_fwd {z : State} (c v : Nat) (s : State) (hC : z.Forward s) : z.Forward (raiseImmediate c v s) := by
  unfold raiseImmediate
  repeat' first
    | with_reducible assumption
    | with_reducible apply fwd_ite
    | with_reducible apply fwd_getD
    | with_reducible apply fwdOpt_bind
    | with_reducible apply fwdOpt_map
    | with_reducible apply fwdOpt_ite
    | with_reducible exact fwdOpt_none
    | with_reducible apply fwdOpt_some
    | with_reducible apply State.updCore_fwd
    | with_reducible apply takeImmediate_fwd

theorem takeHeld_fwd {z : State} (c : Nat) (s : State) (hC : z.Forward s) : OptFwd z (takeHeld c s) := by
  unfold takeHeld
  repeat' first
    | with_reducible assumption
    | with_reducible apply fwd_ite
    | with_reducible apply fwd_getD
    | with_reducible apply fwdOpt_bind
    | with_reducible apply fwdOpt_map
    | with_reducible apply fwdOpt_ite
    | with_reducible exact fwdOpt_none
    | with_reducible apply fwdOpt_some
    | with_reducible apply State.updCore_fwd
    | with_reducible apply enter_fwd
    | intro _ _ _
    | intro _

theorem takeHeldAtTwait_fwd {z : State} (c : Nat) (s : State) (hC : z.Forward s) : OptFwd z (takeHeldAtTwait c s) := by
  unfold takeHeldAtTwait
  repeat' first
    | with_reducible assumption
    | with_reducible apply fwd_ite
    | with_reducible apply fwd_getD
    | with_reducible apply fwdOpt_bind
    | with_reducible apply fwdOpt_map
    | with_reducible apply fwdOpt_ite
    | with_reducible exact fwdOpt_none
    | with_reducible apply fwdOpt_some
    | with_reducible apply State.updCore_fwd
    | with_reducible apply enter_fwd
    | intro _ _ _
    | intro _

theorem deliver_fwd {z : State} (c : Nat) (s : State) (hC : z.Forward s) : OptFwd z (deliver c s) := by
  unfold deliver
  repeat' first
    | with_reducible assumption
    | with_reducible apply fwd_ite
    | with_reducible apply fwd_getD
    | with_reducible apply fwdOpt_bind
    | with_reducible apply fwdOpt_map
    | with_reducible apply fwdOpt_ite
    | with_reducible exact fwdOpt_none
    | with_reducible apply fwdOpt_some
    | with_reducible apply takeImmediate_fwd
    | with_reducible apply takeHeld_fwd
    | with_reducible apply takeHeldAtTwait_fwd
    | intro _ _ _
    | intro _
    | dsimp only
    | split
    | (with_reducible apply fwd_misc; with_reducible first | assumption | apply takeImmediate_fwd | apply takeHeld_fwd | apply takeHeldAtTwait_fwd)
    | (refine fwd_of_opt (by with_reducible assumption) ?_)

theorem vfRead_fwd {z : State} (c : Nat) (s : State) (n : Nat) (hC : z.Forward s) : z.Forward (vfRead c s n) := by
  unfold vfRead
  repeat' first
    | with_reducible assumption
    | with_reducible apply fwd_ite
    | with_reducible apply State.updCore_fwd
    | with_reducible apply chatter_fwd

theorem vfReads_fwd {z : State} (c : Nat) (cs : List Nat) (s : State) (hC : z.Forward s) : OptFwd z (vfReads c cs s).1 ∧ z.Forward ((vfReads c cs s).2) := by
  unfold vfReads
  repeat' first
    | with_reducible apply And.intro
    | with_reducible assumption
    | with_reducible apply fwd_ite
    | with_reducible apply fwd_foldl
    | with_reducible apply fwd_getD
    | with_reducible apply fwdOpt_bind
    | with_reducible apply fwdOpt_map
    | with_reducible apply fwdOpt_ite
    | with_reducible exact fwdOpt_none
    | with_reducible apply fwdOpt_some
    | with_reducible apply chatterUe_fwd
    | with_reducible apply machineCheck_fwd
    | with_reducible apply vfRead_fwd
    | intro _ _ _
    | intro _
    | dsimp only
    | split

theorem syllRead_fwd {z : State} (c : Nat) (s : State) (i : Nat) (hC : z.Forward s) : z.Forward (syllRead c s i) := by
  unfold syllRead
  repeat' first
    | with_reducible assumption
    | with_reducible apply fwd_ite
    | with_reducible apply State.updCore_fwd
    | with_reducible apply chatter_fwd

theorem frontEnd_fwd {z : State} (c : Nat) (s : State) (hC : z.Forward s) : OptFwd z (frontEnd c s).1 ∧ z.Forward ((frontEnd c s).2) := by
  unfold frontEnd
  repeat' first
    | with_reducible apply And.intro
    | with_reducible assumption
    | with_reducible apply fwd_ite
    | with_reducible apply fwd_foldl
    | with_reducible apply fwd_getD
    | with_reducible apply fwdOpt_bind
    | with_reducible apply fwdOpt_map
    | with_reducible apply fwdOpt_ite
    | with_reducible exact fwdOpt_none
    | with_reducible apply fwdOpt_some
    | with_reducible apply State.updCore_fwd
    | with_reducible apply chatterUe_fwd
    | with_reducible apply machineCheck_fwd
    | with_reducible refine (vfReads_fwd _ _ _ ?_).1
    | with_reducible refine (vfReads_fwd _ _ _ ?_).2
    | with_reducible apply vfReads_fwd
    | with_reducible apply syllRead_fwd
    | intro _ _ _
    | intro _
    | dsimp only
    | split

theorem commitChecked_fwd {z : State} (c q next : Nat) (fx : List Fx) (s : State) (hC : z.Forward s) : z.Forward (commitChecked c q next fx s) := by
  unfold commitChecked
  repeat' first
    | with_reducible assumption
    | with_reducible apply fwd_getD
    | with_reducible apply fwdOpt_bind
    | with_reducible apply fwdOpt_map
    | with_reducible exact fwdOpt_none
    | with_reducible apply fwdOpt_some
    | with_reducible apply commit_fwd
    | with_reducible refine (vfReads_fwd _ _ _ ?_).1
    | with_reducible refine (vfReads_fwd _ _ _ ?_).2
    | with_reducible apply vfReads_fwd
    | intro _ _ _
    | intro _
    | dsimp only
    | split
    | (with_reducible apply fwd_misc; with_reducible first | assumption | apply commit_fwd | apply vfReads_fwd)
    | (refine fwd_of_pair (by with_reducible assumption) ?_)
    | (refine fwd_of_opt (by with_reducible assumption) ?_)
    | (refine fwdOpt_of_pair (by with_reducible assumption) ?_)
    | (refine fwd_of_fst (by with_reducible assumption) ?_)
    | (refine fwd_of_snd (by with_reducible assumption) ?_)

theorem carryOut_fwd {z : State} (c q : Nat) (full : Bool) (r : BunR) (next : Nat) (s : State) (hC : z.Forward s) : z.Forward (carryOut c q full r next s) := by
  unfold carryOut
  repeat' first
    | with_reducible assumption
    | with_reducible apply fwd_ite
    | with_reducible apply fwd_getD
    | with_reducible apply fwdOpt_bind
    | with_reducible apply fwdOpt_map
    | with_reducible apply fwdOpt_ite
    | with_reducible exact fwdOpt_none
    | with_reducible apply fwdOpt_some
    | with_reducible apply State.updCore_fwd
    | with_reducible apply lookupAll_fwd
    | with_reducible apply enter_fwd
    | with_reducible apply requestLines_fwd
    | with_reducible apply deliver_fwd
    | with_reducible apply commitChecked_fwd
    | intro _ _ _
    | intro _
    | dsimp only
    | split
    | (with_reducible apply fwd_misc; with_reducible first | assumption | apply State.updCore_fwd | apply lookupAll_fwd | apply enter_fwd | apply requestLines_fwd | apply deliver_fwd | apply commitChecked_fwd)
    | (refine fwd_of_opt (by with_reducible assumption) ?_)

theorem ownAction_fwd {z : State} (c q : Nat) (s : State) (hC : z.Forward s) : z.Forward (ownAction c q s) := by
  unfold ownAction
  repeat' first
    | with_reducible assumption
    | with_reducible apply fwd_foldl
    | with_reducible apply fwd_getD
    | with_reducible apply fwdOpt_bind
    | with_reducible apply fwdOpt_map
    | with_reducible exact fwdOpt_none
    | with_reducible apply fwdOpt_some
    | with_reducible apply State.updCore_fwd
    | with_reducible apply logEvent_fwd
    | with_reducible apply enter_fwd
    | with_reducible apply deliver_fwd
    | intro _ _ _
    | intro _
    | dsimp only
    | split

theorem twaitStep_fwd {z : State} (c q : Nat) (s : State) (hC : z.Forward s) : z.Forward (twaitStep c q s) := by
  unfold twaitStep
  repeat' first
    | with_reducible assumption
    | with_reducible apply fwd_ite
    | with_reducible apply fwd_getD
    | with_reducible apply fwdOpt_bind
    | with_reducible apply fwdOpt_map
    | with_reducible apply fwdOpt_ite
    | with_reducible exact fwdOpt_none
    | with_reducible apply fwdOpt_some
    | with_reducible apply takeImmediate_fwd
    | with_reducible apply ownAction_fwd
    | intro _ _ _
    | intro _
    | dsimp only
    | split
    | (with_reducible apply fwd_misc; with_reducible first | assumption | apply takeImmediate_fwd | apply ownAction_fwd)
    | (refine fwd_of_opt (by with_reducible assumption) ?_)

theorem bundleStep_fwd {z : State} (c q : Nat) (s : State) (hC : z.Forward s) : z.Forward (bundleStep c q s) := by
  unfold bundleStep
  repeat' first
    | with_reducible assumption
    | with_reducible apply fwd_ite
    | with_reducible apply fwd_getD
    | with_reducible apply fwdOpt_bind
    | with_reducible apply fwdOpt_map
    | with_reducible apply fwdOpt_ite
    | with_reducible exact fwdOpt_none
    | with_reducible apply fwdOpt_some
    | with_reducible apply touchBundle_fwd
    | with_reducible refine (frontEnd_fwd _ _ ?_).1
    | with_reducible refine (frontEnd_fwd _ _ ?_).2
    | with_reducible apply frontEnd_fwd
    | with_reducible apply carryOut_fwd
    | with_reducible apply twaitStep_fwd
    | intro _ _ _
    | intro _
    | dsimp only
    | split
    | (with_reducible apply fwd_misc; with_reducible first | assumption | apply touchBundle_fwd | apply frontEnd_fwd | apply carryOut_fwd | apply twaitStep_fwd)
    | (refine fwd_of_pair (by with_reducible assumption) ?_)
    | (refine fwd_of_opt (by with_reducible assumption) ?_)
    | (refine fwdOpt_of_pair (by with_reducible assumption) ?_)
    | (refine fwd_of_fst (by with_reducible assumption) ?_)
    | (refine fwd_of_snd (by with_reducible assumption) ?_)

theorem execBundleIssue_fwd {z : State} (c : CoreId) (env : Env) (s : State) (hC : z.Forward s) : ∀ t', execBundleIssue c env s = .next t' → z.Forward t' := by
  unfold execBundleIssue
  intro _ hE
  cases hE
  repeat' first
    | with_reducible assumption
    | with_reducible apply applyUpsets_fwd
    | with_reducible apply bundleStep_fwd
    | intro _ _ _
    | intro _
    | dsimp only
    | split

theorem faultPointStep_fwd {z : State} (c q : Nat) (s : State) (hC : z.Forward s) : z.Forward (faultPointStep c q s) := by
  unfold faultPointStep
  repeat' first
    | with_reducible assumption
    | with_reducible apply fwd_ite
    | with_reducible apply touchLoad_fwd
    | with_reducible apply carryOut_fwd

theorem execVectorLoadFaultPoint_fwd {z : State} (c : CoreId) (env : Env) (s : State) (hC : z.Forward s) : ∀ t', execVectorLoadFaultPoint c env s = .next t' → z.Forward t' := by
  unfold execVectorLoadFaultPoint
  intro _ hE
  cases hE
  repeat' first
    | with_reducible assumption
    | with_reducible apply applyUpsets_fwd
    | with_reducible apply faultPointStep_fwd
    | intro _ _ _
    | intro _
    | dsimp only
    | split

theorem execOwnActionDelivery_fwd {z : State} (c : CoreId) (s : State) (hC : z.Forward s) : ∀ t', execOwnActionDelivery c s = .next t' → z.Forward t' := by
  unfold execOwnActionDelivery
  intro _ hE
  cases hE
  repeat' first
    | with_reducible assumption
    | with_reducible apply fwd_ite
    | with_reducible apply twaitStep_fwd
    | intro _ _ _
    | intro _
    | dsimp only
    | split

theorem updBulk_fwd {z : State} (d q : Nat) (f : Bulk → Bulk) (s : State) (hC : z.Forward s) : z.Forward (updBulk d q f s) := by
  unfold updBulk
  repeat' first
    | with_reducible assumption
    | with_reducible apply State.updDie_fwd

theorem updTu_fwd {z : State} (q : Nat) (u : UnitRef) (f : TurnUnit → TurnUnit) (s : State) (hC : z.Forward s) : z.Forward (updTu q u f s) := by
  unfold updTu
  repeat' first
    | with_reducible assumption
    | with_reducible apply State.updCore_fwd
    | with_reducible apply State.updPart_fwd
    | with_reducible apply updReg_fwd
    | with_reducible apply updBulk_fwd
    | intro _ _ _
    | intro _
    | dsimp only
    | split

theorem bumpCounter_fwd {z : State} (q : Nat) (u : UnitRef) (ac by' : Nat) (s : State) (hC : z.Forward s) : z.Forward (bumpCounter q u ac by' s) := by
  unfold bumpCounter
  repeat' first
    | with_reducible assumption
    | with_reducible apply fwd_ite
    | with_reducible apply State.updCore_fwd
    | with_reducible apply State.updPart_fwd
    | with_reducible apply updTu_fwd

theorem coreEvent_fwd {z : State} (q c evt sel : Nat) (s : State) (hC : z.Forward s) : z.Forward (coreEvent q c evt sel s) := by
  unfold coreEvent
  repeat' first
    | with_reducible assumption
    | with_reducible apply fwd_ite
    | with_reducible apply fwd_foldl
    | with_reducible apply bumpCounter_fwd
    | intro _ _ _

theorem rxMsg_fwd {z : State} (q r turn : Nat) (m : Msg) (s : State) (hC : z.Forward s) : z.Forward (rxMsg q r turn m s) := by
  unfold rxMsg
  repeat' first
    | with_reducible assumption
    | with_reducible apply State.updCore_fwd
    | with_reducible apply coreEvent_fwd

theorem popMsg_fwd {z : State} (c i : Nat) (m : Msg) (s : State) (hC : z.Forward s) : z.Forward ((popMsg c i m s).1) := by
  unfold popMsg
  repeat' first
    | with_reducible assumption
    | with_reducible apply fwd_ite
    | with_reducible apply State.updCore_fwd

theorem acceptMsg_fwd {z : State} (q c i r : Nat) (m : Msg) (s : State) (hC : z.Forward s) : z.Forward (acceptMsg q c i r m s) := by
  unfold acceptMsg
  repeat' first
    | with_reducible assumption
    | with_reducible apply rxMsg_fwd
    | with_reducible apply popMsg_fwd

theorem sendOut_fwd {z : State} (q c dst chan : Nat) (s : State) (hC : z.Forward s) : z.Forward (sendOut q c dst chan s) := by
  unfold sendOut
  repeat' first
    | with_reducible assumption
    | with_reducible apply State.emit_fwd
    | with_reducible apply popMsg_fwd
    | intro _ _ _
    | intro _
    | dsimp only
    | split

theorem msgArrives_fwd {z : State} (q src dst chan : Nat) (word : TWord) (s : State) (hC : z.Forward s) : z.Forward (msgArrives q src dst chan word s) := by
  unfold msgArrives
  repeat' first
    | with_reducible assumption
    | with_reducible apply fwd_ite
    | with_reducible apply rxMsg_fwd
    | intro _ _ _
    | intro _
    | dsimp only
    | split

theorem execMessageAccept_fwd {z : State} (m : MsgStep) (env : Env) (s : State) (hC : z.Forward s) : ∀ t', execMessageAccept m env s = .next t' → z.Forward t' := by
  unfold execMessageAccept
  intro _ hE
  cases hE
  repeat' first
    | with_reducible assumption
    | with_reducible apply applyUpsets_fwd
    | with_reducible apply acceptMsg_fwd
    | with_reducible apply sendOut_fwd
    | with_reducible apply msgArrives_fwd
    | intro _ _ _
    | intro _
    | dsimp only
    | split

theorem execNotifyIncrement_fwd {z : State} (q : PartId) (s : State) (hC : z.Forward s) : ∀ t', execNotifyIncrement q s = .next t' → z.Forward t' := by
  unfold execNotifyIncrement
  intro _ hE
  cases hE
  repeat' first
    | with_reducible assumption
    | with_reducible apply fwd_ite
    | with_reducible apply State.updPart_fwd
    | with_reducible apply bumpCounter_fwd
    | intro _ _ _
    | intro _
    | dsimp only
    | split

theorem execHaltNotice_fwd {z : State} (c : CoreId) (s : State) (hC : z.Forward s) : ∀ t', execHaltNotice c s = .next t' → z.Forward t' := by
  unfold execHaltNotice
  intro _ hE
  cases hE
  repeat' first
    | with_reducible assumption
    | with_reducible apply fwd_ite
    | with_reducible apply State.updCore_fwd
    | with_reducible apply logEvent_fwd
    | with_reducible apply faultPart_fwd
    | intro _ _ _
    | intro _
    | dsimp only
    | split

theorem execPatrolScrub_fwd {z : State} (c : CoreId) (env : Env) (s : State) (hC : z.Forward s) : ∀ t', execPatrolScrub c env s = .next t' → z.Forward t' := by
  unfold execPatrolScrub
  intro _ hE
  cases hE
  repeat' first
    | with_reducible assumption
    | with_reducible apply fwd_ite
    | with_reducible apply State.updCore_fwd
    | with_reducible apply applyUpsets_fwd
    | with_reducible apply touchAll_fwd

theorem fwd_runst_of_pair {z : State} {β : Type} {p : RunSt × β} {a : RunSt} {b : β} (e : p = (a, b)) (h : z.Forward p.1.s) : z.Forward a.s := by
  subst e; exact h

theorem fwd_runst_foldl {z : State} {α : Type} {g : RunSt → α → RunSt} {l : List α} {r : RunSt} (h : z.Forward r.s)
    (hg : ∀ r a, z.Forward r.s → z.Forward ((g r a).s)) : z.Forward ((l.foldl g r).s) := by
  induction l generalizing r with
  | nil => exact h
  | cons x l ih => exact ih (hg _ _ h)

theorem fireRun_fwd {z : State} (c : Nat) (e : ArmEntry) (s : State) (hC : z.Forward s) : z.Forward (fireRun c e s) := by
  unfold fireRun
  repeat' first
    | with_reducible assumption
    | with_reducible apply State.updCore_fwd
    | with_reducible apply touchAll_fwd
    | with_reducible apply touchRun_fwd
    | intro _ _ _
    | intro _
    | dsimp only
    | split

theorem RunSt.start_fwd {z : State} (s : State) (hC : z.Forward s) : z.Forward ((RunSt.start s).s) := by
  unfold RunSt.start
  repeat' first
    | with_reducible assumption

theorem RunSt.flush_fwd {z : State} (c : Nat) (tag : Tag) (r : RunSt) (hC : z.Forward r.s) : z.Forward ((RunSt.flush c tag r).s) := by
  unfold RunSt.flush
  repeat' first
    | with_reducible assumption
    | with_reducible apply maskedWord_fwd
    | intro _ _ _
    | intro _
    | dsimp only
    | split

theorem readElem_fwd {z : State} (c : Nat) (tag : Tag) (t : Tensor) (ix : List Nat) (r : RunSt) (hC : z.Forward r.s) : z.Forward ((readElem c tag t ix r).1.s) := by
  unfold readElem
  repeat' first
    | with_reducible assumption
    | with_reducible apply fwd_ite
    | with_reducible apply touch_fwd
    | with_reducible apply RunSt.flush_fwd
    | intro _ _ _
    | intro _
    | dsimp only
    | split

theorem readInputs_fwd {z : State} (c : Nat) (tag : Tag) (d : RunDesc) (quiet : Bool) (e : Nat) (ix : List Nat) (x0 : List Nat) (x1 : List Nat) (x2 : RunSt) (hC : z.Forward x2.s) : z.Forward ((readInputs c tag d quiet e ix x0 x1 x2).1.s) := by
  induction x0 generalizing x1 x2 with
  | nil =>
    unfold readInputs
    repeat' first
      | with_reducible assumption
  | cons a l ih =>
    unfold readInputs
    repeat' first
      | with_reducible apply ih
      | with_reducible assumption
      | with_reducible apply fwd_ite
      | with_reducible apply readElem_fwd
      | intro _ _ _
      | intro _
      | dsimp only
      | split
      | (with_reducible apply fwd_misc; with_reducible first | assumption | apply readElem_fwd)
      | (refine fwd_of_pair (by with_reducible assumption) ?_)
      | with_reducible apply fwd_runst_foldl
      | (refine fwd_runst_of_pair (by with_reducible assumption) ?_)

theorem maskActive_fwd {z : State} (c : Nat) (tag : Tag) (d : RunDesc) (quiet : Bool) (e : Nat) (ix : List Nat) (r : RunSt) (hC : z.Forward r.s) : z.Forward ((maskActive c tag d quiet e ix r).1.s) := by
  unfold maskActive
  repeat' first
    | with_reducible assumption
    | with_reducible apply fwd_ite
    | with_reducible apply readElem_fwd
    | intro _ _ _
    | intro _
    | dsimp only
    | split
    | (with_reducible apply fwd_misc; with_reducible first | assumption | apply readElem_fwd)
    | (refine fwd_of_pair (by with_reducible assumption) ?_)
    | with_reducible apply fwd_runst_foldl
    | (refine fwd_runst_of_pair (by with_reducible assumption) ?_)

theorem writeElem_fwd {z : State} (c : Nat) (tag : Tag) (n a v : Nat) (r : RunSt) (hC : z.Forward r.s) : z.Forward ((writeElem c tag n a v r).s) := by
  unfold writeElem
  repeat' first
    | with_reducible assumption
    | with_reducible apply fwd_ite
    | with_reducible apply RunSt.flush_fwd
    | intro _ _ _
    | intro _
    | dsimp only
    | split

theorem observe_fwd {z : State} (e : Nat) (f : Nat) (r : RunSt) (hC : z.Forward r.s) : z.Forward ((observe e f r).s) := by
  unfold observe
  repeat' first
    | with_reducible assumption

theorem endElem_fwd {z : State} (c : Nat) (tag : Tag) (d : RunDesc) (rc : RunCx) (e : Nat) (ix : List Nat) (ev : EvSt) (r : RunSt) (hC : z.Forward r.s) : z.Forward ((endElem c tag d rc e ix ev r).s) := by
  unfold endElem
  repeat' first
    | with_reducible assumption
    | with_reducible apply fwd_ite
    | with_reducible apply writeElem_fwd
    | with_reducible apply observe_fwd
    | intro _ _ _
    | intro _
    | dsimp only
    | split

theorem runElem_fwd {z : State} (c : Nat) (tag : Tag) (d : RunDesc) (rc : RunCx) (r : RunSt) (e : Nat) (hC : z.Forward r.s) : z.Forward ((runElem c tag d rc r e).s) := by
  unfold runElem
  repeat' first
    | with_reducible assumption
    | with_reducible apply fwd_ite
    | with_reducible apply fwd_foldl
    | with_reducible apply RunSt.start_fwd
    | with_reducible apply readInputs_fwd
    | with_reducible apply maskActive_fwd
    | with_reducible apply endElem_fwd
    | intro _ _ _
    | intro _
    | dsimp only
    | split
    | (with_reducible apply fwd_misc; with_reducible first | assumption | apply RunSt.start_fwd | apply readInputs_fwd | apply maskActive_fwd | apply endElem_fwd | apply fwd_foldl)
    | (refine fwd_of_pair (by with_reducible assumption) ?_)
    | with_reducible apply fwd_runst_foldl
    | (refine fwd_runst_of_pair (by with_reducible assumption) ?_)

theorem wholeWords_fwd {z : State} (c : Nat) (tag : Tag) (r : RunSt) (hC : z.Forward r.s) : z.Forward (wholeWords c tag r) := by
  unfold wholeWords
  repeat' first
    | with_reducible assumption
    | with_reducible apply fwd_ite
    | with_reducible apply fwd_foldl
    | with_reducible apply State.updCore_fwd
    | intro _ _ _

theorem runAll_fwd {z : State} (c q : Nat) (j : RunJob) (s : State) (hC : z.Forward s) : z.Forward ((runAll c q j s).s) := by
  unfold runAll
  repeat' first
    | with_reducible assumption
    | with_reducible apply fwd_foldl
    | with_reducible apply RunSt.start_fwd
    | with_reducible apply RunSt.flush_fwd
    | with_reducible apply runElem_fwd
    | intro _ _ _
    | intro _
    | dsimp only
    | split
    | (with_reducible apply fwd_misc; with_reducible first | assumption | apply RunSt.start_fwd | apply RunSt.flush_fwd | apply runElem_fwd | apply fwd_foldl)
    | with_reducible apply fwd_runst_foldl

theorem endRun_fwd {z : State} (c q : Nat) (j : RunJob) (s : State) (hC : z.Forward s) : z.Forward (endRun c q j s) := by
  unfold endRun
  repeat' first
    | with_reducible assumption
    | with_reducible apply fwd_ite
    | with_reducible apply State.updCore_fwd
    | with_reducible apply coreEvent_fwd
    | with_reducible apply wholeWords_fwd
    | with_reducible apply runAll_fwd

theorem execTensorStreamComplete_fwd {z : State} (c : CoreId) (env : Env) (s : State) (hC : z.Forward s) : ∀ t', execTensorStreamComplete c env s = .next t' → z.Forward t' := by
  unfold execTensorStreamComplete
  intro _ hE
  cases hE
  repeat' first
    | with_reducible assumption
    | with_reducible apply fwd_ite
    | with_reducible apply applyUpsets_fwd
    | with_reducible apply endRun_fwd
    | intro _ _ _
    | intro _
    | dsimp only
    | split

theorem peekLines_fwd {z : State} (q : Nat) (x0 : Nat) (x1 : Nat) (x2 : State) (hC : z.Forward x2) : z.Forward ((peekLines q x0 x1 x2).1) := by
  induction x0 generalizing x1 x2 with
  | zero =>
    unfold peekLines
    repeat' first
      | with_reducible assumption
  | succ n ih =>
    unfold peekLines
    repeat' first
      | with_reducible apply ih
      | with_reducible assumption
      | with_reducible apply fwd_ite
      | with_reducible apply lineNow_fwd
      | with_reducible apply walkRead_fwd
      | intro _ _ _
      | intro _
      | dsimp only
      | split
      | (with_reducible apply fwd_misc; with_reducible first | assumption | apply lineNow_fwd | apply walkRead_fwd)
      | (refine fwd_of_pair (by with_reducible assumption) ?_)

theorem readTable_fwd {z : State} (q : Nat) (s : State) (hC : z.Forward s) : z.Forward ((readTable q s).1) := by
  unfold readTable
  repeat' first
    | with_reducible assumption
    | with_reducible apply peekLines_fwd
    | intro _ _ _
    | intro _
    | dsimp only
    | split
    | (with_reducible apply fwd_misc; with_reducible first | assumption | apply peekLines_fwd)
    | (refine fwd_of_pair (by with_reducible assumption) ?_)

theorem monitorTurn_fwd {z : State} (q : Nat) (s : State) (hC : z.Forward s) : z.Forward (monitorTurn q s) := by
  unfold monitorTurn
  repeat' first
    | with_reducible assumption
    | with_reducible apply fwd_ite
    | with_reducible apply State.updPart_fwd
    | with_reducible apply readTable_fwd

theorem execMonitorCounts_fwd {z : State} (q : PartId) (s : State) (hC : z.Forward s) : ∀ t', execMonitorCounts q s = .next t' → z.Forward t' := by
  unfold execMonitorCounts
  intro _ hE
  cases hE
  repeat' first
    | with_reducible assumption
    | with_reducible apply fwd_ite
    | with_reducible apply State.updCore_fwd
    | with_reducible apply State.updPart_fwd
    | intro _ _ _
    | intro _
    | dsimp only
    | split

theorem logXlate_fwd {z : State} (q va : Nat) (s : State) (hC : z.Forward s) : z.Forward ((logXlate q va s).1) := by
  unfold logXlate
  repeat' first
    | with_reducible assumption
    | with_reducible apply fwd_ite
    | with_reducible apply walkRead_fwd
    | intro _ _ _
    | intro _
    | dsimp only
    | split

theorem logPart_fwd {z : State} (q va : Nat) (bytes : List Byte) (e : TlbEntry) (s : State) (hC : z.Forward s) : z.Forward (logPart q va bytes e s) := by
  unfold logPart
  repeat' first
    | with_reducible assumption
    | with_reducible apply submit_fwd

theorem logFails_fwd {z : State} (q base cause : Nat) (s : State) (hC : z.Forward s) : z.Forward (logFails q base cause s) := by
  unfold logFails
  repeat' first
    | with_reducible assumption
    | with_reducible apply State.updPart_fwd
    | with_reducible apply logEvent_fwd

theorem logWrite_fwd {z : State} (q base size : Nat) (bytes : List Byte) (s : State) (hC : z.Forward s) : z.Forward (logWrite q base size bytes s) := by
  unfold logWrite
  repeat' first
    | with_reducible assumption
    | with_reducible apply fwd_ite
    | with_reducible apply State.updPart_fwd
    | with_reducible apply logXlate_fwd
    | with_reducible apply logPart_fwd
    | with_reducible apply logFails_fwd
    | intro _ _ _
    | intro _
    | dsimp only
    | split

theorem execNumericsLogWrite_fwd {z : State} (q : PartId) (s : State) (hC : z.Forward s) : ∀ t', execNumericsLogWrite q s = .next t' → z.Forward t' := by
  unfold execNumericsLogWrite
  intro _ hE
  cases hE
  repeat' first
    | with_reducible assumption
    | with_reducible apply logWrite_fwd
    | intro _ _ _
    | intro _
    | dsimp only
    | split

theorem recWrite_fwd {z : State} (q : Nat) (x0 : Nat) (x1 : Nat) (x2 : List Byte) (x3 : State) (hC : z.Forward x3) : z.Forward (recWrite q x0 x1 x2 x3) := by
  induction x0 generalizing x1 x2 x3 with
  | zero =>
    unfold recWrite
    repeat' first
      | with_reducible assumption
  | succ n ih =>
    unfold recWrite
    repeat' first
      | with_reducible apply ih
      | with_reducible assumption
      | with_reducible apply fwd_ite
      | with_reducible apply submit_fwd
      | with_reducible apply walkRead_fwd
      | intro _ _ _
      | intro _
      | dsimp only
      | split
      | (with_reducible apply fwd_misc; with_reducible first | assumption | apply submit_fwd | apply walkRead_fwd)
      | (refine fwd_of_pair (by with_reducible assumption) ?_)

theorem recPut_fwd {z : State} (q va : Nat) (bs : List Byte) (s : State) (hC : z.Forward s) : z.Forward (recPut q va bs s) := by
  unfold recPut
  repeat' first
    | with_reducible assumption
    | with_reducible apply recWrite_fwd

theorem recHead_fwd {z : State} (q : Nat) (s : State) (hC : z.Forward s) : z.Forward (recHead q s) := by
  unfold recHead
  repeat' first
    | with_reducible assumption
    | with_reducible apply recPut_fwd

theorem recAppend_fwd {z : State} (q : Nat) (bs : List Byte) (s : State) (hC : z.Forward s) : z.Forward (recAppend q bs s) := by
  unfold recAppend
  repeat' first
    | with_reducible assumption
    | with_reducible apply State.updPart_fwd
    | with_reducible apply recPut_fwd

theorem recStop_fwd {z : State} (q code : Nat) (s : State) (hC : z.Forward s) : z.Forward (recStop q code s) := by
  unfold recStop
  repeat' first
    | with_reducible assumption
    | with_reducible apply fwd_ite
    | with_reducible apply State.updPart_fwd
    | with_reducible apply recHead_fwd
    | with_reducible apply recAppend_fwd

theorem recItem_fwd {z : State} (q kind flags unit len turn key sub : Nat) (payload : List Byte) (s : State) (hC : z.Forward s) : z.Forward (recItem q kind flags unit len turn key sub payload s) := by
  unfold recItem
  repeat' first
    | with_reducible assumption
    | with_reducible apply fwd_ite
    | with_reducible apply recAppend_fwd
    | with_reducible apply recStop_fwd

theorem putTurnEnd_fwd {z : State} (q : Nat) (e : TurnEnd) (s : State) (hC : z.Forward s) : z.Forward (putTurnEnd q e s) := by
  unfold putTurnEnd
  repeat' first
    | with_reducible assumption
    | with_reducible apply fwd_ite
    | with_reducible apply State.updPart_fwd
    | with_reducible apply recHead_fwd
    | with_reducible apply recStop_fwd
    | with_reducible apply recItem_fwd

theorem recEnd_fwd {z : State} (q code : Nat) (s : State) (hC : z.Forward s) : z.Forward (recEnd q code s) := by
  unfold recEnd
  repeat' first
    | with_reducible assumption
    | with_reducible apply fwd_ite
    | with_reducible apply fwd_foldl
    | with_reducible apply State.updPart_fwd
    | with_reducible apply recStop_fwd
    | with_reducible apply putTurnEnd_fwd
    | intro _ _ _

theorem recInput_fwd {z : State} (q kind unit key sub : Nat) (content : List Byte) (s : State) (hC : z.Forward s) : z.Forward (recInput q kind unit key sub content s) := by
  unfold recInput
  repeat' first
    | with_reducible assumption
    | with_reducible apply fwd_ite
    | with_reducible apply recItem_fwd

theorem recStart_fwd {z : State} (q mode va len : Nat) (s : State) (hC : z.Forward s) : z.Forward (recStart q mode va len s) := by
  unfold recStart
  repeat' first
    | with_reducible assumption
    | with_reducible apply State.updPart_fwd
    | with_reducible apply recPut_fwd
    | with_reducible apply recItem_fwd

theorem recLine_fwd {z : State} (q unit va : Nat) (bytes : List Byte) (s : State) (hC : z.Forward s) : z.Forward (recLine q unit va bytes s) := by
  unfold recLine
  repeat' first
    | with_reducible assumption
    | with_reducible apply fwd_ite
    | with_reducible apply State.updPart_fwd
    | with_reducible apply recInput_fwd

theorem replayEnd_fwd {z : State} (q : Nat) (s : State) (hC : z.Forward s) : z.Forward (replayEnd q s) := by
  unfold replayEnd
  repeat' first
    | with_reducible assumption
    | with_reducible apply State.updPart_fwd
    | with_reducible apply State.updMbx_fwd
    | with_reducible apply State.drew_fwd
    | with_reducible apply stopWithin_fwd
    | intro _ _ _
    | intro _
    | dsimp only
    | split

theorem replayDiverge_fwd {z : State} (q turn unit stream : Nat) (s : State) (hC : z.Forward s) : z.Forward (replayDiverge q turn unit stream s) := by
  unfold replayDiverge
  repeat' first
    | with_reducible assumption
    | with_reducible apply State.updPart_fwd
    | with_reducible apply replayEnd_fwd

theorem replayLine_fwd {z : State} (q unit va pa : Nat) (y : Replay) (s : State) (hC : z.Forward s) : z.Forward ((replayLine q unit va pa y s).1) := by
  unfold replayLine
  repeat' first
    | with_reducible assumption
    | with_reducible apply fwd_ite
    | with_reducible apply State.updPart_fwd
    | with_reducible apply replayDiverge_fwd
    | intro _ _ _
    | intro _
    | dsimp only
    | split

theorem hostReadFails_fwd {z : State} (q unit va iova : Nat) (f : HostFail) (s : State) (hC : z.Forward s) : z.Forward (hostReadFails q unit va iova f s) := by
  unfold hostReadFails
  repeat' first
    | with_reducible assumption
    | with_reducible apply logEvent_fwd
    | with_reducible apply stopWithin_fwd

theorem hostLine_fwd {z : State} (q unit va pa iova : Nat) (env : Env) (s : State) (hC : z.Forward s) : z.Forward ((hostLine q unit va pa iova env s).1) := by
  unfold hostLine
  repeat' first
    | with_reducible assumption
    | with_reducible apply recLine_fwd
    | with_reducible apply replayLine_fwd
    | with_reducible apply hostReadFails_fwd
    | intro _ _ _
    | intro _
    | dsimp only
    | split

theorem countTurn_fwd {z : State} (q : Nat) (s : State) (hC : z.Forward s) : z.Forward (countTurn q s) := by
  unfold countTurn
  repeat' first
    | with_reducible assumption
    | with_reducible apply State.updPart_fwd

theorem compareTurn_fwd {z : State} (q : Nat) (e : TurnEnd) (y : Replay) (s : State) (hC : z.Forward s) : z.Forward (compareTurn q e y s) := by
  unfold compareTurn
  repeat' first
    | with_reducible assumption
    | with_reducible apply fwd_ite
    | with_reducible apply replayEnd_fwd
    | with_reducible apply replayDiverge_fwd
    | with_reducible apply countTurn_fwd
    | intro _ _ _
    | intro _
    | dsimp only
    | split

theorem execTurnEndItem_fwd {z : State} (q : PartId) (s : State) (hC : z.Forward s) : ∀ t', execTurnEndItem q s = .next t' → z.Forward t' := by
  unfold execTurnEndItem
  intro _ hE
  cases hE
  repeat' first
    | with_reducible assumption
    | with_reducible apply fwd_ite
    | with_reducible apply State.updPart_fwd
    | with_reducible apply putTurnEnd_fwd
    | with_reducible apply compareTurn_fwd
    | intro _ _ _
    | intro _
    | dsimp only
    | split

theorem feederGot_fwd {z : State} (c fire unit va : Nat) (l : Line) (s : State) (hC : z.Forward s) : z.Forward (feederGot c fire unit va l s) := by
  unfold feederGot
  repeat' first
    | with_reducible assumption
    | with_reducible apply State.updCore_fwd

theorem feederLost_fwd {z : State} (c fire : Nat) (s : State) (hC : z.Forward s) : z.Forward (feederLost c fire s) := by
  unfold feederLost
  repeat' first
    | with_reducible assumption
    | with_reducible apply State.updCore_fwd

theorem askLine_fwd {z : State} (c q fire unit va : Nat) (env : Env) (s : State) (hC : z.Forward s) : z.Forward ((askLine c q fire unit va env s).1) := by
  unfold askLine
  repeat' first
    | with_reducible assumption
    | with_reducible apply fwd_ite
    | with_reducible apply State.updCore_fwd
    | with_reducible apply submit_fwd
    | with_reducible apply translateFar_fwd
    | with_reducible apply countWindow_fwd
    | with_reducible apply tlbInstall_fwd
    | with_reducible apply hostLine_fwd
    | with_reducible apply feederLost_fwd
    | intro _ _ _
    | intro _
    | dsimp only
    | split
    | (with_reducible apply fwd_misc; with_reducible first | assumption | apply State.updCore_fwd | apply submit_fwd | apply translateFar_fwd | apply countWindow_fwd | apply tlbInstall_fwd | apply hostLine_fwd | apply feederLost_fwd)
    | (refine fwd_of_pair (by with_reducible assumption) ?_)

theorem bar2End_fwd {z : State} (p : PortId) (r : Bar2Read) (s : State) (hC : z.Forward s) : z.Forward (bar2End p r s) := by
  unfold bar2End
  repeat' first
    | with_reducible assumption
    | with_reducible apply fwd_ite
    | with_reducible apply State.emit_fwd
    | with_reducible apply portErr_fwd

theorem bar2Got_fwd {z : State} (p : PortId) (k line : Nat) (l : Line) (s : State) (hC : z.Forward s) : z.Forward (bar2Got p k line l s) := by
  unfold bar2Got
  repeat' first
    | with_reducible assumption
    | with_reducible apply fwd_ite
    | with_reducible apply State.updPort_fwd
    | with_reducible apply bar2End_fwd
    | intro _ _ _
    | intro _
    | dsimp only
    | split

theorem updStream_fwd {z : State} (q n : Nat) (f : Stream → Stream) (s : State) (hC : z.Forward s) : z.Forward (updStream q n f s) := by
  unfold updStream
  repeat' first
    | with_reducible assumption
    | with_reducible apply State.updPart_fwd

theorem frameGot_fwd {z : State} (q n va : Nat) (l : Line) (s : State) (hC : z.Forward s) : z.Forward (frameGot q n va l s) := by
  unfold frameGot
  repeat' first
    | with_reducible assumption
    | with_reducible apply fwd_ite
    | with_reducible apply updStream_fwd

theorem fwd_feedst_of_pair {z : State} {β : Type} {p : FeedSt × β} {a : FeedSt} {b : β} (e : p = (a, b)) (h : z.Forward p.1.s) : z.Forward a.s := by
  subst e; exact h

theorem matrixFault_fwd {z : State} (q c : Nat) (f : MFault) (s : State) (hC : z.Forward s) : z.Forward (matrixFault q c f s) := by
  unfold matrixFault
  repeat' first
    | with_reducible assumption
    | with_reducible apply fwd_ite
    | with_reducible apply State.updCore_fwd
    | with_reducible apply logEvent_fwd

theorem firePass_fwd {z : State} (q c : Nat) (e : ArmEntry) (s : State) (hC : z.Forward s) : z.Forward (firePass q c e s) := by
  unfold firePass
  repeat' first
    | with_reducible assumption
    | with_reducible apply State.updCore_fwd
    | with_reducible apply touchRun_fwd
    | with_reducible apply matrixFault_fwd
    | intro _ _ _
    | intro _
    | dsimp only
    | split

theorem startPass_fwd {z : State} (q c : Nat) (j : PassJob) (s : State) (hC : z.Forward s) : z.Forward (startPass q c j s) := by
  unfold startPass
  repeat' first
    | with_reducible assumption
    | with_reducible apply fwd_ite
    | with_reducible apply State.updCore_fwd
    | with_reducible apply flushWcb_fwd
    | with_reducible apply coreEvent_fwd
    | with_reducible apply matrixFault_fwd

theorem feedRead_fwd {z : State} (c : Nat) (tag : Tag) (unit n va : Nat) (f : FeedSt) (hC : z.Forward f.s) : z.Forward ((feedRead c tag unit n va f).1.s) := by
  unfold feedRead
  repeat' first
    | with_reducible assumption
    | with_reducible apply fwd_ite
    | with_reducible apply touch_fwd
    | intro _ _ _
    | intro _
    | dsimp only
    | split

theorem feedElem_fwd {z : State} (c : Nat) (d : PassDesc) (a : Bool) (i k : Nat) (f : FeedSt) (hC : z.Forward f.s) : z.Forward ((feedElem c d a i k f).1.s) := by
  unfold feedElem
  repeat' first
    | with_reducible assumption
    | with_reducible apply fwd_ite
    | with_reducible apply feedRead_fwd
    | intro _ _ _
    | intro _
    | dsimp only
    | split
    | (with_reducible apply fwd_misc; with_reducible first | assumption | apply feedRead_fwd)
    | (refine fwd_of_pair (by with_reducible assumption) ?_)
    | (refine fwd_feedst_of_pair (by with_reducible assumption) ?_)

theorem feedKs_fwd {z : State} (c : Nat) (d : PassDesc) (a : Bool) (i : Nat) (x0 : List Nat) (x1 : FeedSt) (x2 : List Fed) (hC : z.Forward x1.s) : z.Forward ((feedKs c d a i x0 x1 x2).1.s) := by
  induction x0 generalizing x1 x2 with
  | nil =>
    unfold feedKs
    repeat' first
      | with_reducible assumption
  | cons a l ih =>
    unfold feedKs
    repeat' first
      | with_reducible apply ih
      | with_reducible assumption
      | with_reducible apply feedElem_fwd

theorem feedRows_fwd {z : State} (c : Nat) (d : PassDesc) (a : Bool) (ks : List Nat) (x0 : List Nat) (x1 : FeedSt) (x2 : List (Nat × List Fed)) (hC : z.Forward x1.s) : z.Forward ((feedRows c d a ks x0 x1 x2).1.s) := by
  induction x0 generalizing x1 x2 with
  | nil =>
    unfold feedRows
    repeat' first
      | with_reducible assumption
  | cons a l ih =>
    unfold feedRows
    repeat' first
      | with_reducible apply ih
      | with_reducible assumption
      | with_reducible apply feedKs_fwd

theorem readBeat_fwd {z : State} (c : Nat) (d : PassDesc) (b : Nat) (f : FeedSt) (hC : z.Forward f.s) : z.Forward ((readBeat c d b f).1.s) := by
  unfold readBeat
  repeat' first
    | with_reducible assumption
    | with_reducible apply feedRows_fwd

theorem askAccs_fwd {z : State} (c q fire : Nat) (env : Env) (x0 : List (Nat × Nat)) (x1 : State) (hC : z.Forward x1) : z.Forward ((askAccs c q fire env x0 x1).1) := by
  induction x0 generalizing x1 with
  | nil =>
    unfold askAccs
    repeat' first
      | with_reducible assumption
      | with_reducible apply fwd_ite
      | with_reducible apply State.updCore_fwd
  | cons a l ih =>
    unfold askAccs
    repeat' first
      | with_reducible apply ih
      | with_reducible assumption
      | with_reducible apply fwd_ite
      | with_reducible apply State.updCore_fwd
      | with_reducible apply askLine_fwd
      | intro _ _ _
      | intro _
      | dsimp only
      | split
      | (with_reducible apply fwd_misc; with_reducible first | assumption | apply State.updCore_fwd | apply askLine_fwd)
      | (refine fwd_of_pair (by with_reducible assumption) ?_)

theorem askAhead_fwd {z : State} (c q fire : Nat) (env : Env) (x0 : Nat) (x1 : State) (hC : z.Forward x1) : z.Forward (askAhead c q fire env x0 x1) := by
  induction x0 generalizing x1 with
  | zero =>
    unfold askAhead
    repeat' first
      | with_reducible assumption
  | succ n ih =>
    unfold askAhead
    repeat' first
      | with_reducible apply ih
      | with_reducible assumption
      | with_reducible apply fwd_ite
      | with_reducible apply askAccs_fwd
      | intro _ _ _
      | intro _
      | dsimp only
      | split
      | (with_reducible apply fwd_misc; with_reducible first | assumption | apply askAccs_fwd)
      | (refine fwd_of_pair (by with_reducible assumption) ?_)

theorem pump_fwd {z : State} (c q fire : Nat) (env : Env) (lim : Nat) (x0 : Nat) (x1 : State) (hC : z.Forward x1) : z.Forward (pump c q fire env lim x0 x1) := by
  induction x0 generalizing x1 with
  | zero =>
    unfold pump
    repeat' first
      | with_reducible assumption
  | succ n ih =>
    unfold pump
    repeat' first
      | with_reducible apply ih
      | with_reducible assumption
      | with_reducible apply fwd_ite
      | with_reducible apply State.updCore_fwd
      | with_reducible apply readBeat_fwd
      | with_reducible apply askAhead_fwd
      | intro _ _ _
      | intro _
      | dsimp only
      | split

theorem feedPass_fwd {z : State} (c q : Nat) (env : Env) (lim : Nat) (j : PassJob) (s : State) (hC : z.Forward s) : z.Forward (feedPass c q env lim j s) := by
  unfold feedPass
  repeat' first
    | with_reducible assumption
    | with_reducible apply State.updCore_fwd
    | with_reducible apply pump_fwd

theorem feedStarted_fwd {z : State} (c : Nat) (env : Env) (s : State) (hC : z.Forward s) : z.Forward (feedStarted c env s) := by
  unfold feedStarted
  repeat' first
    | with_reducible assumption
    | with_reducible apply fwd_foldl
    | with_reducible apply feedPass_fwd
    | intro _ _ _
    | intro _
    | dsimp only
    | split

theorem execPassStart_fwd {z : State} (c : CoreId) (env : Env) (s : State) (hC : z.Forward s) : ∀ t', execPassStart c env s = .next t' → z.Forward t' := by
  unfold execPassStart
  intro _ hE
  cases hE
  repeat' first
    | with_reducible assumption
    | with_reducible apply fwd_ite
    | with_reducible apply applyUpsets_fwd
    | with_reducible apply startPass_fwd
    | with_reducible apply feedPass_fwd
    | with_reducible apply feedStarted_fwd
    | intro _ _ _
    | intro _
    | dsimp only
    | split

theorem feederLine_fwd {z : State} (c fire unit va : Nat) (l : Line) (env : Env) (s : State) (hC : z.Forward s) : z.Forward (feederLine c fire unit va l env s) := by
  unfold feederLine
  repeat' first
    | with_reducible assumption
    | with_reducible apply feederGot_fwd
    | with_reducible apply feedStarted_fwd

theorem freeEntries_fwd {z : State} (c : Nat) (keys : List Nat) (s : State) (hC : z.Forward s) : z.Forward (freeEntries c keys s) := by
  unfold freeEntries
  exact ⟨hC.pending, hC.out, Nat.le_trans hC.free (Nat.le_add_right _ _)⟩

theorem poisonTiles_fwd {z : State} (c : Nat) (ts : List Nat) (s : State) (hC : z.Forward s) : z.Forward (poisonTiles c ts s) := by
  unfold poisonTiles
  exact ⟨hC.pending, hC.out, Nat.le_trans hC.free (Nat.le_add_right _ _)⟩

theorem countParity_fwd {z : State} (c : Nat) (s : State) (hC : z.Forward s) : z.Forward (countParity c s) := by
  unfold countParity
  repeat' first
    | with_reducible assumption
    | with_reducible apply chatter_fwd

theorem retirePass_fwd {z : State} (c q : Nat) (j : PassJob) (s : State) (hC : z.Forward s) : z.Forward (retirePass c q j s) := by
  unfold retirePass
  repeat' first
    | with_reducible assumption
    | with_reducible apply State.updCore_fwd
    | with_reducible apply coreEvent_fwd

theorem abortPass_fwd {z : State} (c q : Nat) (j : PassJob) (sub : Nat) (addr : Word) (s : State) (hC : z.Forward s) : z.Forward (abortPass c q j sub addr s) := by
  unfold abortPass
  repeat' first
    | with_reducible assumption
    | with_reducible apply State.updCore_fwd
    | with_reducible apply coreEvent_fwd
    | with_reducible apply matrixFault_fwd
    | with_reducible apply poisonTiles_fwd

theorem losePass_fwd {z : State} (c : Nat) (j : PassJob) (s : State) (hC : z.Forward s) : z.Forward (losePass c j s) := by
  unfold losePass
  repeat' first
    | with_reducible assumption
    | with_reducible apply State.updCore_fwd
    | with_reducible apply poisonTiles_fwd

theorem execPassRetire_fwd {z : State} (c : CoreId) (env : Env) (s : State) (hC : z.Forward s) : ∀ t', execPassRetire c env s = .next t' → z.Forward t' := by
  unfold execPassRetire
  intro _ hE
  cases hE
  repeat' first
    | with_reducible assumption
    | with_reducible apply fwd_ite
    | with_reducible apply applyUpsets_fwd
    | with_reducible apply feedStarted_fwd
    | with_reducible apply retirePass_fwd
    | with_reducible apply losePass_fwd
    | intro _ _ _
    | intro _
    | dsimp only
    | split

theorem execPassAbort_fwd {z : State} (c : CoreId) (env : Env) (s : State) (hC : z.Forward s) : ∀ t', execPassAbort c env s = .next t' → z.Forward t' := by
  unfold execPassAbort
  intro _ hE
  cases hE
  repeat' first
    | with_reducible assumption
    | with_reducible apply fwd_ite
    | with_reducible apply applyUpsets_fwd
    | with_reducible apply feedStarted_fwd
    | with_reducible apply countParity_fwd
    | with_reducible apply abortPass_fwd
    | intro _ _ _
    | intro _
    | dsimp only
    | split

theorem fireDrain_fwd {z : State} (q c : Nat) (e : ArmEntry) (s : State) (hC : z.Forward s) : z.Forward (fireDrain q c e s) := by
  unfold fireDrain
  repeat' first
    | with_reducible assumption
    | with_reducible apply State.updCore_fwd
    | with_reducible apply touchRun_fwd
    | with_reducible apply matrixFault_fwd
    | intro _ _ _
    | intro _
    | dsimp only
    | split

theorem startFront_fwd {z : State} (q c : Nat) (j : DrainJob) (s : State) (hC : z.Forward s) : z.Forward (startFront q c j s) := by
  unfold startFront
  repeat' first
    | with_reducible assumption
    | with_reducible apply fwd_ite
    | with_reducible apply State.updCore_fwd
    | with_reducible apply touchAll_fwd
    | with_reducible apply coreEvent_fwd
    | with_reducible apply matrixFault_fwd
    | intro _ _ _
    | intro _
    | dsimp only
    | split

theorem execDrainFrontStart_fwd {z : State} (c : CoreId) (env : Env) (s : State) (hC : z.Forward s) : ∀ t', execDrainFrontStart c env s = .next t' → z.Forward t' := by
  unfold execDrainFrontStart
  intro _ hE
  cases hE
  repeat' first
    | with_reducible assumption
    | with_reducible apply fwd_ite
    | with_reducible apply applyUpsets_fwd
    | with_reducible apply startFront_fwd
    | intro _ _ _
    | intro _
    | dsimp only
    | split

theorem storeVals_fwd {z : State} (c : Nat) (tag : Tag) (n : Nat) (l : List (Nat × Nat)) (s : State) (hC : z.Forward s) : z.Forward (storeVals c tag n l s) := by
  unfold storeVals
  repeat' first
    | with_reducible assumption
    | with_reducible apply fwd_foldl
    | with_reducible apply maskedWord_fwd
    | intro _ _ _

theorem visitRow_fwd {z : State} (c : Nat) (j : DrainJob) (s : State) (hC : z.Forward s) : z.Forward (visitRow c j s) := by
  unfold visitRow
  repeat' first
    | with_reducible assumption
    | with_reducible apply fwd_ite
    | with_reducible apply fwd_foldl
    | with_reducible apply State.updCore_fwd
    | with_reducible apply storeVals_fwd

theorem faultRow_fwd {z : State} (q c : Nat) (j : DrainJob) (sub addr : Nat) (poison : Bool) (s : State) (hC : z.Forward s) : z.Forward (faultRow q c j sub addr poison s) := by
  unfold faultRow
  repeat' first
    | with_reducible assumption
    | with_reducible apply fwd_ite
    | with_reducible apply State.updCore_fwd
    | with_reducible apply matrixFault_fwd

theorem parityRow_fwd {z : State} (q c : Nat) (j : DrainJob) (s : State) (hC : z.Forward s) : z.Forward (parityRow q c j s) := by
  unfold parityRow
  repeat' first
    | with_reducible assumption
    | with_reducible apply State.updCore_fwd
    | with_reducible apply freeEntries_fwd
    | with_reducible apply countParity_fwd
    | with_reducible apply faultRow_fwd

theorem visit_fwd {z : State} (q c : Nat) (j : DrainJob) (s : State) (hC : z.Forward s) : z.Forward (visit q c j s) := by
  unfold visit
  repeat' first
    | with_reducible assumption
    | with_reducible apply fwd_ite
    | with_reducible apply touchAll_fwd
    | with_reducible apply visitRow_fwd
    | with_reducible apply faultRow_fwd
    | with_reducible apply parityRow_fwd
    | intro _ _ _
    | intro _
    | dsimp only
    | split

theorem execDrainRowVisit_fwd {z : State} (c : CoreId) (env : Env) (s : State) (hC : z.Forward s) : ∀ t', execDrainRowVisit c env s = .next t' → z.Forward t' := by
  unfold execDrainRowVisit
  intro _ hE
  cases hE
  repeat' first
    | with_reducible assumption
    | with_reducible apply applyUpsets_fwd
    | with_reducible apply visit_fwd
    | intro _ _ _
    | intro _
    | dsimp only
    | split

theorem execDrainComplete_fwd {z : State} (c : CoreId) (s : State) (hC : z.Forward s) : ∀ t', execDrainComplete c s = .next t' → z.Forward t' := by
  unfold execDrainComplete
  intro _ hE
  cases hE
  repeat' first
    | with_reducible assumption
    | with_reducible apply fwd_ite
    | with_reducible apply State.updCore_fwd
    | with_reducible apply coreEvent_fwd
    | intro _ _ _
    | intro _
    | dsimp only
    | split

theorem forwardDone_fwd {z : State} (q : Nat) (s : State) (hC : z.Forward s) : z.Forward (forwardDone q s) := by
  unfold forwardDone
  repeat' first
    | with_reducible assumption
    | with_reducible apply fwd_ite
    | with_reducible apply State.emit_fwd

theorem completeTurn_fwd {z : State} (q : Nat) (s : State) (hC : z.Forward s) : z.Forward (completeTurn q s) := by
  unfold completeTurn
  repeat' first
    | with_reducible assumption
    | with_reducible apply fwd_ite
    | with_reducible apply State.updPart_fwd
    | with_reducible apply monitorTurn_fwd
    | with_reducible apply forwardDone_fwd

theorem execTurnDone_fwd {z : State} (q : PartId) (u : UnitRef) (s : State) (hC : z.Forward s) : ∀ t', execTurnDone q u s = .next t' → z.Forward t' := by
  unfold execTurnDone
  intro _ hE
  cases hE
  repeat' first
    | with_reducible assumption
    | with_reducible apply fwd_ite
    | with_reducible apply updTu_fwd
    | with_reducible apply completeTurn_fwd

theorem startSweep_fwd {z : State} (q : Nat) (s : State) (hC : z.Forward s) : z.Forward (startSweep q s) := by
  unfold startSweep
  repeat' first
    | with_reducible assumption
    | with_reducible apply fwd_foldl
    | with_reducible apply State.updBed_fwd
    | intro _ _ _

theorem stopAt_fwd {z : State} (q : Nat) (how : StopHow) (stat : Nat) (incomplete : Bool) (s : State) (hC : z.Forward s) : z.Forward (stopAt q how stat incomplete s) := by
  unfold stopAt
  repeat' first
    | with_reducible assumption
    | with_reducible apply fwd_ite
    | with_reducible apply State.updPart_fwd
    | with_reducible apply notifyPart_fwd
    | with_reducible apply finishStop_fwd

theorem postNotice_fwd {z : State} (q kind turn va len : Nat) (s : State) (hC : z.Forward s) : z.Forward (postNotice q kind turn va len s) := by
  unfold postNotice
  repeat' first
    | with_reducible assumption
    | with_reducible apply fwd_ite
    | with_reducible apply fwd_foldl
    | with_reducible apply State.updCore_fwd
    | intro _ _ _

theorem applyChange_fwd {z : State} (q turn : Nat) (c : MapChange) (s : State) (hC : z.Forward s) : z.Forward (applyChange q turn c s) := by
  unfold applyChange
  repeat' first
    | with_reducible assumption
    | with_reducible apply fwd_ite
    | with_reducible apply State.updPart_fwd
    | with_reducible apply invalidate_fwd
    | with_reducible apply postNotice_fwd

theorem applyChanges_fwd {z : State} (q turn : Nat) (l : List MapChange) (s : State) (hC : z.Forward s) : z.Forward (applyChanges q turn l s) := by
  unfold applyChanges
  repeat' first
    | with_reducible assumption
    | with_reducible apply fwd_foldl
    | with_reducible apply State.updPart_fwd
    | with_reducible apply applyChange_fwd
    | intro _ _ _

theorem recordChanges_fwd {z : State} (q : Nat) (l : List MapChange) (s : State) (hC : z.Forward s) : z.Forward (recordChanges q l s) := by
  unfold recordChanges
  repeat' first
    | with_reducible assumption
    | with_reducible apply fwd_foldl
    | with_reducible apply recInput_fwd
    | intro _ _ _

theorem endOldRecord_fwd {z : State} (q : Nat) (s : State) (hC : z.Forward s) : z.Forward (endOldRecord q s) := by
  unfold endOldRecord
  repeat' first
    | with_reducible assumption
    | with_reducible apply fwd_ite
    | with_reducible apply recEnd_fwd

theorem applyRecord_fwd {z : State} (q : Nat) (s : State) (hC : z.Forward s) : z.Forward (applyRecord q s) := by
  unfold applyRecord
  repeat' first
    | with_reducible assumption
    | with_reducible apply fwd_ite
    | with_reducible apply State.updPart_fwd
    | with_reducible apply recStart_fwd
    | intro _ _ _
    | intro _
    | dsimp only
    | split

theorem applySeed_fwd {z : State} (q turn : Nat) (s : State) (hC : z.Forward s) : z.Forward (applySeed q turn s) := by
  unfold applySeed
  repeat' first
    | with_reducible assumption
    | with_reducible apply fwd_ite
    | with_reducible apply State.updPart_fwd
    | with_reducible apply recInput_fwd
    | intro _ _ _
    | intro _
    | dsimp only
    | split

theorem installMigrations_fwd {z : State} (q turn : Nat) (s : State) (hC : z.Forward s) : z.Forward (installMigrations q turn s) := by
  unfold installMigrations
  repeat' first
    | with_reducible assumption
    | with_reducible apply fwd_foldl
    | with_reducible apply State.updPart_fwd

theorem pokeBytes_fwd {z : State} (q : Nat) (x0 : Nat) (x1 : Nat) (x2 : List Byte) (x3 : State) (hC : z.Forward x3) : z.Forward (pokeBytes q x0 x1 x2 x3) := by
  induction x0 generalizing x1 x2 x3 with
  | zero =>
    unfold pokeBytes
    repeat' first
      | with_reducible assumption
  | succ n ih =>
    unfold pokeBytes
    repeat' first
      | with_reducible apply ih
      | with_reducible assumption
      | with_reducible apply fwd_ite
      | with_reducible apply lineWrite_fwd
      | intro _ _ _
      | intro _
      | dsimp only
      | split

theorem endTurn0_fwd {z : State} (q : Nat) (s : State) (hC : z.Forward s) : z.Forward (endTurn0 q s) := by
  unfold endTurn0
  repeat' first
    | with_reducible assumption
    | with_reducible apply pokeBytes_fwd
    | intro _ _ _
    | intro _
    | dsimp only
    | split

theorem sendSpur_fwd {z : State} (q : Nat) (s : State) (hC : z.Forward s) : z.Forward (sendSpur q s) := by
  unfold sendSpur
  repeat' first
    | with_reducible assumption
    | with_reducible apply fwd_ite
    | with_reducible apply State.emit_fwd

theorem broadcast_fwd {z : State} (q : Nat) (s : State) (hC : z.Forward s) : z.Forward (broadcast q s) := by
  unfold broadcast
  repeat' first
    | with_reducible assumption
    | with_reducible apply fwd_ite
    | with_reducible apply State.updPart_fwd
    | with_reducible apply startSweep_fwd
    | with_reducible apply applyChanges_fwd
    | with_reducible apply recordChanges_fwd
    | with_reducible apply endOldRecord_fwd
    | with_reducible apply applyRecord_fwd
    | with_reducible apply applySeed_fwd
    | with_reducible apply installMigrations_fwd
    | with_reducible apply endTurn0_fwd
    | with_reducible apply sendSpur_fwd

theorem masterSpur_fwd {z : State} (q : Nat) (s : State) (hC : z.Forward s) : z.Forward (masterSpur q s) := by
  unfold masterSpur
  repeat' first
    | with_reducible assumption
    | with_reducible apply fwd_ite
    | with_reducible apply replayDiverge_fwd
    | with_reducible apply stopAt_fwd
    | with_reducible apply broadcast_fwd

theorem takeSpur_fwd {z : State} (q : Nat) (u : UnitRef) (turn : Nat) (s : State) (hC : z.Forward s) : z.Forward (takeSpur q u turn s) := by
  unfold takeSpur
  repeat' first
    | with_reducible assumption
    | with_reducible apply State.updCore_fwd
    | with_reducible apply State.updPart_fwd
    | with_reducible apply updTu_fwd
    | intro _ _ _
    | intro _
    | dsimp only
    | split

theorem spurMismatch_fwd {z : State} (q : Nat) (u : UnitRef) (turn : Nat) (s : State) (hC : z.Forward s) : z.Forward (spurMismatch q u turn s) := by
  unfold spurMismatch
  repeat' first
    | with_reducible assumption
    | with_reducible apply logEvent_fwd
    | with_reducible apply faultPart_fwd
    | with_reducible apply raiseImmediate_fwd

theorem startPart_fwd {z : State} (q : Nat) (span : List SpanAnswer) (s : State) (hC : z.Forward s) : z.Forward (startPart q span s) := by
  unfold startPart
  repeat' first
    | with_reducible assumption
    | with_reducible apply fwd_ite
    | with_reducible apply fwd_foldl
    | with_reducible apply State.updPart_fwd

theorem memberStart_fwd {z : State} (q : Nat) (answers : List SpanAnswer) (s : State) (hC : z.Forward s) : z.Forward (memberStart q answers s) := by
  unfold memberStart
  repeat' first
    | with_reducible assumption
    | with_reducible apply fwd_ite
    | with_reducible apply startPart_fwd
    | intro _ _ _
    | intro _
    | dsimp only
    | split

theorem relaySpur_fwd {z : State} (q turn : Nat) (s : State) (hC : z.Forward s) : z.Forward (relaySpur q turn s) := by
  unfold relaySpur
  repeat' first
    | with_reducible assumption
    | with_reducible apply fwd_ite
    | with_reducible apply broadcast_fwd
    | with_reducible apply spurMismatch_fwd

theorem memberStop_fwd {z : State} (q : Nat) (s : State) (hC : z.Forward s) : z.Forward (memberStop q s) := by
  unfold memberStop
  repeat' first
    | with_reducible assumption
    | with_reducible apply fwd_ite
    | with_reducible apply stopAt_fwd

theorem execSpurBroadcast_fwd {z : State} (b : SpurFrom) (s : State) (hC : z.Forward s) : ∀ t', execSpurBroadcast b s = .next t' → z.Forward t' := by
  unfold execSpurBroadcast
  intro _ hE
  cases hE
  repeat' first
    | with_reducible assumption
    | with_reducible apply fwd_ite
    | with_reducible apply RunSt.start_fwd
    | with_reducible apply masterSpur_fwd
    | with_reducible apply memberStart_fwd
    | with_reducible apply relaySpur_fwd
    | with_reducible apply memberStop_fwd
    | intro _ _ _
    | intro _
    | dsimp only
    | split

theorem execSpurReceipt_fwd {z : State} (q : PartId) (u : UnitRef) (turn : Nat) (s : State) (hC : z.Forward s) : ∀ t', execSpurReceipt q u turn s = .next t' → z.Forward t' := by
  unfold execSpurReceipt
  intro _ hE
  cases hE
  repeat' first
    | with_reducible assumption
    | with_reducible apply fwd_ite
    | with_reducible apply takeSpur_fwd
    | with_reducible apply spurMismatch_fwd

theorem execQuiescentPointStop_fwd {z : State} (q : PartId) (s : State) (hC : z.Forward s) : ∀ t', execQuiescentPointStop q s = .next t' → z.Forward t' := by
  unfold execQuiescentPointStop
  intro _ hE
  cases hE
  repeat' first
    | with_reducible assumption
    | with_reducible apply fwd_ite
    | with_reducible apply stopAt_fwd

theorem execPartStopTimeout_fwd {z : State} (q : PartId) (s : State) (hC : z.Forward s) : ∀ t', execPartStopTimeout q s = .next t' → z.Forward t' := by
  unfold execPartStopTimeout
  intro _ hE
  cases hE
  repeat' first
    | with_reducible assumption
    | with_reducible apply fwd_ite
    | with_reducible apply stopWithin_fwd

theorem updMoves_fwd {z : State} (m : MoverRef) (q : Nat) (f : List MoveJob → List MoveJob) (s : State) (hC : z.Forward s) : z.Forward (updMoves m q f s) := by
  unfold updMoves
  repeat' first
    | with_reducible assumption
    | with_reducible apply State.updCore_fwd
    | with_reducible apply updBulk_fwd
    | intro _ _ _
    | intro _
    | dsimp only
    | split

theorem updHead_fwd {z : State} (m : MoverRef) (q : Nat) (f : MoveJob → MoveJob) (s : State) (hC : z.Forward s) : z.Forward (updHead m q f s) := by
  unfold updHead
  repeat' first
    | with_reducible assumption
    | with_reducible apply updMoves_fwd

theorem dropMove_fwd {z : State} (m : MoverRef) (q : Nat) (s : State) (hC : z.Forward s) : z.Forward (dropMove m q s) := by
  unfold dropMove
  repeat' first
    | with_reducible assumption
    | with_reducible apply moveNote_fwd
    | with_reducible apply updMoves_fwd
    | intro _ _ _
    | intro _
    | dsimp only
    | split

theorem refuseMove_fwd {z : State} (m : MoverRef) (q check : Nat) (j : MoveJob) (s : State) (hC : z.Forward s) : z.Forward (refuseMove m q check j s) := by
  unfold refuseMove
  repeat' first
    | with_reducible assumption
    | with_reducible apply logEvent_fwd
    | with_reducible apply faultPart_fwd
    | with_reducible apply dropMove_fwd

theorem copyWords_fwd {z : State} (c r : Nat) (d : MoveDesc) (n pos : Nat) (x : State × Nat) (hC : z.Forward x.1) :
    z.Forward ((copyWords c r d n pos x).1) := by
  induction n generalizing pos x with
  | zero => exact hC
  | succ n ih =>
    unfold copyWords
    apply ih
    apply State.updCore_fwd
    exact readWord_fwd _ _ _ hC

theorem storeRead_fwd {z : State} (c : Nat) (x0 : Nat) (x1 : Nat) (x2 : State) (hC : z.Forward x2) : z.Forward ((storeRead c x0 x1 x2).1) := by
  induction x0 generalizing x1 x2 with
  | zero =>
    unfold storeRead
    repeat' first
      | with_reducible assumption
  | succ n ih =>
    unfold storeRead
    repeat' first
      | with_reducible apply ih
      | with_reducible assumption
      | with_reducible apply fwd_ite
      | with_reducible apply readWord_fwd

theorem stallMove_fwd {z : State} (m : MoverRef) (q va : Nat) (write : Bool) (cause level te : Nat) (s : State) (hC : z.Forward s) : z.Forward (stallMove m q va write cause level te s) := by
  unfold stallMove
  repeat' first
    | with_reducible assumption
    | with_reducible apply updHead_fwd

theorem pieceDone_fwd {z : State} (m : MoverRef) (q n : Nat) (s : State) (hC : z.Forward s) : z.Forward (pieceDone m q n s) := by
  unfold pieceDone
  repeat' first
    | with_reducible assumption
    | with_reducible apply updHead_fwd

theorem takeLine_fwd {z : State} (m : MoverRef) (q : Nat) (d : MoveDesc) (pos want : Nat) (acc : List Byte) (bad : Nat) (l : Line) (s : State) (hC : z.Forward s) : z.Forward (takeLine m q d pos want acc bad l s) := by
  unfold takeLine
  repeat' first
    | with_reducible assumption
    | with_reducible apply fwd_ite
    | with_reducible apply updHead_fwd

theorem moveRead_fwd {z : State} (m : MoverRef) (q : Nat) (d : MoveDesc) (pos want : Nat) (acc : List Byte) (bad : Nat) (s : State) (hC : z.Forward s) : z.Forward (moveRead m q d pos want acc bad s) := by
  unfold moveRead
  repeat' first
    | with_reducible assumption
    | with_reducible apply submit_fwd
    | with_reducible apply translateFar_fwd
    | with_reducible apply countWindow_fwd
    | with_reducible apply tlbInstall_fwd
    | with_reducible apply flushWcb_fwd
    | with_reducible apply updHead_fwd
    | with_reducible apply stallMove_fwd
    | intro _ _ _
    | intro _
    | dsimp only
    | split
    | (with_reducible apply fwd_misc; with_reducible first | assumption | apply submit_fwd | apply translateFar_fwd | apply countWindow_fwd | apply tlbInstall_fwd | apply flushWcb_fwd | apply updHead_fwd | apply stallMove_fwd)
    | (refine fwd_of_pair (by with_reducible assumption) ?_)

theorem moveHost_fwd {z : State} (m : MoverRef) (q : Nat) (d : MoveDesc) (pos want : Nat) (acc : List Byte) (bad pa : Nat) (env : Env) (s : State) (hC : z.Forward s) : z.Forward ((moveHost m q d pos want acc bad pa env s).1) := by
  unfold moveHost
  repeat' first
    | with_reducible assumption
    | with_reducible apply hostLine_fwd
    | with_reducible apply dropMove_fwd
    | with_reducible apply takeLine_fwd
    | intro _ _ _
    | intro _
    | dsimp only
    | split
    | (with_reducible apply fwd_misc; with_reducible first | assumption | apply hostLine_fwd | apply dropMove_fwd | apply takeLine_fwd)
    | (refine fwd_of_pair (by with_reducible assumption) ?_)

theorem deliverWords_fwd {z : State} (q : Nat) (d : MoveDesc) (pos : Nat) (ws : List TWord) (s : State) (hC : z.Forward s) : z.Forward (deliverWords q d pos ws s) := by
  unfold deliverWords
  repeat' first
    | with_reducible assumption
    | with_reducible apply fwd_ite
    | with_reducible apply fwd_foldl
    | with_reducible apply State.updCore_fwd
    | intro _ _ _
    | intro _
    | dsimp only
    | split

theorem farZero_fwd {z : State} (c line : Nat) (ro : Bool) (s : State) (hC : z.Forward s) : z.Forward (farZero c line ro s) := by
  unfold farZero
  repeat' first
    | with_reducible assumption
    | with_reducible apply State.updCore_fwd
    | with_reducible apply offerVictim_fwd

theorem moveWrite_fwd {z : State} (m : MoverRef) (q : Nat) (d : MoveDesc) (pos : Nat) (bytes : List Byte) (bad : Bool) (s : State) (hC : z.Forward s) : z.Forward ((moveWrite m q d pos bytes bad s).1) := by
  unfold moveWrite
  repeat' first
    | with_reducible assumption
    | with_reducible apply fwd_ite
    | with_reducible apply State.updCore_fwd
    | with_reducible apply submit_fwd
    | with_reducible apply translateFar_fwd
    | with_reducible apply countWindow_fwd
    | with_reducible apply tlbInstall_fwd
    | with_reducible apply updHead_fwd
    | with_reducible apply stallMove_fwd
    | with_reducible apply pieceDone_fwd
    | with_reducible apply farZero_fwd
    | intro _ _ _
    | intro _
    | dsimp only
    | split
    | (with_reducible apply fwd_misc; with_reducible first | assumption | apply State.updCore_fwd | apply submit_fwd | apply translateFar_fwd | apply countWindow_fwd | apply tlbInstall_fwd | apply updHead_fwd | apply stallMove_fwd | apply pieceDone_fwd | apply farZero_fwd)
    | (refine fwd_of_pair (by with_reducible assumption) ?_)

theorem coreToFar_fwd {z : State} (m : MoverRef) (q : Nat) (c : Nat) (d : MoveDesc) (pos n : Nat) (s : State) (hC : z.Forward s) : z.Forward ((coreToFar m q c d pos n s).1) := by
  unfold coreToFar
  repeat' first
    | with_reducible assumption
    | with_reducible apply fwd_ite
    | with_reducible apply translateFar_fwd
    | with_reducible apply updHead_fwd
    | with_reducible apply storeRead_fwd
    | with_reducible apply stallMove_fwd
    | with_reducible apply moveWrite_fwd
    | intro _ _ _
    | intro _
    | dsimp only
    | split
    | (with_reducible apply fwd_misc; with_reducible first | assumption | apply translateFar_fwd | apply updHead_fwd | apply storeRead_fwd | apply stallMove_fwd | apply moveWrite_fwd)
    | (refine fwd_of_pair (by with_reducible assumption) ?_)

theorem servedNow_fwd {z : State} (m : MoverRef) (q : Nat) (s : State) (hC : z.Forward s) : z.Forward (servedNow m q s) := by
  unfold servedNow
  repeat' first
    | with_reducible assumption
    | with_reducible apply State.updDie_fwd
    | intro _ _ _
    | intro _
    | dsimp only
    | split

theorem movePiece_fwd {z : State} (m : MoverRef) (q : Nat) (d : MoveDesc) (pos : Nat) (s : State) (hC : z.Forward s) : z.Forward ((movePiece m q d pos s).1) := by
  unfold movePiece
  repeat' first
    | with_reducible assumption
    | with_reducible apply fwd_ite
    | with_reducible apply updHead_fwd
    | with_reducible apply copyWords_fwd
    | with_reducible apply pieceDone_fwd
    | with_reducible apply moveRead_fwd
    | with_reducible apply moveWrite_fwd
    | with_reducible apply coreToFar_fwd
    | intro _ _ _
    | intro _
    | dsimp only
    | split

theorem moveStep_fwd {z : State} (m : MoverRef) (q : Nat) (hostOk : Bool) (env : Env) (s : State) (hC : z.Forward s) : z.Forward ((moveStep m q hostOk env s).1) := by
  unfold moveStep
  repeat' first
    | with_reducible assumption
    | with_reducible apply fwd_ite
    | with_reducible apply pieceDone_fwd
    | with_reducible apply moveRead_fwd
    | with_reducible apply moveHost_fwd
    | with_reducible apply deliverWords_fwd
    | with_reducible apply moveWrite_fwd
    | with_reducible apply servedNow_fwd
    | with_reducible apply movePiece_fwd
    | intro _ _ _
    | intro _
    | dsimp only
    | split

theorem moveRun_fwd {z : State} (m : MoverRef) (q : Nat) (hostOk : Bool) (env : Env) (x0 : Nat) (x1 : State) (hC : z.Forward x1) : z.Forward (moveRun m q hostOk env x0 x1) := by
  induction x0 generalizing x1 with
  | zero =>
    unfold moveRun
    repeat' first
      | with_reducible assumption
  | succ n ih =>
    unfold moveRun
    repeat' first
      | with_reducible apply ih
      | with_reducible assumption
      | with_reducible apply moveStep_fwd
      | intro _ _ _
      | intro _
      | dsimp only
      | split
      | (with_reducible apply fwd_misc; with_reducible first | assumption | apply moveStep_fwd)
      | (refine fwd_of_pair (by with_reducible assumption) ?_)

theorem bulkRun_fwd {z : State} (d : Nat) (x0 : Nat) (x1 : State) (hC : z.Forward x1) : z.Forward (bulkRun d x0 x1) := by
  induction x0 generalizing x1 with
  | zero =>
    unfold bulkRun
    repeat' first
      | with_reducible assumption
  | succ n ih =>
    unfold bulkRun
    repeat' first
      | with_reducible apply ih
      | with_reducible assumption
      | with_reducible apply fwd_ite
      | with_reducible apply moveStep_fwd
      | intro _ _ _
      | intro _
      | dsimp only
      | split

theorem moveOn_fwd {z : State} (m : MoverRef) (q : Nat) (hostOk : Bool) (env : Env) (s : State) (hC : z.Forward s) : z.Forward (moveOn m q hostOk env s) := by
  unfold moveOn
  repeat' first
    | with_reducible assumption
    | with_reducible apply moveRun_fwd
    | with_reducible apply bulkRun_fwd
    | intro _ _ _
    | intro _
    | dsimp only
    | split

theorem startMove_fwd {z : State} (m : MoverRef) (q : Nat) (j : MoveJob) (s : State) (hC : z.Forward s) : z.Forward (startMove m q j s) := by
  unfold startMove
  repeat' first
    | with_reducible assumption
    | with_reducible apply touchRun_fwd
    | with_reducible apply updHead_fwd
    | with_reducible apply refuseMove_fwd
    | with_reducible apply moveOn_fwd
    | intro _ _ _
    | intro _
    | dsimp only
    | split

theorem execMoveStart_fwd {z : State} (m : MoverRef) (q : PartId) (env : Env) (s : State) (hC : z.Forward s) : ∀ t', execMoveStart m q env s = .next t' → z.Forward t' := by
  unfold execMoveStart
  intro _ hE
  cases hE
  repeat' first
    | with_reducible assumption
    | with_reducible apply fwd_ite
    | with_reducible apply applyUpsets_fwd
    | with_reducible apply startMove_fwd
    | intro _ _ _
    | intro _
    | dsimp only
    | split

theorem multicastOn_fwd {z : State} (m : MoverRef) (q : Nat) (x0 : Nat) (x1 : State) (hC : z.Forward x1) : z.Forward (multicastOn m q x0 x1) := by
  induction x0 generalizing x1 with
  | zero =>
    unfold multicastOn
    repeat' first
      | with_reducible assumption
  | succ n ih =>
    unfold multicastOn
    repeat' first
      | with_reducible apply ih
      | with_reducible assumption
      | with_reducible apply fwd_ite
      | with_reducible apply pieceDone_fwd
      | with_reducible apply deliverWords_fwd
      | intro _ _ _
      | intro _
      | dsimp only
      | split

theorem sourceLine_fwd {z : State} (m : MoverRef) (q va : Nat) (j : MoveJob) (s : State) (hC : z.Forward s) : z.Forward (sourceLine m q va j s) := by
  unfold sourceLine
  repeat' first
    | with_reducible assumption
    | with_reducible apply submit_fwd
    | with_reducible apply translateFar_fwd
    | with_reducible apply tlbInstall_fwd
    | with_reducible apply updHead_fwd
    | with_reducible apply refuseMove_fwd
    | with_reducible apply stallMove_fwd
    | intro _ _ _
    | intro _
    | dsimp only
    | split
    | (with_reducible apply fwd_misc; with_reducible first | assumption | apply submit_fwd | apply translateFar_fwd | apply tlbInstall_fwd | apply updHead_fwd | apply refuseMove_fwd | apply stallMove_fwd)
    | (refine fwd_of_pair (by with_reducible assumption) ?_)

theorem execMulticastSourceLine_fwd {z : State} (d : DieId) (q : PartId) (env : Env) (s : State) (hC : z.Forward s) : ∀ t', execMulticastSourceLine d q env s = .next t' → z.Forward t' := by
  unfold execMulticastSourceLine
  intro _ hE
  cases hE
  repeat' first
    | with_reducible assumption
    | with_reducible apply fwd_ite
    | with_reducible apply applyUpsets_fwd
    | with_reducible apply servedNow_fwd
    | with_reducible apply bulkRun_fwd
    | with_reducible apply sourceLine_fwd
    | intro _ _ _
    | intro _
    | dsimp only
    | split

theorem sendNotifies_fwd {z : State} (m : MoverRef) (q : Nat) (j : MoveJob) (s : State) (hC : z.Forward s) : z.Forward (sendNotifies m q j s) := by
  unfold sendNotifies
  repeat' first
    | with_reducible assumption
    | with_reducible apply fwd_ite
    | with_reducible apply State.updPart_fwd

theorem finishMove_fwd {z : State} (m : MoverRef) (q : Nat) (j : MoveJob) (s : State) (hC : z.Forward s) : z.Forward (finishMove m q j s) := by
  unfold finishMove
  repeat' first
    | with_reducible assumption
    | with_reducible apply State.updCore_fwd
    | with_reducible apply coreEvent_fwd
    | with_reducible apply dropMove_fwd
    | with_reducible apply sendNotifies_fwd
    | intro _ _ _
    | intro _
    | dsimp only
    | split

theorem execMoveComplete_fwd {z : State} (m : MoverRef) (q : PartId) (env : Env) (s : State) (hC : z.Forward s) : ∀ t', execMoveComplete m q env s = .next t' → z.Forward t' := by
  unfold execMoveComplete
  intro _ hE
  cases hE
  repeat' first
    | with_reducible assumption
    | with_reducible apply fwd_ite
    | with_reducible apply applyUpsets_fwd
    | with_reducible apply moveOn_fwd
    | with_reducible apply finishMove_fwd
    | intro _ _ _
    | intro _
    | dsimp only
    | split

theorem moverGot_fwd {z : State} (m : MoverRef) (q : Nat) (l : Line) (s : State) (hC : z.Forward s) : z.Forward (moverGot m q l s) := by
  unfold moverGot
  repeat' first
    | with_reducible assumption
    | with_reducible apply fwd_ite
    | with_reducible apply updHead_fwd
    | with_reducible apply takeLine_fwd
    | with_reducible apply moveOn_fwd
    | with_reducible apply multicastOn_fwd
    | intro _ _ _
    | intro _
    | dsimp only
    | split

theorem moverAck_fwd {z : State} (m : MoverRef) (q : Nat) (s : State) (hC : z.Forward s) : z.Forward (moverAck m q s) := by
  unfold moverAck
  repeat' first
    | with_reducible assumption
    | with_reducible apply pieceDone_fwd
    | with_reducible apply moveOn_fwd
    | intro _ _ _
    | intro _
    | dsimp only
    | split

theorem answerRead_fwd {z : State} (r : MemReq) (l : Line) (env : Env) (s : State) (hC : z.Forward s) : z.Forward (answerRead r l env s) := by
  unfold answerRead
  repeat' first
    | with_reducible assumption
    | with_reducible apply fwd_ite
    | with_reducible apply State.updCore_fwd
    | with_reducible apply bar2Got_fwd
    | with_reducible apply frameGot_fwd
    | with_reducible apply feederLine_fwd
    | with_reducible apply moverGot_fwd
    | intro _ _ _
    | intro _
    | dsimp only
    | split

theorem answerWrite_fwd {z : State} (r : MemReq) (s : State) (hC : z.Forward s) : z.Forward (answerWrite r s) := by
  unfold answerWrite
  repeat' first
    | with_reducible assumption
    | with_reducible apply moverAck_fwd
    | intro _ _ _
    | intro _
    | dsimp only
    | split

theorem answerNever_fwd {z : State} (r : MemReq) (s : State) (hC : z.Forward s) : z.Forward (answerNever r s) := by
  unfold answerNever
  repeat' first
    | with_reducible assumption
    | with_reducible apply feederLost_fwd
    | intro _ _ _
    | intro _
    | dsimp only
    | split

theorem bedServe_fwd {z : State} (b off : Nat) (r : MemReq) (env : Env) (s : State) (hC : z.Forward s) : z.Forward (bedServe b off r env s) := by
  unfold bedServe
  repeat' first
    | with_reducible assumption
    | with_reducible apply fwd_ite
    | with_reducible apply bedRead_fwd
    | with_reducible apply bedWrite_fwd
    | with_reducible apply answerRead_fwd
    | with_reducible apply answerWrite_fwd

theorem bedAccess_fwd {z : State} (b off : Nat) (r : MemReq) (env : Env) (s : State) (hC : z.Forward s) : z.Forward (bedAccess b off r env s) := by
  unfold bedAccess
  repeat' first
    | with_reducible assumption
    | with_reducible apply fwd_ite
    | with_reducible apply raceCheck_fwd
    | with_reducible apply raceStop_fwd
    | with_reducible apply answerNever_fwd
    | with_reducible apply bedServe_fwd
    | intro _ _ _
    | intro _
    | dsimp only
    | split
    | (with_reducible apply fwd_misc; with_reducible first | assumption | apply raceCheck_fwd | apply raceStop_fwd | apply answerNever_fwd | apply bedServe_fwd)
    | (refine fwd_of_pair (by with_reducible assumption) ?_)

theorem execBedStoreAccess_fwd {z : State} (b : BedId) (env : Env) (s : State) (hC : z.Forward s) : ∀ t', execBedStoreAccess b env s = .next t' → z.Forward t' := by
  unfold execBedStoreAccess
  intro _ hE
  cases hE
  repeat' first
    | with_reducible assumption
    | with_reducible apply State.updBed_fwd
    | with_reducible apply applyUpsets_fwd
    | with_reducible apply bedAccess_fwd
    | intro _ _ _
    | intro _
    | dsimp only
    | split

theorem sweepUe_fwd {z : State} (b line q : Nat) (s : State) (hC : z.Forward s) : z.Forward (sweepUe b line q s) := by
  unfold sweepUe
  repeat' first
    | with_reducible assumption
    | with_reducible apply fwd_ite
    | with_reducible apply logEvent_fwd
    | with_reducible apply faultPart_fwd
    | with_reducible apply chatterUe_fwd

theorem sweepLine_fwd {z : State} (b line q : Nat) (s : State) (hC : z.Forward s) : z.Forward (sweepLine b line q s) := by
  unfold sweepLine
  repeat' first
    | with_reducible assumption
    | with_reducible apply fwd_ite
    | with_reducible apply State.updBed_fwd
    | with_reducible apply chatter_fwd
    | with_reducible apply sweepUe_fwd

theorem execSweepVisit_fwd {z : State} (b : BedId) (s : State) (hC : z.Forward s) : ∀ t', execSweepVisit b s = .next t' → z.Forward t' := by
  unfold execSweepVisit
  intro _ hE
  cases hE
  repeat' first
    | with_reducible assumption
    | with_reducible apply sweepLine_fwd
    | intro _ _ _
    | intro _
    | dsimp only
    | split

theorem execBedCacheFill_fwd {z : State} (b : BedId) (s : State) (hC : z.Forward s) : ∀ t', execBedCacheFill b s = .next t' → z.Forward t' := by
  unfold execBedCacheFill
  intro _ hE
  cases hE
  repeat' first
    | with_reducible assumption
    | with_reducible apply State.updBed_fwd

theorem fillFar_fwd {z : State} (c i : Nat) (m : Mshr) (l : Line) (s : State) (hC : z.Forward s) : z.Forward (fillFar c i m l s) := by
  unfold fillFar
  repeat' first
    | with_reducible assumption
    | with_reducible apply fwd_ite
    | with_reducible apply State.updCore_fwd
    | with_reducible apply offerVictim_fwd

theorem execFarCacheFill_fwd {z : State} (c : CoreId) (reg : Fin 8) (env : Env) (s : State) (hC : z.Forward s) : ∀ t', execFarCacheFill c reg env s = .next t' → z.Forward t' := by
  unfold execFarCacheFill
  intro _ hE
  cases hE
  repeat' first
    | with_reducible assumption
    | with_reducible apply State.updCore_fwd
    | with_reducible apply applyUpsets_fwd
    | with_reducible apply hostLine_fwd
    | with_reducible apply fillFar_fwd
    | intro _ _ _
    | intro _
    | dsimp only
    | split
    | (with_reducible apply fwd_misc; with_reducible first | assumption | apply State.updCore_fwd | apply applyUpsets_fwd | apply hostLine_fwd | apply fillFar_fwd)
    | (refine fwd_of_pair (by with_reducible assumption) ?_)

theorem execRegulatorRelease_fwd {z : State} (k : StackId) (q : PartId) (s : State) (hC : z.Forward s) : ∀ t', execRegulatorRelease k q s = .next t' → z.Forward t' := by
  unfold execRegulatorRelease
  intro _ hE
  cases hE
  repeat' first
    | with_reducible assumption
    | with_reducible apply fwd_ite
    | with_reducible apply State.updStack_fwd
    | with_reducible apply updReg_fwd
    | intro _ _ _
    | intro _
    | dsimp only
    | split

theorem execHbmQueueEntry_fwd {z : State} (k : StackId) (pc : Fin 64) (s : State) (hC : z.Forward s) : ∀ t', execHbmQueueEntry k pc s = .next t' → z.Forward t' := by
  unfold execHbmQueueEntry
  intro _ hE
  cases hE
  repeat' first
    | with_reducible assumption
    | with_reducible apply fwd_ite
    | with_reducible apply State.updStack_fwd
    | with_reducible apply dropBedCopy_fwd
    | with_reducible apply answerWrite_fwd
    | intro _ _ _
    | intro _
    | dsimp only
    | split

theorem countServed_fwd {z : State} (k pc : Nat) (s : State) (hC : z.Forward s) : z.Forward (countServed k pc s) := by
  unfold countServed
  repeat' first
    | with_reducible assumption
    | with_reducible apply fwd_ite
    | with_reducible apply State.updStack_fwd

theorem serveHbm_fwd {z : State} (k pc : Nat) (r : MemReq) (env : Env) (s : State) (hC : z.Forward s) : z.Forward (serveHbm k pc r env s) := by
  unfold serveHbm
  repeat' first
    | with_reducible assumption
    | with_reducible apply fwd_ite
    | with_reducible apply hbmRead_fwd
    | with_reducible apply hbmWrite_fwd
    | with_reducible apply offerFill_fwd
    | with_reducible apply answerRead_fwd
    | with_reducible apply countServed_fwd
    | intro _ _ _
    | intro _
    | dsimp only
    | split

theorem execHbmServe_fwd {z : State} (k : StackId) (pc : Fin 64) (idx : Nat) (env : Env) (s : State) (hC : z.Forward s) : ∀ t', execHbmServe k pc idx env s = .next t' → z.Forward t' := by
  unfold execHbmServe
  intro _ hE
  cases hE
  repeat' first
    | with_reducible assumption
    | with_reducible apply fwd_ite
    | with_reducible apply State.updStack_fwd
    | with_reducible apply applyUpsets_fwd
    | with_reducible apply serveHbm_fwd
    | intro _ _ _
    | intro _
    | dsimp only
    | split

theorem passOver_fwd {z : State} (k pc n : Nat) (s : State) (hC : z.Forward s) : z.Forward (passOver k pc n s) := by
  unfold passOver
  repeat' first
    | with_reducible assumption
    | with_reducible apply State.updStack_fwd

theorem copyLine_fwd {z : State} (k : Nat) (c : RowCopy) (s : State) (hC : z.Forward s) : z.Forward (copyLine k c s) := by
  unfold copyLine
  repeat' first
    | with_reducible assumption
    | with_reducible apply fwd_ite
    | with_reducible apply State.updStack_fwd
    | with_reducible apply chatter_fwd
    | with_reducible apply chatterUe_fwd
    | with_reducible apply siteWrite_fwd
    | with_reducible apply hbmUe_fwd
    | intro _ _ _
    | intro _
    | dsimp only
    | split

theorem execRemapLineCopy_fwd {z : State} (k : StackId) (env : Env) (s : State) (hC : z.Forward s) : ∀ t', execRemapLineCopy k env s = .next t' → z.Forward t' := by
  unfold execRemapLineCopy
  intro _ hE
  cases hE
  repeat' first
    | with_reducible assumption
    | with_reducible apply fwd_ite
    | with_reducible apply applyUpsets_fwd
    | with_reducible apply passOver_fwd
    | with_reducible apply copyLine_fwd
    | intro _ _ _
    | intro _
    | dsimp only
    | split

theorem startPending_fwd {z : State} (k : Nat) (x0 : Nat) (x1 : State) (hC : z.Forward x1) : z.Forward (startPending k x0 x1) := by
  induction x0 generalizing x1 with
  | zero =>
    unfold startPending
    repeat' first
      | with_reducible assumption
  | succ n ih =>
    unfold startPending
    repeat' first
      | with_reducible apply ih
      | with_reducible assumption
      | with_reducible apply fwd_ite
      | with_reducible apply State.updStack_fwd
      | with_reducible apply rowLasting_fwd
      | intro _ _ _
      | intro _
      | dsimp only
      | split

theorem rowRepaired_fwd {z : State} (k : Nat) (r : HRow) (s : State) (hC : z.Forward s) : z.Forward (rowRepaired k r s) := by
  unfold rowRepaired
  repeat' first
    | with_reducible assumption
    | intro _ _ _
    | intro _
    | dsimp only
    | split
    | (with_reducible apply fwd_misc; with_reducible first | assumption)

theorem execRemapFlip_fwd {z : State} (k : StackId) (s : State) (hC : z.Forward s) : ∀ t', execRemapFlip k s = .next t' → z.Forward t' := by
  unfold execRemapFlip
  intro _ hE
  cases hE
  repeat' first
    | with_reducible assumption
    | with_reducible apply fwd_ite
    | with_reducible apply State.updStack_fwd
    | with_reducible apply logEvent_fwd
    | with_reducible apply startPending_fwd
    | with_reducible apply rowRepaired_fwd
    | intro _ _ _
    | intro _
    | dsimp only
    | split

theorem persistRemaps_fwd {z : State} (k : Nat) (s : State) (hC : z.Forward s) : z.Forward (persistRemaps k s) := by
  unfold persistRemaps
  repeat' first
    | with_reducible assumption
    | with_reducible apply State.updStack_fwd
    | with_reducible apply State.updFlash_fwd

theorem persistCores_fwd {z : State} (s : State) (hC : z.Forward s) : z.Forward (persistCores s) := by
  unfold persistCores
  repeat' first
    | with_reducible assumption
    | with_reducible apply State.updFlash_fwd

theorem execRemapPersist_fwd {z : State} (k : StackId) (s : State) (hC : z.Forward s) : ∀ t', execRemapPersist k s = .next t' → z.Forward t' := by
  unfold execRemapPersist
  intro _ hE
  cases hE
  repeat' first
    | with_reducible assumption
    | with_reducible apply fwd_ite
    | with_reducible apply persistRemaps_fwd
    | with_reducible apply persistCores_fwd

theorem patrolLine_fwd {z : State} (k n pc : Nat) (s : State) (hC : z.Forward s) : z.Forward (patrolLine k n pc s) := by
  unfold patrolLine
  repeat' first
    | with_reducible assumption
    | with_reducible apply hbmRead_fwd
    | with_reducible apply passOver_fwd

theorem execHbmPatrolScrub_fwd {z : State} (k : StackId) (env : Env) (s : State) (hC : z.Forward s) : ∀ t', execHbmPatrolScrub k env s = .next t' → z.Forward t' := by
  unfold execHbmPatrolScrub
  intro _ hE
  cases hE
  repeat' first
    | with_reducible assumption
    | with_reducible apply fwd_ite
    | with_reducible apply fwd_foldl
    | with_reducible apply State.updStack_fwd
    | with_reducible apply applyUpsets_fwd
    | with_reducible apply patrolLine_fwd
    | intro _ _ _

theorem execTlbWalk_fwd {z : State} (t : TlbUser) (q : PartId) (va : Nat) (write : Bool) (env : Env) (s : State) (hC : z.Forward s) : ∀ t', execTlbWalk t q va write env s = .next t' → z.Forward t' := by
  unfold execTlbWalk
  intro _ hE
  cases hE
  repeat' first
    | with_reducible assumption
    | with_reducible apply fwd_ite
    | with_reducible apply applyUpsets_fwd
    | with_reducible apply translate_fwd
    | with_reducible apply tlbInstall_fwd
    | intro _ _ _
    | intro _
    | dsimp only
    | split
    | (with_reducible apply fwd_misc; with_reducible first | assumption | apply applyUpsets_fwd | apply translate_fwd | apply tlbInstall_fwd)
    | (refine fwd_of_pair (by with_reducible assumption) ?_)

theorem putFault_fwd {z : State} (d e q n : Nat) (y : FqEntry) (s : State) (hC : z.Forward s) : z.Forward (putFault d e q n y s) := by
  unfold putFault
  repeat' first
    | with_reducible assumption
    | with_reducible apply State.updDie_fwd
    | with_reducible apply updHead_fwd

theorem enterFault_fwd {z : State} (d e : Nat) (s : State) (hC : z.Forward s) : OptFwd z (enterFault d e s) := by
  unfold enterFault
  repeat' first
    | with_reducible assumption
    | with_reducible apply fwd_getD
    | with_reducible apply fwdOpt_bind
    | with_reducible apply fwdOpt_map
    | with_reducible exact fwdOpt_none
    | with_reducible apply fwdOpt_some
    | with_reducible apply putFault_fwd
    | intro _ _ _
    | intro _
    | dsimp only
    | split

theorem enterStalled_fwd {z : State} (d : Nat) (x0 : Nat) (x1 : State) (hC : z.Forward x1) : z.Forward (enterStalled d x0 x1) := by
  induction x0 generalizing x1 with
  | zero =>
    unfold enterStalled
    repeat' first
      | with_reducible assumption
  | succ n ih =>
    unfold enterStalled
    repeat' first
      | with_reducible apply ih
      | with_reducible assumption
      | with_reducible apply fwd_ite
      | with_reducible apply fwd_getD
      | with_reducible apply fwdOpt_bind
      | with_reducible apply fwdOpt_map
      | with_reducible apply fwdOpt_ite
      | with_reducible exact fwdOpt_none
      | with_reducible apply fwdOpt_some
      | with_reducible apply State.updDie_fwd
      | with_reducible apply enterFault_fwd
      | intro _ _ _
      | intro _
      | dsimp only
      | split
      | (with_reducible apply fwd_misc; with_reducible first | assumption | apply State.updDie_fwd | apply enterFault_fwd)
      | (refine fwd_of_opt (by with_reducible assumption) ?_)

theorem execFaultQueueEnter_fwd {z : State} (d : DieId) (engine : Fin 109) (s : State) (hC : z.Forward s) : ∀ t', execFaultQueueEnter d engine s = .next t' → z.Forward t' := by
  unfold execFaultQueueEnter
  intro _ hE
  cases hE
  repeat' first
    | with_reducible assumption
    | with_reducible apply fwd_ite
    | with_reducible apply fwd_getD
    | with_reducible apply fwdOpt_bind
    | with_reducible apply fwdOpt_map
    | with_reducible apply fwdOpt_ite
    | with_reducible exact fwdOpt_none
    | with_reducible apply fwdOpt_some
    | with_reducible apply State.updDie_fwd
    | with_reducible apply enterFault_fwd
    | with_reducible apply enterStalled_fwd
    | intro _ _ _
    | intro _
    | dsimp only
    | split

theorem retryEngine_fwd {z : State} (d q n : Nat) (s : State) (e : Nat) (hC : z.Forward s) : z.Forward (retryEngine d q n s e) := by
  unfold retryEngine
  repeat' first
    | with_reducible assumption
    | with_reducible apply fwd_ite
    | with_reducible apply State.updCore_fwd
    | with_reducible apply updHead_fwd
    | with_reducible apply moveOn_fwd
    | intro _ _ _
    | intro _
    | dsimp only
    | split

theorem badResume_fwd {z : State} (d : Nat) (s : State) (hC : z.Forward s) : z.Forward (badResume d s) := by
  unfold badResume
  repeat' first
    | with_reducible assumption
    | with_reducible apply State.updDie_fwd

theorem fqRetry_fwd {z : State} (d n : Nat) (s : State) (hC : z.Forward s) : z.Forward (fqRetry d n s) := by
  unfold fqRetry
  repeat' first
    | with_reducible assumption
    | with_reducible apply fwd_ite
    | with_reducible apply fwd_foldl
    | with_reducible apply State.updDie_fwd
    | with_reducible apply enterStalled_fwd
    | with_reducible apply retryEngine_fwd
    | with_reducible apply badResume_fwd

theorem abortEngine_fwd {z : State} (d q n : Nat) (s : State) (e : Nat) (hC : z.Forward s) : z.Forward (abortEngine d q n s e) := by
  unfold abortEngine
  repeat' first
    | with_reducible assumption
    | with_reducible apply fwd_ite
    | with_reducible apply dropMove_fwd
    | intro _ _ _
    | intro _
    | dsimp only
    | split

theorem fqAbort_fwd {z : State} (d n : Nat) (s : State) (hC : z.Forward s) : z.Forward (fqAbort d n s) := by
  unfold fqAbort
  repeat' first
    | with_reducible assumption
    | with_reducible apply fwd_ite
    | with_reducible apply fwd_foldl
    | with_reducible apply State.updDie_fwd
    | with_reducible apply logEvent_fwd
    | with_reducible apply faultPart_fwd
    | with_reducible apply enterStalled_fwd
    | with_reducible apply badResume_fwd
    | with_reducible apply abortEngine_fwd

theorem execFqResumeRetry_fwd {z : State} (d : DieId) (entry : Fin 256) (s : State) (hC : z.Forward s) : ∀ t', execFqResumeRetry d entry s = .next t' → z.Forward t' := by
  unfold execFqResumeRetry
  intro _ hE
  cases hE
  repeat' first
    | with_reducible assumption
    | with_reducible apply fwd_ite
    | with_reducible apply fqRetry_fwd

theorem execFqResumeAbort_fwd {z : State} (d : DieId) (entry : Fin 256) (s : State) (hC : z.Forward s) : ∀ t', execFqResumeAbort d entry s = .next t' → z.Forward t' := by
  unfold execFqResumeAbort
  intro _ hE
  cases hE
  repeat' first
    | with_reducible assumption
    | with_reducible apply fwd_ite
    | with_reducible apply fqAbort_fwd

theorem execAccessCounterDecay_fwd {z : State} (d : DieId) (s : State) (hC : z.Forward s) : ∀ t', execAccessCounterDecay d s = .next t' → z.Forward t' := by
  unfold execAccessCounterDecay
  intro _ hE
  cases hE
  repeat' first
    | with_reducible assumption
    | with_reducible apply fwd_ite
    | with_reducible apply fwd_foldl
    | with_reducible apply State.updDie_fwd

theorem execHpqHeadRead_fwd {z : State} (d : DieId) (s : State) (hC : z.Forward s) : ∀ t', execHpqHeadRead d s = .next t' → z.Forward t' := by
  unfold execHpqHeadRead
  intro _ hE
  cases hE
  repeat' first
    | with_reducible assumption
    | with_reducible apply fwd_ite
    | with_reducible apply State.updDie_fwd
    | with_reducible apply State.updPort_fwd
    | with_reducible apply State.emit_fwd
    | intro _ _ _
    | intro _
    | dsimp only
    | split

theorem execHpqStatusRead_fwd {z : State} (d : DieId) (s : State) (hC : z.Forward s) : ∀ t', execHpqStatusRead d s = .next t' → z.Forward t' := by
  unfold execHpqStatusRead
  intro _ hE
  cases hE
  repeat' first
    | with_reducible assumption
    | with_reducible apply fwd_ite
    | with_reducible apply State.updDie_fwd
    | with_reducible apply State.emit_fwd

theorem pokeLines_fwd {z : State} (q : Nat) (x0 : Nat) (x1 : Nat) (x2 : List Byte) (x3 : State) (hC : z.Forward x3) : z.Forward (pokeLines q x0 x1 x2 x3) := by
  induction x0 generalizing x1 x2 x3 with
  | zero =>
    unfold pokeLines
    repeat' first
      | with_reducible assumption
  | succ n ih =>
    unfold pokeLines
    repeat' first
      | with_reducible apply ih
      | with_reducible assumption
      | with_reducible apply fwd_ite
      | with_reducible apply submit_fwd

theorem retryRegion_fwd {z : State} (q va : Nat) (s : State) (hC : z.Forward s) : z.Forward (retryRegion q va s) := by
  unfold retryRegion
  repeat' first
    | with_reducible assumption
    | with_reducible apply fwd_foldl
    | with_reducible apply fqRetry_fwd
    | intro _ _ _

theorem endMigration_fwd {z : State} (q : Nat) (m : Migration) (f : Region → Region) (s : State) (hC : z.Forward s) : z.Forward (endMigration q m f s) := by
  unfold endMigration
  repeat' first
    | with_reducible assumption
    | with_reducible apply State.updPart_fwd
    | with_reducible apply invalidate_fwd
    | with_reducible apply retryRegion_fwd

theorem restoreMigration_fwd {z : State} (q : Nat) (m : Migration) (s : State) (hC : z.Forward s) : z.Forward (restoreMigration q m s) := by
  unfold restoreMigration
  repeat' first
    | with_reducible assumption
    | with_reducible apply endMigration_fwd

theorem finishMbx_fwd {z : State} (p : PortId) (m status : Nat) (data : List Byte) (s : State) (hC : z.Forward s) : z.Forward (finishMbx p m status data s) := by
  unfold finishMbx
  repeat' first
    | with_reducible assumption
    | with_reducible apply State.updMbx_fwd

theorem execMigrationCopyComplete_fwd {z : State} (q : PartId) (reply : HostReply) (s : State) (hC : z.Forward s) : ∀ t', execMigrationCopyComplete q reply s = .next t' → z.Forward t' := by
  unfold execMigrationCopyComplete
  intro _ hE
  cases hE
  repeat' first
    | with_reducible assumption
    | with_reducible apply fwd_ite
    | with_reducible apply State.updPart_fwd
    | with_reducible apply recInput_fwd
    | with_reducible apply pokeLines_fwd
    | with_reducible apply endMigration_fwd
    | with_reducible apply restoreMigration_fwd
    | with_reducible apply finishMbx_fwd
    | intro _ _ _
    | intro _
    | dsimp only
    | split

theorem execHostWindowReadFail_fwd {z : State} (q : PartId) (u : UnitRef) (f : HostFail) (s : State) (hC : z.Forward s) : ∀ t', execHostWindowReadFail q u f s = .next t' → z.Forward t' := by
  unfold execHostWindowReadFail
  intro _ hE
  cases hE
  repeat' first
    | with_reducible assumption
    | with_reducible apply fwd_ite
    | with_reducible apply hostReadFails_fwd
    | intro _ _ _
    | intro _
    | dsimp only
    | split

theorem abandonReplay_fwd {z : State} (q : Nat) (s : State) (hC : z.Forward s) : z.Forward (abandonReplay q s) := by
  unfold abandonReplay
  repeat' first
    | with_reducible assumption
    | with_reducible apply fwd_ite
    | with_reducible apply State.updPart_fwd
    | with_reducible apply stopWithin_fwd

theorem abandonPart_fwd {z : State} (p : PortId) (s : State) (q : Nat) (hC : z.Forward s) : z.Forward (abandonPart p s q) := by
  unfold abandonPart
  repeat' first
    | with_reducible assumption
    | with_reducible apply fwd_ite
    | with_reducible apply State.updPart_fwd
    | with_reducible apply restoreMigration_fwd
    | with_reducible apply abandonReplay_fwd
    | intro _ _ _
    | intro _
    | dsimp only
    | split

theorem abandonFlash_fwd {z : State} (p : PortId) (s : State) (m : Nat) (hC : z.Forward s) : z.Forward (abandonFlash p s m) := by
  unfold abandonFlash
  repeat' first
    | with_reducible assumption
    | with_reducible apply fwd_ite
    | with_reducible apply State.updFlash_fwd
    | with_reducible apply State.drew_fwd

theorem abandonPort_fwd {z : State} (p : PortId) (s : State) (hC : z.Forward s) : z.Forward (abandonPort p s) := by
  unfold abandonPort
  repeat' first
    | with_reducible assumption
    | with_reducible apply fwd_foldl
    | with_reducible apply abandonPart_fwd
    | with_reducible apply abandonFlash_fwd

theorem dropPosts_fwd {z : State} (p : PortId) (s : State) (hC : z.Forward s) : z.Forward (dropPosts p s) := by
  unfold dropPosts
  repeat' first
    | with_reducible assumption
    | with_reducible apply fwd_ite
    | with_reducible apply fwd_foldl
    | with_reducible apply State.updCore_fwd
    | with_reducible apply State.updPart_fwd
    | intro _ _ _

theorem hostLost_fwd {z : State} (p : PortId) (origin : Nat) (s : State) (hC : z.Forward s) : z.Forward (hostLost p origin s) := by
  unfold hostLost
  repeat' first
    | with_reducible assumption
    | with_reducible apply fwd_ite
    | with_reducible apply fwd_foldl
    | with_reducible apply stopWithin_fwd
    | intro _ _ _

theorem portEvent_fwd {z : State} (p : PortId) (f : Port → Port → Port) (s : State) (hC : z.Forward s) : z.Forward (portEvent p f s) := by
  unfold portEvent
  repeat' first
    | with_reducible assumption
    | with_reducible apply State.updPort_fwd
    | with_reducible apply abandonPort_fwd
    | with_reducible apply dropPosts_fwd
    | with_reducible apply hostLost_fwd

theorem execPcieLinkUp_fwd {z : State} (p : PortId) (s : State) (hC : z.Forward s) : ∀ t', execPcieLinkUp p s = .next t' → z.Forward t' := by
  unfold execPcieLinkUp
  intro _ hE
  cases hE
  repeat' first
    | with_reducible assumption
    | with_reducible apply fwd_ite
    | with_reducible apply State.updPort_fwd

theorem execPerstAssert_fwd {z : State} (p : PortId) (s : State) (hC : z.Forward s) : ∀ t', execPerstAssert p s = .next t' → z.Forward t' := by
  unfold execPerstAssert
  intro _ hE
  cases hE
  repeat' first
    | with_reducible assumption
    | with_reducible apply fwd_ite
    | with_reducible apply State.updPort_fwd
    | with_reducible apply portEvent_fwd

theorem execPerstDeassert_fwd {z : State} (p : PortId) (s : State) (hC : z.Forward s) : ∀ t', execPerstDeassert p s = .next t' → z.Forward t' := by
  unfold execPerstDeassert
  intro _ hE
  cases hE
  repeat' first
    | with_reducible assumption
    | with_reducible apply State.updPort_fwd

theorem execFunctionLevelReset_fwd {z : State} (p : PortId) (s : State) (hC : z.Forward s) : ∀ t', execFunctionLevelReset p s = .next t' → z.Forward t' := by
  unfold execFunctionLevelReset
  intro _ hE
  cases hE
  repeat' first
    | with_reducible assumption
    | with_reducible apply fwd_ite
    | with_reducible apply portEvent_fwd

theorem linkLost_fwd {z : State} (p : PortId) (s : State) (hC : z.Forward s) : z.Forward (linkLost p s) := by
  unfold linkLost
  repeat' first
    | with_reducible assumption
    | with_reducible apply portEvent_fwd

theorem execPcieLinkDown_fwd {z : State} (p : PortId) (s : State) (hC : z.Forward s) : ∀ t', execPcieLinkDown p s = .next t' → z.Forward t' := by
  unfold execPcieLinkDown
  intro _ hE
  cases hE
  repeat' first
    | with_reducible assumption
    | with_reducible apply fwd_ite
    | with_reducible apply linkLost_fwd

theorem enterD3_fwd {z : State} (p : PortId) (s : State) (hC : z.Forward s) : z.Forward (enterD3 p s) := by
  unfold enterD3
  repeat' first
    | with_reducible assumption
    | with_reducible apply portEvent_fwd

theorem execD3hotEntry_fwd {z : State} (p : PortId) (s : State) (hC : z.Forward s) : ∀ t', execD3hotEntry p s = .next t' → z.Forward t' := by
  unfold execD3hotEntry
  intro _ hE
  cases hE
  repeat' first
    | with_reducible assumption
    | with_reducible apply fwd_ite
    | with_reducible apply enterD3_fwd

theorem execNoticeRingWrite_fwd {z : State} (p : PortId) (s : State) (hC : z.Forward s) : ∀ t', execNoticeRingWrite p s = .next t' → z.Forward t' := by
  unfold execNoticeRingWrite
  intro _ hE
  cases hE
  repeat' first
    | with_reducible assumption
    | with_reducible apply fwd_ite
    | with_reducible apply State.updPort_fwd
    | with_reducible apply State.emit_fwd
    | with_reducible apply raiseVector_fwd
    | intro _ _ _
    | intro _
    | dsimp only
    | split

theorem execHotPageRingWrite_fwd {z : State} (p : PortId) (s : State) (hC : z.Forward s) : ∀ t', execHotPageRingWrite p s = .next t' → z.Forward t' := by
  unfold execHotPageRingWrite
  intro _ hE
  cases hE
  repeat' first
    | with_reducible assumption
    | with_reducible apply fwd_ite
    | with_reducible apply State.updPort_fwd
    | with_reducible apply State.emit_fwd
    | with_reducible apply raiseVector_fwd
    | intro _ _ _
    | intro _
    | dsimp only
    | split

theorem execNtcBaseWrite_fwd {z : State} (p : PortId) (value : Word) (s : State) (hC : z.Forward s) : ∀ t', execNtcBaseWrite p value s = .next t' → z.Forward t' := by
  unfold execNtcBaseWrite
  intro _ hE
  cases hE
  repeat' first
    | with_reducible assumption
    | with_reducible apply fwd_ite
    | with_reducible apply State.updPort_fwd

theorem execHprBaseWrite_fwd {z : State} (p : PortId) (value : Word) (s : State) (hC : z.Forward s) : ∀ t', execHprBaseWrite p value s = .next t' → z.Forward t' := by
  unfold execHprBaseWrite
  intro _ hE
  cases hE
  repeat' first
    | with_reducible assumption
    | with_reducible apply fwd_ite
    | with_reducible apply State.updPort_fwd

theorem readReg_fwd {z : State} (p : PortId) (v : Nat) (s : State) (hC : z.Forward s) : z.Forward (readReg p v s) := by
  unfold readReg
  repeat' first
    | with_reducible assumption
    | with_reducible apply State.emit_fwd

theorem readHalf_fwd {z : State} (p : PortId) (v : Nat) (h : Fin 2) (s : State) (hC : z.Forward s) : z.Forward (readHalf p v h s) := by
  unfold readHalf
  repeat' first
    | with_reducible assumption
    | with_reducible apply State.emit_fwd

theorem execErrCntRead_fwd {z : State} (r : CntRead) (s : State) (hC : z.Forward s) : ∀ t', execErrCntRead r s = .next t' → z.Forward t' := by
  unfold execErrCntRead
  intro _ hE
  cases hE
  repeat' first
    | with_reducible assumption
    | with_reducible apply fwd_ite
    | with_reducible apply State.updPort_fwd
    | with_reducible apply readReg_fwd
    | with_reducible apply readHalf_fwd
    | intro _ _ _
    | intro _
    | dsimp only
    | split

theorem execErrCnt2Read_fwd {z : State} (r : CntRead) (s : State) (hC : z.Forward s) : ∀ t', execErrCnt2Read r s = .next t' → z.Forward t' := by
  unfold execErrCnt2Read
  intro _ hE
  cases hE
  repeat' first
    | with_reducible assumption
    | with_reducible apply fwd_ite
    | with_reducible apply State.updPort_fwd
    | with_reducible apply readReg_fwd
    | with_reducible apply readHalf_fwd
    | intro _ _ _
    | intro _
    | dsimp only
    | split

theorem execMbxRefusedRead_fwd {z : State} (p : PortId) (m : MbxId) (s : State) (hC : z.Forward s) : ∀ t', execMbxRefusedRead p m s = .next t' → z.Forward t' := by
  unfold execMbxRefusedRead
  intro _ hE
  cases hE
  repeat' first
    | with_reducible assumption
    | with_reducible apply fwd_ite
    | with_reducible apply State.updMbx_fwd
    | with_reducible apply readReg_fwd

theorem execHmbRefusedRead_fwd {z : State} (p : PortId) (s : State) (hC : z.Forward s) : ∀ t', execHmbRefusedRead p s = .next t' → z.Forward t' := by
  unfold execHmbRefusedRead
  intro _ hE
  cases hE
  repeat' first
    | with_reducible assumption
    | with_reducible apply fwd_ite
    | with_reducible apply State.updPort_fwd
    | with_reducible apply readReg_fwd

theorem bar2Ask_fwd {z : State} (p : PortId) (k : Nat) (s : State) (x : Bar2Line) (hC : z.Forward s) : z.Forward (bar2Ask p k s x) := by
  unfold bar2Ask
  repeat' first
    | with_reducible assumption
    | with_reducible apply fwd_ite
    | with_reducible apply submit_fwd

theorem execBar2Read_fwd {z : State} (p : PortId) (offset len : Nat) (env : Env) (s : State) (hC : z.Forward s) : ∀ t', execBar2Read p offset len env s = .next t' → z.Forward t' := by
  unfold execBar2Read
  intro _ hE
  cases hE
  repeat' first
    | with_reducible assumption
    | with_reducible apply fwd_ite
    | with_reducible apply fwd_foldl
    | with_reducible apply State.updPort_fwd
    | with_reducible apply applyUpsets_fwd
    | with_reducible apply bar2End_fwd
    | with_reducible apply bar2Ask_fwd

theorem sendPending_fwd {z : State} (p : PortId) (s : State) (hC : z.Forward s) : z.Forward (sendPending p s) := by
  unfold sendPending
  repeat' first
    | with_reducible assumption
    | with_reducible apply fwd_ite
    | with_reducible apply fwd_foldl
    | with_reducible apply State.updPort_fwd
    | with_reducible apply State.emit_fwd
    | with_reducible apply msix_fwd
    | intro _ _ _

theorem writePcie_fwd {z : State} (p : PortId) (r : PcieReg) (o : Nat) (data : List Byte) (s : State) (hC : z.Forward s) : z.Forward (writePcie p r o data s) := by
  unfold writePcie
  repeat' first
    | with_reducible assumption
    | with_reducible apply fwd_ite
    | with_reducible apply State.updPort_fwd
    | with_reducible apply enterD3_fwd
    | with_reducible apply sendPending_fwd

theorem execBar2Write_fwd {z : State} (p : PortId) (_offset : Nat) (_data : List Byte) (s : State) (hC : z.Forward s) : ∀ t', execBar2Write p _offset _data s = .next t' → z.Forward t' := by
  unfold execBar2Write
  intro _ hE
  cases hE
  repeat' first
    | with_reducible assumption
    | with_reducible apply fwd_ite
    | with_reducible apply portErr_fwd

theorem thermalTrip_fwd {z : State} (cause src d0 : Nat) (s : State) (hC : z.Forward s) : z.Forward (thermalTrip cause src d0 s) := by
  unfold thermalTrip
  repeat' first
    | with_reducible assumption
    | with_reducible apply fwd_ite
    | with_reducible apply State.updPower_fwd
    | with_reducible apply logEvent_fwd
    | with_reducible apply enterFailed_fwd
    | intro _ _ _
    | intro _
    | dsimp only
    | split
    | (with_reducible apply fwd_misc; with_reducible first | assumption | apply State.updPower_fwd | apply logEvent_fwd | apply enterFailed_fwd)

theorem putStep_fwd {z : State} (d n : Nat) (s : State) (hC : z.Forward s) : z.Forward (putStep d n s) := by
  unfold putStep
  repeat' first
    | with_reducible assumption
    | with_reducible apply fwd_ite
    | with_reducible apply State.updPower_fwd
    | intro _ _ _
    | intro _
    | dsimp only
    | split
    | (with_reducible apply fwd_misc; with_reducible first | assumption | apply State.updPower_fwd)

theorem stepDie_fwd {z : State} (s : State) (d : Nat) (hC : z.Forward s) : z.Forward (stepDie s d) := by
  unfold stepDie
  repeat' first
    | with_reducible assumption
    | with_reducible apply fwd_ite
    | with_reducible apply putStep_fwd

theorem execPowerSample_fwd {z : State} (watts vin10mV : Nat) (s : State) (hC : z.Forward s) : ∀ t', execPowerSample watts vin10mV s = .next t' → z.Forward t' := by
  unfold execPowerSample
  intro _ hE
  cases hE
  repeat' first
    | with_reducible assumption
    | with_reducible apply fwd_ite
    | with_reducible apply fwd_foldl
    | with_reducible apply State.updPower_fwd
    | with_reducible apply thermalTrip_fwd
    | with_reducible apply stepDie_fwd
    | intro _ _ _
    | intro _
    | dsimp only
    | split
    | (with_reducible apply fwd_misc; with_reducible first | assumption | apply State.updPower_fwd | apply thermalTrip_fwd | apply stepDie_fwd | apply fwd_foldl)

theorem execJunctionSample_fwd {z : State} (d : DieId) (celsius : Int) (s : State) (hC : z.Forward s) : ∀ t', execJunctionSample d celsius s = .next t' → z.Forward t' := by
  unfold execJunctionSample
  intro _ hE
  cases hE
  repeat' first
    | with_reducible assumption
    | with_reducible apply fwd_ite
    | with_reducible apply State.updPower_fwd
    | with_reducible apply thermalTrip_fwd
    | with_reducible apply stepDie_fwd

theorem execHbmTempSample_fwd {z : State} (k : StackId) (quarterC : Int) (s : State) (hC : z.Forward s) : ∀ t', execHbmTempSample k quarterC s = .next t' → z.Forward t' := by
  unfold execHbmTempSample
  intro _ hE
  cases hE
  repeat' first
    | with_reducible assumption
    | with_reducible apply fwd_ite
    | with_reducible apply State.updStack_fwd
    | with_reducible apply thermalTrip_fwd

theorem execRailSwitchOff_fwd {z : State} (s : State) (hC : z.Forward s) : ∀ t', execRailSwitchOff s = .next t' → z.Forward t' := by
  unfold execRailSwitchOff
  intro _ hE
  cases hE
  repeat' first
    | with_reducible assumption
    | with_reducible apply fwd_ite
    | intro _ _ _
    | intro _
    | dsimp only
    | split
    | (with_reducible apply fwd_misc; with_reducible first | assumption)

theorem execLossOfLock_fwd {z : State} (clk : ClockRef) (s : State) (hC : z.Forward s) : ∀ t', execLossOfLock clk s = .next t' → z.Forward t' := by
  unfold execLossOfLock
  intro _ hE
  cases hE
  repeat' first
    | with_reducible assumption
    | with_reducible apply fwd_ite
    | with_reducible apply enterFailed_fwd
    | with_reducible apply fenceDie_fwd
    | with_reducible apply linkLost_fwd
    | intro _ _ _
    | intro _
    | dsimp only
    | split

theorem execTrstNAssert_fwd {z : State} (s : State) (hC : z.Forward s) : ∀ t', execTrstNAssert s = .next t' → z.Forward t' := by
  unfold execTrstNAssert
  intro _ hE
  cases hE
  repeat' first
    | with_reducible assumption
    | with_reducible apply State.updPower_fwd

theorem debugBreak_fwd {z : State} (c : Nat) (s : State) (hC : z.Forward s) : z.Forward (debugBreak c s) := by
  unfold debugBreak
  repeat' first
    | with_reducible assumption
    | with_reducible apply fwd_ite
    | with_reducible apply State.updCore_fwd
    | with_reducible apply raiseImmediate_fwd

theorem execJtagBreak_fwd {z : State} (c : CoreId) (s : State) (hC : z.Forward s) : ∀ t', execJtagBreak c s = .next t' → z.Forward t' := by
  unfold execJtagBreak
  intro _ hE
  cases hE
  repeat' first
    | with_reducible assumption
    | with_reducible apply fwd_ite
    | with_reducible apply debugBreak_fwd

theorem assignCores_fwd {z : State} (q : Nat) (i : Image) (place : List (Nat × Nat)) (s : State) (hC : z.Forward s) : z.Forward (assignCores q i place s) := by
  unfold assignCores
  repeat' first
    | with_reducible assumption
    | with_reducible apply fwd_foldl
    | with_reducible apply State.updCore_fwd
    | intro _ _ _

theorem armBulks_fwd {z : State} (q : Nat) (i : Image) (place : List (Nat × Nat)) (s : State) (hC : z.Forward s) : z.Forward (armBulks q i place s) := by
  unfold armBulks
  repeat' first
    | with_reducible assumption
    | with_reducible apply fwd_ite
    | with_reducible apply fwd_foldl
    | with_reducible apply updBulk_fwd
    | intro _ _ _

theorem setRegs_fwd {z : State} (q : Nat) (c : PartCfg) (i : Image) (s : State) (hC : z.Forward s) : z.Forward (setRegs q c i s) := by
  unfold setRegs
  repeat' first
    | with_reducible assumption
    | with_reducible apply fwd_foldl
    | with_reducible apply updReg_fwd
    | intro _ _ _

theorem zeroBed_fwd {z : State} (b g n : Nat) (s : State) (hC : z.Forward s) : z.Forward (zeroBed b g n s) := by
  unfold zeroBed
  repeat' first
    | with_reducible assumption
    | with_reducible apply State.updBed_fwd

theorem zeroHbm_fwd {z : State} (keep : List Rng) (g n : Nat) (s : State) (hC : z.Forward s) : z.Forward (zeroHbm keep g n s) := by
  unfold zeroHbm
  repeat' first
    | with_reducible assumption
    | intro _ _ _
    | intro _
    | dsimp only
    | split
    | (with_reducible apply fwd_misc; with_reducible first | assumption)

theorem settleBar2_fwd {z : State} (q : Nat) (s : State) (hC : z.Forward s) : z.Forward (settleBar2 q s) := by
  unfold settleBar2
  repeat' first
    | with_reducible assumption
    | with_reducible apply fwd_ite
    | with_reducible apply fwd_foldl
    | with_reducible apply lineNow_fwd
    | with_reducible apply bar2Got_fwd
    | intro _ _ _

theorem clearUnits_fwd {z : State} (q : Nat) (s : State) (hC : z.Forward s) : z.Forward (clearUnits q s) := by
  unfold clearUnits
  repeat' first
    | with_reducible assumption
    | with_reducible apply fwd_foldl
    | with_reducible apply State.updCore_fwd
    | with_reducible apply State.updPort_fwd
    | with_reducible apply purgeReqs_fwd
    | with_reducible apply invalidateAll_fwd
    | with_reducible apply settleBar2_fwd
    | intro _ _ _
    | intro _
    | dsimp only
    | split
    | (with_reducible apply fwd_misc; with_reducible first | assumption | apply State.updCore_fwd | apply State.updPort_fwd | apply purgeReqs_fwd | apply invalidateAll_fwd | apply settleBar2_fwd | apply fwd_foldl)

theorem endRecord_fwd {z : State} (q code : Nat) (s : State) (hC : z.Forward s) : z.Forward (endRecord q code s) := by
  unfold endRecord
  repeat' first
    | with_reducible assumption
    | with_reducible apply recEnd_fwd

theorem loadUnits_fwd {z : State} (q : Nat) (c : PartCfg) (i : Image) (s : State) (hC : z.Forward s) : z.Forward (loadUnits q c i s) := by
  unfold loadUnits
  repeat' first
    | with_reducible assumption
    | with_reducible apply fwd_foldl
    | with_reducible apply assignCores_fwd
    | with_reducible apply armBulks_fwd
    | with_reducible apply setRegs_fwd
    | with_reducible apply zeroBed_fwd
    | intro _ _ _

theorem buildPart_fwd {z : State} (q : Nat) (p : PortId) (c : PartCfg) (i : Image) (place : List (Nat × Nat)) (rep : Report) (seed : Word) (s : State) (hC : z.Forward s) : z.Forward (buildPart q p c i place rep seed s) := by
  unfold buildPart
  repeat' first
    | with_reducible assumption
    | with_reducible apply fwd_foldl
    | with_reducible apply State.updPart_fwd
    | with_reducible apply zeroHbm_fwd
    | with_reducible apply clearUnits_fwd
    | with_reducible apply endRecord_fwd
    | with_reducible apply loadUnits_fwd
    | intro _ _ _

theorem destroyPart_fwd {z : State} (q : Nat) (s : State) (hC : z.Forward s) : z.Forward (destroyPart q s) := by
  unfold destroyPart
  repeat' first
    | with_reducible assumption
    | with_reducible apply State.updPart_fwd
    | with_reducible apply clearUnits_fwd
    | with_reducible apply endRecord_fwd

theorem configure_fwd {z : State} (q : Nat) (p : PortId) (bs : List Byte) (keep : Option Image) (s : State) (hC : z.Forward s) : z.Forward ((configure q p bs keep s).1) := by
  unfold configure
  repeat' first
    | with_reducible assumption
    | with_reducible apply fwd_ite
    | with_reducible apply State.updPort_fwd
    | with_reducible apply State.drew_fwd
    | with_reducible apply buildPart_fwd
    | intro _ _ _
    | intro _
    | dsimp only
    | split

theorem settleWrites_fwd {z : State} (q : Nat) (s : State) (hC : z.Forward s) : z.Forward (settleWrites q s) := by
  unfold settleWrites
  repeat' first
    | with_reducible assumption
    | with_reducible apply fwd_foldl
    | with_reducible apply hbmWrite_fwd
    | intro _ _ _

theorem rewindPart_fwd {z : State} (q ringVa ringLen : Nat) (s : State) (hC : z.Forward s) : z.Forward (rewindPart q ringVa ringLen s) := by
  unfold rewindPart
  repeat' first
    | with_reducible assumption
    | with_reducible apply fwd_foldl
    | with_reducible apply State.updPart_fwd
    | with_reducible apply State.updPort_fwd
    | with_reducible apply zeroHbm_fwd
    | with_reducible apply clearUnits_fwd
    | with_reducible apply endRecord_fwd
    | with_reducible apply loadUnits_fwd
    | with_reducible apply settleWrites_fwd
    | intro _ _ _
    | intro _
    | dsimp only
    | split

theorem doorbell_fwd {z : State} (p : PortId) (q n : Nat) (value : Word) (s : State) (hC : z.Forward s) : z.Forward (doorbell p q n value s) := by
  unfold doorbell
  repeat' first
    | with_reducible assumption
    | with_reducible apply fwd_ite
    | with_reducible apply portErr_fwd
    | with_reducible apply updStream_fwd
    | intro _ _ _
    | intro _
    | dsimp only
    | split

theorem execStreamDoorbell_fwd {z : State} (p : PortId) (q : PartId) (stream : Fin 64) (value : Word) (s : State) (hC : z.Forward s) : ∀ t', execStreamDoorbell p q stream value s = .next t' → z.Forward t' := by
  unfold execStreamDoorbell
  intro _ hE
  cases hE
  repeat' first
    | with_reducible assumption
    | with_reducible apply fwd_ite
    | with_reducible apply doorbell_fwd

theorem putCompletion_fwd {z : State} (q n cstat len : Nat) (user : Word) (sub turn : Nat) (s : State) (hC : z.Forward s) : z.Forward (putCompletion q n cstat len user sub turn s) := by
  unfold putCompletion
  repeat' first
    | with_reducible assumption
    | with_reducible apply State.emit_fwd
    | with_reducible apply msix_fwd
    | with_reducible apply updStream_fwd
    | intro _ _ _
    | intro _
    | dsimp only
    | split

theorem streamFault_fwd {z : State} (unit q n cstat addr index : Nat) (s : State) (hC : z.Forward s) : z.Forward (streamFault unit q n cstat addr index s) := by
  unfold streamFault
  repeat' first
    | with_reducible assumption
    | with_reducible apply logEvent_fwd
    | with_reducible apply faultPart_fwd

theorem hostXlate_fwd {z : State} (q va : Nat) (write : Bool) (s : State) (hC : z.Forward s) : z.Forward ((hostXlate q va write s).1) := by
  unfold hostXlate
  repeat' first
    | with_reducible assumption
    | with_reducible apply translateFar_fwd
    | with_reducible apply tlbInstall_fwd
    | intro _ _ _
    | intro _
    | dsimp only
    | split
    | (with_reducible apply fwd_misc; with_reducible first | assumption | apply translateFar_fwd | apply tlbInstall_fwd)
    | (refine fwd_of_pair (by with_reducible assumption) ?_)

theorem moverX_fwd {z : State} (q : Nat) (write : Bool) (x0 : Nat) (x10 : Nat) (x11 : Nat) (x2 : State) (hC : z.Forward x2) : z.Forward ((moverX q write x0 x10 x11 x2).1) := by
  induction x0 generalizing x10 x11 x2 with
  | zero =>
    unfold moverX
    repeat' first
      | with_reducible assumption
  | succ n ih =>
    unfold moverX
    repeat' first
      | with_reducible apply ih
      | with_reducible assumption
      | with_reducible apply fwd_ite
      | with_reducible apply hostXlate_fwd
      | intro _ _ _
      | intro _
      | dsimp only
      | split
      | (with_reducible apply fwd_misc; with_reducible first | assumption | apply hostXlate_fwd)
      | (refine fwd_of_pair (by with_reducible assumption) ?_)

theorem hostMoverFault_fwd {z : State} (q cause va : Nat) (s : State) (hC : z.Forward s) : z.Forward (hostMoverFault q cause va s) := by
  unfold hostMoverFault
  repeat' first
    | with_reducible assumption
    | with_reducible apply logEvent_fwd
    | with_reducible apply faultPart_fwd

theorem fetchFails_fwd {z : State} (q n k cstat addr : Nat) (user : Word) (s : State) (hC : z.Forward s) : z.Forward (fetchFails q n k cstat addr user s) := by
  unfold fetchFails
  repeat' first
    | with_reducible assumption
    | with_reducible apply updStream_fwd
    | with_reducible apply putCompletion_fwd
    | with_reducible apply streamFault_fwd

theorem frameAsk_fwd {z : State} (q n : Nat) (x0 : Nat) (x10 : Nat) (x11 : Nat) (x2 : State) (hC : z.Forward x2) : z.Forward (frameAsk q n x0 x10 x11 x2) := by
  induction x0 generalizing x10 x11 x2 with
  | zero =>
    unfold frameAsk
    repeat' first
      | with_reducible assumption
  | succ n ih =>
    unfold frameAsk
    repeat' first
      | with_reducible apply ih
      | with_reducible assumption
      | with_reducible apply fwd_ite
      | with_reducible apply submit_fwd
      | with_reducible apply updStream_fwd
      | with_reducible apply hostXlate_fwd
      | intro _ _ _
      | intro _
      | dsimp only
      | split
      | (with_reducible apply fwd_misc; with_reducible first | assumption | apply submit_fwd | apply updStream_fwd | apply hostXlate_fwd)
      | (refine fwd_of_pair (by with_reducible assumption) ?_)

theorem poisonSlot_fwd {z : State} (c slot : Nat) (bytes : List (Byte × Nat)) (s : State) (hC : z.Forward s) : z.Forward (poisonSlot c slot bytes s) := by
  unfold poisonSlot
  repeat' first
    | with_reducible assumption
    | with_reducible apply fwd_foldl
    | with_reducible apply State.updCore_fwd

theorem putFrame_fwd {z : State} (q n : Nat) (f : Fetch) (y : Stream) (bytes : List (Byte × Nat)) (s : State) (hC : z.Forward s) : z.Forward (putFrame q n f y bytes s) := by
  unfold putFrame
  repeat' first
    | with_reducible assumption
    | with_reducible apply fwd_foldl
    | with_reducible apply storeBytes_fwd
    | with_reducible apply coreEvent_fwd
    | with_reducible apply updStream_fwd
    | with_reducible apply poisonSlot_fwd
    | intro _ _ _
    | intro _
    | dsimp only
    | split

theorem finishFetch_fwd {z : State} (q n : Nat) (f : Fetch) (y : Stream) (bytes : List (Byte × Nat)) (s : State) (hC : z.Forward s) : z.Forward (finishFetch q n f y bytes s) := by
  unfold finishFetch
  repeat' first
    | with_reducible assumption
    | with_reducible apply recInput_fwd
    | with_reducible apply putCompletion_fwd
    | with_reducible apply putFrame_fwd

theorem replayFrame_fwd {z : State} (q n : Nat) (y : Stream) (r : Replay) (s : State) (hC : z.Forward s) : z.Forward (replayFrame q n y r s) := by
  unfold replayFrame
  repeat' first
    | with_reducible assumption
    | with_reducible apply fwd_ite
    | with_reducible apply replayDiverge_fwd
    | with_reducible apply putFrame_fwd
    | intro _ _ _
    | intro _
    | dsimp only
    | split

theorem execFrameFetch_fwd {z : State} (q : PartId) (stream : Fin 64) (entry : HostReply) (s : State) (hC : z.Forward s) : ∀ t', execFrameFetch q stream entry s = .next t' → z.Forward t' := by
  unfold execFrameFetch
  intro _ hE
  cases hE
  repeat' first
    | with_reducible assumption
    | with_reducible apply fwd_ite
    | with_reducible apply State.drew_fwd
    | with_reducible apply updStream_fwd
    | with_reducible apply fetchFails_fwd
    | with_reducible apply replayFrame_fwd
    | intro _ _ _
    | intro _
    | dsimp only
    | split

theorem execFrameFetchComplete_fwd {z : State} (q : PartId) (stream : Fin 64) (frame : HostReply) (env : Env) (s : State) (hC : z.Forward s) : ∀ t', execFrameFetchComplete q stream frame env s = .next t' → z.Forward t' := by
  unfold execFrameFetchComplete
  intro _ hE
  cases hE
  repeat' first
    | with_reducible assumption
    | with_reducible apply fwd_ite
    | with_reducible apply applyUpsets_fwd
    | with_reducible apply moverX_fwd
    | with_reducible apply hostMoverFault_fwd
    | with_reducible apply fetchFails_fwd
    | with_reducible apply frameAsk_fwd
    | with_reducible apply finishFetch_fwd
    | intro _ _ _
    | intro _
    | dsimp only
    | split
    | (with_reducible apply fwd_misc; with_reducible first | assumption | apply applyUpsets_fwd | apply moverX_fwd | apply hostMoverFault_fwd | apply fetchFails_fwd | apply frameAsk_fwd | apply finishFetch_fwd)
    | (refine fwd_of_pair (by with_reducible assumption) ?_)

theorem hostMoverWrite_fwd {z : State} (q : Nat) (x0 : Nat) (x1 : Nat) (x2 : List Byte) (x3 : State) (hC : z.Forward x3) : z.Forward (hostMoverWrite q x0 x1 x2 x3) := by
  induction x0 generalizing x1 x2 x3 with
  | zero =>
    unfold hostMoverWrite
    repeat' first
      | with_reducible assumption
  | succ n ih =>
    unfold hostMoverWrite
    repeat' first
      | with_reducible apply ih
      | with_reducible assumption
      | with_reducible apply fwd_ite
      | with_reducible apply State.emit_fwd
      | with_reducible apply submit_fwd
      | with_reducible apply hostXlate_fwd
      | intro _ _ _
      | intro _
      | dsimp only
      | split
      | (with_reducible apply fwd_misc; with_reducible first | assumption | apply State.emit_fwd | apply submit_fwd | apply hostXlate_fwd)
      | (refine fwd_of_pair (by with_reducible assumption) ?_)

theorem finishPost_fwd {z : State} (q : Nat) (o : Post) (y : Stream) (d : StreamDecl) (entry : HostReply) (s : State) (hC : z.Forward s) : z.Forward (finishPost q o y d entry s) := by
  unfold finishPost
  repeat' first
    | with_reducible assumption
    | with_reducible apply fwd_ite
    | with_reducible apply State.drew_fwd
    | with_reducible apply updStream_fwd
    | with_reducible apply putCompletion_fwd
    | with_reducible apply streamFault_fwd
    | with_reducible apply hostMoverWrite_fwd
    | intro _ _ _
    | intro _
    | dsimp only
    | split

theorem postX_fwd {z : State} (q : Nat) (o : Post) (entry : HostReply) (s : State) (hC : z.Forward s) : z.Forward ((postX q o entry s).1) := by
  unfold postX
  repeat' first
    | with_reducible assumption
    | with_reducible apply fwd_ite
    | with_reducible apply moverX_fwd
    | intro _ _ _
    | intro _
    | dsimp only
    | split

theorem dropPosted_fwd {z : State} (p : Part) (lcore : Nat) (s : State) (hC : z.Forward s) : z.Forward (dropPosted p lcore s) := by
  unfold dropPosted
  repeat' first
    | with_reducible assumption
    | with_reducible apply State.updCore_fwd
    | intro _ _ _
    | intro _
    | dsimp only
    | split

theorem completePost_fwd {z : State} (q : Nat) (o : Post) (entry : HostReply) (s : State) (hC : z.Forward s) : z.Forward (completePost q o entry s) := by
  unfold completePost
  repeat' first
    | with_reducible assumption
    | with_reducible apply fwd_ite
    | with_reducible apply State.updPart_fwd
    | with_reducible apply portErr_fwd
    | with_reducible apply hostMoverFault_fwd
    | with_reducible apply finishPost_fwd
    | with_reducible apply postX_fwd
    | with_reducible apply dropPosted_fwd
    | intro _ _ _
    | intro _
    | dsimp only
    | split
    | (with_reducible apply fwd_misc; with_reducible first | assumption | apply State.updPart_fwd | apply portErr_fwd | apply hostMoverFault_fwd | apply finishPost_fwd | apply postX_fwd | apply dropPosted_fwd)
    | (refine fwd_of_pair (by with_reducible assumption) ?_)

theorem execPostCompletion_fwd {z : State} (q : PartId) (entry : HostReply) (s : State) (hC : z.Forward s) : ∀ t', execPostCompletion q entry s = .next t' → z.Forward t' := by
  unfold execPostCompletion
  intro _ hE
  cases hE
  repeat' first
    | with_reducible assumption
    | with_reducible apply completePost_fwd
    | intro _ _ _
    | intro _
    | dsimp only
    | split

theorem badDesc_fwd {z : State} (q c h : Nat) (s : State) (hC : z.Forward s) : z.Forward (badDesc q c h s) := by
  unfold badDesc
  repeat' first
    | with_reducible assumption
    | with_reducible apply State.drew_fwd
    | with_reducible apply streamFault_fwd

theorem fireLaunch_fwd {z : State} (q c h : Nat) (s : State) (hC : z.Forward s) : z.Forward (fireLaunch q c h s) := by
  unfold fireLaunch
  repeat' first
    | with_reducible assumption
    | with_reducible apply State.updCore_fwd
    | with_reducible apply updStream_fwd
    | intro _ _ _
    | intro _
    | dsimp only
    | split

theorem firePost_fwd {z : State} (q c h : Nat) (s : State) (hC : z.Forward s) : z.Forward (firePost q c h s) := by
  unfold firePost
  repeat' first
    | with_reducible assumption
    | with_reducible apply fwd_ite
    | with_reducible apply State.updCore_fwd
    | with_reducible apply State.updPart_fwd
    | with_reducible apply touchRun_fwd

theorem fireMove_fwd {z : State} (m : MoverRef) (q : Nat) (e : ArmEntry) (s : State) (hC : z.Forward s) : z.Forward (fireMove m q e s) := by
  unfold fireMove
  repeat' first
    | with_reducible assumption
    | with_reducible apply State.updCore_fwd
    | with_reducible apply updMoves_fwd
    | intro _ _ _
    | intro _
    | dsimp only
    | split

theorem fireShare_fwd {z : State} (k q : Nat) (e : ArmEntry) (s : State) (hC : z.Forward s) : z.Forward (fireShare k q e s) := by
  unfold fireShare
  repeat' first
    | with_reducible assumption
    | with_reducible apply updReg_fwd

theorem fireEntry_fwd {z : State} (q : Nat) (u : UnitRef) (e : ArmEntry) (s : State) (hC : z.Forward s) : z.Forward (fireEntry q u e s) := by
  unfold fireEntry
  repeat' first
    | with_reducible assumption
    | with_reducible apply fwd_ite
    | with_reducible apply touchRun_fwd
    | with_reducible apply fireRun_fwd
    | with_reducible apply firePass_fwd
    | with_reducible apply fireDrain_fwd
    | with_reducible apply badDesc_fwd
    | with_reducible apply fireLaunch_fwd
    | with_reducible apply firePost_fwd
    | with_reducible apply fireMove_fwd
    | with_reducible apply fireShare_fwd
    | intro _ _ _
    | intro _
    | dsimp only
    | split

theorem execArmFire_fwd {z : State} (q : PartId) (u : UnitRef) (env : Env) (s : State) (hC : z.Forward s) : ∀ t', execArmFire q u env s = .next t' → z.Forward t' := by
  unfold execArmFire
  intro _ hE
  cases hE
  repeat' first
    | with_reducible assumption
    | with_reducible apply fwd_ite
    | with_reducible apply applyUpsets_fwd
    | with_reducible apply updTu_fwd
    | with_reducible apply fireEntry_fwd
    | intro _ _ _
    | intro _
    | dsimp only
    | split

theorem refuseDoorbell_fwd {z : State} (p : PortId) (m : Nat) (s : State) (hC : z.Forward s) : z.Forward (refuseDoorbell p m s) := by
  unfold refuseDoorbell
  repeat' first
    | with_reducible assumption
    | with_reducible apply State.updMbx_fwd

theorem ringMailbox_fwd {z : State} (p : PortId) (m : Nat) (s : State) (hC : z.Forward s) : z.Forward (ringMailbox p m s) := by
  unfold ringMailbox
  repeat' first
    | with_reducible assumption
    | with_reducible apply fwd_ite
    | with_reducible apply State.updMbx_fwd
    | with_reducible apply State.updHs_fwd
    | with_reducible apply refuseDoorbell_fwd
    | intro _ _ _
    | intro _
    | dsimp only
    | split

theorem execMbxDoorbellRefused_fwd {z : State} (p : PortId) (m : MbxId) (s : State) (hC : z.Forward s) : ∀ t', execMbxDoorbellRefused p m s = .next t' → z.Forward t' := by
  unfold execMbxDoorbellRefused
  intro _ hE
  cases hE
  repeat' first
    | with_reducible assumption
    | with_reducible apply fwd_ite
    | with_reducible apply refuseDoorbell_fwd

theorem writeHmb_fwd {z : State} (p : PortId) (opHalf : Bool) (op arg : Nat) (s : State) (hC : z.Forward s) : z.Forward (writeHmb p opHalf op arg s) := by
  unfold writeHmb
  repeat' first
    | with_reducible assumption
    | with_reducible apply fwd_ite
    | with_reducible apply State.updPort_fwd

theorem execHmbCmdRefused_fwd {z : State} (p : PortId) (value : Word) (s : State) (hC : z.Forward s) : ∀ t', execHmbCmdRefused p value s = .next t' → z.Forward t' := by
  unfold execHmbCmdRefused
  intro _ hE
  cases hE
  repeat' first
    | with_reducible assumption
    | with_reducible apply fwd_ite
    | with_reducible apply writeHmb_fwd

theorem writeMsix_fwd {z : State} (p : PortId) (o : Nat) (data : List Byte) (s : State) (hC : z.Forward s) : z.Forward (writeMsix p o data s) := by
  unfold writeMsix
  repeat' first
    | with_reducible assumption
    | with_reducible apply State.updPort_fwd
    | with_reducible apply msix_fwd
    | with_reducible apply sendPending_fwd

theorem writePortReg_fwd {z : State} (p : PortId) (base o : Nat) (data : List Byte) (s : State) (hC : z.Forward s) : z.Forward (writePortReg p base o data s) := by
  unfold writePortReg
  repeat' first
    | with_reducible assumption
    | with_reducible apply fwd_ite
    | with_reducible apply State.updPort_fwd
    | with_reducible apply ringMailbox_fwd
    | with_reducible apply writeHmb_fwd

theorem writeBar0_fwd {z : State} (p : PortId) (off : Nat) (data : List Byte) (s : State) (hC : z.Forward s) : z.Forward (writeBar0 p off data s) := by
  unfold writeBar0
  repeat' first
    | with_reducible assumption
    | with_reducible apply fwd_ite
    | with_reducible apply State.updMbx_fwd
    | with_reducible apply doorbell_fwd
    | with_reducible apply writeMsix_fwd
    | with_reducible apply writePortReg_fwd

theorem writeDieReg_fwd {z : State} (d off : Nat) (data : List Byte) (s : State) (hC : z.Forward s) : z.Forward (writeDieReg d off data s) := by
  unfold writeDieReg
  repeat' first
    | with_reducible assumption
    | with_reducible apply fwd_ite
    | with_reducible apply State.updDie_fwd
    | with_reducible apply fqRetry_fwd
    | with_reducible apply fqAbort_fwd

theorem writeChat_fwd {z : State} (off : Nat) (data : List Byte) (s : State) (hC : z.Forward s) : z.Forward (writeChat off data s) := by
  unfold writeChat
  repeat' first
    | with_reducible assumption
    | with_reducible apply fwd_ite
    | intro _ _ _
    | intro _
    | dsimp only
    | split
    | (with_reducible apply fwd_misc; with_reducible first | assumption)

theorem execRegisterWrite_fwd {z : State} (sp : RegSpace) (offset : Nat) (data : List Byte) (s : State) (hC : z.Forward s) : ∀ t', execRegisterWrite sp offset data s = .next t' → z.Forward t' := by
  unfold execRegisterWrite
  intro _ hE
  cases hE
  repeat' first
    | with_reducible assumption
    | with_reducible apply fwd_ite
    | with_reducible apply writePcie_fwd
    | with_reducible apply writeBar0_fwd
    | with_reducible apply writeDieReg_fwd
    | with_reducible apply writeChat_fwd
    | intro _ _ _
    | intro _
    | dsimp only
    | split
    | (with_reducible apply fwd_misc; with_reducible first | assumption | apply writePcie_fwd | apply writeBar0_fwd | apply writeDieReg_fwd | apply writeChat_fwd)

theorem completeMailbox_fwd {z : State} (p : PortId) (m : Nat) (r : MbxResult) (s : State) (hC : z.Forward s) : z.Forward (completeMailbox p m r s) := by
  unfold completeMailbox
  repeat' first
    | with_reducible assumption
    | with_reducible apply fwd_ite
    | with_reducible apply State.updMbx_fwd
    | with_reducible apply raiseVector_fwd

theorem execMbxCommandComplete_fwd {z : State} (p : PortId) (m : MbxId) (s : State) (hC : z.Forward s) : ∀ t', execMbxCommandComplete p m s = .next t' → z.Forward t' := by
  unfold execMbxCommandComplete
  intro _ hE
  cases hE
  repeat' first
    | with_reducible assumption
    | with_reducible apply fwd_ite
    | with_reducible apply completeMailbox_fwd
    | intro _ _ _
    | intro _
    | dsimp only
    | split

theorem runLater_fwd {z : State} (p : PortId) (m op : Nat) (f : Cmd → State → State × Option MbxResult) (s : State) (hC : z.Forward s)
    (hf : ∀ c s, z.Forward s → z.Forward ((f c s).1)) : z.Forward (runLater p m op f s) := by
  unfold runLater
  dsimp only
  split
  · have h := hf (s.mbx p m).command (s.updMbx p m fun b => { b with ran := true }) (State.updMbx_fwd hC p m _)
    split
    · exact completeMailbox_fwd p m _ _ h
    · exact h
  · exact hC

theorem runCmd_fwd {z : State} (p : PortId) (m op : Nat) (f : Cmd → State → State × MbxResult) (s : State) (hC : z.Forward s)
    (hf : ∀ c s, z.Forward s → z.Forward ((f c s).1)) : z.Forward (runCmd p m op f s) :=
  runLater_fwd p m op _ s hC hf

theorem execIdentify_fwd {z : State} (p : PortId) (m : MbxId) (s : State) (hC : z.Forward s) : ∀ t', execIdentify p m s = .next t' → z.Forward t' := by
  unfold execIdentify
  intro _ hE
  cases hE
  repeat' first
    | with_reducible assumption
    | with_reducible apply runCmd_fwd
    | intro _ _ _

theorem execGetHealth_fwd {z : State} (p : PortId) (m : MbxId) (s : State) (hC : z.Forward s) : ∀ t', execGetHealth p m s = .next t' → z.Forward t' := by
  unfold execGetHealth
  intro _ hE
  cases hE
  repeat' first
    | with_reducible assumption
    | with_reducible apply runCmd_fwd
    | intro _ _ _

theorem execSetEpoch_fwd {z : State} (p : PortId) (m : MbxId) (s : State) (hC : z.Forward s) : ∀ t', execSetEpoch p m s = .next t' → z.Forward t' := by
  unfold execSetEpoch
  intro _ hE
  cases hE
  repeat' first
    | with_reducible assumption
    | with_reducible apply fwd_ite
    | with_reducible apply State.updHs_fwd
    | with_reducible apply runCmd_fwd
    | intro _ _ _

theorem execFaultLogRead_fwd {z : State} (p : PortId) (m : MbxId) (s : State) (hC : z.Forward s) : ∀ t', execFaultLogRead p m s = .next t' → z.Forward t' := by
  unfold execFaultLogRead
  intro _ hE
  cases hE
  repeat' first
    | with_reducible assumption
    | with_reducible apply fwd_ite
    | with_reducible apply RunSt.start_fwd
    | with_reducible apply runCmd_fwd
    | intro _ _ _
    | intro _
    | dsimp only
    | split

theorem execRepairStatus_fwd {z : State} (p : PortId) (m : MbxId) (s : State) (hC : z.Forward s) : ∀ t', execRepairStatus p m s = .next t' → z.Forward t' := by
  unfold execRepairStatus
  intro _ hE
  cases hE
  repeat' first
    | with_reducible assumption
    | with_reducible apply runCmd_fwd
    | intro _ _ _

theorem execRepairCommit_fwd {z : State} (p : PortId) (m : MbxId) (s : State) (hC : z.Forward s) : ∀ t', execRepairCommit p m s = .next t' → z.Forward t' := by
  unfold execRepairCommit
  intro _ hE
  cases hE
  repeat' first
    | with_reducible assumption
    | with_reducible apply fwd_foldl
    | with_reducible apply persistRemaps_fwd
    | with_reducible apply persistCores_fwd
    | with_reducible apply runCmd_fwd
    | intro _ _ _

theorem fwUpdateRun_fwd {z : State} (image : HostReply) (c : Cmd) (s : State) (hC : z.Forward s) : z.Forward ((fwUpdateRun image c s).1) := by
  unfold fwUpdateRun
  repeat' first
    | with_reducible assumption
    | with_reducible apply fwd_ite
    | with_reducible apply State.updFlash_fwd
    | intro _ _ _
    | intro _
    | dsimp only
    | split

theorem execFwUpdate_fwd {z : State} (p : PortId) (m : MbxId) (image : HostReply) (s : State) (hC : z.Forward s) : ∀ t', execFwUpdate p m image s = .next t' → z.Forward t' := by
  unfold execFwUpdate
  intro _ hE
  cases hE
  repeat' first
    | with_reducible assumption
    | with_reducible apply runCmd_fwd
    | with_reducible apply fwUpdateRun_fwd

theorem execAttestQuote_fwd {z : State} (p : PortId) (m : MbxId) (s : State) (hC : z.Forward s) : ∀ t', execAttestQuote p m s = .next t' → z.Forward t' := by
  unfold execAttestQuote
  intro _ hE
  cases hE
  repeat' first
    | with_reducible assumption
    | with_reducible apply fwd_ite
    | with_reducible apply State.drew_fwd
    | with_reducible apply runCmd_fwd
    | intro _ _ _

theorem execLanePlanSet_fwd {z : State} (p : PortId) (m : MbxId) (s : State) (hC : z.Forward s) : ∀ t', execLanePlanSet p m s = .next t' → z.Forward t' := by
  unfold execLanePlanSet
  intro _ hE
  cases hE
  repeat' first
    | with_reducible assumption
    | with_reducible apply fwd_ite
    | with_reducible apply State.updFlash_fwd
    | with_reducible apply runCmd_fwd
    | intro _ _ _
    | intro _
    | dsimp only
    | split

theorem execLinkQuery_fwd {z : State} (p : PortId) (m : MbxId) (s : State) (hC : z.Forward s) : ∀ t', execLinkQuery p m s = .next t' → z.Forward t' := by
  unfold execLinkQuery
  intro _ hE
  cases hE
  repeat' first
    | with_reducible assumption
    | with_reducible apply runCmd_fwd
    | intro _ _ _

theorem configCmd_fwd {z : State} (p : PortId) (keep : Option Image) (c : Cmd) (s : State) (hC : z.Forward s) : z.Forward ((configCmd p keep c s).1) := by
  unfold configCmd
  repeat' first
    | with_reducible assumption
    | with_reducible apply configure_fwd

theorem execPartCreate_fwd {z : State} (p : PortId) (m : MbxId) (s : State) (hC : z.Forward s) : ∀ t', execPartCreate p m s = .next t' → z.Forward t' := by
  unfold execPartCreate
  intro _ hE
  cases hE
  repeat' first
    | with_reducible assumption
    | with_reducible apply runCmd_fwd
    | with_reducible apply configCmd_fwd

theorem execPartReconfigure_fwd {z : State} (p : PortId) (m : MbxId) (s : State) (hC : z.Forward s) : ∀ t', execPartReconfigure p m s = .next t' → z.Forward t' := by
  unfold execPartReconfigure
  intro _ hE
  cases hE
  repeat' first
    | with_reducible assumption
    | with_reducible apply runCmd_fwd
    | with_reducible apply configCmd_fwd
    | intro _ _ _

theorem execPartDestroy_fwd {z : State} (p : PortId) (m : MbxId) (s : State) (hC : z.Forward s) : ∀ t', execPartDestroy p m s = .next t' → z.Forward t' := by
  unfold execPartDestroy
  intro _ hE
  cases hE
  repeat' first
    | with_reducible assumption
    | with_reducible apply destroyPart_fwd
    | with_reducible apply runCmd_fwd
    | intro _ _ _

theorem execPartStop_fwd {z : State} (p : PortId) (m : MbxId) (s : State) (hC : z.Forward s) : ∀ t', execPartStop p m s = .next t' → z.Forward t' := by
  unfold execPartStop
  intro _ hE
  cases hE
  repeat' first
    | with_reducible assumption
    | with_reducible apply fwd_ite
    | with_reducible apply State.updPart_fwd
    | with_reducible apply runLater_fwd
    | intro _ _ _
    | intro _
    | dsimp only
    | split

theorem partStartRun_fwd {z : State} (seen : Seen) (span : List SpanAnswer) (c : Cmd) (s : State) (hC : z.Forward s) : z.Forward ((partStartRun seen span c s).1) := by
  unfold partStartRun
  repeat' first
    | with_reducible assumption
    | with_reducible apply fwd_ite
    | with_reducible apply State.emit_fwd
    | with_reducible apply startPart_fwd
    | intro _ _ _
    | intro _
    | dsimp only
    | split

theorem execPartStart_fwd {z : State} (p : PortId) (m : MbxId) (span : List SpanAnswer) (s : State) (hC : z.Forward s) : ∀ t', execPartStart p m span s = .next t' → z.Forward t' := by
  unfold execPartStart
  intro _ hE
  cases hE
  repeat' first
    | with_reducible assumption
    | with_reducible apply runCmd_fwd
    | with_reducible apply partStartRun_fwd

theorem execPartQuery_fwd {z : State} (p : PortId) (m : MbxId) (s : State) (hC : z.Forward s) : ∀ t', execPartQuery p m s = .next t' → z.Forward t' := by
  unfold execPartQuery
  intro _ hE
  cases hE
  repeat' first
    | with_reducible assumption
    | with_reducible apply runCmd_fwd
    | intro _ _ _

theorem execSeedSet_fwd {z : State} (p : PortId) (m : MbxId) (s : State) (hC : z.Forward s) : ∀ t', execSeedSet p m s = .next t' → z.Forward t' := by
  unfold execSeedSet
  intro _ hE
  cases hE
  repeat' first
    | with_reducible assumption
    | with_reducible apply State.updPart_fwd
    | with_reducible apply runCmd_fwd
    | intro _ _ _

theorem releaseImage_fwd {z : State} (p : PortId) (h : Nat) (s : State) (hC : z.Forward s) : z.Forward ((releaseImage p h s).1) := by
  unfold releaseImage
  repeat' first
    | with_reducible assumption
    | with_reducible apply State.updPort_fwd
    | intro _ _ _
    | intro _
    | dsimp only
    | split

theorem stageImage_fwd {z : State} (p : PortId) (len : Nat) (image : ImageReply) (s : State) (hC : z.Forward s) : z.Forward ((stageImage p len image s).1) := by
  unfold stageImage
  repeat' first
    | with_reducible assumption
    | with_reducible apply fwd_ite
    | with_reducible apply State.updPort_fwd
    | intro _ _ _
    | intro _
    | dsimp only
    | split

theorem execImageLoad_fwd {z : State} (p : PortId) (m : MbxId) (image : ImageReply) (s : State) (hC : z.Forward s) : ∀ t', execImageLoad p m image s = .next t' → z.Forward t' := by
  unfold execImageLoad
  intro _ hE
  cases hE
  repeat' first
    | with_reducible assumption
    | with_reducible apply fwd_ite
    | with_reducible apply runCmd_fwd
    | with_reducible apply releaseImage_fwd
    | with_reducible apply stageImage_fwd
    | intro _ _ _
    | intro _
    | dsimp only
    | split

theorem addChange_fwd {z : State} (q : Nat) (c : MapChange) (s : State) (hC : z.Forward s) : z.Forward (addChange q c s) := by
  unfold addChange
  repeat' first
    | with_reducible assumption
    | with_reducible apply State.updPart_fwd

theorem memMapRun_fwd {z : State} (p : PortId) (m : Nat) (c : Cmd) (s : State) (hC : z.Forward s) : z.Forward ((memMapRun p m c s).1) := by
  unfold memMapRun
  repeat' first
    | with_reducible assumption
    | with_reducible apply fwd_ite
    | with_reducible apply fwd_foldl
    | with_reducible apply State.updPort_fwd
    | with_reducible apply addChange_fwd
    | intro _ _ _
    | intro _
    | dsimp only
    | split

theorem execMemMap_fwd {z : State} (p : PortId) (m : MbxId) (s : State) (hC : z.Forward s) : ∀ t', execMemMap p m s = .next t' → z.Forward t' := by
  unfold execMemMap
  intro _ hE
  cases hE
  repeat' first
    | with_reducible assumption
    | with_reducible apply fwd_ite
    | with_reducible apply runLater_fwd
    | with_reducible apply memMapRun_fwd

theorem beginMigration_fwd {z : State} (p : PortId) (m q va dest : Nat) (s : State) (hC : z.Forward s) : z.Forward (beginMigration p m q va dest s) := by
  unfold beginMigration
  repeat' first
    | with_reducible assumption
    | with_reducible apply State.updPart_fwd
    | with_reducible apply invalidate_fwd

theorem execMemMapMigrate_fwd {z : State} (p : PortId) (m : MbxId) (s : State) (hC : z.Forward s) : ∀ t', execMemMapMigrate p m s = .next t' → z.Forward t' := by
  unfold execMemMapMigrate
  intro _ hE
  cases hE
  repeat' first
    | with_reducible assumption
    | with_reducible apply fwd_ite
    | with_reducible apply runLater_fwd
    | with_reducible apply beginMigration_fwd
    | intro _ _ _
    | intro _
    | dsimp only
    | split

theorem memUnmapRun_fwd {z : State} (p : PortId) (m : Nat) (c : Cmd) (s : State) (hC : z.Forward s) : z.Forward ((memUnmapRun p m c s).1) := by
  unfold memUnmapRun
  repeat' first
    | with_reducible assumption
    | with_reducible apply fwd_ite
    | with_reducible apply State.updPort_fwd
    | with_reducible apply addChange_fwd
    | intro _ _ _
    | intro _
    | dsimp only
    | split

theorem execMemUnmap_fwd {z : State} (p : PortId) (m : MbxId) (s : State) (hC : z.Forward s) : ∀ t', execMemUnmap p m s = .next t' → z.Forward t' := by
  unfold execMemUnmap
  intro _ hE
  cases hE
  repeat' first
    | with_reducible assumption
    | with_reducible apply runCmd_fwd
    | with_reducible apply memUnmapRun_fwd

theorem windowOpenRun_fwd {z : State} (p : PortId) (m : Nat) (c : Cmd) (s : State) (hC : z.Forward s) : z.Forward ((windowOpenRun p m c s).1) := by
  unfold windowOpenRun
  repeat' first
    | with_reducible assumption
    | with_reducible apply fwd_ite
    | with_reducible apply addChange_fwd
    | intro _ _ _
    | intro _
    | dsimp only
    | split

theorem execWindowOpen_fwd {z : State} (p : PortId) (m : MbxId) (s : State) (hC : z.Forward s) : ∀ t', execWindowOpen p m s = .next t' → z.Forward t' := by
  unfold execWindowOpen
  intro _ hE
  cases hE
  repeat' first
    | with_reducible assumption
    | with_reducible apply runCmd_fwd
    | with_reducible apply windowOpenRun_fwd

theorem windowCloseRun_fwd {z : State} (p : PortId) (m : Nat) (c : Cmd) (s : State) (hC : z.Forward s) : z.Forward ((windowCloseRun p m c s).1) := by
  unfold windowCloseRun
  repeat' first
    | with_reducible assumption
    | with_reducible apply fwd_ite
    | with_reducible apply addChange_fwd
    | intro _ _ _
    | intro _
    | dsimp only
    | split

theorem execWindowClose_fwd {z : State} (p : PortId) (m : MbxId) (s : State) (hC : z.Forward s) : ∀ t', execWindowClose p m s = .next t' → z.Forward t' := by
  unfold execWindowClose
  intro _ hE
  cases hE
  repeat' first
    | with_reducible assumption
    | with_reducible apply runCmd_fwd
    | with_reducible apply windowCloseRun_fwd

theorem execStreamOpen_fwd {z : State} (p : PortId) (m : MbxId) (s : State) (hC : z.Forward s) : ∀ t', execStreamOpen p m s = .next t' → z.Forward t' := by
  unfold execStreamOpen
  intro _ hE
  cases hE
  repeat' first
    | with_reducible assumption
    | with_reducible apply fwd_ite
    | with_reducible apply State.updPart_fwd
    | with_reducible apply runCmd_fwd
    | intro _ _ _
    | intro _
    | dsimp only
    | split

theorem execStreamClose_fwd {z : State} (p : PortId) (m : MbxId) (s : State) (hC : z.Forward s) : ∀ t', execStreamClose p m s = .next t' → z.Forward t' := by
  unfold execStreamClose
  intro _ hE
  cases hE
  repeat' first
    | with_reducible assumption
    | with_reducible apply fwd_ite
    | with_reducible apply State.updPart_fwd
    | with_reducible apply runCmd_fwd
    | intro _ _ _
    | intro _
    | dsimp only
    | split

theorem execRecordConfig_fwd {z : State} (p : PortId) (m : MbxId) (s : State) (hC : z.Forward s) : ∀ t', execRecordConfig p m s = .next t' → z.Forward t' := by
  unfold execRecordConfig
  intro _ hE
  cases hE
  repeat' first
    | with_reducible assumption
    | with_reducible apply fwd_ite
    | with_reducible apply State.updPart_fwd
    | with_reducible apply runCmd_fwd
    | intro _ _ _
    | intro _
    | dsimp only
    | split

theorem peekBytes_fwd {z : State} (gs : List Region) (x0 : Nat) (x10 : Nat) (x11 : Nat) (x2 : State) (hC : z.Forward x2) : z.Forward ((peekBytes gs x0 x10 x11 x2).1) := by
  induction x0 generalizing x10 x11 x2 with
  | zero =>
    unfold peekBytes
    repeat' first
      | with_reducible assumption
  | succ n ih =>
    unfold peekBytes
    repeat' first
      | with_reducible apply ih
      | with_reducible assumption
      | with_reducible apply fwd_ite
      | with_reducible apply lineNow_fwd
      | intro _ _ _
      | intro _
      | dsimp only
      | split

theorem beginReplay_fwd {z : State} (p : PortId) (m q va len last : Nat) (items : List RecItem) (s : State) (hC : z.Forward s) : z.Forward (beginReplay p m q va len last items s) := by
  unfold beginReplay
  repeat' first
    | with_reducible assumption
    | with_reducible apply fwd_ite
    | with_reducible apply State.updPart_fwd
    | with_reducible apply replayEnd_fwd
    | with_reducible apply rewindPart_fwd

theorem ringRead_fwd {z : State} (gs : List Region) (va n : Nat) (s : State) (hC : z.Forward s) : z.Forward (ringRead gs va n s) := by
  unfold ringRead
  repeat' first
    | with_reducible assumption
    | with_reducible apply peekBytes_fwd

theorem replayRun_fwd {z : State} (p : PortId) (m : Nat) (c : Cmd) (s : State) (hC : z.Forward s) : z.Forward ((replayRun p m c s).1) := by
  unfold replayRun
  repeat' first
    | with_reducible assumption
    | with_reducible apply fwd_ite
    | with_reducible apply settleWrites_fwd
    | with_reducible apply peekBytes_fwd
    | with_reducible apply beginReplay_fwd
    | with_reducible apply ringRead_fwd
    | intro _ _ _
    | intro _
    | dsimp only
    | split

theorem execReplayRun_fwd {z : State} (p : PortId) (m : MbxId) (s : State) (hC : z.Forward s) : ∀ t', execReplayRun p m s = .next t' → z.Forward t' := by
  unfold execReplayRun
  intro _ hE
  cases hE
  repeat' first
    | with_reducible assumption
    | with_reducible apply runLater_fwd
    | with_reducible apply replayRun_fwd

theorem diagRun_fwd {z : State} (p : PortId) (m test : Nat) (f : Cmd → State → State × MbxResult) (s : State) (hC : z.Forward s)
    (hf : ∀ c s, z.Forward s → z.Forward ((f c s).1)) : z.Forward (diagRun p m test f s) := by
  unfold diagRun
  split
  · refine runCmd_fwd p m _ _ s hC fun c s h => ?_
    split
    · exact hf c s h
    · exact h
  · exact hC

theorem execDiagRescueRead_fwd {z : State} (p : PortId) (m : MbxId) (s : State) (hC : z.Forward s) : ∀ t', execDiagRescueRead p m s = .next t' → z.Forward t' := by
  unfold execDiagRescueRead
  intro _ hE
  cases hE
  repeat' first
    | with_reducible assumption
    | with_reducible apply diagRun_fwd
    | intro _ _ _
    | intro _
    | dsimp only
    | split

theorem execDiagCoreStoreRead_fwd {z : State} (p : PortId) (m : MbxId) (s : State) (hC : z.Forward s) : ∀ t', execDiagCoreStoreRead p m s = .next t' → z.Forward t' := by
  unfold execDiagCoreStoreRead
  intro _ hE
  cases hE
  repeat' first
    | with_reducible assumption
    | with_reducible apply fwd_ite
    | with_reducible apply diagRun_fwd
    | intro _ _ _
    | intro _
    | dsimp only
    | split

theorem execDiagStampRead_fwd {z : State} (p : PortId) (m : MbxId) (s : State) (hC : z.Forward s) : ∀ t', execDiagStampRead p m s = .next t' → z.Forward t' := by
  unfold execDiagStampRead
  intro _ hE
  cases hE
  repeat' first
    | with_reducible assumption
    | with_reducible apply fwd_ite
    | with_reducible apply diagRun_fwd
    | intro _ _ _
    | intro _
    | dsimp only
    | split

theorem execDiagRegisterRead_fwd {z : State} (p : PortId) (m : MbxId) (s : State) (hC : z.Forward s) : ∀ t', execDiagRegisterRead p m s = .next t' → z.Forward t' := by
  unfold execDiagRegisterRead
  intro _ hE
  cases hE
  repeat' first
    | with_reducible assumption
    | with_reducible apply fwd_ite
    | with_reducible apply diagRun_fwd
    | intro _ _ _
    | intro _
    | dsimp only
    | split

theorem execDiagDebugBreak_fwd {z : State} (p : PortId) (m : MbxId) (s : State) (hC : z.Forward s) : ∀ t', execDiagDebugBreak p m s = .next t' → z.Forward t' := by
  unfold execDiagDebugBreak
  intro _ hE
  cases hE
  repeat' first
    | with_reducible assumption
    | with_reducible apply debugBreak_fwd
    | with_reducible apply diagRun_fwd
    | intro _ _ _
    | intro _
    | dsimp only
    | split

theorem hmRun_fwd {z : State} (p : PortId) (op : Nat) (f : Nat → State → State × HmbResult) (s : State) (hC : z.Forward s)
    (hf : ∀ c s, z.Forward s → z.Forward ((f c s).1)) : z.Forward (hmRun p op f s) := by
  unfold hmRun
  dsimp only
  split
  · exact State.updPort_fwd (hf _ s hC) p _
  · exact hC

theorem execHmStatus_fwd {z : State} (p : PortId) (s : State) (hC : z.Forward s) : ∀ t', execHmStatus p s = .next t' → z.Forward t' := by
  unfold execHmStatus
  intro _ hE
  cases hE
  repeat' first
    | with_reducible assumption
    | with_reducible apply hmRun_fwd
    | intro _ _ _

theorem execHmLog_fwd {z : State} (p : PortId) (s : State) (hC : z.Forward s) : ∀ t', execHmLog p s = .next t' → z.Forward t' := by
  unfold execHmLog
  intro _ hE
  cases hE
  repeat' first
    | with_reducible assumption
    | with_reducible apply fwd_ite
    | with_reducible apply hmRun_fwd
    | intro _ _ _
    | intro _
    | dsimp only
    | split

theorem resetDie_fwd {z : State} (d : Nat) (s : State) (hC : z.Forward s) : z.Forward (resetDie d s) := by
  unfold resetDie
  repeat' first
    | with_reducible assumption
    | with_reducible apply fwd_ite
    | with_reducible apply State.updDie_fwd
    | intro _ _ _
    | intro _
    | dsimp only
    | split
    | (with_reducible apply fwd_misc; with_reducible first | assumption | apply State.updDie_fwd)

theorem execHmDieReset_fwd {z : State} (p : PortId) (s : State) (hC : z.Forward s) : ∀ t', execHmDieReset p s = .next t' → z.Forward t' := by
  unfold execHmDieReset
  intro _ hE
  cases hE
  repeat' first
    | with_reducible assumption
    | with_reducible apply fwd_ite
    | with_reducible apply fenceDie_fwd
    | with_reducible apply hmRun_fwd
    | with_reducible apply resetDie_fwd
    | intro _ _ _
    | intro _
    | dsimp only
    | split

theorem abandonMailboxes_fwd {z : State} (p : PortId) (s : State) (hC : z.Forward s) : z.Forward (abandonMailboxes p s) := by
  unfold abandonMailboxes
  repeat' first
    | with_reducible assumption
    | with_reducible apply fwd_ite
    | with_reducible apply fwd_foldl
    | with_reducible apply State.updMbx_fwd
    | intro _ _ _

theorem execHmFwRestart_fwd {z : State} (p : PortId) (s : State) (hC : z.Forward s) : ∀ t', execHmFwRestart p s = .next t' → z.Forward t' := by
  unfold execHmFwRestart
  intro _ hE
  cases hE
  repeat' first
    | with_reducible assumption
    | with_reducible apply fwd_ite
    | with_reducible apply fwd_foldl
    | with_reducible apply State.updHs_fwd
    | with_reducible apply stopWithin_fwd
    | with_reducible apply abandonPort_fwd
    | with_reducible apply hmRun_fwd
    | with_reducible apply abandonMailboxes_fwd
    | intro _ _ _
    | intro _
    | dsimp only
    | split

theorem execHmPortQuiesce_fwd {z : State} (p : PortId) (s : State) (hC : z.Forward s) : ∀ t', execHmPortQuiesce p s = .next t' → z.Forward t' := by
  unfold execHmPortQuiesce
  intro _ hE
  cases hE
  repeat' first
    | with_reducible assumption
    | with_reducible apply fwd_ite
    | with_reducible apply State.updPort_fwd
    | with_reducible apply hostLost_fwd

theorem execHmSnapshot_fwd {z : State} (p : PortId) (s : State) (hC : z.Forward s) : ∀ t', execHmSnapshot p s = .next t' → z.Forward t' := by
  unfold execHmSnapshot
  intro _ hE
  cases hE
  repeat' first
    | with_reducible assumption
    | with_reducible apply fwd_ite
    | with_reducible apply fwd_foldl
    | with_reducible apply State.updCore_fwd
    | with_reducible apply stopWithin_fwd
    | with_reducible apply hmRun_fwd
    | intro _ _ _

theorem execHmbComplete_fwd {z : State} (p : PortId) (s : State) (hC : z.Forward s) : ∀ t', execHmbComplete p s = .next t' → z.Forward t' := by
  unfold execHmbComplete
  intro _ hE
  cases hE
  repeat' first
    | with_reducible assumption
    | with_reducible apply fwd_ite
    | with_reducible apply State.updPort_fwd
    | with_reducible apply State.updHs_fwd
    | with_reducible apply raiseVector_fwd
    | intro _ _ _
    | intro _
    | dsimp only
    | split

theorem bistEntry_fwd {z : State} (cls addr code : Nat) (r : Res) (s : State) (hC : z.Forward s) : z.Forward (bistEntry cls addr code r s) := by
  unfold bistEntry
  repeat' first
    | with_reducible assumption
    | with_reducible apply logEvent_fwd

theorem retireCore_fwd {z : State} (c cls : Nat) (s : State) (hC : z.Forward s) : z.Forward (retireCore c cls s) := by
  unfold retireCore
  repeat' first
    | with_reducible assumption
    | with_reducible apply fwd_ite
    | with_reducible apply State.updFlash_fwd
    | with_reducible apply bistEntry_fwd

theorem rowFails_fwd {z : State} (c row : Nat) (s : State) (hC : z.Forward s) : z.Forward (rowFails c row s) := by
  unfold rowFails
  repeat' first
    | with_reducible assumption
    | with_reducible apply fwd_ite
    | with_reducible apply State.updFlash_fwd
    | with_reducible apply bistEntry_fwd
    | with_reducible apply retireCore_fwd
    | intro _ _ _
    | intro _
    | dsimp only
    | split

theorem wayFails_fwd {z : State} (t : TlbUser) (way : Nat) (s : State) (hC : z.Forward s) : z.Forward (wayFails t way s) := by
  unfold wayFails
  repeat' first
    | with_reducible assumption
    | with_reducible apply fwd_ite
    | with_reducible apply State.updFlash_fwd
    | with_reducible apply bistEntry_fwd
    | with_reducible apply retireCore_fwd
    | intro _ _ _
    | intro _
    | dsimp only
    | split

theorem applyBist_fwd {z : State} (s : State) (x0 : BistFail) (hC : z.Forward s) : z.Forward (applyBist s x0) := by
  unfold applyBist
  repeat' first
    | with_reducible assumption
    | with_reducible apply fwd_ite
    | with_reducible apply State.updFlash_fwd
    | with_reducible apply bistEntry_fwd
    | with_reducible apply retireCore_fwd
    | with_reducible apply rowFails_fwd
    | with_reducible apply wayFails_fwd
    | intro _ _ _
    | intro _
    | dsimp only
    | split

theorem applyPending_fwd {z : State} (on : Nat → Bool) (bist : List BistFail) (s : State) (hC : z.Forward s) : z.Forward (applyPending on bist s) := by
  unfold applyPending
  repeat' first
    | with_reducible assumption
    | with_reducible apply fwd_foldl
    | with_reducible apply State.updFlash_fwd

theorem enableDie_fwd {z : State} (d : Nat) (s : State) (hC : z.Forward s) : z.Forward (enableDie d s) := by
  unfold enableDie
  repeat' first
    | with_reducible assumption
    | with_reducible apply fwd_foldl
    | with_reducible apply State.updCore_fwd
    | with_reducible apply State.updDie_fwd
    | intro _ _ _

theorem clearLasting_fwd {z : State} (d : Nat) (s : State) (hC : z.Forward s) : z.Forward (clearLasting d s) := by
  unfold clearLasting
  repeat' first
    | with_reducible assumption
    | intro _ _ _
    | intro _
    | dsimp only
    | split
    | (with_reducible apply fwd_misc; with_reducible first | assumption)

theorem execDieBistComplete_fwd {z : State} (d : DieId) (bist : List BistFail) (s : State) (hC : z.Forward s) : ∀ t', execDieBistComplete d bist s = .next t' → z.Forward t' := by
  unfold execDieBistComplete
  intro _ hE
  cases hE
  repeat' first
    | with_reducible assumption
    | with_reducible apply fwd_ite
    | with_reducible apply fwd_foldl
    | with_reducible apply logEvent_fwd
    | with_reducible apply updateHealth_fwd
    | with_reducible apply applyBist_fwd
    | with_reducible apply applyPending_fwd
    | with_reducible apply enableDie_fwd
    | with_reducible apply clearLasting_fwd

theorem execComputeDieReset_fwd {z : State} (d : DieId) (s : State) (hC : z.Forward s) : ∀ t', execComputeDieReset d s = .next t' → z.Forward t' := by
  unfold execComputeDieReset
  intro _ hE
  cases hE
  repeat' first
    | with_reducible assumption
    | with_reducible apply fwd_ite
    | with_reducible apply fenceDie_fwd

theorem execChatterWindowStart_fwd {z : State} (d : ChatDie) (s : State) (hC : z.Forward s) : ∀ t', execChatterWindowStart d s = .next t' → z.Forward t' := by
  unfold execChatterWindowStart
  intro _ hE
  cases hE
  repeat' first
    | with_reducible assumption
    | with_reducible apply fwd_ite
    | intro _ _ _
    | intro _
    | dsimp only
    | split
    | (with_reducible apply fwd_misc; with_reducible first | assumption)

theorem execFlitCrcRetry_fwd {z : State} (b : BundleId) (lane : Fin 18) (dead : Bool) (s : State) (hC : z.Forward s) : ∀ t', execFlitCrcRetry b lane dead s = .next t' → z.Forward t' := by
  unfold execFlitCrcRetry
  intro _ hE
  cases hE
  repeat' first
    | with_reducible assumption
    | with_reducible apply fwd_ite
    | with_reducible apply State.updLane_fwd
    | with_reducible apply chatter_fwd
    | with_reducible apply chatterUe_fwd

theorem laneDone_fwd {z : State} (cls src addr count code : Nat) (s : State) (hC : z.Forward s) : z.Forward (laneDone cls src addr count code s) := by
  unfold laneDone
  repeat' first
    | with_reducible assumption
    | with_reducible apply logEvent_fwd

theorem swapBundle_fwd {z : State} (b : Nat) (s : State) (hC : z.Forward s) : z.Forward (swapBundle b s) := by
  unfold swapBundle
  repeat' first
    | with_reducible assumption
    | with_reducible apply fwd_ite
    | with_reducible apply State.updLane_fwd
    | with_reducible apply State.updFlash_fwd
    | with_reducible apply laneDone_fwd
    | intro _ _ _
    | intro _
    | dsimp only
    | split

theorem retireLinkLane_fwd {z : State} (l i : Nat) (s : State) (hC : z.Forward s) : z.Forward (retireLinkLane l i s) := by
  unfold retireLinkLane
  repeat' first
    | with_reducible assumption
    | with_reducible apply State.updFlash_fwd

theorem swapLink_fwd {z : State} (l : Nat) (s : State) (hC : z.Forward s) : z.Forward (swapLink l s) := by
  unfold swapLink
  repeat' first
    | with_reducible assumption
    | with_reducible apply State.updLink_fwd
    | with_reducible apply laneDone_fwd
    | with_reducible apply retireLinkLane_fwd
    | intro _ _ _
    | intro _
    | dsimp only
    | split

theorem execLaneSpareSwap_fwd {z : State} (l : LaneRef) (s : State) (hC : z.Forward s) : ∀ t', execLaneSpareSwap l s = .next t' → z.Forward t' := by
  unfold execLaneSpareSwap
  intro _ hE
  cases hE
  repeat' first
    | with_reducible assumption
    | with_reducible apply fwd_ite
    | with_reducible apply swapBundle_fwd
    | with_reducible apply swapLink_fwd
    | intro _ _ _
    | intro _
    | dsimp only
    | split

theorem linkGone_fwd {z : State} (l : Nat) (cut : List PartId) (s : State) (hC : z.Forward s) : z.Forward (linkGone l cut s) := by
  unfold linkGone
  repeat' first
    | with_reducible assumption
    | with_reducible apply fwd_foldl
    | with_reducible apply State.updHs_fwd
    | with_reducible apply faultPart_fwd
    | with_reducible apply updateHealth_fwd
    | with_reducible apply degradation_fwd
    | intro _ _ _

theorem cutElsewhere_fwd {z : State} (s : State) (q : PartId) (hC : z.Forward s) : z.Forward (cutElsewhere s q) := by
  unfold cutElsewhere
  repeat' first
    | with_reducible assumption
    | with_reducible apply fwd_ite
    | with_reducible apply faultPart_fwd

theorem execScaleoutLinkDown_fwd {z : State} (l : Option LinkId) (cut : List PartId) (s : State) (hC : z.Forward s) : ∀ t', execScaleoutLinkDown l cut s = .next t' → z.Forward t' := by
  unfold execScaleoutLinkDown
  intro _ hE
  cases hE
  repeat' first
    | with_reducible assumption
    | with_reducible apply fwd_ite
    | with_reducible apply fwd_foldl
    | with_reducible apply State.updLink_fwd
    | with_reducible apply linkGone_fwd
    | with_reducible apply cutElsewhere_fwd
    | intro _ _ _
    | intro _
    | dsimp only
    | split

theorem linkChanged_fwd {z : State} (l i : Nat) (old : Link) (cut : List PartId) (s : State) (hC : z.Forward s) : z.Forward (linkChanged l i old cut s) := by
  unfold linkChanged
  repeat' first
    | with_reducible assumption
    | with_reducible apply fwd_ite
    | with_reducible apply updateHealth_fwd
    | with_reducible apply degradation_fwd
    | with_reducible apply laneDone_fwd
    | with_reducible apply retireLinkLane_fwd
    | with_reducible apply linkGone_fwd

theorem execFecCodeword_fwd {z : State} (l : LinkId) (lane : Fin 5) (corrected : Bool) (cut : List PartId) (s : State) (hC : z.Forward s) : ∀ t', execFecCodeword l lane corrected cut s = .next t' → z.Forward t' := by
  unfold execFecCodeword
  intro _ hE
  cases hE
  repeat' first
    | with_reducible assumption
    | with_reducible apply fwd_ite
    | with_reducible apply State.updLink_fwd
    | with_reducible apply chatter_fwd
    | with_reducible apply chatterUe_fwd
    | with_reducible apply linkChanged_fwd

theorem trainLink_fwd {z : State} (l : Nat) (peer : LinkPeer) (s : State) (hC : z.Forward s) : z.Forward (trainLink l peer s) := by
  unfold trainLink
  repeat' first
    | with_reducible assumption
    | with_reducible apply fwd_ite
    | with_reducible apply State.updLink_fwd

theorem execScaleoutLinkTrain_fwd {z : State} (l : LinkId) (peer : LinkPeer) (s : State) (hC : z.Forward s) : ∀ t', execScaleoutLinkTrain l peer s = .next t' → z.Forward t' := by
  unfold execScaleoutLinkTrain
  intro _ hE
  cases hE
  repeat' first
    | with_reducible assumption
    | with_reducible apply fwd_ite
    | with_reducible apply updateHealth_fwd
    | with_reducible apply trainLink_fwd

theorem giveRole_fwd {z : State} (role : Nat) (s : State) (c : Nat) (hC : z.Forward s) : z.Forward (giveRole role s c) := by
  unfold giveRole
  repeat' first
    | with_reducible assumption
    | with_reducible apply fwd_ite
    | with_reducible apply State.updLane_fwd
    | intro _ _ _
    | intro _
    | dsimp only
    | split

theorem giveRoles_fwd {z : State} (s : State) (hC : z.Forward s) : z.Forward (giveRoles s) := by
  unfold giveRoles
  repeat' first
    | with_reducible assumption
    | with_reducible apply fwd_foldl
    | with_reducible apply giveRole_fwd

theorem retireBundle_fwd {z : State} (s : State) (b : Nat) (hC : z.Forward s) : z.Forward (retireBundle s b) := by
  unfold retireBundle
  repeat' first
    | with_reducible assumption
    | with_reducible apply fwd_ite
    | with_reducible apply State.updLane_fwd
    | with_reducible apply State.updFlash_fwd
    | with_reducible apply degradation_fwd
    | with_reducible apply laneDone_fwd

theorem putHops_fwd {z : State} (s : State) (e : PartId × Nat) (hC : z.Forward s) : z.Forward (putHops s e) := by
  unfold putHops
  repeat' first
    | with_reducible assumption
    | with_reducible apply fwd_ite
    | with_reducible apply State.updPart_fwd

theorem execRouteChangeComplete_fwd {z : State} (hops : List (PartId × Nat)) (s : State) (hC : z.Forward s) : ∀ t', execRouteChangeComplete hops s = .next t' → z.Forward t' := by
  unfold execRouteChangeComplete
  intro _ hE
  cases hE
  repeat' first
    | with_reducible assumption
    | with_reducible apply fwd_ite
    | with_reducible apply fwd_foldl
    | with_reducible apply State.updHs_fwd
    | with_reducible apply updateHealth_fwd
    | with_reducible apply enterFailed_fwd
    | with_reducible apply giveRoles_fwd
    | with_reducible apply retireBundle_fwd
    | with_reducible apply putHops_fwd

theorem readmit_fwd {z : State} (s : State) (q : Nat) (hC : z.Forward s) : z.Forward (readmit s q) := by
  unfold readmit
  repeat' first
    | with_reducible assumption
    | with_reducible apply fwd_ite
    | with_reducible apply State.updPart_fwd
    | with_reducible apply State.drew_fwd
    | with_reducible apply notifyPart_fwd
    | with_reducible apply stopWithin_fwd
    | intro _ _ _
    | intro _
    | dsimp only
    | split

theorem execDegradationReadmission_fwd {z : State} (s : State) (hC : z.Forward s) : ∀ t', execDegradationReadmission s = .next t' → z.Forward t' := by
  unfold execDegradationReadmission
  intro _ hE
  cases hE
  repeat' first
    | with_reducible assumption
    | with_reducible apply fwd_ite
    | with_reducible apply fwd_foldl
    | with_reducible apply State.updHs_fwd
    | with_reducible apply readmit_fwd

theorem resetAll_fwd {z : State} (s : State) (hC : z.Forward s) : z.Forward (resetAll s) := by
  unfold resetAll
  repeat' first
    | with_reducible assumption
    | intro _ _ _
    | intro _
    | dsimp only
    | split
    | (with_reducible apply fwd_misc; with_reducible first | assumption)

theorem startFw_fwd {z : State} (n : Nat) (s : State) (hC : z.Forward s) : z.Forward (startFw n s) := by
  unfold startFw
  repeat' first
    | with_reducible assumption
    | with_reducible apply State.updHs_fwd

theorem bistStep_fwd {z : State} (boot : BootEnv) (s : State) (hC : z.Forward s) : z.Forward (bistStep boot s) := by
  unfold bistStep
  repeat' first
    | with_reducible assumption
    | with_reducible apply fwd_ite
    | with_reducible apply fwd_foldl
    | with_reducible apply State.updBed_fwd
    | with_reducible apply State.updHs_fwd
    | with_reducible apply State.updFlash_fwd
    | with_reducible apply State.drewN_fwd
    | with_reducible apply logEvent_fwd
    | with_reducible apply applyBist_fwd
    | with_reducible apply applyPending_fwd
    | with_reducible apply enableDie_fwd
    | intro _ _ _

theorem laneStep_fwd {z : State} (boot : BootEnv) (s : State) (hC : z.Forward s) : z.Forward (laneStep boot s) := by
  unfold laneStep
  repeat' first
    | with_reducible assumption
    | with_reducible apply fwd_foldl
    | with_reducible apply State.updLane_fwd
    | with_reducible apply State.updHs_fwd
    | with_reducible apply giveRoles_fwd
    | intro _ _ _

theorem hbmStep_fwd {z : State} (s : State) (hC : z.Forward s) : z.Forward (hbmStep s) := by
  unfold hbmStep
  repeat' first
    | with_reducible assumption
    | with_reducible apply fwd_foldl
    | with_reducible apply State.updStack_fwd
    | with_reducible apply State.updFlash_fwd
    | intro _ _ _

theorem linkStep_fwd {z : State} (boot : BootEnv) (s : State) (hC : z.Forward s) : z.Forward (linkStep boot s) := by
  unfold linkStep
  repeat' first
    | with_reducible assumption
    | with_reducible apply fwd_foldl
    | with_reducible apply State.updLink_fwd
    | with_reducible apply trainLink_fwd
    | intro _ _ _

theorem healthStep_fwd {z : State} (s : State) (hC : z.Forward s) : z.Forward (healthStep s) := by
  unfold healthStep
  repeat' first
    | with_reducible assumption
    | with_reducible apply fwd_ite
    | with_reducible apply State.updHs_fwd
    | with_reducible apply setHealth_fwd

theorem dieSteps_fwd {z : State} (boot : BootEnv) (s : State) (hC : z.Forward s) : z.Forward (dieSteps boot s) := by
  unfold dieSteps
  repeat' first
    | with_reducible assumption
    | with_reducible apply fwd_ite
    | with_reducible apply State.updHs_fwd
    | with_reducible apply enterFailed_fwd
    | with_reducible apply bistStep_fwd
    | with_reducible apply laneStep_fwd
    | with_reducible apply hbmStep_fwd
    | with_reducible apply linkStep_fwd
    | with_reducible apply healthStep_fwd

theorem powerUp_fwd {z : State} (boot : BootEnv) (s : State) (hC : z.Forward s) : z.Forward (powerUp boot s) := by
  unfold powerUp
  repeat' first
    | with_reducible assumption
    | with_reducible apply fwd_ite
    | with_reducible apply State.updPower_fwd
    | with_reducible apply State.updFlash_fwd
    | with_reducible apply enterFailed_fwd
    | with_reducible apply startFw_fwd
    | with_reducible apply dieSteps_fwd
    | intro _ _ _
    | intro _
    | dsimp only
    | split

theorem execPowerGood_fwd {z : State} (boot : BootEnv) (s : State) (hC : z.Forward s) : ∀ t', execPowerGood boot s = .next t' → z.Forward t' := by
  unfold execPowerGood
  intro _ hE
  cases hE
  repeat' first
    | with_reducible assumption
    | with_reducible apply fwd_ite
    | with_reducible apply State.updPower_fwd
    | with_reducible apply powerUp_fwd

theorem execPowerGoodWithdrawn_fwd {z : State} (vin10mV : Nat) (s : State) (hC : z.Forward s) : ∀ t', execPowerGoodWithdrawn vin10mV s = .next t' → z.Forward t' := by
  unfold execPowerGoodWithdrawn
  intro _ hE
  cases hE
  repeat' first
    | with_reducible assumption
    | with_reducible apply fwd_ite
    | with_reducible apply State.updPower_fwd
    | with_reducible apply resetAll_fwd

theorem execModResetAssert_fwd {z : State} (s : State) (hC : z.Forward s) : ∀ t', execModResetAssert s = .next t' → z.Forward t' := by
  unfold execModResetAssert
  intro _ hE
  cases hE
  repeat' first
    | with_reducible assumption
    | with_reducible apply fwd_ite
    | with_reducible apply State.updPower_fwd
    | with_reducible apply resetAll_fwd

theorem execModResetDeassert_fwd {z : State} (boot : BootEnv) (s : State) (hC : z.Forward s) : ∀ t', execModResetDeassert boot s = .next t' → z.Forward t' := by
  unfold execModResetDeassert
  intro _ hE
  cases hE
  repeat' first
    | with_reducible assumption
    | with_reducible apply fwd_ite
    | with_reducible apply State.updPower_fwd
    | with_reducible apply powerUp_fwd

theorem freeFaults_fwd {z : State} (s : State) (hC : z.Forward s) : z.Forward (freeFaults s) := by
  unfold freeFaults
  repeat' first
    | with_reducible assumption
    | intro _ _ _
    | intro _
    | dsimp only
    | split
    | (with_reducible apply fwd_misc; with_reducible first | assumption)

theorem execControlCoreBoot_fwd {z : State} (s : State) (hC : z.Forward s) : ∀ t', execControlCoreBoot s = .next t' → z.Forward t' := by
  unfold execControlCoreBoot
  intro _ hE
  cases hE
  repeat' first
    | with_reducible assumption
    | with_reducible apply fwd_ite
    | with_reducible apply State.updHs_fwd
    | with_reducible apply enterFailed_fwd
    | with_reducible apply startFw_fwd
    | with_reducible apply freeFaults_fwd
    | intro _ _ _
    | intro _
    | dsimp only
    | split

theorem boundEntry_fwd {z : State} (q : Nat) (u : UnitRef) (count limit window : Nat) (s : State) (hC : z.Forward s) : z.Forward (boundEntry q u count limit window s) := by
  unfold boundEntry
  repeat' first
    | with_reducible assumption
    | with_reducible apply logEvent_fwd

theorem boundEntries_fwd {z : State} (q : Nat) (us : List UnitRef) (s : State) (hC : z.Forward s) : z.Forward (boundEntries q us s) := by
  unfold boundEntries
  repeat' first
    | with_reducible assumption
    | with_reducible apply fwd_foldl
    | with_reducible apply boundEntry_fwd
    | intro _ _ _
    | intro _
    | dsimp only
    | split

theorem reportOverrun_fwd {z : State} (q : Nat) (s : State) (u : UnitRef) (hC : z.Forward s) : z.Forward (reportOverrun q s u) := by
  unfold reportOverrun
  repeat' first
    | with_reducible assumption
    | with_reducible apply fwd_ite
    | with_reducible apply raiseImmediate_fwd
    | with_reducible apply updTu_fwd
    | intro _ _ _
    | intro _
    | dsimp only
    | split

theorem boundStop_fwd {z : State} (q : Nat) (s : State) (hC : z.Forward s) : z.Forward (boundStop q s) := by
  unfold boundStop
  repeat' first
    | with_reducible assumption
    | with_reducible apply fwd_foldl
    | with_reducible apply stopWithin_fwd
    | with_reducible apply boundEntries_fwd
    | with_reducible apply reportOverrun_fwd

theorem execBoundOverrun_fwd {z : State} (q : PartId) (u : UnitRef) (s : State) (hC : z.Forward s) : ∀ t', execBoundOverrun q u s = .next t' → z.Forward t' := by
  unfold execBoundOverrun
  intro _ hE
  cases hE
  repeat' first
    | with_reducible assumption
    | with_reducible apply fwd_ite
    | with_reducible apply reportOverrun_fwd
    | with_reducible apply boundStop_fwd

theorem windowExpires_fwd {z : State} (c : Nat) (s : State) (hC : z.Forward s) : z.Forward (windowExpires c s) := by
  unfold windowExpires
  repeat' first
    | with_reducible assumption
    | with_reducible apply fwd_ite
    | with_reducible apply State.updCore_fwd
    | with_reducible apply raiseImmediate_fwd

theorem windowStop_fwd {z : State} (c q : Nat) (s : State) (hC : z.Forward s) : z.Forward (windowStop c q s) := by
  unfold windowStop
  repeat' first
    | with_reducible assumption
    | with_reducible apply State.updCore_fwd
    | with_reducible apply stopWithin_fwd
    | with_reducible apply boundEntry_fwd

theorem execWindowOverrun_fwd {z : State} (c : CoreId) (s : State) (hC : z.Forward s) : ∀ t', execWindowOverrun c s = .next t' → z.Forward t' := by
  unfold execWindowOverrun
  intro _ hE
  cases hE
  repeat' first
    | with_reducible assumption
    | with_reducible apply fwd_ite
    | with_reducible apply windowExpires_fwd
    | with_reducible apply windowStop_fwd
    | intro _ _ _
    | intro _
    | dsimp only
    | split

theorem passTclk_fwd {z : State} (n : Nat) (s : State) (q : Nat) (hC : z.Forward s) : z.Forward (passTclk n s q) := by
  unfold passTclk
  repeat' first
    | with_reducible assumption
    | with_reducible apply fwd_ite
    | with_reducible apply fwd_foldl
    | with_reducible apply updTu_fwd
    | intro _ _ _

theorem tick_fwd {z : State} (s : State) (hC : z.Forward s) : z.Forward (tick s) := by
  unfold tick
  repeat' first
    | with_reducible assumption
    | with_reducible apply fwd_ite
    | with_reducible apply fwd_foldl
    | with_reducible apply passTclk_fwd
    | intro _ _ _
    | intro _
    | dsimp only
    | split
    | (with_reducible apply fwd_misc; with_reducible first | assumption | apply passTclk_fwd | apply fwd_foldl)

theorem execI3cOffsetWrite_fwd {z : State} (offset : Byte) (s : State) (hC : z.Forward s) : ∀ t', execI3cOffsetWrite offset s = .next t' → z.Forward t' := by
  unfold execI3cOffsetWrite
  intro _ hE
  cases hE
  repeat' first
    | with_reducible assumption
    | with_reducible apply fwd_ite
    | intro _ _ _
    | intro _
    | dsimp only
    | split
    | (with_reducible apply fwd_misc; with_reducible first | assumption)

theorem execSetdasa_fwd {z : State} (addr : Fin 128) (s : State) (hC : z.Forward s) : ∀ t', execSetdasa addr s = .next t' → z.Forward t' := by
  unfold execSetdasa
  intro _ hE
  cases hE
  repeat' first
    | with_reducible assumption
    | with_reducible apply fwd_ite
    | intro _ _ _
    | intro _
    | dsimp only
    | split
    | (with_reducible apply fwd_misc; with_reducible first | assumption)

theorem answerSpdm_fwd {z : State} (p : PortId) (a : Spdm) (s : State) (hC : z.Forward s) : z.Forward (answerSpdm p a s) := by
  unfold answerSpdm
  repeat' first
    | with_reducible assumption
    | with_reducible apply State.emit_fwd

theorem setStage_fwd {z : State} (p : PortId) (g : DoeStage) (s : State) (hC : z.Forward s) : z.Forward (setStage p g s) := by
  unfold setStage
  repeat' first
    | with_reducible assumption
    | with_reducible apply State.updPort_fwd

theorem spdmRun_fwd {z : State} (p : PortId) (f : State → State) (s : State) (hC : z.Forward s)
    (hf : ∀ s, z.Forward s → z.Forward (f s)) : z.Forward (spdmRun p f s) := by
  unfold spdmRun
  split
  · split
    · exact hf s hC
    · exact State.emit_fwd hC _
  · exact hC

theorem spdmAfter_fwd {z : State} (p : PortId) (f : State → State) (s : State) (hC : z.Forward s)
    (hf : ∀ s, z.Forward s → z.Forward (f s)) : z.Forward (spdmAfter p f s) := by
  unfold spdmAfter
  refine spdmRun_fwd p _ s hC fun s h => ?_
  split
  · exact hf s h
  · exact State.emit_fwd h _

theorem execGetVersion_fwd {z : State} (p : PortId) (s : State) (hC : z.Forward s) : ∀ t', execGetVersion p s = .next t' → z.Forward t' := by
  unfold execGetVersion
  intro _ hE
  cases hE
  repeat' first
    | with_reducible assumption
    | with_reducible apply answerSpdm_fwd
    | with_reducible apply setStage_fwd
    | with_reducible apply spdmRun_fwd
    | intro _ _ _
    | intro _

theorem execGetCapabilities_fwd {z : State} (p : PortId) (s : State) (hC : z.Forward s) : ∀ t', execGetCapabilities p s = .next t' → z.Forward t' := by
  unfold execGetCapabilities
  intro _ hE
  cases hE
  repeat' first
    | with_reducible assumption
    | with_reducible apply fwd_ite
    | with_reducible apply answerSpdm_fwd
    | with_reducible apply setStage_fwd
    | with_reducible apply spdmRun_fwd
    | intro _ _ _
    | intro _

theorem execNegotiateAlgorithms_fwd {z : State} (p : PortId) (asymOk hashOk : Bool) (s : State) (hC : z.Forward s) : ∀ t', execNegotiateAlgorithms p asymOk hashOk s = .next t' → z.Forward t' := by
  unfold execNegotiateAlgorithms
  intro _ hE
  cases hE
  repeat' first
    | with_reducible assumption
    | with_reducible apply fwd_ite
    | with_reducible apply answerSpdm_fwd
    | with_reducible apply setStage_fwd
    | with_reducible apply spdmRun_fwd
    | intro _ _ _
    | intro _

theorem execGetDigests_fwd {z : State} (p : PortId) (s : State) (hC : z.Forward s) : ∀ t', execGetDigests p s = .next t' → z.Forward t' := by
  unfold execGetDigests
  intro _ hE
  cases hE
  repeat' first
    | with_reducible assumption
    | with_reducible apply answerSpdm_fwd
    | with_reducible apply spdmAfter_fwd

theorem execGetCertificate_fwd {z : State} (p : PortId) (slot offset len : Nat) (s : State) (hC : z.Forward s) : ∀ t', execGetCertificate p slot offset len s = .next t' → z.Forward t' := by
  unfold execGetCertificate
  intro _ hE
  cases hE
  repeat' first
    | with_reducible assumption
    | with_reducible apply fwd_ite
    | with_reducible apply answerSpdm_fwd
    | with_reducible apply spdmAfter_fwd
    | intro _ _ _
    | intro _

theorem execChallenge_fwd {z : State} (p : PortId) (slot : Nat) (nonce : List Byte) (s : State) (hC : z.Forward s) : ∀ t', execChallenge p slot nonce s = .next t' → z.Forward t' := by
  unfold execChallenge
  intro _ hE
  cases hE
  repeat' first
    | with_reducible assumption
    | with_reducible apply fwd_ite
    | with_reducible apply State.drew_fwd
    | with_reducible apply answerSpdm_fwd
    | with_reducible apply spdmAfter_fwd
    | intro _ _ _
    | intro _

theorem execGetMeasurements_fwd {z : State} (p : PortId) (index : Nat) (sign : Bool) (nonce : List Byte) (s : State) (hC : z.Forward s) : ∀ t', execGetMeasurements p index sign nonce s = .next t' → z.Forward t' := by
  unfold execGetMeasurements
  intro _ hE
  cases hE
  repeat' first
    | with_reducible assumption
    | with_reducible apply fwd_ite
    | with_reducible apply State.drew_fwd
    | with_reducible apply answerSpdm_fwd
    | with_reducible apply spdmAfter_fwd
    | intro _ _ _
    | intro _

end Sys2Proof.Machine
end

