-- ==== Sys2Proof/Laws/Latched.lean ====
section
/-! SUPPORT. No operation and no meaning but a reset of the module undoes FAILED or a thermal trip: one lemma for each. -/

namespace Sys2Proof.Machine

/-- A state that may be absent. -/
structure OptLatched (z : State) (o : Option State) : Prop where
  out : ∀ t, o = some t → z.Latched t


theorem latched_ite {z : State} {c : Prop} [Decidable c] {a b : State} (ha : z.Latched a) (hb : z.Latched b) : z.Latched (if c then a else b) := by
  split
  · exact ha
  · exact hb

theorem latched_foldl {z : State} {α : Type} {g : State → α → State} {l : List α} {s : State} (h : z.Latched s)
    (hg : ∀ s a, z.Latched s → z.Latched (g s a)) : z.Latched (l.foldl g s) := by
  induction l generalizing s with
  | nil => exact h
  | cons x l ih => exact ih (hg _ _ h)

theorem latchedOpt_none {z : State} : OptLatched z none := ⟨fun _ h => by cases h⟩

theorem latchedOpt_some {z : State} {s : State} (h : z.Latched s) : OptLatched z (some s) := ⟨fun _ e => by cases e; exact h⟩

theorem latchedOpt_ite {z : State} {c : Prop} [Decidable c] {a b : Option State} (ha : OptLatched z a) (hb : OptLatched z b) :
    OptLatched z (if c then a else b) := by
  split
  · exact ha
  · exact hb

theorem latchedOpt_map {z : State} {α : Type} {o : Option α} {f : α → State} (h : ∀ a, z.Latched (f a)) : OptLatched z (o.map f) := by
  cases o with
  | none => exact latchedOpt_none
  | some a => exact latchedOpt_some (h a)

theorem latchedOpt_bind {z : State} {α : Type} {o : Option α} {f : α → Option State} (h : ∀ a, OptLatched z (f a)) : OptLatched z (o.bind f) := by
  cases o with
  | none => exact latchedOpt_none
  | some a => exact h a

theorem latched_getD {z : State} {o : Option State} {s : State} (h : OptLatched z o) (hs : z.Latched s) : z.Latched (o.getD s) := by
  cases o with
  | none => exact hs
  | some a => exact h.out a rfl

theorem latched_of_pair {z : State} {β : Type} {p : State × β} {a : State} {b : β} (e : p = (a, b)) (h : z.Latched p.1) : z.Latched a := by
  subst e; exact h

theorem latched_of_opt {z : State} {p : Option State} {a : State} (e : p = some a) (h : OptLatched z p) : z.Latched a := h.out a e

theorem latchedOpt_of_pair {z : State} {β : Type} {p : Option State × β} {a : Option State} {b : β} (e : p = (a, b)) (h : OptLatched z p.1) :
    OptLatched z a := by
  subst e; exact h

theorem latched_of_fst {z : State} {p : Option State × State} {a b : State} (e : p = (some a, b)) (h : OptLatched z p.1 ∧ z.Latched p.2) :
    z.Latched a := by
  subst e; exact h.1.out _ rfl

theorem latched_of_snd {z : State} {p : Option State × State} {a : Option State} {b : State} (e : p = (a, b)) (h : OptLatched z p.1 ∧ z.Latched p.2) :
    z.Latched b := by
  subst e; exact h.2


/-- A change of what is neither the headstock nor the supply. -/
theorem latched_misc {z s : State} {pending free out mgmt chat flash portA portB parts cores dies beds hbms hbm hbmErr lanes links}
    (h : z.Latched s) : z.Latched ⟨pending, free, out, s.power, mgmt, s.hs, chat, flash, portA, portB, parts, cores, dies, beds,
      hbms, hbm, hbmErr, lanes, links⟩ := ⟨h.health, h.trip⟩

/-- Nothing done. -/
theorem State.Latched.refl (s : State) : s.Latched s := ⟨id, fun h => ⟨h, rfl⟩⟩

variable {z s : State} (h : z.Latched s)
include h

theorem State.updCore_latched (c : Nat) (f : Core → Core) : z.Latched (s.updCore c f) := ⟨h.health, h.trip⟩
theorem State.updPart_latched (c : Nat) (f : Part → Part) : z.Latched (s.updPart c f) := ⟨h.health, h.trip⟩
theorem State.updDie_latched (c : Nat) (f : Die → Die) : z.Latched (s.updDie c f) := ⟨h.health, h.trip⟩
theorem State.updBed_latched (c : Nat) (f : Bed → Bed) : z.Latched (s.updBed c f) := ⟨h.health, h.trip⟩
theorem State.updStack_latched (c : Nat) (f : Stack → Stack) : z.Latched (s.updStack c f) := ⟨h.health, h.trip⟩
theorem State.updLane_latched (c : Nat) (f : Bundle → Bundle) : z.Latched (s.updLane c f) := ⟨h.health, h.trip⟩
theorem State.updLink_latched (c : Nat) (f : Link → Link) : z.Latched (s.updLink c f) := ⟨h.health, h.trip⟩
theorem State.updPort_latched (p : PortId) (f : Port → Port) : z.Latched (s.updPort p f) := by
  cases p <;> exact ⟨h.health, h.trip⟩
theorem State.updMbx_latched (p : PortId) (m : Nat) (f : Mbx → Mbx) : z.Latched (s.updMbx p m f) := State.updPort_latched h p _
theorem State.updHs_latched {f : Headstock → Headstock} (hf : ∀ x, (f x).health = x.health) : z.Latched (s.updHs f) :=
  ⟨fun e => (hf _).trans (h.health e), h.trip⟩
theorem State.updPower_latched {f : Power → Power} (hf : ∀ x, (f x).trip = x.trip ∧ (f x).tripCause = x.tripCause) :
    z.Latched (s.updPower f) := ⟨h.health, fun e => ⟨(hf _).1.trans (h.trip e).1, (hf _).2.trans (h.trip e).2⟩⟩
theorem State.updFlash_latched (f : Flash → Flash) : z.Latched (s.updFlash f) := ⟨h.health, h.trip⟩
theorem State.drew_latched : z.Latched s.drew := ⟨h.health, h.trip⟩
theorem State.drewN_latched (n : Nat) : z.Latched (s.drewN n) := ⟨h.health, h.trip⟩
theorem State.emit_latched (o : Output) : z.Latched (s.emit o) := ⟨h.health, h.trip⟩

omit h

theorem msix_latched {z : State} (p : PortId) (v : Nat) (s : State) (hC : z.Latched s) : z.Latched (msix p v s) := by
  unfold msix
  repeat' first
    | with_reducible assumption
    | with_reducible apply latched_ite
    | with_reducible apply State.updPort_latched
    | with_reducible apply State.emit_latched

theorem raiseVector_latched {z : State} (p : PortId) (v : Nat) (s : State) (hC : z.Latched s) : z.Latched (raiseVector p v s) := by
  unfold raiseVector
  repeat' first
    | with_reducible assumption
    | with_reducible apply State.updPort_latched
    | with_reducible apply msix_latched

theorem portErr_latched {z : State} (p : PortId) (f : Port → Port) (s : State) (hC : z.Latched s) : z.Latched (portErr p f s) := by
  unfold portErr
  repeat' first
    | with_reducible assumption
    | with_reducible apply latched_ite
    | with_reducible apply State.updPort_latched
    | with_reducible apply raiseVector_latched

theorem logEvent_latched {z : State} (e : LogEntry) (s : State) (hC : z.Latched s) : z.Latched (logEvent e s) := by
  unfold logEvent
  repeat' first
    | with_reducible assumption
    | (with_reducible apply State.updHs_latched; rotate_left; · intro; rfl)

theorem notify_latched {z : State} (p : PortId) (kind part state status turn : Nat) (s : State) (hC : z.Latched s) : z.Latched (notify p kind part state status turn s) := by
  unfold notify
  repeat' first
    | with_reducible assumption
    | with_reducible apply State.updPort_latched

theorem notifyPart_latched {z : State} (kind q : Nat) (s : State) (hC : z.Latched s) : z.Latched (notifyPart kind q s) := by
  unfold notifyPart
  repeat' first
    | with_reducible assumption
    | with_reducible apply notify_latched

theorem finishStop_latched {z : State} (q : Nat) (s : State) (hC : z.Latched s) : z.Latched (finishStop q s) := by
  unfold finishStop
  repeat' first
    | with_reducible assumption
    | with_reducible apply State.updPart_latched
    | with_reducible apply State.updMbx_latched
    | intro _ _ _
    | intro _
    | dsimp only
    | split

theorem flushMfaults_latched {z : State} (q c : Nat) (s : State) (hC : z.Latched s) : z.Latched (flushMfaults q c s) := by
  unfold flushMfaults
  repeat' first
    | with_reducible assumption
    | with_reducible apply latched_foldl
    | with_reducible apply State.updCore_latched
    | with_reducible apply logEvent_latched
    | intro _ _ _

theorem moveNote_latched {z : State} (q d unit : Nat) (j : MoveJob) (s : State) (hC : z.Latched s) : z.Latched (moveNote q d unit j s) := by
  unfold moveNote
  repeat' first
    | with_reducible assumption
    | with_reducible apply latched_ite
    | with_reducible apply logEvent_latched

theorem noteMoves_latched {z : State} (q c : Nat) (s : State) (hC : z.Latched s) : z.Latched (noteMoves q c s) := by
  unfold noteMoves
  repeat' first
    | with_reducible assumption
    | with_reducible apply latched_foldl
    | with_reducible apply State.updCore_latched
    | with_reducible apply moveNote_latched
    | intro _ _ _

theorem noteBulk_latched {z : State} (q d : Nat) (s : State) (hC : z.Latched s) : z.Latched (noteBulk q d s) := by
  unfold noteBulk
  repeat' first
    | with_reducible assumption
    | with_reducible apply latched_foldl
    | with_reducible apply State.updDie_latched
    | with_reducible apply moveNote_latched
    | intro _ _ _

theorem stopWithin_latched {z : State} (q : Nat) (st : PartSt) (stat origin : Nat) (s : State) (hC : z.Latched s) : z.Latched (stopWithin q st stat origin s) := by
  unfold stopWithin
  repeat' first
    | with_reducible assumption
    | with_reducible apply latched_ite
    | with_reducible apply latched_foldl
    | with_reducible apply State.updCore_latched
    | with_reducible apply State.updPart_latched
    | with_reducible apply logEvent_latched
    | with_reducible apply notifyPart_latched
    | with_reducible apply finishStop_latched
    | with_reducible apply flushMfaults_latched
    | with_reducible apply noteMoves_latched
    | with_reducible apply noteBulk_latched
    | intro _ _ _

theorem faultPart_latched {z : State} (q : Nat) (s : State) (hC : z.Latched s) : z.Latched (faultPart q s) := by
  unfold faultPart
  repeat' first
    | with_reducible assumption
    | with_reducible apply stopWithin_latched

theorem faultDieAbsent_latched {z : State} (origin q : Nat) (s : State) (hC : z.Latched s) : z.Latched (faultDieAbsent origin q s) := by
  unfold faultDieAbsent
  repeat' first
    | with_reducible assumption
    | with_reducible apply State.updPart_latched
    | with_reducible apply notifyPart_latched
    | with_reducible apply stopWithin_latched
    | intro _ _ _
    | intro _
    | dsimp only
    | split

theorem setHealth_latched {z : State} (s : State) (hC : z.Latched s) : z.Latched (setHealth .failed s) := by
  refine ⟨fun _ => ?_, fun hz => ?_⟩
  · unfold setHealth
    dsimp only
    split
    · assumption
    · cases s
      rfl
  · unfold setHealth
    dsimp only
    split
    · exact hC.trip hz
    · exact hC.trip hz

theorem updateHealth_latched {z : State} (s : State) (hC : z.Latched s) : z.Latched (updateHealth s) := by
  have key : ∀ h, s.hs.health ≠ .failed → z.Latched (setHealth h s) := fun h hn => by
    refine ⟨fun hz => absurd (hC.health hz) hn, fun hz => ?_⟩
    unfold setHealth
    dsimp only
    split
    · exact hC.trip hz
    · exact hC.trip hz
  unfold updateHealth
  split
  · rename_i e
    split
    · exact key _ (by simp [e])
    · exact hC
  · rename_i e
    split
    · exact hC
    · exact key _ (by simp [e])
  · exact hC

theorem enterFailed_latched {z : State} (s : State) (hC : z.Latched s) : z.Latched (enterFailed s) := by
  unfold enterFailed
  repeat' first
    | with_reducible assumption
    | with_reducible apply latched_foldl
    | with_reducible apply stopWithin_latched
    | with_reducible apply setHealth_latched
    | intro _ _ _

theorem degradation_latched {z : State} (s : State) (hC : z.Latched s) : z.Latched (degradation s) := by
  unfold degradation
  repeat' first
    | with_reducible assumption
    | (with_reducible apply State.updHs_latched; rotate_left; · intro; rfl)

theorem loseDie_latched {z : State} (d : Nat) (s : State) (hC : z.Latched s) : z.Latched (loseDie d s) := by
  unfold loseDie
  repeat' first
    | with_reducible assumption
    | with_reducible apply latched_foldl
    | with_reducible apply State.updCore_latched
    | with_reducible apply State.updDie_latched
    | intro _ _ _

theorem fenceDie_latched {z : State} (d why origin : Nat) (s : State) (hC : z.Latched s) : z.Latched (fenceDie d why origin s) := by
  unfold fenceDie
  repeat' first
    | with_reducible assumption
    | with_reducible apply latched_ite
    | with_reducible apply latched_foldl
    | with_reducible apply State.updDie_latched
    | with_reducible apply logEvent_latched
    | with_reducible apply faultDieAbsent_latched
    | with_reducible apply updateHealth_latched
    | with_reducible apply degradation_latched
    | with_reducible apply loseDie_latched
    | intro _ _ _

theorem markCore_latched {z : State} (c : Nat) (s : State) (hC : z.Latched s) : z.Latched (markCore c s) := by
  unfold markCore
  repeat' first
    | with_reducible assumption
    | with_reducible apply latched_ite
    | with_reducible apply State.updFlash_latched

theorem rowLasting_latched {z : State} (k : Nat) (r : HRow) (s : State) (hC : z.Latched s) : z.Latched (rowLasting k r s) := by
  unfold rowLasting
  repeat' first
    | with_reducible assumption
    | with_reducible apply latched_ite
    | with_reducible apply State.updStack_latched
    | with_reducible apply logEvent_latched
    | with_reducible apply updateHealth_latched
    | intro _ _ _
    | intro _
    | dsimp only
    | split

theorem startRetirement_latched {z : State} (b : Nat) (s : State) (hC : z.Latched s) : z.Latched (startRetirement b s) := by
  unfold startRetirement
  repeat' first
    | with_reducible assumption
    | with_reducible apply State.updLane_latched
    | (with_reducible apply State.updHs_latched; rotate_left; · intro; rfl)

theorem laneLasting_latched {z : State} (b l : Nat) (s : State) (hC : z.Latched s) : z.Latched (laneLasting b l s) := by
  unfold laneLasting
  repeat' first
    | with_reducible assumption
    | with_reducible apply latched_ite
    | with_reducible apply State.updLane_latched
    | with_reducible apply startRetirement_latched

theorem startRepair_latched {z : State} (r : Res) (s : State) (hC : z.Latched s) : z.Latched (startRepair r s) := by
  unfold startRepair
  repeat' first
    | with_reducible assumption
    | with_reducible apply latched_ite
    | with_reducible apply State.updLink_latched
    | with_reducible apply State.updFlash_latched
    | with_reducible apply State.drew_latched
    | with_reducible apply markCore_latched
    | with_reducible apply rowLasting_latched
    | with_reducible apply laneLasting_latched

theorem becomeLasting_latched {z : State} (r : Res) (addr count : Nat) (ue : Bool) (s : State) (hC : z.Latched s) : z.Latched (becomeLasting r addr count ue s) := by
  unfold becomeLasting
  repeat' first
    | with_reducible assumption
    | with_reducible apply logEvent_latched
    | with_reducible apply startRepair_latched
    | intro _ _ _
    | intro _
    | dsimp only
    | split
    | (with_reducible apply latched_misc; with_reducible first | assumption | apply logEvent_latched | apply startRepair_latched)

theorem chatter_latched {z : State} (r : Res) (addr : Nat) (s : State) (hC : z.Latched s) : z.Latched (chatter r addr s) := by
  unfold chatter
  repeat' first
    | with_reducible assumption
    | with_reducible apply latched_ite
    | with_reducible apply logEvent_latched
    | with_reducible apply becomeLasting_latched
    | intro _ _ _
    | intro _
    | dsimp only
    | split
    | (with_reducible apply latched_misc; with_reducible first | assumption | apply logEvent_latched | apply becomeLasting_latched)

theorem chatterUe_latched {z : State} (r : Res) (addr : Nat) (s : State) (hC : z.Latched s) : z.Latched (chatterUe r addr s) := by
  unfold chatterUe
  repeat' first
    | with_reducible assumption
    | with_reducible apply latched_ite
    | with_reducible apply becomeLasting_latched

theorem applyUpset_latched {z : State} (s : State) (x0 : Upset) (hC : z.Latched s) : z.Latched (applyUpset s x0) := by
  unfold applyUpset
  repeat' first
    | with_reducible assumption
    | with_reducible apply latched_ite
    | with_reducible apply State.updCore_latched
    | with_reducible apply State.updPart_latched
    | with_reducible apply State.updDie_latched
    | with_reducible apply State.updBed_latched
    | with_reducible apply State.updStack_latched
    | (with_reducible apply State.updHs_latched; rotate_left; · intro; rfl)
    | with_reducible apply chatter_latched
    | with_reducible apply chatterUe_latched
    | intro _ _ _
    | intro _
    | dsimp only
    | split
    | (with_reducible apply latched_misc; with_reducible first | assumption | apply State.updCore_latched | apply State.updPart_latched | apply State.updDie_latched | apply State.updBed_latched | apply State.updStack_latched | apply chatter_latched | apply chatterUe_latched | (with_reducible apply State.updHs_latched; rotate_left; · intro; rfl))

theorem applyUpsets_latched {z : State} (us : List Upset) (s : State) (hC : z.Latched s) : z.Latched (applyUpsets us s) := by
  unfold applyUpsets
  repeat' first
    | with_reducible assumption
    | with_reducible apply latched_foldl
    | with_reducible apply applyUpset_latched

theorem siteWrite_latched {z : State} (h : HSite) (l : RawLine) (s : State) (hC : z.Latched s) : z.Latched (siteWrite h l s) := by
  unfold siteWrite
  repeat' first
    | with_reducible assumption
    | with_reducible apply latched_foldl
    | with_reducible apply State.updStack_latched
    | intro _ _ _
    | intro _
    | dsimp only
    | split
    | with_reducible apply latched_misc

theorem hbmUe_latched {z : State} (pa : Nat) (partial' : Bool) (s : State) (hC : z.Latched s) : z.Latched (hbmUe pa partial' s) := by
  unfold hbmUe
  repeat' first
    | with_reducible assumption
    | with_reducible apply logEvent_latched

theorem hbmRead_latched {z : State} (pa : Nat) (s : State) (hC : z.Latched s) : z.Latched ((hbmRead pa s).1) := by
  unfold hbmRead
  repeat' first
    | with_reducible assumption
    | with_reducible apply chatter_latched
    | with_reducible apply chatterUe_latched
    | with_reducible apply siteWrite_latched
    | with_reducible apply hbmUe_latched
    | intro _ _ _
    | intro _
    | dsimp only
    | split

theorem bedRead_latched {z : State} (b off : Nat) (s : State) (hC : z.Latched s) : z.Latched ((bedRead b off s).1) := by
  unfold bedRead
  repeat' first
    | with_reducible assumption
    | with_reducible apply latched_ite
    | with_reducible apply State.updBed_latched
    | with_reducible apply chatter_latched
    | with_reducible apply chatterUe_latched
    | intro _ _ _
    | intro _
    | dsimp only
    | split

theorem lineRead_latched {z : State} (pa : Nat) (s : State) (hC : z.Latched s) : z.Latched ((lineRead pa s).1) := by
  unfold lineRead
  repeat' first
    | with_reducible assumption
    | with_reducible apply hbmRead_latched
    | with_reducible apply bedRead_latched
    | intro _ _ _
    | intro _
    | dsimp only
    | split

theorem hbmWrite_latched {z : State} (pa : Nat) (bytes : List Byte) (mask poison : Nat) (s : State) (hC : z.Latched s) : z.Latched (hbmWrite pa bytes mask poison s) := by
  unfold hbmWrite
  repeat' first
    | with_reducible assumption
    | with_reducible apply latched_ite
    | with_reducible apply chatter_latched
    | with_reducible apply chatterUe_latched
    | with_reducible apply siteWrite_latched
    | with_reducible apply hbmUe_latched
    | intro _ _ _
    | intro _
    | dsimp only
    | split

theorem bedWrite_latched {z : State} (b off : Nat) (bytes : List Byte) (mask poison : Nat) (s : State) (hC : z.Latched s) : z.Latched (bedWrite b off bytes mask poison s) := by
  unfold bedWrite
  repeat' first
    | with_reducible assumption
    | with_reducible apply latched_ite
    | with_reducible apply State.updBed_latched
    | with_reducible apply chatter_latched
    | with_reducible apply chatterUe_latched

theorem lineWrite_latched {z : State} (pa : Nat) (bytes : List Byte) (mask poison : Nat) (s : State) (hC : z.Latched s) : z.Latched (lineWrite pa bytes mask poison s) := by
  unfold lineWrite
  repeat' first
    | with_reducible assumption
    | with_reducible apply hbmWrite_latched
    | with_reducible apply bedWrite_latched
    | intro _ _ _
    | intro _
    | dsimp only
    | split

theorem raceCheck_latched {z : State} (b off : Nat) (w : Bool) (u t : Nat) (s : State) (hC : z.Latched s) : z.Latched ((raceCheck b off w u t s).1) := by
  unfold raceCheck
  repeat' first
    | with_reducible assumption
    | with_reducible apply latched_ite
    | with_reducible apply State.updBed_latched
    | with_reducible apply logEvent_latched
    | with_reducible apply chatter_latched
    | with_reducible apply chatterUe_latched
    | intro _ _ _
    | intro _
    | dsimp only
    | split

theorem raceStop_latched {z : State} (q b off u : Nat) (r : RaceResult) (s : State) (hC : z.Latched s) : z.Latched (raceStop q b off u r s) := by
  unfold raceStop
  repeat' first
    | with_reducible assumption
    | with_reducible apply logEvent_latched
    | with_reducible apply faultPart_latched
    | intro _ _ _
    | intro _
    | dsimp only
    | split

theorem updReg_latched {z : State} (k q : Nat) (f : Regulator → Regulator) (s : State) (hC : z.Latched s) : z.Latched (updReg k q f s) := by
  unfold updReg
  repeat' first
    | with_reducible assumption
    | with_reducible apply State.updStack_latched

theorem submit_latched {z : State} (r : MemReq) (s : State) (hC : z.Latched s) : z.Latched (submit r s) := by
  unfold submit
  repeat' first
    | with_reducible assumption
    | with_reducible apply latched_ite
    | with_reducible apply latched_foldl
    | with_reducible apply State.updPart_latched
    | with_reducible apply State.updBed_latched
    | with_reducible apply State.emit_latched
    | with_reducible apply updReg_latched
    | intro _ _ _
    | intro _
    | dsimp only
    | split

theorem lineNow_latched {z : State} (pa : Nat) (s : State) (hC : z.Latched s) : z.Latched ((lineNow pa s).1) := by
  unfold lineNow
  repeat' first
    | with_reducible assumption
    | with_reducible apply latched_foldl
    | with_reducible apply lineRead_latched

theorem purgeReqs_latched {z : State} (q : Nat) (s : State) (hC : z.Latched s) : z.Latched (purgeReqs q s) := by
  unfold purgeReqs
  repeat' first
    | with_reducible assumption
    | with_reducible apply latched_ite
    | intro _ _ _
    | intro _
    | dsimp only
    | split
    | with_reducible apply latched_misc

theorem entryRead_latched {z : State} (q l va : Nat) (s : State) (hC : z.Latched s) : z.Latched (entryRead q l va s) := by
  unfold entryRead
  repeat' first
    | with_reducible assumption
    | with_reducible apply State.updPart_latched
    | with_reducible apply chatter_latched
    | with_reducible apply chatterUe_latched
    | intro _ _ _
    | intro _
    | dsimp only
    | split

theorem walkRead_latched {z : State} (q va : Nat) (write : Bool) (s : State) (hC : z.Latched s) : z.Latched ((walkRead q va write s).1) := by
  unfold walkRead
  repeat' first
    | with_reducible assumption
    | with_reducible apply latched_foldl
    | with_reducible apply entryRead_latched
    | intro _ _ _

theorem setTlb_latched {z : State} (u : TlbUser) (l : List TlbEntry) (e : Bool) (s : State) (hC : z.Latched s) : z.Latched (setTlb u l e s) := by
  unfold setTlb
  repeat' first
    | with_reducible assumption
    | with_reducible apply State.updCore_latched
    | with_reducible apply State.updDie_latched
    | (with_reducible apply State.updHs_latched; rotate_left; · intro; rfl)
    | intro _ _ _
    | intro _
    | dsimp only
    | split

theorem translate_latched {z : State} (u : TlbUser) (q va : Nat) (write : Bool) (s : State) (hC : z.Latched s) : z.Latched ((translate u q va write s).1) := by
  unfold translate
  repeat' first
    | with_reducible assumption
    | with_reducible apply latched_ite
    | with_reducible apply chatter_latched
    | with_reducible apply walkRead_latched
    | with_reducible apply setTlb_latched
    | intro _ _ _
    | intro _
    | dsimp only
    | split

theorem lookupAll_latched {z : State} (u : TlbUser) (q : Nat) (vas : List Nat) (s : State) (hC : z.Latched s) : z.Latched (lookupAll u q vas s) := by
  unfold lookupAll
  repeat' first
    | with_reducible assumption
    | with_reducible apply latched_foldl
    | with_reducible apply translate_latched
    | intro _ _ _

theorem translateFar_latched {z : State} (u : TlbUser) (q va : Nat) (write : Bool) (s : State) (hC : z.Latched s) : z.Latched ((translateFar u q va write s).1) := by
  unfold translateFar
  repeat' first
    | with_reducible assumption
    | with_reducible apply latched_ite
    | with_reducible apply translate_latched
    | intro _ _ _
    | intro _
    | dsimp only
    | split

theorem invalidate_latched {z : State} (q va len : Nat) (s : State) (hC : z.Latched s) : z.Latched (invalidate q va len s) := by
  unfold invalidate
  repeat' first
    | with_reducible assumption
    | (with_reducible apply State.updHs_latched; rotate_left; · intro; rfl)
    | intro _ _ _
    | intro _
    | dsimp only
    | split
    | with_reducible apply latched_misc

theorem invalidateAll_latched {z : State} (q : Nat) (s : State) (hC : z.Latched s) : z.Latched (invalidateAll q s) := by
  unfold invalidateAll
  repeat' first
    | with_reducible assumption
    | with_reducible apply invalidate_latched

theorem countWindow_latched {z : State} (d q va pa : Nat) (s : State) (hC : z.Latched s) : z.Latched (countWindow d q va pa s) := by
  unfold countWindow
  repeat' first
    | with_reducible assumption
    | with_reducible apply State.updDie_latched
    | intro _ _ _
    | intro _
    | dsimp only
    | split

theorem tlbInstall_latched {z : State} (u : TlbUser) (e : TlbEntry) (s : State) (hC : z.Latched s) : z.Latched (tlbInstall u e s) := by
  unfold tlbInstall
  repeat' first
    | with_reducible assumption
    | with_reducible apply latched_ite
    | with_reducible apply setTlb_latched

theorem storeUeEntry_latched {z : State} (c w src : Nat) (how : CwHow) (s : State) (hC : z.Latched s) : z.Latched (storeUeEntry c w src how s) := by
  unfold storeUeEntry
  repeat' first
    | with_reducible assumption
    | with_reducible apply latched_ite
    | with_reducible apply logEvent_latched
    | intro _ _ _
    | intro _
    | dsimp only
    | split

theorem touch_latched {z : State} (c w : Nat) (how : CwHow) (s : State) (hC : z.Latched s) : z.Latched (touch c w how s) := by
  unfold touch
  repeat' first
    | with_reducible assumption
    | with_reducible apply latched_ite
    | with_reducible apply State.updCore_latched
    | with_reducible apply chatter_latched
    | with_reducible apply chatterUe_latched
    | with_reducible apply storeUeEntry_latched

theorem touchAll_latched {z : State} (c : Nat) (ws : List Nat) (how : CwHow) (s : State) (hC : z.Latched s) : z.Latched (touchAll c ws how s) := by
  unfold touchAll
  repeat' first
    | with_reducible assumption
    | with_reducible apply latched_foldl
    | with_reducible apply touch_latched
    | intro _ _ _

theorem touchRun_latched {z : State} (c w n : Nat) (s : State) (hC : z.Latched s) : z.Latched (touchRun c w n s) := by
  unfold touchRun
  repeat' first
    | with_reducible assumption
    | with_reducible apply touchAll_latched

theorem readWord_latched {z : State} (c w : Nat) (s : State) (hC : z.Latched s) : z.Latched ((readWord c w s).1) := by
  unfold readWord
  repeat' first
    | with_reducible assumption
    | with_reducible apply touch_latched

theorem maskedWord_latched {z : State} (c w mask : Nat) (new : List Byte) (tag : Tag) (s : State) (hC : z.Latched s) : z.Latched (maskedWord c w mask new tag s) := by
  unfold maskedWord
  repeat' first
    | with_reducible assumption
    | with_reducible apply latched_ite
    | with_reducible apply State.updCore_latched
    | with_reducible apply touch_latched

theorem storeBytes_latched {z : State} (c : Nat) (tag : Tag) (x0 : Nat) (x1 : Nat) (x2 : List Byte) (x3 : State) (hC : z.Latched x3) : z.Latched (storeBytes c tag x0 x1 x2 x3) := by
  induction x0 generalizing x1 x2 x3 with
  | zero =>
    unfold storeBytes
    repeat' first
      | with_reducible assumption
  | succ n ih =>
    unfold storeBytes
    repeat' first
      | with_reducible apply ih
      | with_reducible assumption
      | with_reducible apply latched_ite
      | with_reducible apply maskedWord_latched

theorem machineCheck_latched {z : State} (c : Nat) (s : State) (hC : z.Latched s) : z.Latched (machineCheck c s) := by
  unfold machineCheck
  repeat' first
    | with_reducible assumption
    | with_reducible apply State.updCore_latched
    | with_reducible apply chatter_latched

theorem enter_latched {z : State} (c : Nat) (e : Exc) (s : State) (hC : z.Latched s) : z.Latched (enter c e s) := by
  unfold enter
  repeat' first
    | with_reducible assumption
    | with_reducible apply State.updCore_latched
    | with_reducible apply touchRun_latched

theorem flushWcb_latched {z : State} (c q : Nat) (p : WcbLine → Bool) (s : State) (hC : z.Latched s) : z.Latched (flushWcb c q p s) := by
  unfold flushWcb
  repeat' first
    | with_reducible assumption
    | with_reducible apply latched_foldl
    | with_reducible apply State.updCore_latched
    | with_reducible apply submit_latched
    | intro _ _ _

theorem farParity_latched {z : State} (c line : Nat) (s : State) (hC : z.Latched s) : z.Latched (farParity c line s) := by
  unfold farParity
  repeat' first
    | with_reducible assumption
    | with_reducible apply latched_ite
    | with_reducible apply State.updCore_latched
    | with_reducible apply chatter_latched

theorem farStore_latched {z : State} (c q va pa : Nat) (v : Word) (s : State) (hC : z.Latched s) : z.Latched (farStore c q va pa v s) := by
  unfold farStore
  repeat' first
    | with_reducible assumption
    | with_reducible apply latched_ite
    | with_reducible apply State.updCore_latched
    | with_reducible apply countWindow_latched
    | with_reducible apply flushWcb_latched
    | with_reducible apply farParity_latched

theorem offerFill_latched {z : State} (limit : Nat) (line : Nat) (bytes : List Byte) (s : State) (hC : z.Latched s) : z.Latched (offerFill limit line bytes s) := by
  unfold offerFill
  repeat' first
    | with_reducible assumption
    | with_reducible apply latched_ite
    | with_reducible apply State.updBed_latched
    | intro _ _ _
    | intro _
    | dsimp only
    | split

theorem dropBedCopy_latched {z : State} (line : Nat) (s : State) (hC : z.Latched s) : z.Latched (dropBedCopy line s) := by
  unfold dropBedCopy
  repeat' first
    | with_reducible assumption
    | with_reducible apply State.updBed_latched
    | intro _ _ _
    | intro _
    | dsimp only
    | split

theorem offerVictim_latched {z : State} (v : CacheLine) (s : State) (hC : z.Latched s) : z.Latched (offerVictim v s) := by
  unfold offerVictim
  repeat' first
    | with_reducible assumption
    | with_reducible apply latched_ite
    | with_reducible apply offerFill_latched

theorem submitMiss_latched {z : State} (c i : Nat) (r : MemReq) (s : State) (hC : z.Latched s) : z.Latched (submitMiss c i r s) := by
  unfold submitMiss
  repeat' first
    | with_reducible assumption
    | with_reducible apply latched_ite
    | with_reducible apply State.updCore_latched
    | with_reducible apply State.updBed_latched
    | with_reducible apply submit_latched
    | intro _ _ _
    | intro _
    | dsimp only
    | split

theorem requestLine_latched {z : State} (c q : Nat) (n : FarNeed) (more : Nat) (s : State) (hC : z.Latched s) : z.Latched (requestLine c q n more s) := by
  unfold requestLine
  repeat' first
    | with_reducible assumption
    | with_reducible apply latched_ite
    | with_reducible apply State.updCore_latched
    | with_reducible apply countWindow_latched
    | with_reducible apply flushWcb_latched
    | with_reducible apply farParity_latched
    | with_reducible apply submitMiss_latched
    | intro _ _ _
    | intro _
    | dsimp only
    | split

theorem requestLines_latched {z : State} (c q : Nat) (x0 : List FarNeed) (x1 : State) (hC : z.Latched x1) : z.Latched (requestLines c q x0 x1) := by
  induction x0 generalizing x1 with
  | nil =>
    unfold requestLines
    repeat' first
      | with_reducible assumption
  | cons a l ih =>
    unfold requestLines
    repeat' first
      | with_reducible apply ih
      | with_reducible assumption
      | with_reducible apply requestLine_latched

theorem touchBundle_latched {z : State} (c q : Nat) (full : Bool) (s : State) (hC : z.Latched s) : z.Latched (touchBundle c q full s) := by
  unfold touchBundle
  repeat' first
    | with_reducible assumption
    | with_reducible apply latched_ite
    | with_reducible apply touchAll_latched

theorem touchLoad_latched {z : State} (c q : Nat) (s : State) (hC : z.Latched s) : z.Latched (touchLoad c q s) := by
  unfold touchLoad
  repeat' first
    | with_reducible assumption
    | with_reducible apply latched_ite
    | with_reducible apply latched_foldl
    | with_reducible apply State.updCore_latched
    | with_reducible apply touchBundle_latched
    | intro _ _ _
    | intro _
    | dsimp only
    | split

theorem applyFx_latched {z : State} (c q : Nat) (s : State) (x0 : Fx) (hC : z.Latched s) : z.Latched (applyFx c q s x0) := by
  unfold applyFx
  repeat' first
    | with_reducible assumption
    | with_reducible apply latched_ite
    | with_reducible apply latched_foldl
    | with_reducible apply State.updCore_latched
    | with_reducible apply State.updPart_latched
    | with_reducible apply State.updDie_latched
    | with_reducible apply State.drew_latched
    | with_reducible apply countWindow_latched
    | with_reducible apply maskedWord_latched
    | with_reducible apply flushWcb_latched
    | with_reducible apply farStore_latched
    | intro _ _ _
    | intro _
    | dsimp only
    | split

theorem takeDelay_latched {z : State} (c next : Nat) (d : Delay) (s : State) (hC : z.Latched s) : z.Latched (takeDelay c next d s) := by
  unfold takeDelay
  repeat' first
    | with_reducible assumption
    | with_reducible apply latched_ite
    | with_reducible apply State.updCore_latched
    | with_reducible apply enter_latched
    | intro _ _ _
    | intro _
    | dsimp only
    | split

theorem commit_latched {z : State} (c q next : Nat) (fx : List Fx) (s : State) (hC : z.Latched s) : z.Latched (commit c q next fx s) := by
  unfold commit
  repeat' first
    | with_reducible assumption
    | with_reducible apply latched_ite
    | with_reducible apply latched_foldl
    | with_reducible apply State.updCore_latched
    | with_reducible apply State.drew_latched
    | with_reducible apply flushWcb_latched
    | with_reducible apply applyFx_latched
    | with_reducible apply takeDelay_latched
    | intro _ _ _
    | intro _
    | dsimp only
    | split

theorem takeImmediate_latched {z : State} (c : Nat) (s : State) (hC : z.Latched s) : OptLatched z (takeImmediate c s) := by
  unfold takeImmediate
  repeat' first
    | with_reducible assumption
    | with_reducible apply latched_ite
    | with_reducible apply latched_getD
    | with_reducible apply latchedOpt_bind
    | with_reducible apply latchedOpt_map
    | with_reducible apply latchedOpt_ite
    | with_reducible exact latchedOpt_none
    | with_reducible apply latchedOpt_some
    | with_reducible apply State.updCore_latched
    | with_reducible apply enter_latched
    | intro _ _ _
    | intro _

theorem raiseImmediate_latched {z : State} (c v : Nat) (s : State) (hC : z.Latched s) : z.Latched (raiseImmediate c v s) := by
  unfold raiseImmediate
  repeat' first
    | with_reducible assumption
    | with_reducible apply latched_ite
    | with_reducible apply latched_getD
    | with_reducible apply latchedOpt_bind
    | with_reducible apply latchedOpt_map
    | with_reducible apply latchedOpt_ite
    | with_reducible exact latchedOpt_none
    | with_reducible apply latchedOpt_some
    | with_reducible apply State.updCore_latched
    | with_reducible apply takeImmediate_latched

theorem takeHeld_latched {z : State} (c : Nat) (s : State) (hC : z.Latched s) : OptLatched z (takeHeld c s) := by
  unfold takeHeld
  repeat' first
    | with_reducible assumption
    | with_reducible apply latched_ite
    | with_reducible apply latched_getD
    | with_reducible apply latchedOpt_bind
    | with_reducible apply latchedOpt_map
    | with_reducible apply latchedOpt_ite
    | with_reducible exact latchedOpt_none
    | with_reducible apply latchedOpt_some
    | with_reducible apply State.updCore_latched
    | with_reducible apply enter_latched
    | intro _ _ _
    | intro _

theorem takeHeldAtTwait_latched {z : State} (c : Nat) (s : State) (hC : z.Latched s) : OptLatched z (takeHeldAtTwait c s) := by
  unfold takeHeldAtTwait
  repeat' first
    | with_reducible assumption
    | with_reducible apply latched_ite
    | with_reducible apply latched_getD
    | with_reducible apply latchedOpt_bind
    | with_reducible apply latchedOpt_map
    | with_reducible apply latchedOpt_ite
    | with_reducible exact latchedOpt_none
    | with_reducible apply latchedOpt_some
    | with_reducible apply State.updCore_latched
    | with_reducible apply enter_latched
    | intro _ _ _
    | intro _

theorem deliver_latched {z : State} (c : Nat) (s : State) (hC : z.Latched s) : OptLatched z (deliver c s) := by
  unfold deliver
  repeat' first
    | with_reducible assumption
    | with_reducible apply latched_ite
    | with_reducible apply latched_getD
    | with_reducible apply latchedOpt_bind
    | with_reducible apply latchedOpt_map
    | with_reducible apply latchedOpt_ite
    | with_reducible exact latchedOpt_none
    | with_reducible apply latchedOpt_some
    | with_reducible apply takeImmediate_latched
    | with_reducible apply takeHeld_latched
    | with_reducible apply takeHeldAtTwait_latched
    | intro _ _ _
    | intro _
    | dsimp only
    | split
    | (with_reducible apply latched_misc; with_reducible first | assumption | apply takeImmediate_latched | apply takeHeld_latched | apply takeHeldAtTwait_latched)
    | (refine latched_of_opt (by with_reducible assumption) ?_)

theorem vfRead_latched {z : State} (c : Nat) (s : State) (n : Nat) (hC : z.Latched s) : z.Latched (vfRead c s n) := by
  unfold vfRead
  repeat' first
    | with_reducible assumption
    | with_reducible apply latched_ite
    | with_reducible apply State.updCore_latched
    | with_reducible apply chatter_latched

theorem vfReads_latched {z : State} (c : Nat) (cs : List Nat) (s : State) (hC : z.Latched s) : OptLatched z (vfReads c cs s).1 ∧ z.Latched ((vfReads c cs s).2) := by
  unfold vfReads
  repeat' first
    | with_reducible apply And.intro
    | with_reducible assumption
    | with_reducible apply latched_ite
    | with_reducible apply latched_foldl
    | with_reducible apply latched_getD
    | with_reducible apply latchedOpt_bind
    | with_reducible apply latchedOpt_map
    | with_reducible apply latchedOpt_ite
    | with_reducible exact latchedOpt_none
    | with_reducible apply latchedOpt_some
    | with_reducible apply chatterUe_latched
    | with_reducible apply machineCheck_latched
    | with_reducible apply vfRead_latched
    | intro _ _ _
    | intro _
    | dsimp only
    | split

theorem syllRead_latched {z : State} (c : Nat) (s : State) (i : Nat) (hC : z.Latched s) : z.Latched (syllRead c s i) := by
  unfold syllRead
  repeat' first
    | with_reducible assumption
    | with_reducible apply latched_ite
    | with_reducible apply State.updCore_latched
    | with_reducible apply chatter_latched

theorem frontEnd_latched {z : State} (c : Nat) (s : State) (hC : z.Latched s) : OptLatched z (frontEnd c s).1 ∧ z.Latched ((frontEnd c s).2) := by
  unfold frontEnd
  repeat' first
    | with_reducible apply And.intro
    | with_reducible assumption
    | with_reducible apply latched_ite
    | with_reducible apply latched_foldl
    | with_reducible apply latched_getD
    | with_reducible apply latchedOpt_bind
    | with_reducible apply latchedOpt_map
    | with_reducible apply latchedOpt_ite
    | with_reducible exact latchedOpt_none
    | with_reducible apply latchedOpt_some
    | with_reducible apply State.updCore_latched
    | with_reducible apply chatterUe_latched
    | with_reducible apply machineCheck_latched
    | with_reducible refine (vfReads_latched _ _ _ ?_).1
    | with_reducible refine (vfReads_latched _ _ _ ?_).2
    | with_reducible apply vfReads_latched
    | with_reducible apply syllRead_latched
    | intro _ _ _
    | intro _
    | dsimp only
    | split

theorem commitChecked_latched {z : State} (c q next : Nat) (fx : List Fx) (s : State) (hC : z.Latched s) : z.Latched (commitChecked c q next fx s) := by
  unfold commitChecked
  repeat' first
    | with_reducible assumption
    | with_reducible apply latched_getD
    | with_reducible apply latchedOpt_bind
    | with_reducible apply latchedOpt_map
    | with_reducible exact latchedOpt_none
    | with_reducible apply latchedOpt_some
    | with_reducible apply commit_latched
    | with_reducible refine (vfReads_latched _ _ _ ?_).1
    | with_reducible refine (vfReads_latched _ _ _ ?_).2
    | with_reducible apply vfReads_latched
    | intro _ _ _
    | intro _
    | dsimp only
    | split
    | (with_reducible apply latched_misc; with_reducible first | assumption | apply commit_latched | apply vfReads_latched)
    | (refine latched_of_pair (by with_reducible assumption) ?_)
    | (refine latched_of_opt (by with_reducible assumption) ?_)
    | (refine latchedOpt_of_pair (by with_reducible assumption) ?_)
    | (refine latched_of_fst (by with_reducible assumption) ?_)
    | (refine latched_of_snd (by with_reducible assumption) ?_)

theorem carryOut_latched {z : State} (c q : Nat) (full : Bool) (r : BunR) (next : Nat) (s : State) (hC : z.Latched s) : z.Latched (carryOut c q full r next s) := by
  unfold carryOut
  repeat' first
    | with_reducible assumption
    | with_reducible apply latched_ite
    | with_reducible apply latched_getD
    | with_reducible apply latchedOpt_bind
    | with_reducible apply latchedOpt_map
    | with_reducible apply latchedOpt_ite
    | with_reducible exact latchedOpt_none
    | with_reducible apply latchedOpt_some
    | with_reducible apply State.updCore_latched
    | with_reducible apply lookupAll_latched
    | with_reducible apply enter_latched
    | with_reducible apply requestLines_latched
    | with_reducible apply deliver_latched
    | with_reducible apply commitChecked_latched
    | intro _ _ _
    | intro _
    | dsimp only
    | split
    | (with_reducible apply latched_misc; with_reducible first | assumption | apply State.updCore_latched | apply lookupAll_latched | apply enter_latched | apply requestLines_latched | apply deliver_latched | apply commitChecked_latched)
    | (refine latched_of_opt (by with_reducible assumption) ?_)

theorem ownAction_latched {z : State} (c q : Nat) (s : State) (hC : z.Latched s) : z.Latched (ownAction c q s) := by
  unfold ownAction
  repeat' first
    | with_reducible assumption
    | with_reducible apply latched_foldl
    | with_reducible apply latched_getD
    | with_reducible apply latchedOpt_bind
    | with_reducible apply latchedOpt_map
    | with_reducible exact latchedOpt_none
    | with_reducible apply latchedOpt_some
    | with_reducible apply State.updCore_latched
    | with_reducible apply logEvent_latched
    | with_reducible apply enter_latched
    | with_reducible apply deliver_latched
    | intro _ _ _
    | intro _
    | dsimp only
    | split

theorem twaitStep_latched {z : State} (c q : Nat) (s : State) (hC : z.Latched s) : z.Latched (twaitStep c q s) := by
  unfold twaitStep
  repeat' first
    | with_reducible assumption
    | with_reducible apply latched_ite
    | with_reducible apply latched_getD
    | with_reducible apply latchedOpt_bind
    | with_reducible apply latchedOpt_map
    | with_reducible apply latchedOpt_ite
    | with_reducible exact latchedOpt_none
    | with_reducible apply latchedOpt_some
    | with_reducible apply takeImmediate_latched
    | with_reducible apply ownAction_latched
    | intro _ _ _
    | intro _
    | dsimp only
    | split
    | (with_reducible apply latched_misc; with_reducible first | assumption | apply takeImmediate_latched | apply ownAction_latched)
    | (refine latched_of_opt (by with_reducible assumption) ?_)

theorem bundleStep_latched {z : State} (c q : Nat) (s : State) (hC : z.Latched s) : z.Latched (bundleStep c q s) := by
  unfold bundleStep
  repeat' first
    | with_reducible assumption
    | with_reducible apply latched_ite
    | with_reducible apply latched_getD
    | with_reducible apply latchedOpt_bind
    | with_reducible apply latchedOpt_map
    | with_reducible apply latchedOpt_ite
    | with_reducible exact latchedOpt_none
    | with_reducible apply latchedOpt_some
    | with_reducible apply touchBundle_latched
    | with_reducible refine (frontEnd_latched _ _ ?_).1
    | with_reducible refine (frontEnd_latched _ _ ?_).2
    | with_reducible apply frontEnd_latched
    | with_reducible apply carryOut_latched
    | with_reducible apply twaitStep_latched
    | intro _ _ _
    | intro _
    | dsimp only
    | split
    | (with_reducible apply latched_misc; with_reducible first | assumption | apply touchBundle_latched | apply frontEnd_latched | apply carryOut_latched | apply twaitStep_latched)
    | (refine latched_of_pair (by with_reducible assumption) ?_)
    | (refine latched_of_opt (by with_reducible assumption) ?_)
    | (refine latchedOpt_of_pair (by with_reducible assumption) ?_)
    | (refine latched_of_fst (by with_reducible assumption) ?_)
    | (refine latched_of_snd (by with_reducible assumption) ?_)

theorem execBundleIssue_latched {z : State} (c : CoreId) (env : Env) (s : State) (hC : z.Latched s) : ∀ t', execBundleIssue c env s = .next t' → z.Latched t' := by
  unfold execBundleIssue
  intro _ hE
  cases hE
  repeat' first
    | with_reducible assumption
    | with_reducible apply applyUpsets_latched
    | with_reducible apply bundleStep_latched
    | intro _ _ _
    | intro _
    | dsimp only
    | split

theorem faultPointStep_latched {z : State} (c q : Nat) (s : State) (hC : z.Latched s) : z.Latched (faultPointStep c q s) := by
  unfold faultPointStep
  repeat' first
    | with_reducible assumption
    | with_reducible apply latched_ite
    | with_reducible apply touchLoad_latched
    | with_reducible apply carryOut_latched

theorem execVectorLoadFaultPoint_latched {z : State} (c : CoreId) (env : Env) (s : State) (hC : z.Latched s) : ∀ t', execVectorLoadFaultPoint c env s = .next t' → z.Latched t' := by
  unfold execVectorLoadFaultPoint
  intro _ hE
  cases hE
  repeat' first
    | with_reducible assumption
    | with_reducible apply applyUpsets_latched
    | with_reducible apply faultPointStep_latched
    | intro _ _ _
    | intro _
    | dsimp only
    | split

theorem execOwnActionDelivery_latched {z : State} (c : CoreId) (s : State) (hC : z.Latched s) : ∀ t', execOwnActionDelivery c s = .next t' → z.Latched t' := by
  unfold execOwnActionDelivery
  intro _ hE
  cases hE
  repeat' first
    | with_reducible assumption
    | with_reducible apply latched_ite
    | with_reducible apply twaitStep_latched
    | intro _ _ _
    | intro _
    | dsimp only
    | split

theorem updBulk_latched {z : State} (d q : Nat) (f : Bulk → Bulk) (s : State) (hC : z.Latched s) : z.Latched (updBulk d q f s) := by
  unfold updBulk
  repeat' first
    | with_reducible assumption
    | with_reducible apply State.updDie_latched

theorem updTu_latched {z : State} (q : Nat) (u : UnitRef) (f : TurnUnit → TurnUnit) (s : State) (hC : z.Latched s) : z.Latched (updTu q u f s) := by
  unfold updTu
  repeat' first
    | with_reducible assumption
    | with_reducible apply State.updCore_latched
    | with_reducible apply State.updPart_latched
    | with_reducible apply updReg_latched
    | with_reducible apply updBulk_latched
    | intro _ _ _
    | intro _
    | dsimp only
    | split

theorem bumpCounter_latched {z : State} (q : Nat) (u : UnitRef) (ac by' : Nat) (s : State) (hC : z.Latched s) : z.Latched (bumpCounter q u ac by' s) := by
  unfold bumpCounter
  repeat' first
    | with_reducible assumption
    | with_reducible apply latched_ite
    | with_reducible apply State.updCore_latched
    | with_reducible apply State.updPart_latched
    | with_reducible apply updTu_latched

theorem coreEvent_latched {z : State} (q c evt sel : Nat) (s : State) (hC : z.Latched s) : z.Latched (coreEvent q c evt sel s) := by
  unfold coreEvent
  repeat' first
    | with_reducible assumption
    | with_reducible apply latched_ite
    | with_reducible apply latched_foldl
    | with_reducible apply bumpCounter_latched
    | intro _ _ _

theorem rxMsg_latched {z : State} (q r turn : Nat) (m : Msg) (s : State) (hC : z.Latched s) : z.Latched (rxMsg q r turn m s) := by
  unfold rxMsg
  repeat' first
    | with_reducible assumption
    | with_reducible apply State.updCore_latched
    | with_reducible apply coreEvent_latched

theorem popMsg_latched {z : State} (c i : Nat) (m : Msg) (s : State) (hC : z.Latched s) : z.Latched ((popMsg c i m s).1) := by
  unfold popMsg
  repeat' first
    | with_reducible assumption
    | with_reducible apply latched_ite
    | with_reducible apply State.updCore_latched

theorem acceptMsg_latched {z : State} (q c i r : Nat) (m : Msg) (s : State) (hC : z.Latched s) : z.Latched (acceptMsg q c i r m s) := by
  unfold acceptMsg
  repeat' first
    | with_reducible assumption
    | with_reducible apply rxMsg_latched
    | with_reducible apply popMsg_latched

theorem sendOut_latched {z : State} (q c dst chan : Nat) (s : State) (hC : z.Latched s) : z.Latched (sendOut q c dst chan s) := by
  unfold sendOut
  repeat' first
    | with_reducible assumption
    | with_reducible apply State.emit_latched
    | with_reducible apply popMsg_latched
    | intro _ _ _
    | intro _
    | dsimp only
    | split

theorem msgArrives_latched {z : State} (q src dst chan : Nat) (word : TWord) (s : State) (hC : z.Latched s) : z.Latched (msgArrives q src dst chan word s) := by
  unfold msgArrives
  repeat' first
    | with_reducible assumption
    | with_reducible apply latched_ite
    | with_reducible apply rxMsg_latched
    | intro _ _ _
    | intro _
    | dsimp only
    | split

theorem execMessageAccept_latched {z : State} (m : MsgStep) (env : Env) (s : State) (hC : z.Latched s) : ∀ t', execMessageAccept m env s = .next t' → z.Latched t' := by
  unfold execMessageAccept
  intro _ hE
  cases hE
  repeat' first
    | with_reducible assumption
    | with_reducible apply applyUpsets_latched
    | with_reducible apply acceptMsg_latched
    | with_reducible apply sendOut_latched
    | with_reducible apply msgArrives_latched
    | intro _ _ _
    | intro _
    | dsimp only
    | split

theorem execNotifyIncrement_latched {z : State} (q : PartId) (s : State) (hC : z.Latched s) : ∀ t', execNotifyIncrement q s = .next t' → z.Latched t' := by
  unfold execNotifyIncrement
  intro _ hE
  cases hE
  repeat' first
    | with_reducible assumption
    | with_reducible apply latched_ite
    | with_reducible apply State.updPart_latched
    | with_reducible apply bumpCounter_latched
    | intro _ _ _
    | intro _
    | dsimp only
    | split

theorem execHaltNotice_latched {z : State} (c : CoreId) (s : State) (hC : z.Latched s) : ∀ t', execHaltNotice c s = .next t' → z.Latched t' := by
  unfold execHaltNotice
  intro _ hE
  cases hE
  repeat' first
    | with_reducible assumption
    | with_reducible apply latched_ite
    | with_reducible apply State.updCore_latched
    | with_reducible apply logEvent_latched
    | with_reducible apply faultPart_latched
    | intro _ _ _
    | intro _
    | dsimp only
    | split

theorem execPatrolScrub_latched {z : State} (c : CoreId) (env : Env) (s : State) (hC : z.Latched s) : ∀ t', execPatrolScrub c env s = .next t' → z.Latched t' := by
  unfold execPatrolScrub
  intro _ hE
  cases hE
  repeat' first
    | with_reducible assumption
    | with_reducible apply latched_ite
    | with_reducible apply State.updCore_latched
    | with_reducible apply applyUpsets_latched
    | with_reducible apply touchAll_latched

theorem latched_runst_of_pair {z : State} {β : Type} {p : RunSt × β} {a : RunSt} {b : β} (e : p = (a, b)) (h : z.Latched p.1.s) : z.Latched a.s := by
  subst e; exact h

theorem latched_runst_foldl {z : State} {α : Type} {g : RunSt → α → RunSt} {l : List α} {r : RunSt} (h : z.Latched r.s)
    (hg : ∀ r a, z.Latched r.s → z.Latched ((g r a).s)) : z.Latched ((l.foldl g r).s) := by
  induction l generalizing r with
  | nil => exact h
  | cons x l ih => exact ih (hg _ _ h)

theorem fireRun_latched {z : State} (c : Nat) (e : ArmEntry) (s : State) (hC : z.Latched s) : z.Latched (fireRun c e s) := by
  unfold fireRun
  repeat' first
    | with_reducible assumption
    | with_reducible apply State.updCore_latched
    | with_reducible apply touchAll_latched
    | with_reducible apply touchRun_latched
    | intro _ _ _
    | intro _
    | dsimp only
    | split

theorem RunSt.start_latched {z : State} (s : State) (hC : z.Latched s) : z.Latched ((RunSt.start s).s) := by
  unfold RunSt.start
  repeat' first
    | with_reducible assumption

theorem RunSt.flush_latched {z : State} (c : Nat) (tag : Tag) (r : RunSt) (hC : z.Latched r.s) : z.Latched ((RunSt.flush c tag r).s) := by
  unfold RunSt.flush
  repeat' first
    | with_reducible assumption
    | with_reducible apply maskedWord_latched
    | intro _ _ _
    | intro _
    | dsimp only
    | split

theorem readElem_latched {z : State} (c : Nat) (tag : Tag) (t : Tensor) (ix : List Nat) (r : RunSt) (hC : z.Latched r.s) : z.Latched ((readElem c tag t ix r).1.s) := by
  unfold readElem
  repeat' first
    | with_reducible assumption
    | with_reducible apply latched_ite
    | with_reducible apply touch_latched
    | with_reducible apply RunSt.flush_latched
    | intro _ _ _
    | intro _
    | dsimp only
    | split

theorem readInputs_latched {z : State} (c : Nat) (tag : Tag) (d : RunDesc) (quiet : Bool) (e : Nat) (ix : List Nat) (x0 : List Nat) (x1 : List Nat) (x2 : RunSt) (hC : z.Latched x2.s) : z.Latched ((readInputs c tag d quiet e ix x0 x1 x2).1.s) := by
  induction x0 generalizing x1 x2 with
  | nil =>
    unfold readInputs
    repeat' first
      | with_reducible assumption
  | cons a l ih =>
    unfold readInputs
    repeat' first
      | with_reducible apply ih
      | with_reducible assumption
      | with_reducible apply latched_ite
      | with_reducible apply readElem_latched
      | intro _ _ _
      | intro _
      | dsimp only
      | split
      | (with_reducible apply latched_misc; with_reducible first | assumption | apply readElem_latched)
      | (refine latched_of_pair (by with_reducible assumption) ?_)
      | with_reducible apply latched_runst_foldl
      | (refine latched_runst_of_pair (by with_reducible assumption) ?_)

theorem maskActive_latched {z : State} (c : Nat) (tag : Tag) (d : RunDesc) (quiet : Bool) (e : Nat) (ix : List Nat) (r : RunSt) (hC : z.Latched r.s) : z.Latched ((maskActive c tag d quiet e ix r).1.s) := by
  unfold maskActive
  repeat' first
    | with_reducible assumption
    | with_reducible apply latched_ite
    | with_reducible apply readElem_latched
    | intro _ _ _
    | intro _
    | dsimp only
    | split
    | (with_reducible apply latched_misc; with_reducible first | assumption | apply readElem_latched)
    | (refine latched_of_pair (by with_reducible assumption) ?_)
    | with_reducible apply latched_runst_foldl
    | (refine latched_runst_of_pair (by with_reducible assumption) ?_)

theorem writeElem_latched {z : State} (c : Nat) (tag : Tag) (n a v : Nat) (r : RunSt) (hC : z.Latched r.s) : z.Latched ((writeElem c tag n a v r).s) := by
  unfold writeElem
  repeat' first
    | with_reducible assumption
    | with_reducible apply latched_ite
    | with_reducible apply RunSt.flush_latched
    | intro _ _ _
    | intro _
    | dsimp only
    | split

theorem observe_latched {z : State} (e : Nat) (f : Nat) (r : RunSt) (hC : z.Latched r.s) : z.Latched ((observe e f r).s) := by
  unfold observe
  repeat' first
    | with_reducible assumption

theorem endElem_latched {z : State} (c : Nat) (tag : Tag) (d : RunDesc) (rc : RunCx) (e : Nat) (ix : List Nat) (ev : EvSt) (r : RunSt) (hC : z.Latched r.s) : z.Latched ((endElem c tag d rc e ix ev r).s) := by
  unfold endElem
  repeat' first
    | with_reducible assumption
    | with_reducible apply latched_ite
    | with_reducible apply writeElem_latched
    | with_reducible apply observe_latched
    | intro _ _ _
    | intro _
    | dsimp only
    | split

theorem runElem_latched {z : State} (c : Nat) (tag : Tag) (d : RunDesc) (rc : RunCx) (r : RunSt) (e : Nat) (hC : z.Latched r.s) : z.Latched ((runElem c tag d rc r e).s) := by
  unfold runElem
  repeat' first
    | with_reducible assumption
    | with_reducible apply latched_ite
    | with_reducible apply latched_foldl
    | with_reducible apply RunSt.start_latched
    | with_reducible apply readInputs_latched
    | with_reducible apply maskActive_latched
    | with_reducible apply endElem_latched
    | intro _ _ _
    | intro _
    | dsimp only
    | split
    | (with_reducible apply latched_misc; with_reducible first | assumption | apply RunSt.start_latched | apply readInputs_latched | apply maskActive_latched | apply endElem_latched | apply latched_foldl)
    | (refine latched_of_pair (by with_reducible assumption) ?_)
    | with_reducible apply latched_runst_foldl
    | (refine latched_runst_of_pair (by with_reducible assumption) ?_)

theorem wholeWords_latched {z : State} (c : Nat) (tag : Tag) (r : RunSt) (hC : z.Latched r.s) : z.Latched (wholeWords c tag r) := by
  unfold wholeWords
  repeat' first
    | with_reducible assumption
    | with_reducible apply latched_ite
    | with_reducible apply latched_foldl
    | with_reducible apply State.updCore_latched
    | intro _ _ _

theorem runAll_latched {z : State} (c q : Nat) (j : RunJob) (s : State) (hC : z.Latched s) : z.Latched ((runAll c q j s).s) := by
  unfold runAll
  repeat' first
    | with_reducible assumption
    | with_reducible apply latched_foldl
    | with_reducible apply RunSt.start_latched
    | with_reducible apply RunSt.flush_latched
    | with_reducible apply runElem_latched
    | intro _ _ _
    | intro _
    | dsimp only
    | split
    | (with_reducible apply latched_misc; with_reducible first | assumption | apply RunSt.start_latched | apply RunSt.flush_latched | apply runElem_latched | apply latched_foldl)
    | with_reducible apply latched_runst_foldl

theorem endRun_latched {z : State} (c q : Nat) (j : RunJob) (s : State) (hC : z.Latched s) : z.Latched (endRun c q j s) := by
  unfold endRun
  repeat' first
    | with_reducible assumption
    | with_reducible apply latched_ite
    | with_reducible apply State.updCore_latched
    | with_reducible apply coreEvent_latched
    | with_reducible apply wholeWords_latched
    | with_reducible apply runAll_latched

theorem execTensorStreamComplete_latched {z : State} (c : CoreId) (env : Env) (s : State) (hC : z.Latched s) : ∀ t', execTensorStreamComplete c env s = .next t' → z.Latched t' := by
  unfold execTensorStreamComplete
  intro _ hE
  cases hE
  repeat' first
    | with_reducible assumption
    | with_reducible apply latched_ite
    | with_reducible apply applyUpsets_latched
    | with_reducible apply endRun_latched
    | intro _ _ _
    | intro _
    | dsimp only
    | split

theorem peekLines_latched {z : State} (q : Nat) (x0 : Nat) (x1 : Nat) (x2 : State) (hC : z.Latched x2) : z.Latched ((peekLines q x0 x1 x2).1) := by
  induction x0 generalizing x1 x2 with
  | zero =>
    unfold peekLines
    repeat' first
      | with_reducible assumption
  | succ n ih =>
    unfold peekLines
    repeat' first
      | with_reducible apply ih
      | with_reducible assumption
      | with_reducible apply latched_ite
      | with_reducible apply lineNow_latched
      | with_reducible apply walkRead_latched
      | intro _ _ _
      | intro _
      | dsimp only
      | split
      | (with_reducible apply latched_misc; with_reducible first | assumption | apply lineNow_latched | apply walkRead_latched)
      | (refine latched_of_pair (by with_reducible assumption) ?_)

theorem readTable_latched {z : State} (q : Nat) (s : State) (hC : z.Latched s) : z.Latched ((readTable q s).1) := by
  unfold readTable
  repeat' first
    | with_reducible assumption
    | with_reducible apply peekLines_latched
    | intro _ _ _
    | intro _
    | dsimp only
    | split
    | (with_reducible apply latched_misc; with_reducible first | assumption | apply peekLines_latched)
    | (refine latched_of_pair (by with_reducible assumption) ?_)

theorem monitorTurn_latched {z : State} (q : Nat) (s : State) (hC : z.Latched s) : z.Latched (monitorTurn q s) := by
  unfold monitorTurn
  repeat' first
    | with_reducible assumption
    | with_reducible apply latched_ite
    | with_reducible apply State.updPart_latched
    | with_reducible apply readTable_latched

theorem execMonitorCounts_latched {z : State} (q : PartId) (s : State) (hC : z.Latched s) : ∀ t', execMonitorCounts q s = .next t' → z.Latched t' := by
  unfold execMonitorCounts
  intro _ hE
  cases hE
  repeat' first
    | with_reducible assumption
    | with_reducible apply latched_ite
    | with_reducible apply State.updCore_latched
    | with_reducible apply State.updPart_latched
    | intro _ _ _
    | intro _
    | dsimp only
    | split

theorem logXlate_latched {z : State} (q va : Nat) (s : State) (hC : z.Latched s) : z.Latched ((logXlate q va s).1) := by
  unfold logXlate
  repeat' first
    | with_reducible assumption
    | with_reducible apply latched_ite
    | with_reducible apply walkRead_latched
    | intro _ _ _
    | intro _
    | dsimp only
    | split

theorem logPart_latched {z : State} (q va : Nat) (bytes : List Byte) (e : TlbEntry) (s : State) (hC : z.Latched s) : z.Latched (logPart q va bytes e s) := by
  unfold logPart
  repeat' first
    | with_reducible assumption
    | with_reducible apply submit_latched

theorem logFails_latched {z : State} (q base cause : Nat) (s : State) (hC : z.Latched s) : z.Latched (logFails q base cause s) := by
  unfold logFails
  repeat' first
    | with_reducible assumption
    | with_reducible apply State.updPart_latched
    | with_reducible apply logEvent_latched

theorem logWrite_latched {z : State} (q base size : Nat) (bytes : List Byte) (s : State) (hC : z.Latched s) : z.Latched (logWrite q base size bytes s) := by
  unfold logWrite
  repeat' first
    | with_reducible assumption
    | with_reducible apply latched_ite
    | with_reducible apply State.updPart_latched
    | with_reducible apply logXlate_latched
    | with_reducible apply logPart_latched
    | with_reducible apply logFails_latched
    | intro _ _ _
    | intro _
    | dsimp only
    | split

theorem execNumericsLogWrite_latched {z : State} (q : PartId) (s : State) (hC : z.Latched s) : ∀ t', execNumericsLogWrite q s = .next t' → z.Latched t' := by
  unfold execNumericsLogWrite
  intro _ hE
  cases hE
  repeat' first
    | with_reducible assumption
    | with_reducible apply logWrite_latched
    | intro _ _ _
    | intro _
    | dsimp only
    | split

theorem recWrite_latched {z : State} (q : Nat) (x0 : Nat) (x1 : Nat) (x2 : List Byte) (x3 : State) (hC : z.Latched x3) : z.Latched (recWrite q x0 x1 x2 x3) := by
  induction x0 generalizing x1 x2 x3 with
  | zero =>
    unfold recWrite
    repeat' first
      | with_reducible assumption
  | succ n ih =>
    unfold recWrite
    repeat' first
      | with_reducible apply ih
      | with_reducible assumption
      | with_reducible apply latched_ite
      | with_reducible apply submit_latched
      | with_reducible apply walkRead_latched
      | intro _ _ _
      | intro _
      | dsimp only
      | split
      | (with_reducible apply latched_misc; with_reducible first | assumption | apply submit_latched | apply walkRead_latched)
      | (refine latched_of_pair (by with_reducible assumption) ?_)

theorem recPut_latched {z : State} (q va : Nat) (bs : List Byte) (s : State) (hC : z.Latched s) : z.Latched (recPut q va bs s) := by
  unfold recPut
  repeat' first
    | with_reducible assumption
    | with_reducible apply recWrite_latched

theorem recHead_latched {z : State} (q : Nat) (s : State) (hC : z.Latched s) : z.Latched (recHead q s) := by
  unfold recHead
  repeat' first
    | with_reducible assumption
    | with_reducible apply recPut_latched

theorem recAppend_latched {z : State} (q : Nat) (bs : List Byte) (s : State) (hC : z.Latched s) : z.Latched (recAppend q bs s) := by
  unfold recAppend
  repeat' first
    | with_reducible assumption
    | with_reducible apply State.updPart_latched
    | with_reducible apply recPut_latched

theorem recStop_latched {z : State} (q code : Nat) (s : State) (hC : z.Latched s) : z.Latched (recStop q code s) := by
  unfold recStop
  repeat' first
    | with_reducible assumption
    | with_reducible apply latched_ite
    | with_reducible apply State.updPart_latched
    | with_reducible apply recHead_latched
    | with_reducible apply recAppend_latched

theorem recItem_latched {z : State} (q kind flags unit len turn key sub : Nat) (payload : List Byte) (s : State) (hC : z.Latched s) : z.Latched (recItem q kind flags unit len turn key sub payload s) := by
  unfold recItem
  repeat' first
    | with_reducible assumption
    | with_reducible apply latched_ite
    | with_reducible apply recAppend_latched
    | with_reducible apply recStop_latched

theorem putTurnEnd_latched {z : State} (q : Nat) (e : TurnEnd) (s : State) (hC : z.Latched s) : z.Latched (putTurnEnd q e s) := by
  unfold putTurnEnd
  repeat' first
    | with_reducible assumption
    | with_reducible apply latched_ite
    | with_reducible apply State.updPart_latched
    | with_reducible apply recHead_latched
    | with_reducible apply recStop_latched
    | with_reducible apply recItem_latched

theorem recEnd_latched {z : State} (q code : Nat) (s : State) (hC : z.Latched s) : z.Latched (recEnd q code s) := by
  unfold recEnd
  repeat' first
    | with_reducible assumption
    | with_reducible apply latched_ite
    | with_reducible apply latched_foldl
    | with_reducible apply State.updPart_latched
    | with_reducible apply recStop_latched
    | with_reducible apply putTurnEnd_latched
    | intro _ _ _

theorem recInput_latched {z : State} (q kind unit key sub : Nat) (content : List Byte) (s : State) (hC : z.Latched s) : z.Latched (recInput q kind unit key sub content s) := by
  unfold recInput
  repeat' first
    | with_reducible assumption
    | with_reducible apply latched_ite
    | with_reducible apply recItem_latched

theorem recStart_latched {z : State} (q mode va len : Nat) (s : State) (hC : z.Latched s) : z.Latched (recStart q mode va len s) := by
  unfold recStart
  repeat' first
    | with_reducible assumption
    | with_reducible apply State.updPart_latched
    | with_reducible apply recPut_latched
    | with_reducible apply recItem_latched

theorem recLine_latched {z : State} (q unit va : Nat) (bytes : List Byte) (s : State) (hC : z.Latched s) : z.Latched (recLine q unit va bytes s) := by
  unfold recLine
  repeat' first
    | with_reducible assumption
    | with_reducible apply latched_ite
    | with_reducible apply State.updPart_latched
    | with_reducible apply recInput_latched

theorem replayEnd_latched {z : State} (q : Nat) (s : State) (hC : z.Latched s) : z.Latched (replayEnd q s) := by
  unfold replayEnd
  repeat' first
    | with_reducible assumption
    | with_reducible apply State.updPart_latched
    | with_reducible apply State.updMbx_latched
    | with_reducible apply State.drew_latched
    | with_reducible apply stopWithin_latched
    | intro _ _ _
    | intro _
    | dsimp only
    | split

theorem replayDiverge_latched {z : State} (q turn unit stream : Nat) (s : State) (hC : z.Latched s) : z.Latched (replayDiverge q turn unit stream s) := by
  unfold replayDiverge
  repeat' first
    | with_reducible assumption
    | with_reducible apply State.updPart_latched
    | with_reducible apply replayEnd_latched

theorem replayLine_latched {z : State} (q unit va pa : Nat) (y : Replay) (s : State) (hC : z.Latched s) : z.Latched ((replayLine q unit va pa y s).1) := by
  unfold replayLine
  repeat' first
    | with_reducible assumption
    | with_reducible apply latched_ite
    | with_reducible apply State.updPart_latched
    | with_reducible apply replayDiverge_latched
    | intro _ _ _
    | intro _
    | dsimp only
    | split

theorem hostReadFails_latched {z : State} (q unit va iova : Nat) (f : HostFail) (s : State) (hC : z.Latched s) : z.Latched (hostReadFails q unit va iova f s) := by
  unfold hostReadFails
  repeat' first
    | with_reducible assumption
    | with_reducible apply logEvent_latched
    | with_reducible apply stopWithin_latched

theorem hostLine_latched {z : State} (q unit va pa iova : Nat) (env : Env) (s : State) (hC : z.Latched s) : z.Latched ((hostLine q unit va pa iova env s).1) := by
  unfold hostLine
  repeat' first
    | with_reducible assumption
    | with_reducible apply recLine_latched
    | with_reducible apply replayLine_latched
    | with_reducible apply hostReadFails_latched
    | intro _ _ _
    | intro _
    | dsimp only
    | split

theorem countTurn_latched {z : State} (q : Nat) (s : State) (hC : z.Latched s) : z.Latched (countTurn q s) := by
  unfold countTurn
  repeat' first
    | with_reducible assumption
    | with_reducible apply State.updPart_latched

theorem compareTurn_latched {z : State} (q : Nat) (e : TurnEnd) (y : Replay) (s : State) (hC : z.Latched s) : z.Latched (compareTurn q e y s) := by
  unfold compareTurn
  repeat' first
    | with_reducible assumption
    | with_reducible apply latched_ite
    | with_reducible apply replayEnd_latched
    | with_reducible apply replayDiverge_latched
    | with_reducible apply countTurn_latched
    | intro _ _ _
    | intro _
    | dsimp only
    | split

theorem execTurnEndItem_latched {z : State} (q : PartId) (s : State) (hC : z.Latched s) : ∀ t', execTurnEndItem q s = .next t' → z.Latched t' := by
  unfold execTurnEndItem
  intro _ hE
  cases hE
  repeat' first
    | with_reducible assumption
    | with_reducible apply latched_ite
    | with_reducible apply State.updPart_latched
    | with_reducible apply putTurnEnd_latched
    | with_reducible apply compareTurn_latched
    | intro _ _ _
    | intro _
    | dsimp only
    | split

theorem feederGot_latched {z : State} (c fire unit va : Nat) (l : Line) (s : State) (hC : z.Latched s) : z.Latched (feederGot c fire unit va l s) := by
  unfold feederGot
  repeat' first
    | with_reducible assumption
    | with_reducible apply State.updCore_latched

theorem feederLost_latched {z : State} (c fire : Nat) (s : State) (hC : z.Latched s) : z.Latched (feederLost c fire s) := by
  unfold feederLost
  repeat' first
    | with_reducible assumption
    | with_reducible apply State.updCore_latched

theorem askLine_latched {z : State} (c q fire unit va : Nat) (env : Env) (s : State) (hC : z.Latched s) : z.Latched ((askLine c q fire unit va env s).1) := by
  unfold askLine
  repeat' first
    | with_reducible assumption
    | with_reducible apply latched_ite
    | with_reducible apply State.updCore_latched
    | with_reducible apply submit_latched
    | with_reducible apply translateFar_latched
    | with_reducible apply countWindow_latched
    | with_reducible apply tlbInstall_latched
    | with_reducible apply hostLine_latched
    | with_reducible apply feederLost_latched
    | intro _ _ _
    | intro _
    | dsimp only
    | split
    | (with_reducible apply latched_misc; with_reducible first | assumption | apply State.updCore_latched | apply submit_latched | apply translateFar_latched | apply countWindow_latched | apply tlbInstall_latched | apply hostLine_latched | apply feederLost_latched)
    | (refine latched_of_pair (by with_reducible assumption) ?_)

theorem bar2End_latched {z : State} (p : PortId) (r : Bar2Read) (s : State) (hC : z.Latched s) : z.Latched (bar2End p r s) := by
  unfold bar2End
  repeat' first
    | with_reducible assumption
    | with_reducible apply latched_ite
    | with_reducible apply State.emit_latched
    | with_reducible apply portErr_latched

theorem bar2Got_latched {z : State} (p : PortId) (k line : Nat) (l : Line) (s : State) (hC : z.Latched s) : z.Latched (bar2Got p k line l s) := by
  unfold bar2Got
  repeat' first
    | with_reducible assumption
    | with_reducible apply latched_ite
    | with_reducible apply State.updPort_latched
    | with_reducible apply bar2End_latched
    | intro _ _ _
    | intro _
    | dsimp only
    | split

theorem updStream_latched {z : State} (q n : Nat) (f : Stream → Stream) (s : State) (hC : z.Latched s) : z.Latched (updStream q n f s) := by
  unfold updStream
  repeat' first
    | with_reducible assumption
    | with_reducible apply State.updPart_latched

theorem frameGot_latched {z : State} (q n va : Nat) (l : Line) (s : State) (hC : z.Latched s) : z.Latched (frameGot q n va l s) := by
  unfold frameGot
  repeat' first
    | with_reducible assumption
    | with_reducible apply latched_ite
    | with_reducible apply updStream_latched

theorem latched_feedst_of_pair {z : State} {β : Type} {p : FeedSt × β} {a : FeedSt} {b : β} (e : p = (a, b)) (h : z.Latched p.1.s) : z.Latched a.s := by
  subst e; exact h

theorem matrixFault_latched {z : State} (q c : Nat) (f : MFault) (s : State) (hC : z.Latched s) : z.Latched (matrixFault q c f s) := by
  unfold matrixFault
  repeat' first
    | with_reducible assumption
    | with_reducible apply latched_ite
    | with_reducible apply State.updCore_latched
    | with_reducible apply logEvent_latched

theorem firePass_latched {z : State} (q c : Nat) (e : ArmEntry) (s : State) (hC : z.Latched s) : z.Latched (firePass q c e s) := by
  unfold firePass
  repeat' first
    | with_reducible assumption
    | with_reducible apply State.updCore_latched
    | with_reducible apply touchRun_latched
    | with_reducible apply matrixFault_latched
    | intro _ _ _
    | intro _
    | dsimp only
    | split

theorem startPass_latched {z : State} (q c : Nat) (j : PassJob) (s : State) (hC : z.Latched s) : z.Latched (startPass q c j s) := by
  unfold startPass
  repeat' first
    | with_reducible assumption
    | with_reducible apply latched_ite
    | with_reducible apply State.updCore_latched
    | with_reducible apply flushWcb_latched
    | with_reducible apply coreEvent_latched
    | with_reducible apply matrixFault_latched

theorem feedRead_latched {z : State} (c : Nat) (tag : Tag) (unit n va : Nat) (f : FeedSt) (hC : z.Latched f.s) : z.Latched ((feedRead c tag unit n va f).1.s) := by
  unfold feedRead
  repeat' first
    | with_reducible assumption
    | with_reducible apply latched_ite
    | with_reducible apply touch_latched
    | intro _ _ _
    | intro _
    | dsimp only
    | split

theorem feedElem_latched {z : State} (c : Nat) (d : PassDesc) (a : Bool) (i k : Nat) (f : FeedSt) (hC : z.Latched f.s) : z.Latched ((feedElem c d a i k f).1.s) := by
  unfold feedElem
  repeat' first
    | with_reducible assumption
    | with_reducible apply latched_ite
    | with_reducible apply feedRead_latched
    | intro _ _ _
    | intro _
    | dsimp only
    | split
    | (with_reducible apply latched_misc; with_reducible first | assumption | apply feedRead_latched)
    | (refine latched_of_pair (by with_reducible assumption) ?_)
    | (refine latched_feedst_of_pair (by with_reducible assumption) ?_)

theorem feedKs_latched {z : State} (c : Nat) (d : PassDesc) (a : Bool) (i : Nat) (x0 : List Nat) (x1 : FeedSt) (x2 : List Fed) (hC : z.Latched x1.s) : z.Latched ((feedKs c d a i x0 x1 x2).1.s) := by
  induction x0 generalizing x1 x2 with
  | nil =>
    unfold feedKs
    repeat' first
      | with_reducible assumption
  | cons a l ih =>
    unfold feedKs
    repeat' first
      | with_reducible apply ih
      | with_reducible assumption
      | with_reducible apply feedElem_latched

theorem feedRows_latched {z : State} (c : Nat) (d : PassDesc) (a : Bool) (ks : List Nat) (x0 : List Nat) (x1 : FeedSt) (x2 : List (Nat × List Fed)) (hC : z.Latched x1.s) : z.Latched ((feedRows c d a ks x0 x1 x2).1.s) := by
  induction x0 generalizing x1 x2 with
  | nil =>
    unfold feedRows
    repeat' first
      | with_reducible assumption
  | cons a l ih =>
    unfold feedRows
    repeat' first
      | with_reducible apply ih
      | with_reducible assumption
      | with_reducible apply feedKs_latched

theorem readBeat_latched {z : State} (c : Nat) (d : PassDesc) (b : Nat) (f : FeedSt) (hC : z.Latched f.s) : z.Latched ((readBeat c d b f).1.s) := by
  unfold readBeat
  repeat' first
    | with_reducible assumption
    | with_reducible apply feedRows_latched

theorem askAccs_latched {z : State} (c q fire : Nat) (env : Env) (x0 : List (Nat × Nat)) (x1 : State) (hC : z.Latched x1) : z.Latched ((askAccs c q fire env x0 x1).1) := by
  induction x0 generalizing x1 with
  | nil =>
    unfold askAccs
    repeat' first
      | with_reducible assumption
      | with_reducible apply latched_ite
      | with_reducible apply State.updCore_latched
  | cons a l ih =>
    unfold askAccs
    repeat' first
      | with_reducible apply ih
      | with_reducible assumption
      | with_reducible apply latched_ite
      | with_reducible apply State.updCore_latched
      | with_reducible apply askLine_latched
      | intro _ _ _
      | intro _
      | dsimp only
      | split
      | (with_reducible apply latched_misc; with_reducible first | assumption | apply State.updCore_latched | apply askLine_latched)
      | (refine latched_of_pair (by with_reducible assumption) ?_)

theorem askAhead_latched {z : State} (c q fire : Nat) (env : Env) (x0 : Nat) (x1 : State) (hC : z.Latched x1) : z.Latched (askAhead c q fire env x0 x1) := by
  induction x0 generalizing x1 with
  | zero =>
    unfold askAhead
    repeat' first
      | with_reducible assumption
  | succ n ih =>
    unfold askAhead
    repeat' first
      | with_reducible apply ih
      | with_reducible assumption
      | with_reducible apply latched_ite
      | with_reducible apply askAccs_latched
      | intro _ _ _
      | intro _
      | dsimp only
      | split
      | (with_reducible apply latched_misc; with_reducible first | assumption | apply askAccs_latched)
      | (refine latched_of_pair (by with_reducible assumption) ?_)

theorem pump_latched {z : State} (c q fire : Nat) (env : Env) (lim : Nat) (x0 : Nat) (x1 : State) (hC : z.Latched x1) : z.Latched (pump c q fire env lim x0 x1) := by
  induction x0 generalizing x1 with
  | zero =>
    unfold pump
    repeat' first
      | with_reducible assumption
  | succ n ih =>
    unfold pump
    repeat' first
      | with_reducible apply ih
      | with_reducible assumption
      | with_reducible apply latched_ite
      | with_reducible apply State.updCore_latched
      | with_reducible apply readBeat_latched
      | with_reducible apply askAhead_latched
      | intro _ _ _
      | intro _
      | dsimp only
      | split

theorem feedPass_latched {z : State} (c q : Nat) (env : Env) (lim : Nat) (j : PassJob) (s : State) (hC : z.Latched s) : z.Latched (feedPass c q env lim j s) := by
  unfold feedPass
  repeat' first
    | with_reducible assumption
    | with_reducible apply State.updCore_latched
    | with_reducible apply pump_latched

theorem feedStarted_latched {z : State} (c : Nat) (env : Env) (s : State) (hC : z.Latched s) : z.Latched (feedStarted c env s) := by
  unfold feedStarted
  repeat' first
    | with_reducible assumption
    | with_reducible apply latched_foldl
    | with_reducible apply feedPass_latched
    | intro _ _ _
    | intro _
    | dsimp only
    | split

theorem execPassStart_latched {z : State} (c : CoreId) (env : Env) (s : State) (hC : z.Latched s) : ∀ t', execPassStart c env s = .next t' → z.Latched t' := by
  unfold execPassStart
  intro _ hE
  cases hE
  repeat' first
    | with_reducible assumption
    | with_reducible apply latched_ite
    | with_reducible apply applyUpsets_latched
    | with_reducible apply startPass_latched
    | with_reducible apply feedPass_latched
    | with_reducible apply feedStarted_latched
    | intro _ _ _
    | intro _
    | dsimp only
    | split

theorem feederLine_latched {z : State} (c fire unit va : Nat) (l : Line) (env : Env) (s : State) (hC : z.Latched s) : z.Latched (feederLine c fire unit va l env s) := by
  unfold feederLine
  repeat' first
    | with_reducible assumption
    | with_reducible apply feederGot_latched
    | with_reducible apply feedStarted_latched

theorem freeEntries_latched {z : State} (c : Nat) (keys : List Nat) (s : State) (hC : z.Latched s) : z.Latched (freeEntries c keys s) := by
  unfold freeEntries
  repeat' first
    | with_reducible assumption
    | with_reducible apply latched_foldl
    | with_reducible apply State.updCore_latched
    | intro _ _ _
    | intro _
    | dsimp only
    | split
    | (with_reducible apply latched_misc; with_reducible first | assumption | apply State.updCore_latched | apply latched_foldl)

theorem poisonTiles_latched {z : State} (c : Nat) (ts : List Nat) (s : State) (hC : z.Latched s) : z.Latched (poisonTiles c ts s) := by
  unfold poisonTiles
  repeat' first
    | with_reducible assumption
    | with_reducible apply State.updCore_latched
    | with_reducible apply freeEntries_latched

theorem countParity_latched {z : State} (c : Nat) (s : State) (hC : z.Latched s) : z.Latched (countParity c s) := by
  unfold countParity
  repeat' first
    | with_reducible assumption
    | with_reducible apply chatter_latched

theorem retirePass_latched {z : State} (c q : Nat) (j : PassJob) (s : State) (hC : z.Latched s) : z.Latched (retirePass c q j s) := by
  unfold retirePass
  repeat' first
    | with_reducible assumption
    | with_reducible apply State.updCore_latched
    | with_reducible apply coreEvent_latched

theorem abortPass_latched {z : State} (c q : Nat) (j : PassJob) (sub : Nat) (addr : Word) (s : State) (hC : z.Latched s) : z.Latched (abortPass c q j sub addr s) := by
  unfold abortPass
  repeat' first
    | with_reducible assumption
    | with_reducible apply State.updCore_latched
    | with_reducible apply coreEvent_latched
    | with_reducible apply matrixFault_latched
    | with_reducible apply poisonTiles_latched

theorem losePass_latched {z : State} (c : Nat) (j : PassJob) (s : State) (hC : z.Latched s) : z.Latched (losePass c j s) := by
  unfold losePass
  repeat' first
    | with_reducible assumption
    | with_reducible apply State.updCore_latched
    | with_reducible apply poisonTiles_latched

theorem execPassRetire_latched {z : State} (c : CoreId) (env : Env) (s : State) (hC : z.Latched s) : ∀ t', execPassRetire c env s = .next t' → z.Latched t' := by
  unfold execPassRetire
  intro _ hE
  cases hE
  repeat' first
    | with_reducible assumption
    | with_reducible apply latched_ite
    | with_reducible apply applyUpsets_latched
    | with_reducible apply feedStarted_latched
    | with_reducible apply retirePass_latched
    | with_reducible apply losePass_latched
    | intro _ _ _
    | intro _
    | dsimp only
    | split

theorem execPassAbort_latched {z : State} (c : CoreId) (env : Env) (s : State) (hC : z.Latched s) : ∀ t', execPassAbort c env s = .next t' → z.Latched t' := by
  unfold execPassAbort
  intro _ hE
  cases hE
  repeat' first
    | with_reducible assumption
    | with_reducible apply latched_ite
    | with_reducible apply applyUpsets_latched
    | with_reducible apply feedStarted_latched
    | with_reducible apply countParity_latched
    | with_reducible apply abortPass_latched
    | intro _ _ _
    | intro _
    | dsimp only
    | split

theorem fireDrain_latched {z : State} (q c : Nat) (e : ArmEntry) (s : State) (hC : z.Latched s) : z.Latched (fireDrain q c e s) := by
  unfold fireDrain
  repeat' first
    | with_reducible assumption
    | with_reducible apply State.updCore_latched
    | with_reducible apply touchRun_latched
    | with_reducible apply matrixFault_latched
    | intro _ _ _
    | intro _
    | dsimp only
    | split

theorem startFront_latched {z : State} (q c : Nat) (j : DrainJob) (s : State) (hC : z.Latched s) : z.Latched (startFront q c j s) := by
  unfold startFront
  repeat' first
    | with_reducible assumption
    | with_reducible apply latched_ite
    | with_reducible apply State.updCore_latched
    | with_reducible apply touchAll_latched
    | with_reducible apply coreEvent_latched
    | with_reducible apply matrixFault_latched
    | intro _ _ _
    | intro _
    | dsimp only
    | split

theorem execDrainFrontStart_latched {z : State} (c : CoreId) (env : Env) (s : State) (hC : z.Latched s) : ∀ t', execDrainFrontStart c env s = .next t' → z.Latched t' := by
  unfold execDrainFrontStart
  intro _ hE
  cases hE
  repeat' first
    | with_reducible assumption
    | with_reducible apply latched_ite
    | with_reducible apply applyUpsets_latched
    | with_reducible apply startFront_latched
    | intro _ _ _
    | intro _
    | dsimp only
    | split

theorem storeVals_latched {z : State} (c : Nat) (tag : Tag) (n : Nat) (l : List (Nat × Nat)) (s : State) (hC : z.Latched s) : z.Latched (storeVals c tag n l s) := by
  unfold storeVals
  repeat' first
    | with_reducible assumption
    | with_reducible apply latched_foldl
    | with_reducible apply maskedWord_latched
    | intro _ _ _

theorem visitRow_latched {z : State} (c : Nat) (j : DrainJob) (s : State) (hC : z.Latched s) : z.Latched (visitRow c j s) := by
  unfold visitRow
  repeat' first
    | with_reducible assumption
    | with_reducible apply latched_ite
    | with_reducible apply latched_foldl
    | with_reducible apply State.updCore_latched
    | with_reducible apply storeVals_latched

theorem faultRow_latched {z : State} (q c : Nat) (j : DrainJob) (sub addr : Nat) (poison : Bool) (s : State) (hC : z.Latched s) : z.Latched (faultRow q c j sub addr poison s) := by
  unfold faultRow
  repeat' first
    | with_reducible assumption
    | with_reducible apply latched_ite
    | with_reducible apply State.updCore_latched
    | with_reducible apply matrixFault_latched

theorem parityRow_latched {z : State} (q c : Nat) (j : DrainJob) (s : State) (hC : z.Latched s) : z.Latched (parityRow q c j s) := by
  unfold parityRow
  repeat' first
    | with_reducible assumption
    | with_reducible apply State.updCore_latched
    | with_reducible apply freeEntries_latched
    | with_reducible apply countParity_latched
    | with_reducible apply faultRow_latched

theorem visit_latched {z : State} (q c : Nat) (j : DrainJob) (s : State) (hC : z.Latched s) : z.Latched (visit q c j s) := by
  unfold visit
  repeat' first
    | with_reducible assumption
    | with_reducible apply latched_ite
    | with_reducible apply touchAll_latched
    | with_reducible apply visitRow_latched
    | with_reducible apply faultRow_latched
    | with_reducible apply parityRow_latched
    | intro _ _ _
    | intro _
    | dsimp only
    | split

theorem execDrainRowVisit_latched {z : State} (c : CoreId) (env : Env) (s : State) (hC : z.Latched s) : ∀ t', execDrainRowVisit c env s = .next t' → z.Latched t' := by
  unfold execDrainRowVisit
  intro _ hE
  cases hE
  repeat' first
    | with_reducible assumption
    | with_reducible apply applyUpsets_latched
    | with_reducible apply visit_latched
    | intro _ _ _
    | intro _
    | dsimp only
    | split

theorem execDrainComplete_latched {z : State} (c : CoreId) (s : State) (hC : z.Latched s) : ∀ t', execDrainComplete c s = .next t' → z.Latched t' := by
  unfold execDrainComplete
  intro _ hE
  cases hE
  repeat' first
    | with_reducible assumption
    | with_reducible apply latched_ite
    | with_reducible apply State.updCore_latched
    | with_reducible apply coreEvent_latched
    | intro _ _ _
    | intro _
    | dsimp only
    | split

theorem forwardDone_latched {z : State} (q : Nat) (s : State) (hC : z.Latched s) : z.Latched (forwardDone q s) := by
  unfold forwardDone
  repeat' first
    | with_reducible assumption
    | with_reducible apply latched_ite
    | with_reducible apply State.emit_latched

theorem completeTurn_latched {z : State} (q : Nat) (s : State) (hC : z.Latched s) : z.Latched (completeTurn q s) := by
  unfold completeTurn
  repeat' first
    | with_reducible assumption
    | with_reducible apply latched_ite
    | with_reducible apply State.updPart_latched
    | with_reducible apply monitorTurn_latched
    | with_reducible apply forwardDone_latched

theorem execTurnDone_latched {z : State} (q : PartId) (u : UnitRef) (s : State) (hC : z.Latched s) : ∀ t', execTurnDone q u s = .next t' → z.Latched t' := by
  unfold execTurnDone
  intro _ hE
  cases hE
  repeat' first
    | with_reducible assumption
    | with_reducible apply latched_ite
    | with_reducible apply updTu_latched
    | with_reducible apply completeTurn_latched

theorem startSweep_latched {z : State} (q : Nat) (s : State) (hC : z.Latched s) : z.Latched (startSweep q s) := by
  unfold startSweep
  repeat' first
    | with_reducible assumption
    | with_reducible apply latched_foldl
    | with_reducible apply State.updBed_latched
    | intro _ _ _

theorem stopAt_latched {z : State} (q : Nat) (how : StopHow) (stat : Nat) (incomplete : Bool) (s : State) (hC : z.Latched s) : z.Latched (stopAt q how stat incomplete s) := by
  unfold stopAt
  repeat' first
    | with_reducible assumption
    | with_reducible apply latched_ite
    | with_reducible apply State.updPart_latched
    | with_reducible apply notifyPart_latched
    | with_reducible apply finishStop_latched

theorem postNotice_latched {z : State} (q kind turn va len : Nat) (s : State) (hC : z.Latched s) : z.Latched (postNotice q kind turn va len s) := by
  unfold postNotice
  repeat' first
    | with_reducible assumption
    | with_reducible apply latched_ite
    | with_reducible apply latched_foldl
    | with_reducible apply State.updCore_latched
    | intro _ _ _

theorem applyChange_latched {z : State} (q turn : Nat) (c : MapChange) (s : State) (hC : z.Latched s) : z.Latched (applyChange q turn c s) := by
  unfold applyChange
  repeat' first
    | with_reducible assumption
    | with_reducible apply latched_ite
    | with_reducible apply State.updPart_latched
    | with_reducible apply invalidate_latched
    | with_reducible apply postNotice_latched

theorem applyChanges_latched {z : State} (q turn : Nat) (l : List MapChange) (s : State) (hC : z.Latched s) : z.Latched (applyChanges q turn l s) := by
  unfold applyChanges
  repeat' first
    | with_reducible assumption
    | with_reducible apply latched_foldl
    | with_reducible apply State.updPart_latched
    | with_reducible apply applyChange_latched
    | intro _ _ _

theorem recordChanges_latched {z : State} (q : Nat) (l : List MapChange) (s : State) (hC : z.Latched s) : z.Latched (recordChanges q l s) := by
  unfold recordChanges
  repeat' first
    | with_reducible assumption
    | with_reducible apply latched_foldl
    | with_reducible apply recInput_latched
    | intro _ _ _

theorem endOldRecord_latched {z : State} (q : Nat) (s : State) (hC : z.Latched s) : z.Latched (endOldRecord q s) := by
  unfold endOldRecord
  repeat' first
    | with_reducible assumption
    | with_reducible apply latched_ite
    | with_reducible apply recEnd_latched

theorem applyRecord_latched {z : State} (q : Nat) (s : State) (hC : z.Latched s) : z.Latched (applyRecord q s) := by
  unfold applyRecord
  repeat' first
    | with_reducible assumption
    | with_reducible apply latched_ite
    | with_reducible apply State.updPart_latched
    | with_reducible apply recStart_latched
    | intro _ _ _
    | intro _
    | dsimp only
    | split

theorem applySeed_latched {z : State} (q turn : Nat) (s : State) (hC : z.Latched s) : z.Latched (applySeed q turn s) := by
  unfold applySeed
  repeat' first
    | with_reducible assumption
    | with_reducible apply latched_ite
    | with_reducible apply State.updPart_latched
    | with_reducible apply recInput_latched
    | intro _ _ _
    | intro _
    | dsimp only
    | split

theorem installMigrations_latched {z : State} (q turn : Nat) (s : State) (hC : z.Latched s) : z.Latched (installMigrations q turn s) := by
  unfold installMigrations
  repeat' first
    | with_reducible assumption
    | with_reducible apply latched_foldl
    | with_reducible apply State.updPart_latched

theorem pokeBytes_latched {z : State} (q : Nat) (x0 : Nat) (x1 : Nat) (x2 : List Byte) (x3 : State) (hC : z.Latched x3) : z.Latched (pokeBytes q x0 x1 x2 x3) := by
  induction x0 generalizing x1 x2 x3 with
  | zero =>
    unfold pokeBytes
    repeat' first
      | with_reducible assumption
  | succ n ih =>
    unfold pokeBytes
    repeat' first
      | with_reducible apply ih
      | with_reducible assumption
      | with_reducible apply latched_ite
      | with_reducible apply lineWrite_latched
      | intro _ _ _
      | intro _
      | dsimp only
      | split

theorem endTurn0_latched {z : State} (q : Nat) (s : State) (hC : z.Latched s) : z.Latched (endTurn0 q s) := by
  unfold endTurn0
  repeat' first
    | with_reducible assumption
    | with_reducible apply pokeBytes_latched
    | intro _ _ _
    | intro _
    | dsimp only
    | split

theorem sendSpur_latched {z : State} (q : Nat) (s : State) (hC : z.Latched s) : z.Latched (sendSpur q s) := by
  unfold sendSpur
  repeat' first
    | with_reducible assumption
    | with_reducible apply latched_ite
    | with_reducible apply State.emit_latched

theorem broadcast_latched {z : State} (q : Nat) (s : State) (hC : z.Latched s) : z.Latched (broadcast q s) := by
  unfold broadcast
  repeat' first
    | with_reducible assumption
    | with_reducible apply latched_ite
    | with_reducible apply State.updPart_latched
    | with_reducible apply startSweep_latched
    | with_reducible apply applyChanges_latched
    | with_reducible apply recordChanges_latched
    | with_reducible apply endOldRecord_latched
    | with_reducible apply applyRecord_latched
    | with_reducible apply applySeed_latched
    | with_reducible apply installMigrations_latched
    | with_reducible apply endTurn0_latched
    | with_reducible apply sendSpur_latched

theorem masterSpur_latched {z : State} (q : Nat) (s : State) (hC : z.Latched s) : z.Latched (masterSpur q s) := by
  unfold masterSpur
  repeat' first
    | with_reducible assumption
    | with_reducible apply latched_ite
    | with_reducible apply replayDiverge_latched
    | with_reducible apply stopAt_latched
    | with_reducible apply broadcast_latched

theorem takeSpur_latched {z : State} (q : Nat) (u : UnitRef) (turn : Nat) (s : State) (hC : z.Latched s) : z.Latched (takeSpur q u turn s) := by
  unfold takeSpur
  repeat' first
    | with_reducible assumption
    | with_reducible apply State.updCore_latched
    | with_reducible apply State.updPart_latched
    | with_reducible apply updTu_latched
    | intro _ _ _
    | intro _
    | dsimp only
    | split

theorem spurMismatch_latched {z : State} (q : Nat) (u : UnitRef) (turn : Nat) (s : State) (hC : z.Latched s) : z.Latched (spurMismatch q u turn s) := by
  unfold spurMismatch
  repeat' first
    | with_reducible assumption
    | with_reducible apply logEvent_latched
    | with_reducible apply faultPart_latched
    | with_reducible apply raiseImmediate_latched

theorem startPart_latched {z : State} (q : Nat) (span : List SpanAnswer) (s : State) (hC : z.Latched s) : z.Latched (startPart q span s) := by
  unfold startPart
  repeat' first
    | with_reducible assumption
    | with_reducible apply latched_ite
    | with_reducible apply latched_foldl
    | with_reducible apply State.updPart_latched

theorem memberStart_latched {z : State} (q : Nat) (answers : List SpanAnswer) (s : State) (hC : z.Latched s) : z.Latched (memberStart q answers s) := by
  unfold memberStart
  repeat' first
    | with_reducible assumption
    | with_reducible apply latched_ite
    | with_reducible apply startPart_latched
    | intro _ _ _
    | intro _
    | dsimp only
    | split

theorem relaySpur_latched {z : State} (q turn : Nat) (s : State) (hC : z.Latched s) : z.Latched (relaySpur q turn s) := by
  unfold relaySpur
  repeat' first
    | with_reducible assumption
    | with_reducible apply latched_ite
    | with_reducible apply broadcast_latched
    | with_reducible apply spurMismatch_latched

theorem memberStop_latched {z : State} (q : Nat) (s : State) (hC : z.Latched s) : z.Latched (memberStop q s) := by
  unfold memberStop
  repeat' first
    | with_reducible assumption
    | with_reducible apply latched_ite
    | with_reducible apply stopAt_latched

theorem execSpurBroadcast_latched {z : State} (b : SpurFrom) (s : State) (hC : z.Latched s) : ∀ t', execSpurBroadcast b s = .next t' → z.Latched t' := by
  unfold execSpurBroadcast
  intro _ hE
  cases hE
  repeat' first
    | with_reducible assumption
    | with_reducible apply latched_ite
    | with_reducible apply RunSt.start_latched
    | with_reducible apply masterSpur_latched
    | with_reducible apply memberStart_latched
    | with_reducible apply relaySpur_latched
    | with_reducible apply memberStop_latched
    | intro _ _ _
    | intro _
    | dsimp only
    | split

theorem execSpurReceipt_latched {z : State} (q : PartId) (u : UnitRef) (turn : Nat) (s : State) (hC : z.Latched s) : ∀ t', execSpurReceipt q u turn s = .next t' → z.Latched t' := by
  unfold execSpurReceipt
  intro _ hE
  cases hE
  repeat' first
    | with_reducible assumption
    | with_reducible apply latched_ite
    | with_reducible apply takeSpur_latched
    | with_reducible apply spurMismatch_latched

theorem execQuiescentPointStop_latched {z : State} (q : PartId) (s : State) (hC : z.Latched s) : ∀ t', execQuiescentPointStop q s = .next t' → z.Latched t' := by
  unfold execQuiescentPointStop
  intro _ hE
  cases hE
  repeat' first
    | with_reducible assumption
    | with_reducible apply latched_ite
    | with_reducible apply stopAt_latched

theorem execPartStopTimeout_latched {z : State} (q : PartId) (s : State) (hC : z.Latched s) : ∀ t', execPartStopTimeout q s = .next t' → z.Latched t' := by
  unfold execPartStopTimeout
  intro _ hE
  cases hE
  repeat' first
    | with_reducible assumption
    | with_reducible apply latched_ite
    | with_reducible apply stopWithin_latched

theorem updMoves_latched {z : State} (m : MoverRef) (q : Nat) (f : List MoveJob → List MoveJob) (s : State) (hC : z.Latched s) : z.Latched (updMoves m q f s) := by
  unfold updMoves
  repeat' first
    | with_reducible assumption
    | with_reducible apply State.updCore_latched
    | with_reducible apply updBulk_latched
    | intro _ _ _
    | intro _
    | dsimp only
    | split

theorem updHead_latched {z : State} (m : MoverRef) (q : Nat) (f : MoveJob → MoveJob) (s : State) (hC : z.Latched s) : z.Latched (updHead m q f s) := by
  unfold updHead
  repeat' first
    | with_reducible assumption
    | with_reducible apply updMoves_latched

theorem dropMove_latched {z : State} (m : MoverRef) (q : Nat) (s : State) (hC : z.Latched s) : z.Latched (dropMove m q s) := by
  unfold dropMove
  repeat' first
    | with_reducible assumption
    | with_reducible apply moveNote_latched
    | with_reducible apply updMoves_latched
    | intro _ _ _
    | intro _
    | dsimp only
    | split

theorem refuseMove_latched {z : State} (m : MoverRef) (q check : Nat) (j : MoveJob) (s : State) (hC : z.Latched s) : z.Latched (refuseMove m q check j s) := by
  unfold refuseMove
  repeat' first
    | with_reducible assumption
    | with_reducible apply logEvent_latched
    | with_reducible apply faultPart_latched
    | with_reducible apply dropMove_latched

theorem copyWords_latched {z : State} (c r : Nat) (d : MoveDesc) (n pos : Nat) (x : State × Nat) (hC : z.Latched x.1) :
    z.Latched ((copyWords c r d n pos x).1) := by
  induction n generalizing pos x with
  | zero => exact hC
  | succ n ih =>
    unfold copyWords
    apply ih
    apply State.updCore_latched
    exact readWord_latched _ _ _ hC

theorem storeRead_latched {z : State} (c : Nat) (x0 : Nat) (x1 : Nat) (x2 : State) (hC : z.Latched x2) : z.Latched ((storeRead c x0 x1 x2).1) := by
  induction x0 generalizing x1 x2 with
  | zero =>
    unfold storeRead
    repeat' first
      | with_reducible assumption
  | succ n ih =>
    unfold storeRead
    repeat' first
      | with_reducible apply ih
      | with_reducible assumption
      | with_reducible apply latched_ite
      | with_reducible apply readWord_latched

theorem stallMove_latched {z : State} (m : MoverRef) (q va : Nat) (write : Bool) (cause level te : Nat) (s : State) (hC : z.Latched s) : z.Latched (stallMove m q va write cause level te s) := by
  unfold stallMove
  repeat' first
    | with_reducible assumption
    | with_reducible apply updHead_latched

theorem pieceDone_latched {z : State} (m : MoverRef) (q n : Nat) (s : State) (hC : z.Latched s) : z.Latched (pieceDone m q n s) := by
  unfold pieceDone
  repeat' first
    | with_reducible assumption
    | with_reducible apply updHead_latched

theorem takeLine_latched {z : State} (m : MoverRef) (q : Nat) (d : MoveDesc) (pos want : Nat) (acc : List Byte) (bad : Nat) (l : Line) (s : State) (hC : z.Latched s) : z.Latched (takeLine m q d pos want acc bad l s) := by
  unfold takeLine
  repeat' first
    | with_reducible assumption
    | with_reducible apply latched_ite
    | with_reducible apply updHead_latched

theorem moveRead_latched {z : State} (m : MoverRef) (q : Nat) (d : MoveDesc) (pos want : Nat) (acc : List Byte) (bad : Nat) (s : State) (hC : z.Latched s) : z.Latched (moveRead m q d pos want acc bad s) := by
  unfold moveRead
  repeat' first
    | with_reducible assumption
    | with_reducible apply submit_latched
    | with_reducible apply translateFar_latched
    | with_reducible apply countWindow_latched
    | with_reducible apply tlbInstall_latched
    | with_reducible apply flushWcb_latched
    | with_reducible apply updHead_latched
    | with_reducible apply stallMove_latched
    | intro _ _ _
    | intro _
    | dsimp only
    | split
    | (with_reducible apply latched_misc; with_reducible first | assumption | apply submit_latched | apply translateFar_latched | apply countWindow_latched | apply tlbInstall_latched | apply flushWcb_latched | apply updHead_latched | apply stallMove_latched)
    | (refine latched_of_pair (by with_reducible assumption) ?_)

theorem moveHost_latched {z : State} (m : MoverRef) (q : Nat) (d : MoveDesc) (pos want : Nat) (acc : List Byte) (bad pa : Nat) (env : Env) (s : State) (hC : z.Latched s) : z.Latched ((moveHost m q d pos want acc bad pa env s).1) := by
  unfold moveHost
  repeat' first
    | with_reducible assumption
    | with_reducible apply hostLine_latched
    | with_reducible apply dropMove_latched
    | with_reducible apply takeLine_latched
    | intro _ _ _
    | intro _
    | dsimp only
    | split
    | (with_reducible apply latched_misc; with_reducible first | assumption | apply hostLine_latched | apply dropMove_latched | apply takeLine_latched)
    | (refine latched_of_pair (by with_reducible assumption) ?_)

theorem deliverWords_latched {z : State} (q : Nat) (d : MoveDesc) (pos : Nat) (ws : List TWord) (s : State) (hC : z.Latched s) : z.Latched (deliverWords q d pos ws s) := by
  unfold deliverWords
  repeat' first
    | with_reducible assumption
    | with_reducible apply latched_ite
    | with_reducible apply latched_foldl
    | with_reducible apply State.updCore_latched
    | intro _ _ _
    | intro _
    | dsimp only
    | split

theorem farZero_latched {z : State} (c line : Nat) (ro : Bool) (s : State) (hC : z.Latched s) : z.Latched (farZero c line ro s) := by
  unfold farZero
  repeat' first
    | with_reducible assumption
    | with_reducible apply State.updCore_latched
    | with_reducible apply offerVictim_latched

theorem moveWrite_latched {z : State} (m : MoverRef) (q : Nat) (d : MoveDesc) (pos : Nat) (bytes : List Byte) (bad : Bool) (s : State) (hC : z.Latched s) : z.Latched ((moveWrite m q d pos bytes bad s).1) := by
  unfold moveWrite
  repeat' first
    | with_reducible assumption
    | with_reducible apply latched_ite
    | with_reducible apply State.updCore_latched
    | with_reducible apply submit_latched
    | with_reducible apply translateFar_latched
    | with_reducible apply countWindow_latched
    | with_reducible apply tlbInstall_latched
    | with_reducible apply updHead_latched
    | with_reducible apply stallMove_latched
    | with_reducible apply pieceDone_latched
    | with_reducible apply farZero_latched
    | intro _ _ _
    | intro _
    | dsimp only
    | split
    | (with_reducible apply latched_misc; with_reducible first | assumption | apply State.updCore_latched | apply submit_latched | apply translateFar_latched | apply countWindow_latched | apply tlbInstall_latched | apply updHead_latched | apply stallMove_latched | apply pieceDone_latched | apply farZero_latched)
    | (refine latched_of_pair (by with_reducible assumption) ?_)

theorem coreToFar_latched {z : State} (m : MoverRef) (q : Nat) (c : Nat) (d : MoveDesc) (pos n : Nat) (s : State) (hC : z.Latched s) : z.Latched ((coreToFar m q c d pos n s).1) := by
  unfold coreToFar
  repeat' first
    | with_reducible assumption
    | with_reducible apply latched_ite
    | with_reducible apply translateFar_latched
    | with_reducible apply updHead_latched
    | with_reducible apply storeRead_latched
    | with_reducible apply stallMove_latched
    | with_reducible apply moveWrite_latched
    | intro _ _ _
    | intro _
    | dsimp only
    | split
    | (with_reducible apply latched_misc; with_reducible first | assumption | apply translateFar_latched | apply updHead_latched | apply storeRead_latched | apply stallMove_latched | apply moveWrite_latched)
    | (refine latched_of_pair (by with_reducible assumption) ?_)

theorem servedNow_latched {z : State} (m : MoverRef) (q : Nat) (s : State) (hC : z.Latched s) : z.Latched (servedNow m q s) := by
  unfold servedNow
  repeat' first
    | with_reducible assumption
    | with_reducible apply State.updDie_latched
    | intro _ _ _
    | intro _
    | dsimp only
    | split

theorem movePiece_latched {z : State} (m : MoverRef) (q : Nat) (d : MoveDesc) (pos : Nat) (s : State) (hC : z.Latched s) : z.Latched ((movePiece m q d pos s).1) := by
  unfold movePiece
  repeat' first
    | with_reducible assumption
    | with_reducible apply latched_ite
    | with_reducible apply updHead_latched
    | with_reducible apply copyWords_latched
    | with_reducible apply pieceDone_latched
    | with_reducible apply moveRead_latched
    | with_reducible apply moveWrite_latched
    | with_reducible apply coreToFar_latched
    | intro _ _ _
    | intro _
    | dsimp only
    | split

theorem moveStep_latched {z : State} (m : MoverRef) (q : Nat) (hostOk : Bool) (env : Env) (s : State) (hC : z.Latched s) : z.Latched ((moveStep m q hostOk env s).1) := by
  unfold moveStep
  repeat' first
    | with_reducible assumption
    | with_reducible apply latched_ite
    | with_reducible apply pieceDone_latched
    | with_reducible apply moveRead_latched
    | with_reducible apply moveHost_latched
    | with_reducible apply deliverWords_latched
    | with_reducible apply moveWrite_latched
    | with_reducible apply servedNow_latched
    | with_reducible apply movePiece_latched
    | intro _ _ _
    | intro _
    | dsimp only
    | split

theorem moveRun_latched {z : State} (m : MoverRef) (q : Nat) (hostOk : Bool) (env : Env) (x0 : Nat) (x1 : State) (hC : z.Latched x1) : z.Latched (moveRun m q hostOk env x0 x1) := by
  induction x0 generalizing x1 with
  | zero =>
    unfold moveRun
    repeat' first
      | with_reducible assumption
  | succ n ih =>
    unfold moveRun
    repeat' first
      | with_reducible apply ih
      | with_reducible assumption
      | with_reducible apply moveStep_latched
      | intro _ _ _
      | intro _
      | dsimp only
      | split
      | (with_reducible apply latched_misc; with_reducible first | assumption | apply moveStep_latched)
      | (refine latched_of_pair (by with_reducible assumption) ?_)

theorem bulkRun_latched {z : State} (d : Nat) (x0 : Nat) (x1 : State) (hC : z.Latched x1) : z.Latched (bulkRun d x0 x1) := by
  induction x0 generalizing x1 with
  | zero =>
    unfold bulkRun
    repeat' first
      | with_reducible assumption
  | succ n ih =>
    unfold bulkRun
    repeat' first
      | with_reducible apply ih
      | with_reducible assumption
      | with_reducible apply latched_ite
      | with_reducible apply moveStep_latched
      | intro _ _ _
      | intro _
      | dsimp only
      | split

theorem moveOn_latched {z : State} (m : MoverRef) (q : Nat) (hostOk : Bool) (env : Env) (s : State) (hC : z.Latched s) : z.Latched (moveOn m q hostOk env s) := by
  unfold moveOn
  repeat' first
    | with_reducible assumption
    | with_reducible apply moveRun_latched
    | with_reducible apply bulkRun_latched
    | intro _ _ _
    | intro _
    | dsimp only
    | split

theorem startMove_latched {z : State} (m : MoverRef) (q : Nat) (j : MoveJob) (s : State) (hC : z.Latched s) : z.Latched (startMove m q j s) := by
  unfold startMove
  repeat' first
    | with_reducible assumption
    | with_reducible apply touchRun_latched
    | with_reducible apply updHead_latched
    | with_reducible apply refuseMove_latched
    | with_reducible apply moveOn_latched
    | intro _ _ _
    | intro _
    | dsimp only
    | split

theorem execMoveStart_latched {z : State} (m : MoverRef) (q : PartId) (env : Env) (s : State) (hC : z.Latched s) : ∀ t', execMoveStart m q env s = .next t' → z.Latched t' := by
  unfold execMoveStart
  intro _ hE
  cases hE
  repeat' first
    | with_reducible assumption
    | with_reducible apply latched_ite
    | with_reducible apply applyUpsets_latched
    | with_reducible apply startMove_latched
    | intro _ _ _
    | intro _
    | dsimp only
    | split

theorem multicastOn_latched {z : State} (m : MoverRef) (q : Nat) (x0 : Nat) (x1 : State) (hC : z.Latched x1) : z.Latched (multicastOn m q x0 x1) := by
  induction x0 generalizing x1 with
  | zero =>
    unfold multicastOn
    repeat' first
      | with_reducible assumption
  | succ n ih =>
    unfold multicastOn
    repeat' first
      | with_reducible apply ih
      | with_reducible assumption
      | with_reducible apply latched_ite
      | with_reducible apply pieceDone_latched
      | with_reducible apply deliverWords_latched
      | intro _ _ _
      | intro _
      | dsimp only
      | split

theorem sourceLine_latched {z : State} (m : MoverRef) (q va : Nat) (j : MoveJob) (s : State) (hC : z.Latched s) : z.Latched (sourceLine m q va j s) := by
  unfold sourceLine
  repeat' first
    | with_reducible assumption
    | with_reducible apply submit_latched
    | with_reducible apply translateFar_latched
    | with_reducible apply tlbInstall_latched
    | with_reducible apply updHead_latched
    | with_reducible apply refuseMove_latched
    | with_reducible apply stallMove_latched
    | intro _ _ _
    | intro _
    | dsimp only
    | split
    | (with_reducible apply latched_misc; with_reducible first | assumption | apply submit_latched | apply translateFar_latched | apply tlbInstall_latched | apply updHead_latched | apply refuseMove_latched | apply stallMove_latched)
    | (refine latched_of_pair (by with_reducible assumption) ?_)

theorem execMulticastSourceLine_latched {z : State} (d : DieId) (q : PartId) (env : Env) (s : State) (hC : z.Latched s) : ∀ t', execMulticastSourceLine d q env s = .next t' → z.Latched t' := by
  unfold execMulticastSourceLine
  intro _ hE
  cases hE
  repeat' first
    | with_reducible assumption
    | with_reducible apply latched_ite
    | with_reducible apply applyUpsets_latched
    | with_reducible apply servedNow_latched
    | with_reducible apply bulkRun_latched
    | with_reducible apply sourceLine_latched
    | intro _ _ _
    | intro _
    | dsimp only
    | split

theorem sendNotifies_latched {z : State} (m : MoverRef) (q : Nat) (j : MoveJob) (s : State) (hC : z.Latched s) : z.Latched (sendNotifies m q j s) := by
  unfold sendNotifies
  repeat' first
    | with_reducible assumption
    | with_reducible apply latched_ite
    | with_reducible apply State.updPart_latched

theorem finishMove_latched {z : State} (m : MoverRef) (q : Nat) (j : MoveJob) (s : State) (hC : z.Latched s) : z.Latched (finishMove m q j s) := by
  unfold finishMove
  repeat' first
    | with_reducible assumption
    | with_reducible apply State.updCore_latched
    | with_reducible apply coreEvent_latched
    | with_reducible apply dropMove_latched
    | with_reducible apply sendNotifies_latched
    | intro _ _ _
    | intro _
    | dsimp only
    | split

theorem execMoveComplete_latched {z : State} (m : MoverRef) (q : PartId) (env : Env) (s : State) (hC : z.Latched s) : ∀ t', execMoveComplete m q env s = .next t' → z.Latched t' := by
  unfold execMoveComplete
  intro _ hE
  cases hE
  repeat' first
    | with_reducible assumption
    | with_reducible apply latched_ite
    | with_reducible apply applyUpsets_latched
    | with_reducible apply moveOn_latched
    | with_reducible apply finishMove_latched
    | intro _ _ _
    | intro _
    | dsimp only
    | split

theorem moverGot_latched {z : State} (m : MoverRef) (q : Nat) (l : Line) (s : State) (hC : z.Latched s) : z.Latched (moverGot m q l s) := by
  unfold moverGot
  repeat' first
    | with_reducible assumption
    | with_reducible apply latched_ite
    | with_reducible apply updHead_latched
    | with_reducible apply takeLine_latched
    | with_reducible apply moveOn_latched
    | with_reducible apply multicastOn_latched
    | intro _ _ _
    | intro _
    | dsimp only
    | split

theorem moverAck_latched {z : State} (m : MoverRef) (q : Nat) (s : State) (hC : z.Latched s) : z.Latched (moverAck m q s) := by
  unfold moverAck
  repeat' first
    | with_reducible assumption
    | with_reducible apply pieceDone_latched
    | with_reducible apply moveOn_latched
    | intro _ _ _
    | intro _
    | dsimp only
    | split

theorem answerRead_latched {z : State} (r : MemReq) (l : Line) (env : Env) (s : State) (hC : z.Latched s) : z.Latched (answerRead r l env s) := by
  unfold answerRead
  repeat' first
    | with_reducible assumption
    | with_reducible apply latched_ite
    | with_reducible apply State.updCore_latched
    | with_reducible apply bar2Got_latched
    | with_reducible apply frameGot_latched
    | with_reducible apply feederLine_latched
    | with_reducible apply moverGot_latched
    | intro _ _ _
    | intro _
    | dsimp only
    | split

theorem answerWrite_latched {z : State} (r : MemReq) (s : State) (hC : z.Latched s) : z.Latched (answerWrite r s) := by
  unfold answerWrite
  repeat' first
    | with_reducible assumption
    | with_reducible apply moverAck_latched
    | intro _ _ _
    | intro _
    | dsimp only
    | split

theorem answerNever_latched {z : State} (r : MemReq) (s : State) (hC : z.Latched s) : z.Latched (answerNever r s) := by
  unfold answerNever
  repeat' first
    | with_reducible assumption
    | with_reducible apply feederLost_latched
    | intro _ _ _
    | intro _
    | dsimp only
    | split

theorem bedServe_latched {z : State} (b off : Nat) (r : MemReq) (env : Env) (s : State) (hC : z.Latched s) : z.Latched (bedServe b off r env s) := by
  unfold bedServe
  repeat' first
    | with_reducible assumption
    | with_reducible apply latched_ite
    | with_reducible apply bedRead_latched
    | with_reducible apply bedWrite_latched
    | with_reducible apply answerRead_latched
    | with_reducible apply answerWrite_latched

theorem bedAccess_latched {z : State} (b off : Nat) (r : MemReq) (env : Env) (s : State) (hC : z.Latched s) : z.Latched (bedAccess b off r env s) := by
  unfold bedAccess
  repeat' first
    | with_reducible assumption
    | with_reducible apply latched_ite
    | with_reducible apply raceCheck_latched
    | with_reducible apply raceStop_latched
    | with_reducible apply answerNever_latched
    | with_reducible apply bedServe_latched
    | intro _ _ _
    | intro _
    | dsimp only
    | split
    | (with_reducible apply latched_misc; with_reducible first | assumption | apply raceCheck_latched | apply raceStop_latched | apply answerNever_latched | apply bedServe_latched)
    | (refine latched_of_pair (by with_reducible assumption) ?_)

theorem execBedStoreAccess_latched {z : State} (b : BedId) (env : Env) (s : State) (hC : z.Latched s) : ∀ t', execBedStoreAccess b env s = .next t' → z.Latched t' := by
  unfold execBedStoreAccess
  intro _ hE
  cases hE
  repeat' first
    | with_reducible assumption
    | with_reducible apply State.updBed_latched
    | with_reducible apply applyUpsets_latched
    | with_reducible apply bedAccess_latched
    | intro _ _ _
    | intro _
    | dsimp only
    | split

theorem sweepUe_latched {z : State} (b line q : Nat) (s : State) (hC : z.Latched s) : z.Latched (sweepUe b line q s) := by
  unfold sweepUe
  repeat' first
    | with_reducible assumption
    | with_reducible apply latched_ite
    | with_reducible apply logEvent_latched
    | with_reducible apply faultPart_latched
    | with_reducible apply chatterUe_latched

theorem sweepLine_latched {z : State} (b line q : Nat) (s : State) (hC : z.Latched s) : z.Latched (sweepLine b line q s) := by
  unfold sweepLine
  repeat' first
    | with_reducible assumption
    | with_reducible apply latched_ite
    | with_reducible apply State.updBed_latched
    | with_reducible apply chatter_latched
    | with_reducible apply sweepUe_latched

theorem execSweepVisit_latched {z : State} (b : BedId) (s : State) (hC : z.Latched s) : ∀ t', execSweepVisit b s = .next t' → z.Latched t' := by
  unfold execSweepVisit
  intro _ hE
  cases hE
  repeat' first
    | with_reducible assumption
    | with_reducible apply sweepLine_latched
    | intro _ _ _
    | intro _
    | dsimp only
    | split

theorem execBedCacheFill_latched {z : State} (b : BedId) (s : State) (hC : z.Latched s) : ∀ t', execBedCacheFill b s = .next t' → z.Latched t' := by
  unfold execBedCacheFill
  intro _ hE
  cases hE
  repeat' first
    | with_reducible assumption
    | with_reducible apply State.updBed_latched

theorem fillFar_latched {z : State} (c i : Nat) (m : Mshr) (l : Line) (s : State) (hC : z.Latched s) : z.Latched (fillFar c i m l s) := by
  unfold fillFar
  repeat' first
    | with_reducible assumption
    | with_reducible apply latched_ite
    | with_reducible apply State.updCore_latched
    | with_reducible apply offerVictim_latched

theorem execFarCacheFill_latched {z : State} (c : CoreId) (reg : Fin 8) (env : Env) (s : State) (hC : z.Latched s) : ∀ t', execFarCacheFill c reg env s = .next t' → z.Latched t' := by
  unfold execFarCacheFill
  intro _ hE
  cases hE
  repeat' first
    | with_reducible assumption
    | with_reducible apply State.updCore_latched
    | with_reducible apply applyUpsets_latched
    | with_reducible apply hostLine_latched
    | with_reducible apply fillFar_latched
    | intro _ _ _
    | intro _
    | dsimp only
    | split
    | (with_reducible apply latched_misc; with_reducible first | assumption | apply State.updCore_latched | apply applyUpsets_latched | apply hostLine_latched | apply fillFar_latched)
    | (refine latched_of_pair (by with_reducible assumption) ?_)

theorem execRegulatorRelease_latched {z : State} (k : StackId) (q : PartId) (s : State) (hC : z.Latched s) : ∀ t', execRegulatorRelease k q s = .next t' → z.Latched t' := by
  unfold execRegulatorRelease
  intro _ hE
  cases hE
  repeat' first
    | with_reducible assumption
    | with_reducible apply latched_ite
    | with_reducible apply State.updStack_latched
    | with_reducible apply updReg_latched
    | intro _ _ _
    | intro _
    | dsimp only
    | split

theorem execHbmQueueEntry_latched {z : State} (k : StackId) (pc : Fin 64) (s : State) (hC : z.Latched s) : ∀ t', execHbmQueueEntry k pc s = .next t' → z.Latched t' := by
  unfold execHbmQueueEntry
  intro _ hE
  cases hE
  repeat' first
    | with_reducible assumption
    | with_reducible apply latched_ite
    | with_reducible apply State.updStack_latched
    | with_reducible apply dropBedCopy_latched
    | with_reducible apply answerWrite_latched
    | intro _ _ _
    | intro _
    | dsimp only
    | split

theorem countServed_latched {z : State} (k pc : Nat) (s : State) (hC : z.Latched s) : z.Latched (countServed k pc s) := by
  unfold countServed
  repeat' first
    | with_reducible assumption
    | with_reducible apply latched_ite
    | with_reducible apply State.updStack_latched

theorem serveHbm_latched {z : State} (k pc : Nat) (r : MemReq) (env : Env) (s : State) (hC : z.Latched s) : z.Latched (serveHbm k pc r env s) := by
  unfold serveHbm
  repeat' first
    | with_reducible assumption
    | with_reducible apply latched_ite
    | with_reducible apply hbmRead_latched
    | with_reducible apply hbmWrite_latched
    | with_reducible apply offerFill_latched
    | with_reducible apply answerRead_latched
    | with_reducible apply countServed_latched
    | intro _ _ _
    | intro _
    | dsimp only
    | split

theorem execHbmServe_latched {z : State} (k : StackId) (pc : Fin 64) (idx : Nat) (env : Env) (s : State) (hC : z.Latched s) : ∀ t', execHbmServe k pc idx env s = .next t' → z.Latched t' := by
  unfold execHbmServe
  intro _ hE
  cases hE
  repeat' first
    | with_reducible assumption
    | with_reducible apply latched_ite
    | with_reducible apply State.updStack_latched
    | with_reducible apply applyUpsets_latched
    | with_reducible apply serveHbm_latched
    | intro _ _ _
    | intro _
    | dsimp only
    | split

theorem passOver_latched {z : State} (k pc n : Nat) (s : State) (hC : z.Latched s) : z.Latched (passOver k pc n s) := by
  unfold passOver
  repeat' first
    | with_reducible assumption
    | with_reducible apply State.updStack_latched

theorem copyLine_latched {z : State} (k : Nat) (c : RowCopy) (s : State) (hC : z.Latched s) : z.Latched (copyLine k c s) := by
  unfold copyLine
  repeat' first
    | with_reducible assumption
    | with_reducible apply latched_ite
    | with_reducible apply State.updStack_latched
    | with_reducible apply chatter_latched
    | with_reducible apply chatterUe_latched
    | with_reducible apply siteWrite_latched
    | with_reducible apply hbmUe_latched
    | intro _ _ _
    | intro _
    | dsimp only
    | split

theorem execRemapLineCopy_latched {z : State} (k : StackId) (env : Env) (s : State) (hC : z.Latched s) : ∀ t', execRemapLineCopy k env s = .next t' → z.Latched t' := by
  unfold execRemapLineCopy
  intro _ hE
  cases hE
  repeat' first
    | with_reducible assumption
    | with_reducible apply latched_ite
    | with_reducible apply applyUpsets_latched
    | with_reducible apply passOver_latched
    | with_reducible apply copyLine_latched
    | intro _ _ _
    | intro _
    | dsimp only
    | split

theorem startPending_latched {z : State} (k : Nat) (x0 : Nat) (x1 : State) (hC : z.Latched x1) : z.Latched (startPending k x0 x1) := by
  induction x0 generalizing x1 with
  | zero =>
    unfold startPending
    repeat' first
      | with_reducible assumption
  | succ n ih =>
    unfold startPending
    repeat' first
      | with_reducible apply ih
      | with_reducible assumption
      | with_reducible apply latched_ite
      | with_reducible apply State.updStack_latched
      | with_reducible apply rowLasting_latched
      | intro _ _ _
      | intro _
      | dsimp only
      | split

theorem rowRepaired_latched {z : State} (k : Nat) (r : HRow) (s : State) (hC : z.Latched s) : z.Latched (rowRepaired k r s) := by
  unfold rowRepaired
  repeat' first
    | with_reducible assumption
    | intro _ _ _
    | intro _
    | dsimp only
    | split
    | (with_reducible apply latched_misc; with_reducible first | assumption)

theorem execRemapFlip_latched {z : State} (k : StackId) (s : State) (hC : z.Latched s) : ∀ t', execRemapFlip k s = .next t' → z.Latched t' := by
  unfold execRemapFlip
  intro _ hE
  cases hE
  repeat' first
    | with_reducible assumption
    | with_reducible apply latched_ite
    | with_reducible apply State.updStack_latched
    | with_reducible apply logEvent_latched
    | with_reducible apply startPending_latched
    | with_reducible apply rowRepaired_latched
    | intro _ _ _
    | intro _
    | dsimp only
    | split

theorem persistRemaps_latched {z : State} (k : Nat) (s : State) (hC : z.Latched s) : z.Latched (persistRemaps k s) := by
  unfold persistRemaps
  repeat' first
    | with_reducible assumption
    | with_reducible apply State.updStack_latched
    | with_reducible apply State.updFlash_latched

theorem persistCores_latched {z : State} (s : State) (hC : z.Latched s) : z.Latched (persistCores s) := by
  unfold persistCores
  repeat' first
    | with_reducible assumption
    | with_reducible apply State.updFlash_latched

theorem execRemapPersist_latched {z : State} (k : StackId) (s : State) (hC : z.Latched s) : ∀ t', execRemapPersist k s = .next t' → z.Latched t' := by
  unfold execRemapPersist
  intro _ hE
  cases hE
  repeat' first
    | with_reducible assumption
    | with_reducible apply latched_ite
    | with_reducible apply persistRemaps_latched
    | with_reducible apply persistCores_latched

theorem patrolLine_latched {z : State} (k n pc : Nat) (s : State) (hC : z.Latched s) : z.Latched (patrolLine k n pc s) := by
  unfold patrolLine
  repeat' first
    | with_reducible assumption
    | with_reducible apply hbmRead_latched
    | with_reducible apply passOver_latched

theorem execHbmPatrolScrub_latched {z : State} (k : StackId) (env : Env) (s : State) (hC : z.Latched s) : ∀ t', execHbmPatrolScrub k env s = .next t' → z.Latched t' := by
  unfold execHbmPatrolScrub
  intro _ hE
  cases hE
  repeat' first
    | with_reducible assumption
    | with_reducible apply latched_ite
    | with_reducible apply latched_foldl
    | with_reducible apply State.updStack_latched
    | with_reducible apply applyUpsets_latched
    | with_reducible apply patrolLine_latched
    | intro _ _ _

theorem execTlbWalk_latched {z : State} (t : TlbUser) (q : PartId) (va : Nat) (write : Bool) (env : Env) (s : State) (hC : z.Latched s) : ∀ t', execTlbWalk t q va write env s = .next t' → z.Latched t' := by
  unfold execTlbWalk
  intro _ hE
  cases hE
  repeat' first
    | with_reducible assumption
    | with_reducible apply latched_ite
    | with_reducible apply applyUpsets_latched
    | with_reducible apply translate_latched
    | with_reducible apply tlbInstall_latched
    | intro _ _ _
    | intro _
    | dsimp only
    | split
    | (with_reducible apply latched_misc; with_reducible first | assumption | apply applyUpsets_latched | apply translate_latched | apply tlbInstall_latched)
    | (refine latched_of_pair (by with_reducible assumption) ?_)

theorem putFault_latched {z : State} (d e q n : Nat) (y : FqEntry) (s : State) (hC : z.Latched s) : z.Latched (putFault d e q n y s) := by
  unfold putFault
  repeat' first
    | with_reducible assumption
    | with_reducible apply State.updDie_latched
    | with_reducible apply updHead_latched

theorem enterFault_latched {z : State} (d e : Nat) (s : State) (hC : z.Latched s) : OptLatched z (enterFault d e s) := by
  unfold enterFault
  repeat' first
    | with_reducible assumption
    | with_reducible apply latched_getD
    | with_reducible apply latchedOpt_bind
    | with_reducible apply latchedOpt_map
    | with_reducible exact latchedOpt_none
    | with_reducible apply latchedOpt_some
    | with_reducible apply putFault_latched
    | intro _ _ _
    | intro _
    | dsimp only
    | split

theorem enterStalled_latched {z : State} (d : Nat) (x0 : Nat) (x1 : State) (hC : z.Latched x1) : z.Latched (enterStalled d x0 x1) := by
  induction x0 generalizing x1 with
  | zero =>
    unfold enterStalled
    repeat' first
      | with_reducible assumption
  | succ n ih =>
    unfold enterStalled
    repeat' first
      | with_reducible apply ih
      | with_reducible assumption
      | with_reducible apply latched_ite
      | with_reducible apply latched_getD
      | with_reducible apply latchedOpt_bind
      | with_reducible apply latchedOpt_map
      | with_reducible apply latchedOpt_ite
      | with_reducible exact latchedOpt_none
      | with_reducible apply latchedOpt_some
      | with_reducible apply State.updDie_latched
      | with_reducible apply enterFault_latched
      | intro _ _ _
      | intro _
      | dsimp only
      | split
      | (with_reducible apply latched_misc; with_reducible first | assumption | apply State.updDie_latched | apply enterFault_latched)
      | (refine latched_of_opt (by with_reducible assumption) ?_)

theorem execFaultQueueEnter_latched {z : State} (d : DieId) (engine : Fin 109) (s : State) (hC : z.Latched s) : ∀ t', execFaultQueueEnter d engine s = .next t' → z.Latched t' := by
  unfold execFaultQueueEnter
  intro _ hE
  cases hE
  repeat' first
    | with_reducible assumption
    | with_reducible apply latched_ite
    | with_reducible apply latched_getD
    | with_reducible apply latchedOpt_bind
    | with_reducible apply latchedOpt_map
    | with_reducible apply latchedOpt_ite
    | with_reducible exact latchedOpt_none
    | with_reducible apply latchedOpt_some
    | with_reducible apply State.updDie_latched
    | with_reducible apply enterFault_latched
    | with_reducible apply enterStalled_latched
    | intro _ _ _
    | intro _
    | dsimp only
    | split

theorem retryEngine_latched {z : State} (d q n : Nat) (s : State) (e : Nat) (hC : z.Latched s) : z.Latched (retryEngine d q n s e) := by
  unfold retryEngine
  repeat' first
    | with_reducible assumption
    | with_reducible apply latched_ite
    | with_reducible apply State.updCore_latched
    | with_reducible apply updHead_latched
    | with_reducible apply moveOn_latched
    | intro _ _ _
    | intro _
    | dsimp only
    | split

theorem badResume_latched {z : State} (d : Nat) (s : State) (hC : z.Latched s) : z.Latched (badResume d s) := by
  unfold badResume
  repeat' first
    | with_reducible assumption
    | with_reducible apply State.updDie_latched

theorem fqRetry_latched {z : State} (d n : Nat) (s : State) (hC : z.Latched s) : z.Latched (fqRetry d n s) := by
  unfold fqRetry
  repeat' first
    | with_reducible assumption
    | with_reducible apply latched_ite
    | with_reducible apply latched_foldl
    | with_reducible apply State.updDie_latched
    | with_reducible apply enterStalled_latched
    | with_reducible apply retryEngine_latched
    | with_reducible apply badResume_latched

theorem abortEngine_latched {z : State} (d q n : Nat) (s : State) (e : Nat) (hC : z.Latched s) : z.Latched (abortEngine d q n s e) := by
  unfold abortEngine
  repeat' first
    | with_reducible assumption
    | with_reducible apply latched_ite
    | with_reducible apply dropMove_latched
    | intro _ _ _
    | intro _
    | dsimp only
    | split

theorem fqAbort_latched {z : State} (d n : Nat) (s : State) (hC : z.Latched s) : z.Latched (fqAbort d n s) := by
  unfold fqAbort
  repeat' first
    | with_reducible assumption
    | with_reducible apply latched_ite
    | with_reducible apply latched_foldl
    | with_reducible apply State.updDie_latched
    | with_reducible apply logEvent_latched
    | with_reducible apply faultPart_latched
    | with_reducible apply enterStalled_latched
    | with_reducible apply badResume_latched
    | with_reducible apply abortEngine_latched

theorem execFqResumeRetry_latched {z : State} (d : DieId) (entry : Fin 256) (s : State) (hC : z.Latched s) : ∀ t', execFqResumeRetry d entry s = .next t' → z.Latched t' := by
  unfold execFqResumeRetry
  intro _ hE
  cases hE
  repeat' first
    | with_reducible assumption
    | with_reducible apply latched_ite
    | with_reducible apply fqRetry_latched

theorem execFqResumeAbort_latched {z : State} (d : DieId) (entry : Fin 256) (s : State) (hC : z.Latched s) : ∀ t', execFqResumeAbort d entry s = .next t' → z.Latched t' := by
  unfold execFqResumeAbort
  intro _ hE
  cases hE
  repeat' first
    | with_reducible assumption
    | with_reducible apply latched_ite
    | with_reducible apply fqAbort_latched

theorem execAccessCounterDecay_latched {z : State} (d : DieId) (s : State) (hC : z.Latched s) : ∀ t', execAccessCounterDecay d s = .next t' → z.Latched t' := by
  unfold execAccessCounterDecay
  intro _ hE
  cases hE
  repeat' first
    | with_reducible assumption
    | with_reducible apply latched_ite
    | with_reducible apply latched_foldl
    | with_reducible apply State.updDie_latched

theorem execHpqHeadRead_latched {z : State} (d : DieId) (s : State) (hC : z.Latched s) : ∀ t', execHpqHeadRead d s = .next t' → z.Latched t' := by
  unfold execHpqHeadRead
  intro _ hE
  cases hE
  repeat' first
    | with_reducible assumption
    | with_reducible apply latched_ite
    | with_reducible apply State.updDie_latched
    | with_reducible apply State.updPort_latched
    | with_reducible apply State.emit_latched
    | intro _ _ _
    | intro _
    | dsimp only
    | split

theorem execHpqStatusRead_latched {z : State} (d : DieId) (s : State) (hC : z.Latched s) : ∀ t', execHpqStatusRead d s = .next t' → z.Latched t' := by
  unfold execHpqStatusRead
  intro _ hE
  cases hE
  repeat' first
    | with_reducible assumption
    | with_reducible apply latched_ite
    | with_reducible apply State.updDie_latched
    | with_reducible apply State.emit_latched

theorem pokeLines_latched {z : State} (q : Nat) (x0 : Nat) (x1 : Nat) (x2 : List Byte) (x3 : State) (hC : z.Latched x3) : z.Latched (pokeLines q x0 x1 x2 x3) := by
  induction x0 generalizing x1 x2 x3 with
  | zero =>
    unfold pokeLines
    repeat' first
      | with_reducible assumption
  | succ n ih =>
    unfold pokeLines
    repeat' first
      | with_reducible apply ih
      | with_reducible assumption
      | with_reducible apply latched_ite
      | with_reducible apply submit_latched

theorem retryRegion_latched {z : State} (q va : Nat) (s : State) (hC : z.Latched s) : z.Latched (retryRegion q va s) := by
  unfold retryRegion
  repeat' first
    | with_reducible assumption
    | with_reducible apply latched_foldl
    | with_reducible apply fqRetry_latched
    | intro _ _ _

theorem endMigration_latched {z : State} (q : Nat) (m : Migration) (f : Region → Region) (s : State) (hC : z.Latched s) : z.Latched (endMigration q m f s) := by
  unfold endMigration
  repeat' first
    | with_reducible assumption
    | with_reducible apply State.updPart_latched
    | with_reducible apply invalidate_latched
    | with_reducible apply retryRegion_latched

theorem restoreMigration_latched {z : State} (q : Nat) (m : Migration) (s : State) (hC : z.Latched s) : z.Latched (restoreMigration q m s) := by
  unfold restoreMigration
  repeat' first
    | with_reducible assumption
    | with_reducible apply endMigration_latched

theorem finishMbx_latched {z : State} (p : PortId) (m status : Nat) (data : List Byte) (s : State) (hC : z.Latched s) : z.Latched (finishMbx p m status data s) := by
  unfold finishMbx
  repeat' first
    | with_reducible assumption
    | with_reducible apply State.updMbx_latched

theorem execMigrationCopyComplete_latched {z : State} (q : PartId) (reply : HostReply) (s : State) (hC : z.Latched s) : ∀ t', execMigrationCopyComplete q reply s = .next t' → z.Latched t' := by
  unfold execMigrationCopyComplete
  intro _ hE
  cases hE
  repeat' first
    | with_reducible assumption
    | with_reducible apply latched_ite
    | with_reducible apply State.updPart_latched
    | with_reducible apply recInput_latched
    | with_reducible apply pokeLines_latched
    | with_reducible apply endMigration_latched
    | with_reducible apply restoreMigration_latched
    | with_reducible apply finishMbx_latched
    | intro _ _ _
    | intro _
    | dsimp only
    | split

theorem execHostWindowReadFail_latched {z : State} (q : PartId) (u : UnitRef) (f : HostFail) (s : State) (hC : z.Latched s) : ∀ t', execHostWindowReadFail q u f s = .next t' → z.Latched t' := by
  unfold execHostWindowReadFail
  intro _ hE
  cases hE
  repeat' first
    | with_reducible assumption
    | with_reducible apply latched_ite
    | with_reducible apply hostReadFails_latched
    | intro _ _ _
    | intro _
    | dsimp only
    | split

theorem abandonReplay_latched {z : State} (q : Nat) (s : State) (hC : z.Latched s) : z.Latched (abandonReplay q s) := by
  unfold abandonReplay
  repeat' first
    | with_reducible assumption
    | with_reducible apply latched_ite
    | with_reducible apply State.updPart_latched
    | with_reducible apply stopWithin_latched

theorem abandonPart_latched {z : State} (p : PortId) (s : State) (q : Nat) (hC : z.Latched s) : z.Latched (abandonPart p s q) := by
  unfold abandonPart
  repeat' first
    | with_reducible assumption
    | with_reducible apply latched_ite
    | with_reducible apply State.updPart_latched
    | with_reducible apply restoreMigration_latched
    | with_reducible apply abandonReplay_latched
    | intro _ _ _
    | intro _
    | dsimp only
    | split

theorem abandonFlash_latched {z : State} (p : PortId) (s : State) (m : Nat) (hC : z.Latched s) : z.Latched (abandonFlash p s m) := by
  unfold abandonFlash
  repeat' first
    | with_reducible assumption
    | with_reducible apply latched_ite
    | with_reducible apply State.updFlash_latched
    | with_reducible apply State.drew_latched

theorem abandonPort_latched {z : State} (p : PortId) (s : State) (hC : z.Latched s) : z.Latched (abandonPort p s) := by
  unfold abandonPort
  repeat' first
    | with_reducible assumption
    | with_reducible apply latched_foldl
    | with_reducible apply abandonPart_latched
    | with_reducible apply abandonFlash_latched

theorem dropPosts_latched {z : State} (p : PortId) (s : State) (hC : z.Latched s) : z.Latched (dropPosts p s) := by
  unfold dropPosts
  repeat' first
    | with_reducible assumption
    | with_reducible apply latched_ite
    | with_reducible apply latched_foldl
    | with_reducible apply State.updCore_latched
    | with_reducible apply State.updPart_latched
    | intro _ _ _

theorem hostLost_latched {z : State} (p : PortId) (origin : Nat) (s : State) (hC : z.Latched s) : z.Latched (hostLost p origin s) := by
  unfold hostLost
  repeat' first
    | with_reducible assumption
    | with_reducible apply latched_ite
    | with_reducible apply latched_foldl
    | with_reducible apply stopWithin_latched
    | intro _ _ _

theorem portEvent_latched {z : State} (p : PortId) (f : Port → Port → Port) (s : State) (hC : z.Latched s) : z.Latched (portEvent p f s) := by
  unfold portEvent
  repeat' first
    | with_reducible assumption
    | with_reducible apply State.updPort_latched
    | with_reducible apply abandonPort_latched
    | with_reducible apply dropPosts_latched
    | with_reducible apply hostLost_latched

theorem execPcieLinkUp_latched {z : State} (p : PortId) (s : State) (hC : z.Latched s) : ∀ t', execPcieLinkUp p s = .next t' → z.Latched t' := by
  unfold execPcieLinkUp
  intro _ hE
  cases hE
  repeat' first
    | with_reducible assumption
    | with_reducible apply latched_ite
    | with_reducible apply State.updPort_latched

theorem execPerstAssert_latched {z : State} (p : PortId) (s : State) (hC : z.Latched s) : ∀ t', execPerstAssert p s = .next t' → z.Latched t' := by
  unfold execPerstAssert
  intro _ hE
  cases hE
  repeat' first
    | with_reducible assumption
    | with_reducible apply latched_ite
    | with_reducible apply State.updPort_latched
    | with_reducible apply portEvent_latched

theorem execPerstDeassert_latched {z : State} (p : PortId) (s : State) (hC : z.Latched s) : ∀ t', execPerstDeassert p s = .next t' → z.Latched t' := by
  unfold execPerstDeassert
  intro _ hE
  cases hE
  repeat' first
    | with_reducible assumption
    | with_reducible apply State.updPort_latched

theorem execFunctionLevelReset_latched {z : State} (p : PortId) (s : State) (hC : z.Latched s) : ∀ t', execFunctionLevelReset p s = .next t' → z.Latched t' := by
  unfold execFunctionLevelReset
  intro _ hE
  cases hE
  repeat' first
    | with_reducible assumption
    | with_reducible apply latched_ite
    | with_reducible apply portEvent_latched

theorem linkLost_latched {z : State} (p : PortId) (s : State) (hC : z.Latched s) : z.Latched (linkLost p s) := by
  unfold linkLost
  repeat' first
    | with_reducible assumption
    | with_reducible apply portEvent_latched

theorem execPcieLinkDown_latched {z : State} (p : PortId) (s : State) (hC : z.Latched s) : ∀ t', execPcieLinkDown p s = .next t' → z.Latched t' := by
  unfold execPcieLinkDown
  intro _ hE
  cases hE
  repeat' first
    | with_reducible assumption
    | with_reducible apply latched_ite
    | with_reducible apply linkLost_latched

theorem enterD3_latched {z : State} (p : PortId) (s : State) (hC : z.Latched s) : z.Latched (enterD3 p s) := by
  unfold enterD3
  repeat' first
    | with_reducible assumption
    | with_reducible apply portEvent_latched

theorem execD3hotEntry_latched {z : State} (p : PortId) (s : State) (hC : z.Latched s) : ∀ t', execD3hotEntry p s = .next t' → z.Latched t' := by
  unfold execD3hotEntry
  intro _ hE
  cases hE
  repeat' first
    | with_reducible assumption
    | with_reducible apply latched_ite
    | with_reducible apply enterD3_latched

theorem execNoticeRingWrite_latched {z : State} (p : PortId) (s : State) (hC : z.Latched s) : ∀ t', execNoticeRingWrite p s = .next t' → z.Latched t' := by
  unfold execNoticeRingWrite
  intro _ hE
  cases hE
  repeat' first
    | with_reducible assumption
    | with_reducible apply latched_ite
    | with_reducible apply State.updPort_latched
    | with_reducible apply State.emit_latched
    | with_reducible apply raiseVector_latched
    | intro _ _ _
    | intro _
    | dsimp only
    | split

theorem execHotPageRingWrite_latched {z : State} (p : PortId) (s : State) (hC : z.Latched s) : ∀ t', execHotPageRingWrite p s = .next t' → z.Latched t' := by
  unfold execHotPageRingWrite
  intro _ hE
  cases hE
  repeat' first
    | with_reducible assumption
    | with_reducible apply latched_ite
    | with_reducible apply State.updPort_latched
    | with_reducible apply State.emit_latched
    | with_reducible apply raiseVector_latched
    | intro _ _ _
    | intro _
    | dsimp only
    | split

theorem execNtcBaseWrite_latched {z : State} (p : PortId) (value : Word) (s : State) (hC : z.Latched s) : ∀ t', execNtcBaseWrite p value s = .next t' → z.Latched t' := by
  unfold execNtcBaseWrite
  intro _ hE
  cases hE
  repeat' first
    | with_reducible assumption
    | with_reducible apply latched_ite
    | with_reducible apply State.updPort_latched

theorem execHprBaseWrite_latched {z : State} (p : PortId) (value : Word) (s : State) (hC : z.Latched s) : ∀ t', execHprBaseWrite p value s = .next t' → z.Latched t' := by
  unfold execHprBaseWrite
  intro _ hE
  cases hE
  repeat' first
    | with_reducible assumption
    | with_reducible apply latched_ite
    | with_reducible apply State.updPort_latched

theorem readReg_latched {z : State} (p : PortId) (v : Nat) (s : State) (hC : z.Latched s) : z.Latched (readReg p v s) := by
  unfold readReg
  repeat' first
    | with_reducible assumption
    | with_reducible apply State.emit_latched

theorem readHalf_latched {z : State} (p : PortId) (v : Nat) (h : Fin 2) (s : State) (hC : z.Latched s) : z.Latched (readHalf p v h s) := by
  unfold readHalf
  repeat' first
    | with_reducible assumption
    | with_reducible apply State.emit_latched

theorem execErrCntRead_latched {z : State} (r : CntRead) (s : State) (hC : z.Latched s) : ∀ t', execErrCntRead r s = .next t' → z.Latched t' := by
  unfold execErrCntRead
  intro _ hE
  cases hE
  repeat' first
    | with_reducible assumption
    | with_reducible apply latched_ite
    | with_reducible apply State.updPort_latched
    | with_reducible apply readReg_latched
    | with_reducible apply readHalf_latched
    | intro _ _ _
    | intro _
    | dsimp only
    | split

theorem execErrCnt2Read_latched {z : State} (r : CntRead) (s : State) (hC : z.Latched s) : ∀ t', execErrCnt2Read r s = .next t' → z.Latched t' := by
  unfold execErrCnt2Read
  intro _ hE
  cases hE
  repeat' first
    | with_reducible assumption
    | with_reducible apply latched_ite
    | with_reducible apply State.updPort_latched
    | with_reducible apply readReg_latched
    | with_reducible apply readHalf_latched
    | intro _ _ _
    | intro _
    | dsimp only
    | split

theorem execMbxRefusedRead_latched {z : State} (p : PortId) (m : MbxId) (s : State) (hC : z.Latched s) : ∀ t', execMbxRefusedRead p m s = .next t' → z.Latched t' := by
  unfold execMbxRefusedRead
  intro _ hE
  cases hE
  repeat' first
    | with_reducible assumption
    | with_reducible apply latched_ite
    | with_reducible apply State.updMbx_latched
    | with_reducible apply readReg_latched

theorem execHmbRefusedRead_latched {z : State} (p : PortId) (s : State) (hC : z.Latched s) : ∀ t', execHmbRefusedRead p s = .next t' → z.Latched t' := by
  unfold execHmbRefusedRead
  intro _ hE
  cases hE
  repeat' first
    | with_reducible assumption
    | with_reducible apply latched_ite
    | with_reducible apply State.updPort_latched
    | with_reducible apply readReg_latched

theorem bar2Ask_latched {z : State} (p : PortId) (k : Nat) (s : State) (x : Bar2Line) (hC : z.Latched s) : z.Latched (bar2Ask p k s x) := by
  unfold bar2Ask
  repeat' first
    | with_reducible assumption
    | with_reducible apply latched_ite
    | with_reducible apply submit_latched

theorem execBar2Read_latched {z : State} (p : PortId) (offset len : Nat) (env : Env) (s : State) (hC : z.Latched s) : ∀ t', execBar2Read p offset len env s = .next t' → z.Latched t' := by
  unfold execBar2Read
  intro _ hE
  cases hE
  repeat' first
    | with_reducible assumption
    | with_reducible apply latched_ite
    | with_reducible apply latched_foldl
    | with_reducible apply State.updPort_latched
    | with_reducible apply applyUpsets_latched
    | with_reducible apply bar2End_latched
    | with_reducible apply bar2Ask_latched

theorem sendPending_latched {z : State} (p : PortId) (s : State) (hC : z.Latched s) : z.Latched (sendPending p s) := by
  unfold sendPending
  repeat' first
    | with_reducible assumption
    | with_reducible apply latched_ite
    | with_reducible apply latched_foldl
    | with_reducible apply State.updPort_latched
    | with_reducible apply State.emit_latched
    | with_reducible apply msix_latched
    | intro _ _ _

theorem writePcie_latched {z : State} (p : PortId) (r : PcieReg) (o : Nat) (data : List Byte) (s : State) (hC : z.Latched s) : z.Latched (writePcie p r o data s) := by
  unfold writePcie
  repeat' first
    | with_reducible assumption
    | with_reducible apply latched_ite
    | with_reducible apply State.updPort_latched
    | with_reducible apply enterD3_latched
    | with_reducible apply sendPending_latched

theorem execBar2Write_latched {z : State} (p : PortId) (_offset : Nat) (_data : List Byte) (s : State) (hC : z.Latched s) : ∀ t', execBar2Write p _offset _data s = .next t' → z.Latched t' := by
  unfold execBar2Write
  intro _ hE
  cases hE
  repeat' first
    | with_reducible assumption
    | with_reducible apply latched_ite
    | with_reducible apply portErr_latched

theorem thermalTrip_latched {z : State} (cause src d0 : Nat) (s : State) (hC : z.Latched s) : z.Latched (thermalTrip cause src d0 s) := by
  unfold thermalTrip
  split
  · exact hC
  · rename_i ht
    apply logEvent_latched
    apply enterFailed_latched
    exact ⟨hC.health, fun hz => absurd (hC.trip hz).1 ht⟩

theorem putStep_latched {z : State} (d n : Nat) (s : State) (hC : z.Latched s) : z.Latched (putStep d n s) := by
  unfold putStep
  repeat' first
    | with_reducible assumption
    | with_reducible apply latched_ite
    | (with_reducible apply State.updPower_latched; rotate_left; · intro; exact ⟨rfl, rfl⟩)
    | intro _ _ _
    | intro _
    | dsimp only
    | split
    | with_reducible apply latched_misc

theorem stepDie_latched {z : State} (s : State) (d : Nat) (hC : z.Latched s) : z.Latched (stepDie s d) := by
  unfold stepDie
  repeat' first
    | with_reducible assumption
    | with_reducible apply latched_ite
    | with_reducible apply putStep_latched

theorem execPowerSample_latched {z : State} (watts vin10mV : Nat) (s : State) (hC : z.Latched s) : ∀ t', execPowerSample watts vin10mV s = .next t' → z.Latched t' := by
  unfold execPowerSample
  intro _ hE
  cases hE
  repeat' first
    | with_reducible assumption
    | with_reducible apply latched_ite
    | with_reducible apply latched_foldl
    | (with_reducible apply State.updPower_latched; rotate_left; · intro; exact ⟨rfl, rfl⟩)
    | with_reducible apply thermalTrip_latched
    | with_reducible apply stepDie_latched
    | intro _ _ _
    | intro _
    | dsimp only
    | split
    | with_reducible apply latched_misc

theorem execJunctionSample_latched {z : State} (d : DieId) (celsius : Int) (s : State) (hC : z.Latched s) : ∀ t', execJunctionSample d celsius s = .next t' → z.Latched t' := by
  unfold execJunctionSample
  intro _ hE
  cases hE
  repeat' first
    | with_reducible assumption
    | with_reducible apply latched_ite
    | (with_reducible apply State.updPower_latched; rotate_left; · intro; exact ⟨rfl, rfl⟩)
    | with_reducible apply thermalTrip_latched
    | with_reducible apply stepDie_latched

theorem execHbmTempSample_latched {z : State} (k : StackId) (quarterC : Int) (s : State) (hC : z.Latched s) : ∀ t', execHbmTempSample k quarterC s = .next t' → z.Latched t' := by
  unfold execHbmTempSample
  intro _ hE
  cases hE
  repeat' first
    | with_reducible assumption
    | with_reducible apply latched_ite
    | with_reducible apply State.updStack_latched
    | with_reducible apply thermalTrip_latched

theorem execRailSwitchOff_latched {z : State} (s : State) (hC : z.Latched s) : ∀ t', execRailSwitchOff s = .next t' → z.Latched t' := by
  unfold execRailSwitchOff
  intro _ hE
  cases hE
  split
  · exact ⟨hC.health, hC.trip⟩
  · exact hC

theorem execLossOfLock_latched {z : State} (clk : ClockRef) (s : State) (hC : z.Latched s) : ∀ t', execLossOfLock clk s = .next t' → z.Latched t' := by
  unfold execLossOfLock
  intro _ hE
  cases hE
  repeat' first
    | with_reducible assumption
    | with_reducible apply latched_ite
    | with_reducible apply enterFailed_latched
    | with_reducible apply fenceDie_latched
    | with_reducible apply linkLost_latched
    | intro _ _ _
    | intro _
    | dsimp only
    | split

theorem execTrstNAssert_latched {z : State} (s : State) (hC : z.Latched s) : ∀ t', execTrstNAssert s = .next t' → z.Latched t' := by
  unfold execTrstNAssert
  intro _ hE
  cases hE
  repeat' first
    | with_reducible assumption
    | (with_reducible apply State.updPower_latched; rotate_left; · intro; exact ⟨rfl, rfl⟩)

theorem debugBreak_latched {z : State} (c : Nat) (s : State) (hC : z.Latched s) : z.Latched (debugBreak c s) := by
  unfold debugBreak
  repeat' first
    | with_reducible assumption
    | with_reducible apply latched_ite
    | with_reducible apply State.updCore_latched
    | with_reducible apply raiseImmediate_latched

theorem execJtagBreak_latched {z : State} (c : CoreId) (s : State) (hC : z.Latched s) : ∀ t', execJtagBreak c s = .next t' → z.Latched t' := by
  unfold execJtagBreak
  intro _ hE
  cases hE
  repeat' first
    | with_reducible assumption
    | with_reducible apply latched_ite
    | with_reducible apply debugBreak_latched

theorem assignCores_latched {z : State} (q : Nat) (i : Image) (place : List (Nat × Nat)) (s : State) (hC : z.Latched s) : z.Latched (assignCores q i place s) := by
  unfold assignCores
  repeat' first
    | with_reducible assumption
    | with_reducible apply latched_foldl
    | with_reducible apply State.updCore_latched
    | intro _ _ _

theorem armBulks_latched {z : State} (q : Nat) (i : Image) (place : List (Nat × Nat)) (s : State) (hC : z.Latched s) : z.Latched (armBulks q i place s) := by
  unfold armBulks
  repeat' first
    | with_reducible assumption
    | with_reducible apply latched_ite
    | with_reducible apply latched_foldl
    | with_reducible apply updBulk_latched
    | intro _ _ _

theorem setRegs_latched {z : State} (q : Nat) (c : PartCfg) (i : Image) (s : State) (hC : z.Latched s) : z.Latched (setRegs q c i s) := by
  unfold setRegs
  repeat' first
    | with_reducible assumption
    | with_reducible apply latched_foldl
    | with_reducible apply updReg_latched
    | intro _ _ _

theorem zeroBed_latched {z : State} (b g n : Nat) (s : State) (hC : z.Latched s) : z.Latched (zeroBed b g n s) := by
  unfold zeroBed
  repeat' first
    | with_reducible assumption
    | with_reducible apply State.updBed_latched

theorem zeroHbm_latched {z : State} (keep : List Rng) (g n : Nat) (s : State) (hC : z.Latched s) : z.Latched (zeroHbm keep g n s) := by
  unfold zeroHbm
  repeat' first
    | with_reducible assumption
    | intro _ _ _
    | intro _
    | dsimp only
    | split
    | with_reducible apply latched_misc

theorem settleBar2_latched {z : State} (q : Nat) (s : State) (hC : z.Latched s) : z.Latched (settleBar2 q s) := by
  unfold settleBar2
  repeat' first
    | with_reducible assumption
    | with_reducible apply latched_ite
    | with_reducible apply latched_foldl
    | with_reducible apply lineNow_latched
    | with_reducible apply bar2Got_latched
    | intro _ _ _

theorem clearUnits_latched {z : State} (q : Nat) (s : State) (hC : z.Latched s) : z.Latched (clearUnits q s) := by
  unfold clearUnits
  repeat' first
    | with_reducible assumption
    | with_reducible apply latched_foldl
    | with_reducible apply State.updCore_latched
    | with_reducible apply State.updPort_latched
    | with_reducible apply purgeReqs_latched
    | with_reducible apply invalidateAll_latched
    | with_reducible apply settleBar2_latched
    | intro _ _ _
    | intro _
    | dsimp only
    | split
    | with_reducible apply latched_misc

theorem endRecord_latched {z : State} (q code : Nat) (s : State) (hC : z.Latched s) : z.Latched (endRecord q code s) := by
  unfold endRecord
  repeat' first
    | with_reducible assumption
    | with_reducible apply recEnd_latched

theorem loadUnits_latched {z : State} (q : Nat) (c : PartCfg) (i : Image) (s : State) (hC : z.Latched s) : z.Latched (loadUnits q c i s) := by
  unfold loadUnits
  repeat' first
    | with_reducible assumption
    | with_reducible apply latched_foldl
    | with_reducible apply assignCores_latched
    | with_reducible apply armBulks_latched
    | with_reducible apply setRegs_latched
    | with_reducible apply zeroBed_latched
    | intro _ _ _

theorem buildPart_latched {z : State} (q : Nat) (p : PortId) (c : PartCfg) (i : Image) (place : List (Nat × Nat)) (rep : Report) (seed : Word) (s : State) (hC : z.Latched s) : z.Latched (buildPart q p c i place rep seed s) := by
  unfold buildPart
  repeat' first
    | with_reducible assumption
    | with_reducible apply latched_foldl
    | with_reducible apply State.updPart_latched
    | with_reducible apply zeroHbm_latched
    | with_reducible apply clearUnits_latched
    | with_reducible apply endRecord_latched
    | with_reducible apply loadUnits_latched
    | intro _ _ _

theorem destroyPart_latched {z : State} (q : Nat) (s : State) (hC : z.Latched s) : z.Latched (destroyPart q s) := by
  unfold destroyPart
  repeat' first
    | with_reducible assumption
    | with_reducible apply State.updPart_latched
    | with_reducible apply clearUnits_latched
    | with_reducible apply endRecord_latched

theorem configure_latched {z : State} (q : Nat) (p : PortId) (bs : List Byte) (keep : Option Image) (s : State) (hC : z.Latched s) : z.Latched ((configure q p bs keep s).1) := by
  unfold configure
  repeat' first
    | with_reducible assumption
    | with_reducible apply latched_ite
    | with_reducible apply State.updPort_latched
    | with_reducible apply State.drew_latched
    | with_reducible apply buildPart_latched
    | intro _ _ _
    | intro _
    | dsimp only
    | split

theorem settleWrites_latched {z : State} (q : Nat) (s : State) (hC : z.Latched s) : z.Latched (settleWrites q s) := by
  unfold settleWrites
  repeat' first
    | with_reducible assumption
    | with_reducible apply latched_foldl
    | with_reducible apply hbmWrite_latched
    | intro _ _ _

theorem rewindPart_latched {z : State} (q ringVa ringLen : Nat) (s : State) (hC : z.Latched s) : z.Latched (rewindPart q ringVa ringLen s) := by
  unfold rewindPart
  repeat' first
    | with_reducible assumption
    | with_reducible apply latched_foldl
    | with_reducible apply State.updPart_latched
    | with_reducible apply State.updPort_latched
    | with_reducible apply zeroHbm_latched
    | with_reducible apply clearUnits_latched
    | with_reducible apply endRecord_latched
    | with_reducible apply loadUnits_latched
    | with_reducible apply settleWrites_latched
    | intro _ _ _
    | intro _
    | dsimp only
    | split

theorem doorbell_latched {z : State} (p : PortId) (q n : Nat) (value : Word) (s : State) (hC : z.Latched s) : z.Latched (doorbell p q n value s) := by
  unfold doorbell
  repeat' first
    | with_reducible assumption
    | with_reducible apply latched_ite
    | with_reducible apply portErr_latched
    | with_reducible apply updStream_latched
    | intro _ _ _
    | intro _
    | dsimp only
    | split

theorem execStreamDoorbell_latched {z : State} (p : PortId) (q : PartId) (stream : Fin 64) (value : Word) (s : State) (hC : z.Latched s) : ∀ t', execStreamDoorbell p q stream value s = .next t' → z.Latched t' := by
  unfold execStreamDoorbell
  intro _ hE
  cases hE
  repeat' first
    | with_reducible assumption
    | with_reducible apply latched_ite
    | with_reducible apply doorbell_latched

theorem putCompletion_latched {z : State} (q n cstat len : Nat) (user : Word) (sub turn : Nat) (s : State) (hC : z.Latched s) : z.Latched (putCompletion q n cstat len user sub turn s) := by
  unfold putCompletion
  repeat' first
    | with_reducible assumption
    | with_reducible apply State.emit_latched
    | with_reducible apply msix_latched
    | with_reducible apply updStream_latched
    | intro _ _ _
    | intro _
    | dsimp only
    | split

theorem streamFault_latched {z : State} (unit q n cstat addr index : Nat) (s : State) (hC : z.Latched s) : z.Latched (streamFault unit q n cstat addr index s) := by
  unfold streamFault
  repeat' first
    | with_reducible assumption
    | with_reducible apply logEvent_latched
    | with_reducible apply faultPart_latched

theorem hostXlate_latched {z : State} (q va : Nat) (write : Bool) (s : State) (hC : z.Latched s) : z.Latched ((hostXlate q va write s).1) := by
  unfold hostXlate
  repeat' first
    | with_reducible assumption
    | with_reducible apply translateFar_latched
    | with_reducible apply tlbInstall_latched
    | intro _ _ _
    | intro _
    | dsimp only
    | split
    | (with_reducible apply latched_misc; with_reducible first | assumption | apply translateFar_latched | apply tlbInstall_latched)
    | (refine latched_of_pair (by with_reducible assumption) ?_)

theorem moverX_latched {z : State} (q : Nat) (write : Bool) (x0 : Nat) (x10 : Nat) (x11 : Nat) (x2 : State) (hC : z.Latched x2) : z.Latched ((moverX q write x0 x10 x11 x2).1) := by
  induction x0 generalizing x10 x11 x2 with
  | zero =>
    unfold moverX
    repeat' first
      | with_reducible assumption
  | succ n ih =>
    unfold moverX
    repeat' first
      | with_reducible apply ih
      | with_reducible assumption
      | with_reducible apply latched_ite
      | with_reducible apply hostXlate_latched
      | intro _ _ _
      | intro _
      | dsimp only
      | split
      | (with_reducible apply latched_misc; with_reducible first | assumption | apply hostXlate_latched)
      | (refine latched_of_pair (by with_reducible assumption) ?_)

theorem hostMoverFault_latched {z : State} (q cause va : Nat) (s : State) (hC : z.Latched s) : z.Latched (hostMoverFault q cause va s) := by
  unfold hostMoverFault
  repeat' first
    | with_reducible assumption
    | with_reducible apply logEvent_latched
    | with_reducible apply faultPart_latched

theorem fetchFails_latched {z : State} (q n k cstat addr : Nat) (user : Word) (s : State) (hC : z.Latched s) : z.Latched (fetchFails q n k cstat addr user s) := by
  unfold fetchFails
  repeat' first
    | with_reducible assumption
    | with_reducible apply updStream_latched
    | with_reducible apply putCompletion_latched
    | with_reducible apply streamFault_latched

theorem frameAsk_latched {z : State} (q n : Nat) (x0 : Nat) (x10 : Nat) (x11 : Nat) (x2 : State) (hC : z.Latched x2) : z.Latched (frameAsk q n x0 x10 x11 x2) := by
  induction x0 generalizing x10 x11 x2 with
  | zero =>
    unfold frameAsk
    repeat' first
      | with_reducible assumption
  | succ n ih =>
    unfold frameAsk
    repeat' first
      | with_reducible apply ih
      | with_reducible assumption
      | with_reducible apply latched_ite
      | with_reducible apply submit_latched
      | with_reducible apply updStream_latched
      | with_reducible apply hostXlate_latched
      | intro _ _ _
      | intro _
      | dsimp only
      | split
      | (with_reducible apply latched_misc; with_reducible first | assumption | apply submit_latched | apply updStream_latched | apply hostXlate_latched)
      | (refine latched_of_pair (by with_reducible assumption) ?_)

theorem poisonSlot_latched {z : State} (c slot : Nat) (bytes : List (Byte × Nat)) (s : State) (hC : z.Latched s) : z.Latched (poisonSlot c slot bytes s) := by
  unfold poisonSlot
  repeat' first
    | with_reducible assumption
    | with_reducible apply latched_foldl
    | with_reducible apply State.updCore_latched

theorem putFrame_latched {z : State} (q n : Nat) (f : Fetch) (y : Stream) (bytes : List (Byte × Nat)) (s : State) (hC : z.Latched s) : z.Latched (putFrame q n f y bytes s) := by
  unfold putFrame
  repeat' first
    | with_reducible assumption
    | with_reducible apply latched_foldl
    | with_reducible apply storeBytes_latched
    | with_reducible apply coreEvent_latched
    | with_reducible apply updStream_latched
    | with_reducible apply poisonSlot_latched
    | intro _ _ _
    | intro _
    | dsimp only
    | split

theorem finishFetch_latched {z : State} (q n : Nat) (f : Fetch) (y : Stream) (bytes : List (Byte × Nat)) (s : State) (hC : z.Latched s) : z.Latched (finishFetch q n f y bytes s) := by
  unfold finishFetch
  repeat' first
    | with_reducible assumption
    | with_reducible apply recInput_latched
    | with_reducible apply putCompletion_latched
    | with_reducible apply putFrame_latched

theorem replayFrame_latched {z : State} (q n : Nat) (y : Stream) (r : Replay) (s : State) (hC : z.Latched s) : z.Latched (replayFrame q n y r s) := by
  unfold replayFrame
  repeat' first
    | with_reducible assumption
    | with_reducible apply latched_ite
    | with_reducible apply replayDiverge_latched
    | with_reducible apply putFrame_latched
    | intro _ _ _
    | intro _
    | dsimp only
    | split

theorem execFrameFetch_latched {z : State} (q : PartId) (stream : Fin 64) (entry : HostReply) (s : State) (hC : z.Latched s) : ∀ t', execFrameFetch q stream entry s = .next t' → z.Latched t' := by
  unfold execFrameFetch
  intro _ hE
  cases hE
  repeat' first
    | with_reducible assumption
    | with_reducible apply latched_ite
    | with_reducible apply State.drew_latched
    | with_reducible apply updStream_latched
    | with_reducible apply fetchFails_latched
    | with_reducible apply replayFrame_latched
    | intro _ _ _
    | intro _
    | dsimp only
    | split

theorem execFrameFetchComplete_latched {z : State} (q : PartId) (stream : Fin 64) (frame : HostReply) (env : Env) (s : State) (hC : z.Latched s) : ∀ t', execFrameFetchComplete q stream frame env s = .next t' → z.Latched t' := by
  unfold execFrameFetchComplete
  intro _ hE
  cases hE
  repeat' first
    | with_reducible assumption
    | with_reducible apply latched_ite
    | with_reducible apply applyUpsets_latched
    | with_reducible apply moverX_latched
    | with_reducible apply hostMoverFault_latched
    | with_reducible apply fetchFails_latched
    | with_reducible apply frameAsk_latched
    | with_reducible apply finishFetch_latched
    | intro _ _ _
    | intro _
    | dsimp only
    | split
    | (with_reducible apply latched_misc; with_reducible first | assumption | apply applyUpsets_latched | apply moverX_latched | apply hostMoverFault_latched | apply fetchFails_latched | apply frameAsk_latched | apply finishFetch_latched)
    | (refine latched_of_pair (by with_reducible assumption) ?_)

theorem hostMoverWrite_latched {z : State} (q : Nat) (x0 : Nat) (x1 : Nat) (x2 : List Byte) (x3 : State) (hC : z.Latched x3) : z.Latched (hostMoverWrite q x0 x1 x2 x3) := by
  induction x0 generalizing x1 x2 x3 with
  | zero =>
    unfold hostMoverWrite
    repeat' first
      | with_reducible assumption
  | succ n ih =>
    unfold hostMoverWrite
    repeat' first
      | with_reducible apply ih
      | with_reducible assumption
      | with_reducible apply latched_ite
      | with_reducible apply State.emit_latched
      | with_reducible apply submit_latched
      | with_reducible apply hostXlate_latched
      | intro _ _ _
      | intro _
      | dsimp only
      | split
      | (with_reducible apply latched_misc; with_reducible first | assumption | apply State.emit_latched | apply submit_latched | apply hostXlate_latched)
      | (refine latched_of_pair (by with_reducible assumption) ?_)

theorem finishPost_latched {z : State} (q : Nat) (o : Post) (y : Stream) (d : StreamDecl) (entry : HostReply) (s : State) (hC : z.Latched s) : z.Latched (finishPost q o y d entry s) := by
  unfold finishPost
  repeat' first
    | with_reducible assumption
    | with_reducible apply latched_ite
    | with_reducible apply State.drew_latched
    | with_reducible apply updStream_latched
    | with_reducible apply putCompletion_latched
    | with_reducible apply streamFault_latched
    | with_reducible apply hostMoverWrite_latched
    | intro _ _ _
    | intro _
    | dsimp only
    | split

theorem postX_latched {z : State} (q : Nat) (o : Post) (entry : HostReply) (s : State) (hC : z.Latched s) : z.Latched ((postX q o entry s).1) := by
  unfold postX
  repeat' first
    | with_reducible assumption
    | with_reducible apply latched_ite
    | with_reducible apply moverX_latched
    | intro _ _ _
    | intro _
    | dsimp only
    | split

theorem dropPosted_latched {z : State} (p : Part) (lcore : Nat) (s : State) (hC : z.Latched s) : z.Latched (dropPosted p lcore s) := by
  unfold dropPosted
  repeat' first
    | with_reducible assumption
    | with_reducible apply State.updCore_latched
    | intro _ _ _
    | intro _
    | dsimp only
    | split

theorem completePost_latched {z : State} (q : Nat) (o : Post) (entry : HostReply) (s : State) (hC : z.Latched s) : z.Latched (completePost q o entry s) := by
  unfold completePost
  repeat' first
    | with_reducible assumption
    | with_reducible apply latched_ite
    | with_reducible apply State.updPart_latched
    | with_reducible apply portErr_latched
    | with_reducible apply hostMoverFault_latched
    | with_reducible apply finishPost_latched
    | with_reducible apply postX_latched
    | with_reducible apply dropPosted_latched
    | intro _ _ _
    | intro _
    | dsimp only
    | split
    | (with_reducible apply latched_misc; with_reducible first | assumption | apply State.updPart_latched | apply portErr_latched | apply hostMoverFault_latched | apply finishPost_latched | apply postX_latched | apply dropPosted_latched)
    | (refine latched_of_pair (by with_reducible assumption) ?_)

theorem execPostCompletion_latched {z : State} (q : PartId) (entry : HostReply) (s : State) (hC : z.Latched s) : ∀ t', execPostCompletion q entry s = .next t' → z.Latched t' := by
  unfold execPostCompletion
  intro _ hE
  cases hE
  repeat' first
    | with_reducible assumption
    | with_reducible apply completePost_latched
    | intro _ _ _
    | intro _
    | dsimp only
    | split

theorem badDesc_latched {z : State} (q c h : Nat) (s : State) (hC : z.Latched s) : z.Latched (badDesc q c h s) := by
  unfold badDesc
  repeat' first
    | with_reducible assumption
    | with_reducible apply State.drew_latched
    | with_reducible apply streamFault_latched

theorem fireLaunch_latched {z : State} (q c h : Nat) (s : State) (hC : z.Latched s) : z.Latched (fireLaunch q c h s) := by
  unfold fireLaunch
  repeat' first
    | with_reducible assumption
    | with_reducible apply State.updCore_latched
    | with_reducible apply updStream_latched
    | intro _ _ _
    | intro _
    | dsimp only
    | split

theorem firePost_latched {z : State} (q c h : Nat) (s : State) (hC : z.Latched s) : z.Latched (firePost q c h s) := by
  unfold firePost
  repeat' first
    | with_reducible assumption
    | with_reducible apply latched_ite
    | with_reducible apply State.updCore_latched
    | with_reducible apply State.updPart_latched
    | with_reducible apply touchRun_latched

theorem fireMove_latched {z : State} (m : MoverRef) (q : Nat) (e : ArmEntry) (s : State) (hC : z.Latched s) : z.Latched (fireMove m q e s) := by
  unfold fireMove
  repeat' first
    | with_reducible assumption
    | with_reducible apply State.updCore_latched
    | with_reducible apply updMoves_latched
    | intro _ _ _
    | intro _
    | dsimp only
    | split

theorem fireShare_latched {z : State} (k q : Nat) (e : ArmEntry) (s : State) (hC : z.Latched s) : z.Latched (fireShare k q e s) := by
  unfold fireShare
  repeat' first
    | with_reducible assumption
    | with_reducible apply updReg_latched

theorem fireEntry_latched {z : State} (q : Nat) (u : UnitRef) (e : ArmEntry) (s : State) (hC : z.Latched s) : z.Latched (fireEntry q u e s) := by
  unfold fireEntry
  repeat' first
    | with_reducible assumption
    | with_reducible apply latched_ite
    | with_reducible apply touchRun_latched
    | with_reducible apply fireRun_latched
    | with_reducible apply firePass_latched
    | with_reducible apply fireDrain_latched
    | with_reducible apply badDesc_latched
    | with_reducible apply fireLaunch_latched
    | with_reducible apply firePost_latched
    | with_reducible apply fireMove_latched
    | with_reducible apply fireShare_latched
    | intro _ _ _
    | intro _
    | dsimp only
    | split

theorem execArmFire_latched {z : State} (q : PartId) (u : UnitRef) (env : Env) (s : State) (hC : z.Latched s) : ∀ t', execArmFire q u env s = .next t' → z.Latched t' := by
  unfold execArmFire
  intro _ hE
  cases hE
  repeat' first
    | with_reducible assumption
    | with_reducible apply latched_ite
    | with_reducible apply applyUpsets_latched
    | with_reducible apply updTu_latched
    | with_reducible apply fireEntry_latched
    | intro _ _ _
    | intro _
    | dsimp only
    | split

theorem refuseDoorbell_latched {z : State} (p : PortId) (m : Nat) (s : State) (hC : z.Latched s) : z.Latched (refuseDoorbell p m s) := by
  unfold refuseDoorbell
  repeat' first
    | with_reducible assumption
    | with_reducible apply State.updMbx_latched

theorem ringMailbox_latched {z : State} (p : PortId) (m : Nat) (s : State) (hC : z.Latched s) : z.Latched (ringMailbox p m s) := by
  unfold ringMailbox
  repeat' first
    | with_reducible assumption
    | with_reducible apply latched_ite
    | with_reducible apply State.updMbx_latched
    | (with_reducible apply State.updHs_latched; rotate_left; · intro; rfl)
    | with_reducible apply refuseDoorbell_latched
    | intro _ _ _
    | intro _
    | dsimp only
    | split

theorem execMbxDoorbellRefused_latched {z : State} (p : PortId) (m : MbxId) (s : State) (hC : z.Latched s) : ∀ t', execMbxDoorbellRefused p m s = .next t' → z.Latched t' := by
  unfold execMbxDoorbellRefused
  intro _ hE
  cases hE
  repeat' first
    | with_reducible assumption
    | with_reducible apply latched_ite
    | with_reducible apply refuseDoorbell_latched

theorem writeHmb_latched {z : State} (p : PortId) (opHalf : Bool) (op arg : Nat) (s : State) (hC : z.Latched s) : z.Latched (writeHmb p opHalf op arg s) := by
  unfold writeHmb
  repeat' first
    | with_reducible assumption
    | with_reducible apply latched_ite
    | with_reducible apply State.updPort_latched

theorem execHmbCmdRefused_latched {z : State} (p : PortId) (value : Word) (s : State) (hC : z.Latched s) : ∀ t', execHmbCmdRefused p value s = .next t' → z.Latched t' := by
  unfold execHmbCmdRefused
  intro _ hE
  cases hE
  repeat' first
    | with_reducible assumption
    | with_reducible apply latched_ite
    | with_reducible apply writeHmb_latched

theorem writeMsix_latched {z : State} (p : PortId) (o : Nat) (data : List Byte) (s : State) (hC : z.Latched s) : z.Latched (writeMsix p o data s) := by
  unfold writeMsix
  repeat' first
    | with_reducible assumption
    | with_reducible apply State.updPort_latched
    | with_reducible apply msix_latched
    | with_reducible apply sendPending_latched

theorem writePortReg_latched {z : State} (p : PortId) (base o : Nat) (data : List Byte) (s : State) (hC : z.Latched s) : z.Latched (writePortReg p base o data s) := by
  unfold writePortReg
  repeat' first
    | with_reducible assumption
    | with_reducible apply latched_ite
    | with_reducible apply State.updPort_latched
    | with_reducible apply ringMailbox_latched
    | with_reducible apply writeHmb_latched

theorem writeBar0_latched {z : State} (p : PortId) (off : Nat) (data : List Byte) (s : State) (hC : z.Latched s) : z.Latched (writeBar0 p off data s) := by
  unfold writeBar0
  repeat' first
    | with_reducible assumption
    | with_reducible apply latched_ite
    | with_reducible apply State.updMbx_latched
    | with_reducible apply doorbell_latched
    | with_reducible apply writeMsix_latched
    | with_reducible apply writePortReg_latched

theorem writeDieReg_latched {z : State} (d off : Nat) (data : List Byte) (s : State) (hC : z.Latched s) : z.Latched (writeDieReg d off data s) := by
  unfold writeDieReg
  repeat' first
    | with_reducible assumption
    | with_reducible apply latched_ite
    | with_reducible apply State.updDie_latched
    | with_reducible apply fqRetry_latched
    | with_reducible apply fqAbort_latched

theorem writeChat_latched {z : State} (off : Nat) (data : List Byte) (s : State) (hC : z.Latched s) : z.Latched (writeChat off data s) := by
  unfold writeChat
  repeat' first
    | with_reducible assumption
    | with_reducible apply latched_ite
    | intro _ _ _
    | intro _
    | dsimp only
    | split
    | (with_reducible apply latched_misc; with_reducible first | assumption)

theorem execRegisterWrite_latched {z : State} (sp : RegSpace) (offset : Nat) (data : List Byte) (s : State) (hC : z.Latched s) : ∀ t', execRegisterWrite sp offset data s = .next t' → z.Latched t' := by
  unfold execRegisterWrite
  intro _ hE
  cases hE
  repeat' first
    | with_reducible assumption
    | with_reducible apply latched_ite
    | with_reducible apply writePcie_latched
    | with_reducible apply writeBar0_latched
    | with_reducible apply writeDieReg_latched
    | with_reducible apply writeChat_latched
    | intro _ _ _
    | intro _
    | dsimp only
    | split
    | (with_reducible apply latched_misc; with_reducible first | assumption | apply writePcie_latched | apply writeBar0_latched | apply writeDieReg_latched | apply writeChat_latched)

theorem completeMailbox_latched {z : State} (p : PortId) (m : Nat) (r : MbxResult) (s : State) (hC : z.Latched s) : z.Latched (completeMailbox p m r s) := by
  unfold completeMailbox
  repeat' first
    | with_reducible assumption
    | with_reducible apply latched_ite
    | with_reducible apply State.updMbx_latched
    | with_reducible apply raiseVector_latched

theorem execMbxCommandComplete_latched {z : State} (p : PortId) (m : MbxId) (s : State) (hC : z.Latched s) : ∀ t', execMbxCommandComplete p m s = .next t' → z.Latched t' := by
  unfold execMbxCommandComplete
  intro _ hE
  cases hE
  repeat' first
    | with_reducible assumption
    | with_reducible apply latched_ite
    | with_reducible apply completeMailbox_latched
    | intro _ _ _
    | intro _
    | dsimp only
    | split

theorem runLater_latched {z : State} (p : PortId) (m op : Nat) (f : Cmd → State → State × Option MbxResult) (s : State) (hC : z.Latched s)
    (hf : ∀ c s, z.Latched s → z.Latched ((f c s).1)) : z.Latched (runLater p m op f s) := by
  unfold runLater
  dsimp only
  split
  · have h := hf (s.mbx p m).command (s.updMbx p m fun b => { b with ran := true }) (State.updMbx_latched hC p m _)
    split
    · exact completeMailbox_latched p m _ _ h
    · exact h
  · exact hC

theorem runCmd_latched {z : State} (p : PortId) (m op : Nat) (f : Cmd → State → State × MbxResult) (s : State) (hC : z.Latched s)
    (hf : ∀ c s, z.Latched s → z.Latched ((f c s).1)) : z.Latched (runCmd p m op f s) :=
  runLater_latched p m op _ s hC hf

theorem execIdentify_latched {z : State} (p : PortId) (m : MbxId) (s : State) (hC : z.Latched s) : ∀ t', execIdentify p m s = .next t' → z.Latched t' := by
  unfold execIdentify
  intro _ hE
  cases hE
  repeat' first
    | with_reducible assumption
    | with_reducible apply runCmd_latched
    | intro _ _ _

theorem execGetHealth_latched {z : State} (p : PortId) (m : MbxId) (s : State) (hC : z.Latched s) : ∀ t', execGetHealth p m s = .next t' → z.Latched t' := by
  unfold execGetHealth
  intro _ hE
  cases hE
  repeat' first
    | with_reducible assumption
    | with_reducible apply runCmd_latched
    | intro _ _ _

theorem execSetEpoch_latched {z : State} (p : PortId) (m : MbxId) (s : State) (hC : z.Latched s) : ∀ t', execSetEpoch p m s = .next t' → z.Latched t' := by
  unfold execSetEpoch
  intro _ hE
  cases hE
  repeat' first
    | with_reducible assumption
    | with_reducible apply latched_ite
    | (with_reducible apply State.updHs_latched; rotate_left; · intro; rfl)
    | with_reducible apply runCmd_latched
    | intro _ _ _

theorem execFaultLogRead_latched {z : State} (p : PortId) (m : MbxId) (s : State) (hC : z.Latched s) : ∀ t', execFaultLogRead p m s = .next t' → z.Latched t' := by
  unfold execFaultLogRead
  intro _ hE
  cases hE
  repeat' first
    | with_reducible assumption
    | with_reducible apply latched_ite
    | with_reducible apply RunSt.start_latched
    | with_reducible apply runCmd_latched
    | intro _ _ _
    | intro _
    | dsimp only
    | split

theorem execRepairStatus_latched {z : State} (p : PortId) (m : MbxId) (s : State) (hC : z.Latched s) : ∀ t', execRepairStatus p m s = .next t' → z.Latched t' := by
  unfold execRepairStatus
  intro _ hE
  cases hE
  repeat' first
    | with_reducible assumption
    | with_reducible apply runCmd_latched
    | intro _ _ _

theorem execRepairCommit_latched {z : State} (p : PortId) (m : MbxId) (s : State) (hC : z.Latched s) : ∀ t', execRepairCommit p m s = .next t' → z.Latched t' := by
  unfold execRepairCommit
  intro _ hE
  cases hE
  repeat' first
    | with_reducible assumption
    | with_reducible apply latched_foldl
    | with_reducible apply persistRemaps_latched
    | with_reducible apply persistCores_latched
    | with_reducible apply runCmd_latched
    | intro _ _ _

theorem fwUpdateRun_latched {z : State} (image : HostReply) (c : Cmd) (s : State) (hC : z.Latched s) : z.Latched ((fwUpdateRun image c s).1) := by
  unfold fwUpdateRun
  repeat' first
    | with_reducible assumption
    | with_reducible apply latched_ite
    | with_reducible apply State.updFlash_latched
    | intro _ _ _
    | intro _
    | dsimp only
    | split

theorem execFwUpdate_latched {z : State} (p : PortId) (m : MbxId) (image : HostReply) (s : State) (hC : z.Latched s) : ∀ t', execFwUpdate p m image s = .next t' → z.Latched t' := by
  unfold execFwUpdate
  intro _ hE
  cases hE
  repeat' first
    | with_reducible assumption
    | with_reducible apply runCmd_latched
    | with_reducible apply fwUpdateRun_latched

theorem execAttestQuote_latched {z : State} (p : PortId) (m : MbxId) (s : State) (hC : z.Latched s) : ∀ t', execAttestQuote p m s = .next t' → z.Latched t' := by
  unfold execAttestQuote
  intro _ hE
  cases hE
  repeat' first
    | with_reducible assumption
    | with_reducible apply latched_ite
    | with_reducible apply State.drew_latched
    | with_reducible apply runCmd_latched
    | intro _ _ _

theorem execLanePlanSet_latched {z : State} (p : PortId) (m : MbxId) (s : State) (hC : z.Latched s) : ∀ t', execLanePlanSet p m s = .next t' → z.Latched t' := by
  unfold execLanePlanSet
  intro _ hE
  cases hE
  repeat' first
    | with_reducible assumption
    | with_reducible apply latched_ite
    | with_reducible apply State.updFlash_latched
    | with_reducible apply runCmd_latched
    | intro _ _ _
    | intro _
    | dsimp only
    | split

theorem execLinkQuery_latched {z : State} (p : PortId) (m : MbxId) (s : State) (hC : z.Latched s) : ∀ t', execLinkQuery p m s = .next t' → z.Latched t' := by
  unfold execLinkQuery
  intro _ hE
  cases hE
  repeat' first
    | with_reducible assumption
    | with_reducible apply runCmd_latched
    | intro _ _ _

theorem configCmd_latched {z : State} (p : PortId) (keep : Option Image) (c : Cmd) (s : State) (hC : z.Latched s) : z.Latched ((configCmd p keep c s).1) := by
  unfold configCmd
  repeat' first
    | with_reducible assumption
    | with_reducible apply configure_latched

theorem execPartCreate_latched {z : State} (p : PortId) (m : MbxId) (s : State) (hC : z.Latched s) : ∀ t', execPartCreate p m s = .next t' → z.Latched t' := by
  unfold execPartCreate
  intro _ hE
  cases hE
  repeat' first
    | with_reducible assumption
    | with_reducible apply runCmd_latched
    | with_reducible apply configCmd_latched

theorem execPartReconfigure_latched {z : State} (p : PortId) (m : MbxId) (s : State) (hC : z.Latched s) : ∀ t', execPartReconfigure p m s = .next t' → z.Latched t' := by
  unfold execPartReconfigure
  intro _ hE
  cases hE
  repeat' first
    | with_reducible assumption
    | with_reducible apply runCmd_latched
    | with_reducible apply configCmd_latched
    | intro _ _ _

theorem execPartDestroy_latched {z : State} (p : PortId) (m : MbxId) (s : State) (hC : z.Latched s) : ∀ t', execPartDestroy p m s = .next t' → z.Latched t' := by
  unfold execPartDestroy
  intro _ hE
  cases hE
  repeat' first
    | with_reducible assumption
    | with_reducible apply destroyPart_latched
    | with_reducible apply runCmd_latched
    | intro _ _ _

theorem execPartStop_latched {z : State} (p : PortId) (m : MbxId) (s : State) (hC : z.Latched s) : ∀ t', execPartStop p m s = .next t' → z.Latched t' := by
  unfold execPartStop
  intro _ hE
  cases hE
  repeat' first
    | with_reducible assumption
    | with_reducible apply latched_ite
    | with_reducible apply State.updPart_latched
    | with_reducible apply runLater_latched
    | intro _ _ _
    | intro _
    | dsimp only
    | split

theorem partStartRun_latched {z : State} (seen : Seen) (span : List SpanAnswer) (c : Cmd) (s : State) (hC : z.Latched s) : z.Latched ((partStartRun seen span c s).1) := by
  unfold partStartRun
  repeat' first
    | with_reducible assumption
    | with_reducible apply latched_ite
    | with_reducible apply State.emit_latched
    | with_reducible apply startPart_latched
    | intro _ _ _
    | intro _
    | dsimp only
    | split

theorem execPartStart_latched {z : State} (p : PortId) (m : MbxId) (span : List SpanAnswer) (s : State) (hC : z.Latched s) : ∀ t', execPartStart p m span s = .next t' → z.Latched t' := by
  unfold execPartStart
  intro _ hE
  cases hE
  repeat' first
    | with_reducible assumption
    | with_reducible apply runCmd_latched
    | with_reducible apply partStartRun_latched

theorem execPartQuery_latched {z : State} (p : PortId) (m : MbxId) (s : State) (hC : z.Latched s) : ∀ t', execPartQuery p m s = .next t' → z.Latched t' := by
  unfold execPartQuery
  intro _ hE
  cases hE
  repeat' first
    | with_reducible assumption
    | with_reducible apply runCmd_latched
    | intro _ _ _

theorem execSeedSet_latched {z : State} (p : PortId) (m : MbxId) (s : State) (hC : z.Latched s) : ∀ t', execSeedSet p m s = .next t' → z.Latched t' := by
  unfold execSeedSet
  intro _ hE
  cases hE
  repeat' first
    | with_reducible assumption
    | with_reducible apply State.updPart_latched
    | with_reducible apply runCmd_latched
    | intro _ _ _

theorem releaseImage_latched {z : State} (p : PortId) (h : Nat) (s : State) (hC : z.Latched s) : z.Latched ((releaseImage p h s).1) := by
  unfold releaseImage
  repeat' first
    | with_reducible assumption
    | with_reducible apply State.updPort_latched
    | intro _ _ _
    | intro _
    | dsimp only
    | split

theorem stageImage_latched {z : State} (p : PortId) (len : Nat) (image : ImageReply) (s : State) (hC : z.Latched s) : z.Latched ((stageImage p len image s).1) := by
  unfold stageImage
  repeat' first
    | with_reducible assumption
    | with_reducible apply latched_ite
    | with_reducible apply State.updPort_latched
    | intro _ _ _
    | intro _
    | dsimp only
    | split

theorem execImageLoad_latched {z : State} (p : PortId) (m : MbxId) (image : ImageReply) (s : State) (hC : z.Latched s) : ∀ t', execImageLoad p m image s = .next t' → z.Latched t' := by
  unfold execImageLoad
  intro _ hE
  cases hE
  repeat' first
    | with_reducible assumption
    | with_reducible apply latched_ite
    | with_reducible apply runCmd_latched
    | with_reducible apply releaseImage_latched
    | with_reducible apply stageImage_latched
    | intro _ _ _
    | intro _
    | dsimp only
    | split

theorem addChange_latched {z : State} (q : Nat) (c : MapChange) (s : State) (hC : z.Latched s) : z.Latched (addChange q c s) := by
  unfold addChange
  repeat' first
    | with_reducible assumption
    | with_reducible apply State.updPart_latched

theorem memMapRun_latched {z : State} (p : PortId) (m : Nat) (c : Cmd) (s : State) (hC : z.Latched s) : z.Latched ((memMapRun p m c s).1) := by
  unfold memMapRun
  repeat' first
    | with_reducible assumption
    | with_reducible apply latched_ite
    | with_reducible apply latched_foldl
    | with_reducible apply State.updPort_latched
    | with_reducible apply addChange_latched
    | intro _ _ _
    | intro _
    | dsimp only
    | split

theorem execMemMap_latched {z : State} (p : PortId) (m : MbxId) (s : State) (hC : z.Latched s) : ∀ t', execMemMap p m s = .next t' → z.Latched t' := by
  unfold execMemMap
  intro _ hE
  cases hE
  repeat' first
    | with_reducible assumption
    | with_reducible apply latched_ite
    | with_reducible apply runLater_latched
    | with_reducible apply memMapRun_latched

theorem beginMigration_latched {z : State} (p : PortId) (m q va dest : Nat) (s : State) (hC : z.Latched s) : z.Latched (beginMigration p m q va dest s) := by
  unfold beginMigration
  repeat' first
    | with_reducible assumption
    | with_reducible apply State.updPart_latched
    | with_reducible apply invalidate_latched

theorem execMemMapMigrate_latched {z : State} (p : PortId) (m : MbxId) (s : State) (hC : z.Latched s) : ∀ t', execMemMapMigrate p m s = .next t' → z.Latched t' := by
  unfold execMemMapMigrate
  intro _ hE
  cases hE
  repeat' first
    | with_reducible assumption
    | with_reducible apply latched_ite
    | with_reducible apply runLater_latched
    | with_reducible apply beginMigration_latched
    | intro _ _ _
    | intro _
    | dsimp only
    | split

theorem memUnmapRun_latched {z : State} (p : PortId) (m : Nat) (c : Cmd) (s : State) (hC : z.Latched s) : z.Latched ((memUnmapRun p m c s).1) := by
  unfold memUnmapRun
  repeat' first
    | with_reducible assumption
    | with_reducible apply latched_ite
    | with_reducible apply State.updPort_latched
    | with_reducible apply addChange_latched
    | intro _ _ _
    | intro _
    | dsimp only
    | split

theorem execMemUnmap_latched {z : State} (p : PortId) (m : MbxId) (s : State) (hC : z.Latched s) : ∀ t', execMemUnmap p m s = .next t' → z.Latched t' := by
  unfold execMemUnmap
  intro _ hE
  cases hE
  repeat' first
    | with_reducible assumption
    | with_reducible apply runCmd_latched
    | with_reducible apply memUnmapRun_latched

theorem windowOpenRun_latched {z : State} (p : PortId) (m : Nat) (c : Cmd) (s : State) (hC : z.Latched s) : z.Latched ((windowOpenRun p m c s).1) := by
  unfold windowOpenRun
  repeat' first
    | with_reducible assumption
    | with_reducible apply latched_ite
    | with_reducible apply addChange_latched
    | intro _ _ _
    | intro _
    | dsimp only
    | split

theorem execWindowOpen_latched {z : State} (p : PortId) (m : MbxId) (s : State) (hC : z.Latched s) : ∀ t', execWindowOpen p m s = .next t' → z.Latched t' := by
  unfold execWindowOpen
  intro _ hE
  cases hE
  repeat' first
    | with_reducible assumption
    | with_reducible apply runCmd_latched
    | with_reducible apply windowOpenRun_latched

theorem windowCloseRun_latched {z : State} (p : PortId) (m : Nat) (c : Cmd) (s : State) (hC : z.Latched s) : z.Latched ((windowCloseRun p m c s).1) := by
  unfold windowCloseRun
  repeat' first
    | with_reducible assumption
    | with_reducible apply latched_ite
    | with_reducible apply addChange_latched
    | intro _ _ _
    | intro _
    | dsimp only
    | split

theorem execWindowClose_latched {z : State} (p : PortId) (m : MbxId) (s : State) (hC : z.Latched s) : ∀ t', execWindowClose p m s = .next t' → z.Latched t' := by
  unfold execWindowClose
  intro _ hE
  cases hE
  repeat' first
    | with_reducible assumption
    | with_reducible apply runCmd_latched
    | with_reducible apply windowCloseRun_latched

theorem execStreamOpen_latched {z : State} (p : PortId) (m : MbxId) (s : State) (hC : z.Latched s) : ∀ t', execStreamOpen p m s = .next t' → z.Latched t' := by
  unfold execStreamOpen
  intro _ hE
  cases hE
  repeat' first
    | with_reducible assumption
    | with_reducible apply latched_ite
    | with_reducible apply State.updPart_latched
    | with_reducible apply runCmd_latched
    | intro _ _ _
    | intro _
    | dsimp only
    | split

theorem execStreamClose_latched {z : State} (p : PortId) (m : MbxId) (s : State) (hC : z.Latched s) : ∀ t', execStreamClose p m s = .next t' → z.Latched t' := by
  unfold execStreamClose
  intro _ hE
  cases hE
  repeat' first
    | with_reducible assumption
    | with_reducible apply latched_ite
    | with_reducible apply State.updPart_latched
    | with_reducible apply runCmd_latched
    | intro _ _ _
    | intro _
    | dsimp only
    | split

theorem execRecordConfig_latched {z : State} (p : PortId) (m : MbxId) (s : State) (hC : z.Latched s) : ∀ t', execRecordConfig p m s = .next t' → z.Latched t' := by
  unfold execRecordConfig
  intro _ hE
  cases hE
  repeat' first
    | with_reducible assumption
    | with_reducible apply latched_ite
    | with_reducible apply State.updPart_latched
    | with_reducible apply runCmd_latched
    | intro _ _ _
    | intro _
    | dsimp only
    | split

theorem peekBytes_latched {z : State} (gs : List Region) (x0 : Nat) (x10 : Nat) (x11 : Nat) (x2 : State) (hC : z.Latched x2) : z.Latched ((peekBytes gs x0 x10 x11 x2).1) := by
  induction x0 generalizing x10 x11 x2 with
  | zero =>
    unfold peekBytes
    repeat' first
      | with_reducible assumption
  | succ n ih =>
    unfold peekBytes
    repeat' first
      | with_reducible apply ih
      | with_reducible assumption
      | with_reducible apply latched_ite
      | with_reducible apply lineNow_latched
      | intro _ _ _
      | intro _
      | dsimp only
      | split

theorem beginReplay_latched {z : State} (p : PortId) (m q va len last : Nat) (items : List RecItem) (s : State) (hC : z.Latched s) : z.Latched (beginReplay p m q va len last items s) := by
  unfold beginReplay
  repeat' first
    | with_reducible assumption
    | with_reducible apply latched_ite
    | with_reducible apply State.updPart_latched
    | with_reducible apply replayEnd_latched
    | with_reducible apply rewindPart_latched

theorem ringRead_latched {z : State} (gs : List Region) (va n : Nat) (s : State) (hC : z.Latched s) : z.Latched (ringRead gs va n s) := by
  unfold ringRead
  repeat' first
    | with_reducible assumption
    | with_reducible apply peekBytes_latched

theorem replayRun_latched {z : State} (p : PortId) (m : Nat) (c : Cmd) (s : State) (hC : z.Latched s) : z.Latched ((replayRun p m c s).1) := by
  unfold replayRun
  repeat' first
    | with_reducible assumption
    | with_reducible apply latched_ite
    | with_reducible apply settleWrites_latched
    | with_reducible apply peekBytes_latched
    | with_reducible apply beginReplay_latched
    | with_reducible apply ringRead_latched
    | intro _ _ _
    | intro _
    | dsimp only
    | split

theorem execReplayRun_latched {z : State} (p : PortId) (m : MbxId) (s : State) (hC : z.Latched s) : ∀ t', execReplayRun p m s = .next t' → z.Latched t' := by
  unfold execReplayRun
  intro _ hE
  cases hE
  repeat' first
    | with_reducible assumption
    | with_reducible apply runLater_latched
    | with_reducible apply replayRun_latched

theorem diagRun_latched {z : State} (p : PortId) (m test : Nat) (f : Cmd → State → State × MbxResult) (s : State) (hC : z.Latched s)
    (hf : ∀ c s, z.Latched s → z.Latched ((f c s).1)) : z.Latched (diagRun p m test f s) := by
  unfold diagRun
  split
  · refine runCmd_latched p m _ _ s hC fun c s h => ?_
    split
    · exact hf c s h
    · exact h
  · exact hC

theorem execDiagRescueRead_latched {z : State} (p : PortId) (m : MbxId) (s : State) (hC : z.Latched s) : ∀ t', execDiagRescueRead p m s = .next t' → z.Latched t' := by
  unfold execDiagRescueRead
  intro _ hE
  cases hE
  repeat' first
    | with_reducible assumption
    | with_reducible apply diagRun_latched
    | intro _ _ _
    | intro _
    | dsimp only
    | split

theorem execDiagCoreStoreRead_latched {z : State} (p : PortId) (m : MbxId) (s : State) (hC : z.Latched s) : ∀ t', execDiagCoreStoreRead p m s = .next t' → z.Latched t' := by
  unfold execDiagCoreStoreRead
  intro _ hE
  cases hE
  repeat' first
    | with_reducible assumption
    | with_reducible apply latched_ite
    | with_reducible apply diagRun_latched
    | intro _ _ _
    | intro _
    | dsimp only
    | split

theorem execDiagStampRead_latched {z : State} (p : PortId) (m : MbxId) (s : State) (hC : z.Latched s) : ∀ t', execDiagStampRead p m s = .next t' → z.Latched t' := by
  unfold execDiagStampRead
  intro _ hE
  cases hE
  repeat' first
    | with_reducible assumption
    | with_reducible apply latched_ite
    | with_reducible apply diagRun_latched
    | intro _ _ _
    | intro _
    | dsimp only
    | split

theorem execDiagRegisterRead_latched {z : State} (p : PortId) (m : MbxId) (s : State) (hC : z.Latched s) : ∀ t', execDiagRegisterRead p m s = .next t' → z.Latched t' := by
  unfold execDiagRegisterRead
  intro _ hE
  cases hE
  repeat' first
    | with_reducible assumption
    | with_reducible apply latched_ite
    | with_reducible apply diagRun_latched
    | intro _ _ _
    | intro _
    | dsimp only
    | split

theorem execDiagDebugBreak_latched {z : State} (p : PortId) (m : MbxId) (s : State) (hC : z.Latched s) : ∀ t', execDiagDebugBreak p m s = .next t' → z.Latched t' := by
  unfold execDiagDebugBreak
  intro _ hE
  cases hE
  repeat' first
    | with_reducible assumption
    | with_reducible apply debugBreak_latched
    | with_reducible apply diagRun_latched
    | intro _ _ _
    | intro _
    | dsimp only
    | split

theorem hmRun_latched {z : State} (p : PortId) (op : Nat) (f : Nat → State → State × HmbResult) (s : State) (hC : z.Latched s)
    (hf : ∀ c s, z.Latched s → z.Latched ((f c s).1)) : z.Latched (hmRun p op f s) := by
  unfold hmRun
  dsimp only
  split
  · exact State.updPort_latched (hf _ s hC) p _
  · exact hC

theorem execHmStatus_latched {z : State} (p : PortId) (s : State) (hC : z.Latched s) : ∀ t', execHmStatus p s = .next t' → z.Latched t' := by
  unfold execHmStatus
  intro _ hE
  cases hE
  repeat' first
    | with_reducible assumption
    | with_reducible apply hmRun_latched
    | intro _ _ _

theorem execHmLog_latched {z : State} (p : PortId) (s : State) (hC : z.Latched s) : ∀ t', execHmLog p s = .next t' → z.Latched t' := by
  unfold execHmLog
  intro _ hE
  cases hE
  repeat' first
    | with_reducible assumption
    | with_reducible apply latched_ite
    | with_reducible apply hmRun_latched
    | intro _ _ _
    | intro _
    | dsimp only
    | split

theorem resetDie_latched {z : State} (d : Nat) (s : State) (hC : z.Latched s) : z.Latched (resetDie d s) := by
  unfold resetDie
  repeat' first
    | with_reducible assumption
    | with_reducible apply latched_ite
    | with_reducible apply State.updDie_latched
    | intro _ _ _
    | intro _
    | dsimp only
    | split
    | with_reducible apply latched_misc

theorem execHmDieReset_latched {z : State} (p : PortId) (s : State) (hC : z.Latched s) : ∀ t', execHmDieReset p s = .next t' → z.Latched t' := by
  unfold execHmDieReset
  intro _ hE
  cases hE
  repeat' first
    | with_reducible assumption
    | with_reducible apply latched_ite
    | with_reducible apply fenceDie_latched
    | with_reducible apply hmRun_latched
    | with_reducible apply resetDie_latched
    | intro _ _ _
    | intro _
    | dsimp only
    | split

theorem abandonMailboxes_latched {z : State} (p : PortId) (s : State) (hC : z.Latched s) : z.Latched (abandonMailboxes p s) := by
  unfold abandonMailboxes
  repeat' first
    | with_reducible assumption
    | with_reducible apply latched_ite
    | with_reducible apply latched_foldl
    | with_reducible apply State.updMbx_latched
    | intro _ _ _

theorem execHmFwRestart_latched {z : State} (p : PortId) (s : State) (hC : z.Latched s) : ∀ t', execHmFwRestart p s = .next t' → z.Latched t' := by
  unfold execHmFwRestart
  intro _ hE
  cases hE
  repeat' first
    | with_reducible assumption
    | with_reducible apply latched_ite
    | with_reducible apply latched_foldl
    | (with_reducible apply State.updHs_latched; rotate_left; · intro; rfl)
    | with_reducible apply stopWithin_latched
    | with_reducible apply abandonPort_latched
    | with_reducible apply hmRun_latched
    | with_reducible apply abandonMailboxes_latched
    | intro _ _ _
    | intro _
    | dsimp only
    | split

theorem execHmPortQuiesce_latched {z : State} (p : PortId) (s : State) (hC : z.Latched s) : ∀ t', execHmPortQuiesce p s = .next t' → z.Latched t' := by
  unfold execHmPortQuiesce
  intro _ hE
  cases hE
  repeat' first
    | with_reducible assumption
    | with_reducible apply latched_ite
    | with_reducible apply State.updPort_latched
    | with_reducible apply hostLost_latched

theorem execHmSnapshot_latched {z : State} (p : PortId) (s : State) (hC : z.Latched s) : ∀ t', execHmSnapshot p s = .next t' → z.Latched t' := by
  unfold execHmSnapshot
  intro _ hE
  cases hE
  repeat' first
    | with_reducible assumption
    | with_reducible apply latched_ite
    | with_reducible apply latched_foldl
    | with_reducible apply State.updCore_latched
    | with_reducible apply stopWithin_latched
    | with_reducible apply hmRun_latched
    | intro _ _ _

theorem execHmbComplete_latched {z : State} (p : PortId) (s : State) (hC : z.Latched s) : ∀ t', execHmbComplete p s = .next t' → z.Latched t' := by
  unfold execHmbComplete
  intro _ hE
  cases hE
  repeat' first
    | with_reducible assumption
    | with_reducible apply latched_ite
    | with_reducible apply State.updPort_latched
    | (with_reducible apply State.updHs_latched; rotate_left; · intro; rfl)
    | with_reducible apply raiseVector_latched
    | intro _ _ _
    | intro _
    | dsimp only
    | split

theorem bistEntry_latched {z : State} (cls addr code : Nat) (r : Res) (s : State) (hC : z.Latched s) : z.Latched (bistEntry cls addr code r s) := by
  unfold bistEntry
  repeat' first
    | with_reducible assumption
    | with_reducible apply logEvent_latched

theorem retireCore_latched {z : State} (c cls : Nat) (s : State) (hC : z.Latched s) : z.Latched (retireCore c cls s) := by
  unfold retireCore
  repeat' first
    | with_reducible assumption
    | with_reducible apply latched_ite
    | with_reducible apply State.updFlash_latched
    | with_reducible apply bistEntry_latched

theorem rowFails_latched {z : State} (c row : Nat) (s : State) (hC : z.Latched s) : z.Latched (rowFails c row s) := by
  unfold rowFails
  repeat' first
    | with_reducible assumption
    | with_reducible apply latched_ite
    | with_reducible apply State.updFlash_latched
    | with_reducible apply bistEntry_latched
    | with_reducible apply retireCore_latched
    | intro _ _ _
    | intro _
    | dsimp only
    | split

theorem wayFails_latched {z : State} (t : TlbUser) (way : Nat) (s : State) (hC : z.Latched s) : z.Latched (wayFails t way s) := by
  unfold wayFails
  repeat' first
    | with_reducible assumption
    | with_reducible apply latched_ite
    | with_reducible apply State.updFlash_latched
    | with_reducible apply bistEntry_latched
    | with_reducible apply retireCore_latched
    | intro _ _ _
    | intro _
    | dsimp only
    | split

theorem applyBist_latched {z : State} (s : State) (x0 : BistFail) (hC : z.Latched s) : z.Latched (applyBist s x0) := by
  unfold applyBist
  repeat' first
    | with_reducible assumption
    | with_reducible apply latched_ite
    | with_reducible apply State.updFlash_latched
    | with_reducible apply bistEntry_latched
    | with_reducible apply retireCore_latched
    | with_reducible apply rowFails_latched
    | with_reducible apply wayFails_latched
    | intro _ _ _
    | intro _
    | dsimp only
    | split

theorem applyPending_latched {z : State} (on : Nat → Bool) (bist : List BistFail) (s : State) (hC : z.Latched s) : z.Latched (applyPending on bist s) := by
  unfold applyPending
  repeat' first
    | with_reducible assumption
    | with_reducible apply latched_foldl
    | with_reducible apply State.updFlash_latched

theorem enableDie_latched {z : State} (d : Nat) (s : State) (hC : z.Latched s) : z.Latched (enableDie d s) := by
  unfold enableDie
  repeat' first
    | with_reducible assumption
    | with_reducible apply latched_foldl
    | with_reducible apply State.updCore_latched
    | with_reducible apply State.updDie_latched
    | intro _ _ _

theorem clearLasting_latched {z : State} (d : Nat) (s : State) (hC : z.Latched s) : z.Latched (clearLasting d s) := by
  unfold clearLasting
  repeat' first
    | with_reducible assumption
    | intro _ _ _
    | intro _
    | dsimp only
    | split
    | (with_reducible apply latched_misc; with_reducible first | assumption)

theorem execDieBistComplete_latched {z : State} (d : DieId) (bist : List BistFail) (s : State) (hC : z.Latched s) : ∀ t', execDieBistComplete d bist s = .next t' → z.Latched t' := by
  unfold execDieBistComplete
  intro _ hE
  cases hE
  repeat' first
    | with_reducible assumption
    | with_reducible apply latched_ite
    | with_reducible apply latched_foldl
    | with_reducible apply logEvent_latched
    | with_reducible apply updateHealth_latched
    | with_reducible apply applyBist_latched
    | with_reducible apply applyPending_latched
    | with_reducible apply enableDie_latched
    | with_reducible apply clearLasting_latched

theorem execComputeDieReset_latched {z : State} (d : DieId) (s : State) (hC : z.Latched s) : ∀ t', execComputeDieReset d s = .next t' → z.Latched t' := by
  unfold execComputeDieReset
  intro _ hE
  cases hE
  repeat' first
    | with_reducible assumption
    | with_reducible apply latched_ite
    | with_reducible apply fenceDie_latched

theorem execChatterWindowStart_latched {z : State} (d : ChatDie) (s : State) (hC : z.Latched s) : ∀ t', execChatterWindowStart d s = .next t' → z.Latched t' := by
  unfold execChatterWindowStart
  intro _ hE
  cases hE
  repeat' first
    | with_reducible assumption
    | with_reducible apply latched_ite
    | intro _ _ _
    | intro _
    | dsimp only
    | split
    | with_reducible apply latched_misc

theorem execFlitCrcRetry_latched {z : State} (b : BundleId) (lane : Fin 18) (dead : Bool) (s : State) (hC : z.Latched s) : ∀ t', execFlitCrcRetry b lane dead s = .next t' → z.Latched t' := by
  unfold execFlitCrcRetry
  intro _ hE
  cases hE
  repeat' first
    | with_reducible assumption
    | with_reducible apply latched_ite
    | with_reducible apply State.updLane_latched
    | with_reducible apply chatter_latched
    | with_reducible apply chatterUe_latched

theorem laneDone_latched {z : State} (cls src addr count code : Nat) (s : State) (hC : z.Latched s) : z.Latched (laneDone cls src addr count code s) := by
  unfold laneDone
  repeat' first
    | with_reducible assumption
    | with_reducible apply logEvent_latched

theorem swapBundle_latched {z : State} (b : Nat) (s : State) (hC : z.Latched s) : z.Latched (swapBundle b s) := by
  unfold swapBundle
  repeat' first
    | with_reducible assumption
    | with_reducible apply latched_ite
    | with_reducible apply State.updLane_latched
    | with_reducible apply State.updFlash_latched
    | with_reducible apply laneDone_latched
    | intro _ _ _
    | intro _
    | dsimp only
    | split

theorem retireLinkLane_latched {z : State} (l i : Nat) (s : State) (hC : z.Latched s) : z.Latched (retireLinkLane l i s) := by
  unfold retireLinkLane
  repeat' first
    | with_reducible assumption
    | with_reducible apply State.updFlash_latched

theorem swapLink_latched {z : State} (l : Nat) (s : State) (hC : z.Latched s) : z.Latched (swapLink l s) := by
  unfold swapLink
  repeat' first
    | with_reducible assumption
    | with_reducible apply State.updLink_latched
    | with_reducible apply laneDone_latched
    | with_reducible apply retireLinkLane_latched
    | intro _ _ _
    | intro _
    | dsimp only
    | split

theorem execLaneSpareSwap_latched {z : State} (l : LaneRef) (s : State) (hC : z.Latched s) : ∀ t', execLaneSpareSwap l s = .next t' → z.Latched t' := by
  unfold execLaneSpareSwap
  intro _ hE
  cases hE
  repeat' first
    | with_reducible assumption
    | with_reducible apply latched_ite
    | with_reducible apply swapBundle_latched
    | with_reducible apply swapLink_latched
    | intro _ _ _
    | intro _
    | dsimp only
    | split

theorem linkGone_latched {z : State} (l : Nat) (cut : List PartId) (s : State) (hC : z.Latched s) : z.Latched (linkGone l cut s) := by
  unfold linkGone
  repeat' first
    | with_reducible assumption
    | with_reducible apply latched_foldl
    | (with_reducible apply State.updHs_latched; rotate_left; · intro; rfl)
    | with_reducible apply faultPart_latched
    | with_reducible apply updateHealth_latched
    | with_reducible apply degradation_latched
    | intro _ _ _

theorem cutElsewhere_latched {z : State} (s : State) (q : PartId) (hC : z.Latched s) : z.Latched (cutElsewhere s q) := by
  unfold cutElsewhere
  repeat' first
    | with_reducible assumption
    | with_reducible apply latched_ite
    | with_reducible apply faultPart_latched

theorem execScaleoutLinkDown_latched {z : State} (l : Option LinkId) (cut : List PartId) (s : State) (hC : z.Latched s) : ∀ t', execScaleoutLinkDown l cut s = .next t' → z.Latched t' := by
  unfold execScaleoutLinkDown
  intro _ hE
  cases hE
  repeat' first
    | with_reducible assumption
    | with_reducible apply latched_ite
    | with_reducible apply latched_foldl
    | with_reducible apply State.updLink_latched
    | with_reducible apply linkGone_latched
    | with_reducible apply cutElsewhere_latched
    | intro _ _ _
    | intro _
    | dsimp only
    | split

theorem linkChanged_latched {z : State} (l i : Nat) (old : Link) (cut : List PartId) (s : State) (hC : z.Latched s) : z.Latched (linkChanged l i old cut s) := by
  unfold linkChanged
  repeat' first
    | with_reducible assumption
    | with_reducible apply latched_ite
    | with_reducible apply updateHealth_latched
    | with_reducible apply degradation_latched
    | with_reducible apply laneDone_latched
    | with_reducible apply retireLinkLane_latched
    | with_reducible apply linkGone_latched

theorem execFecCodeword_latched {z : State} (l : LinkId) (lane : Fin 5) (corrected : Bool) (cut : List PartId) (s : State) (hC : z.Latched s) : ∀ t', execFecCodeword l lane corrected cut s = .next t' → z.Latched t' := by
  unfold execFecCodeword
  intro _ hE
  cases hE
  repeat' first
    | with_reducible assumption
    | with_reducible apply latched_ite
    | with_reducible apply State.updLink_latched
    | with_reducible apply chatter_latched
    | with_reducible apply chatterUe_latched
    | with_reducible apply linkChanged_latched

theorem trainLink_latched {z : State} (l : Nat) (peer : LinkPeer) (s : State) (hC : z.Latched s) : z.Latched (trainLink l peer s) := by
  unfold trainLink
  repeat' first
    | with_reducible assumption
    | with_reducible apply latched_ite
    | with_reducible apply State.updLink_latched

theorem execScaleoutLinkTrain_latched {z : State} (l : LinkId) (peer : LinkPeer) (s : State) (hC : z.Latched s) : ∀ t', execScaleoutLinkTrain l peer s = .next t' → z.Latched t' := by
  unfold execScaleoutLinkTrain
  intro _ hE
  cases hE
  repeat' first
    | with_reducible assumption
    | with_reducible apply latched_ite
    | with_reducible apply updateHealth_latched
    | with_reducible apply trainLink_latched

theorem giveRole_latched {z : State} (role : Nat) (s : State) (c : Nat) (hC : z.Latched s) : z.Latched (giveRole role s c) := by
  unfold giveRole
  repeat' first
    | with_reducible assumption
    | with_reducible apply latched_ite
    | with_reducible apply State.updLane_latched
    | intro _ _ _
    | intro _
    | dsimp only
    | split

theorem giveRoles_latched {z : State} (s : State) (hC : z.Latched s) : z.Latched (giveRoles s) := by
  unfold giveRoles
  repeat' first
    | with_reducible assumption
    | with_reducible apply latched_foldl
    | with_reducible apply giveRole_latched

theorem retireBundle_latched {z : State} (s : State) (b : Nat) (hC : z.Latched s) : z.Latched (retireBundle s b) := by
  unfold retireBundle
  repeat' first
    | with_reducible assumption
    | with_reducible apply latched_ite
    | with_reducible apply State.updLane_latched
    | with_reducible apply State.updFlash_latched
    | with_reducible apply degradation_latched
    | with_reducible apply laneDone_latched

theorem putHops_latched {z : State} (s : State) (e : PartId × Nat) (hC : z.Latched s) : z.Latched (putHops s e) := by
  unfold putHops
  repeat' first
    | with_reducible assumption
    | with_reducible apply latched_ite
    | with_reducible apply State.updPart_latched

theorem execRouteChangeComplete_latched {z : State} (hops : List (PartId × Nat)) (s : State) (hC : z.Latched s) : ∀ t', execRouteChangeComplete hops s = .next t' → z.Latched t' := by
  unfold execRouteChangeComplete
  intro _ hE
  cases hE
  repeat' first
    | with_reducible assumption
    | with_reducible apply latched_ite
    | with_reducible apply latched_foldl
    | (with_reducible apply State.updHs_latched; rotate_left; · intro; rfl)
    | with_reducible apply updateHealth_latched
    | with_reducible apply enterFailed_latched
    | with_reducible apply giveRoles_latched
    | with_reducible apply retireBundle_latched
    | with_reducible apply putHops_latched

theorem readmit_latched {z : State} (s : State) (q : Nat) (hC : z.Latched s) : z.Latched (readmit s q) := by
  unfold readmit
  repeat' first
    | with_reducible assumption
    | with_reducible apply latched_ite
    | with_reducible apply State.updPart_latched
    | with_reducible apply State.drew_latched
    | with_reducible apply notifyPart_latched
    | with_reducible apply stopWithin_latched
    | intro _ _ _
    | intro _
    | dsimp only
    | split

theorem execDegradationReadmission_latched {z : State} (s : State) (hC : z.Latched s) : ∀ t', execDegradationReadmission s = .next t' → z.Latched t' := by
  unfold execDegradationReadmission
  intro _ hE
  cases hE
  repeat' first
    | with_reducible assumption
    | with_reducible apply latched_ite
    | with_reducible apply latched_foldl
    | (with_reducible apply State.updHs_latched; rotate_left; · intro; rfl)
    | with_reducible apply readmit_latched

theorem startFw_latched {z : State} (n : Nat) (s : State) (hC : z.Latched s) : z.Latched (startFw n s) := by
  unfold startFw
  repeat' first
    | with_reducible assumption
    | (with_reducible apply State.updHs_latched; rotate_left; · intro; rfl)

theorem freeFaults_latched {z : State} (s : State) (hC : z.Latched s) : z.Latched (freeFaults s) := by
  unfold freeFaults
  repeat' first
    | with_reducible assumption
    | intro _ _ _
    | intro _
    | dsimp only
    | split
    | with_reducible apply latched_misc

theorem execControlCoreBoot_latched {z : State} (s : State) (hC : z.Latched s) : ∀ t', execControlCoreBoot s = .next t' → z.Latched t' := by
  unfold execControlCoreBoot
  intro _ hE
  cases hE
  repeat' first
    | with_reducible assumption
    | with_reducible apply latched_ite
    | (with_reducible apply State.updHs_latched; rotate_left; · intro; rfl)
    | with_reducible apply enterFailed_latched
    | with_reducible apply startFw_latched
    | with_reducible apply freeFaults_latched
    | intro _ _ _
    | intro _
    | dsimp only
    | split

theorem boundEntry_latched {z : State} (q : Nat) (u : UnitRef) (count limit window : Nat) (s : State) (hC : z.Latched s) : z.Latched (boundEntry q u count limit window s) := by
  unfold boundEntry
  repeat' first
    | with_reducible assumption
    | with_reducible apply logEvent_latched

theorem boundEntries_latched {z : State} (q : Nat) (us : List UnitRef) (s : State) (hC : z.Latched s) : z.Latched (boundEntries q us s) := by
  unfold boundEntries
  repeat' first
    | with_reducible assumption
    | with_reducible apply latched_foldl
    | with_reducible apply boundEntry_latched
    | intro _ _ _
    | intro _
    | dsimp only
    | split

theorem reportOverrun_latched {z : State} (q : Nat) (s : State) (u : UnitRef) (hC : z.Latched s) : z.Latched (reportOverrun q s u) := by
  unfold reportOverrun
  repeat' first
    | with_reducible assumption
    | with_reducible apply latched_ite
    | with_reducible apply raiseImmediate_latched
    | with_reducible apply updTu_latched
    | intro _ _ _
    | intro _
    | dsimp only
    | split

theorem boundStop_latched {z : State} (q : Nat) (s : State) (hC : z.Latched s) : z.Latched (boundStop q s) := by
  unfold boundStop
  repeat' first
    | with_reducible assumption
    | with_reducible apply latched_foldl
    | with_reducible apply stopWithin_latched
    | with_reducible apply boundEntries_latched
    | with_reducible apply reportOverrun_latched

theorem execBoundOverrun_latched {z : State} (q : PartId) (u : UnitRef) (s : State) (hC : z.Latched s) : ∀ t', execBoundOverrun q u s = .next t' → z.Latched t' := by
  unfold execBoundOverrun
  intro _ hE
  cases hE
  repeat' first
    | with_reducible assumption
    | with_reducible apply latched_ite
    | with_reducible apply reportOverrun_latched
    | with_reducible apply boundStop_latched

theorem windowExpires_latched {z : State} (c : Nat) (s : State) (hC : z.Latched s) : z.Latched (windowExpires c s) := by
  unfold windowExpires
  repeat' first
    | with_reducible assumption
    | with_reducible apply latched_ite
    | with_reducible apply State.updCore_latched
    | with_reducible apply raiseImmediate_latched

theorem windowStop_latched {z : State} (c q : Nat) (s : State) (hC : z.Latched s) : z.Latched (windowStop c q s) := by
  unfold windowStop
  repeat' first
    | with_reducible assumption
    | with_reducible apply State.updCore_latched
    | with_reducible apply stopWithin_latched
    | with_reducible apply boundEntry_latched

theorem execWindowOverrun_latched {z : State} (c : CoreId) (s : State) (hC : z.Latched s) : ∀ t', execWindowOverrun c s = .next t' → z.Latched t' := by
  unfold execWindowOverrun
  intro _ hE
  cases hE
  repeat' first
    | with_reducible assumption
    | with_reducible apply latched_ite
    | with_reducible apply windowExpires_latched
    | with_reducible apply windowStop_latched
    | intro _ _ _
    | intro _
    | dsimp only
    | split

theorem passTclk_latched {z : State} (n : Nat) (s : State) (q : Nat) (hC : z.Latched s) : z.Latched (passTclk n s q) := by
  unfold passTclk
  repeat' first
    | with_reducible assumption
    | with_reducible apply latched_ite
    | with_reducible apply latched_foldl
    | with_reducible apply updTu_latched
    | intro _ _ _

theorem tick_latched {z : State} (s : State) (hC : z.Latched s) : z.Latched (tick s) := by
  unfold tick
  split
  · have h : z.Latched (allParts.foldl (passTclk 4) s) := latched_foldl hC fun _ _ h => passTclk_latched _ _ _ h
    revert h
    generalize allParts.foldl (passTclk 4) s = u
    exact fun h => ⟨h.health, h.trip⟩
  · exact hC

theorem execI3cOffsetWrite_latched {z : State} (offset : Byte) (s : State) (hC : z.Latched s) : ∀ t', execI3cOffsetWrite offset s = .next t' → z.Latched t' := by
  unfold execI3cOffsetWrite
  intro _ hE
  cases hE
  repeat' first
    | with_reducible assumption
    | with_reducible apply latched_ite
    | intro _ _ _
    | intro _
    | dsimp only
    | split
    | (with_reducible apply latched_misc; with_reducible first | assumption)

theorem execSetdasa_latched {z : State} (addr : Fin 128) (s : State) (hC : z.Latched s) : ∀ t', execSetdasa addr s = .next t' → z.Latched t' := by
  unfold execSetdasa
  intro _ hE
  cases hE
  repeat' first
    | with_reducible assumption
    | with_reducible apply latched_ite
    | intro _ _ _
    | intro _
    | dsimp only
    | split
    | (with_reducible apply latched_misc; with_reducible first | assumption)

theorem answerSpdm_latched {z : State} (p : PortId) (a : Spdm) (s : State) (hC : z.Latched s) : z.Latched (answerSpdm p a s) := by
  unfold answerSpdm
  repeat' first
    | with_reducible assumption
    | with_reducible apply State.emit_latched

theorem setStage_latched {z : State} (p : PortId) (g : DoeStage) (s : State) (hC : z.Latched s) : z.Latched (setStage p g s) := by
  unfold setStage
  repeat' first
    | with_reducible assumption
    | with_reducible apply State.updPort_latched

theorem spdmRun_latched {z : State} (p : PortId) (f : State → State) (s : State) (hC : z.Latched s)
    (hf : ∀ s, z.Latched s → z.Latched (f s)) : z.Latched (spdmRun p f s) := by
  unfold spdmRun
  split
  · split
    · exact hf s hC
    · exact State.emit_latched hC _
  · exact hC

theorem spdmAfter_latched {z : State} (p : PortId) (f : State → State) (s : State) (hC : z.Latched s)
    (hf : ∀ s, z.Latched s → z.Latched (f s)) : z.Latched (spdmAfter p f s) := by
  unfold spdmAfter
  refine spdmRun_latched p _ s hC fun s h => ?_
  split
  · exact hf s h
  · exact State.emit_latched h _

theorem execGetVersion_latched {z : State} (p : PortId) (s : State) (hC : z.Latched s) : ∀ t', execGetVersion p s = .next t' → z.Latched t' := by
  unfold execGetVersion
  intro _ hE
  cases hE
  repeat' first
    | with_reducible assumption
    | with_reducible apply answerSpdm_latched
    | with_reducible apply setStage_latched
    | with_reducible apply spdmRun_latched
    | intro _ _ _
    | intro _

theorem execGetCapabilities_latched {z : State} (p : PortId) (s : State) (hC : z.Latched s) : ∀ t', execGetCapabilities p s = .next t' → z.Latched t' := by
  unfold execGetCapabilities
  intro _ hE
  cases hE
  repeat' first
    | with_reducible assumption
    | with_reducible apply latched_ite
    | with_reducible apply answerSpdm_latched
    | with_reducible apply setStage_latched
    | with_reducible apply spdmRun_latched
    | intro _ _ _
    | intro _

theorem execNegotiateAlgorithms_latched {z : State} (p : PortId) (asymOk hashOk : Bool) (s : State) (hC : z.Latched s) : ∀ t', execNegotiateAlgorithms p asymOk hashOk s = .next t' → z.Latched t' := by
  unfold execNegotiateAlgorithms
  intro _ hE
  cases hE
  repeat' first
    | with_reducible assumption
    | with_reducible apply latched_ite
    | with_reducible apply answerSpdm_latched
    | with_reducible apply setStage_latched
    | with_reducible apply spdmRun_latched
    | intro _ _ _
    | intro _

theorem execGetDigests_latched {z : State} (p : PortId) (s : State) (hC : z.Latched s) : ∀ t', execGetDigests p s = .next t' → z.Latched t' := by
  unfold execGetDigests
  intro _ hE
  cases hE
  repeat' first
    | with_reducible assumption
    | with_reducible apply answerSpdm_latched
    | with_reducible apply spdmAfter_latched

theorem execGetCertificate_latched {z : State} (p : PortId) (slot offset len : Nat) (s : State) (hC : z.Latched s) : ∀ t', execGetCertificate p slot offset len s = .next t' → z.Latched t' := by
  unfold execGetCertificate
  intro _ hE
  cases hE
  repeat' first
    | with_reducible assumption
    | with_reducible apply latched_ite
    | with_reducible apply answerSpdm_latched
    | with_reducible apply spdmAfter_latched
    | intro _ _ _
    | intro _

theorem execChallenge_latched {z : State} (p : PortId) (slot : Nat) (nonce : List Byte) (s : State) (hC : z.Latched s) : ∀ t', execChallenge p slot nonce s = .next t' → z.Latched t' := by
  unfold execChallenge
  intro _ hE
  cases hE
  repeat' first
    | with_reducible assumption
    | with_reducible apply latched_ite
    | with_reducible apply State.drew_latched
    | with_reducible apply answerSpdm_latched
    | with_reducible apply spdmAfter_latched
    | intro _ _ _
    | intro _

theorem execGetMeasurements_latched {z : State} (p : PortId) (index : Nat) (sign : Bool) (nonce : List Byte) (s : State) (hC : z.Latched s) : ∀ t', execGetMeasurements p index sign nonce s = .next t' → z.Latched t' := by
  unfold execGetMeasurements
  intro _ hE
  cases hE
  repeat' first
    | with_reducible assumption
    | with_reducible apply latched_ite
    | with_reducible apply State.drew_latched
    | with_reducible apply answerSpdm_latched
    | with_reducible apply spdmAfter_latched
    | intro _ _ _
    | intro _

end Sys2Proof.Machine
end

