-- ==== Sys2Proof/Laws/Ops.lean ====
section
/-! SUPPORT. What the shared operations of Ops.lean do: stopping a partition, entering FAILED, fencing a die, health, the fault log and notices. -/

namespace Sys2Proof.Machine

/-- A state that may be absent. -/
structure OptStopOnly (z : State) (o : Option State) : Prop where
  out : ∀ t, o = some t → z.StopOnly t


theorem stopOnly_ite {z : State} {c : Prop} [Decidable c] {a b : State} (ha : z.StopOnly a) (hb : z.StopOnly b) : z.StopOnly (if c then a else b) := by
  split
  · exact ha
  · exact hb

theorem stopOnly_foldl {z : State} {α : Type} {g : State → α → State} {l : List α} {s : State} (h : z.StopOnly s)
    (hg : ∀ s a, z.StopOnly s → z.StopOnly (g s a)) : z.StopOnly (l.foldl g s) := by
  induction l generalizing s with
  | nil => exact h
  | cons x l ih => exact ih (hg _ _ h)

theorem stopOnlyOpt_none {z : State} : OptStopOnly z none := ⟨fun _ h => by cases h⟩

theorem stopOnlyOpt_some {z : State} {s : State} (h : z.StopOnly s) : OptStopOnly z (some s) := ⟨fun _ e => by cases e; exact h⟩

theorem stopOnlyOpt_ite {z : State} {c : Prop} [Decidable c] {a b : Option State} (ha : OptStopOnly z a) (hb : OptStopOnly z b) :
    OptStopOnly z (if c then a else b) := by
  split
  · exact ha
  · exact hb

theorem stopOnlyOpt_map {z : State} {α : Type} {o : Option α} {f : α → State} (h : ∀ a, z.StopOnly (f a)) : OptStopOnly z (o.map f) := by
  cases o with
  | none => exact stopOnlyOpt_none
  | some a => exact stopOnlyOpt_some (h a)

theorem stopOnlyOpt_bind {z : State} {α : Type} {o : Option α} {f : α → Option State} (h : ∀ a, OptStopOnly z (f a)) : OptStopOnly z (o.bind f) := by
  cases o with
  | none => exact stopOnlyOpt_none
  | some a => exact h a

theorem stopOnly_getD {z : State} {o : Option State} {s : State} (h : OptStopOnly z o) (hs : z.StopOnly s) : z.StopOnly (o.getD s) := by
  cases o with
  | none => exact hs
  | some a => exact h.out a rfl

theorem stopOnly_of_pair {z : State} {β : Type} {p : State × β} {a : State} {b : β} (e : p = (a, b)) (h : z.StopOnly p.1) : z.StopOnly a := by
  subst e; exact h

theorem stopOnly_of_opt {z : State} {p : Option State} {a : State} (e : p = some a) (h : OptStopOnly z p) : z.StopOnly a := h.out a e

theorem stopOnlyOpt_of_pair {z : State} {β : Type} {p : Option State × β} {a : Option State} {b : β} (e : p = (a, b)) (h : OptStopOnly z p.1) :
    OptStopOnly z a := by
  subst e; exact h

theorem stopOnly_of_fst {z : State} {p : Option State × State} {a b : State} (e : p = (some a, b)) (h : OptStopOnly z p.1 ∧ z.StopOnly p.2) :
    z.StopOnly a := by
  subst e; exact h.1.out _ rfl

theorem stopOnly_of_snd {z : State} {p : Option State × State} {a : Option State} {b : State} (e : p = (a, b)) (h : OptStopOnly z p.1 ∧ z.StopOnly p.2) :
    z.StopOnly b := by
  subst e; exact h.2


/-- Nothing done. -/
theorem State.StopOnly.refl (s : State) : s.StopOnly s := ⟨rfl, fun _ => rfl, fun _ _ => ⟨rfl, rfl⟩, rfl, fun p => by cases p <;> rfl⟩

theorem stopOnly_misc {z s : State} (h : z.StopOnly s) : z.StopOnly s := h

theorem State.updCore_stopOnly {z s : State} (h : z.StopOnly s) (c : Nat) (f : Core → Core) : z.StopOnly (s.updCore c f) :=
  ⟨h.rest, h.die, h.bulk, h.hs, h.port⟩

theorem State.updPart_stopOnly {z s : State} (h : z.StopOnly s) (c : Nat) (f : Part → Part) : z.StopOnly (s.updPart c f) :=
  ⟨h.rest, h.die, h.bulk, h.hs, h.port⟩

theorem State.updMbx_stopOnly {z s : State} (h : z.StopOnly s) (p : PortId) (m : Nat) (f : Mbx → Mbx) : z.StopOnly (s.updMbx p m f) := by
  refine ⟨?_, fun i => ?_, fun i r => ?_, ?_, fun i => ?_⟩
  · cases p <;> exact h.rest
  · cases p <;> exact h.die i
  · cases p <;> exact h.bulk i r
  · cases p <;> exact h.hs
  · have h := h.port i
    cases p <;> cases i <;> exact h

theorem logEvent_stopOnly {z : State} (e : LogEntry) (s : State) (hC : z.StopOnly s) : z.StopOnly (logEvent e s) :=
  ⟨hC.rest, hC.die, hC.bulk, hC.hs, hC.port⟩

theorem moveNote_stopOnly {z : State} (q d unit : Nat) (j : MoveJob) (s : State) (hC : z.StopOnly s) :
    z.StopOnly (moveNote q d unit j s) := by
  unfold moveNote
  split
  · exact hC
  · exact logEvent_stopOnly _ _ hC

theorem noteMoves_stopOnly {z : State} (q c : Nat) (s : State) (hC : z.StopOnly s) : z.StopOnly (noteMoves q c s) :=
  State.updCore_stopOnly (stopOnly_foldl hC fun _ _ h => moveNote_stopOnly _ _ _ _ _ h) c _

theorem foldl_die {α : Type} {g : State → α → State} (hg : ∀ s a i, (g s a).die i = s.die i) (l : List α) (s : State) (i : Nat) :
    (l.foldl g s).die i = s.die i := by
  induction l generalizing s with
  | nil => rfl
  | cons x l ih => exact (ih _).trans (hg ..)

@[simp] theorem moveNote_die (q d unit : Nat) (j : MoveJob) (s : State) (i : Nat) : (moveNote q d unit j s).die i = s.die i := by
  unfold moveNote
  split <;> rfl

/-- What the entries of a die's bulk mover do to the dies: no more than the counts they hold are taken from its moves. -/
theorem noteBulk_die (q d : Nat) (s : State) (i : Nat) :
    (noteBulk q d s).die i = if i = d then { s.die d with
      bulk := SMap.upd Bulk.reset q (fun b => { b with moves := b.moves.map MoveJob.noted }) (s.die d).bulk } else s.die i := by
  unfold noteBulk
  split
  · rename_i h
    subst h
    simp only [State.die_updDie]
    rw [foldl_die (fun _ _ _ => moveNote_die ..)]
  · rename_i h
    rw [State.die_updDie_ne _ h, foldl_die (fun _ _ _ => moveNote_die ..)]

theorem noteBulk_stopOnly {z : State} (q d : Nat) (s : State) (hC : z.StopOnly s) : z.StopOnly (noteBulk q d s) := by
  have h : z.StopOnly ((SMap.get Bulk.reset q (s.die d).bulk).moves.foldl (fun s j => moveNote q d (0x800 + d) j s) s) :=
    stopOnly_foldl hC fun _ _ h => moveNote_stopOnly _ _ _ _ _ h
  refine ⟨h.rest, fun i => ?_, fun i r => ?_, h.hs, h.port⟩
  · rw [noteBulk_die]
    split
    · rename_i e
      subst e
      exact hC.die i
    · exact hC.die i
  · have k := hC.bulk i r
    unfold State.bulkOf at k ⊢
    rw [noteBulk_die]
    split
    · rename_i e
      subst e
      by_cases hr : r = q
      · subst hr
        simp only [SMap.get_upd]
        refine ⟨k.1, ?_⟩
        rw [List.map_map, ← k.2]
        rfl
      · simp only [SMap.get_upd_ne _ hr]
        exact k
    · exact k

theorem notify_stopOnly {z : State} (p : PortId) (kind part state status turn : Nat) (s : State) (hC : z.StopOnly s) :
    z.StopOnly (notify p kind part state status turn s) := by
  refine ⟨?_, fun i => ?_, fun i r => ?_, ?_, fun i => ?_⟩
  · cases p <;> exact hC.rest
  · cases p <;> exact hC.die i
  · cases p <;> exact hC.bulk i r
  · cases p <;> exact hC.hs
  · have h := hC.port i
    cases p <;> cases i <;> exact h

theorem notifyPart_stopOnly {z : State} (kind q : Nat) (s : State) (hC : z.StopOnly s) : z.StopOnly (notifyPart kind q s) := by
  unfold notifyPart
  repeat' first
    | with_reducible assumption
    | with_reducible apply notify_stopOnly
    | intro _ _ _
    | intro _
    | dsimp only
    | split
    | (with_reducible apply stopOnly_misc; with_reducible first | assumption | apply notify_stopOnly)

theorem finishStop_stopOnly {z : State} (q : Nat) (s : State) (hC : z.StopOnly s) : z.StopOnly (finishStop q s) := by
  unfold finishStop
  repeat' first
    | with_reducible assumption
    | with_reducible apply State.updPart_stopOnly
    | with_reducible apply State.updMbx_stopOnly
    | intro _ _ _
    | intro _
    | dsimp only
    | split
    | (with_reducible apply stopOnly_misc; with_reducible first | assumption | apply State.updPart_stopOnly | apply State.updMbx_stopOnly)

theorem flushMfaults_stopOnly {z : State} (q c : Nat) (s : State) (hC : z.StopOnly s) : z.StopOnly (flushMfaults q c s) := by
  unfold flushMfaults
  repeat' first
    | with_reducible assumption
    | with_reducible apply stopOnly_foldl
    | with_reducible apply State.updCore_stopOnly
    | with_reducible apply logEvent_stopOnly
    | intro _ _ _
    | intro _
    | dsimp only
    | split
    | (with_reducible apply stopOnly_misc; with_reducible first | assumption | apply State.updCore_stopOnly | apply logEvent_stopOnly | apply stopOnly_foldl)

theorem stopWithin_stopOnly {z : State} (q : Nat) (st : PartSt) (stat origin : Nat) (s : State) (hC : z.StopOnly s) : z.StopOnly (stopWithin q st stat origin s) := by
  unfold stopWithin
  repeat' first
    | with_reducible assumption
    | with_reducible apply stopOnly_ite
    | with_reducible apply stopOnly_foldl
    | with_reducible apply State.updCore_stopOnly
    | with_reducible apply State.updPart_stopOnly
    | with_reducible apply logEvent_stopOnly
    | with_reducible apply notifyPart_stopOnly
    | with_reducible apply finishStop_stopOnly
    | with_reducible apply flushMfaults_stopOnly
    | with_reducible apply noteMoves_stopOnly
    | with_reducible apply noteBulk_stopOnly
    | intro _ _ _
    | intro _
    | dsimp only
    | split
    | (with_reducible apply stopOnly_misc; with_reducible first | assumption | apply State.updCore_stopOnly | apply State.updPart_stopOnly | apply logEvent_stopOnly | apply notifyPart_stopOnly | apply finishStop_stopOnly | apply flushMfaults_stopOnly | apply stopOnly_foldl)

theorem faultPart_stopOnly {z : State} (q : Nat) (s : State) (hC : z.StopOnly s) : z.StopOnly (faultPart q s) := by
  unfold faultPart
  repeat' first
    | with_reducible assumption
    | with_reducible apply stopWithin_stopOnly
    | intro _ _ _
    | intro _
    | dsimp only
    | split
    | (with_reducible apply stopOnly_misc; with_reducible first | assumption | apply stopWithin_stopOnly)

theorem faultDieAbsent_stopOnly {z : State} (origin q : Nat) (s : State) (hC : z.StopOnly s) : z.StopOnly (faultDieAbsent origin q s) := by
  unfold faultDieAbsent
  repeat' first
    | with_reducible assumption
    | with_reducible apply State.updPart_stopOnly
    | with_reducible apply notifyPart_stopOnly
    | with_reducible apply stopWithin_stopOnly
    | intro _ _ _
    | intro _
    | dsimp only
    | split
    | (with_reducible apply stopOnly_misc; with_reducible first | assumption | apply State.updPart_stopOnly | apply notifyPart_stopOnly | apply stopWithin_stopOnly)

/-- A stop of a partition that is not RUNNING does nothing. -/
theorem stopWithin_idle (q : Nat) (st : PartSt) (a o : Nat) (s : State) (h : (s.part q).st ≠ .running) :
    stopWithin q st a o s = s := by
  unfold stopWithin
  rw [if_neg h]

@[simp] theorem logEvent_part (e : LogEntry) (s : State) (i : Nat) : (logEvent e s).part i = s.part i := rfl

@[simp] theorem notify_part (p : PortId) (k q st stat turn : Nat) (s : State) (i : Nat) :
    (notify p k q st stat turn s).part i = s.part i := by
  cases p <;> rfl

@[simp] theorem notifyPart_part (k q : Nat) (s : State) (i : Nat) : (notifyPart k q s).part i = s.part i := notify_part ..

theorem foldl_part {α : Type} {g : State → α → State} (hg : ∀ s a i, (g s a).part i = s.part i) (l : List α) (s : State) (i : Nat) :
    (l.foldl g s).part i = s.part i := by
  induction l generalizing s with
  | nil => rfl
  | cons x l ih => exact (ih _).trans (hg ..)

@[simp] theorem flushMfaults_part (q c : Nat) (s : State) (i : Nat) : (flushMfaults q c s).part i = s.part i := by
  unfold flushMfaults
  simp only [State.part_updCore]
  apply foldl_part
  intro _ _ _
  rfl

@[simp] theorem moveNote_part (q d unit : Nat) (j : MoveJob) (s : State) (i : Nat) : (moveNote q d unit j s).part i = s.part i := by
  unfold moveNote
  split <;> rfl

@[simp] theorem noteMoves_part (q c : Nat) (s : State) (i : Nat) : (noteMoves q c s).part i = s.part i := by
  unfold noteMoves
  simp only [State.part_updCore]
  exact foldl_part (fun _ _ _ => moveNote_part ..) ..

@[simp] theorem noteBulk_part (q d : Nat) (s : State) (i : Nat) : (noteBulk q d s).part i = s.part i := by
  unfold noteBulk
  simp only [State.part_updDie]
  exact foldl_part (fun _ _ _ => moveNote_part ..) ..

/-- What a stop does to a partition's cores and bulk moves before it changes the partition. -/
theorem stopUnits_part (q : Nat) (cs ds : List Nat) (s : State) (i : Nat) :
    (ds.foldl (fun s d => noteBulk q d s)
      (cs.foldl (fun s c => noteMoves q c (flushMfaults q c (s.updCore c Core.dropUnstarted))) s)).part i = s.part i := by
  rw [foldl_part (fun _ _ _ => noteBulk_part ..), foldl_part (fun _ _ _ => by simp)]

/-- A PART_STOP that gets its result changes no more of its partition than that it waits. -/
theorem finishStop_part (q : Nat) (s : State) (i : Nat) :
    (finishStop q s).part i = s.part i ∨ (finishStop q s).part i = { s.part i with stopReq := none } := by
  unfold finishStop
  split
  · exact .inl rfl
  · by_cases h : i = q
    · subst h
      exact .inr (by simp)
    · exact .inl (by simp [State.part_updPart_ne _ h])

theorem finishStop_part_ne {q i : Nat} (h : i ≠ q) (s : State) : (finishStop q s).part i = s.part i := by
  unfold finishStop
  split
  · rfl
  · simp [State.part_updPart_ne _ h]

theorem quiet_part (b : Bool) (k q : Nat) (z : State) (i : Nat) : (if b = true then z else notifyPart k q z).part i = z.part i := by
  split <;> simp

/-- A stop within the turn leaves every other partition alone. -/
theorem stopWithin_part_ne {q i : Nat} (h : i ≠ q) (st : PartSt) (a o : Nat) (s : State) :
    (stopWithin q st a o s).part i = s.part i := by
  unfold stopWithin
  split
  · dsimp only
    rw [quiet_part, finishStop_part_ne h, logEvent_part, State.part_updPart_ne _ h, stopUnits_part]
  · rfl

/-- A stop within the turn of a RUNNING partition that replays nothing, or whose status a replay does not change: its state, stop
status and turn (R338). -/
theorem stopWithin_part (q : Nat) (st : PartSt) (a o : Nat) (s : State) (h : (s.part q).st = .running)
    (hr : ((s.part q).replay.isSome && a != stDieAbsent && a != stRevoked) = false) :
    ((stopWithin q st a o s).part q).st = st ∧ ((stopWithin q st a o s).part q).stopStat = a ∧
    ((stopWithin q st a o s).part q).incomplete = true ∧ ((stopWithin q st a o s).part q).turn = (s.part q).turn ∧
    ((stopWithin q st a o s).part q).owner = (s.part q).owner ∧ ((stopWithin q st a o s).part q).replay = (s.part q).replay ∧
    ((stopWithin q st a o s).part q).migr = (s.part q).migr := by
  have fin : ∀ z : State, (z.part q = Part.stopped st a (s.part q)) →
      ∀ y, (y = z.part q ∨ y = { z.part q with stopReq := none }) →
      y.st = st ∧ y.stopStat = a ∧ y.incomplete = true ∧ y.turn = (s.part q).turn ∧ y.owner = (s.part q).owner ∧
        y.replay = (s.part q).replay ∧ y.migr = (s.part q).migr := by
    intro z hz y hy
    rw [hz] at hy
    rcases hy with rfl | rfl <;> exact ⟨rfl, rfl, rfl, rfl, rfl, rfl, rfl⟩
  unfold stopWithin
  rw [if_pos h]
  simp only [hr, Bool.false_eq_true, if_false]
  rw [quiet_part]
  refine fin _ ?_ _ (finishStop_part q _ q)
  simp only [logEvent_part, State.part_updPart, stopUnits_part]

/-- Health takes the value given. -/
@[simp] theorem setHealth_health (h : Health) (s : State) : (setHealth h s).hs.health = h := by
  unfold setHealth
  dsimp only
  split
  · assumption
  · rfl

@[simp] theorem setHealth_part (h : Health) (s : State) (i : Nat) : (setHealth h s).part i = s.part i := by
  unfold setHealth
  dsimp only
  split <;> rfl

theorem stopWithin_health (q : Nat) (st : PartSt) (a o : Nat) (s : State) :
    (stopWithin q st a o s).hs.health = s.hs.health := by
  have h := congrArg Headstock.health (stopWithin_stopOnly q st a o s (State.StopOnly.refl s)).hs
  exact h

/-- What a stop in turn of partitions leaves of one that is not RUNNING, or that the condition p does not pick. -/
theorem foldl_stop_idle (st : PartSt) (a o : Nat) (p : Part → Bool) (l : List Nat) (s : State) (i : Nat)
    (h : (s.part i).st ≠ .running ∨ p (s.part i) = false) :
    (l.foldl (fun s q => if p (s.part q) then stopWithin q st a o s else s) s).part i = s.part i := by
  induction l generalizing s with
  | nil => rfl
  | cons x l ih =>
    rw [List.foldl_cons]
    have hx : (if p (s.part x) then stopWithin x st a o s else s).part i = s.part i := by
      by_cases e : i = x
      · subst e
        rcases h with h | h
        · rw [stopWithin_idle _ _ _ _ _ h, ite_self]
        · rw [h]
          rfl
      · split
        · exact stopWithin_part_ne e ..
        · rfl
    rw [ih _ (by rw [hx]; exact h), hx]

/-- What it leaves of a RUNNING partition that it picks. -/
theorem foldl_stop_part (st : PartSt) (hst : st ≠ .running) (a o : Nat) (p : Part → Bool) (l : List Nat) (s : State) (i : Nat)
    (hi : i ∈ l) (hp : p (s.part i) = true) (h : (s.part i).st = .running)
    (hr : ((s.part i).replay.isSome && a != stDieAbsent && a != stRevoked) = false) :
    let y := (l.foldl (fun s q => if p (s.part q) then stopWithin q st a o s else s) s).part i
    y.st = st ∧ y.stopStat = a ∧ y.incomplete = true ∧ y.turn = (s.part i).turn ∧ y.owner = (s.part i).owner ∧
      y.replay = (s.part i).replay ∧ y.migr = (s.part i).migr := by
  induction l generalizing s with
  | nil => cases hi
  | cons x l ih =>
    rw [List.foldl_cons]
    by_cases e : i = x
    · subst e
      rw [if_pos hp]
      have k := stopWithin_part i st a o s h hr
      rw [foldl_stop_idle st a o p l _ i (.inl (by rw [k.1]; exact hst))]
      exact k
    · have hx : (if p (s.part x) then stopWithin x st a o s else s).part i = s.part i := by
        split
        · exact stopWithin_part_ne e ..
        · rfl
      have hm : i ∈ l := by
        rcases List.mem_cons.1 hi with h | h
        · exact absurd h e
        · exact h
      have k := ih (if p (s.part x) then stopWithin x st a o s else s) hm (by rw [hx]; exact hp) (by rw [hx]; exact h)
        (by rw [hx]; exact hr)
      rw [hx] at k
      exact k

/-- Entry to FAILED (R424): the health, and what becomes of each of the sixteen partitions. -/
theorem enterFailed_health (s : State) : (enterFailed s).hs.health = .failed := by
  have key : ∀ (l : List Nat) (z : State), z.hs.health = .failed →
      (l.foldl (fun s q => stopWithin q .faulted stDieAbsent 0 s) z).hs.health = .failed := by
    intro l
    induction l with
    | nil => exact fun _ h => h
    | cons x l ih => exact fun z h => ih _ ((stopWithin_health ..).trans h)
  have h := setHealth_health .failed s
  unfold enterFailed
  revert h
  generalize setHealth .failed s = z
  generalize allParts = l
  exact key l z

theorem enterFailed_part (s : State) (i : Nat) (hi : i ∈ allParts) (h : (s.part i).st = .running) :
    ((enterFailed s).part i).st = .faulted ∧ ((enterFailed s).part i).stopStat = stDieAbsent ∧
    ((enterFailed s).part i).turn = (s.part i).turn := by
  have k := foldl_stop_part .faulted (by decide) stDieAbsent 0 (fun _ => true) allParts (setHealth .failed s) i hi rfl
    (by rw [setHealth_part]; exact h) (by simp)
  simp only [if_true] at k
  unfold enterFailed
  rw [setHealth_part] at k
  exact ⟨k.1, k.2.1, k.2.2.2.1⟩

theorem enterFailed_idle (s : State) (i : Nat) (h : (s.part i).st ≠ .running) : (enterFailed s).part i = s.part i := by
  have k := foldl_stop_idle .faulted stDieAbsent 0 (fun _ => true) allParts (setHealth .failed s) i
    (.inl (by rw [setHealth_part]; exact h))
  simp only [if_true] at k
  unfold enterFailed
  rw [k, setHealth_part]

end Sys2Proof.Machine
end

