-- ==== Sys2Proof/Laws/PerInstr.lean ====
section
/-! SUPPORT. Per-command statements about the commands as syntax: the opcode table gives no row any bits, so no word spells a
command. -/

namespace Sys2Proof.Laws

/-- No word of any length spells the command. -/
def Uniform.Statement (i : Instr) : Prop := ∀ n w : Nat, decodeTableWord n w ≠ some i

theorem Uniform.all (i : Instr) : Uniform.Statement i := fun _ _ h => nomatch h

theorem Uniform.powerGood (boot : BootEnv) : Uniform.Statement (.powerGood boot) := Uniform.all _
theorem Uniform.powerGoodWithdrawn (vin10mV : Nat) : Uniform.Statement (.powerGoodWithdrawn vin10mV) := Uniform.all _
theorem Uniform.modResetAssert : Uniform.Statement (.modResetAssert) := Uniform.all _
theorem Uniform.modResetDeassert (boot : BootEnv) : Uniform.Statement (.modResetDeassert boot) := Uniform.all _
theorem Uniform.pcieLinkUp (p : PortId) : Uniform.Statement (.pcieLinkUp p) := Uniform.all _
theorem Uniform.perstAssert (p : PortId) : Uniform.Statement (.perstAssert p) := Uniform.all _
theorem Uniform.perstDeassert (p : PortId) : Uniform.Statement (.perstDeassert p) := Uniform.all _
theorem Uniform.functionLevelReset (p : PortId) : Uniform.Statement (.functionLevelReset p) := Uniform.all _
theorem Uniform.pcieLinkDown (p : PortId) : Uniform.Statement (.pcieLinkDown p) := Uniform.all _
theorem Uniform.d3hotEntry (p : PortId) : Uniform.Statement (.d3hotEntry p) := Uniform.all _
theorem Uniform.trstNAssert : Uniform.Statement (.trstNAssert) := Uniform.all _
theorem Uniform.jtagBreak (c : CoreId) : Uniform.Statement (.jtagBreak c) := Uniform.all _
theorem Uniform.lossOfLock (clk : ClockRef) : Uniform.Statement (.lossOfLock clk) := Uniform.all _
theorem Uniform.powerSample (watts : Nat) (vin10mV : Nat) : Uniform.Statement (.powerSample watts vin10mV) := Uniform.all _
theorem Uniform.junctionSample (d : DieId) (celsius : Int) : Uniform.Statement (.junctionSample d celsius) := Uniform.all _
theorem Uniform.railSwitchOff : Uniform.Statement (.railSwitchOff) := Uniform.all _
theorem Uniform.bundleIssue (c : CoreId) (env : Env) : Uniform.Statement (.bundleIssue c env) := Uniform.all _
theorem Uniform.vectorLoadFaultPoint (c : CoreId) (env : Env) : Uniform.Statement (.vectorLoadFaultPoint c env) := Uniform.all _
theorem Uniform.ownActionDelivery (c : CoreId) : Uniform.Statement (.ownActionDelivery c) := Uniform.all _
theorem Uniform.windowOverrun (c : CoreId) : Uniform.Statement (.windowOverrun c) := Uniform.all _
theorem Uniform.haltNotice (c : CoreId) : Uniform.Statement (.haltNotice c) := Uniform.all _
theorem Uniform.patrolScrub (c : CoreId) (env : Env) : Uniform.Statement (.patrolScrub c env) := Uniform.all _
theorem Uniform.turnDone (q : PartId) (u : UnitRef) : Uniform.Statement (.turnDone q u) := Uniform.all _
theorem Uniform.spurBroadcast (b : SpurFrom) : Uniform.Statement (.spurBroadcast b) := Uniform.all _
theorem Uniform.spurReceipt (q : PartId) (u : UnitRef) (turn : Nat) : Uniform.Statement (.spurReceipt q u turn) := Uniform.all _
theorem Uniform.armFire (q : PartId) (u : UnitRef) (env : Env) : Uniform.Statement (.armFire q u env) := Uniform.all _
theorem Uniform.quiescentPointStop (q : PartId) : Uniform.Statement (.quiescentPointStop q) := Uniform.all _
theorem Uniform.partStopTimeout (q : PartId) : Uniform.Statement (.partStopTimeout q) := Uniform.all _
theorem Uniform.tensorStreamComplete (c : CoreId) (env : Env) : Uniform.Statement (.tensorStreamComplete c env) := Uniform.all _
theorem Uniform.passStart (c : CoreId) (env : Env) : Uniform.Statement (.passStart c env) := Uniform.all _
theorem Uniform.passRetire (c : CoreId) (env : Env) : Uniform.Statement (.passRetire c env) := Uniform.all _
theorem Uniform.passAbort (c : CoreId) (env : Env) : Uniform.Statement (.passAbort c env) := Uniform.all _
theorem Uniform.drainFrontStart (c : CoreId) (env : Env) : Uniform.Statement (.drainFrontStart c env) := Uniform.all _
theorem Uniform.drainRowVisit (c : CoreId) (env : Env) : Uniform.Statement (.drainRowVisit c env) := Uniform.all _
theorem Uniform.drainComplete (c : CoreId) : Uniform.Statement (.drainComplete c) := Uniform.all _
theorem Uniform.monitorCounts (q : PartId) : Uniform.Statement (.monitorCounts q) := Uniform.all _
theorem Uniform.numericsLogWrite (q : PartId) : Uniform.Statement (.numericsLogWrite q) := Uniform.all _
theorem Uniform.moveStart (m : MoverRef) (q : PartId) (env : Env) : Uniform.Statement (.moveStart m q env) := Uniform.all _
theorem Uniform.multicastSourceLine (d : DieId) (q : PartId) (env : Env) : Uniform.Statement (.multicastSourceLine d q env) := Uniform.all _
theorem Uniform.moveComplete (m : MoverRef) (q : PartId) (env : Env) : Uniform.Statement (.moveComplete m q env) := Uniform.all _
theorem Uniform.notifyIncrement (q : PartId) : Uniform.Statement (.notifyIncrement q) := Uniform.all _
theorem Uniform.messageAccept (m : MsgStep) (env : Env) : Uniform.Statement (.messageAccept m env) := Uniform.all _
theorem Uniform.farCacheFill (c : CoreId) (reg : Fin 8) (env : Env) : Uniform.Statement (.farCacheFill c reg env) := Uniform.all _
theorem Uniform.bedStoreAccess (b : BedId) (env : Env) : Uniform.Statement (.bedStoreAccess b env) := Uniform.all _
theorem Uniform.sweepVisit (b : BedId) : Uniform.Statement (.sweepVisit b) := Uniform.all _
theorem Uniform.bedCacheFill (b : BedId) : Uniform.Statement (.bedCacheFill b) := Uniform.all _
theorem Uniform.regulatorRelease (s : StackId) (q : PartId) : Uniform.Statement (.regulatorRelease s q) := Uniform.all _
theorem Uniform.hbmQueueEntry (s : StackId) (pc : Fin 64) : Uniform.Statement (.hbmQueueEntry s pc) := Uniform.all _
theorem Uniform.hbmServe (s : StackId) (pc : Fin 64) (idx : Nat) (env : Env) : Uniform.Statement (.hbmServe s pc idx env) := Uniform.all _
theorem Uniform.remapLineCopy (s : StackId) (env : Env) : Uniform.Statement (.remapLineCopy s env) := Uniform.all _
theorem Uniform.remapFlip (s : StackId) : Uniform.Statement (.remapFlip s) := Uniform.all _
theorem Uniform.remapPersist (s : StackId) : Uniform.Statement (.remapPersist s) := Uniform.all _
theorem Uniform.hbmPatrolScrub (s : StackId) (env : Env) : Uniform.Statement (.hbmPatrolScrub s env) := Uniform.all _
theorem Uniform.hbmTempSample (s : StackId) (quarterC : Int) : Uniform.Statement (.hbmTempSample s quarterC) := Uniform.all _
theorem Uniform.tlbWalk (t : TlbUser) (q : PartId) (va : Nat) (write : Bool) (env : Env) : Uniform.Statement (.tlbWalk t q va write env) := Uniform.all _
theorem Uniform.faultQueueEnter (d : DieId) (engine : Fin 109) : Uniform.Statement (.faultQueueEnter d engine) := Uniform.all _
theorem Uniform.fqResumeRetry (d : DieId) (entry : Fin 256) : Uniform.Statement (.fqResumeRetry d entry) := Uniform.all _
theorem Uniform.fqResumeAbort (d : DieId) (entry : Fin 256) : Uniform.Statement (.fqResumeAbort d entry) := Uniform.all _
theorem Uniform.accessCounterDecay (d : DieId) : Uniform.Statement (.accessCounterDecay d) := Uniform.all _
theorem Uniform.hpqHeadRead (d : DieId) : Uniform.Statement (.hpqHeadRead d) := Uniform.all _
theorem Uniform.hpqStatusRead (d : DieId) : Uniform.Statement (.hpqStatusRead d) := Uniform.all _
theorem Uniform.hotPageRingWrite (p : PortId) : Uniform.Statement (.hotPageRingWrite p) := Uniform.all _
theorem Uniform.migrationCopyComplete (q : PartId) (reply : HostReply) : Uniform.Statement (.migrationCopyComplete q reply) := Uniform.all _
theorem Uniform.hostWindowReadFail (q : PartId) (u : UnitRef) (f : HostFail) : Uniform.Statement (.hostWindowReadFail q u f) := Uniform.all _
theorem Uniform.boundOverrun (q : PartId) (u : UnitRef) : Uniform.Statement (.boundOverrun q u) := Uniform.all _
theorem Uniform.degradationReadmission : Uniform.Statement (.degradationReadmission) := Uniform.all _
theorem Uniform.routeChangeComplete (hops : List (PartId × Nat)) : Uniform.Statement (.routeChangeComplete hops) := Uniform.all _
theorem Uniform.streamDoorbell (p : PortId) (q : PartId) (stream : Fin 64) (value : Word) : Uniform.Statement (.streamDoorbell p q stream value) := Uniform.all _
theorem Uniform.frameFetch (q : PartId) (stream : Fin 64) (entry : HostReply) : Uniform.Statement (.frameFetch q stream entry) := Uniform.all _
theorem Uniform.frameFetchComplete (q : PartId) (stream : Fin 64) (frame : HostReply) (env : Env) : Uniform.Statement (.frameFetchComplete q stream frame env) := Uniform.all _
theorem Uniform.postCompletion (q : PartId) (entry : HostReply) : Uniform.Statement (.postCompletion q entry) := Uniform.all _
theorem Uniform.noticeRingWrite (p : PortId) : Uniform.Statement (.noticeRingWrite p) := Uniform.all _
theorem Uniform.ntcBaseWrite (p : PortId) (value : Word) : Uniform.Statement (.ntcBaseWrite p value) := Uniform.all _
theorem Uniform.hprBaseWrite (p : PortId) (value : Word) : Uniform.Statement (.hprBaseWrite p value) := Uniform.all _
theorem Uniform.errCntRead (r : CntRead) : Uniform.Statement (.errCntRead r) := Uniform.all _
theorem Uniform.errCnt2Read (r : CntRead) : Uniform.Statement (.errCnt2Read r) := Uniform.all _
theorem Uniform.mbxRefusedRead (p : PortId) (m : MbxId) : Uniform.Statement (.mbxRefusedRead p m) := Uniform.all _
theorem Uniform.hmbRefusedRead (p : PortId) : Uniform.Statement (.hmbRefusedRead p) := Uniform.all _
theorem Uniform.registerWrite (sp : RegSpace) (offset : Nat) (data : List Byte) : Uniform.Statement (.registerWrite sp offset data) := Uniform.all _
theorem Uniform.bar2Read (p : PortId) (offset : Nat) (len : Nat) (env : Env) : Uniform.Statement (.bar2Read p offset len env) := Uniform.all _
theorem Uniform.bar2Write (p : PortId) (offset : Nat) (data : List Byte) : Uniform.Statement (.bar2Write p offset data) := Uniform.all _
theorem Uniform.mbxCommandComplete (p : PortId) (m : MbxId) : Uniform.Statement (.mbxCommandComplete p m) := Uniform.all _
theorem Uniform.identify (p : PortId) (m : MbxId) : Uniform.Statement (.identify p m) := Uniform.all _
theorem Uniform.getHealth (p : PortId) (m : MbxId) : Uniform.Statement (.getHealth p m) := Uniform.all _
theorem Uniform.setEpoch (p : PortId) (m : MbxId) : Uniform.Statement (.setEpoch p m) := Uniform.all _
theorem Uniform.partCreate (p : PortId) (m : MbxId) : Uniform.Statement (.partCreate p m) := Uniform.all _
theorem Uniform.partDestroy (p : PortId) (m : MbxId) : Uniform.Statement (.partDestroy p m) := Uniform.all _
theorem Uniform.partStop (p : PortId) (m : MbxId) : Uniform.Statement (.partStop p m) := Uniform.all _
theorem Uniform.partStart (p : PortId) (m : MbxId) (span : List SpanAnswer) : Uniform.Statement (.partStart p m span) := Uniform.all _
theorem Uniform.partReconfigure (p : PortId) (m : MbxId) : Uniform.Statement (.partReconfigure p m) := Uniform.all _
theorem Uniform.partQuery (p : PortId) (m : MbxId) : Uniform.Statement (.partQuery p m) := Uniform.all _
theorem Uniform.seedSet (p : PortId) (m : MbxId) : Uniform.Statement (.seedSet p m) := Uniform.all _
theorem Uniform.imageLoad (p : PortId) (m : MbxId) (image : ImageReply) : Uniform.Statement (.imageLoad p m image) := Uniform.all _
theorem Uniform.memMap (p : PortId) (m : MbxId) : Uniform.Statement (.memMap p m) := Uniform.all _
theorem Uniform.memMapMigrate (p : PortId) (m : MbxId) : Uniform.Statement (.memMapMigrate p m) := Uniform.all _
theorem Uniform.memUnmap (p : PortId) (m : MbxId) : Uniform.Statement (.memUnmap p m) := Uniform.all _
theorem Uniform.windowOpen (p : PortId) (m : MbxId) : Uniform.Statement (.windowOpen p m) := Uniform.all _
theorem Uniform.windowClose (p : PortId) (m : MbxId) : Uniform.Statement (.windowClose p m) := Uniform.all _
theorem Uniform.streamOpen (p : PortId) (m : MbxId) : Uniform.Statement (.streamOpen p m) := Uniform.all _
theorem Uniform.streamClose (p : PortId) (m : MbxId) : Uniform.Statement (.streamClose p m) := Uniform.all _
theorem Uniform.recordConfig (p : PortId) (m : MbxId) : Uniform.Statement (.recordConfig p m) := Uniform.all _
theorem Uniform.replayRun (p : PortId) (m : MbxId) : Uniform.Statement (.replayRun p m) := Uniform.all _
theorem Uniform.faultLogRead (p : PortId) (m : MbxId) : Uniform.Statement (.faultLogRead p m) := Uniform.all _
theorem Uniform.repairStatus (p : PortId) (m : MbxId) : Uniform.Statement (.repairStatus p m) := Uniform.all _
theorem Uniform.repairCommit (p : PortId) (m : MbxId) : Uniform.Statement (.repairCommit p m) := Uniform.all _
theorem Uniform.fwUpdate (p : PortId) (m : MbxId) (image : HostReply) : Uniform.Statement (.fwUpdate p m image) := Uniform.all _
theorem Uniform.attestQuote (p : PortId) (m : MbxId) : Uniform.Statement (.attestQuote p m) := Uniform.all _
theorem Uniform.lanePlanSet (p : PortId) (m : MbxId) : Uniform.Statement (.lanePlanSet p m) := Uniform.all _
theorem Uniform.linkQuery (p : PortId) (m : MbxId) : Uniform.Statement (.linkQuery p m) := Uniform.all _
theorem Uniform.diagRescueRead (p : PortId) (m : MbxId) : Uniform.Statement (.diagRescueRead p m) := Uniform.all _
theorem Uniform.diagCoreStoreRead (p : PortId) (m : MbxId) : Uniform.Statement (.diagCoreStoreRead p m) := Uniform.all _
theorem Uniform.diagStampRead (p : PortId) (m : MbxId) : Uniform.Statement (.diagStampRead p m) := Uniform.all _
theorem Uniform.diagRegisterRead (p : PortId) (m : MbxId) : Uniform.Statement (.diagRegisterRead p m) := Uniform.all _
theorem Uniform.diagDebugBreak (p : PortId) (m : MbxId) : Uniform.Statement (.diagDebugBreak p m) := Uniform.all _
theorem Uniform.hmStatus (p : PortId) : Uniform.Statement (.hmStatus p) := Uniform.all _
theorem Uniform.hmLog (p : PortId) : Uniform.Statement (.hmLog p) := Uniform.all _
theorem Uniform.hmDieReset (p : PortId) : Uniform.Statement (.hmDieReset p) := Uniform.all _
theorem Uniform.hmFwRestart (p : PortId) : Uniform.Statement (.hmFwRestart p) := Uniform.all _
theorem Uniform.hmPortQuiesce (p : PortId) : Uniform.Statement (.hmPortQuiesce p) := Uniform.all _
theorem Uniform.hmSnapshot (p : PortId) : Uniform.Statement (.hmSnapshot p) := Uniform.all _
theorem Uniform.hmbComplete (p : PortId) : Uniform.Statement (.hmbComplete p) := Uniform.all _
theorem Uniform.dieBistComplete (d : DieId) (bist : List BistFail) : Uniform.Statement (.dieBistComplete d bist) := Uniform.all _
theorem Uniform.chatterWindowStart (d : ChatDie) : Uniform.Statement (.chatterWindowStart d) := Uniform.all _
theorem Uniform.laneSpareSwap (l : LaneRef) : Uniform.Statement (.laneSpareSwap l) := Uniform.all _
theorem Uniform.flitCrcRetry (b : BundleId) (lane : Fin 18) (dead : Bool) : Uniform.Statement (.flitCrcRetry b lane dead) := Uniform.all _
theorem Uniform.fecCodeword (l : LinkId) (lane : Fin 5) (corrected : Bool) (cut : List PartId) : Uniform.Statement (.fecCodeword l lane corrected cut) := Uniform.all _
theorem Uniform.scaleoutLinkTrain (l : LinkId) (peer : LinkPeer) : Uniform.Statement (.scaleoutLinkTrain l peer) := Uniform.all _
theorem Uniform.scaleoutLinkDown (l : LinkId) (cut : List PartId) : Uniform.Statement (.scaleoutLinkDown l cut) := Uniform.all _
theorem Uniform.turnEndItem (q : PartId) : Uniform.Statement (.turnEndItem q) := Uniform.all _
theorem Uniform.i3cOffsetWrite (offset : Byte) : Uniform.Statement (.i3cOffsetWrite offset) := Uniform.all _
theorem Uniform.setdasa (addr : Fin 128) : Uniform.Statement (.setdasa addr) := Uniform.all _
theorem Uniform.getVersion (p : PortId) : Uniform.Statement (.getVersion p) := Uniform.all _
theorem Uniform.getCapabilities (p : PortId) : Uniform.Statement (.getCapabilities p) := Uniform.all _
theorem Uniform.negotiateAlgorithms (p : PortId) (asymOk : Bool) (hashOk : Bool) : Uniform.Statement (.negotiateAlgorithms p asymOk hashOk) := Uniform.all _
theorem Uniform.getDigests (p : PortId) : Uniform.Statement (.getDigests p) := Uniform.all _
theorem Uniform.getCertificate (p : PortId) (slot : Nat) (offset : Nat) (len : Nat) : Uniform.Statement (.getCertificate p slot offset len) := Uniform.all _
theorem Uniform.challenge (p : PortId) (slot : Nat) (nonce : List Byte) : Uniform.Statement (.challenge p slot nonce) := Uniform.all _
theorem Uniform.getMeasurements (p : PortId) (index : Nat) (sign : Bool) (nonce : List Byte) : Uniform.Statement (.getMeasurements p index sign nonce) := Uniform.all _
theorem Uniform.mbxDoorbellRefused (p : PortId) (m : MbxId) : Uniform.Statement (.mbxDoorbellRefused p m) := Uniform.all _
theorem Uniform.hmbCmdRefused (p : PortId) (value : Word) : Uniform.Statement (.hmbCmdRefused p value) := Uniform.all _
theorem Uniform.controlCoreBoot : Uniform.Statement (.controlCoreBoot) := Uniform.all _
theorem Uniform.computeDieReset (d : DieId) : Uniform.Statement (.computeDieReset d) := Uniform.all _

end Sys2Proof.Laws
end

