-- ==== Sys2Proof/WellFormed.lean ====
section
/-! DEFINITION. Well-formed commands: operands within the ranges the manual gives what they name. Every command has its
meaning whether or not it is well formed; these checks say which commands the module can meet. -/

namespace Sys2Proof

/-- An upset names memory that exists (R68, R90, R284, R286, R288, R301, R379). -/
def Upset.wf : Upset → Bool
  | .coreWord _ w _ _ => decide (w < 524288)
  | .syllable _ i _ => decide (i < 262144)
  | .farCacheLine _ l => decide (l < 2048)
  | .bedWord _ w _ => decide (w < 2 ^ 30 / 8)
  | .stamp _ l _ => decide (l < 2 ^ 24)
  | .hbmWord a _ => decide (a < 2 ^ 46) && a % 4 == 0
  | .spareWord _ n w _ => decide (n < 1024) && decide (w < 256)
  | .vectorFile _ n _ => decide (n < 4352)
  | .control _ => true | .coreTlb _ => true | .dieTlb _ => true | .headstockTlb => true
  | .tile _ _ => true | .pageEntry _ _ _ => true | .messagePayload _ => true | .headstockSram _ _ => true

/-- A host answers with bytes for lines it holds: at most 64 bytes under one key (R484). -/
def Env.wf (e : Env) : Bool :=
  e.upsets.all Upset.wf && e.host.all fun r =>
    match r.2 with
    | .data bs => decide (bs.length ≤ 64)
    | .fail _ => true

/-- A built-in self-test names resources that exist (R313, R285). -/
def BistFail.wf : BistFail → Bool
  | .tlbWay _ w => decide (w < 16)
  | .granule _ g => decide (g < 1024)
  | .core _ k => decide (1 ≤ k) && decide (k ≤ 5)
  | .arrayRow _ _ => true | .bedDie _ => true | .stack _ => true | .fabric => true

/-- A power-up names lanes that exist (R441). -/
def BootEnv.wf (b : BootEnv) : Bool := b.bist.all BistFail.wf && b.laneFails.all fun e => decide (e.2 < 18)

/-- The well-formed commands. -/
def Instr.wf : Instr → Bool
  | .powerGood b => b.wf
  | .powerGoodWithdrawn _ => true
  | .modResetAssert => true
  | .modResetDeassert b => b.wf
  | .pcieLinkUp _ => true
  | .perstAssert _ => true
  | .perstDeassert _ => true
  | .functionLevelReset _ => true
  | .pcieLinkDown _ => true
  | .d3hotEntry _ => true
  | .trstNAssert => true
  | .jtagBreak _ => true
  | .lossOfLock _ => true
  | .powerSample _ _ => true
  | .junctionSample _ _ => true
  | .railSwitchOff => true
  | .bundleIssue _ e => e.wf
  | .vectorLoadFaultPoint _ e => e.wf
  | .ownActionDelivery _ => true
  | .windowOverrun _ => true
  | .haltNotice _ => true
  | .patrolScrub _ e => e.wf
  | .turnDone _ _ => true
  | .spurBroadcast _ => true
  | .spurReceipt _ _ _ => true
  | .armFire _ _ e => e.wf
  | .quiescentPointStop _ => true
  | .partStopTimeout _ => true
  | .tensorStreamComplete _ e => e.wf
  | .passStart _ e => e.wf
  | .passRetire _ e => e.wf
  | .passAbort _ e => e.wf
  | .drainFrontStart _ e => e.wf
  | .drainRowVisit _ e => e.wf
  | .drainComplete _ => true
  | .monitorCounts _ => true
  | .numericsLogWrite _ => true
  | .moveStart _ _ e => e.wf
  | .multicastSourceLine _ _ e => e.wf
  | .moveComplete _ _ e => e.wf
  | .notifyIncrement _ => true
  | .messageAccept _ e => e.wf
  | .farCacheFill _ _ e => e.wf
  | .bedStoreAccess _ e => e.wf
  | .sweepVisit _ => true
  | .bedCacheFill _ => true
  | .regulatorRelease _ _ => true
  | .hbmQueueEntry _ _ => true
  | .hbmServe _ _ i e => decide (i < 64) && e.wf
  | .remapLineCopy _ e => e.wf
  | .remapFlip _ => true
  | .remapPersist _ => true
  | .hbmPatrolScrub _ e => e.wf
  | .hbmTempSample _ _ => true
  | .tlbWalk _ _ va _ e => decide (va < 2 ^ 48) && e.wf
  | .faultQueueEnter _ _ => true
  | .fqResumeRetry _ _ => true
  | .fqResumeAbort _ _ => true
  | .accessCounterDecay _ => true
  | .hpqHeadRead _ => true
  | .hpqStatusRead _ => true
  | .hotPageRingWrite _ => true
  | .migrationCopyComplete _ _ => true
  | .hostWindowReadFail _ _ _ => true
  | .boundOverrun _ _ => true
  | .degradationReadmission => true
  | .routeChangeComplete _ => true
  | .streamDoorbell _ _ _ _ => true
  | .frameFetch _ _ _ => true
  | .frameFetchComplete _ _ _ e => e.wf
  | .postCompletion _ _ => true
  | .noticeRingWrite _ => true
  | .ntcBaseWrite _ _ => true
  | .hprBaseWrite _ _ => true
  | .errCntRead _ => true
  | .errCnt2Read _ => true
  | .mbxRefusedRead _ _ => true
  | .hmbRefusedRead _ => true
  | .registerWrite _ o d => decide (o < 65536) && decide (0 < d.length)
  | .bar2Read _ o n e => decide (o < 2 ^ 36) && decide (0 < n) && e.wf
  | .bar2Write _ o d => decide (o < 2 ^ 36) && decide (0 < d.length)
  | .mbxCommandComplete _ _ => true
  | .identify _ _ => true
  | .getHealth _ _ => true
  | .setEpoch _ _ => true
  | .partCreate _ _ => true
  | .partDestroy _ _ => true
  | .partStop _ _ => true
  | .partStart _ _ _ => true
  | .partReconfigure _ _ => true
  | .partQuery _ _ => true
  | .seedSet _ _ => true
  | .imageLoad _ _ _ => true
  | .memMap _ _ => true
  | .memMapMigrate _ _ => true
  | .memUnmap _ _ => true
  | .windowOpen _ _ => true
  | .windowClose _ _ => true
  | .streamOpen _ _ => true
  | .streamClose _ _ => true
  | .recordConfig _ _ => true
  | .replayRun _ _ => true
  | .faultLogRead _ _ => true
  | .repairStatus _ _ => true
  | .repairCommit _ _ => true
  | .fwUpdate _ _ _ => true
  | .attestQuote _ _ => true
  | .lanePlanSet _ _ => true
  | .linkQuery _ _ => true
  | .diagRescueRead _ _ => true
  | .diagCoreStoreRead _ _ => true
  | .diagStampRead _ _ => true
  | .diagRegisterRead _ _ => true
  | .diagDebugBreak _ _ => true
  | .hmStatus _ => true
  | .hmLog _ => true
  | .hmDieReset _ => true
  | .hmFwRestart _ => true
  | .hmPortQuiesce _ => true
  | .hmSnapshot _ => true
  | .hmbComplete _ => true
  | .dieBistComplete _ b => b.all BistFail.wf
  | .chatterWindowStart _ => true
  | .laneSpareSwap _ => true
  | .flitCrcRetry _ _ _ => true
  | .fecCodeword _ _ _ _ => true
  | .scaleoutLinkTrain _ p => decide (p.link < 36)
  | .scaleoutLinkDown _ _ => true
  | .turnEndItem _ => true
  | .i3cOffsetWrite _ => true
  | .setdasa _ => true
  | .getVersion _ => true
  | .getCapabilities _ => true
  | .negotiateAlgorithms _ _ _ => true
  | .getDigests _ => true
  | .getCertificate _ _ o n => decide (o < 65536) && decide (n < 65536)
  | .challenge _ _ n => decide (n.length = 32)
  | .getMeasurements _ _ _ n => decide (n.length = 32)
  | .mbxDoorbellRefused _ _ => true
  | .hmbCmdRefused _ _ => true
  | .controlCoreBoot => true
  | .computeDieReset _ => true

end Sys2Proof
end

