-- ==== Sys2Proof/Tests/Slice0.lean ====
section
/-! SUPPORT. Tests: an ill-formed command for each check of WellFormed, and, for every obligation with hypotheses, a concrete
state and operands that meet them, clause by clause, most of them with what the command then does there. Expected values
come from the rules of spec/ that the obligation names. -/

namespace Sys2Proof.Tests

set_option Elab.async false

open Sys2Proof Sys2Proof.Machine

/-- The state after a command that goes on. -/
def after (o : Host.Outcome State Fault Refusal) : State :=
  match o with
  | .next t => t
  | .fault _ => State.reset
  | .refused _ => State.reset

/-- The state after a command. -/
def run (i : Instr) (s : State) : State := after (exec i s)

/-- A module that runs: die 0, bed die 0, stack 0 and both links up. -/
def up : State :=
  { State.reset with
    power := { Power.reset with modReset := false }
    hs := { Headstock.reset with health := .ready, fwRun := true, bootDone := true, keyReady := true, fw := Flash.shipped.slotA }
    portA := { Port.reset with linkUp := true }
    portB := { Port.reset with linkUp := true }
    dies := [(0, { Die.reset with up := true })]
    beds := [(0, { Bed.reset with up := true })]
    hbms := [(0, { Stack.reset with up := true })] }

/-- A turn unit in turn 1. -/
def tu1 : TurnUnit := { TurnUnit.reset with turn := 1 }

/-- Physical core 0 as logical core 0 of partition 0 in turn 1. -/
def core0 : Core := { Core.reset with part := some 0, twait := false, tu := tu1, mtu := tu1, dtu := tu1 }

/-- Partition 0 RUNNING turn 1 on that core. -/
def part0 : Part := { Part.reset with st := .running, turn := 1, place := [(0, 0)], nd := true }

/-- The module with a core 0 and a partition 0. -/
def at0 (x : Core) (p : Part) : State := { up with cores := [(0, x)], parts := [(0, p)] }

/-! ## Well-formed commands: a term that each check refuses -/

theorem test_wf_env_core_word : Instr.wf (.bundleIssue 0 ⟨[.coreWord 0 524288 .low .single], []⟩) = false := by decide
theorem test_wf_env_syllable : Instr.wf (.vectorLoadFaultPoint 0 ⟨[.syllable 0 262144 .single], []⟩) = false := by decide
theorem test_wf_env_far_line : Instr.wf (.patrolScrub 0 ⟨[.farCacheLine 0 2048], []⟩) = false := by decide
theorem test_wf_env_bed_word : Instr.wf (.bedStoreAccess 0 ⟨[.bedWord 0 134217728 .single], []⟩) = false := by decide
theorem test_wf_env_stamp : Instr.wf (.bedStoreAccess 0 ⟨[.stamp 0 16777216 .single], []⟩) = false := by decide
theorem test_wf_env_hbm : Instr.wf (.hbmServe 0 0 0 ⟨[.hbmWord 2 .single], []⟩) = false := by decide
theorem test_wf_env_spare : Instr.wf (.remapLineCopy 0 ⟨[.spareWord 0 1024 0 .single], []⟩) = false := by decide
theorem test_wf_env_host : Instr.wf (.passRetire 0 ⟨[], [(0, .data (List.replicate 65 0))]⟩) = false := by decide
theorem test_wf_boot_bist : Instr.wf (.powerGood ⟨0, [], [.tlbWay .headstock 16], [], [], []⟩) = false := by decide
theorem test_wf_boot_granule : Instr.wf (.modResetDeassert ⟨0, [], [.granule 0 1024], [], [], []⟩) = false := by decide
theorem test_wf_boot_lane : Instr.wf (.powerGood ⟨0, [], [], [(0, 18)], [], []⟩) = false := by decide
theorem test_wf_bist_core : Instr.wf (.dieBistComplete 0 [.core 0 6]) = false := by decide
theorem test_wf_queue_place : Instr.wf (.hbmServe 0 0 64 Env.quiet) = false := by decide
theorem test_wf_walk_address : Instr.wf (.tlbWalk .headstock 0 (2 ^ 48) false Env.quiet) = false := by decide
theorem test_wf_register_offset : Instr.wf (.registerWrite .chat 65536 [0]) = false := by decide
theorem test_wf_register_data : Instr.wf (.registerWrite .chat 8 []) = false := by decide
theorem test_wf_bar2_read : Instr.wf (.bar2Read .a (2 ^ 36) 1 Env.quiet) = false := by decide
theorem test_wf_bar2_read_empty : Instr.wf (.bar2Read .a 0 0 Env.quiet) = false := by decide
theorem test_wf_bar2_write : Instr.wf (.bar2Write .a 0 []) = false := by decide
theorem test_wf_link_peer : Instr.wf (.scaleoutLinkTrain 0 ⟨0, 36, 1⟩) = false := by decide
theorem test_wf_certificate : Instr.wf (.getCertificate .a 0 65536 0) = false := by decide
theorem test_wf_challenge : Instr.wf (.challenge .a 0 []) = false := by decide
theorem test_wf_measurements : Instr.wf (.getMeasurements .a 1 true []) = false := by decide
theorem test_wf_accepts : Instr.wf (.bar2Read .a (2 ^ 36 - 1) 1 Env.quiet) = true := by decide

/-! ## Steps, resets and power -/

theorem witness_tick : up.pending = [] ∧ up.running = true ∧ (up.die 0).up = true ∧ (up.bed 0).up = true ∧
    step up = .next (tick up) := ⟨rfl, rfl, rfl, rfl, rfl⟩

theorem witness_tick_stands : State.reset.pending = [] ∧ State.reset.running = false := ⟨rfl, rfl⟩

theorem witness_canon : State.Canon up :=
  ⟨by decide, by decide, by decide, by decide, by decide, by decide, by decide, by decide, by decide⟩

theorem test_tick_counts : (tick up).hs.refcyc = 1 ∧ ((tick up).die 0).refcyc = 1 ∧ ((tick up).bed 0).refcyc = 1 := by decide +kernel

/-- A module that has failed and tripped. -/
def failed : State :=
  { up with hs := { up.hs with health := .failed }, power := { up.power with trip := true, tripCause := 1 } }

theorem witness_failed_stays : failed.hs.health = .failed ∧ failed.power.trip = true ∧
    (run .railSwitchOff failed).hs.health = .failed ∧ (run .railSwitchOff failed).power.rails = false := by decide +kernel

theorem witness_queue : step { up with pending := [.trstNAssert, .modResetAssert] } =
    .next (run .trstNAssert { up with pending := [.modResetAssert] }) := rfl

theorem witness_mod_reset : up.running = true ∧ State.reset.running = false ∧ (run .modResetAssert up).hs.health = .initializing ∧
    (run .modResetAssert up).power.modReset = true := by decide +kernel

theorem witness_power_lost : up.power.good = true ∧ (3699 : Nat) < 3700 ∧ 6200 < (6201 : Nat) ∧
    (run (.powerGoodWithdrawn 3699) up).power.good = false ∧ (run (.powerGoodWithdrawn 6201) up).power.good = false ∧
    (run (.powerGoodWithdrawn 3700) up).power.good = true ∧ (run (.powerGoodWithdrawn 6200) up).power.good = true := by decide +kernel

/-- A power-up with the boot select open (slot A first), with the 16 set identifiers equal. -/
def boot : BootEnv := ⟨0, List.replicate 16 7, [], [], [], []⟩

/-- No power. -/
def off : State := { State.reset with power := { Power.reset with good := false, modReset := false, rails := false } }

theorem witness_power_up : off.power.good = false ∧ off.power.modReset = false ∧ boot.bootSel.val ≠ 3 ∧
    bootSlot boot.bootSel (applyFloor off.flash) = some 0 := by decide +kernel

theorem witness_power_up_reserved : off.power.good = false ∧ off.power.modReset = false ∧
    (run (.powerGood { boot with bootSel := 3 }) off).hs.health = .failed := by decide +kernel

theorem witness_power_up_no_image : bootSlot boot.bootSel (applyFloor { off.flash with slotA := ⟨2, 1, 1, []⟩ }) = none ∧
    (run (.powerGood boot) { off with flash := { off.flash with slotA := ⟨2, 1, 1, []⟩ } }).hs.health = .failed := by decide +kernel

theorem witness_power_up_held : { off with power := { off.power with modReset := true } }.power.good = false ∧
    State.reset.power.good = true ∧ State.reset.power.modReset = true ∧ up.power.modReset = false := by decide +kernel

/-! ## Port events, dies, power manager -/

theorem witness_port_events : up.running = true ∧ (up.port .a).linkUp = true ∧ (run (.perstAssert .a) up).portA.linkUp = false ∧
    (run (.functionLevelReset .a) up).portA.linkUp = true ∧ (run (.d3hotEntry .b) up).portB.d3 = true ∧
    (run (.pcieLinkDown .b) up).portB.linkUp = false := by decide +kernel

/-- Partition 0 of port A, RUNNING. -/
def running0 : State := at0 core0 part0

theorem witness_host_lost : (running0.part 0).st = .running ∧ (running0.part 0).owner = .a ∧ (running0.part 0).replay = none ∧
    ((run (.pcieLinkDown .a) running0).part 0).st = .faulted ∧ ((run (.pcieLinkDown .a) running0).part 0).stopStat = 0x0D ∧
    ((run (.pcieLinkDown .b) running0).part 0).st = .running ∧ ((run (.d3hotEntry .a) running0).part 0).st = .faulted ∧
    ((run (.functionLevelReset .a) running0).part 0).st = .faulted ∧ ((run (.perstAssert .a) running0).part 0).st = .faulted := by
  decide +kernel

theorem witness_none_in_hand : NoneInHand .a running0 ∧ (running0.port .a).d3 = false ∧ (running0.port .a).linkUp = true :=
  ⟨⟨by decide +kernel, fun _ => by show fieldAt (Mbx.reset.copy.read 0 2) 0 2 ≠ 0x0060; decide⟩, rfl, rfl⟩

theorem witness_d3_stays : let s := { up with portA := { up.portA with d3 := true } }
    s.running = true ∧ (s.port .a).linkUp = true ∧ (s.port .a).d3 = true ∧ run (.d3hotEntry .a) s = s := ⟨rfl, rfl, rfl, by decide +kernel⟩

theorem witness_link_up : (State.reset.port .a).perst = false ∧ { up with portA := Port.reset }.running = true ∧
    (run (.pcieLinkUp .a) { up with portA := Port.reset }).portA.linkUp = true := by decide +kernel

theorem witness_link_held : ({ up with portA := { Port.reset with perst := true } }.port .a).perst = true ∧
    (run (.pcieLinkUp .a) { up with portA := { Port.reset with perst := true } }).portA.linkUp = false ∧
    (run (.perstDeassert .a) { up with portA := { Port.reset with perst := true } }).portA.perst = false := by decide +kernel

/-- A Debug entry (vector 15) in the core store: handler 0x400, stack pointer 0x1000. -/
def debugCore : Core :=
  { core0 with store := [(entryWord 15, .int 0x400), (entryWord 15 + 1, ⟨0x1000, 5⟩), (entryWord 15 + 2, .int 0x80000)] }

/-- Before a delay bundle, a break request pends. -/
theorem witness_jtag_pends : let s := at0 { debugCore with delay := some ⟨8, .fall⟩ } part0
    s.running = true ∧ s.power.rails = true ∧ s.power.trst = false ∧ (s.core 0).part = some 0 ∧ (s.core 0).delay.isSome = true ∧
    ((run (.jtagBreak 0) s).core 0).pend.imm = [15] ∧
    ((run (.jtagBreak 0) (run .trstNAssert s)).core 0).pend.imm = [] := by decide +kernel

/-- In TWAIT or not, a core at a boundary takes it at once. -/
theorem witness_jtag_enters : let s := fun w => at0 { debugCore with twait := w } part0
    (s true).coreRuns 0 = some 0 ∧ ((s true).core 0).delay = none ∧ ((s true).core 0).branchOnly = false ∧
    ((s true).core 0).vload = false ∧ ((s true).core 0).pend.imm = [] ∧ ((s true).core 0).storeErr = [] ∧
    entryFail 15 ((s true).core 0) = 0 ∧ ((run (.jtagBreak 0) (s true)).core 0).pc = 0x400 ∧
    ((run (.jtagBreak 0) (s true)).core 0).twait = false ∧ ((run (.jtagBreak 0) (s false)).core 0).pc = 0x400 := by decide +kernel

theorem witness_loss_of_lock : running0.running = true ∧ (running0.die 0).fenced = false ∧
    ((run (.lossOfLock (.cclk 0)) running0).die 0).fenced = true ∧ ((run (.lossOfLock (.cclk 0)) running0).part 0).stopStat = 0x08 ∧
    (run (.lossOfLock .kclk) running0).hs.health = .failed ∧ (run (.lossOfLock (.bclk 0)) running0).hs.health = .failed ∧
    (run (.lossOfLock (.hclk 0)) running0).hs.health = .failed ∧ (run (.lossOfLock (.pclk .a)) running0).portA.linkUp = false ∧
    (running0.port .a).linkUp = true ∧ ((run (.lossOfLock (.cclk 0)) running0).core 0).jobs = Jobs.reset := by
  decide +kernel

theorem witness_die_reset : running0.power.rails = true ∧ (running0.die 0).up = true ∧ (running0.die 0).fenced = false ∧
    ((run (.computeDieReset 0) running0).part 0).st = .faulted ∧ (run (.computeDieReset 0) running0).hs.health = .degraded := by
  decide +kernel

theorem witness_power_sample : up.running = true ∧ up.power.trip = false ∧ 2300 * 10 < ((23001 :: up.power.hist).take 10).sum ∧
    (run (.powerSample 23001 4800) up).power.tripCause = 4 ∧ (run (.powerSample 23000 4800) up).power.trip = false := by decide +kernel

theorem witness_junction : up.running = true ∧ up.power.rails = true ∧ (110 : Int) ≤ 110 ∧ (109 : Int) < 110 ∧
    (run (.junctionSample 3 110) up).power.tripCause = 2 ∧ (run (.junctionSample 3 110) up).power.tripSrc = 3 ∧
    (run (.junctionSample 3 109) up).power.trip = false := by decide +kernel

theorem witness_rails_off : failed.power.trip = true ∧ failed.power.rails = true := by decide

/-! ## Exceptions -/

/-- A descriptor entry at vector v: handler, stack pointer, CONTROL. -/
def entryOf (v h sp ctl : Nat) : SMap TWord :=
  [(entryWord v, .int (BitVec.ofNat 64 h)), (entryWord v + 1, ⟨BitVec.ofNat 64 sp, 5⟩), (entryWord v + 2, .int (BitVec.ofNat 64 ctl))]

/-- The core with an entry at vectors 6 and 12, stack pointer 0x1000. -/
def excCore : Core :=
  { core0 with store := entryOf 6 0x400 0x1000 0x80000 ++ entryOf 12 0x800 0x1000 0x80003, a := [(8, .int 88), (15, ⟨0x2000, 5⟩)]
               status := 0x0005000000000900, loopIn := 7 }

/-- An Integer Divide of a syllable at 0x40. -/
def divExc : Exc := ⟨12, 0, 0, 0x123, 1, 0, 0x40, false, false, false⟩

theorem witness_entry : entryFail divExc.vec excCore = 0 ∧ (enterCore divExc excCore).pc = 0x800 ∧
    (enterCore divExc excCore).areg 15 = ⟨0xF80, 5⟩ ∧ (enterCore divExc excCore).niLeft = 48 ∧
    (enterCore divExc excCore).word (0xF80 / 8) = ⟨0x40, 8⟩ := by decide +kernel

/-- Vector 13 has no valid entry. -/
theorem witness_save_failure : entryFail 13 excCore ≠ 0 ∧ (enterCore { divExc with vec := 13 } excCore).halt = 1 ∧
    entryFail 6 { excCore with store := entryOf 6 0x404 0x1000 0x80000 } = 2 ∧
    entryFail 6 { excCore with store := entryOf 6 0x400 0x1020 0x80000 } = 5 ∧
    entryFail 6 { excCore with store := entryOf 6 0x400 64 0x80000 } = 6 ∧
    entryFail 6 { excCore with store := entryOf 6 0x400 128 0x80000 } = 0 ∧
    entryFail 6 { excCore with store := entryOf 6 0x400 0x3FF440 0x80000 } = 6 := by decide +kernel

theorem witness_return : (List.replicate 16 (TWord.int 0)).length = 16 ∧
    wbit ((List.replicate 16 (TWord.int 0)).getD 2 TWord.zero).data 14 = false ∧
    wbit ((List.replicate 16 (TWord.int 0x4000)).getD 2 TWord.zero).data 14 = true := by decide

theorem witness_round_trip : entryFail divExc.vec excCore = 0 ∧ divExc.pc < 2 ^ 17 ∧
    excCore.status = mkStatus (wf64 excCore.status 63 48) (wbit excCore.status 11) excCore.niw excCore.sup := by decide +kernel

theorem test_status_write : (writeStatus 0xFFFFFFFFFFFFFFFF { excCore with status := 0x400, niLeft := 9 }).status =
    0xFFFF000000000900 ∧ (writeStatus 0 { excCore with status := 0x400, niLeft := 9 }).status = 0x400 := by decide +kernel

/-! ## Bundles -/

/-- One core whose bundles are these syllables. -/
def coded (l : List Nat) (x : Core) : Core :=
  { x with bundles := (l.zipIdx.filter fun e => e.1 != 0).map fun e => (e.2, BitVec.ofNat 64 e.1) }

/-- A syllable: stop bit, slot, opcode, three operand specifiers. -/
def syl (stop slot op o1 o2 o3 : Nat) : Nat :=
  stop * 2 ^ 63 + slot * 2 ^ 60 + op * 2 ^ 48 + o1 * 2 ^ 32 + o2 * 2 ^ 16 + o3

/-- ADD of the words at 8 and 16 into that at 24 (short absolute); DIV likewise. -/
def addBundle : Nat := syl 1 0 0x010 0x5003 0x5001 0x5002
def divBundle : Nat := syl 1 0 0x015 0x5003 0x5001 0x5002

/-- AADD A3, A1, A2. -/
def aaddBundle : Nat := syl 1 2 0x001 0x7300 0x7100 0x7200

/-- The core with 7 and b as operands, and A1, A2, at one bundle. -/
def alu (i b : Nat) : Core := coded [i] { excCore with
  store := [(1, .int 7), (2, .int (BitVec.ofNat 64 b))] ++ excCore.store, a := [(1, ⟨0x40, 5⟩), (2, .int 8)] }

theorem witness_bundle : let s := at0 (alu addBundle 5) part0
    ReadyToIssue 0 0 (applyUpsets Env.quiet.upsets s) ∧ (s.core 0).vload = false ∧
    evalBundle 0 0 false s = (.issue [.word 3 (.int 12)] false, 8) ∧ ((run (.bundleIssue 0 Env.quiet) s).core 0).word 3 = .int 12 ∧
    ((run (.bundleIssue 0 Env.quiet) s).core 0).pc = 8 := by
  refine ⟨⟨by decide +kernel, by decide +kernel, by decide +kernel, by decide +kernel, by decide +kernel, by decide +kernel,
    rfl⟩, by decide +kernel, by decide +kernel, by decide +kernel, by decide +kernel⟩

theorem witness_bundle_exc : let s := at0 (alu divBundle 0) part0
    (evalBundle 0 0 false s).1 = .exc ⟨12, 0, 0, divBundle, 0, 0, 0, false, false, false⟩ ∧
    ((run (.bundleIssue 0 Env.quiet) s).core 0).pc = 0x800 := by decide +kernel

/-- VLD of int64 elements from [A1], with VL = 1. -/
def loadCore : Core := coded [syl 1 3 0x083 0x0000 0x0100 0x0000] { core0 with a := [(1, ⟨0x100, 5⟩)], store := [(0x20, .int 3)], vl := 1 }

theorem witness_vector_load : let s := at0 loadCore part0
    (match (evalBundle 0 0 false s).1 with | .issue _ l => l | _ => false) = true ∧
    ((run (.bundleIssue 0 Env.quiet) s).core 0).vload = true ∧
    (match (evalBundle 0 0 true (run (.bundleIssue 0 Env.quiet) s)).1 with | .issue _ l => l | _ => false) = true ∧
    ((run (.vectorLoadFaultPoint 0 Env.quiet) (run (.bundleIssue 0 Env.quiet) s)).core 0).pc = 8 := by decide +kernel

theorem witness_vector_load_exc : let s := at0 { loadCore with store := [(0x20, ⟨3, 15⟩)], vload := true } part0
    (match (evalBundle 0 0 true s).1 with | .exc e => e.vec | _ => 0) ≠ 0 := by decide +kernel

theorem witness_register_bundle : (core0).delay = none ∧ lpActive core0.loopIn = false ∧ lpActive core0.loopOut = false := by decide

/-- The syllables above fit the statements about them. -/
theorem witness_scalar_alu : (Op.alu .add).cols ⟨addBundle⟩ = [.dst, .src .intPtr, .src .int] ∧ (Syll.spec ⟨addBundle⟩ 1).mode = 5 ∧
    (Syll.spec ⟨addBundle⟩ 2).mode = 5 ∧ (Syll.spec ⟨addBundle⟩ 3).mode = 5 ∧ (alu addBundle 5).heldRanges = [] ∧
    (alu addBundle 5).heldWritten = [] ∧ classFault .int ((alu addBundle 5).word 1) = none ∧
    aluResult .add TWord.zero (.int 7) (.int 5) = some (.int 12) ∧ classFault .int ⟨5, 1⟩ = some (0, 0) ∧
    AluOp.divides .div = true := by decide +kernel

theorem witness_aadd : (Syll.spec ⟨aaddBundle⟩ 1).mode = 7 ∧ (Syll.spec ⟨aaddBundle⟩ 2).mode = 7 ∧
    (Syll.spec ⟨aaddBundle⟩ 3).mode = 7 ∧ ((run (.bundleIssue 0 Env.quiet) (at0 (alu aaddBundle 5) part0)).core 0).areg 3 = ⟨0x48, 5⟩ := by
  decide +kernel

theorem witness_own_action : let s := at0 { excCore with twait := true, pend := { Pend.reset with vfault := some (3, 0x55) } } part0
    s.coreRuns 0 = some 0 ∧ (s.core 0).twait = true ∧ (s.core 0).tu.done = false ∧ (s.core 0).pend.imm = [] ∧
    (s.core 0).delay = none ∧ (s.core 0).pend.vfault = some (3, 0x55) ∧ (s.core 0).storeErr = [] ∧ entryFail 6 (s.core 0) = 0 ∧
    ((run (.ownActionDelivery 0) s).core 0).pc = 0x400 := by decide +kernel

/-- A core whose window has run out, with CONTROL.OVT as given, and an entry at vector 11. -/
def openWindow (ovt : Bool) : Core := { core0 with status := 0x500, niOvt := ovt, store := entryOf 11 0x800 0x1000 0x80000 }

theorem witness_window_overrun : let s := fun ovt => at0 (openWindow ovt) part0
    (s false).coreRuns 0 = some 0 ∧ ((s false).core 0).overrun = false ∧ ((s false).core 0).niw = true ∧
    ((s false).core 0).niLeft = 0 ∧ ((s false).core 0).niOvt = false ∧
    ((run (.windowOverrun 0) (s false)).core 0).overrun = true ∧ ((run (.windowOverrun 0) (s false)).core 0).status = 0x900 ∧
    ((s true).core 0).niOvt = true ∧ ((s true).core 0).delay = none ∧ ((s true).core 0).pend.imm = [] ∧
    ((s true).core 0).storeErr = [] ∧ entryFail 11 ((s true).core 0) = 0 ∧
    ((run (.windowOverrun 0) (s true)).core 0).pc = 0x800 ∧ ((run (.windowOverrun 0) (s true)).core 0).overrun = true := by
  decide +kernel

theorem witness_window_report : let s := at0 { core0 with overrun := true } part0
    (s.core 0).part = some 0 ∧ (s.part 0).st = .running ∧ (s.part 0).replay = none ∧ (s.core 0).tu.turn ≠ 0 ∧
    ((run (.windowOverrun 0) s).part 0).stopStat = 0x0B ∧ ((run (.windowOverrun 0) s).core 0).overrun = false := by decide +kernel

theorem witness_halt_notice : let s := fun h => at0 { core0 with halt := h, haltNote := true } part0
    (s 1).hs.fwRun = true ∧ ((s 1).core 0).haltNote = true ∧ ((s 1).core 0).part = some 0 ∧ ((s 1).part 0).st = .running ∧
    ((s 1).part 0).replay = none ∧ (s 1).hs.logNext = 0 ∧
    ((run (.haltNotice 0) (s 1)).part 0).stopStat = 2 ∧ ((run (.haltNotice 0) (s 2)).part 0).st = .running ∧
    (SMap.get none 0 (run (.haltNotice 0) (s 1)).hs.log).map (·.code) = some 0x0010 := by decide +kernel

theorem witness_quiet_stop : QuietStop 0 (at0 core0 part0) :=
  ⟨fun c h => by
    have e : c = 0 := by simpa [at0, up, part0, State.part, Part.phys, SMap.get, Port.reset] using h
    subst e; exact ⟨by decide +kernel, by decide +kernel⟩,
   fun d j h => by
    cases d with
    | zero => 
      have e : ((at0 core0 part0).bulkOf 0 0).moves = [] := rfl
      simp [e] at h
    | succ n =>
      have e : ((at0 core0 part0).bulkOf (n + 1) 0).moves = [] := rfl
      simp [e] at h⟩

theorem witness_patrol : let s := at0 { core0 with storeErr := [(1, ⟨1, 0, 0⟩), (2, ⟨2, 0, 0⟩)], store := [(2, .int 5)] } part0
    (s.die (dieOfCore (0 : CoreId))).up = true ∧ ((run (.patrolScrub 0 Env.quiet) s).core 0).storeErr = [] ∧
    ((run (.patrolScrub 0 Env.quiet) s).core 0).word 2 = ⟨0x0100000000000000, 0xF⟩ := by decide +kernel

theorem witness_patrol_clean : ∀ i, i < 16 → SMap.get CwErr.none (((at0 core0 part0).core 0).scrub * 16 + i)
    ((at0 core0 part0).core 0).storeErr = CwErr.none := by decide +kernel

/-! ## Turns -/

/-- A core at TWAIT with nothing left to do, and its mover and drain unit's turn units. -/
def idle (d : Bool) : Core :=
  { core0 with twait := true, mtu := { tu1 with done := d }, dtu := { tu1 with done := d } }

/-- The die's bulk mover as the partition has it. -/
def bulkAt (d : Bool) (s : State) : State :=
  { s with dies := [(0, { Die.reset with up := true, bulk := [(0, ⟨{ tu1 with done := d }, []⟩)] })] }

/-- The partition with a record open. -/
def recording : Part := { part0 with recd := { Recorder.reset with isOpen := true } }

theorem witness_turn_done_not_ready : unitReady 0 (.core 0) (at0 core0 part0) = false := by decide +kernel

theorem witness_turn_done : let s := fun d p => bulkAt d (at0 (idle d) p)
    let r := fun d p => run (.turnDone 0 (.core 0)) (s d p)
    ((s true part0).part 0).st = .running ∧ ((s true part0).part 0).units.contains (.core 0) = true ∧
    (unitTu 0 (.core 0) (s true part0)).done = false ∧ (unitTu 0 (.core 0) (s true part0)).turn = 1 ∧
    unitReady 0 (.core 0) (s true part0) = true ∧
    (∃ v, ((s false part0).part 0).units.contains v = true ∧ v ≠ .core 0 ∧ (unitTu 0 v (s false part0)).done = false) ∧
    (∀ v ∈ ((s true part0).part 0).units, v ≠ .core 0 → (unitTu 0 v (s true part0)).done = true) ∧
    ((r true part0).part 0).turnEnds = [] ∧ (((r true recording).part 0).turnEnds.map (·.turn)) = [1] := by
  refine ⟨by decide +kernel, by decide +kernel, by decide +kernel, by decide +kernel, by decide +kernel,
    ⟨.mover 0, by decide +kernel⟩, by decide +kernel, by decide +kernel, by decide +kernel⟩

/-- Every unit of partition 0 has reported turn 1. -/
def doneAll (p : Part) : State := bulkAt true (at0 { idle true with tu := { tu1 with done := true } } p)

theorem witness_spur_broadcast : ((doneAll part0).part 0).st = .running ∧ ((doneAll part0).part 0).spurTo = [] ∧
    turnComplete 0 (doneAll part0) = true ∧ ((doneAll part0).part 0).stopReq = none ∧ spurHeld 0 (doneAll part0) = false ∧
    ((doneAll part0).part 0).turn = 1 ∧ ((run (.spurBroadcast ⟨0, .alone⟩) (doneAll part0)).part 0).turn = 2 ∧
    ToMaster ((doneAll part0).part 0) .alone ∧ turnComplete 0 (at0 core0 part0) = false := by
  refine ⟨by decide +kernel, by decide +kernel, by decide +kernel, by decide +kernel, by decide +kernel, by decide +kernel,
    by decide +kernel, Or.inl ⟨by decide +kernel, rfl⟩, by decide +kernel⟩

theorem witness_plain_boundary : PlainBoundary ((doneAll part0).part 0) :=
  ⟨by decide +kernel, by decide +kernel, by decide +kernel, by decide +kernel, by decide +kernel, by decide +kernel⟩

/-- The partition whose stop mailbox 0 of port A has asked for. -/
def stopping : Part := { part0 with stopReq := some (.a, 0) }

theorem witness_spur_stop : ((doneAll stopping).part 0).stopReq = some (.a, 0) ∧ ((doneAll stopping).part 0).mon.logQ = [] ∧
    turnComplete 0 (doneAll stopping) = true ∧ ((run (.spurBroadcast ⟨0, .alone⟩) (doneAll stopping)).part 0).st = .stopped := by decide +kernel

theorem witness_spur_held : let s := { doneAll part0 with hs := { (doneAll part0).hs with routeHold := [0] } }
    turnComplete 0 s = true ∧ spurHeld 0 s = true ∧ (s.part 0).turn ≠ 2 ^ 48 - 2 := by decide +kernel

/-- The last turn. -/
def lastTurn : Part := { part0 with turn := 2 ^ 48 - 2 }

theorem witness_spur_last : ((doneAll lastTurn).part 0).turn = 2 ^ 48 - 2 ∧ turnComplete 0 (doneAll lastTurn) = true ∧
    ((run (.spurBroadcast ⟨0, .alone⟩) (doneAll lastTurn)).part 0).stopStat = 2 := by decide +kernel

/-- A partition of member m of a span of three modules, on link 2. -/
def spanPart (m : Nat) (st : PartSt) : Part :=
  { part0 with st := st, cfg := some ⟨false, 3, m, 0x77, [], [], 0, 0, [], [], 0, [2], [], []⟩, remote := [9] }

/-- On member 0 the spur of a complete turn goes to the other members with it. -/
theorem witness_span_master : let s := doneAll (spanPart 0 .running)
    ToMaster (s.part 0) .counts ∧ turnComplete 0 s = true ∧ spurHeld 0 s = false ∧
    ((run (.spurBroadcast ⟨0, .counts⟩) s).part 0).turn = 2 ∧ (run (.spurBroadcast ⟨0, .counts⟩) s).out = [.spanSpur 0 2] := by
  refine ⟨Or.inr ⟨by decide +kernel, by decide +kernel, rfl⟩, by decide +kernel, by decide +kernel, by decide +kernel,
    by decide +kernel⟩

/-- Another member relays the master's spur, and reports the count of its units. -/
theorem witness_span_relay : let s := doneAll (spanPart 1 .running)
    let r := bulkAt true (at0 (idle true) (spanPart 1 .running))
    1 < (s.part 0).span ∧ (s.part 0).member ≠ 0 ∧ turnComplete 0 s = true ∧ PlainBoundary (s.part 0) ∧
    ((run (.spurBroadcast ⟨0, .spur 2⟩) s).part 0).turn = 2 ∧ (run (.spurBroadcast ⟨0, .spur 2⟩) s).out = [] ∧
    turnComplete 0 r = false ∧ (run (.turnDone 0 (.core 0)) r).out = [.spanDone 0 1 4] := by
  refine ⟨by decide +kernel, by decide +kernel, by decide +kernel, ⟨by decide +kernel, by decide +kernel, by decide +kernel,
    by decide +kernel, by decide +kernel, by decide +kernel⟩, by decide +kernel, by decide +kernel, by decide +kernel, by decide +kernel⟩

/-- The answers of the other two members to member 1. -/
def answers (turn : Nat) : List SpanAnswer := [⟨0, 0x77, 3, true, true, turn, 1, [9]⟩, ⟨2, 0x77, 3, true, true, turn, 1, []⟩]

theorem witness_span_start : let s := at0 core0 { spanPart 1 .stopped with turn := 5, remote := [] }
    ∃ c, (s.part 0).cfg = some c ∧ (s.part 0).st = .stopped ∧ startRefusal (s.part 0) = none ∧
      handshakeOk c (s.part 0).turn (answers 5) = true ∧
      ((run (.spurBroadcast ⟨0, .start (answers 5)⟩) s).part 0).st = .running ∧
      ((run (.spurBroadcast ⟨0, .start (answers 4)⟩) s).part 0).st = .stopped :=
  ⟨⟨false, 3, 1, 0x77, [], [], 0, 0, [], [], 0, [2], [], []⟩, by decide +kernel, by decide +kernel, by decide +kernel, by decide +kernel,
    by decide +kernel, by decide +kernel⟩

/-- The spur of turn 2 on its way to the core. -/
def spurred : Part := { part0 with turn := 2, spurTo := [.core 0] }

/-- The core at TWAIT with one event of turn 1, one of turn 2, and an arrival overflow of turn 1; IMASK enables vectors 16 and 18. -/
def eventful : Core :=
  { idle true with status := 0x0005000000000000, pend := { Pend.reset with events := [(1, 16), (2, 18)], turnExc := [(1, 13)] } }

theorem witness_spur_receipt : let s := at0 eventful spurred
    let t := run (.spurReceipt 0 (.core 0) 2) s
    (s.part 0).st = .running ∧ (s.part 0).units.contains (.core 0) = true ∧ 2 = (unitTu 0 (.core 0) s).turn + 1 ∧
    (s.part 0).spurTo.contains (.core 0) = true ∧ (s.core 0).twait = true ∧ (s.part 0).spurTo.contains (.mover 0) = false ∧
    2 = (unitTu 0 (.mover 0) s).turn + 1 ∧ (s.part 0).replay = none ∧ (t.core 0).twait = false ∧
    (t.core 0).pend.heldInt = [16] ∧ (t.core 0).pend.heldExc = [13] ∧ (t.core 0).pend.events = [(2, 18)] := by decide +kernel

/-- A spur of another turn is a Mesh Error: entered at once by a core at a boundary, else pending. -/
theorem witness_spur_mismatch : let s := at0 { idle true with store := entryOf 14 0x800 0x1000 0x80000 } spurred
    let r := at0 { idle true with delay := some ⟨8, .fall⟩, twait := false } spurred
    (s.core (meshErrorCore 0 (.core 0) s)).storeErr = [] ∧ (s.core (meshErrorCore 0 (.core 0) s)).atBoundary = true ∧
    (s.core 0).halt = 0 ∧ (s.core 0).pend.imm = [] ∧ entryFail 14 (s.core 0) = 0 ∧
    ((run (.spurReceipt 0 (.core 0) 4) s).core 0).pc = 0x800 ∧ ((run (.spurReceipt 0 (.core 0) 4) s).part 0).stopStat = 2 ∧
    (r.core 0).atBoundary = false ∧ 14 ∈ ((run (.spurReceipt 0 (.core 0) 4) r).core 0).pend.imm := by decide +kernel

/-! ## Arm queues, stops, bounds -/

/-- An entry of a kind for turn 1, with condition AC0 ≥ 1. -/
def entry (k : ActKind) : ArmEntry := ⟨k, 1, 0x1000, 0x8001, 0, 0, [], [], 5, 6⟩

/-- A turn unit with an entry at its head and a count. -/
def tuWith (k : ActKind) (n : Nat) : TurnUnit := { tu1 with queue := [entry k], ac := if n = 0 then [] else [(0, n)] }

/-- A configuration record that holds HBM capacity. -/
def cfg0 : PartCfg := ⟨false, 1, 0, 0, [], [], 8, 0, [], [], 0, [], [], []⟩

theorem witness_arm_share : let s := { at0 core0 { part0 with cfg := some cfg0 } with
      hbms := [(0, { Stack.reset with up := true, regs := [(0, { Regulator.reset with tu := tuWith .share 1 })] })] }
    (unitTu 0 (.reg 0) s).queue = [entry .share] ∧ (s.part 0).st = .running ∧ (s.part 0).units.contains (.reg 0) = true ∧
    condsMet (unitTu 0 (.reg 0) s) (entry .share).cond = true ∧ (unitTu 0 (.reg 0) s).turn = 1 ∧
    (SMap.get Regulator.reset 0 ((run (.armFire 0 (.reg 0) Env.quiet) s).stack 0).regs).rate = 5 := by decide +kernel

theorem witness_arm_bulk : let s := { at0 core0 part0 with
      dies := [(0, { Die.reset with up := true, bulk := [(0, ⟨tuWith .move 1, []⟩)] })] }
    (unitTu 0 (.bulk 0) s).queue = [entry .move] ∧ (s.part 0).units.contains (.bulk 0) = true ∧
    condsMet (unitTu 0 (.bulk 0) s) (entry .move).cond = true ∧
    ((run (.armFire 0 (.bulk 0) Env.quiet) s).bulkOf 0 0).moves.length = 1 := by decide +kernel

/-- A run waits while eight are in hand. -/
theorem test_mayFire : let x := { core0 with tu := tuWith .launch 1 }
    mayFire 0 (.core 0) (entry .launch) (at0 x part0) = true ∧ mayFire 0 (.core 0) (entry .launch) (at0 { x with halt := 1 } part0) = false := by
  decide +kernel

theorem witness_arm_waits : let s := at0 { core0 with mtu := tuWith .move 0 } part0
    (unitTu 0 (.mover 0) s).queue = [entry .move] ∧ condsMet (unitTu 0 (.mover 0) s) (entry .move).cond = false := by decide +kernel

theorem witness_arm_move : let s := at0 { core0 with mtu := tuWith .move 1 } part0
    (unitTu 0 (.mover 0) s).queue = [entry .move] ∧ condsMet (unitTu 0 (.mover 0) s) (entry .move).cond = true ∧
    (s.part 0).units.contains (.mover 0) = true ∧ (s.core 0).halt = 0 ∧
    ((run (.armFire 0 (.mover 0) Env.quiet) s).core 0).jobs.moves.length = 1 ∧
    SMap.get 0 0 ((run (.armFire 0 (.mover 0) Env.quiet) s).core 0).mtu.ac = 0 := by decide +kernel

theorem witness_arm_pass : let s := at0 { core0 with tu := tuWith .pass 1, store := [(0x200, .int 9)] } part0
    (unitTu 0 (.core 0) s).queue = [entry .pass] ∧ condsMet (unitTu 0 (.core 0) s) (entry .pass).cond = true ∧
    (s.core 0).storeErr = [] ∧ ((s.core 0).jobs.passes.filter fun j => !j.started).length < 4 ∧ passCheck (s.core 0) 0x1000 = none ∧
    ((run (.armFire 0 (.core 0) Env.quiet) s).core 0).jobs.passes.length = 1 := by decide +kernel

/-- The core's queue head waits for a frame of stream 0 in turn 1. -/
def waiting : Core := { idle true with tu := { tu1 with queue := [{ entry .launch with cond := 0 }] } }

theorem witness_quiescent : let s := bulkAt true (at0 waiting stopping)
    (s.part 0).st = .running ∧ (s.part 0).stopReq = some (.a, 0) ∧ (s.part 0).spurTo = [] ∧ turnComplete 0 s = false ∧
    (∀ u ∈ (s.part 0).units, quiescent 0 u s = true) ∧ ((run (.quiescentPointStop 0) s).part 0).how = .quiescent ∧
    ((run (.partStopTimeout 0) s).part 0).stopStat = 2 := by decide +kernel

/-- An image whose bound table gives no cycles. -/
def img0 : Image := ⟨⟨[], [], [], [], 0, []⟩, 1, 0, 1, 0, []⟩

/-- Core 0 over its bound, before a delay bundle or at a boundary, its report made or not. -/
def slow (between made : Bool) : State :=
  at0 { core0 with tu := { tu1 with tclk := 1000000, exceeded := made }, branchOnly := between, store := entryOf 10 0x800 0x1000 0x80000 }
    { part0 with cfg := some cfg0, img := some img0 }

theorem witness_bound : let s := slow true false
    let r := slow false false
    (s.part 0).units.contains (.core 0) = true ∧ (overBound 0 (.core 0) s).isSome = true ∧ (unitTu 0 (.core 0) s).exceeded = false ∧
    boundCore (.core 0) = some 0 ∧ (s.core 0).storeErr = [] ∧ (s.core 0).atBoundary = false ∧
    10 ∈ ((run (.boundOverrun 0 (.core 0)) s).core 0).pend.imm ∧ ((run (.boundOverrun 0 (.core 0)) s).part 0).st = .running ∧
    (r.core 0).atBoundary = true ∧ (r.core 0).vload = false ∧ (r.core 0).halt = 0 ∧ (r.core 0).pend.imm = [] ∧
    entryFail 10 (r.core 0) = 0 ∧ ((run (.boundOverrun 0 (.core 0)) r).core 0).pc = 0x800 := by decide +kernel

theorem witness_bound_stop : let s := slow true true
    (overBound 0 (.core 0) s).isSome = true ∧ (unitTu 0 (.core 0) s).exceeded = true ∧
    (∀ v ∈ (s.part 0).units, (overBound 0 v s).isSome = true → (unitTu 0 v s).exceeded = true) ∧
    ((run (.boundOverrun 0 (.core 0)) s).part 0).stopStat = 0x0B := by decide +kernel

/-! ## Runs, passes, drains, the monitor -/

/-- A run whose descriptor words are all 0: one element, no output, a program of zeros. -/
def job (rd wr : List Rng) : RunJob := ⟨0, 5, 1, 0x1000, List.replicate 16 (.int 0), [], rd, wr⟩

theorem witness_run : let s := at0 { core0 with jobs := { Jobs.reset with runs := [job [] []] } } part0
    s.coreRuns 0 = some 0 ∧ (s.core 0).jobs.runs = [job [] []] ∧ (s.core 0).clearForRun 5 [] = true ∧
    (1, 20) ∈ ((run (.tensorStreamComplete 0 Env.quiet) s).core 0).pend.events ∧
    ((run (.tensorStreamComplete 0 Env.quiet) s).core 0).jobs.runs = [] := by decide +kernel

/-- A pass that fired before the run reads what the run writes. -/
def passJob (acc : Bool) (started : Bool) : PassJob :=
  { PassJob.fired 1 2 1 0x1000 [if acc then 0x89 else 9] [(0x1000, 128)] with started := started }

theorem witness_run_waits : let s := at0 { core0 with jobs := { Jobs.reset with
      runs := [job [] [(0x1000, 8)]], passes := [passJob false true] } } part0
    (s.core 0).clearForRun 5 [(0x1000, 8)] = false := by decide +kernel

/-- The core with a pass waiting; its tile 0 as given. -/
def passing (acc started : Bool) (k : Tile) : State :=
  at0 { core0 with jobs := { Jobs.reset with passes := [passJob acc started] }, tiles := [(0, k), (1, k)] } part0

/-- An FP64 tile, with marks. -/
def tile64 (poisoned parity : Bool) : Tile := ⟨false, 2, poisoned, parity⟩

theorem witness_pass_start : let s := passing false false (tile64 true false)
    s.runsPart 0 = some 0 ∧ (s.core 0).jobs.passes.find? (fun p => !p.started) = some (passJob false false) ∧
    (s.core 0).passMayStart (passJob false false) = true ∧ (⟨(passJob false false).desc⟩ : PassDesc).acc = false ∧
    (s.core 0).far.wcb = [] ∧ ((run (.passStart 0 Env.quiet) s).core 0).tile 0 = tile64 false false ∧
    ((run (.passStart 0 Env.quiet) s).core 0).jobs.passes.map (·.started) = [true] := by decide +kernel

theorem witness_pass_waits : let s := at0 { core0 with jobs := { Jobs.reset with passes := [passJob false true, { passJob false false with fire := 3 }] } } part0
    (s.core 0).passMayStart { passJob false false with fire := 3 } = false := by decide +kernel

theorem witness_pass_shape : let s := passing true false ⟨true, 2, false, false⟩
    (⟨(passJob true false).desc⟩ : PassDesc).acc = true ∧ ((s.core 0).tile 0).tall ≠ (⟨(passJob true false).desc⟩ : PassDesc).tall ∧
    (s.core 0).passMayStart (passJob true false) = true ∧ (s.core 0).pend.mdone = false ∧
    (((run (.passStart 0 Env.quiet) s).core 0).pend.mfaults.map (·.sub)) = [5] := by decide +kernel

theorem witness_pass_poisoned : let s := passing true false (tile64 true false)
    s.runsPart 0 = some 0 ∧ (s.core 0).jobs.passes.find? (fun p => !p.started) = some (passJob true false) ∧
    (s.core 0).passMayStart (passJob true false) = true ∧ (⟨(passJob true false).desc⟩ : PassDesc).acc = true ∧
    ((s.core 0).tile 0).tall = false ∧ ((s.core 0).tile 0).width = (⟨(passJob true false).desc⟩ : PassDesc).width ∧
    ((s.core 0).tile 0).poisoned = true ∧ (s.core 0).pend.mdone = false ∧
    (((run (.passStart 0 Env.quiet) s).core 0).pend.mfaults.map (·.sub)) = [0x14] := by decide +kernel

/-- A started pass whose one beat the array has taken in. -/
def taken : PassJob := { passJob false true with began := true, beat := 1, ahead := 1 }

/-- The core with a started pass; its tiles as given. -/
def fed (k : Tile) (j : PassJob) : State :=
  at0 { core0 with jobs := { Jobs.reset with passes := [j] }, tiles := [(0, k), (1, k)], store := [(0, ⟨0x3FF0000000000000, 1⟩)] } part0

theorem witness_pass_retire : let s := feedStarted 0 Env.quiet (fed (tile64 false false) taken)
    (s.core 0).part = some 0 ∧ (s.core 0).firstStarted = some taken ∧ taken.lost = false ∧ taken.complete = true ∧
    (s.core 0).frontsClear taken = true ∧ (s.core 0).passParity taken = false ∧
    ((run (.passRetire 0 Env.quiet) (fed (tile64 false false) taken)).core 0).jobs.passes = [] ∧
    (s.core 0).jobs.passes.find? (fun p => p.started && ((s.core 0).passFails p).isSome) = none := by decide +kernel

/-- Its operands, 1.0 each, are read and taken in. -/
theorem test_pass_runs : let s := run (.passStart 0 Env.quiet) (fed (tile64 false false) (passJob false false))
    ((s.core 0).entries.map fun e => (e.1, e.2.wide)) = [(0, 0x3FF0000000000000)] ∧
    ((run (.passRetire 0 Env.quiet) s).core 0).jobs.passes = [] := by decide +kernel

theorem witness_pass_lost : let s := fed (tile64 false false) { taken with lost := true }
    ((feedStarted 0 Env.quiet s).core 0).firstStarted = some { taken with lost := true } ∧
    ((run (.passRetire 0 Env.quiet) s).core 0).tile 1 = tile64 true false := by decide +kernel

theorem witness_pass_abort : let s := fed (tile64 false true) (passJob false true)
    let x := (feedStarted 0 Env.quiet s).core 0
    (x.jobs.passes.find? (fun p => p.started && (x.passFails p).isSome)).isSome = true ∧
    (x.jobs.passes.map fun p => x.passFails p) = [some (0x15, 0)] ∧
    ((run (.passAbort 0 Env.quiet) s).core 0).tile 1 = tile64 true false ∧
    (((run (.passAbort 0 Env.quiet) s).core 0).pend.mfaults.map (·.sub)) = [0x15] := by decide +kernel

/-- A pass over int8 operands with tag 0 words of tag FP32 fails on its first element. -/
theorem witness_pass_fails : let s := fed (tile64 false false) { taken with fail := some (0x11, 0x40) }
    (((run (.passAbort 0 Env.quiet) s).core 0).pend.mfaults.map fun f => (f.sub, f.addr)) = [(0x11, 0x40)] ∧
    taken.complete = true ∧ ({ taken with fail := some (0x11, 0x40) } : PassJob).complete = false := by decide +kernel

/-- Two beats of 1.0 by 2.0 and 3.0 by 1.0 wait in the queues of an FP64 pass with ACC = 0. -/
def queuedPass : PassJob :=
  { passJob false true with
    queue := [⟨[(0, [(0x3FF0000000000000, 127)])], [(0, [(0x4000000000000000, 127)])]⟩,
              ⟨[(0, [(0x4008000000000000, 127)])], [(0, [(0x3FF0000000000000, 127)])]⟩] }

theorem witness_pass_arithmetic : let x := (fed (tile64 false false) queuedPass).core 0
    let A : Nat → Nat → Fed := fun t _ => if t = 0 then (0x3FF0000000000000, 127) else (0x4008000000000000, 127)
    let B : Nat → Nat → Fed := fun t _ => if t = 0 then (0x4000000000000000, 127) else (0x3FF0000000000000, 127)
    let d : PassDesc := ⟨queuedPass.desc⟩
    x.pass? 2 = some queuedPass ∧ x.frontsClear queuedPass = true ∧ x.passParity queuedPass = false ∧ d.fmt ≠ 0 ∧
    d.mr ≤ 32 ∧ d.tall = false ∧ d.nc ≤ columns false ∧
    queuedPass.queue = (List.range 2).map (fun t => ⟨(feedOrder d.mr).map fun i => (i, [A t i]), (feedOrder d.nc).map fun k => (k, [B t k])⟩) ∧
    (SMap.get TileEntry.reset (entryKey d.width d.tile (cellOf d.tall 0 0)) (takeIn 2 x).entries).wide = 0x4014000000000000 := by
  decide +kernel

/-- A drain with no output of the FP64 tile 0; INIT as given. -/
def drainJob (init row : Nat) (started mute ended : Bool) : DrainJob :=
  ⟨1, 2, 1, 0x2000, [BitVec.ofNat 64 (0x44 + init * 0x1000)], [], [], started, false, if started then 2 else 0, row, mute, ended, 0, 0, 0⟩

/-- The core with a drain. -/
def draining (j : DrainJob) (k : Tile) (p : Part) : State :=
  at0 { core0 with jobs := { Jobs.reset with drains := [j] }, tiles := [(0, k), (1, k)] } p

theorem witness_drain_front : let s := draining (drainJob 0 0 false false false) (tile64 false false) part0
    s.runsPart 0 = some 0 ∧ (s.core 0).jobs.drains.find? (fun p => !p.started) = some (drainJob 0 0 false false false) ∧
    (s.core 0).frontMayStart (drainJob 0 0 false false false) = true ∧ ((s.core 0).tile 0).width = 2 ∧
    (s.core 0).storeErr = [] ∧ firstRowFault 2 (s.core 0) ((⟨(drainJob 0 0 false false false).desc⟩ : DrainDesc).rowWords false) = none ∧
    ((run (.drainFrontStart 0 Env.quiet) s).core 0).jobs.drains = [drainJob 0 0 true false false] := by decide +kernel

theorem witness_drain_shape : let s := draining (drainJob 0 0 false false false) Tile.reset part0
    (s.core 0).frontMayStart (drainJob 0 0 false false false) = true ∧ (s.core 0).pend.mdone = false ∧
    (⟨(drainJob 0 0 false false false).desc⟩ : DrainDesc).w64 = true ∧
    (((run (.drainFrontStart 0 Env.quiet) s).core 0).pend.mfaults.map (·.sub)) = [5] := by decide +kernel

theorem witness_drain_row : let j := drainJob 1 31 true true false
    let s := draining j (tile64 true false) part0
    (s.core 0).part = some 0 ∧ (s.core 0).jobs.drains.find? DrainJob.sweeping = some j ∧ j.maxWords = [] ∧
    ((s.core 0).drainTiles j.desc).any (fun i => ((s.core 0).tile i).parity) = false ∧ (⟨j.desc⟩ : DrainDesc).init = 1 ∧
    ((run (.drainRowVisit 0 Env.quiet) s).core 0).tile 0 = tile64 false false := by decide +kernel

theorem witness_drain_row_plain : let j := drainJob 0 0 true false false
    let s := draining j (tile64 false false) part0
    (s.core 0).jobs.drains.find? DrainJob.sweeping = some j ∧ j.maxWords = [] ∧ (⟨j.desc⟩ : DrainDesc).init = 0 ∧
    ((run (.drainRowVisit 0 Env.quiet) s).core 0).jobs.drains.map (·.row) = [1] := by decide +kernel

/-- The partition with one 2 MiB page at 0x40000000, on bed die 0. -/
def paged : Part :=
  { part0 with regions := [⟨0x40000000, 0x200000, bedBase 0, true, false, false⟩]
               pt := [(peKey 2 0x40000000, leafWord (bedBase 0) 0 true false false), (peKey 3 0x40000000, 1), (peKey 4 0x40000000, 1)] }

/-- The partition with a numerics monitor. -/
def monitored (l : List (Nat × Nat × List Byte)) (f : Bool) : Part :=
  { paged with mon := { Monitor.reset with montab := 0x1000, logQ := l, failed := f } }

theorem witness_drain_complete : let j := drainJob 0 32 true false false
    let s := fun p => draining j (tile64 false false) p
    ((s part0).core 0).jobs.drains = [j] ∧ j.started = true ∧ j.sweeping = false ∧
    ((s part0).part 0).mon.montab = 0 ∧ (1, 18) ∈ ((run (.drainComplete 0) (s part0)).core 0).pend.events ∧
    ((s (monitored [] false)).part 0).mon.montab ≠ 0 ∧
    ((run (.drainComplete 0) (s (monitored [] false))).core 0).jobs.counts.length = 1 := by decide +kernel

theorem witness_monitor : let n : MonCount := ⟨true, 0, 0, 0, 1, 0, 0, 0, false⟩
    let s := at0 { core0 with jobs := { Jobs.reset with counts := [n] } } (monitored [] false)
    (s.part 0).st = .running ∧ (s.part 0).phys.find? (fun c => !(s.core c).jobs.counts.isEmpty) = some 0 ∧
    (s.core 0).jobs.counts = [n] ∧ ((run (.monitorCounts 0) s).part 0).mon.counts = [n] := by decide +kernel

/-- A log entry of SEQ 1, and its ring. -/
def log0 : List Byte := List.replicate 56 7 ++ leBytes 1 8

theorem witness_log_write : let l := (0x40000000, 4, log0)
    let s := fun f => at0 core0 (monitored [l] f)
    ((s false).part 0).mon.logQ = [l] ∧ logAddr 0x40000000 4 log0 = 0x40000000 ∧ log0.length = 64 ∧ inLocal 0x40000000 = false ∧
    (match walk 0 0x40000000 true (s false) with | .ok e => locate (64 * (e.at 0x40000000 / 64)) == .bed 0 0 | .fail _ _ _ => false) = true ∧
    (((run (.numericsLogWrite 0) (s false)).bed 0).reqs.map (·.bytes)) = [log0] ∧
    ((s true).part 0).mon.failed = true ∧ ((run (.numericsLogWrite 0) (s true)).part 0).mon.logQ = [] := by decide +kernel

theorem witness_log_write_hbm : let p := { monitored [(0x40000000, 4, log0)] false with
      pt := [(peKey 2 0x40000000, leafWord 0 0 true false false), (peKey 3 0x40000000, 1), (peKey 4 0x40000000, 1)] }
    let s := at0 core0 p
    (match walk 0 0x40000000 true s with | .ok e => locate (64 * (e.at 0x40000000 / 64)) == .hbm | .fail _ _ _ => false) = true ∧
    ((SMap.get Regulator.reset 0 ((run (.numericsLogWrite 0) s).stack 0).regs).waiting.map (·.bytes)) = [log0] := by decide +kernel

theorem witness_log_write_fails : let s := at0 core0 { part0 with mon := { Monitor.reset with logQ := [(0x40000000, 4, log0)] } }
    (match walk 0 0x40000000 true s with | .ok _ => false | .fail c _ _ => c != xMigrating) = true ∧
    ((run (.numericsLogWrite 0) s).part 0).mon.failed = true := by decide +kernel

/-- A page under migration holds a log entry back. -/
theorem witness_log_write_waits : let p := { monitored [(0x40000000, 4, log0)] false with
      pt := [(peKey 2 0x40000000, leafWord 0 0 true false true), (peKey 3 0x40000000, 1), (peKey 4 0x40000000, 1)] }
    (match walk 0 0x40000000 true (at0 core0 p) with | .ok _ => 0 | .fail c _ _ => c) = xMigrating ∧
    ((run (.numericsLogWrite 0) (at0 core0 p)).part 0).mon.logQ.length = 1 := by decide +kernel

/-- A bundle that adds a far word asks for its line and waits; its address is looked up. -/
def farCore : Core := coded [syl 1 0 0x010 0x5003 0x0100 0x5002] { core0 with a := [(1, ⟨0x40000000, 5⟩)], store := [(2, .int 5)] }

theorem witness_bundle_waits : let s := at0 farCore paged
    ReadyToIssue 0 0 s ∧ (match (evalBundle 0 0 false s).1 with | .wait ns _ => ns.length | _ => 0) = 1 ∧
    (((run (.bundleIssue 0 Env.quiet) s).core 0).far.mshr.map fun e => (e.2.busy, e.2.va)) = [(true, 0x40000000)] ∧
    ((run (.bundleIssue 0 Env.quiet) s).core 0).pc = 0 := by
  refine ⟨⟨by decide +kernel, by decide +kernel, by decide +kernel, by decide +kernel, by decide +kernel, by decide +kernel,
    rfl⟩, by decide +kernel, by decide +kernel, by decide +kernel⟩

/-! ## Moves and messages -/

/-- Words 0 to 6 of a move descriptor at 0x1000. -/
def moveWords (l : List Nat) : SMap TWord := (l.zipIdx.filter fun e => e.1 != 0).map fun e => (0x200 + e.2, .int (BitVec.ofNat 64 e.1))

/-- A move as armed, and started. -/
def moveJob (l : List Nat) (pos : Nat) (started : Bool) : MoveJob :=
  { MoveJob.given 0x1000 0 1 1 1 [] [] with started := started, desc := if started then l.map (BitVec.ofNat 64) else [], pos := pos }

/-- Two cores of partition 0, the first with a move, the second as logical core 1. -/
def moving (p : Part) (x : Core) : State :=
  { up with cores := [(0, x), (1, { core0 with lcore := 1 })], parts := [(0, { p with place := [(0, 0), (1, 1)] })] }

/-- 16 bytes from 0x100 in core 0 to 0x200 in core 1, with an increment of AC3 of core 1. -/
def copyDesc : List Nat := [0x30, 0x100, 0x0001000000000200, 16, 0, 0, 0x11801]

/-- The mover of core 0 with a descriptor. -/
def mover (l : List Nat) (pos : Nat) (started : Bool) (more : SMap TWord) : Core :=
  { core0 with jobs := { Jobs.reset with moves := [moveJob l pos started] }, store := more ++ moveWords l }

theorem witness_move_refused : let s := moving part0 (mover [3] 0 false [])
    (s.core 0).jobs.moves = [moveJob [3] 0 false] ∧ (s.core 0).part = some 0 ∧ (s.part 0).st = .running ∧ (s.core 0).storeErr = [] ∧
    moveCheck (.core 0) (s.part 0) (s.core 0) 0x1000 = some 2 ∧ (s.part 0).replay = none ∧
    ((run (.moveStart (.core 0) 0 Env.quiet) s).part 0).stopStat = 2 := by decide +kernel

theorem witness_move_copy : let s := moving part0 (mover copyDesc 0 false [(0x20, .int 9), (0x21, ⟨4, 8⟩)])
    moveCheck (.core 0) (s.part 0) (s.core 0) 0x1000 = none ∧ (⟨(s.core 0).words 0x1000 8⟩ : MoveDesc).kind = 0 ∧
    (⟨(s.core 0).words 0x1000 8⟩ : MoveDesc).srcl = true ∧ (⟨(s.core 0).words 0x1000 8⟩ : MoveDesc).dstl = true ∧
    (⟨(s.core 0).words 0x1000 8⟩ : MoveDesc).nrows = 1 ∧ (s.part 0).physOf 0 = some 0 ∧ (s.part 0).physOf 1 = some 1 ∧
    ((run (.moveStart (.core 0) 0 Env.quiet) s).core 1).word 0x40 = .int 9 ∧
    ((run (.moveStart (.core 0) 0 Env.quiet) s).core 1).word 0x41 = TWord.zero := by decide +kernel

theorem witness_move_end : let s := moving part0 (mover copyDesc 16 true [])
    movesOf (.core 0) 0 s = [moveJob copyDesc 16 true] ∧ moverRuns (.core 0) 0 s = true ∧
    (⟨(moveJob copyDesc 16 true).desc⟩ : MoveDesc).total ≤ 16 ∧ (⟨(moveJob copyDesc 16 true).desc⟩ : MoveDesc).nen = true ∧
    (1, 17) ∈ ((run (.moveComplete (.core 0) 0 Env.quiet) s).core 0).pend.events ∧ moveOn (.core 0) 0 true Env.quiet s = s ∧
    ((run (.moveComplete (.core 0) 0 Env.quiet) s).part 0).notifies = [⟨.core 1, 3, .core 0, 0⟩] ∧
    (⟨(moveJob [0x30, 0x100, 0x200, 16] 16 true).desc⟩ : MoveDesc).nen = false := by decide +kernel

theorem witness_notify : let s := fun n => moving { part0 with notifies := [⟨.core 0, 3, .core 0, 0⟩] } { core0 with tu := { tu1 with ac := [(3, n)] } }
    ((s 5).part 0).notifies = [⟨.core 0, 3, .core 0, 0⟩] ∧ (unitTu 0 (.core 0) (s 5)).turn = ((s 5).part 0).turn ∧
    SMap.get 0 3 (unitTu 0 (.core 0) (run (.notifyIncrement 0) (s 5))).ac = 6 ∧
    SMap.get 0 3 (unitTu 0 (.core 0) (s 65535)).ac = 65535 ∧
    (1, 13) ∈ ((run (.notifyIncrement 0) (s 65535)).core 0).pend.turnExc := by decide +kernel

/-- A multicast of 64 bytes from the bed store to core 0. -/
def castDesc : List Nat := [0x21, 0x40000000, 0x200, 64, 0, 0x100000000, 0, 0]

theorem witness_multicast : let s := { at0 core0 (monitored [] false) with
      dies := [(0, { Die.reset with up := true, bulk := [(0, ⟨tu1, [moveJob castDesc 0 true]⟩)] })] }
    let j := moveJob castDesc 0 true
    movesOf (.bulk 0) 0 s = [j] ∧ moverRuns (.bulk 0) 0 s = true ∧ (⟨j.desc⟩ : MoveDesc).kind = 1 ∧ j.wants = true ∧
    j.lacks 0 s = some 0x40000000 ∧ (∀ i, i < 16 → i ≠ 0 → movesOf (.bulk 0) i s = []) ∧
    (match translateFar (.die 0) 0 0x40000000 false (servedNow (.bulk 0) 0 s) with
      | (_, .ok e) => locate (e.at 0x40000000) == .bed 0 0 && locate (64 * (e.at 0x40000000 / 64)) == .bed 0 0
      | (_, .fail _ _ _) => false) = true ∧
    (((run (.multicastSourceLine 0 0 Env.quiet) s).bed 0).reqs.map (·.unit)) = [0x800] ∧
    (((run (.multicastSourceLine 0 0 Env.quiet) (run (.multicastSourceLine 0 0 Env.quiet) s)).bed 0).reqs.length) = 1 := by decide +kernel

/-- A bulk mover's moves under way: of those of two partitions, the one served longest ago goes first. -/
theorem test_round_robin : let s := { at0 core0 (monitored [] false) with
      parts := [(0, monitored [] false), (1, { monitored [] false with place := [(1, 1)] })]
      dies := [(0, { Die.reset with up := true, served := 0, bulk := [(0, ⟨tu1, [moveJob castDesc 0 true]⟩), (1, ⟨tu1, [moveJob castDesc 0 true]⟩)] })] }
    bulkNext 0 s = some 1 ∧ bulkNext 0 (s.updDie 0 fun x => { x with served := 1 }) = some 0 := by decide +kernel

theorem witness_message : let s := moving part0 { core0 with tx := [⟨0, 1, 4, .int 9⟩] }
    s.runsPart 0 = some 0 ∧ nextAccept 0 0 s (s.core 0).tx [] 0 = some (0, ⟨0, 1, 4, .int 9⟩) ∧ (s.part 0).physOf 1 = some 1 ∧
    ((run (.messageAccept (.here 0) Env.quiet) s).core 1).rxOf 4 = [⟨0, 1, 4, .int 9⟩] ∧
    (1, 16) ∈ ((run (.messageAccept (.here 0) Env.quiet) s).core 1).pend.events := by decide +kernel

/-- Logical core 9 is on another module of the span. -/
theorem witness_message_span : let s := moving (spanPart 0 .running) { core0 with tx := [⟨0, 9, 4, .int 9⟩] }
    s.runsPart 0 = some 0 ∧ indexWhere (fun m => m.dst == 9 && m.chan == 4) (s.core 0).tx = some 0 ∧
    (s.core 0).tx[0]? = some ⟨0, 9, 4, .int 9⟩ ∧ (s.part 0).remote.contains 9 = true ∧
    (run (.messageAccept (.out 0 9 4) Env.quiet) s).out = [.spanMsg 0 ⟨0, 9, 4, .int 9⟩] ∧
    ((run (.messageAccept (.out 0 9 4) Env.quiet) s).core 0).tx = [] := by decide +kernel

theorem witness_message_arrives : let s := moving (spanPart 0 .running) core0
    (s.part 0).physOf 1 = some 1 ∧ (s.part 0).st = .running ∧ (s.part 0).remote.contains 9 = true ∧
    ((s.core 1).rxOf 4).length < 8 ∧ (s.core 1).tu.turn = (s.part 0).turn ∧ (s.part 0).remote.contains 8 = false ∧
    ((run (.messageAccept (.arrived 0 9 1 4 (.int 9)) Env.quiet) s).core 1).rxOf 4 = [⟨9, 1, 4, .int 9⟩] ∧
    (1, 16) ∈ ((run (.messageAccept (.arrived 0 9 1 4 (.int 9)) Env.quiet) s).core 1).pend.events ∧
    ((run (.messageAccept (.arrived 0 8 1 4 (.int 9)) Env.quiet) s).core 1).rxOf 4 = [] := by decide +kernel

/-! ## Bed stores, bed caches, far caches -/

/-- A request for line n of a bed store or of HBM, from the write-combining buffer or a miss register of core 0. -/
def req (write chk : Bool) (unit line : Nat) : MemReq :=
  ⟨0, unit, 1, chk, false, line, write, if write then List.replicate 64 7 else [], 15, 0, if write then .wcb 0 else .miss 0 2⟩

/-- The first line of bed die 0. -/
def bedLine : Nat := bedBase 0 / 64

/-- Bed die 0 with one request. -/
def atBed (r : MemReq) : State :=
  { at0 { core0 with far := { FarCache.reset with mshr := [(2, ⟨true, 0, bedLine, false, 0, [], 0, false, none⟩)] } } part0 with
    beds := [(0, { Bed.reset with up := true, reqs := [r], stamps := [(0, ⟨0xFFF, 0, 5, 1⟩)] })] }

theorem witness_bed_write : let r := req true true 5 bedLine
    let s := atBed r
    (s.bed 0).reqs = [r] ∧ locate (64 * r.line) = .bed 0 0 ∧ (s.bed 0).err = [] ∧ (s.bed 0).stampErr = [] ∧
    (stampStep true 5 1 (SMap.get Stamp.cold 0 (s.bed 0).stamps)).2 = none ∧ r.bytes.length = 64 ∧
    ((run (.bedStoreAccess 0 Env.quiet) s).bed 0).store = [(0, 7), (1, 7), (2, 7), (3, 7)] := by decide +kernel

theorem witness_bed_read : let r := req false false 5 bedLine
    let s := atBed r
    (SMap.get Mshr.free 2 (s.core 0).far.mshr).busy = true ∧ (SMap.get Mshr.free 2 (s.core 0).far.mshr).line = r.line ∧
    (SMap.get Mshr.free 2 ((run (.bedStoreAccess 0 Env.quiet) s).core 0).far.mshr).got = some ⟨List.replicate 64 0, 0⟩ := by decide +kernel

theorem witness_bed_mover : let r : MemReq := { req true true 5 bedLine with who := .mover 0 }
    let j : MoveJob := { moveJob [] 0 true with phase := .writing 64 }
    let s := { atBed r with cores := [(0, { core0 with jobs := { Jobs.reset with moves := [j] } })] }
    r.who = .mover 0 ∧ coreNum 0 = (0 : CoreId) ∧ movesOf (.core 0) r.part s = [j] ∧ j.phase = .writing 64 ∧
    (⟨j.desc⟩ : MoveDesc).total ≤ j.pos + 64 ∧
    ((run (.bedStoreAccess 0 Env.quiet) s).core 0).jobs.moves = [{ j with pos := 64, phase := .idle }] := by decide +kernel

theorem witness_bed_race : let r := req true true 6 bedLine
    let s := atBed r
    (stampStep true 6 1 (SMap.get Stamp.cold 0 (s.bed 0).stamps)).2 = some 5 ∧ (s.part 0).st = .running ∧ (s.part 0).replay = none ∧
    ((run (.bedStoreAccess 0 Env.quiet) s).part 0).stopStat = 2 := by decide +kernel

theorem witness_race_rule : (stampStep true 3 7 Stamp.cold).2 = none ∧ (stampStep false 3 7 Stamp.cold).2 = none ∧
    (stampStep true 4 7 (stampStep true 3 7 Stamp.cold).1).2 = some 3 ∧
    (stampStep false 4 7 (stampStep false 3 7 Stamp.cold).1).2 = none ∧
    (stampStep true 4 7 (stampStep false 3 7 Stamp.cold).1).2 = some 3 := by decide +kernel

theorem witness_sweep : let s := { at0 core0 { part0 with turn := 20000, bedAt := [(0, 0, 1)] } with
      beds := [(0, { Bed.reset with up := true, stamps := [(0, ⟨4, 7, 5, 19999⟩)], sweepLeft := [(0, 9)] })] }
    nextQuota (quotaLines 0 s) (s.bed 0).sweep = some (0, 0) ∧ SMap.get 0 0 (s.bed 0).stampErr = 0 ∧
    SMap.get Stamp.cold 0 ((run (.sweepVisit 0) s).bed 0).stamps = ⟨0xFFF, 0, 5, 19999⟩ ∧
    ((run (.sweepVisit 0) s).bed 0).sweepLeft = [(0, 8)] := by decide +kernel

/-- An uncorrectable stamp that the sweep meets stops the line's partition. -/
theorem witness_sweep_bad : let s := { at0 core0 { part0 with turn := 20000, bedAt := [(0, 0, 1)] } with
      beds := [(0, { Bed.reset with up := true, stampErr := [(0, 2)], sweepLeft := [(0, 9)] })] }
    nextQuota (quotaLines 0 s) (s.bed 0).sweep = some (0, 0) ∧ SMap.get 0 0 (s.bed 0).stampErr = 2 ∧ (s.part 0).st = .running ∧
    (s.part 0).replay = none ∧ ((run (.sweepVisit 0) s).part 0).stopStat = 2 ∧ ((run (.sweepVisit 0) s).bed 0).sweep = 1 := by decide +kernel

theorem witness_bed_fill : let r : MemReq := { req false false 0 77 with ro := true, bytes := List.replicate 64 1, who := .bedFill 0 }
    let s := { up with beds := [(0, { Bed.reset with up := true, cacheMiB := 16, fillQ := [r] })] }
    (s.bed 0).fillQ = [r] ∧ (s.bed 0).cacheMiB ≠ 0 ∧ (bedFind ((run (.bedCacheFill 0) s).bed 0) 77).isSome = true := by decide +kernel

/-- A line that has come back for miss register 2 of core 0. -/
def filled (bad : Nat) : State :=
  at0 { core0 with far := { FarCache.reset with mshr := [(2, ⟨true, 0, 77, true, 0, [], 0, false, some ⟨List.replicate 64 1, bad⟩⟩)] } } part0

/-- The core has stored a byte to the line since, or a move of the core has written to it. -/
def overtaken (stale : Bool) : State :=
  at0 { core0 with far := { FarCache.reset with
    mshr := [(2, ⟨true, 0, 77, false, 0, [0, 9], 2, stale, some ⟨List.replicate 64 1, 0⟩⟩)] } } part0

theorem witness_far_fill_own : let y := fun stale => ((run (.farCacheFill 0 2 Env.quiet) (overtaken stale)).core 0).far
    (SMap.get Mshr.free 2 ((overtaken false).core 0).far.mshr).mask = 2 ∧
    (y false).bundle.map (fun e => e.2.bytes.take 3) = [[1, 9, 1]] ∧ ((farFind (y false) 77).map fun e => e.2.bytes.take 3) = some [1, 9, 1] ∧
    (y true).lines = [] ∧ (y true).bundle.length = 1 := by decide +kernel

theorem witness_far_fill : (filled 0).coreRuns 0 = some 0 ∧ (SMap.get Mshr.free 2 ((filled 0).core 0).far.mshr).busy = true ∧
    (SMap.get Mshr.free 2 ((filled 0).core 0).far.mshr).got = some ⟨List.replicate 64 1, 0⟩ ∧
    (farFind ((run (.farCacheFill 0 2 Env.quiet) (filled 0)).core 0).far 77).isSome = true ∧
    ((run (.farCacheFill 0 2 Env.quiet) (filled 0x10)).core 0).far.lines = [] := by decide +kernel

/-! ## HBM -/

/-- Stack 0 with partition 0's regulator as given. -/
def regulated (g : Regulator) : State := { running0 with hbms := [(0, { Stack.reset with up := true, regs := [(0, g)] })] }

theorem witness_regulator : let r := req true false 0 0
    let s := fun n => regulated { Regulator.reset with tokens := n, waiting := [r] }
    (SMap.get Regulator.reset 0 ((s 2047).stack 0).regs).waiting = [r] ∧
    ((run (.regulatorRelease 0 0) (s 2047)).stack 0).entering = [] ∧ ((run (.regulatorRelease 0 0) (s 2048)).stack 0).entering = [r] := by
  decide +kernel

theorem witness_queue_entry : let r := req true false 0 0
    let s := { running0 with hbms := [(0, { Stack.reset with up := true, entering := [r] })] }
    indexWhere (fun r => reqPc r == 0) (s.stack 0).entering = some 0 ∧ (s.stack 0).entering.find? (fun r => reqPc r == 0) = some r ∧
    SMap.get [] 0 ((run (.hbmQueueEntry 0 0) s).stack 0).queues = [⟨r, 0⟩] := by decide +kernel

/-- Stack 0 with two writes of one line in a reorder queue. -/
def queued : State := { running0 with hbms := [(0, { Stack.reset with up := true, queues := [(0, [⟨req true false 0 0, 0⟩, ⟨req true false 0 0, 0⟩])] })] }

theorem witness_hbm_serve : mayServe (SMap.get [] 0 (queued.stack 0).queues) 0 (req true false 0 0) = true ∧
    mayServe (SMap.get [] 0 (queued.stack 0).queues) 1 (req true false 0 0) = false ∧ queued.hbmErr = [] ∧
    hbmSite 0 queued = .user 0 ∧ mirrorOf 0 queued = none ∧
    (run (.hbmServe 0 0 0 Env.quiet) queued).hbm = [(0, 7), (1, 7), (2, 7), (3, 7)] := by decide +kernel

theorem witness_hbm_serve_read : let r := req false false 0 0
    let s := { atBed r with hbm := [(0, 9)], hbms := [(0, { Stack.reset with up := true, queues := [(0, [⟨r, 0⟩])] })]
                            cores := [(0, { core0 with far := { FarCache.reset with mshr := [(2, ⟨true, 0, 0, false, 0, [], 0, false, none⟩)] } })] }
    mayServe (SMap.get [] 0 (s.stack 0).queues) 0 r = true ∧ (s.stack 0).spareErr = [] ∧ r.who = .miss 0 2 ∧
    (SMap.get Mshr.free 2 ((run (.hbmServe 0 0 0 Env.quiet) s).core 0).far.mshr).got = some ⟨9 :: List.replicate 63 0, 0⟩ := by decide +kernel

theorem witness_hbm_serve_spare :
    let s := { queued with hbms := [(0, { queued.stack 0 with table0 := [(0, ⟨true, 0, 0, 0⟩)] })] }
    hbmSite 0 s = .spare 0 0 0 ∧ (run (.hbmServe 0 0 0 Env.quiet) s).hbm = [] ∧
    ((run (.hbmServe 0 0 0 Env.quiet) s).stack 0).spare = [(0, 7), (1, 7), (2, 7), (3, 7)] := by decide +kernel

theorem witness_hbm_patrol : (up.stack 0).up = true ∧ up.hbmErr = [] ∧ (up.stack 0).spareErr = [] ∧
    (∀ pc, pc < 64 → ownTurn 0 pc (patrolPa 0 pc 0 / 64) 1 up = true) ∧
    ((run (.hbmPatrolScrub 0 Env.quiet) up).stack 0).patrol = 1 := by decide +kernel

/-- An older entry to the line the scrub reads goes first. -/
theorem witness_hbm_patrol_waits : ownTurn 0 0 (patrolPa 0 0 0 / 64) 1 queued = false ∧
    ((run (.hbmPatrolScrub 0 Env.quiet) queued).stack 0).patrol = 0 := by decide +kernel

theorem test_hbm_patrol_corrects : (run (.hbmPatrolScrub 0 Env.quiet) { up with hbmErr := [(0, 1)] }).hbmErr = [] := by decide +kernel

theorem witness_hbm_temp : up.running = true ∧ up.power.rails = true ∧ up.power.trip = false ∧
    ((run (.hbmTempSample 0 (-40)) up).stack 0).temp = -40 ∧ (run (.hbmTempSample 0 419) up).power.trip = false ∧
    (run (.hbmTempSample 0 420) up).power.tripCause = 1 := by decide +kernel

/-- A row copy on stack 0 at line n. -/
def copying (n since : Nat) : State := { up with hbms := [(0, { Stack.reset with up := true, copy := some ⟨⟨0, 0, 0, 1⟩, 3, n, since⟩ })] }

theorem witness_line_copy : let s := copying 15 0
    (s.stack 0).copy = some ⟨⟨0, 0, 0, 1⟩, 3, 15, 0⟩ ∧ SMap.get [] 0 (s.stack 0).queues = [] ∧ s.hbmErr = [] ∧
    hbmSite (rowLine 0 ⟨0, 0, 0, 1⟩ 15) s = .user (rowLine 0 ⟨0, 0, 0, 1⟩ 15) ∧
    SMap.get Remap.none 3 ((run (.remapLineCopy 0 Env.quiet) s).stack 0).table1 = ⟨true, 0, 0, 1⟩ ∧
    ownTurn 0 0 (rowLine 0 ⟨0, 0, 0, 1⟩ 15 / 64) 2 s = true ∧
    ((run (.remapLineCopy 0 Env.quiet) (copying 14 32)).stack 0).table1 = [] := by decide +kernel

/-- With its queue not empty, a line is copied for every 32 transactions served. -/
theorem witness_line_copy_waits : let s := fun n => { copying 0 0 with hbms := [(0, { (copying 0 n).stack 0 with
      queues := [(0, [⟨req true false 0 0, 0⟩])] })] }
    (s 31).hbms.length = 1 ∧ SMap.get [] 0 ((s 31).stack 0).queues ≠ [] ∧
    ((run (.remapLineCopy 0 Env.quiet) (s 31)).stack 0).copy = some ⟨⟨0, 0, 0, 1⟩, 3, 0, 31⟩ ∧
    ((run (.remapLineCopy 0 Env.quiet) (s 32)).stack 0).copy = some ⟨⟨0, 0, 0, 1⟩, 3, 1, 0⟩ := by decide +kernel

theorem witness_flip : let s := copying 16 0
    (s.stack 0).copy = some ⟨⟨0, 0, 0, 1⟩, 3, 16, 0⟩ ∧ (s.stack 0).pendingRows = [] ∧
    ((run (.remapFlip 0) s).stack 0).active = 1 ∧ (run (.remapFlip 0) s).hs.logNext = 1 ∧
    (run (.remapFlip 0) { s with chat := { s.chat with lasting := [(Res.key ⟨0x0A, rowId 0 ⟨0, 0, 0, 1⟩⟩, true)] } }).chat.lasting = [] := by
  decide +kernel

theorem witness_persist : up.hs.fwRun = true ∧
    SMap.get [] 0 (run (.remapPersist 0) { up with hbms := [(0, { Stack.reset with unpersist := [(3, ⟨0, 0, 0, 1⟩, false)] })] }).flash.remaps
      = [⟨3, ⟨0, 0, 0, 1⟩, false⟩] := by decide +kernel

/-! ## Translation, fault queues, hot pages, lost hosts, degradation -/

theorem witness_walk : let s := at0 core0 paged
    (s.core 0).part = some 0 ∧ inLocal 0x40000000 = false ∧ tlbFind (s.core 0).tlb 0 0x40000000 = none ∧
    walk 0 0x40000000 true s = .ok ⟨0, 0x40000000, 0x200000, bedBase 0, true, false⟩ ∧
    ((run (.tlbWalk (.core 0) 0 0x40000000 true Env.quiet) s).core 0).tlb = [⟨0, 0x40000000, 0x200000, bedBase 0, true, false⟩] := by
  decide +kernel

/-- An address that is not mapped fails, and installs nothing; an address the TLB holds is found there. -/
theorem witness_walk_fails : let s := at0 core0 part0
    let t := at0 { core0 with tlb := [⟨0, 0x40000000, 0x200000, bedBase 0, true, false⟩] } part0
    (match walk 0 0x40000000 true s with | .ok _ => false | .fail _ _ _ => true) = true ∧
    ((run (.tlbWalk (.core 0) 0 0x40000000 true Env.quiet) s).core 0).tlb = [] ∧
    (tlbFind (t.core 0).tlb 0 0x40000000).isSome = true ∧ (t.core 0).tlbErr = false := by decide +kernel

/-- Core 0's mover stalled on an address that is not mapped. -/
def stalled : State :=
  at0 { core0 with jobs := { Jobs.reset with moves := [{ moveJob copyDesc 0 true with stall := some ⟨1, 0x40000000, false, 4, 0, none⟩ }] } } part0

theorem witness_fault_queue : (stalled.die 0).stalled = [] ∧ engineFault 0 0 stalled = some (0, ⟨1, 0x40000000, false, 4, 0, none⟩) ∧
    mergeEntry 0 ⟨1, 0x40000000, false, 4, 0, none⟩ (stalled.die 0) = none ∧
    firstFrom (fun n => !(SMap.get FqEntry.free n (stalled.die 0).fq).valid) 0 256 = some 0 ∧
    (SMap.get FqEntry.free 0 ((run (.faultQueueEnter 0 0) stalled).die 0).fq).va = 0x40000000 := by decide +kernel

/-- A fault-queue entry of partition 0 that no engine waits for, of the cause given. -/
def lone (cause : Nat) : State :=
  { running0 with dies := [(0, { Die.reset with up := true, fq := [(7, ⟨true, false, 0, 4, cause, 0x40000000, 0, 0, [], 1, 0⟩)] })] }

theorem witness_resume : let s := lone xMigrating
    let r := lone 1
    s.hs.fwRun = true ∧ (SMap.get FqEntry.free 7 (s.die 0).fq).valid = true ∧
    (SMap.get FqEntry.free 7 (s.die 0).fq).engines = [] ∧ (s.die 0).stalled = [] ∧
    entryMigrating (SMap.get FqEntry.free 7 (s.die 0).fq) s = false ∧ (1 : Nat) ≠ xMigrating ∧
    (SMap.get FqEntry.free 8 (s.die 0).fq).valid = false ∧ (SMap.get FqEntry.free 7 (r.die 0).fq).part = 0 ∧
    (r.part 0).st = .running ∧ (r.part 0).replay = none ∧
    ((run (.fqResumeRetry 0 7) s).die 0).fq = [] ∧ ((run (.fqResumeRetry 0 7) r).die 0).fq.length = 1 ∧
    ((run (.fqResumeRetry 0 8) s).die 0).badRes = true ∧ ((run (.fqResumeAbort 0 7) r).part 0).stopStat = 2 ∧
    ((run (.fqResumeAbort 0 7) s).part 0).st = .running := by decide +kernel

theorem witness_decay : let s := { running0 with dies := [(0, { Die.reset with up := true, refcyc := 2 ^ 20, hotThresh := 0, acc := [(3, ⟨true, 0, 9, 5⟩)] })] }
    (s.die 0).decayed ≠ (s.die 0).refcyc / 2 ^ 20 ∧ (up.die 0).decayed = (up.die 0).refcyc / 2 ^ 20 ∧ (s.die 0).hotThresh = 0 ∧
    SMap.get AccCtr.free 3 ((run (.accessCounterDecay 0) s).die 0).acc = ⟨true, 0, 9, 2⟩ := by decide +kernel

/-- A hot page on die 0, and one on port A's way to its ring. -/
def hot (en : Bool) (l : List HotEntry) : State :=
  { running0 with dies := [(0, { Die.reset with up := true, hpq := l, hpqDrop := 3 })]
                  portA := { Port.reset with linkUp := true, hot := [⟨0, 5, 6⟩], hpr := { Ring.reset with en := en, base := 0x10000 } } }

theorem witness_hot_pages : ((hot true [⟨0, 5, 6⟩]).die 0).hpq = [⟨0, 5, 6⟩] ∧ ((hot true []).part 0).st ≠ .empty ∧ (hot true []).hs.fwRun = true ∧
    ((hot true []).port .a).hot = [⟨0, 5, 6⟩] ∧ ((hot true []).port .a).hpr.en = true ∧ ((hot false []).port .a).hpr.en = false ∧
    (run (.hpqHeadRead 0) (hot true [⟨0, 5, 6⟩])).portA.hot = [⟨0, 5, 6⟩, ⟨0, 5, 6⟩] ∧
    ((run (.hpqStatusRead 0) (hot true [])).die 0).hpqDrop = 0 ∧
    (run (.hotPageRingWrite .a) (hot true [])).portA.hpr.tail = 1 ∧ (run (.hotPageRingWrite .a) (hot false [])).portA.hot = [] := by
  decide +kernel

theorem witness_migration_fails : let s := at0 core0 { part0 with migr := some ⟨0x40000000, 0, .a, 1⟩ }
    (s.part 0).migr = some ⟨0x40000000, 0, .a, 1⟩ ∧ regionQuiet 0 0 s = true ∧
    (regionsInside 0x40000000 0x200000 (s.part 0).regions).head?.map (·.pa) = none ∧ (∀ i, i < 12 → (s.die i).fq = []) ∧
    ((run (.migrationCopyComplete 0 (.fail .completerAbort)) s).mbx .a 1).result = some ⟨0x0D, []⟩ := by decide +kernel

theorem witness_host_read : let s := at0 { core0 with far := { FarCache.reset with mshr := [(2, ⟨true, 0x50000000, hostBase .a / 64, false, 0, [], 0, false, none⟩)] } } part0
    (s.part 0).units.contains (.core 0) = true ∧ awaitedLine 0 (.core 0) s = some (0x50000000, 0) ∧
    ((run (.hostWindowReadFail 0 (.core 0) .completionTimeout) s).part 0).stopStat = 0x0D := by decide +kernel

/-- A partition admitted, or not, by the capacities as they are: a period of n ns. -/
def admitted (n : Nat) : State :=
  let s := at0 core0 { part0 with cfg := some { cfg0 with hshare := 4, streams := [⟨0, false, true, n, n, 0, 64⟩] }, img := some img0 }
  { s with hs := { s.hs with readmit := true } }

theorem witness_readmit : (admitted 0).running = true ∧ (admitted 0).hs.fwRun = true ∧ (admitted 0).hs.readmit = true ∧
    (admitted 0).hs.routeHold = [] ∧ ((admitted 0).part 0).cfg.isSome = true ∧ ((admitted 0).part 0).img = some img0 ∧
    (admitPartition { cfg0 with hshare := 4, streams := [⟨0, false, true, 0, 0, 0, 64⟩] } img0 (capsOf cfg0 0 (admitted 0)) (spareOfPlace [(0, 0)] (admitted 0))).ok = false ∧
    (admitPartition { cfg0 with hshare := 4, streams := [⟨0, false, true, 90000, 90000, 0, 64⟩] } img0 (capsOf cfg0 0 (admitted 0)) (spareOfPlace [(0, 0)] (admitted 0))).ok = true ∧
    ((run .degradationReadmission (admitted 0)).part 0).revoked = true ∧
    ((run .degradationReadmission (admitted 90000)).part 0).st = .running ∧
    ((admitted 0).part 0).lostDie (admitted 0) = false := by decide +kernel

/-- Partition 0 in another state. -/
def admittedIn (st : PartSt) (n : Nat) : State := (admitted n).updPart 0 fun x => { x with st := st }

/-- One that does not run takes the new capacities, or, unless it is FAULTED, is revoked; one that holds a lost die is untouched. -/
theorem witness_readmit_others : let r := fun s => (run .degradationReadmission s).part 0
    let gone := { admitted 0 with dies := [(0, { Die.reset with up := true, fenced := true })] }
    (r (admittedIn .stopped 0)).revoked = true ∧ (r (admittedIn .stopped 90000)).revoked = false ∧
    (r (admittedIn .faulted 0)).revoked = false ∧ (r (admittedIn .faulted 0)).caps ≠ ((admitted 0).part 0).caps ∧
    (gone.part 0).lostDie gone = true ∧ r gone = gone.part 0 := by decide +kernel

theorem witness_route_change : let s := { doneAll part0 with
      hs := { (doneAll part0).hs with routeHold := [0] }, lanes := [(0, { Bundle.reset with retiring := true })] }
    s.running = true ∧ s.hs.routeHold ≠ [] ∧ holdersQuiet s = true ∧ (s.lane 0).retiring = true ∧
    ((run (.routeChangeComplete []) s).lane 0).retired = true ∧ (run (.routeChangeComplete []) s).flash.repair.bundles = [0] := by decide +kernel

/-! ## Streams, posts, rings -/

/-- A host window at 0x50000000 of port A's host memory at 0, and its page. -/
def win0 : Window := ⟨0x50000000, 0, 0x200000, true⟩
def windowed : Part :=
  { part0 with
    windows := [(0, some win0)]
    winNext := [(0, some win0)]
    regions := [⟨0x50000000, 0x200000, hostBase .a, true, false, false⟩]
    regNext := [⟨0x50000000, 0x200000, hostBase .a, true, false, false⟩]
    pt := [(peKey 2 0x50000000, leafWord (hostBase .a) 0 true false false), (peKey 3 0x50000000, 1), (peKey 4 0x50000000, 1)] }

/-- An open stream with three submissions; `f` a fetch under way. -/
def stream0 (f : Option Fetch) : Stream := ⟨8, 16, 2, 0x1000, 0x2000, 0x4000, 64, 0, 3, 0, 0, 0, 0, [], f⟩

/-- The partition with stream 0, an input or an output. -/
def streaming (out : Bool) (y : Stream) (posts : List Post) : State :=
  at0 core0 { windowed with cfg := some { cfg0 with streams := [⟨0, out, !out, 1000, 1000, 1, 4096⟩] }, streams := [(0, some y)], postQ := posts }

theorem witness_doorbell : let s := streaming false (stream0 none) []
    s.reaches .a = true ∧ (s.port .a).quiesced = false ∧ (s.part 0).st ≠ .empty ∧ (s.part 0).owner = .a ∧
    (s.part 0).stream 0 = some (stream0 none) ∧ doorbellOk (stream0 none) 5 0 = true ∧ doorbellOk (stream0 none) 17 0 = false ∧
    (((run (.streamDoorbell .a 0 0 5) s).part 0).stream 0).map (·.sqTail) = some 5 ∧
    (run (.streamDoorbell .a 0 0 17) s).portA.ringErr = 1 ∧ (s.part 1).st = .empty ∧
    (run (.streamDoorbell .a 1 0 5) s).portA.dbIgnored = 1 := by decide +kernel

/-- A submission entry: 64 bytes at 0x8000, USER 9. -/
def entry0 (len : Nat) : List Byte := leBytes 0x8000 8 ++ leBytes len 4 ++ leBytes 0 4 ++ leBytes 9 8 ++ leBytes 0 8

theorem witness_frame_fetch : let s := streaming false (stream0 none) []
    (s.part 0).turn ≠ 0 ∧ (s.part 0).replay = none ∧ ((s.part 0).decl 0).map (·.output) = some false ∧
    mayFetch 0 (stream0 none) s = true ∧ (entry0 64).length = 32 ∧ (s.part 0).windowOf 0x8000 64 = some win0 ∧
    (((run (.frameFetch 0 0 (.data (entry0 64))) s).part 0).stream 0).bind (·.fetch) = some ⟨0, 0x8000, 64, 9, []⟩ ∧
    ((run (.frameFetch 0 0 (.data (entry0 0))) s).part 0).stopStat = 2 := by decide +kernel

theorem witness_frame_arrives : let y := stream0 (some ⟨0, 0x8000, 64, 9, []⟩)
    let s := streaming false y []
    turnOpen 0 s = true ∧ (s.part 0).stream 0 = some y ∧ y.fetch = some ⟨0, 0x8000, 64, 9, []⟩ ∧
    (match (moverX 0 false 3 0x50008000 64 s).2 with | .go => true | _ => false) = true ∧ (s.part 0).physOf y.core = some 0 ∧
    (((run (.frameFetchComplete 0 0 (.data (List.replicate 64 1)) Env.quiet) s).part 0).stream 0).map (·.cqCount) = some 1 ∧
    ((run (.frameFetchComplete 0 0 (.data (List.replicate 64 1)) Env.quiet) s).core 0).word 0x800 = .int 0x0101010101010101 := by
  decide +kernel

/-- The page of a frame has moved to HBM: its line is asked for there, and the frame is written once it has come (R327). -/
theorem witness_frame_in_hbm : let s := fun l => streaming false (stream0 (some ⟨0, 0x8000, 64, 9, l⟩)) []
    let moved := fun (s : State) => s.updPart 0 fun p => { p with
      pt := [(peKey 2 0x50000000, leafWord 0xA00000 0 true false false), (peKey 3 0x50000000, 1), (peKey 4 0x50000000, 1)] }
    let f := Instr.frameFetchComplete 0 0 (.data (List.replicate 64 1)) Env.quiet
    let t := run f (moved (s []))
    (t.part 0).fetchLines 0 = [(0x50008000, none)] ∧
    (SMap.get Regulator.reset 0 (t.stack (hbmDecode 0xA08000).stack).regs).waiting.length = 1 ∧
    ((run f (moved (s [(0x50008000, some ⟨List.replicate 64 2, 0⟩)]))).core 0).word 0x800 = .int 0x0202020202020202 := by
  decide +kernel

/-- A post of 8 bytes. -/
def post0 : Post := ⟨0, 0, List.replicate 8 5, false, 1⟩

theorem witness_post : let s := streaming true (stream0 none) [post0]
    (s.part 0).postQ = [post0] ∧ (s.part 0).stream 0 = some (stream0 none) ∧ ((s.part 0).decl 0).map (·.output) = some true ∧
    (subEntry (entry0 64)).clear = true ∧ (s.part 0).windowOf (subEntry (entry0 64)).buf (subEntry (entry0 64)).len = some win0 ∧
    win0.writable = true ∧ (match (postX 0 post0 (.data (entry0 64)) s).2 with | .go => true | _ => false) = true ∧
    (match (hostXlate 0 0x50008000 true (postX 0 post0 (.data (entry0 64)) s).1).2 with
      | .ok e => locate (e.at 0x50008000) == .host .a 0x8000 | .fail _ _ _ => false) = true ∧
    .hostWrite .a 0x8000 (List.replicate 8 5) ∈ (run (.postCompletion 0 (.data (entry0 64))) s).out := by decide +kernel

/-- The host mover's lookup fills the headstock's TLB, and a parity error there is met as a miss (R313, R321). -/
theorem test_headstock_tlb : let s := streaming true (stream0 none) [post0]
    let t := run (.postCompletion 0 (.data (entry0 64))) s
    t.hs.tlb = [⟨0, 0x50000000, 0x200000, hostBase .a, true, false⟩] ∧
    (tlbFind t.hs.tlb 0 0x50008000).isSome = true ∧ s.hs.tlb = [] := by decide +kernel

theorem witness_no_buf : let s := streaming true { stream0 none with sqTail := 0 } [post0]
    ((run (.postCompletion 0 (.data [])) s).port .a).noBuf = 1 ∧ ((run (.postCompletion 0 (.data [])) s).part 0).postQ = [] := by
  decide +kernel

/-- Port A with a notice and a ring. -/
def noticed (r : Ring) : State := { up with portA := { Port.reset with linkUp := true, notices := [⟨1, 2, 3, 4, 5, 6, 7⟩], ntc := r } }

theorem witness_notice_ring : let r : Ring := { Ring.reset with en := true, base := 0x10000 }
    (noticed r).hs.fwRun = true ∧ ((noticed r).port .a).notices = [⟨1, 2, 3, 4, 5, 6, 7⟩] ∧ (noticed r).reaches .a = true ∧
    (run (.noticeRingWrite .a) (noticed r)).portA.ntc.tail = 1 ∧
    (run (.noticeRingWrite .a) (noticed { r with tail := 16 })).portA.ntc.drop = 1 ∧
    (run (.noticeRingWrite .a) (noticed { r with en := false })).portA.notices = [] ∧
    (run (.ntcBaseWrite .a 0x30012) (noticed { r with en := false, head := 3 })).portA.ntc = ⟨0x30000, true, 2, 0, 0, 0⟩ ∧
    (run (.hprBaseWrite .a 0x30019) (noticed r)).portA.hpr.en = false := by decide +kernel

/-! ## Registers, BAR2, mailboxes -/

theorem witness_reads_clear : let s := { up with portA := { up.portA with ringErr := 3, noBuf := 4, hmb := { Hmb.reset with refused := 5 } } }
    s.reaches .a = true ∧ (run (.errCntRead ⟨.a, none⟩) s).out = [.readData .a (leBytes 3 8)] ∧
    (run (.errCntRead ⟨.a, none⟩) s).portA.ringErr = 0 ∧ (run (.errCnt2Read ⟨.a, none⟩) s).portA.noBuf = 0 ∧
    (run (.hmbRefusedRead .a) s).portA.hmb.refused = 0 := by decide +kernel

/-- A read of one half clears the counters of that half. -/
theorem witness_half_reads : let s := { up with portA := { up.portA with ringErr := 3, bar2Wr := 6, bar2Ue := 7, noBuf := 4 } }
    s.portA.dbIgnored * 2 ^ 16 + s.portA.ringErr < 2 ^ 32 ∧ s.portA.bar2Ue * 2 ^ 16 + s.portA.noBuf < 2 ^ 32 ∧
    (run (.errCntRead ⟨.a, some 0⟩) s).out = [.readData .a (leBytes 3 4)] ∧
    (run (.errCntRead ⟨.a, some 0⟩) s).portA.ringErr = 0 ∧ (run (.errCntRead ⟨.a, some 0⟩) s).portA.bar2Wr = 6 ∧
    (run (.errCntRead ⟨.a, some 1⟩) s).portA.ringErr = 3 ∧ (run (.errCntRead ⟨.a, some 1⟩) s).portA.bar2Wr = 0 ∧
    (run (.errCnt2Read ⟨.a, some 0⟩) s).portA.noBuf = 0 ∧ (run (.errCnt2Read ⟨.a, some 1⟩) s).portA.noBuf = 4 := by decide +kernel

/-- PowerState 0 takes the function back to D0. -/
theorem witness_power_state : let s := { up with portA := { up.portA with d3 := true } }
    s.running = true ∧ (s.port .a).linkUp = true ∧
    (run (.registerWrite (.pcie .a .power) 0 (leBytes 0 4)) s).portA.d3 = false := by decide +kernel

theorem witness_registers : up.reaches .a = true ∧ up.fwUp = true ∧
    (run (.registerWrite (.bar0 .a) 0x10 (leBytes 6 8)) { up with portA := { up.portA with intCause := 7 } }).portA.intCause = 1 ∧
    (run (.registerWrite (.bar0 .a) 0x48 (leBytes 6 8)) up).portA.ntc.head = 6 ∧
    ((run (.registerWrite (.bar0 .a) 0x8003 [1, 2]) up).mbx .a 0).cmd = [(3, 1), (4, 2)] ∧
    (run (.registerWrite (.die 0) 0 (leBytes (2 ^ 33) 8)) { up with dies := [(0, { Die.reset with badRes := true, fqOvf := true })] }).die 0
      = { Die.reset with fqOvf := true } ∧
    thresholdReg 9 (run (.registerWrite .chat 72 (leBytes 77 8)) up) = 77 ∧
    (run (.registerWrite .alert 10 [1]) { up with mgmt := ⟨0, 3, none⟩ }).mgmt.alert = 2 := by decide +kernel

theorem witness_bar2 : let s := at0 core0 { part0 with hbmAt := [(5, 1)] }
    let s := { s with hbm := [(5 * 0x200000, 9)], portA := { s.portA with bar2 := [(0, some (0, 0))] } }
    s.reaches .a = true ∧ SMap.get none (0x200000 / 0x200000) (s.port .a).bar2 = none ∧ SMap.get none 0 (s.port .a).bar2 = some (0, 0) ∧
    (run (.bar2Read .a 0x200000 4 Env.quiet) s).portA.bar2Unmap = 1 ∧
    (let t := run (.bar2Read .a 0 2 Env.quiet) s
     t.portA.reads = [⟨0, [⟨0, 163840, 0, 2, none⟩], false⟩] ∧ t.out = [] ∧
     (SMap.get Regulator.reset 0 (t.stack (hbmDecode 0xA00000).stack).regs).waiting.length = 1) ∧ (run (.bar2Write .a 0 [1]) s).portA.bar2Wr = 1 := by decide +kernel

/-- A transaction of a BAR2 read stands in a reorder queue; once it is served the read completes. -/
theorem witness_bar2_serve : let k := (hbmDecode 0xA00000).stack
    let pc := (hbmDecode 0xA00000).row.pc
    let s := at0 core0 { part0 with hbmAt := [(5, 1)] }
    let r := mkReq 0 0x810 1 false 163840 (.bar2 .a 0) s
    let s := { s with
      hbm := [(5 * 0x200000, 9)]
      hbms := [(k, { s.stack k with queues := [(pc, [⟨r, 0⟩])] })]
      portA := { s.portA with reads := [⟨0, [⟨0, 163840, 0, 2, none⟩], false⟩] } }
    let t := run (.hbmServe (stackNum k) (Fin.ofNat 64 pc) 0 Env.quiet) s
    mayServe [⟨r, 0⟩] 0 r = true ∧ t.out = [.bar2Data .a [9, 0] false] ∧ t.portA.reads = [] := by decide +kernel

/-- A mailbox BUSY with a command: opcode, PART, parameters. -/
def busy (op part : Nat) (params : List Byte) : Mbx :=
  let bs := leBytes op 2 ++ leBytes params.length 2 ++ leBytes part 1 ++ List.replicate 27 0 ++ params
  { Mbx.reset with state := 1, copy := (bs.zipIdx.filter fun e => e.1 != 0).map fun e => (e.2, e.1) }

/-- A module whose mailbox 1 of port A has that command, accepted in the state as it is. -/
def asked (op part : Nat) (params : List Byte) (s : State) : State :=
  { s with portA := { s.portA with mbx := [(1, { busy op part params with seen := seenBy part s })] } }

theorem witness_mailbox : doorbellTaken .a 1 up = true ∧
    ((run (.registerWrite (.bar0 .a) 0x120 (leBytes 1 8)) up).mbx .a 1).state = 1 ∧
    doorbellTaken .a 1 (asked 1 0xFF [] up) = false ∧ ((run (.mbxDoorbellRefused .a 1) (asked 1 0xFF [] up)).mbx .a 1).refused = 1 ∧
    (let s := { up with portA := { up.portA with hmb := { Hmb.reset with state := 1 } } }
     (s.port .a).hmb.state = 1 ∧ (run (.hmbCmdRefused .a 1) s).portA.hmb.refused = 1) := by decide +kernel

theorem witness_complete : let s := { up with portA := { up.portA with mbx := [(1, { busy 1 0xFF [] with ran := true, result := some ⟨0, [1, 2]⟩ })] } }
    (s.mbx .a 1).state = 1 ∧ s.fwUp = true ∧ (s.mbx .a 1).result = some ⟨0, [1, 2]⟩ ∧
    ((run (.mbxCommandComplete .a 1) s).mbx .a 1).state = 2 ∧
    ((run (.mbxCommandComplete .a 1) s).mbx .a 1).resp.read 32 2 = [1, 2] := by decide +kernel

/-- A vector of a function whose MSI-X is enabled goes out; else it pends (R358). -/
theorem witness_signalled : let s := fun on => { up with portA := { up.portA with cfg := { PcieCfg.reset with msixEn := on }, msix := [(7, ⟨0, 0, false⟩)] } }
    ((s true).port .a).sends 7 = true ∧ ((s false).port .a).sends 7 = false ∧ (0 : Nat) < 0xFFFF ∧
    (run (.bar2Write .a 0 [1]) (s true)).out = [.msix .a 7] ∧ (run (.bar2Write .a 0 [1]) (s true)).portA.intCause = 0x80 ∧
    (run (.bar2Write .a 0 [1]) (s false)).portA.pba = 0x80 := by decide +kernel

/-! ## Commands of the mailboxes -/

theorem witness_queries : toRun .a 1 0x0001 (asked 0x0001 0xFF [] up) = true ∧ toRun .a 1 0x0002 (asked 0x0002 0xFF [] up) = true ∧
    toRun .a 1 0x0050 (asked 0x0050 0xFF (leBytes 0 2 ++ leBytes 2 1 ++ leBytes 0 5) up) = true ∧
    toRun .a 1 0x0051 (asked 0x0051 0xFF [] up) = true ∧ toRun .a 1 0x0015 (asked 0x0015 0 [] running0) = true ∧
    toRun .a 1 0x0071 (asked 0x0071 0xFF [] up) = true ∧ toRun .a 1 0x0061 (asked 0x0061 0xFF (List.replicate 32 1) up) = true := by
  decide +kernel

/-- The answer in mailbox 1 of port A, once the command has completed: its status and its response block. -/
def answer (i : Instr) (s : State) : Option (Nat × List Byte) :=
  let b := (run i s).mbx .a 1
  if b.state = 1 then none else some (b.lastStat, (b.resp.read 32 (fieldAt (b.resp.read 0 4) 2 2)))

/-- A command ends in its own step: DONE or ERROR, no result left, its vector raised or pending. -/
theorem test_command_ends : let t := run (.identify .a 1) (asked 0x0001 0xFF [] up)
    let u := run (.faultLogRead .a 1) (asked 0x0050 0xFF (leBytes 4096 2 ++ leBytes 2 1 ++ leBytes 0 5) up)
    (t.mbx .a 1).state = 2 ∧ (t.mbx .a 1).result = none ∧ t.portA.intCause = 2 ∧ t.portA.pba = 2 ∧
    (u.mbx .a 1).state = 3 ∧ (u.mbx .a 1).lastStat = 3 := by decide +kernel

theorem test_fault_log_read : ((answer (.faultLogRead .a 1) (asked 0x0050 0xFF (leBytes 0 2 ++ leBytes 2 1 ++ leBytes 0 5) up)).map fun r =>
      (r.1, r.2.length)) = some (0, 136) ∧
    answer (.faultLogRead .a 1) (asked 0x0050 0xFF (leBytes 4096 2 ++ leBytes 2 1 ++ leBytes 0 5) up) = some (3, []) ∧
    answer (.faultLogRead .a 1) (asked 0x0050 0xFF (leBytes 0 2 ++ leBytes 64 1 ++ leBytes 0 5) up) = some (3, []) := by decide +kernel

theorem test_part_query : ((answer (.partQuery .a 1) (asked 0x0015 0 [] running0)).map fun r => (r.1, r.2.take 2, r.2.length)) =
    some (0, [2, 0], 48) := by decide +kernel

theorem witness_settings : toRun .a 1 0x0003 (asked 0x0003 0xFF (leBytes 5 8) up) = true ∧ firstEpoch .a 1 (asked 0x0003 0xFF (leBytes 5 8) up) = true ∧
    toRun .a 1 0x0016 (asked 0x0016 0 (leBytes 5 8) running0) = true ∧ toRun .a 1 0x0052 (asked 0x0052 0xFF [] up) = true ∧
    (run (.setEpoch .a 1) (asked 0x0003 0xFF (leBytes 5 8) up)).hs.epoch = 5 ∧
    answer (.seedSet .a 1) (asked 0x0016 0 (leBytes 5 8) running0) = some (0, leBytes 0 8 ++ leBytes 2 8) := by decide +kernel

/-- Of two SET_EPOCHs the one accepted first goes first (R391). -/
theorem witness_epoch_order : let b := fun n v => { busy 0x0003 0xFF (leBytes v 8) with order := n }
    let s := { up with portA := { up.portA with mbx := [(0, b 4 7), (1, b 3 5)] } }
    firstEpoch .a 0 s = false ∧ firstEpoch .a 1 s = true ∧ (run (.setEpoch .a 0) s).hs.epoch = 0 ∧
    (run (.setEpoch .a 1) s).hs.epoch = 5 ∧ (run (.setEpoch .a 0) (run (.setEpoch .a 1) s)).hs.epoch = 7 := by decide +kernel

theorem witness_record_config : let off := leBytes 0 24
    let bad := leBytes 3 24
    let on := leBytes 1 8 ++ leBytes 0x40000000 8 ++ leBytes 0x200000 8
    let s := at0 core0 { part0 with regNext := [⟨0x40000000, 0x200000, 0, true, false, false⟩] }
    toRun .a 1 0x0040 (asked 0x0040 0 off s) = true ∧ answer (.recordConfig .a 1) (asked 0x0040 0 off s) = some (0, []) ∧
    inCapacity true (s.part 0).regNext 0x40000000 0x200000 = true ∧ answer (.recordConfig .a 1) (asked 0x0040 0 on s) = some (0, []) ∧
    answer (.recordConfig .a 1) (asked 0x0040 0 bad s) = some (3, []) := by decide +kernel

/-- A lane plan: of each bundle in turn, role M and role T. -/
def plan0 : List Byte := leBytes 64 2 ++ leBytes 0 2 ++ (List.range 32).flatMap fun _ => [0, 3]

theorem witness_lane_plan : toRun .a 1 0x0070 (asked 0x0070 0xFF plan0 up) = true ∧
    planOk ((List.range 64).map fun b => ((asked 0x0070 0xFF plan0 up).mbx .a 1).command.field (4 + b) 1)
      ((asked 0x0070 0xFF plan0 up).mbx .a 1).seen.retired = true ∧
    planOk (List.replicate 64 0) [] = false ∧ (run (.lanePlanSet .a 1) (asked 0x0070 0xFF plan0 up)).flash.plan.isSome = true := by
  decide +kernel

/-- FW_UPDATE of 4 KiB from 0x1000. -/
def fw0 : List Byte := leBytes 0x1000 8 ++ leBytes 4096 4 ++ leBytes 1 4

theorem witness_fw_update : toRun .a 1 0x0060 (asked 0x0060 0xFF fw0 up) = true ∧ up.flash.activeSlot ≤ 1 ∧
    (List.replicate 4096 (0 : Byte)).length = 4096 ∧ fwChecks [] = 0 ∧
    answer (.fwUpdate .a 1 (.fail .completerAbort)) (asked 0x0060 0xFF fw0 up) = some (0x0D, []) := by decide +kernel

/-- A configuration record: image handle 1, one group of cores, lead stream 0, with a deadline in ns. -/
def record (handle deadline : Nat) : List Byte :=
  leBytes handle 4 ++ [0, 1, 1, 0] ++ leBytes 0 16 ++ leBytes 1 40 ++ leBytes 0 8 ++ leBytes 0 4 ++ leBytes 4 2 ++ leBytes 0 2
  ++ leBytes 0 64 ++ leBytes (0x80 + 16000000 * 2 ^ 8 + deadline * 2 ^ 32) 8 ++ leBytes (2 ^ 32 + 64) 8

/-- An image of one turn for four cores, of which core 0 launches stream 0 in turn 1. -/
def image0 : Image :=
  ⟨⟨[(0, ⟨0, [], [], [], [⟨.core, .launch, 1, 0x1000, 0⟩], []⟩)], [], [], leBytes 0 4 ++ leBytes 1 4 ++ leBytes 4 4 ++ List.replicate 104 0, 0, []⟩,
    4, 0, 1, 4096, []⟩

/-- The module with that image staged under handle 1 and a configuration command. -/
def creating (op q deadline handle : Nat) (p : SMap Part) : State :=
  let s := asked op q (record handle deadline) up
  { s with parts := p, portA := { s.portA with staged := [(1, some image0)] } }

/-- The checks of R347 on that record. -/
def passes (q d : Nat) : Bool :=
  let s := takenUp .a 1 (creating 0x0010 q d 1 [])
  let c := cfgOf (record 1 d)
  cfgFieldsOk (bedWindow s) (record 1 d) && cfgFits q c image0 s && resourcesFit q .a 1 c image0 s
  && (match placement q c s with
      | some l => ((List.range 12).all fun k => decide ((bulkEntries image0 l k).length ≤ 16))
      | none => false)

/-- What admission says of it. -/
def verdict (q d : Nat) : Bool :=
  let s := takenUp .a 1 (creating 0x0010 q d 1 [])
  (admitPartition (cfgOf (record 1 d)) image0 (capsOf (cfgOf (record 1 d)) 0 s) (spareOfPlace ((placement q (cfgOf (record 1 d)) s).getD []) s)).ok

theorem witness_create : toRun .a 1 0x0010 (creating 0x0010 3 90000 1 []) = true ∧
    SMap.get none 1 ((creating 0x0010 3 90000 1 []).port .a).staged = some image0 ∧ passes 3 90000 = true ∧ passes 3 1 = true ∧
    verdict 3 90000 = true ∧ verdict 3 1 = false ∧ cfgImage (record 1 1) = 1 ∧
    ((run (.partCreate .a 1) (creating 0x0010 3 90000 1 [])).part 3).st = .configured ∧
    ((run (.partCreate .a 1) (creating 0x0010 3 1 1 [])).mbx .a 1).lastStat = 5 ∧
    ((run (.partCreate .a 1) (creating 0x0010 3 1 1 [])).part 3).st = .empty := by decide +kernel

/-- The module whose partition 0 runs, a command that creates partition 0 in the command area of mailbox 1. -/
def create0 : State := { running0 with portA := { running0.portA with mbx := [(1, { Mbx.reset with cmd := (busy 0x0010 0 (record 1 1)).copy })] } }

theorem witness_create_again : let c : Cmd := { create0.mbx .a 1 with copy := (create0.mbx .a 1).cmd }.command
    create0.reaches .a = true ∧ doorbellTaken .a 1 create0 = true ∧ c.op = 0x0010 ∧ c.clear = true ∧ c.plen = 144 + 16 * c.field 5 1 ∧
    c.plen ≤ 4064 ∧ c.part < 16 ∧ create0.modh ≠ .failed ∧ conflicts .a 1 c 1 create0 = false ∧ (create0.part c.part).st ≠ .empty ∧
    ((run (.registerWrite (.bar0 .a) 0x120 (leBytes 1 8)) create0).mbx .a 1).result = some ⟨6, []⟩ := by decide +kernel

/-- A partition 3 STOPPED, with an image, that PART_RECONFIGURE keeps. -/
def made : SMap Part := [(3, { Part.reset with st := .configured, img := some image0, cfg := some (cfgOf (record 1 90000)) })]

theorem witness_reconfigure : toRun .a 1 0x0014 (creating 0x0014 3 90000 0 made) = true ∧ cfgImage (record 0 90000) = 0 ∧
    ((creating 0x0014 3 90000 0 made).part 3).img = some image0 ∧
    ((run (.partReconfigure .a 1) (creating 0x0014 3 90000 0 made)).part 3).st = .configured ∧
    (((run (.partReconfigure .a 1) (creating 0x0014 3 90000 0 made)).part 3).img.map (·.ncore)) = some 4 := by decide +kernel

theorem witness_destroy : toRun .a 1 0x0011 (asked 0x0011 3 [] { up with parts := made }) = true ∧
    ((run (.partDestroy .a 1) (asked 0x0011 3 [] { up with parts := made })).part 3).st = .empty := by decide +kernel

theorem witness_stop : toRun .a 1 0x0012 (asked 0x0012 0 [] running0) = true ∧ (running0.part 0).st = .running ∧
    ((run (.partStop .a 1) (asked 0x0012 0 [] running0)).part 0).stopReq = some (.a, 1) ∧
    ((asked 0x0012 3 [] { up with parts := made }).part 3).st ≠ .running ∧
    ((answer (.partStop .a 1) (asked 0x0012 3 [] { up with parts := made })).map (·.1)) = some 0 := by decide +kernel

/-- Partition 0 with settings, in a state. -/
def settled (st : PartSt) (member : Nat) : State :=
  at0 core0 { part0 with st := st, stopStat := 0x0B, cfg := some { cfg0 with member := member, span := member + 1 } }

theorem witness_start : let s := asked 0x0013 0 [] (settled .configured 0)
    toRun .a 1 0x0013 s = true ∧ ((s.mbx .a 1).seen.refusal) = none ∧ ((s.mbx .a 1).seen.st) = .configured ∧ startRefusal (s.part 0) = none ∧
    ((run (.partStart .a 1 []) s).part 0).st = .running ∧
    answer (.partStart .a 1 []) (asked 0x0013 0 [] (settled .running 0)) = some (0, []) ∧
    ((asked 0x0013 0 [] (settled .faulted 0)).mbx .a 1).seen.refusal = some 0x0B ∧
    answer (.partStart .a 1 []) (asked 0x0013 0 [] (settled .faulted 0)) = some (0x0B, []) ∧
    answer (.partStart .a 1 []) (asked 0x0013 0 [] (settled .configured 1)) = some (2, []) := by decide +kernel

/-- An event between the acceptance of a PART_START and the command's effect: the command is judged by the state at acceptance (R387). -/
theorem witness_start_overtaken : let s := (asked 0x0013 0 [] (settled .configured 0)).updPart 0 fun x => { x with st := .faulted, stopStat := 8 }
    (s.mbx .a 1).seen.st ≠ .running ∧ (s.mbx .a 1).seen.refusal = none ∧ startRefusal (s.part 0) ≠ none ∧
    answer (.partStart .a 1 []) s = some (0, []) ∧ ((run (.partStart .a 1 []) s).part 0).st = .faulted := by decide +kernel

/-- PART_START on member 0 of a span, and its members' answers. -/
theorem witness_start_span : let l := [⟨1, 0x77, 3, true, true, 1, 1, [9]⟩, ⟨2, 0x77, 3, true, true, 1, 1, []⟩]
    let s := asked 0x0013 0 [] (at0 core0 { spanPart 0 .configured with remote := [] })
    toRun .a 1 0x0013 s = true ∧ ((s.part 0).cfg.map fun c => (handshakeOk c 1 l, handshakeOk c 1 [])) = some (true, false) ∧
    ((run (.partStart .a 1 l) s).part 0).st = .running ∧ ((run (.partStart .a 1 l) s).part 0).remote = [9] ∧
    .spanStart 0 1 ∈ (run (.partStart .a 1 l) s).out ∧ answer (.partStart .a 1 []) s = some (3, []) := by decide +kernel

/-- IMAGE_LOAD of 4 KiB from 0x1000, and the release of handle 1. -/
def load0 : List Byte := leBytes 0x1000 8 ++ leBytes 4096 4 ++ leBytes 0 12
def release0 : List Byte := leBytes 0 12 ++ leBytes 1 4 ++ leBytes 0 8

theorem witness_image_load : let s := asked 0x0020 0xFF load0 up
    let r := creating 0x0020 0xFF 1 1 []
    let r := { r with portA := { r.portA with mbx := [(1, busy 0x0020 0xFF release0)] } }
    toRun .a 1 0x0020 s = true ∧ (s.port .a).staged.length < 8 ∧ (imageOf [1] 4096 image0.parts).isSome = true ∧
    ceilDiv 4096 0x200000 + hbmHeld 16 (takenUp .a 1 s) + stagedUnits .a 0 (takenUp .a 1 s) ≤ 196608 ∧
    ((run (.imageLoad .a 1 ⟨.data [1], some image0.parts⟩) s).portA.staged.map (·.1)) = [1] ∧
    toRun .a 1 0x0020 r = true ∧ (run (.imageLoad .a 1 ⟨.data [], none⟩) r).portA.staged = [] := by decide +kernel

/-! ## Mappings, windows, streams, replays -/

/-- A partition with 4 MiB of HBM at granule 5 and the host window above. -/
def capacity : Part := { windowed with hbmAt := [(5, 2)], cfg := some { cfg0 with hbmCap := 2, streams := [⟨0, false, true, 1000, 1000, 1, 64⟩] } }
def mapArgs (va len off flags : Nat) : List Byte := leBytes va 8 ++ leBytes len 8 ++ leBytes off 8 ++ leBytes 0 1 ++ leBytes flags 1 ++ leBytes 0 6

theorem witness_mem_map : let s := fun len => asked 0x0021 0 (mapArgs 0x40000000 len 0 1) (at0 core0 capacity)
    toRun .a 1 0x0021 (s 0x200000) = true ∧ isMigrate .a 1 (s 0x200000) = false ∧
    memMapOk 0 .a (mapArgs 0x40000000 0x200000 0 1) (s 0x200000) = true ∧ memMapOk 0 .a (mapArgs 0x40000000 5 0 1) (s 5) = false ∧
    ((run (.memMap .a 1) (s 0x200000)).part 0).changes.length = 1 ∧ answer (.memMap .a 1) (s 5) = some (3, []) := by decide +kernel

theorem witness_migrate : let s := fun off => asked 0x0021 0 (mapArgs 0x50000000 0x200000 off 4) (at0 core0 capacity)
    toRun .a 1 0x0021 (s 0) = true ∧ isMigrate .a 1 (s 0) = true ∧ migrateOk 0 (mapArgs 0x50000000 0x200000 0 4) (s 0) = true ∧
    migrateOk 0 (mapArgs 0x50000000 0x200000 0x400000 4) (s 0x400000) = false ∧
    (((run (.memMapMigrate .a 1) (s 0)).part 0).migr.map (·.dest)) = some (5 * 0x200000) ∧
    answer (.memMapMigrate .a 1) (s 0x400000) = some (3, []) := by decide +kernel

theorem witness_unmap : let p := { capacity with regNext := [⟨0x40000000, 0x200000, 5 * 0x200000, true, false, false⟩] }
    let s := fun va => asked 0x0022 0 (leBytes va 8 ++ leBytes 0x200000 8) (at0 core0 p)
    toRun .a 1 0x0022 (s 0x40000000) = true ∧ answer (.memUnmap .a 1) (s 0x40000000) = some (0, []) ∧
    answer (.memUnmap .a 1) (s 0x60000000) = some (3, []) := by decide +kernel

/-- WINDOW_OPEN of 4 KiB of host memory at 0x400000. -/
def openArgs : List Byte := leBytes 0x60000000 8 ++ leBytes 0x400000 8 ++ leBytes 0x1000 8 ++ leBytes 1 8

theorem witness_window_open : let s := asked 0x0023 0 openArgs (at0 core0 capacity)
    toRun .a 1 0x0023 s = true ∧ dvaOk 0x60000000 0x1000 = true ∧ rangeFree capacity 0x60000000 0x1000 = true ∧
    (∀ g ∈ capacity.regNext, overlaps (0x60000000 + 0x1000) 0x200000 g.va g.len = false) ∧
    (∀ e ∈ capacity.nextWindows, overlaps (0x60000000 + 0x1000) 0x200000 e.2.dva e.2.len = false ∧
      overlaps 0x400000 0x1000 e.2.iova e.2.len = false) ∧
    freeWindow capacity = some 1 ∧ answer (.windowOpen .a 1) s = some (0, leBytes 1 8) := by decide +kernel

/-- Sixty-four windows. -/
def fullWindows : Part := { part0 with winNext := (List.range 64).map fun i => (i, some ⟨0x100000000 + i * 0x400000, i * 0x1000, 0x1000, true⟩) }

theorem witness_window_full : let s := asked 0x0023 0 openArgs (at0 core0 fullWindows)
    freeWindow fullWindows = none ∧ rangeFree fullWindows 0x60000000 0x1000 = true ∧
    (∀ e ∈ fullWindows.nextWindows, overlaps (0x60000000 + 0x1000) 0x200000 e.2.dva e.2.len = false ∧
      overlaps 0x400000 0x1000 e.2.iova e.2.len = false) ∧ answer (.windowOpen .a 1) s = some (6, []) := by decide +kernel

theorem witness_window_close : let s := fun i => asked 0x0024 0 (leBytes i 8) (at0 core0 capacity)
    toRun .a 1 0x0024 (s 0) = true ∧ SMap.get none 0 capacity.winNext = some win0 ∧ holdsRing capacity win0 = false ∧ capacity.migr = none ∧
    answer (.windowClose .a 1) (s 0) = some (0, []) ∧ SMap.get none 1 capacity.winNext = none ∧
    answer (.windowClose .a 1) (s 1) = some (3, []) := by decide +kernel

/-- STREAM_OPEN of stream 0 with vector 8 and 16 entries. -/
def streamArgs (n : Nat) : List Byte :=
  [BitVec.ofNat 8 n, 8] ++ leBytes 16 2 ++ leBytes 2 2 ++ leBytes 0 2 ++ leBytes 0x1000 8 ++ leBytes 0x2000 8 ++ leBytes 0x4000 4 ++ leBytes 64 4
  ++ leBytes 0 8

theorem witness_streams : let s := fun n => asked 0x0030 0 (streamArgs n) (at0 core0 capacity)
    let c := fun n => asked 0x0031 0 (leBytes n 8) (at0 core0 { capacity with streams := [(0, some (stream0 none))] })
    toRun .a 1 0x0030 (s 0) = true ∧ streamOpenOk capacity (streamArgs 0) = true ∧ streamOpenOk capacity (streamArgs 1) = false ∧
    answer (.streamOpen .a 1) (s 0) = some (0, []) ∧ answer (.streamOpen .a 1) (s 1) = some (3, []) ∧
    toRun .a 1 0x0031 (c 0) = true ∧ answer (.streamClose .a 1) (c 0) = some (0, []) ∧ answer (.streamClose .a 1) (c 1) = some (3, []) := by
  decide +kernel

/-- The header block of a record without items, of one turn. -/
def header0 : List Byte :=
  padTo 256 (leBytes 1 2 ++ leBytes 0 6 ++ leBytes 1 8 ++ List.replicate 32 0 ++ sha256 [] ++ leBytes 1 8 ++ leBytes 1 8 ++ leBytes 4096 8)

/-- A partition whose record ring stands at the start of HBM. -/
def replaying : State :=
  let s := at0 core0 { part0 with
    st := .configured, turn := 0, img := some { image0 with digest := List.replicate 32 0 }, cfg := some cfg0
    regions := [⟨0x40000000, 0x200000, 0, false, false, false⟩]
    regNext := [⟨0x40000000, 0x200000, 0, false, false, false⟩]
    pt := [(peKey 2 0x40000000, leafWord 0 0 true false false), (peKey 3 0x40000000, 1), (peKey 4 0x40000000, 1)] }
  { s with hbm := (header0.zipIdx.filter fun e => e.1 != 0).map fun e => (e.2, e.1) }

theorem witness_replay : let s := asked 0x0041 0 (leBytes 0x40000000 8 ++ leBytes 0x200000 8 ++ leBytes 0 8) replaying
    let bad := asked 0x0041 0 (leBytes 0x40000000 8 ++ leBytes 5 8 ++ leBytes 0 8) replaying
    let u := settleWrites 0 (takenUp .a 1 s)
    let h := (peekBytes (s.part 0).regNext 16 0x40000000 256 u).2
    toRun .a 1 0x0041 s = true ∧ inCapacity false (s.part 0).regNext 0x40000000 0x200000 = true ∧ h = header0 ∧
    ringItems (s.part 0).regNext 0x40000000 0x200000 h u = some [] ∧
    recordRefusal (s.part 0) h s.build 0x200000 (some []) = none ∧ recordRefusal (s.part 0) h 2 0x200000 (some []) = some 3 ∧
    (s.part 0).cfg = some cfg0 ∧ (s.part 0).img.isSome = true ∧ fieldAt h 88 8 = 1 ∧
    ((run (.replayRun .a 1) s).part 0).turn = 0 ∧ ((run (.replayRun .a 1) s).part 0).replay.isSome = true ∧
    answer (.replayRun .a 1) bad = some (3, []) := by decide +kernel

/-! ## Diagnostics, hard mailbox, dies and lanes, security -/

/-- DIAG_RUN: the test, a logical core, an address and a count. -/
def diagArgs (test lcore addr n : Nat) : List Byte := leBytes test 4 ++ leBytes lcore 4 ++ leBytes addr 8 ++ leBytes n 8

/-- Partition 0 STOPPED, its core with a word in its rescue area and one at address 8. -/
def stopped0 : State :=
  at0 { core0 with store := [(1, .int 0x1122334455667788), (0x7FF80, .int 9)] } { part0 with st := .stopped }

theorem witness_diag_core : let s := fun t a n => asked 0x0080 0 (diagArgs t 0 a n) stopped0
    let c := ((s 1 0 0).mbx .a 1).command
    let d := ((s 2 8 2).mbx .a 1).command
    toRun .a 1 0x0080 (s 1 0 0) = true ∧ c.zero 1 3 = true ∧ c.zero 20 4 = true ∧ c.field 0 1 = 1 ∧ diagCore c true ((s 1 0 0).mbx .a 1).seen (s 1 0 0) = (0, some 0) ∧
    ((run (.diagRescueRead .a 1) (s 1 0 0)).mbx .a 1).state = 2 ∧ ((run (.diagCoreStoreRead .a 1) (s 2 8 2)).mbx .a 1).state = 2 ∧
    d.field 0 1 = 2 ∧ diagCore d true ((s 2 8 2).mbx .a 1).seen (s 2 8 2) = (0, some 0) ∧ d.field 16 4 = 2 ∧ d.field 8 8 = 8 := by
  decide +kernel

theorem witness_diag_module : let s := asked 0x0080 0xFF (diagArgs 3 0 0x8080000040 1) up
    let r := asked 0x0080 0xFF (diagArgs 4 0 0x10000000000 1) up
    let c := (s.mbx .a 1).command
    toRun .a 1 0x0080 s = true ∧ c.zero 1 3 = true ∧ c.part = 0xFF ∧ c.field 8 8 = 0x8080000040 ∧
    locate 0x8080000040 = .bed 1 64 ∧ (s.bed 1).stampErr = [] ∧ ((run (.diagStampRead .a 1) s).mbx .a 1).state = 2 ∧
    toRun .a 1 0x0080 r = true ∧ (r.mbx .a 1).command.field 0 1 = 4 ∧ fencedReg 0 r = false ∧
    ((answer (.diagRegisterRead .a 1) r).map fun x => (x.1, x.2.length)) = some (0, 16) := by decide +kernel

theorem witness_diag_break : let s := asked 0x0080 0 (diagArgs 5 0 0 0) running0
    let r := asked 0x0080 0 (diagArgs 1 0 0 0) running0
    let n := asked 0x0080 16 (diagArgs 1 0 0 0) running0
    let held := asked 0x0080 0 (diagArgs 5 0 0 0) (at0 { debugCore with delay := some ⟨8, .fall⟩ } part0)
    let free := asked 0x0080 0 (diagArgs 5 0 0 0) (at0 { debugCore with twait := true } part0)
    diagCore ((s.mbx .a 1).command) false (s.mbx .a 1).seen s = (0, some 0) ∧ toRun .a 1 0x0080 held = true ∧
    (held.core 0).delay.isSome = true ∧ ((run (.diagDebugBreak .a 1) held).core 0).pend.imm = [15] ∧
    free.coreRuns 0 = some 0 ∧ (free.core 0).delay = none ∧ entryFail 15 (free.core 0) = 0 ∧
    ((run (.diagDebugBreak .a 1) free).core 0).pc = 0x400 ∧ ((run (.diagDebugBreak .a 1) free).core 0).twait = false ∧
    toRun .a 1 0x0080 r = true ∧ (r.mbx .a 1).seen.st = .running ∧ (r.part 0).physOf 0 = some 0 ∧ answer (.diagRescueRead .a 1) r = some (4, []) ∧
    toRun .a 1 0x0080 n = true ∧ answer (.diagRescueRead .a 1) n = some (3, []) := by decide +kernel

/-- The module with an operation in port A's hard mailbox. -/
def hard (op arg : Nat) (s : State) : State :=
  { s with portA := { s.portA with hmb := { Hmb.reset with state := 1, op := op, arg := arg } } }

/-- What became of it: the result, INFO, how many bytes of data. -/
def outcome (i : Instr) (s : State) : Option (Nat × Nat × Option Nat) :=
  ((run i s).port .a).hmb.done.map fun r => (r.result, r.info, r.data.map (·.length))

theorem witness_hm_reads : hmTurn .a (hard 1 0 up) = true ∧ outcome (.hmStatus .a) (hard 1 0 up) = some (0, 0, some 4096) ∧
    hmTurn .a (hard 2 0 up) = true ∧ outcome (.hmLog .a) (hard 2 0 up) = some (0, 0, some 4096) ∧
    outcome (.hmLog .a) (hard 2 4096 up) = some (3, 0, none) := by decide +kernel

theorem witness_hm_die : let s := hard 3 0 running0
    hmTurn .a s = true ∧ s.hs.bootDone = true ∧ (s.die 0).fenced = false ∧ (s.part 0).onDie 0 = true ∧ (s.part 0).replay = none ∧
    outcome (.hmDieReset .a) s = some (0, 0, none) ∧ ((run (.hmDieReset .a) s).part 0).stopStat = 8 ∧
    outcome (.hmDieReset .a) (hard 3 12 running0) = some (3, 0, none) ∧ hmTurn .a (hard 3 0 up) = true ∧
    outcome (.hmDieReset .a) { hard 3 0 up with hs := { up.hs with bootDone := false } } = some (2, 0, none) := by decide +kernel

theorem witness_hm_stops : NoneInHand .a (hard 4 0 running0) ∧ NoneInHand .b (hard 4 0 running0) ∧
    hmTurn .a (hard 4 0 running0) = true ∧ (running0.part 0).st = .running ∧
    (running0.part 0).owner = .a ∧ outcome (.hmFwRestart .a) (hard 4 0 running0) = some (0, 0, none) ∧
    ((run (.hmFwRestart .a) (hard 4 0 running0)).part 0).stopStat = 2 := by
  have h : ∀ q, q < 16 → ((hard 4 0 running0).part q).replay = none ∧ ((hard 4 0 running0).part q).migr = none := by decide +kernel
  have e : fieldAt (Mbx.reset.copy.read 0 2) 0 2 ≠ 0x0060 := by decide
  exact ⟨⟨h, fun _ => e⟩, ⟨h, fun _ => e⟩, by decide +kernel⟩

/-- A quiesced port's operation is done once its host mover has no request outstanding. -/
theorem witness_hm_quiesce : let s := hard 5 0 running0
    let r := hard 5 0 (at0 core0 { part0 with migr := some ⟨0x40000000, 0, .a, 1⟩ })
    hmTurn .a s = true ∧ hostBusy .a (run (.hmPortQuiesce .a) s) = false ∧
    ((run (.hmPortQuiesce .a) s).part 0).stopStat = 0x0D ∧ outcome (.hmPortQuiesce .a) s = some (0, 0, none) ∧
    hostBusy .a (run (.hmPortQuiesce .a) r) = true ∧ outcome (.hmPortQuiesce .a) r = none := by decide +kernel

theorem witness_hm_snapshot : let s := hard 6 0 running0
    hmTurn .a s = true ∧ snapshotCores .a 0 s = (0, [0]) ∧ (s.core 0).part = some 0 ∧ (s.core 0).halt = 0 ∧
    ((run (.hmSnapshot .a) s).core 0).halt = 2 ∧ (snapshotCores .a 0x800000 s).1 = 3 ∧
    outcome (.hmSnapshot .a) (hard 6 0x800000 running0) = some (3, 0, none) := by decide +kernel

theorem witness_hmb_complete : let s := { up with portA := { up.portA with hmb := { Hmb.reset with state := 1, op := 2, done := some ⟨0, 5, some [7]⟩ } } }
    hmTurn .a (hard 9 0 up) = true ∧ (run (.hmbComplete .a) (hard 9 0 up)).portA.hmb.state = 3 ∧ s.running = true ∧
    (s.port .a).hmb.done = some ⟨0, 5, some [7]⟩ ∧ (run (.hmbComplete .a) s).portA.hmb.info = 5 := by decide +kernel

theorem witness_die_bist : let s := { up with dies := [(0, { Die.reset with inBist := true, fenced := true })] }
    s.running = true ∧ s.power.rails = true ∧ (s.die 0).inBist = true ∧ s.flash.pendCores = [] ∧ s.flash.pendRows = [] ∧
    ((List.range 108).filter fun i => !s.flash.repair.cores.contains i).length = 108 ∧
    ((run (.dieBistComplete 0 []) s).die 0).disabled.length = 8 := by decide +kernel

theorem witness_window_start : let s := { up with chat := { up.chat with counters := [(0, ⟨0, 9⟩)] } }
    s.running = true ∧ resDie (resOfKey 0) = chatDie (.compute 0) ∧ dieRefcyc (chatDie (.compute 0)) s / 2 ^ 27 = 0 ∧ (0, ⟨0, 9⟩) ∈ s.chat.counters ∧
    (run (.chatterWindowStart (.compute 0)) s).chat.counters = [(0, ⟨0, 9⟩)] := by decide +kernel

theorem witness_lanes : let s := { up with lanes := [(3, { Bundle.reset with swaps := [4], lasting := [4] })], links := [(2, { Link.reset with up := true, lanes := 4, swap := some 1, lasting := [1] })] }
    (s.lane 3).swaps = 4 :: [] ∧ (s.lane 3).retired = false ∧ (s.link 2).swap = some 1 ∧
    (run (.laneSpareSwap (.bundle 3)) s).lane 3 = { s.lane 3 with swaps := [], spUsed := 1 } ∧ ((run (.laneSpareSwap (.link 2)) s).link 2).spUsed = true ∧
    (s.lane 3).carries 15 = true ∧ ((run (.flitCrcRetry 3 15 false) s).lane 3).retry = ⟨0, 1⟩ ∧
    (s.link 2).carries 3 = true ∧ ((run (.fecCodeword 2 3 true []) s).link 2).fec = ⟨0, 1⟩ := by decide +kernel

/-- A codeword that the forward error correction cannot correct makes its lane lasting-faulty, once. -/
theorem witness_fec_uncorrectable : let s := { up with links := [(2, { Link.reset with up := true, lanes := 4 })] }
    let t := run (.fecCodeword 2 3 false []) s
    SMap.get false (Res.key ⟨0x0C, 2 * 5 + 3⟩) s.chat.lasting = false ∧ (s.link 2).lasting.contains 3 = false ∧
    (∀ q, q < 16 → (s.part q).holdsLink 2 = false) ∧ (t.link 2).lasting = [3] ∧ (t.link 2).fec = ⟨0, 0⟩ ∧
    SMap.get false (Res.key ⟨0x0C, 2 * 5 + 3⟩) t.chat.lasting = true ∧
    (SMap.get none s.hs.logNext t.hs.log).map (fun e => (e.code, e.cls, e.d1)) = some (2, 0x0C, 1) := by decide +kernel

/-- Partition 0 of two members over link 2. -/
def spanning : State :=
  { at0 core0 { part0 with cfg := some { cfg0 with span := 2, links := [2] } } with links := [(2, { Link.reset with up := true, lanes := 4 })] }

theorem witness_link_down : (spanning.link 2).up = true ∧ (spanning.part 0).holdsLink 2 = true ∧ (spanning.part 1).holdsLink 2 = false ∧
    (spanning.part 0).replay = none ∧ ((run (.scaleoutLinkDown (some 2) []) spanning).part 0).stopStat = 2 := by decide +kernel

/-- A link between two other members stops the partitions that it cuts (R61). -/
theorem witness_link_down_between : let s := at0 core0 (spanPart 0 .running)
    2 < (s.part 0).span ∧ (s.part 0).st = .running ∧ (s.part 0).replay = none ∧
    ((run (.scaleoutLinkDown none [0]) s).part 0).stopStat = 2 ∧ ((run (.scaleoutLinkDown none []) s).part 0).st = .running := by decide +kernel

theorem witness_link_train : up.power.rails = true ∧ up.hs.bootDone = true ∧ (up.link 2).up = false ∧ (up.link 2).lasting = [] ∧
    ((run (.scaleoutLinkTrain 2 ⟨5, 7, 1⟩) up).link 2).lanes = 4 ∧ ((run (.scaleoutLinkTrain 2 ⟨5, 7, 2⟩) up).link 2).up = false := by
  decide +kernel

/-- Port A at a stage of the exchange. -/
def staged (g : DoeStage) : State := { up with portA := { up.portA with doe := g } }

theorem witness_spdm : up.reaches .a = true ∧ up.fwUp = true ∧ up.hs.keyReady = true ∧ ((staged .version).port .a).doe = .version ∧
    ((staged .capabilities).port .a).doe = .capabilities ∧ ((staged .algorithms).port .a).doe = .algorithms ∧
    (run (.getVersion .a) up).out = [.spdm .a .version] ∧ (run (.getCapabilities .a) (staged .version)).out = [.spdm .a .capabilities] ∧
    (run (.negotiateAlgorithms .a true true) (staged .capabilities)).out = [.spdm .a .algorithms] ∧
    (run (.getCertificate .a 1 0 4) (staged .algorithms)).out = [.spdm .a .invalid] ∧
    (run (.getDigests .a) (staged .version)).out = [.spdm .a .unexpected] := by decide +kernel

theorem witness_restart : let s := { up with hs := { up.hs with fwRestart := true } }
    let n := { s with flash := { s.flash with slotA := s.flash.slotB } }
    bootSlot s.power.bootSel s.flash = some 0 ∧ (run .controlCoreBoot s).hs.fwRestart = false ∧
    bootSlot n.power.bootSel n.flash = none ∧ (run .controlCoreBoot n).hs.health = .failed := by decide +kernel

theorem witness_turn_end : let s := fun inc : Bool => at0 core0 { part0 with
      turnEnds := [⟨1, inc, false, []⟩], recd := { Recorder.reset with mode := 1, ringVa := 0x50000000, ringLen := 0x200000, off := 4096, isOpen := true }
      windows := windowed.windows, regions := windowed.regions, pt := windowed.pt }
    ((s false).part 0).turnEnds = ⟨1, false, false, []⟩ :: [] ∧ ((s false).part 0).replay = none ∧ ((s false).part 0).recd.isOpen = true ∧
    4096 + 32 + (TurnEnd.mk 1 false false []).payload.length ≤ ((s false).part 0).recd.ringLen ∧
    ((run (.turnEndItem 0) (s false)).part 0).recd.items = 1 ∧ ((run (.turnEndItem 0) (s true)).part 0).recd.incomplete = true := by decide +kernel

end Sys2Proof.Tests
end

section
/-! SUPPORT. Numbers as bytes (R10): what is read back of bytes written, and of a register that a write covers (R356); the
bits that a written 1 clears (R358, R334, R477). -/

namespace Sys2Proof.Machine

@[simp] theorem length_leBytes (v n : Nat) : (leBytes v n).length = n := by
  induction n generalizing v with
  | zero => rfl
  | succ n ih => simp [leBytes, ih]

/-- n bytes hold a number modulo 256^n. -/
theorem leNat_leBytes (v n : Nat) : leNat (leBytes v n) = v % 256 ^ n := by
  induction n generalizing v with
  | zero => simp [leBytes, leNat, Nat.mod_one]
  | succ n ih => rw [leBytes, leNat, ih, BitVec.toNat_ofNat, pow_succ' 256 n, Nat.mod_mul]

/-- The bytes from the k-th on are those of the number shifted down by k bytes. -/
theorem drop_leBytes (v k n : Nat) : (leBytes v (k + n)).drop k = leBytes (v / 256 ^ k) n := by
  induction k generalizing v with
  | zero => simp
  | succ k ih => rw [Nat.succ_add, leBytes, List.drop_succ_cons, ih, Nat.div_div_eq_div_mul, pow_succ']

theorem leNat_append (xs ys : List Byte) : leNat (xs ++ ys) = leNat xs + 256 ^ xs.length * leNat ys := by
  induction xs with
  | nil => simp [leNat]
  | cons x xs ih => simp only [List.cons_append, leNat, ih, List.length_cons]; ring

/-- Only the number modulo 256^n shows in n bytes. -/
theorem leBytes_mod (v n : Nat) : leBytes (v % 256 ^ n) n = leBytes v n := by
  induction n generalizing v with
  | zero => rfl
  | succ n ih =>
    have head : BitVec.ofNat 8 (v % 256 ^ (n + 1)) = BitVec.ofNat 8 v :=
      BitVec.eq_of_toNat_eq (Nat.mod_mod_of_dvd v (dvd_pow_self 256 n.succ_ne_zero))
    have tail : v % 256 ^ (n + 1) / 256 = v / 256 % 256 ^ n := by rw [pow_succ', Nat.mod_mul_right_div_self]
    rw [leBytes, leBytes, head, tail, ih]

/-- The four low bytes of a register are those of its low half. -/
theorem leBytes_four_low_half (hi lo : Nat) : leBytes (hi * 2 ^ 32 + lo) 4 = leBytes lo 4 := by
  rw [← leBytes_mod, ← leBytes_mod lo]
  congr 1
  exact Nat.mul_add_mod' hi (2 ^ 32) lo

/-- A write that covers the whole register leaves nothing of the old bytes. -/
theorem overlay_of_length_le {bs new : List Byte} (h : bs.length ≤ new.length) : overlay bs 0 new = new := by
  simp [overlay, h]

/-- A register that a write of 8 bytes covers reads as the word written (R356). -/
@[simp] theorem mergeReg_leBytes (old : Nat) (v : Word) : mergeReg old 0 (leBytes v.toNat 8) = v := by
  have fits : v.toNat % 256 ^ 8 = v.toNat := Nat.mod_eq_of_lt v.isLt
  rw [mergeReg, overlay_of_length_le (by simp), leNat_leBytes, fits, BitVec.ofNat_toNat, BitVec.setWidth_eq]

/-- A write of the low half of a register whose high half is 0 (R356). -/
theorem leNat_overlay_low_half {old v : Nat} (hold : old < 2 ^ 32) (hv : v < 2 ^ 32) :
    leNat (overlay (leBytes old 8) 0 (leBytes v 4)) = v := by
  have high : (leBytes old 8).drop 4 = leBytes 0 4 := by
    rw [drop_leBytes old 4 4, Nat.div_eq_of_lt (show old < 256 ^ 4 from hold)]
  simp only [overlay, List.take_zero, List.nil_append, Nat.zero_add, length_leBytes, high, leNat_append, leNat_leBytes]
  omega

/-- Accesses of 8 bytes at multiples of 8 are allowed (R356). -/
@[simp] theorem regSize_leBytes (k v : Nat) : regSize (8 * k) (leBytes v 8) = true := by simp [regSize]

theorem bitOf_eq_testBit (n i : Nat) : bitOf n i = n.testBit i := by
  rw [Nat.testBit_eq_decide_div_mod_eq]; rfl

/-- Of n bits, each written 1 clears the bit it meets. -/
theorem bitOf_and_xor_ones (old v : Nat) {n i : Nat} (hi : i < n) :
    bitOf (old &&& (v ^^^ (2 ^ n - 1))) i = (bitOf old i && !bitOf v i) := by
  simp [bitOf_eq_testBit, Nat.testBit_two_pow_sub_one, hi]

/-- Bytes stored read back, and every other byte stays. -/
theorem Mem.byte_write_eq (m : Mem) (o a : Nat) (bs : List Byte) :
    (m.write o bs).byte a = if o ≤ a ∧ a < o + bs.length then bs.getD (a - o) 0 else m.byte a := by
  split
  case isTrue h =>
    have hi : a - o < bs.length := by omega
    have := Mem.byte_write m o bs (a - o) hi
    rw [Nat.add_sub_cancel' h.1] at this
    rw [this, List.getD_eq_getElem _ _ hi]
  case isFalse h => exact Mem.byte_write_ne m o bs (by omega)

end Sys2Proof.Machine
end

section
/-! SUPPORT. What a change of one port leaves alone, and the meanings of the clearing reads and of REGISTER_WRITE where the register
is reached: one equation for each register. -/

namespace Sys2Proof.Machine

/-- Outside the ports, a change of a port leaves the module as it is. -/
theorem State.updPort_frame (p : PortId) (f : Port → Port) (s : State) :
    { s.updPort p f with portA := s.portA, portB := s.portB } = s := by cases p <;> rfl

theorem State.port_otherPort_updPort (p : PortId) (f : Port → Port) (s : State) :
    (s.updPort p f).port (otherPort p) = s.port (otherPort p) := by cases p <;> rfl

/-- A change of a mailbox leaves the rest of its port as it is. -/
theorem State.port_updMbx_frame (p : PortId) (m : Nat) (f : Mbx → Mbx) (s : State) :
    { (s.updMbx p m f).port p with mbx := (s.port p).mbx } = s.port p := by cases p <;> rfl

theorem State.updMbx_frame (p : PortId) (m : Nat) (f : Mbx → Mbx) (s : State) :
    { s.updMbx p m f with portA := s.portA, portB := s.portB } = s := State.updPort_frame p _ s

/-- A read that clears nothing changes the outputs alone. -/
theorem readOnlyPort_emit (p : PortId) (bs : List Byte) (s : State) : ReadOnlyPort p bs s (s.emit (.readData p bs)) :=
  ⟨rfl, by simp, rfl⟩

/-- What has been put out, with a change of the reading port, is all that a clearing read does. -/
theorem readOnlyPort_updPort_emit (p : PortId) (bs : List Byte) (f : Port → Port) (s : State) :
    ReadOnlyPort p bs s ((s.emit (.readData p bs)).updPort p f) := by
  cases p <;> exact ⟨rfl, rfl, rfl⟩

/-- A command that puts out a register's bytes and changes the port by f. -/
theorem exists_next_of_clearingRead {c : Instr} {p : PortId} {bs : List Byte} {f : Port → Port} {s : State}
    (h : exec c s = .next ((s.emit (.readData p bs)).updPort p f)) :
    ∃ t, exec c s = .next t ∧ t.port p = f (s.port p) ∧ ReadOnlyPort p bs s t :=
  ⟨_, h, by simp, readOnlyPort_updPort_emit p bs f s⟩

section Reached

variable {p : PortId} {s : State} (h : s.reaches p = true)
include h

/-- ERR_CNT_READ of the whole register (R359). -/
theorem exec_errCntRead_whole : exec (.errCntRead ⟨p, none⟩) s = .next ((readReg p (s.port p).errCnt s).updPort p fun x =>
    { x with bar2Unmap := 0, bar2Wr := 0, dbIgnored := 0, ringErr := 0 }) := congrArg _ (if_pos h)

/-- ERR_CNT_READ of the low half (R356). -/
theorem exec_errCntRead_low : exec (.errCntRead ⟨p, some 0⟩) s = .next ((readHalf p (s.port p).errCnt 0 s).updPort p fun x =>
    { x with dbIgnored := 0, ringErr := 0 }) := congrArg _ (if_pos h)

/-- ERR_CNT_READ of the high half (R356). -/
theorem exec_errCntRead_high : exec (.errCntRead ⟨p, some 1⟩) s = .next ((readHalf p (s.port p).errCnt 1 s).updPort p fun x =>
    { x with bar2Unmap := 0, bar2Wr := 0 }) := congrArg _ (if_pos h)

/-- ERR_CNT2_READ of the whole register (R359). -/
theorem exec_errCnt2Read_whole : exec (.errCnt2Read ⟨p, none⟩) s = .next ((readReg p (s.port p).errCnt2 s).updPort p fun x =>
    { x with bar2Ue := 0, noBuf := 0 }) := congrArg _ (if_pos h)

/-- ERR_CNT2_READ of the low half (R356). -/
theorem exec_errCnt2Read_low : exec (.errCnt2Read ⟨p, some 0⟩) s = .next ((readHalf p (s.port p).errCnt2 0 s).updPort p fun x =>
    { x with bar2Ue := 0, noBuf := 0 }) := congrArg _ (if_pos h)

/-- ERR_CNT2_READ of the high half, which is reserved (R356). -/
theorem exec_errCnt2Read_high : exec (.errCnt2Read ⟨p, some 1⟩) s = .next (readHalf p (s.port p).errCnt2 1 s) :=
  congrArg _ (if_pos h)

/-- MBX_REFUSED_READ (R362). -/
theorem exec_mbxRefusedRead (m : MbxId) : exec (.mbxRefusedRead p m) s =
    .next ((readReg p (s.mbx p m).refused s).updMbx p m fun x => { x with refused := 0 }) := congrArg _ (if_pos h)

/-- HMB_REFUSED_READ (R377). -/
theorem exec_hmbRefusedRead : exec (.hmbRefusedRead p) s = .next ((readReg p (s.port p).hmb.refused s).updPort p fun x =>
    { x with hmb := { x.hmb with refused := 0 } }) := congrArg _ (if_pos h)

/-- A host write of BAR0 (R355). -/
theorem exec_registerWrite_bar0 (o : Nat) (bs : List Byte) :
    exec (.registerWrite (.bar0 p) o bs) s = .next (writeBar0 p o bs s) := congrArg _ (if_pos h)

end Reached

/-- A write of 8 bytes to a port register of BAR0 (R355, R356). -/
theorem writeBar0_portReg (p : PortId) {off : Nat} (hoff : off < 0x2000) (h8 : off % 8 = 0) (v : Word) (s : State) :
    writeBar0 p off (leBytes v.toNat 8) s = writePortReg p off 0 (leBytes v.toNat 8) s := by
  simp [writeBar0, hoff, h8]

/-- INT_CAUSE is cleared by 1 (R358). -/
theorem writePortReg_intCause (p : PortId) (v : Word) (s : State) : writePortReg p 0x0010 0 (leBytes v.toNat 8) s =
    s.updPort p fun x => { x with intCause := x.intCause &&& (v.toNat ^^^ (2 ^ 64 - 1)) } := by
  simp [writePortReg]

/-- HEAD of the notice ring takes bits 15 to 0 (R359). -/
theorem writePortReg_ntcHead (p : PortId) (v : Word) (s : State) : writePortReg p 0x0048 0 (leBytes v.toNat 8) s =
    s.updPort p fun x => { x with ntc := { x.ntc with head := wf64 v 15 0 } } := by
  simp [writePortReg]

/-- A write within a line of a mailbox's command area (R355, R356). -/
theorem writeBar0_commandArea (p : PortId) (m : MbxId) {o : Nat} {bs : List Byte} (ho : o < 0x1000)
    (hline : o % 64 + bs.length ≤ 64) (s : State) : writeBar0 p (0x8000 + 0x2000 * m + o) bs s =
      s.updMbx p m fun b => { b with cmd := b.cmd.write o bs } := by
  have hm := m.isLt
  have area : 0x8000 ≤ 0x8000 + 0x2000 * m.val + o ∧ 0x8000 + 0x2000 * m.val + o < 0x10000 ∧
      (0x8000 + 0x2000 * m.val + o) % 0x2000 < 0x1000 ∧ (0x8000 + 0x2000 * m.val + o) % 64 + bs.length ≤ 64 := by omega
  have hbox : (0x8000 + 0x2000 * m.val + o - 0x8000) / 0x2000 = m := by omega
  have hplace : (0x8000 + 0x2000 * m.val + o) % 0x2000 = o := by omega
  unfold writeBar0
  rw [if_neg (by omega), if_neg (by omega), if_neg (by omega), if_pos area, hbox, hplace]

/-- A write of the power management control register (R381): its bits 1 to 0 are PowerState. -/
theorem writePcie_power (p : PortId) (o : Nat) (data : List Byte) (s : State) : writePcie p .power o data s =
    let v := leNat (overlay (leBytes (if (s.port p).d3 then 3 else 0) 8) o data)
    if v % 4 = 3 ∧ (s.port p).d3 = false then enterD3 p s
    else if v % 4 = 0 then s.updPort p fun x => { x with d3 := false } else s := by
  unfold writePcie
  exact if_pos rfl

/-- A write of PowerState 0 takes the function back to D0 (log 77). -/
theorem writePcie_power_d0 (p : PortId) {v : Nat} (hv : v < 2 ^ 32) (h0 : v % 4 = 0) (s : State) :
    writePcie p .power 0 (leBytes v 4) s = s.updPort p fun x => { x with d3 := false } := by
  have hold : (if (s.port p).d3 then 3 else 0) < 2 ^ 32 := by split <;> decide
  rw [writePcie_power, leNat_overlay_low_half hold hv]
  simp [h0]

/-- BADRES and FQOVF of a die are cleared by 1 (R334). -/
theorem writeDieReg_status (d : Nat) (v : Word) (s : State) : writeDieReg d 0 (leBytes v.toNat 8) s =
    s.updDie d fun x => { x with badRes := x.badRes && !wbit v 33, fqOvf := x.fqOvf && !wbit v 32 } := by
  simp [writeDieReg]

/-- A chatter threshold takes 32 bits (R418). -/
theorem writeChat_threshold {c : Nat} (h1 : 1 ≤ c) (h2 : c ≤ 0x0D) (v : Word) (s : State) :
    writeChat (8 * c) (leBytes v.toNat 8) s =
      { s with chat := { s.chat with thresh := SMap.set none c (some (wf64 v 31 0)) s.chat.thresh } } := by
  simp [writeChat, h1, h2]

/-- A threshold register that has been written reads as written (R418). -/
theorem thresholdReg_set (c v : Nat) (s : State) :
    thresholdReg c { s with chat := { s.chat with thresh := SMap.set none c (some v) s.chat.thresh } } = v := by
  simp [thresholdReg]

/-- A write of one threshold register leaves the others. -/
theorem thresholdReg_set_ne {k c : Nat} (hk : k ≠ c) (v : Nat) (s : State) :
    thresholdReg k { s with chat := { s.chat with thresh := SMap.set none c (some v) s.chat.thresh } } = thresholdReg k s := by
  simp [thresholdReg, SMap.get_set_ne _ hk]

end Sys2Proof.Machine
end

section
/-! The register reads that clear and the register writes (O47). -/

namespace Sys2Proof.Machine

/-- R14, R16, R356, R359, R362, R377: the bytes put out are those of the counters that the read clears. -/
theorem readsThatClearRule : ReadsThatClearRule := by
  intro p m s h x low high low2
  have whole : x.errCnt = high * 2 ^ 32 + low := by simp only [Port.errCnt, high, low]; ring
  have lowHalf : leBytes (x.errCnt / 2 ^ 0) 4 = leBytes low 4 := by rw [pow_zero, Nat.div_one, whole, leBytes_four_low_half]
  have highHalf (hl : low < 2 ^ 32) : x.errCnt / 2 ^ 32 = high := by omega
  have lowHalf2 : leBytes (x.errCnt2 / 2 ^ 0) 4 = leBytes low2 4 := by rw [pow_zero, Nat.div_one]; rfl
  have high2 (hl : low2 < 2 ^ 32) : x.errCnt2 / 2 ^ 32 = 0 := Nat.div_eq_of_lt hl
  refine ⟨?errCnt, ?errCntLow, ?errCntHigh, ?errCnt2, ?errCnt2Halves, ?mbxRefused, ?hmbRefused⟩
  case errCnt => exact whole ▸ exists_next_of_clearingRead (exec_errCntRead_whole h)
  case errCntLow => exact fun _ => lowHalf ▸ exists_next_of_clearingRead (exec_errCntRead_low h)
  case errCntHigh => exact fun hl => highHalf hl ▸ exists_next_of_clearingRead (exec_errCntRead_high h)
  case errCnt2 => exact exists_next_of_clearingRead (exec_errCnt2Read_whole h)
  case errCnt2Halves =>
    intro hl
    refine ⟨?_, _, exec_errCnt2Read_high h, by simp [readHalf, x], ?_⟩
    · exact lowHalf2 ▸ exists_next_of_clearingRead (exec_errCnt2Read_low h)
    · exact high2 hl ▸ readOnlyPort_emit p _ s
  case mbxRefused =>
    refine ⟨_, exec_mbxRefusedRead h m, by simp [readReg], fun i hi => ?_, ?_, readOnlyPort_updPort_emit p _ _ s⟩
    · rw [State.mbx_updMbx_ne _ p hi, readReg, State.mbx_emit]
    · cases p <;> rfl
  case hmbRefused => exact exists_next_of_clearingRead (exec_hmbRefusedRead h)

/-- A write of INT_CAUSE (R358). -/
theorem exec_write_intCause {p : PortId} {s : State} (h : s.reaches p = true) (v : Word) :
    exec (.registerWrite (.bar0 p) 0x0010 (leBytes v.toNat 8)) s =
      .next (s.updPort p fun x => { x with intCause := x.intCause &&& (v.toNat ^^^ (2 ^ 64 - 1)) }) := by
  rw [exec_registerWrite_bar0 h, writeBar0_portReg p (by decide) rfl, writePortReg_intCause]

/-- A write of the notice ring's HEAD (R359). -/
theorem exec_write_ntcHead {p : PortId} {s : State} (h : s.reaches p = true) (v : Word) :
    exec (.registerWrite (.bar0 p) 0x0048 (leBytes v.toNat 8)) s =
      .next (s.updPort p fun x => { x with ntc := { x.ntc with head := wf64 v 15 0 } }) := by
  rw [exec_registerWrite_bar0 h, writeBar0_portReg p (by decide) rfl, writePortReg_ntcHead]

/-- A write within a line of a mailbox's command area (R356). -/
theorem exec_write_commandArea {p : PortId} {s : State} (h : s.reaches p = true) (m : MbxId) {o : Nat} {bs : List Byte}
    (ho : o < 0x1000) (hline : o % 64 + bs.length ≤ 64) :
    exec (.registerWrite (.bar0 p) (0x8000 + 0x2000 * m + o) bs) s =
      .next (s.updMbx p m fun b => { b with cmd := b.cmd.write o bs }) := by
  rw [exec_registerWrite_bar0 h, writeBar0_commandArea p m ho hline]

/-- A write of PowerState 0 (R381, log 77). -/
theorem exec_write_powerState_d0 {p : PortId} {s : State} (hrun : s.running = true) (hup : (s.port p).linkUp = true)
    {v : Nat} (hv : v < 2 ^ 32) (h0 : v % 4 = 0) :
    exec (.registerWrite (.pcie p .power) 0 (leBytes v 4)) s = .next (s.updPort p fun x => { x with d3 := false }) := by
  rw [← writePcie_power_d0 p hv h0 s]
  have reached : (s.running && (s.port p).linkUp) = true := by rw [hrun, hup]; rfl
  exact congrArg Host.Outcome.next (if_pos reached)

/-- A write of a die's status register (R334). -/
theorem exec_write_dieStatus {s : State} (hfw : s.fwUp = true) (d : DieId) (v : Word) :
    exec (.registerWrite (.die d) 0 (leBytes v.toNat 8)) s =
      .next (s.updDie d fun x => { x with badRes := x.badRes && !wbit v 33, fqOvf := x.fqOvf && !wbit v 32 }) := by
  rw [← writeDieReg_status]
  exact congrArg _ (if_pos (by rw [hfw]; exact regSize_leBytes 0 v.toNat))

/-- A write of a chatter threshold (R418). -/
theorem exec_write_threshold {s : State} (hfw : s.fwUp = true) {c : Nat} (h1 : 1 ≤ c) (h2 : c ≤ 0x0D) (v : Word) :
    exec (.registerWrite .chat (8 * c) (leBytes v.toNat 8)) s =
      .next { s with chat := { s.chat with thresh := SMap.set none c (some (wf64 v 31 0)) s.chat.thresh } } := by
  rw [← writeChat_threshold h1 h2]
  exact congrArg _ (if_pos (by rw [hfw]; exact regSize_leBytes c v.toNat))

/-- A write of ALERT (R477). -/
theorem exec_write_alert (b : Byte) (s : State) : exec (.registerWrite .alert 10 [b]) s =
    .next { s with mgmt := { s.mgmt with alert := s.mgmt.alert &&& (b.toNat % 16 ^^^ (2 ^ 4 - 1)) } } := rfl

/-- R356, R358, R359, R334, R381, R418, R477: each write is one change of one register. -/
theorem registerWritesRule : RegisterWritesRule := by
  intro s
  refine ⟨fun p h => ⟨?intCause, ?head, ?commandArea⟩, ?powerState, fun hfw => ⟨?dieStatus, ?threshold⟩, ?alert⟩
  case intCause =>
    refine fun v => ⟨_, exec_write_intCause h v, fun i hi => ?_, by simp, State.updPort_frame p _ s⟩
    rw [State.port_updPort]
    exact bitOf_and_xor_ones _ _ hi
  case head => exact fun v => ⟨_, exec_write_ntcHead h v, by simp, State.updPort_frame p _ s⟩
  case commandArea =>
    refine fun m o bs ho _ hline => ⟨_, exec_write_commandArea h m ho hline, fun a => ?_, by simp,
      State.port_updMbx_frame p m _ s, State.updMbx_frame p m _ s⟩
    rw [State.mbx_updMbx]
    exact Mem.byte_write_eq _ o a bs
  case powerState =>
    exact fun p v hv h0 hrun hup => ⟨_, exec_write_powerState_d0 hrun hup hv h0, by simp,
      State.port_otherPort_updPort p _ s, State.updPort_frame p _ s⟩
  case dieStatus =>
    exact fun d v => ⟨_, exec_write_dieStatus hfw d v, by simp, fun i hi => State.die_updDie_ne s hi _, rfl⟩
  case threshold =>
    exact fun c v h1 h2 => ⟨_, exec_write_threshold hfw h1 h2 v, thresholdReg_set c _ s,
      fun k hk => thresholdReg_set_ne hk _ s, rfl, rfl⟩
  case alert =>
    refine fun b => ⟨_, exec_write_alert b s, fun i hi => ?_, rfl⟩
    have low : bitOf (b.toNat % 16) i = b.getLsbD i := by
      rw [bitOf_eq_testBit, show 16 = 2 ^ 4 from rfl, Nat.testBit_mod_two_pow]
      simp [hi, BitVec.getLsbD]
    rw [bitOf_and_xor_ones _ _ hi, low]

/-- Settles O47, by one equation for each command: where the register is reached, the command is one change of one port, die,
threshold or ALERT, and that change gives both what is read back and what stays. -/
theorem portRegisters : Obligations.PortRegisters := ⟨readsThatClearRule, registerWritesRule⟩

end Sys2Proof.Machine
end

section
/-! SUPPORT. What the shared operations behind lanes and links leave alone: the fault log (R422), module health (R424), and stops
of partitions (R338). -/

namespace Sys2Proof.Machine

/-- The entry just written is not the next to be overwritten: the log's index goes around after 4,096 entries (R422). -/
theorem logNext_succ_ne (n : Nat) : (n + 1) % 4096 ≠ n := by omega

theorem logNext_succ_succ_ne (n : Nat) : ((n + 1) % 4096 + 1) % 4096 ≠ n := by omega

/-- An event's entry stands at the index at which the log was, as given but for its time, marker and turn. -/
theorem logEvent_log (e : LogEntry) (s : State) : ∃ x, SMap.get none s.hs.logNext (logEvent e s).hs.log = some x ∧
    { x with refcyc := e.refcyc, epoch := e.epoch, turn := e.turn } = e := by
  dsimp only [logEvent, State.updHs]
  exact ⟨_, SMap.get_set (none : Option LogEntry) .., rfl⟩

theorem logEvent_log_ne {n : Nat} {s : State} (h : n ≠ s.hs.logNext) (e : LogEntry) :
    SMap.get none n (logEvent e s).hs.log = SMap.get none n s.hs.log := by
  dsimp only [logEvent, State.updHs]
  exact SMap.get_set_ne (none : Option LogEntry) h _ _

@[simp] theorem logEvent_logNext (e : LogEntry) (s : State) : (logEvent e s).hs.logNext = (s.hs.logNext + 1) % 4096 := rfl

@[simp] theorem logEvent_die (e : LogEntry) (s : State) (d : Nat) : (logEvent e s).die d = s.die d := rfl

/-- A change of health is an entry, a notice to both ports, and ALERT (R424). -/
theorem setHealth_frame (h : Health) (s : State) :
    { setHealth h s with mgmt := s.mgmt, hs := s.hs, portA := s.portA, portB := s.portB } = s := by
  unfold setHealth
  dsimp only
  split <;> rfl

@[simp] theorem setHealth_readmit (h : Health) (s : State) : (setHealth h s).hs.readmit = s.hs.readmit := by
  unfold setHealth
  dsimp only
  split <;> rfl

theorem setHealth_log_ne {n : Nat} {s : State} (hn : n ≠ s.hs.logNext) (h : Health) :
    SMap.get none n (setHealth h s).hs.log = SMap.get none n s.hs.log := by
  unfold setHealth
  dsimp only
  split
  · rfl
  · exact logEvent_log_ne hn _

/-- The health that follows the DEGRADED conditions stays, or changes once. -/
theorem updateHealth_cases (s : State) : updateHealth s = s ∨ ∃ h, updateHealth s = setHealth h s := by
  unfold updateHealth
  split
  · split
    · exact .inr ⟨_, rfl⟩
    · exact .inl rfl
  · split
    · exact .inl rfl
    · exact .inr ⟨_, rfl⟩
  · exact .inl rfl

theorem updateHealth_frame (s : State) :
    { updateHealth s with mgmt := s.mgmt, hs := s.hs, portA := s.portA, portB := s.portB } = s := by
  rcases updateHealth_cases s with h | ⟨x, h⟩ <;> rw [h]
  exact setHealth_frame x s

@[simp] theorem updateHealth_links (s : State) : (updateHealth s).links = s.links :=
  (congrArg State.links (updateHealth_frame s) :)
@[simp] theorem updateHealth_chat (s : State) : (updateHealth s).chat = s.chat :=
  (congrArg State.chat (updateHealth_frame s) :)
@[simp] theorem updateHealth_link (s : State) (l : Nat) : (updateHealth s).link l = s.link l :=
  (congrArg (State.link · l) (updateHealth_frame s) :)
@[simp] theorem updateHealth_part (s : State) (q : Nat) : (updateHealth s).part q = s.part q :=
  (congrArg (State.part · q) (updateHealth_frame s) :)
@[simp] theorem updateHealth_die (s : State) (d : Nat) : (updateHealth s).die d = s.die d :=
  (congrArg (State.die · d) (updateHealth_frame s) :)

@[simp] theorem updateHealth_readmit (s : State) : (updateHealth s).hs.readmit = s.hs.readmit := by
  rcases updateHealth_cases s with h | ⟨x, h⟩ <;> simp [h]

theorem updateHealth_log_ne {n : Nat} {s : State} (hn : n ≠ s.hs.logNext) :
    SMap.get none n (updateHealth s).hs.log = SMap.get none n s.hs.log := by
  rcases updateHealth_cases s with h | ⟨x, h⟩ <;> rw [h]
  exact setHealth_log_ne hn x

theorem State.StopOnly.links_eq {s t : State} (h : s.StopOnly t) : t.links = s.links := (congrArg State.links h.rest :)
theorem State.StopOnly.chat_eq {s t : State} (h : s.StopOnly t) : t.chat = s.chat := (congrArg State.chat h.rest :)
theorem State.StopOnly.readmit_eq {s t : State} (h : s.StopOnly t) : t.hs.readmit = s.hs.readmit :=
  (congrArg Headstock.readmit h.hs :)

/-- A run through a list leaves a partition as it is that none of its steps changes. -/
theorem foldl_part_of_mem {α : Type} {g : State → α → State} {i : Nat} {l : List α}
    (hg : ∀ a ∈ l, ∀ s, (g s a).part i = s.part i) (s : State) : (l.foldl g s).part i = s.part i := by
  induction l generalizing s with
  | nil => rfl
  | cons a l ih =>
    rw [List.foldl_cons, ih fun b hb => hg b (List.mem_cons_of_mem a hb)]
    exact hg a List.mem_cons_self s

theorem faultPart_part_ne {q i : Nat} (h : i ≠ q) (s : State) : (faultPart q s).part i = s.part i := stopWithin_part_ne h ..

/-- A RUNNING partition that replays nothing and loses its routes is FAULTED with BAD_COMMAND (R338). -/
theorem foldl_faultPart_part {ps : List Nat} {q : Nat} (hq : q ∈ ps) {s : State} (hrun : (s.part q).st = .running)
    (hrep : (s.part q).replay = none) : ((ps.foldl (fun z q => faultPart q z) s).part q).st = .faulted ∧
      ((ps.foldl (fun z q => faultPart q z) s).part q).stopStat = 0x02 := by
  have h := foldl_stop_part .faulted (by decide) stBadCommand 0 (fun _ => true) ps s q hq rfl hrun (by simp [hrep])
  simp only [if_true] at h
  exact ⟨h.1, h.2.1⟩

end Sys2Proof.Machine
end

section
/-! SUPPORT. What a link that goes down or changes its width does (R61, R421, R461), and the repair of a lane or a link that has
become lasting-faulty (R417, R421). -/

namespace Sys2Proof.Machine

/-- A held link that is down (R61, R352, R461): a degradation event, spurs held, and the stop of the holders without a route. -/
theorem linkGone_eq (l : Nat) (cut : List PartId) (s : State) : ∃ (hold : Headstock → List Nat) (ps : List Nat),
    linkGone l cut s = ps.foldl (fun z q => faultPart q z)
      ((updateHealth (degradation s)).updHs fun h => { h with routeHold := hold h }) ∧
    ∀ q, q ∈ ps ↔ q < 16 ∧ (s.part q).holdsLink l = true ∧ routeLeft cut q s = false :=
  ⟨_, _, rfl, fun q => by simp [allParts, routeLeft, degradation, and_comm]⟩

/-- Beyond the degradation event and the spurs held, a lost link only stops partitions. -/
theorem linkGone_stopOnly (l : Nat) (cut : List PartId) (s : State) : ∃ hold : Headstock → List Nat,
    ((updateHealth (degradation s)).updHs fun h => { h with routeHold := hold h }).StopOnly (linkGone l cut s) := by
  obtain ⟨hold, ps, h, -⟩ := linkGone_eq l cut s
  exact ⟨hold, h ▸ stopOnly_foldl (State.StopOnly.refl _) fun _ _ hz => faultPart_stopOnly _ _ hz⟩

@[simp] theorem linkGone_links (l : Nat) (cut : List PartId) (s : State) : (linkGone l cut s).links = s.links := by
  obtain ⟨hold, h⟩ := linkGone_stopOnly l cut s
  simpa [degradation] using h.links_eq

@[simp] theorem linkGone_link (l : Nat) (cut : List PartId) (s : State) (j : Nat) : (linkGone l cut s).link j = s.link j :=
  State.link_of (linkGone_links ..) j

@[simp] theorem linkGone_chat (l : Nat) (cut : List PartId) (s : State) : (linkGone l cut s).chat = s.chat := by
  obtain ⟨hold, h⟩ := linkGone_stopOnly l cut s
  simpa [degradation] using h.chat_eq

@[simp] theorem linkGone_readmit (l : Nat) (cut : List PartId) (s : State) : (linkGone l cut s).hs.readmit = true := by
  obtain ⟨hold, h⟩ := linkGone_stopOnly l cut s
  simpa [degradation] using h.readmit_eq

/-- A partition that does not hold the link is left alone. -/
theorem linkGone_part_of_not_holdsLink {l : Nat} {q : Nat} {s : State} (h : (s.part q).holdsLink l = false) (cut : List PartId) :
    (linkGone l cut s).part q = s.part q := by
  obtain ⟨hold, ps, hz, hps⟩ := linkGone_eq l cut s
  have notStopped : ∀ a ∈ ps, ∀ z, (faultPart a z).part q = z.part q := by
    refine fun a ha z => faultPart_part_ne ?_ z
    rintro rfl
    obtain ⟨-, hholds, -⟩ := (hps q).1 ha
    rw [h] at hholds
    cases hholds
  rw [hz, foldl_part_of_mem notStopped]
  simp [degradation]

/-- A RUNNING partition that the link leaves without a route stops. -/
theorem linkGone_part_of_not_routeLeft {l : Nat} {cut : List PartId} {q : PartId} {s : State}
    (hold : (s.part q).holdsLink l = true) (hroute : routeLeft cut q s = false) (hrun : (s.part q).st = .running)
    (hrep : (s.part q).replay = none) :
    ((linkGone l cut s).part q).st = .faulted ∧ ((linkGone l cut s).part q).stopStat = 0x02 := by
  obtain ⟨held, ps, hz, hps⟩ := linkGone_eq l cut s
  rw [hz]
  exact foldl_faultPart_part ((hps q).2 ⟨q.isLt, hold, hroute⟩) (by simpa [degradation] using hrun)
    (by simpa [degradation] using hrep)

/-- A link that no partition holds adds at most the entry of a change of health to the log. -/
theorem linkGone_log_ne {l n : Nat} {s : State} (hfree : ∀ q, q < 16 → (s.part q).holdsLink l = false)
    (hn : n ≠ s.hs.logNext) (cut : List PartId) : SMap.get none n (linkGone l cut s).hs.log = SMap.get none n s.hs.log := by
  obtain ⟨hold, ps, hz, hps⟩ := linkGone_eq l cut s
  have noneStops : ps = [] := by
    refine List.eq_nil_iff_forall_not_mem.2 fun q hq => ?_
    obtain ⟨hlt, hholds, -⟩ := (hps q).1 hq
    rw [hfree q hlt] at hholds
    cases hholds
  rw [hz, noneStops]
  exact updateHealth_log_ne hn

/-- A partition whose links are down, or one of several modules that are cut from each other, has no route left (R61). -/
theorem routeLeft_eq_false {cut : List PartId} {q : PartId} {s : State} {cfg : PartCfg} (hcfg : (s.part q).cfg = some cfg)
    (h : (∀ k ∈ cfg.links, (s.link k).up = false) ∨ (cfg.span ≠ 2 ∧ q ∈ cut)) : routeLeft cut q s = false := by
  unfold routeLeft
  rw [hcfg]
  rcases h with h | ⟨hspan, hcut⟩
  · have noneUp : (cfg.links.any fun k => (s.link k).up) = false := by simpa using h
    simp [noneUp]
  · have isCut : (cut.any fun r => r.val == q.val) = true := List.any_eq_true.2 ⟨q, hcut, beq_self_eq_true _⟩
    simp [hspan, isCut]

/-- The stops that a lost link elsewhere brings, over the numbers of the partitions. -/
theorem foldl_cutElsewhere_eq (cut : List PartId) (s : State) : cut.foldl cutElsewhere s =
    (cut.map Fin.val).foldl (fun z q => if decide (2 < (z.part q).span) then stopWithin q .faulted stBadCommand 0 z else z) s := by
  have step : cutElsewhere = fun (z : State) (q : PartId) =>
      if decide (2 < (z.part q).span) then stopWithin q .faulted stBadCommand 0 z else z := by
    funext z q
    simp [cutElsewhere, faultPart]
  rw [List.foldl_map, step]

theorem cutElsewhere_stopOnly {z s : State} (q : PartId) (h : z.StopOnly s) : z.StopOnly (cutElsewhere s q) :=
  stopOnly_ite (faultPart_stopOnly q s h) h

theorem cutElsewhere_part_ne {q r : PartId} (h : q ≠ r) (s : State) : (cutElsewhere s r).part q = s.part q := by
  unfold cutElsewhere
  split
  · exact faultPart_part_ne (Fin.val_ne_of_ne h) s
  · rfl

/-- A RUNNING partition of more than two modules that is cut stops (R61). -/
theorem foldl_cutElsewhere_part {cut : List PartId} {q : PartId} {s : State} (hq : q ∈ cut) (hspan : 2 < (s.part q).span)
    (hrun : (s.part q).st = .running) (hrep : (s.part q).replay = none) :
    ((cut.foldl cutElsewhere s).part q).st = .faulted ∧ ((cut.foldl cutElsewhere s).part q).stopStat = 0x02 := by
  rw [foldl_cutElsewhere_eq]
  have stopped := foldl_stop_part .faulted (by decide) stBadCommand 0 (fun x => decide (2 < x.span)) (cut.map Fin.val) s q
    (List.mem_map_of_mem hq) (decide_eq_true hspan) hrun (by simp [hrep])
  exact ⟨stopped.1, stopped.2.1⟩

/-- A partition that is not cut, or that spans at most two modules, goes on (R61). -/
theorem foldl_cutElsewhere_part_of_kept {cut : List PartId} {q : PartId} {s : State} (h : q ∉ cut ∨ (s.part q).span ≤ 2) :
    (cut.foldl cutElsewhere s).part q = s.part q := by
  rcases h with notCut | hspan
  · refine foldl_part_of_mem (fun r hr z => cutElsewhere_part_ne ?_ z) s
    rintro rfl
    exact notCut hr
  · rw [foldl_cutElsewhere_eq]
    exact foldl_stop_idle .faulted stBadCommand 0 (fun x => decide (2 < x.span)) _ s q
      (.inr (decide_eq_false (Nat.not_lt.2 hspan)))

/-- What a further lasting-faulty lane leads to (R421): nothing, or an entry and then a degradation event or the link's loss. -/
theorem linkChanged_cases (l i : Nat) (old : Link) (cut : List PartId) (s : State) : linkChanged l i old cut s = s ∨
    ∃ n, let z := laneDone 0x0C (0x40 + l) (l * 5 + i) n 0 (retireLinkLane l i s)
      linkChanged l i old cut s = updateHealth (degradation z) ∨ linkChanged l i old cut s = linkGone l cut z := by
  unfold linkChanged
  dsimp only
  split
  · exact .inl rfl
  · split
    · exact .inr ⟨_, .inl rfl⟩
    · exact .inr ⟨_, .inr rfl⟩

@[simp] theorem linkChanged_links (l i : Nat) (old : Link) (cut : List PartId) (s : State) :
    (linkChanged l i old cut s).links = s.links := by
  rcases linkChanged_cases l i old cut s with h | ⟨n, h | h⟩ <;> rw [h]
  · exact updateHealth_links _
  · exact linkGone_links ..

@[simp] theorem linkChanged_chat (l i : Nat) (old : Link) (cut : List PartId) (s : State) :
    (linkChanged l i old cut s).chat = s.chat := by
  rcases linkChanged_cases l i old cut s with h | ⟨n, h | h⟩ <;> rw [h]
  · exact updateHealth_chat _
  · exact linkGone_chat ..

@[simp] theorem linkChanged_link (l i : Nat) (old : Link) (cut : List PartId) (s : State) (j : Nat) :
    (linkChanged l i old cut s).link j = s.link j := State.link_of (linkChanged_links ..) j

/-- A link that no partition holds adds at most two entries: the lane's, and one of a change of health. -/
theorem linkChanged_log_ne {l n : Nat} {s : State} (hfree : ∀ q, q < 16 → (s.part q).holdsLink l = false)
    (hn : n ≠ s.hs.logNext) (hn' : n ≠ (s.hs.logNext + 1) % 4096) (i : Nat) (old : Link) (cut : List PartId) :
    SMap.get none n (linkChanged l i old cut s).hs.log = SMap.get none n s.hs.log := by
  rcases linkChanged_cases l i old cut s with h | ⟨w, h | h⟩ <;> rw [h]
  · exact (updateHealth_log_ne hn').trans (logEvent_log_ne hn _)
  · refine (linkGone_log_ne ?_ ?_ cut).trans (logEvent_log_ne hn _)
    · exact hfree
    · exact hn'

/-- The entry of a repair that is complete (R423). -/
theorem laneDone_log (cls src addr count code : Nat) (s : State) : ∃ x,
    SMap.get none s.hs.logNext (laneDone cls src addr count code s).hs.log = some x ∧
      x.code = 0x0003 ∧ x.cls = cls ∧ x.addr = addr ∧ x.d0 = code := by
  obtain ⟨x, hx, he⟩ := logEvent_log { LogEntry.ofCode 0x0003 .info with
    cls := cls, src := src, addr := addr, count := count, d0 := code } s
  exact ⟨x, hx, (congrArg LogEntry.code he :), (congrArg LogEntry.cls he :), (congrArg LogEntry.addr he :),
    (congrArg LogEntry.d0 he :)⟩

@[simp] theorem laneDone_lane (cls src addr count code : Nat) (s : State) (b : Nat) :
    (laneDone cls src addr count code s).lane b = s.lane b := rfl

@[simp] theorem laneDone_link (cls src addr count code : Nat) (s : State) (l : Nat) :
    (laneDone cls src addr count code s).link l = s.link l := rfl

@[simp] theorem retireLinkLane_link (l i : Nat) (s : State) (j : Nat) : (retireLinkLane l i s).link j = s.link j := rfl

theorem startRepair_lane (id : Nat) (s : State) : startRepair ⟨0x0B, id⟩ s = laneLasting (id / 18) (id % 18) s := rfl

theorem startRepair_link (id : Nat) (s : State) : startRepair ⟨0x0C, id⟩ s = s.updLink (id / 5) (linkLaneLasting (id % 5)) := rfl

/-- A corrected event counts and is logged; its resource may start its repair (R417). -/
theorem chatter_cases (r : Res) (addr : Nat) (s : State) : ∃ chat hs, chatter r addr s = { s with chat := chat, hs := hs } ∨
    chatter r addr s = startRepair r { s with chat := chat, hs := hs } := by
  unfold chatter
  dsimp only
  split
  · exact ⟨_, _, .inl rfl⟩
  · split <;> split
    · exact ⟨_, _, .inr rfl⟩
    · exact ⟨_, _, .inl rfl⟩
    · exact ⟨_, _, .inr rfl⟩
    · exact ⟨_, _, .inl rfl⟩

theorem State.retry_updLane {f : Bundle → Bundle} (hf : ∀ x, (f x).retry = x.retry) (b j : Nat) (s : State) :
    ((s.updLane b f).lane j).retry = (s.lane j).retry := by
  by_cases h : j = b
  · rw [h, State.lane_updLane, hf]
  · rw [State.lane_updLane_ne s h]

theorem State.fec_updLink {f : Link → Link} (hf : ∀ x, (f x).fec = x.fec) (l j : Nat) (s : State) :
    ((s.updLink l f).link j).fec = (s.link j).fec := by
  by_cases h : j = l
  · rw [h, State.link_updLink, hf]
  · rw [State.link_updLink_ne s h]

/-- The repair of a lane leaves the retries counted. -/
theorem laneLasting_retry (b l j : Nat) (s : State) : ((laneLasting b l s).lane j).retry = (s.lane j).retry := by
  unfold laneLasting startRetirement
  dsimp only
  split
  · rfl
  · split
    · refine (State.retry_updLane ?_ b j _).trans (State.retry_updLane ?_ b j s) <;> exact fun _ => rfl
    · rw [State.lane_updHs]
      refine (State.retry_updLane ?_ b j _).trans (State.retry_updLane ?_ b j s) <;> exact fun _ => rfl

/-- The repair of a link's lane leaves the corrections counted. -/
@[simp] theorem linkLaneLasting_fec (i : Nat) (x : Link) : (linkLaneLasting i x).fec = x.fec := by
  unfold linkLaneLasting
  dsimp only
  repeat' split
  all_goals rfl

/-- A lane that was not lasting-faulty now is. -/
theorem mem_linkLaneLasting {i : Nat} {x : Link} (h : x.lasting.contains i = false) : i ∈ (linkLaneLasting i x).lasting := by
  unfold linkLaneLasting
  dsimp only
  rw [if_neg (Bool.eq_false_iff.1 h)]
  repeat' split
  all_goals simp

theorem chatter_lane_retry (id addr j : Nat) (s : State) :
    ((chatter ⟨0x0B, id⟩ addr s).lane j).retry = (s.lane j).retry := by
  obtain ⟨chat, hs, h | h⟩ := chatter_cases ⟨0x0B, id⟩ addr s <;> rw [h]
  · rfl
  · rw [startRepair_lane, laneLasting_retry]
    rfl

theorem chatter_link_fec (id addr j : Nat) (s : State) :
    ((chatter ⟨0x0C, id⟩ addr s).link j).fec = (s.link j).fec := by
  obtain ⟨chat, hs, h | h⟩ := chatter_cases ⟨0x0C, id⟩ addr s <;> rw [h]
  · rfl
  · rw [startRepair_link, State.fec_updLink (linkLaneLasting_fec _)]
    rfl

/-- An uncorrectable error of a link's lane that was not lasting-faulty is one entry, and the lane's repair begins (R417). -/
theorem chatterUe_link_eq {l i : Nat} (hi : i < 5) {s : State}
    (hnew : SMap.get false (Res.key ⟨0x0C, l * 5 + i⟩) s.chat.lasting = false) (addr : Nat) :
    ∃ e : LogEntry, chatterUe ⟨0x0C, l * 5 + i⟩ addr s = (logEvent e { s with chat := { s.chat with
        lasting := SMap.set false (Res.key ⟨0x0C, l * 5 + i⟩) true s.chat.lasting } }).updLink l (linkLaneLasting i) ∧
      e.code = 0x0002 ∧ e.cls = 0x0C ∧ e.d1 = 1 := by
  have link : (l * 5 + i) / 5 = l := by omega
  have lane : (l * 5 + i) % 5 = i := by omega
  unfold chatterUe becomeLasting
  dsimp only
  rw [if_neg (Bool.eq_false_iff.1 hnew), startRepair_link, link, lane]
  exact ⟨_, rfl, rfl, rfl, rfl⟩

/-- What that leaves to be seen of the link, its lane, the partitions and the log (R417, log 27). -/
theorem chatterUe_link {l i : Nat} (hi : i < 5) {s : State}
    (hnew : SMap.get false (Res.key ⟨0x0C, l * 5 + i⟩) s.chat.lasting = false) (addr : Nat) :
    let t := chatterUe ⟨0x0C, l * 5 + i⟩ addr s
    t.link l = linkLaneLasting i (s.link l) ∧ SMap.get false (Res.key ⟨0x0C, l * 5 + i⟩) t.chat.lasting = true ∧
      (∀ q, t.part q = s.part q) ∧ t.hs.logNext = (s.hs.logNext + 1) % 4096 ∧
      ∃ x, SMap.get none s.hs.logNext t.hs.log = some x ∧ x.code = 0x0002 ∧ x.cls = 0x0C ∧ x.d1 = 1 := by
  obtain ⟨e, ht, hcode, hcls, hd1⟩ := chatterUe_link_eq hi hnew addr
  obtain ⟨x, hx, he⟩ := logEvent_log e { s with chat := { s.chat with
    lasting := SMap.set false (Res.key ⟨0x0C, l * 5 + i⟩) true s.chat.lasting } }
  dsimp only
  rw [ht]
  exact ⟨State.link_updLink .., (SMap.get_set false _ true s.chat.lasting :), fun _ => rfl, rfl, x, hx,
    (congrArg LogEntry.code he :).trans hcode, (congrArg LogEntry.cls he :).trans hcls, (congrArg LogEntry.d1 he :).trans hd1⟩

/-- The lane's entry stays in the log where no partition holds the link, whatever its repair leads to. -/
theorem linkChanged_chatterUe_log {l i : Nat} (hi : i < 5) {s : State}
    (hnew : SMap.get false (Res.key ⟨0x0C, l * 5 + i⟩) s.chat.lasting = false)
    (hfree : ∀ q, q < 16 → (s.part q).holdsLink l = false) (addr : Nat) (old : Link) (cut : List PartId) :
    ∃ x, SMap.get none s.hs.logNext (linkChanged l i old cut (chatterUe ⟨0x0C, l * 5 + i⟩ addr s)).hs.log = some x ∧
      x.code = 0x0002 ∧ x.cls = 0x0C ∧ x.d1 = 1 := by
  obtain ⟨-, -, hparts, hnext, x, hx, fields⟩ := chatterUe_link hi hnew addr
  refine ⟨x, Eq.trans (linkChanged_log_ne (fun q hq => ?_) ?_ ?_ i old cut) hx, fields⟩
  · rw [hparts, hfree q hq]
  · rw [hnext]
    exact (logNext_succ_ne _).symm
  · rw [hnext]
    exact (logNext_succ_succ_ne _).symm

@[simp] theorem linkChanged_self (l i : Nat) (cut : List PartId) (s : State) : linkChanged l i (s.link l) cut s = s :=
  if_pos ⟨rfl, rfl⟩

/-- A link without a lost lane comes up with its four lanes (R457, R459). -/
theorem trainLink_of_major_eq {l : Nat} {peer : LinkPeer} {s : State} (hpeer : peer.bciMajor = 1)
    (hlast : (s.link l).lasting = []) : trainLink l peer s = s.updLink l fun x =>
      { x with up := true, lanes := 4, spUsed := false, swap := none, peer := some peer } := by
  simp [trainLink, lanesWithout, hpeer, hlast]

theorem trainLink_of_major_ne {peer : LinkPeer} (hpeer : peer.bciMajor ≠ 1) (l : Nat) (s : State) : trainLink l peer s = s :=
  if_neg fun h => hpeer h.1

/-- One more event in a count of a window (R413, R416). -/
theorem Chat.bumped_count (w : Nat) (c : Chat) :
    (c.bumped w).count = if c.window = w then min (c.count + 1) (2 ^ 32 - 1) else 1 := by
  unfold Chat.bumped Chat.inWindow
  split <;> rfl

/-- The counters after a window has begun (R416): those of other dies, and of the die's own those of this window. -/
theorem mem_mapVals_inWindow (p : Nat → Prop) [DecidablePred p] {w : Nat} {m : SMap Chat} {e : Nat × Chat} :
    e ∈ SMap.mapVals Chat.zero (fun k c => if p k then c.inWindow w else c) m ↔
      e ∈ m ∧ e.2 ≠ Chat.zero ∧ (¬ p e.1 ∨ e.2.window = w) := by
  have value (x : Nat × Chat) : (if p x.1 then x.2.inWindow w else x.2) =
      if ¬ p x.1 ∨ x.2.window = w then x.2 else Chat.zero := by
    by_cases hp : p x.1 <;> simp [hp, Chat.inWindow]
  simp only [SMap.mapVals, List.mem_filterMap, value]
  constructor
  · rintro ⟨x, hx, h⟩
    by_cases hw : ¬ p x.1 ∨ x.2.window = w
    · rw [if_pos hw] at h
      obtain ⟨hne, same⟩ := Option.ite_none_left_eq_some.1 h
      cases same
      exact ⟨hx, hne, hw⟩
    · simp [if_neg hw] at h
  · rintro ⟨he, hne, hw⟩
    exact ⟨e, he, by rw [if_pos hw, if_neg hne]⟩

end Sys2Proof.Machine
end

section
/-! SUPPORT. A compute die after its self-test (R23, R420, R455). -/

namespace Sys2Proof.Machine

/-- Writes of cores leave everything else. -/
theorem foldl_updCore_frame {α : Type} (c : α → Nat) (f : α → Core → Core) (l : List α) (s : State) :
    { l.foldl (fun z e => z.updCore (c e) (f e)) s with cores := s.cores } = s := by
  induction l generalizing s with
  | nil => rfl
  | cons e l ih => exact congrArg (fun z : State => { z with cores := s.cores }) (ih (s.updCore (c e) (f e)))

/-- Without a retirement or a spare row marked before, the repair record stays as it is. -/
theorem applyPending_repair {s : State} (hcores : s.flash.pendCores = []) (hrows : s.flash.pendRows = []) (on : Nat → Bool)
    (bist : List BistFail) : (applyPending on bist s).flash.repair = s.flash.repair := by
  simp [applyPending, hcores, hrows]

/-- What a die enables and disables: its lowest-numbered usable cores (log 40); besides, its cores get their spare rows. -/
theorem enableDie_frame (d : Nat) (s : State) : { enableDie d s with cores := s.cores } = s.updDie d fun x => { x with
    up := true, inBist := false, fenced := decide ((usable d s).length < 100),
    disabled := (List.range 108).filter fun i => !((usable d s).take 100).contains i } := foldl_updCore_frame ..

theorem enableDie_die (d : Nat) (s : State) : (enableDie d s).die d = { s.die d with
    up := true, inBist := false, fenced := decide ((usable d s).length < 100),
    disabled := (List.range 108).filter fun i => !((usable d s).take 100).contains i } :=
  (congrArg (State.die · d) (enableDie_frame d s) :).trans (State.die_updDie ..)

theorem enableDie_die_ne {d i : Nat} (h : i ≠ d) (s : State) : (enableDie d s).die i = s.die i :=
  (congrArg (State.die · i) (enableDie_frame d s) :).trans (State.die_updDie_ne s h _)

@[simp] theorem enableDie_hs (d : Nat) (s : State) : (enableDie d s).hs = s.hs := (congrArg State.hs (enableDie_frame d s) :)

/-- Of 108 cores, those not among the first 100 of a choice of at least 100 are eight. -/
theorem length_filter_not_mem_take (p : Nat → Bool) (h : 100 ≤ ((List.range 108).filter p).length) :
    ((List.range 108).filter fun i => !(((List.range 108).filter p).take 100).contains i).length = 8 := by
  generalize hl : ((List.range 108).filter p).take 100 = on
  have hlen : on.length = 100 := by rw [← hl, List.length_take, min_eq_left h]
  have hsub : on.Sublist (List.range 108) := hl ▸ (List.take_sublist ..).trans List.filter_sublist
  have enabled : ((List.range 108).filter fun i => on.contains i).Perm on :=
    (List.perm_ext_iff_of_nodup (List.nodup_range.filter _) (hsub.nodup List.nodup_range)).2 fun i => by
      simpa using fun hi => List.mem_range.1 (hsub.subset hi)
  have parts := List.length_eq_length_filter_add (l := List.range 108) fun i => on.contains i
  rw [enabled.length_eq, hlen, List.length_range] at parts
  omega

/-- A die whose self-test has found no failure, before the firmware's entry. -/
def bistPassed (d : Nat) (s : State) : State := clearLasting d (enableDie d (applyPending (fun c => dieOfCore c == d) [] s))

theorem bistPassed_die {s : State} (hcores : s.flash.pendCores = []) (hrows : s.flash.pendRows = []) (d : Nat) :
    (bistPassed d s).die d = { s.die d with
      up := true, inBist := false, fenced := decide ((usable d s).length < 100),
      disabled := (List.range 108).filter fun i => !((usable d s).take 100).contains i } := by
  have same : usable d (applyPending (fun c => dieOfCore c == d) [] s) = usable d s := by
    unfold usable
    rw [applyPending_repair hcores hrows]
  rw [← same]
  exact enableDie_die d _

theorem bistPassed_die_ne {d i : Nat} (h : i ≠ d) (s : State) : (bistPassed d s).die i = s.die i := enableDie_die_ne h _

theorem bistPassed_hs (d : Nat) (s : State) : (bistPassed d s).hs = s.hs := enableDie_hs d _

/-- What DIE_BIST_COMPLETE leaves when the self-test has found no failure. -/
def bistReturned (d : Nat) (s : State) : State :=
  if ((bistPassed d s).die d).fenced then bistPassed d s
  else updateHealth (logEvent { LogEntry.ofCode 0x0041 .health with
    src := d, count := (usable d (bistPassed d s)).length } (bistPassed d s))

theorem exec_dieBistComplete_nil {d : DieId} {s : State} (hrun : s.running = true) (hrails : s.power.rails = true)
    (hbist : (s.die d).inBist = true) : exec (.dieBistComplete d []) s = .next (bistReturned d s) :=
  congrArg _ (if_pos (by simp [hrun, hrails, hbist]))

theorem bistReturned_die (d i : Nat) (s : State) : (bistReturned d s).die i = (bistPassed d s).die i := by
  unfold bistReturned
  split
  · rfl
  · rw [updateHealth_die, logEvent_die]

/-- The entry of a die that comes up (R423). -/
theorem bistReturned_log {d : Nat} {s : State} (hup : ((bistPassed d s).die d).fenced = false) :
    ∃ x, SMap.get none s.hs.logNext (bistReturned d s).hs.log = some x ∧ x.code = 0x0041 ∧ x.src = d := by
  obtain ⟨x, hx, he⟩ := logEvent_log { LogEntry.ofCode 0x0041 .health with
    src := d, count := (usable d (bistPassed d s)).length } (bistPassed d s)
  refine ⟨x, ?_, (congrArg LogEntry.code he :), (congrArg LogEntry.src he :)⟩
  rw [bistPassed_hs] at hx
  unfold bistReturned
  rw [if_neg (Bool.eq_false_iff.1 hup), ← hx]
  refine updateHealth_log_ne ?_
  rw [logEvent_logNext, bistPassed_hs]
  exact (logNext_succ_ne _).symm

end Sys2Proof.Machine
end

section
/-! The commands of dies, lanes and links (O57): one equation for each command, and what its result shows. -/

namespace Sys2Proof.Machine

/-- CHATTER_WINDOW_START (R416). -/
theorem exec_chatterWindowStart {s : State} (hrun : s.running = true) (d : ChatDie) :
    exec (.chatterWindowStart d) s = .next { s with
      chat := { s.chat with counters := SMap.mapVals Chat.zero (fun k c => if resDie (resOfKey k) = chatDie d then
        c.inWindow (dieRefcyc (chatDie d) s / 2 ^ 27) else c) s.chat.counters }
      lanes := SMap.mapVals Bundle.reset (fun b x => if 0x10 + bedOfBundle b = chatDie d then
        { x with retry := x.retry.inWindow (dieRefcyc (chatDie d) s / 2 ^ 27) } else x) s.lanes
      links := SMap.mapVals Link.reset (fun l x => if 0x10 + l / 9 = chatDie d then
        { x with fec := x.fec.inWindow (dieRefcyc (chatDie d) s / 2 ^ 27) } else x) s.links } :=
  congrArg _ (if_pos hrun)

/-- LANE_SPARE_SWAP of a bundle (R421). -/
theorem exec_laneSpareSwap_bundle {s : State} {b : BundleId} {l : Nat} {rest : List Nat} (hrun : s.running = true)
    (hswaps : (s.lane b).swaps = l :: rest) (hret : (s.lane b).retired = false) :
    exec (.laneSpareSwap (.bundle b)) s = .next (laneDone 0x0B (0x10 + bedOfBundle b) (b * 18 + l)
      (2 - min 2 ((s.lane b).spUsed + 1)) 3
      ((s.updLane b fun x => { x with swaps := rest, spUsed := x.spUsed + 1 }).updFlash fun f =>
        { f with repair := { f.repair with lanes := f.repair.lanes ++ [(b.val, l)] } })) := by
  have swapped : exec (.laneSpareSwap (.bundle b)) s = .next (swapBundle b s) := congrArg _ (if_pos hrun)
  rw [swapped]
  unfold swapBundle
  simp [hswaps, hret]

/-- LANE_SPARE_SWAP of a link (R421). -/
theorem exec_laneSpareSwap_link {s : State} {k : LinkId} {i : Nat} (hrun : s.running = true) (hswap : (s.link k).swap = some i) :
    exec (.laneSpareSwap (.link k)) s = .next (laneDone 0x0C (0x40 + k) (k * 5 + i) 0 3
      (retireLinkLane k i (s.updLink k fun x => { x with swap := none, spUsed := true }))) := by
  have swapped : exec (.laneSpareSwap (.link k)) s = .next (swapLink k s) := congrArg _ (if_pos hrun)
  rw [swapped]
  unfold swapLink
  simp [hswap]

/-- FLIT_CRC_RETRY of a lane that still passes flits (R442). -/
theorem exec_flitCrcRetry {s : State} {b : BundleId} {lane : Fin 18} (hrun : s.running = true)
    (hc : (s.lane b).carries lane = true) : exec (.flitCrcRetry b lane false) s =
      .next (chatter ⟨0x0B, b * 18 + lane⟩ (b * 18 + lane)
        (s.updLane b fun x => { x with retry := x.retry.bumped (bedWin (bedOfBundle b) s) })) :=
  congrArg Host.Outcome.next (if_pos (Bool.and_eq_true_iff.2 ⟨hrun, hc⟩))

section Codeword

variable {s : State} {l : LinkId} {lane : Fin 5} (hrun : s.running = true) (hc : (s.link l).carries lane = true)
include hrun hc

/-- FEC_CODEWORD of a corrected codeword (R417, R458). -/
theorem exec_fecCodeword_corrected (cut : List PartId) :
    let z := s.updLink l fun x => { x with fec := x.fec.bumped (bedWin (l / 9) s) }
    exec (.fecCodeword l lane true cut) s =
      .next (linkChanged l lane (z.link l) cut (chatter ⟨0x0C, l * 5 + lane⟩ (l * 5 + lane) z)) :=
  congrArg Host.Outcome.next (if_pos (Bool.and_eq_true_iff.2 ⟨hrun, hc⟩))

/-- FEC_CODEWORD of an uncorrectable codeword (log 27). -/
theorem exec_fecCodeword_uncorrectable (cut : List PartId) : exec (.fecCodeword l lane false cut) s =
    .next (linkChanged l lane (s.link l) cut (chatterUe ⟨0x0C, l * 5 + lane⟩ (l * 5 + lane) s)) :=
  congrArg Host.Outcome.next (if_pos (Bool.and_eq_true_iff.2 ⟨hrun, hc⟩))

end Codeword

/-- SCALEOUT_LINK_TRAIN (R459). -/
theorem exec_scaleoutLinkTrain {s : State} {l : LinkId} (hrun : s.running = true) (hrails : s.power.rails = true)
    (hboot : s.hs.bootDone = true) (hdown : (s.link l).up = false) (peer : LinkPeer) :
    exec (.scaleoutLinkTrain l peer) s = .next (updateHealth (trainLink l peer s)) :=
  congrArg _ (if_pos (by simp [hrun, hrails, hboot, hdown]))

/-- SCALEOUT_LINK_DOWN of a link of this module (R461). -/
theorem exec_scaleoutLinkDown_some {s : State} {l : LinkId} (hrun : s.running = true) (hup : (s.link l).up = true)
    (cut : List PartId) : exec (.scaleoutLinkDown (some l) cut) s =
      .next (linkGone l cut (s.updLink l fun x => { x with up := false, lanes := 0, swap := none })) :=
  congrArg _ (if_pos (by simp [hrun, hup]))

/-- SCALEOUT_LINK_DOWN between other members of spans (R61). -/
theorem exec_scaleoutLinkDown_none {s : State} (hrun : s.running = true) (cut : List PartId) :
    exec (.scaleoutLinkDown none cut) s = .next (cut.foldl cutElsewhere s) := congrArg _ (if_pos hrun)

/-- Settles O57, by one equation for each command, and for each operation behind it what it changes of dies, lanes, links, the log
and the partitions. -/
theorem diesAndLanes : Obligations.DiesAndLanes := by
  intro s hrun
  refine ⟨?dieBist, ?window, ?bundleSpare, ?linkSpare, ?retry, ?codeword, ?train, ?down, ?elsewhere⟩
  case dieBist =>
    intro d hrails hbist hcores hrows good
    refine ⟨_, exec_dieBistComplete_nil hrun hrails hbist, ?_⟩
    have passed := bistPassed_die hcores hrows d
    rw [bistReturned_die, passed]
    refine ⟨rfl, rfl, rfl, fun h => length_filter_not_mem_take _ h, fun e he => ?_, fun h => ?_⟩
    · rw [bistReturned_die, bistPassed_die_ne he]
    · refine bistReturned_log ?_
      rw [passed]
      exact decide_eq_false (Nat.not_lt.2 h)
  case window =>
    refine fun d => ⟨_, exec_chatterWindowStart hrun d, ⟨fun e he hd => ?_, fun e he hne hw => ?_⟩, rfl, rfl⟩
    · exact ((mem_mapVals_inWindow fun k => resDie (resOfKey k) = chatDie d).1 he).2.2.resolve_left (not_not.2 hd)
    · exact (mem_mapVals_inWindow fun k => resDie (resOfKey k) = chatDie d).2 ⟨he, hne, hw⟩
  case bundleSpare =>
    exact fun b l rest hswaps hret => ⟨_, exec_laneSpareSwap_bundle hrun hswaps hret, by simp, rfl,
      fun i hi => by simp [State.lane_updLane_ne s hi], laneDone_log .., rfl⟩
  case linkSpare =>
    exact fun k i hswap => ⟨_, exec_laneSpareSwap_link hrun hswap, by simp,
      fun j hj => by simp [State.link_updLink_ne s hj], rfl⟩
  case retry =>
    intro b lane hc
    refine ⟨_, exec_flitCrcRetry hrun hc, ?_⟩
    rw [chatter_lane_retry, State.lane_updLane]
    exact ⟨rfl, Chat.bumped_count ..⟩
  case codeword =>
    refine fun l lane cut hc => ⟨fun hnew hlink => ?_, fun hold => ?_, ?_⟩
    · obtain ⟨newLink, lasting, -⟩ := chatterUe_link lane.isLt hnew (l * 5 + lane)
      refine ⟨_, exec_fecCodeword_uncorrectable hrun hc cut, ?_⟩
      rw [linkChanged_link, linkChanged_chat, newLink]
      exact ⟨linkLaneLasting_fec .., mem_linkLaneLasting hlink, lasting,
        fun hfree => linkChanged_chatterUe_log lane.isLt hnew hfree _ _ cut⟩
    · rw [exec_fecCodeword_uncorrectable hrun hc cut]
      unfold chatterUe
      rw [if_pos hold, linkChanged_self]
    · refine ⟨_, exec_fecCodeword_corrected hrun hc cut, ?_⟩
      rw [linkChanged_link, chatter_link_fec, State.link_updLink]
      exact ⟨rfl, Chat.bumped_count ..⟩
  case train =>
    intro l peer hrails hboot hdown hlast
    refine ⟨fun hpeer => ⟨_, exec_scaleoutLinkTrain hrun hrails hboot hdown peer, ?_⟩,
      fun hpeer => ⟨_, exec_scaleoutLinkTrain hrun hrails hboot hdown peer, ?_⟩⟩
    · rw [trainLink_of_major_eq hpeer hlast]
      simpa using fun j hj => State.link_updLink_ne s hj _
    · rw [updateHealth_link, trainLink_of_major_ne hpeer, hdown]
  case down =>
    intro l cut hup
    refine ⟨_, exec_scaleoutLinkDown_some hrun hup cut, ?_, ?_, fun j hj => ?_, linkGone_readmit .., fun q _ hq => ?_,
      fun q cfg hq hst hrep hcfg hroute => ?_⟩
    · simp
    · simp
    · rw [linkGone_link, State.link_updLink_ne s hj]
    · exact linkGone_part_of_not_holdsLink (s := s.updLink l _) hq cut
    · refine linkGone_part_of_not_routeLeft hq (routeLeft_eq_false hcfg (hroute.imp_left fun h k hk => ?_)) hst hrep
      by_cases e : k = l
      · rw [e, State.link_updLink]
      · rw [State.link_updLink_ne s e, h k hk e]
  case elsewhere =>
    refine fun cut => ⟨_, exec_scaleoutLinkDown_none hrun cut, ?_, fun q hq hspan hst hrep => ?_, fun q hq => ?_⟩
    · exact (stopOnly_foldl (State.StopOnly.refl s) fun z q hz => cutElsewhere_stopOnly q hz).links_eq
    · exact foldl_cutElsewhere_part hq hspan hst hrep
    · exact foldl_cutElsewhere_part_of_kept hq

end Sys2Proof.Machine
end

section
/-! The stamp rule of a line (O36): what an access that races with nothing leaves in the stamp word, and what that word says to
the next access of the turn. -/

namespace Sys2Proof.Machine

/-- In a turn, a unit has written the line and its stamp names it (R52). -/
def Stamp.writtenIn (x : Stamp) (t : Nat) : Prop := x.writer ≠ 0xFFF ∧ x.wstamp = t % 65536

/-- In a turn, the line has been read (R52). -/
def Stamp.readIn (x : Stamp) (t : Nat) : Prop := x.reader ≠ 0xFFF ∧ x.rstamp = t % 65536

/-- Any access of another unit than the turn's writer races with the writer. -/
theorem stampStep_of_other_writer {x : Stamp} {u t : Nat} (hw : x.writtenIn t) (hu : x.writer ≠ u) (w : Bool) :
    stampStep w u t x = (x, some x.writer) := by
  obtain ⟨hlive, hturn⟩ := hw
  simp [stampStep, hlive, hturn, hu]

/-- A write races with nothing just where no other unit has written or read the line in the turn; its stamp then stands. -/
theorem stampStep_write {x : Stamp} {u t : Nat} (h : (stampStep true u t x).2 = none) :
    (x.writtenIn t → x.writer = u) ∧ (x.readIn t → x.reader = u) ∧
      (stampStep true u t x).1 = { x with wstamp := t % 65536, writer := u } := by
  unfold stampStep at h ⊢
  unfold Stamp.writtenIn Stamp.readIn
  grind

/-- A read races with nothing just where no other unit has written the line in the turn; the stamp then names the unit, or
shares the line's reads among several. -/
theorem stampStep_read {x : Stamp} {u t : Nat} (h : (stampStep false u t x).2 = none) :
    (x.writtenIn t → x.writer = u) ∧
      ∃ r, (r = u ∨ r = 0xFFE) ∧ (stampStep false u t x).1 = { x with reader := r, rstamp := t % 65536 } := by
  obtain ⟨reader, rstamp, writer, wstamp⟩ := x
  simp only [stampStep, Stamp.writtenIn] at h ⊢
  grind

/-- A write of a unit that neither another writer nor another reader precedes in the turn races with nothing. -/
theorem stampStep_own_write {x : Stamp} {u t : Nat} (hw : x.writtenIn t → x.writer = u) (hr : x.readIn t → x.reader = u) :
    (stampStep true u t x).2 = none := by
  unfold stampStep
  unfold Stamp.writtenIn at hw
  unfold Stamp.readIn at hr
  grind

/-- A read of a unit that no other writer precedes in the turn races with nothing. -/
theorem stampStep_own_read {x : Stamp} {u t : Nat} (hw : x.writtenIn t → x.writer = u) : (stampStep false u t x).2 = none := by
  unfold stampStep
  unfold Stamp.writtenIn at hw
  grind

/-- A write of a unit that another unit's read precedes in the turn races. -/
theorem stampStep_write_of_other_reader {x : Stamp} {u t : Nat} (hr : x.readIn t) (hu : x.reader ≠ u) :
    (stampStep true u t x).2 ≠ none := fun h => hu ((stampStep_write h).2.1 hr)

/-- Settles O36: after a write the stamp names the writer, and after a read the reader or several, which decides each next access of
the turn. -/
theorem turnRaceRule : Obligations.TurnRaceRule := by
  intro u v n m x hu hv hn hm y z
  refine ⟨fun h => ?_, fun h hmn hvu => ?_, fun h hmn hvu => ?_⟩
  · obtain ⟨-, hreader, hy⟩ := stampStep_write h
    have written : y.writtenIn n ∧ y.writer = u := by
      rw [show y = _ from hy]
      exact ⟨⟨by dsimp only; omega, rfl⟩, rfl⟩
    refine ⟨fun hmn hvu => ?_, stampStep_own_write (fun _ => written.2) ?_, stampStep_own_read fun _ => written.2⟩
    · subst hmn
      have other : y.writer ≠ v := written.2 ▸ hvu.symm
      rw [stampStep_of_other_writer written.1 other, stampStep_of_other_writer written.1 other, written.2]
      exact ⟨rfl, rfl⟩
    · rw [show y = _ from hy]
      exact hreader
  · subst hmn
    obtain ⟨hwriter, r, -, hz⟩ := stampStep_read h
    by_cases hw : x.writtenIn m
    · exact .inr ⟨hwriter hw, hw.2.trans (Nat.mod_eq_of_lt hm)⟩
    · refine .inl (stampStep_own_read fun hzw => absurd ?_ hw)
      rw [show z = _ from hz] at hzw
      exact hzw
  · subst hmn
    obtain ⟨-, r, hr, hz⟩ := stampStep_read h
    have read : z.readIn m ∧ z.reader ≠ v := by
      rw [show z = _ from hz]
      exact ⟨⟨by dsimp only; omega, rfl⟩, by dsimp only; omega⟩
    exact stampStep_write_of_other_reader read.1 read.2

end Sys2Proof.Machine
end

section
/-! SUPPORT. What the accounting of errors and repairs (R415 to R424) leaves alone: partitions, cores, compute dies, bed dies, the
HBM memory, the turn units of the regulators, and what has been put out. -/

namespace Sys2Proof.Machine

/-- What counting an error and starting a repair leave alone (R415 to R424): entries of the fault log, counters, repairs of stacks,
lanes and links, health with its notices, and nothing else. -/
structure State.Accounted (s t : State) : Prop where
  rest : { t with free := s.free, mgmt := s.mgmt, hs := s.hs, chat := s.chat, flash := s.flash, portA := s.portA, portB := s.portB,
                  hbms := s.hbms, lanes := s.lanes, links := s.links } = s
  regs : ∀ k, (t.stack k).regs = (s.stack k).regs
  hs : { t.hs with health := s.hs.health, log := s.hs.log, logNext := s.hs.logNext, routeHold := s.hs.routeHold } = s.hs
  port : ∀ p, { t.port p with notices := (s.port p).notices } = s.port p

namespace State.Accounted

variable {s t u : State}

theorem refl (s : State) : s.Accounted s := ⟨rfl, fun _ => rfl, rfl, fun p => by cases p <;> rfl⟩

theorem trans (h : s.Accounted t) (k : t.Accounted u) : s.Accounted u := by
  refine ⟨?_, fun i => (k.regs i).trans (h.regs i), ?_, fun p => ?_⟩
  · rw [← h.rest, ← k.rest]
  · rw [← h.hs, ← k.hs]
  · rw [← h.port p, ← k.port p]

theorem parts_eq (h : s.Accounted t) : t.parts = s.parts := (congrArg State.parts h.rest :)
theorem cores_eq (h : s.Accounted t) : t.cores = s.cores := (congrArg State.cores h.rest :)
theorem dies_eq (h : s.Accounted t) : t.dies = s.dies := (congrArg State.dies h.rest :)
theorem beds_eq (h : s.Accounted t) : t.beds = s.beds := (congrArg State.beds h.rest :)
theorem out_eq (h : s.Accounted t) : t.out = s.out := (congrArg State.out h.rest :)

/-- A change of the stacks' repair state, the other parts of the accounting as given. -/
theorem updStack (h : s.Accounted t) (k : Nat) (f : Stack → Stack) (hf : ∀ x, (f x).regs = x.regs := by intro; rfl) :
    s.Accounted (t.updStack k f) := by
  refine ⟨h.rest, fun i => ?_, h.hs, h.port⟩
  by_cases e : i = k
  · rw [e, State.stack_updStack, hf, h.regs]
  · rw [State.stack_updStack_ne t e, h.regs]

theorem updFlash (h : s.Accounted t) (f : Flash → Flash) : s.Accounted (t.updFlash f) := ⟨h.rest, h.regs, h.hs, h.port⟩
theorem updLane (h : s.Accounted t) (b : Nat) (f : Bundle → Bundle) : s.Accounted (t.updLane b f) := ⟨h.rest, h.regs, h.hs, h.port⟩
theorem updLink (h : s.Accounted t) (l : Nat) (f : Link → Link) : s.Accounted (t.updLink l f) := ⟨h.rest, h.regs, h.hs, h.port⟩
theorem chat (h : s.Accounted t) (c : Chatter) : s.Accounted { t with chat := c } := ⟨h.rest, h.regs, h.hs, h.port⟩
theorem drew (h : s.Accounted t) : s.Accounted t.drew := ⟨h.rest, h.regs, h.hs, h.port⟩
theorem logEvent (h : s.Accounted t) (e : LogEntry) : s.Accounted (logEvent e t) := ⟨h.rest, h.regs, h.hs, h.port⟩

theorem notify (h : s.Accounted t) (p : PortId) (kind part st stat turn : Nat) :
    s.Accounted (notify p kind part st stat turn t) := by
  refine ⟨?_, fun i => ?_, ?_, fun i => ?_⟩
  · cases p <;> exact h.rest
  · cases p <;> exact h.regs i
  · cases p <;> exact h.hs
  · have h := h.port i
    cases p <;> cases i <;> exact h

theorem setHealth (h : s.Accounted t) (x : Health) : s.Accounted (setHealth x t) := by
  unfold Machine.setHealth
  dsimp only
  split
  · exact h
  · exact ((State.Accounted.logEvent (t := { t.updHs (fun y => { y with health := x }) with
      mgmt := { t.mgmt with alert := setBit t.mgmt.alert 2 true } }) ⟨h.rest, h.regs, h.hs, h.port⟩ _).notify ..).notify ..

theorem updateHealth (h : s.Accounted t) : s.Accounted (updateHealth t) := by
  rcases updateHealth_cases t with e | ⟨x, e⟩ <;> rw [e]
  · exact h
  · exact h.setHealth x

theorem startRetirement (h : s.Accounted t) (b : Nat) : s.Accounted (startRetirement b t) := ⟨h.rest, h.regs, h.hs, h.port⟩

theorem markCore (h : s.Accounted t) (c : Nat) : s.Accounted (markCore c t) := h.updFlash _

theorem rowLasting (h : s.Accounted t) (k : Nat) (r : HRow) : s.Accounted (rowLasting k r t) := by
  unfold Machine.rowLasting
  dsimp only
  split
  · exact h
  · split
    · exact ((h.updStack ..).logEvent _).updateHealth
    · split
      · exact h.updStack ..
      · split <;> exact h.updStack ..

theorem laneLasting (h : s.Accounted t) (b l : Nat) : s.Accounted (laneLasting b l t) := by
  unfold Machine.laneLasting
  dsimp only
  split
  · exact h
  · split
    · exact (h.updLane ..).updLane ..
    · exact (h.updLane ..).startRetirement b

theorem startRepair (h : s.Accounted t) (r : Res) : s.Accounted (startRepair r t) := by
  unfold Machine.startRepair
  split; · exact h.markCore _
  split; · exact h.markCore _
  split
  · split
    · exact h.markCore _
    · exact (h.updFlash _).drew
  split; · exact (h.updFlash _).drew
  split; · exact h.updFlash _
  split; · exact h.rowLasting ..
  split; · exact h.laneLasting ..
  split; · exact h.updLink ..
  exact h

theorem becomeLasting (h : s.Accounted t) (r : Res) (addr count : Nat) (ue : Bool) :
    s.Accounted (becomeLasting r addr count ue t) := ((h.chat _).logEvent _).startRepair r

/-- A corrected error. -/
theorem chatter (h : s.Accounted t) (r : Res) (addr : Nat) : s.Accounted (chatter r addr t) := by
  unfold Machine.chatter
  dsimp only
  split
  · exact h.chat _
  · split <;> split
    · exact ((h.chat _).logEvent _).becomeLasting ..
    · exact (h.chat _).logEvent _
    · exact (h.chat _).becomeLasting ..
    · exact h.chat _

/-- An uncorrectable error. -/
theorem chatterUe (h : s.Accounted t) (r : Res) (addr : Nat) : s.Accounted (chatterUe r addr t) := by
  unfold Machine.chatterUe
  split
  · exact h
  · exact h.becomeLasting ..

end State.Accounted

end Sys2Proof.Machine
end

section
/-! SUPPORT. Reads and writes of a bed store without errors (R285), the Turn Race check of a line without stamp errors (R52, R288),
and the acknowledgement of a move's last piece (R270). -/

namespace Sys2Proof.Machine

/-- Of the module nothing changes but bed die b. -/
def OnlyBed (b : Nat) (s t : State) : Prop := (∀ i, i ≠ b → t.bed i = s.bed i) ∧ { t with beds := s.beds } = s

theorem onlyBed_updBed (b : Nat) (f : Bed → Bed) (s : State) : OnlyBed b s (s.updBed b f) :=
  ⟨fun _ hi => State.bed_updBed_ne s hi f, rfl⟩

theorem OnlyBed.refl (b : Nat) (s : State) : OnlyBed b s s := ⟨fun _ _ => rfl, rfl⟩

theorem OnlyBed.trans {b : Nat} {s t u : State} (h : OnlyBed b s t) (k : OnlyBed b t u) : OnlyBed b s u :=
  ⟨fun i hi => (k.1 i hi).trans (h.1 i hi), by rw [← h.2, ← k.2]⟩

theorem OnlyBed.parts_eq {b : Nat} {s t : State} (h : OnlyBed b s t) : t.parts = s.parts := (congrArg State.parts h.2 :)
theorem OnlyBed.cores_eq {b : Nat} {s t : State} (h : OnlyBed b s t) : t.cores = s.cores := (congrArg State.cores h.2 :)
theorem OnlyBed.dies_eq {b : Nat} {s t : State} (h : OnlyBed b s t) : t.dies = s.dies := (congrArg State.dies h.2 :)

@[simp] theorem Mem.length_read (m : Mem) (a n : Nat) : (m.read a n).length = n := by
  induction n generalizing a with
  | zero => rfl
  | succ n ih => simp [Mem.read, ih]

theorem Mem.getD_read (m : Mem) (a : Nat) {n i : Nat} (h : i < n) : (m.read a n).getD i 0 = m.byte (a + i) := by
  induction n generalizing a i with
  | zero => cases h
  | succ n ih =>
    cases i with
    | zero => rfl
    | succ i =>
      rw [Mem.read, List.getD_cons_succ, ih (a + 1) (by omega), Nat.add_right_comm]
      rfl

@[simp] theorem length_maskBytes (mask : Nat) (old new : List Byte) :
    (maskBytes mask old new).length = min old.length new.length := by simp [maskBytes]

/-- A byte of the mask takes its new value. -/
theorem getD_maskBytes (mask : Nat) {old new : List Byte} {i : Nat} (ho : i < old.length) (hn : i < new.length) :
    (maskBytes mask old new).getD i 0 = if bitOf mask i then new.getD i 0 else old.getD i 0 := by
  simp [maskBytes, List.getD_eq_getElem?_getD, ho, hn]

/-- A codeword without an error is written without meeting one. -/
theorem codewordWrite_clean (k mask : Nat) : codewordWrite k mask 0 = (0, .clean) := by
  unfold codewordWrite
  dsimp only
  repeat' split
  all_goals first | rfl | contradiction

/-- A line without errors takes the bytes of the mask, and its codewords stay without errors (R285). -/
theorem rawWrite_clean (k : Nat) (old : List Byte) (n : Nat) (bytes : List Byte) (mask : Nat) :
    rawWrite k ⟨old, List.replicate n 0⟩ bytes mask 0 =
      (⟨maskBytes mask old bytes, List.replicate n 0⟩, List.replicate n .clean) := by
  have each (e : Nat × Nat) (he : e ∈ (List.replicate n 0).zipIdx) : codewordWrite k (mask / 2 ^ (k * e.2)) e.1 = (0, .clean) := by
    have zero : e.1 = 0 := List.eq_of_mem_replicate (List.fst_mem_of_mem_zipIdx he)
    rw [zero, codewordWrite_clean]
  have codewords : (List.replicate n 0).zipIdx.map (fun e => codewordWrite k (mask / 2 ^ (k * e.2)) e.1) =
      List.replicate n (0, Found.clean) := by
    rw [List.map_congr_left each, List.map_const', List.length_zipIdx, List.length_replicate]
  have kept : (List.replicate n 0).zipIdx.map (fun e => decide (codewordWrite k (mask / 2 ^ (k * e.2)) e.1 = (2, .bad))) =
      List.replicate n false := by
    rw [List.map_congr_left fun e he => by rw [each e he], List.map_const', List.length_zipIdx, List.length_replicate]
    rfl
  unfold rawWrite
  dsimp only
  rw [kept, codewords]
  simp

/-- Where a bed store holds no error, a line reads with none. -/
theorem rawRead_clean (m : Mem) (a e n : Nat) : rawRead m [] a e n = ⟨m.read a 64, List.replicate n 0⟩ := by
  simp [rawRead]

/-- A line written to a bed store without errors (R285). -/
theorem bedWrite_clean {b : Nat} {s : State} (herr : (s.bed b).err = []) (off : Nat) (bytes : List Byte) (mask : Nat) :
    bedWrite b off bytes mask 0 s = s.updBed b fun x => { x with
      store := x.store.write off (maskBytes mask ((s.bed b).store.read off 64) bytes)
      err := rawErrs x.err (off / 8) (List.replicate 8 0) } := by
  unfold bedWrite
  dsimp only
  rw [herr, rawRead_clean, rawWrite_clean]
  rfl

/-- A line read from a bed store without errors (R285). -/
theorem bedRead_clean {b : Nat} {s : State} (herr : (s.bed b).err = []) (off : Nat) :
    bedRead b off s = (s.updBed b fun x => { x with err := rawErrs x.err (off / 8) (List.replicate 8 0) },
      ⟨(s.bed b).store.read off 64, 0⟩) := by
  unfold bedRead
  dsimp only
  rw [herr, rawRead_clean]
  rfl

theorem bedWritten_bedWrite {b off : Nat} {r : MemReq} {s : State} (herr : (s.bed b).err = []) (hlen : r.bytes.length = 64) :
    BedWritten b off r s (bedWrite b off r.bytes r.mask 0 s) := by
  rw [bedWrite_clean herr]
  unfold BedWritten
  simp only [State.bed_updBed, Mem.byte_write_eq, length_maskBytes, Mem.length_read, hlen]
  refine ⟨fun i hi => ?_, fun a ha => if_neg (by omega)⟩
  rw [if_pos (by omega), Nat.add_sub_cancel_left, getD_maskBytes _ (by simpa using hi) (by omega), Mem.getD_read _ _ hi]

/-- The check of R52 on a line whose stamp word holds no error. -/
theorem raceCheck_clean {b off : Nat} {s : State} (hclean : (s.bed b).stampErr = []) (w : Bool) (u t : Nat) :
    let x := stampStep w u t (SMap.get Stamp.cold (off / 64) (s.bed b).stamps)
    (x.2 = none → raceCheck b off w u t s =
      (s.updBed b fun y => { y with stamps := SMap.set Stamp.cold (off / 64) x.1 y.stamps }, .pass)) ∧
    (∀ o, x.2 = some o → raceCheck b off w u t s = (s, .race o)) := by
  unfold raceCheck
  dsimp only
  rw [hclean, SMap.get_nil]
  simp only [Nat.zero_ne_one, if_false]
  constructor
  · intro h
    rw [h]
  · intro o h
    rw [h]

/-- An access that the check passes or does not cover is served once its stamp stands (R52, R290). -/
theorem bedAccess_passed {b off : Nat} {r : MemReq} {s : State} (hclean : (s.bed b).stampErr = [])
    (hpass : r.chk = false ∨ r.ro = true ∨
      (stampStep r.write r.unit r.turn16 (SMap.get Stamp.cold (off / 64) (s.bed b).stamps)).2 = none) (env : Env) :
    ∃ z, bedAccess b off r env s = bedServe b off r env z ∧ OnlyBed b s z ∧
      z.bed b = { s.bed b with stamps := (z.bed b).stamps } ∧
      (r.chk = true → r.ro = false → SMap.get Stamp.cold (off / 64) (z.bed b).stamps =
        (stampStep r.write r.unit r.turn16 (SMap.get Stamp.cold (off / 64) (s.bed b).stamps)).1) := by
  unfold bedAccess
  by_cases hchk : (r.chk && !r.ro) = true
  · have checked : r.chk = true ∧ r.ro = false := by simpa using hchk
    have none : (stampStep r.write r.unit r.turn16 (SMap.get Stamp.cold (off / 64) (s.bed b).stamps)).2 = none := by
      simpa [checked] using hpass
    rw [if_pos hchk, (raceCheck_clean hclean r.write r.unit r.turn16).1 none]
    exact ⟨_, rfl, onlyBed_updBed .., by simp, fun _ _ => by simp⟩
  · rw [if_neg hchk]
    exact ⟨s, rfl, OnlyBed.refl b s, rfl, fun h k => absurd (by simp [h, k]) hchk⟩

/-- The oldest request of a bed store leaves it and meets the check. -/
theorem exec_bedStoreAccess_cons {b : BedId} {off : Nat} {r : MemReq} {rest : List MemReq} {env : Env} {s₀ : State}
    (hreqs : ((applyUpsets env.upsets s₀).bed b).reqs = r :: rest) {b' : Nat} (hloc : locate (64 * r.line) = .bed b' off) :
    exec (.bedStoreAccess b env) s₀ = .next (bedAccess b off r env
      ((applyUpsets env.upsets s₀).updBed b fun x => { x with reqs := rest })) := by
  change execBedStoreAccess b env s₀ = _
  unfold execBedStoreAccess
  simp only [hreqs, hloc]

/-- What a mover has in hand depends on cores and dies alone. -/
theorem movesOf_of {s t : State} (hc : t.cores = s.cores) (hd : t.dies = s.dies) (m : MoverRef) (q : Nat) :
    movesOf m q t = movesOf m q s := by
  cases m <;> simp only [movesOf, State.core, State.die, hc, hd]

theorem movesOf_updMoves (m : MoverRef) (q : Nat) (f : List MoveJob → List MoveJob) (s : State) :
    movesOf m q (updMoves m q f s) = f (movesOf m q s) := by
  cases m <;> simp [movesOf, updMoves, updBulk]

theorem movesOf_updMoves_bulk_ne {d : DieId} {q i : Nat} (h : i ≠ q) (f : List MoveJob → List MoveJob) (s : State) :
    movesOf (.bulk d) i (updMoves (.bulk d) q f s) = movesOf (.bulk d) i s := by
  simp [movesOf, updMoves, updBulk, SMap.get_upd_ne _ h]

/-- A move whose pieces are all done goes no further of itself. -/
theorem moveRun_of_total {m : MoverRef} {q : Nat} {s : State} {j : MoveJob} {js : List MoveJob} (hmoves : movesOf m q s = j :: js)
    (hphase : j.phase = .idle) (hend : (⟨j.desc⟩ : MoveDesc).total ≤ j.pos) (hostOk : Bool) (env : Env) (fuel : Nat) :
    moveRun m q hostOk env fuel s = s := by
  cases fuel with
  | zero => rfl
  | succ n =>
    have still : moveStep m q hostOk env s = (s, false) := by
      unfold moveStep
      simp [hmoves, hphase, hend]
    unfold moveRun
    rw [still]

/-- A bulk mover that has no line to move for any partition does nothing. -/
theorem bulkRun_of_none {d : Nat} {s : State} (h : bulkNext d s = none) (fuel : Nat) : bulkRun d fuel s = s := by
  cases fuel with
  | zero => rfl
  | succ n =>
    unfold bulkRun
    rw [h]

theorem bulkNext_eq_none {d : DieId} {s : State} (h : ∀ q, ∀ j ∈ (movesOf (.bulk d) q s).head?, j.wants = false) :
    bulkNext d s = none := by
  unfold bulkNext
  refine List.find?_eq_none.2 fun q _ => ?_
  have same : dieNum d = d := Fin.ext (Nat.mod_eq_of_lt d.isLt)
  rw [same]
  cases hd : (movesOf (.bulk d) q s).head? with
  | none => simp
  | some j => simp [h q j hd]

/-- The acknowledgement of a move's last piece: every byte is done, and the move waits for its completion (R270). -/
theorem moverAck_last {m : MoverRef} {q n : Nat} {s : State} {j : MoveJob} {js : List MoveJob} (hmoves : movesOf m q s = j :: js)
    (hphase : j.phase = .writing n) (hend : (⟨j.desc⟩ : MoveDesc).total ≤ j.pos + n)
    (halone : ∀ d, m = .bulk d → ∀ i, i ≠ q → movesOf m i s = []) :
    moverAck m q s = pieceDone m q n s := by
  have done : movesOf m q (pieceDone m q n s) = { j with pos := j.pos + n, phase := .idle } :: js := by
    rw [pieceDone, updHead, movesOf_updMoves, hmoves]
    rfl
  have ran (fuel : Nat) : moveRun m q false Env.quiet fuel (pieceDone m q n s) = pieceDone m q n s :=
    moveRun_of_total done rfl hend false Env.quiet fuel
  unfold moverAck
  simp only [hmoves, hphase]
  unfold moveOn
  dsimp only
  rw [ran]
  cases m with
  | core c => rfl
  | bulk d =>
    refine bulkRun_of_none (bulkNext_eq_none fun i x hx => ?_) _
    by_cases hi : i = q
    · subst hi
      rw [done] at hx
      cases hx
      simpa [MoveJob.wants] using fun _ _ => hend
    · rw [pieceDone, updHead, movesOf_updMoves_bulk_ne hi, halone d rfl i hi] at hx
      cases hx

end Sys2Proof.Machine
end

section
/-! The oldest request of a bed store (O35). -/

namespace Sys2Proof.Machine

theorem State.StopOnly.beds_eq {s t : State} (h : s.StopOnly t) : t.beds = s.beds := (congrArg State.beds h.rest :)

/-- A write that the check lets through, before it is acknowledged: the bytes of its mask stand, and only its bed die has changed
(R285, R290). -/
theorem bedAccess_write {b off : Nat} {r : MemReq} {s : State} (herr : (s.bed b).err = []) (hclean : (s.bed b).stampErr = [])
    (hpass : r.chk = false ∨ r.ro = true ∨
      (stampStep r.write r.unit r.turn16 (SMap.get Stamp.cold (off / 64) (s.bed b).stamps)).2 = none)
    (hwrite : r.write = true) (hpoison : r.poison = 0) (hlen : r.bytes.length = 64) (env : Env) :
    ∃ z, bedAccess b off r env s = answerWrite r z ∧ OnlyBed b s z ∧ (z.bed b).reqs = (s.bed b).reqs ∧ BedWritten b off r s z ∧
      (r.chk = true → r.ro = false → SMap.get Stamp.cold (off / 64) (z.bed b).stamps =
        (stampStep r.write r.unit r.turn16 (SMap.get Stamp.cold (off / 64) (s.bed b).stamps)).1) := by
  obtain ⟨y, hy, honly, hbed, hstamp⟩ := bedAccess_passed hclean hpass env
  have herr' : (y.bed b).err = [] := by rw [hbed]; exact herr
  have store : (y.bed b).store = (s.bed b).store := by rw [hbed]
  have written := bedWritten_bedWrite (b := b) (off := off) herr' hlen
  refine ⟨bedWrite b off r.bytes r.mask 0 y, ?_, ?_, ?_, ?_, ?_⟩
  · rw [hy, bedServe, if_pos hwrite, hpoison]
  · rw [bedWrite_clean herr']
    exact honly.trans (onlyBed_updBed ..)
  · rw [bedWrite_clean herr', State.bed_updBed, hbed]
  · unfold BedWritten at written ⊢
    rwa [store] at written
  · rwa [bedWrite_clean herr', State.bed_updBed]

/-- A read of a far-cache miss that the check lets through (R279, R285). -/
theorem bedAccess_read_miss {b off c i : Nat} {r : MemReq} {s : State} (herr : (s.bed b).err = [])
    (hclean : (s.bed b).stampErr = [])
    (hpass : r.chk = false ∨ r.ro = true ∨
      (stampStep r.write r.unit r.turn16 (SMap.get Stamp.cold (off / 64) (s.bed b).stamps)).2 = none)
    (hread : r.write = false) (hwho : r.who = .miss c i) (hbusy : (SMap.get Mshr.free i (s.core c).far.mshr).busy = true)
    (hline : (SMap.get Mshr.free i (s.core c).far.mshr).line = r.line) (env : Env) :
    ((bedAccess b off r env s).bed b).reqs = (s.bed b).reqs ∧ ((bedAccess b off r env s).bed b).store = (s.bed b).store ∧
      (SMap.get Mshr.free i ((bedAccess b off r env s).core c).far.mshr).got = some ⟨(s.bed b).store.read off 64, 0⟩ := by
  obtain ⟨y, hy, honly, hbed, -⟩ := bedAccess_passed hclean hpass env
  have herr' : (y.bed b).err = [] := by rw [hbed]; exact herr
  have core : y.core c = s.core c := State.core_of honly.cores_eq c
  have served : bedServe b off r env y = answerRead r ⟨(y.bed b).store.read off 64, 0⟩ env
      (y.updBed b fun x => { x with err := rawErrs x.err (off / 8) (List.replicate 8 0) }) := by
    rw [bedServe, bedRead_clean herr', hread]
    rfl
  have answered (l : Line) (z : State) : answerRead r l env z = z.updCore c fun x => { x with far := { x.far with
      mshr := SMap.upd Mshr.free i (fun m => if m.busy && m.line == r.line then { m with got := some l } else m) x.far.mshr } } := by
    unfold answerRead
    rw [hwho]
  have reqs : (y.bed b).reqs = (s.bed b).reqs := (congrArg Bed.reqs hbed :)
  have store : (y.bed b).store = (s.bed b).store := (congrArg Bed.store hbed :)
  rw [hy, served, answered]
  simp [core, reqs, store, hbusy, hline]

/-- A request that the check refuses stores nothing and leaves its stamp; its RUNNING partition stops (R53, R290). -/
theorem bedAccess_race {b off o : Nat} {r : MemReq} {s : State} (hclean : (s.bed b).stampErr = [])
    (hchk : r.chk = true) (hro : r.ro = false)
    (hrace : (stampStep r.write r.unit r.turn16 (SMap.get Stamp.cold (off / 64) (s.bed b).stamps)).2 = some o)
    (hrun : (s.part r.part).st = .running) (hrep : (s.part r.part).replay = none) (env : Env) :
    let t := bedAccess b off r env s
    t.beds = s.beds ∧ (t.part r.part).st = .faulted ∧ (t.part r.part).stopStat = 0x02 ∧ (t.part r.part).incomplete = true := by
  have refused : bedAccess b off r env s = raceStop r.part b off r.unit (.race o) (answerNever r s) := by
    rw [bedAccess, if_pos (by simp [hchk, hro]), (raceCheck_clean hclean r.write r.unit r.turn16).2 o hrace]
  have frame : { answerNever r s with cores := s.cores } = s := by
    unfold answerNever
    split <;> rfl
  have parts : (answerNever r s).parts = s.parts := (congrArg State.parts frame :)
  have beds : (answerNever r s).beds = s.beds := (congrArg State.beds frame :)
  have part : (answerNever r s).part r.part = s.part r.part := State.part_of parts r.part
  dsimp only
  rw [refused, raceStop, faultPart]
  generalize hz : logEvent _ (answerNever r s) = z
  have zpart : z.part r.part = s.part r.part := by rw [← hz, logEvent_part, part]
  have zbeds : z.beds = s.beds := by rw [← hz]; exact beds
  obtain ⟨hst, hstat, hinc, -⟩ := stopWithin_part r.part .faulted stBadCommand 0 z (by rw [zpart, hrun]) (by simp [zpart, hrep])
  exact ⟨(stopWithin_stopOnly _ _ _ _ _ (State.StopOnly.refl z)).beds_eq.trans zbeds, hst, hstat, hinc⟩

/-- Settles O35: a write or a read is served from the store, and a request that races stops its partition. -/
theorem bedStoreAccess : Obligations.BedStoreAccess := by
  intro b off r rest env s₀ s st hreqs hloc herr hclean
  have taken := exec_bedStoreAccess_cons (env := env) hreqs hloc
  have only := onlyBed_updBed b (fun x => { x with reqs := rest }) s
  change exec (.bedStoreAccess b env) s₀ = .next (bedAccess b off r env (s.updBed b fun x => { x with reqs := rest })) at taken
  generalize hz : (s.updBed b fun x => { x with reqs := rest }) = z at taken only
  have bed : z.bed b = { s.bed b with reqs := rest } := by rw [← hz]; simp
  have zerr : (z.bed b).err = [] := by rw [bed]; exact herr
  have zclean : (z.bed b).stampErr = [] := by rw [bed]; exact hclean
  have stamps : (z.bed b).stamps = (s.bed b).stamps := by rw [bed]
  have store : (z.bed b).store = (s.bed b).store := by rw [bed]
  have zst : SMap.get Stamp.cold (off / 64) (z.bed b).stamps = st := by rw [stamps]
  refine ⟨fun hpass hwrite hpoison hlen => ?write, fun c i hpass hread hwho hbusy hline => ?read,
    fun o hchk hro hrace hrun hrep => ?race⟩
  case write =>
    obtain ⟨y, hy, honly, hrq, hwritten, hstamp⟩ := bedAccess_write zerr zclean (zst ▸ hpass) hwrite hpoison hlen env
    rw [bed] at hrq
    rw [zst] at hstamp
    have written : BedWritten b off r s y := by unfold BedWritten at hwritten ⊢; rwa [store] at hwritten
    have changed := only.trans honly
    refine ⟨fun hmover hbulk => ⟨_, taken, ?_⟩, fun m j js n hm hmoves hphase hend halone => ⟨_, taken, ?_⟩⟩
    · have silent : answerWrite r y = y := by
        unfold answerWrite
        split
        · exact absurd ‹_› (hmover _)
        · exact absurd ‹_› (hbulk _)
        · rfl
      rw [hy, silent]
      exact ⟨hrq, written, hstamp, changed⟩
    · have acked : answerWrite r y = moverAck m r.part y := by
        unfold answerWrite
        rcases hm with ⟨c, hwho, rfl⟩ | ⟨d, hwho, rfl⟩ <;> rw [hwho]
      have same (i : Nat) : movesOf m i y = movesOf m i s := movesOf_of changed.cores_eq changed.dies_eq m i
      have hmoves' := (same r.part).trans hmoves
      have beds : (pieceDone m r.part n y).beds = y.beds := by cases m <;> rfl
      have atBed (i : Nat) : (pieceDone m r.part n y).bed i = y.bed i := State.bed_of beds i
      rw [hy, acked, moverAck_last hmoves' hphase hend fun d hd i hi => (same i).trans (halone d hd i hi)]
      refine ⟨by rw [atBed, hrq], ?_, ?_, fun i hi => by rw [atBed, changed.1 i hi], ?_⟩
      · unfold BedWritten at written ⊢
        simpa only [atBed] using written
      · rw [pieceDone, updHead, movesOf_updMoves, hmoves']
        rfl
      · have rest : { y with beds := s.beds, cores := s.cores, dies := s.dies } = s := by
          rw [← changed.cores_eq, ← changed.dies_eq]
          exact changed.2
        cases m <;> exact rest
  case read =>
    have core : z.core c = s.core c := State.core_of only.cores_eq c
    obtain ⟨hrq, hst, hgot⟩ := bedAccess_read_miss zerr zclean (zst ▸ hpass) hread hwho (core ▸ hbusy) (core ▸ hline) env
    exact ⟨_, taken, by rw [hrq, bed], by rw [hst, store], by rw [hgot, store]⟩
  case race =>
    have part : z.part r.part = s.part r.part := State.part_of only.parts_eq r.part
    obtain ⟨hbeds, hst, hstat, hinc⟩ :=
      bedAccess_race zclean hchk hro (by rw [zst]; exact hrace) (part ▸ hrun) (part ▸ hrep) env
    have same := State.bed_of hbeds b
    exact ⟨_, taken, by rw [same, store], by rw [same, stamps], hst, hstat, hinc⟩

end Sys2Proof.Machine
end

section
/-! SUPPORT. Places in a cache (R278, R286): what a line installed is found as. -/

namespace Sys2Proof.Machine

theorem firstFrom_lt {p : Nat → Bool} {i₀ n w : Nat} (h : firstFrom p i₀ n = some w) : w < i₀ + n := by
  induction n generalizing i₀ with
  | zero => cases h
  | succ n ih =>
    unfold firstFrom at h
    split at h
    · cases h
      omega
    · have := ih h
      omega

/-- The way that the replacement bits point to is one of the ways below the node. -/
theorem plruVictim_lt (k node w bits : Nat) : plruVictim k node w bits < (w + 1) * 2 ^ k := by
  induction k generalizing node w with
  | zero => simp [plruVictim]
  | succ k ih =>
    have bit : b2n (bitOf bits node) ≤ 1 := by unfold b2n; split <;> decide
    calc plruVictim (k + 1) node w bits
        < (2 * w + b2n (bitOf bits node) + 1) * 2 ^ k := ih _ _
      _ ≤ (2 * w + 2) * 2 ^ k := Nat.mul_le_mul_right _ (by omega)
      _ = (w + 1) * 2 ^ (k + 1) := by ring

theorem farWay_lt (f : FarCache) (line : Nat) : farWay f line < 8 := by
  unfold farWay
  dsimp only
  split
  · exact firstFrom_lt ‹_›
  · exact plruVictim_lt 3 0 0 _

theorem SMap.mem_insert_self {α : Type} (k : Nat) (v : α) (m : SMap α) : (k, v) ∈ SMap.insert k v m := by
  induction m with
  | nil => exact List.mem_singleton_self _
  | cons x m ih =>
    unfold SMap.insert
    split
    · exact List.mem_cons_self
    · split
      · exact List.mem_cons_self
      · exact List.mem_cons_of_mem _ ih

/-- The entry written is found where no other entry answers to what is sought. -/
theorem SMap.find?_set {α : Type} [DecidableEq α] {d v : α} {k : Nat} {m : SMap α} {p : Nat × α → Bool} (hv : v ≠ d)
    (hp : p (k, v) = true) (hm : ∀ e ∈ m, p e = false) : (SMap.set d k v m).find? p = some (k, v) := by
  unfold SMap.set
  rw [if_neg hv]
  cases hf : (SMap.insert k v m).find? p with
  | none => exact absurd hp (List.find?_eq_none.1 hf _ (SMap.mem_insert_self k v m))
  | some e =>
    rcases SMap.mem_insert (List.mem_of_find?_eq_some hf) with he | he
    · rw [he]
    · exact absurd (List.find?_some hf) (by rw [hm e he]; exact Bool.false_ne_true)

/-- A line just installed in a far cache is found there (R277, R278). -/
theorem farFind_farInstall {l : CacheLine} (hl : l ≠ CacheLine.none) (hperr : l.perr = false) (f : FarCache) :
    farFind (farInstall l f).1 l.line = some (l.line % 128 * 8 + farWay (dropLine l.line f) l.line, l) := by
  have hw := farWay_lt (dropLine l.line f) l.line
  have set : (l.line % 128 * 8 + farWay (dropLine l.line f) l.line) / 8 = l.line % 128 := by omega
  have found : (SMap.set CacheLine.none (l.line % 128 * 8 + farWay (dropLine l.line f) l.line) l (dropLine l.line f).lines).find?
      (fun e => e.1 / 8 == l.line % 128 && e.2.line == l.line) =
        some (l.line % 128 * 8 + farWay (dropLine l.line f) l.line, l) := by
    refine SMap.find?_set hl (by simp [set]) fun e he => ?_
    have other : (e.2.line != l.line) = true := (List.mem_filter.1 he).2
    simp [bne_iff_ne.1 other]
  unfold farFind farInstall
  dsimp only
  rw [found]
  simp [hperr]

/-- A line just installed in a bed cache is found there (R278, R286). -/
theorem bedFind_bedInstall {x : Bed} (hx : x.cacheMiB ≠ 0) (line : Nat) (bytes : List Byte) :
    ∃ k, bedFind (bedInstall line bytes x) line = some (k, ⟨line, bytes, true, false⟩) := by
  unfold bedInstall
  rw [if_neg hx]
  dsimp only
  generalize hw : Option.getD _ _ = w
  have way : w < 16 := by
    rw [← hw]
    cases hf : firstFrom _ 0 16 with
    | none => exact plruVictim_lt 4 0 0 _
    | some i => exact firstFrom_lt hf
  refine ⟨bedSet x line * 16 + w, ?_⟩
  unfold bedFind
  rw [if_neg hx]
  refine SMap.find?_set (fun h => Bool.noConfusion (congrArg CacheLine.ro h : true = false)) ?_ fun e he => ?_
  · have set : (bedSet x line * 16 + w) / 16 = bedSet x line := by omega
    simp only [bedSet] at set ⊢
    simp [set]
  · have other : (e.2.line != line) = true := (List.mem_filter.1 he).2
    simp [bne_iff_ne.1 other]

theorem bedInstall_fillQ (line : Nat) (bytes : List Byte) (x : Bed) : (bedInstall line bytes x).fillQ = x.fillQ := by
  unfold bedInstall
  split <;> rfl

theorem bedInstall_store (line : Nat) (bytes : List Byte) (x : Bed) : (bedInstall line bytes x).store = x.store := by
  unfold bedInstall
  split <;> rfl

/-- A victim offered to a bed cache leaves the cores. -/
theorem offerVictim_cores (v : CacheLine) (s : State) : (offerVictim v s).cores = s.cores := by
  unfold offerVictim offerFill
  split
  · split <;> rfl
  · rfl

end Sys2Proof.Machine
end

section
/-! The sweep's visit, a bed cache's fill, and a line that has come back to a core (O37). -/

namespace Sys2Proof.Machine

/-- SWEEP_VISIT of a quota line (R291). -/
theorem exec_sweepVisit {b : BedId} {line q : Nat} {s : State} (h : nextQuota (quotaLines b s) (s.bed b).sweep = some (line, q)) :
    exec (.sweepVisit b) s = .next (sweepLine b line q s) := by
  change execSweepVisit b s = _
  unfold execSweepVisit
  rw [h]

/-- A visit of a line whose stamp holds no error ages the stamp (R54). -/
theorem sweepLine_clean {b line : Nat} {s : State} (h : SMap.get 0 line (s.bed b).stampErr = 0) (q : Nat) :
    sweepLine b line q s = s.updBed b fun x => { x with
      sweep := line + 1
      sweepLeft := SMap.upd 0 q (fun n => n - 1) x.sweepLeft
      stamps := SMap.upd Stamp.cold line (ageStamp ((s.part q).turn % 65536)) x.stamps } := by
  unfold sweepLine
  simp [h]

/-- An uncorrectable stamp that the sweep meets stops the line's RUNNING partition and leaves the bed dies (R288, R290). -/
theorem sweepUe_stops {b line q : Nat} {s : State} (hrun : (s.part q).st = .running) (hrep : (s.part q).replay = none) :
    (sweepUe b line q s).beds = s.beds ∧ ((sweepUe b line q s).part q).st = .faulted ∧
      ((sweepUe b line q s).part q).stopStat = 0x02 := by
  unfold sweepUe
  rw [if_pos hrun]
  dsimp only
  generalize hz : chatterUe _ _ (logEvent _ s) = z
  have acc : s.Accounted z := hz ▸ ((State.Accounted.refl s).logEvent _).chatterUe ..
  have part : z.part q = s.part q := State.part_of acc.parts_eq q
  obtain ⟨hst, hstat, -⟩ := stopWithin_part q .faulted stBadCommand 0 z (part ▸ hrun) (by simp [part, hrep])
  exact ⟨(stopWithin_stopOnly _ _ _ _ _ (State.StopOnly.refl z)).beds_eq.trans acc.beds_eq, hst, hstat⟩

/-- A visit of a line whose stamp is uncorrectable leaves the stamps (R288). -/
theorem sweepLine_bad {b line : Nat} {s : State} (h : SMap.get 0 line (s.bed b).stampErr = 2) (q : Nat) :
    sweepLine b line q s = (sweepUe b line q s).updBed b fun x => { x with
      sweep := line + 1, sweepLeft := SMap.upd 0 q (fun n => n - 1) x.sweepLeft } := by
  unfold sweepLine
  simp [h]

/-- BED_CACHE_FILL of the oldest fill (R286). -/
theorem exec_bedCacheFill {b : BedId} {r : MemReq} {rest : List MemReq} {s : State} (h : (s.bed b).fillQ = r :: rest) :
    ∃ f, exec (.bedCacheFill b) s = .next (s.updBed b f) ∧
      f (s.bed b) = bedInstall r.line r.bytes { s.bed b with fillQ := rest } := by
  refine ⟨_, rfl, ?_⟩
  dsimp only
  rw [h]

/-- The line that a miss register gives, with what the core has stored to it since (R280). -/
def Mshr.given (m : Mshr) (l : Line) : Line :=
  { l with bytes := if m.mask = 0 then l.bytes else maskBytes m.mask l.bytes (padTo 64 m.own) }

/-- FAR_CACHE_FILL of a line that a store has sent back (R279). -/
theorem exec_farCacheFill {c : CoreId} {g : Fin 8} {q : Nat} {l : Line} {s : State} (hruns : s.coreRuns c = some q)
    (hbusy : (SMap.get Mshr.free g (s.core c).far.mshr).busy = true)
    (hgot : (SMap.get Mshr.free g (s.core c).far.mshr).got = some l) (host : List (Nat × HostReply)) :
    exec (.farCacheFill c g ⟨[], host⟩) s = .next (fillFar c g (SMap.get Mshr.free g (s.core c).far.mshr) l s) := by
  change execFarCacheFill c g ⟨[], host⟩ s = _
  unfold execFarCacheFill
  simp only [applyUpsets, List.foldl_nil, hruns, hbusy, hgot]

/-- The far cache once a line has come for a miss register, before the line is installed. -/
def FarCache.freed (i line : Nat) (l : Line) (f : FarCache) : FarCache :=
  { f with mshr := SMap.set Mshr.free i Mshr.free f.mshr, bundle := f.bundle ++ [(line, l)] }

theorem FarCache.get_mshr_freed (i line : Nat) (l : Line) (f : FarCache) :
    SMap.get Mshr.free i (f.freed i line l).mshr = Mshr.free := by
  unfold FarCache.freed
  exact SMap.get_set Mshr.free i Mshr.free f.mshr

/-- A line that is bad, or that a move has written since, is not installed (R271, R282). -/
theorem fillFar_kept {c i : Nat} {m : Mshr} {l : Line} {s : State} (h : l.bad ≠ 0 ∨ m.stale = true) :
    fillFar c i m l s = s.updCore c fun x => { x with far := x.far.freed i m.line (m.given l) } := by
  unfold fillFar
  exact if_pos h

/-- Another line is installed, with its read-only mark (R278, R279). -/
theorem fillFar_installed {c i : Nat} {m : Mshr} {l : Line} {s : State} (h : ¬(l.bad ≠ 0 ∨ m.stale = true)) :
    (fillFar c i m l s).core c = { s.core c with far :=
      (farInstall ⟨m.line, (m.given l).bytes, m.ro, false⟩ ((s.core c).far.freed i m.line (m.given l))).1 } ∧
      ∀ k, k ≠ c → (fillFar c i m l s).core k = s.core k := by
  unfold fillFar
  dsimp only
  rw [if_neg h]
  refine ⟨?_, fun k hk => ?_⟩ <;> rw [State.core_of (offerVictim_cores ..)]
  · rw [State.core_updCore, State.core_updCore]
    rfl
  · rw [State.core_updCore_ne _ hk, State.core_updCore_ne _ hk]

/-- Settles O37: the four commands change one bed die, one core's far cache, or, for an uncorrectable stamp, stop the partition. -/
theorem linesAndStamps : Obligations.LinesAndStamps := by
  intro s
  refine ⟨fun b line q hnext herr => ?sweep, fun b line q hnext herr hrun hrep => ?sweepBad,
    fun b r rest hq hcache => ?bedFill, ?farFill⟩
  case sweep =>
    have only := onlyBed_updBed b (fun x => { x with
      sweep := line + 1
      sweepLeft := SMap.upd 0 q (fun n => n - 1) x.sweepLeft
      stamps := SMap.upd Stamp.cold line (ageStamp ((s.part q).turn % 65536)) x.stamps }) s
    refine ⟨_, (exec_sweepVisit hnext).trans (congrArg _ (sweepLine_clean herr q)), ?_⟩
    simp only [State.bed_updBed, SMap.get_upd, true_and]
    exact ⟨fun i hi => SMap.get_upd_ne _ hi _ _, only⟩
  case sweepBad =>
    obtain ⟨hbeds, hst, hstat⟩ := sweepUe_stops (b := b) (line := line) hrun hrep
    have bed := State.bed_of hbeds b
    refine ⟨_, (exec_sweepVisit hnext).trans (congrArg _ (sweepLine_bad herr q)), hst, hstat, ?_⟩
    rw [State.bed_updBed, bed]
    exact ⟨rfl, rfl, rfl⟩
  case bedFill =>
    obtain ⟨f, hexec, hf⟩ := exec_bedCacheFill hq
    refine ⟨_, hexec, ?_⟩
    rw [State.bed_updBed, hf, bedInstall_fillQ, bedInstall_store]
    refine ⟨rfl, bedFind_bedInstall ?_ r.line r.bytes, rfl, onlyBed_updBed ..⟩
    exact hcache
  case farFill =>
    intro c g q l h hruns hbusy hgot m bytes hbytes
    refine ⟨_, exec_farCacheFill hruns hbusy hgot h, ?_⟩
    by_cases hkeep : l.bad ≠ 0 ∨ m.stale = true
    · rw [fillFar_kept hkeep, State.core_updCore]
      refine ⟨FarCache.get_mshr_freed .., List.mem_append_right _ (List.mem_singleton_self _), fun hbad hstale => ?_, fun _ => rfl,
        rfl, fun i hi => State.core_updCore_ne s hi _⟩
      rcases hkeep with hk | hk
      · exact absurd hbad hk
      · rw [hstale] at hk
        cases hk
    · obtain ⟨core, others⟩ := fillFar_installed (c := c) (i := g) (s := s) hkeep
      have line : (⟨m.line, bytes, m.ro, false⟩ : CacheLine) ≠ CacheLine.none := fun e => hbytes (congrArg CacheLine.bytes e)
      have found := farFind_farInstall line rfl ((s.core c).far.freed g m.line (m.given l))
      rw [core]
      exact ⟨FarCache.get_mshr_freed g m.line (m.given l) _, List.mem_append_right _ (List.mem_singleton_self _),
        fun _ _ => ⟨_, _, found, rfl, rfl⟩, fun h => absurd h hkeep, rfl, others⟩

end Sys2Proof.Machine
end

section
/-! SUPPORT. Turn units (R30, R31): a unit read after a change of it or of another, and which operations leave every unit as it is:
reads of a core store (R77), entries to a vector (R138), immediate exceptions (R131), and stops of a partition (R338). -/

namespace Sys2Proof.Machine

@[simp] theorem unitTu_updTu (q : Nat) (u : UnitRef) (f : TurnUnit → TurnUnit) (s : State) :
    unitTu q u (updTu q u f s) = f (unitTu q u s) := by
  cases u <;> simp [unitTu, updTu, updBulk, updReg]

theorem coreId_val_ne {c d : CoreId} (h : c ≠ d) : c.val ≠ d.val := Fin.val_ne_of_ne h

/-- A change of a unit leaves every other unit of the partition. -/
theorem unitTu_updTu_ne {q : Nat} {u v : UnitRef} (h : v ≠ u) (f : TurnUnit → TurnUnit) (s : State) :
    unitTu q v (updTu q u f s) = unitTu q v s := by
  have ofCore (c d : CoreId) (g : Core → Core) (p : Core → TurnUnit) (hp : c = d → p (g (s.core c)) = p (s.core c)) :
      p ((s.updCore d g).core c) = p (s.core c) := by
    by_cases e : c = d
    · rw [← e, State.core_updCore, hp e]
    · rw [State.core_updCore_ne s (Fin.val_ne_of_ne e)]
  cases u with
  | core d =>
    cases v with
    | core c => exact ofCore c d _ Core.tu fun e => absurd (congrArg UnitRef.core e) h
    | mover c => exact ofCore c d _ Core.mtu fun _ => rfl
    | drain c => exact ofCore c d _ Core.dtu fun _ => rfl
    | _ => rfl
  | mover d =>
    cases v with
    | core c => exact ofCore c d _ Core.tu fun _ => rfl
    | mover c => exact ofCore c d _ Core.mtu fun e => absurd (congrArg UnitRef.mover e) h
    | drain c => exact ofCore c d _ Core.dtu fun _ => rfl
    | _ => rfl
  | drain d =>
    cases v with
    | core c => exact ofCore c d _ Core.tu fun _ => rfl
    | mover c => exact ofCore c d _ Core.mtu fun _ => rfl
    | drain c => exact ofCore c d _ Core.dtu fun e => absurd (congrArg UnitRef.drain e) h
    | _ => rfl
  | bulk d =>
    cases v with
    | bulk e =>
      have other : e.val ≠ d.val := Fin.val_ne_of_ne fun k => h (congrArg UnitRef.bulk k)
      simp [unitTu, updTu, updBulk, State.die_updDie_ne s other]
    | _ => rfl
  | reg d =>
    cases v with
    | reg e =>
      have other : e.val ≠ d.val := Fin.val_ne_of_ne fun k => h (congrArg UnitRef.reg k)
      simp [unitTu, updTu, updReg, State.stack_updStack_ne s other]
    | _ => rfl
  | recorder =>
    cases v with
    | recorder => exact absurd rfl h
    | _ => rfl

/-- A unit changed leaves everything but the cores, the dies, the stacks and the partitions. -/
theorem updTu_frame (q : Nat) (u : UnitRef) (f : TurnUnit → TurnUnit) (s : State) :
    { updTu q u f s with cores := s.cores, dies := s.dies, hbms := s.hbms, parts := s.parts } = s := by cases u <;> rfl

theorem updTu_part_ne {q i : Nat} (h : i ≠ q) (u : UnitRef) (f : TurnUnit → TurnUnit) (s : State) :
    (updTu q u f s).part i = s.part i := by
  cases u with
  | recorder => exact State.part_updPart_ne s h _
  | _ => rfl

/-- Of its partition a unit changed leaves all but the recorder's unit. -/
theorem updTu_part (q : Nat) (u : UnitRef) (f : TurnUnit → TurnUnit) (s : State) :
    ∃ g, (updTu q u f s).part q = { s.part q with recd := { (s.part q).recd with tu := g } } := by
  cases u with
  | recorder => exact ⟨_, State.part_updPart s q _⟩
  | _ => exact ⟨_, rfl⟩

/-- Core y has the turn units of core x, and what else its units' bounds depend on (R350): its logical core and spare row. -/
structure Core.Kept (x y : Core) : Prop where
  tu : y.tu = x.tu
  mtu : y.mtu = x.mtu
  dtu : y.dtu = x.dtu
  lcore : y.lcore = x.lcore
  spareRow : y.spareRow = x.spareRow

theorem Core.Kept.refl (x : Core) : x.Kept x := ⟨rfl, rfl, rfl, rfl, rfl⟩

theorem Core.Kept.trans {x y z : Core} (h : x.Kept y) (k : y.Kept z) : x.Kept z :=
  ⟨k.tu.trans h.tu, k.mtu.trans h.mtu, k.dtu.trans h.dtu, k.lcore.trans h.lcore, k.spareRow.trans h.spareRow⟩

/-- Every unit of the module is as it was. -/
structure State.UnitsKept (s t : State) : Prop where
  core : ∀ c, (s.core c).Kept (t.core c)
  bulk : ∀ d q, (t.bulkOf d q).tu = (s.bulkOf d q).tu
  reg : ∀ k q, (SMap.get Regulator.reset q (t.stack k).regs).tu = (SMap.get Regulator.reset q (s.stack k).regs).tu
  recd : ∀ q, (t.part q).recd.tu = (s.part q).recd.tu

namespace State.UnitsKept

variable {s t u : State}

theorem refl (s : State) : s.UnitsKept s := ⟨fun _ => .refl _, fun _ _ => rfl, fun _ _ => rfl, fun _ => rfl⟩

theorem trans (h : s.UnitsKept t) (k : t.UnitsKept u) : s.UnitsKept u :=
  ⟨fun c => (h.core c).trans (k.core c), fun d q => (k.bulk d q).trans (h.bulk d q),
    fun i q => (k.reg i q).trans (h.reg i q), fun q => (k.recd q).trans (h.recd q)⟩

theorem unitTu_eq (h : s.UnitsKept t) (q : Nat) (v : UnitRef) : unitTu q v t = unitTu q v s := by
  cases v with
  | core c => exact (h.core c).tu
  | mover c => exact (h.core c).mtu
  | drain c => exact (h.core c).dtu
  | bulk d => exact h.bulk d q
  | reg k => exact h.reg k q
  | recorder => exact h.recd q

/-- Cores, dies, regulators and recorders that stay keep the units. -/
theorem of_eq (hcores : t.cores = s.cores) (hdies : t.dies = s.dies) (hregs : ∀ k, (t.stack k).regs = (s.stack k).regs)
    (hparts : t.parts = s.parts) : s.UnitsKept t :=
  ⟨fun c => by rw [State.core_of hcores]; exact .refl _, fun d q => by unfold State.bulkOf; rw [State.die_of hdies],
    fun k q => by rw [hregs], fun q => by rw [State.part_of hparts]⟩

theorem updCore (h : s.UnitsKept t) (c : Nat) (f : Core → Core) (hf : ∀ x : Core, x.Kept (f x) := by intro; exact ⟨rfl, rfl, rfl, rfl, rfl⟩) :
    s.UnitsKept (t.updCore c f) := by
  refine ⟨fun i => ?_, h.bulk, h.reg, h.recd⟩
  by_cases e : i = c
  · rw [e, State.core_updCore]
    exact (h.core c).trans (hf _)
  · rw [State.core_updCore_ne t e]
    exact h.core i

theorem updPart (h : s.UnitsKept t) (q : Nat) (f : Part → Part) (hf : ∀ x, (f x).recd.tu = x.recd.tu := by intro; rfl) :
    s.UnitsKept (t.updPart q f) := by
  refine ⟨h.core, h.bulk, h.reg, fun i => ?_⟩
  by_cases e : i = q
  · rw [e, State.part_updPart, hf, h.recd]
  · rw [State.part_updPart_ne t e, h.recd]

theorem updBulk (h : s.UnitsKept t) (d q : Nat) (f : Bulk → Bulk) (hf : ∀ x, (f x).tu = x.tu := by intro; rfl) :
    s.UnitsKept (updBulk d q f t) := by
  refine ⟨h.core, fun i r => ?_, h.reg, h.recd⟩
  rw [← h.bulk i r]
  unfold State.bulkOf Machine.updBulk
  by_cases e : i = d
  · subst e
    rw [State.die_updDie]
    by_cases k : r = q
    · rw [k, SMap.get_upd, hf]
    · rw [SMap.get_upd_ne _ k]
  · rw [State.die_updDie_ne t e]

theorem updReg (h : s.UnitsKept t) (d q : Nat) (f : Regulator → Regulator) (hf : ∀ x, (f x).tu = x.tu := by intro; rfl) :
    s.UnitsKept (updReg d q f t) := by
  refine ⟨h.core, h.bulk, fun i r => ?_, h.recd⟩
  rw [← h.reg i r]
  unfold Machine.updReg
  by_cases e : i = d
  · subst e
    rw [State.stack_updStack]
    by_cases k : r = q
    · rw [k, SMap.get_upd, hf]
    · rw [SMap.get_upd_ne _ k]
  · rw [State.stack_updStack_ne t e]

theorem logEvent (h : s.UnitsKept t) (e : LogEntry) : s.UnitsKept (logEvent e t) := ⟨h.core, h.bulk, h.reg, h.recd⟩

theorem drew (h : s.UnitsKept t) : s.UnitsKept t.drew := ⟨h.core, h.bulk, h.reg, h.recd⟩

theorem updPort (h : s.UnitsKept t) (p : PortId) (f : Port → Port) : s.UnitsKept (t.updPort p f) := by
  cases p <;> exact ⟨h.core, h.bulk, h.reg, h.recd⟩

theorem notifyPart (h : s.UnitsKept t) (k q : Nat) : s.UnitsKept (notifyPart k q t) := by
  unfold Machine.notifyPart Machine.notify
  exact h.updPort ..

theorem foldl {α : Type} {g : State → α → State} (h : s.UnitsKept t) (hg : ∀ z a, s.UnitsKept z → s.UnitsKept (g z a)) (l : List α) :
    s.UnitsKept (l.foldl g t) := by
  induction l generalizing t with
  | nil => exact h
  | cons a l ih => exact ih (hg t a h)

end State.UnitsKept

theorem State.Accounted.unitsKept {s t : State} (h : s.Accounted t) : s.UnitsKept t :=
  .of_eq h.cores_eq h.dies_eq h.regs h.parts_eq

/-! The accounting, an exception's entry, and a stop, each with what it does to a core. -/

/-- Of the module nothing changes but core c, which keeps its units, and what the accounting of errors changes. -/
structure CoreChanged (c : Nat) (s t : State) : Prop where
  others : ∀ i, i ≠ c → t.core i = s.core i
  core : (s.core c).Kept (t.core c)
  rest : s.Accounted { t with cores := s.cores }

namespace CoreChanged

variable {c : Nat} {s t u : State}

theorem refl (c : Nat) (s : State) : CoreChanged c s s := ⟨fun _ _ => rfl, .refl _, .refl s⟩

theorem trans (h : CoreChanged c s t) (k : CoreChanged c t u) : CoreChanged c s u := by
  refine ⟨fun i hi => (k.others i hi).trans (h.others i hi), h.core.trans k.core, h.rest.trans ?_⟩
  exact ⟨(congrArg (fun z : State => { z with cores := s.cores }) k.rest.rest :), k.rest.regs, k.rest.hs, k.rest.port⟩

theorem of_accounted (h : s.Accounted t) : CoreChanged c s t := by
  refine ⟨fun i _ => State.core_of h.cores_eq i, by rw [State.core_of h.cores_eq]; exact .refl _, ?_⟩
  exact ⟨(congrArg (fun z : State => { z with cores := s.cores }) h.rest :), h.regs, h.hs, h.port⟩

theorem of_updCore (c : Nat) (f : Core → Core) (s : State) (hf : (s.core c).Kept (f (s.core c)) := by exact ⟨rfl, rfl, rfl, rfl, rfl⟩) :
    CoreChanged c s (s.updCore c f) :=
  ⟨fun _ hi => State.core_updCore_ne s hi f, by rw [State.core_updCore]; exact hf, .refl s⟩

theorem unitsKept (h : CoreChanged c s t) : s.UnitsKept t := by
  refine ⟨fun i => ?_, h.rest.unitsKept.bulk, h.rest.unitsKept.reg, h.rest.unitsKept.recd⟩
  by_cases e : i = c
  · rw [e]
    exact h.core
  · rw [h.others i e]
    exact .refl _

theorem parts_eq (h : CoreChanged c s t) : t.parts = s.parts := (congrArg State.parts h.rest.rest :)

end CoreChanged

theorem storeUeEntry_accounted (c w src : Nat) (how : CwHow) (s : State) : s.Accounted (storeUeEntry c w src how s) := by
  unfold storeUeEntry
  split
  · exact .refl s
  · exact (State.Accounted.refl s).logEvent _

/-- What the read of a word does: nothing, an error found and poisoned, or an error corrected (R77). -/
theorem touch_cases (c w : Nat) (how : CwHow) (s : State) :
    touch c w how s = s ∨
    (∃ r a v src, touch c w how s = chatterUe r a (storeUeEntry c w src how (s.updCore c (putWord w v)))) ∨
    ∃ r a, touch c w how s = chatter r a (s.updCore c fun x => { x with storeErr := SMap.set CwErr.none w CwErr.none x.storeErr }) := by
  by_cases clean : SMap.get CwErr.none w (s.core c).storeErr = CwErr.none
  · exact .inl (if_pos clean)
  · by_cases bad : (SMap.get CwErr.none w (s.core c).storeErr).bad = true
    · exact .inr (.inl ⟨_, _, _, _, (if_neg clean).trans (if_pos bad)⟩)
    · exact .inr (.inr ⟨_, _, (if_neg clean).trans (if_neg bad)⟩)

theorem touch_changed (c w : Nat) (how : CwHow) (s : State) : CoreChanged c s (touch c w how s) := by
  obtain h | ⟨r, a, v, src, h⟩ | ⟨r, a, h⟩ := touch_cases c w how s <;> rw [h]
  · exact .refl c s
  · exact (CoreChanged.of_updCore c (putWord w v) s).trans (.of_accounted ((storeUeEntry_accounted c w src how _).chatterUe r a))
  · exact (CoreChanged.of_updCore c (fun x => { x with storeErr := SMap.set CwErr.none w CwErr.none x.storeErr }) s).trans (.of_accounted ((State.Accounted.refl _).chatter r a))

theorem touchAll_changed (c : Nat) (ws : List Nat) (how : CwHow) (s : State) : CoreChanged c s (touchAll c ws how s) := by
  induction ws generalizing s with
  | nil => exact .refl c s
  | cons w ws ih => exact (touch_changed c w how s).trans (ih _)

theorem touchRun_changed (c w n : Nat) (s : State) : CoreChanged c s (touchRun c w n s) := touchAll_changed ..

/-- Reads of a store that holds no error change nothing (R77). -/
theorem touchAll_clean {c : Nat} {s : State} (h : (s.core c).storeErr = []) (ws : List Nat) (how : CwHow) :
    touchAll c ws how s = s := by
  induction ws with
  | nil => rfl
  | cons w ws ih =>
    have one : touch c w how s = s := by
      unfold touch
      rw [h]
      rfl
    rw [touchAll, List.foldl_cons, one]
    exact ih

theorem touchRun_clean {c : Nat} {s : State} (h : (s.core c).storeErr = []) (w n : Nat) : touchRun c w n s = s :=
  touchAll_clean h ..

theorem putWords_kept (w : Nat) (vs : List TWord) (x : Core) : x.Kept (putWords w vs x) := by
  have fold : ∀ (l : List (TWord × Nat)) (y : Core), x.Kept y →
      x.Kept (l.foldl (fun x e => putWord (w + e.2) e.1 x) y) := by
    intro l
    induction l with
    | nil => exact fun _ h => h
    | cons e l ih => exact fun y h => ih _ ⟨h.tu, h.mtu, h.dtu, h.lcore, h.spareRow⟩
  exact fold _ x (.refl x)

theorem haltCore_kept (cause vec : Nat) (x : Core) : x.Kept (haltCore cause vec x) := by
  have h := putWords_kept (rescueWord + 16) (haltWords cause vec x) x
  unfold haltCore
  generalize putWords _ _ x = y at h ⊢
  exact ⟨h.tu, h.mtu, h.dtu, h.lcore, h.spareRow⟩

theorem enterCore_kept (e : Exc) (x : Core) : x.Kept (enterCore e x) := by
  unfold enterCore
  dsimp only
  split
  · have h := putWords_kept (((entrySp e.vec x).data.toNat - 128) / 8) (frameWords e 0 x) x
    generalize putWords _ _ x = y at h ⊢
    exact ⟨h.tu, h.mtu, h.dtu, h.lcore, h.spareRow⟩
  · have h := putWords_kept rescueWord (frameWords e (entryFail e.vec x) x) { x with delay := none }
    exact (Core.Kept.trans ⟨h.tu, h.mtu, h.dtu, h.lcore, h.spareRow⟩ (haltCore_kept 1 e.vec _))

theorem enter_changed (c : Nat) (e : Exc) (s : State) : CoreChanged c s (enter c e s) :=
  (touchRun_changed c _ 4 s).trans (.of_updCore c _ _ (enterCore_kept e _))

theorem Core.immediate_kept (v : Nat) (x : Core) : x.Kept (x.immediate v) := by
  unfold Core.immediate
  split
  · exact .refl x
  · exact ⟨rfl, rfl, rfl, rfl, rfl⟩

theorem takeImmediate_changed {c : Nat} {s t : State} (h : takeImmediate c s = some t) : CoreChanged c s t := by
  obtain ⟨v, -, rfl⟩ := Option.map_eq_some_iff.1 h
  exact (CoreChanged.of_updCore c (fun x => { x with pend := { x.pend with imm := x.pend.imm.filter (· != v) } }) s).trans
    (enter_changed ..)

theorem raiseImmediate_changed (c v : Nat) (s : State) : CoreChanged c s (raiseImmediate c v s) := by
  have raised := CoreChanged.of_updCore c (Core.immediate v) s (Core.immediate_kept v _)
  unfold raiseImmediate
  dsimp only
  split
  · cases h : takeImmediate c (s.updCore c (Core.immediate v)) with
    | none => exact raised
    | some t => exact raised.trans (takeImmediate_changed h)
  · exact raised


/-- An entry on a core whose store holds no error changes that core alone (R138). -/
theorem enter_clean {c : Nat} {s : State} (h : (s.core c).storeErr = []) (e : Exc) : enter c e s = s.updCore c (enterCore e) := by
  unfold enter
  rw [touchRun_clean h]

theorem immediate_storeErr (v : Nat) (x : Core) : (x.immediate v).storeErr = x.storeErr := by
  unfold Core.immediate
  split <;> rfl

theorem State.updCore_reset (s : State) (c : Nat) (f : Core → Core) (l : SMap Core) :
    { s.updCore c f with cores := l } = { s with cores := l } := rfl

/-- An immediate exception stays pending, or the lowest pending one leaves the list and the core enters its vector (R131). -/
theorem raiseImmediate_cases (c v : Nat) (s : State) :
    raiseImmediate c v s = s.updCore c (Core.immediate v) ∨
    ∃ e w, raiseImmediate c v s = enter c e ((s.updCore c (Core.immediate v)).updCore c fun x =>
      { x with pend := { x.pend with imm := x.pend.imm.filter (· != w) } }) := by
  unfold raiseImmediate takeImmediate
  dsimp only
  generalize s.updCore c (Core.immediate v) = t
  split
  · cases lowest (t.core c).pend.imm with
    | none => exact .inl rfl
    | some w => exact .inr ⟨_, w, rfl⟩
  · exact .inl rfl

/-- Where its core's store holds no error, an immediate exception changes that core alone. -/
theorem raiseImmediate_clean {c : Nat} {s : State} (h : (s.core c).storeErr = []) (v : Nat) :
    { raiseImmediate c v s with cores := s.cores } = s := by
  have clean : ((s.updCore c (Core.immediate v)).core c).storeErr = [] := by
    rw [State.core_updCore, immediate_storeErr, h]
  obtain e | ⟨e, w, h⟩ := raiseImmediate_cases c v s
  · exact e ▸ State.updCore_reset ..
  · have entered := h.trans (enter_clean (by rw [State.core_updCore]; exact clean) e)
    rw [entered]
    exact (State.updCore_reset ..).trans ((State.updCore_reset ..).trans (State.updCore_reset ..))

theorem mem_immediate (v : Nat) (x : Core) : v ∈ (x.immediate v).pend.imm := by
  unfold Core.immediate
  split
  · exact List.contains_iff_mem.1 ‹_›
  · simp

/-- A core that does not stand at a boundary, in a vector access or halted keeps the exception pending (R136). -/
theorem raiseImmediate_waits {c : Nat} {s : State}
    (h : (s.core c).atBoundary = false ∨ (s.core c).vload = true ∨ (s.core c).halt ≠ 0) (v : Nat) :
    raiseImmediate c v s = s.updCore c (Core.immediate v) := by
  have frame (x : Core) : (x.immediate v).atBoundary = x.atBoundary ∧ (x.immediate v).vload = x.vload ∧
      (x.immediate v).halt = x.halt := by
    unfold Core.immediate
    split <;> exact ⟨rfl, rfl, rfl⟩
  obtain ⟨hb, hv, hh⟩ := frame (s.core c)
  refine if_neg ?_
  rw [State.core_updCore, hb, hv, hh]
  rcases h with h | h | h <;> simp [h]

/-- An entry whose checks pass goes on at the handler's address (R138). -/
theorem enterCore_pc {e : Exc} {x : Core} (h : entryFail e.vec x = 0) : (enterCore e x).pc = (x.word (entryWord e.vec)).data.toNat := by
  exact (congrArg Core.pc (if_pos h) :)

/-- A core that stands at a boundary enters the vector at once (R131, R138). -/
theorem raiseImmediate_enters {c v : Nat} {s : State} (hat : (s.core c).atBoundary = true) (hvl : (s.core c).vload = false)
    (hhalt : (s.core c).halt = 0) (himm : (s.core c).pend.imm = []) (herr : (s.core c).storeErr = [])
    (hfail : entryFail v (s.core c) = 0) :
    ((raiseImmediate c v s).core c).pc = ((s.core c).word (entryWord v)).data.toNat := by
  have noted : (s.core c).immediate v = { s.core c with pend := { (s.core c).pend with imm := [v] } } := by
    simp [Core.immediate, himm]
  have now : ((s.core c).immediate v).atBoundary = true ∧ ((s.core c).immediate v).vload = false ∧
      ((s.core c).immediate v).halt = 0 := by
    rw [noted]
    exact ⟨hat, hvl, hhalt⟩
  unfold raiseImmediate takeImmediate
  dsimp only
  rw [State.core_updCore, if_pos (by simp [now]), noted]
  simp only [lowest, List.foldl_nil, Option.map_some, Option.getD_some]
  rw [enter_clean, State.core_updCore, enterCore_pc, State.core_updCore, State.core_updCore]
  · split <;> rw [noted] <;> rfl
  · rw [State.core_updCore, State.core_updCore, noted]
    split <;> exact hfail
  · rw [State.core_updCore, State.core_updCore, noted]
    exact herr

end Sys2Proof.Machine
end

section
/-! SUPPORT. A stop (R59, R338, R397): the partition it leaves, what it does to the cores, and the result of a PART_STOP that waits. -/

namespace Sys2Proof.Machine

/-- A core that a stop may have touched: of it only passes, drains and moves and the faults still to be entered in the log differ. -/
def Core.StopKept (x y : Core) : Prop := { y with jobs := x.jobs, pend := { y.pend with mfaults := x.pend.mfaults } } = x

namespace Core.StopKept

variable {x y z : Core}

theorem refl (x : Core) : x.StopKept x := rfl

theorem trans (h : x.StopKept y) (k : y.StopKept z) : x.StopKept z :=
  ((congrArg (fun c : Core => { c with jobs := x.jobs, pend := { c.pend with mfaults := x.pend.mfaults } }) k :) :).trans h

theorem kept (h : x.StopKept y) : x.Kept y :=
  ⟨(congrArg Core.tu h :), (congrArg Core.mtu h :), (congrArg Core.dtu h :), (congrArg Core.lcore h :), (congrArg Core.spareRow h :)⟩

theorem imm (h : x.StopKept y) : y.pend.imm = x.pend.imm := (congrArg (fun c => c.pend.imm) h :)

theorem pc (h : x.StopKept y) : y.pc = x.pc := (congrArg Core.pc h :)

end Core.StopKept

/-- Every core is one that a stop may have touched. -/
def State.CoresStopKept (s t : State) : Prop := ∀ c, (s.core c).StopKept (t.core c)

namespace State.CoresStopKept

variable {s t u : State}

theorem refl (s : State) : s.CoresStopKept s := fun _ => .refl _

theorem of_cores (h : s.CoresStopKept t) (e : u.cores = t.cores) : s.CoresStopKept u := fun c => by
  rw [State.core_of e]
  exact h c

theorem updCore (h : s.CoresStopKept t) (c : Nat) (f : Core → Core) (hf : ∀ x : Core, x.StopKept (f x)) :
    s.CoresStopKept (t.updCore c f) := fun i => by
  by_cases e : i = c
  · rw [e, State.core_updCore]
    exact (h c).trans (hf _)
  · rw [State.core_updCore_ne t e]
    exact h i

theorem foldl {α : Type} {g : State → α → State} (h : s.CoresStopKept t)
    (hg : ∀ z a, s.CoresStopKept z → s.CoresStopKept (g z a)) (l : List α) : s.CoresStopKept (l.foldl g t) := by
  induction l generalizing t with
  | nil => exact h
  | cons a l ih => exact ih (hg t a h)

theorem logEvent (h : s.CoresStopKept t) (e : LogEntry) : s.CoresStopKept (logEvent e t) := h.of_cores rfl

theorem updPart (h : s.CoresStopKept t) (q : Nat) (f : Part → Part) : s.CoresStopKept (t.updPart q f) := h.of_cores rfl

theorem finishStop (h : s.CoresStopKept t) (q : Nat) : s.CoresStopKept (finishStop q t) := by
  refine h.of_cores ?_
  unfold Machine.finishStop
  split
  · rfl
  · exact State.updMbx_cores ..

theorem notifyPart (h : s.CoresStopKept t) (k q : Nat) : s.CoresStopKept (notifyPart k q t) :=
  h.of_cores (State.updPort_cores ..)

theorem flushMfaults (h : s.CoresStopKept t) (q c : Nat) : s.CoresStopKept (flushMfaults q c t) :=
  (h.foldl (fun _ f k => k.logEvent (mfaultEntry q (t.core c).lcore (dieOfCore c) false f)) (t.core c).pend.mfaults).updCore c
    (fun x => { x with pend := { x.pend with mfaults := [] } }) fun _ => rfl

theorem moveNote (h : s.CoresStopKept t) (q d unit : Nat) (j : MoveJob) : s.CoresStopKept (moveNote q d unit j t) := by
  unfold Machine.moveNote
  split
  · exact h
  · exact h.of_cores rfl

theorem noteMoves (h : s.CoresStopKept t) (q c : Nat) : s.CoresStopKept (noteMoves q c t) :=
  (h.foldl (fun _ j k => k.moveNote q _ _ j) _).updCore c _ fun _ => rfl

theorem noteBulk (h : s.CoresStopKept t) (q d : Nat) : s.CoresStopKept (noteBulk q d t) :=
  (h.foldl (fun _ j k => k.moveNote q _ _ j) _).of_cores rfl

end State.CoresStopKept

theorem State.CoresStopKept.ite {s t u : State} {p : Prop} [Decidable p] (h : s.CoresStopKept t) (k : s.CoresStopKept u) :
    s.CoresStopKept (if p then t else u) := by
  split
  · exact h
  · exact k

theorem stopWithin_cores (q : Nat) (st : PartSt) (a o : Nat) (s : State) : s.CoresStopKept (stopWithin q st a o s) := by
  have units := ((State.CoresStopKept.refl s).foldl
    (fun _ c k => ((k.updCore c Core.dropUnstarted fun _ => rfl).flushMfaults q c).noteMoves q c) (s.part q).phys).foldl
    (fun _ d k => k.noteBulk q d) (List.range 12)
  have finished := fun st a e => ((units.updPart q (Part.stopped st a)).logEvent e).finishStop q
  unfold stopWithin
  dsimp only
  exact .ite (.ite (finished _ _ _) ((finished _ _ _).notifyPart _ _)) (.refl s)

theorem finishStop_part_self (q : Nat) (s : State) : (finishStop q s).part q = { s.part q with stopReq := none } := by
  unfold finishStop
  split
  next h => rw [← h]
  · simp

/-- The partition that a stop within the turn leaves; a replay does not change a stop that is STOPPED with BAD_COMMAND. -/
theorem stopWithin_part_eq (q : Nat) (st : PartSt) (a o : Nat) (s : State) (h : (s.part q).st = .running)
    (hr : (s.part q).replay = none ∨ st = .stopped ∧ a = stBadCommand) :
    (stopWithin q st a o s).part q = { Part.stopped st a (s.part q) with stopReq := none } := by
  have own : (if ((s.part q).replay.isSome && a != stDieAbsent && a != stRevoked) = true then PartSt.stopped else st) = st ∧
      (if ((s.part q).replay.isSome && a != stDieAbsent && a != stRevoked) = true then stBadCommand else a) = a := by
    obtain h | ⟨rfl, rfl⟩ := hr
    · simp [h]
    · simp
  unfold stopWithin
  dsimp only
  rw [if_pos h, own.1, own.2, quiet_part, finishStop_part_self, logEvent_part, State.part_updPart, stopUnits_part]

/-- A stop within the turn of a RUNNING partition that replays nothing, after changes that a stop could have made. -/
theorem stopWithin_stoppedWithin {q : Nat} {st : PartSt} {a o : Nat} {s z : State} (h : (z.part q).st = .running)
    (hr : (z.part q).replay = none ∨ st = .stopped ∧ a = stBadCommand) (hparts : z.parts = s.parts) (hz : s.StopOnly z) :
    StoppedWithin q st a s (stopWithin q st a o z) := by
  have e := stopWithin_part_eq q st a o z h hr
  refine ⟨?_, ?_, ?_, ?_, ?_, fun i hi => ?_, stopWithin_stopOnly q st a o z hz⟩
  · rw [e]; rfl
  · rw [e]; rfl
  · rw [e]; rfl
  · rw [e, State.part_of hparts]; rfl
  · rw [e]; rfl
  · rw [stopWithin_part_ne hi, State.part_of hparts]

/-- A stop leaves every unit of the module as it is. -/
theorem stopWithin_unitsKept (q : Nat) (st : PartSt) (a o : Nat) (s : State) : s.UnitsKept (stopWithin q st a o s) := by
  have only := stopWithin_stopOnly q st a o s (.refl s)
  refine ⟨fun c => (stopWithin_cores q st a o s c).kept, fun d i => (congrArg Bulk.tu (only.bulk d i).1 :), fun k i => ?_, fun i => ?_⟩
  · have hbms : (stopWithin q st a o s).hbms = s.hbms := (congrArg State.hbms only.rest :)
    rw [State.stack_of hbms]
  · by_cases e : i = q
    · subst e
      by_cases run : (s.part i).st = .running
      · unfold stopWithin
        dsimp only
        rw [if_pos run, quiet_part, finishStop_part_self, logEvent_part, State.part_updPart, stopUnits_part]
        rfl
      · rw [stopWithin_idle i st a o s run]
    · rw [stopWithin_part_ne e]

/-- The result of the PART_STOP that a stop completes (R397): the turn and the manner of the stop. -/
def stopResult (x : Part) : MbxResult := ⟨stOk, padTo 16 (leBytes x.turn 8 ++ leBytes x.how.code 1)⟩

theorem finishStop_result {q : Nat} {r : PortId × Nat} {s : State} (h : (s.part q).stopReq = some r) :
    ((finishStop q s).mbx r.1 r.2).result = some (stopResult (s.part q)) := by
  unfold finishStop
  rw [h]
  simp [stopResult]

theorem stopResult_data (x : Part) : (stopResult x).data = leBytes x.turn 8 ++ (leBytes x.how.code 1 ++ List.replicate 7 0) := by
  have len : (leBytes x.turn 8 ++ leBytes x.how.code 1).length = 9 := by rw [List.length_append, length_leBytes, length_leBytes]
  rw [stopResult, padTo, len, List.take_of_length_le (by omega), List.append_assoc]

theorem stopResult_turn (x : Part) : leNat ((stopResult x).data.take 8) = x.turn % 2 ^ 64 := by
  have len : (leBytes x.turn 8).length = 8 := length_leBytes ..
  rw [stopResult_data, List.take_append_of_le_length len.ge, List.take_of_length_le len.le, leNat_leBytes]
  norm_num

theorem stopResult_how (x : Part) : (stopResult x).data.getD 8 0 = BitVec.ofNat 8 x.how.code := by
  rw [stopResult_data]
  rfl

/-- A stop that a PART_STOP waits for gives its result and no notice. -/
theorem stopWithin_result {q : Nat} {r : PortId × Nat} {s : State} (o : Nat) (h : (s.part q).st = .running)
    (hreq : (s.part q).stopReq = some r) :
    ((stopWithin q .stopped stBadCommand o s).mbx r.1 r.2).result = some (stopResult (Part.stopped .stopped stBadCommand (s.part q))) := by
  have waits (z : State) (hz : z.part q = Part.stopped .stopped stBadCommand (s.part q)) :
      (stBadCommand != stRevoked && byCommand .stopped (z.part q)) = true := by
    rw [hz, byCommand]
    change (_ && (_ && ((s.part q).stopReq.isSome || _))) = true
    rw [hreq]
    rfl
  unfold stopWithin
  dsimp only
  simp only [ite_self]
  have stops (e : LogEntry) (z : State) (hz : z.part q = s.part q) :
      (logEvent e (z.updPart q (Part.stopped .stopped stBadCommand))).part q = Part.stopped .stopped stBadCommand (s.part q) := by
    rw [logEvent_part, State.part_updPart, hz]
  rw [if_pos h, if_pos (waits _ (stops _ _ (stopUnits_part ..)))]
  rw [finishStop_result (r := r), stops _ _ (stopUnits_part ..)]
  rw [stops _ _ (stopUnits_part ..)]
  exact hreq

end Sys2Proof.Machine
end

section
/-! PROOF. O26: the stops of a partition at a point where no unit acts, at the timeout of its PART_STOP, and by a unit over its bound
(R59, R351, R397). -/

namespace Sys2Proof.Machine

theorem finishStop_part_frame (q : Nat) (s : State) :
    { finishStop q s with parts := s.parts, portA := s.portA, portB := s.portB } = s := by
  unfold finishStop
  split
  · rfl
  · next p m _ => cases p <;> rfl

/-- A stop at a point where no unit acts, of a partition whose PART_STOP waits. -/
theorem stopAt_stoppedAt {q : Nat} {r : PortId × Nat} {s : State} (how : StopHow) (hreq : (s.part q).stopReq = some r) :
    StoppedAt q how r s (stopAt q how (s.part q).stopStat false s) := by
  generalize hz : (s.updPart q fun p =>
    { p.noFetch with st := .stopped, stopStat := (s.part q).stopStat, incomplete := false, how := how }) = z
  have part : z.part q = { (s.part q).noFetch with st := .stopped, incomplete := false, how := how } := by
    rw [← hz, State.part_updPart]
    rfl
  have req : (z.part q).stopReq = some r := by
    rw [part]
    exact hreq
  have stops : stopAt q how (s.part q).stopStat false s = finishStop q z := by
    unfold stopAt
    dsimp only
    rw [hz]
    exact if_pos (by rw [byCommand, req]; rfl)
  rw [stops]
  refine ⟨?_, ⟨_, finishStop_result req, rfl, ?_⟩, fun i hi => ?_, ?_⟩
  · rw [finishStop_part_self, part]
  · rw [stopResult_turn, part]
    rfl
  · rw [finishStop_part_ne hi, ← hz, State.part_updPart_ne s hi]
  · have fin := finishStop_part_frame q z
    rw [← hz] at fin ⊢
    exact (congrArg (fun t : State => { t with parts := s.parts }) fin :)

/-- A stop at a quiescent point, and the stop 100 ms after PART_STOP (R59, R397). -/
theorem stopPointsRule : StopPointsRule := by
  intro q r s run req
  refine ⟨fun spur open' quiet => ⟨_, ?_, stopAt_stoppedAt .quiescent req⟩, ?_⟩
  · refine congrArg Host.Outcome.next (if_pos ⟨run, by rw [req]; rfl, spur, open', List.all_eq_true.2 fun u hu => ?_⟩)
    exact quiet u (List.contains_iff_mem.2 hu)
  · refine ⟨_, congrArg Host.Outcome.next (if_pos ⟨run, by rw [req]; rfl⟩), ?_, _, stopWithin_result 0 run req, rfl, ?_⟩
    · exact stopWithin_stoppedWithin run (.inr ⟨rfl, rfl⟩) rfl (.refl s)
    · rw [stopResult_how]
      rfl

/-! A unit over its bound. -/

/-- The record of a unit (R343) does not depend on the recorder. -/
theorem recordOf_recd (p : Part) (r : Recorder) (v : UnitRef) (lc : Nat → Nat) : recordOf { p with recd := r } v lc = recordOf p v lc := by
  cases v <;> rfl

/-- What reports of overruns leave of the module: of a partition all but the recorder's unit, of every core what the units' limits
depend on, and that a core which is not at a boundary keeps a pending Bound Exceeded. -/
structure ReportsOnly (q : Nat) (s t : State) : Prop where
  row : ∀ c, (t.core c).lcore = (s.core c).lcore ∧ (t.core c).spareRow = (s.core c).spareRow
  part : ∃ g, t.part q = { s.part q with recd := { (s.part q).recd with tu := g } }
  others : ∀ i, i ≠ q → t.part i = s.part i
  waits : ∀ c, (s.core c).atBoundary = false →
    (t.core c).atBoundary = false ∧ (10 ∈ (s.core c).pend.imm → 10 ∈ (t.core c).pend.imm)

namespace ReportsOnly

variable {q : Nat} {s t u : State}

theorem refl (q : Nat) (s : State) : ReportsOnly q s s :=
  ⟨fun _ => ⟨rfl, rfl⟩, ⟨_, rfl⟩, fun _ _ => rfl, fun _ h => ⟨h, id⟩⟩

theorem trans (h : ReportsOnly q s t) (k : ReportsOnly q t u) : ReportsOnly q s u := by
  obtain ⟨g, hg⟩ := h.part
  obtain ⟨g', hg'⟩ := k.part
  refine ⟨fun c => ⟨(k.row c).1.trans (h.row c).1, (k.row c).2.trans (h.row c).2⟩, ⟨g', by rw [hg', hg]⟩,
    fun i hi => (k.others i hi).trans (h.others i hi), fun c hc => ?_⟩
  obtain ⟨at', imm⟩ := h.waits c hc
  obtain ⟨at'', imm'⟩ := k.waits c at'
  exact ⟨at'', imm' ∘ imm⟩

theorem of_parts_cores (hparts : t.parts = s.parts) (hcores : t.cores = s.cores) : ReportsOnly q s t := by
  refine ⟨fun c => ?_, ⟨(s.part q).recd.tu, State.part_of hparts q⟩, fun i _ => State.part_of hparts i, fun c hc => ?_⟩ <;>
    rw [State.core_of hcores]
  · exact ⟨rfl, rfl⟩
  · exact ⟨hc, id⟩

theorem spareOf (h : ReportsOnly q s t) (l : List (Nat × Nat)) : spareOfPlace l t = spareOfPlace l s :=
  funext fun _ => by unfold spareOfPlace; rw [(h.row _).2]

/-- A unit that reports of others leave is over its limit as before. -/
theorem overBound_eq (h : ReportsOnly q s t) {v : UnitRef} (hv : unitTu q v t = unitTu q v s) : overBound q v t = overBound q v s := by
  obtain ⟨g, hg⟩ := h.part
  have lc : (fun c => (t.core c).lcore) = fun c => (s.core c).lcore := funext fun c => (h.row c).1
  have limit : unitLimit q v t = unitLimit q v s := by
    unfold unitLimit
    rw [hg, lc, hv]
    simp only [h.spareOf]
    rw [recordOf_recd]
  unfold overBound
  rw [limit, hv, hg]

end ReportsOnly

theorem raiseImmediate_reportsOnly (q c : Nat) (s : State) : ReportsOnly q s (raiseImmediate c 10 s) := by
  have changed := raiseImmediate_changed c 10 s
  refine ⟨fun i => ?_, ⟨(s.part q).recd.tu, State.part_of changed.parts_eq q⟩, fun i _ => State.part_of changed.parts_eq i, fun i hi => ?_⟩
  · exact ⟨(changed.unitsKept.core i).lcore, (changed.unitsKept.core i).spareRow⟩
  · by_cases e : i = c
    · subst e
      rw [raiseImmediate_waits (.inl hi), State.core_updCore]
      unfold Core.immediate
      split
      · exact ⟨hi, id⟩
      · exact ⟨hi, fun h => List.mem_append_left _ h⟩
    · rw [changed.others i e]
      exact ⟨hi, id⟩

theorem updTu_reportsOnly (q : Nat) (u : UnitRef) (f : TurnUnit → TurnUnit) (s : State) : ReportsOnly q s (updTu q u f s) := by
  have kept (c : Nat) (g : Core → Core) (hl : ∀ x, (g x).lcore = x.lcore ∧ (g x).spareRow = x.spareRow)
      (hb : ∀ x, (g x).atBoundary = x.atBoundary ∧ (g x).pend = x.pend) : ReportsOnly q s (s.updCore c g) := by
    refine ⟨fun i => ?_, ⟨_, rfl⟩, fun _ _ => rfl, fun i hi => ?_⟩ <;> by_cases e : i = c
    · rw [e, State.core_updCore]
      exact hl _
    · rw [State.core_updCore_ne s e]
      exact ⟨rfl, rfl⟩
    · rw [e, State.core_updCore, (hb _).1, (hb _).2, ← e]
      exact ⟨hi, id⟩
    · rw [State.core_updCore_ne s e]
      exact ⟨hi, id⟩
  cases u with
  | core c => exact kept _ _ (fun _ => ⟨rfl, rfl⟩) fun _ => ⟨rfl, rfl⟩
  | mover c => exact kept _ _ (fun _ => ⟨rfl, rfl⟩) fun _ => ⟨rfl, rfl⟩
  | drain c => exact kept _ _ (fun _ => ⟨rfl, rfl⟩) fun _ => ⟨rfl, rfl⟩
  | bulk d => exact .of_parts_cores rfl rfl
  | reg k => exact .of_parts_cores rfl rfl
  | recorder =>
    exact ⟨fun _ => ⟨rfl, rfl⟩, ⟨_, State.part_updPart s q _⟩, fun i hi => State.part_updPart_ne s hi _, fun _ hc => ⟨hc, id⟩⟩

/-- The core of a unit takes Bound Exceeded, but for one that has it pending (R351). -/
def raiseBound (u : UnitRef) (s : State) : State :=
  match boundCore u with
  | some c => if (s.core c).pend.imm.contains 10 then s else raiseImmediate c 10 s
  | none => s

/-- The report of a unit that is over its limit and has not reported. -/
theorem reportOverrun_reports {q : Nat} {u : UnitRef} {s : State} (h : (overBound q u s).isSome = true)
    (fresh : (unitTu q u s).exceeded = false) :
    reportOverrun q s u = raiseBound u (updTu q u (fun t => { t with exceeded := true }) s) := by
  unfold reportOverrun
  rw [if_pos (by rw [h, fresh]; rfl)]
  rfl

theorem reportOverrun_idle {q : Nat} {u : UnitRef} {s : State} (h : ¬ ((overBound q u s).isSome = true ∧ (unitTu q u s).exceeded = false)) :
    reportOverrun q s u = s := by
  unfold reportOverrun
  exact if_neg (by simpa using h)

theorem raiseBound_cases (u : UnitRef) (s : State) :
    raiseBound u s = s ∨ ∃ c, boundCore u = some c ∧ raiseBound u s = raiseImmediate c 10 s := by
  unfold raiseBound
  cases boundCore u with
  | none => exact .inl rfl
  | some c =>
    dsimp only
    split
    · exact .inl rfl
    · exact .inr ⟨c, rfl, rfl⟩

theorem raiseBound_reportsOnly (q : Nat) (u : UnitRef) (s : State) : ReportsOnly q s (raiseBound u s) := by
  obtain h | ⟨c, -, h⟩ := raiseBound_cases u s <;> rw [h]
  · exact .refl q s
  · exact raiseImmediate_reportsOnly q c s

theorem raiseBound_unitsKept (u : UnitRef) (s : State) : s.UnitsKept (raiseBound u s) := by
  obtain h | ⟨c, -, h⟩ := raiseBound_cases u s <;> rw [h]
  · exact .refl s
  · exact (raiseImmediate_changed c 10 s).unitsKept

theorem raiseBound_pends {u : UnitRef} {c : Nat} {s : State} (hu : boundCore u = some c)
    (h : (s.core c).atBoundary = false ∨ (s.core c).vload = true ∨ (s.core c).halt ≠ 0) : 10 ∈ ((raiseBound u s).core c).pend.imm := by
  unfold raiseBound
  rw [hu]
  dsimp only
  split
  · exact List.contains_iff_mem.1 ‹_›
  · rw [raiseImmediate_waits h, State.core_updCore]
    exact mem_immediate ..

/-- What a report of an overrun changes: cores, units, and what the accounting of a store's errors changes. -/
theorem raiseBound_clean {u : UnitRef} {s : State} (h : ∀ c, boundCore u = some c → (s.core c).storeErr = []) :
    { raiseBound u s with cores := s.cores } = s := by
  obtain e | ⟨c, hc, e⟩ := raiseBound_cases u s <;> rw [e]
  exact raiseImmediate_clean (h c hc) 10

/-- A unit changed leaves every core but its own, and of its own all but the three units. -/
theorem updTu_core (q : Nat) (u : UnitRef) (f : TurnUnit → TurnUnit) (s : State) (c : Nat) :
    ∃ a b d, (updTu q u f s).core c = { s.core c with tu := a, mtu := b, dtu := d } := by
  have own (i : Nat) (g : Core → Core) (hg : ∀ x, ∃ a b d, g x = { x with tu := a, mtu := b, dtu := d }) :
      ∃ a b d, (s.updCore i g).core c = { s.core c with tu := a, mtu := b, dtu := d } := by
    by_cases e : c = i
    · rw [e, State.core_updCore]
      exact hg _
    · exact ⟨_, _, _, State.core_updCore_ne s e g⟩
  cases u with
  | core i => exact own _ _ fun _ => ⟨_, _, _, rfl⟩
  | mover i => exact own _ _ fun _ => ⟨_, _, _, rfl⟩
  | drain i => exact own _ _ fun _ => ⟨_, _, _, rfl⟩
  | _ => exact ⟨_, _, _, rfl⟩

theorem updTu_core_ne {q : Nat} {u : UnitRef} {c i : Nat} (hu : boundCore u = some c) (hi : i ≠ c) (f : TurnUnit → TurnUnit) (s : State) :
    (updTu q u f s).core i = s.core i := by
  cases u with
  | core d => exact State.core_updCore_ne s (fun e => hi (e.trans (Option.some.inj hu))) _
  | mover d => exact State.core_updCore_ne s (fun e => hi (e.trans (Option.some.inj hu))) _
  | drain d => exact State.core_updCore_ne s (fun e => hi (e.trans (Option.some.inj hu))) _
  | _ => exact nomatch hu

theorem overBound_running {q : Nat} {u : UnitRef} {s : State} (h : (overBound q u s).isSome = true) :
    (s.part q).st = .running ∧ (s.part q).replay = none := by
  unfold overBound at h
  dsimp only at h
  split at h
  · split at h
    next hc => exact ⟨hc.1, Option.isNone_iff_eq_none.1 hc.2.1⟩
    · exact nomatch h
  · exact nomatch h

theorem reportOverrun_reportsOnly (q : Nat) (s : State) (u : UnitRef) : ReportsOnly q s (reportOverrun q s u) := by
  by_cases h : (overBound q u s).isSome = true ∧ (unitTu q u s).exceeded = false
  · rw [reportOverrun_reports h.1 h.2]
    exact (updTu_reportsOnly q u _ s).trans (raiseBound_reportsOnly q u _)
  · rw [reportOverrun_idle h]
    exact .refl q s

theorem reportOverrun_unit_ne {q : Nat} {u v : UnitRef} (hv : v ≠ u) (s : State) :
    unitTu q v (reportOverrun q s u) = unitTu q v s := by
  by_cases h : (overBound q u s).isSome = true ∧ (unitTu q u s).exceeded = false
  · rw [reportOverrun_reports h.1 h.2, (raiseBound_unitsKept u _).unitTu_eq, unitTu_updTu_ne hv]
  · rw [reportOverrun_idle h]

theorem reportOverrun_pends {q : Nat} {u : UnitRef} {c : Nat} {s : State} (h : (overBound q u s).isSome = true)
    (fresh : (unitTu q u s).exceeded = false) (hu : boundCore u = some c)
    (hc : (s.core c).atBoundary = false ∨ (s.core c).vload = true ∨ (s.core c).halt ≠ 0) :
    10 ∈ ((reportOverrun q s u).core c).pend.imm := by
  rw [reportOverrun_reports h fresh]
  obtain ⟨a, b, d, core⟩ := updTu_core q u (fun t => { t with exceeded := true }) s c
  refine raiseBound_pends hu ?_
  rw [core]
  exact hc

theorem reportAll_reportsOnly (q : Nat) (us : List UnitRef) (s : State) : ReportsOnly q s (us.foldl (reportOverrun q) s) := by
  induction us generalizing s with
  | nil => exact .refl q s
  | cons u us ih => exact (reportOverrun_reportsOnly q s u).trans (ih _)

/-- Every unit over its limit that has not reported does so, in whatever order the units stand (R351 step 1). -/
theorem reportAll_pends {q : Nat} {v : UnitRef} {c : Nat} (hc : boundCore v = some c) (us : List UnitRef) (s : State) (hv : v ∈ us)
    (beyond : (overBound q v s).isSome = true) (fresh : (unitTu q v s).exceeded = false) (hb : (s.core c).atBoundary = false) :
    10 ∈ ((us.foldl (reportOverrun q) s).core c).pend.imm := by
  induction us generalizing s with
  | nil => exact nomatch hv
  | cons u us ih =>
    have step := reportOverrun_reportsOnly q s u
    by_cases e : v = u
    · subst e
      have rest := (reportAll_reportsOnly q us (reportOverrun q s v)).waits c (step.waits c hb).1
      exact rest.2 (reportOverrun_pends beyond fresh hc (.inl hb))
    · have unit := reportOverrun_unit_ne e (q := q) s
      refine ih _ ((List.mem_cons.1 hv).resolve_left e) ?_ ?_ (step.waits c hb).1
      · rw [step.overBound_eq unit]
        exact beyond
      · rw [unit]
        exact fresh

theorem reportAll_idle {q : Nat} {us : List UnitRef} {s : State}
    (h : ∀ v ∈ us, (overBound q v s).isSome = true → (unitTu q v s).exceeded = true) : us.foldl (reportOverrun q) s = s := by
  induction us with
  | nil => rfl
  | cons u us ih =>
    rw [List.foldl_cons, reportOverrun_idle, ih fun v hv => h v (List.mem_cons_of_mem _ hv)]
    rintro ⟨beyond, fresh⟩
    rw [h u List.mem_cons_self beyond] at fresh
    exact nomatch fresh

/-- The entries of the units over their limits change nothing but the fault log. -/
theorem boundEntries_only (q : Nat) (us : List UnitRef) (s : State) :
    (boundEntries q us s).parts = s.parts ∧ (boundEntries q us s).cores = s.cores ∧ s.StopOnly (boundEntries q us s) := by
  have fold (us : List UnitRef) : ∀ z : State, z.parts = s.parts ∧ z.cores = s.cores ∧ s.StopOnly z →
      (boundEntries q us z).parts = s.parts ∧ (boundEntries q us z).cores = s.cores ∧ s.StopOnly (boundEntries q us z) := by
    induction us with
    | nil => exact fun _ h => h
    | cons u us ih =>
      rintro z ⟨hp, hc, ho⟩
      refine ih _ ?_
      dsimp only
      split
      · exact ⟨hp, hc, logEvent_stopOnly _ z ho⟩
      · exact ⟨hp, hc, ho⟩
  exact fold us s ⟨rfl, rfl, .refl s⟩

theorem exec_boundOverrun_reports {q : PartId} {u : UnitRef} {s : State} (hu : (s.part q).units.contains u = true)
    (beyond : (overBound q u s).isSome = true) (fresh : (unitTu q u s).exceeded = false) :
    exec (.boundOverrun q u) s = .next (raiseBound u (updTu q u (fun t => { t with exceeded := true }) s)) := by
  rw [← reportOverrun_reports beyond fresh]
  exact congrArg Host.Outcome.next ((if_pos (by rw [hu, beyond]; rfl)).trans (if_neg (by rw [fresh]; exact Bool.false_ne_true)))

theorem exec_boundOverrun_stops {q : PartId} {u : UnitRef} {s : State} (hu : (s.part q).units.contains u = true)
    (beyond : (overBound q u s).isSome = true) (done : (unitTu q u s).exceeded = true) :
    exec (.boundOverrun q u) s = .next (boundStop q s) :=
  congrArg Host.Outcome.next ((if_pos (by rw [hu, beyond]; rfl)).trans (if_pos done))

theorem entryFail_units (v : Nat) (x : Core) (a b d : TurnUnit) : entryFail v { x with tu := a, mtu := b, dtu := d } = entryFail v x := rfl

/-- The report of a unit over its limit (R351 step 1). -/
theorem boundReport {q : PartId} {u : UnitRef} {s : State} (run : (s.part q).st = .running)
    (clean : ∀ c, boundCore u = some c → (s.core c).storeErr = []) :
    let t := raiseBound u (updTu q u (fun t => { t with exceeded := true }) s)
    (unitTu q u t).exceeded = true ∧ (t.part q).st = .running ∧
      { t with cores := s.cores, dies := s.dies, hbms := s.hbms, parts := s.parts } = s ∧
      ∀ c, boundCore u = some c →
        let x := s.core c
        (∀ i, i ≠ c → t.core i = s.core i) ∧
        (x.atBoundary = false ∨ x.vload = true ∨ x.halt ≠ 0 → 10 ∈ (t.core c).pend.imm) ∧
        (x.atBoundary = true → x.vload = false → x.halt = 0 → x.pend.imm = [] → entryFail 10 x = 0 →
          (t.core c).pc = (x.word (entryWord 10)).data.toNat) := by
  generalize hz : updTu q u (fun t => { t with exceeded := true }) s = z
  dsimp only
  have core (c : Nat) : ∃ a b d, z.core c = { s.core c with tu := a, mtu := b, dtu := d } := by
    rw [← hz]
    exact updTu_core ..
  have reported : ReportsOnly q s (raiseBound u z) := (hz ▸ updTu_reportsOnly q u _ s).trans (raiseBound_reportsOnly q u z)
  refine ⟨?_, ?_, ?_, fun c hc => ⟨fun i hi => ?_, fun hb => ?_, fun hb hv hh himm hf => ?_⟩⟩
  · rw [(raiseBound_unitsKept u z).unitTu_eq, ← hz, unitTu_updTu]
  · obtain ⟨g, hg⟩ := reported.part
    rw [hg]
    exact run
  · have frame : { raiseBound u z with cores := z.cores } = z := raiseBound_clean fun c hc => by
      obtain ⟨a, b, d, e⟩ := core c
      rw [e]
      exact clean c hc
    have unit := updTu_frame q u (fun t => { t with exceeded := true }) s
    rw [hz, ← frame] at unit
    exact unit
  · have rest : z.core i = s.core i := by
      rw [← hz]
      exact updTu_core_ne hc hi ..
    obtain e | ⟨d, hd, e⟩ := raiseBound_cases u z
    · rw [e, rest]
    · rw [e, (raiseImmediate_changed d 10 z).others i, rest]
      rw [hc] at hd
      exact Option.some.inj hd ▸ hi
  · refine raiseBound_pends hc ?_
    obtain ⟨a, b, d, e⟩ := core c
    rw [e]
    exact hb
  · obtain ⟨a, b, d, e⟩ := core c
    have raise : raiseBound u z = raiseImmediate c 10 z := by
      unfold raiseBound
      rw [hc]
      exact if_neg (by rw [e, himm]; exact Bool.false_ne_true)
    rw [raise, raiseImmediate_enters] <;> rw [e]
    · rfl
    · exact hb
    · exact hv
    · exact hh
    · exact himm
    · exact clean c hc
    · exact hf

/-- A unit over its bound reports; then the firmware stops the partition (R351). -/
theorem boundOverrunRule : BoundOverrunRule := by
  intro q u s hu beyond
  obtain ⟨run, noReplay⟩ := overBound_running beyond
  refine ⟨fun fresh clean => ⟨_, exec_boundOverrun_reports hu beyond fresh, boundReport run clean⟩,
    fun done => ⟨_, exec_boundOverrun_stops hu beyond done, ?_⟩⟩
  generalize hz : (s.part q).units.foldl (reportOverrun q) s = z
  have reported : ReportsOnly q s z := hz ▸ reportAll_reportsOnly q _ s
  obtain ⟨g, hg⟩ := reported.part
  obtain ⟨parts, cores, only⟩ := boundEntries_only q (s.part q).units z
  have stop : boundStop q s = stopWithin q .faulted stBound 0 (boundEntries q (s.part q).units z) := by
    rw [← hz]
    rfl
  rw [stop]
  have part : (boundEntries q (s.part q).units z).part q = { s.part q with recd := { (s.part q).recd with tu := g } } := by
    rw [State.part_of parts, hg]
  have left := stopWithin_part_eq q .faulted stBound 0 (boundEntries q (s.part q).units z) (by rw [part]; exact run)
    (.inl (by rw [part]; exact noReplay))
  refine ⟨?_, ?_, ?_, fun i hi => ?_, fun v c hv hover hfresh hc hb => ?_, fun all => ?_⟩
  · rw [left]; rfl
  · rw [left]; rfl
  · rw [left]; rfl
  · rw [stopWithin_part_ne hi, State.part_of parts, reported.others i hi]
  · rw [(stopWithin_cores q _ _ _ _ c).imm, State.core_of cores, ← hz]
    exact reportAll_pends hc _ s (List.contains_iff_mem.1 hv) hover hfresh hb
  · have idle : z = s := hz ▸ reportAll_idle fun v hv => all v (List.contains_iff_mem.2 hv)
    subst idle
    refine stopWithin_stoppedWithin ?_ (.inl ?_) parts only <;> rw [part]
    · exact run
    · exact noReplay

/-- Settles O26: the stops at a quiescent point and at the timeout, and the bound of a unit, each with the stop it ends in. -/
theorem partitionStops : Obligations.PartitionStops := ⟨stopPointsRule, boundOverrunRule⟩

end Sys2Proof.Machine
end

section
/-! PROOF. O24: the turn master's spur, its relay, and its receipt by a unit (R43 to R49, R54, R59, R60, R135). -/

namespace Sys2Proof.Machine

/-! The boundary. -/

theorem notifyPart_parts (k q : Nat) (s : State) : (notifyPart k q s).parts = s.parts := State.updPort_parts ..

/-- A stop at a point where no unit acts, of a partition for which no PART_STOP waits. -/
theorem stopAt_part {q : Nat} {s : State} (how : StopHow) (stat : Nat) (incomplete : Bool) (h : (s.part q).stopReq = none) :
    (stopAt q how stat incomplete s).part q =
      { (s.part q).noFetch with st := .stopped, stopStat := stat, incomplete := incomplete, how := how } := by
  generalize hy : { (s.part q).noFetch with st := PartSt.stopped, stopStat := stat, incomplete := incomplete, how := how } = y
  have req : y.stopReq = none := by rw [← hy]; exact h
  unfold stopAt
  dsimp only
  split
  · rw [finishStop_part_self, State.part_updPart, hy, ← req]
  · rw [notifyPart_part, State.part_updPart, hy]

theorem endOldRecord_idle {q : Nat} {s : State} (h : (s.part q).recNext = none) : endOldRecord q s = s :=
  if_neg (by rw [h]; exact Bool.false_ne_true)

theorem applyRecord_idle {q : Nat} {s : State} (h : (s.part q).recNext = none) : applyRecord q s = s := by
  unfold applyRecord
  rw [h]

theorem applySeed_idle {q turn : Nat} {s : State} (hreplay : (s.part q).replay = none) (hseed : (s.part q).seedNext = none)
    (hturn : turn ≠ 1) : applySeed q turn s = s := by
  unfold applySeed
  dsimp only
  rw [hreplay, hseed]
  exact if_neg hturn

/-- What a plain boundary does to a partition: the new turn, what it brings, and the units that the spur travels to. -/
def Part.nextTurn (p : Part) : Part :=
  { p with turn := p.turn + 1, caps := p.capsNext.getD p.caps, capsNext := none, recd := { p.recd with lines := [] }
           mon := { p.mon with flags := p.mon.flags.filter fun n => decide (p.turn ≤ n) }, spurTo := p.units }

/-- Of state s only partition q differs, which is x. -/
structure State.OnlyPart (q : Nat) (x : Part) (s t : State) : Prop where
  part : t.part q = x
  others : ∀ i, i ≠ q → t.part i = s.part i
  rest : { t with parts := s.parts } = s

namespace State.OnlyPart

variable {q : Nat} {x : Part} {s t : State}

theorem refl (q : Nat) (s : State) : OnlyPart q (s.part q) s s := ⟨rfl, fun _ _ => rfl, rfl⟩

theorem updPart (h : OnlyPart q x s t) (f : Part → Part) : OnlyPart q (f x) s (t.updPart q f) :=
  ⟨by rw [State.part_updPart, h.part], fun i hi => (State.part_updPart_ne t hi f).trans (h.others i hi), h.rest⟩

end State.OnlyPart

/-- A boundary at which nothing waits changes its partition, and then a span's master sends its spur (R45, R60). -/
theorem broadcast_plain {q : Nat} {s : State} (h : PlainBoundary (s.part q)) :
    ∃ z, broadcast q s = sendSpur q z ∧ s.OnlyPart q (s.part q).nextTurn z := by
  obtain ⟨hreplay, hrec, hchanges, hseed, hturn, hblock⟩ := h
  unfold broadcast
  dsimp only
  rw [hchanges]
  have one := (State.OnlyPart.refl q s).updPart fun p => { p with
    turn := (s.part q).turn + 1
    caps := p.capsNext.getD p.caps
    capsNext := none
    recd := { p.recd with lines := [] }
    replay := p.replay.map fun y => { y with lines := [] }
    mon := { p.mon with flags := p.mon.flags.filter fun t => decide ((s.part q).turn ≤ t) } }
  generalize s.updPart q _ = a at one ⊢
  rw [endOldRecord_idle (by rw [one.part]; exact hrec)]
  have two := one.updPart fun p => { p with changes := p.changes.filter fun c => !c.due ((s.part q).turn + 1) }
  have changes : applyChanges q ((s.part q).turn + 1) ([].filter (MapChange.due ((s.part q).turn + 1))) a =
    a.updPart q fun p => { p with changes := p.changes.filter fun c => !c.due ((s.part q).turn + 1) } := rfl
  rw [changes]
  generalize a.updPart q _ = b at two ⊢
  have recorded (z : State) : recordChanges q ([].filter (MapChange.due ((s.part q).turn + 1))) z = z := rfl
  rw [applyRecord_idle (by rw [two.part]; exact hrec), recorded,
    applySeed_idle (by rw [two.part, hreplay]; rfl) (by rw [two.part]; exact hseed) (by omega), if_neg (by omega), if_neg (by omega)]
  have three := two.updPart (fun p => (((b.part q).replay.map fun y => y.items.filter fun i =>
    i.kind == 0x14 && i.turn == (s.part q).turn + 1).getD []).foldl installItem p)
  refine ⟨_, rfl, ?_⟩
  have last := three.updPart fun p => { p with spurTo := p.units }
  have due : (((b.part q).replay.map fun y => y.items.filter fun i =>
      i.kind == 0x14 && i.turn == (s.part q).turn + 1).getD []) = [] := by
    rw [two.part, hreplay]
    rfl
  refine ⟨last.part.trans ?_, last.others, last.rest⟩
  simp only [due, List.foldl_nil, Part.nextTurn, hchanges, hreplay, List.filter_nil, Option.map_none]
  rfl

theorem Part.nextTurn_span (p : Part) : p.nextTurn.span = p.span ∧ p.nextTurn.member = p.member := ⟨rfl, rfl⟩

/-- The spur that a span's master sends to the other members (R60). -/
def spurOut (q : Nat) (p : Part) : List Output := if p.member = 0 ∧ 1 < p.span then [.spanSpur q p.turn] else []

theorem sendSpur_broadcasts {q : Nat} {s z : State} (h : s.OnlyPart q (s.part q).nextTurn z) :
    Broadcasts q s (sendSpur q z) ∧ (sendSpur q z).out = s.out ++ spurOut q (s.part q).nextTurn := by
  have out : z.out = s.out := (congrArg State.out h.rest :)
  have frame := (congrArg (fun t : State => { t with out := s.out }) h.rest :)
  unfold sendSpur spurOut
  dsimp only
  rw [h.part]
  split
  · exact ⟨⟨h.part, h.others, frame⟩, by rw [← out]; rfl⟩
  · exact ⟨⟨h.part, h.others, frame⟩, by rw [List.append_nil, out]⟩

/-! The turn master (R45). -/

theorem exec_spurBroadcast_master {q : PartId} {sp : SpanTurn} {s : State} (h : ToMaster (s.part q) sp) :
    exec (.spurBroadcast ⟨q, sp⟩) s = .next (masterSpur q s) := by
  obtain ⟨span, rfl⟩ | ⟨span, member, rfl⟩ := h
  · exact congrArg Host.Outcome.next (if_pos span)
  · exact congrArg Host.Outcome.next (if_pos ⟨span, member⟩)

theorem toMaster_member {p : Part} {sp : SpanTurn} (h : ToMaster p sp) (hspan : 1 < p.span) : p.member = 0 := by
  obtain ⟨h, -⟩ | ⟨-, h, -⟩ := h
  · omega
  · exact h

/-- What the turn master does once every report has come and no spur is out. -/
theorem masterSpur_due {q : Nat} {s : State} (run : (s.part q).st = .running) (none_out : (s.part q).spurTo = [])
    (complete : turnComplete q s = true) : masterSpur q s =
    (if (s.part q).stopReq.isSome then
      (if (s.part q).mon.logQ.isEmpty then stopAt q .boundary (s.part q).stopStat false s else s)
    else if (s.part q).turn = 2 ^ 48 - 2 then stopAt q .boundary stBadCommand true s
    else if spurHeld q s then s
    else if badItem (s.part q) ((s.part q).turn + 1) then replayDiverge q ((s.part q).turn + 1) 0xFFFE 0xFF s
    else broadcast q s) := if_pos ⟨run, none_out, complete⟩

theorem badItem_of_no_replay {p : Part} (h : p.replay = none) (turn : Nat) : badItem p turn = false := by
  rw [badItem, h]
  rfl

theorem masterSpurRule : MasterSpurRule := by
  intro q sp s p master
  rw [exec_spurBroadcast_master master]
  refine ⟨fun h => ?idle, fun run out complete => ⟨fun r req log => ?stop, fun req last held => ?held, fun req last => ?last,
    fun req last held plain => ?spur⟩⟩
  case idle =>
    refine congrArg Host.Outcome.next (if_neg ?_)
    rintro ⟨run, out, complete⟩
    rcases h with h | h | h
    · exact h run
    · exact h out
    · rw [complete] at h
      exact nomatch h
  all_goals rw [masterSpur_due run out complete]
  case stop =>
    refine ⟨_, congrArg Host.Outcome.next ((if_pos (by rw [show (s.part q).stopReq = _ from req]; rfl)).trans (if_pos ?_)),
      stopAt_stoppedAt .boundary req⟩
    rw [show (s.part q).mon.logQ = [] from log]
    rfl
  all_goals rw [if_neg (by rw [show (s.part q).stopReq = none from req]; exact Bool.false_ne_true)]
  case held => rw [if_neg last, if_pos held]
  case last =>
    refine ⟨_, congrArg Host.Outcome.next (if_pos last), ?_⟩
    rw [stopAt_part .boundary stBadCommand true req]
    exact ⟨rfl, rfl, rfl, rfl⟩
  case spur =>
    rw [if_neg last, if_neg (by rw [held]; exact Bool.false_ne_true), if_neg (by rw [badItem_of_no_replay plain.1]; exact Bool.false_ne_true)]
    obtain ⟨z, eq, only⟩ := broadcast_plain plain
    obtain ⟨left, sent⟩ := sendSpur_broadcasts only
    refine ⟨_, congrArg Host.Outcome.next eq, left, sent.trans (congrArg (s.out ++ ·) ?_)⟩
    refine if_congr ⟨And.right, fun h => ⟨toMaster_member master h, h⟩⟩ rfl rfl

/-! A member of a span that is not the master (R44, R60, R460). -/

theorem exec_spurBroadcast_relay {q : PartId} {turn : Nat} {s : State} (hspan : 1 < (s.part q).span) (hmember : (s.part q).member ≠ 0) :
    exec (.spurBroadcast ⟨q, .spur turn⟩) s = .next (relaySpur q turn s) := congrArg Host.Outcome.next (if_pos ⟨hspan, hmember⟩)

theorem exec_spurBroadcast_start {q : PartId} {l : List SpanAnswer} {s : State} (hspan : 1 < (s.part q).span) :
    exec (.spurBroadcast ⟨q, .start l⟩) s = .next (memberStart q l s) := congrArg Host.Outcome.next (if_pos hspan)

theorem relayRule : RelayRule := by
  intro q s p hspan hmember
  refine ⟨fun run out complete plain => ?_, fun waits => ?_, fun c l cfg st starts handshake => ?_⟩
  · obtain ⟨z, eq, only⟩ := broadcast_plain plain
    obtain ⟨left, sent⟩ := sendSpur_broadcasts only
    have relayed : relaySpur q (p.turn + 1) s = sendSpur q z := by
      rw [← eq]
      exact (if_pos ⟨run, out⟩).trans ((if_neg (not_not.2 rfl)).trans (if_pos complete))
    refine ⟨_, (exec_spurBroadcast_relay hspan hmember).trans (congrArg Host.Outcome.next relayed), left, sent.trans ?_⟩
    rw [spurOut, if_neg fun h => hmember h.1, List.append_nil]
  · refine (exec_spurBroadcast_relay hspan hmember).trans (congrArg Host.Outcome.next ?_)
    unfold relaySpur
    dsimp only
    rw [if_neg (not_not.2 rfl), waits, if_neg Bool.false_ne_true, ite_self]
  · have started : memberStart q l s = startPart q l s := by
      unfold memberStart
      dsimp only
      rw [show (s.part q).cfg = some c from cfg]
      refine if_pos ⟨st, ?_, starts, handshake⟩
      have member : p.member = c.member := by rw [Part.member, cfg]; rfl
      exact member ▸ hmember
    have only := (State.OnlyPart.refl q s).updPart (fun x => { x with
      st := .running
      stopStat := 0
      nd := x.nd || (x.cfg.any (·.raceOff))
      caps := if l.isEmpty then x.caps else { x.caps with hops := (l.map (·.hops)).foldl max 0 }
      remote := l.flatMap (·.cores) })
    refine ⟨_, (exec_spurBroadcast_start hspan).trans (congrArg Host.Outcome.next started), ?_, ?_, ?_, only.others, only.rest⟩ <;>
      exact (congrArg _ only.part).trans rfl

/-! The receipt of a spur by a unit (R43). -/

theorem mem_vectorsBefore {turn v : Nat} {l : List (Nat × Nat)} : v ∈ vectorsBefore turn l ↔ ∃ k, (k, v) ∈ l ∧ k < turn := by
  simp [vectorsBefore, List.mem_eraseDups]

theorem mem_event {v turn : Nat} {x : Core} {e : Nat × Nat} :
    e ∈ (x.event v turn).pend.events ↔ e ∈ x.pend.events ∨ e = (turn, v) := by
  unfold Core.event
  split
  next h => exact ⟨.inl, fun k => k.elim id fun k => k ▸ List.contains_iff_mem.1 h⟩
  · simp

/-- An event pending leaves all of a core but its events. -/
theorem event_eq (v turn : Nat) (x : Core) :
    x.event v turn = { x with pend := { x.pend with events := (x.event v turn).pend.events } } := by
  unfold Core.event
  split <;> rfl

/-- What a spur holds in a core that waits for it (R132, R135), x the core with its pending items, y the core left. -/
structure Core.Held (turn : Nat) (x y : Core) : Prop where
  events : ∀ e ∈ y.pend.events, turn ≤ e.1
  turnExc : ∀ e ∈ y.pend.turnExc, turn ≤ e.1
  heldInt : ∀ v, v ∈ y.pend.heldInt ↔
    v ∈ x.pend.heldInt ∨ ((∃ k, (k, v) ∈ x.pend.events ∧ k < turn) ∨ v = 19) ∧ x.imask v = true
  heldExc : ∀ v k, (k, v) ∈ x.pend.turnExc → k < turn → v ∈ y.pend.heldExc

theorem holdTurn_held (turn : Nat) (x : Core) : x.Held turn (x.holdTurn turn) where
  events := by simp [Core.holdTurn]
  turnExc := by simp [Core.holdTurn]
  heldInt v := by
    simp only [Core.holdTurn, List.mem_append, List.mem_filter, mem_vectorsBefore, List.mem_singleton]
    by_cases h : v ∈ x.pend.heldInt <;> simp [h]
  heldExc v k hv hk := by
    simp only [Core.holdTurn, List.mem_append, List.mem_filter, mem_vectorsBefore]
    by_cases h : v ∈ x.pend.heldExc
    · exact .inl h
    · exact .inr ⟨⟨k, hv, hk⟩, by simp [h]⟩

/-- A core that a spur reaches before its deliveries are held: the far cache, the counter, and the monitor table's event. -/
def coreTurned (turn : Nat) (flag : Bool) (x : Core) : Core :=
  let y := { x with far := { x.far with lines := x.far.lines.filter fun e => e.2.ro }, tu := x.tu.spur turn
                    pend := { x.pend with mdone := false, vdone := false } }
  if flag then y.event 21 (turn - 1) else y

theorem coreSpur_eq (turn : Nat) (flag : Bool) (x : Core) :
    coreSpur turn flag x = if (coreTurned turn flag x).twait then { (coreTurned turn flag x).holdTurn turn with twait := false }
      else coreTurned turn flag x := rfl

theorem coreTurned_eq (turn : Nat) (flag : Bool) (x : Core) :
    coreTurned turn flag x = { x with
      far := { x.far with lines := x.far.lines.filter fun e => e.2.ro }, tu := x.tu.spur turn
      pend := { x.pend with mdone := false, vdone := false, events := (coreTurned turn flag x).pend.events } } := by
  unfold coreTurned
  dsimp only
  split
  · exact event_eq ..
  · rfl

/-- Every event of the core is pending as before, and vector 21 may be. -/
theorem mem_coreTurned_events {turn : Nat} {flag : Bool} {x : Core} {e : Nat × Nat} :
    (e ∈ x.pend.events → e ∈ (coreTurned turn flag x).pend.events) ∧
    (e ∈ (coreTurned turn flag x).pend.events → e ∈ x.pend.events ∨ e.2 = 21) := by
  unfold coreTurned
  dsimp only
  split
  · rw [mem_event]
    exact ⟨.inl, fun h => h.imp id fun h => (congrArg Prod.snd h :)⟩
  · exact ⟨id, .inl⟩

theorem coreSpur_units (turn : Nat) (flag : Bool) (x : Core) :
    (coreSpur turn flag x).tu = x.tu.spur turn ∧ (coreSpur turn flag x).mtu = x.mtu ∧ (coreSpur turn flag x).dtu = x.dtu := by
  rw [coreSpur_eq, coreTurned_eq]
  split <;> exact ⟨rfl, rfl, rfl⟩

/-- What a core keeps and drops at a spur, and what it holds if it waited (R43, R49, R135). -/
theorem coreSpur_spec (turn : Nat) (flag : Bool) (x : Core) :
    (∀ l ∈ (coreSpur turn flag x).far.lines, l.2.ro = true) ∧ (coreSpur turn flag x).store = x.store ∧
    (coreSpur turn flag x).a = x.a ∧ (coreSpur turn flag x).twait = false ∧ (coreSpur turn flag x).pend.mdone = false ∧
    (coreSpur turn flag x).pend.vdone = false ∧
    (x.twait = true → (coreTurned turn flag x).Held turn (coreSpur turn flag x)) := by
  have ro (l) (h : l ∈ x.far.lines.filter fun e => e.2.ro) : l.2.ro = true := (List.mem_filter.1 h).2
  rw [coreSpur_eq]
  by_cases h : x.twait = true
  · rw [if_pos (by rw [coreTurned_eq]; exact h)]
    have held := holdTurn_held turn (coreTurned turn flag x)
    have kept : (coreTurned turn flag x).holdTurn turn =
      { coreTurned turn flag x with pend := ((coreTurned turn flag x).holdTurn turn).pend } := rfl
    refine ⟨?_, ?_, ?_, rfl, ?_, ?_, fun _ => ⟨held.events, held.turnExc, held.heldInt, held.heldExc⟩⟩
    · rw [kept, coreTurned_eq]
      exact ro
    · rw [kept, coreTurned_eq]
    · rw [kept, coreTurned_eq]
    · rw [coreTurned_eq]
      rfl
    · rw [coreTurned_eq]
      rfl
  · rw [if_neg (by rw [coreTurned_eq]; exact h), coreTurned_eq]
    exact ⟨ro, rfl, rfl, Bool.eq_false_iff.2 h, rfl, rfl, fun k => absurd k h⟩

/-- A change of a core that leaves the mover's and the drain's unit leaves every unit but the core's own. -/
theorem unitTu_updCore {q : Nat} {c : CoreId} {v : UnitRef} (hv : v ≠ .core c) (f : Core → Core)
    (hf : ∀ x, (f x).mtu = x.mtu ∧ (f x).dtu = x.dtu) (s : State) : unitTu q v (s.updCore c f) = unitTu q v s := by
  cases v with
  | core d => exact congrArg Core.tu (State.core_updCore_ne s (fun e => hv (congrArg UnitRef.core (Fin.ext e))) f)
  | mover d =>
    by_cases e : d.val = c.val
    · change ((s.updCore c f).core d).mtu = (s.core d).mtu
      rw [e, State.core_updCore, (hf _).1]
    · exact congrArg Core.mtu (State.core_updCore_ne s e f)
  | drain d =>
    by_cases e : d.val = c.val
    · change ((s.updCore c f).core d).dtu = (s.core d).dtu
      rw [e, State.core_updCore, (hf _).2]
    · exact congrArg Core.dtu (State.core_updCore_ne s e f)
  | _ => rfl

/-- A spur no longer on its way to unit u. -/
def Part.received (u : UnitRef) (p : Part) : Part := { p with spurTo := p.spurTo.filter fun v => v != u }

theorem takeSpur_core (q : Nat) (c : CoreId) (turn : Nat) (s : State) : takeSpur q (.core c) turn s =
    (s.updPart q (Part.received (.core c))).updCore c (coreSpur turn ((s.part q).mon.flags.contains (turn - 1))) := rfl

theorem takeSpur_unit {u : UnitRef} (q : Nat) (h : ∀ c, u ≠ .core c) (turn : Nat) (s : State) :
    takeSpur q u turn s = updTu q u (TurnUnit.spur turn) (s.updPart q (Part.received u)) := by
  cases u with
  | core c => exact absurd rfl (h c)
  | _ => rfl

theorem takeSpur_units (q : Nat) (u : UnitRef) (turn : Nat) (s : State) :
    unitTu q u (takeSpur q u turn s) = (unitTu q u s).spur turn ∧ ∀ v, v ≠ u → unitTu q v (takeSpur q u turn s) = unitTu q v s := by
  have kept : s.UnitsKept (s.updPart q (Part.received u)) := (State.UnitsKept.refl s).updPart q _
  have units := kept.unitTu_eq q
  by_cases core : ∃ c, u = .core c
  · obtain ⟨c, rfl⟩ := core
    rw [takeSpur_core]
    refine ⟨?_, fun v hv => ?_⟩
    · rw [← units]
      change ((State.updCore _ _ _).core c).tu = _
      rw [State.core_updCore, (coreSpur_units ..).1]
      rfl
    · rw [unitTu_updCore hv _ (fun x => (coreSpur_units ..).2), units]
  · rw [takeSpur_unit q (not_exists.1 core)]
    exact ⟨by rw [unitTu_updTu, units], fun v hv => by rw [unitTu_updTu_ne hv, units]⟩

theorem takeSpur_part (q : Nat) (u : UnitRef) (turn : Nat) (s : State) :
    ((takeSpur q u turn s).part q).spurTo = (s.part q).spurTo.filter (fun v => v != u) ∧
    ((takeSpur q u turn s).part q).turn = (s.part q).turn ∧ ((takeSpur q u turn s).part q).st = (s.part q).st ∧
    ∀ i, i ≠ q → (takeSpur q u turn s).part i = s.part i := by
  by_cases core : ∃ c, u = .core c
  · obtain ⟨c, rfl⟩ := core
    rw [takeSpur_core, State.part_updCore, State.part_updPart]
    exact ⟨rfl, rfl, rfl, fun i hi => State.part_updPart_ne s hi _⟩
  · rw [takeSpur_unit q (not_exists.1 core)]
    obtain ⟨g, hg⟩ := updTu_part q u (TurnUnit.spur turn) (s.updPart q (Part.received u))
    rw [hg, State.part_updPart]
    exact ⟨rfl, rfl, rfl, fun i hi => (updTu_part_ne hi ..).trans (State.part_updPart_ne s hi _)⟩

/-- A state that differs in its cores alone is one that a stop could have left. -/
theorem State.StopOnly.of_cores {s t : State} (h : { t with cores := s.cores } = s) : s.StopOnly t := by
  have dies : t.dies = s.dies := (congrArg State.dies h :)
  refine ⟨?_, fun d => ?_, fun d q => ?_, ?_, fun p => ?_⟩
  · exact (congrArg (fun z : State => { z with
      hs := s.hs, portA := s.portA, portB := s.portB, parts := s.parts, cores := s.cores, dies := s.dies }) h :)
  · rw [State.die_of dies]
  · unfold State.bulkOf
    rw [State.die_of dies]
    exact ⟨rfl, rfl⟩
  · have hs : t.hs = s.hs := (congrArg State.hs h :)
    rw [hs]
  · have port : t.port p = s.port p := by
      cases p
      · exact (congrArg State.portA h :)
      · exact (congrArg State.portB h :)
    rw [port]

theorem execSpurReceipt_eq {q : PartId} {u : UnitRef} {s : State} (run : (s.part q).st = .running)
    (hu : (s.part q).units.contains u = true) (turn : Nat) : exec (.spurReceipt q u turn) s =
    .next (if turn ≠ (unitTu q u s).turn + 1 then spurMismatch q u turn s
      else if (s.part q).spurTo.contains u then takeSpur q u turn s else s) :=
  congrArg Host.Outcome.next (if_pos ⟨run, hu⟩)

/-- A spur of another number stops its partition, and the core that hears of it takes a Mesh Error (R44). -/
theorem spurMismatch_stops {q : Nat} {u : UnitRef} {turn : Nat} {s : State} (run : (s.part q).st = .running)
    (noReplay : (s.part q).replay = none) (clean : (s.core (meshErrorCore q u s)).storeErr = []) :
    let x := s.core (meshErrorCore q u s)
    let t := spurMismatch q u turn s
    StoppedWithin q .faulted 0x02 s t ∧
      (x.atBoundary = false ∨ x.vload = true ∨ x.halt ≠ 0 → 14 ∈ (t.core (meshErrorCore q u s)).pend.imm) ∧
      (x.atBoundary = true → x.vload = false → x.halt = 0 → x.pend.imm = [] → entryFail 14 x = 0 →
        (t.core (meshErrorCore q u s)).pc = (x.word (entryWord 14)).data.toNat) := by
  generalize hc : meshErrorCore q u s = c at clean ⊢
  have raised := raiseImmediate_clean clean 14
  have only := State.StopOnly.of_cores raised
  generalize hz : raiseImmediate c 14 s = z at raised only
  obtain ⟨e, stop⟩ : ∃ e, spurMismatch q u turn s = stopWithin q .faulted stBadCommand 0 (logEvent e z) := by
    unfold spurMismatch
    dsimp only
    rw [hc, hz]
    exact ⟨_, rfl⟩
  have parts : (logEvent e z).parts = s.parts := (congrArg State.parts raised :)
  have cores : (logEvent e z).cores = z.cores := rfl
  have kept := stopWithin_cores q .faulted stBadCommand 0 (logEvent e z) c
  rw [State.core_of cores] at kept
  dsimp only
  rw [stop]
  refine ⟨?_, fun waits => ?_, fun hat hvl hh himm hf => ?_⟩
  · refine stopWithin_stoppedWithin ?_ (.inl ?_) parts (logEvent_stopOnly e z only) <;> rw [State.part_of parts]
    · exact run
    · exact noReplay
  · rw [kept.imm, ← hz, raiseImmediate_waits waits, State.core_updCore]
    exact mem_immediate ..
  · rw [kept.pc, ← hz, raiseImmediate_enters hat hvl hh himm clean hf]

theorem spurReceiptRule : SpurReceiptRule := by
  intro q u turn s p n run hu
  rw [execSpurReceipt_eq run hu]
  refine ⟨fun next out => ⟨_, congrArg Host.Outcome.next ((if_neg (not_not.2 next)).trans (if_pos out)), ?_⟩,
    fun next out => congrArg Host.Outcome.next ((if_neg (not_not.2 next)).trans (if_neg (Bool.eq_false_iff.1 out))),
    fun other noReplay clean => ⟨_, congrArg Host.Outcome.next (if_pos other), spurMismatch_stops run noReplay clean⟩⟩
  obtain ⟨unit, units⟩ := takeSpur_units q u turn s
  obtain ⟨spurTo, sameTurn, st, others⟩ := takeSpur_part q u turn s
  refine ⟨unit, units, spurTo, sameTurn, st.trans run, others, fun c hc => ?_⟩
  subst hc
  rw [takeSpur_core, State.core_updCore]
  generalize (s.part q).mon.flags.contains (turn - 1) = flag
  obtain ⟨ro, store, a, twait, mdone, vdone, held⟩ := coreSpur_spec turn flag (s.core c)
  refine ⟨ro, store, a, twait, mdone, vdone, fun waits => ?_⟩
  have held := held waits
  have mask (v : Nat) : (coreTurned turn flag (s.core c)).imask v = (s.core c).imask v := by rw [coreTurned_eq]; rfl
  have heldInt : (coreTurned turn flag (s.core c)).pend.heldInt = (s.core c).pend.heldInt := by rw [coreTurned_eq]
  have turnExc : (coreTurned turn flag (s.core c)).pend.turnExc = (s.core c).pend.turnExc := by rw [coreTurned_eq]
  refine ⟨held.events, held.turnExc, fun v k hv hk hm => ?_, fun hm => ?_, fun v hv => ?_, fun v k hv hk => ?_⟩
  · exact (held.heldInt v).2 (.inr ⟨.inl ⟨k, mem_coreTurned_events.1 hv, hk⟩, (mask v).trans hm⟩)
  · exact (held.heldInt 19).2 (.inr ⟨.inr rfl, (mask 19).trans hm⟩)
  · obtain h | ⟨h, hm⟩ := (held.heldInt v).1 hv
    · exact .inl (heldInt ▸ h)
    · refine .inr ⟨(mask v).symm.trans hm, ?_⟩
      obtain ⟨k, hk, before⟩ | rfl := h
      · exact (mem_coreTurned_events.2 hk).elim (fun h => .inr (.inr ⟨k, h, before⟩)) fun h => .inr (.inl h)
      · exact .inl rfl
  · exact held.heldExc v k (turnExc ▸ hv) hk

/-- Settles O24: the master's spur, a member's relay and start, and the receipt of a spur. -/
theorem turnSpur : Obligations.TurnSpur := ⟨masterSpurRule, relayRule, spurReceiptRule⟩

end Sys2Proof.Machine
end

section
/-! PROOF. O25: the head of an arm queue waits or fires (R37, R39, R265, R311). Firing leaves every unit as the queue's step left it. -/

namespace Sys2Proof.Machine

namespace State.UnitsKept

variable {s t : State}

theorem stopWithin (h : s.UnitsKept t) (q : Nat) (st : PartSt) (a o : Nat) : s.UnitsKept (stopWithin q st a o t) :=
  h.trans (stopWithin_unitsKept q st a o t)

theorem touchRun (h : s.UnitsKept t) (c w n : Nat) : s.UnitsKept (touchRun c w n t) := h.trans (touchRun_changed c w n t).unitsKept

theorem touchAll (h : s.UnitsKept t) (c : Nat) (ws : List Nat) (how : CwHow) : s.UnitsKept (touchAll c ws how t) :=
  h.trans (touchAll_changed c ws how t).unitsKept

theorem badDesc (h : s.UnitsKept t) (q c a : Nat) : s.UnitsKept (badDesc q c a t) := ((h.logEvent _).stopWithin q _ _ 0).drew

theorem fireLaunch (h : s.UnitsKept t) (q c a : Nat) : s.UnitsKept (fireLaunch q c a t) := by
  unfold Machine.fireLaunch
  dsimp only
  split
  · exact h
  · exact (h.updCore c _ (putWords_kept _ _)).updPart q _

theorem firePost (h : s.UnitsKept t) (q c a : Nat) : s.UnitsKept (firePost q c a t) := ((h.touchRun c _ _).updCore c _).updPart q _

theorem matrixFault (h : s.UnitsKept t) (q c : Nat) (f : MFault) : s.UnitsKept (matrixFault q c f t) := by
  unfold Machine.matrixFault
  dsimp only
  split
  · exact h.logEvent _
  · exact h.updCore c _

theorem firePass (h : s.UnitsKept t) (q c : Nat) (e : ArmEntry) : s.UnitsKept (firePass q c e t) := by
  have fired := (h.touchRun c (e.handle / 8) 16).updCore c fun x => { x with fireSeq := x.fireSeq + 1 }
  unfold Machine.firePass
  dsimp only
  split
  · exact fired.matrixFault q c _
  · exact fired.updCore c _

theorem fireDrain (h : s.UnitsKept t) (q c : Nat) (e : ArmEntry) : s.UnitsKept (fireDrain q c e t) := by
  have fired := (h.touchRun c (e.handle / 8) 8).updCore c fun x => { x with fireSeq := x.fireSeq + 1 }
  unfold Machine.fireDrain
  dsimp only
  split
  · exact fired.matrixFault q c _
  · exact fired.updCore c _

theorem setVfault_kept (sub : Nat) (addr : Word) (x : Core) : x.Kept (setVfault sub addr x) := by
  unfold setVfault
  split
  · exact .refl x
  · exact ⟨rfl, rfl, rfl, rfl, rfl⟩

theorem fireRun (h : s.UnitsKept t) (c : Nat) (e : ArmEntry) : s.UnitsKept (fireRun c e t) := by
  have fired := (h.touchRun c (e.handle / 8) 16).updCore c fun x => { x with fireSeq := x.fireSeq + 1 }
  unfold Machine.fireRun
  dsimp only
  split
  · exact fired.updCore c _ (setVfault_kept _ _)
  · have read := fired.touchAll c
    split
    · exact (read _ _).updCore c _ (setVfault_kept _ _)
    · exact (read _ _).updCore c _

theorem updMoves (h : s.UnitsKept t) (m : MoverRef) (q : Nat) (f : List MoveJob → List MoveJob) : s.UnitsKept (updMoves m q f t) := by
  cases m with
  | core c => exact h.updCore c _
  | bulk d => exact h.updBulk d q _

theorem fireMove (h : s.UnitsKept t) (m : MoverRef) (q : Nat) (e : ArmEntry) : s.UnitsKept (fireMove m q e t) := by
  unfold Machine.fireMove
  refine updMoves ?_ m q _
  cases m with
  | core c => exact h.updCore c _
  | bulk d => exact h

theorem fireShare (h : s.UnitsKept t) (k q : Nat) (e : ArmEntry) : s.UnitsKept (fireShare k q e t) := h.updReg k q _

theorem fireEntry (h : s.UnitsKept t) (q : Nat) (u : UnitRef) (e : ArmEntry) : s.UnitsKept (fireEntry q u e t) := by
  unfold Machine.fireEntry
  split
  · exact h.firePass q _ e
  · exact h.fireRun _ e
  · have read := h.touchRun
    dsimp only
    split
    · exact (read ..).fireLaunch q _ _
    · exact (read ..).badDesc q _ _
  · have read := h.touchRun
    dsimp only
    split
    · exact (read ..).firePost q _ _
    · exact (read ..).badDesc q _ _
  · exact h.fireMove _ q e
  · exact h.fireMove _ q e
  · exact h.fireDrain q _ e
  · exact h.fireShare _ q e
  · exact h

end State.UnitsKept

/-- The unit whose head entry has fired. -/
def popped (e : ArmEntry) (t : TurnUnit) : TurnUnit := { takeConds e.cond t with queue := t.queue.drop 1 }

/-- What the head of a unit's queue does, s the state once the host's upsets have been applied (R39). -/
theorem exec_armFire {q : PartId} {u : UnitRef} {env : Env} {e : ArmEntry} {rest : List ArmEntry} {s₀ s : State}
    (hs : s = applyUpsets env.upsets s₀) (hq : (unitTu q u s).queue = e :: rest) :
    exec (.armFire q u env) s₀ = .next
      (if (s.part q).st = .running ∧ (s.part q).units.contains u = true ∧ 1 ≤ (unitTu q u s).turn ∧ e.turn ≤ (unitTu q u s).turn ∧
          condsMet (unitTu q u s) e.cond = true ∧ mayFire q u e s = true then
        fireEntry q u e (updTu q u (popped e) s)
      else s) := by
  subst hs
  change execArmFire q u env s₀ = _
  unfold execArmFire
  simp only [hq]
  rfl

theorem popped_eq {e : ArmEntry} {rest : List ArmEntry} {t : TurnUnit} (h : t.queue = e :: rest) :
    popped e t = { takeConds e.cond t with queue := rest } := by
  rw [popped, h]
  rfl

theorem fireShare_spec (k : StackId) (q : Nat) (e : ArmEntry) (s : State) :
    let t := fireShare k q e (updTu q (.reg k) (popped e) s)
    let g := SMap.get Regulator.reset q (s.stack k).regs
    SMap.get Regulator.reset q (t.stack k).regs =
      { g with tu := popped e g.tu, rate := e.rate, burst := e.burst, tokens := min g.tokens (e.burst * 2048) } ∧
    (∀ i, i ≠ k.val → t.stack i = s.stack i) ∧ { t with hbms := s.hbms } = s := by
  refine ⟨?_, fun i hi => ?_, rfl⟩
  · simp [fireShare, updTu, updReg]
  · simp [fireShare, updTu, updReg, State.stack_updStack_ne _ hi]

theorem onlyCore_refl (c : Nat) (s : State) : OnlyCore c s s := ⟨fun _ _ => rfl, rfl⟩

theorem onlyCore_updCore {c : Nat} {s t : State} (h : OnlyCore c s t) (f : Core → Core) : OnlyCore c s (t.updCore c f) :=
  ⟨fun i hi => (State.core_updCore_ne t hi f).trans (h.1 i hi), (State.updCore_reset t c f s.cores).trans h.2⟩

theorem fireMove_core_spec (c : CoreId) (q : Nat) (e : ArmEntry) (s : State) :
    let t := fireMove (.core c) q e (updTu q (.mover c) (popped e) s)
    (t.core c).mtu = popped e (s.core c).mtu ∧ OnlyCore c s t ∧
    ∃ j, (t.core c).jobs.moves = (s.core c).jobs.moves ++ [j] ∧ j.handle = e.handle ∧ j.turn = (s.core c).mtu.turn ∧ j.started = false := by
  have unit : updTu q (.mover c) (popped e) s = s.updCore c fun x => { x with mtu := popped e x.mtu } := rfl
  rw [unit]
  generalize hz : s.updCore c (fun x => { x with mtu := popped e x.mtu }) = z
  have core : z.core c = { s.core c with mtu := popped e (s.core c).mtu } := by rw [← hz, State.core_updCore]
  have fired : fireMove (.core c) q e z = (z.updCore c fun x => { x with fireSeq := x.fireSeq + 1 }).updCore c fun x =>
      { x with jobs := { x.jobs with moves := x.jobs.moves ++
        [MoveJob.given e.handle e.core e.seq (z.core c).fireSeq (z.core c).mtu.turn e.rd e.wr] } } := rfl
  rw [fired]
  have only : OnlyCore c s z := hz ▸ onlyCore_updCore (onlyCore_refl c s) _
  refine ⟨?_, onlyCore_updCore (onlyCore_updCore only _) _, ?_⟩
  · rw [State.core_updCore, State.core_updCore, core]
  · rw [State.core_updCore, State.core_updCore, core]
    exact ⟨_, rfl, rfl, rfl, rfl⟩

theorem fireMove_bulk_spec (d : DieId) (q : Nat) (e : ArmEntry) (s : State) :
    let t := fireMove (.bulk d) q e (updTu q (.bulk d) (popped e) s)
    { t with dies := s.dies } = s ∧ (∀ i, i ≠ d.val → t.die i = s.die i) ∧
    ∃ j, (t.bulkOf d q).moves = (s.bulkOf d q).moves ++ [j] ∧ j.handle = e.handle ∧ j.turn = (s.bulkOf d q).tu.turn ∧ j.started = false := by
  refine ⟨rfl, fun i hi => ?_, ?_⟩
  · simp [fireMove, updTu, updMoves, updBulk, State.die_updDie_ne _ hi]
  · simp [State.bulkOf, fireMove, updTu, updMoves, updBulk, moverTurn, MoveJob.given, popped, takeConds]

theorem passCheck_units (x : Core) (t : TurnUnit) (h : Nat) : passCheck { x with tu := t } h = passCheck x h := rfl

/-- The firing of a pass whose checks pass, on a core whose store holds no error (R212). -/
theorem firePass_joins {c q : Nat} {e : ArmEntry} {z : State} (clean : (z.core c).storeErr = [])
    (ok : passCheck (z.core c) e.handle = none) :
    firePass q c e z = (z.updCore c fun x => { x with fireSeq := x.fireSeq + 1 }).updCore c fun x =>
      { x with jobs := { x.jobs with passes := x.jobs.passes ++
        [PassJob.fired e.seq x.fireSeq x.tu.turn e.handle ((z.core c).words e.handle 16) e.rd] } } := by
  unfold firePass
  rw [touchRun_clean clean]
  dsimp only
  rw [ok]

theorem firePass_spec {c : CoreId} {q : Nat} {e : ArmEntry} {s : State} (clean : (s.core c).storeErr = [])
    (ok : passCheck (s.core c) e.handle = none) :
    let t := firePass q c e (updTu q (.core c) (popped e) s)
    (t.core c).tu = popped e (s.core c).tu ∧ OnlyCore c s t ∧
    ∃ j, (t.core c).jobs.passes = (s.core c).jobs.passes ++ [j] ∧ j.handle = e.handle ∧ j.turn = (s.core c).tu.turn ∧
      j.started = false ∧ j.desc = (s.core c).words e.handle 16 := by
  have unit : updTu q (.core c) (popped e) s = s.updCore c fun x => { x with tu := popped e x.tu } := rfl
  rw [unit]
  generalize hz : s.updCore c (fun x => { x with tu := popped e x.tu }) = z
  have core : z.core c = { s.core c with tu := popped e (s.core c).tu } := by rw [← hz, State.core_updCore]
  rw [firePass_joins (by rw [core]; exact clean) (by rw [core, passCheck_units]; exact ok)]
  have only : OnlyCore c s z := hz ▸ onlyCore_updCore (onlyCore_refl c s) _
  refine ⟨?_, onlyCore_updCore (onlyCore_updCore only _) _, ?_⟩
  · rw [State.core_updCore, State.core_updCore, core]
  · rw [State.core_updCore, State.core_updCore, core]
    exact ⟨_, rfl, rfl, rfl, rfl, rfl⟩

/-- An entry that may fire does. -/
theorem fires_of {q : Nat} {u : UnitRef} {e : ArmEntry} {s : State} (run : (s.part q).st = .running)
    (hu : (s.part q).units.contains u = true) (turn : 1 ≤ (unitTu q u s).turn) (hturn : e.turn ≤ (unitTu q u s).turn)
    (hcond : condsMet (unitTu q u s) e.cond = true) (may : mayFire q u e s = true) (x : State) :
    (if (s.part q).st = .running ∧ (s.part q).units.contains u = true ∧ 1 ≤ (unitTu q u s).turn ∧ e.turn ≤ (unitTu q u s).turn ∧
        condsMet (unitTu q u s) e.cond = true ∧ mayFire q u e s = true then x else s) = x :=
  if_pos ⟨run, hu, turn, hturn, hcond, may⟩

/-- Settles O25: the entry waits, or leaves the queue with its counts; then each kind of action that the statement follows. -/
theorem armFire : Obligations.ArmFire := by
  intro q u env e rest s₀
  dsimp only
  generalize hs : applyUpsets env.upsets s₀ = s
  intro hq run hu turn
  rw [exec_armFire hs.symm hq]
  have pop := popped_eq hq
  refine ⟨fun h => ?waits, fun hturn hcond => ⟨fun may => ?fires, fun k hk kind => ?share, fun c hc kind halt => ?move,
    fun d hd kind => ?bulk, fun c hc kind halt clean few ok => ?pass⟩⟩
  case waits =>
    refine congrArg Host.Outcome.next (if_neg ?_)
    rintro ⟨-, -, -, hturn, hcond, may⟩
    rcases h with h | h | h
    · exact absurd hturn (by omega)
    · rw [hcond] at h
      exact nomatch h
    · rw [may] at h
      exact nomatch h
  all_goals have fires := fires_of run hu turn hturn hcond
  case fires =>
    refine ⟨_, congrArg Host.Outcome.next (fires may _), ?_⟩
    rw [((State.UnitsKept.refl _).fireEntry q u e).unitTu_eq, unitTu_updTu]
    exact pop
  case share =>
    subst hk
    refine ⟨_, congrArg Host.Outcome.next (fires rfl _), ?_⟩
    have action : fireEntry q (.reg k) e = fireShare k q e := by unfold fireEntry; rw [kind]
    obtain ⟨share, others, frame⟩ := fireShare_spec k q e s
    rw [action]
    refine ⟨share.trans ?_, others, frame⟩
    rw [popped_eq (t := (SMap.get Regulator.reset q (s.stack k).regs).tu) hq]
  case move =>
    subst hc
    have action : fireEntry q (.mover c) e = fireMove (.core c) q e := by unfold fireEntry; rw [kind]
    refine ⟨_, congrArg Host.Outcome.next (fires (decide_eq_true halt) _), ?_⟩
    obtain ⟨unit, only, joined⟩ := fireMove_core_spec c q e s
    rw [action]
    exact ⟨unit.trans pop, only, joined⟩
  case bulk =>
    subst hd
    have action : fireEntry q (.bulk d) e = fireMove (.bulk d) q e := by unfold fireEntry; rw [kind]
    refine ⟨_, congrArg Host.Outcome.next (fires rfl _), ?_⟩
    rw [action]
    exact fireMove_bulk_spec d q e s
  case pass =>
    subst hc
    have action : fireEntry q (.core c) e = firePass q c e := by unfold fireEntry; rw [kind]
    have may : mayFire q (.core c) e s = true := by
      unfold mayFire
      simp [halt, kind, few]
    refine ⟨_, congrArg Host.Outcome.next (fires may _), ?_⟩
    obtain ⟨unit, only, joined⟩ := firePass_spec (q := q) clean ok
    rw [action]
    exact ⟨unit.trans pop, only, joined⟩

end Sys2Proof.Machine
end

section
/-! PROOF. O23: a unit's report, and what the last report of a turn does (R41, R42, R60, R427). The monitor reads its table then: the
lines and page tables read change at most their errors and what the accounting of errors changes. -/

namespace Sys2Proof.Machine

/-- The reads of a partition's memory and the numerics monitor's flags leave every core, die, unit and other partition, and of the
partition all but the errors of its page tables and its monitor. -/
structure State.ReadsOnly (q : Nat) (s t : State) : Prop where
  cores : t.cores = s.cores
  dies : t.dies = s.dies
  out : t.out = s.out
  regs : ∀ k, (t.stack k).regs = (s.stack k).regs
  others : ∀ i, i ≠ q → t.part i = s.part i
  part : ∃ e m, t.part q = { s.part q with ptErr := e, mon := m }
  port : ∀ p, { t.port p with notices := (s.port p).notices } = s.port p

namespace State.ReadsOnly

variable {q : Nat} {s t u : State}

theorem refl (q : Nat) (s : State) : ReadsOnly q s s :=
  ⟨rfl, rfl, rfl, fun _ => rfl, fun _ _ => rfl, ⟨_, _, rfl⟩, fun _ => rfl⟩

theorem trans (h : ReadsOnly q s t) (k : ReadsOnly q t u) : ReadsOnly q s u := by
  obtain ⟨e, m, he⟩ := h.part
  obtain ⟨e', m', he'⟩ := k.part
  exact ⟨k.cores.trans h.cores, k.dies.trans h.dies, k.out.trans h.out, fun i => (k.regs i).trans (h.regs i),
    fun i hi => (k.others i hi).trans (h.others i hi), ⟨e', m', by rw [he', he]⟩, fun p => by rw [← h.port p, ← k.port p]⟩

theorem of_parts (hcores : t.cores = s.cores) (hdies : t.dies = s.dies) (hout : t.out = s.out)
    (hregs : ∀ k, (t.stack k).regs = (s.stack k).regs) (hparts : t.parts = s.parts)
    (hport : ∀ p, { t.port p with notices := (s.port p).notices } = s.port p) : ReadsOnly q s t :=
  ⟨hcores, hdies, hout, hregs, fun i _ => State.part_of hparts i, ⟨_, _, State.part_of hparts q⟩, hport⟩

theorem accounted (h : s.Accounted t) : ReadsOnly q s t := 
  of_parts h.cores_eq h.dies_eq h.out_eq h.regs h.parts_eq h.port

theorem chatter (r : Res) (a : Nat) (s : State) : ReadsOnly q s (chatter r a s) := accounted ((State.Accounted.refl s).chatter r a)

theorem chatterUe (r : Res) (a : Nat) (s : State) : ReadsOnly q s (chatterUe r a s) := accounted ((State.Accounted.refl s).chatterUe r a)

theorem updBed (b : Nat) (f : Bed → Bed) (s : State) : ReadsOnly q s (s.updBed b f) := of_parts rfl rfl rfl (fun _ => rfl) rfl (fun p => by cases p <;> rfl)

theorem siteWrite (h : HSite) (l : RawLine) (s : State) : ReadsOnly q s (siteWrite h l s) := by
  cases h with
  | user pa => exact of_parts rfl rfl rfl (fun _ => rfl) rfl (fun p => by cases p <;> rfl)
  | spare k n col =>
    refine of_parts rfl rfl rfl (fun i => ?_) rfl (fun p => by cases p <;> rfl)
    by_cases e : i = k
    · rw [e]
      simp [Machine.siteWrite]
    · exact congrArg Stack.regs (State.stack_updStack_ne s e _)

theorem hbmRead (pa : Nat) (s : State) : ReadsOnly q s (hbmRead pa s).1 := by
  unfold Machine.hbmRead
  dsimp only
  split
  · exact refl q s
  · exact (siteWrite _ _ s).trans (chatter _ _ _)
  · exact (accounted ((State.Accounted.refl s).logEvent _)).trans (chatterUe _ _ _)

theorem ite {p : Prop} [Decidable p] (h : ReadsOnly q s t) (k : ReadsOnly q s u) : ReadsOnly q s (if p then t else u) := by
  split
  · exact h
  · exact k

theorem bedRead (b off : Nat) (s : State) : ReadsOnly q s (bedRead b off s).1 := by
  have found := fun f p [Decidable p] => ite (p := p) ((updBed b f s).trans (chatter (q := q) (bedRes b off) (bedBase b + off) _)) (updBed b f s)
  unfold Machine.bedRead
  dsimp only
  split
  · exact (found _ _).trans (chatterUe _ _ _)
  · exact found _ _

theorem lineRead (pa : Nat) (s : State) : ReadsOnly q s (lineRead pa s).1 := by
  unfold Machine.lineRead
  split
  · exact hbmRead pa s
  · exact bedRead _ _ s
  · exact refl q s

theorem updPart_ptErr (f : SMap Nat → SMap Nat) (s : State) : ReadsOnly q s (s.updPart q fun x => { x with ptErr := f x.ptErr }) :=
  ⟨rfl, rfl, rfl, fun _ => rfl, fun _ hi => State.part_updPart_ne s hi _, ⟨_, _, State.part_updPart s q _⟩, fun p => by cases p <;> rfl⟩

theorem updPart_mon (f : Part → Monitor) (s : State) : ReadsOnly q s (s.updPart q fun x => { x with mon := f x }) :=
  ⟨rfl, rfl, rfl, fun _ => rfl, fun _ hi => State.part_updPart_ne s hi _, ⟨_, _, State.part_updPart s q _⟩, fun p => by cases p <;> rfl⟩

theorem entryRead (l va : Nat) (s : State) : ReadsOnly q s (entryRead q l va s) := by
  unfold Machine.entryRead
  dsimp only
  split
  · exact refl q s
  · exact (updPart_ptErr (SMap.set 0 (peKey l va) 0) s).trans (chatter _ _ _)
  · exact chatterUe _ _ _

theorem walkRead (va : Nat) (w : Bool) (s : State) : ReadsOnly q s (walkRead q va w s).1 := by
  have fold (ls : List Nat) : ∀ z, ReadsOnly q s z → ReadsOnly q s (ls.foldl (fun s l => Machine.entryRead q l va s) z) := by
    induction ls with
    | nil => exact fun _ h => h
    | cons l ls ih => exact fun z h => ih _ (h.trans (entryRead l va z))
  exact fold _ s (refl q s)

theorem peekLines (n va : Nat) (s : State) : ReadsOnly q s (peekLines q n va s).1 := by
  induction n generalizing va s with
  | zero => exact refl q s
  | succ n ih =>
    have walked := walkRead (q := q) va false s
    unfold Machine.peekLines
    generalize Machine.walkRead q va false s = w at walked
    obtain ⟨t, x⟩ := w
    cases x with
    | fail => exact walked
    | ok e =>
      have line := walked.trans (lineRead (e.at va) t)
      dsimp only
      split
      · exact line
      · exact line.trans (ih (va + 64) _)

theorem readTable (s : State) : ReadsOnly q s (readTable q s).1 := by
  have first := peekLines (q := q) 1 (s.part q).mon.montab s
  unfold Machine.readTable
  dsimp only
  generalize Machine.peekLines q 1 (s.part q).mon.montab s = w at first
  obtain ⟨t, h⟩ := w
  cases h with
  | none => exact first
  | some h => exact first.trans (peekLines _ _ t)

theorem monitorTurn (s : State) : ReadsOnly q s (monitorTurn q s) := by
  unfold Machine.monitorTurn
  dsimp only
  exact ite (refl q s) ((readTable s).trans (updPart_mon _ _))

theorem unitsKept (h : ReadsOnly q s t) : s.UnitsKept t := by
  refine ⟨fun c => ?_, fun d i => ?_, fun k i => ?_, fun i => ?_⟩
  · rw [State.core_of h.cores]
    exact .refl _
  · unfold State.bulkOf
    rw [State.die_of h.dies]
  · rw [h.regs]
  · by_cases e : i = q
    · obtain ⟨a, m, hp⟩ := h.part
      rw [e, hp]
    · rw [h.others i e]

end State.ReadsOnly

theorem exec_turnDone_idle {q : PartId} {u : UnitRef} {s : State} (h : unitReady q u s = false) : exec (.turnDone q u) s = .next s :=
  congrArg Host.Outcome.next (if_neg fun ⟨_, _, _, _, _, ready⟩ => by rw [h] at ready; exact nomatch ready)

theorem exec_turnDone_reports {q : PartId} {u : UnitRef} {s : State} (run : (s.part q).st = .running)
    (hu : (s.part q).units.contains u = true) (fresh : (unitTu q u s).done = false) (open' : 1 ≤ (unitTu q u s).turn)
    (turn : (unitTu q u s).turn = (s.part q).turn) (ready : unitReady q u s = true) :
    exec (.turnDone q u) s = .next (completeTurn q (updTu q u (fun t => { t with done := true }) s)) :=
  congrArg Host.Outcome.next (if_pos ⟨run, hu, fresh, open', turn, ready⟩)

/-- A unit of a turn with reports that has reported completes it exactly where every other unit has. -/
theorem turnComplete_updTu {q : Nat} {u : UnitRef} {f : TurnUnit → TurnUnit} {s : State} (hf : (f (unitTu q u s)).done = true)
    (open' : 1 ≤ (s.part q).turn) : turnComplete q (updTu q u f s) = true ↔
      ∀ v, (s.part q).units.contains v = true → v ≠ u → (unitTu q v s).done = true := by
  obtain ⟨g, hg⟩ := updTu_part q u f s
  have units : ((updTu q u f s).part q).units = (s.part q).units := by
    rw [hg]
    rfl
  have turn : ((updTu q u f s).part q).turn ≠ 0 := by
    rw [hg]
    exact Nat.ne_of_gt open'
  rw [turnComplete, units, Bool.or_eq_true, beq_iff_eq, List.all_eq_true]
  refine ⟨fun h v hv ne => ?_, fun h => .inr fun v hv => ?_⟩
  · rw [← unitTu_updTu_ne ne f]
    exact h.resolve_left turn v (List.contains_iff_mem.1 hv)
  · by_cases e : v = u
    · rw [e, unitTu_updTu]
      exact hf
    · rw [unitTu_updTu_ne e]
      exact h v (List.contains_iff_mem.2 hv) e

theorem monitorTurn_idle {q : Nat} {s : State} (h : (s.part q).mon.montab = 0) : monitorTurn q s = s := if_pos h

/-- What a module that is not the master's puts out when the last of its units has reported (R60). -/
def doneOut (q : Nat) (p : Part) : List Output := if p.member = 0 then [] else [.spanDone q p.turn p.units.length]

theorem forwardDone_spec (q : Nat) (s : State) :
    { forwardDone q s with out := s.out } = s ∧ (forwardDone q s).out = s.out ++ doneOut q (s.part q) := by
  unfold forwardDone doneOut
  dsimp only
  split
  · exact ⟨rfl, (List.append_nil _).symm⟩
  · exact ⟨rfl, rfl⟩

/-- What the last report of a turn leaves: the turn's posts closed with its turn end, the count of units sent. -/
structure Completes (q : Nat) (s t : State) : Prop where
  units : s.UnitsKept t
  others : ∀ i, i ≠ q → t.part i = s.part i
  part : ∃ e m, t.part q = closeTurn false { s.part q with ptErr := e, mon := m }
  out : t.out = s.out ++ doneOut q (s.part q)
  rest : (s.part q).mon.montab = 0 → { t with parts := s.parts, out := s.out } = s

theorem completeTurn_completes {q : Nat} {s : State} (h : turnComplete q s = true) : Completes q s (completeTurn q s) := by
  have complete : completeTurn q s = forwardDone q ((monitorTurn q s).updPart q (closeTurn false)) := if_pos h
  have read := State.ReadsOnly.monitorTurn (q := q) s
  obtain ⟨e, m, part⟩ := read.part
  generalize hz : (monitorTurn q s).updPart q (closeTurn false) = z at complete
  have closed : z.part q = closeTurn false { s.part q with ptErr := e, mon := m } := by rw [← hz, State.part_updPart, part]
  have units : s.UnitsKept z := hz ▸ read.unitsKept.updPart q (closeTurn false)
  obtain ⟨frame, out⟩ := forwardDone_spec q z
  have parts : (forwardDone q z).parts = z.parts := (congrArg State.parts frame :)
  rw [complete]
  refine ⟨units.trans (.of_eq (congrArg State.cores frame :) (congrArg State.dies frame :) (fun k => ?_) parts), fun i hi => ?_, ⟨e, m, ?_⟩, ?_, ?_⟩
  · have hbms : (forwardDone q z).hbms = z.hbms := (congrArg State.hbms frame :)
    rw [State.stack_of hbms]
  · rw [State.part_of parts, ← hz, State.part_updPart_ne _ hi, read.others i hi]
  · rw [State.part_of parts, closed]
  · rw [out, closed, ← hz]
    exact congrArg (· ++ _) read.out
  · intro montab
    rw [monitorTurn_idle montab] at hz
    rw [← hz] at frame ⊢
    exact (congrArg (fun t : State => { t with parts := s.parts, out := s.out }) frame :)

/-- Settles O23: a unit that is ready reports; the turn completes with the last report. -/
theorem turnDone : Obligations.TurnDone := by
  intro q u s p n
  refine ⟨exec_turnDone_idle, fun run hu fresh open' turn ready => ⟨_, exec_turnDone_reports run hu fresh open' turn ready, ?_⟩⟩
  have complete := turnComplete_updTu (q := q) (u := u) (f := fun t => { t with done := true }) (s := s) rfl (turn ▸ open')
  have unit := unitTu_updTu q u (fun t => { t with done := true }) s
  have units := fun v (hv : v ≠ u) => unitTu_updTu_ne (q := q) hv (fun t => { t with done := true }) s
  have frame := updTu_frame q u (fun t => { t with done := true }) s
  have others := fun i (hi : i ≠ q.val) => updTu_part_ne hi u (fun t => { t with done := true }) s
  obtain ⟨g, part⟩ := updTu_part q u (fun t => { t with done := true }) s
  generalize updTu q u (fun t => { t with done := true }) s = z at complete unit units frame others part ⊢
  have out : z.out = s.out := (congrArg State.out frame :)
  by_cases all : turnComplete q z = true
  · obtain ⟨kept, others', ⟨e, m, part'⟩, out', rest⟩ := completeTurn_completes all
    generalize completeTurn q z = t at kept others' part' out' rest ⊢
    rw [part] at part' out' rest
    refine ⟨by rw [kept.unitTu_eq, unit], fun v hv => by rw [kept.unitTu_eq, units v hv], ?_, ?_, ?_,
      fun i hi => (others' i hi).trans (others i hi), ?_, fun _ => ⟨?_, fun closed noReplay => ?_, fun record => ?_, fun master => ?_,
        fun member => ?_, fun montab => ?_⟩⟩
    · rw [part']
      exact run
    · rw [part']
      rfl
    · rw [part']
      rfl
    · rintro ⟨v, hv, ne, missing⟩
      rw [complete.1 all v hv ne] at missing
      exact nomatch missing
    · rw [part']
      rfl
    · rw [part']
      exact if_neg (by rw [show p.recd.isOpen = false from closed, show p.replay = none from noReplay]; exact Bool.false_ne_true)
    · rw [part']
      exact ⟨_, if_pos (by rw [show p.recd.isOpen = true from record]; rfl), rfl, rfl⟩
    · rw [out', out, doneOut]
      exact (congrArg (s.out ++ ·) (if_pos master)).trans (List.append_nil _)
    · rw [out', out, doneOut]
      exact congrArg (s.out ++ ·) (if_neg member)
    · have frame' := rest montab
      rw [← frame'] at frame
      exact (congrArg (fun t : State => { t with out := s.out }) frame :)
  · have idle : completeTurn q z = z := if_neg all
    rw [idle, part]
    refine ⟨unit, units, run, rfl, rfl, others, fun _ => ⟨rfl, rfl, rfl, out, frame⟩, fun h => ?_⟩
    exact absurd (complete.2 h) all

end Sys2Proof.Machine
end

section
/-! SUPPORT. Fields of byte strings (R10), and what the host mover's translations, its writes and a vector change of a partition
(R321, R323, R358, R374). -/

namespace Sys2Proof.Machine

theorem take_leBytes (v : Nat) {n k : Nat} (h : n ≤ k) : (leBytes v k).take n = leBytes v n := by
  induction n generalizing v k with
  | zero => rfl
  | succ n ih =>
    obtain ⟨k, rfl⟩ : ∃ j, k = j + 1 := ⟨k - 1, by omega⟩
    rw [leBytes, List.take_succ_cons, ih _ (by omega), leBytes]

/-- A field within the bytes of a number. -/
theorem fieldAt_leBytes (v : Nat) {o n k : Nat} (h : o + n ≤ k) : fieldAt (leBytes v k) o n = v / 256 ^ o % 256 ^ n := by
  obtain ⟨m, rfl⟩ : ∃ m, k = o + m := ⟨k - o, by omega⟩
  rw [fieldAt, drop_leBytes, take_leBytes _ (by omega), leNat_leBytes]

theorem fieldAt_append_left {xs : List Byte} (ys : List Byte) {o n : Nat} (h : o + n ≤ xs.length) :
    fieldAt (xs ++ ys) o n = fieldAt xs o n := by
  rw [fieldAt, fieldAt, List.drop_append_of_le_length (by omega), List.take_append_of_le_length (by rw [List.length_drop]; omega)]

theorem fieldAt_append_right (xs ys : List Byte) {k : Nat} (h : xs.length ≤ k) (n : Nat) :
    fieldAt (xs ++ ys) k n = fieldAt ys (k - xs.length) n := by
  rw [fieldAt, fieldAt, List.drop_append, List.drop_eq_nil_of_le h, List.nil_append]

theorem bitOf_setBit (n i : Nat) : bitOf (setBit n i true) i = true := by
  unfold setBit
  by_cases h : bitOf n i = true
  · rw [if_pos h]
    exact h
  · rw [if_neg h]
    simp only [bitOf, beq_iff_eq, if_true] at h ⊢
    rw [Nat.add_div_right n (Nat.two_pow_pos i)]
    omega

/-! Translations of the host mover (R321, R323). -/

namespace State.ReadsOnly

variable {q : Nat} {s t : State}

theorem updHs (f : Headstock → Headstock) (s : State) : ReadsOnly q s (s.updHs f) := of_parts rfl rfl rfl (fun _ => rfl) rfl (fun p => by cases p <;> rfl)

theorem translate_headstock (va : Nat) (w : Bool) (s : State) : ReadsOnly q s (translate .headstock q va w s).1 := by
  unfold Machine.translate
  dsimp only
  split
  · exact walkRead va w s
  · split
    · exact (updHs _ s).trans ((chatter _ _ _).trans (walkRead va w _))
    · split <;> exact refl q s

theorem hostXlate (va : Nat) (w : Bool) (s : State) : ReadsOnly q s (hostXlate q va w s).1 := by
  have looked : ReadsOnly q s (translateFar .headstock q va w s).1 := by
    unfold Machine.translateFar
    split
    · exact refl q s
    · exact translate_headstock va w s
  unfold Machine.hostXlate
  generalize Machine.translateFar .headstock q va w s = x at looked
  obtain ⟨z, x⟩ := x
  cases x with
  | fail => exact looked
  | ok e =>
    refine looked.trans ?_
    dsimp only
    unfold Machine.tlbInstall
    exact ite (refl q z) (updHs (fun x => { x with tlb := _, tlbErr := _ }) z)

theorem moverX (w : Bool) (k va n : Nat) (s : State) : ReadsOnly q s (moverX q w k va n s).1 := by
  induction k generalizing va n s with
  | zero => exact refl q s
  | succ k ih =>
    have page := hostXlate (q := q) va w s
    unfold Machine.moverX
    split
    · exact refl q s
    · dsimp only
      generalize Machine.hostXlate q va w s = x at page
      obtain ⟨z, x⟩ := x
      cases x with
      | ok e => exact page.trans (ih _ _ z)
      | fail => exact page

end State.ReadsOnly

/-- A walk depends on its partition's tables, their errors and its quotas alone. -/
theorem walkFrom_congr {q va n : Nat} {w : Bool} {x y : Part} (pt : y.pt = x.pt) (err : y.ptErr = x.ptErr) (bed : y.bedAt = x.bedAt) :
    walkFrom q y va w n = walkFrom q x va w n := by
  have quota (i : Nat) : y.quotaPage i = x.quotaPage i := by unfold Part.quotaPage; rw [bed]
  have page (k : Nat) : tablePage q y k = tablePage q x k := by
    unfold tablePage
    simp only [bed, quota]
  have addr (l : Nat) : peAddr q y l va = peAddr q x l va := by
    unfold peAddr tableAddr
    rw [page]
  induction n with
  | zero => rfl
  | succ l ih => simp only [walkFrom, pt, err, addr, ih]

/-- The host mover's translation of an address depends on the headstock's TLB and its partition's tables alone. -/
theorem hostXlate_congr {q va : Nat} {w : Bool} {s t : State} (hs : t.hs = s.hs) (pt : (t.part q).pt = (s.part q).pt)
    (err : (t.part q).ptErr = (s.part q).ptErr) (bed : (t.part q).bedAt = (s.part q).bedAt) :
    (hostXlate q va w t).2 = (hostXlate q va w s).2 := by
  have far (z : State) : (hostXlate q va w z).2 = (translateFar .headstock q va w z).2 := by
    unfold hostXlate
    generalize translateFar .headstock q va w z = x
    obtain ⟨z, x⟩ := x
    cases x <;> rfl
  have tlb : tlbOf .headstock t = tlbOf .headstock s := by unfold tlbOf; rw [hs]
  have walked (z : State) (r : Res) (a : Nat) (l : List TlbEntry) :
      (walkRead q va w (chatter r a (setTlb .headstock l false z))).2 = walkFrom q (z.part q) va w 4 := by
    have parts : (chatter r a (setTlb .headstock l false z)).parts = z.parts := ((State.Accounted.refl _).chatter r a).parts_eq
    exact congrArg (fun x => walkFrom q x va w 4) (State.part_of parts q)
  rw [far, far]
  unfold translateFar translate
  dsimp only
  rw [tlb]
  split
  · rfl
  · split
    · exact walkFrom_congr pt err bed
    · split
      · rw [walked, walked]
        exact walkFrom_congr pt err bed
      · split <;> rfl

/-! Writes of the host mover, completions and vectors. -/

/-- What the host mover's writes and a vector leave of a partition that replays nothing; they put things out. -/
structure State.SendsOnly (q : Nat) (s t : State) : Prop where
  out : s.out <+: t.out
  part : ∃ e m, t.part q = { s.part q with ptErr := e, mon := m }

namespace State.SendsOnly

variable {q : Nat} {s t u : State}

theorem refl (q : Nat) (s : State) : SendsOnly q s s := ⟨List.prefix_rfl, _, _, rfl⟩

theorem trans (h : SendsOnly q s t) (k : SendsOnly q t u) : SendsOnly q s u := by
  obtain ⟨e, m, he⟩ := h.part
  obtain ⟨e', m', he'⟩ := k.part
  exact ⟨h.out.trans k.out, e', m', by rw [he', he]⟩

theorem of_reads (h : s.ReadsOnly q t) : SendsOnly q s t := ⟨by rw [h.out], h.part⟩

theorem of_parts (hout : s.out <+: t.out) (hparts : t.parts = s.parts) : SendsOnly q s t := ⟨hout, _, _, State.part_of hparts q⟩

theorem emit (o : Output) (s : State) : SendsOnly q s (s.emit o) := of_parts (List.prefix_append ..) rfl

theorem updPort (p : PortId) (f : Port → Port) (s : State) : SendsOnly q s (s.updPort p f) :=
  of_parts (by rw [State.updPort_out]) (State.updPort_parts ..)

theorem msix (p : PortId) (v : Nat) (s : State) : SendsOnly q s (msix p v s) := by
  unfold Machine.msix
  split
  · exact updPort p _ s
  · exact emit _ s

theorem noReplay (h : SendsOnly q s t) (k : (s.part q).replay = none) : (t.part q).replay = none := by
  obtain ⟨e, m, hp⟩ := h.part
  rw [hp]
  exact k

theorem submit {r : MemReq} (h : (s.part r.part).replay = none) : SendsOnly q s (submit r s) := by
  have emits (l : List (Nat × List Byte)) (p : PortId) : ∀ z, SendsOnly q s z →
      SendsOnly q s (l.foldl (fun s e => s.emit (.hostWrite p e.1 e.2)) z) := by
    induction l with
    | nil => exact fun _ h => h
    | cons e l ih => exact fun z h => ih _ (h.trans (emit _ z))
  unfold Machine.submit
  split
  · exact of_parts List.prefix_rfl rfl
  · exact of_parts List.prefix_rfl rfl
  · split
    · exact refl q s
    · rw [if_neg (by rw [h]; exact Bool.false_ne_true)]
      exact emits _ _ s (refl q s)
  · exact refl q s

theorem hostMoverWrite (k va : Nat) (bs : List Byte) (s : State) (h : (s.part q).replay = none) :
    SendsOnly q s (hostMoverWrite q k va bs s) := by
  induction k generalizing va bs s with
  | zero => exact refl q s
  | succ k ih =>
    have page := of_reads (State.ReadsOnly.hostXlate (q := q) va true s)
    unfold Machine.hostMoverWrite
    split
    · exact refl q s
    · dsimp only
      refine trans ?step (ih _ _ _ (noReplay ?step h))
      generalize Machine.hostXlate q va true s = x at page
      obtain ⟨z, x⟩ := x
      cases x with
      | fail => exact page
      | ok e =>
        dsimp only
        split
        · exact page.trans (emit _ z)
        · exact page.trans (submit (page.noReplay h))

end State.SendsOnly

end Sys2Proof.Machine
end

section
/-! PROOF. O45: the oldest post with its submission entry, and one without (R58, R374, R375). -/

namespace Sys2Proof.Machine

/-- The bytes of a completion entry (R375). -/
def completionBytes (q n : Nat) (y : Stream) (cstat len : Nat) (user : Word) (sub turn : Nat) : List Byte :=
  leBytes user.toNat 8 ++ leBytes (b2n (y.cqCount / y.entries % 2 = 0) * 2 ^ 63 + cstat % 256 * 2 ^ 40 + len % 2 ^ 32) 8
    ++ leBytes (sub % 65536 * 2 ^ 48 + turn % 2 ^ 48) 8 ++ leBytes (n % 64 * 16 + q % 16) 8

theorem completionBytes_fields (q n : Nat) (y : Stream) {cstat : Nat} (hc : cstat < 256) (len : Nat) (user : Word) (sub turn : Nat) :
    let w := completionBytes q n y cstat len user sub turn
    w.length = 32 ∧ fieldAt w 0 8 = user.toNat ∧ fieldAt w 8 4 = len % 2 ^ 32 ∧ fieldAt w 13 1 = cstat ∧
    fieldAt w 22 2 = sub % 2 ^ 16 ∧ bitOf (fieldAt w 8 8) 63 = decide (y.cqCount / y.entries % 2 = 0) := by
  have cell (a b c d : Nat) : (leBytes a 8 ++ leBytes b 8 ++ leBytes c 8 ++ leBytes d 8).length = 32 ∧
      (∀ m, m ≤ 8 → fieldAt (leBytes a 8 ++ leBytes b 8 ++ leBytes c 8 ++ leBytes d 8) 0 m = a % 256 ^ m) ∧
      (∀ o m, o + m ≤ 8 → fieldAt (leBytes a 8 ++ leBytes b 8 ++ leBytes c 8 ++ leBytes d 8) (8 + o) m = b / 256 ^ o % 256 ^ m) ∧
      (∀ o m, o + m ≤ 8 → fieldAt (leBytes a 8 ++ leBytes b 8 ++ leBytes c 8 ++ leBytes d 8) (16 + o) m = c / 256 ^ o % 256 ^ m) := by
    refine ⟨by simp, fun m hm => ?_, fun o m hm => ?_, fun o m hm => ?_⟩ <;> simp only [List.append_assoc]
    · rw [fieldAt_append_left _ (by rw [length_leBytes]; omega), fieldAt_leBytes _ (by omega), pow_zero, Nat.div_one]
    · rw [fieldAt_append_right _ _ (by rw [length_leBytes]; omega), length_leBytes, Nat.add_sub_cancel_left,
        fieldAt_append_left _ (by rw [length_leBytes]; omega), fieldAt_leBytes _ (by omega)]
    · rw [fieldAt_append_right _ _ (by rw [length_leBytes]; omega), length_leBytes,
        fieldAt_append_right _ _ (by rw [length_leBytes]; omega), length_leBytes, fieldAt_append_left _ (by rw [length_leBytes]; omega),
        fieldAt_leBytes _ (by omega)]
      congr 3
      omega
  intro w
  obtain ⟨length, first, second, third⟩ := cell user.toNat
    (b2n (y.cqCount / y.entries % 2 = 0) * 2 ^ 63 + cstat % 256 * 2 ^ 40 + len % 2 ^ 32) (sub % 65536 * 2 ^ 48 + turn % 2 ^ 48) (n % 64 * 16 + q % 16)
  have phase : b2n (y.cqCount / y.entries % 2 = 0) ≤ 1 := by unfold b2n; split <;> omega
  refine ⟨length, (first 8 (by omega)).trans ?_, (second 0 4 (by omega)).trans ?_, (second 5 1 (by omega)).trans ?_,
    (third 6 2 (by omega)).trans ?_, ?_⟩
  · exact Nat.mod_eq_of_lt (by have := user.isLt; omega)
  · omega
  · omega
  · omega
  · rw [show fieldAt w 8 8 = _ from second 0 8 (by omega), bitOf]
    unfold b2n
    by_cases h : y.cqCount / y.entries % 2 = 0 <;> simp [h] <;> omega

/-- A completion entry goes out to its ring, its stream counts it, and of its partition nothing else changes (R375). -/
theorem putCompletion_spec {q n : Nat} {y : Stream} {s : State} (h : (s.part q).stream n = some y) (cstat len : Nat) (user : Word)
    (sub turn : Nat) : let t := putCompletion q n cstat len user sub turn s
    (t.part q).stream n = some { y with cqCount := y.cqCount + 1 } ∧ (t.part q).postQ = (s.part q).postQ ∧
    s.out <+: t.out ∧
    .hostWrite (s.part q).owner (y.cqIova + 32 * (y.cqCount % y.entries)) (completionBytes q n y cstat len user sub turn) ∈ t.out := by
  have eq : putCompletion q n cstat len user sub turn s = msix (s.part q).owner y.vector
      (updStream q n (fun y => { y with cqCount := y.cqCount + 1 }) (s.emit (.hostWrite (s.part q).owner
        (y.cqIova + 32 * (y.cqCount % y.entries)) (completionBytes q n y cstat len user sub turn)))) := by
    unfold putCompletion
    rw [h]
    rfl
  rw [eq]
  generalize hz : s.emit (.hostWrite (s.part q).owner (y.cqIova + 32 * (y.cqCount % y.entries))
    (completionBytes q n y cstat len user sub turn)) = z
  have part : z.part q = s.part q := by rw [← hz]; rfl
  have out : z.out = s.out ++ [.hostWrite (s.part q).owner (y.cqIova + 32 * (y.cqCount % y.entries))
    (completionBytes q n y cstat len user sub turn)] := by rw [← hz]; rfl
  have sent := State.SendsOnly.msix (q := q) (s.part q).owner y.vector (updStream q n (fun y => { y with cqCount := y.cqCount + 1 }) z)
  obtain ⟨e, m, hp⟩ := sent.part
  have outs : z.out <+: (msix (s.part q).owner y.vector (updStream q n (fun y => { y with cqCount := y.cqCount + 1 }) z)).out := sent.out
  rw [out] at outs
  dsimp only
  rw [hp]
  refine ⟨?_, ?_, (List.prefix_append ..).trans outs, outs.subset (by simp)⟩
  · change SMap.get none n ((updStream q n _ z).part q).streams = _
    rw [updStream, State.part_updPart, part, SMap.get_upd, show SMap.get none n (s.part q).streams = some y from h]
    rfl
  · rw [updStream, State.part_updPart, part]

/-- A post that has left the queue: its partition has it no more, and its core's range is free again (R373). -/
def postDone (q : Nat) (p : Part) (lcore : Nat) (s : State) : State :=
  dropPosted p lcore (s.updPart q fun p => { p with postQ := p.postQ.drop 1 })

theorem postDone_frame (q : Nat) (p : Part) (lcore : Nat) (s : State) :
    (postDone q p lcore s).part q = { s.part q with postQ := (s.part q).postQ.drop 1 } ∧
    { postDone q p lcore s with parts := s.parts, cores := s.cores } = s := by
  unfold postDone dropPosted
  split
  · exact ⟨by rw [State.part_updCore, State.part_updPart], rfl⟩
  · exact ⟨State.part_updPart .., rfl⟩

theorem exec_postCompletion_go {q : PartId} {o : Post} {rest : List Post} {y : Stream} {d : StreamDecl} {e : HostReply} {s : State}
    (hq : (s.part q).postQ = o :: rest) (noReplay : (s.part q).replay = none) (hy : (s.part q).stream o.stream = some y)
    (hd : (s.part q).decl o.stream = some d) (waiting : y.taken < y.sqTail) (go : (postX q o e s).2 = .go) :
    exec (.postCompletion q e) s = .next (finishPost q o y d e (postDone q (s.part q) o.lcore (postX q o e s).1)) := by
  change execPostCompletion q e s = _
  unfold execPostCompletion completePost
  rw [hq]
  dsimp only
  rw [if_neg (by rw [noReplay]; exact Bool.false_ne_true), hy, hd]
  dsimp only
  rw [if_pos waiting]
  generalize postX q o e s = x at go ⊢
  obtain ⟨z, x⟩ := x
  subst go
  rfl

theorem exec_postCompletion_noBuf {q : PartId} {o : Post} {rest : List Post} {y : Stream} {d : StreamDecl} (e : HostReply) {s : State}
    (hq : (s.part q).postQ = o :: rest) (noReplay : (s.part q).replay = none) (hy : (s.part q).stream o.stream = some y)
    (hd : (s.part q).decl o.stream = some d) (none_waits : y.sqTail ≤ y.taken) :
    exec (.postCompletion q e) s = .next (portErr (s.part q).owner (fun x => { x with noBuf := bump16 x.noBuf })
      (postDone q (s.part q) o.lcore s)) := by
  change execPostCompletion q e s = _
  unfold execPostCompletion completePost
  rw [hq]
  dsimp only
  rw [if_neg (by rw [noReplay]; exact Bool.false_ne_true), hy, hd]
  dsimp only
  rw [if_neg (by omega)]
  rfl

/-- A post whose entry keeps to the rules: its bytes are written, then its completion (R374). -/
theorem finishPost_writes {q : Nat} {o : Post} {y : Stream} {d : StreamDecl} {bs : List Byte} {w : Window} {s : State}
    (hd : d.output = true) (len : bs.length = 32) (clear : (subEntry bs).clear = true) (some_len : 1 ≤ (subEntry bs).len)
    (hw : (s.part q).windowOf (subEntry bs).buf (subEntry bs).len = some w) (writable : w.writable = true) :
    finishPost q o y d (.data bs) s = putCompletion q o.stream
      (if o.poison then csPoison else if (o.bytes.take (subEntry bs).len).length < o.bytes.length then csTruncated else csOk)
      (o.bytes.take (subEntry bs).len).length (subEntry bs).user y.taken o.turn
      (hostMoverWrite q ((o.bytes.take (subEntry bs).len).length / 64 + 2) (w.dva + ((subEntry bs).buf - w.iova))
        (o.bytes.take (subEntry bs).len) (updStream q o.stream (fun z => { z with taken := y.taken + 1 }) s)) := by
  have pad : padTo 32 bs = bs := by rw [padTo, List.take_of_length_le (by omega), len]; simp
  have window : ((updStream q o.stream (fun z => { z with taken := y.taken + 1 }) s).part q).windowOf (subEntry bs).buf (subEntry bs).len =
      some w := by
    rw [updStream, State.part_updPart]
    exact hw
  unfold finishPost
  dsimp only
  rw [pad, window]
  dsimp only
  rw [if_neg (by simp [clear, writable, hd]; omega)]

/-- Bytes that lie in one line whose page is the host's go out to the host. -/
theorem hostMoverWrite_line {q k va iova : Nat} {bs : List Byte} {r : PortId} {e : TlbEntry} {s : State} (some_bytes : bs ≠ [])
    (line : bs.length ≤ 64 - va % 64) (ok : (hostXlate q va true s).2 = .ok e) (loc : locate (e.at va) = .host r iova) :
    .hostWrite r iova bs ∈ (hostMoverWrite q (k + 2) va bs s).out := by
  have all : min (64 - va % 64) bs.length = bs.length := min_eq_right line
  have done (va : Nat) (z : State) : hostMoverWrite q (k + 1) va [] z = z := rfl
  generalize hx : hostXlate q va true s = x at ok
  obtain ⟨z, x⟩ := x
  subst ok
  have step : hostMoverWrite q (k + 2) va bs s = z.emit (.hostWrite r iova bs) := by
    rw [hostMoverWrite, if_neg (by simpa using some_bytes), hx, all]
    dsimp only
    rw [List.drop_length, List.take_length, done, loc]
  rw [step]
  exact List.mem_append_right _ (List.mem_singleton.2 rfl)

theorem postX_readsOnly (q : Nat) (o : Post) (bs : List Byte) (s : State) : s.ReadsOnly q (postX q o (.data bs) s).1 := by
  unfold postX
  dsimp only
  split
  · split
    · exact State.ReadsOnly.moverX ..
    · exact .refl q s
  · exact .refl q s

/-- The oldest post with an entry that keeps to the rules (R374, R375). -/
theorem post_completes {q : PartId} {o : Post} {rest : List Post} {y : Stream} {d : StreamDecl} {bs : List Byte} {w : Window} {s : State}
    (hq : (s.part q).postQ = o :: rest) (noReplay : (s.part q).replay = none) (hy : (s.part q).stream o.stream = some y)
    (hd : d.output = true) (fetch : y.fetch = none) (len : bs.length = 32)
    (clear : (subEntry bs).clear = true) (some_len : 1 ≤ (subEntry bs).len)
    (hw : (s.part q).windowOf (subEntry bs).buf (subEntry bs).len = some w) (writable : w.writable = true) :
    let t := finishPost q o y d (.data bs) (postDone q (s.part q) o.lcore (postX q o (.data bs) s).1)
    (t.part q).postQ = rest ∧
      Completed q o.stream y (subEntry bs).user (min (subEntry bs).len o.bytes.length)
        (if o.poison then 4 else if (subEntry bs).len < o.bytes.length then 1 else 0) y.taken s t ∧
      (let va := w.dva + ((subEntry bs).buf - w.iova)
       let out := o.bytes.take (subEntry bs).len
       ∀ e r iova, out ≠ [] → out.length ≤ 64 - va % 64 → (hostXlate q va true (postX q o (.data bs) s).1).2 = .ok e → locate (e.at va) = .host r iova →
        .hostWrite r iova out ∈ t.out) := by
  have read := postX_readsOnly q o bs s
  generalize (postX q o (.data bs) s).1 = z at read ⊢
  obtain ⟨pe, pm, zpart⟩ := read.part
  obtain ⟨dpart, dframe⟩ := postDone_frame q (s.part q) o.lcore z
  generalize postDone q (s.part q) o.lcore z = u at dpart dframe ⊢
  rw [zpart, hq] at dpart
  rw [finishPost_writes hd len clear some_len (by rw [dpart]; exact hw) writable]
  generalize hv : updStream q o.stream (fun z => { z with taken := y.taken + 1 }) u = v
  have vpart : v.part q = { u.part q with streams := SMap.upd none o.stream (fun x => x.map fun z => { z with taken := y.taken + 1 }) (u.part q).streams } := by
    rw [← hv, updStream, State.part_updPart]
  rw [dpart] at vpart
  have vhs : v.hs = z.hs := by rw [← hv]; exact (congrArg State.hs dframe :)
  have vreplay : (v.part q).replay = none := by rw [vpart]; exact noReplay
  have written := State.SendsOnly.hostMoverWrite (q := q) ((o.bytes.take (subEntry bs).len).length / 64 + 2)
    (w.dva + ((subEntry bs).buf - w.iova)) (o.bytes.take (subEntry bs).len) v vreplay
  obtain ⟨we, wm, wpart⟩ := written.part
  have line := fun (e r iova) some_bytes fits ok loc =>
    hostMoverWrite_line (q := q) (k := (o.bytes.take (subEntry bs).len).length / 64) (va := w.dva + ((subEntry bs).buf - w.iova))
      (bs := o.bytes.take (subEntry bs).len) (s := v) (r := r) (e := e) (iova := iova) some_bytes fits ok loc
  generalize hostMoverWrite q _ _ (o.bytes.take (subEntry bs).len) v = x at written wpart line ⊢
  rw [vpart] at wpart
  have stream : (x.part q).stream o.stream = some { y with taken := y.taken + 1 } := by
    rw [wpart]
    change SMap.get none o.stream (SMap.upd none o.stream _ (s.part q).streams) = _
    rw [SMap.get_upd, show SMap.get none o.stream (s.part q).streams = some y from hy]
    rfl
  have length : (o.bytes.take (subEntry bs).len).length = min (subEntry bs).len o.bytes.length := List.length_take
  rw [length]
  have status : (if o.poison = true then csPoison else if min (subEntry bs).len o.bytes.length < o.bytes.length then csTruncated else csOk) =
      if o.poison = true then 4 else if (subEntry bs).len < o.bytes.length then 1 else 0 := by
    exact if_congr Iff.rfl rfl (if_congr (by omega) rfl rfl)
  rw [status]
  generalize hc : (if o.poison = true then 4 else if (subEntry bs).len < o.bytes.length then 1 else 0) = cstat
  have small : cstat < 256 := by rw [← hc]; split <;> [omega; (split <;> omega)]
  obtain ⟨done, queue, outs, entry⟩ := putCompletion_spec stream cstat (min (subEntry bs).len o.bytes.length) (subEntry bs).user y.taken o.turn
  refine ⟨queue.trans (by rw [wpart]; rfl), ⟨⟨_, done, rfl, rfl, fetch⟩, _, ?_, completionBytes_fields q o.stream y small _ _ _ o.turn⟩, ?_⟩
  · rw [wpart] at entry
    exact entry
  · intro va out e r iova some_bytes fits ok loc
    refine outs.subset (line e r iova some_bytes fits ?_ loc)
    rw [← ok]
    refine hostXlate_congr vhs ?_ ?_ ?_ <;> rw [vpart, zpart]

/-- A post without an entry counts NO_BUF, with vector 7 where the counter goes on (R358, R359). -/
theorem noBuf_counted (p : PortId) (s : State) :
    let t := portErr p (fun x => { x with noBuf := bump16 x.noBuf }) s
    t.parts = s.parts ∧ Counted p (s.port p).noBuf (t.port p).noBuf s t := by
  dsimp only
  unfold portErr
  by_cases top : { s.port p with noBuf := bump16 (s.port p).noBuf } = s.port p
  · have held : bump16 (s.port p).noBuf = (s.port p).noBuf := (congrArg Port.noBuf top :)
    rw [if_pos top]
    refine ⟨rfl, held.symm, fun below => ?_⟩
    unfold bump16 at held
    omega
  · rw [if_neg top, raiseVector]
    generalize hz : (s.updPort p fun x => { x with noBuf := bump16 x.noBuf }).updPort p
      (fun x => { x with intCause := setBit x.intCause 7 true }) = z
    have port : z.port p = { s.port p with noBuf := bump16 (s.port p).noBuf, intCause := setBit (s.port p).intCause 7 true } := by
      rw [← hz, State.port_updPort, State.port_updPort]
    have parts : z.parts = s.parts := by rw [← hz, State.updPort_parts, State.updPort_parts]
    have sends : (z.port p).sends 7 = (s.port p).sends 7 := by rw [port]; rfl
    unfold msix
    rw [sends]
    by_cases h : (s.port p).sends 7 = true
    · rw [if_neg (by simp [h])]
      have same : (z.emit (.msix p 7)).port p = z.port p := by cases p <;> rfl
      refine ⟨parts, by rw [same, port], fun _ => ⟨?_, fun _ => List.mem_append_right _ (List.mem_singleton.2 rfl), fun k => ?_⟩⟩
      · rw [same, port]
        exact bitOf_setBit ..
      · rw [h] at k
        exact nomatch k
    · rw [if_pos (by simp [h])]
      refine ⟨(State.updPort_parts ..).trans parts, ?_, fun _ => ⟨?_, fun k => absurd k h, fun _ => ?_⟩⟩ <;> rw [State.port_updPort, port]
      · exact bitOf_setBit ..
      · exact bitOf_setBit ..

/-- Settles O45: the post whose entry keeps to the rules, and the post without an entry. -/
theorem outputPost : Obligations.OutputPost := by
  intro q o rest y d bs s hq noReplay hy hd
  refine ⟨fun w output waiting fetch len clear some_len hw writable go =>
    ⟨_, exec_postCompletion_go hq noReplay hy hd waiting go, post_completes hq noReplay hy output fetch len clear some_len hw writable⟩,
    fun none_waits e => ⟨_, exec_postCompletion_noBuf e hq noReplay hy hd none_waits, ?_⟩⟩
  obtain ⟨part, frame⟩ := postDone_frame q (s.part q) o.lcore s
  generalize postDone q (s.part q) o.lcore s = z at part frame ⊢
  have port : z.port (s.part q).owner = s.port (s.part q).owner := by
    cases (s.part q).owner
    · exact (congrArg State.portA frame :)
    · exact (congrArg State.portB frame :)
  obtain ⟨parts, counted, signal⟩ := noBuf_counted (s.part q).owner z
  rw [State.part_of parts, part, hq]
  rw [port] at counted signal
  refine ⟨rfl, hy, counted, fun below => ?_⟩
  obtain ⟨cause, sent, pends⟩ := signal below
  rw [port] at sent pends
  exact ⟨cause, sent, pends⟩

end Sys2Proof.Machine
end

section
/-! SUPPORT. A mailbox command that is carried out (R365): its answer, and what it leaves of its port. -/

namespace Sys2Proof.Machine

/-- Of a port nothing differs that a command's end depends on: configuration, vectors, mailboxes and staged images. -/
structure Port.FrontKept (x y : Port) : Prop where
  cfg : y.cfg = x.cfg
  msix : y.msix = x.msix
  mbx : y.mbx = x.mbx
  staged : y.staged = x.staged

theorem Port.FrontKept.refl (x : Port) : x.FrontKept x := ⟨rfl, rfl, rfl, rfl⟩

theorem Port.FrontKept.trans {x y z : Port} (h : x.FrontKept y) (k : y.FrontKept z) : x.FrontKept z :=
  ⟨k.cfg.trans h.cfg, k.msix.trans h.msix, k.mbx.trans h.mbx, k.staged.trans h.staged⟩

theorem Port.FrontKept.sends {x y : Port} (h : x.FrontKept y) (v : Nat) : y.sends v = x.sends v := by
  unfold Port.sends
  rw [h.cfg, h.msix]

theorem mbx_of_port {p : PortId} {s t : State} (h : (t.port p).mbx = (s.port p).mbx) (m : Nat) : t.mbx p m = s.mbx p m := by
  unfold State.mbx
  rw [h]

/-- A vector with its cause bit, from a state with the port's mask and table as before (R358). -/
theorem raiseVector_signalled {p : PortId} {v : Nat} {s z : State} (h : (z.port p).sends v = (s.port p).sends v) :
    Signalled p v s (raiseVector p v z) ∧
    (∃ c a, (raiseVector p v z).port p = { z.port p with intCause := c, pba := a }) ∧
    (raiseVector p v z).port (otherPort p) = z.port (otherPort p) ∧
    ((raiseVector p v z).out = z.out ∨ (raiseVector p v z).out = z.out ++ [.msix p v]) ∧
    { raiseVector p v z with portA := z.portA, portB := z.portB, out := z.out } = z := by
  unfold raiseVector msix
  generalize hy : z.updPort p (fun x => { x with intCause := setBit x.intCause v true }) = y
  have port : y.port p = { z.port p with intCause := setBit (z.port p).intCause v true } := by rw [← hy, State.port_updPort]
  have rest : y.port (otherPort p) = z.port (otherPort p) := by rw [← hy, State.port_otherPort_updPort]
  have out : y.out = z.out := by rw [← hy, State.updPort_out]
  have frame : { y with portA := z.portA, portB := z.portB } = z := by
    rw [← hy]
    exact State.updPort_frame ..
  have sends : (y.port p).sends v = (s.port p).sends v := by rw [port, ← h]; rfl
  rw [sends]
  by_cases e : (s.port p).sends v = true
  · rw [if_neg (by simp [e])]
    have same (i : PortId) : (y.emit (.msix p v)).port i = y.port i := by cases i <;> rfl
    refine ⟨⟨?_, fun _ => List.mem_append_right _ (List.mem_singleton.2 rfl), fun k => ?_⟩, ⟨setBit (z.port p).intCause v true, (z.port p).pba, ?_⟩, ?_, .inr ?_, ?_⟩
    · rw [same, port]
      exact bitOf_setBit ..
    · rw [e] at k
      exact nomatch k
    · rw [same, port]
    · rw [same, rest]
    · exact congrArg (· ++ _) out
    · exact (congrArg (fun t : State => { t with out := z.out }) frame :)
  · rw [if_pos (by simp [e])]
    refine ⟨⟨?_, fun k => absurd k e, fun _ => ?_⟩, ⟨setBit (z.port p).intCause v true, setBit (z.port p).pba v true, ?_⟩, ?_, .inl ?_, ?_⟩
    · rw [State.port_updPort, port]
      exact bitOf_setBit ..
    · rw [State.port_updPort, port]
      exact bitOf_setBit ..
    · rw [State.port_updPort, port]
    · rw [State.port_otherPort_updPort, rest]
    · rw [State.updPort_out, out]
    · have pend := State.updPort_frame p (fun x => { x with pba := setBit x.pba v true }) y
      rw [← pend] at frame
      exact (congrArg (fun t : State => { t with out := z.out }) frame :)

/-! Mailboxes. -/

theorem onlyBox_trans {p : PortId} {m : Nat} {s t u : State} (h : OnlyBox p m s t) (out : t.out = s.out) (k : OnlyBox p m t u) :
    OnlyBox p m s u := by
  obtain ⟨port, boxes, other, -, rest⟩ := h
  obtain ⟨port', boxes', other', out', rest'⟩ := k
  refine ⟨?_, fun i hi => (boxes' i hi).trans (boxes i hi), other'.trans other, by rw [← out]; exact out', ?_⟩
  · rw [← port, ← port']
  · rw [← rest, ← rest']

theorem onlyBox_withParts {p : PortId} {m : Nat} {s t : State} (h : OnlyBox p m s t) (l : SMap Part) :
    OnlyBox p m { s with parts := l } { t with parts := l } := by
  obtain ⟨port, boxes, other, out, rest⟩ := h
  exact ⟨port, boxes, other, out, (congrArg (fun z : State => { z with parts := l }) rest :)⟩

theorem onlyBox_withFree {p : PortId} {m : Nat} {s t : State} (h : OnlyBox p m s t) (n : Nat) :
    OnlyBox p m { s with free := n } { t with free := n } := by
  obtain ⟨port, boxes, other, out, rest⟩ := h
  exact ⟨port, boxes, other, out, (congrArg (fun z : State => { z with free := n }) rest :)⟩

theorem onlyBox_updMbx (p : PortId) (m : Nat) (f : Mbx → Mbx) (s : State) : OnlyBox p m s (s.updMbx p m f) := by
  refine ⟨?_, fun i hi => State.mbx_updMbx_ne _ p hi f, State.port_otherPort_updPort .., .inl (State.updMbx_out ..), ?_⟩
  · cases p <;> rfl
  · cases p <;> rfl

/-- A mailbox whose command has ended with its answer (R365). -/
def Mbx.answered (r : MbxResult) (b : Mbx) : Mbx :=
  let c := b.command
  { b with
    resp := b.resp.write 0 (leBytes c.op 2 ++ leBytes r.data.length 2 ++ leBytes r.status 1 ++ leBytes 0 3 ++ leBytes c.tag 8
      ++ leBytes b.seq 4 ++ List.replicate 12 0 ++ r.data)
    lastStat := r.status
    abandoned := false
    state := if r.status = stOk then 2 else 3
    result := none }

/-- The end of a command changes its mailbox and raises its vector, and nothing else. -/
theorem completeMailbox_spec {p : PortId} {m : Nat} {s z : State} (r : MbxResult) (h : (z.port p).sends m = (s.port p).sends m) :
    (completeMailbox p m r z).mbx p m = (z.mbx p m).answered r ∧ Signalled p m s (completeMailbox p m r z) ∧
    OnlyBox p m z (completeMailbox p m r z) := by
  obtain ⟨g, hg, eq⟩ : ∃ g, g (z.mbx p m) = (z.mbx p m).answered r ∧ completeMailbox p m r z = raiseVector p m (z.updMbx p m g) :=
    ⟨_, rfl, rfl⟩
  rw [eq]
  have box := onlyBox_updMbx p m g z
  have sends : ((z.updMbx p m g).port p).sends m = (s.port p).sends m := by
    rw [← h]
    cases p <;> rfl
  have here : (z.updMbx p m g).mbx p m = (z.mbx p m).answered r := by rw [State.mbx_updMbx, hg]
  have outs : (z.updMbx p m g).out = z.out := State.updMbx_out ..
  generalize z.updMbx p m g = y at box sends here outs ⊢
  obtain ⟨signal, ⟨c, a, port⟩, other, out, rest⟩ := raiseVector_signalled sends
  have same (i : Nat) : (raiseVector p m y).mbx p i = y.mbx p i := mbx_of_port (by rw [port]) i
  refine ⟨(same m).trans here, signal, ?_⟩
  refine onlyBox_trans box outs ⟨?_, fun i _ => same i, other, out, rest⟩
  rw [port]

theorem completeMailbox_answered {p : PortId} {m : Nat} {s z : State} (r : MbxResult) (sends : (z.port p).sends m = (s.port p).sends m)
    (box : z.mbx p m = (takenUp p m s).mbx p m) :
    Answered p m r.status r.data s (completeMailbox p m r z) := by
  obtain ⟨answered, signal, -⟩ := completeMailbox_spec r sends
  refine ⟨answered.trans ?_, signal⟩
  rw [box, takenUp, State.mbx_updMbx]
  rfl

/-- A command that waits is carried out and ends in one step. -/
theorem runCmd_ends {p : PortId} {m op : Nat} {s : State} (h : toRun p m op s = true) (f : Cmd → State → State × MbxResult) :
    runCmd p m op f s = completeMailbox p m (f (s.mbx p m).command (takenUp p m s)).2 (f (s.mbx p m).command (takenUp p m s)).1 :=
  if_pos h

theorem runLater_ends {p : PortId} {m op : Nat} {s z : State} {r : MbxResult} (h : toRun p m op s = true)
    {f : Cmd → State → State × Option MbxResult} (hf : f (s.mbx p m).command (takenUp p m s) = (z, some r)) :
    runLater p m op f s = completeMailbox p m r z := by
  have ran : runLater p m op f s = match (f (s.mbx p m).command (takenUp p m s)).2 with
    | some r => completeMailbox p m r (f (s.mbx p m).command (takenUp p m s)).1
    | none => (f (s.mbx p m).command (takenUp p m s)).1 := if_pos h
  rw [ran, hf]

theorem runLater_waits {p : PortId} {m op : Nat} {s z : State} (h : toRun p m op s = true)
    {f : Cmd → State → State × Option MbxResult} (hf : f (s.mbx p m).command (takenUp p m s) = (z, none)) :
    runLater p m op f s = z := by
  have ran : runLater p m op f s = match (f (s.mbx p m).command (takenUp p m s)).2 with
    | some r => completeMailbox p m r (f (s.mbx p m).command (takenUp p m s)).1
    | none => (f (s.mbx p m).command (takenUp p m s)).1 := if_pos h
  rw [ran, hf]

theorem takenUp_sends (p : PortId) (m v : Nat) (s : State) : ((takenUp p m s).port p).sends v = (s.port p).sends v := by
  cases p <;> rfl

theorem onlyBox_takenUp (p : PortId) (m : Nat) (s : State) : OnlyBox p m s (takenUp p m s) := onlyBox_updMbx ..

/-- A command that answers and does nothing else. -/
theorem answers_only {p : PortId} {m op : Nat} {s : State} (h : toRun p m op s = true) {f : Cmd → State → State × MbxResult} {r : MbxResult}
    (hf : f (s.mbx p m).command (takenUp p m s) = (takenUp p m s, r)) :
    Answered p m r.status r.data s (runCmd p m op f s) ∧ OnlyBox p m s (runCmd p m op f s) := by
  rw [runCmd_ends h, hf]
  exact ⟨completeMailbox_answered r (takenUp_sends ..) rfl,
    onlyBox_trans (onlyBox_takenUp p m s) (State.updMbx_out ..) (completeMailbox_spec (s := s) r (takenUp_sends ..)).2.2⟩

end Sys2Proof.Machine
end

section
/-! SUPPORT. The commands that stop and start a partition, and IMAGE_LOAD (R387, R392, R397, R460). -/

namespace Sys2Proof.Machine

/-- PART_STOP (R397), each clause of the statement about it. -/
theorem partStop_rule {p : PortId} {m : MbxId} {s : State} (run : toRun p m 0x0012 s = true) :
    let q := (s.mbx p m).command.part
    let x := s.part q
    (x.st = .running → ∃ t, exec (.partStop p m) s = .next t ∧ t.part q = { x with stopReq := some (p, m.val) } ∧
      t.mbx p m = { s.mbx p m with ran := true } ∧ OnlyBox p m s { t with parts := s.parts }) ∧
    (x.st ≠ .running → ∃ t bs, exec (.partStop p m) s = .next t ∧ Answered p m 0 bs s t ∧ OnlyBox p m s t ∧ bs.length = 16 ∧
      fieldAt bs 0 8 = x.turn % 2 ^ 64 ∧ fieldAt bs 8 1 = x.how.code) := by
  have part : (takenUp p m s).part (s.mbx p m).command.part = s.part (s.mbx p m).command.part :=
    State.part_of (State.updMbx_parts ..) _
  refine ⟨fun running => ?_, fun stopped => ?_⟩
  · refine ⟨_, congrArg Host.Outcome.next (runLater_waits run
      (z := (takenUp p m s).updPart (s.mbx p m).command.part fun x => { x with stopReq := some (p, m.val) }) ?_), ?_, ?_, ?_⟩
    · exact if_pos (by rw [part]; exact running)
    · rw [State.part_updPart, part]
    · exact State.mbx_updMbx ..
    · have box := onlyBox_withParts (onlyBox_takenUp p m s) s.parts
      exact box
  · have answer := stopResult_data (s.part (s.mbx p m).command.part)
    refine ⟨_, (stopResult (s.part (s.mbx p m).command.part)).data, congrArg Host.Outcome.next (runLater_ends run
      (r := stopResult (s.part (s.mbx p m).command.part)) (z := takenUp p m s) ?_),
      completeMailbox_answered _ (takenUp_sends ..) rfl, ?_, ?_, ?_, ?_⟩
    · refine (if_neg (by rw [part]; exact stopped)).trans ?_
      rw [part]
      rfl
    · exact onlyBox_trans (onlyBox_takenUp p m s) (State.updMbx_out ..) (completeMailbox_spec (s := s) _ (takenUp_sends ..)).2.2
    · rw [answer]
      simp
    · exact stopResult_turn _
    · rw [answer, fieldAt_append_right _ _ (by rw [length_leBytes]), length_leBytes, fieldAt_append_left _ (by rw [length_leBytes]),
        fieldAt_leBytes _ (by omega)]
      cases (s.part (s.mbx p m).command.part).how <;> rfl

section
variable {seen : Seen} {span : List SpanAnswer} {c : Cmd} {u : State} {k : PartCfg}

/-- PART_START is for member 0 of a span alone (R397). -/
theorem partStartRun_member (h : (u.part c.part).cfg = some k) (member : k.member ≠ 0) :
    partStartRun seen span c u = (u, .only stBadCommand) := by
  unfold partStartRun
  dsimp only
  rw [h]
  exact if_pos member

theorem partStartRun_running (h : (u.part c.part).cfg = some k) (member : k.member = 0) (running : seen.st = .running) :
    partStartRun seen span c u = (u, .ok []) := by
  unfold partStartRun
  dsimp only
  rw [h]
  exact (if_neg (not_not.2 member)).trans (if_pos running)

theorem partStartRun_refused {st : Nat} (h : (u.part c.part).cfg = some k) (member : k.member = 0) (stopped : seen.st ≠ .running)
    (refused : seen.refusal = some st) : partStartRun seen span c u = (u, .only st) := by
  unfold partStartRun
  dsimp only
  rw [h, refused]
  exact (if_neg (not_not.2 member)).trans (if_neg stopped)

/-- A start that the state at its acceptance allows: by the span's handshake and by what has come since. -/
theorem partStartRun_allowed (h : (u.part c.part).cfg = some k) (member : k.member = 0) (stopped : seen.st ≠ .running)
    (allowed : seen.refusal = none) : partStartRun seen span c u =
      if k.span ≠ 1 ∧ handshakeOk k (u.part c.part).turn span = false then (u, .only stBadParameter)
      else if (u.part c.part).st = .running ∨ (startRefusal (u.part c.part)).isSome then (u, .ok [])
      else if k.span = 1 then (startPart c.part [] u, .ok [])
      else ((startPart c.part span u).emit (.spanStart c.part (u.part c.part).turn), .ok []) := by
  unfold partStartRun
  dsimp only
  rw [h, allowed]
  exact (if_neg (not_not.2 member)).trans (if_neg stopped)

end

/-- A partition that a start makes RUNNING. -/
def Part.started (span : List SpanAnswer) (x : Part) : Part :=
  { x with
    st := .running
    stopStat := 0
    nd := x.nd || (x.cfg.any (·.raceOff))
    caps := if span.isEmpty then x.caps else { x.caps with hops := (span.map (·.hops)).foldl max 0 }
    remote := span.flatMap (·.cores) }

/-- The end of a start's command: the partition as started, and nothing else of the partitions. -/
theorem start_ends {p : PortId} {m : MbxId} {s z : State} {q : Nat} {span : List SpanAnswer} {outs : List Output}
    (only : (takenUp p m s).OnlyPart q ((s.part q).started span) { z with out := (takenUp p m s).out })
    (out : z.out = (takenUp p m s).out ++ outs) :
    Answered p m 0 [] s (completeMailbox p m (.ok []) z) ∧ (completeMailbox p m (.ok []) z).part q = (s.part q).started span ∧
    (∀ i, i ≠ q → (completeMailbox p m (.ok []) z).part i = s.part i) ∧
    z.out <+: (completeMailbox p m (.ok []) z).out ∧
    (outs = [] → OnlyBox p m s { completeMailbox p m (.ok []) z with parts := s.parts }) := by
  have base : (takenUp p m s).parts = s.parts := State.updMbx_parts ..
  have frame := only.rest
  have ports (i : PortId) : z.port i = (takenUp p m s).port i := by
    cases i
    · exact (congrArg State.portA frame :)
    · exact (congrArg State.portB frame :)
  have sends : (z.port p).sends m = (s.port p).sends m := by rw [ports, takenUp_sends]
  obtain ⟨-, -, box⟩ := completeMailbox_spec (.ok []) sends
  have answered := completeMailbox_answered (s := s) (z := z) (.ok []) sends (mbx_of_port (by rw [ports]) m)
  generalize completeMailbox p m (.ok []) z = t at box answered ⊢
  have parts : t.parts = z.parts := (congrArg State.parts box.2.2.2.2 :)
  refine ⟨answered, (State.part_of parts q).trans only.part, fun i hi => ?_, ?_, fun none_out => ?_⟩
  · rw [State.part_of parts]
    exact (only.others i hi).trans (State.part_of base i)
  · obtain h | h := box.2.2.2.1
    · rw [h]
    · rw [h]
      exact List.prefix_append ..
  · rw [none_out, List.append_nil] at out
    have z_eq : { z with parts := s.parts } = takenUp p m s := by
      rw [← out, base] at frame
      exact frame
    have all := onlyBox_withParts box s.parts
    rw [z_eq] at all
    exact onlyBox_trans (onlyBox_takenUp p m s) (State.updMbx_out ..) all

/-- PART_START (R387, R397, R460), each clause of the statement about it. -/
theorem partStart_rule {p : PortId} {m : MbxId} {s : State} (span : List SpanAnswer) {k : PartCfg} (run : toRun p m 0x0013 s = true)
    (cfg : (s.part (s.mbx p m).command.part).cfg = some k) :
    let q := (s.mbx p m).command.part
    let x := s.part q
    let seen := (s.mbx p m).seen
    (k.member ≠ 0 → ∃ t, exec (.partStart p m span) s = .next t ∧ Answered p m 0x02 [] s t ∧ OnlyBox p m s t) ∧
    (k.member = 0 → seen.st = .running → ∃ t, exec (.partStart p m span) s = .next t ∧ Answered p m 0 [] s t ∧ OnlyBox p m s t) ∧
    (∀ st, k.member = 0 → seen.st ≠ .running → seen.refusal = some st →
      ∃ t, exec (.partStart p m span) s = .next t ∧ Answered p m st [] s t ∧ OnlyBox p m s t) ∧
    (k.member = 0 → seen.st ≠ .running → seen.refusal = none →
      (k.span ≠ 1 → handshakeOk k x.turn span = false →
        ∃ t, exec (.partStart p m span) s = .next t ∧ Answered p m 0x03 [] s t ∧ OnlyBox p m s t) ∧
      (k.span = 1 ∨ handshakeOk k x.turn span = true →
        (x.st = .running ∨ startRefusal x ≠ none →
          ∃ t, exec (.partStart p m span) s = .next t ∧ Answered p m 0 [] s t ∧ OnlyBox p m s t) ∧
        (x.st ≠ .running → startRefusal x = none → ∃ t, exec (.partStart p m span) s = .next t ∧ Answered p m 0 [] s t ∧
          (t.part q).st = .running ∧ (t.part q).stopStat = 0 ∧ (t.part q).nd = (x.nd || k.raceOff) ∧
          (k.span = 1 → (t.part q).caps = x.caps ∧ (t.part q).remote = [] ∧ OnlyBox p m s { t with parts := s.parts }) ∧
          (k.span ≠ 1 → (t.part q).remote = span.flatMap (·.cores) ∧ .spanStart q x.turn ∈ t.out) ∧
          { t.part q with st := x.st, stopStat := x.stopStat, nd := x.nd, caps := x.caps, remote := x.remote } = x ∧
          (∀ i, i ≠ q → t.part i = s.part i)))) := by
  have parts : (takenUp p m s).parts = s.parts := State.updMbx_parts ..
  have cfg' : ((takenUp p m s).part (s.mbx p m).command.part).cfg = some k := by
    rw [State.part_of parts]
    exact cfg
  have answers := fun (r : MbxResult) (h : partStartRun (s.mbx p m).seen span (s.mbx p m).command (takenUp p m s) = (takenUp p m s, r)) =>
    answers_only (p := p) (m := m) run (f := partStartRun (s.mbx p m).seen span) h
  refine ⟨fun member => ⟨_, rfl, answers (.only stBadCommand) (partStartRun_member cfg' member)⟩,
    fun member running => ⟨_, rfl, answers (.ok []) (partStartRun_running cfg' member running)⟩,
    fun st member stopped refused => ⟨_, rfl, answers (.only st) (partStartRun_refused cfg' member stopped refused)⟩,
    fun member stopped allowed => ?_⟩
  have ran := partStartRun_allowed (span := span) cfg' member stopped allowed
  rw [State.part_of parts] at ran
  refine ⟨fun spans fails => ⟨_, rfl, answers (.only stBadParameter) (ran.trans (if_pos ⟨spans, fails⟩))⟩, fun agrees => ?_⟩
  rw [if_neg (by rintro ⟨spans, fails⟩; rcases agrees with h | h; exacts [spans h, by rw [h] at fails; exact nomatch fails])] at ran
  refine ⟨fun event => ⟨_, rfl, answers (.ok []) (ran.trans (if_pos (event.imp id Option.isSome_iff_ne_none.2)))⟩, fun still ok => ?_⟩
  rw [if_neg (by rintro (h | h); exacts [still h, by rw [ok] at h; exact nomatch h])] at ran
  have left (l : List SpanAnswer) : (takenUp p m s).OnlyPart (s.mbx p m).command.part
      ((s.part (s.mbx p m).command.part).started l) (startPart (s.mbx p m).command.part l (takenUp p m s)) := by
    have only := (State.OnlyPart.refl (s.mbx p m).command.part (takenUp p m s)).updPart (Part.started l)
    rw [State.part_of parts] at only
    exact only
  have ends := runCmd_ends run (partStartRun (s.mbx p m).seen span)
  rw [ran] at ends
  have nd (l : List SpanAnswer) : ((s.part (s.mbx p m).command.part).started l).nd =
      ((s.part (s.mbx p m).command.part).nd || k.raceOff) := by
    rw [Part.started, cfg]
    rfl
  by_cases alone : k.span = 1
  · rw [if_pos alone] at ends
    obtain ⟨answered, part, others, -, box⟩ := start_ends (p := p) (m := m) (s := s)
      (q := (s.mbx p m).command.part) (span := []) (outs := []) (z := startPart (s.mbx p m).command.part [] (takenUp p m s)) (left [])
      (List.append_nil _).symm
    refine ⟨_, congrArg Host.Outcome.next ends, answered, ?_, ?_, ?_, fun _ => ⟨?_, ?_, box rfl⟩, fun spans => absurd alone spans, ?_, others⟩ <;>
      rw [part]
    · rfl
    · rfl
    · exact nd []
    · rfl
    · rfl
    · rfl
  · rw [if_neg alone] at ends
    obtain ⟨answered, part, others, outs, -⟩ := start_ends (p := p) (m := m) (s := s) (q := (s.mbx p m).command.part) (span := span)
      (z := (startPart (s.mbx p m).command.part span (takenUp p m s)).emit
        (.spanStart (s.mbx p m).command.part (s.part (s.mbx p m).command.part).turn)) (left span) rfl
    refine ⟨_, congrArg Host.Outcome.next ends, answered, ?_, ?_, ?_, fun h => absurd h alone, fun _ => ⟨?_, outs.subset ?_⟩, ?_, others⟩
    · rw [part]
      rfl
    · rw [part]
      rfl
    · rw [part]
      exact nd span
    · rw [part]
      rfl
    · exact List.mem_append_right _ (List.mem_singleton.2 rfl)
    · rw [part]
      rfl

/-! IMAGE_LOAD (R392). -/

theorem SMap.mem_keys_of_get {α : Type} {d : α} {k : Nat} {l : SMap α} (h : SMap.get d k l ≠ d) : k ∈ l.map Prod.fst := by
  induction l with
  | nil => exact absurd rfl h
  | cons e l ih =>
    by_cases same : e.1 = k
    · exact List.mem_cons.2 (.inl same.symm)
    · refine List.mem_cons_of_mem _ (ih ?_)
      obtain ⟨j, v⟩ := e
      rwa [SMap.get, if_neg same] at h

/-- A port with fewer than nine staged images has a handle for another one: of nine handles in a row one is free. -/
theorem freshHandle_spec {x : Port} (h : x.staged.length < 9) :
    freshHandle x ≠ 0 ∧ freshHandle x < 2 ^ 32 ∧ SMap.get none (freshHandle x) x.staged = none := by
  generalize hl : ((List.range 9).map fun k => (x.nextHandle - 1 + k) % (2 ^ 32 - 1) + 1) = l
  have nodup : l.Nodup := by
    rw [← hl]
    refine List.Nodup.map_on (fun i hi j hj e => ?_) List.nodup_range
    rw [List.mem_range] at hi hj
    omega
  have fresh : ∃ n, l.find? (fun n => (SMap.get none n x.staged).isNone) = some n := by
    by_contra taken
    have held : l ⊆ x.staged.map Prod.fst := fun n hn => SMap.mem_keys_of_get fun free => by
      refine taken (Option.ne_none_iff_exists'.1 fun e => ?_)
      exact List.find?_eq_none.1 e n hn (by rw [free]; rfl)
    have count := (nodup.subperm held).length_le
    rw [← hl] at count
    simp at count
    omega
  obtain ⟨n, hn⟩ := fresh
  have eq : freshHandle x = n := by
    unfold freshHandle
    dsimp only
    rw [hl, hn]
    rfl
  rw [eq]
  have free : (SMap.get none n x.staged).isNone = true := List.find?_some (p := fun n => (SMap.get none n x.staged).isNone) hn
  obtain ⟨k, -, hk⟩ := List.mem_map.1 (hl ▸ List.mem_of_find?_eq_some hn)
  exact ⟨by omega, by omega, Option.isNone_iff_eq_none.1 free⟩

/-- A command that changes its port's staged images and answers. -/
theorem staging_ends {p : PortId} {m : Nat} {s : State} (f : Port → Port) (r : MbxResult)
    (hf : ∀ x, (f x).cfg = x.cfg ∧ (f x).msix = x.msix ∧ (f x).mbx = x.mbx) :
    Answered p m r.status r.data s (completeMailbox p m r ((takenUp p m s).updPort p f)) ∧
    ((completeMailbox p m r ((takenUp p m s).updPort p f)).port p).staged = (f ((takenUp p m s).port p)).staged := by
  have port : ((takenUp p m s).updPort p f).port p = f ((takenUp p m s).port p) := State.port_updPort ..
  obtain ⟨cfg, msix, mbx⟩ := hf ((takenUp p m s).port p)
  have sends : (((takenUp p m s).updPort p f).port p).sends m = (s.port p).sends m := by
    rw [← takenUp_sends p m m s]
    unfold Port.sends
    rw [port, cfg, msix]
  refine ⟨completeMailbox_answered r sends (mbx_of_port (by rw [port, mbx]) m), ?_⟩
  rw [← port]
  exact (congrArg Port.staged (completeMailbox_spec r sends).2.2.1 :)

theorem takenUp_staged (p : PortId) (m : Nat) (s : State) : ((takenUp p m s).port p).staged = (s.port p).staged := by
  cases p <;> rfl

/-- What IMAGE_LOAD does once it is taken up (R392). -/
def imageRun (p : PortId) (image : ImageReply) (c : Cmd) (s : State) : State × MbxResult :=
  if c.zero 16 8 = false then (s, .only stBadParameter)
  else if c.field 0 8 = 0 ∧ c.field 8 4 = 0 then releaseImage p (c.field 12 4) s
  else if c.field 0 8 = 0 ∨ c.field 12 4 ≠ 0 ∨ 2 ^ 44 < c.field 0 8 + c.field 8 4 ∨ c.field 8 4 < 4096 ∨ 2 ^ 30 < c.field 8 4 ∨
      c.field 8 4 % 4096 ≠ 0 then (s, .only stBadParameter)
  else stageImage p (c.field 8 4) image s

theorem exec_imageLoad (p : PortId) (m : MbxId) (image : ImageReply) (s : State) :
    exec (.imageLoad p m image) s = .next (runCmd p m 0x0020 (imageRun p image) s) := rfl

/-- IMAGE_LOAD (R392), each clause of the statement about it. -/
theorem imageLoad_rule {p : PortId} {m : MbxId} {s : State} (img : ImageReply) (bs : List Byte) (parts : ProgImage) (i : Image)
    (run : toRun p m 0x0020 s = true) (clear : (s.mbx p m).command.zero 16 8 = true) :
    let cmd := (s.mbx p m).command
    let u := takenUp p m s
    (cmd.field 0 8 = 0 → cmd.field 8 4 = 0 → SMap.get none (cmd.field 12 4) (s.port p).staged = some i →
      ∃ t, exec (.imageLoad p m img) s = .next t ∧ Answered p m 0 (imageBytes (cmd.field 12 4) i) s t ∧
        SMap.get none (cmd.field 12 4) (t.port p).staged = none) ∧
    (cmd.field 0 8 ≠ 0 → cmd.field 12 4 = 0 → 4096 ≤ cmd.field 8 4 → cmd.field 8 4 ≤ 2 ^ 30 → cmd.field 8 4 % 4096 = 0 →
      cmd.field 0 8 + cmd.field 8 4 ≤ 2 ^ 44 → (s.port p).staged.length < 8 → img.reply = .data bs → img.parts = some parts →
      imageOf bs (cmd.field 8 4) parts = some i →
      ceilDiv (cmd.field 8 4) 0x200000 + hbmHeld 16 u + stagedUnits p 0 u ≤ 196608 →
      ∃ t n, exec (.imageLoad p m img) s = .next t ∧ Answered p m 0 (imageBytes n i) s t ∧ n ≠ 0 ∧ n < 2 ^ 32 ∧
        SMap.get none n (s.port p).staged = none ∧ SMap.get none n (t.port p).staged = some i ∧
        (∀ k, k ≠ n → SMap.get none k (t.port p).staged = SMap.get none k (s.port p).staged)) := by
  intro cmd u
  have staged : (u.port p).staged = (s.port p).staged := takenUp_staged p m s
  have eq := runCmd_ends run (imageRun p img)
  refine ⟨fun iova len held => ?_, fun iova handle least most pages fits room reply parsed image units => ?_⟩
  · have ran : imageRun p img cmd u = (u.updPort p fun x => { x with staged := SMap.set none (cmd.field 12 4) none x.staged },
        .ok (imageBytes (cmd.field 12 4) i)) := by
      refine (if_neg (by rw [show cmd.zero 16 8 = true from clear]; exact Bool.true_eq_false_eq_False)).trans ((if_pos ⟨iova, len⟩).trans ?_)
      unfold releaseImage
      rw [staged, held]
    rw [ran] at eq
    obtain ⟨answered, left⟩ := staging_ends (p := p) (m := m) (s := s)
      (fun x => { x with staged := SMap.set none (cmd.field 12 4) none x.staged }) (.ok (imageBytes (cmd.field 12 4) i)) fun _ => ⟨rfl, rfl, rfl⟩
    refine ⟨_, congrArg Host.Outcome.next eq, answered, ?_⟩
    rw [left]
    dsimp only
    rw [SMap.get_set]
  · obtain ⟨nonzero, small, free⟩ := freshHandle_spec (x := s.port p) (by omega)
    have fresh : freshHandle (u.port p) = freshHandle (s.port p) := by cases p <;> rfl
    generalize freshHandle (s.port p) = n at nonzero small free fresh
    have ran : imageRun p img cmd u = (u.updPort p fun x => { x with
        staged := SMap.set none n (some i) x.staged, nextHandle := n % (2 ^ 32 - 1) + 1 }, .ok (imageBytes n i)) := by
      refine (if_neg (by rw [show cmd.zero 16 8 = true from clear]; exact Bool.true_eq_false_eq_False)).trans
        ((if_neg fun h => iova h.1).trans ((if_neg (by omega)).trans ?_))
      unfold stageImage
      rw [if_neg (by rw [staged]; omega), reply]
      dsimp only
      rw [parsed, Option.bind_some, image, fresh]
    rw [ran] at eq
    obtain ⟨answered, left⟩ := staging_ends (p := p) (m := m) (s := s)
      (fun x => { x with staged := SMap.set none n (some i) x.staged, nextHandle := n % (2 ^ 32 - 1) + 1 }) (.ok (imageBytes n i))
      fun _ => ⟨rfl, rfl, rfl⟩
    refine ⟨_, n, congrArg Host.Outcome.next eq, answered, nonzero, small, free, ?_, fun k hk => ?_⟩ <;> rw [left] <;> dsimp only
    · rw [SMap.get_set]
    · rw [SMap.get_set_ne none hk, ← staged]

end Sys2Proof.Machine
end

section
/-! SUPPORT. What building and releasing a partition leave of the ports, and the cores and the HBM that they clear (R33, R338, R357,
R431). -/

namespace Sys2Proof.Machine

/-- What the record's end and the clearing of a partition leave: of each port what a command's end depends on, and the partition's
placement. -/
structure State.FrontKept (q : Nat) (s t : State) : Prop where
  port : ∀ p, (s.port p).FrontKept (t.port p)
  place : (t.part q).place = (s.part q).place

namespace State.FrontKept

variable {q : Nat} {s t u : State}

theorem refl (q : Nat) (s : State) : FrontKept q s s := ⟨fun _ => .refl _, rfl⟩

theorem trans (h : FrontKept q s t) (k : FrontKept q t u) : FrontKept q s u :=
  ⟨fun p => (h.port p).trans (k.port p), k.place.trans h.place⟩

theorem of_eq (ha : t.portA = s.portA) (hb : t.portB = s.portB) (hparts : t.parts = s.parts) : FrontKept q s t := by
  refine ⟨fun p => ?_, by rw [State.part_of hparts]⟩
  have port : t.port p = s.port p := by
    cases p
    · exact ha
    · exact hb
  rw [port]
  exact .refl _

theorem reads (h : s.ReadsOnly q t) : FrontKept q s t := by
  refine ⟨fun p => ⟨(congrArg Port.cfg (h.port p) :), (congrArg Port.msix (h.port p) :), (congrArg Port.mbx (h.port p) :),
    (congrArg Port.staged (h.port p) :)⟩, ?_⟩
  obtain ⟨e, m, hp⟩ := h.part
  rw [hp]

theorem updPart (i : Nat) (f : Part → Part) (s : State) (hf : ∀ x, (f x).place = x.place := by intro; rfl) :
    FrontKept q s (s.updPart i f) := by
  refine ⟨fun p => by rw [State.port_updPart]; exact .refl _, ?_⟩
  by_cases e : q = i
  · rw [e, State.part_updPart, hf]
  · rw [State.part_updPart_ne s e]

theorem updPort (i : PortId) (f : Port → Port) (s : State) (hf : ∀ x : Port, x.FrontKept (f x) := by intro; exact ⟨rfl, rfl, rfl, rfl⟩) :
    FrontKept q s (s.updPort i f) := by
  refine ⟨fun p => ?_, by rw [State.part_of (State.updPort_parts ..)]⟩
  by_cases e : p = i
  · rw [e, State.port_updPort]
    exact hf _
  · rw [State.port_updPort_ne s e]
    exact .refl _

theorem emit (o : Output) (s : State) : FrontKept q s (s.emit o) := of_eq rfl rfl rfl

theorem ite {p : Prop} [Decidable p] (h : FrontKept q s t) (k : FrontKept q s u) : FrontKept q s (if p then t else u) := by
  split
  · exact h
  · exact k

theorem foldl {α : Type} {g : State → α → State} (hg : ∀ z a, FrontKept q z (g z a)) (l : List α) (s : State) :
    FrontKept q s (l.foldl g s) := by
  induction l generalizing s with
  | nil => exact refl q s
  | cons a l ih => exact (hg s a).trans (ih _)

theorem msix (p : PortId) (v : Nat) (s : State) : FrontKept q s (msix p v s) := by
  unfold Machine.msix
  exact ite (updPort p _ s) (emit _ s)

theorem portErr (p : PortId) (f : Port → Port) (s : State) (hf : ∀ x : Port, x.FrontKept (f x) := by intro; exact ⟨rfl, rfl, rfl, rfl⟩) :
    FrontKept q s (portErr p f s) := by
  unfold Machine.portErr
  exact ite (refl q s) ((updPort p f s hf).trans ((updPort p _ _).trans (msix p 7 _)))

theorem submit (r : MemReq) (s : State) : FrontKept q s (submit r s) := by
  unfold Machine.submit
  split
  · exact of_eq rfl rfl rfl
  · exact of_eq rfl rfl rfl
  · exact ite (refl q s) (ite (updPart r.part (replayWrite r) s) (foldl (fun z _ => emit _ z) _ s))
  · exact refl q s

/-! The end of a record (R431). -/

theorem recWrite (k va : Nat) (bs : List Byte) (s : State) : FrontKept q s (recWrite q k va bs s) := by
  induction k generalizing va bs s with
  | zero => exact refl q s
  | succ k ih =>
    have page := reads (State.ReadsOnly.walkRead (q := q) va true s)
    unfold Machine.recWrite
    refine ite (refl q s) (trans ?_ (ih _ _ _))
    generalize Machine.walkRead q va true s = x at page
    obtain ⟨z, x⟩ := x
    cases x with
    | fail => exact page
    | ok e => exact page.trans (submit _ z)

theorem recPut (va : Nat) (bs : List Byte) (s : State) : FrontKept q s (recPut q va bs s) := recWrite ..

theorem recHead (s : State) : FrontKept q s (recHead q s) := recPut ..

theorem recAppend (bs : List Byte) (s : State) : FrontKept q s (recAppend q bs s) := (updPart q _ s).trans (recPut ..)

theorem recStop (code : Nat) (s : State) : FrontKept q s (recStop q code s) := by
  have closed := updPart (q := q) q (fun p => { p with recd := { p.recd with
    isOpen := false, fullstop := decide (code = 1), incomplete := decide (code = 2) } }) s
  unfold Machine.recStop
  exact ite (refl q s) (trans (ite (closed.trans (recAppend _ _)) closed) (recHead _))

theorem recItem (kind flags unit len turn key sub : Nat) (bs : List Byte) (s : State) :
    FrontKept q s (recItem q kind flags unit len turn key sub bs s) := by
  unfold Machine.recItem
  exact ite (refl q s) (ite (recStop 1 s) (recAppend _ s))

theorem putTurnEnd (e : TurnEnd) (s : State) : FrontKept q s (putTurnEnd q e s) := by
  have item := recItem (q := q) 0x20 (2 * b2n e.nd + 4 * b2n e.incomplete) 0xFFFF e.posts.length e.turn 0 0 e.payload s
  unfold Machine.putTurnEnd
  refine ite (ite ?_ item) (refl q s)
  have last := item.trans (updPart q (fun p => { p with recd := { p.recd with last := e.turn, nd := p.recd.nd || e.nd } }) _)
  exact ite (last.trans (recStop 2 _)) (last.trans (recHead _))

theorem recEnd (code : Nat) (s : State) : FrontKept q s (recEnd q code s) := by
  unfold Machine.recEnd
  exact ite ((updPart q _ s).trans ((foldl (fun z e => putTurnEnd e z) _ _).trans (recStop code _))) (refl q s)

/-! What a partition leaves behind in the units that served it (R33, R321, R357). -/

theorem bar2End (p : PortId) (r : Bar2Read) (s : State) : FrontKept q s (bar2End p r s) := by
  have data := emit (q := q) (.bar2Data p ((r.lines.map fun x => x.got.getD ([], false)).flatMap (·.1))
    ((r.lines.map fun x => x.got.getD ([], false)).any (·.2))) s
  unfold Machine.bar2End
  dsimp only
  have counted := ite (p := ((r.lines.map fun x => x.got.getD ([], false)).any (·.2)) = true)
    (data.trans (portErr p (fun x => { x with bar2Ue := bump16 x.bar2Ue }) _)) data
  exact ite (counted.trans (portErr p _ _)) counted

theorem bar2Got (p : PortId) (k line : Nat) (l : Line) (s : State) : FrontKept q s (bar2Got p k line l s) := by
  unfold Machine.bar2Got
  split
  · exact ite ((updPort p _ s).trans (bar2End p _ _)) (updPort p _ s)
  · exact refl q s

theorem settleBar2 (s : State) : FrontKept q s (settleBar2 q s) := by
  unfold Machine.settleBar2
  refine foldl (fun z p => foldl (fun z r => foldl (fun z x => ite ?_ (refl q z)) _ z) _ z) _ s
  exact (reads (State.ReadsOnly.lineRead (64 * x.line) z)).trans (bar2Got p r.k x.line _ _)

theorem purged (s : State) : FrontKept q s (purgeReqs q (invalidateAll q (Machine.settleBar2 q s))) :=
  (settleBar2 s).trans (of_eq rfl rfl rfl)

end State.FrontKept

/-- A core that one of a list of changes reaches is left by them all with the partition that each of them gives. -/
theorem foldl_updCore_part {α : Type} {c : α → Nat} {f : α → Core → Core} {r : Option Nat} (hf : ∀ a x, (f a x).part = r) {k : Nat}
    (l : List α) (s : State) (h : (∃ a ∈ l, c a = k) ∨ (s.core k).part = r) :
    ((l.foldl (fun s a => s.updCore (c a) (f a)) s).core k).part = r := by
  induction l generalizing s with
  | nil => exact h.resolve_left fun ⟨a, ha, _⟩ => nomatch ha
  | cons a l ih =>
    refine ih _ ?_
    by_cases e : k = c a
    · exact .inr (by rw [e, State.core_updCore, hf])
    · rw [State.core_updCore_ne s e]
      refine h.imp (fun ⟨b, hb, hk⟩ => ⟨b, (List.mem_cons.1 hb).resolve_left fun same => e ?_, hk⟩) id
      rw [← hk, same]

/-- A port without the BAR2 pages of a partition. -/
def dropPages (q : Nat) (x : Port) : Port := { x with bar2 := x.bar2.filter fun e => !e.2.any fun y => y.1 == q }

/-- Clearing a partition's units: its cores released, and then its BAR2 pages gone. -/
theorem clearUnits_eq (q : Nat) (s : State) : ∃ z : State, clearUnits q s = (z.updPort .a (dropPages q)).updPort .b (dropPages q) ∧
    (z.portA = (purgeReqs q (invalidateAll q (settleBar2 q s))).portA ∧ z.portB = (purgeReqs q (invalidateAll q (settleBar2 q s))).portB ∧
      z.parts = (purgeReqs q (invalidateAll q (settleBar2 q s))).parts) ∧
    z.cores = (((purgeReqs q (invalidateAll q (settleBar2 q s))).part q).phys.foldl (fun s c => s.updCore c releasedCore)
      (purgeReqs q (invalidateAll q (settleBar2 q s)))).cores := by
  have released (l : List Nat) (y : State) : (l.foldl (fun s c => s.updCore c releasedCore) y).portA = y.portA ∧
      (l.foldl (fun s c => s.updCore c releasedCore) y).portB = y.portB ∧ (l.foldl (fun s c => s.updCore c releasedCore) y).parts = y.parts := by
    induction l generalizing y with
    | nil => exact ⟨rfl, rfl, rfl⟩
    | cons c l ih => exact ih _
  exact ⟨_, rfl, released _ _, rfl⟩

theorem State.FrontKept.clearUnits (q : Nat) (s : State) : FrontKept q s (clearUnits q s) := by
  obtain ⟨z, eq, ⟨ha, hb, parts⟩, -⟩ := clearUnits_eq q s
  rw [eq]
  exact (purged s).trans ((of_eq ha hb parts).trans ((updPort .a (dropPages q) z).trans (updPort .b (dropPages q) _)))

/-- The cores of a partition whose units are cleared are no partition's. -/
theorem clearUnits_core {q k : Nat} {s : State} (h : k ∈ (s.part q).phys) : ((clearUnits q s).core k).part = none := by
  have place := (State.FrontKept.purged (q := q) s).place
  have phys : ((purgeReqs q (invalidateAll q (settleBar2 q s))).part q).phys = (s.part q).phys := by unfold Part.phys; rw [place]
  obtain ⟨z, eq, -, cores⟩ := clearUnits_eq q s
  rw [eq, State.core_of ((State.updPort_cores ..).trans ((State.updPort_cores ..).trans cores)), phys]
  exact foldl_updCore_part (c := id) (f := fun _ => releasedCore) (fun _ _ => rfl) _ _ (.inl ⟨k, h, rfl⟩)

/-! The HBM and the units of a partition that is built (R33, R300). -/

theorem SMap.get_filter {α : Type} (d : α) (f : Nat → Bool) (k : Nat) (m : SMap α) :
    SMap.get d k (m.filter fun e => f e.1) = if f k then SMap.get d k m else d := by
  induction m with
  | nil => simp [SMap.get]
  | cons e m ih =>
    obtain ⟨j, v⟩ := e
    by_cases same : j = k
    · subst same
      by_cases keep : f j = true <;> simp [SMap.get, keep, ih]
    · by_cases keep : f j = true <;> simp [SMap.get, keep, ih, same]

theorem zeroHbm_byte (g n a : Nat) (s : State) : (zeroHbm [] g n s).hbm.byte a =
    if !(inside a 1 (g * 0x200000) (n * 0x200000) && true) then s.hbm.byte a else 0 :=
  SMap.get_filter (0 : Byte) (fun k => !(inside k 1 (g * 0x200000) (n * 0x200000) && !([] : List Rng).any fun r => inside k 1 r.1 r.2)) a s.hbm

/-- Every byte of the granules that a fold of zeroings names is zero, and one that was zero stays so (R300). -/
theorem zeroHbm_foldl (l : List (Nat × Nat)) (a : Nat) (s : State)
    (h : (∃ e ∈ l, e.1 * 0x200000 ≤ a ∧ a < (e.1 + e.2) * 0x200000) ∨ s.hbm.byte a = 0) :
    (l.foldl (fun s e => zeroHbm [] e.1 e.2 s) s).hbm.byte a = 0 := by
  induction l generalizing s with
  | nil => exact h.resolve_left fun ⟨e, he, _⟩ => nomatch he
  | cons e l ih =>
    refine ih _ ?_
    rw [zeroHbm_byte]
    by_cases here : e.1 * 0x200000 ≤ a ∧ a < (e.1 + e.2) * 0x200000
    · refine .inr (if_neg ?_)
      have inGranules : inside a 1 (e.1 * 0x200000) (e.2 * 0x200000) = true := by
        unfold inside
        rw [Bool.and_eq_true, decide_eq_true_iff, decide_eq_true_iff]
        omega
      rw [inGranules]
      exact Bool.false_ne_true
    · refine h.imp (fun ⟨d, hd, hr⟩ => ⟨d, (List.mem_cons.1 hd).resolve_left fun same => here (same ▸ hr), hr⟩) fun zero => ?_
      rw [zero, ite_self]

/-- A fold of changes that each keep a field of the state keeps it. -/
theorem foldl_kept {α β : Type} {get : State → β} {g : State → α → State} (hg : ∀ z a, get (g z a) = get z) (l : List α) (s : State) :
    get (l.foldl g s) = get s := by
  induction l generalizing s with
  | nil => rfl
  | cons a l ih => exact (ih _).trans (hg s a)

theorem armBulks_kept {β : Type} {get : State → β} (h : ∀ (z : State) d f, get (z.updDie d f) = get z) (q : Nat) (i : Image)
    (place : List (Nat × Nat)) (s : State) : get (armBulks q i place s) = get s := by
  refine foldl_kept (fun z d => ?_) _ s
  split
  · exact h ..
  · rfl

theorem setRegs_kept {β : Type} {get : State → β} (h : ∀ (z : State) k f, get (z.updStack k f) = get z) (q : Nat) (c : PartCfg)
    (i : Image) (s : State) : get (setRegs q c i s) = get s := foldl_kept (fun _ _ => h ..) _ s

/-- The units of a partition loaded: of the module its bed stores, cores, bulk movers and regulators change, and every core of the
placement is the partition's (R33). -/
theorem loadUnits_spec (q : Nat) (c : PartCfg) (i : Image) (s : State) :
    (loadUnits q c i s).parts = s.parts ∧ (loadUnits q c i s).portA = s.portA ∧ (loadUnits q c i s).portB = s.portB ∧
    (loadUnits q c i s).hbm = s.hbm ∧ ∀ e ∈ (s.part q).place, ((loadUnits q c i s).core e.2).part = some q := by
  have kept {β : Type} (get : State → β) (hbed : ∀ (z : State) b f, get (z.updBed b f) = get z)
      (hcore : ∀ (z : State) k f, get (z.updCore k f) = get z) (hdie : ∀ (z : State) d f, get (z.updDie d f) = get z)
      (hstack : ∀ (z : State) k f, get (z.updStack k f) = get z) : get (loadUnits q c i s) = get s := by
    unfold loadUnits
    dsimp only
    rw [setRegs_kept hstack, armBulks_kept hdie]
    exact (foldl_kept (fun _ _ => hcore ..) _ _).trans (foldl_kept (fun _ _ => hbed ..) _ _)
  refine ⟨kept State.parts (fun _ _ _ => rfl) (fun _ _ _ => rfl) (fun _ _ _ => rfl) (fun _ _ _ => rfl),
    kept State.portA (fun _ _ _ => rfl) (fun _ _ _ => rfl) (fun _ _ _ => rfl) (fun _ _ _ => rfl),
    kept State.portB (fun _ _ _ => rfl) (fun _ _ _ => rfl) (fun _ _ _ => rfl) (fun _ _ _ => rfl),
    kept State.hbm (fun _ _ _ => rfl) (fun _ _ _ => rfl) (fun _ _ _ => rfl) (fun _ _ _ => rfl), fun e he => ?_⟩
  have cores : (loadUnits q c i s).cores = (assignCores q i (s.part q).place
      ((s.part q).bedAt.foldl (fun s e => zeroBed e.1 e.2.1 e.2.2 s) s)).cores := by
    unfold loadUnits
    dsimp only
    rw [setRegs_kept (get := State.cores) (fun _ _ _ => rfl), armBulks_kept (get := State.cores) fun _ _ _ => rfl]
  rw [State.core_of cores]
  exact foldl_updCore_part (c := Prod.snd) (f := fun e => assignedCore q e.1 e.2 (i.coreOf e.1)) (fun _ _ => rfl) _ _ (.inl ⟨e, he, rfl⟩)

end Sys2Proof.Machine
end

section
/-! O53. The commands that build, release, stop and start a partition and stage images (R33, R347, R387, R392, R394 to R397, R460). -/

namespace Sys2Proof.Machine

/-! PART_DESTROY (R338, R397). -/

theorem destroyPart_spec (q : Nat) (s : State) :
    (∀ o, (s.port o).FrontKept ((destroyPart q s).port o)) ∧ (destroyPart q s).part q = Part.reset ∧
    ∀ k ∈ (s.part q).phys, ((destroyPart q s).core k).part = none := by
  have record : State.FrontKept q s (endRecord q 3 s) := .recEnd 3 s
  have cleared := record.trans (.clearUnits q _)
  have phys : ((endRecord q 3 s).part q).phys = (s.part q).phys := by unfold Part.phys; rw [record.place]
  unfold destroyPart
  refine ⟨fun o => ?_, State.part_updPart .., fun k hk => ?_⟩
  · rw [State.port_updPart]
    exact cleared.port o
  · rw [State.core_updPart]
    exact clearUnits_core (by rw [phys]; exact hk)

theorem onlyBox_units {p : PortId} {m : Nat} {s t : State} (h : OnlyBox p m s t) :
    t.parts = s.parts ∧ t.cores = s.cores ∧ t.hbm = s.hbm := by
  obtain ⟨-, -, -, -, rest⟩ := h
  exact ⟨(congrArg State.parts rest :), (congrArg State.cores rest :), (congrArg State.hbm rest :)⟩

/-- A command that leaves its port's mailboxes and vectors ends with its answer, and the end leaves the module's units. -/
theorem unitsCommand_ends {p : PortId} {m : Nat} {s z : State} (r : MbxResult) (front : ((takenUp p m s).port p).FrontKept (z.port p)) :
    Answered p m r.status r.data s (completeMailbox p m r z) ∧ OnlyBox p m z (completeMailbox p m r z) := by
  have sends : (z.port p).sends m = (s.port p).sends m := (front.sends m).trans (takenUp_sends ..)
  exact ⟨completeMailbox_answered r sends (mbx_of_port front.mbx m), (completeMailbox_spec r sends).2.2⟩

/-- PART_DESTROY (R338, R397), the clause of the statement about it. -/
theorem partDestroy_rule {p : PortId} {m : MbxId} {s : State} (run : toRun p m 0x0011 s = true) :
    let q := (s.mbx p m).command.part
    ∃ t, exec (.partDestroy p m) s = .next t ∧ Answered p m 0 [] s t ∧ t.part q = Part.reset ∧
      ∀ k ∈ (s.part q).phys, (t.core k).part = none := by
  intro q
  obtain ⟨front, empty, cores⟩ := destroyPart_spec q (takenUp p m s)
  obtain ⟨answered, box⟩ := unitsCommand_ends (.ok []) (front p)
  obtain ⟨parts, coresKept, -⟩ := onlyBox_units box
  have part : (takenUp p m s).part q = s.part q := State.part_of (State.updMbx_parts ..) q
  refine ⟨_, congrArg Host.Outcome.next (runCmd_ends run fun c s => (destroyPart c.part s, .ok [])), answered, ?_, fun k hk => ?_⟩
  · exact (State.part_of parts q).trans empty
  · exact (congrArg Core.part (State.core_of coresKept k)).trans (cores k (by rw [part]; exact hk))

/-! PART_CREATE and PART_RECONFIGURE (R347, R394, R395). -/

/-- What building does, in order: record and units cleared, the new partition entered, its HBM zeroed and its units loaded. -/
theorem buildPart_eq (q : Nat) (p : PortId) (c : PartCfg) (i : Image) (place : List (Nat × Nat)) (rep : Report) (seed : Word) (s : State) :
    ∃ n : Part, (n.st = .configured ∧ n.owner = p ∧ n.cfg = some c ∧ n.img = some i ∧ n.place = place ∧ n.turn = 0 ∧ n.stopStat = 0 ∧
        n.revoked = false ∧ n.streams = [] ∧ n.windows = []) ∧ n.report = rep ∧
      buildPart q p c i place rep seed s = loadUnits q c i
        (n.hbmAt.foldl (fun s e => zeroHbm [] e.1 e.2 s) ((clearUnits q (endRecord q 3 s)).updPart q fun _ => n)) :=
  ⟨_, ⟨rfl, rfl, rfl, rfl, rfl, rfl, rfl, rfl, rfl, rfl⟩, rfl, rfl⟩

theorem zeroHbm_foldl_kept (l : List (Nat × Nat)) (s : State) : (l.foldl (fun s e => zeroHbm [] e.1 e.2 s) s).parts = s.parts ∧
    (l.foldl (fun s e => zeroHbm [] e.1 e.2 s) s).portA = s.portA ∧ (l.foldl (fun s e => zeroHbm [] e.1 e.2 s) s).portB = s.portB := by
  induction l generalizing s with
  | nil => exact ⟨rfl, rfl, rfl⟩
  | cons e l ih =>
    obtain ⟨parts, portA, portB⟩ := ih (zeroHbm [] e.1 e.2 s)
    exact ⟨parts, portA, portB⟩

/-- A partition that is built is as R33 and R395 leave it, its port with its mailboxes, vectors and staged images. -/
theorem buildPart_configured {q handle : Nat} {p : PortId} {c : PartCfg} {i : Image} {place : List (Nat × Nat)} (rep : Report)
    (seed : Word) {s : State} (used : SMap.get none handle (s.port p).staged = none) :
    Configured p q handle c i place (buildPart q p c i place rep seed s) ∧ ((buildPart q p c i place rep seed s).part q).report = rep ∧
    (s.port p).FrontKept ((buildPart q p c i place rep seed s).port p) := by
  obtain ⟨n, fields, report, eq⟩ := buildPart_eq q p c i place rep seed s
  have front : (s.port p).FrontKept ((clearUnits q (endRecord q 3 s)).port p) :=
    ((State.FrontKept.recEnd (q := q) 3 s).trans (.clearUnits q _)).port p
  have entered : ((clearUnits q (endRecord q 3 s)).updPart q fun _ => n).part q = n := State.part_updPart ..
  have port : ((clearUnits q (endRecord q 3 s)).updPart q fun _ => n).port p = (clearUnits q (endRecord q 3 s)).port p :=
    State.port_updPart ..
  rw [eq]
  generalize (clearUnits q (endRecord q 3 s)).updPart q (fun _ => n) = y at entered port ⊢
  have zero (e : Nat × Nat) (he : e ∈ n.hbmAt) (a : Nat) (lo : e.1 * 0x200000 ≤ a) (hi : a < (e.1 + e.2) * 0x200000) :=
    zeroHbm_foldl n.hbmAt a y (.inl ⟨e, he, lo, hi⟩)
  obtain ⟨parts, portA, portB⟩ := zeroHbm_foldl_kept n.hbmAt y
  generalize n.hbmAt.foldl (fun s e => zeroHbm [] e.1 e.2 s) y = z at zero parts portA portB ⊢
  have here : z.part q = n := (State.part_of parts q).trans entered
  obtain ⟨loaded, loadedA, loadedB, hbm, cores⟩ := loadUnits_spec q c i z
  generalize loadUnits q c i z = t at loaded loadedA loadedB hbm cores ⊢
  have part : t.part q = n := (State.part_of loaded q).trans here
  have same : t.port p = y.port p := by
    cases p
    · exact loadedA.trans portA
    · exact loadedB.trans portB
  have kept : (s.port p).FrontKept (t.port p) := by
    rw [same, port]
    exact front
  obtain ⟨st, owner, cfg, img, hplace, turn, stopStat, revoked, streams, windows⟩ := fields
  refine ⟨?_, by rw [part, report], kept⟩
  unfold Configured
  rw [part]
  refine ⟨st, owner, cfg, img, hplace, turn, stopStat, revoked, streams, windows, by rw [kept.staged, used], fun e he => ?_,
    fun e he a lo hi => ?_⟩
  · exact cores e (by rw [here, hplace]; exact he)
  · rw [hbm]
    exact zero e he a lo hi

/-- The end of its command leaves a configured partition as it is. -/
theorem configured_ends {p : PortId} {m q handle : Nat} {c : PartCfg} {i : Image} {place : List (Nat × Nat)} {s t : State}
    (h : Configured p q handle c i place s) (box : OnlyBox p m s t) : Configured p q handle c i place t := by
  have staged : (t.port p).staged = (s.port p).staged := (congrArg Port.staged box.1 :)
  obtain ⟨parts, cores, hbm⟩ := onlyBox_units box
  have part := State.part_of parts q
  have core := State.core_of cores
  unfold Configured at h ⊢
  simpa only [part, staged, hbm, core] using h

theorem Report.length_bytes (r : Report) : r.bytes.length = 32 := by
  simp [Report.bytes, padTo]

/-- The verdict of a configuration record that every check before admission passes, and what follows it (R347). -/
theorem configCmd_judged {p : PortId} {cmd : Cmd} {keep : Option Image} {u : State} {i : Image} {place : List (Nat × Nat)}
    (image : (if cfgImage cmd.params = 0 then keep else SMap.get none (cfgImage cmd.params) (u.port p).staged) = some i)
    (fieldsOk : cfgFieldsOk (bedWindow u) cmd.params = true) (fits : cfgFits cmd.part (cfgOf cmd.params) i u = true)
    (resources : resourcesFit cmd.part p (cfgImage cmd.params) (cfgOf cmd.params) i u = true)
    (placed : placement cmd.part (cfgOf cmd.params) u = some place) (bulk : ∀ d, d < 12 → (bulkEntries i place d).length ≤ 16) :
    let c := cfgOf cmd.params
    let v := admitPartition c i (capsOf c (c.span - 1) u) (spareOfPlace place u)
    configCmd p keep cmd u =
      if v.ok then (buildPart cmd.part p c i place (v.report u.freeVal) (cfgSeed cmd.params)
          (u.drew.updPort p fun x => { x with staged := SMap.set none (cfgImage cmd.params) none x.staged }),
        .ok (v.report u.freeVal).bytes)
      else (u.drew, ⟨stDeadline, (v.report u.freeVal).bytes⟩) := by
  intro c v
  have room : ((List.range 12).any fun d => decide (16 < (bulkEntries i place d).length)) = false :=
    List.any_eq_false.2 fun d hd => by
      rw [decide_eq_true_iff]
      exact Nat.not_lt.2 (bulk d (List.mem_range.1 hd))
  unfold configCmd configure
  simp only [image, fieldsOk, fits, resources, placed, room, Bool.not_true, Bool.or_self, Bool.false_eq_true, if_false]
  exact (apply_ite (fun x : State × Nat × List Byte => ((x.1, ⟨x.2.1, x.2.2⟩) : State × MbxResult)) (v.ok = true) _ _ :)

/-- A record that is admitted (R394, R395). -/
theorem config_admitted {p : PortId} {m : MbxId} {s : State} {op : Nat} {i : Image} {place : List (Nat × Nat)} {rep : Report} {seed : Word}
    {q h : Nat} {c : PartCfg} {f : Cmd → State → State × MbxResult} (run : toRun p m op s = true)
    (ran : f (s.mbx p m).command (takenUp p m s) = (buildPart q p c i place rep seed
      ((takenUp p m s).drew.updPort p fun x => { x with staged := SMap.set none h none x.staged }), .ok rep.bytes)) :
    ∃ bs, Answered p m 0 bs s (runCmd p m op f s) ∧ bs.length = 32 ∧ ((runCmd p m op f s).part q).report.bytes = bs ∧
      Configured p q h c i place (runCmd p m op f s) := by
  have port : ((takenUp p m s).drew.updPort p fun x => { x with staged := SMap.set none h none x.staged }).port p =
      { (takenUp p m s).port p with staged := SMap.set none h none ((takenUp p m s).port p).staged } := State.port_updPort ..
  generalize (takenUp p m s).drew.updPort p (fun x => { x with staged := SMap.set none h none x.staged }) = y at ran port
  obtain ⟨configured, report, front⟩ := buildPart_configured (q := q) (handle := h) (c := c) (i := i) (place := place) rep seed (s := y)
    (by rw [port]; dsimp only; rw [SMap.get_set])
  rw [runCmd_ends run, ran]
  dsimp only
  generalize buildPart q p c i place rep seed y = z at configured report front ⊢
  have sends : (z.port p).sends m = (s.port p).sends m := by
    rw [front.sends, port]
    exact takenUp_sends ..
  have box : z.mbx p m = (takenUp p m s).mbx p m := mbx_of_port (by rw [front.mbx, port]) m
  have ends := (completeMailbox_spec (.ok rep.bytes) sends).2.2
  refine ⟨rep.bytes, completeMailbox_answered (.ok rep.bytes) sends box, Report.length_bytes rep, ?_, configured_ends configured ends⟩
  rw [State.part_of (onlyBox_units ends).1, report]

/-- A record that admission refuses: one free value is used for its report, and no partition changes (R396). -/
theorem config_refused {p : PortId} {m : MbxId} {s : State} {op : Nat} {rep : Report} {f : Cmd → State → State × MbxResult}
    (run : toRun p m op s = true) (ran : f (s.mbx p m).command (takenUp p m s) = ((takenUp p m s).drew, ⟨stDeadline, rep.bytes⟩)) :
    Answered p m 0x05 rep.bytes s (runCmd p m op f s) ∧ OnlyBox p m s { runCmd p m op f s with free := s.free } := by
  have sends : ((takenUp p m s).drew.port p).sends m = (s.port p).sends m := takenUp_sends ..
  rw [runCmd_ends run, ran]
  refine ⟨completeMailbox_answered _ sends rfl, ?_⟩
  have ends := onlyBox_withFree (completeMailbox_spec ⟨stDeadline, rep.bytes⟩ sends).2.2 s.free
  have base : ({ (takenUp p m s).drew with free := s.free } : State) = takenUp p m s := by cases p <;> rfl
  rw [base] at ends
  exact onlyBox_trans (onlyBox_takenUp p m s) (State.updMbx_out ..) ends

/-- Settles O53: each command is carried out, changes the partition and its units, and ends with its answer in the one step; a record's
checks lead to admission, whose verdict decides between the built partition and the report alone. -/
theorem partitionCommands : Obligations.PartitionCommands := by
  intro p m s cmd q x c h u
  refine ⟨fun i place keep image fieldsOk fits resources placed bulk => ?_, partDestroy_rule, partStop_rule,
    fun span k run cfg => partStart_rule span run cfg, fun img bs parts i run clear => imageLoad_rule img bs parts i run clear⟩
  intro v
  have judged := configCmd_judged (p := p) (cmd := cmd) (keep := keep) (u := u) (by rw [takenUp_staged]; exact image) fieldsOk fits
    resources placed bulk
  refine ⟨fun ok => ?_, fun refused none_kept run => ?_⟩
  · replace judged := judged.trans (if_pos ok)
    refine ⟨fun none_kept run => ?_, fun image_kept run => ?_⟩
    · subst none_kept
      obtain ⟨bs, spec⟩ := config_admitted run judged
      exact ⟨_, bs, rfl, spec⟩
    · have own : (u.part q).img = keep := by
        rw [image_kept]
        exact congrArg Part.img (State.part_of (State.updMbx_parts ..) q)
      obtain ⟨bs, spec⟩ := config_admitted (f := fun c s => configCmd p (s.part c.part).img c s) run
        ((congrArg (fun k => configCmd p k cmd u) own).trans judged)
      exact ⟨_, bs, rfl, spec⟩
  · subst none_kept
    replace judged := judged.trans (if_neg (by rw [refused]; exact Bool.false_ne_true))
    obtain ⟨answered, box⟩ := config_refused run judged
    exact ⟨_, _, rfl, answered, Report.length_bytes _, box⟩

end Sys2Proof.Machine
end

section
/-! SUPPORT. What the lookups and the line requests of a bundle leave of its core (R279, R314, R321), and a front end that holds no
error (R98, R170). -/

namespace Sys2Proof.Machine

/-- Of core c nothing differs but its TLB, its far cache and the mark of a page under migration. -/
def FarOnly (c : Nat) (s t : State) : Prop :=
  { t.core c with tlb := (s.core c).tlb, tlbErr := (s.core c).tlbErr, far := (s.core c).far, mig := (s.core c).mig } = s.core c

namespace FarOnly

variable {c : Nat} {s t u : State}

theorem refl (c : Nat) (s : State) : FarOnly c s s := rfl

theorem trans (h : FarOnly c s t) (k : FarOnly c t u) : FarOnly c s u := by
  unfold FarOnly at *
  rw [← h, ← k]

theorem of_cores (h : t.cores = s.cores) : FarOnly c s t := by
  unfold FarOnly
  rw [State.core_of h]

theorem updCore (i : Nat) (f : Core → Core) (s : State)
    (hf : ∀ x : Core, { f x with tlb := x.tlb, tlbErr := x.tlbErr, far := x.far, mig := x.mig } = x := by intro; rfl) :
    FarOnly c s (s.updCore i f) := by
  unfold FarOnly
  by_cases e : c = i
  · rw [e, State.core_updCore, hf]
  · rw [State.core_updCore_ne s e]

theorem foldl {α : Type} {g : State → α → State} (hg : ∀ z a, FarOnly c z (g z a)) (l : List α) (s : State) :
    FarOnly c s (l.foldl g s) := by
  induction l generalizing s with
  | nil => exact refl c s
  | cons a l ih => exact (hg s a).trans (ih _)

theorem ite {p : Prop} [Decidable p] (h : FarOnly c s t) (k : FarOnly c s u) : FarOnly c s (if p then t else u) := by
  split
  · exact h
  · exact k

theorem chatter (r : Res) (a : Nat) (s : State) : FarOnly c s (chatter r a s) :=
  of_cores ((State.Accounted.refl s).chatter r a).cores_eq

theorem setTlb (u : TlbUser) (l : List TlbEntry) (e : Bool) (s : State) : FarOnly c s (setTlb u l e s) := by
  cases u with
  | core i => exact updCore _ _ s
  | die d => exact of_cores rfl
  | headstock => exact of_cores rfl

theorem walkRead (q va : Nat) (w : Bool) (s : State) : FarOnly c s (walkRead q va w s).1 :=
  of_cores (State.ReadsOnly.walkRead (q := q) va w s).cores

theorem translate (u : TlbUser) (q va : Nat) (w : Bool) (s : State) : FarOnly c s (translate u q va w s).1 := by
  unfold Machine.translate
  dsimp only
  split
  · exact walkRead ..
  · split
    · exact ((setTlb ..).trans (chatter ..)).trans (walkRead ..)
    · split <;> exact refl c s

theorem lookupAll (u : TlbUser) (q : Nat) (vas : List Nat) (s : State) : FarOnly c s (lookupAll u q vas s) :=
  foldl (fun z va => translate u q va false z) vas s

theorem emit (o : Output) (s : State) : FarOnly c s (s.emit o) := of_cores rfl

theorem submit (r : MemReq) (s : State) : FarOnly c s (submit r s) := by
  unfold Machine.submit
  split
  · exact of_cores rfl
  · exact of_cores rfl
  · exact ite (refl c s) (ite (of_cores rfl) (foldl (fun z e => emit _ z) _ s))
  · exact refl c s

theorem flushWcb (i q : Nat) (p : WcbLine → Bool) (s : State) : FarOnly c s (flushWcb i q p s) :=
  (updCore i (fun x => { x with far := { x.far with wcb := (s.core i).far.wcb.filter fun l => !p l } }) s).trans
    (foldl (fun z _ => submit _ z) _ _)

theorem farParity (i line : Nat) (s : State) : FarOnly c s (farParity i line s) :=
  ite ((updCore i (fun x => { x with far := dropLine line x.far }) s).trans (chatter ..)) (refl c s)

theorem countWindow (d q va pa : Nat) (s : State) : FarOnly c s (countWindow d q va pa s) := by
  unfold Machine.countWindow
  split <;> exact of_cores rfl

theorem submitMiss (i k : Nat) (r : MemReq) (s : State) : FarOnly c s (submitMiss i k r s) := by
  unfold Machine.submitMiss
  split
  · dsimp only
    split
    · exact ite (submit r s) (trans (t := s.updBed _ _) (of_cores rfl) (updCore i _ _))
    · exact submit r s
  · exact submit r s

theorem requestLine (i q : Nat) (n : FarNeed) (more : Nat) (s : State) : FarOnly c s (requestLine i q n more s) := by
  unfold Machine.requestLine
  dsimp only
  refine ite (refl c s) ?_
  split
  · exact refl c s
  · exact ((((farParity ..).trans (flushWcb ..)).trans (updCore ..)).trans (countWindow ..)).trans (submitMiss ..)

theorem requestLines (i q : Nat) (ns : List FarNeed) (s : State) : FarOnly c s (requestLines i q ns s) := by
  induction ns generalizing s with
  | nil => exact refl c s
  | cons n ns ih => exact (requestLine ..).trans (ih _)

theorem vfErr (h : FarOnly c s t) : (t.core c).vfErr = (s.core c).vfErr := (congrArg Core.vfErr h :)

/-- What is pending at a core's boundary depends on neither its TLB nor its far cache. -/
theorem deliver_eq_none (h : FarOnly c s t) (none_now : deliver c s = none) : deliver c t = none := by
  have boundary : (t.core c).atBoundary = (s.core c).atBoundary := (congrArg Core.atBoundary h :)
  have pend : (t.core c).pend = (s.core c).pend := (congrArg Core.pend h :)
  have twait : (t.core c).twait = (s.core c).twait := (congrArg Core.twait h :)
  have tu : (t.core c).tu = (s.core c).tu := (congrArg Core.tu h :)
  have niw : (t.core c).niw = (s.core c).niw := (congrArg Core.niw h :)
  revert none_now
  unfold deliver takeImmediate takeHeldAtTwait takeHeld
  dsimp only
  rw [boundary, pend, twait, tu, niw]
  cases (s.core c).atBoundary
  · exact fun _ => rfl
  · cases lowest (s.core c).pend.imm
    · cases (s.core c).twait
      · cases (s.core c).niw <;> cases (s.core c).pend.nextHeld <;> simp
      · cases (s.core c).tu.done <;> cases lowest (s.core c).pend.heldExc <;> simp
    · simp

end FarOnly

@[simp] theorem coreNum_val (c : CoreId) : coreNum c.val = c := Fin.ext (Nat.mod_eq_of_lt c.isLt)

/-- Register files without errors are read as they stand (R170). -/
theorem vfReads_clean {c : Nat} {s : State} (h : (s.core c).vfErr = []) (cs : List Nat) : vfReads c cs s = (none, s) := by
  have one (n : Nat) : vfRead c s n = s := by
    unfold vfRead
    rw [h]
    rfl
  unfold vfReads
  rw [if_neg (by simp [h]), List.foldl_fixed' one]

/-- A front end without errors lets the bundle evaluate (R98, R170). -/
theorem frontEnd_clean {c : Nat} {s : State} (ctl : (s.core c).ctlErr = false) (bundles : (s.core c).bundleErr = [])
    (vf : (s.core c).vfErr = []) : frontEnd c s = (none, s) := by
  have one (i : Nat) : syllRead c s i = s := by
    unfold syllRead
    rw [bundles]
    rfl
  unfold frontEnd
  dsimp only
  rw [if_neg (by simp [ctl]), if_neg (by simp [bundles]), List.foldl_fixed' one]
  split
  · exact vfReads_clean vf _
  · rfl

theorem commitChecked_clean {c : Nat} {s : State} (h : (s.core c).vfErr = []) (q next : Nat) (fx : List Fx) :
    commitChecked c q next fx s = commit c q next fx s := by
  unfold commitChecked
  rw [vfReads_clean h]

theorem touchBundle_clean {c : Nat} {s : State} (h : (s.core c).storeErr = []) (q : Nat) (full : Bool) : touchBundle c q full s = s :=
  if_pos (by rw [h]; rfl)

theorem touchLoad_clean {c : Nat} {s : State} (h : (s.core c).storeErr = []) (q : Nat) : touchLoad c q s = s :=
  if_pos (by rw [h]; rfl)

end Sys2Proof.Machine
end

section
/-! PROOF. O19: a bundle's issue, and the fault point of one with a vector load (R94, R134, R137, R164). -/

namespace Sys2Proof.Machine

section
variable {c : CoreId} {q : Nat} {env : Env} {s₀ : State}

/-- A core that is ready issues what its bundle evaluates to. -/
theorem exec_bundleIssue_ready (ready : ReadyToIssue c q (applyUpsets env.upsets s₀))
    (load : ((applyUpsets env.upsets s₀).core c).vload = false) :
    let s := applyUpsets env.upsets s₀
    exec (.bundleIssue c env) s₀ = .next (carryOut c q false (evalBundle c q false s).1 (evalBundle c q false s).2 s) := by
  obtain ⟨runs, twait, ctl, bundles, store, vf, -⟩ := ready
  refine congrArg Host.Outcome.next ?_
  rw [runs]
  unfold bundleStep
  dsimp only
  rw [if_neg (by simp [twait]), if_neg (by simp [twait, load]), frontEnd_clean ctl bundles vf]
  dsimp only
  rw [touchBundle_clean store]

theorem exec_vectorLoadFaultPoint_ready (ready : ReadyToIssue c q (applyUpsets env.upsets s₀))
    (load : ((applyUpsets env.upsets s₀).core c).vload = true) :
    let s := applyUpsets env.upsets s₀
    exec (.vectorLoadFaultPoint c env) s₀ = .next (carryOut c q true (evalBundle c q true s).1 (evalBundle c q true s).2 s) := by
  obtain ⟨runs, twait, -, -, store, -, -⟩ := ready
  refine congrArg Host.Outcome.next ?_
  rw [runs]
  unfold faultPointStep
  dsimp only
  rw [if_pos (by simp [twait, load]), touchLoad_clean store]

end

section
variable {c : CoreId} {q next : Nat} {s : State}

theorem lookedUp_farOnly (c : CoreId) (q : Nat) (r : BunR) (s : State) : FarOnly c s (lookedUp c q r s) := .lookupAll ..

theorem carryOut_exc (full : Bool) (e : Exc) : carryOut c q full (.exc e) next s = enter c e (lookedUp c q (.exc e) s) := by
  unfold carryOut
  rw [coreNum_val]
  rfl

/-- With nothing to deliver, a bundle that lacks far lines asks for them and waits. -/
theorem carryOut_wait (quiet : deliver c s = none) (full : Bool) (ns : List FarNeed) (mig : Bool) :
    carryOut c q full (.wait ns mig) next s =
      (requestLines c q ns (lookedUp c q (.wait ns mig) s)).updCore c fun x => { x with mig := mig } := by
  have still := (((lookedUp_farOnly c q (.wait ns mig) s).trans (.requestLines c q ns _)).trans
    (.updCore c (fun x => { x with mig := mig }) _)).deliver_eq_none quiet
  unfold carryOut
  rw [coreNum_val]
  unfold lookedUp at still ⊢
  dsimp only
  rw [still]
  exact ite_self _

/-- With nothing to deliver, a bundle that issues without a load, or at its fault point, commits. -/
theorem carryOut_commit (quiet : deliver c s = none) (vf : (s.core c).vfErr = []) {full load : Bool} (h : full = true ∨ load = false)
    (fx : List Fx) : carryOut c q full (.issue fx load) next s = commit c q next fx (lookedUp c q (.issue fx load) s) := by
  have far := lookedUp_farOnly c q (.issue fx load) s
  have still := far.deliver_eq_none quiet
  rw [← commitChecked_clean (far.vfErr.trans vf)]
  unfold carryOut
  rw [coreNum_val]
  unfold lookedUp at still ⊢
  dsimp only
  rw [still]
  obtain rfl | rfl := h
  · rfl
  · exact ite_self _

theorem carryOut_load (quiet : deliver c s = none) (fx : List Fx) : carryOut c q false (.issue fx true) next s =
    (lookedUp c q (.issue fx true) s).updCore c fun x => { x with vload := true, mig := false } := by
  have still := (lookedUp_farOnly c q (.issue fx true) s).deliver_eq_none quiet
  unfold carryOut
  rw [coreNum_val]
  unfold lookedUp at still ⊢
  dsimp only
  rw [still]
  rfl

end

/-- Settles O19: on a core that is ready nothing comes between the bundle's evaluation and what it asks for, since the lookups and
the requests for lines change nothing that a delivery or a read depends on. -/
theorem bundleIssue : Obligations.BundleIssue := by
  intro c q env s₀ s ready
  obtain ⟨-, -, -, -, -, vf, quiet⟩ := id ready
  refine ⟨fun load => ?_, fun load => ?_⟩
  · rw [exec_bundleIssue_ready ready load]
    refine ⟨fun e next h => ?_, fun ns mig next h => ?_, fun fx next h => ?_, fun fx next h => ?_⟩ <;> rw [h]
    · rw [carryOut_exc]
    · rw [carryOut_wait quiet]
    · rw [carryOut_commit quiet vf (.inr rfl)]
    · rw [carryOut_load quiet]
  · rw [exec_vectorLoadFaultPoint_ready ready load]
    refine ⟨fun e next h => ?_, fun ns mig next h => ?_, fun fx load next h => ?_⟩ <;> rw [h]
    · rw [carryOut_exc]
    · rw [carryOut_wait quiet]
    · rw [carryOut_commit quiet vf (.inl rfl)]

end Sys2Proof.Machine
end

section
/-! SUPPORT. Operands in short absolute mode (R90, R92) and in address registers (R91), and a syllable's evaluation operand by operand
(R137). -/

namespace Sys2Proof.Machine

/-- The word that a specifier in short absolute mode names (R90). -/
def Spec.shortWord (s : Spec) : Nat := s.bits % 4096

theorem Spec.shortWord_lt (s : Spec) : s.shortWord < 4096 := Nat.mod_lt _ (by decide)

/-- A short absolute address passes every check of R92: it lies far below the exception table. -/
theorem checkAccess_short (cx : Cx) {w : Nat} (hw : w < 4096) (write : Bool) : checkAccess cx (8 * w) 8 8 write = .ok none := by
  have apart : overlaps (8 * w) 8 tableBase 0xC00 = false := by
    have low : ¬ tableBase < 8 * w + 8 := by
      unfold tableBase
      omega
    simp [overlaps, low]
  have near : inLocal (8 * w) = true := decide_eq_true (by omega)
  have placed : (8 * w % 8 ≠ 0 || (decide (8 * w < 0x400000) && decide (0x400000 < 8 * w + 8))) = false := by
    have inside : ¬ 0x400000 < 8 * w + 8 := by omega
    simp [inside]
  unfold checkAccess
  rw [if_neg (by omega), apart, if_neg (by simp), if_neg (by rw [placed]; exact Bool.false_ne_true), if_pos near]

theorem effAddr_short {s : Spec} (h : s.mode = 5) (x : Core) (e : Nat) : effAddr x s e = some (8 * s.shortWord) := by
  unfold effAddr
  dsimp only
  rw [h, if_neg (by omega), if_neg (by omega), Nat.mul_comm]
  rfl

theorem specUpdate_short {s : Spec} (h : s.mode = 5) (x : Core) (e : Nat) : specUpdate x s e = [] := by
  unfold specUpdate
  rw [h]
  rfl

/-- The operand that a core-store word is. -/
def wordOperand (x : Core) (w : Nat) : OpR := ⟨x.word w, .word w, 8 * w, [], []⟩

section
variable {cx : Cx} {s : Spec} {read : Option Cls} {write : Bool}

/-- A short absolute operand that no action holds is the core-store word it names (R92). -/
theorem memOperand_short (h : s.mode = 5) (pos : Nat) (far : Option Tag)
    (free : (write && hits cx.x.heldRanges (8 * s.shortWord) 8 || read.isSome && hits cx.x.heldWritten (8 * s.shortWord) 8) = false)
    (fits : (read.bind fun c => classFault c (cx.x.word s.shortWord)) = none) :
    memOperand cx pos s read write far = .ok (wordOperand cx.x s.shortWord) := by
  unfold memOperand
  rw [effAddr_short h, specUpdate_short h]
  dsimp only
  rw [checkAccess_short cx s.shortWord_lt, Nat.mul_div_cancel_left _ (by decide)]
  dsimp only
  rw [if_neg (by rw [free]; exact Bool.false_ne_true), fits]
  rfl

/-- One whose word does not meet its class raises the class's exception at the word's address (R81, R84). -/
theorem memOperand_short_fault (h : s.mode = 5) (pos : Nat) (far : Option Tag)
    (free : (write && hits cx.x.heldRanges (8 * s.shortWord) 8 || read.isSome && hits cx.x.heldWritten (8 * s.shortWord) 8) = false)
    {e : Nat × Nat} (fails : (read.bind fun c => classFault c (cx.x.word s.shortWord)) = some e) :
    memOperand cx pos s read write far = .error (.exc e.1 e.2 (8 * s.shortWord) pos) := by
  unfold memOperand
  rw [effAddr_short h]
  dsimp only
  rw [checkAccess_short cx s.shortWord_lt, Nat.mul_div_cancel_left _ (by decide)]
  dsimp only
  rw [if_neg (by rw [free]; exact Bool.false_ne_true), fails]

end

section
variable {cx : Cx} {y : Syll} {pos : Nat} {k : Cls} {e : Nat × Nat}

theorem operand_dst_short (h : (y.spec pos).mode = 5) (free : hits cx.x.heldRanges (8 * (y.spec pos).shortWord) 8 = false) :
    operand cx y none .dst pos = .ok (wordOperand cx.x (y.spec pos).shortWord) :=
  (if_neg (by omega)).trans (memOperand_short h pos none (by simp [free]) rfl)

theorem operand_src_mem (h : (y.spec pos).mode = 5) :
    operand cx y none (.src k) pos = memOperand cx pos (y.spec pos) (some k) false k.farTag :=
  (if_neg (by omega)).trans (if_neg (by omega))

theorem operand_src_short (h : (y.spec pos).mode = 5) (free : hits cx.x.heldWritten (8 * (y.spec pos).shortWord) 8 = false)
    (fits : classFault k (cx.x.word (y.spec pos).shortWord) = none) :
    operand cx y none (.src k) pos = .ok (wordOperand cx.x (y.spec pos).shortWord) :=
  (operand_src_mem h).trans (memOperand_short h pos _ (by simp [free]) fits)

theorem operand_src_short_fault (h : (y.spec pos).mode = 5) (free : hits cx.x.heldWritten (8 * (y.spec pos).shortWord) 8 = false)
    (fails : classFault k (cx.x.word (y.spec pos).shortWord) = some e) :
    operand cx y none (.src k) pos = .error (.exc e.1 e.2 (8 * (y.spec pos).shortWord) pos) :=
  (operand_src_mem h).trans (memOperand_short_fault h pos _ (by simp [free]) fails)

/-- The operand that an address register is. -/
def aregOperand (x : Core) (r : Nat) : OpR := { OpR.empty with v := x.areg r, place := .areg r }

theorem operand_src_areg (h : (y.spec pos).mode = 7) (fits : classFault k (cx.x.areg (y.spec pos).r) = none) :
    operand cx y none (.src k) pos = .ok (aregOperand cx.x (y.spec pos).r) := by
  refine ((if_neg (by omega)).trans (if_pos h)).trans ?_
  dsimp only
  rw [fits]
  rfl

theorem operand_src_areg_fault (h : (y.spec pos).mode = 7) (fails : classFault k (cx.x.areg (y.spec pos).r) = some e) :
    operand cx y none (.src k) pos = .error (.exc e.1 e.2 0 pos) := by
  refine ((if_neg (by omega)).trans (if_pos h)).trans ?_
  dsimp only
  rw [fails]

end

/-! A syllable that its privilege allows. -/

section
variable {cx : Cx} {fx : List Fx} {y : Syll} {o : Op} {a b c : OpR} {e : Stop}

theorem evalScalar_second (sup : (needsSup y o && !cx.x.sup) = false)
    (first : operand cx y (ldtTag o) ((o.cols y).getD 0 .none) 1 = .ok a)
    (second : operand cx y (ldtTag o) ((o.cols y).getD 1 .none) 2 = .error e) : evalScalar cx fx y o = .error e := by
  unfold evalScalar
  rw [if_neg (by rw [sup]; exact Bool.false_ne_true)]
  dsimp only
  rw [first]
  dsimp only
  rw [second]

theorem evalScalar_third (sup : (needsSup y o && !cx.x.sup) = false)
    (first : operand cx y (ldtTag o) ((o.cols y).getD 0 .none) 1 = .ok a)
    (second : operand cx y (ldtTag o) ((o.cols y).getD 1 .none) 2 = .ok b)
    (third : operand cx y (ldtTag o) ((o.cols y).getD 2 .none) 3 = .error e) : evalScalar cx fx y o = .error e := by
  unfold evalScalar
  rw [if_neg (by rw [sup]; exact Bool.false_ne_true)]
  dsimp only
  rw [first]
  dsimp only
  rw [second]
  dsimp only
  rw [third]

/-- With its operands there and no register update among them, an instruction does its own part. -/
theorem evalScalar_own (sup : (needsSup y o && !cx.x.sup) = false)
    (first : operand cx y (ldtTag o) ((o.cols y).getD 0 .none) 1 = .ok a)
    (second : operand cx y (ldtTag o) ((o.cols y).getD 1 .none) 2 = .ok b)
    (third : operand cx y (ldtTag o) ((o.cols y).getD 2 .none) 3 = .ok c)
    (here : a.needs ++ b.needs ++ c.needs = []) (plain : sideFx a b c = []) :
    evalScalar cx fx y o = (doOp cx fx y o a b c).map fun f => ⟨f, [], false⟩ := by
  unfold evalScalar
  rw [if_neg (by rw [sup]; exact Bool.false_ne_true)]
  dsimp only
  rw [first]
  dsimp only
  rw [second]
  dsimp only
  rw [third]
  dsimp only
  rw [here, plain, if_pos List.isEmpty_nil]
  cases doOp cx fx y o a b c <;> rfl

end

end Sys2Proof.Machine
end

section
/-! PROOF. O20: scalar instructions on core-store words and address registers (R107, R108, R112, R139), and the commit of a bundle with one
effect (R93, R94). -/

namespace Sys2Proof.Machine

/-- The own part of a scalar ALU instruction whose operands match (R107). -/
theorem doOp_alu {o : AluOp} {a b c : OpR} (cx : Cx) (fx : List Fx) (y : Syll) (pair : o.pairOk b.v.tag c.v.tag = true) :
    doOp cx fx y (.alu o) a b c = if o.divides && decide (c.v.data = 0) then raise 12 0
      else (aluResult o a.v b.v c.v).elim (.ok []) (putRes a.place a.ea) := by
  refine (if_neg (by rw [pair]; exact Bool.false_ne_true)).trans ?_
  cases aluResult o a.v b.v c.v <;> rfl

theorem scalarAluRule : ScalarAluRule := by
  intro cx fx y o k l cols m1 m2 m3 i m n a b freeDst freeA freeB
  have dst := operand_dst_short (cx := cx) m1 freeDst
  have first : operand cx y (ldtTag (.alu o)) (((Op.alu o).cols y).getD 0 .none) 1 = .ok (wordOperand cx.x i) := by
    rw [cols]
    exact dst
  have second (r : Except Stop OpR) (h : operand cx y none (.src k) 2 = r) :
      operand cx y (ldtTag (.alu o)) (((Op.alu o).cols y).getD 1 .none) 2 = r := by
    rw [cols]
    exact h
  have third (r : Except Stop OpR) (h : operand cx y none (.src l) 3 = r) :
      operand cx y (ldtTag (.alu o)) (((Op.alu o).cols y).getD 2 .none) 3 = r := by
    rw [cols]
    exact h
  have own (okA : classFault k a = none) (okB : classFault l b = none) (pair : o.pairOk a.tag b.tag = true) :
      evalScalar cx fx y (.alu o) = (if o.divides && decide (b.data = 0) then raise 12 0
        else (aluResult o (cx.x.word i) a b).elim (.ok []) (putRes (.word i) (8 * i))).map fun f => ⟨f, [], false⟩ :=
    (evalScalar_own rfl first (second _ (operand_src_short m2 freeA okA)) (third _ (operand_src_short m3 freeB okB)) rfl rfl).trans
      (congrArg _ (doOp_alu cx fx y pair))
  refine ⟨fun okA okB pair divisor v result => ?_, fun e bad => ?_, fun e okA bad => ?_, fun okA okB pair divides zero => ?_⟩
  · have nonzero : (o.divides && decide (b.data = 0)) = false := by
      cases hd : o.divides with
      | false => rfl
      | true => simpa using divisor hd
    rw [own okA okB pair, nonzero, result]
    rfl
  · exact evalScalar_second rfl first (second _ (operand_src_short_fault m2 freeA bad))
  · exact evalScalar_third rfl first (second _ (operand_src_short m2 freeA okA)) (third _ (operand_src_short_fault m3 freeB bad))
  · rw [own okA okB pair, divides, zero]
    rfl

/-- A pointer in a pointer's class, and an integer in its own (R84). -/
theorem classFault_dptr {v : TWord} (h : v.tag = 5) : classFault .dptr v = none := by
  unfold classFault
  rw [h]
  rfl

theorem classFault_int {v : TWord} (h : v.tag = 0) : classFault .int v = none := by
  unfold classFault
  rw [h]
  rfl

/-- Any other tag but poison's is a Tag Check (R84). -/
theorem classFault_dptr_of_ne {v : TWord} (h : v.tag ≠ 5) (sound : v.tag ≠ tagPoison) : classFault .dptr v = some (0, 0) := by
  have other : ¬ Cls.dptr.accepts v.tag = true := by simpa [Cls.accepts] using h
  exact (if_neg (by simp [sound])).trans (if_neg other)

theorem addressArithmeticRule : AddressArithmeticRule := by
  intro cx fx y m1 m2 m3 a b
  refine ⟨fun tagA tagB => ?_, fun tagA sound => ?_⟩
  · have second := operand_src_areg (cx := cx) m2 (classFault_dptr tagA)
    have third := operand_src_areg (cx := cx) m3 (classFault_int tagB)
    exact ⟨(evalScalar_own (o := .s2 .aadd) rfl rfl second third rfl rfl).trans rfl,
      (evalScalar_own (o := .s2 .asub) rfl rfl second third rfl rfl).trans rfl⟩
  · have second := operand_src_areg_fault (cx := cx) m2 (classFault_dptr_of_ne tagA sound)
    exact ⟨evalScalar_second rfl rfl second, evalScalar_second rfl rfl second⟩

theorem State.updCore_congr {c : Nat} {f g : Core → Core} {s : State} (h : f (s.core c) = g (s.core c)) :
    s.updCore c f = s.updCore c g := by
  unfold State.updCore SMap.upd
  rw [show SMap.get Core.reset c s.cores = s.core c from rfl, h]

/-- The core at its next bundle, outside every loop (R94, R122). -/
def Core.goesOn (next stall : Nat) (x : Core) : Core :=
  { x.passCycles (1 + stall) with
    pc := next, branchOnly := false, vload := false, mig := false, far := { x.far with bundle := [] } }

theorem Core.goesOn_areg (next stall : Nat) (x : Core) (r : Nat) : (x.goesOn next stall).areg r = x.areg r := rfl

theorem Core.goesOn_word (next stall : Nat) (x : Core) (w : Nat) : (x.goesOn next stall).word w = x.word w := rfl

theorem Core.goesOn_frame (next stall : Nat) (x : Core) :
    { x.goesOn next stall with
      pc := x.pc, cycle := x.cycle, niLeft := x.niLeft, branchOnly := x.branchOnly, vload := x.vload, mig := x.mig
      far := x.far } = x := rfl

/-- The commit of one effect on its core that neither waits for the loop's end nor is TWAIT (R93, R94). -/
theorem commit_single {c q next : Nat} {s : State} {e : Fx} {f : Core → Core} (early : e.late = false) (issues : e ≠ .twait)
    (apply : applyFx c q s e = s.updCore c f) (delay : (s.core c).delay = none) (inner : lpActive (f (s.core c)).loopIn = false)
    (outer : lpActive (f (s.core c)).loopOut = false) :
    commit c q next [e] s = (s.updCore c f).drew.updCore c (Core.goesOn next (s.updCore c f).freeVal.toNat) := by
  have stays : ([e].contains .twait) = false := by simpa using issues.symm
  have back : loopBack (f (s.core c)).pc next (f (s.core c)) = (f (s.core c), next) := by
    simp [loopBack, inner, outer]
  have first : ([e].filter fun f => !f.late).foldl (applyFx c q) s = s.updCore c f := by
    rw [List.filter_singleton, early]
    exact apply
  have last : [e].filter Fx.late = [] := by
    rw [List.filter_singleton, early]
    rfl
  unfold commit
  rw [delay, stays, first, last]
  refine State.updCore_congr ?_
  rw [State.core_drew, if_neg Bool.false_ne_true, State.core_updCore, back]
  rfl

/-- What such a commit leaves: its core after the effect, at the next bundle, and nothing else but a free value drawn. -/
theorem commit_single_spec {c q next : Nat} {s : State} {e : Fx} {f : Core → Core} (early : e.late = false) (issues : e ≠ .twait)
    (apply : applyFx c q s e = s.updCore c f) (delay : (s.core c).delay = none) (inner : lpActive (f (s.core c)).loopIn = false)
    (outer : lpActive (f (s.core c)).loopOut = false) :
    (∃ stall, (commit c q next [e] s).core c = (f (s.core c)).goesOn next stall) ∧ (commit c q next [e] s).free = s.free + 1 ∧
      (∀ i, i ≠ c → (commit c q next [e] s).core i = s.core i) ∧
      { commit c q next [e] s with cores := s.cores, free := s.free } = s := by
  rw [commit_single early issues apply delay inner outer]
  refine ⟨⟨(s.updCore c f).freeVal.toNat, ?_⟩, rfl, fun i hi => ?_, rfl⟩
  · rw [State.core_updCore, State.core_drew, State.core_updCore]
  · rw [State.core_updCore_ne _ hi, State.core_drew, State.core_updCore_ne _ hi]

theorem bundleCommitRule : BundleCommitRule := by
  intro c q next s delay inner outer x
  refine ⟨fun r v => ?_, fun w v => ?_⟩
  · obtain ⟨⟨stall, core⟩, free, others, rest⟩ := commit_single_spec (q := q) (next := next) (e := .areg r v) (f := setAreg r v)
      rfl (by simp) rfl delay inner outer
    dsimp only
    rw [core]
    have same : (setAreg r v x).areg r = v := SMap.get_set _ r v x.a
    have other (i : Nat) (hi : i ≠ r) : (setAreg r v x).areg i = x.areg i := SMap.get_set_ne _ hi v x.a
    have frame : { setAreg r v x with a := x.a } = x := rfl
    refine ⟨same, other, rfl, delay, free, ?_, others, rest⟩
    exact (congrArg (fun y : Core => { y with a := x.a }) (Core.goesOn_frame next stall (setAreg r v x)) :)
  · obtain ⟨⟨stall, core⟩, free, others, rest⟩ := commit_single_spec (q := q) (next := next) (e := .word w v) (f := putWord w v)
      rfl (by simp) rfl delay inner outer
    dsimp only
    rw [core]
    have same : (putWord w v x).word w = v := SMap.get_set _ w v x.store
    have other (i : Nat) (hi : i ≠ w) : (putWord w v x).word i = x.word i := SMap.get_set_ne _ hi v x.store
    have sound : SMap.get CwErr.none w (putWord w v x).storeErr = CwErr.none :=
      SMap.get_set CwErr.none w CwErr.none x.storeErr
    have errors (i : Nat) (hi : i ≠ w) : SMap.get CwErr.none i (putWord w v x).storeErr = SMap.get CwErr.none i x.storeErr :=
      SMap.get_set_ne CwErr.none hi CwErr.none x.storeErr
    refine ⟨same, other, rfl, delay, free, sound, errors, ?_, others, rest⟩
    exact (congrArg (fun y : Core => { y with store := x.store, storeErr := x.storeErr }) (Core.goesOn_frame next stall (putWord w v x)) :)

/-- Settles O20: the operands' places and classes decide what the instruction does, and a commit with one effect is that effect on the
core, which goes on at its next bundle. -/
theorem scalarBundles : Obligations.ScalarBundles := ⟨bundleCommitRule, scalarAluRule, addressArithmeticRule⟩

end Sys2Proof.Machine
end

section
/-! PROOF. O34: messages leave their sender's port and enter their receiver's channel (R81, R117, R132, R275, R457). What an event's
bindings count (R37, R273) touches no channel. -/

namespace Sys2Proof.Machine

/-- Of core y nothing differs from core x but its turn units and the turn-aligned exceptions pending: what the counts of an event
change (R37). -/
def Core.Counted (x y : Core) : Prop :=
  { y with tu := x.tu, mtu := x.mtu, dtu := x.dtu, pend := { y.pend with turnExc := x.pend.turnExc } } = x

namespace Core.Counted

variable {x y z : Core}

theorem refl (x : Core) : x.Counted x := rfl

theorem trans (h : x.Counted y) (k : y.Counted z) : x.Counted z := by
  unfold Core.Counted at *
  rw [← h, ← k]

theorem turnExc (v turn : Nat) (x : Core) : x.Counted (x.turnExc v turn) := by
  unfold Core.turnExc
  split <;> rfl

theorem rx (h : x.Counted y) : y.rx = x.rx := (congrArg Core.rx h :)
theorem tx (h : x.Counted y) : y.tx = x.tx := (congrArg Core.tx h :)
theorem msgErr (h : x.Counted y) : y.msgErr = x.msgErr := (congrArg Core.msgErr h :)
theorem store (h : x.Counted y) : y.store = x.store := (congrArg Core.store h :)
theorem a (h : x.Counted y) : y.a = x.a := (congrArg Core.a h :)
theorem events (h : x.Counted y) : y.pend.events = x.pend.events := (congrArg (fun c => c.pend.events) h :)

end Core.Counted

/-- Every core of state t is so, and nothing more has been put out. -/
structure State.Counted (s t : State) : Prop where
  core : ∀ c, (s.core c).Counted (t.core c)
  out : t.out = s.out

namespace State.Counted

variable {s t u : State}

theorem refl (s : State) : s.Counted s := ⟨fun _ => .refl _, rfl⟩

theorem trans (h : s.Counted t) (k : t.Counted u) : s.Counted u := ⟨fun c => (h.core c).trans (k.core c), k.out.trans h.out⟩

theorem of_cores (cores : t.cores = s.cores) (out : t.out = s.out) : s.Counted t :=
  ⟨fun c => by rw [State.core_of cores]; exact .refl _, out⟩

theorem updCore (c : Nat) (f : Core → Core) (s : State) (hf : ∀ x : Core, x.Counted (f x)) : s.Counted (s.updCore c f) := by
  refine ⟨fun i => ?_, rfl⟩
  by_cases e : i = c
  · rw [e, State.core_updCore]
    exact hf _
  · rw [State.core_updCore_ne s e]
    exact .refl _

theorem updTu (q : Nat) (u : UnitRef) (f : TurnUnit → TurnUnit) (s : State) : s.Counted (updTu q u f s) := by
  cases u with
  | core c => exact updCore c _ s fun _ => rfl
  | mover c => exact updCore c _ s fun _ => rfl
  | drain c => exact updCore c _ s fun _ => rfl
  | bulk d => exact of_cores rfl rfl
  | reg k => exact of_cores rfl rfl
  | recorder => exact of_cores rfl rfl

theorem bumpCounter (q : Nat) (u : UnitRef) (ac by' : Nat) (s : State) : s.Counted (bumpCounter q u ac by' s) := by
  unfold Machine.bumpCounter
  dsimp only
  split
  · exact updTu ..
  · exact (updCore _ _ s (.turnExc 13 _)).trans (of_cores rfl rfl)

theorem coreEvent (q c evt sel : Nat) (s : State) : s.Counted (coreEvent q c evt sel s) := by
  unfold Machine.coreEvent
  generalize List.range 16 = entries
  induction entries generalizing s with
  | nil => exact refl s
  | cons i entries ih =>
    rw [List.foldl_cons]
    refine trans ?_ (ih _)
    dsimp only
    split
    · exact bumpCounter ..
    · exact refl s

end State.Counted

/-- An interrupt event of a turn is pending once it has come about (R132). -/
theorem mem_events_event (v turn : Nat) (x : Core) : (turn, v) ∈ (x.event v turn).pend.events := by
  unfold Core.event
  split
  · exact List.contains_iff_mem.1 ‹_›
  · exact List.mem_append_right _ (List.mem_singleton.2 rfl)

/-- A core that a message has entered, but for its counters. -/
def Core.heard (turn : Nat) (m : Msg) (x : Core) : Core :=
  ({ x with rx := SMap.upd [] m.chan (· ++ [m]) x.rx } : Core).event 16 turn

/-- An event changes nothing but the list of events pending. -/
theorem Core.event_frame (v turn : Nat) (x : Core) : { x.event v turn with pend := x.pend } = x := by
  unfold Core.event
  split <;> rfl

/-- A message enters its channel behind those that wait there, with vector 16 of the turn (R132, R275): every other channel, the
store, the registers, the ports of all cores and the buffers of the others stay. -/
theorem rxMsg_spec (q r turn : Nat) (m : Msg) (s : State) :
    let t := rxMsg q r turn m s
    (t.core r).rxOf m.chan = (s.core r).rxOf m.chan ++ [m] ∧ (∀ k, k ≠ m.chan → (t.core r).rxOf k = (s.core r).rxOf k) ∧
      (turn, 16) ∈ (t.core r).pend.events ∧ (t.core r).store = (s.core r).store ∧ (t.core r).a = (s.core r).a ∧
      (∀ k, (t.core k).tx = (s.core k).tx ∧ (t.core k).msgErr = (s.core k).msgErr) ∧
      (∀ k, k ≠ r → (t.core k).rx = (s.core k).rx) ∧ t.out = s.out := by
  intro t
  have counted : (s.updCore r (Core.heard turn m)).Counted t := .coreEvent ..
  have frame := Core.event_frame 16 turn { s.core r with rx := SMap.upd [] m.chan (· ++ [m]) (s.core r).rx }
  have here := counted.core r
  rw [State.core_updCore] at here
  have rx : (t.core r).rx = SMap.upd [] m.chan (· ++ [m]) (s.core r).rx := here.rx.trans (congrArg Core.rx frame :)
  refine ⟨?_, fun k hk => ?_, ?_, here.store.trans (congrArg Core.store frame :), here.a.trans (congrArg Core.a frame :),
    fun k => ?_, fun k hk => ?_, counted.out⟩
  · unfold Core.rxOf
    rw [rx, SMap.get_upd]
  · unfold Core.rxOf
    rw [rx, SMap.get_upd_ne _ hk]
  · rw [here.events]
    exact mem_events_event ..
  · rw [(counted.core k).tx, (counted.core k).msgErr]
    by_cases e : k = r
    · rw [e, State.core_updCore]
      exact ⟨(congrArg Core.tx frame :), (congrArg Core.msgErr frame :)⟩
    · rw [State.core_updCore_ne s e]
      exact ⟨rfl, rfl⟩
  · rw [(counted.core k).rx, State.core_updCore_ne s hk]

section
variable {c : CoreId} {env : Env} {s₀ : State}

theorem exec_messageAccept_here {q i r : Nat} {m : Msg} (runs : (applyUpsets env.upsets s₀).runsPart c = some q)
    (next : nextAccept q c (applyUpsets env.upsets s₀) ((applyUpsets env.upsets s₀).core c).tx [] 0 = some (i, m))
    (receiver : ((applyUpsets env.upsets s₀).part q).physOf m.dst = some r) :
    exec (.messageAccept (.here c) env) s₀ = .next (acceptMsg q c i r m (applyUpsets env.upsets s₀)) := by
  refine congrArg Host.Outcome.next ?_
  dsimp only
  rw [runs]
  dsimp only
  rw [next]
  dsimp only
  rw [receiver]

theorem exec_messageAccept_out {q dst chan i : Nat} {m : Msg} (runs : (applyUpsets env.upsets s₀).runsPart c = some q)
    (place : indexWhere (fun m => m.dst == dst && m.chan == chan) ((applyUpsets env.upsets s₀).core c).tx = some i)
    (message : ((applyUpsets env.upsets s₀).core c).tx[i]? = some m)
    (remote : ((applyUpsets env.upsets s₀).part q).remote.contains dst = true) :
    exec (.messageAccept (.out c dst chan) env) s₀ =
      .next ((popMsg c i m (applyUpsets env.upsets s₀)).1.emit (.spanMsg q (popMsg c i m (applyUpsets env.upsets s₀)).2)) := by
  refine congrArg Host.Outcome.next ?_
  dsimp only
  rw [runs]
  dsimp only [sendOut]
  rw [place]
  dsimp only
  rw [message, remote]

theorem exec_messageAccept_arrived {q : PartId} {src dst r : Nat} {chan : Fin 16} {word : TWord}
    (receiver : ((applyUpsets env.upsets s₀).part q).physOf dst = some r) :
    let s := applyUpsets env.upsets s₀
    exec (.messageAccept (.arrived q src dst chan word) env) s₀ = .next
      (if (s.part q).st = .running ∧ (s.part q).remote.contains src = true ∧ ((s.core r).rxOf chan).length < 8 ∧
          (s.core r).tu.turn = (s.part q).turn then rxMsg q r (s.part q).turn ⟨src, dst, chan, word⟩ s else s) := by
  refine congrArg Host.Outcome.next ?_
  dsimp only [msgArrives]
  rw [receiver]

end

theorem popMsg_core (c i : Nat) (m : Msg) (s : State) :
    (popMsg c i m s).1.core c = { s.core c with tx := dropAt i (s.core c).tx, msgErr := false } := State.core_updCore ..

theorem popMsg_core_ne {c k : Nat} (h : k ≠ c) (i : Nat) (m : Msg) (s : State) : (popMsg c i m s).1.core k = s.core k :=
  State.core_updCore_ne s h _

/-- Of the sender only the port changes as a message leaves it. -/
theorem popMsg_kept (c i : Nat) (m : Msg) (s : State) (k : Nat) : ((popMsg c i m s).1.core k).rx = (s.core k).rx ∧
    ((popMsg c i m s).1.core k).store = (s.core k).store ∧ ((popMsg c i m s).1.core k).a = (s.core k).a := by
  by_cases e : k = c
  · rw [e, popMsg_core]
    exact ⟨rfl, rfl, rfl⟩
  · rw [popMsg_core_ne e]
    exact ⟨rfl, rfl, rfl⟩

/-- Settles O34: a message is taken from its port, and what it does at its receiver is that of `rxMsg_spec`, whichever module it came
from. -/
theorem messageAccept : Obligations.MessageAccept := by
  intro c env s₀ s sent enters
  refine ⟨fun q i r m runs next receiver => ?_, fun q dst chan i m runs place message remote => ?_,
    fun q src dst chan word r => ?_⟩
  · obtain ⟨chanHere, chans, event, store, regs, ports, others, -⟩ :=
      rxMsg_spec q r (s.core c).tu.turn (popMsg c i m s).2 (popMsg c i m s).1
    obtain ⟨rx, store', regs'⟩ := popMsg_kept c i m s r
    unfold Core.rxOf at chanHere chans
    rw [rx] at chanHere chans
    refine ⟨_, exec_messageAccept_here runs next receiver, ?_, ?_, ⟨chanHere, chans, event, store.trans store', regs.trans regs'⟩,
      fun k hc hr => ?_⟩
    · exact (ports c).1.trans (congrArg Core.tx (popMsg_core c i m s) :)
    · exact (ports c).2.trans (congrArg Core.msgErr (popMsg_core c i m s) :)
    · have same := popMsg_core_ne hc i m s
      exact ⟨(others k hr).trans (congrArg Core.rx same :), (ports k).1.trans (congrArg Core.tx same :)⟩
  · exact ⟨_, exec_messageAccept_out runs place message remote, rfl, (congrArg Core.tx (popMsg_core c i m s) :),
      (congrArg Core.msgErr (popMsg_core c i m s) :), fun k hk => popMsg_core_ne hk i m s, rfl⟩
  · intro p receiver
    refine ⟨fun run remote room spur => ?_, fun waits => ?_⟩
    · obtain ⟨chanHere, chans, event, store, regs, ports, -, out⟩ := rxMsg_spec q r p.turn ⟨src, dst, chan, word⟩ s
      exact ⟨_, (exec_messageAccept_arrived receiver).trans (congrArg Host.Outcome.next (if_pos ⟨run, remote, room, spur⟩)),
        ⟨chanHere, chans, event, store, regs⟩, fun k => (ports k).1, out⟩
    · refine (exec_messageAccept_arrived receiver).trans (congrArg Host.Outcome.next (if_neg ?_))
      rintro ⟨-, remote, room, spur⟩
      obtain h | h | h := waits
      · rw [h] at remote
        exact nomatch remote
      · exact absurd room (Nat.not_lt.2 h)
      · exact h spur

end Sys2Proof.Machine
end

section
/-! PROOF. O55: the diagnostic tests (R72, R76, R131, R134, R288, R387, R414): what they read, and the break request. -/

namespace Sys2Proof.Machine

/-! The bytes of a test's answer. -/

theorem length_wordBytes (f : Nat → Nat) (w : Nat) (l : List Nat) : (l.flatMap fun i => leBytes (f i) w).length = w * l.length := by
  induction l with
  | nil => rfl
  | cons a l ih => rw [List.flatMap_cons, List.length_append, ih, length_leBytes, List.length_cons, Nat.mul_succ, Nat.add_comm]

/-- The i-th of the words of a block. -/
theorem fieldAt_wordBytes (f : Nat → Nat) (w : Nat) (l : List Nat) {i a : Nat} (h : l[i]? = some a) :
    fieldAt (l.flatMap fun i => leBytes (f i) w) (w * i) w = f a % 256 ^ w := by
  induction l generalizing i with
  | nil => cases h
  | cons b l ih =>
    rw [List.flatMap_cons]
    cases i with
    | zero =>
      obtain rfl : b = a := by simpa using h
      rw [fieldAt_append_left _ (by simp), fieldAt_leBytes _ (by simp), Nat.mul_zero, pow_zero, Nat.div_one]
    | succ i =>
      rw [fieldAt_append_right _ _ (by rw [length_leBytes]; exact Nat.le_mul_of_pos_right w i.succ_pos), length_leBytes,
        Nat.mul_succ, Nat.add_sub_cancel]
      exact ih (by simpa using h)

theorem length_diagData (bs : List Byte) : (diagData bs).data.length = 8 + bs.length := by
  simp [diagData, MbxResult.ok]
  omega

theorem fieldAt_diagData_length (bs : List Byte) : fieldAt (diagData bs).data 0 4 = bs.length % 2 ^ 32 := by
  simp only [diagData, MbxResult.ok, List.append_assoc]
  rw [fieldAt_append_left _ (by simp), fieldAt_leBytes _ (by simp)]
  norm_num

theorem fieldAt_diagData (bs : List Byte) (k n : Nat) : fieldAt (diagData bs).data (8 + k) n = fieldAt bs k n := by
  simp only [diagData, MbxResult.ok]
  rw [fieldAt_append_right _ _ (by simp)]
  simp

/-- The answer that holds n words of w bytes each. -/
def wordsResult (f : Nat → Nat) (w n : Nat) : MbxResult := diagData ((List.range n).flatMap fun i => leBytes (f i) w)

theorem wordsResult_spec (f : Nat → Nat) (w n : Nat) :
    (wordsResult f w n).data.length = 8 + w * n ∧ fieldAt (wordsResult f w n).data 0 4 = w * n % 2 ^ 32 ∧
    ∀ i, i < n → fieldAt (wordsResult f w n).data (8 + w * i) w = f i % 256 ^ w := by
  unfold wordsResult
  refine ⟨?_, ?_, fun i hi => ?_⟩
  · rw [length_diagData, length_wordBytes, List.length_range]
  · rw [fieldAt_diagData_length, length_wordBytes, List.length_range]
  · rw [fieldAt_diagData]
    exact fieldAt_wordBytes f w _ (by simp [hi])

/-! Words without errors are read as they were written. -/

theorem code39_mod (v : Nat) : code39 v % 2 ^ 32 = v % 2 ^ 32 := by
  unfold code39
  omega

theorem code39_lt (v : Nat) : code39 v < 2 ^ 39 := by
  have := (Config.check39 (BitVec.ofNat 32 v)).isLt
  unfold code39
  omega

theorem code8_mod (v : Nat) : code8 v % 2 ^ 4 = v % 2 ^ 4 := by
  unfold code8
  omega

theorem code8_lt (v : Nat) : code8 v < 2 ^ 8 := by
  have := (Config.check8 (BitVec.ofNat 4 v)).isLt
  unfold code8
  omega

theorem code64_mod (v : Nat) : code64 v % 2 ^ 56 = v % 2 ^ 56 := by
  unfold code64
  omega

theorem coreCodes_clean (r : Nat) {i : Nat} {x : Core} (h : SMap.get CwErr.none i x.storeErr = CwErr.none) :
    coreCodes r i x = (code39 (x.word i).data.toNat, code39 ((x.word i).data.toNat / 2 ^ 32), code8 (x.word i).tag.toNat) := by
  unfold coreCodes
  rw [h]
  rfl

theorem coreData_clean (r : Nat) {i : Nat} {x : Core} (h : SMap.get CwErr.none i x.storeErr = CwErr.none) :
    coreData r i x = (x.word i).data.toNat := by
  have := (x.word i).data.isLt
  unfold coreData
  rw [coreCodes_clean r h]
  dsimp only
  rw [code39_mod, code39_mod]
  omega

/-- Two codewords of 39 bits and one of 8, side by side (R76). -/
theorem threeCodes {l h t : Nat} (hl : l < 2 ^ 39) (hh : h < 2 ^ 39) (ht : t < 2 ^ 8) :
    l + h * 2 ^ 39 + t * 2 ^ 78 < 2 ^ 86 ∧ (l + h * 2 ^ 39 + t * 2 ^ 78) % 2 ^ 32 = l % 2 ^ 32 ∧
    (l + h * 2 ^ 39 + t * 2 ^ 78) / 2 ^ 39 % 2 ^ 32 = h % 2 ^ 32 ∧ (l + h * 2 ^ 39 + t * 2 ^ 78) / 2 ^ 78 % 16 = t % 16 := by
  norm_num only at *
  omega

/-- The data halves and the tag of the 86 bits of a core-store word (R76). -/
theorem coreBits_clean (r : Nat) {i : Nat} {x : Core} (h : SMap.get CwErr.none i x.storeErr = CwErr.none) :
    coreBits r i x < 2 ^ 86 ∧ coreBits r i x % 2 ^ 32 = (x.word i).data.toNat % 2 ^ 32 ∧
    coreBits r i x / 2 ^ 39 % 2 ^ 32 = (x.word i).data.toNat / 2 ^ 32 ∧ coreBits r i x / 2 ^ 78 % 16 = (x.word i).tag.toNat := by
  have wide := (x.word i).data.isLt
  have tag := (x.word i).tag.isLt
  obtain ⟨width, low, high, tagBits⟩ := threeCodes (code39_lt (x.word i).data.toNat) (code39_lt ((x.word i).data.toNat / 2 ^ 32))
    (code8_lt (x.word i).tag.toNat)
  unfold coreBits
  rw [coreCodes_clean r h]
  refine ⟨width, low.trans (code39_mod _), (high.trans (code39_mod _)).trans (Nat.mod_eq_of_lt (by omega)),
    (tagBits.trans (code8_mod _)).trans (Nat.mod_eq_of_lt tag)⟩

/-- The stamp word of a line without errors (R288). -/
theorem stampWord_clean (b l : Nat) {x : Bed} (h : x.stampErr = []) (hw : (SMap.get Stamp.cold l x.stamps).wstamp < 2 ^ 16)
    (hwr : (SMap.get Stamp.cold l x.stamps).writer < 2 ^ 12) (hr : (SMap.get Stamp.cold l x.stamps).rstamp < 2 ^ 16)
    (hrd : (SMap.get Stamp.cold l x.stamps).reader < 2 ^ 12) :
    stampWord b l x % 2 ^ 56 = (SMap.get Stamp.cold l x.stamps).wstamp + (SMap.get Stamp.cold l x.stamps).writer * 2 ^ 16 +
      (SMap.get Stamp.cold l x.stamps).rstamp * 2 ^ 28 + (SMap.get Stamp.cold l x.stamps).reader * 2 ^ 44 := by
  unfold stampWord
  rw [h]
  exact (code64_mod _).trans (Nat.mod_eq_of_lt (by omega))

/-! A test that is asked for, from the state in which the firmware has taken up its command. -/

theorem core_takenUp (p : PortId) (m r : Nat) (s : State) : (takenUp p m s).core r = s.core r :=
  State.core_of (State.updMbx_cores ..) r

theorem part_takenUp (p : PortId) (m q : Nat) (s : State) : (takenUp p m s).part q = s.part q :=
  State.part_of (State.updMbx_parts ..) q

theorem die_takenUp (p : PortId) (m d : Nat) (s : State) : (takenUp p m s).die d = s.die d :=
  State.die_of (State.updMbx_dies ..) d

theorem bed_takenUp (p : PortId) (m b : Nat) (s : State) : (takenUp p m s).bed b = s.bed b := by
  cases p <;> rfl

theorem coreRuns_takenUp (p : PortId) (m r : Nat) (s : State) : (takenUp p m s).coreRuns r = s.coreRuns r := by
  cases p <;> rfl

theorem moduleReg_takenUp (p : PortId) (m o : Nat) (s : State) : moduleReg o (takenUp p m s) = moduleReg o s := by
  cases p <;> rfl

theorem fencedReg_takenUp (p : PortId) (m o : Nat) (s : State) : fencedReg o (takenUp p m s) = fencedReg o s := by
  cases p <;> rfl

theorem seen_takenUp (p : PortId) (m : Nat) (s : State) : ((takenUp p m s).mbx p m).seen = (s.mbx p m).seen := by
  rw [takenUp, State.mbx_updMbx]

theorem diagCore_takenUp (c : Cmd) (stopped : Bool) (seen : Seen) (p : PortId) (m : Nat) (s : State) :
    diagCore c stopped seen (takenUp p m s) = diagCore c stopped seen s := by
  cases p <;> rfl

section

variable {p : PortId} {m : Nat} {s : State}

theorem diagRun_run {test : Nat} (ht : (s.mbx p m).command.field 0 1 = test) (h1 : (s.mbx p m).command.zero 1 3 = true)
    (h2 : (s.mbx p m).command.zero 20 4 = true) (run : toRun p m 0x0080 s = true) (f : Cmd → State → State × MbxResult) :
    diagRun p m test f s = completeMailbox p m (f (s.mbx p m).command (takenUp p m s)).2 (f (s.mbx p m).command (takenUp p m s)).1 := by
  unfold diagRun
  rw [if_pos ht, runCmd_ends run, h1, h2]
  rfl

/-- A test that only reads answers, and nothing else changes. -/
theorem diagRun_reads {test : Nat} {i : Instr} {f : Cmd → State → State × MbxResult} {r : MbxResult}
    (ex : exec i s = .next (diagRun p m test f s)) (ht : (s.mbx p m).command.field 0 1 = test)
    (h1 : (s.mbx p m).command.zero 1 3 = true) (h2 : (s.mbx p m).command.zero 20 4 = true) (run : toRun p m 0x0080 s = true)
    (hf : f (s.mbx p m).command (takenUp p m s) = (takenUp p m s, r)) :
    ∃ t, exec i s = .next t ∧ Answered p m r.status r.data s t ∧ OnlyBox p m s t := by
  refine ⟨_, ex, ?_⟩
  rw [diagRun_run ht h1 h2 run f, ← runCmd_ends run f]
  exact answers_only run hf

end

/-! The break request (R131, R134). -/

/-- A core that does not run, or stands before a delay bundle, keeps the break request pending. -/
theorem debugBreak_waits {r : Nat} {s : State} (h : s.coreRuns r = none ∨ (s.core r).delay.isSome = true) :
    debugBreak r s = s.updCore r (Core.immediate 15) := by
  unfold debugBreak
  cases runs : s.coreRuns r with
  | none => rfl
  | some q =>
    have waits : (s.core r).delay.isSome = true := h.resolve_left (by rw [runs]; exact Option.some_ne_none q)
    refine (if_pos rfl).trans (raiseImmediate_waits (.inl ?_) 15)
    simp [Core.atBoundary, Option.isNone_eq_false_iff.2 waits]

/-- Of the core only the exceptions pending change. -/
theorem immediate_rest (v : Nat) (x : Core) : { x.immediate v with pend := x.pend } = x := by
  unfold Core.immediate
  split <;> rfl

theorem coreRuns_halt {r q : Nat} {s : State} (h : s.coreRuns r = some q) : (s.core r).halt = 0 := by
  obtain ⟨k, -, h⟩ := Option.bind_eq_some_iff.1 h
  split at h
  next runs => exact runs.2.1
  next => cases h

theorem putWords_pend (w : Nat) (vs : List TWord) (x : Core) : (putWords w vs x).pend = x.pend :=
  List.foldlRecOn (motive := fun y : Core => y.pend = x.pend) _ _ rfl fun _ h _ _ => h

theorem enterCore_pend {e : Exc} {x : Core} (h : entryFail e.vec x = 0) : (enterCore e x).pend = x.pend :=
  (congrArg Core.pend (if_pos h) :).trans (putWords_pend _ _ x)

theorem enterCore_twait {e : Exc} {x : Core} (h : entryFail e.vec x = 0) : (enterCore e x).twait = false :=
  (congrArg Core.twait (if_pos h) :)

/-- A pending immediate exception is taken (R134). -/
def Core.takenImm (v : Nat) (x : Core) : Core := { x with pend := { x.pend with imm := x.pend.imm.filter (· != v) } }

/-- What becomes pending with nothing else pending, and is taken, leaves the core as it was. -/
theorem takenImm_immediate (v : Nat) {x : Core} (h : x.pend.imm = []) : (x.immediate v).takenImm v = x := by
  have noted : x.immediate v = { x with pend := { x.pend with imm := [v] } } := by simp [Core.immediate, h]
  rw [noted, Core.takenImm]
  dsimp only
  rw [show [v].filter (· != v) = x.pend.imm by simp [h]]

/-- A core that stands at a boundary with nothing pending enters Debug at once, its pending exceptions as they were (R134, R138). -/
theorem debugBreak_enters {r q : Nat} {s : State} (runs : s.coreRuns r = some q) (delay : (s.core r).delay = none)
    (branch : (s.core r).branchOnly = false) (vload : (s.core r).vload = false) (imm : (s.core r).pend.imm = [])
    (clean : (s.core r).storeErr = []) : ∃ e : Exc, e.vec = 15 ∧ (debugBreak r s).core r = enterCore e (s.core r) := by
  have noted : (s.core r).immediate 15 = { s.core r with pend := { (s.core r).pend with imm := [15] } } := by
    simp [Core.immediate, imm]
  have now : ((s.core r).immediate 15).atBoundary = true ∧ ((s.core r).immediate 15).vload = false ∧
      ((s.core r).immediate 15).halt = 0 := by
    rw [noted]
    exact ⟨by simp [Core.atBoundary, delay, branch], vload, coreRuns_halt runs⟩
  have first : lowest ((s.core r).immediate 15).pend.imm = some 15 := by rw [noted]; rfl
  have raised : debugBreak r s = raiseImmediate r 15 s := if_pos (by rw [runs]; rfl)
  have entered : ∃ e : Exc, e.vec = 15 ∧
      raiseImmediate r 15 s = enter r e ((s.updCore r (Core.immediate 15)).updCore r (Core.takenImm 15)) := by
    unfold raiseImmediate takeImmediate
    dsimp only
    rw [State.core_updCore, if_pos (by simp [now]), first]
    refine ⟨_, ?_, rfl⟩
    split <;> rfl
  obtain ⟨e, vec, entered⟩ := entered
  have back : ((s.updCore r (Core.immediate 15)).updCore r (Core.takenImm 15)).core r = s.core r := by
    rw [State.core_updCore, State.core_updCore, takenImm_immediate 15 imm]
  refine ⟨e, vec, ?_⟩
  rw [raised, entered, enter_clean (by rw [back]; exact clean), State.core_updCore, back]

theorem onlyBox_withCores {p : PortId} {m : Nat} {s t : State} (h : OnlyBox p m s t) (l : SMap Core) :
    OnlyBox p m { s with cores := l } { t with cores := l } := by
  obtain ⟨port, boxes, other, out, rest⟩ := h
  exact ⟨port, boxes, other, out, (congrArg (fun z : State => { z with cores := l }) rest :)⟩

/-- The break request completes with OK; of the module only that core changes. -/
theorem diagDebugBreak_spec {p : PortId} {m : MbxId} {s : State} {r : Nat} (run : toRun p m 0x0080 s = true)
    (h1 : (s.mbx p m).command.zero 1 3 = true) (h2 : (s.mbx p m).command.zero 20 4 = true)
    (ht : (s.mbx p m).command.field 0 1 = 5) (hr : diagCore (s.mbx p m).command false (s.mbx p m).seen s = (0, some r))
    (rest : { debugBreak r (takenUp p m s) with cores := (takenUp p m s).cores } = takenUp p m s) :
    ∃ t, exec (.diagDebugBreak p m) s = .next t ∧ Answered p m 0 (List.replicate 8 0) s t ∧
      t.cores = (debugBreak r (takenUp p m s)).cores ∧ OnlyBox p m s { t with cores := s.cores } := by
  refine ⟨_, rfl, ?_⟩
  rw [diagRun_run ht h1 h2 run, seen_takenUp, diagCore_takenUp, hr]
  dsimp only
  have port : (debugBreak r (takenUp p m s)).port p = (takenUp p m s).port p := by
    conv_rhs => rw [← rest]
    cases p <;> rfl
  obtain ⟨-, -, box⟩ := completeMailbox_spec (diagData []) (congrArg (Port.sends · m) port)
  refine ⟨completeMailbox_answered _ ((congrArg (Port.sends · m) port).trans (takenUp_sends ..)) (mbx_of_port (by rw [port]) m),
    (onlyBox_units box).2.1, onlyBox_trans (onlyBox_takenUp p m s) (State.updMbx_out ..) ?_⟩
  have cores : s.cores = (takenUp p m s).cores := (State.updMbx_cores ..).symm
  have boxed := onlyBox_withCores box s.cores
  rw [cores, rest] at boxed
  rw [cores]
  exact boxed

section

variable {p : PortId} {m : MbxId} {s : State} (run : toRun p m 0x0080 s = true) (h1 : (s.mbx p m).command.zero 1 3 = true)
  (h2 : (s.mbx p m).command.zero 20 4 = true)

include run h1 h2

/-- The rescue words of a core (R72, R414). -/
theorem diagRescueRead_rule {r : Nat} (ht : (s.mbx p m).command.field 0 1 = 1)
    (hr : diagCore (s.mbx p m).command true (s.mbx p m).seen s = (0, some r)) : ∃ t bs, exec (.diagRescueRead p m) s = .next t ∧
    Answered p m 0 bs s t ∧ OnlyBox p m s t ∧ bs.length = 1032 ∧ fieldAt bs 0 4 = 1024 ∧
    (∀ i, i < 128 → SMap.get CwErr.none (0x3FFC00 / 8 + i) (s.core r).storeErr = CwErr.none →
      fieldAt bs (8 + 8 * i) 8 = ((s.core r).word (0x3FFC00 / 8 + i)).data.toNat) := by
  obtain ⟨len, count, words⟩ := wordsResult_spec (fun i => coreData r (rescueWord + i) (s.core r)) 8 128
  obtain ⟨t, next, answered, box⟩ := diagRun_reads (i := .diagRescueRead p m)
    (r := wordsResult (fun i => coreData r (rescueWord + i) (s.core r)) 8 128) rfl ht h1 h2 run (by
    rw [seen_takenUp, diagCore_takenUp, hr]
    dsimp only
    rw [core_takenUp]
    rfl)
  refine ⟨t, _, next, answered, box, len, count, fun i hi clean => ?_⟩
  rw [words i hi]
  have read := coreData_clean r clean
  exact (Nat.mod_eq_of_lt (read ▸ BitVec.isLt _)).trans read

/-- Core-store words as they are stored (R76, R414). -/
theorem diagCoreStoreRead_rule {r : Nat} (ht : (s.mbx p m).command.field 0 1 = 2)
    (hr : diagCore (s.mbx p m).command true (s.mbx p m).seen s = (0, some r)) (hn : 1 ≤ (s.mbx p m).command.field 16 4)
    (hn' : (s.mbx p m).command.field 16 4 ≤ 250) (ha : (s.mbx p m).command.field 8 8 % 8 = 0)
    (ha' : (s.mbx p m).command.field 8 8 + 8 * (s.mbx p m).command.field 16 4 ≤ 0x400000) (clean : (s.core r).storeErr = []) :
    ∃ t bs, exec (.diagCoreStoreRead p m) s = .next t ∧ Answered p m 0 bs s t ∧ OnlyBox p m s t ∧
    bs.length = 8 + 16 * (s.mbx p m).command.field 16 4 ∧ fieldAt bs 0 4 = 16 * (s.mbx p m).command.field 16 4 ∧
    ∀ i, i < (s.mbx p m).command.field 16 4 → ∃ w, fieldAt bs (8 + 16 * i) 16 = w ∧
      w % 2 ^ 32 = ((s.core r).word ((s.mbx p m).command.field 8 8 / 8 + i)).data.toNat % 2 ^ 32 ∧
      w / 2 ^ 39 % 2 ^ 32 = ((s.core r).word ((s.mbx p m).command.field 8 8 / 8 + i)).data.toNat / 2 ^ 32 ∧
      w / 2 ^ 78 % 16 = ((s.core r).word ((s.mbx p m).command.field 8 8 / 8 + i)).tag.toNat := by
  generalize ea : (s.mbx p m).command.field 8 8 = a at ha ha' ⊢
  generalize en : (s.mbx p m).command.field 16 4 = n at hn hn' ha' ⊢
  obtain ⟨len, count, words⟩ := wordsResult_spec (fun i => coreBits r (a / 8 + i) (s.core r)) 16 n
  obtain ⟨t, next, answered, box⟩ := diagRun_reads (i := .diagCoreStoreRead p m)
    (r := wordsResult (fun i => coreBits r (a / 8 + i) (s.core r)) 16 n) rfl ht h1 h2 run (by
    rw [seen_takenUp, diagCore_takenUp, hr]
    dsimp only
    rw [core_takenUp, ea, en, if_neg (by omega)]
    rfl)
  refine ⟨t, _, next, answered, box, len, count.trans (Nat.mod_eq_of_lt (by omega)), fun i hi => ⟨_, words i hi, ?_⟩⟩
  obtain ⟨width, low, high, tag⟩ := coreBits_clean r (i := a / 8 + i) (x := s.core r) (by rw [clean]; rfl)
  rw [Nat.mod_eq_of_lt (lt_trans width (by norm_num))]
  exact ⟨low, high, tag⟩

/-- Stamp words of a bed store (R288, R414). -/
theorem diagStampRead_rule {b off : Nat} (ht : (s.mbx p m).command.field 0 1 = 3)
    (hl : locate ((s.mbx p m).command.field 8 8) = .bed b off) (hp : (s.mbx p m).command.part = 0xFF)
    (hn : 1 ≤ (s.mbx p m).command.field 16 4) (hn' : (s.mbx p m).command.field 16 4 ≤ 500)
    (ha : (s.mbx p m).command.field 8 8 % 64 = 0) (hoff : off + 64 * (s.mbx p m).command.field 16 4 ≤ 0x80000000) :
    ∃ t bs, exec (.diagStampRead p m) s = .next t ∧ Answered p m 0 bs s t ∧ OnlyBox p m s t ∧
    bs.length = 8 + 8 * (s.mbx p m).command.field 16 4 ∧ ∀ i, i < (s.mbx p m).command.field 16 4 →
      fieldAt bs (8 + 8 * i) 8 % 2 ^ 56 = stampWord b (off / 64 + i) (s.bed b) % 2 ^ 56 := by
  generalize ea : (s.mbx p m).command.field 8 8 = a at hl ha ⊢
  generalize en : (s.mbx p m).command.field 16 4 = n at hn hn' hoff ⊢
  obtain ⟨len, -, words⟩ := wordsResult_spec (fun i => stampWord b (off / 64 + i) (s.bed b)) 8 n
  obtain ⟨t, next, answered, box⟩ := diagRun_reads (i := .diagStampRead p m)
    (r := wordsResult (fun i => stampWord b (off / 64 + i) (s.bed b)) 8 n) rfl ht h1 h2 run (by
    dsimp only
    rw [ea, en, hl]
    dsimp only
    rw [bed_takenUp, if_neg (by omega)]
    rfl)
  refine ⟨t, _, next, answered, box, len, fun i hi => ?_⟩
  rw [words i hi]
  omega

/-- Module registers (R312, R334, R414, R418, R467). -/
theorem diagRegisterRead_rule (ht : (s.mbx p m).command.field 0 1 = 4) (hp : (s.mbx p m).command.part = 0xFF)
    (hn : 1 ≤ (s.mbx p m).command.field 16 4) (hn' : (s.mbx p m).command.field 16 4 ≤ 500)
    (ha : (s.mbx p m).command.field 8 8 % 8 = 0) (low : 0x10000000000 ≤ (s.mbx p m).command.field 8 8)
    (high : (s.mbx p m).command.field 8 8 + 8 * (s.mbx p m).command.field 16 4 ≤ 0x10100000000)
    (unfenced : ∀ i, i < (s.mbx p m).command.field 16 4 →
      fencedReg ((s.mbx p m).command.field 8 8 - 0x10000000000 + 8 * i) s = false) :
    ∃ t bs, exec (.diagRegisterRead p m) s = .next t ∧ Answered p m 0 bs s t ∧ OnlyBox p m s t ∧
    bs.length = 8 + 8 * (s.mbx p m).command.field 16 4 ∧ ∀ i, i < (s.mbx p m).command.field 16 4 →
      fieldAt bs (8 + 8 * i) 8 = moduleReg ((s.mbx p m).command.field 8 8 - 0x10000000000 + 8 * i) s % 2 ^ 64 := by
  generalize ea : (s.mbx p m).command.field 8 8 = a at ha low high unfenced ⊢
  generalize en : (s.mbx p m).command.field 16 4 = n at hn hn' high unfenced ⊢
  obtain ⟨len, -, words⟩ := wordsResult_spec (fun i => moduleReg (a - 0x10000000000 + 8 * i) s) 8 n
  have present : ((List.range n).any fun i => fencedReg (a - 0x10000000000 + 8 * i) s) = false := by
    simpa using unfenced
  obtain ⟨t, next, answered, box⟩ := diagRun_reads (i := .diagRegisterRead p m)
    (r := wordsResult (fun i => moduleReg (a - 0x10000000000 + 8 * i) s) 8 n) rfl ht h1 h2 run (by
    simp only [fencedReg_takenUp, moduleReg_takenUp, ea, en, present]
    rw [if_neg (by omega), if_neg Bool.false_ne_true]
    rfl)
  exact ⟨t, _, next, answered, box, len, words⟩

/-- A core that does not run, or stands before a delay bundle, has the break request pending (R131, R134). -/
theorem diagDebugBreak_waits {r : Nat} (ht : (s.mbx p m).command.field 0 1 = 5)
    (hr : diagCore (s.mbx p m).command false (s.mbx p m).seen s = (0, some r))
    (stands : s.coreRuns r = none ∨ (s.core r).delay.isSome = true) :
    ∃ t, exec (.diagDebugBreak p m) s = .next t ∧ Answered p m 0 (List.replicate 8 0) s t ∧ 15 ∈ (t.core r).pend.imm ∧
      { t.core r with pend := (s.core r).pend } = s.core r ∧ (∀ i, i ≠ r → t.core i = s.core i) ∧
      OnlyBox p m s { t with cores := s.cores } := by
  have waits : debugBreak r (takenUp p m s) = (takenUp p m s).updCore r (Core.immediate 15) :=
    debugBreak_waits (by rwa [coreRuns_takenUp, core_takenUp])
  obtain ⟨t, next, answered, cores, box⟩ := diagDebugBreak_spec run h1 h2 ht hr (by rw [waits]; rfl)
  have core (i : Nat) : t.core i = ((takenUp p m s).updCore r (Core.immediate 15)).core i := by rw [State.core_of cores, waits]
  refine ⟨t, next, answered, ?_, ?_, fun i hi => ?_, box⟩
  · rw [core, State.core_updCore]
    exact mem_immediate ..
  · rw [core, State.core_updCore, core_takenUp]
    exact immediate_rest ..
  · rw [core, State.core_updCore_ne _ hi, core_takenUp]

/-- A core that runs at a boundary enters Debug at once (R134, R138). -/
theorem diagDebugBreak_enters {r q : Nat} (ht : (s.mbx p m).command.field 0 1 = 5)
    (hr : diagCore (s.mbx p m).command false (s.mbx p m).seen s = (0, some r)) (runs : s.coreRuns r = some q)
    (delay : (s.core r).delay = none) (branch : (s.core r).branchOnly = false) (vload : (s.core r).vload = false)
    (imm : (s.core r).pend.imm = []) (clean : (s.core r).storeErr = []) (passes : entryFail 15 (s.core r) = 0) :
    ∃ t, exec (.diagDebugBreak p m) s = .next t ∧ Answered p m 0 (List.replicate 8 0) s t ∧
      (t.core r).pc = ((s.core r).word (entryWord 15)).data.toNat ∧ (t.core r).pend = (s.core r).pend ∧ (t.core r).twait = false ∧
      (∀ i, i ≠ r → t.core i = s.core i) ∧ OnlyBox p m s { t with cores := s.cores } := by
  rw [← core_takenUp p m r s] at delay branch vload imm clean
  rw [← coreRuns_takenUp p m r s] at runs
  obtain ⟨e, vec, entered⟩ := debugBreak_enters runs delay branch vload imm clean
  have raised : debugBreak r (takenUp p m s) = raiseImmediate r 15 (takenUp p m s) := if_pos (by rw [runs]; rfl)
  obtain ⟨t, next, answered, cores, box⟩ := diagDebugBreak_spec run h1 h2 ht hr (by rw [raised]; exact raiseImmediate_clean clean 15)
  have here : t.core r = enterCore e (s.core r) := by rw [State.core_of cores, entered, core_takenUp]
  rw [← vec] at passes ⊢
  refine ⟨t, next, answered, ?_, ?_, ?_, fun i hi => ?_, box⟩
  · rw [here, enterCore_pc passes]
  · rw [here, enterCore_pend passes]
  · rw [here, enterCore_twait passes]
  · rw [State.core_of cores, raised, (raiseImmediate_changed ..).others i hi, core_takenUp]

/-- A test of a core that its checks refuse gives their status, and nothing else changes (R387, R414). -/
theorem diagRescueRead_refused {st : Nat} (ht : (s.mbx p m).command.field 0 1 = 1)
    (hr : diagCore (s.mbx p m).command true (s.mbx p m).seen s = (st, none)) :
    ∃ t, exec (.diagRescueRead p m) s = .next t ∧ Answered p m st [] s t ∧ OnlyBox p m s t := by
  exact diagRun_reads (i := .diagRescueRead p m) (r := .only st) rfl ht h1 h2 run (by
    rw [seen_takenUp, diagCore_takenUp, hr])

end

/-- Settles O55, test by test: words without errors are read as they were written, and the break request is taken or waits. -/
theorem diagnostics : Obligations.Diagnostics := by
  unfold Obligations.Diagnostics
  intro p m s c a n seen run h1 h2
  refine ⟨fun r ht hr => diagRescueRead_rule run h1 h2 ht hr, fun r ht hr hn hn' ha ha' clean => ?_,
    fun b off ht hl hp hn hn' ha hoff clean => ?_,
    fun ht hp hn hn' ha low high present => diagRegisterRead_rule run h1 h2 ht hp hn hn' ha low high present,
    fun r ht hr stands => diagDebugBreak_waits run h1 h2 ht hr stands,
    fun r q ht hr runs delay branch vload imm clean passes =>
      diagDebugBreak_enters run h1 h2 ht hr runs delay branch vload imm clean passes,
    fun ht hp => diagRescueRead_refused run h1 h2 ht (if_pos hp), fun r ht hp running placed => ?_⟩
  · obtain ⟨t, bs, next, answered, box, len, count, words⟩ := diagCoreStoreRead_rule run h1 h2 ht hr hn hn' ha ha' clean
    refine ⟨t, bs, next, answered, box, len, count, fun i hi => ?_⟩
    obtain ⟨w, rfl, bits⟩ := words i hi
    exact bits
  · obtain ⟨t, bs, next, answered, box, len, words⟩ := diagStampRead_rule run h1 h2 ht hl hp hn hn' ha hoff
    refine ⟨t, bs, next, answered, box, len, fun i hi => ?_⟩
    intro y hw hwr hr hrd
    exact (words i hi).trans (stampWord_clean b _ clean hw hwr hr hrd)
  · refine diagRescueRead_refused run h1 h2 ht ?_
    unfold diagCore
    rw [if_neg (Nat.not_le.2 hp), placed]
    exact if_pos ⟨rfl, running⟩

end Sys2Proof.Machine
end

section
/-! SUPPORT. The commands on mappings, windows and streams (R95, R319, R320, R327, R400 to R404): kept for the next boundary, or
BAD_PARAMETER. -/

namespace Sys2Proof.Machine

/-- A mapping change of partition q is kept for the next boundary: mappings and windows in force, every other partition and the rest
of the module are as they were. -/
def ChangeKept (q : Nat) (k : ChangeKind) (va len : Nat) (s t : State) : Prop :=
  (∃ ch, (t.part q).changes = (s.part q).changes ++ [ch] ∧ ch.kind = k ∧ ch.va = va ∧ ch.len = len) ∧
  (t.part q).regions = (s.part q).regions ∧ (t.part q).windows = (s.part q).windows ∧ (∀ i, i ≠ q → t.part i = s.part i) ∧
  { t with parts := s.parts, portA := s.portA, portB := s.portB, out := s.out } = s

/-- The partition after a change that is kept: later commands are judged with it applied (R320). -/
theorem addChange_part (q : Nat) (ch : MapChange) (s : State) : (addChange q ch s).part q = { s.part q with
    changes := (s.part q).changes ++ [ch]
    regNext := (changed ch (s.part q).owner (s.part q).regNext (s.part q).winNext).1
    winNext := (changed ch (s.part q).owner (s.part q).regNext (s.part q).winNext).2 } :=
  State.part_updPart ..

/-- The BAR2 pages of a port change, as b gives them. -/
def State.setBar2 (p : PortId) (b : Port → SMap (Option (Nat × Nat))) (s : State) : State :=
  s.updPort p fun x => { x with bar2 := b x }

theorem setBar2_same (p : PortId) (s : State) : s.setBar2 p Port.bar2 = s := by
  cases p <;> rfl

section

variable {p : PortId} {m : Nat} {s : State}

/-- A command whose change is kept ends with its answer, whatever BAR2 pages come or go with it. -/
theorem change_ends (r : MbxResult) (q : Nat) (ch : MapChange) (b : Port → SMap (Option (Nat × Nat))) :
    Answered p m r.status r.data s (completeMailbox p m r ((addChange q ch (takenUp p m s)).setBar2 p b)) ∧
    ChangeKept q ch.kind ch.va ch.len s (completeMailbox p m r ((addChange q ch (takenUp p m s)).setBar2 p b)) ∧
    ((completeMailbox p m r ((addChange q ch (takenUp p m s)).setBar2 p b)).part q).winNext =
      (changed ch (s.part q).owner (s.part q).regNext (s.part q).winNext).2 := by
  have front : State.FrontKept q (takenUp p m s) ((addChange q ch (takenUp p m s)).setBar2 p b) :=
    (State.FrontKept.updPart q _ _).trans (.updPort p _ _)
  have rest : { (addChange q ch (takenUp p m s)).setBar2 p b with
      parts := s.parts, portA := s.portA, portB := s.portB, out := s.out } = s := by
    cases p <;> rfl
  obtain ⟨answered, box⟩ := unitsCommand_ends r (front.port p)
  have parts := (onlyBox_units box).1.trans (State.updPort_parts ..)
  have here := (State.part_of parts q).trans (addChange_part q ch _)
  rw [part_takenUp] at here
  refine ⟨answered, ⟨⟨ch, by rw [here], rfl, rfl, rfl⟩, by rw [here], by rw [here], fun i hi => ?_, ?_⟩, by rw [here]⟩
  · rw [State.part_of parts, addChange, State.part_updPart_ne _ hi, part_takenUp]
  · obtain ⟨-, -, -, -, boxRest⟩ := box
    exact (congrArg (fun z : State => { z with parts := s.parts, portA := s.portA, portB := s.portB, out := s.out }) boxRest :).trans rest

theorem memMapOk_takenUp (q : Nat) (bs : List Byte) : memMapOk q p bs (takenUp p m s) = memMapOk q p bs s := by
  cases p <;> rfl

theorem migrateOk_takenUp (q : Nat) (bs : List Byte) : migrateOk q bs (takenUp p m s) = migrateOk q bs s := by
  cases p <;> rfl

/-- A command that its checks refuse gives their status, and nothing else changes. -/
theorem runLater_refuses {op st : Nat} {f : Cmd → State → State × Option MbxResult} (run : toRun p m op s = true)
    (hf : f (s.mbx p m).command (takenUp p m s) = (takenUp p m s, some (.only st))) :
    Answered p m st [] s (runLater p m op f s) ∧ OnlyBox p m s (runLater p m op f s) := by
  have only := answers_only run (f := fun _ s => (s, .only st)) rfl
  rw [runCmd_ends run] at only
  rw [runLater_ends run hf]
  exact only

end

theorem toRun_busy {p : PortId} {m op : Nat} {s : State} (h : toRun p m op s = true) : (s.mbx p m).state = 1 := by
  simp only [toRun, Bool.and_eq_true, decide_eq_true_eq] at h
  obtain ⟨⟨⟨⟨-, busy⟩, -⟩, -⟩, -⟩ := h
  exact busy

section

variable {p : PortId} {m : MbxId} {s : State}

/-! MEM_MAP (R263, R319, R400). -/

theorem exec_memMap (stays : isMigrate p m s = false) :
    exec (.memMap p m) s = .next (runLater p m 0x0021 (memMapRun p m) s) := by
  refine congrArg Host.Outcome.next (if_neg ?_)
  rw [stays]
  exact Bool.false_ne_true

theorem memMapRun_ok {c : Cmd} (m : Nat) (ok : memMapOk c.part p c.params s = true) : ∃ b, memMapRun p m c s =
    ((addChange c.part (mapChange (s.part c.part) (cmdKey p m s) c.params) s).setBar2 p b, some (.ok [])) := by
  unfold memMapRun
  dsimp only
  rw [ok, if_neg (by simp)]
  split
  · exact ⟨_, rfl⟩
  · exact ⟨Port.bar2, by rw [setBar2_same]⟩

theorem memMap_kept (run : toRun p m 0x0021 s = true) (stays : isMigrate p m s = false)
    (ok : memMapOk (s.mbx p m).command.part p (s.mbx p m).command.params s = true) :
    ∃ t, exec (.memMap p m) s = .next t ∧ Answered p m 0 [] s t ∧
      ChangeKept (s.mbx p m).command.part .map ((s.mbx p m).command.field 0 8) ((s.mbx p m).command.field 8 8) s t := by
  obtain ⟨b, hf⟩ := memMapRun_ok (s := takenUp p m s) m ((memMapOk_takenUp ..).trans ok)
  obtain ⟨answered, kept, -⟩ := change_ends (s := s) (.ok []) (s.mbx p m).command.part (mapChange _ _ _) b
  exact ⟨_, exec_memMap stays, by rw [runLater_ends run hf]; exact answered, by rw [runLater_ends run hf]; exact kept⟩

theorem memMap_refused (run : toRun p m 0x0021 s = true) (stays : isMigrate p m s = false)
    (ok : memMapOk (s.mbx p m).command.part p (s.mbx p m).command.params s = false) :
    ∃ t, exec (.memMap p m) s = .next t ∧ Answered p m 0x03 [] s t ∧ OnlyBox p m s t := by
  refine ⟨_, exec_memMap stays, runLater_refuses run ?_⟩
  unfold memMapRun
  dsimp only
  rw [memMapOk_takenUp, ok]
  rfl

/-! A migration (R327, R401). -/

theorem exec_memMapMigrate_waits (run : toRun p m 0x0021 s = true) (moves : isMigrate p m s = true)
    (ok : migrateOk (s.mbx p m).command.part (s.mbx p m).command.params s = true) :
    exec (.memMapMigrate p m) s = .next (beginMigration p m (s.mbx p m).command.part ((s.mbx p m).command.field 0 8)
      (hbmTarget (s.part (s.mbx p m).command.part) ((s.mbx p m).command.field 16 8)) (takenUp p m s)) := by
  refine congrArg Host.Outcome.next ((if_pos moves).trans (runLater_waits run ?_))
  rw [migrateOk_takenUp, ok, part_takenUp]
  rfl

theorem beginMigration_port (o p : PortId) (m q va dest : Nat) (s : State) : (beginMigration p m q va dest s).port o = s.port o := by
  cases o <;> rfl

/-- The partition with the region marked, in force and for later commands. -/
theorem beginMigration_part (p : PortId) (m q va dest : Nat) (s : State) : (beginMigration p m q va dest s).part q =
    { setRegions q (changeRegion va (fun g => { g with mig := true }) (s.part q).regions) (s.part q) with
      regNext := changeRegion va (fun g => { g with mig := true }) (s.part q).regNext, migr := some ⟨va, dest, p, m⟩ } := by
  have parts : (beginMigration p m q va dest s).parts = (s.updPart q fun x =>
    { setRegions q (changeRegion va (fun g => { g with mig := true }) x.regions) x with
      regNext := changeRegion va (fun g => { g with mig := true }) x.regNext, migr := some ⟨va, dest, p, m⟩ }).parts := rfl
  rw [State.part_of parts, State.part_updPart]

theorem memMapMigrate_waits (run : toRun p m 0x0021 s = true) (moves : isMigrate p m s = true)
    (ok : migrateOk (s.mbx p m).command.part (s.mbx p m).command.params s = true) :
    ∃ t, exec (.memMapMigrate p m) s = .next t ∧
      (t.mbx p m).result = (s.mbx p m).result ∧ (t.mbx p m).state = 1 ∧ (t.mbx p m).ran = true ∧
      (t.part (s.mbx p m).command.part).migr = some ⟨(s.mbx p m).command.field 0 8,
        hbmTarget (s.part (s.mbx p m).command.part) ((s.mbx p m).command.field 16 8), p, m.val⟩ ∧
      (t.part (s.mbx p m).command.part).regions = changeRegion ((s.mbx p m).command.field 0 8) (fun g => { g with mig := true })
        (s.part (s.mbx p m).command.part).regions ∧ t.hbm = s.hbm := by
  refine ⟨_, exec_memMapMigrate_waits run moves ok, ?_⟩
  generalize (s.mbx p m).command.field 0 8 = va
  generalize hbmTarget _ _ = dest
  generalize (s.mbx p m).command.part = q
  have box : (beginMigration p m q va dest (takenUp p m s)).mbx p m = { s.mbx p m with ran := true } :=
    (mbx_of_port (congrArg Port.mbx (beginMigration_port ..)) m).trans (State.mbx_updMbx ..)
  rw [box, beginMigration_part, part_takenUp]
  exact ⟨rfl, toRun_busy run, rfl, rfl, rfl, State.updMbx_hbm ..⟩

theorem memMapMigrate_refused (run : toRun p m 0x0021 s = true) (moves : isMigrate p m s = true)
    (ok : migrateOk (s.mbx p m).command.part (s.mbx p m).command.params s = false) :
    ∃ t, exec (.memMapMigrate p m) s = .next t ∧ Answered p m 0x03 [] s t ∧ OnlyBox p m s t := by
  refine ⟨_, congrArg Host.Outcome.next (if_pos moves), runLater_refuses run ?_⟩
  rw [migrateOk_takenUp, ok]
  rfl

/-! MEM_UNMAP (R402). -/

/-- A MEM_UNMAP is acceptable: its range is mapped, and holds no host page. -/
def memUnmapOk (x : Part) (va len : Nat) : Bool :=
  dvaOk va len && covered va len x.regNext && (regionsInside va len x.regNext).all fun g => decide (g.pa < hostBase .a)

theorem memUnmapRun_eq (m : Nat) (c : Cmd) : ∃ b, memUnmapRun p m c s =
    if memUnmapOk (s.part c.part) (c.field 0 8) (c.field 8 8)
    then ((addChange c.part (unmapChange (cmdKey p m s) c.params) s).setBar2 p b, .ok []) else (s, .only stBadParameter) := by
  have refuses : (!dvaOk (c.field 0 8) (c.field 8 8) || !covered (c.field 0 8) (c.field 8 8) (s.part c.part).regNext ||
      (regionsInside (c.field 0 8) (c.field 8 8) (s.part c.part).regNext).any fun g => decide (hostBase .a ≤ g.pa)) =
      !memUnmapOk (s.part c.part) (c.field 0 8) (c.field 8 8) := by
    simp only [memUnmapOk, Bool.not_and, List.not_all_eq_any_not, ← decide_not, Nat.not_lt]
  unfold memUnmapRun
  dsimp only
  rw [show unmapChange (cmdKey p m s) c.params = ⟨.unmap, c.field 0 8, c.field 8 8, [], false, false, none, 0x0022, c.params,
    cmdKey p m s, 0⟩ from rfl, refuses]
  cases memUnmapOk (s.part c.part) (c.field 0 8) (c.field 8 8)
  · exact ⟨Port.bar2, rfl⟩
  · exact ⟨_, rfl⟩

theorem memUnmap_kept (run : toRun p m 0x0022 s = true) (ok : memUnmapOk (s.part (s.mbx p m).command.part)
      ((s.mbx p m).command.field 0 8) ((s.mbx p m).command.field 8 8) = true) :
    ∃ t, exec (.memUnmap p m) s = .next t ∧ Answered p m 0 [] s t ∧
      ChangeKept (s.mbx p m).command.part .unmap ((s.mbx p m).command.field 0 8) ((s.mbx p m).command.field 8 8) s t := by
  obtain ⟨b, hf⟩ := memUnmapRun_eq (p := p) (s := takenUp p m s) m (s.mbx p m).command
  rw [part_takenUp, if_pos ok] at hf
  obtain ⟨answered, kept, -⟩ := change_ends (s := s) (.ok []) (s.mbx p m).command.part (unmapChange _ _) b
  exact ⟨_, rfl, by rw [runCmd_ends run, hf]; exact answered, by rw [runCmd_ends run, hf]; exact kept⟩

theorem memUnmap_refused (run : toRun p m 0x0022 s = true) (ok : memUnmapOk (s.part (s.mbx p m).command.part)
      ((s.mbx p m).command.field 0 8) ((s.mbx p m).command.field 8 8) = false) :
    ∃ t, exec (.memUnmap p m) s = .next t ∧ Answered p m 0x03 [] s t ∧ OnlyBox p m s t := by
  obtain ⟨b, hf⟩ := memUnmapRun_eq (p := p) (s := takenUp p m s) m (s.mbx p m).command
  rw [part_takenUp, if_neg (by rw [ok]; exact Bool.false_ne_true)] at hf
  exact ⟨_, rfl, answers_only run hf⟩

/-! WINDOW_OPEN and WINDOW_CLOSE (R95, R263, R403). -/

/-- The checks of a WINDOW_OPEN, in the order of the statement. -/
theorem windowOpenRun_ok {c : Cmd} (m : Nat) (range : dvaOk (c.field 0 8) (c.field 16 8) = true) (page : c.field 8 8 % 4096 = 0)
    (space : c.field 8 8 + c.field 16 8 ≤ 2 ^ 44) (flag : c.field 24 1 ≤ 1) (zero : c.zero 25 7 = true)
    (free : rangeFree (s.part c.part) (c.field 0 8) (c.field 16 8) = true)
    (guardFree : ∀ g ∈ (s.part c.part).regNext, overlaps (c.field 0 8 + c.field 16 8) 0x200000 g.va g.len = false)
    (apart : ∀ e ∈ (s.part c.part).nextWindows, overlaps (c.field 0 8 + c.field 16 8) 0x200000 e.2.dva e.2.len = false ∧
      overlaps (c.field 8 8) (c.field 16 8) e.2.iova e.2.len = false) :
    windowOpenRun p m c s = (freeWindow (s.part c.part)).elim (s, .only stNoResources)
      fun i => (addChange c.part (openChange i (cmdKey p m s) c.params) s, .ok (leBytes i 8)) := by
  have noGuard : ((s.part c.part).regNext.any fun g => overlaps (c.field 0 8 + c.field 16 8) guard g.va g.len) = false := by
    simpa [guard] using guardFree
  have noWindow : ((s.part c.part).nextWindows.any fun e => overlaps (c.field 0 8 + c.field 16 8) guard e.2.dva e.2.len ||
      overlaps (c.field 8 8) (c.field 16 8) e.2.iova e.2.len) = false := by
    rw [List.any_eq_false]
    intro e he
    obtain ⟨dva, iova⟩ := apart e he
    rw [guard, dva, iova]
    exact Bool.false_ne_true
  unfold windowOpenRun
  dsimp only
  rw [if_neg (by simpa [range, aligned, page, Nat.not_lt.2 flag, zero, free, noGuard, noWindow] using space)]
  cases freeWindow (s.part c.part) <;> rfl

/-- The window stands in the table that later commands are judged by. -/
theorem winNext_openChange (i key : Nat) (bs : List Byte) (o : PortId) (rs : List Region) (ws : SMap (Option Window)) :
    SMap.get none i (changed (openChange i key bs) o rs ws).2 =
      some ⟨fieldAt bs 0 8, fieldAt bs 8 8, fieldAt bs 16 8, bitOf (fieldAt bs 24 1) 0⟩ :=
  SMap.get_set none i (some (⟨fieldAt bs 0 8, fieldAt bs 8 8, fieldAt bs 16 8, bitOf (fieldAt bs 24 1) 0⟩ : Window)) ws

theorem windowOpen_kept {i : Nat} (run : toRun p m 0x0023 s = true)
    (hf : windowOpenRun p m (s.mbx p m).command (takenUp p m s) = (addChange (s.mbx p m).command.part
      (openChange i (cmdKey p m (takenUp p m s)) (s.mbx p m).command.params) (takenUp p m s), .ok (leBytes i 8))) :
    ∃ t, exec (.windowOpen p m) s = .next t ∧ Answered p m 0 (leBytes i 8) s t ∧
      ChangeKept (s.mbx p m).command.part .windowOpen ((s.mbx p m).command.field 0 8) ((s.mbx p m).command.field 16 8) s t ∧
      SMap.get none i (t.part (s.mbx p m).command.part).winNext = some ⟨(s.mbx p m).command.field 0 8, (s.mbx p m).command.field 8 8,
        (s.mbx p m).command.field 16 8, bitOf ((s.mbx p m).command.field 24 1) 0⟩ := by
  rw [← setBar2_same p (addChange _ _ _)] at hf
  obtain ⟨answered, kept, window⟩ := change_ends (s := s) (.ok (leBytes i 8)) (s.mbx p m).command.part (openChange i _ _) Port.bar2
  refine ⟨_, congrArg Host.Outcome.next ((runCmd_ends run _).trans (by rw [hf])), answered, kept, ?_⟩
  rw [window]
  exact winNext_openChange ..

/-- The change of a WINDOW_CLOSE of the window w at index i. -/
def closing (i : Nat) (w : Window) (key : Nat) (bs : List Byte) : MapChange :=
  ⟨.windowClose, w.dva, w.len, [], false, false, some (i, none), 0x0024, bs, key, 0⟩

theorem closeChange_eq {x : Part} {bs : List Byte} {w : Window} (h : SMap.get none (fieldAt bs 0 1) x.winNext = some w) (key : Nat) :
    closeChange x key bs = closing (fieldAt bs 0 1) w key bs := by
  simp only [closeChange, h, Option.getD_some, closing]

theorem windowCloseRun_ok {c : Cmd} {w : Window} (m : Nat) (window : SMap.get none (c.field 0 1) (s.part c.part).winNext = some w)
    (zero : c.zero 1 7 = true) (free : holdsRing (s.part c.part) w = false) (still : (s.part c.part).migr = none) :
    windowCloseRun p m c s = (addChange c.part (closing (c.field 0 1) w (cmdKey p m s) c.params) s, .ok []) := by
  unfold windowCloseRun
  dsimp only
  rw [window, closeChange_eq window]
  dsimp only
  rw [zero, free, still]
  rfl

theorem windowClose_kept {w : Window} (run : toRun p m 0x0024 s = true)
    (window : SMap.get none ((s.mbx p m).command.field 0 1) (s.part (s.mbx p m).command.part).winNext = some w)
    (zero : (s.mbx p m).command.zero 1 7 = true) (free : holdsRing (s.part (s.mbx p m).command.part) w = false)
    (still : (s.part (s.mbx p m).command.part).migr = none) :
    ∃ t, exec (.windowClose p m) s = .next t ∧ Answered p m 0 [] s t ∧
      ChangeKept (s.mbx p m).command.part .windowClose w.dva w.len s t ∧
      SMap.get none ((s.mbx p m).command.field 0 1) (t.part (s.mbx p m).command.part).winNext = none := by
  rw [← part_takenUp p m] at window free still
  have hf := windowCloseRun_ok (p := p) m window zero free still
  rw [← setBar2_same p (addChange _ _ _)] at hf
  obtain ⟨answered, kept, closed⟩ := change_ends (s := s) (.ok []) (s.mbx p m).command.part (closing _ w _ _) Port.bar2
  refine ⟨_, congrArg Host.Outcome.next ((runCmd_ends run _).trans (by rw [hf])), answered, kept, ?_⟩
  rw [closed]
  exact SMap.get_set none _ none _

theorem windowClose_refused (run : toRun p m 0x0024 s = true)
    (bad : SMap.get none ((s.mbx p m).command.field 0 1) (s.part (s.mbx p m).command.part).winNext = none ∨
      (s.mbx p m).command.zero 1 7 = false) :
    ∃ t, exec (.windowClose p m) s = .next t ∧ Answered p m 0x03 [] s t ∧ OnlyBox p m s t := by
  refine ⟨_, rfl, answers_only run (r := .only stBadParameter) ?_⟩
  unfold windowCloseRun
  dsimp only
  rw [part_takenUp]
  cases window : SMap.get none ((s.mbx p m).command.field 0 1) (s.part (s.mbx p m).command.part).winNext with
  | none => rfl
  | some w =>
    have set : (s.mbx p m).command.zero 1 7 = false := bad.resolve_left (by rw [window]; exact Option.some_ne_none w)
    dsimp only
    rw [set]
    rfl

/-! STREAM_OPEN and STREAM_CLOSE (R404). -/

/-- A command that changes its partition's streams, ended. -/
theorem streams_ends (r : MbxResult) (q n : Nat) (y : Option Stream) :
    Answered p m r.status r.data s (completeMailbox p m r ((takenUp p m s).updPart q fun x =>
      { x with streams := SMap.set none n y x.streams })) ∧
    (∀ k, ((completeMailbox p m r ((takenUp p m s).updPart q fun x =>
      { x with streams := SMap.set none n y x.streams })).part q).stream k = if k = n then y else (s.part q).stream k) := by
  obtain ⟨answered, box⟩ := unitsCommand_ends (s := s) r ((State.FrontKept.updPart (q := q) q (fun x =>
    { x with streams := SMap.set none n y x.streams }) (takenUp p m s)).port p)
  refine ⟨answered, fun k => ?_⟩
  rw [State.part_of (onlyBox_units box).1, State.part_updPart, part_takenUp]
  unfold Part.stream
  by_cases e : k = n
  · rw [if_pos e, e]
    exact SMap.get_set none n y _
  · rw [if_neg e]
    exact SMap.get_set_ne none e y _

theorem streamOpen_opens (run : toRun p m 0x0030 s = true)
    (ok : streamOpenOk (s.part (s.mbx p m).command.part) (s.mbx p m).command.params = true) :
    ∃ t, exec (.streamOpen p m) s = .next t ∧ Answered p m 0 [] s t ∧ ∀ k,
      (t.part (s.mbx p m).command.part).stream k = if k = (s.mbx p m).command.field 0 1 then some (openStream (s.mbx p m).command.params)
        else (s.part (s.mbx p m).command.part).stream k := by
  obtain ⟨answered, streams⟩ := streams_ends (p := p) (m := m) (s := s) (.ok []) (s.mbx p m).command.part
    ((s.mbx p m).command.field 0 1) (some (openStream (s.mbx p m).command.params))
  refine ⟨_, congrArg Host.Outcome.next ((runCmd_ends run _).trans ?_), answered, streams⟩
  rw [part_takenUp, if_pos ok]

theorem streamOpen_refused (run : toRun p m 0x0030 s = true)
    (ok : streamOpenOk (s.part (s.mbx p m).command.part) (s.mbx p m).command.params = false) :
    ∃ t, exec (.streamOpen p m) s = .next t ∧ Answered p m 0x03 [] s t ∧ OnlyBox p m s t := by
  refine ⟨_, rfl, answers_only run (r := .only stBadParameter) ?_⟩
  rw [part_takenUp, ok]
  rfl

theorem streamClose_closes (run : toRun p m 0x0031 s = true) (zero : (s.mbx p m).command.zero 1 7 = true)
    (isOpen : (s.part (s.mbx p m).command.part).stream ((s.mbx p m).command.field 0 1) ≠ none) :
    ∃ t, exec (.streamClose p m) s = .next t ∧ Answered p m 0 [] s t ∧ ∀ k,
      (t.part (s.mbx p m).command.part).stream k = if k = (s.mbx p m).command.field 0 1 then none
        else (s.part (s.mbx p m).command.part).stream k := by
  obtain ⟨answered, streams⟩ := streams_ends (p := p) (m := m) (s := s) (.ok []) (s.mbx p m).command.part
    ((s.mbx p m).command.field 0 1) none
  refine ⟨_, congrArg Host.Outcome.next ((runCmd_ends run _).trans ?_), answered, streams⟩
  rw [part_takenUp, zero, Option.isSome_iff_ne_none.2 isOpen]
  rfl

theorem streamClose_refused (run : toRun p m 0x0031 s = true)
    (closed : (s.part (s.mbx p m).command.part).stream ((s.mbx p m).command.field 0 1) = none) :
    ∃ t, exec (.streamClose p m) s = .next t ∧ Answered p m 0x03 [] s t ∧ OnlyBox p m s t := by
  refine ⟨_, rfl, answers_only run (r := .only stBadParameter) ?_⟩
  rw [part_takenUp, closed, Option.isSome_none, Bool.and_false]
  rfl

end

end Sys2Proof.Machine
end

section
/-! SUPPORT. What a record's reads, a record's end and the clearing of a partition leave (R33, R297, R406, R432): the settings, the image
and the placement of the partition. -/

namespace Sys2Proof.Machine

/-- The settings of a partition, its image, and where its cores are. -/
def Part.settings (x : Part) : Option PartCfg × Option Image × List (Nat × Nat) := (x.cfg, x.img, x.place)

/-- Partition q keeps its settings. -/
def State.SettingsKept (q : Nat) (s t : State) : Prop := (t.part q).settings = (s.part q).settings

namespace State.SettingsKept

variable {q : Nat} {s t u : State}

theorem refl (q : Nat) (s : State) : SettingsKept q s s := rfl

theorem trans (h : SettingsKept q s t) (k : SettingsKept q t u) : SettingsKept q s u := Eq.trans k h

theorem of_parts (h : t.parts = s.parts) : SettingsKept q s t := congrArg Part.settings (State.part_of h q)

theorem reads (h : s.ReadsOnly q t) : SettingsKept q s t := by
  obtain ⟨e, m, hp⟩ := h.part
  unfold SettingsKept
  rw [hp]
  rfl

theorem updPart (i : Nat) (f : Part → Part) (s : State) (hf : ∀ x, (f x).settings = x.settings := by intro; rfl) :
    SettingsKept q s (s.updPart i f) := by
  unfold SettingsKept
  by_cases e : q = i
  · rw [e, State.part_updPart, hf]
  · rw [State.part_updPart_ne s e]

theorem updPort (p : PortId) (f : Port → Port) (s : State) : SettingsKept q s (s.updPort p f) := of_parts (State.updPort_parts ..)

theorem ite {p : Prop} [Decidable p] (h : SettingsKept q s t) (k : SettingsKept q s u) : SettingsKept q s (if p then t else u) := by
  split
  · exact h
  · exact k

theorem foldl {α : Type} {g : State → α → State} (hg : ∀ z a, SettingsKept q z (g z a)) (l : List α) (s : State) :
    SettingsKept q s (l.foldl g s) := foldl_kept (get := fun z => (z.part q).settings) hg l s

theorem portErr (p : PortId) (f : Port → Port) (s : State) : SettingsKept q s (portErr p f s) := by
  have sent (p : PortId) (v : Nat) (z : State) : SettingsKept q z (msix p v z) := ite (updPort p _ z) (of_parts rfl)
  exact ite (refl q s) ((updPort p f s).trans ((updPort p _ _).trans (sent p 7 _)))

/-! The end of a record (R431). -/

theorem submit (r : MemReq) (s : State) : SettingsKept q s (submit r s) := by
  unfold Machine.submit
  split
  · exact of_parts rfl
  · exact of_parts rfl
  · exact ite (refl q s) (ite (updPart r.part (replayWrite r) s) (foldl (fun z _ => of_parts (State.emit_parts (s := z) _)) _ s))
  · exact refl q s

theorem recWrite (k va : Nat) (bs : List Byte) (s : State) : SettingsKept q s (recWrite q k va bs s) := by
  induction k generalizing va bs s with
  | zero => exact refl q s
  | succ k ih =>
    have page := reads (State.ReadsOnly.walkRead (q := q) va true s)
    unfold Machine.recWrite
    refine ite (refl q s) (trans ?_ (ih _ _ _))
    generalize Machine.walkRead q va true s = x at page
    obtain ⟨z, x⟩ := x
    cases x with
    | fail => exact page
    | ok e => exact page.trans (submit _ z)

theorem recHead (s : State) : SettingsKept q s (recHead q s) := recWrite ..

theorem recAppend (bs : List Byte) (s : State) : SettingsKept q s (recAppend q bs s) := (updPart q _ s).trans (recWrite ..)

theorem recStop (code : Nat) (s : State) : SettingsKept q s (recStop q code s) := by
  have closed := updPart (q := q) q (fun p => { p with recd := { p.recd with
    isOpen := false, fullstop := decide (code = 1), incomplete := decide (code = 2) } }) s
  exact ite (refl q s) (trans (ite (closed.trans (recAppend _ _)) closed) (recHead _))

theorem putTurnEnd (e : TurnEnd) (s : State) : SettingsKept q s (putTurnEnd q e s) := by
  have item (kind flags unit len turn key sub : Nat) (bs : List Byte) :
      SettingsKept q s (recItem q kind flags unit len turn key sub bs s) :=
    ite (refl q s) (ite (recStop 1 s) (recAppend _ s))
  have last (z : State) := updPart (q := q) q (fun p => { p with recd := { p.recd with last := e.turn, nd := p.recd.nd || e.nd } }) z
  exact ite (trans (item ..) (ite ((last _).trans (ite (recStop 2 _) (recHead _))) (refl q _))) (refl q s)

theorem endRecord (code : Nat) (s : State) : SettingsKept q s (endRecord q code s) :=
  ite ((updPart q _ s).trans ((foldl (fun z e => putTurnEnd e z) _ _).trans (recStop code _))) (refl q s)

/-! The clearing of a partition's units (R33, R321, R357). -/

theorem bar2Got (p : PortId) (k line : Nat) (l : Line) (s : State) : SettingsKept q s (bar2Got p k line l s) := by
  have ended (r : Bar2Read) (z : State) : SettingsKept q z (bar2End p r z) := by
    have data : SettingsKept q z _ := of_parts (State.emit_parts (s := z) (.bar2Data p
      ((r.lines.map fun x => x.got.getD ([], false)).flatMap (·.1)) ((r.lines.map fun x => x.got.getD ([], false)).any (·.2))))
    have counted := ite (p := ((r.lines.map fun x => x.got.getD ([], false)).any (·.2)) = true)
      (data.trans (portErr p (fun x => { x with bar2Ue := bump16 x.bar2Ue }) _)) data
    exact ite (counted.trans (portErr p _ _)) counted
  unfold Machine.bar2Got
  split
  · exact ite ((updPort p _ s).trans (ended _ _)) (updPort p _ s)
  · exact refl q s

theorem settleBar2 (s : State) : SettingsKept q s (settleBar2 q s) := by
  refine foldl (fun z p => foldl (fun z r => foldl (fun z x => ite ?_ (refl q z)) _ z) _ z) _ s
  exact (reads (State.ReadsOnly.lineRead (64 * x.line) z)).trans (bar2Got p r.k x.line _ _)

theorem clearUnits (s : State) : SettingsKept q s (clearUnits q s) := by
  obtain ⟨z, eq, ⟨-, -, parts⟩, -⟩ := clearUnits_eq q s
  rw [eq]
  exact (settleBar2 s).trans (trans (of_parts parts) ((updPort .a _ z).trans (updPort .b _ _)))

end State.SettingsKept

theorem State.ReadsOnly.hbmWrite (q pa : Nat) (bytes : List Byte) (mask poison : Nat) (s : State) :
    ReadsOnly q s (hbmWrite pa bytes mask poison s) := by
  have counted (r : Res) (bad corrected : Bool) {z : State} (h : ReadsOnly q s z) : ReadsOnly q s
      (if bad then Machine.chatterUe r pa (hbmUe pa true z) else if corrected then Machine.chatter r pa z else z) :=
    ite (h.trans ((accounted ((State.Accounted.refl z).logEvent _)).trans (chatterUe r pa _))) (ite (h.trans (chatter r pa z)) h)
  unfold Machine.hbmWrite
  dsimp only
  refine counted _ _ _ ?_
  split
  · exact (siteWrite _ _ s).trans (siteWrite _ _ _)
  · exact siteWrite _ _ s

/-- The writes on their way land (R406). -/
theorem State.SettingsKept.settleWrites {q : Nat} (s : State) : SettingsKept q s (settleWrites q s) := by
  refine foldl (fun z r => reads ?_) _ s
  exact .hbmWrite q (64 * r.line) r.bytes r.mask r.poison z

theorem zeroHbm_foldl_parts (keep : List Rng) (l : List (Nat × Nat)) (s : State) :
    (l.foldl (fun s e => zeroHbm keep e.1 e.2 s) s).parts = s.parts := by
  refine foldl_kept (get := State.parts) (fun z e => ?_) l s
  rfl

/-- What a replay does to a partition before it starts: its writes land, its record ends, its units are cleared, its HBM is zeroed but
for the record, and its units are loaded. -/
theorem rewindPart_eq {q : Nat} {s : State} {k : PartCfg} {i : Image} (cfg : (s.part q).cfg = some k) (img : (s.part q).img = some i)
    (va len : Nat) : ∃ (p : PortId) (pages : Port → Port) (f : Part → Part) (keep : List Rng) (l : List (Nat × Nat)),
      (∀ x, (f x).settings = x.settings ∧ (f x).turn = 0) ∧ rewindPart q va len s = loadUnits q k i (l.foldl (fun s e =>
        zeroHbm keep e.1 e.2 s) (((clearUnits q (endRecord q 3 (settleWrites q s))).updPort p pages).updPart q f)) := by
  unfold rewindPart
  dsimp only
  rw [cfg, img]
  refine ⟨_, _, _, _, _, ?_, rfl⟩
  exact fun _ => ⟨rfl, rfl⟩

/-- A partition is cleared with its settings, its image and its placement, and stands at turn 0 (R406, R432). -/
theorem rewindPart_spec {q : Nat} {s : State} {k : PartCfg} {i : Image} (cfg : (s.part q).cfg = some k) (img : (s.part q).img = some i)
    (va len : Nat) : ((rewindPart q va len s).part q).settings = (s.part q).settings ∧ ((rewindPart q va len s).part q).turn = 0 := by
  have cleared : State.SettingsKept q s (clearUnits q (endRecord q 3 (settleWrites q s))) :=
    (State.SettingsKept.settleWrites s).trans ((State.SettingsKept.endRecord 3 _).trans (.clearUnits _))
  obtain ⟨p, pages, f, keep, l, hf, eq⟩ := rewindPart_eq cfg img va len
  obtain ⟨loaded, -⟩ := loadUnits_spec q k i (l.foldl (fun s e =>
    zeroHbm keep e.1 e.2 s) (((clearUnits q (endRecord q 3 (settleWrites q s))).updPort p pages).updPart q f))
  have here : (rewindPart q va len s).part q = f ((clearUnits q (endRecord q 3 (settleWrites q s))).part q) := by
    rw [eq, State.part_of (loaded.trans (zeroHbm_foldl_parts ..)), State.part_updPart, State.part_of (State.updPort_parts ..)]
  obtain ⟨settings, turn⟩ := hf ((clearUnits q (endRecord q 3 (settleWrites q s))).part q)
  rw [here]
  exact ⟨settings.trans cleared, turn⟩

/-! The reads of a record (R297). -/

/-- A read that counts what it corrects: in no partition anything changes, and the firmware's build is as it was. -/
structure State.Peeked (s t : State) : Prop where
  reads : ∀ q, s.ReadsOnly q t
  build : t.build = s.build

namespace State.Peeked

variable {s t u : State}

theorem refl (s : State) : s.Peeked s := ⟨fun q => .refl q s, rfl⟩

theorem trans (h : s.Peeked t) (k : t.Peeked u) : s.Peeked u := ⟨fun q => (h.reads q).trans (k.reads q), k.build.trans h.build⟩

theorem part (h : s.Peeked t) (q : Nat) : t.part q = s.part q := (h.reads (q + 1)).others q q.lt_succ_self.ne

theorem accounted (h : s.Accounted t) : t.build = s.build := (congrArg (fun x => x.fw.build) h.hs :)

theorem hbmRead (pa : Nat) (s : State) : s.Peeked (hbmRead pa s).1 := by
  refine ⟨fun q => .hbmRead pa s, ?_⟩
  have site (h : HSite) (l : RawLine) : (siteWrite h l s).build = s.build := by cases h <;> rfl
  unfold Machine.hbmRead
  dsimp only
  split
  · rfl
  · exact (accounted ((State.Accounted.refl _).chatter _ _)).trans (site _ _)
  · exact (accounted ((State.Accounted.refl _).chatterUe _ _)).trans (accounted ((State.Accounted.refl _).logEvent _))

theorem bedRead (b off : Nat) (s : State) : s.Peeked (bedRead b off s).1 := by
  refine ⟨fun q => .bedRead b off s, ?_⟩
  have found (f : Bed → Bed) (p : Prop) [Decidable p] (r : Res) (a : Nat) :
      (if p then chatter r a (s.updBed b f) else s.updBed b f).build = s.build := by
    split
    · exact (accounted ((State.Accounted.refl (s.updBed b f)).chatter r a)).trans rfl
    · rfl
  unfold Machine.bedRead
  dsimp only
  split
  · exact (accounted ((State.Accounted.refl _).chatterUe _ _)).trans (found ..)
  · exact found ..

theorem lineNow (pa : Nat) (s : State) : s.Peeked (lineNow pa s).1 := by
  have read : s.Peeked (lineRead pa s).1 := by
    unfold lineRead
    split
    · exact hbmRead pa s
    · exact bedRead _ _ s
    · exact refl s
  exact read

theorem peekBytes (gs : List Region) (k va n : Nat) (s : State) : s.Peeked (peekBytes gs k va n s).1 := by
  induction k generalizing va n s with
  | zero => exact refl s
  | succ k ih =>
    unfold Machine.peekBytes
    split
    · exact refl s
    · dsimp only
      split
      · exact (lineNow _ s).trans (ih ..)
      · exact ih ..

theorem ringRead (gs : List Region) (va n : Nat) (s : State) : s.Peeked (ringRead gs va n s) :=
  (peekBytes gs 16 va 256 s).trans (peekBytes ..)

end State.Peeked

end Sys2Proof.Machine
end

section
/-! PROOF. O54: REPLAY_RUN (R406, R432, R433), and with it every command on mappings, windows, streams and replays. -/

namespace Sys2Proof.Machine

/-- A replay runs from turn 0 with the settings of its partition, up to its last turn. -/
theorem beginReplay_spec {q last : Nat} {s : State} {k : PartCfg} {i : Image} (p : PortId) (m va len : Nat) (items : List RecItem)
    (cfg : (s.part q).cfg = some k) (img : (s.part q).img = some i) (on : last ≠ 0) :
    ((beginReplay p m q va len last items s).part q).st = .running ∧ ((beginReplay p m q va len last items s).part q).turn = 0 ∧
    ((beginReplay p m q va len last items s).part q).replay = some ⟨p, m, last, items, 0, none, [], [], []⟩ ∧
    ((beginReplay p m q va len last items s).part q).settings = (s.part q).settings := by
  obtain ⟨settings, turn⟩ := rewindPart_spec cfg img va len
  have here : (beginReplay p m q va len last items s).part q = { (rewindPart q va len s).part q with
      st := .running, changes := ((rewindPart q va len s).part q).changes ++ replayChanges ((rewindPart q va len s).part q) items
      replay := some ⟨p, m, last, items, 0, none, [], [], []⟩ } :=
    (congrArg (State.part · q) (if_neg on)).trans (State.part_updPart ..)
  rw [here]
  exact ⟨rfl, turn, rfl, settings⟩

/-- The turn a replay is asked to run to: the record's last, or an earlier one. -/
def replayLast (c : Cmd) (h : List Byte) : Nat :=
  if c.field 16 8 = 0 then fieldAt h 88 8 else min (c.field 16 8) (fieldAt h 88 8)

theorem replayLast_ne_zero (c : Cmd) {h : List Byte} (on : fieldAt h 88 8 ≠ 0) : replayLast c h ≠ 0 := by
  unfold replayLast
  split
  · exact on
  · omega

section

variable {p : PortId} {m : MbxId} {s : State}

/-- The header block of the record that a REPLAY_RUN names, as the firmware finds it. -/
def replayHead (c : Cmd) (s : State) : List Byte :=
  (peekBytes (s.part c.part).regNext 16 (c.field 0 8) 256 (settleWrites c.part s)).2

/-- The record's items. -/
def replayItems (c : Cmd) (s : State) : Option (List RecItem) :=
  ringItems (s.part c.part).regNext (c.field 0 8) (c.field 8 8) (replayHead c s) (settleWrites c.part s)

/-- The state that its reads leave. -/
def replayRead (c : Cmd) (s : State) : State :=
  ringRead (s.part c.part).regNext (c.field 0 8) (ringLen (replayHead c s) (c.field 8 8)) s

theorem replayRead_peeked (c : Cmd) (s : State) : s.Peeked (replayRead c s) := .ringRead ..

theorem replayRun_eq {c : Cmd} (m : Nat) (long : 4096 ≤ c.field 8 8)
    (inside : inCapacity false (s.part c.part).regNext (c.field 0 8) (c.field 8 8) = true) :
    replayRun p m c s =
      (recordRefusal (s.part c.part) (replayHead c s) s.build (c.field 8 8) (replayItems c s)).elim
        (beginReplay p m c.part (c.field 0 8) (c.field 8 8) (replayLast c (replayHead c s)) ((replayItems c s).getD [])
          (replayRead c s), none)
        fun st => (replayRead c s, some (.only st)) := by
  have build := (State.Peeked.ringRead (s.part c.part).regNext (c.field 0 8) (ringLen (replayHead c s) (c.field 8 8)) s).build
  unfold replayHead at build
  unfold replayRun replayItems replayRead replayHead replayLast
  dsimp only
  rw [if_neg (by rw [inside]; simp [long]), build]
  cases recordRefusal _ _ _ _ _ <;> rfl

theorem replayRun_outside (run : toRun p m 0x0041 s = true) (short : (s.mbx p m).command.field 8 8 < 4096 ∨
      inCapacity false (s.part (s.mbx p m).command.part).regNext ((s.mbx p m).command.field 0 8)
        ((s.mbx p m).command.field 8 8) = false) :
    ∃ t, exec (.replayRun p m) s = .next t ∧ Answered p m 0x03 [] s t ∧ OnlyBox p m s t := by
  refine ⟨_, rfl, runLater_refuses run ?_⟩
  unfold replayRun
  dsimp only
  rw [part_takenUp, if_pos short]
  rfl

theorem build_takenUp : (takenUp p m s).build = s.build := congrArg (fun x => x.fw.build) (State.updMbx_hs ..)

/-- A record that its checks refuse (R406, R432). -/
theorem replayRun_refused {st : Nat} (run : toRun p m 0x0041 s = true) (long : 4096 ≤ (s.mbx p m).command.field 8 8)
    (inside : inCapacity false (s.part (s.mbx p m).command.part).regNext ((s.mbx p m).command.field 0 8)
      ((s.mbx p m).command.field 8 8) = true)
    (refusal : recordRefusal (s.part (s.mbx p m).command.part) (replayHead (s.mbx p m).command (takenUp p m s)) s.build
      ((s.mbx p m).command.field 8 8) (replayItems (s.mbx p m).command (takenUp p m s)) = some st) :
    ∃ t, exec (.replayRun p m) s = .next t ∧ Answered p m st [] s t ∧
      OnlyBox p m (replayRead (s.mbx p m).command (takenUp p m s)) t := by
  rw [← part_takenUp p m] at inside refusal
  rw [← build_takenUp (p := p) (m := m)] at refusal
  have hf := replayRun_eq (p := p) m long inside
  rw [refusal] at hf
  obtain ⟨answered, box⟩ := unitsCommand_ends (s := s) (.only st)
    ((State.FrontKept.reads ((replayRead_peeked (s.mbx p m).command (takenUp p m s)).reads 0)).port p)
  exact ⟨_, congrArg Host.Outcome.next (runLater_ends run hf), answered, box⟩

/-- A record that its checks allow is replayed (R406, R432, R433). -/
theorem replayRun_runs {k : PartCfg} {i : Image} {l : List RecItem} (run : toRun p m 0x0041 s = true)
    (long : 4096 ≤ (s.mbx p m).command.field 8 8)
    (inside : inCapacity false (s.part (s.mbx p m).command.part).regNext ((s.mbx p m).command.field 0 8)
      ((s.mbx p m).command.field 8 8) = true)
    (refusal : recordRefusal (s.part (s.mbx p m).command.part) (replayHead (s.mbx p m).command (takenUp p m s)) s.build
      ((s.mbx p m).command.field 8 8) (replayItems (s.mbx p m).command (takenUp p m s)) = none)
    (items : replayItems (s.mbx p m).command (takenUp p m s) = some l) (cfg : (s.part (s.mbx p m).command.part).cfg = some k)
    (img : (s.part (s.mbx p m).command.part).img = some i)
    (on : fieldAt (replayHead (s.mbx p m).command (takenUp p m s)) 88 8 ≠ 0) :
    ∃ t, exec (.replayRun p m) s = .next t ∧ (t.part (s.mbx p m).command.part).st = .running ∧
      (t.part (s.mbx p m).command.part).turn = 0 ∧
      (t.part (s.mbx p m).command.part).replay = some ⟨p, m, replayLast (s.mbx p m).command
        (replayHead (s.mbx p m).command (takenUp p m s)), l, 0, none, [], [], []⟩ ∧
      (t.part (s.mbx p m).command.part).settings = (s.part (s.mbx p m).command.part).settings := by
  have part := ((replayRead_peeked (s.mbx p m).command (takenUp p m s)).part (s.mbx p m).command.part).trans (part_takenUp ..)
  rw [← part_takenUp p m] at inside refusal
  rw [← build_takenUp (p := p) (m := m)] at refusal
  have hf := replayRun_eq (p := p) m long inside
  rw [refusal, items] at hf
  obtain ⟨st, turn, replay, settings⟩ := beginReplay_spec p m ((s.mbx p m).command.field 0 8) ((s.mbx p m).command.field 8 8) l
    (by rw [part]; exact cfg) (by rw [part]; exact img) (replayLast_ne_zero (s.mbx p m).command on)
  rw [part] at settings
  exact ⟨_, congrArg Host.Outcome.next (runLater_waits run hf), st, turn, replay, settings⟩

end

/-- Settles O54, command by command: each is kept for the boundary, begun, or refused. -/
theorem mappingCommands : Obligations.MappingCommands := by
  unfold Obligations.MappingCommands
  intro p m s c x kept bad
  refine ⟨fun run stays => ⟨memMap_kept run stays, memMap_refused run stays⟩,
    fun run moves => ⟨memMapMigrate_waits run moves, memMapMigrate_refused run moves⟩,
    fun run => ⟨memUnmap_kept run, memUnmap_refused run⟩, fun run => ?_,
    fun run => ⟨fun w window zero free still => windowClose_kept run window zero free still, windowClose_refused run⟩,
    fun run => ⟨fun ok => ?_, streamOpen_refused run⟩, fun run => ⟨fun zero isOpen => ?_, streamClose_refused run⟩,
    fun run => ⟨replayRun_outside run, fun long inside => ?_⟩⟩
  · intro dva iova len range page space flag zero free guardFree apart
    have ran : windowOpenRun p m c (takenUp p m s) = _ := windowOpenRun_ok m range page space flag zero
      (by rw [part_takenUp]; exact free) (by rw [part_takenUp]; exact guardFree) (by rw [part_takenUp]; exact apart)
    rw [part_takenUp] at ran
    refine ⟨fun i first => ?_, fun full => ?_⟩
    · have opened := ran
      rw [show freeWindow (s.part c.part) = some i from first] at opened
      exact windowOpen_kept run opened
    · rw [show freeWindow (s.part c.part) = none from full] at ran
      exact ⟨_, rfl, answers_only run ran⟩
  · obtain ⟨t, next, answered, streams⟩ := streamOpen_opens run ok
    exact ⟨t, _, next, answered, (streams _).trans (if_pos rfl), rfl, rfl, rfl, rfl, rfl, rfl, rfl, rfl,
      fun n hn => (streams n).trans (if_neg hn)⟩
  · obtain ⟨t, next, answered, streams⟩ := streamClose_closes run zero isOpen
    exact ⟨t, next, answered, (streams _).trans (if_pos rfl), fun n hn => (streams n).trans (if_neg hn)⟩
  · intro u h items
    have head : replayHead c (takenUp p m s) = h := by unfold replayHead; rw [part_takenUp]
    have found : replayItems c (takenUp p m s) = items := by unfold replayItems; rw [head, part_takenUp]
    have read : replayRead c (takenUp p m s) = ringRead x.regNext (c.field 0 8) (ringLen h (c.field 8 8)) (takenUp p m s) := by
      unfold replayRead
      rw [head, part_takenUp]
    rw [← read, ← found, ← head]
    refine ⟨fun st refusal => replayRun_refused run long inside refusal, fun k i l refusal hl cfg img on => ?_⟩
    obtain ⟨t, next, st, turn, replay, settings⟩ := replayRun_runs run long inside refusal hl cfg img on
    have hcfg : (t.part c.part).cfg = x.cfg := congrArg Prod.fst settings
    have himg : (t.part c.part).img = x.img := congrArg (·.2.1) settings
    exact ⟨t, _, next, st, turn, replay, rfl, rfl, rfl, hcfg.trans cfg, himg.trans img, congrArg (·.2.2) settings⟩

end Sys2Proof.Machine
end

section
/-! SUPPORT. STATUS and the cause word of a frame, field by field (R127, R139), and runs of words and address registers written
(R73, R138). -/

namespace Sys2Proof.Machine

theorem b2n_le (b : Bool) : b2n b ≤ 1 := by cases b <;> decide

theorem wbit_of_div {w : Word} {i : Nat} {b : Bool} (h : w.toNat / 2 ^ i % 2 = b2n b) : wbit w i = b := by
  unfold wbit bitOf
  rw [h]
  cases b <;> rfl

theorem imaskOf_mod (w : Word) : wf64 w 63 48 % 65536 = wf64 w 63 48 := Nat.mod_mod ..

/-- STATUS holds the fields it is made of, and 0 elsewhere (R127). -/
theorem mkStatus_fields (imask : Nat) (wo niw pl : Bool) :
    let s := mkStatus imask wo niw pl
    wbit s 8 = pl ∧ wbit s 9 = false ∧ wbit s 10 = niw ∧ wbit s 11 = wo ∧ wf64 s 63 48 = imask % 65536 ∧ wf64 s 7 0 = 0 ∧
      wf64 s 47 12 = 0 := by
  intro s
  have hwo := b2n_le wo
  have hniw := b2n_le niw
  have hpl := b2n_le pl
  have value : s.toNat = imask % 65536 * 2 ^ 48 + b2n wo * 2 ^ 11 + b2n niw * 2 ^ 10 + b2n pl * 2 ^ 8 :=
    (BitVec.toNat_ofNat ..).trans (Nat.mod_eq_of_lt (by omega))
  refine ⟨wbit_of_div ?_, wbit_of_div (show _ = 0 from ?_), wbit_of_div ?_, wbit_of_div ?_, ?_, ?_, ?_⟩ <;>
    simp only [wf64, fieldOf, value, Nat.reduceAdd, Nat.reduceSub] <;> omega

@[simp] theorem wbit_mkStatus_pl (imask : Nat) (wo niw pl : Bool) : wbit (mkStatus imask wo niw pl) 8 = pl := by
  obtain ⟨h, -⟩ := mkStatus_fields imask wo niw pl
  exact h

@[simp] theorem wbit_mkStatus_niw (imask : Nat) (wo niw pl : Bool) : wbit (mkStatus imask wo niw pl) 10 = niw := by
  obtain ⟨-, -, h, -⟩ := mkStatus_fields imask wo niw pl
  exact h

@[simp] theorem wbit_mkStatus_wo (imask : Nat) (wo niw pl : Bool) : wbit (mkStatus imask wo niw pl) 11 = wo := by
  obtain ⟨-, -, -, h, -⟩ := mkStatus_fields imask wo niw pl
  exact h

@[simp] theorem wf64_mkStatus_imask (v : Word) (wo niw pl : Bool) :
    wf64 (mkStatus (wf64 v 63 48) wo niw pl) 63 48 = wf64 v 63 48 := by
  obtain ⟨-, -, -, -, h, -⟩ := mkStatus_fields (wf64 v 63 48) wo niw pl
  exact h.trans (imaskOf_mod v)

/-- The cause word holds what the exception carries (R139). -/
theorem causeWord_fields (e : Exc) {savefail : Nat} (h : savefail < 256) :
    let w := causeWord e savefail
    wf64 w 7 0 = e.vec % 256 ∧ wf64 w 10 8 = e.slot % 8 ∧ wf64 w 12 11 = e.opnd % 4 ∧ wbit w 13 = e.ds ∧ wbit w 14 = e.tw ∧
      wbit w 15 = e.le ∧ wf64 w 23 16 = e.sub % 256 ∧ wf64 w 31 24 = savefail ∧ wf64 w 63 32 = 0 := by
  intro w
  have hle := b2n_le e.le
  have htw := b2n_le e.tw
  have hds := b2n_le e.ds
  have value : w.toNat = savefail * 2 ^ 24 + e.sub % 256 * 2 ^ 16 + b2n e.le * 2 ^ 15 + b2n e.tw * 2 ^ 14 + b2n e.ds * 2 ^ 13
      + e.opnd % 4 * 2 ^ 11 + e.slot % 8 * 2 ^ 8 + e.vec % 256 :=
    (BitVec.toNat_ofNat ..).trans (Nat.mod_eq_of_lt (by omega))
  refine ⟨?_, ?_, ?_, wbit_of_div ?_, wbit_of_div ?_, wbit_of_div ?_, ?_, ?_, ?_⟩ <;>
    simp only [wf64, fieldOf, value, Nat.reduceAdd, Nat.reduceSub] <;> omega

/-- A map after a run of writes from key k on: the run where it lies, and what was there elsewhere. -/
theorem SMap.get_foldl_set {α : Type} [DecidableEq α] (d : α) (k n i : Nat) (vs : List α) (m : SMap α) :
    SMap.get d i ((vs.zipIdx n).foldl (fun m e => SMap.set d (k + e.2) e.1 m) m) =
      if k + n ≤ i ∧ i < k + n + vs.length then vs.getD (i - (k + n)) d else SMap.get d i m := by
  induction vs generalizing n m with
  | nil => simp
  | cons v vs ih =>
    rw [List.zipIdx_cons, List.foldl_cons, ih, List.length_cons]
    rcases lt_trichotomy i (k + n) with lt | rfl | gt
    · rw [if_neg (by omega), if_neg (by omega), SMap.get_set_ne d (by omega)]
    · rw [if_neg (by omega), if_pos (by omega), SMap.get_set, Nat.sub_self, List.getD_cons_zero]
    · have later : i - (k + n) = i - (k + (n + 1)) + 1 := by omega
      rw [SMap.get_set_ne d (by omega), later, List.getD_cons_succ]
      exact if_congr (by omega) rfl rfl

theorem putWords_store (w : Nat) (vs : List TWord) (x : Core) :
    (putWords w vs x).store = vs.zipIdx.foldl (fun m e => SMap.set TWord.zero (w + e.2) e.1 m) x.store := by
  unfold putWords
  exact (List.foldl_hom Core.store fun _ _ => rfl).symm

/-- The store after a run of words is written. -/
theorem word_putWords (w : Nat) (vs : List TWord) (x : Core) (i : Nat) :
    (putWords w vs x).word i = if w ≤ i ∧ i < w + vs.length then vs.getD (i - w) TWord.zero else x.word i := by
  unfold Core.word
  rw [putWords_store]
  exact SMap.get_foldl_set ..

/-- Words written change nothing of a core but its store and the errors held there. -/
theorem putWords_frame (w : Nat) (vs : List TWord) (x : Core) :
    { putWords w vs x with store := x.store, storeErr := x.storeErr } = x :=
  List.foldlRecOn (motive := fun y : Core => { y with store := x.store, storeErr := x.storeErr } = x) _ _ rfl fun _ h _ _ => h

theorem setAregs_a (r : Nat) (vs : List TWord) (x : Core) :
    (setAregs r vs x).a = vs.zipIdx.foldl (fun m e => SMap.set TWord.zero (r + e.2) e.1 m) x.a := by
  unfold setAregs
  exact (List.foldl_hom Core.a fun _ _ => rfl).symm

/-- The address registers after a run of them is written. -/
theorem areg_setAregs (r : Nat) (vs : List TWord) (x : Core) (i : Nat) :
    (setAregs r vs x).areg i = if r ≤ i ∧ i < r + vs.length then vs.getD (i - r) TWord.zero else x.areg i := by
  unfold Core.areg
  rw [setAregs_a]
  exact SMap.get_foldl_set ..

/-- Address registers written change nothing else of a core. -/
theorem setAregs_frame (r : Nat) (vs : List TWord) (x : Core) : { setAregs r vs x with a := x.a } = x :=
  List.foldlRecOn (motive := fun y : Core => { y with a := x.a } = x) _ _ rfl fun _ h _ _ => h

end Sys2Proof.Machine
end

section
/-! SUPPORT. An exception's entry whose checks pass (R138, R139, R147): where the frame stands, and what the handler's registers
hold. -/

namespace Sys2Proof.Machine

/-- The stack pointer of an entry whose checks pass leaves room for the frame (R147). -/
theorem entrySp_of_entryFail {v : Nat} {x : Core} (h : entryFail v x = 0) : 128 ≤ (entrySp v x).data.toNat := by
  contrapose! h
  unfold entryFail
  dsimp only
  split_ifs <;> omega

@[simp] theorem length_frameWords (e : Exc) (savefail : Nat) (x : Core) : (frameWords e savefail x).length = 16 := rfl

theorem frameWords_high (e : Exc) (savefail : Nat) (x : Core) {i : Nat} (h : i < 8) :
    (frameWords e savefail x).getD (8 + i) TWord.zero = x.areg (8 + i) := by
  rw [frameWords, List.getD_append_right _ _ _ _ (by simp)]
  simp [List.getD_eq_getElem?_getD, h]

/-- The frame's words spell the exception and the core it met (R139). -/
theorem frameStands_of_words {e : Exc} {savefail b : Nat} {x y : Core} (hs : savefail < 256)
    (h : ∀ i, i < 16 → y.word (b + i) = (frameWords e savefail x).getD i TWord.zero) : FrameStands e savefail b x y := by
  obtain ⟨vec, slot, opnd, ds, tw, le, sub, fail, rest⟩ := causeWord_fields e hs
  have cause := congrArg TWord.data (h 2 (by decide))
  refine ⟨h 0 (by decide), h 1 (by decide), congrArg TWord.tag (h 2 (by decide)), ?_⟩
  dsimp only
  rw [cause]
  exact ⟨vec, slot, opnd, ds, tw, le, sub, fail, rest, h 3 (by decide), h 4 (by decide), h 5 (by decide), h 6 (by decide),
    h 7 (by decide), fun i hi => (h (8 + i) (by omega)).trans (frameWords_high e savefail x hi)⟩

section

variable {e : Exc} {x : Core} (h : entryFail e.vec x = 0)

include h

theorem enterCore_store :
    (enterCore e x).store = (putWords (((entrySp e.vec x).data.toNat - 128) / 8) (frameWords e 0 x) x).store :=
  (congrArg Core.store (if_pos h) :)

theorem enterCore_frame_word {i : Nat} (hi : i < 16) :
    (enterCore e x).word (((entrySp e.vec x).data.toNat - 128) / 8 + i) = (frameWords e 0 x).getD i TWord.zero := by
  have written := word_putWords (((entrySp e.vec x).data.toNat - 128) / 8) (frameWords e 0 x) x
    (((entrySp e.vec x).data.toNat - 128) / 8 + i)
  rw [length_frameWords, if_pos (by omega), Nat.add_sub_cancel_left] at written
  exact (congrArg (SMap.get TWord.zero _) (enterCore_store h) :).trans written

theorem enterCore_frameStands : FrameStands e 0 (((entrySp e.vec x).data.toNat - 128) / 8) x (enterCore e x) :=
  frameStands_of_words (by decide) fun _ hi => enterCore_frame_word h hi

/-- The handler's address registers: the frame's address in A15, the descriptor's argument in A14. -/
theorem enterCore_a : (enterCore e x).a = SMap.set TWord.zero 14 (x.word (entryWord e.vec + 3))
    (SMap.set TWord.zero 15 ⟨(entrySp e.vec x).data - 128, 5⟩ x.a) := by
  have regs := congrArg Core.a (putWords_frame (((entrySp e.vec x).data.toNat - 128) / 8) (frameWords e 0 x) x)
  rw [← regs]
  exact (congrArg Core.a (if_pos h) :)

theorem enterCore_areg_low {r : Nat} (hr : r < 14) : (enterCore e x).areg r = x.areg r := by
  unfold Core.areg
  rw [enterCore_a h, SMap.get_set_ne _ (by omega), SMap.get_set_ne _ (by omega)]

theorem enterCore_areg_sp : (enterCore e x).areg 15 = ⟨(entrySp e.vec x).data - 128, 5⟩ := by
  unfold Core.areg
  rw [enterCore_a h, SMap.get_set_ne _ (by decide), SMap.get_set]

/-- The sixteen words at A15 after the entry are the frame (R139). -/
theorem twords_enterCore :
    (enterCore e x).twords ((enterCore e x).areg 15).data.toNat 16 = frameWords e 0 x := by
  have room : (128 : Word) ≤ (entrySp e.vec x).data := entrySp_of_entryFail h
  rw [enterCore_areg_sp h, Core.twords, BitVec.toNat_sub_of_le room]
  refine List.ext_getElem rfl fun i hi _ => ?_
  rw [List.getElem_map, List.getElem_range, ← List.getD_eq_getElem _ TWord.zero]
  exact enterCore_frame_word h (by simpa using hi)

end

end Sys2Proof.Machine
end

section
/-! PROOF. O15 to O18: writes of STATUS (R127), an exception's entry and its return (R138, R146, R148). -/

namespace Sys2Proof.Machine

/-- Settles O18, field by field of the word that a write leaves. -/
theorem statusWrite : Obligations.StatusWrite := by
  unfold Obligations.StatusWrite
  intro v x y
  have status : y.status = mkStatus (wf64 v 63 48) (wbit v 11) (x.niw && !wbit v 10) (wbit v 8) := rfl
  obtain ⟨pl, bit9, niw, wo, -, low, mid⟩ := mkStatus_fields (wf64 v 63 48) (wbit v 11) (x.niw && !wbit v 10) (wbit v 8)
  rw [← status] at pl bit9 niw wo low mid
  have imask : wf64 y.status 63 48 = wf64 v 63 48 := by rw [status, wf64_mkStatus_imask]
  refine ⟨pl, wo, niw, imask, low, bit9, mid, fun closes => ?_, fun stays => ?_, by unfold y writeStatus; rfl⟩
  · exact if_pos closes
  · exact if_neg (by rw [stays]; exact Bool.false_ne_true)

/-- Settles O16: the fields of STATUS, the registers of the frame's words 8 to 15, and the bits of its cause word. -/
theorem returnFromException : Obligations.ReturnFromException := by
  unfold Obligations.ReturnFromException
  intro ws x len y w
  have regs (i : Nat) : y.areg i = (setAregs 8 (ws.drop 8) x).areg i := rfl
  have twait : y.twait = (x.twait || wbit (w 2).data 14) :=
    congrArg (· || wbit (w 2).data 14) (congrArg Core.twait (setAregs_frame 8 (ws.drop 8) x) :)
  have branch : y.branchOnly = (wbit (w 2).data 13 && !wbit (w 2).data 14) := rfl
  refine ⟨wbit_mkStatus_pl .., wbit_mkStatus_niw .., wbit_mkStatus_wo .., wf64_mkStatus_imask .., rfl, rfl, rfl, fun i hi => ?_,
    fun r hr => ?_, rfl, fun tw => ?_, fun tw => ?_, ?_⟩
  · rw [regs, areg_setAregs, List.length_drop, if_pos (by omega)]
    simp [w, List.getD_eq_getElem?_getD]
  · rw [regs, areg_setAregs, if_neg (by omega)]
  · rw [twait, branch, tw]
    simp
  · rw [twait, branch, tw]
    simp
  · have frame := setAregs_frame 8 (ws.drop 8) x
    exact (congrArg (fun z : Core => { z with
      status := x.status, niLeft := x.niLeft, loopIn := x.loopIn, loopOut := x.loopOut, pc := x.pc, twait := x.twait,
      branchOnly := x.branchOnly }) frame :)

/-- Settles O17: the words that RTE takes at A15 are the frame that the entry wrote, and O16 says what it makes of them. -/
theorem exceptionRoundTrip : Obligations.ExceptionRoundTrip := by
  unfold Obligations.ExceptionRoundTrip
  intro e x passes pc _ y z
  have words : y.twords (y.areg 15).data.toNat 16 = frameWords e 0 x := twords_enterCore passes
  have back : z = rteCore (frameWords e 0 x) y := congrArg (rteCore · y) words
  obtain ⟨-, -, -, -, -, loopIn, loopOut, high, low, next, waits, goes, -⟩ := returnFromException (frameWords e 0 x) y rfl
  obtain ⟨-, -, -, ds, tw, -⟩ := causeWord_fields e (savefail := 0) (by decide)
  have cause : ((frameWords e 0 x).getD 2 TWord.zero).data = causeWord e 0 := rfl
  rw [cause, tw] at waits goes
  rw [ds] at goes
  rw [back]
  refine ⟨fun r hr => ?_, loopIn, loopOut, rfl, ?_, ?_⟩
  · by_cases lower : r < 8
    · exact (low r lower).trans (enterCore_areg_low passes (by omega))
    · have reg := (high (r - 8) (by omega)).trans (frameWords_high e 0 x (by omega))
      rwa [Nat.add_sub_cancel' (by omega)] at reg
  · have saved : ((frameWords e 0 x).getD 0 TWord.zero).data.toNat = e.pc := by
      change (BitVec.ofNat 64 (e.pc % 2 ^ 17)).toNat = e.pc
      rw [BitVec.toNat_ofNat]
      omega
    exact next.trans (by rw [saved, Nat.mod_eq_of_lt pc])
  · cases at' : e.tw with
    | true =>
      obtain ⟨twait, branch⟩ := waits at'
      exact ⟨twait, by rw [branch, Bool.not_true, Bool.and_false]⟩
    | false =>
      obtain ⟨twait, branch⟩ := goes at'
      exact ⟨twait.trans (enterCore_twait passes), by rw [branch, Bool.not_false, Bool.and_true]⟩

/-- Refutes O15: rescue word 32 has tag 0x0 after an entry that fails a check, as R73 has it, and not the tag 0x8 of a return link.
The reset core has no valid descriptor entry. -/
theorem not_exceptionEntry : ¬ Obligations.ExceptionEntry := by
  unfold Obligations.ExceptionEntry
  intro h
  obtain ⟨-, -, next, -⟩ := (h (Exc.atBoundary 0 0) Core.reset).2 (by decide)
  exact absurd next (by decide)

end Sys2Proof.Machine
end

section
/-! PROOF. O21: a vector fault delivered at TWAIT (R134, R187). -/

namespace Sys2Proof.Machine

/-- The vector fault that waits for delivery is taken. -/
def Core.takenFault (x : Core) : Core := { x with pend := { x.pend with vfault := none } }

theorem takeImmediate_none {c : Nat} {s : State} (h : (s.core c).pend.imm = []) : takeImmediate c s = none := by
  unfold takeImmediate
  dsimp only
  rw [h]
  rfl

/-- A core in TWAIT with nothing immediate pending takes its vector fault as vector 6 (R134). -/
theorem exec_ownActionDelivery_vfault {c : CoreId} {q sub : Nat} {a : Word} {s : State} (runs : s.coreRuns c = some q)
    (twait : (s.core c).twait = true) (done : (s.core c).tu.done = false) (imm : (s.core c).pend.imm = [])
    (boundary : (s.core c).atBoundary = true) (fault : (s.core c).pend.vfault = some (sub, a)) :
    exec (.ownActionDelivery c) s =
      .next (enter c (Exc.atTwait 6 sub a.toNat (s.core c).pc) (s.updCore c Core.takenFault)) := by
  have own : ownAction c q s = enter c (Exc.atTwait 6 sub a.toNat (s.core c).pc) (s.updCore c Core.takenFault) := by
    unfold ownAction
    dsimp only
    rw [fault]
    rfl
  have step : twaitStep c q s = ownAction c q s := by
    unfold twaitStep
    rw [takeImmediate_none imm]
    exact if_neg (by rw [done]; exact Bool.false_ne_true)
  refine congrArg Host.Outcome.next ?_
  rw [runs, ← own, ← step]
  exact if_pos (by simp [twait, done, boundary])

/-- Settles O21: with the fault taken, the core enters vector 6 as a core without errors does. -/
theorem ownActionDelivery : Obligations.OwnActionDelivery := by
  unfold Obligations.OwnActionDelivery
  intro c q sub a s runs twait done imm delay branch fault clean passes
  have boundary : (s.core c).atBoundary = true := by simp [Core.atBoundary, delay, branch]
  have taken : (s.updCore c Core.takenFault).core c = (s.core c).takenFault := State.core_updCore ..
  generalize he : Exc.atTwait 6 sub a.toNat (s.core c).pc = e
  have passes' : entryFail e.vec (s.core c).takenFault = 0 := by rw [← he]; exact passes
  refine ⟨_, exec_ownActionDelivery_vfault runs twait done imm boundary fault, ?_⟩
  rw [he, enter_clean (by rw [taken]; exact clean), State.core_updCore, taken]
  refine ⟨onlyCore_updCore (onlyCore_updCore (onlyCore_refl c s) _) _, enterCore_pend passes', enterCore_twait passes', ?_, ?_⟩
  · rw [enterCore_pc passes', ← he]
    rfl
  · have stands := enterCore_frameStands passes'
    rw [← he] at stands ⊢
    exact stands

end Sys2Proof.Machine
end

section
/-! PROOF. O22: a window that runs out, the notice of a halt, and the patrol scrub (R77, R78, R143, R149, R423). -/

namespace Sys2Proof.Machine

/-! The window (R143). -/

/-- A core that runs is of a RUNNING partition, not halted, and past turn 0 (R33, R149). -/
theorem coreRuns_spec {c q : Nat} {s : State} (h : s.coreRuns c = some q) :
    (s.core c).part = some q ∧ (s.part q).st = .running ∧ (s.core c).halt = 0 ∧ 1 ≤ (s.core c).tu.turn := by
  obtain ⟨k, part, h⟩ := Option.bind_eq_some_iff.1 h
  split at h
  next runs =>
    cases h
    exact ⟨part, runs⟩
  next => cases h

/-- A core that stands at a boundary with nothing pending takes an immediate exception at once, its pending exceptions as they were
(R131, R138). -/
theorem raiseImmediate_core {c v : Nat} {s : State} (boundary : (s.core c).atBoundary = true) (vload : (s.core c).vload = false)
    (halt : (s.core c).halt = 0) (imm : (s.core c).pend.imm = []) (clean : (s.core c).storeErr = []) :
    ∃ e : Exc, e.vec = v ∧ (raiseImmediate c v s).core c = enterCore e (s.core c) := by
  have noted : (s.core c).immediate v = { s.core c with pend := { (s.core c).pend with imm := [v] } } := by
    simp [Core.immediate, imm]
  have now : ((s.core c).immediate v).atBoundary = true ∧ ((s.core c).immediate v).vload = false ∧
      ((s.core c).immediate v).halt = 0 := by
    rw [noted]
    exact ⟨boundary, vload, halt⟩
  have first : lowest ((s.core c).immediate v).pend.imm = some v := by rw [noted]; rfl
  have entered : ∃ e : Exc, e.vec = v ∧
      raiseImmediate c v s = enter c e ((s.updCore c (Core.immediate v)).updCore c (Core.takenImm v)) := by
    unfold raiseImmediate takeImmediate
    dsimp only
    rw [State.core_updCore, if_pos (by simp [now]), first]
    refine ⟨_, ?_, rfl⟩
    split <;> rfl
  obtain ⟨e, vec, entered⟩ := entered
  have back : ((s.updCore c (Core.immediate v)).updCore c (Core.takenImm v)).core c = s.core c := by
    rw [State.core_updCore, State.core_updCore, takenImm_immediate v imm]
  refine ⟨e, vec, ?_⟩
  rw [entered, enter_clean (by rw [back]; exact clean), State.core_updCore, back]

theorem onlyCore_trans {c : Nat} {s t u : State} (h : OnlyCore c s t) (k : OnlyCore c t u) : OnlyCore c s u :=
  ⟨fun i hi => (k.1 i hi).trans (h.1 i hi), (congrArg (fun z : State => { z with cores := s.cores }) k.2 :).trans h.2⟩

/-- An immediate exception of a core without errors changes that core alone. -/
theorem raiseImmediate_onlyCore {c : Nat} {s : State} (clean : (s.core c).storeErr = []) (v : Nat) :
    OnlyCore c s (raiseImmediate c v s) :=
  ⟨(raiseImmediate_changed c v s).others, raiseImmediate_clean clean v⟩

theorem putWords_overrun (w : Nat) (vs : List TWord) (x : Core) : (putWords w vs x).overrun = x.overrun :=
  (congrArg Core.overrun (putWords_frame w vs x) :)

theorem enterCore_overrun {e : Exc} {x : Core} (h : entryFail e.vec x = 0) : (enterCore e x).overrun = x.overrun := by
  unfold enterCore
  simp only [h, if_true, setAreg, putWords_overrun]

/-- A core whose window has run out, with the STATUS that this leaves (R143 steps 1 and 2). -/
def Core.expired (st : Word) (x : Core) : Core := { x with status := st, niLeft := 0, overrun := true }

/-- A window that runs out closes, with WO 1, and its core enters Window Overrun where CONTROL.OVT has it so. -/
theorem windowExpires_cases (c : Nat) (s : State) : ∃ st : Word,
    wbit st 10 = false ∧ wbit st 11 = true ∧ wbit st 8 = (s.core c).sup ∧ wf64 st 63 48 = wf64 (s.core c).status 63 48 ∧
    windowExpires c s = if (s.core c).niOvt then raiseImmediate c 11 (s.updCore c (Core.expired st))
      else s.updCore c (Core.expired st) := by
  have same : s.updCore c (fun x => { x with
      status := mkStatus (wf64 x.status 63 48) true false x.sup, niLeft := 0, overrun := true }) =
      s.updCore c (Core.expired (mkStatus (wf64 (s.core c).status 63 48) true false (s.core c).sup)) := State.updCore_congr rfl
  refine ⟨_, wbit_mkStatus_niw .., wbit_mkStatus_wo .., wbit_mkStatus_pl .., wf64_mkStatus_imask .., ?_⟩
  rw [← same]
  rfl

theorem exec_windowOverrun_expires {c : CoreId} {q : Nat} {s : State} (runs : s.coreRuns c = some q)
    (overrun : (s.core c).overrun = false) (niw : (s.core c).niw = true) (left : (s.core c).niLeft = 0) :
    exec (.windowOverrun c) s = .next (windowExpires c s) := by
  obtain ⟨part, run, halt, turn⟩ := coreRuns_spec runs
  refine congrArg Host.Outcome.next ?_
  rw [part]
  exact ((if_neg (not_or.2 ⟨not_not.2 run, by omega⟩)).trans (if_neg (by rw [overrun]; exact Bool.false_ne_true))).trans
    (if_pos (by simp [halt, niw, left]))

theorem exec_windowOverrun_stops {c : CoreId} {q : Nat} {s : State} (part : (s.core c).part = some q)
    (run : (s.part q).st = .running) (turn : (s.core c).tu.turn ≠ 0) (overrun : (s.core c).overrun = true) :
    exec (.windowOverrun c) s = .next (windowStop c q s) := by
  refine congrArg Host.Outcome.next ?_
  rw [part]
  exact (if_neg (not_or.2 ⟨not_not.2 run, by omega⟩)).trans (if_pos overrun)

/-- An entry depends on the level and the store alone, which a window that runs out leaves. -/
theorem entryFail_expired {st : Word} {x : Core} (v : Nat) (level : wbit st 8 = x.sup) : entryFail v (x.expired st) = entryFail v x := by
  have words : (x.expired st).word = x.word := rfl
  have regs : (x.expired st).areg = x.areg := rfl
  have sup : (x.expired st).sup = x.sup := level
  have sp : entrySp v (x.expired st) = entrySp v x := by
    unfold entrySp
    rw [words, regs, sup]
  unfold entryFail
  rw [sp, words]

theorem stopWithin_overrun (q : Nat) (st : PartSt) (a o : Nat) (s : State) (c : Nat) :
    ((stopWithin q st a o s).core c).overrun = (s.core c).overrun :=
  (congrArg Core.overrun (stopWithin_cores q st a o s c) :)

/-- A core whose overrun the firmware has acted on (R143). -/
def Core.reported (x : Core) : Core := { x with overrun := false }

/-- The firmware's stop for a window, its report taken and the entry of the overrun made. -/
theorem windowStop_eq (c q : Nat) (s : State) :
    ∃ l, windowStop c q s = stopWithin q .faulted stBound 0 (logEvent l (s.updCore c Core.reported)) := ⟨_, rfl⟩

theorem windowOverrunRule : WindowOverrunRule := by
  intro c q s x
  refine ⟨fun runs overrun niw left => ?_, fun part run replay turn overrun => ?_⟩
  · have next := exec_windowOverrun_expires runs overrun niw left
    obtain ⟨st, niw', wo, level, imask, expires⟩ := windowExpires_cases c s
    rw [expires] at next
    have core : (s.updCore c (Core.expired st)).core c = x.expired st := State.core_updCore ..
    refine ⟨fun ovt => ?_, fun ovt delay branch vload imm clean passes => ?_⟩
    · rw [if_neg (by rw [ovt]; exact Bool.false_ne_true)] at next
      refine ⟨_, next, onlyCore_updCore (onlyCore_refl c s) _, ?_⟩
      rw [core]
      refine ⟨niw', wo, level, imask, rfl, ?_⟩
      unfold Core.expired
      rw [← left, ← overrun]
    · rw [if_pos ovt] at next
      have boundary : ((s.updCore c (Core.expired st)).core c).atBoundary = true := by
        rw [core]
        simp [Core.expired, Core.atBoundary, delay, branch]
      have clean' : ((s.updCore c (Core.expired st)).core c).storeErr = [] := by rw [core]; exact clean
      obtain ⟨e, vec, entered⟩ := raiseImmediate_core (v := 11) boundary (by rw [core]; exact vload)
        (by rw [core]; exact coreRuns_halt runs) (by rw [core]; exact imm) clean'
      rw [core] at entered
      have passes' : entryFail e.vec (x.expired st) = 0 := by rw [vec, entryFail_expired 11 level]; exact passes
      refine ⟨_, next, onlyCore_trans (onlyCore_updCore (onlyCore_refl c s) _) (raiseImmediate_onlyCore clean' 11), ?_⟩
      rw [entered, enterCore_pc passes', enterCore_pend passes', enterCore_overrun passes', vec]
      exact ⟨rfl, rfl, rfl⟩
  · have next := exec_windowOverrun_stops part run turn overrun
    obtain ⟨l, stop⟩ := windowStop_eq c q s
    rw [stop] at next
    refine ⟨_, next, stopWithin_stoppedWithin run (.inl replay) rfl (logEvent_stopOnly _ _ (State.updCore_stopOnly (.refl s) ..)), ?_⟩
    have acted : (logEvent l (s.updCore c Core.reported)).core c = x.reported := State.core_updCore ..
    exact (stopWithin_overrun ..).trans (congrArg Core.overrun acted :)

end Sys2Proof.Machine
end

section
/-! PROOF. O22: the notice of a core's halt (R149, R423). A stop makes no entry but its own where nothing waits to be logged. -/

namespace Sys2Proof.Machine

/-- A move whose end makes no entry (R268). -/
def MoveJob.Clean (j : MoveJob) : Prop := j.zeroT = 0 ∧ j.zeroP = 0

/-- A core whose partition's stop makes no entry for it (R247, R268). -/
def Core.Logged (x : Core) : Prop := x.pend.mfaults = [] ∧ ∀ j ∈ x.jobs.moves, j.Clean

theorem noted_clean (l : List MoveJob) : ∀ j ∈ l.map MoveJob.noted, j.Clean := by
  intro j hj
  obtain ⟨i, -, rfl⟩ := List.mem_map.1 hj
  exact ⟨rfl, rfl⟩

theorem foldl_moveNote_clean {l : List MoveJob} (h : ∀ j ∈ l, j.Clean) (q d unit : Nat) (s : State) :
    l.foldl (fun s j => moveNote q d unit j s) s = s := by
  induction l with
  | nil => rfl
  | cons j l ih =>
    have none : moveNote q d unit j s = s := if_pos (h j List.mem_cons_self)
    rw [List.foldl_cons, none]
    exact ih fun i hi => h i (List.mem_cons_of_mem _ hi)

/-- A core whose Matrix Pass Faults have their entries. -/
def Core.flushed (x : Core) : Core := { x with pend := { x.pend with mfaults := [] } }

/-- A core whose moves have their entries. -/
def Core.movesNoted (x : Core) : Core := { x with jobs := { x.jobs with moves := x.jobs.moves.map MoveJob.noted } }

theorem flushMfaults_logged {q c : Nat} {s : State} (h : (s.core c).pend.mfaults = []) :
    flushMfaults q c s = s.updCore c Core.flushed := by
  unfold flushMfaults
  dsimp only
  rw [h, List.foldl_nil]
  rfl

theorem noteMoves_logged {q c : Nat} {s : State} (h : ∀ j ∈ (s.core c).jobs.moves, j.Clean) :
    noteMoves q c s = s.updCore c Core.movesNoted := by
  unfold noteMoves
  dsimp only
  rw [foldl_moveNote_clean h]
  rfl

theorem stopUnit_eq {c : Nat} {s : State} (h : (s.core c).Logged) (q : Nat) :
    noteMoves q c (flushMfaults q c (s.updCore c Core.dropUnstarted)) =
      ((s.updCore c Core.dropUnstarted).updCore c Core.flushed).updCore c Core.movesNoted := by
  obtain ⟨mfaults, moves⟩ := h
  rw [flushMfaults_logged (by rw [State.core_updCore]; exact mfaults),
    noteMoves_logged (by rw [State.core_updCore, State.core_updCore]; exact moves)]

/-- What the stop of a partition does to a core with nothing to log: the headstock, the dies and the other cores stay. -/
theorem stopUnit_logged {c : Nat} {s : State} (h : (s.core c).Logged) (q : Nat) :
    let t := noteMoves q c (flushMfaults q c (s.updCore c Core.dropUnstarted))
    t.hs = s.hs ∧ t.dies = s.dies ∧ (t.core c).Logged ∧ ∀ i, i ≠ c → t.core i = s.core i := by
  dsimp only
  rw [stopUnit_eq h]
  refine ⟨by simp only [State.updCore_hs], by simp only [State.updCore_dies], ?_, fun i hi => ?_⟩
  · rw [State.core_updCore, State.core_updCore]
    exact ⟨rfl, noted_clean _⟩
  · rw [State.core_updCore_ne _ hi, State.core_updCore_ne _ hi, State.core_updCore_ne _ hi]

theorem stopUnits_logged {q : Nat} {cs : List Nat} {s : State} (h : ∀ c ∈ cs, (s.core c).Logged) :
    let t := cs.foldl (fun s c => noteMoves q c (flushMfaults q c (s.updCore c Core.dropUnstarted))) s
    t.hs = s.hs ∧ t.dies = s.dies := by
  dsimp only
  induction cs generalizing s with
  | nil => exact ⟨rfl, rfl⟩
  | cons c cs ih =>
    rw [List.foldl_cons]
    obtain ⟨hs, dies, own, others⟩ := stopUnit_logged (h c List.mem_cons_self) q
    obtain ⟨hs', dies'⟩ := ih (s := noteMoves q c (flushMfaults q c (s.updCore c Core.dropUnstarted))) fun i hi => by
      by_cases e : i = c
      · rw [e]
        exact own
      · rw [others i e]
        exact h i (List.mem_cons_of_mem _ hi)
    exact ⟨hs'.trans hs, dies'.trans dies⟩

theorem noteBulk_clean {q d : Nat} {s : State} (h : ∀ j ∈ (s.bulkOf d q).moves, j.Clean) :
    noteBulk q d s = updBulk d q (fun b => { b with moves := b.moves.map MoveJob.noted }) s := by
  exact congrArg (State.updDie d _) (foldl_moveNote_clean h q d (0x800 + d) s)

theorem noteBulks_logged {q : Nat} {ds : List Nat} {s : State} (h : ∀ d, ∀ j ∈ (s.bulkOf d q).moves, j.Clean) :
    (ds.foldl (fun s d => noteBulk q d s) s).hs = s.hs := by
  induction ds generalizing s with
  | nil => rfl
  | cons d ds ih =>
    rw [List.foldl_cons, noteBulk_clean (h d)]
    refine ih fun i => ?_
    by_cases e : i = d
    · subst e
      simpa [State.bulkOf, updBulk] using noted_clean _
    · simpa [State.bulkOf, updBulk, State.die_updDie_ne s e] using h i

theorem finishStop_hs (q : Nat) (s : State) : (finishStop q s).hs = s.hs := (congrArg State.hs (finishStop_part_frame q s) :)

theorem quiet_hs (b : Bool) (k q : Nat) (s : State) : (if b = true then s else notifyPart k q s).hs = s.hs := by
  split
  · rfl
  · exact State.updPort_hs ..

/-- A stop that has nothing else to log leaves every entry of the log but the next (R423). -/
theorem stopWithin_log_ne {q i : Nat} {s : State} (quiet : QuietStop q s) (hi : i ≠ s.hs.logNext) (st : PartSt) (a o : Nat) :
    SMap.get none i (stopWithin q st a o s).hs.log = SMap.get none i s.hs.log := by
  by_cases run : (s.part q).st = .running
  · obtain ⟨hs, dies⟩ := stopUnits_logged (q := q) (cs := (s.part q).phys) fun c hc => quiet.1 c hc
    have bulks := noteBulks_logged (q := q) (ds := List.range 12)
      (s := (s.part q).phys.foldl (fun s c => noteMoves q c (flushMfaults q c (s.updCore c Core.dropUnstarted))) s)
      fun d j hj => quiet.2 d j (by rw [State.bulkOf, State.die_of dies] at hj; exact hj)
    have units := bulks.trans hs
    rw [stopWithin, if_pos run, quiet_hs, finishStop_hs, logEvent_log_ne, State.updPart_hs, units]
    rwa [State.updPart_hs, units]
  · rw [stopWithin_idle q st a o s run]

/-- A core whose halt the firmware has heard of (R149). -/
def Core.noticed (x : Core) : Core := { x with haltNote := false }

/-- The entry of the halt of core c of partition q (R423). -/
def haltEntry (q c : Nat) (x : Core) : LogEntry :=
  { LogEntry.ofCode 0x0010 .stop with
    part := some q, src := dieOfCore c, addr := x.pc, unit := x.lcore, d0 := (if x.halt = 1 then 9 else 0) + 256 * x.halt, d1 := x.haltVec }

/-- An entry for a partition as it stands in the log, with the headstock's count and the partition's turn (R422). -/
theorem logEvent_log_part {e : LogEntry} {q : Nat} (h : e.part = some q) (s : State) :
    SMap.get none s.hs.logNext (logEvent e s).hs.log =
      some { e with refcyc := s.hs.refcyc, epoch := s.hs.epoch, turn := (s.part q).turn } := by
  dsimp only [logEvent, State.updHs]
  rw [h]
  exact SMap.get_set (none : Option LogEntry) ..

/-- The notice of a halt: its entry, then the stop for a save failure or a machine check. -/
theorem exec_haltNotice {c : CoreId} {q : Nat} {s : State} (fw : s.hs.fwRun = true) (note : (s.core c).haltNote = true)
    (part : (s.core c).part = some q) :
    exec (.haltNotice c) s = .next (if (s.core c).halt = 1 ∨ (s.core c).halt = 3 then
        faultPart q (logEvent (haltEntry q c (s.core c)) (s.updCore c Core.noticed))
      else logEvent (haltEntry q c (s.core c)) (s.updCore c Core.noticed)) := by
  refine congrArg Host.Outcome.next ((if_pos (by rw [note, fw]; rfl)).trans ?_)
  rw [part]
  rfl

theorem quietStop_noticed {q : Nat} {s : State} (h : QuietStop q s) (c : Nat) (e : LogEntry) :
    QuietStop q (logEvent e (s.updCore c Core.noticed)) := by
  refine ⟨fun i hi => ?_, h.2⟩
  have core : (logEvent e (s.updCore c Core.noticed)).core i = (s.updCore c Core.noticed).core i := rfl
  rw [core]
  by_cases own : i = c
  · rw [own, State.core_updCore]
    exact h.1 c (own ▸ hi)
  · rw [State.core_updCore_ne s own]
    exact h.1 i hi

theorem haltNoticeRule : HaltNoticeRule := by
  intro c q s fw note part
  have next := exec_haltNotice fw note part
  have logged := logEvent_log_part (e := haltEntry q c (s.core c)) rfl (s.updCore c Core.noticed)
  have core : (logEvent (haltEntry q c (s.core c)) (s.updCore c Core.noticed)).core c = (s.core c).noticed := State.core_updCore ..
  have quiet := fun h : QuietStop q s => quietStop_noticed h c (haltEntry q c (s.core c))
  have parts (i : Nat) : (logEvent (haltEntry q c (s.core c)) (s.updCore c Core.noticed)).part i = s.part i := rfl
  have health : (logEvent (haltEntry q c (s.core c)) (s.updCore c Core.noticed)).hs.health = s.hs.health := rfl
  have later : s.hs.logNext ≠ (logEvent (haltEntry q c (s.core c)) (s.updCore c Core.noticed)).hs.logNext :=
    (logNext_succ_ne s.hs.logNext).symm
  generalize logEvent (haltEntry q c (s.core c)) (s.updCore c Core.noticed) = z at *
  refine ⟨_, next, ?_⟩
  by_cases stops : (s.core c).halt = 1 ∨ (s.core c).halt = 3
  · rw [if_pos stops]
    have kept := stopWithin_cores q .faulted stBadCommand 0 z c
    refine ⟨?_, ?_, fun h => ⟨_, (stopWithin_log_ne (quiet h) later ..).trans logged, rfl, rfl, rfl, rfl, rfl, rfl, rfl⟩,
      ?_, fun run replay _ => ?_, fun h1 h3 => ?_⟩
    · exact (congrArg Core.haltNote kept :).trans (congrArg Core.haltNote core)
    · exact (congrArg Core.halt kept :).trans (congrArg Core.halt core :)
    · exact (stopWithin_health ..).trans health
    · obtain ⟨st, stat, incomplete, -⟩ := stopWithin_part q .faulted stBadCommand 0 z (by rw [parts]; exact run)
        (by rw [parts, replay]; rfl)
      exact ⟨st, stat, incomplete⟩
    · exact absurd stops (not_or.2 ⟨h1, h3⟩)
  · rw [if_neg stops]
    exact ⟨congrArg Core.haltNote core, (congrArg Core.halt core :), fun _ => ⟨_, logged, rfl, rfl, rfl, rfl, rfl, rfl, rfl⟩, health,
      fun _ _ h => absurd h stops, fun _ _ => parts⟩

end Sys2Proof.Machine
end

section
/-! PROOF. O22: the patrol scrub (R77, R78), which reads sixteen words of its core's store, and with it every notice of a core. -/

namespace Sys2Proof.Machine

/-- A core one of whose words has been read (R77): an error is corrected, or its word is rewritten as poison. -/
def Core.touched (x : Core) (w : Nat) : Core :=
  if SMap.get CwErr.none w x.storeErr = CwErr.none then x
  else if (SMap.get CwErr.none w x.storeErr).bad then putWord w (poisonWord (SMap.get CwErr.none w x.storeErr).source) x
  else { x with storeErr := SMap.set CwErr.none w CwErr.none x.storeErr }

theorem touch_core (c w : Nat) (how : CwHow) (s : State) : (touch c w how s).core c = (s.core c).touched w := by
  unfold touch Core.touched
  dsimp only
  split
  · rfl
  · split
    · have counted := ((storeUeEntry_accounted c w (SMap.get CwErr.none w (s.core c).storeErr).source how
        (s.updCore c (putWord w (poisonWord (SMap.get CwErr.none w (s.core c).storeErr).source)))).chatterUe
        ⟨0x01, c * 64 + macroOfWord w⟩ (coreWordPa c w)).cores_eq
      rw [State.core_of counted, State.core_updCore]
    · rw [State.core_of ((State.Accounted.refl _).chatter _ _).cores_eq, State.core_updCore]

theorem touchAll_core (c : Nat) (ws : List Nat) (how : CwHow) (s : State) :
    (touchAll c ws how s).core c = ws.foldl Core.touched (s.core c) := by
  induction ws generalizing s with
  | nil => rfl
  | cons w ws ih => exact (ih _).trans (congrArg (ws.foldl Core.touched) (touch_core c w how s))

theorem putWord_spec (w : Nat) (v : TWord) (x : Core) : let y := putWord w v x
    SMap.get CwErr.none w y.storeErr = CwErr.none ∧
    ∀ i, i ≠ w → y.word i = x.word i ∧ SMap.get CwErr.none i y.storeErr = SMap.get CwErr.none i x.storeErr :=
  ⟨SMap.get_set CwErr.none w CwErr.none x.storeErr,
    fun _ hi => ⟨SMap.get_set_ne TWord.zero hi v x.store, SMap.get_set_ne CwErr.none hi CwErr.none x.storeErr⟩⟩

/-- What the read of a word does to the store: the word holds no error afterwards and changes only where it held an uncorrectable
one; every other word stays with its errors. -/
theorem touched_spec (x : Core) (w : Nat) : let y := x.touched w
    SMap.get CwErr.none w y.storeErr = CwErr.none ∧
    (∀ i, i ≠ w → y.word i = x.word i ∧ SMap.get CwErr.none i y.storeErr = SMap.get CwErr.none i x.storeErr) ∧
    ((SMap.get CwErr.none w x.storeErr).bad = false → y.word w = x.word w) := by
  unfold Core.touched
  split
  next clean => exact ⟨clean, fun _ _ => ⟨rfl, rfl⟩, fun _ => rfl⟩
  next =>
    split
    next bad =>
      obtain ⟨cleared, others⟩ := putWord_spec w (poisonWord (SMap.get CwErr.none w x.storeErr).source) x
      exact ⟨cleared, others, fun good => absurd bad (by rw [good]; exact Bool.false_ne_true)⟩
    next =>
      exact ⟨SMap.get_set CwErr.none w CwErr.none x.storeErr,
        fun i hi => ⟨rfl, SMap.get_set_ne CwErr.none hi CwErr.none x.storeErr⟩, fun _ => rfl⟩

/-- What reads of words do, in whatever order. -/
theorem touchedAll_spec (ws : List Nat) (x : Core) : let y := ws.foldl Core.touched x
    (∀ i, i ∈ ws ∨ SMap.get CwErr.none i x.storeErr = CwErr.none → SMap.get CwErr.none i y.storeErr = CwErr.none) ∧
    (∀ i, i ∉ ws ∨ (SMap.get CwErr.none i x.storeErr).bad = false → y.word i = x.word i) := by
  induction ws generalizing x with
  | nil => exact ⟨fun i h => h.resolve_left List.not_mem_nil, fun _ _ => rfl⟩
  | cons w ws ih =>
    obtain ⟨cleared, others, good⟩ := touched_spec x w
    obtain ⟨cleared', words⟩ := ih (x.touched w)
    refine ⟨fun i h => cleared' i ?_, fun i h => ?_⟩
    · by_cases e : i = w
      · exact .inr (e ▸ cleared)
      · rw [(others i e).2]
        exact h.imp_left fun m => (List.mem_cons.1 m).resolve_left e
    · by_cases e : i = w
      · subst e
        have sound := h.resolve_left (not_not.2 List.mem_cons_self)
        exact (words i (.inr (by rw [cleared]; rfl))).trans (good sound)
      · obtain ⟨word, err⟩ := others i e
        rw [← word]
        refine words i ?_
        rw [err]
        exact h.imp_left fun out m => out (List.mem_cons_of_mem _ m)

/-- Reads of words without errors change nothing. -/
theorem touchAll_good {c : Nat} {ws : List Nat} {s : State} (h : ∀ w ∈ ws, SMap.get CwErr.none w (s.core c).storeErr = CwErr.none)
    (how : CwHow) : touchAll c ws how s = s := by
  induction ws with
  | nil => rfl
  | cons w ws ih =>
    have one : touch c w how s = s := if_pos (h w List.mem_cons_self)
    rw [touchAll, List.foldl_cons, one]
    exact ih fun i hi => h i (List.mem_cons_of_mem _ hi)

/-- The sixteen words of a scrub, one of each bank (R78). -/
def scrubWords (row : Nat) : List Nat := (List.range 16).map (row * 16 + ·)

theorem mem_scrubWords {row w : Nat} : w ∈ scrubWords row ↔ row * 16 ≤ w ∧ w < row * 16 + 16 := by
  simp only [scrubWords, List.mem_map, List.mem_range]
  constructor
  · rintro ⟨i, hi, rfl⟩
    omega
  · exact fun h => ⟨w - row * 16, by omega, by omega⟩

/-- The place of the scrub goes on by one (R78). -/
def Core.scrubbed (row : Nat) (x : Core) : Core := { x with scrub := (row + 1) % 32768 }

theorem scrubbed_word (row : Nat) (x : Core) : (x.scrubbed row).word = x.word := rfl
theorem scrubbed_storeErr (row : Nat) (x : Core) : (x.scrubbed row).storeErr = x.storeErr := rfl

theorem exec_patrolScrub {c : CoreId} {env : Env} {s₀ s : State} (hs : s = applyUpsets env.upsets s₀)
    (up : (s.die (dieOfCore c)).up = true) : exec (.patrolScrub c env) s₀ =
      .next ((touchAll c (scrubWords (s.core c).scrub) .patrol s).updCore c (Core.scrubbed (s.core c).scrub)) := by
  subst hs
  exact congrArg Host.Outcome.next (if_pos up)

theorem patrolScrub_spec (c : Nat) (s : State) :
    let x := s.core c
    let t := (touchAll c (scrubWords x.scrub) .patrol s).updCore c (Core.scrubbed x.scrub)
    (t.core c).scrub = (x.scrub + 1) % 32768 ∧
    (∀ w, w < x.scrub * 16 ∨ x.scrub * 16 + 16 ≤ w → (t.core c).word w = x.word w) ∧
    (∀ i, i < 16 → SMap.get CwErr.none (x.scrub * 16 + i) (t.core c).storeErr = CwErr.none) ∧
    (∀ i, i < 16 → (SMap.get CwErr.none (x.scrub * 16 + i) x.storeErr).bad = false →
      (t.core c).word (x.scrub * 16 + i) = x.word (x.scrub * 16 + i)) ∧
    ((∀ i, i < 16 → SMap.get CwErr.none (x.scrub * 16 + i) x.storeErr = CwErr.none) →
      t.core c = { x with scrub := (t.core c).scrub } ∧ OnlyCore c s t) := by
  intro x t
  have core : t.core c = ((scrubWords x.scrub).foldl Core.touched x).scrubbed x.scrub := by
    rw [State.core_updCore, touchAll_core]
  obtain ⟨cleared, words⟩ := touchedAll_spec (scrubWords x.scrub) x
  rw [core, scrubbed_word, scrubbed_storeErr]
  refine ⟨rfl, fun w hw => words w (.inl fun m => ?_), fun i hi => cleared _ (.inl ?_), fun i _ good => words _ (.inr good),
    fun clean => ?_⟩
  · have := mem_scrubWords.1 m
    omega
  · exact mem_scrubWords.2 (by omega)
  · have still : touchAll c (scrubWords x.scrub) .patrol s = s := by
      refine touchAll_good (fun w hw => ?_) .patrol
      obtain ⟨low, high⟩ := mem_scrubWords.1 hw
      have here := clean (w - x.scrub * 16) (by omega)
      rwa [Nat.add_sub_cancel' low] at here
    rw [← core]
    dsimp only [t]
    rw [still]
    exact ⟨by rw [State.core_updCore]; rfl, onlyCore_updCore (onlyCore_refl c s) _⟩

theorem patrolScrubRule : PatrolScrubRule := fun c _ _ up => ⟨_, exec_patrolScrub rfl up, patrolScrub_spec c _⟩

/-- Settles O22, notice by notice. -/
theorem coreNotices : Obligations.CoreNotices := ⟨windowOverrunRule, haltNoticeRule, patrolScrubRule⟩

end Sys2Proof.Machine
end

section
/-! PROOF. O33: the end of a move, and an increment that arrives (R37, R132, R270). -/

namespace Sys2Proof.Machine

/-! What a finished move leaves behind. -/

theorem moveNote_cores (q d unit : Nat) (j : MoveJob) (s : State) : (moveNote q d unit j s).cores = s.cores := by
  unfold moveNote
  split <;> rfl

theorem moveNote_dies (q d unit : Nat) (j : MoveJob) (s : State) : (moveNote q d unit j s).dies = s.dies := by
  unfold moveNote
  split <;> rfl

theorem updMoves_part (m : MoverRef) (q : Nat) (f : List MoveJob → List MoveJob) (s : State) (i : Nat) :
    (updMoves m q f s).part i = s.part i := by cases m <;> rfl

/-- Of a core a change of its mover's moves leaves all but these. -/
theorem updMoves_core (m : MoverRef) (q : Nat) (f : List MoveJob → List MoveJob) (s : State) (c : Nat) :
    { (updMoves m q f s).core c with jobs := (s.core c).jobs } = s.core c := by
  cases m with
  | core i =>
    by_cases e : c = i
    · rw [e]
      exact congrArg (fun x : Core => { x with jobs := (s.core i).jobs }) (State.core_updCore s i _)
    · exact congrArg (fun x : Core => { x with jobs := (s.core c).jobs }) (State.core_updCore_ne s e _)
  | bulk d => rfl

/-- The move in hand leaves its mover; the partitions, and of every core all but its mover's moves, stay (R268, R270). -/
theorem dropMove_spec {m : MoverRef} {q : Nat} {s : State} {j : MoveJob} {rest : List MoveJob} (h : movesOf m q s = j :: rest) :
    let t := dropMove m q s
    movesOf m q t = rest ∧ (∀ i, t.part i = s.part i) ∧ ∀ c, { t.core c with jobs := (s.core c).jobs } = s.core c := by
  intro t
  have eq : t = moveNote q (moverDie m) (moverRace m s) j (updMoves m q (fun l => l.drop 1) s) := by
    dsimp only [t]
    unfold dropMove
    rw [h]
  rw [eq]
  refine ⟨?_, fun i => ?_, fun c => ?_⟩
  · rw [movesOf_of (moveNote_cores ..) (moveNote_dies ..), movesOf_updMoves, h]
    rfl
  · rw [moveNote_part, updMoves_part]
  · rw [State.core_of (moveNote_cores ..)]
    exact updMoves_core ..

/-- The increments of a move set out behind those on the mesh; nothing else changes (R270). -/
theorem sendNotifies_spec (m : MoverRef) (q : Nat) (j : MoveJob) (s : State) : let t := sendNotifies m q j s
    t.cores = s.cores ∧ t.dies = s.dies ∧
    ((⟨j.desc⟩ : MoveDesc).nen = false → (t.part q).notifies = (s.part q).notifies) ∧
    ∀ r, (⟨j.desc⟩ : MoveDesc).nen = true → (⟨j.desc⟩ : MoveDesc).kind ≠ 1 →
      (s.part q).physOf (⟨j.desc⟩ : MoveDesc).ncore = some r →
      (t.part q).notifies = (s.part q).notifies ++
        [⟨notifyUnit r (⟨j.desc⟩ : MoveDesc).nunit, (⟨j.desc⟩ : MoveDesc).nac, m, armedBy m q j s⟩] := by
  intro t
  cases nen : (⟨j.desc⟩ : MoveDesc).nen with
  | false =>
    have none : t = s := if_pos (by rw [nen]; rfl)
    rw [none]
    exact ⟨rfl, rfl, fun _ => rfl, fun _ h => absurd h Bool.false_ne_true⟩
  | true =>
    dsimp only [t]
    unfold sendNotifies
    dsimp only
    rw [nen]
    refine ⟨rfl, rfl, fun h => absurd h.symm Bool.false_ne_true, fun r _ kind phys => ?_⟩
    simp [kind, phys]

theorem bumpCounter_notifies (q : Nat) (u : UnitRef) (ac by' : Nat) (s : State) :
    ((bumpCounter q u ac by' s).part q).notifies = (s.part q).notifies := by
  unfold bumpCounter
  dsimp only
  split
  · obtain ⟨g, part⟩ := updTu_part q u (fun t => { t with ac := SMap.set 0 ac (SMap.get 0 ac (unitTu q u s).ac + 1) t.ac }) s
    rw [part]
  · rw [State.part_updPart]
    rfl

theorem coreEvent_notifies (q c evt sel : Nat) (s : State) :
    ((coreEvent q c evt sel s).part q).notifies = (s.part q).notifies := by
  unfold coreEvent
  generalize List.range 16 = entries
  induction entries generalizing s with
  | nil => rfl
  | cons i entries ih =>
    rw [List.foldl_cons, ih]
    dsimp only
    split
    · exact bumpCounter_notifies ..
    · rfl

/-- A core's mover is done with a move: event 17 of the mover's turn, and what the core's bindings count (R132, R273). -/
theorem moverEvent_spec (q c : Nat) (s : State) :
    let t := coreEvent q c 6 0 (s.updCore c fun x => x.event 17 x.mtu.turn)
    (∀ i, (t.core i).jobs = (s.core i).jobs) ∧ (t.part q).notifies = (s.part q).notifies ∧
    ((s.core c).mtu.turn, 17) ∈ (t.core c).pend.events := by
  intro t
  have counted : (s.updCore c fun x => x.event 17 x.mtu.turn).Counted t := .coreEvent ..
  refine ⟨fun i => ?_, coreEvent_notifies .., ?_⟩
  · refine (congrArg Core.jobs (counted.core i) :).trans ?_
    by_cases e : i = c
    · rw [e, State.core_updCore]
      exact (congrArg Core.jobs (Core.event_frame ..) :)
    · rw [State.core_updCore_ne s e]
  · rw [(counted.core c).events, State.core_updCore]
    exact mem_events_event ..

/-- A move that ends (R132, R270). -/
theorem finishMove_spec {m : MoverRef} {q : Nat} {s : State} {j : MoveJob} {rest : List MoveJob} (h : movesOf m q s = j :: rest) :
    let t := finishMove m q j s
    movesOf m q t = rest ∧ ((⟨j.desc⟩ : MoveDesc).nen = false → (t.part q).notifies = (s.part q).notifies) ∧
    (∀ r, (⟨j.desc⟩ : MoveDesc).nen = true → (⟨j.desc⟩ : MoveDesc).kind ≠ 1 →
      (s.part q).physOf (⟨j.desc⟩ : MoveDesc).ncore = some r →
      ∃ n, (t.part q).notifies = (s.part q).notifies ++ [n] ∧ n.unit = notifyUnit r (⟨j.desc⟩ : MoveDesc).nunit ∧
        n.ac = (⟨j.desc⟩ : MoveDesc).nac ∧ n.sender = m) ∧
    (∀ c : CoreId, m = .core c → ((s.core c).mtu.turn, 17) ∈ (t.core c).pend.events) := by
  intro t
  obtain ⟨left, parts, kept⟩ := dropMove_spec h
  obtain ⟨cores, dies, silent, sent⟩ := sendNotifies_spec m q j (dropMove m q s)
  have moves : movesOf m q (sendNotifies m q j (dropMove m q s)) = rest := (movesOf_of cores dies m q).trans left
  rw [parts] at silent sent
  have out : movesOf m q t = rest ∧ (t.part q).notifies = ((sendNotifies m q j (dropMove m q s)).part q).notifies ∧
      ∀ c : CoreId, m = .core c → ((s.core c).mtu.turn, 17) ∈ (t.core c).pend.events := by
    cases m with
    | core c =>
      obtain ⟨jobs, notifies, event⟩ := moverEvent_spec q c (sendNotifies (.core c) q j (dropMove (.core c) q s))
      refine ⟨(congrArg Jobs.moves (jobs c)).trans moves, notifies, fun i hi => ?_⟩
      cases hi
      rw [State.core_of cores, (congrArg (·.mtu) (kept c) :)] at event
      exact event
    | bulk d => exact ⟨moves, rfl, fun _ hi => nomatch hi⟩
  obtain ⟨moves', notifies, event⟩ := out
  exact ⟨moves', fun nen => notifies.trans (silent nen),
    fun r nen kind phys => ⟨_, notifies.trans (sent r nen kind phys), rfl, rfl, rfl⟩,
    event⟩

section

variable {m : MoverRef} {q : PartId} {env : Env} {s₀ u : State} {j : MoveJob} {rest : List MoveJob}
  (hu : u = moveOn m q true env (applyUpsets env.upsets s₀)) (hmoves : movesOf m q u = j :: rest)

include hu hmoves

theorem exec_moveComplete_ends (runs : moverRuns m q u = true) (started : j.started = true) (phase : j.phase = .idle)
    (total : (⟨j.desc⟩ : MoveDesc).total ≤ j.pos) : exec (.moveComplete m q env) s₀ = .next (finishMove m q j u) := by
  subst hu
  refine congrArg Host.Outcome.next ?_
  rw [hmoves]
  exact if_pos (by simp [runs, started, phase, total])

theorem exec_moveComplete_waits
    (waits : j.started = false ∨ j.phase ≠ .idle ∨ j.pos < (⟨j.desc⟩ : MoveDesc).total) :
    exec (.moveComplete m q env) s₀ = .next u := by
  subst hu
  refine congrArg Host.Outcome.next ?_
  rw [hmoves]
  refine if_neg fun ends => ?_
  simp only [Bool.and_eq_true, beq_iff_eq, decide_eq_true_eq] at ends
  obtain ⟨⟨⟨-, started⟩, phase⟩, total⟩ := ends
  rcases waits with h | h | h
  · rw [started] at h
    exact nomatch h
  · exact h phase
  · omega

end

/-! An increment that arrives (R37, R270). -/

theorem turnExc_kept (v turn : Nat) (x : Core) : x.Kept (x.turnExc v turn) := by
  unfold Core.turnExc
  split
  · exact .refl x
  · exact ⟨rfl, rfl, rfl, rfl, rfl⟩

theorem mem_turnExc (v turn : Nat) (x : Core) : (turn, v) ∈ (x.turnExc v turn).pend.turnExc := by
  unfold Core.turnExc
  split
  · exact List.contains_iff_mem.1 ‹_›
  · exact List.mem_append_right _ (List.mem_singleton.2 rfl)

/-- A counter that has room goes up by one, and no other counter of its unit changes. -/
theorem bumpCounter_counts {q : Nat} {u : UnitRef} {ac by' : Nat} {s : State} (room : SMap.get 0 ac (unitTu q u s).ac < 65535) :
    SMap.get 0 ac (unitTu q u (bumpCounter q u ac by' s)).ac = SMap.get 0 ac (unitTu q u s).ac + 1 ∧
    ∀ i, i ≠ ac → SMap.get 0 i (unitTu q u (bumpCounter q u ac by' s)).ac = SMap.get 0 i (unitTu q u s).ac := by
  unfold bumpCounter
  dsimp only
  rw [if_pos room, unitTu_updTu]
  dsimp only
  exact ⟨SMap.get_set 0 .., fun i hi => SMap.get_set_ne 0 hi ..⟩

/-- A counter at its top stays, its core has vector 13 to take at the turn's end, and the partition is non-deterministic. -/
theorem bumpCounter_overflows {q : Nat} {u : UnitRef} {ac by' : Nat} {s : State} (top : 65535 ≤ SMap.get 0 ac (unitTu q u s).ac) :
    let t := bumpCounter q u ac by' s
    unitTu q u t = unitTu q u s ∧ ((unitTu q u s).turn, 13) ∈ (t.core (overflowCore u by')).pend.turnExc ∧ (t.part q).nd = true := by
  intro t
  have eq : t = (s.updCore (overflowCore u by') (Core.turnExc 13 (unitTu q u s).turn)).updPart q fun x => { x with nd := true } :=
    if_neg (Nat.not_lt.2 top)
  rw [eq]
  refine ⟨?_, ?_, by rw [State.part_updPart]⟩
  · exact (((State.UnitsKept.refl s).updCore _ _ (turnExc_kept 13 _)).updPart q _).unitTu_eq q u
  · rw [State.core_updPart, State.core_updCore]
    exact mem_turnExc ..

theorem exec_notifyIncrement {q : PartId} {n : Notify} {rest : List Notify} {s : State} (h : (s.part q).notifies = n :: rest)
    (run : (s.part q).st = .running) (turn : (unitTu q n.unit s).turn = (s.part q).turn) :
    exec (.notifyIncrement q) s =
      .next (bumpCounter q n.unit n.ac n.by' (s.updPart q fun x => { x with notifies := rest })) := by
  refine congrArg Host.Outcome.next ?_
  rw [h]
  exact if_pos ⟨run, turn⟩

end Sys2Proof.Machine
end

section
/-! PROOF. O33: a multicast asks for the source line it lacks (R287, R344), and with it the end of every move. -/

namespace Sys2Proof.Machine

/-- Every bulk mover has what it had. -/
structure BulksKept (s t : State) : Prop where
  bulk : ∀ d, (t.die d).bulk = (s.die d).bulk

namespace BulksKept

variable {s t u : State}

theorem trans (h : BulksKept s t) (k : BulksKept t u) : BulksKept s u := ⟨fun d => (k.bulk d).trans (h.bulk d)⟩

theorem of_dies (h : t.dies = s.dies) : BulksKept s t := ⟨fun d => by rw [State.die_of h]⟩

theorem updDie (i : Nat) (f : Die → Die) (s : State) (hf : ∀ x, (f x).bulk = x.bulk := by intro; rfl) : BulksKept s (s.updDie i f) := by
  refine ⟨fun d => ?_⟩
  by_cases e : d = i
  · rw [e, State.die_updDie, hf]
  · rw [State.die_updDie_ne s e]

theorem setTlb (v : TlbUser) (l : List TlbEntry) (e : Bool) (s : State) : BulksKept s (setTlb v l e s) := by
  cases v with
  | core c => exact of_dies rfl
  | die d => exact updDie _ _ s
  | headstock => exact of_dies rfl

theorem walkRead (q va : Nat) (w : Bool) (s : State) : BulksKept s (walkRead q va w s).1 :=
  of_dies (State.ReadsOnly.walkRead (q := q) va w s).dies

theorem translateFar (v : TlbUser) (q va : Nat) (w : Bool) (s : State) : BulksKept s (translateFar v q va w s).1 := by
  unfold Machine.translateFar Machine.translate
  dsimp only
  split
  · exact of_dies rfl
  · split
    · exact walkRead ..
    · split
      · exact ((setTlb ..).trans (of_dies ((State.Accounted.refl _).chatter _ _).dies_eq)).trans (walkRead ..)
      · split <;> exact of_dies rfl

theorem tlbInstall (v : TlbUser) (e : TlbEntry) (s : State) : BulksKept s (tlbInstall v e s) := by
  unfold Machine.tlbInstall
  dsimp only
  split
  · exact of_dies rfl
  · exact setTlb ..

theorem servedNow (m : MoverRef) (q : Nat) (s : State) : BulksKept s (servedNow m q s) := by
  cases m with
  | core c => exact of_dies rfl
  | bulk d => exact updDie _ _ s

theorem movesOf_eq (h : BulksKept s t) (d : DieId) (q : Nat) : movesOf (.bulk d) q t = movesOf (.bulk d) q s :=
  congrArg (fun b => (SMap.get Bulk.reset q b).moves) (h.bulk d)

end BulksKept

theorem tlbInstall_beds (v : TlbUser) (e : TlbEntry) (s : State) : (tlbInstall v e s).beds = s.beds := by
  unfold tlbInstall setTlb
  dsimp only
  split
  · rfl
  · cases v <;> rfl

/-- A bulk mover that has moves for one partition alone serves that partition next (R344). -/
theorem bulkNext_alone {d : DieId} {q : PartId} {s : State} {j : MoveJob} {rest : List MoveJob}
    (moves : movesOf (.bulk d) q s = j :: rest) (runs : moverRuns (.bulk d) q s = true) (wants : j.wants = true)
    (alone : ∀ i, i ≠ q.val → movesOf (.bulk d) i s = []) : bulkNext d s = some q.val := by
  unfold bulkNext
  rw [show dieNum d = d from Fin.ext (Nat.mod_eq_of_lt d.isLt)]
  have mine : (moverRuns (.bulk d) q s && (movesOf (.bulk d) q s).head?.any MoveJob.wants) = true := by simp [moves, runs, wants]
  have turn : q.val ∈ (List.range 16).map fun k => ((s.die d).served + 1 + k) % 16 :=
    List.mem_map.2 ⟨(q.val + 16 - ((s.die d).served + 1) % 16) % 16, List.mem_range.2 (by omega), by omega⟩
  obtain ⟨i, found⟩ := Option.isSome_iff_exists.1 (List.find?_isSome
    (p := fun i => moverRuns (.bulk d) i s && (movesOf (.bulk d) i s).head?.any MoveJob.wants).2 ⟨_, turn, mine⟩)
  rw [found]
  by_contra other
  have chosen := List.find?_some found
  rw [alone i fun e => other (by rw [e])] at chosen
  simp at chosen

/-- The request for a source line of a multicast (R287). -/
def sourceReq (d : DieId) (q line : Nat) (ro : Bool) (s : State) : MemReq :=
  mkReq q (0x800 + d) (SMap.get Bulk.reset q (s.die d).bulk).tu.turn ro line (.bulk d) s

/-- A multicast whose source line has been asked for. -/
def asking (d : DieId) (q pa : Nat) (s : State) : State :=
  updHead (.bulk d) q (fun j => { j with phase := .reading 64 [] 0 (some pa) }) s

/-- A source line in a bed store is asked for there (R287). -/
theorem sourceLine_bed {d : DieId} {q va b off off' : Nat} {j : MoveJob} {s u : State} {e : TlbEntry}
    (found : translateFar (.die d) q va false s = (u, .ok e)) (place : locate (e.at va) = .bed b off)
    (line : locate (64 * (e.at va / 64)) = .bed b off') :
    let z := asking d q (e.at va) (tlbInstall (.die d) e u)
    sourceLine (.bulk d) q va j s = z.updBed b fun x => { x with reqs := x.reqs ++ [sourceReq d q (e.at va / 64) e.ro z] } := by
  unfold sourceLine
  dsimp only [moverTlb]
  rw [found]
  dsimp only
  rw [place]
  dsimp only
  unfold submit
  rw [show (mkReq q (moverRace (.bulk d) _) _ e.ro (e.at va / 64) (moverWho (.bulk d)) _).line = e.at va / 64 from rfl, line]
  rfl

theorem exec_multicastSourceLine {d : DieId} {q : PartId} {env : Env} {s₀ s : State} (hs : s = applyUpsets env.upsets s₀)
    {j : MoveJob} {rest : List MoveJob} {va : Nat} (moves : movesOf (.bulk d) q s = j :: rest) (runs : moverRuns (.bulk d) q s = true)
    (kind : (⟨j.desc⟩ : MoveDesc).kind = 1) (wants : j.wants = true) (next : bulkNext d s = some q.val)
    (lacks : j.lacks q s = some va) :
    exec (.multicastSourceLine d q env) s₀ = .next (bulkRun d ((allParts.map fun q => moveFuel (.bulk d) q s).sum + 1)
      (sourceLine (.bulk d) q va j (servedNow (.bulk d) q s))) := by
  subst hs
  refine congrArg Host.Outcome.next ?_
  rw [moves]
  refine (if_pos (by simp [runs, kind, wants, serves, next])).trans ?_
  rw [lacks]

/-- A multicast that waits for a line leaves its bulk mover nothing to do. -/
theorem bulkNext_asking {d : DieId} {q pa : Nat} {s : State} (alone : ∀ i, i ≠ q → movesOf (.bulk d) i s = []) :
    bulkNext d (asking d q pa s) = none := by
  refine bulkNext_eq_none fun i j hj => ?_
  unfold asking updHead at hj
  by_cases e : i = q
  · rw [e, movesOf_updMoves] at hj
    cases l : movesOf (.bulk d) q s with
    | nil => rw [l] at hj; cases hj
    | cons k ks =>
      rw [l] at hj
      cases hj
      simp [MoveJob.wants]
  · rw [movesOf_updMoves_bulk_ne e, alone i e] at hj
    cases hj

/-- A multicast alone on its bulk mover asks for its line, which the store of that line then has to serve; nothing more can go on
until it comes (R287). -/
theorem sourceLine_asks {d : DieId} {q va b off off' n : Nat} {j : MoveJob} {s u : State} {e : TlbEntry}
    (alone : ∀ i, i ≠ q → movesOf (.bulk d) i s = [])
    (found : translateFar (.die d) q va false (servedNow (.bulk d) q s) = (u, .ok e))
    (place : locate (e.at va) = .bed b off) (line : locate (64 * (e.at va / 64)) = .bed b off') :
    ∃ r, ((bulkRun d n (sourceLine (.bulk d) q va j (servedNow (.bulk d) q s))).bed b).reqs = (u.bed b).reqs ++ [r] ∧
      r.part = q ∧ r.write = false ∧ r.who = .bulk d ∧ r.unit = 0x800 + d.val ∧ r.line = e.at va / 64 := by
  have kept : BulksKept s (tlbInstall (.die d) e u) := by
    have looked := BulksKept.translateFar (.die d) q va false (servedNow (.bulk d) q s)
    rw [found] at looked
    exact ((BulksKept.servedNow (.bulk d) q s).trans looked).trans (.tlbInstall ..)
  have beds : (asking d q (e.at va) (tlbInstall (.die d) e u)).bed b = u.bed b := State.bed_of (tlbInstall_beds ..) b
  have idle := bulkNext_asking (d := d) (q := q) (pa := e.at va) fun i hi => (kept.movesOf_eq d i).trans (alone i hi)
  rw [sourceLine_bed found place line]
  generalize asking d q (e.at va) (tlbInstall (.die d) e u) = z at beds idle ⊢
  have still (f : Bed → Bed) : bulkNext d (z.updBed b f) = none := idle
  rw [bulkRun_of_none (still _), State.bed_updBed, beds]
  exact ⟨_, rfl, rfl, rfl, rfl, rfl, rfl⟩

/-- Settles O33: O35's lemmas for the moves, the counters of R37, and the multicast's request. -/
theorem moveEnd : Obligations.MoveEnd := by
  unfold Obligations.MoveEnd
  intro q env s₀ s p
  refine ⟨fun m => ?_, fun c j rest moves phase total => moveRun_of_total (m := .core c) moves phase total ..,
    fun n rest notifies run turn => ?_,
    fun d j rest va u e b off off' moves runs kind wants lacks alone found place line => ?_⟩
  · intro u
    exact ⟨fun j rest moves runs started phase total =>
      ⟨_, exec_moveComplete_ends rfl moves runs started phase total, finishMove_spec moves⟩,
      fun j rest moves waits => exec_moveComplete_waits rfl moves waits⟩
  · have unit := ((State.UnitsKept.refl s).updPart q fun x => { x with notifies := rest }).unitTu_eq q n.unit
    refine ⟨_, exec_notifyIncrement notifies run turn, ?_, fun room => ?_, fun top => ?_⟩
    · rw [bumpCounter_notifies, State.part_updPart]
    · rw [← unit] at room ⊢
      exact bumpCounter_counts room
    · rw [← unit] at top turn ⊢
      obtain ⟨same, pends, nd⟩ := bumpCounter_overflows (by' := n.by') top
      rw [turn] at pends
      exact ⟨congrArg TurnUnit.ac same, pends, nd⟩
  · exact ⟨_, exec_multicastSourceLine rfl moves runs kind wants (bulkNext_alone moves runs wants alone) lacks,
      sourceLine_asks alone found place line⟩

end Sys2Proof.Machine
end

section
/-! PROOF. O27: the end of a tensor-stream run (R183, R187, R188, R190). Its core takes the summary words, event 20 and the fault; what
the run's own event counts (R273) touches none of these. -/

namespace Sys2Proof.Machine

namespace Core.Counted

variable {x y : Core}

theorem word (h : x.Counted y) (w : Nat) : y.word w = x.word w := congrArg (SMap.get TWord.zero w) h.store
theorem jobs (h : x.Counted y) : y.jobs = x.jobs := (congrArg Core.jobs h :)
theorem vfault (h : x.Counted y) : y.pend.vfault = x.pend.vfault := (congrArg (fun c => c.pend.vfault) h :)
theorem vdone (h : x.Counted y) : y.pend.vdone = x.pend.vdone := (congrArg (fun c => c.pend.vdone) h :)

end Core.Counted

theorem Core.event_vfault (v turn : Nat) (x : Core) : (x.event v turn).pend.vfault = x.pend.vfault := by
  unfold Core.event
  split <;> rfl

theorem Core.event_vdone (v turn : Nat) (x : Core) : (x.event v turn).pend.vdone = x.pend.vdone := by
  unfold Core.event
  split <;> rfl

theorem Core.event_word (v turn : Nat) (x : Core) : (x.event v turn).word = x.word :=
  (congrArg Core.word (Core.event_frame v turn x) :)

theorem Core.event_jobs (v turn : Nat) (x : Core) : (x.event v turn).jobs = x.jobs :=
  (congrArg Core.jobs (Core.event_frame v turn x) :)

theorem Core.event_a (v turn : Nat) (x : Core) : (x.event v turn).a = x.a := (congrArg Core.a (Core.event_frame v turn x) :)

theorem putWords_jobs (w : Nat) (vs : List TWord) (x : Core) : (putWords w vs x).jobs = x.jobs :=
  (congrArg Core.jobs (putWords_frame w vs x) :)

theorem putWords_a (w : Nat) (vs : List TWord) (x : Core) : (putWords w vs x).a = x.a :=
  (congrArg Core.a (putWords_frame w vs x) :)

/-- A vector fault, where there is one, is noted unless another has been in the turn (R187). -/
def Pend.noteFault (fault : Option (Nat × Nat × Word)) (p : Pend) : Pend :=
  match fault with
  | some (_, f, a) => if p.vdone then p else { p with vfault := some (f, a), vdone := true }
  | none => p

theorem noteFault_first {e f : Nat} {a : Word} {p : Pend} (first : p.vdone = false) :
    p.noteFault (some (e, f, a)) = { p with vfault := some (f, a), vdone := true } :=
  if_neg (by rw [first]; exact Bool.false_ne_true)

theorem noteFault_stays {fault : Option (Nat × Nat × Word)} {p : Pend} (h : fault = none ∨ p.vdone = true) :
    p.noteFault fault = p := by
  cases fault with
  | none => rfl
  | some f => exact if_pos (h.resolve_left (Option.some_ne_none f))

theorem noteFault_events (fault : Option (Nat × Nat × Word)) (p : Pend) : (p.noteFault fault).events = p.events := by
  unfold Pend.noteFault
  split
  · split <;> rfl
  · rfl

theorem setVfault_eq (e f : Nat) (a : Word) (x : Core) :
    setVfault f a x = { x with pend := x.pend.noteFault (some (e, f, a)) } := by
  unfold setVfault Pend.noteFault
  dsimp only
  split <;> rfl

/-- The core of a run with the run's summary record and event 20 (R188). -/
def Core.summed (d : RunDesc) (turn : Nat) (r : RunSt) (x : Core) : Core :=
  (putWords (d.saddr / 8) (summaryWords d turn r) x).event 20 turn

section

variable (d : RunDesc) (turn : Nat) (r : RunSt) (x : Core)

theorem summed_word (w : Nat) : (x.summed d turn r).word w =
    if d.saddr / 8 ≤ w ∧ w < d.saddr / 8 + 8 then (summaryWords d turn r).getD (w - d.saddr / 8) TWord.zero else x.word w :=
  (congrFun (Core.event_word ..) w).trans (word_putWords ..)

theorem mem_summed_events : (turn, 20) ∈ (x.summed d turn r).pend.events := mem_events_event ..

theorem summed_jobs : (x.summed d turn r).jobs = x.jobs := (Core.event_jobs ..).trans (putWords_jobs ..)

theorem summed_a : (x.summed d turn r).a = x.a := (Core.event_a ..).trans (putWords_a ..)

theorem summed_vfault : (x.summed d turn r).pend.vfault = x.pend.vfault :=
  (Core.event_vfault ..).trans (congrArg Pend.vfault (putWords_pend ..))

theorem summed_vdone : (x.summed d turn r).pend.vdone = x.pend.vdone :=
  (Core.event_vdone ..).trans (congrArg Pend.vdone (putWords_pend ..))

end

/-- The counts on their way to the monitor with those of a run that has a TID, where there is a monitor table (R249). -/
def Core.runCounts (d : RunDesc) (r : RunSt) (montab : Nat) (x : Core) : List MonCount :=
  if d.tid ≠ 0 ∧ montab ≠ 0 then
    x.jobs.counts ++ [⟨false, d.tid, x.lcore, 0, r.nelem, r.zero, r.sat, r.nonfin, r.fault.isSome⟩]
  else x.jobs.counts

/-- The oldest run leaves its core, its counts given to the monitor (R249). -/
def Core.dropRun (d : RunDesc) (r : RunSt) (montab : Nat) (x : Core) : Core :=
  { x with jobs := { x.jobs with runs := x.jobs.runs.drop 1, counts := x.runCounts d r montab } }

/-- The oldest run leaves its core and its fault is noted (R187). -/
def Core.leaveRun (d : RunDesc) (r : RunSt) (montab : Nat) (x : Core) : Core :=
  { x.dropRun d r montab with pend := x.pend.noteFault r.fault }

theorem leaveRun_eq (d : RunDesc) (r : RunSt) (montab : Nat) (x : Core) : x.leaveRun d r montab =
    match r.fault with
    | some (_, f, a) => setVfault f a (x.dropRun d r montab)
    | none => x.dropRun d r montab := by
  unfold Core.leaveRun
  cases r.fault with
  | none => rfl
  | some f => exact (setVfault_eq f.1 f.2.1 f.2.2 _).symm

section

variable {d : RunDesc} {turn montab : Nat} {r : RunSt} {x z : Core}

theorem leaveRun_word : (x.leaveRun d r montab).word = x.word := rfl

theorem leaveRun_runs : (x.leaveRun d r montab).jobs.runs = x.jobs.runs.drop 1 := rfl

theorem leaveRun_a : (x.leaveRun d r montab).a = x.a := rfl

theorem leaveRun_events : (x.leaveRun d r montab).pend.events = x.pend.events := noteFault_events ..

theorem leaveRun_first {e f : Nat} {a : Word} (fault : r.fault = some (e, f, a)) (first : x.pend.vdone = false) :
    (x.leaveRun d r montab).pend = { x.pend with vfault := some (f, a), vdone := true } :=
  (congrArg (Pend.noteFault · x.pend) fault).trans (noteFault_first first)

theorem leaveRun_stays (h : r.fault = none ∨ x.pend.vdone = true) : (x.leaveRun d r montab).pend = x.pend := noteFault_stays h

/-- What stands on a core once its oldest run has ended and the run's event has counted. -/
theorem leaveRun_summed_spec (counted : ((x.summed d turn r).leaveRun d r montab).Counted z) :
    (∀ i, i < 8 → z.word (d.saddr / 8 + i) = (summaryWords d turn r).getD i TWord.zero) ∧
    (∀ w, w < d.saddr / 8 ∨ d.saddr / 8 + 8 ≤ w → z.word w = x.word w) ∧
    (turn, 20) ∈ z.pend.events ∧ z.jobs.runs = x.jobs.runs.drop 1 ∧ z.a = x.a ∧
    (∀ e f a, r.fault = some (e, f, a) → x.pend.vdone = false → z.pend.vfault = some (f, a) ∧ z.pend.vdone = true) ∧
    (r.fault = none ∨ x.pend.vdone = true → z.pend.vfault = x.pend.vfault ∧ z.pend.vdone = x.pend.vdone) := by
  have words (w : Nat) := ((counted.word w).trans (congrFun leaveRun_word w)).trans (summed_word d turn r x w)
  have vdone := summed_vdone d turn r x
  rw [counted.events, counted.jobs, counted.a, counted.vfault, counted.vdone, leaveRun_events, leaveRun_runs, leaveRun_a, summed_jobs,
    summed_a]
  refine ⟨fun i hi => ?_, fun w hw => ?_, mem_summed_events d turn r x, rfl, rfl, fun e f a fault first => ?_, fun h => ?_⟩
  · rw [words, if_pos (by omega), Nat.add_sub_cancel_left]
  · rw [words, if_neg (by omega)]
  · rw [leaveRun_first fault (vdone.trans first)]
    exact ⟨rfl, rfl⟩
  · rw [leaveRun_stays (by rwa [vdone])]
    exact ⟨summed_vfault d turn r x, vdone⟩

end

section

variable (c q : Nat) (j : RunJob) (s : State) {d : RunDesc} {r : RunSt} {y : State} (hd : d = ⟨j.desc⟩)
  (hr : r = runAll c q j s) (hy : y = wholeWords c (((d.tensor 3).ty).getD .i64).tag r)

include hd hr hy

/-- A run's end on its core, and then, where no element faulted, the run's own event (R187, R188, R273). -/
theorem endRun_eq : endRun c q j s =
    let t := y.updCore c fun x => (x.summed d j.turn r).leaveRun d r (y.part q).mon.montab
    if r.fault.isNone then coreEvent q c 5 0 t else t := by
  simp only [leaveRun_eq, Core.summed]
  subst hd hr hy
  rfl

/-- The run's own event, where it occurs, leaves its core so but for what it counts (R37, R273). -/
theorem endRun_counted :
    (((y.core c).summed d j.turn r).leaveRun d r (y.part q).mon.montab).Counted ((endRun c q j s).core c) := by
  have ended := State.core_updCore y c fun x => (x.summed d j.turn r).leaveRun d r (y.part q).mon.montab
  rw [endRun_eq c q j s hd hr hy, ← ended]
  dsimp only
  split
  · exact (State.Counted.coreEvent ..).core c
  · exact .refl _

end

section

variable {c : CoreId} {q : Nat} {env : Env} {j : RunJob} {rest : List RunJob} {s₀ s : State} (hs : s = applyUpsets env.upsets s₀)
  (run : s.coreRuns c = some q) (runs : (s.core c).jobs.runs = j :: rest)

include hs run runs

theorem exec_tensorStreamComplete_waits (waits : (s.core c).clearForRun j.fire (j.rd ++ j.wr) = false) :
    exec (.tensorStreamComplete c env) s₀ = .next s := by
  subst hs
  refine congrArg Host.Outcome.next ?_
  rw [run, runs]
  exact if_neg (by rw [waits]; exact Bool.false_ne_true)

theorem exec_tensorStreamComplete_ends (clear : (s.core c).clearForRun j.fire (j.rd ++ j.wr) = true) :
    exec (.tensorStreamComplete c env) s₀ = .next (endRun c q j s) := by
  subst hs
  refine congrArg Host.Outcome.next ?_
  rw [run, runs]
  exact if_pos clear

end

/-- Settles O27: the command is `endRun`, which leaves of the core what `leaveRun` leaves once the summary stands there. -/
theorem tensorRun : Obligations.TensorRun := by
  unfold Obligations.TensorRun
  intro c q env j rest s₀ s run runs
  exact ⟨exec_tensorStreamComplete_waits rfl run runs, fun clear =>
    ⟨_, exec_tensorStreamComplete_ends rfl run runs clear, leaveRun_summed_spec (endRun_counted c q j s rfl rfl rfl)⟩⟩

end Sys2Proof.Machine
end

section
/-! SUPPORT. What a Matrix Pass Fault (R247), a change of tiles (R238) and the feeders of a pass that has left its core (R215) leave
alone. -/

namespace Sys2Proof.Machine

/-- Every core of state t reads as in state s, and nothing else differs. -/
structure State.SameCores (s t : State) : Prop where
  core : ∀ i, t.core i = s.core i
  rest : { t with cores := s.cores } = s

namespace State.SameCores

variable {s t u : State}

theorem refl (s : State) : s.SameCores s := ⟨fun _ => rfl, rfl⟩

theorem trans (h : s.SameCores t) (k : t.SameCores u) : s.SameCores u :=
  ⟨fun i => (k.core i).trans (h.core i), (congrArg (fun z : State => { z with cores := s.cores }) k.rest :).trans h.rest⟩

/-- A change that leaves its core as it is. -/
theorem updCore_fixed {c : Nat} {f : Core → Core} (fixed : f (s.core c) = s.core c) : s.SameCores (s.updCore c f) := by
  refine ⟨fun i => ?_, State.updCore_reset s c f s.cores⟩
  by_cases e : i = c
  · rw [e, State.core_updCore, fixed]
  · exact State.core_updCore_ne s e f

theorem onlyCore (h : s.SameCores t) (c : Nat) : OnlyCore c s t := ⟨fun i _ => h.core i, h.rest⟩

end State.SameCores

namespace Core.Counted

variable {x y : Core}

theorem tiles (h : x.Counted y) : y.tiles = x.tiles := (congrArg Core.tiles h :)
theorem entries (h : x.Counted y) : y.entries = x.entries := (congrArg Core.entries h :)
theorem mfaults (h : x.Counted y) : y.pend.mfaults = x.pend.mfaults := (congrArg (fun c => c.pend.mfaults) h :)

end Core.Counted

/-- A Matrix Pass Fault waits on a core for its delivery (R247). -/
def Core.noteMfault (f : MFault) (x : Core) : Core := { x with pend := { x.pend with mfaults := x.pend.mfaults ++ [f] } }

/-- Before the turn's delivery a fault waits on its core (R247). -/
theorem matrixFault_pends {q c : Nat} {s : State} (run : (s.part q).st = .running) (first : (s.core c).pend.mdone = false)
    (f : MFault) : matrixFault q c f s = s.updCore c (Core.noteMfault f) :=
  if_neg (by simp [run, first])

/-- A fault, whether it waits or is logged at once, changes what is pending on its core at most. -/
theorem matrixFault_core (q c : Nat) (f : MFault) (s : State) (i : Nat) :
    { (matrixFault q c f s).core i with pend := (s.core i).pend } = s.core i := by
  unfold matrixFault
  dsimp only
  split
  · rfl
  · by_cases e : i = c
    · rw [e, State.core_updCore]
    · rw [State.core_updCore_ne s e]

theorem setTiles_frame (ts : List Nat) (f : Tile → Tile) (x : Core) : { setTiles ts f x with tiles := x.tiles } = x := by
  induction ts generalizing x with
  | nil => rfl
  | cons t ts ih => exact (congrArg (fun y : Core => { y with tiles := x.tiles }) (ih (setTile t f x)) :)

theorem tile_setTile (t : Nat) (f : Tile → Tile) (x : Core) (i : Nat) :
    (setTile t f x).tile i = if i = t then f (x.tile i) else x.tile i := by
  split
  next e => exact e ▸ SMap.get_upd Tile.reset t f x.tiles
  next e => exact SMap.get_upd_ne Tile.reset e f x.tiles

/-- A change that comes to the same when it is made twice, of the tiles of a list. -/
theorem tile_setTiles {f : Tile → Tile} (idem : ∀ k, f (f k) = f k) (ts : List Nat) (x : Core) (i : Nat) :
    (setTiles ts f x).tile i = if i ∈ ts then f (x.tile i) else x.tile i := by
  induction ts generalizing x with
  | nil => rfl
  | cons t ts ih =>
    refine (ih (setTile t f x)).trans ?_
    rw [tile_setTile]
    by_cases e : i = t <;> by_cases m : i ∈ ts <;> simp [e, m, idem]

section

variable {fire : Nat} {x : Core}

theorem mem_dropPass {p : PassJob} (h : p ∈ (dropPass fire x).jobs.passes) : p.fire ≠ fire := by
  simpa using (List.mem_filter.1 h).2

theorem pass?_eq_none : x.pass? fire = none ↔ ∀ p ∈ x.jobs.passes, p.fire ≠ fire := by
  simp [Core.pass?, List.find?_eq_none]

theorem pass?_dropPass : (dropPass fire x).pass? fire = none := pass?_eq_none.2 fun _ => mem_dropPass

theorem updPass_absent (h : x.pass? fire = none) (f : PassJob → PassJob) : updPass fire f x = x := by
  have same : x.jobs.passes.map (fun p => if p.fire = fire then f p else p) = x.jobs.passes :=
    (List.map_congr_left fun p hp => if_neg (pass?_eq_none.1 h p hp)).trans (List.map_id' _)
  unfold updPass
  rw [same]

theorem takeIn_absent (h : x.pass? fire = none) : takeIn fire x = x := by
  unfold takeIn
  rw [h]

end

theorem pump_absent {c fire : Nat} {s : State} (h : (s.core c).pass? fire = none) (q : Nat) (env : Env) (lim n : Nat) :
    pump c q fire env lim (n + 1) s = s.updCore c (takeIn fire) := by
  have gone : ((s.updCore c (takeIn fire)).core c).pass? fire = none := by rw [State.core_updCore, takeIn_absent h, h]
  unfold pump
  dsimp only
  rw [gone]

/-- A pass that is no longer there has nothing to feed. -/
theorem feedPass_absent {c : Nat} {j : PassJob} {s : State} (h : (s.core c).pass? j.fire = none) (q : Nat) (env : Env) (lim : Nat) :
    s.SameCores (feedPass c q env lim j s) := by
  have unmarked := State.SameCores.updCore_fixed (updPass_absent h fun p => { p with mig := false })
  have gone : ((s.updCore c (updPass j.fire fun p => { p with mig := false })).core c).pass? j.fire = none := by
    rw [unmarked.core, h]
  unfold feedPass
  dsimp only
  rw [pump_absent gone]
  exact unmarked.trans (.updCore_fixed (takeIn_absent gone))

theorem runsPart_eq_some {s : State} {c q : Nat} (h : s.runsPart c = some q) : (s.core c).part = some q ∧ (s.part q).st = .running := by
  obtain ⟨p, part, run⟩ := Option.bind_eq_some_iff.1 h
  by_cases running : (s.part p).st = .running
  · rw [if_pos running] at run
    cases run
    exact ⟨part, running⟩
  · rw [if_neg running] at run
    cases run

end Sys2Proof.Machine
end

section
/-! PROOF. O28: the start of the pass that fired first (R196, R212, R215, R216, R228, R241, R245). A pass that may not go on has left its
core, and then its feeders have nothing to read. -/

namespace Sys2Proof.Machine

/-- A tile that a pass takes over with its own shape and width (R228, R241). -/
def PassDesc.claim (d : PassDesc) (k : Tile) : Tile := { k with tall := d.tall, width := d.width, poisoned := false }

theorem claim_claim (d : PassDesc) (k : Tile) : d.claim (d.claim k) = d.claim k := rfl

/-- The tiles whose other entries the start of a pass clears (R228, R241). -/
def Core.startClears (j : PassJob) (x : Core) : List Nat :=
  let d : PassDesc := ⟨j.desc⟩
  let k := x.tile d.tile
  if !d.acc && (k.tall != d.tall || k.width != d.width) then x.passTiles j.desc else []

/-- A core whose tiles of a list a pass has taken over, where it does not accumulate. -/
def Core.claimed (d : PassDesc) (ts : List Nat) (x : Core) : Core := if d.acc then x else setTiles ts d.claim x

/-- A core on which a pass on tiles of a list has started, the entries of others to be cleared (R196, R216). -/
def Core.started (j : PassJob) (ts clear : List Nat) (x : Core) : Core :=
  let y := x.claimed ⟨j.desc⟩ ts
  { y with
    lastTall := (⟨j.desc⟩ : PassDesc).tall
    jobs := { y.jobs with passes := y.jobs.passes.map fun p =>
      if p.fire = j.fire then { p with started := true, clear := clear } else p } }

theorem claimed_frame (d : PassDesc) (ts : List Nat) (x : Core) : { x.claimed d ts with tiles := x.tiles } = x := by
  unfold Core.claimed
  split
  · rfl
  · exact setTiles_frame ..

theorem claimed_tile (d : PassDesc) (ts : List Nat) (x : Core) (i : Nat) :
    (x.claimed d ts).tile i = if d.acc = false ∧ i ∈ ts then d.claim (x.tile i) else x.tile i := by
  unfold Core.claimed
  split
  next acc => simp [acc]
  next acc => simp [acc, tile_setTiles (claim_claim d)]

theorem startClears_eq (j : PassJob) (x : Core) : x.startClears j =
    (let d : PassDesc := ⟨j.desc⟩
     let k := x.tile d.tile
     if d.acc = false ∧ ¬(k.tall = d.tall ∧ k.width = d.width) then x.passTiles j.desc else []) := by
  simp [Core.startClears, Classical.or_iff_not_imp_left]

section

variable (j : PassJob) (ts clear : List Nat) (x : Core)

/-- What the start of a pass makes of the tiles of its core (R228, R241). -/
theorem started_tile (i : Nat) : (x.started j ts clear).tile i =
    if (⟨j.desc⟩ : PassDesc).acc = false ∧ i ∈ ts then (⟨j.desc⟩ : PassDesc).claim (x.tile i) else x.tile i := claimed_tile ..

theorem started_passes : (x.started j ts clear).jobs.passes =
    x.jobs.passes.map fun p => if p.fire = j.fire then { p with started := true, clear := clear } else p := by
  have jobs : (x.claimed ⟨j.desc⟩ ts).jobs = x.jobs := (congrArg Core.jobs (claimed_frame ⟨j.desc⟩ ts x) :)
  rw [← jobs]
  rfl

theorem started_entries : (x.started j ts clear).entries = x.entries := (congrArg Core.entries (claimed_frame ⟨j.desc⟩ ts x) :)

theorem started_store : (x.started j ts clear).store = x.store := (congrArg Core.store (claimed_frame ⟨j.desc⟩ ts x) :)

end

/-- Nothing is written out of an empty write-combining buffer (R280). -/
theorem flushWcb_empty {c : Nat} {s : State} (h : (s.core c).far.wcb = []) (q : Nat) (p : WcbLine → Bool) :
    s.SameCores (flushWcb c q p s) := by
  unfold flushWcb
  dsimp only
  rw [h]
  refine .updCore_fixed ?_
  rw [List.filter_nil, ← h]

/-- A fault of a pass, as its core finds it (R238, R247). -/
def PassJob.fault (j : PassJob) (sub : Nat) (addr : Word) (x : Core) : MFault :=
  let d : PassDesc := ⟨j.desc⟩
  ⟨j.seq, sub, addr, false, d.tile, x.tileState (x.passTiles j.desc), j.handle⟩

/-- Some operand of a pass is far (R211, R271). -/
def PassDesc.farOperand (d : PassDesc) : Bool :=
  [d.opRange true, d.opRange false, d.scRange true, d.scRange false].any fun r => r.any fun y => decide (0x400000 ≤ y.1)

theorem flushFor_same {c : Nat} {s : State} (h : (s.core c).far.wcb = []) (q : Nat) (d : PassDesc) :
    s.SameCores (if d.farOperand then flushWcb c q (fun _ => true) s else s) := by
  split
  · exact flushWcb_empty h q _
  · exact .refl s

section

variable {c q : Nat} {j : PassJob} {s : State} {d : PassDesc} {k : Tile} (hd : d = ⟨j.desc⟩) (hk : k = (s.core c).tile d.tile)

include hd hk

theorem startPass_starts (fits : d.acc = false ∨ (k.tall = d.tall ∧ k.width = d.width ∧ k.poisoned = false))
    (wcb : (s.core c).far.wcb = []) :
    ∃ z, s.SameCores z ∧ startPass q c j s =
      z.updCore c (Core.started j ((s.core c).passTiles j.desc) ((s.core c).startClears j)) := by
  subst hd hk
  unfold startPass
  dsimp only
  rw [if_neg, if_neg]
  · exact ⟨_, flushFor_same wcb q ⟨j.desc⟩, rfl⟩
  · obtain clears | ⟨-, -, sound⟩ := fits
    · simp [clears]
    · simp [sound]
  · obtain clears | ⟨tall, width, -⟩ := fits
    · simp [clears]
    · simp [tall, width]

/-- A tile of another shape or width: fault 0x05 (R212 check 5). -/
theorem startPass_misfits (acc : d.acc = true) (misfits : k.tall ≠ d.tall ∨ k.width ≠ d.width) (run : (s.part q).st = .running)
    (first : (s.core c).pend.mdone = false) :
    startPass q c j s = (s.updCore c (dropPass j.fire)).updCore c (Core.noteMfault (j.fault 0x05 0 (s.core c))) := by
  subst hd hk
  unfold startPass
  dsimp only
  rw [if_pos (by simpa [acc] using misfits)]
  exact matrixFault_pends (by simpa using run) (by simpa [dropPass] using first) _

/-- A POISONED tile: fault 0x14, and the pass retires (R245). -/
theorem startPass_poisoned (acc : d.acc = true) (tall : k.tall = d.tall) (width : k.width = d.width) (bad : k.poisoned = true)
    (run : (s.part q).st = .running) (first : (s.core c).pend.mdone = false) :
    startPass q c j s =
      coreEvent q c 2 0 ((s.updCore c (dropPass j.fire)).updCore c (Core.noteMfault (j.fault 0x14 0 (s.core c)))) := by
  subst hd hk
  unfold startPass
  dsimp only
  rw [if_neg (by simp [tall, width]), if_pos (by simp [acc, bad])]
  exact congrArg (coreEvent q c 2 0) (matrixFault_pends (by simpa using run) (by simpa [dropPass] using first) _)

end

/-- A pass that leaves its core with a fault. -/
def Core.refusePass (fire : Nat) (f : MFault) (x : Core) : Core := (dropPass fire x).noteMfault f

section

variable {c fire : Nat} {f : MFault} {s t : State} (ht : t = (s.updCore c (dropPass fire)).updCore c (Core.noteMfault f))

include ht

theorem refusePass_core : t.core c = (s.core c).refusePass fire f := by
  rw [ht, State.core_updCore, State.core_updCore]
  rfl

theorem refusePass_onlyCore : OnlyCore c s t := ht ▸ onlyCore_updCore (onlyCore_updCore (onlyCore_refl c s) _) _

theorem refusePass_absent : (t.core c).pass? fire = none := by
  rw [refusePass_core ht]
  exact pass?_dropPass (x := s.core c)

/-- What a core's events count touches neither its tiles nor its store, and a pass that leaves with a fault touches neither. -/
theorem refusePass_counted {u : State} (counted : t.Counted u) (i : Nat) :
    (u.core i).tiles = (s.core i).tiles ∧ (u.core i).entries = (s.core i).entries ∧ (u.core i).store = (s.core i).store := by
  rw [(counted.core i).tiles, (counted.core i).entries, (counted.core i).store]
  by_cases e : i = c
  · rw [e, refusePass_core ht]
    exact ⟨rfl, rfl, rfl⟩
  · rw [(refusePass_onlyCore ht).1 i e]
    exact ⟨rfl, rfl, rfl⟩

end

section

variable {c : CoreId} {q : Nat} {env : Env} {j : PassJob} {s₀ s : State} {ready : Bool}
  (hs : s = feedStarted c env (applyUpsets env.upsets s₀))
  (hready : ready = ((s.core c).passMayStart j && (s.core c).jobs.passes.all fun p => !p.started || p.readAll))
  (run : s.runsPart c = some q) (next : (s.core c).jobs.passes.find? (fun p => !p.started) = some j)

include hs hready run next

theorem exec_passStart : exec (.passStart c env) s₀ = .next (if ready then feedPass c q env 32 j (startPass q c j s) else s) := by
  subst hs hready
  refine congrArg Host.Outcome.next ?_
  rw [run, next]

theorem exec_passStart_waits (waits : ready = false) : exec (.passStart c env) s₀ = .next s :=
  (exec_passStart hs hready run next).trans (by rw [if_neg (by rw [waits]; exact Bool.false_ne_true)])

theorem exec_passStart_goes (goes : ready = true) :
    exec (.passStart c env) s₀ = .next (feedPass c q env 32 j (startPass q c j s)) :=
  (exec_passStart hs hready run next).trans (by rw [if_pos goes])

end

/-- Settles O28: `startPass` starts the pass, or drops it with a fault; of a pass that is gone the feeders read nothing. -/
theorem passStart : Obligations.PassStart := by
  unfold Obligations.PassStart
  intro c q env j s₀ s x d k ready run next
  have fed : s = feedStarted c env (applyUpsets env.upsets s₀) := rfl
  clear_value s
  obtain ⟨-, running⟩ := runsPart_eq_some run
  refine ⟨exec_passStart_waits fed rfl run next, fun goes => ?_⟩
  have outcome := exec_passStart_goes fed rfl run next goes
  refine ⟨fun fits wcb => ?_, fun acc misfits first => ?_, fun acc tall width bad first => ?_⟩
  · obtain ⟨z, same, starts⟩ := startPass_starts (q := q) (d := d) rfl rfl fits wcb
    rw [starts] at outcome
    refine ⟨_, outcome, onlyCore_updCore (same.onlyCore c) _, ?_⟩
    rw [State.core_updCore, same.core]
    refine ⟨rfl, fun clears i mem => ?_, fun i stays => ?_, ?_, started_entries .., started_store ..⟩
    · rw [started_tile, if_pos ⟨clears, mem⟩]
      exact ⟨rfl, rfl, rfl⟩
    · exact (started_tile ..).trans (if_neg fun h => stays.elim (by simp [d, h.1]) (absurd h.2))
    · rw [started_passes, startClears_eq]
  · rw [startPass_misfits (d := d) rfl rfl acc misfits running first] at outcome
    generalize hu : (s.updCore c (dropPass j.fire)).updCore c (Core.noteMfault (j.fault 0x05 0 (s.core c))) = u at outcome
    have same := feedPass_absent (refusePass_absent hu.symm) q env 32
    refine ⟨_, outcome, onlyCore_trans (refusePass_onlyCore hu.symm) (same.onlyCore c), ?_⟩
    unfold FaultPends
    rw [same.core, refusePass_core hu.symm]
    exact ⟨⟨j.fault 0x05 0 x, rfl, rfl, rfl, rfl, rfl⟩, fun p => mem_dropPass (x := x), rfl, rfl⟩
  · rw [startPass_poisoned (d := d) rfl rfl acc tall width bad running first] at outcome
    generalize hu : (s.updCore c (dropPass j.fire)).updCore c (Core.noteMfault (j.fault 0x14 0 (s.core c))) = u at outcome
    have counted := State.Counted.coreEvent q c 2 0 u
    have gone : ((coreEvent q c 2 0 u).core c).pass? j.fire = none := by
      unfold Core.pass?
      rw [(counted.core c).jobs]
      exact refusePass_absent hu.symm
    have same := feedPass_absent gone q env 32
    refine ⟨u, _, outcome, same.core, same.rest, refusePass_onlyCore hu.symm, ?_⟩
    unfold FaultPends
    rw [refusePass_core hu.symm]
    refine ⟨⟨j.fault 0x14 0 x, rfl, rfl, rfl, rfl, rfl⟩, rfl, rfl, rfl, rfl, rfl, fun i => ?_⟩
    rw [same.core]
    exact refusePass_counted hu.symm counted i

end Sys2Proof.Machine
end

section
/-! PROOF. O29: the end of a pass (R202, R217, R242, R243): it retires, is lost, or aborts. Where it does not retire its tiles become
POISONED, whatever the fault's delivery and the count of a parity error do. -/

namespace Sys2Proof.Machine

/-- A tile that becomes POISONED (R243). -/
def Tile.poison (k : Tile) : Tile := { k with poisoned := true, parity := false }

theorem tile_markPoisoned (ts : List Nat) (x : Core) (i : Nat) :
    (markPoisoned ts x).tile i = if i ∈ ts then (x.tile i).poison else x.tile i :=
  tile_setTiles (f := Tile.poison) (fun _ => rfl) ts x i

theorem markPoisoned_frame (ts : List Nat) (x : Core) : { markPoisoned ts x with tiles := x.tiles } = x := setTiles_frame ..

/-- Entries whose content is lost: nothing else of their core changes, and no other core does (R243). -/
theorem freeEntries_core (c : Nat) (keys : List Nat) (s : State) (i : Nat) :
    ∃ m, (freeEntries c keys s).core i = if i = c then { s.core c with entries := m } else s.core i := by
  split
  next e =>
    subst e
    exact ⟨_, State.core_updCore ..⟩
  next e => exact ⟨[], State.core_updCore_ne _ e _⟩

/-- Tiles that become POISONED: of their core their records and the entries change, and no other core does. -/
theorem poisonTiles_core (c : Nat) (ts : List Nat) (s : State) (i : Nat) :
    ∃ m, (poisonTiles c ts s).core i = if i = c then { markPoisoned ts (s.core c) with entries := m } else s.core i := by
  obtain ⟨m, core⟩ := freeEntries_core c (ts.flatMap fun t => (List.range 1024).map (t * 1024 + ·)) (s.updCore c (markPoisoned ts)) i
  refine ⟨m, core.trans ?_⟩
  rw [State.core_updCore]
  split
  next => rfl
  next e => exact State.core_updCore_ne s e _

/-- A pass has left its core with its tiles POISONED; of all cores no other tile has changed. -/
def EndsPoisoned (c : Nat) (j : PassJob) (s t : State) : Prop :=
  let x := s.core c
  (t.core c).jobs.passes = x.jobs.passes.filter (fun p => p.fire != j.fire) ∧
  (∀ i ∈ x.passTiles j.desc, ((t.core c).tile i).poisoned = true ∧ ((t.core c).tile i).parity = false) ∧
  (∀ i, i ∉ x.passTiles j.desc → (t.core c).tile i = x.tile i) ∧ ∀ i, i ≠ c → (t.core i).tiles = (s.core i).tiles

namespace EndsPoisoned

variable {c : Nat} {j : PassJob} {s t u : State}

/-- The tiles of a pass become POISONED once it has left its core. -/
theorem of_dropped (core : { t.core c with pend := (s.core c).pend } = dropPass j.fire (s.core c))
    (others : ∀ i, i ≠ c → (t.core i).tiles = (s.core i).tiles) :
    EndsPoisoned c j s (poisonTiles c ((s.core c).passTiles j.desc) t) := by
  have tiles : (t.core c).tiles = (s.core c).tiles := (congrArg Core.tiles core :)
  have tile (i : Nat) : (t.core c).tile i = (s.core c).tile i := congrArg (SMap.get Tile.reset i) tiles
  obtain ⟨m, here⟩ := poisonTiles_core c ((s.core c).passTiles j.desc) t c
  rw [if_pos rfl] at here
  have poisoned (i : Nat) : ((poisonTiles c ((s.core c).passTiles j.desc) t).core c).tile i =
      (markPoisoned ((s.core c).passTiles j.desc) (t.core c)).tile i := by
    rw [here]
    rfl
  refine ⟨?_, fun i mem => ?_, fun i out => ?_, fun i hi => ?_⟩
  · rw [here]
    exact (congrArg (fun y : Core => y.jobs.passes) (markPoisoned_frame _ _) :).trans
      (congrArg (fun y : Core => y.jobs.passes) core :)
  · rw [poisoned, tile_markPoisoned, if_pos mem]
    exact ⟨rfl, rfl⟩
  · rw [poisoned, tile_markPoisoned, if_neg out, tile]
  · obtain ⟨m, there⟩ := poisonTiles_core c ((s.core c).passTiles j.desc) t i
    rw [there, if_neg hi, others i hi]

theorem counted (h : EndsPoisoned c j s t) (k : t.Counted u) : EndsPoisoned c j s u := by
  obtain ⟨passes, bad, kept, others⟩ := h
  have tile (i : Nat) : (u.core c).tile i = (t.core c).tile i := congrArg (SMap.get Tile.reset i) (k.core c).tiles
  refine ⟨?_, fun i mem => ?_, fun i out => ?_, fun i hi => ?_⟩
  · rw [(k.core c).jobs, passes]
  · rw [tile]
    exact bad i mem
  · rw [tile, kept i out]
  · rw [(k.core i).tiles, others i hi]

end EndsPoisoned

theorem losePass_endsPoisoned (c : Nat) (j : PassJob) (s : State) : EndsPoisoned c j s (losePass c j s) := by
  refine .of_dropped ?_ fun i hi => ?_
  · rw [State.core_updCore]
    rfl
  · rw [State.core_updCore_ne s hi]

theorem poisonTiles_pend (c : Nat) (ts : List Nat) (s : State) : ((poisonTiles c ts s).core c).pend = (s.core c).pend := by
  obtain ⟨m, core⟩ := poisonTiles_core c ts s c
  rw [core, if_pos rfl]
  exact (congrArg Core.pend (markPoisoned_frame ts _) :)

theorem abortPass_eq (c q : Nat) (j : PassJob) (sub : Nat) (addr : Word) (s : State) : abortPass c q j sub addr s =
    coreEvent q c 2 0 (poisonTiles c ((s.core c).passTiles j.desc)
      ((matrixFault q c (j.fault sub addr (s.core c)) s).updCore c (dropPass j.fire))) := rfl

section

variable (c q : Nat) (j : PassJob) (sub : Nat) (addr : Word) {s z : State} (counted : s.Accounted z)

include counted

theorem abortPass_endsPoisoned : EndsPoisoned c j s (abortPass c q j sub addr z) := by
  have core := State.core_of counted.cores_eq
  have fault := matrixFault_core q c (j.fault sub addr (z.core c)) z
  rw [abortPass_eq, core c]
  refine (EndsPoisoned.of_dropped ?_ fun i hi => ?_).counted (.coreEvent q c 2 0 _)
  · rw [State.core_updCore, ← core c]
    exact congrArg (dropPass j.fire) (fault c)
  · rw [State.core_updCore_ne _ hi, ← core i, ← core c]
    exact (congrArg Core.tiles (fault i) :)

theorem abortPass_faultPends (run : (s.part q).st = .running) (first : (s.core c).pend.mdone = false) :
    FaultPends c j.seq sub (⟨j.desc⟩ : PassDesc).tile j.handle s (abortPass c q j sub addr z) := by
  have core := State.core_of counted.cores_eq c
  have waits := matrixFault_pends (s := z) (c := c) (by rw [State.part_of counted.parts_eq]; exact run) (by rw [core]; exact first)
    (j.fault sub addr (z.core c))
  refine ⟨j.fault sub addr (z.core c), ?_, rfl, rfl, rfl, rfl⟩
  rw [abortPass_eq, ((State.Counted.coreEvent q c 2 0 _).core c).mfaults, poisonTiles_pend, State.core_updCore, waits,
    State.core_updCore, ← core]
  rfl

end

/-- A parity error is counted, and that leaves cores and partitions alone (R243, R415). -/
theorem countParity_accounted (c : Nat) (bad : Bool) (s : State) : s.Accounted (if bad then countParity c s else s) := by
  split
  · exact (State.Accounted.refl s).chatter _ _
  · exact .refl s

section

variable {c : CoreId} {q : Nat} {env : Env} {s₀ s : State} (hs : s = feedStarted c env (applyUpsets env.upsets s₀))
  (part : (s.core c).part = some q)

include hs part

section

variable {j : PassJob} (first : (s.core c).firstStarted = some j)

include first

theorem exec_passRetire : exec (.passRetire c env) s₀ =
    .next (if j.lost then losePass c j s
      else if j.complete && (s.core c).frontsClear j && !(s.core c).passParity j then retirePass c q j s else s) := by
  subst hs
  refine congrArg Host.Outcome.next ?_
  rw [part, first]

theorem exec_passRetire_loses (lost : j.lost = true) : exec (.passRetire c env) s₀ = .next (losePass c j s) := by
  rw [exec_passRetire hs part first, if_pos lost]

theorem exec_passRetire_retires (kept : j.lost = false) (complete : j.complete = true) (clear : (s.core c).frontsClear j = true)
    (sound : (s.core c).passParity j = false) :
    exec (.passRetire c env) s₀ = .next (coreEvent q c 2 0 (s.updCore c (dropPass j.fire))) := by
  rw [exec_passRetire hs part first, if_neg (by simp [kept]), if_pos (by simp [complete, clear, sound])]
  rfl

theorem exec_passRetire_waits (kept : j.lost = false)
    (waits : j.complete = false ∨ (s.core c).frontsClear j = false ∨ (s.core c).passParity j = true) :
    exec (.passRetire c env) s₀ = .next s := by
  rw [exec_passRetire hs part first, if_neg (by simp [kept]), if_neg]
  obtain h | h | h := waits <;> simp [h]

end

theorem exec_passAbort_none (none : (s.core c).jobs.passes.find? (fun p => p.started && ((s.core c).passFails p).isSome) = none) :
    exec (.passAbort c env) s₀ = .next s := by
  subst hs
  refine congrArg Host.Outcome.next ?_
  rw [part, none]

theorem exec_passAbort_fails {j : PassJob} {sub : Nat} {a : Word}
    (first : (s.core c).jobs.passes.find? (fun p => p.started && ((s.core c).passFails p).isSome) = some j)
    (fails : (s.core c).passFails j = some (sub, a)) :
    exec (.passAbort c env) s₀ = .next (abortPass c q j sub a (if (s.core c).passParity j then countParity c s else s)) := by
  subst hs
  refine congrArg Host.Outcome.next ?_
  rw [part, first]
  dsimp only
  rw [fails]

end

theorem passEndRule : PassEndRule := by
  intro c q env j s₀ s x d left lost part
  have fed : s = feedStarted c env (applyUpsets env.upsets s₀) := rfl
  clear_value s
  refine ⟨fun first kept complete clear sound => ?_, exec_passRetire_waits fed part, fun first gone => ?_,
    fun sub a first fails => ?_, exec_passAbort_none fed part⟩
  · exact ⟨_, exec_passRetire_retires fed part first kept complete clear sound, onlyCore_updCore (onlyCore_refl c s) _,
      State.core_updCore ..⟩
  · exact ⟨_, exec_passRetire_loses fed part first gone, losePass_endsPoisoned c j s, rfl⟩
  · have counted := countParity_accounted c (x.passParity j) s
    exact ⟨_, exec_passAbort_fails fed part first fails, abortPass_endsPoisoned c q j sub a counted,
      abortPass_faultPends c q j sub a counted⟩

end Sys2Proof.Machine
end

section
/-! PROOF. O29: what the array makes of the beats of a pass (R194, R195, R225 to R228). Each beat meets every entry of the extent once,
since rows and columns have entries of their own, so that an entry takes in its products in the order of the beats. -/

namespace Sys2Proof.Machine

/-- Changes of one key each, none of them of key k. -/
theorem SMap.get_foldl_upd_ne {α ι : Type} [DecidableEq α] (d : α) {key : ι → Nat} {f : ι → α → α} {l : List ι} {k : Nat}
    (h : k ∉ l.map key) (m : SMap α) : SMap.get d k (l.foldl (fun m i => SMap.upd d (key i) (f i) m) m) = SMap.get d k m := by
  induction l generalizing m with
  | nil => rfl
  | cons i l ih =>
    obtain ⟨ne, h⟩ := not_or.1 (mt List.mem_cons.2 h)
    rw [List.foldl_cons, ih h, SMap.get_upd_ne d ne]

/-- Changes of one key each, one of them of the key of i. -/
theorem SMap.get_foldl_upd {α ι : Type} [DecidableEq α] (d : α) {key : ι → Nat} {f : ι → α → α} {l : List ι}
    (nodup : (l.map key).Nodup) {i : ι} (mem : i ∈ l) (m : SMap α) :
    SMap.get d (key i) (l.foldl (fun m i => SMap.upd d (key i) (f i) m) m) = f i (SMap.get d (key i) m) := by
  induction l generalizing m with
  | nil => exact absurd mem List.not_mem_nil
  | cons a l ih =>
    obtain ⟨out, nodup⟩ := List.nodup_cons.1 nodup
    rw [List.foldl_cons]
    obtain rfl | mem := List.mem_cons.1 mem
    · rw [SMap.get_foldl_upd_ne d out, SMap.get_upd]
    · have ne : key i ≠ key a := fun e => out (e ▸ List.mem_map_of_mem mem)
      rw [ih nodup mem, SMap.get_upd_ne d ne]

/-- The rows in feeder order are those below n, each once (R194). -/
theorem feedOrder_eq (n : Nat) : feedOrder n =
    ((List.range 32).flatMap fun r => [r, r + 32, r + 64, r + 96]).filter fun i => decide (i < n) := List.filter_flatMap.symm

theorem nodup_feedOrder (n : Nat) : (feedOrder n).Nodup := by
  rw [feedOrder_eq]
  refine List.Nodup.filter _ (List.nodup_flatMap.2 ⟨fun r _ => by simp, ?_⟩)
  refine List.nodup_range.imp_of_mem fun {a b} ha hb ne i hi hi' => ?_
  simp only [List.mem_cons, List.not_mem_nil, or_false, List.mem_range] at ha hb hi hi'
  omega

theorem mem_feedOrder {n i : Nat} (h : n ≤ 128) : i ∈ feedOrder n ↔ i < n := by
  rw [feedOrder_eq, List.mem_filter, decide_eq_true_eq, and_iff_right_iff_imp]
  intro hi
  refine List.mem_flatMap.2 ⟨i % 32, List.mem_range.2 (by omega), ?_⟩
  simp only [List.mem_cons, List.not_mem_nil, or_false]
  omega

/-- Row and column of an entry are told from its cell (R194). -/
theorem cellOf_inj {tall : Bool} {i k i' k' : Nat} (hi : i < if tall then 128 else 32) (hi' : i' < if tall then 128 else 32)
    (hk : k < columns tall) (hk' : k' < columns tall) (h : cellOf tall i k = cellOf tall i' k') : i = i' ∧ k = k' := by
  cases tall with
  | false =>
    simp only [cellOf, columns, Bool.false_eq_true, if_false] at *
    omega
  | true =>
    simp only [cellOf, columns, if_true] at *
    omega

theorem entryKey_inj {width t a b : Nat} (h : entryKey width t a = entryKey width t b) : a = b := by
  unfold entryKey at h
  omega

/-- The key of the entry of a row and a column of a pass. -/
def PassDesc.key (d : PassDesc) (p : Nat × Nat) : Nat := entryKey d.width d.tile (cellOf d.tall p.1 p.2)

/-- The extent of a pass lies within its shape (R205). -/
def PassDesc.Fits (d : PassDesc) : Prop := d.mr ≤ (if d.tall then 128 else 32) ∧ d.nc ≤ columns d.tall

section

variable {d : PassDesc} (fits : d.Fits)

include fits

theorem PassDesc.Fits.mr_le : d.mr ≤ 128 := by
  have := fits.1
  split at this <;> omega

theorem PassDesc.Fits.nc_le : d.nc ≤ 128 := by
  have := fits.2
  unfold columns at this
  split at this <;> omega

/-- Entries of the extent have keys of their own. -/
theorem PassDesc.Fits.key_inj {i k i' k' : Nat} (hi : i < d.mr) (hk : k < d.nc) (hi' : i' < d.mr) (hk' : k' < d.nc)
    (h : d.key (i, k) = d.key (i', k')) : (i, k) = (i', k') := by
  obtain ⟨mr, nc⟩ := fits
  obtain ⟨hi, hk⟩ := cellOf_inj (by omega) (by omega) (by omega) (by omega) (entryKey_inj h)
  exact Prod.ext hi hk

/-- Rows and columns of the extent, each once, give each entry once. -/
theorem PassDesc.Fits.nodup_keys {is ks : List Nat} (his : is.Nodup) (hks : ks.Nodup) (rows : ∀ i ∈ is, i < d.mr)
    (cols : ∀ k ∈ ks, k < d.nc) : ((is ×ˢ ks).map d.key).Nodup := by
  refine List.Nodup.map_on (fun p hp q hq h => ?_) (his.product hks)
  obtain ⟨hp1, hp2⟩ := List.mem_product.1 hp
  obtain ⟨hq1, hq2⟩ := List.mem_product.1 hq
  exact fits.key_inj (rows _ hp1) (cols _ hp2) (rows _ hq1) (cols _ hq2) h

end

theorem keys_eq (d : PassDesc) : d.keys = (List.range d.mr ×ˢ List.range d.nc).map d.key := by
  simp only [PassDesc.keys, SProd.sprod, List.product, List.map_flatMap, List.map_map]
  rfl

theorem mem_keys {d : PassDesc} {n : Nat} : n ∈ d.keys ↔ ∃ i k, i < d.mr ∧ k < d.nc ∧ d.key (i, k) = n := by
  simp [keys_eq, and_assoc]

/-- One step of k is a change of each entry of the rows and columns given (R195). -/
theorem accStep_eq (d : PassDesc) (is ks : List Nat) (a b : Nat → Fed) (m : Entries) :
    accStep d (is.map fun i => (i, a i)) (ks.map fun k => (k, b k)) m =
      (is ×ˢ ks).foldl (fun m p => SMap.upd TileEntry.reset (d.key p) (fun e => d.accumulate e (a p.1) (b p.2)) m) m := by
  simp only [accStep, SProd.sprod, List.product, List.foldl_flatMap, List.foldl_map]
  rfl

/-- A beat of a pass: for each row the element of A, for each column that of B, in feeder order (R215). -/
def PassDesc.beatOf (d : PassDesc) (a b : Nat → Fed) : FedBeat :=
  ⟨(feedOrder d.mr).map fun i => (i, [a i]), (feedOrder d.nc).map fun k => (k, [b k])⟩

theorem accBeat_beatOf {d : PassDesc} (fmt : d.fmt ≠ 0) (a b : Nat → Fed) (m : Entries) : d.accBeat m (d.beatOf a b) =
    (feedOrder d.mr ×ˢ feedOrder d.nc).foldl
      (fun m p => SMap.upd TileEntry.reset (d.key p) (fun e => d.accumulate e (a p.1) (b p.2)) m) m := by
  rw [← accStep_eq]
  unfold PassDesc.accBeat PassDesc.beatOf
  rw [if_neg fmt]
  simp only [List.range_one, List.foldl_cons, List.foldl_nil, List.map_map]
  rfl

section

variable {d : PassDesc} (fmt : d.fmt ≠ 0) (fits : d.Fits)

include fmt fits

/-- What a beat makes of an entry of the extent: it takes in one product (R195). -/
theorem get_accBeat {i k : Nat} (hi : i < d.mr) (hk : k < d.nc) (a b : Nat → Fed) (m : Entries) :
    SMap.get TileEntry.reset (d.key (i, k)) (d.accBeat m (d.beatOf a b)) =
      d.accumulate (SMap.get TileEntry.reset (d.key (i, k)) m) (a i) (b k) := by
  have nodup := fits.nodup_keys (nodup_feedOrder d.mr) (nodup_feedOrder d.nc) (fun _ => (mem_feedOrder fits.mr_le).1)
    (fun _ => (mem_feedOrder fits.nc_le).1)
  rw [accBeat_beatOf fmt]
  exact SMap.get_foldl_upd TileEntry.reset nodup (i := (i, k))
    (List.mem_product.2 ⟨(mem_feedOrder fits.mr_le).2 hi, (mem_feedOrder fits.nc_le).2 hk⟩) m

/-- A beat leaves every entry outside the extent as it is (R195). -/
theorem get_accBeat_out {n : Nat} (out : n ∉ d.keys) (a b : Nat → Fed) (m : Entries) :
    SMap.get TileEntry.reset n (d.accBeat m (d.beatOf a b)) = SMap.get TileEntry.reset n m := by
  rw [accBeat_beatOf fmt]
  refine SMap.get_foldl_upd_ne TileEntry.reset (fun mem => out ?_) m
  obtain ⟨p, hp, rfl⟩ := List.mem_map.1 mem
  obtain ⟨hi, hk⟩ := List.mem_product.1 hp
  exact mem_keys.2 ⟨p.1, p.2, (mem_feedOrder fits.mr_le).1 hi, (mem_feedOrder fits.nc_le).1 hk, rfl⟩

theorem get_accBeats {i k : Nat} (hi : i < d.mr) (hk : k < d.nc) (A B : Nat → Nat → Fed) (ts : List Nat) (m : Entries) :
    SMap.get TileEntry.reset (d.key (i, k)) ((ts.map fun t => d.beatOf (A t) (B t)).foldl d.accBeat m) =
      ts.foldl (fun e t => d.accumulate e (A t i) (B t k)) (SMap.get TileEntry.reset (d.key (i, k)) m) := by
  induction ts generalizing m with
  | nil => rfl
  | cons t ts ih => rw [List.map_cons, List.foldl_cons, List.foldl_cons, ih, get_accBeat fmt fits hi hk]

theorem get_accBeats_out {n : Nat} (out : n ∉ d.keys) (A B : Nat → Nat → Fed) (ts : List Nat) (m : Entries) :
    SMap.get TileEntry.reset n ((ts.map fun t => d.beatOf (A t) (B t)).foldl d.accBeat m) = SMap.get TileEntry.reset n m := by
  induction ts generalizing m with
  | nil => rfl
  | cons t ts ih => rw [List.map_cons, List.foldl_cons, ih, get_accBeat_out fmt fits out]

end

section

variable {j : PassJob} {d : PassDesc} (hd : d = ⟨j.desc⟩)

include hd

/-- How a pass begins an entry of its extent (R228). -/
theorem get_beginEntries (fits : d.Fits) {i k : Nat} (hi : i < d.mr) (hk : k < d.nc) (m : Entries) :
    SMap.get TileEntry.reset (d.key (i, k)) (beginEntries j m) = d.begin' (SMap.get TileEntry.reset (d.key (i, k)) m) := by
  subst hd
  have mem := mem_keys.2 ⟨i, k, hi, hk, rfl⟩
  have nodup : ((⟨j.desc⟩ : PassDesc).keys.map id).Nodup := by
    rw [List.map_id, keys_eq]
    exact fits.nodup_keys List.nodup_range List.nodup_range (fun _ => List.mem_range.1) (fun _ => List.mem_range.1)
  refine (SMap.get_foldl_upd TileEntry.reset (key := id) nodup mem _).trans (congrArg _ ?_)
  rw [id, SMap.get_filter TileEntry.reset fun n => !j.clear.contains (n / 1024) || (⟨j.desc⟩ : PassDesc).keys.contains n]
  exact if_pos (by simp [mem])

/-- What a pass leaves of an entry outside its extent when it begins: one of a tile whose record it changed is cleared (R228, R241). -/
theorem get_beginEntries_out {n : Nat} (out : n ∉ d.keys) (m : Entries) :
    SMap.get TileEntry.reset n (beginEntries j m) =
      if n / 1024 ∈ j.clear then TileEntry.reset else SMap.get TileEntry.reset n m := by
  subst hd
  refine (SMap.get_foldl_upd_ne TileEntry.reset (key := id) (by rwa [List.map_id]) _).trans ?_
  rw [SMap.get_filter TileEntry.reset fun n => !j.clear.contains (n / 1024) || (⟨j.desc⟩ : PassDesc).keys.contains n]
  by_cases mem : n / 1024 ∈ j.clear <;> simp [out, mem]

end

/-- The array takes in what the queues of a pass hold (R217, R220). -/
theorem takeIn_clear {x : Core} {j : PassJob} (pass : x.pass? j.fire = some j) (clear : x.frontsClear j = true)
    (sound : x.passParity j = false) : takeIn j.fire x =
      updPass j.fire (fun p => { p with began := true, queue := [] }) { x with entries := j.entries x.entries } := by
  unfold takeIn
  rw [pass]
  exact if_pos (by rw [clear, sound]; rfl)

theorem passArithmeticRule : PassArithmeticRule := by
  intro x j n A B d y pass clear sound fmt mr nc queue
  have fits : d.Fits := ⟨mr, nc⟩
  have taken : y = _ := takeIn_clear pass clear sound
  have entries : y.entries = ((List.range n).map fun t => d.beatOf (A t) (B t)).foldl d.accBeat
      (if j.began then x.entries else beginEntries j x.entries) := by
    rw [taken, ← show j.queue = (List.range n).map fun t => d.beatOf (A t) (B t) from queue]
    rfl
  refine ⟨fun i k hi hk => ?_, fun key out stays => ?_, fun key out fresh cleared => ?_, by rw [taken]; rfl, by rw [taken]; rfl⟩
  · rw [entries]
    refine (get_accBeats fmt fits hi hk A B _ _).trans (congrArg (List.foldl _ · _) ?_)
    cases j.began
    · exact get_beginEntries rfl fits hi hk _
    · rfl
  · rw [entries, get_accBeats_out fmt fits out]
    cases began : j.began
    · exact (get_beginEntries_out rfl out _).trans (if_neg (stays.resolve_left (by simp [began])))
    · rfl
  · rw [entries, get_accBeats_out fmt fits out, fresh]
    exact (get_beginEntries_out rfl out _).trans (if_pos cleared)

/-- Settles O29: the entries by induction on the beats, and each end of a pass. -/
theorem passEnd : Obligations.PassEnd := ⟨passArithmeticRule, passEndRule⟩

end Sys2Proof.Machine
end

section
/-! PROOF. O30: a drain's front, a row visit that has no row maxima to read, and the completion (R212, R218, R219, R237, R244, R249). The
stores of a visit, with the errors that they meet (R77, R482), touch nothing of their core but the store. -/

namespace Sys2Proof.Machine

/-- Of core y nothing differs from core x but the store with its errors. -/
def Core.StoreOnly (x y : Core) : Prop := { y with store := x.store, storeErr := x.storeErr } = x

namespace Core.StoreOnly

variable {x y z : Core}

theorem refl (x : Core) : x.StoreOnly x := rfl

theorem trans (h : x.StoreOnly y) (k : y.StoreOnly z) : x.StoreOnly z :=
  (congrArg (fun w : Core => { w with store := x.store, storeErr := x.storeErr }) k :).trans h

theorem jobs (h : x.StoreOnly y) : y.jobs = x.jobs := (congrArg Core.jobs h :)
theorem tiles (h : x.StoreOnly y) : y.tiles = x.tiles := (congrArg Core.tiles h :)
theorem entries (h : x.StoreOnly y) : y.entries = x.entries := (congrArg Core.entries h :)

theorem putWord (w : Nat) (v : TWord) (x : Core) : x.StoreOnly (Machine.putWord w v x) := rfl

theorem touched (x : Core) (w : Nat) : x.StoreOnly (x.touched w) := by
  unfold Core.touched
  split
  · exact .refl x
  · split
    · exact .putWord ..
    · exact .refl x

end Core.StoreOnly

theorem maskedWord_storeOnly (c w mask : Nat) (new : List Byte) (tag : Tag) (s : State) :
    (s.core c).StoreOnly ((maskedWord c w mask new tag s).core c) := by
  unfold maskedWord
  split
  · rw [State.core_updCore]
    rfl
  · rw [State.core_updCore, touch_core]
    exact (Core.StoreOnly.touched (s.core c) w).trans rfl

theorem storeVals_storeOnly (c : Nat) (tag : Tag) (n : Nat) (l : List (Nat × Nat)) (s : State) :
    (s.core c).StoreOnly ((storeVals c tag n l s).core c) := by
  unfold storeVals
  generalize l.foldl (addStore n) [] = words
  induction words generalizing s with
  | nil => exact .refl _
  | cons e words ih => exact (maskedWord_storeOnly c e.1 e.2.1 e.2.2 tag s).trans (ih _)

/-- The tiles that a drain concerns depend on the tiles' records alone (R238). -/
theorem drainTiles_of {x y : Core} (h : y.tiles = x.tiles) (w : List Word) : y.drainTiles w = x.drainTiles w := by
  unfold Core.drainTiles Core.span Core.tile
  rw [h]

theorem mem_dropDrain {fire : Nat} {x : Core} {p : DrainJob} (h : p ∈ (dropDrain fire x).jobs.drains) : p.fire ≠ fire := by
  simpa using (List.mem_filter.1 h).2

/-- A row that INIT sets: nothing but the entries (R219). -/
theorem initRow_frame (j : DrainJob) (x : Core) : { initRow j x with entries := x.entries } = x := by
  unfold initRow
  dsimp only
  split <;> rfl

theorem initRow_plain {j : DrainJob} (plain : (⟨j.desc⟩ : DrainDesc).init = 0) (x : Core) : initRow j x = x := if_pos plain

/-! The front (R218). -/

/-- A drain fits the tile that it reads: width and shape (R212 check 5). -/
def DrainDesc.fits (d : DrainDesc) (k : Tile) : Bool :=
  (d.w64 == (k.width == 2)) && decide (d.mr ≤ if k.tall then 128 else 32) && decide (d.nc ≤ columns k.tall)

theorem not_fits (d : DrainDesc) (k : Tile) : (!d.fits k) =
    ((d.w64 != (k.width == 2)) || decide ((if k.tall then 128 else 32) < d.mr) || decide (columns k.tall < d.nc)) := by
  simp only [DrainDesc.fits, Bool.not_and, bne, ← Nat.not_lt, decide_not, Bool.not_not]

/-- The fault of a drain that does not start, as its core finds it (R238, R244). -/
def DrainJob.frontFault (j : DrainJob) (sub : Nat) (x : Core) : MFault :=
  let d : DrainDesc := ⟨j.desc⟩
  ⟨j.seq, sub, 0, true, d.tile, x.tileState (x.drainTiles j.desc), j.handle⟩

/-- A drain whose front starts on a tile (R218, R244). -/
def DrainJob.begun (k : Tile) (p : DrainJob) : DrainJob := { p with started := true, tall := k.tall, width := k.width, mute := k.poisoned }

section

variable {c q : Nat} {j : DrainJob} {s : State} {d : DrainDesc} {k : Tile} (hd : d = ⟨j.desc⟩) (hk : k = (s.core c).tile d.tile)

include hd hk

theorem startFront_starts (fits : d.fits k = true) (sound : k.poisoned = false) (clean : (s.core c).storeErr = [])
    (rows : firstRowFault (if d.w64 then 1 else 2) (s.core c) (d.rowWords k.tall) = none) :
    startFront q c j s = coreEvent q c 3 0 (s.updCore c (updDrain j.fire (DrainJob.begun k))) := by
  subst hd hk
  unfold startFront
  dsimp only
  rw [← not_fits, fits, if_neg (by decide), touchAll_clean clean, rows]
  dsimp only
  rw [if_neg (by rw [sound]; exact Bool.false_ne_true)]
  rfl

theorem startFront_misfits (misfits : d.fits k = false) (run : (s.part q).st = .running) (first : (s.core c).pend.mdone = false) :
    startFront q c j s = (s.updCore c (Core.noteMfault (j.frontFault 0x05 (s.core c)))).updCore c (dropDrain j.fire) := by
  subst hd hk
  unfold startFront
  dsimp only
  rw [← not_fits, misfits, if_pos (by decide)]
  exact congrArg (fun t : State => t.updCore c (dropDrain j.fire)) (matrixFault_pends run first _)

end

section

variable {c : CoreId} {q : Nat} {env : Env} {j : DrainJob} {s₀ s : State} (hs : s = applyUpsets env.upsets s₀)

include hs

theorem exec_drainFrontStart (run : s.runsPart c = some q) (next : (s.core c).jobs.drains.find? (fun p => !p.started) = some j)
    (may : (s.core c).frontMayStart j = true) : exec (.drainFrontStart c env) s₀ = .next (startFront q c j s) := by
  subst hs
  refine congrArg Host.Outcome.next ?_
  rw [run, next]
  exact if_pos may

/-- A visit with no row maxima to read, of tiles with their parity intact. -/
theorem exec_drainRowVisit (part : (s.core c).part = some q) (next : (s.core c).jobs.drains.find? DrainJob.sweeping = some j)
    (maxima : j.maxWords = []) (sound : ((s.core c).drainTiles j.desc).any (fun i => ((s.core c).tile i).parity) = false) :
    exec (.drainRowVisit c env) s₀ = .next (visitRow c j s) := by
  subst hs
  refine congrArg Host.Outcome.next ?_
  rw [part, next]
  unfold visit
  dsimp only
  rw [if_neg (by rw [sound]; exact Bool.false_ne_true), maxima]
  rfl

end

theorem exec_drainComplete {c : CoreId} {q : Nat} {j : DrainJob} {rest : List DrainJob} {s : State}
    (part : (s.core c).part = some q) (drains : (s.core c).jobs.drains = j :: rest) (started : j.started = true)
    (ended : j.sweeping = false) : exec (.drainComplete c) s =
      .next (coreEvent q c 4 0 (s.updCore c fun x => (giveCounts q j s (dropDrain j.fire x)).event 18 x.dtu.turn)) := by
  refine congrArg Host.Outcome.next ?_
  rw [part, drains]
  exact if_pos (by rw [started, ended]; rfl)

/-! A row visit (R218, R219, R233 to R237). -/

/-- A drain that has gone on by one row position, with what it counted there (R237). -/
def DrainJob.visited (r : RowOut) (p : DrainJob) : DrainJob :=
  { p with row := p.row + 1, zeros := p.zeros + r.zeros, sats := p.sats + r.sats, nonfin := p.nonfin + r.nonfin }

/-- A tile that is no longer POISONED. -/
def Tile.clean (k : Tile) : Tile := { k with poisoned := false }

/-- A core whose drain has gone on; after the last row of one that initialises, its tiles are no longer POISONED (R219). -/
def Core.visited (j : DrainJob) (r : RowOut) (x : Core) : Core :=
  let y := updDrain j.fire (DrainJob.visited r) x
  if j.row = 31 ∧ (⟨j.desc⟩ : DrainDesc).init ≠ 0 then setTiles (y.drainTiles j.desc) Tile.clean y else y

theorem visited_frame (j : DrainJob) (r : RowOut) (x : Core) :
    { x.visited j r with tiles := x.tiles } = updDrain j.fire (DrainJob.visited r) x := by
  unfold Core.visited
  dsimp only
  split
  · exact setTiles_frame ..
  · rfl

/-- A visit initialises its row, stores, and the drain goes on. -/
theorem visitRow_core (c : Nat) (j : DrainJob) (s : State) :
    ∃ r y, (visitRow c j s).core c = y.visited j r ∧ (initRow j (s.core c)).StoreOnly y ∧
      (j.mute = true → y = initRow j (s.core c)) := by
  unfold visitRow
  dsimp only
  generalize hr : (if j.mute then (⟨[], [], 0, 0, 0⟩ : RowOut)
    else j.rows.foldl (fun r i => rowOutputs (s.core c) j i r) ⟨[], [], 0, 0, 0⟩) = r
  generalize hz : storeVals c 2 4 r.stats _ = z
  have row : (s.updCore c (initRow j)).core c = initRow j (s.core c) := State.core_updCore ..
  refine ⟨r, z.core c, ?_, ?_, fun mute => ?_⟩
  · unfold Core.visited
    dsimp only
    split
    · rw [State.core_updCore, State.core_updCore]
      rfl
    · rw [State.core_updCore]
      rfl
  · rw [← row, ← hz]
    exact (storeVals_storeOnly ..).trans (storeVals_storeOnly ..)
  · rw [if_pos mute] at hr
    rw [← row, ← hz, ← hr]
    rfl

/-- What a visit leaves on its core (R218, R219). -/
theorem visitRow_spec (c : Nat) (j : DrainJob) (s : State) :
    let x := s.core c
    let d : DrainDesc := ⟨j.desc⟩
    let t := visitRow c j s
    (t.core c).jobs.drains.map (fun p => (p.fire, p.row)) =
      x.jobs.drains.map (fun p => (p.fire, if p.fire = j.fire then p.row + 1 else p.row)) ∧
    (d.init = 0 → (t.core c).entries = x.entries ∧ (t.core c).tiles = x.tiles) ∧
    (j.mute = true → (t.core c).store = x.store) ∧
    (j.row = 31 → d.init ≠ 0 → ∀ i ∈ x.drainTiles j.desc, ((t.core c).tile i).poisoned = false) := by
  intro x d t
  obtain ⟨r, y, core, only, muted⟩ := visitRow_core c j s
  have row := initRow_frame j x
  have frame := visited_frame j r y
  have jobs : y.jobs = x.jobs := only.jobs.trans (congrArg Core.jobs row :)
  have tiles : y.tiles = x.tiles := only.tiles.trans (congrArg Core.tiles row :)
  have drains : (y.visited j r).jobs.drains = x.jobs.drains.map fun p => if p.fire = j.fire then p.visited r else p := by
    rw [← jobs]
    exact (congrArg (fun z : Core => z.jobs.drains) frame :)
  dsimp only [t]
  rw [core]
  refine ⟨?_, fun plain => ⟨?_, ?_⟩, fun mute => ?_, fun last inits i mem => ?_⟩
  · rw [drains, List.map_map]
    refine List.map_congr_left fun p _ => ?_
    dsimp only [Function.comp]
    split <;> rfl
  · exact ((congrArg Core.entries frame :).trans only.entries).trans (congrArg Core.entries (initRow_plain plain x))
  · have stays : y.visited j r = updDrain j.fire (DrainJob.visited r) y := if_neg fun h => h.2 plain
    rw [stays]
    exact tiles
  · have store : (y.visited j r).store = y.store := (congrArg Core.store frame :)
    rw [store, muted mute]
    exact (congrArg Core.store row :)
  · have cleans : y.visited j r = setTiles ((updDrain j.fire (DrainJob.visited r) y).drainTiles j.desc) Tile.clean
        (updDrain j.fire (DrainJob.visited r) y) := if_pos ⟨last, inits⟩
    have drained : (updDrain j.fire (DrainJob.visited r) y).drainTiles j.desc = x.drainTiles j.desc := drainTiles_of tiles _
    rw [cleans, tile_setTiles (f := Tile.clean) (fun _ => rfl), if_pos (by rwa [drained])]
    rfl

/-! The completion (R237, R244, R249). -/

/-- The counts that a drain gives the numerics monitor (R249). -/
def DrainJob.count (j : DrainJob) (x : Core) : MonCount :=
  let d : DrainDesc := ⟨j.desc⟩
  ⟨true, 0, x.lcore, j.handle, d.mr * d.nc, j.zeros, j.sats, j.nonfin, false⟩

/-- A core that a drain has left, its counts given where there is a monitor table (R249). -/
def Core.endDrain (j : DrainJob) (montab : Nat) (x : Core) : Core :=
  { x with jobs := { x.jobs with
      drains := x.jobs.drains.filter fun p => p.fire != j.fire
      counts := if montab = 0 then x.jobs.counts else x.jobs.counts ++ [j.count x] } }

theorem giveCounts_dropDrain (q : Nat) (j : DrainJob) (s : State) (x : Core) :
    giveCounts q j s (dropDrain j.fire x) = x.endDrain j (s.part q).mon.montab := by
  unfold giveCounts Core.endDrain
  dsimp only
  split <;> rfl

/-- What a drain's completion leaves on its core. -/
theorem drainComplete_spec {c q : Nat} {j : DrainJob} {s t : State}
    (ht : t = coreEvent q c 4 0 (s.updCore c fun x => (giveCounts q j s (dropDrain j.fire x)).event 18 x.dtu.turn)) :
    let x := s.core c
    let d : DrainDesc := ⟨j.desc⟩
    (∀ p ∈ (t.core c).jobs.drains, p.fire ≠ j.fire) ∧ (x.dtu.turn, 18) ∈ (t.core c).pend.events ∧
    (t.core c).store = x.store ∧ (t.core c).entries = x.entries ∧
    ((s.part q).mon.montab = 0 → (t.core c).jobs.counts = x.jobs.counts) ∧
    ((s.part q).mon.montab ≠ 0 → ∃ n, (t.core c).jobs.counts = x.jobs.counts ++ [n] ∧ n.drain = true ∧ n.core = x.lcore ∧
      n.daddr = j.handle ∧ n.nelem = d.mr * d.nc ∧ n.nzero = j.zeros ∧ n.nsat = j.sats ∧ n.nnonf = j.nonfin) := by
  intro x d
  generalize hy : x.endDrain j (s.part q).mon.montab = y
  have counted : (y.event 18 x.dtu.turn).Counted (t.core c) := by
    have here := (State.Counted.coreEvent q c 4 0
      (s.updCore c fun x => (giveCounts q j s (dropDrain j.fire x)).event 18 x.dtu.turn)).core c
    rwa [State.core_updCore, giveCounts_dropDrain, ← ht, hy] at here
  have frame := Core.event_frame 18 x.dtu.turn y
  have jobs : (t.core c).jobs = y.jobs := counted.jobs.trans (Core.event_jobs ..)
  rw [counted.events, counted.store, counted.entries, jobs]
  refine ⟨fun p hp => ?_, mem_events_event .., (congrArg Core.store frame :).trans ?_, (congrArg Core.entries frame :).trans ?_,
    fun off => ?_, fun on => ?_⟩
  · rw [← hy] at hp
    exact mem_dropDrain (x := x) hp
  · rw [← hy]
    rfl
  · rw [← hy]
    rfl
  · rw [← hy]
    exact if_pos off
  · rw [← hy]
    exact ⟨j.count x, if_neg on, rfl, rfl, rfl, rfl, rfl, rfl, rfl⟩

/-- Settles O30: the front, the visit and the completion are one change of the core each, and then an event. -/
theorem drain : Obligations.Drain := by
  unfold Obligations.Drain
  intro c q env j s₀ s x d k fits
  refine ⟨fun run next may => ⟨fun fit sound clean rows => ?_, fun misfit first => ?_⟩, fun part next maxima sound =>
    ⟨_, exec_drainRowVisit rfl part next maxima sound, visitRow_spec c j s⟩, fun rest part drains started ended =>
    ⟨_, exec_drainComplete part drains started ended, drainComplete_spec rfl⟩⟩
  · have outcome := exec_drainFrontStart rfl run next may
    rw [startFront_starts (d := d) rfl rfl fit sound clean rows] at outcome
    have counted := (State.Counted.coreEvent q c 3 0 (s.updCore c (updDrain j.fire (DrainJob.begun k)))).core c
    rw [State.core_updCore] at counted
    refine ⟨_, outcome, ?_, counted.store, counted.entries, counted.tiles⟩
    rw [counted.jobs, ← sound]
    rfl
  · have outcome := exec_drainFrontStart rfl run next may
    rw [startFront_misfits (d := d) rfl rfl misfit (runsPart_eq_some run).2 first] at outcome
    refine ⟨_, outcome, onlyCore_updCore (onlyCore_updCore (onlyCore_refl c s) _) _, ?_⟩
    unfold FaultPends
    rw [State.core_updCore, State.core_updCore]
    exact ⟨⟨j.frontFault 0x05 x, rfl, rfl, rfl, rfl, rfl⟩, fun p hp => mem_dropDrain hp⟩

end Sys2Proof.Machine
end

section
/-! PROOF. O31: the numerics monitor's counts and its log writes (R249, R253, R254), with what the walk of a log write reads (R314). -/

namespace Sys2Proof.Machine

/-- A partition with its monitor changed. -/
def Part.updMon (f : Monitor → Monitor) (p : Part) : Part := { p with mon := f p.mon }

theorem State.mon_updPart (q : Nat) (f : Monitor → Monitor) (s : State) : ((s.updPart q (Part.updMon f)).part q).mon = f (s.part q).mon :=
  congrArg Part.mon (State.part_updPart ..)

/-! The counts (R249). -/

/-- A core whose oldest counts have gone to the monitor. -/
def Core.countSent (x : Core) : Core := { x with jobs := { x.jobs with counts := x.jobs.counts.drop 1 } }

/-- A monitor that has accepted one more set of counts. -/
def Monitor.countTaken (n : MonCount) (m : Monitor) : Monitor := { m with counts := m.counts ++ [n] }

theorem exec_monitorCounts {q : PartId} {s : State} {c : Nat} {n : MonCount} {rest : List MonCount} (run : (s.part q).st = .running)
    (first : (s.part q).phys.find? (fun c => !(s.core c).jobs.counts.isEmpty) = some c) (counts : (s.core c).jobs.counts = n :: rest) :
    exec (.monitorCounts q) s = .next ((s.updCore c Core.countSent).updPart q (Part.updMon (Monitor.countTaken n))) := by
  have oldest : (s.core c).jobs.counts.take 1 = [n] := by rw [counts]; rfl
  refine congrArg Host.Outcome.next ?_
  rw [first]
  refine (if_pos run).trans ?_
  dsimp only
  rw [oldest]
  rfl

/-! A walk's reads (R314) leave the monitor as it is. -/

theorem entryRead_mon (q l va : Nat) (s : State) : ((entryRead q l va s).part q).mon = (s.part q).mon := by
  have chattered (r : Res) (a : Nat) (z : State) : (chatter r a z).part q = z.part q :=
    State.part_of ((State.Accounted.refl z).chatter r a).parts_eq q
  have lasting (r : Res) (a : Nat) : (chatterUe r a s).part q = s.part q :=
    State.part_of ((State.Accounted.refl s).chatterUe r a).parts_eq q
  unfold entryRead
  dsimp only
  split
  · rfl
  · rw [chattered, State.part_updPart]
  · rw [lasting]

theorem walkRead_mon (q va : Nat) (w : Bool) (s : State) : ((walkRead q va w s).1.part q).mon = (s.part q).mon := by
  have fold (ls : List Nat) : ∀ z : State, ((ls.foldl (fun s l => entryRead q l va s) z).part q).mon = (z.part q).mon := by
    induction ls with
    | nil => exact fun _ => rfl
    | cons l ls ih => exact fun z => (ih _).trans (entryRead_mon q l va z)
  exact fold _ s

/-! Requests that set out for a store (R284). -/

theorem submit_bed {r : MemReq} {b off : Nat} (place : locate (64 * r.line) = .bed b off) (s : State) :
    submit r s = s.updBed b fun x => { x with reqs := x.reqs ++ [r] } := by
  unfold submit
  rw [place]

theorem submit_hbm {r : MemReq} (place : locate (64 * r.line) = .hbm) (s : State) :
    submit r s = updReg (hbmDecode (64 * r.line)).stack r.part (fun g => { g with waiting := g.waiting ++ [r] }) s := by
  unfold submit
  rw [place]

theorem updReg_regulator (k q : Nat) (f : Regulator → Regulator) (s : State) :
    SMap.get Regulator.reset q ((updReg k q f s).stack k).regs = f (SMap.get Regulator.reset q (s.stack k).regs) := by
  unfold updReg
  rw [State.stack_updStack, SMap.get_upd]

theorem updReg_stack_ne {i k : Nat} (h : i ≠ k) (q : Nat) (f : Regulator → Regulator) (s : State) :
    (updReg k q f s).stack i = s.stack i := State.stack_updStack_ne s h _

/-! The log writes (R253, R254). -/

/-- A monitor without its oldest log entry. -/
def Monitor.logTaken (m : Monitor) : Monitor := { m with logQ := m.logQ.drop 1 }

/-- A monitor that writes no more after its oldest log entry. -/
def Monitor.logEnded (m : Monitor) : Monitor := { m.logTaken with failed := true }

/-- The write of a whole line by the monitor. -/
def logReq (q line : Nat) (ro : Bool) (bytes : List Byte) (s : State) : MemReq :=
  { mkReq q 0xFFF (s.part q).turn ro line .monitor s with chk := false }.writing bytes (2 ^ 64 - 1) 0

theorem logReq_spec (q line : Nat) (ro : Bool) (bytes : List Byte) (s : State) :
    let r := logReq q line ro bytes s
    r.part = q ∧ r.write = true ∧ r.bytes = bytes ∧ r.mask = 2 ^ 64 - 1 ∧ r.line = line ∧ r.poison = 0 ∧ r.chk = false :=
  ⟨rfl, rfl, rfl, rfl, rfl, rfl, rfl⟩

/-- The oldest log entry leaves the monitor for a line. -/
def sendLog (q line : Nat) (ro : Bool) (bytes : List Byte) (s : State) : State :=
  submit (logReq q line ro bytes s) (s.updPart q (Part.updMon Monitor.logTaken))

theorem logPart_line {q va : Nat} {bytes : List Byte} (place : va % 64 = 0) (len : bytes.length = 64) (e : TlbEntry) (s : State) :
    logPart q va bytes e (s.updPart q (Part.updMon Monitor.logTaken)) = sendLog q (e.at va / 64) e.ro bytes s := by
  have line : padTo 64 (List.replicate 0 0 ++ bytes) = bytes := by
    unfold padTo
    rw [List.replicate_zero, List.nil_append, ← len, List.take_length, Nat.sub_self, List.replicate_zero, List.append_nil]
  unfold logPart sendLog logReq mkReq
  dsimp only
  rw [place, line, len, State.part_updPart]
  rfl

theorem logXlate_of_walk {q va : Nat} {s : State} {x : Xl} (far : inLocal va = false) (walked : walk q va true s = x) :
    logXlate q va s = ((walkRead q va true s).1, x) :=
  (if_neg (by rw [far]; exact Bool.false_ne_true)).trans (Prod.ext rfl walked)

section
variable {q base size : Nat} {bytes : List Byte} {s : State}

theorem logWrite_of_failed (failed : (s.part q).mon.failed = true) :
    logWrite q base size bytes s = s.updPart q (Part.updMon Monitor.logTaken) := if_pos failed

variable (live : (s.part q).mon.failed = false) (place : logAddr base size bytes % 64 = 0) (far : inLocal (logAddr base size bytes) = false)
include live place far

/-- A log entry at a 64-aligned place is one line, and its page one translation. -/
theorem logWrite_of_ok {e : TlbEntry} (len : bytes.length = 64) (walked : walk q (logAddr base size bytes) true s = .ok e) :
    logWrite q base size bytes s =
      sendLog q (e.at (logAddr base size bytes) / 64) e.ro bytes (walkRead q (logAddr base size bytes) true s).1 := by
  unfold logWrite
  dsimp only
  rw [if_neg (by rw [live]; exact Bool.false_ne_true), logXlate_of_walk far walked, place]
  exact (congrArg (logPart q _ · e _) (List.take_of_length_le len.le)).trans (logPart_line place len e _)

theorem logWrite_of_fail {cause l te : Nat} (walked : walk q (logAddr base size bytes) true s = .fail cause l te) :
    let u := (walkRead q (logAddr base size bytes) true s).1
    logWrite q base size bytes s = if cause = xMigrating then u else logFails q base cause u := by
  unfold logWrite
  dsimp only
  rw [if_neg (by rw [live]; exact Bool.false_ne_true), logXlate_of_walk far walked, place]
  rfl

end

theorem exec_numericsLogWrite {q : PartId} {s : State} {base size : Nat} {bytes : List Byte} {rest : List (Nat × Nat × List Byte)}
    (queue : (s.part q).mon.logQ = (base, size, bytes) :: rest) :
    exec (.numericsLogWrite q) s = .next (logWrite q base size bytes s) := by
  refine congrArg Host.Outcome.next ?_
  rw [queue]

/-- A line that carries the oldest log entry in HBM waits at the partition's regulator (R254, R308). -/
theorem sendLog_hbm {q line : Nat} (hbm : locate (64 * line) = .hbm) (ro : Bool) (bytes : List Byte) (u : State) :
    let k := (hbmDecode (64 * line)).stack
    let g := SMap.get Regulator.reset q (u.stack k).regs
    let t := sendLog q line ro bytes u
    (t.part q).mon = (u.part q).mon.logTaken ∧
      SMap.get Regulator.reset q (t.stack k).regs = { g with waiting := g.waiting ++ [logReq q line ro bytes u] } ∧
      (∀ i, i ≠ k → t.stack i = u.stack i) ∧ { t with parts := u.parts, hbms := u.hbms } = u := by
  rw [sendLog, submit_hbm hbm]
  exact ⟨State.mon_updPart .., updReg_regulator .., fun i hi => updReg_stack_ne hi .., rfl⟩

/-- A line that carries the oldest log entry to a bed store is behind what was on its way there (R254, R290). -/
theorem sendLog_bed {q line b off : Nat} (bed : locate (64 * line) = .bed b off) (ro : Bool) (bytes : List Byte) (u : State) :
    let t := sendLog q line ro bytes u
    (t.part q).mon = (u.part q).mon.logTaken ∧ (t.bed b).reqs = (u.bed b).reqs ++ [logReq q line ro bytes u] ∧
      { t with parts := u.parts, beds := u.beds } = u := by
  rw [sendLog, submit_bed bed]
  exact ⟨State.mon_updPart .., congrArg Bed.reqs (State.bed_updBed ..), rfl⟩

/-- The fault-log entry of a log write that fails. -/
def logFailure (q base cause : Nat) (p : Part) : LogEntry :=
  { LogEntry.ofCode 0x0025 .info with part := some q, src := 0x10 + p.masterBed, addr := base, d0 := cause }

/-- A log write that fails ends the logging, with its entry (R254). -/
theorem logFails_spec (q base cause : Nat) (s : State) :
    let t := logFails q base cause s
    (t.part q).mon = (s.part q).mon.logEnded ∧
      (∃ y, SMap.get none s.hs.logNext t.hs.log = some y ∧ y.code = 0x0025 ∧ y.part = some q ∧ y.addr = base ∧ y.d0 = cause) ∧
      { t with parts := s.parts, hs := s.hs } = s := by
  have logged := logEvent_log_part (e := logFailure q base cause (s.part q)) rfl (s.updPart q (Part.updMon Monitor.logEnded))
  exact ⟨State.mon_updPart q Monitor.logEnded s, ⟨_, logged, rfl, rfl, rfl, rfl⟩, rfl⟩

/-- Settles O31: the counts in one step; the log write by what its translation finds, and the store where its line lies. -/
theorem numericsMonitor : Obligations.NumericsMonitor := by
  unfold Obligations.NumericsMonitor
  intro q s p
  refine ⟨fun c n rest run first counts => ⟨_, exec_monitorCounts run first counts, ?_, ?_, fun i hi => ?_, rfl⟩,
    fun base size bytes rest queue => ?_⟩
  · rw [State.core_updPart, State.core_updCore, Core.countSent, counts]
    rfl
  · rw [State.mon_updPart]
    rfl
  · rw [State.core_updPart, State.core_updCore_ne s hi]
  intro va u
  have next := exec_numericsLogWrite queue
  have taken : p.mon.logTaken = { p.mon with logQ := rest } := by rw [Monitor.logTaken, queue]; rfl
  have ended : p.mon.logEnded = { p.mon with logQ := rest, failed := true } := by rw [Monitor.logEnded, taken]
  have kept : (u.part q).mon = p.mon := walkRead_mon q va true s
  refine ⟨fun failed => ?_, fun e live len place far walked => ?_, fun cause l te live place far walked => ?_⟩
  · rw [logWrite_of_failed failed] at next
    exact ⟨_, next, (State.mon_updPart ..).trans taken, rfl⟩
  · intro line entry
    rw [logWrite_of_ok live place far len walked] at next
    have wrote : entry (logReq q line e.ro bytes u) := logReq_spec ..
    refine ⟨fun hbm => ?_, fun b off bed => ?_⟩
    · obtain ⟨mon, sent, others, frame⟩ := sendLog_hbm hbm e.ro bytes u
      rw [kept, taken] at mon
      exact ⟨_, _, next, mon, wrote, sent, others, frame⟩
    · obtain ⟨mon, sent, frame⟩ := sendLog_bed bed e.ro bytes u
      rw [kept, taken] at mon
      exact ⟨_, _, next, mon, wrote, sent, frame⟩
  · rw [logWrite_of_fail live place far walked] at next
    refine ⟨fun migrating => by rwa [if_pos migrating] at next, fun other => ?_⟩
    rw [if_neg other] at next
    obtain ⟨mon, log, frame⟩ := logFails_spec q base cause u
    rw [kept, ended] at mon
    exact ⟨_, next, mon, log, frame⟩

end Sys2Proof.Machine
end

section
/-! PROOF. O32: a move refused at its start (R269), and what the stop of its partition does to the moves that wait behind it (R268). -/

namespace Sys2Proof.Machine

theorem MoveJob.Clean.noted_eq {j : MoveJob} (h : j.Clean) : j.noted = j := by
  obtain ⟨zeroT, zeroP⟩ := h
  cases j
  cases zeroT
  cases zeroP
  rfl

theorem map_noted_of_clean {l : List MoveJob} (h : ∀ j ∈ l, j.Clean) : l.map MoveJob.noted = l :=
  (List.map_congr_left fun j hj => (h j hj).noted_eq).trans (List.map_id l)

theorem foldl_moveNote_cores (l : List MoveJob) (q d unit : Nat) (s : State) :
    (l.foldl (fun s j => moveNote q d unit j s) s).cores = s.cores :=
  List.foldlRecOn (motive := fun z : State => z.cores = s.cores) l _ rfl fun _ h _ _ => (moveNote_cores ..).trans h

theorem flushMfaults_jobs (q c i : Nat) (s : State) : ((flushMfaults q c s).core i).jobs = (s.core i).jobs := by
  unfold flushMfaults
  dsimp only
  generalize logged : List.foldl _ s _ = z
  have cores : z.cores = s.cores := logged ▸
    List.foldlRecOn (motive := fun z : State => z.cores = s.cores) _ _ rfl fun _ h _ _ => h
  by_cases own : i = c
  · rw [own, State.core_updCore, State.core_of cores]
  · rw [State.core_updCore_ne z own, State.core_of cores]

/-- A stop's pass over core c notes the moves of that core's mover. -/
theorem stopUnit_moves (q c i : Nat) (s : State) :
    ((noteMoves q c (flushMfaults q c (s.updCore c Core.dropUnstarted))).core i).jobs.moves =
      if i = c then (s.core i).jobs.moves.map MoveJob.noted else (s.core i).jobs.moves := by
  have flushed : ((flushMfaults q c (s.updCore c Core.dropUnstarted)).core i).jobs.moves = (s.core i).jobs.moves := by
    rw [flushMfaults_jobs]
    by_cases own : i = c
    · rw [own, State.core_updCore]
      rfl
    · rw [State.core_updCore_ne s own]
  unfold noteMoves
  dsimp only
  by_cases own : i = c
  · subst own
    rw [if_pos rfl, State.core_updCore, State.core_of (foldl_moveNote_cores ..), flushed]
  · rw [if_neg own, State.core_updCore_ne _ own, State.core_of (foldl_moveNote_cores ..), flushed]

theorem stopUnits_moves (q i : Nat) (cs : List Nat) (s : State) :
    ((cs.foldl (fun s c => noteMoves q c (flushMfaults q c (s.updCore c Core.dropUnstarted))) s).core i).jobs.moves =
      if i ∈ cs then (s.core i).jobs.moves.map MoveJob.noted else (s.core i).jobs.moves := by
  induction cs generalizing s with
  | nil => rfl
  | cons c cs ih =>
    rw [List.foldl_cons, ih, stopUnit_moves]
    have twice : (MoveJob.noted ∘ MoveJob.noted) = MoveJob.noted := rfl
    by_cases own : i = c
    · simp [own, twice]
    · simp [own]

theorem noteBulks_cores (q : Nat) (ds : List Nat) (s : State) : (ds.foldl (fun s d => noteBulk q d s) s).cores = s.cores :=
  List.foldlRecOn (motive := fun z : State => z.cores = s.cores) ds _ rfl fun _ h _ _ => (foldl_moveNote_cores ..).trans h

theorem stopEnds_cores (q k : Nat) (b : Bool) (s : State) :
    (if b = true then finishStop q s else notifyPart k q (finishStop q s)).cores = s.cores := by
  have finished : (finishStop q s).cores = s.cores := (congrArg State.cores (finishStop_part_frame q s) :)
  split
  · exact finished
  · exact (State.updPort_cores ..).trans finished

theorem logEvent_core (e : LogEntry) (s : State) (i : Nat) : (logEvent e s).core i = s.core i := rfl

/-- What a stop leaves of the moves of a core's mover: all of them, and on a core of the partition each with its entry made. -/
theorem stopWithin_moves {q : Nat} {s : State} (run : (s.part q).st = .running) (st : PartSt) (a o i : Nat) :
    ((stopWithin q st a o s).core i).jobs.moves =
      if i ∈ (s.part q).phys then (s.core i).jobs.moves.map MoveJob.noted else (s.core i).jobs.moves := by
  have units := stopUnits_moves q i (s.part q).phys s
  unfold stopWithin
  rw [if_pos run]
  dsimp only
  generalize (s.part q).phys.foldl _ s = z at units ⊢
  rw [State.core_of (stopEnds_cores ..), ← units, logEvent_core, State.core_updPart, State.core_of (noteBulks_cores ..)]

theorem dropMove_parts (m : MoverRef) (q : Nat) (s : State) : (dropMove m q s).parts = s.parts := by
  have noted (d unit : Nat) (j : MoveJob) (z : State) : (moveNote q d unit j z).parts = z.parts := by
    unfold moveNote
    split <;> rfl
  unfold dropMove
  split
  · rw [noted]
    cases m <;> rfl
  · rfl

theorem dropMove_stopOnly (c : CoreId) (q : Nat) (s : State) : s.StopOnly (dropMove (.core c) q s) := by
  unfold dropMove
  split
  · exact moveNote_stopOnly _ _ _ _ _ (State.updCore_stopOnly (.refl s) _ _)
  · exact .refl s

/-- A core's mover refuses a move: its partition stops, and the moves behind it stay, with their entries made (R269). -/
theorem refuseMove_spec {c : CoreId} {q : Nat} {j : MoveJob} {rest : List MoveJob} {s : State} (moves : (s.core c).jobs.moves = j :: rest)
    (run : (s.part q).st = .running) (noReplay : (s.part q).replay = none) (check : Nat) :
    let t := refuseMove (.core c) q check j s
    StoppedWithin q .faulted 0x02 s t ∧
      (t.core c).jobs.moves = if c.val ∈ (s.part q).phys then rest.map MoveJob.noted else rest := by
  intro t
  obtain ⟨left, -, -⟩ := dropMove_spec (m := .core c) (q := q) moves
  have parts := dropMove_parts (.core c) q s
  have part := State.part_of parts q
  have only := dropMove_stopOnly c q s
  dsimp only [t]
  unfold refuseMove faultPart
  dsimp only
  generalize dropMove (.core c) q s = z at *
  refine ⟨stopWithin_stoppedWithin (by rw [logEvent_part, part, run]) (.inl (by rw [logEvent_part, part, noReplay])) parts
    (logEvent_stopOnly _ _ only), ?_⟩
  rw [stopWithin_moves (by rw [logEvent_part, part, run]), logEvent_part, part]
  exact if_congr .rfl (congrArg (List.map MoveJob.noted) left) left

end Sys2Proof.Machine
end

section
/-! PROOF. O32: the copy of one row from core store to core store, which is done when it starts (R81, R268, R269, log 17). -/

namespace Sys2Proof.Machine

/-! Addresses of a descriptor's first row (R265, R268). -/

theorem wf64_lt (w : Word) (hi lo : Nat) : wf64 w hi lo < 2 ^ (hi + 1 - lo) := Nat.mod_lt _ (Nat.two_pow_pos _)

theorem toNat_wordOfInt {n : Nat} (h : n < 2 ^ 64) : (wordOfInt n).toNat = n := by
  unfold wordOfInt
  rw [BitVec.ofInt_natCast, BitVec.toNat_ofNat, Nat.mod_eq_of_lt h]

namespace MoveDesc

variable {d : MoveDesc} {pos : Nat}

theorem firstRow (a : Nat) (ha : a < 2 ^ 48) (stride : Int) (row : pos < d.rlen) :
    (wordOfInt (a + (pos / d.rlen : Nat) * stride + (pos % d.rlen : Nat))).toNat = a + pos := by
  have len : d.rlen < 2 ^ 23 := wf64_lt ..
  rw [Nat.div_eq_of_lt row, Nat.mod_eq_of_lt row, Nat.cast_zero, zero_mul, add_zero, ← Nat.cast_add]
  exact toNat_wordOfInt (by omega)

theorem srcAt_firstRow (row : pos < d.rlen) : d.srcAt pos = d.src + pos := firstRow d.src (wf64_lt ..) d.sstride row
theorem dstAt_firstRow (row : pos < d.rlen) : d.dstAt pos = d.dst + pos := firstRow d.dst (wf64_lt ..) d.dstride row

end MoveDesc

/-! What check 2 and check 5 of R269 say of a copy between two core stores: a row of whole words, from and to whole words. -/

theorem moveFieldsOk_rlen {d : MoveDesc} (ok : moveFieldsOk d = true) : 1 ≤ d.rlen := by
  simp only [moveFieldsOk, Bool.and_eq_true, decide_eq_true_eq] at ok
  omega

theorem moveSideOk_aligned {addr rlen : Nat} {stride : Int} {range : Option (Int × Nat)} (ok : moveSideOk addr stride rlen range = true) :
    addr % 8 = 0 ∧ rlen % 8 = 0 := by
  simp only [moveSideOk, aligned, Bool.and_eq_true, beq_iff_eq] at ok
  obtain ⟨⟨⟨addr8, rlen8⟩, -⟩, -⟩ := ok
  exact ⟨addr8, rlen8⟩

theorem check_passes {p : Prop} [Decidable p] {n : Nat} {later : Option Nat} (h : (if p then some n else later) = none) :
    ¬p ∧ later = none := by
  split at h
  · cases h
  · exact ⟨‹_›, h⟩

theorem moveCheck_none {m : MoverRef} {p : Part} {x : Core} {h : Nat} (passes : moveCheck m p x h = none) :
    let d : MoveDesc := ⟨x.words h 8⟩
    moveFieldsOk d = true ∧ (d.srcl = true → moveSideOk d.src d.sstride d.rlen d.srcRange = true) ∧
      (d.dstl = true → moveSideOk d.dst d.dstride d.rlen d.dstRange = true) := by
  obtain ⟨-, passes⟩ := check_passes passes
  obtain ⟨fields, passes⟩ := check_passes passes
  obtain ⟨-, passes⟩ := check_passes passes
  obtain ⟨-, passes⟩ := check_passes passes
  obtain ⟨sides, -⟩ := check_passes passes
  simpa using And.intro fields sides

/-! The words carried. -/

theorem readWord_clean {c : Nat} {s : State} (clean : (s.core c).storeErr = []) (w : Nat) : readWord c w s = (s, (s.core c).word w) := by
  have read : touch c w .read s = s := touchAll_clean clean [w] .read
  unfold readWord
  rw [read]

/-- A copy between two core stores writes the destination's words of its row and no others. -/
theorem copyWords_spec {a r : Nat} (apart : a ≠ r) (d : MoveDesc) {n pos sw dw z : Nat} {s : State} (clean : (s.core a).storeErr = [])
    (src : ∀ i, i < n → d.srcAt (pos + 8 * i) / 8 = sw + i) (dst : ∀ i, i < n → d.dstAt (pos + 8 * i) / 8 = dw + i) :
    let t := (copyWords a r d n pos (s, z)).1
    OnlyCore r s t ∧ (s.core r).StoreOnly (t.core r) ∧ (∀ i, i < n → (t.core r).word (dw + i) = carried ((s.core a).word (sw + i))) ∧
      ∀ w, w < dw ∨ dw + n ≤ w → (t.core r).word w = (s.core r).word w := by
  induction n generalizing pos sw dw z s with
  | zero => exact ⟨onlyCore_refl r s, .refl _, fun _ hi => absurd hi (Nat.not_lt_zero _), fun _ _ => rfl⟩
  | succ n ih =>
    intro t
    let v := carried ((s.core a).word sw)
    have next : t = (copyWords a r d n (pos + 8) (s.updCore r (putWord dw v),
        z + b2n (((s.core a).word sw).tag = 7 ∨ ((s.core a).word sw).tag = 8))).1 := by
      have src0 : d.srcAt pos / 8 = sw := src 0 (Nat.succ_pos n)
      have dst0 : d.dstAt pos / 8 = dw := dst 0 (Nat.succ_pos n)
      dsimp only [t]
      rw [copyWords, readWord_clean clean, src0, dst0]
    have source := State.core_updCore_ne s apart (putWord dw v)
    have target := State.core_updCore s r (putWord dw v)
    have later (i : Nat) : pos + 8 + 8 * i = pos + 8 * (i + 1) := by omega
    obtain ⟨only, kept, carries, frame⟩ := ih (s := s.updCore r (putWord dw v)) (pos := pos + 8) (sw := sw + 1) (dw := dw + 1)
      (z := z + b2n (((s.core a).word sw).tag = 7 ∨ ((s.core a).word sw).tag = 8)) (source ▸ clean)
      (fun i hi => by rw [later, src (i + 1) (Nat.succ_lt_succ hi)]; omega)
      (fun i hi => by rw [later, dst (i + 1) (Nat.succ_lt_succ hi)]; omega)
    rw [← next] at only kept carries frame
    rw [target] at kept frame
    rw [source] at carries
    obtain ⟨-, others⟩ := putWord_spec dw v (s.core r)
    refine ⟨onlyCore_trans (onlyCore_updCore (onlyCore_refl r s) _) only, .trans (.putWord ..) kept, fun i hi => ?_, fun w hw => ?_⟩
    · cases i with
      | zero => exact (frame dw (by omega)).trans (SMap.get_set ..)
      | succ i =>
        have carry := carries i (by omega)
        rwa [Nat.add_right_comm dw, Nat.add_right_comm sw] at carry
    · obtain ⟨same, -⟩ := others w (by omega)
      exact (frame w (by omega)).trans same

/-! The move in hand changed: nothing of the cores but its mover's moves. -/

theorem movesOf_updHead {m : MoverRef} {q : Nat} {s : State} {j : MoveJob} {rest : List MoveJob} (moves : movesOf m q s = j :: rest)
    (f : MoveJob → MoveJob) : movesOf m q (updHead m q f s) = f j :: rest := by
  rw [updHead, movesOf_updMoves, moves]
  rfl

theorem updHead_core (m : MoverRef) (q : Nat) (f : MoveJob → MoveJob) (s : State) (i : Nat) :
    { (updHead m q f s).core i with jobs := (s.core i).jobs } = s.core i := updMoves_core ..

theorem updHead_frame (c : CoreId) (q : Nat) (f : MoveJob → MoveJob) (s : State) (l : SMap Core) :
    { updHead (.core c) q f s with cores := l } = { s with cores := l } := rfl

theorem updHead_store (m : MoverRef) (q : Nat) (f : MoveJob → MoveJob) (s : State) (i : Nat) :
    ((updHead m q f s).core i).store = (s.core i).store := (congrArg Core.store (updHead_core m q f s i) :)

theorem updHead_word (m : MoverRef) (q : Nat) (f : MoveJob → MoveJob) (s : State) (i w : Nat) :
    ((updHead m q f s).core i).word w = (s.core i).word w := by
  unfold Core.word
  rw [updHead_store]

/-! The copy as the step of a core's mover. -/

/-- A descriptor of partition p's that copies one row of whole words from core a to core r. -/
structure CopiesRow (p : Part) (d : MoveDesc) (a r : Nat) : Prop where
  kind : d.kind = 0
  srcl : d.srcl = true
  dstl : d.dstl = true
  nrows : d.nrows = 1
  source : p.physOf d.srcCore = some a
  target : p.physOf d.dstCore = some r
  apart : a ≠ r
  rlen_pos : 0 < d.rlen
  rlen : d.rlen % 8 = 0
  src : d.src % 8 = 0
  dst : d.dst % 8 = 0

namespace CopiesRow

variable {p : Part} {d : MoveDesc} {a r : Nat}

theorem rowLeft (_ : CopiesRow p d a r) : d.rowLeft 0 = d.rlen := by rw [MoveDesc.rowLeft, Nat.zero_mod, Nat.sub_zero]

theorem total (h : CopiesRow p d a r) : d.total = d.rlen := by rw [MoveDesc.total, h.nrows, Nat.one_mul]

/-- Where the words of the row stand. -/
theorem words (h : CopiesRow p d a r) {i : Nat} (hi : i < d.rlen / 8) :
    d.srcAt (0 + 8 * i) / 8 = d.src / 8 + i ∧ d.dstAt (0 + 8 * i) / 8 = d.dst / 8 + i := by
  have src := h.src
  have dst := h.dst
  rw [MoveDesc.srcAt_firstRow (by omega), MoveDesc.dstAt_firstRow (by omega)]
  omega

end CopiesRow

/-- What the mover of core c has copied of the row from core a to core r, with the count of the words zeroed for their tag. -/
def copyRow (c : CoreId) (q a r : Nat) (d : MoveDesc) (s : State) : State :=
  updHead (.core c) q (fun j => { j with zeroT := j.zeroT + (copyWords a r d (d.rlen / 8) 0 (s, 0)).2 })
    (copyWords a r d (d.rlen / 8) 0 (s, 0)).1

theorem movePiece_copy {c : CoreId} {q a r : Nat} {d : MoveDesc} {s : State} (copy : CopiesRow (s.part q) d a r) :
    movePiece (.core c) q d 0 s = (pieceDone (.core c) q d.rlen (copyRow c q a r d s), true) := by
  unfold movePiece
  dsimp only
  rw [if_neg (by rw [copy.kind]; decide), copy.source, copy.srcl, copy.dstl, copy.target, copy.rowLeft]
  rfl

/-- A move that has started and has nothing under way begins its next piece. -/
theorem moveStep_idle {c : CoreId} {q : Nat} {s : State} {j : MoveJob} {rest : List MoveJob} (moves : (s.core c).jobs.moves = j :: rest)
    (runs : moverRuns (.core c) q s = true) (started : j.started = true) (phase : j.phase = .idle) (stall : j.stall = none)
    (goes : j.pos < (⟨j.desc⟩ : MoveDesc).total) (kind : (⟨j.desc⟩ : MoveDesc).kind ≠ 1) (hostOk : Bool) (env : Env) :
    moveStep (.core c) q hostOk env s = movePiece (.core c) q ⟨j.desc⟩ j.pos s := by
  have now : movesOf (.core c) q s = j :: rest := moves
  unfold moveStep
  rw [now]
  simp [runs, started, phase, stall, goes, kind, serves, servedNow]

/-- The module once a row is copied (R81, R268). -/
theorem pieceDone_copyRow {c : CoreId} {q a r : Nat} {d : MoveDesc} {s : State} {j : MoveJob} {rest : List MoveJob}
    (moves : (s.core c).jobs.moves = j :: rest) (copy : CopiesRow (s.part q) d a r) (clean : (s.core a).storeErr = []) :
    let t := pieceDone (.core c) q d.rlen (copyRow c q a r d s)
    (∀ i, i < d.rlen / 8 → (t.core r).word (d.dst / 8 + i) = carried ((s.core a).word (d.src / 8 + i))) ∧
      (∀ w, w < d.dst / 8 ∨ d.dst / 8 + d.rlen / 8 ≤ w → (t.core r).word w = (s.core r).word w) ∧
      (∀ i, i ≠ r → (t.core i).store = (s.core i).store) ∧ { t with cores := s.cores } = s ∧
      ∃ k, (t.core c).jobs.moves = k :: rest ∧ k.started = j.started ∧ k.desc = j.desc ∧ k.pos = j.pos + d.rlen ∧ k.phase = .idle := by
  intro t
  obtain ⟨⟨others, same⟩, only, carries, frame⟩ := copyWords_spec copy.apart d (z := 0) clean (fun i hi => (copy.words hi).1)
    (fun i hi => (copy.words hi).2)
  dsimp only [t, pieceDone]
  unfold copyRow
  generalize copyWords a r d (d.rlen / 8) 0 (s, 0) = u at *
  have jobs (i : Nat) : (u.1.core i).jobs = (s.core i).jobs := by
    by_cases own : i = r
    · rw [own]
      exact only.jobs
    · rw [others i own]
  refine ⟨fun i hi => ?_, fun w hw => ?_, fun i hi => ?_, (updHead_frame ..).trans ((updHead_frame ..).trans same), ?_⟩
  · rw [updHead_word, updHead_word, carries i hi]
  · rw [updHead_word, updHead_word, frame w hw]
  · rw [updHead_store, updHead_store, others i hi]
  · have now : movesOf (.core c) q u.1 = j :: rest := (congrArg Jobs.moves (jobs c)).trans moves
    exact ⟨_, movesOf_updHead (movesOf_updHead now _) _, rfl, rfl, rfl, rfl⟩

/-- A copy of one row is done in one step, after which its mover can do no more for it. -/
theorem moveOn_copy {c : CoreId} {q a r : Nat} {s : State} {j : MoveJob} {rest : List MoveJob} (moves : (s.core c).jobs.moves = j :: rest)
    (runs : moverRuns (.core c) q s = true) (started : j.started = true) (phase : j.phase = .idle) (stall : j.stall = none)
    (first : j.pos = 0) (copy : CopiesRow (s.part q) ⟨j.desc⟩ a r) (clean : (s.core a).storeErr = []) (hostOk : Bool) (env : Env) :
    moveOn (.core c) q hostOk env s = pieceDone (.core c) q (⟨j.desc⟩ : MoveDesc).rlen (copyRow c q a r ⟨j.desc⟩ s) := by
  have step := moveStep_idle moves runs started phase stall (by rw [first, copy.total]; exact copy.rlen_pos)
    (by rw [copy.kind]; decide) hostOk env
  rw [first, movePiece_copy copy] at step
  obtain ⟨-, -, -, -, k, left, -, desc, pos, idle⟩ := pieceDone_copyRow moves copy clean
  have fuel : moveFuel (.core c) q s = 4 * (⟨j.desc⟩ : MoveDesc).total + 3 + 1 := by
    have now : movesOf (.core c) q s = j :: rest := moves
    unfold moveFuel
    rw [now]
  unfold moveOn
  dsimp only
  rw [fuel, moveRun, step]
  exact moveRun_of_total (m := .core c) left idle (by rw [desc, pos, first, copy.total, Nat.zero_add]) hostOk env _

/-! MOVE_START of a core's oldest move, which has not started (R269). -/

/-- A move as it starts: with the words of its descriptor (R269). -/
def MoveJob.start (x : Core) (j : MoveJob) : MoveJob := { j with started := true, desc := x.words j.handle 8 }

section

variable {c : CoreId} {q : PartId} {env : Env} {j : MoveJob} {rest : List MoveJob} {s₀ s : State}
  (hs : s = applyUpsets env.upsets s₀) (moves : (s.core c).jobs.moves = j :: rest) (mine : (s.core c).part = some q.val)
  (run : (s.part q).st = .running) (waits : j.started = false)

include hs moves mine run waits

theorem exec_moveStart_core : exec (.moveStart (.core c) q env) s₀ = .next (startMove (.core c) q j s) := by
  subst hs
  refine congrArg Host.Outcome.next ?_
  have now : movesOf (.core c) q (applyUpsets env.upsets s₀) = j :: rest := moves
  rw [now]
  exact if_pos (by simp [moverRuns, noFault, run, mine, waits])

variable (clean : (s.core j.core).storeErr = [])

include clean

theorem exec_moveStart_refused {n : Nat} (fails : moveCheck (.core c) (s.part q) (s.core j.core) j.handle = some n) :
    exec (.moveStart (.core c) q env) s₀ = .next (refuseMove (.core c) q n j s) := by
  rw [exec_moveStart_core hs moves mine run waits]
  unfold startMove
  rw [touchRun_clean clean]
  dsimp only
  rw [fails]

theorem exec_moveStart_passes (passes : moveCheck (.core c) (s.part q) (s.core j.core) j.handle = none) :
    exec (.moveStart (.core c) q env) s₀ =
      .next (moveOn (.core c) q false Env.quiet (updHead (.core c) q (MoveJob.start (s.core j.core)) s)) := by
  rw [exec_moveStart_core hs moves mine run waits]
  unfold startMove
  rw [touchRun_clean clean]
  dsimp only
  rw [passes]
  rfl

/-- The first clause of O32, where no move behind the refused one has counted a zeroed word. -/
theorem moveStart_refuses {n : Nat} (fails : moveCheck (.core c) (s.part q) (s.core j.core) j.handle = some n)
    (noReplay : (s.part q).replay = none) (later : ∀ k ∈ rest, k.Clean) :
    ∃ t, exec (.moveStart (.core c) q env) s₀ = .next t ∧ StoppedWithin q .faulted 0x02 s t ∧ (t.core c).jobs.moves = rest := by
  obtain ⟨stops, left⟩ := refuseMove_spec moves run noReplay n
  exact ⟨_, exec_moveStart_refused hs moves mine run waits clean fails, stops, by rw [left, map_noted_of_clean later, ite_self]⟩

/-- The second clause of O32. -/
theorem moveStart_copies {a r : Nat} :
    let d : MoveDesc := ⟨(s.core j.core).words j.handle 8⟩
    moveCheck (.core c) (s.part q) (s.core j.core) j.handle = none → d.kind = 0 → d.srcl = true → d.dstl = true → d.nrows = 1 →
    (s.part q).physOf d.srcCore = some a → (s.part q).physOf d.dstCore = some r → a ≠ r → (s.core a).storeErr = [] →
    j.pos = 0 → j.phase = .idle → j.stall = none →
    ∃ t, exec (.moveStart (.core c) q env) s₀ = .next t ∧
      (∀ i, i < d.rlen / 8 → (t.core r).word (d.dst / 8 + i) = carried ((s.core a).word (d.src / 8 + i))) ∧
      (∀ w, w < d.dst / 8 ∨ d.dst / 8 + d.rlen / 8 ≤ w → (t.core r).word w = (s.core r).word w) ∧
      (t.core a).store = (s.core a).store ∧ t.parts = s.parts ∧ t.hbm = s.hbm ∧ t.beds = s.beds ∧
      (∃ k, (t.core c).jobs.moves = k :: rest ∧ k.started = true ∧ k.pos = d.rlen ∧ k.phase = .idle) := by
  intro d passes kind srcl dstl nrows source target apart clean' first phase stall
  obtain ⟨fields, srcOk, dstOk⟩ := moveCheck_none passes
  obtain ⟨src, rlen⟩ := moveSideOk_aligned (srcOk srcl)
  obtain ⟨dst, -⟩ := moveSideOk_aligned (dstOk dstl)
  have copy : CopiesRow (s.part q) d a r :=
    ⟨kind, srcl, dstl, nrows, source, target, apart, moveFieldsOk_rlen fields, rlen, src, dst⟩
  have next := exec_moveStart_passes hs moves mine run waits clean passes
  let u := updHead (.core c) q (MoveJob.start (s.core j.core)) s
  have umoves : (u.core c).jobs.moves = j.start (s.core j.core) :: rest := movesOf_updHead (m := .core c) (q := q) moves _
  have uclean : (u.core a).storeErr = [] := (congrArg Core.storeErr (updHead_core ..) :).trans clean'
  have uruns : moverRuns (.core c) q u = true := by
    have umine : (u.core c).part = some q.val := (congrArg Core.part (updHead_core ..) :).trans mine
    have urun : (u.part q).st = .running := run
    simp [moverRuns, urun, umine]
  have ucopy : CopiesRow (u.part q) d a r := copy
  rw [moveOn_copy umoves uruns rfl phase stall first ucopy uclean] at next
  obtain ⟨carries, frame, stores, others, k, left, started, -, pos, idle⟩ := pieceDone_copyRow umoves ucopy uclean
  refine ⟨_, next, fun i hi => ?_, fun w hw => ?_, ?_, (congrArg State.parts others :), (congrArg State.hbm others :),
    (congrArg State.beds others :), k, left, started, ?_, idle⟩
  · exact (carries i hi).trans (congrArg carried (updHead_word ..))
  · exact (frame w hw).trans (updHead_word ..)
  · exact (stores a apart).trans (updHead_store ..)
  · rw [pos, show (j.start (s.core j.core)).pos = 0 from first, Nat.zero_add]

end

/-- A first move with an empty descriptor, which fails check 2 of R269, and behind it one that has counted a zeroed word before its
start. -/
def countedEarly : List MoveJob := [.given 0 0 0 0 0 [] [], { MoveJob.given 0 0 0 0 0 [] [] with zeroT := 1 }]

/-- Core 0 of partition 0, RUNNING, with these moves. -/
def countedEarlyState : State :=
  { State.reset with
    cores := [(0, { Core.reset with part := some 0, jobs := { Jobs.reset with moves := countedEarly } })]
    parts := [(0, { Part.reset with st := .running, place := [(0, 0)] })] }

/-- Refutes O32: the stop of the partition makes the entries of all moves of its cores and with that takes their counts (R268), so
the moves behind the refused one stay as they are only where they have counted nothing. In `countedEarlyState` the second one has a
count. No move counts before its start, so the state is not one that a run reaches, but the statement does not exclude it; for moves
without a count `moveStart_refuses` proves its first clause, and `moveStart_copies` proves the second in full. -/
theorem not_moveStart : ¬ Obligations.MoveStart := by
  unfold Obligations.MoveStart
  intro h
  obtain ⟨refused, -⟩ := h 0 0 Env.quiet _ _ countedEarlyState rfl rfl rfl rfl rfl
  obtain ⟨t, next, -, kept⟩ := refused 2 (by decide) rfl
  rw [exec_moveStart_refused (n := 2) rfl rfl rfl rfl rfl rfl (by decide)] at next
  cases next
  obtain ⟨-, noted⟩ := refuseMove_spec (c := 0) (q := 0) (s := countedEarlyState) rfl rfl rfl 2
  exact absurd (noted.symm.trans kept) (by decide)

end Sys2Proof.Machine
end

section
/-! SUPPORT. HBM stacks (R292 to R308): a change of one stack, and reads and writes of lines at sites without errors (R297, R298). -/

namespace Sys2Proof.Machine

/-- Of the module nothing changes but stack k. -/
def OnlyStack (k : Nat) (s t : State) : Prop := (∀ i, i ≠ k → t.stack i = s.stack i) ∧ { t with hbms := s.hbms } = s

theorem onlyStack_updStack (k : Nat) (f : Stack → Stack) (s : State) : OnlyStack k s (s.updStack k f) :=
  ⟨fun _ hi => State.stack_updStack_ne s hi f, rfl⟩

theorem OnlyStack.refl (k : Nat) (s : State) : OnlyStack k s s := ⟨fun _ _ => rfl, rfl⟩

theorem OnlyStack.trans {k : Nat} {s t u : State} (h : OnlyStack k s t) (h' : OnlyStack k t u) : OnlyStack k s u :=
  ⟨fun i hi => (h'.1 i hi).trans (h.1 i hi), by rw [← h.2, ← h'.2]⟩

/-- A change of one stack that keeps a field of it keeps that field of every stack. -/
theorem stack_updStack_field {α : Type} (g : Stack → α) (k : Nat) (f : Stack → Stack) (s : State) (j : Nat)
    (kept : ∀ x, g (f x) = g x := by intro; rfl) : g ((s.updStack k f).stack j) = g (s.stack j) := by
  by_cases e : j = k
  · rw [e, State.stack_updStack, kept]
  · rw [State.stack_updStack_ne s e]

/-! The two kinds of site, user rows and spare rows (R302). -/

theorem siteRead_user (pa : Nat) (s : State) :
    siteRead (.user pa) s = ⟨s.hbm.read pa 64, (List.range 16).map fun i => SMap.get 0 (pa + 4 * i) s.hbmErr⟩ := rfl

theorem siteRead_spare (k n col : Nat) (s : State) : siteRead (.spare k n col) s =
    rawRead (s.stack k).spare (s.stack k).spareErr (n * 1024 + col) (n * 256 + col / 4) 16 := rfl

theorem siteWrite_spare (k n col : Nat) (l : RawLine) (s : State) : siteWrite (.spare k n col) l s = s.updStack k fun x =>
    { x with spare := x.spare.write (n * 1024 + col) l.bytes, spareErr := rawErrs x.spareErr (n * 256 + col / 4) l.errs } := rfl

/-! Sites without errors. -/

/-- The memory in which a site lies holds no error. -/
def HSite.Clean (s : State) : HSite → Prop
  | .user _ => s.hbmErr = []
  | .spare k _ _ => (s.stack k).spareErr = []

theorem HSite.clean_of {s : State} (user : s.hbmErr = []) (spare : ∀ j, (s.stack j).spareErr = []) (h : HSite) : h.Clean s := by
  cases h with
  | user pa => exact user
  | spare k n col => exact spare k

theorem siteRead_errs {h : HSite} {s : State} (clean : h.Clean s) : (siteRead h s).errs = List.replicate 16 0 := by
  cases h with
  | user pa =>
    rw [siteRead_user, show s.hbmErr = [] from clean]
    rfl
  | spare k n col =>
    rw [siteRead_spare, show (s.stack k).spareErr = [] from clean, rawRead_clean]

theorem length_siteRead (h : HSite) (s : State) : (siteRead h s).bytes.length = 64 := by
  cases h <;> exact Mem.length_read ..

/-- A line without errors is read as it stands, and nothing changes (R297). -/
theorem hbmRead_clean {pa : Nat} {s : State} (clean : (hbmSite pa s).Clean s) :
    hbmRead pa s = (s, ⟨(siteRead (hbmSite pa s) s).bytes, 0⟩) := by
  unfold hbmRead
  dsimp only
  rw [siteRead_errs clean]
  rfl

/-- A line without errors takes the bytes of the mask, where no row copy mirrors the write (R298, R303). -/
theorem hbmWrite_clean {pa : Nat} {s : State} (clean : (hbmSite pa s).Clean s) (alone : mirrorOf pa s = none) (bytes : List Byte)
    (mask : Nat) : hbmWrite pa bytes mask 0 s =
      siteWrite (hbmSite pa s) ⟨maskBytes mask (siteRead (hbmSite pa s) s).bytes bytes, List.replicate 16 0⟩ s := by
  have errs := siteRead_errs clean
  unfold hbmWrite
  dsimp only
  rw [alone]
  generalize siteRead (hbmSite pa s) s = l at errs ⊢
  obtain ⟨b, e⟩ := l
  obtain rfl : e = List.replicate 16 0 := errs
  dsimp only
  rw [rawWrite_clean]
  rfl

/-- Bytes written where no error is leave none behind. -/
theorem siteWrite_user_clean {s : State} (clean : s.hbmErr = []) (pa : Nat) (bs : List Byte) :
    siteWrite (.user pa) ⟨bs, List.replicate 16 0⟩ s = { s with hbm := s.hbm.write pa bs } := by
  have none : (List.replicate 16 0).zipIdx.foldl (fun m e => SMap.set 0 (pa + 4 * e.2) e.1 m) s.hbmErr = s.hbmErr := by
    rw [clean]
    rfl
  exact congrArg (fun e => { s with hbm := s.hbm.write pa bs, hbmErr := e }) none

/-- A line written at a site reads back. -/
theorem siteRead_siteWrite (h : HSite) {l : RawLine} (whole : l.bytes.length = 64) (s : State) {n : Nat} (hn : n < 64) :
    (siteRead h (siteWrite h l s)).bytes.getD n 0 = l.bytes.getD n 0 := by
  have back (m : Mem) (a : Nat) : ((m.write a l.bytes).read a 64).getD n 0 = l.bytes.getD n 0 := by
    rw [Mem.getD_read _ _ hn, Mem.byte_write_eq, if_pos (by omega), Nat.add_sub_cancel_left]
  cases h with
  | user pa => exact back ..
  | spare k m col =>
    rw [siteRead_spare, siteWrite_spare, State.stack_updStack]
    exact back ..

/-- A line written at a user site changes its 64 bytes of the memory and nothing else of it, and no spare row. -/
theorem siteWrite_user_frame (pa : Nat) {l : RawLine} (whole : l.bytes.length = 64) (s : State) :
    (∀ a, a < pa ∨ pa + 64 ≤ a → (siteWrite (.user pa) l s).hbm.byte a = s.hbm.byte a) ∧
    (∀ j, (siteWrite (.user pa) l s).stack j = s.stack j) :=
  ⟨fun a out => Mem.byte_write_ne _ _ _ (by omega), fun _ => rfl⟩

/-- A line written in a spare row changes its 64 bytes of that stack's spare rows and nothing else of them. -/
theorem siteWrite_spare_frame (k m col : Nat) {l : RawLine} (whole : l.bytes.length = 64) (s : State) :
    (∀ a, a < m * 1024 + col ∨ m * 1024 + col + 64 ≤ a →
      ((siteWrite (.spare k m col) l s).stack k).spare.byte a = (s.stack k).spare.byte a) ∧
    OnlyStack k s (siteWrite (.spare k m col) l s) := by
  refine ⟨fun a out => ?_, onlyStack_updStack ..⟩
  rw [siteWrite_spare, State.stack_updStack]
  exact Mem.byte_write_ne _ _ _ (by omega)

/-- A line written keeps the queues of every stack. -/
theorem siteWrite_queues (h : HSite) (l : RawLine) (s : State) (j : Nat) : ((siteWrite h l s).stack j).queues = (s.stack j).queues := by
  cases h with
  | user pa => rfl
  | spare k m col =>
    rw [siteWrite_spare]
    exact stack_updStack_field Stack.queues k _ s j

/-! Which site serves a line depends on the remap tables alone. -/

/-- A line is mirrored where its row is being copied (R303). -/
theorem mirrorOf_eq_none {pa : Nat} {s : State} : mirrorOf pa s = none ↔
    ∀ c, (s.stack (hbmDecode pa).stack).copy = some c → c.row ≠ (hbmDecode pa).row := by
  unfold mirrorOf
  dsimp only
  cases (s.stack (hbmDecode pa).stack).copy <;> simp

/-- What a row copy copies, and to where. -/
def RowCopy.ends (c : RowCopy) : HRow × Nat := (c.row, c.spare)

/-- The lines of HBM, the sites that serve them and the sites that mirror them are as they were: what the queues hold, and how far
the row copies are, may differ. -/
structure State.SitesKept (s t : State) : Prop where
  hbm : t.hbm = s.hbm
  hbmErr : t.hbmErr = s.hbmErr
  stack : ∀ j, { t.stack j with queues := (s.stack j).queues, copy := (s.stack j).copy } = s.stack j
  copy : ∀ j, (t.stack j).copy.map RowCopy.ends = (s.stack j).copy.map RowCopy.ends

namespace State.SitesKept

variable {s t u : State}

theorem trans (h : s.SitesKept t) (k : t.SitesKept u) : s.SitesKept u := by
  refine ⟨k.hbm.trans h.hbm, k.hbmErr.trans h.hbmErr, fun j => ?_, fun j => (k.copy j).trans (h.copy j)⟩
  rw [← h.stack j, ← k.stack j]

/-- A change of the queues of one stack and of how far its row copy is. -/
theorem updStack (k : Nat) (f : Stack → Stack) (s : State)
    (copies : ∀ x, (f x).copy.map RowCopy.ends = x.copy.map RowCopy.ends := by intro; rfl)
    (kept : ∀ x, { f x with queues := x.queues, copy := x.copy } = x := by intro; rfl) : s.SitesKept (s.updStack k f) := by
  refine ⟨rfl, rfl, fun j => ?_, fun j => ?_⟩
  · by_cases e : j = k
    · rw [e, State.stack_updStack, kept]
    · rw [State.stack_updStack_ne s e]
  · exact stack_updStack_field (fun x => x.copy.map RowCopy.ends) k f s j copies

theorem hbmSite (h : s.SitesKept t) (pa : Nat) : hbmSite pa t = hbmSite pa s := by
  have spares (x y : Stack) (same : { y with queues := x.queues, copy := x.copy } = x) (r : HRow) : spareOf y r = spareOf x r := by
    rw [← same]
    rfl
  unfold Machine.hbmSite
  dsimp only
  rw [spares _ _ (h.stack _)]

theorem spare (h : s.SitesKept t) (j : Nat) : (t.stack j).spare = (s.stack j).spare := (congrArg Stack.spare (h.stack j) :)
theorem spareErr (h : s.SitesKept t) (j : Nat) : (t.stack j).spareErr = (s.stack j).spareErr :=
  (congrArg Stack.spareErr (h.stack j) :)

theorem siteRead (h : s.SitesKept t) (x : HSite) : siteRead x t = siteRead x s := by
  cases x with
  | user pa => rw [siteRead_user, siteRead_user, h.hbm, h.hbmErr]
  | spare k n col => rw [siteRead_spare, siteRead_spare, h.spare, h.spareErr]

theorem clean (h : s.SitesKept t) {x : HSite} (c : x.Clean s) : x.Clean t := by
  cases x with
  | user pa => exact h.hbmErr.trans c
  | spare k n col => exact (h.spareErr k).trans c

theorem mirrorOf (h : s.SitesKept t) {pa : Nat} (alone : mirrorOf pa s = none) : mirrorOf pa t = none := by
  refine mirrorOf_eq_none.2 fun d copies => ?_
  have ends := h.copy (hbmDecode pa).stack
  rw [copies] at ends
  obtain ⟨c, old, same⟩ := Option.map_eq_some_iff.1 ends.symm
  have row : c.row = d.row := congrArg Prod.fst same
  exact row ▸ mirrorOf_eq_none.1 alone c old

theorem countServed (k pc : Nat) (s : State) : s.SitesKept (countServed k pc s) := by
  unfold Machine.countServed
  refine updStack k _ s fun x => ?_
  rw [Option.map_map]
  congr 1
  funext c
  dsimp only [Function.comp_apply]
  split <;> rfl

/-- New queues of a stack. -/
theorem queues (k : Nat) (f : Stack → SMap (List QEntry)) (s : State) :
    s.SitesKept (s.updStack k fun x => { x with queues := f x }) := updStack k _ s

theorem passOver (k pc n : Nat) (s : State) : s.SitesKept (passOver k pc n s) := queues k _ s

end State.SitesKept

end Sys2Proof.Machine
end

section
/-! PROOF. O38: the regulator, the reorder queue and the service of a stack, its patrol scrub, its temperature (R294 to R299, R306 to
R308). -/

namespace Sys2Proof.Machine

/-! The regulator (R308). -/

/-- A regulator whose oldest transaction has taken a token, with the others left. -/
def Regulator.released (rest : List MemReq) (g : Regulator) : Regulator :=
  { g with tokens := g.tokens - 2048, lines := (g.lines + 1) % 2 ^ 38, waiting := rest }

/-- A stack that a transaction is on its way into. -/
def Stack.meets (r : MemReq) (x : Stack) : Stack := { x with entering := x.entering ++ [r] }

theorem exec_regulatorRelease {k : StackId} {q : PartId} {s : State} {r : MemReq} {rest : List MemReq}
    (waits : (SMap.get Regulator.reset q (s.stack k).regs).waiting = r :: rest) :
    exec (.regulatorRelease k q) s = .next (if 2048 ≤ (SMap.get Regulator.reset q (s.stack k).regs).tokens then
      (updReg k q (Regulator.released rest) s).updStack k (Stack.meets r) else s) := by
  change execRegulatorRelease k q s = _
  unfold execRegulatorRelease
  dsimp only
  rw [waits]
  rfl

/-- Of the module the release changes the stack alone, of which the regulator and what is about to enter. -/
theorem released_spec (k q : Nat) (rest : List MemReq) (r : MemReq) (s : State) :
    let t := (updReg k q (Regulator.released rest) s).updStack k (Stack.meets r)
    (t.stack k).entering = (s.stack k).entering ++ [r] ∧
    SMap.get Regulator.reset q (t.stack k).regs = (SMap.get Regulator.reset q (s.stack k).regs).released rest ∧ OnlyStack k s t := by
  refine ⟨?_, ?_, (onlyStack_updStack ..).trans (onlyStack_updStack ..)⟩
  · rw [State.stack_updStack, updReg, State.stack_updStack]
    rfl
  · rw [State.stack_updStack]
    exact updReg_regulator ..

/-! The reorder queue (R286, R294, R295). -/

/-- The transaction at place i of those that enter a stack goes to the end of its reorder queue. -/
def enterQueue (k pc i : Nat) (r : MemReq) (s : State) : State := s.updStack k fun x => { x with
  entering := dropAt i x.entering, queues := SMap.upd [] pc (· ++ [⟨r, 0⟩]) x.queues }

/-- A write that enters its queue drops the line's copy from a bed cache and nothing else (R286). -/
theorem dropBedCopy_spec (line : Nat) (s : State) :
    (∀ b, ∀ e ∈ ((dropBedCopy line s).bed b).cache, e ∈ (s.bed b).cache) ∧ { dropBedCopy line s with beds := s.beds } = s := by
  unfold dropBedCopy
  split
  case h_1 =>
    refine ⟨fun b e he => ?_, rfl⟩
    by_cases same : b = bedOfStack (hbmDecode (64 * line)).stack
    · rw [same, State.bed_updBed] at he
      rw [same]
      exact List.mem_of_mem_filter he
    · rwa [State.bed_updBed_ne s same] at he
  case h_2 => exact ⟨fun _ _ he => he, rfl⟩

/-- The write of no mover waits for an acknowledgement. -/
theorem answerWrite_of_no_mover {r : MemReq} (core : ∀ c, r.who ≠ .mover c) (bulk : ∀ d, r.who ≠ .bulk d) (s : State) :
    answerWrite r s = s := by
  unfold answerWrite
  split
  · exact absurd ‹_› (core _)
  · exact absurd ‹_› (bulk _)
  · rfl

/-- HBM_QUEUE_ENTRY where there is a place (R294): the transaction goes into its queue, and a write of no mover drops the line's copy. -/
theorem exec_hbmQueueEntry {k : StackId} {pc : Fin 64} {i : Nat} {r : MemReq} {s : State}
    (place : indexWhere (fun r => reqPc r == pc) (s.stack k).entering = some i)
    (first : (s.stack k).entering.find? (fun r => reqPc r == pc) = some r)
    (room : (SMap.get [] pc.val (s.stack k).queues).length < 64)
    (who : r.write = false ∨ ((∀ c, r.who ≠ .mover c) ∧ (∀ d, r.who ≠ .bulk d))) :
    exec (.hbmQueueEntry k pc) s =
      .next (if r.write then dropBedCopy r.line (enterQueue k pc i r s) else enterQueue k pc i r s) := by
  change execHbmQueueEntry k pc s = _
  unfold execHbmQueueEntry
  dsimp only
  rw [place, first]
  dsimp only
  rw [if_pos room]
  cases hw : r.write with
  | false => rfl
  | true =>
    obtain no | ⟨core, bulk⟩ := who
    · exact absurd hw (by simp [no])
    · exact congrArg _ (answerWrite_of_no_mover core bulk _)

/-- What stands in a reorder queue when the transaction at place i has left it: the older ones have been passed over once more. -/
def leaveQueue (i : Nat) (l : List QEntry) : List QEntry :=
  ((l.take i).map fun e => { e with passed := e.passed + 1 }) ++ l.drop (i + 1)

theorem leaveQueue_reqs (i : Nat) (l : List QEntry) : (leaveQueue i l).map (·.req) = dropAt i (l.map (·.req)) := by
  simp [leaveQueue, dropAt, Function.comp_def]

/-- A stack as it is when the transaction at place i of a reorder queue goes to its line. -/
def takeServed (k pc i : Nat) (s : State) : State :=
  countServed k pc (s.updStack k fun x => { x with queues := SMap.set [] pc (leaveQueue i (SMap.get [] pc (s.stack k).queues)) x.queues })

theorem sitesKept_takeServed (k pc i : Nat) (s : State) : s.SitesKept (takeServed k pc i s) :=
  (State.SitesKept.queues k _ s).trans (.countServed k pc _)

theorem takeServed_reqs (k pc i : Nat) (s : State) : (SMap.get [] pc ((takeServed k pc i s).stack k).queues).map (·.req) =
    dropAt i ((SMap.get [] pc (s.stack k).queues).map (·.req)) := by
  unfold takeServed countServed
  rw [State.stack_updStack, State.stack_updStack, SMap.get_set, leaveQueue_reqs]

section Serve

variable {k : StackId} {pc : Fin 64} {i : Nat} {e : QEntry} {env : Env} {s₀ s : State} (upsets : applyUpsets env.upsets s₀ = s)
  (entry : (SMap.get [] pc.val (s.stack k).queues)[i]? = some e)
include upsets entry

/-- HBM_SERVE of a transaction that may not be served (R295). -/
theorem exec_hbmServe_waits (may : mayServe (SMap.get [] pc.val (s.stack k).queues) i e.req = false) :
    exec (.hbmServe k pc i env) s₀ = .next s := by
  change execHbmServe k pc i env s₀ = _
  unfold execHbmServe
  dsimp only
  rw [upsets, entry]
  dsimp only
  rw [if_neg (by simp [may])]

variable (may : mayServe (SMap.get [] pc.val (s.stack k).queues) i e.req = true)
include may

theorem exec_hbmServe : exec (.hbmServe k pc i env) s₀ = .next (serveHbm k pc e.req env (s.updStack k fun x =>
    { x with queues := SMap.set [] pc.val (leaveQueue i (SMap.get [] pc.val (s.stack k).queues)) x.queues })) := by
  change execHbmServe k pc i env s₀ = _
  unfold execHbmServe
  dsimp only
  rw [upsets, entry]
  dsimp only
  rw [if_pos may]
  rfl

variable (user : s.hbmErr = []) (spare : ∀ j, (s.stack j).spareErr = [])
include user spare

/-- A write served where no error is and no row copy mirrors it (R298, R302). -/
theorem exec_hbmServe_write (write : e.req.write = true) (poison : e.req.poison = 0) (alone : mirrorOf (64 * e.req.line) s = none) :
    let h := hbmSite (64 * e.req.line) s
    exec (.hbmServe k pc i env) s₀ = .next (siteWrite h
      ⟨maskBytes e.req.mask (siteRead h s).bytes e.req.bytes, List.replicate 16 0⟩ (takeServed k pc i s)) := by
  have kept := sitesKept_takeServed k pc i s
  have clean := kept.clean (HSite.clean_of user spare (hbmSite (64 * e.req.line) s))
  rw [← kept.hbmSite] at clean
  rw [exec_hbmServe upsets entry may, serveHbm, if_pos write, poison]
  refine congrArg _ ((hbmWrite_clean clean (kept.mirrorOf alone) _ _).trans ?_)
  rw [kept.hbmSite, kept.siteRead]

/-- A read served where no error is (R297, R302): its requester is answered with the line at the site, once what the bed caches wait
for has changed. -/
theorem exec_hbmServe_read (read : e.req.write = false) :
    ∃ z, exec (.hbmServe k pc i env) s₀ =
        .next (answerRead e.req ⟨(siteRead (hbmSite (64 * e.req.line) s) s).bytes, 0⟩ env z) ∧
      { z with beds := s.beds } = takeServed k pc i s := by
  have offered (line : Nat) (bytes : List Byte) (z : State) : { offerFill 64 line bytes z with beds := z.beds } = z := by
    unfold offerFill
    split <;> rfl
  have kept := sitesKept_takeServed k pc i s
  have clean := kept.clean (HSite.clean_of user spare (hbmSite (64 * e.req.line) s))
  rw [← kept.hbmSite] at clean
  have beds : (takeServed k pc i s).beds = s.beds := rfl
  rw [exec_hbmServe upsets entry may, serveHbm, if_neg (by simp [read])]
  dsimp only
  rw [show countServed k pc.val _ = takeServed k pc i s from rfl, hbmRead_clean clean, kept.hbmSite, kept.siteRead]
  refine ⟨_, rfl, ?_⟩
  split
  · split
    · exact beds ▸ offered ..
    · rfl
  · rfl

end Serve

/-- A write served changes the bytes of its mask at the site that serves its line, and no other byte. -/
theorem served_write {k pc i : Nat} {s : State} (h : HSite) {mask : Nat} {bytes : List Byte} (whole : bytes.length = 64)
    (clean : h.Clean s) :
    let t := siteWrite h ⟨maskBytes mask (siteRead h s).bytes bytes, List.replicate 16 0⟩ (takeServed k pc i s)
    (SMap.get [] pc (t.stack k).queues).map (·.req) = dropAt i ((SMap.get [] pc (s.stack k).queues).map (·.req)) ∧
    (∀ n, n < 64 → (siteRead h t).bytes.getD n 0 = if bitOf mask n then bytes.getD n 0 else (siteRead h s).bytes.getD n 0) ∧
    (∀ u, h = .user u → (∀ a, a < u ∨ u + 64 ≤ a → t.hbm.byte a = s.hbm.byte a) ∧ (∀ j, (t.stack j).spare = (s.stack j).spare)) ∧
    (∀ j n col, h = .spare j n col → t.hbm = s.hbm ∧ (∀ a, a < n * 1024 + col ∨ n * 1024 + col + 64 ≤ a →
      (t.stack j).spare.byte a = (s.stack j).spare.byte a) ∧ (∀ o, o ≠ j → (t.stack o).spare = (s.stack o).spare)) ∧
    { t with hbms := s.hbms, hbm := s.hbm } = s := by
  have kept := sitesKept_takeServed k pc i s
  have length := length_siteRead h s
  have full : (maskBytes mask (siteRead h s).bytes bytes).length = 64 := by simp [length, whole]
  refine ⟨?queue, fun n hn => ?bytes, ?user, ?spare, ?frame⟩
  case queue => rw [siteWrite_queues, takeServed_reqs]
  case bytes =>
    rw [siteRead_siteWrite h full _ hn]
    exact getD_maskBytes _ (by omega) (by omega)
  case user =>
    rintro u rfl
    obtain ⟨others, same⟩ := siteWrite_user_frame u (l := ⟨_, List.replicate 16 0⟩) full (takeServed k pc i s)
    exact ⟨others, fun j => (congrArg Stack.spare (same j)).trans (kept.spare j)⟩
  case spare =>
    rintro j n col rfl
    obtain ⟨others, only⟩ := siteWrite_spare_frame j n col (l := ⟨_, List.replicate 16 0⟩) full (takeServed k pc i s)
    refine ⟨rfl, fun a out => (others a out).trans (by rw [kept.spare]), fun o ho => ?_⟩
    exact (congrArg Stack.spare (only.1 o ho)).trans (kept.spare o)
  case frame =>
    cases h with
    | user u =>
      rw [siteWrite_user_clean (kept.hbmErr.trans clean)]
      rfl
    | spare j n col => rfl

/-- A read served gives the far-cache miss that waits for its line that line (R278). -/
theorem answerRead_miss {r : MemReq} {c n : Nat} {z : State} (who : r.who = .miss c n)
    (busy : (SMap.get Mshr.free n (z.core c).far.mshr).busy = true) (line : (SMap.get Mshr.free n (z.core c).far.mshr).line = r.line)
    (l : Line) (env : Env) :
    (SMap.get Mshr.free n ((answerRead r l env z).core c).far.mshr).got = some l ∧ { answerRead r l env z with cores := z.cores } = z := by
  unfold answerRead
  rw [who]
  refine ⟨?_, rfl⟩
  dsimp only
  rw [State.core_updCore, SMap.get_upd, if_pos (by simp [busy, line])]

/-! The patrol scrub (R296, R299). -/

/-- Over stacks without errors the patrol's reads only pass the waiting transactions by. -/
theorem patrolLines_clean {s : State} (user : s.hbmErr = []) (spare : ∀ j, (s.stack j).spareErr = []) (k n : Nat) (l : List Nat) :
    let t := l.foldl (fun s pc => patrolLine k n pc s) s
    OnlyStack k s t ∧ { t.stack k with queues := (s.stack k).queues } = s.stack k ∧ (t.stack k).queues =
      l.foldl (fun m pc => SMap.upd [] pc (fun q => q.map fun e => { e with passed := e.passed + 1 }) m) (s.stack k).queues := by
  induction l generalizing s with
  | nil => exact ⟨.refl k s, rfl, rfl⟩
  | cons pc l ih =>
    have kept := State.SitesKept.passOver k pc 1 s
    have clean := fun j => (kept.spareErr j).trans (spare j)
    have one : patrolLine k n pc s = passOver k pc 1 s := by
      rw [patrolLine, hbmRead_clean (HSite.clean_of (kept.hbmErr.trans user) clean _)]
    have stack : (passOver k pc 1 s).stack k = _ := State.stack_updStack ..
    obtain ⟨only, rest, queues⟩ := ih (kept.hbmErr.trans user) clean
    dsimp only
    rw [List.foldl_cons, List.foldl_cons, one]
    rw [stack] at rest queues
    exact ⟨(onlyStack_updStack ..).trans only, (congrArg (fun x : Stack => { x with queues := (s.stack k).queues }) rest :), queues⟩

/-- One change made at each key of a list. -/
theorem SMap.get_foldl_upd_key {α : Type} [DecidableEq α] (d : α) (f : α → α) {l : List Nat} (nodup : l.Nodup) {k : Nat} (mem : k ∈ l)
    (m : SMap α) : SMap.get d k (l.foldl (fun m k => SMap.upd d k f m) m) = f (SMap.get d k m) :=
  SMap.get_foldl_upd d (key := id) (f := fun _ => f) (by rwa [List.map_id]) mem m

theorem exec_hbmPatrolScrub {k : StackId} {env : Env} {s₀ s : State} (upsets : applyUpsets env.upsets s₀ = s) :
    exec (.hbmPatrolScrub k env) s₀ = .next (if ((s.stack k).up && (List.range 64).all fun pc =>
        ownTurn k pc (patrolPa k pc (s.stack k).patrol / 64) 1 s) = true then
      ((List.range 64).foldl (fun z pc => patrolLine k (s.stack k).patrol pc z) s).updStack k fun x =>
        { x with patrol := ((s.stack k).patrol + 1) % pcLines }
      else s) := by
  change execHbmPatrolScrub k env s₀ = _
  unfold execHbmPatrolScrub
  dsimp only
  rw [upsets]

/-- The scrub's turn has come for every pseudo-channel: it goes on by one line, and each queue has been passed by once more. -/
theorem patrolScrub_goes {k : StackId} {env : Env} {s₀ s : State} (upsets : applyUpsets env.upsets s₀ = s)
    (up : (s.stack k).up = true) (user : s.hbmErr = []) (spare : ∀ j, (s.stack j).spareErr = [])
    (free : ∀ pc, pc < 64 → ownTurn k pc (patrolPa k pc (s.stack k).patrol / 64) 1 s = true) :
    ∃ t, exec (.hbmPatrolScrub k env) s₀ = .next t ∧
      { t.stack k with queues := (s.stack k).queues } = { s.stack k with patrol := ((s.stack k).patrol + 1) % pcLines } ∧
      (∀ pc, pc < 64 → SMap.get [] pc (t.stack k).queues =
        (SMap.get [] pc (s.stack k).queues).map fun e => { e with passed := e.passed + 1 }) ∧ OnlyStack k s t := by
  have turns : ((s.stack k).up && (List.range 64).all fun pc => ownTurn k pc (patrolPa k pc (s.stack k).patrol / 64) 1 s) = true := by
    rw [up, Bool.true_and, List.all_eq_true]
    exact fun pc hpc => free pc (List.mem_range.1 hpc)
  have next := exec_hbmPatrolScrub (k := k) upsets
  rw [if_pos turns] at next
  obtain ⟨only, rest, queues⟩ := patrolLines_clean user spare k (s.stack k).patrol (List.range 64)
  refine ⟨_, next, ?_, fun pc hpc => ?_, only.trans (onlyStack_updStack ..)⟩
  · rw [State.stack_updStack]
    exact (congrArg (fun x : Stack => { x with patrol := ((s.stack k).patrol + 1) % pcLines }) rest :)
  · rw [State.stack_updStack]
    dsimp only
    rw [queues, SMap.get_foldl_upd_key [] _ List.nodup_range (List.mem_range.2 hpc)]

/-- An older entry stands before the scrub in one queue: it waits. -/
theorem patrolScrub_waits {k : StackId} {env : Env} {s₀ s : State} (upsets : applyUpsets env.upsets s₀ = s) {pc : Nat} (hpc : pc < 64)
    (taken : ownTurn k pc (patrolPa k pc (s.stack k).patrol / 64) 1 s = false) :
    exec (.hbmPatrolScrub k env) s₀ = .next s := by
  have next := exec_hbmPatrolScrub (k := k) upsets
  rwa [if_neg] at next
  rw [Bool.and_eq_true, List.all_eq_true]
  exact fun turns => Bool.false_ne_true (taken.symm.trans (turns.2 pc (List.mem_range.2 hpc)))

/-! The temperature (R306, R307). -/

/-- A temperature of 16 bits arrives as it was sent. -/
theorem sextOf_ofInt {v : Int} (low : -32768 ≤ v) (high : v < 32768) : sextOf 16 (BitVec.ofInt 16 v).toNat = v := by
  unfold sextOf
  dsimp only
  rw [BitVec.toNat_ofInt]
  split <;> omega

/-- A stack with a sample of its temperature held, before its STEP follows. -/
def Stack.measured (t : Int) (x : Stack) : Stack := { x with
  temp := t, tmax := max x.tmax t, sinceStep := min 10 (x.sinceStep + 1)
  coolRun := if t ≤ 360 then min 100 (x.coolRun + 1) else 0 }

theorem Stack.sampled_eq (t : Int) (x : Stack) : x.sampled t =
    if 380 < t ∧ 4 < (x.measured t).step ∧ 10 ≤ (x.measured t).sinceStep then
      { x.measured t with step := (x.measured t).step - 1, sinceStep := 0 }
    else if 100 ≤ (x.measured t).coolRun ∧ (x.measured t).step < 8 then
      { x.measured t with step := (x.measured t).step + 1, sinceStep := 0 }
    else x.measured t := rfl

/-- A sample is held, with the highest so far, and STEP moves by at most one. -/
theorem Stack.sampled_spec (v : Int) (x : Stack) : (x.sampled v).temp = v ∧ (x.sampled v).tmax = max x.tmax v ∧
    ((x.sampled v).step = x.step ∨ (x.sampled v).step + 1 = x.step ∨ (x.sampled v).step = x.step + 1) := by
  rw [Stack.sampled_eq]
  split
  case isTrue h => exact ⟨rfl, rfl, .inr (.inl (Nat.sub_add_cancel (Nat.one_le_of_lt h.2.1)))⟩
  case isFalse =>
    split
    · exact ⟨rfl, rfl, .inr (.inr rfl)⟩
    · exact ⟨rfl, rfl, .inl rfl⟩

/-- FAILED changes neither the power nor the stacks (R424). -/
theorem enterFailed_frame (s : State) : (enterFailed s).power = s.power ∧ (enterFailed s).hbms = s.hbms := by
  have stops : (setHealth .failed s).StopOnly (enterFailed s) := by
    unfold enterFailed
    exact stopOnly_foldl (.refl _) fun z q h => stopWithin_stopOnly q .faulted stDieAbsent 0 z h
  have health := setHealth_frame .failed s
  generalize setHealth .failed s = z at stops health
  generalize enterFailed s = t at stops ⊢
  exact ⟨(congrArg State.power stops.rest :).trans (congrArg State.power health :),
    (congrArg State.hbms stops.rest :).trans (congrArg State.hbms health :)⟩

theorem logEvent_enterFailed_frame (e : LogEntry) (s : State) :
    (logEvent e (enterFailed s)).power = s.power ∧ (logEvent e (enterFailed s)).hbms = s.hbms := by
  have frame := enterFailed_frame s
  generalize enterFailed s = t at frame ⊢
  exact frame

/-- A trip leaves the stacks, and where none is in force it takes hold with its cause and source (R465, R466). -/
theorem thermalTrip_spec (cause src d0 : Nat) (s : State) : (thermalTrip cause src d0 s).hbms = s.hbms ∧ (s.power.trip = false →
    (thermalTrip cause src d0 s).power = { s.power with trip := true, tripCause := cause, tripSrc := src }) := by
  unfold thermalTrip
  split
  case isTrue h => exact ⟨rfl, fun off => absurd h (by simp [off])⟩
  case isFalse h =>
    dsimp only
    exact ⟨(logEvent_enterFailed_frame ..).2, fun _ => (logEvent_enterFailed_frame ..).1⟩

/-- HBM_TEMP_SAMPLE of a stack that is trained and has its power (R306, R307). -/
theorem exec_hbmTempSample {k : StackId} {v : Int} {s : State} (run : s.running = true) (rails : s.power.rails = true)
    (up : (s.stack k).up = true) (low : -32768 ≤ v) (high : v < 32768) :
    exec (.hbmTempSample k v) s = .next (if 420 ≤ v then
      thermalTrip 1 (0x30 + k) (BitVec.ofInt 16 v).toNat (s.updStack k (Stack.sampled v)) else s.updStack k (Stack.sampled v)) := by
  change execHbmTempSample k v s = _
  unfold execHbmTempSample
  rw [sextOf_ofInt low high, run, rails, up]
  rfl

/-- Settles O38: each command by the equation that says what it does where its condition holds, with what that leaves. -/
theorem hbmService : Obligations.HbmService := by
  intro k env s₀ s x free
  refine ⟨fun q r rest waits => ?regulator, fun pc i r place first room who => ?queue, fun pc i e entry => ⟨?waits, ?serves⟩,
    ⟨?scrub, ?scrubWaits⟩, fun v run rails up low high => ?temperature⟩
  case regulator =>
    have next := exec_regulatorRelease waits
    refine ⟨fun few => ?_, fun enough => ?_⟩
    · rwa [if_neg (Nat.not_le.2 few)] at next
    · rw [if_pos enough] at next
      obtain ⟨entering, regulator, others, rest⟩ := released_spec k q rest r s
      exact ⟨_, next, entering, regulator, others, rest⟩
  case queue =>
    have next := exec_hbmQueueEntry place first room who
    obtain ⟨copies, frame⟩ := dropBedCopy_spec r.line (enterQueue k pc i r s)
    have stack : (enterQueue k pc i r s).stack k = _ := State.stack_updStack ..
    have queues : SMap.get [] pc.val ((enterQueue k pc i r s).stack k).queues = SMap.get [] pc.val x.queues ++ [⟨r, 0⟩] := by
      rw [stack, SMap.get_upd]
    split at next
    · have same : (dropBedCopy r.line (enterQueue k pc i r s)).hbms = (enterQueue k pc i r s).hbms := (congrArg State.hbms frame :)
      refine ⟨_, next, ?_, ?_, copies, ?_⟩
      · rw [State.stack_of same, stack]
      · rw [State.stack_of same, queues]
      · exact (congrArg (fun z : State => { z with hbms := s.hbms, beds := s.beds }) frame :)
    · exact ⟨_, next, by rw [stack], queues, fun _ _ he => he, rfl⟩
  case waits => exact exec_hbmServe_waits rfl entry
  case serves =>
    intro may user spare pa h
    refine ⟨fun write poison whole alone => ?_, fun c n read who busy line => ?_⟩
    · exact ⟨_, exec_hbmServe_write rfl entry may user spare write poison alone,
        served_write h whole (HSite.clean_of user spare h)⟩
    · obtain ⟨z, next, frame⟩ := exec_hbmServe_read rfl entry may user spare read
      have cores : z.cores = s.cores := (congrArg State.cores frame :)
      rw [← State.core_of cores] at busy line
      obtain ⟨got, rest⟩ := answerRead_miss who busy line ⟨(siteRead h s).bytes, 0⟩ env
      have same : (answerRead e.req ⟨(siteRead h s).bytes, 0⟩ env z).hbms = (takeServed k pc i s).hbms :=
        (congrArg State.hbms rest :).trans (congrArg State.hbms frame :)
      refine ⟨_, next, ?_, got, (congrArg State.hbm rest :).trans (congrArg State.hbm frame :), fun j => ?_⟩
      · rw [State.stack_of same, takeServed_reqs]
      · rw [State.stack_of same, (sitesKept_takeServed k pc i s).spare]
  case scrub => exact fun up user spare turns => patrolScrub_goes rfl up user spare turns
  case scrubWaits => exact fun pc hpc taken => patrolScrub_waits rfl hpc taken
  case temperature =>
    have next := exec_hbmTempSample run rails up low high
    obtain ⟨temp, tmax, step⟩ := Stack.sampled_spec v x
    obtain ⟨same, trips⟩ := thermalTrip_spec 1 (0x30 + k) (BitVec.ofInt 16 v).toNat (s.updStack k (Stack.sampled v))
    have stack : (s.updStack k (Stack.sampled v)).stack k = x.sampled v := State.stack_updStack ..
    split at next
    case isTrue hot =>
      refine ⟨_, next, ?_, ?_, ?_, fun cool => by omega, fun _ off => ?_⟩
      · rw [State.stack_of same, stack, temp]
      · rw [State.stack_of same, stack, tmax]
      · rw [State.stack_of same, stack]
        exact step
      · rw [trips off]
        exact ⟨rfl, rfl, rfl⟩
    case isFalse cool =>
      rw [← stack] at temp tmax step
      exact ⟨_, next, temp, tmax, step, fun _ => onlyStack_updStack .., fun hot => absurd hot cool⟩

end Sys2Proof.Machine
end

section
/-! PROOF. O39: one line of a row copy, the flip of the remap tables that ends it, and the append to the boot flash (R296, R302, R303,
R305, R417, R419). -/

namespace Sys2Proof.Machine

/-! One line of a row copy (R303 steps 3 and 4). -/

/-- The entry of a remap table that maps a row (R301). -/
def HRow.remap (r : HRow) : Remap := ⟨true, r.sid, r.bank, r.row⟩

/-- A stack whose row copy has gone on by one line; with the sixteenth the inactive table maps the row. -/
def Stack.lineCopied (c : RowCopy) (x : Stack) : Stack :=
  let y := { x with copy := some { c with line := c.line + 1, since := 0 } }
  if c.line < 15 then y
  else if x.active = 0 then { y with table1 := SMap.set Remap.none c.spare c.row.remap x.table1 }
  else { y with table0 := SMap.set Remap.none c.spare c.row.remap x.table0 }

theorem Stack.lineCopied_rest (c : RowCopy) (x : Stack) : { x.lineCopied c with table0 := x.table0, table1 := x.table1 } =
    { x with copy := some { c with line := c.line + 1, since := 0 } } := by
  unfold Stack.lineCopied
  dsimp only
  split
  · rfl
  · split <;> rfl

theorem Stack.lineCopied_early {c : RowCopy} (early : c.line < 15) (x : Stack) :
    (x.lineCopied c).table0 = x.table0 ∧ (x.lineCopied c).table1 = x.table1 := by
  unfold Stack.lineCopied
  rw [if_pos early]
  exact ⟨rfl, rfl⟩

theorem Stack.lineCopied_last {c : RowCopy} (last : c.line = 15) (x : Stack) :
    SMap.get Remap.none c.spare (if x.active = 0 then (x.lineCopied c).table1 else (x.lineCopied c).table0) = c.row.remap := by
  have late : ¬c.line < 15 := by omega
  unfold Stack.lineCopied
  dsimp only
  rw [if_neg late]
  split <;> rw [SMap.get_set]

/-- A line copied from its user site, where no error is, to its spare row. -/
theorem copyLine_clean {k : Nat} {c : RowCopy} {s : State} (site : hbmSite (rowLine k c.row c.line) s = .user (rowLine k c.row c.line))
    (clean : s.hbmErr = []) : copyLine k c s = (siteWrite (.spare k c.spare (64 * c.line))
      ⟨s.hbm.read (rowLine k c.row c.line) 64, List.replicate 16 0⟩ s).updStack k (Stack.lineCopied c) := by
  have errs : (siteRead (.user (rowLine k c.row c.line)) s).errs = List.replicate 16 0 := siteRead_errs clean
  have bytes : (siteRead (.user (rowLine k c.row c.line)) s).bytes = s.hbm.read (rowLine k c.row c.line) 64 := rfl
  unfold copyLine
  dsimp only
  rw [site, errs, bytes]
  rfl

/-- REMAP_LINE_COPY of a stack with a row copy (R296, R303). -/
theorem exec_remapLineCopy {k : StackId} {env : Env} {s₀ s : State} (upsets : applyUpsets env.upsets s₀ = s) {c : RowCopy}
    (copies : (s.stack k).copy = some c) : exec (.remapLineCopy k env) s₀ = .next (if c.line < 16 ∧
        (32 ≤ c.since ∨ (SMap.get [] c.row.pc (s.stack k).queues).isEmpty = true) ∧
        ownTurn k c.row.pc (rowLine k c.row c.line / 64) 2 s = true then copyLine k c (passOver k c.row.pc 2 s) else s) := by
  change execRemapLineCopy k env s₀ = _
  unfold execRemapLineCopy
  dsimp only
  rw [upsets, copies]

/-- A stack with a line in the spare row that its row copy fills; the read and the write have passed the waiting transactions by. -/
def Stack.lineMoved (c : RowCopy) (bs : List Byte) (x : Stack) : Stack := { x with
  queues := SMap.upd [] c.row.pc (fun l => l.map fun e => { e with passed := e.passed + 2 }) x.queues
  spare := x.spare.write (c.spare * 1024 + 64 * c.line) bs
  spareErr := rawErrs x.spareErr (c.spare * 256 + 64 * c.line / 4) (List.replicate 16 0) }

/-- A line copied stands in the spare row, and of the stack nothing else changes but the copy, a table with the last line, and how
often the waiting transactions have been passed by. -/
theorem Stack.lineCopied_spec (c : RowCopy) {bs : List Byte} (whole : bs.length = 64) (x : Stack) :
    let y := (x.lineMoved c bs).lineCopied c
    y.copy = some { c with line := c.line + 1, since := 0 } ∧
    (∀ i, i < 64 → y.spare.byte (c.spare * 1024 + 64 * c.line + i) = bs.getD i 0) ∧
    (c.line < 15 → y.table0 = x.table0 ∧ y.table1 = x.table1) ∧
    (c.line = 15 → SMap.get Remap.none c.spare (if x.active = 0 then y.table1 else y.table0) = c.row.remap) ∧
    SMap.get [] c.row.pc y.queues = (SMap.get [] c.row.pc x.queues).map (fun e => { e with passed := e.passed + 2 }) ∧
    y.active = x.active := by
  have rest := (x.lineMoved c bs).lineCopied_rest c
  refine ⟨(congrArg Stack.copy rest :), fun i hi => ?spare, fun early => Stack.lineCopied_early early _,
    fun last => Stack.lineCopied_last last (x.lineMoved c bs), ?queue, (congrArg Stack.active rest :)⟩
  case spare =>
    have spare : ((x.lineMoved c bs).lineCopied c).spare = x.spare.write (c.spare * 1024 + 64 * c.line) bs :=
      (congrArg Stack.spare rest :)
    rw [spare, Mem.byte_write_eq, if_pos (by omega), Nat.add_sub_cancel_left]
  case queue => exact (congrArg (fun z : Stack => SMap.get [] c.row.pc z.queues) rest).trans (SMap.get_upd ..)

/-- REMAP_LINE_COPY where the copy's turn has come, in a stack without errors (R303). -/
theorem remapLineCopy_goes {k : StackId} {env : Env} {s₀ s : State} (upsets : applyUpsets env.upsets s₀ = s) {c : RowCopy}
    (copies : (s.stack k).copy = some c) (more : c.line < 16) (due : 32 ≤ c.since ∨ SMap.get [] c.row.pc (s.stack k).queues = [])
    (turn : ownTurn k c.row.pc (rowLine k c.row c.line / 64) 2 s = true) (clean : s.hbmErr = [])
    (site : hbmSite (rowLine k c.row c.line) s = .user (rowLine k c.row c.line)) :
    ∃ t, exec (.remapLineCopy k env) s₀ = .next t ∧
      t.stack k = ((s.stack k).lineMoved c (s.hbm.read (rowLine k c.row c.line) 64)).lineCopied c ∧ OnlyStack k s t := by
  have kept := State.SitesKept.passOver k c.row.pc 2 s
  have next := exec_remapLineCopy upsets copies
  rw [if_pos ⟨more, due.imp id List.isEmpty_iff.2, turn⟩,
    copyLine_clean ((kept.hbmSite _).trans site) (kept.hbmErr.trans clean), kept.hbm, siteWrite_spare] at next
  refine ⟨_, next, ?_, ((onlyStack_updStack ..).trans (onlyStack_updStack ..)).trans (onlyStack_updStack ..)⟩
  rw [State.stack_updStack, State.stack_updStack, passOver, State.stack_updStack]
  rfl

/-- REMAP_LINE_COPY while fewer than 32 transactions have been served since the last line and others wait (R303). -/
theorem remapLineCopy_waits {k : StackId} {env : Env} {s₀ s : State} (upsets : applyUpsets env.upsets s₀ = s) {c : RowCopy}
    (copies : (s.stack k).copy = some c) (few : c.since < 32) (others : SMap.get [] c.row.pc (s.stack k).queues ≠ []) :
    exec (.remapLineCopy k env) s₀ = .next s := by
  have next := exec_remapLineCopy upsets copies
  rwa [if_neg] at next
  rintro ⟨-, enough | empty, -⟩
  · omega
  · exact others (List.isEmpty_iff.1 empty)

/-! The flip (R303 steps 5 and 6). -/

/-- A stack whose row copy has ended with the flip: both tables map the row, and the repair waits to be appended. -/
def Stack.flipped (c : RowCopy) (x : Stack) : Stack := { x with
  active := 1 - x.active
  table0 := SMap.set Remap.none c.spare c.row.remap x.table0
  table1 := SMap.set Remap.none c.spare c.row.remap x.table1
  copy := none
  unpersist := x.unpersist ++ [(c.spare, c.row, false)] }

/-- The entry of a row that has been remapped (R423). -/
def remapEntry (k : Nat) (c : RowCopy) (left : Nat) : LogEntry := { LogEntry.ofCode 0x0003 .info with
  cls := 0x0A, src := 0x30 + k, addr := rowLine k c.row 0, count := left, d0 := 2 }

/-- No row waits for a copy. -/
theorem startPending_of_none {k : Nat} {s : State} (none : (s.stack k).pendingRows = []) (n : Nat) : startPending k n s = s := by
  cases n with
  | zero => rfl
  | succ n => rw [startPending, none]

theorem exec_remapFlip {k : StackId} {s : State} {c : RowCopy} (copies : (s.stack k).copy = some c) (last : c.line = 16)
    (none : (s.stack k).pendingRows = []) : exec (.remapFlip k) s =
      let t := s.updStack k (Stack.flipped c)
      .next (rowRepaired k c.row (logEvent (remapEntry k c (sparesLeft k c.row.pc t)) t)) := by
  change execRemapFlip k s = _
  unfold execRemapFlip
  rw [copies]
  dsimp only
  rw [if_pos last]
  refine congrArg _ (startPending_of_none ?_ 17)
  exact (congrArg Stack.pendingRows (s.stack_updStack k (Stack.flipped c)) :).trans none

/-- The lasting fault of the repaired row is over, and every other resource's stays (R417). -/
theorem rowRepaired_lasting (k : Nat) (row : HRow) (s : State) (i : Nat) : SMap.get false i (rowRepaired k row s).chat.lasting =
    if i = Res.key ⟨0x0A, rowId k row⟩ then false else SMap.get false i s.chat.lasting := by
  unfold rowRepaired
  split
  case isTrue h => rw [h, SMap.get_set]
  case isFalse h => rw [SMap.get_set_ne _ h]

/-! The append to the boot flash (R305, R419). -/

theorem exec_remapPersist {k : StackId} {s : State} (run : s.hs.fwRun = true) :
    exec (.remapPersist k) s = .next (persistCores (persistRemaps k s)) := by
  change execRemapPersist k s = _
  unfold execRemapPersist
  rw [if_pos run]

theorem persisted_stack (k : Nat) (s : State) :
    (persistCores (persistRemaps k s)).stack k = { s.stack k with unpersist := [] } := by
  unfold persistCores persistRemaps
  rw [State.stack_updFlash, State.stack_updStack, State.stack_updFlash]

theorem persisted_stack_ne {i k : Nat} (h : i ≠ k) (s : State) : (persistCores (persistRemaps k s)).stack i = s.stack i := by
  unfold persistCores persistRemaps
  rw [State.stack_updFlash, State.stack_updStack_ne _ h, State.stack_updFlash]

/-- The flash's record takes the stack's waiting remaps. -/
theorem persisted_remaps (k : Nat) (s : State) : (persistCores (persistRemaps k s)).flash.remaps =
    SMap.upd [] k (· ++ (s.stack k).unpersist.map fun u => ⟨u.1, u.2.1, u.2.2⟩) s.flash.remaps := rfl

/-- Settles O39: the line copied, the flip and the append, each as a change of one stack with what it leaves. -/
theorem rowRemap : Obligations.RowRemap := by
  intro k env s₀ s x
  refine ⟨fun c copies more due turn clean _ site => ?line, fun c copies _ few others => remapLineCopy_waits rfl copies few others,
    fun c copies last none => ?flip, fun run => ?append⟩
  case line =>
    obtain ⟨t, next, stack, others, rest⟩ := remapLineCopy_goes rfl copies more due turn clean site
    obtain ⟨copy, spare, early, last, queue, active⟩ :=
      x.lineCopied_spec c (Mem.length_read s.hbm (rowLine k c.row c.line) 64)
    rw [← stack] at copy spare early last queue active
    exact ⟨t, next, copy, fun i hi => (spare i hi).trans (Mem.getD_read _ _ hi), early, last, queue, active, others, rest⟩
  case flip =>
    have next := exec_remapFlip copies last none
    generalize ht : s.updStack k (Stack.flipped c) = t at next
    have stack : t.stack k = x.flipped c := ht ▸ State.stack_updStack ..
    have hs : t.hs = s.hs := by rw [← ht]; rfl
    obtain ⟨others, rest⟩ : OnlyStack k s t := ht ▸ onlyStack_updStack ..
    obtain ⟨entry, written, fields⟩ := logEvent_log (remapEntry k c (sparesLeft k c.row.pc t)) t
    rw [hs] at written
    refine ⟨_, next, (congrArg Stack.active stack :), (congrArg Stack.copy stack :), ?table0, ?table1,
      (congrArg Stack.unpersist stack :), ⟨entry, written, (congrArg LogEntry.code fields :), (congrArg LogEntry.src fields :),
        (congrArg LogEntry.cls fields :), (congrArg LogEntry.d0 fields :)⟩, fun r => ?lasting, others,
      (congrArg (fun z : State => { z with hs := s.hs, chat := s.chat }) rest :)⟩
    case table0 =>
      have table : (t.stack k).table0 = SMap.set Remap.none c.spare c.row.remap x.table0 := (congrArg Stack.table0 stack :)
      exact table ▸ SMap.get_set Remap.none c.spare c.row.remap x.table0
    case table1 =>
      have table : (t.stack k).table1 = SMap.set Remap.none c.spare c.row.remap x.table1 := (congrArg Stack.table1 stack :)
      exact table ▸ SMap.get_set Remap.none c.spare c.row.remap x.table1
    case lasting =>
      have chat : t.chat = s.chat := by rw [← ht]; rfl
      exact chat ▸ rowRepaired_lasting ..
  case append =>
    refine ⟨_, exec_remapPersist run, ?_, ?_, fun i hi => ⟨?_, persisted_stack_ne hi s⟩, rfl, rfl, rfl, rfl⟩
    · rw [persisted_stack]
    · rw [persisted_remaps, SMap.get_upd]
    · rw [persisted_remaps, SMap.get_upd_ne _ hi]

end Sys2Proof.Machine
end

section
/-! PROOF. O48: reads and writes of BAR2 (R294, R308, R310, R357, R359, R381). -/

namespace Sys2Proof.Machine

/-! Errors that a port counts (R358, R359). -/

/-- A counter that goes up by one does so with vector 7, and else only the vector's cause and its delivery change. -/
theorem portErr_counted {p : PortId} {s z : State} (same : z.port p = s.port p) (count : Port → Nat) (f : Port → Port)
    (goes : count (f (s.port p)) = bump16 (count (s.port p)))
    (apart : ∀ c a, count { f (s.port p) with intCause := c, pba := a } = count (f (s.port p)) := by intros; rfl)
    (front : (s.port p).FrontKept (f (s.port p)) := by exact ⟨rfl, rfl, rfl, rfl⟩) :
    let t := portErr p f z
    Counted p (count (s.port p)) (count (t.port p)) s t ∧ z.out ⊆ t.out ∧
      { t with portA := z.portA, portB := z.portB, out := z.out } = z := by
  unfold portErr
  rw [same]
  by_cases top : f (s.port p) = s.port p
  · have held : count (s.port p) = bump16 (count (s.port p)) := by rw [← goes, top]
    rw [if_pos top]
    refine ⟨⟨(congrArg count same).trans held, fun below => ?_⟩, List.Subset.refl _, rfl⟩
    unfold bump16 at held
    omega
  · rw [if_neg top]
    have port : (z.updPort p f).port p = f (s.port p) := by rw [State.port_updPort, same]
    obtain ⟨signal, ⟨c, a, vector⟩, -, out, frame⟩ :=
      raiseVector_signalled (s := s) (v := 7) (z := z.updPort p f) (by rw [port]; exact front.sends 7)
    rw [State.updPort_out] at out
    rw [port] at vector
    refine ⟨⟨by rw [vector, apart, goes], fun _ => signal⟩, ?_, ?_⟩
    · obtain out | out := out <;> rw [out]
      · exact List.Subset.refl _
      · exact List.subset_append_left ..
    · refine (congrArg (fun t : State => { t with portA := z.portA, portB := z.portB, out := z.out }) frame :).trans ?_
      cases p <;> rfl

/-! Reads within a line (R357). -/

theorem bar2Spans_one {o n : Nat} (pos : 1 ≤ n) (fits : o % 64 + n ≤ 64) (k : Nat) : bar2Spans (k + 2) o n = [(o, n)] := by
  have all : min n (64 - o % 64) = n := by omega
  rw [bar2Spans, if_neg (by omega)]
  dsimp only
  rw [all, Nat.sub_self, bar2Spans, if_pos rfl]

/-- BAR2_READ of bytes within one line: an unmapped page completes it at once, a mapped one asks for the line. -/
theorem exec_bar2Read {p : PortId} {o n : Nat} {env : Env} {s₀ s : State} (upsets : applyUpsets env.upsets s₀ = s) (pos : 1 ≤ n)
    (fits : o % 64 + n ≤ 64) (reached : s.reaches p = true) {y : Bar2Line} (need : bar2Need p s (o, n) = y) :
    exec (.bar2Read p o n env) s₀ = .next (if y.got.isSome = true then bar2End p ⟨(s.port p).readNext, [y], true⟩ s
      else bar2Ask p (s.port p).readNext (s.updPort p fun x =>
        { x with reads := x.reads ++ [⟨(s.port p).readNext, [y], false⟩], readNext := (s.port p).readNext + 1 }) y) := by
  change execBar2Read p o n env s₀ = _
  unfold execBar2Read
  dsimp only
  rw [upsets, if_pos reached, bar2Spans_one pos fits, List.map_singleton, need]
  cases h : y.got.isSome <;> simp [Bar2Read.whole, h]

theorem bar2Need_unmapped {p : PortId} {s : State} {o n : Nat} (unmapped : SMap.get none (o / 0x200000) (s.port p).bar2 = none) :
    bar2Need p s (o, n) = ⟨0, 0, 0, n, some (List.replicate n 0xFF, false)⟩ := by
  unfold bar2Need
  dsimp only
  rw [unmapped]

theorem bar2Need_mapped {p : PortId} {s : State} {o n q off : Nat}
    (mapped : SMap.get none (o / 0x200000) (s.port p).bar2 = some (q, off)) :
    let pa := hbmTarget (s.part q) (off + o % 0x200000)
    bar2Need p s (o, n) = ⟨q, pa / 64, pa % 64, n, none⟩ := by
  unfold bar2Need
  dsimp only
  rw [mapped]

/-- A read of an unmapped page gives its bytes and counts. -/
theorem bar2End_unmapped (p : PortId) (k a b c n : Nat) (bs : List Byte) (s : State) :
    bar2End p ⟨k, [⟨a, b, c, n, some (bs, false)⟩], true⟩ s =
      portErr p (fun x => { x with bar2Unmap := bump16 x.bar2Unmap }) (s.emit (.bar2Data p bs false)) := by
  simp [bar2End]

/-- The stack of a line is that of each of its bytes (R293). -/
theorem hbmDecode_line_stack (pa : Nat) : (hbmDecode (64 * (pa / 64))).stack = (hbmDecode pa).stack := by
  have low : 64 * (pa / 64) / 2 ^ 8 = pa / 2 ^ 8 := by omega
  have high : 64 * (pa / 64) / 2 ^ 19 = pa / 2 ^ 19 := by omega
  unfold hbmDecode
  dsimp only
  rw [low, high]

/-- A BAR2 read waits for a line of HBM at the regulator of the partition whose it is (R308, R310). -/
theorem bar2Ask_hbm {p : PortId} {s : State} {q pa n : Nat} (inside : pa < 0x6000000000) (k : Nat) (f : Port → Port) :
    bar2Ask p k (s.updPort p f) ⟨q, pa / 64, pa % 64, n, none⟩ = updReg (hbmDecode pa).stack q (fun g => { g with waiting := g.waiting ++
      [mkReq q (hostMoverUnit q s) (s.part q).turn false (pa / 64) (.bar2 p k) s] }) (s.updPort p f) := by
  have part : (s.updPort p f).part q = s.part q := State.part_updPort ..
  have place : locate (64 * (pa / 64)) = .hbm := if_pos (by omega)
  unfold bar2Ask mkReq hostMoverUnit
  rw [part, if_neg (by simp), submit_hbm place, hbmDecode_line_stack]

/-- A line without error that comes for a BAR2 read of that line alone completes it. -/
theorem bar2Got_only {p : PortId} {k line q first m : Nat} {l : Line} {s : State} (good : l.bad = 0)
    (read : (s.port p).reads.find? (fun x => x.k == k) = some ⟨k, [⟨q, line, first, m, none⟩], false⟩) :
    bar2Got p k line l s = (s.updPort p fun y => { y with reads := y.reads.filter fun r => r.k != k }).emit
      (.bar2Data p ((l.bytes.drop first).take m) false) := by
  unfold bar2Got
  rw [read]
  simp [Bar2Line.take, Bar2Read.whole, bar2End, good]

/-- Settles O48: an unmapped page by the count of its port, a mapped one by the request at the regulator and the line that the stack
gives it, a write by its count. -/
theorem bar2Access : Obligations.Bar2Access := by
  intro p o n env s₀ s pos fits reached
  refine ⟨fun unmapped => ?unmapped, fun q off mapped => ?mapped,
    fun k pc i e q first m entry may user spare read who waits => ?served, fun bs => ?write⟩
  case unmapped =>
    have next := (exec_bar2Read rfl pos fits reached (bar2Need_unmapped unmapped)).trans (congrArg _ (if_pos rfl))
    rw [bar2End_unmapped] at next
    obtain ⟨counted, outs, frame⟩ := portErr_counted (s.port_emit p (.bar2Data p (List.replicate n 0xFF) false)) Port.bar2Unmap
      (fun x => { x with bar2Unmap := bump16 x.bar2Unmap }) rfl
    exact ⟨_, next, outs (List.mem_append_right _ (List.mem_singleton.2 rfl)), counted,
      (congrArg (fun t : State => { t with out := s.out }) frame :)⟩
  case mapped =>
    intro pa k r inside
    have next := (exec_bar2Read rfl pos fits reached (bar2Need_mapped mapped)).trans (congrArg _ (if_neg Bool.false_ne_true))
    rw [bar2Ask_hbm inside] at next
    refine ⟨_, next, ?_, ?_, ?_, ?_⟩
    · rw [updReg, State.port_updStack, State.port_updPort]
    · rw [updReg_regulator, State.stack_updPort]
    · rw [updReg, State.port_updStack, State.port_updPort]
    · cases p <;> rfl
  case served =>
    obtain ⟨z, next, frame⟩ := exec_hbmServe_read rfl entry may user spare read
    have port : z.port p = s.port p := by
      cases p
      · exact (congrArg State.portA frame :)
      · exact (congrArg State.portB frame :)
    have out : z.out = s.out := (congrArg State.out frame :)
    have hbm : z.hbm = s.hbm := (congrArg State.hbm frame :)
    rw [← port] at waits
    rw [answerRead, who] at next
    dsimp only at next
    rw [bar2Got_only rfl waits] at next
    refine ⟨_, next, ?_, ?_, ?_⟩
    · rw [← out]
      exact congrArg (· ++ _) (State.updPort_out ..)
    · rw [State.port_emit, State.port_updPort, port]
    · rw [State.emit_hbm, State.updPort_hbm, hbm]
  case write =>
    obtain ⟨counted, -, frame⟩ := portErr_counted (p := p) (s := s) rfl Port.bar2Wr (fun x => { x with bar2Wr := bump16 x.bar2Wr }) rfl
    exact ⟨_, congrArg Host.Outcome.next (if_pos reached), counted, frame⟩

end Sys2Proof.Machine
end

section
/-! PROOF. O41: access counters halve, hot pages go to the ring of the port that owns their partition (R325, R326, R334, R360). -/

namespace Sys2Proof.Machine

theorem exec_accessCounterDecay_due {d : DieId} {s : State} (due : (s.die d).decayed ≠ (s.die d).refcyc / 2 ^ 20) :
    exec (.accessCounterDecay d) s = .next (s.updDie d fun x => { x.acc.foldl decayCtr x with decayed := (x.decayed + 1) % 2 ^ 28 }) :=
  congrArg Host.Outcome.next (if_pos due)

/-- A die with no threshold has its counters halved and appends no hot page (R325). -/
theorem decayCtr_noThreshold {x : Die} (off : x.hotThresh = 0) (n : Nat) (y : AccCtr) :
    decayCtr x (n, y) = { x with acc := SMap.set AccCtr.free n { y with count := y.count / 2 } x.acc } :=
  if_neg fun h => h.1 off

/-- The head of a die's hot-page queue leaves it for the firmware, which takes it for the port that owns its partition (R326). -/
theorem exec_hpqHeadRead_owned {d : DieId} {h : HotEntry} {rest : List HotEntry} {s : State} (fw : s.hs.fwRun = true)
    (head : (s.die d).hpq = h :: rest) (owned : (s.part h.part).st ≠ .empty) :
    exec (.hpqHeadRead d) s = .next (((s.updDie d fun x => { x with hpq := rest }).emit
      (.dieRead d (BitVec.ofNat 64 (hotWords h).1) (BitVec.ofNat 64 (hotWords h).2))).updPort (s.part h.part).owner
        fun x => { x with hot := x.hot ++ [h] }) := by
  refine congrArg Host.Outcome.next ((if_pos fw).trans ?_)
  rw [head]
  exact if_neg owned

theorem exec_hpqHeadRead_empty {d : DieId} {s : State} (fw : s.hs.fwRun = true) (none_waits : (s.die d).hpq = []) :
    exec (.hpqHeadRead d) s = .next (s.emit (.dieRead d 0 0)) := by
  refine congrArg Host.Outcome.next ((if_pos fw).trans ?_)
  rw [none_waits]

theorem exec_hpqStatusRead {d : DieId} {s : State} (fw : s.hs.fwRun = true) :
    exec (.hpqStatusRead d) s = .next ((s.emit (.dieRead d (BitVec.ofNat 64 (hpqStatus (s.die d))) 0)).updDie d
      fun x => { x with hpqDrop := 0 }) :=
  congrArg Host.Outcome.next (if_pos fw)

/-- A ring that is not enabled takes nothing and does not change (R360). -/
theorem Ring.put_off {r : Ring} (off : r.en = false) (n : Nat) : r.put n = (r, none) := by
  unfold Ring.put
  rw [off]
  rfl

/-- A ring with a free place takes an entry at TAIL, which goes on (R360). -/
theorem Ring.put_room {r : Ring} (on : r.en = true) (room : (r.tail + 65536 - r.head) % 65536 ≠ 2 ^ (r.size + 4)) (n : Nat) :
    r.put n = ({ r with tail := (r.tail + 1) % 65536 }, some (r.base + n * (r.tail % 2 ^ (r.size + 4)))) := by
  unfold Ring.put
  dsimp only
  rw [if_neg (by simp [on]), if_neg room]

/-- The bytes of a hot-page entry in its ring (R326). -/
def hotBytes (h : HotEntry) : List Byte := leBytes (hotWords h).1 8 ++ leBytes (hotWords h).2 8

section
variable {p : PortId} {h : HotEntry} {rest : List HotEntry} {s : State}

theorem exec_hotPageRingWrite_off (fw : s.hs.fwRun = true) (oldest : (s.port p).hot = h :: rest) (off : (s.port p).hpr.en = false) :
    exec (.hotPageRingWrite p) s = .next (s.updPort p fun x => { x with hot := rest, hpr := (s.port p).hpr }) := by
  refine congrArg Host.Outcome.next ?_
  rw [oldest]
  refine (if_pos fw).trans ?_
  rw [Ring.put_off off]

theorem exec_hotPageRingWrite_room (fw : s.hs.fwRun = true) (oldest : (s.port p).hot = h :: rest) (on : (s.port p).hpr.en = true)
    (room : ((s.port p).hpr.tail + 65536 - (s.port p).hpr.head) % 65536 ≠ 2 ^ ((s.port p).hpr.size + 4)) :
    exec (.hotPageRingWrite p) s = .next (raiseVector p 6
      ((s.updPort p fun x => { x with hot := rest, hpr := { (s.port p).hpr with tail := ((s.port p).hpr.tail + 1) % 65536 } }).emit
        (.hostWrite p ((s.port p).hpr.base + 16 * ((s.port p).hpr.tail % 2 ^ ((s.port p).hpr.size + 4))) (hotBytes h)))) := by
  refine congrArg Host.Outcome.next ?_
  rw [oldest]
  refine (if_pos fw).trans ?_
  rw [Ring.put_room on room]
  rfl

/-- The entry written to the ring: TAIL goes on, and vector 6 with its cause comes (R326, R358, R360). -/
theorem hotPageRingWrite_writes (fw : s.hs.fwRun = true) (oldest : (s.port p).hot = h :: rest) (on : (s.port p).hpr.en = true)
    (room : ((s.port p).hpr.tail + 65536 - (s.port p).hpr.head) % 65536 ≠ 2 ^ ((s.port p).hpr.size + 4)) :
    ∃ t, exec (.hotPageRingWrite p) s = .next t ∧ (t.port p).hot = rest ∧
      (t.port p).hpr = { (s.port p).hpr with tail := ((s.port p).hpr.tail + 1) % 65536 } ∧ bitOf (t.port p).intCause 6 = true ∧
      .hostWrite p ((s.port p).hpr.base + 16 * ((s.port p).hpr.tail % 2 ^ ((s.port p).hpr.size + 4))) (hotBytes h) ∈ t.out := by
  have next := exec_hotPageRingWrite_room fw oldest on room
  generalize hz : (s.updPort p fun x => { x with hot := rest, hpr := { (s.port p).hpr with tail := ((s.port p).hpr.tail + 1) % 65536 } }).emit
    (.hostWrite p ((s.port p).hpr.base + 16 * ((s.port p).hpr.tail % 2 ^ ((s.port p).hpr.size + 4))) (hotBytes h)) = z at next
  have port : z.port p = { s.port p with hot := rest, hpr := { (s.port p).hpr with tail := ((s.port p).hpr.tail + 1) % 65536 } } := by
    rw [← hz, State.port_emit, State.port_updPort]
  have out : .hostWrite p ((s.port p).hpr.base + 16 * ((s.port p).hpr.tail % 2 ^ ((s.port p).hpr.size + 4))) (hotBytes h) ∈ z.out := by
    rw [← hz]
    exact List.mem_append_right _ (List.mem_singleton.2 rfl)
  obtain ⟨⟨cause, -, -⟩, ⟨c, a, vector⟩, -, sent, -⟩ := raiseVector_signalled (p := p) (v := 6) (s := z) (z := z) rfl
  refine ⟨_, next, ?_, ?_, cause, ?_⟩
  · rw [vector, port]
  · rw [vector, port]
  · obtain sent | sent := sent <;> rw [sent]
    · exact out
    · exact List.mem_append_left _ out

end

/-- Settles O41: each command is one change of its die and of one port. -/
theorem hotPages : Obligations.HotPages := by
  intro d p s
  refine ⟨fun n y due one off => ?_, fun even => congrArg Host.Outcome.next (if_neg (not_not.2 even)), fun fw =>
    ⟨fun h rest head owned => ?_, exec_hpqHeadRead_empty fw, ?_, fun h rest oldest => ⟨fun off => ?_, fun on room => ?_⟩⟩⟩
  · refine ⟨_, exec_accessCounterDecay_due due, ?_⟩
    rw [State.die_updDie, one, List.foldl_cons, List.foldl_nil, decayCtr_noThreshold off]
    exact ⟨rfl, SMap.get_set AccCtr.free .., rfl, rfl⟩
  · refine ⟨_, exec_hpqHeadRead_owned fw head owned, ?_, ?_, ?_⟩
    · rw [State.die_updPort, State.die_emit, State.die_updDie]
    · rw [State.port_updPort, State.port_emit, State.port_updDie]
    · rw [State.updPort_out]
      rfl
  · exact ⟨_, exec_hpqStatusRead fw, State.die_updDie .., rfl, rfl⟩
  · exact ⟨_, exec_hotPageRingWrite_off fw oldest off, by rw [State.port_updPort], State.updPort_out ..⟩
  · obtain ⟨t, next, hot, hpr, cause, written⟩ := hotPageRingWrite_writes fw oldest on room
    exact ⟨t, next, hot, hpr, cause, hotBytes h, written, by simp [hotBytes]⟩

end Sys2Proof.Machine
end

section
/-! SUPPORT. What the steps of the moves that wait on no host leave (R268 to R270, R332): the HBM memory, and of every partition its
state, its regions and its migration. A state of any form is meant here, also one that lists a die twice, where an entry that
a fault queue does not show comes to light as the TLBs of its dies change. -/

namespace Sys2Proof.Machine

/-- What a migration's end depends on of a partition. -/
def Part.mapped (x : Part) : PartSt × List Region × Option Migration := (x.st, x.regions, x.migr)

/-- The HBM memory is as it was, and what every partition maps. -/
structure State.MapsKept (s t : State) : Prop where
  hbm : t.hbm = s.hbm
  part : ∀ q, (t.part q).mapped = (s.part q).mapped

theorem State.Accounted.hbm_eq {s t : State} (h : s.Accounted t) : t.hbm = s.hbm := (congrArg State.hbm h.rest :)

namespace State.MapsKept

variable {s t u : State}

theorem refl (s : State) : s.MapsKept s := ⟨rfl, fun _ => rfl⟩

theorem trans (h : s.MapsKept t) (k : t.MapsKept u) : s.MapsKept u := ⟨k.hbm.trans h.hbm, fun q => (k.part q).trans (h.part q)⟩

theorem of_parts (hparts : t.parts = s.parts) (hhbm : t.hbm = s.hbm) : s.MapsKept t :=
  ⟨hhbm, fun q => congrArg Part.mapped (State.part_of hparts q)⟩

theorem updPart (i : Nat) (f : Part → Part) (s : State) (hf : ∀ x, (f x).mapped = x.mapped := by intro; rfl) :
    s.MapsKept (s.updPart i f) := by
  refine ⟨rfl, fun q => ?_⟩
  by_cases e : q = i
  · rw [e, State.part_updPart, hf]
  · rw [State.part_updPart_ne s e]

theorem ite {p : Prop} [Decidable p] (h : s.MapsKept t) (k : s.MapsKept u) : s.MapsKept (if p then t else u) := by
  split
  · exact h
  · exact k

theorem foldl {α : Type} {g : State → α → State} (hg : ∀ (z : State) a, z.MapsKept (g z a)) (l : List α) (s : State) :
    s.MapsKept (l.foldl g s) := by
  induction l generalizing s with
  | nil => exact refl s
  | cons a l ih => exact (hg s a).trans (ih _)

/-! Translations (R315, R318, R321) and requests (R284). -/

theorem chatter (r : Res) (a : Nat) (s : State) : s.MapsKept (chatter r a s) :=
  of_parts ((State.Accounted.refl s).chatter r a).parts_eq ((State.Accounted.refl s).chatter r a).hbm_eq

theorem chatterUe (r : Res) (a : Nat) (s : State) : s.MapsKept (chatterUe r a s) :=
  of_parts ((State.Accounted.refl s).chatterUe r a).parts_eq ((State.Accounted.refl s).chatterUe r a).hbm_eq

theorem walkRead (q va : Nat) (w : Bool) (s : State) : s.MapsKept (walkRead q va w s).1 := by
  refine foldl (fun z l => ?_) _ s
  unfold entryRead
  dsimp only
  split
  · exact refl z
  · exact (updPart q (fun x => { x with ptErr := SMap.set 0 (peKey l va) 0 x.ptErr }) z).trans (chatter ..)
  · exact chatterUe ..

theorem setTlb (v : TlbUser) (l : List TlbEntry) (e : Bool) (s : State) : s.MapsKept (setTlb v l e s) := by
  cases v <;> exact of_parts rfl rfl

theorem translateFar (v : TlbUser) (q va : Nat) (w : Bool) (s : State) : s.MapsKept (translateFar v q va w s).1 := by
  unfold Machine.translateFar translate
  dsimp only
  split
  · exact refl s
  · split
    · exact walkRead ..
    · split
      · exact ((setTlb ..).trans (chatter ..)).trans (walkRead ..)
      · split <;> exact refl s

theorem tlbInstall (v : TlbUser) (e : TlbEntry) (s : State) : s.MapsKept (tlbInstall v e s) := ite (refl s) (setTlb ..)

theorem countWindow (d q va pa : Nat) (s : State) : s.MapsKept (countWindow d q va pa s) := by
  unfold Machine.countWindow
  split <;> exact of_parts rfl rfl

/-- What a mover's access does once its address has a translation. -/
theorem translated (v : TlbUser) (d q va pa : Nat) (e : TlbEntry) (s : State) :
    s.MapsKept (Machine.countWindow d q va pa (Machine.tlbInstall v e s)) := (tlbInstall ..).trans (countWindow ..)

theorem submit (r : MemReq) (s : State) : s.MapsKept (submit r s) := by
  unfold Machine.submit
  split
  · exact of_parts rfl rfl
  · exact of_parts rfl rfl
  · exact ite (refl s) (ite (updPart r.part (replayWrite r) s) (foldl (fun z _ => of_parts (State.emit_parts (s := z) _) rfl) _ s))
  · exact refl s

theorem flushWcb (c q : Nat) (p : WcbLine → Bool) (s : State) : s.MapsKept (flushWcb c q p s) :=
  trans (t := s.updCore c _) (of_parts rfl rfl) (foldl (fun z _ => submit _ z) _ _)

theorem farZero (c line : Nat) (ro : Bool) (s : State) : s.MapsKept (farZero c line ro s) := by
  have offered (v : CacheLine) (z : State) : z.MapsKept (offerVictim v z) := by
    refine ite ?_ (refl z)
    unfold offerFill
    split <;> exact of_parts rfl rfl
  exact trans (t := s.updCore c _) (of_parts rfl rfl) (offered ..)

/-! Core stores (R77). -/

theorem touch (c w : Nat) (how : CwHow) (s : State) : s.MapsKept (touch c w how s) := by
  have counted := (touch_changed c w how s).rest
  exact of_parts counted.parts_eq counted.hbm_eq

theorem copyWords (c r : Nat) (d : MoveDesc) (n pos : Nat) (s : State) (z : Nat) : s.MapsKept (copyWords c r d n pos (s, z)).1 := by
  induction n generalizing pos s z with
  | zero => exact refl s
  | succ n ih => exact (touch c _ .read s).trans (trans (t := (Machine.touch c _ .read s).updCore r _) (of_parts rfl rfl) (ih ..))

theorem storeRead (c n a : Nat) (s : State) : s.MapsKept (storeRead c n a s).1 := by
  induction n generalizing a s with
  | zero => exact refl s
  | succ n ih => exact (touch c _ .read s).trans (ih ..)

theorem deliverWords (q : Nat) (d : MoveDesc) (pos : Nat) (ws : List TWord) (s : State) : s.MapsKept (deliverWords q d pos ws s) := by
  refine foldl (fun z lc => ?_) _ s
  split
  · exact of_parts rfl rfl
  · exact refl z

/-! The step of a mover (R268, R270, R271). -/

theorem updHead (m : MoverRef) (q : Nat) (f : MoveJob → MoveJob) (s : State) : s.MapsKept (updHead m q f s) := by
  cases m <;> exact of_parts rfl rfl

theorem servedNow (m : MoverRef) (q : Nat) (s : State) : s.MapsKept (servedNow m q s) := by
  cases m <;> exact of_parts rfl rfl

theorem moveRead (m : MoverRef) (q : Nat) (d : MoveDesc) (pos want : Nat) (acc : List Byte) (bad : Nat) (s : State) :
    s.MapsKept (moveRead m q d pos want acc bad s) := by
  have looked := translateFar (moverTlb m) q (d.srcAt pos + acc.length) false s
  unfold Machine.moveRead
  dsimp only
  generalize Machine.translateFar (moverTlb m) q (d.srcAt pos + acc.length) false s = x at looked
  obtain ⟨z, x⟩ := x
  cases x with
  | fail => exact looked.trans ((updHead ..).trans (updHead ..))
  | ok e =>
    have found := looked.trans (translated (moverTlb m) (moverDie m) q (d.srcAt pos + acc.length) (e.at (d.srcAt pos + acc.length)) e z)
    have asked (y : State) (h : s.MapsKept y) (pa : Nat) :
        s.MapsKept (Machine.updHead m q (fun j => { j with phase := .reading want acc bad (some pa) }) y) := h.trans (updHead ..)
    dsimp only
    cases m with
    | core c =>
      dsimp only
      split
      · exact asked _ (found.trans (flushWcb ..)) _
      · exact (asked _ (found.trans (flushWcb ..)) _).trans (submit ..)
    | bulk b =>
      dsimp only
      split
      · exact asked _ found _
      · exact (asked _ found _).trans (submit ..)

theorem moveWrite (m : MoverRef) (q : Nat) (d : MoveDesc) (pos : Nat) (bytes : List Byte) (bad : Bool) (s : State) :
    s.MapsKept (moveWrite m q d pos bytes bad s).1 := by
  have looked := translateFar (moverTlb m) q (d.dstAt pos) true s
  unfold Machine.moveWrite
  dsimp only
  generalize Machine.translateFar (moverTlb m) q (d.dstAt pos) true s = x at looked
  obtain ⟨z, x⟩ := x
  cases x with
  | fail => exact looked.trans (updHead ..)
  | ok e =>
    have found := looked.trans (translated (moverTlb m) (moverDie m) q (d.dstAt pos) (e.at (d.dstAt pos)) e z)
    have written (y : State) (h : s.MapsKept y) (host : Bool) (r : MemReq) (f g : MoveJob → MoveJob) (n : Nat) :
        s.MapsKept (if host = true then (pieceDone m q n (Machine.submit r (Machine.updHead m q f y)), true)
          else (Machine.submit r (Machine.updHead m q g (Machine.updHead m q f y)), false)).1 := by
      split
      · exact h.trans ((updHead ..).trans ((submit ..).trans (updHead ..)))
      · exact h.trans ((updHead ..).trans ((updHead ..).trans (submit ..)))
    dsimp only
    cases m with
    | core c =>
      refine written _ ?_ _ _ _ _ _
      exact found.trans (ite (farZero ..) (of_parts rfl rfl))
    | bulk b => exact written _ found _ _ _ _ _

theorem coreToFar (m : MoverRef) (q c : Nat) (d : MoveDesc) (pos n : Nat) (s : State) : s.MapsKept (coreToFar m q c d pos n s).1 := by
  have read := storeRead c n (d.srcAt pos) s
  unfold Machine.coreToFar
  dsimp only
  generalize Machine.storeRead c n (d.srcAt pos) s = x at read
  obtain ⟨y, bs, p, k⟩ := x
  have looked := read.trans (translateFar (moverTlb m) q (d.dstAt pos) true y)
  dsimp only at looked ⊢
  generalize Machine.translateFar (moverTlb m) q (d.dstAt pos) true y = x at looked
  obtain ⟨z, x⟩ := x
  cases x with
  | fail => exact looked.trans (updHead ..)
  | ok e =>
    dsimp only
    split
    · exact looked.trans ((updHead ..).trans ((updHead ..).trans (moveWrite ..)))
    · exact looked.trans ((updHead ..).trans (moveWrite ..))

theorem movePiece (m : MoverRef) (q : Nat) (d : MoveDesc) (pos : Nat) (s : State) : s.MapsKept (movePiece m q d pos s).1 := by
  unfold Machine.movePiece
  split
  · exact moveWrite ..
  · dsimp only
    split
    · split
      · split
        · exact (copyWords ..).trans ((updHead ..).trans (updHead ..))
        · exact refl s
      · split
        · exact coreToFar ..
        · exact moveRead ..
    · split
      · exact refl s
      · exact moveRead ..

/-- A step for which the host has no answer. -/
theorem moveStep (m : MoverRef) (q : Nat) (env : Env) (s : State) : s.MapsKept (moveStep m q false env s).1 := by
  unfold Machine.moveStep
  split
  · exact refl s
  · dsimp only
    split
    · exact refl s
    · split
      · exact refl s
      · exact refl s
      · split
        · exact (servedNow ..).trans (moveRead ..)
        · exact refl s
      · split
        · exact refl s
        · split
          · exact (deliverWords ..).trans (updHead ..)
          · exact (servedNow ..).trans (moveWrite ..)
      · split
        · exact refl s
        · exact (servedNow ..).trans (movePiece ..)

theorem moveRun (m : MoverRef) (q : Nat) (env : Env) (n : Nat) (s : State) : s.MapsKept (moveRun m q false env n s) := by
  induction n generalizing s with
  | zero => exact refl s
  | succ n ih =>
    have step := moveStep m q env s
    unfold Machine.moveRun
    generalize Machine.moveStep m q false env s = x at step
    obtain ⟨z, go⟩ := x
    cases go with
    | true => exact step.trans (ih z)
    | false => exact step

theorem bulkRun (d n : Nat) (s : State) : s.MapsKept (bulkRun d n s) := by
  induction n generalizing s with
  | zero => exact refl s
  | succ n ih =>
    unfold Machine.bulkRun
    split
    · exact refl s
    next q _ =>
      have step := moveStep (.bulk (dieNum d)) q Env.quiet s
      exact ite (step.trans (ih _)) step

theorem moveOn (m : MoverRef) (q : Nat) (env : Env) (s : State) : s.MapsKept (moveOn m q false env s) := by
  have run := moveRun m q env (moveFuel m q s) s
  cases m with
  | core c => exact run
  | bulk d => exact run.trans (bulkRun ..)

/-! Fault queues (R330, R332). -/

theorem retryEngine (d q n e : Nat) (s : State) : s.MapsKept (retryEngine d q n s e) := by
  unfold Machine.retryEngine
  dsimp only
  split
  · split
    · refine (updHead (engineMover d e) q (fun j => { j with stall := none }) s).trans (trans ?_ (moveOn ..))
      exact ite (of_parts rfl rfl) (refl _)
    · exact refl s
  · exact refl s

theorem enterFault {d e : Nat} (h : enterFault d e s = some t) : s.MapsKept t := by
  have put (q n : Nat) (y : FqEntry) : s.MapsKept (putFault d e q n y s) :=
    trans (t := s.updDie d fun x => { x with fq := SMap.set FqEntry.free n y x.fq }) (of_parts rfl rfl) (updHead ..)
  unfold Machine.enterFault at h
  obtain ⟨⟨q, f⟩, -, h⟩ := Option.bind_eq_some_iff.1 h
  dsimp only at h
  split at h
  · cases h
    exact put ..
  · obtain ⟨n, -, rfl⟩ := Option.map_eq_some_iff.1 h
    exact put ..

theorem enterStalled (d n : Nat) (s : State) : s.MapsKept (enterStalled d n s) := by
  have drop (rest : List Nat) (z : State) : z.MapsKept (z.updDie d fun x => { x with stalled := rest }) := of_parts rfl rfl
  induction n generalizing s with
  | zero => exact refl s
  | succ n ih =>
    unfold Machine.enterStalled
    split
    · exact refl s
    · dsimp only
      split
      · exact (drop ..).trans (ih _)
      · split
        next z h => exact (enterFault h).trans ((drop ..).trans (ih _))
        · exact refl s

theorem fqRetry (d n : Nat) (s : State) : s.MapsKept (fqRetry d n s) := by
  refine ite (trans ?_ (enterStalled d 110 _)) (of_parts rfl rfl)
  exact trans (t := s.updDie d _) (of_parts rfl rfl) (foldl (fun z e => retryEngine d _ n e z) _ _)

theorem retryRegion (q va : Nat) (s : State) : s.MapsKept (retryRegion q va s) :=
  foldl (fun z d => foldl (fun y n => fqRetry d n y) _ z) _ s

end State.MapsKept

end Sys2Proof.Machine
end

section
/-! PROOF. O42: a migration whose copy the host does not answer, and a host line that does not come (R327, R338, R484). -/

namespace Sys2Proof.Machine

/-- The leaves of a migration that has failed are host leaves again (R327). -/
def unmigrated (m : Migration) (gs : List Region) : List Region := changeRegion m.va (fun g => { g with mig := false }) gs

/-- A partition whose migration has failed (R327). -/
def Part.restored (q : Nat) (m : Migration) (x : Part) : Part :=
  { setRegions q (unmigrated m x.regions) x with regNext := unmigrated m x.regNext, migr := none }

/-- A migration undone leaves the HBM memory, and of its partition's state, regions and migration no more than the mark of its
region's leaves (R327). -/
theorem restoreMigration_spec (q : Nat) (m : Migration) (s : State) :
    let t := restoreMigration q m s
    t.hbm = s.hbm ∧ (t.part q).mapped = ((s.part q).st, unmigrated m (s.part q).regions, none) := by
  have invalidated : (s.updPart q (Part.restored q m)).MapsKept (invalidate q m.va 0x200000 (s.updPart q (Part.restored q m))) :=
    .of_parts rfl rfl
  obtain ⟨hbm, part⟩ := invalidated.trans (.retryRegion q m.va _)
  refine ⟨hbm, (part q).trans ?_⟩
  rw [State.part_updPart]
  rfl

theorem exec_migrationCopyComplete_fail {q : PartId} {m : Migration} {s : State} (under_way : (s.part q).migr = some m)
    (quiet : regionQuiet q (((regionsInside m.va 0x200000 (s.part q).regions).head?.map (·.pa)).getD 0) s = true) (f : HostFail) :
    exec (.migrationCopyComplete q (.fail f)) s = .next (finishMbx m.port m.mbx stHostLost [] (restoreMigration q m s)) := by
  refine congrArg Host.Outcome.next ?_
  rw [under_way]
  exact if_neg (by simp [quiet])

/-- The entry of a host line that does not come (R423, R484). -/
def hostLineEntry (q unit va iova : Nat) (f : HostFail) : LogEntry :=
  { LogEntry.ofCode 0x0027 .stop with part := some q, src := 0x20, addr := va, unit := unit, d0 := hostFailCode f, d1 := iova }

theorem exec_hostWindowReadFail {q : PartId} {u : UnitRef} {s : State} {va iova : Nat} (run : (s.part q).st = .running)
    (replay : (s.part q).replay = none) (unit : (s.part q).units.contains u = true) (awaits : awaitedLine q u s = some (va, iova))
    (f : HostFail) :
    exec (.hostWindowReadFail q u f) s = .next (stopWithin q .faulted stHostLost 0 (logEvent (hostLineEntry q (raceOf u s) va iova f) s)) := by
  refine congrArg Host.Outcome.next ((if_pos ⟨run, replay, unit⟩).trans ?_)
  rw [awaits]
  rfl

/-- An entry for a partition and then its stop: the entry stands where the stop makes none but its own (R338, R423). -/
theorem stopWithin_logEvent_entry {q : Nat} {e : LogEntry} {s z : State} (part : e.part = some q) (hs : z.hs = s.hs)
    (quiet : QuietStop q z) (st : PartSt) (a o : Nat) :
    SMap.get none s.hs.logNext (stopWithin q st a o (logEvent e z)).hs.log =
      some { e with refcyc := s.hs.refcyc, epoch := s.hs.epoch, turn := (z.part q).turn } := by
  have quiet_still : QuietStop q (logEvent e z) := quiet
  have later : z.hs.logNext ≠ (logEvent e z).hs.logNext := (logNext_succ_ne z.hs.logNext).symm
  rw [← hs, stopWithin_log_ne quiet_still later]
  exact logEvent_log_part part z

/-- Settles O42: the migration is undone by its region's leaves alone, and the line that does not come is entered before the stop. -/
theorem hostReadsFail : Obligations.HostReadsFail := by
  intro q s
  refine ⟨fun m f under_way quiet _ => ?_, fun u f va iova run replay unit awaits => ?_⟩
  · obtain ⟨hbm, mapped⟩ := restoreMigration_spec q m s
    simp only [Part.mapped, Prod.mk.injEq] at mapped
    obtain ⟨st, regions, migr⟩ := mapped
    refine ⟨_, exec_migrationCopyComplete_fail under_way quiet f, ?_⟩
    unfold finishMbx
    rw [State.part_updMbx, State.mbx_updMbx, State.updMbx_hbm]
    exact ⟨migr, regions, rfl, hbm, st⟩
  · have only : s.StopOnly (logEvent (hostLineEntry q (raceOf u s) va iova f) s) := logEvent_stopOnly _ s (.refl s)
    exact ⟨_, exec_hostWindowReadFail run replay unit awaits f, stopWithin_stoppedWithin run (.inl replay) rfl only,
      fun quiet => ⟨_, stopWithin_logEvent_entry rfl rfl quiet .., rfl, rfl, rfl, rfl⟩⟩

end Sys2Proof.Machine
end

section
/-! PROOF. O44: the doorbells of a stream and the fetch of a submission entry (R369 to R372, R375). -/

namespace Sys2Proof.Machine

/-! Doorbells (R369, R370). -/

/-- An accepted doorbell takes its stream's indices to the new ones, modulo 2^16, and forward (R370). -/
theorem ring_spec {y : Stream} {tail head : Nat} (ok : doorbellOk y tail head = true) (ht : tail < 65536) (hh : head < 65536) :
    let z := ring tail head y
    z.sqTail % 65536 = tail ∧ z.cqHead % 65536 = head ∧ y.sqTail ≤ z.sqTail ∧ z.sqTail ≤ y.sqTail + y.entries ∧
    y.cqHead ≤ z.cqHead ∧ z = { y with sqTail := z.sqTail, cqHead := z.cqHead } := by
  simp only [doorbellOk, Bool.and_eq_true, decide_eq_true_eq] at ok
  obtain ⟨⟨-, near⟩, -⟩ := ok
  dsimp only [ring]
  refine ⟨?_, ?_, ?_, ?_, ?_, rfl⟩ <;> omega

theorem updStream_stream {q n : Nat} {y : Stream} {s : State} (h : (s.part q).stream n = some y) (f : Stream → Stream) :
    ((updStream q n f s).part q).stream n = some (f y) := by
  rw [updStream, State.part_updPart]
  refine (SMap.get_upd (none : Option Stream) n _ (s.part q).streams).trans ?_
  rw [show SMap.get none n (s.part q).streams = some y from h]
  rfl

section
variable {p : PortId} {q : PartId} {n : Fin 64} {v : Word} {s : State}

/-- The doorbell of a partition that the port does not own (R369). -/
theorem exec_streamDoorbell_foreign (reached : s.reaches p = true) (open_port : (s.port p).quiesced = false)
    (foreign : (s.part q).st = .empty ∨ (s.part q).owner ≠ p) :
    exec (.streamDoorbell p q n v) s = .next (portErr p (fun x => { x with dbIgnored := bump16 x.dbIgnored }) s) :=
  congrArg Host.Outcome.next ((if_pos reached).trans ((if_neg (by simp [open_port])).trans (if_pos foreign)))

/-- The doorbell of an open stream of a partition that the port owns (R370). -/
theorem exec_streamDoorbell_open (reached : s.reaches p = true) (open_port : (s.port p).quiesced = false)
    (st : (s.part q).st ≠ .empty) (owner : (s.part q).owner = p) {y : Stream} (hy : (s.part q).stream n = some y) :
    exec (.streamDoorbell p q n v) s = .next (if doorbellOk y (wf64 v 15 0) (wf64 v 31 16) = true then
        updStream q n (ring (wf64 v 15 0) (wf64 v 31 16)) s
      else portErr p (fun x => { x with ringErr := bump16 x.ringErr }) s) := by
  refine congrArg Host.Outcome.next ((if_pos reached).trans ((if_neg (by simp [open_port])).trans ((if_neg (by simp [st, owner])).trans ?_)))
  rw [hy]

end

/-- A counter of errors goes up, and no partition changes (R359). -/
theorem portErr_counts {p : PortId} {s : State} (count : Port → Nat) (f : Port → Port) (goes : count (f (s.port p)) = bump16 (count (s.port p)))
    (apart : ∀ c a, count { f (s.port p) with intCause := c, pba := a } = count (f (s.port p)) := by intros; rfl)
    (front : (s.port p).FrontKept (f (s.port p)) := by exact ⟨rfl, rfl, rfl, rfl⟩) :
    Counted p (count (s.port p)) (count ((portErr p f s).port p)) s (portErr p f s) ∧ (portErr p f s).parts = s.parts := by
  obtain ⟨counted, -, frame⟩ := portErr_counted (s := s) (z := s) rfl count f goes apart front
  exact ⟨counted, (congrArg State.parts frame :)⟩

theorem streamDoorbellsRule : StreamDoorbellsRule := by
  intro p q n v s reached open_port
  refine ⟨fun y st owner hy => ⟨fun ok => ?_, fun bad => ?_⟩, fun foreign => ?_⟩
  · obtain ⟨tail, head, forward, room, taken, eq⟩ := ring_spec ok (wf64_lt v 15 0) (wf64_lt v 31 16)
    have next := exec_streamDoorbell_open (v := v) reached open_port st owner hy
    rw [if_pos ok] at next
    exact ⟨_, _, next, updStream_stream hy _, tail, head, forward, room, taken, eq, rfl⟩
  · have next := exec_streamDoorbell_open (v := v) reached open_port st owner hy
    rw [if_neg (by simp [bad])] at next
    exact ⟨_, next, portErr_counts Port.ringErr _ rfl⟩
  · exact ⟨_, exec_streamDoorbell_foreign reached open_port foreign, portErr_counts Port.dbIgnored _ rfl⟩

/-! A completion entry and what it leaves (R375). -/

/-- A vector changes its port and what has been put out, and nothing else. -/
theorem msix_frame (p : PortId) (v : Nat) (s : State) : { msix p v s with portA := s.portA, portB := s.portB, out := s.out } = s := by
  unfold msix
  split
  · cases p <;> rfl
  · rfl

theorem msix_parts (p : PortId) (v : Nat) (s : State) : (msix p v s).parts = s.parts := (congrArg State.parts (msix_frame p v s) :)

/-- A completion entry changes the streams of its partition, and outside the partitions only a port and what has been put out. -/
theorem putCompletion_frame (q n cstat len : Nat) (user : Word) (sub turn : Nat) (s : State) :
    let t := putCompletion q n cstat len user sub turn s
    { t with parts := s.parts, portA := s.portA, portB := s.portB, out := s.out } = s ∧
    ∃ l, t.part q = { s.part q with streams := l } := by
  unfold putCompletion
  dsimp only
  split
  · exact ⟨rfl, _, rfl⟩
  next y _ =>
    refine ⟨(congrArg (fun t : State => { t with parts := s.parts, portA := s.portA, portB := s.portB, out := s.out })
      (msix_frame _ y.vector _) :), ?_⟩
    rw [State.part_of (msix_parts ..), updStream, State.part_updPart]
    exact ⟨_, rfl⟩

/-! The fetch of a submission entry (R371, R372). -/

/-- What R371 and R372 ask of a submission entry of a stream. -/
def entryGood (x : Part) (d : StreamDecl) (bs : List Byte) : Prop :=
  fieldAt bs 12 4 = 0 ∧ fieldAt bs 24 8 = 0 ∧ 1 ≤ fieldAt bs 8 4 ∧ fieldAt bs 8 4 ≤ d.bytes ∧
    ∃ w, x.windowOf (subEntry bs).buf (subEntry bs).len = some w

/-- The check that FRAME_FETCH makes of an entry. -/
theorem entryBad_iff (x : Part) (d : StreamDecl) (bs : List Byte) :
    (!(subEntry bs).clear || decide ((subEntry bs).len < 1) || decide (d.bytes < (subEntry bs).len)
      || (x.windowOf (subEntry bs).buf (subEntry bs).len).isNone) = true ↔ ¬ entryGood x d bs := by
  have window : (x.windowOf (subEntry bs).buf (subEntry bs).len).isNone = true ↔
      ¬ ∃ w, x.windowOf (subEntry bs).buf (subEntry bs).len = some w := by
    cases x.windowOf (subEntry bs).buf (subEntry bs).len <;> simp
  rw [Bool.or_eq_true, window]
  unfold entryGood
  generalize (∃ w, x.windowOf (subEntry bs).buf (subEntry bs).len = some w) = inside
  simp only [Bool.or_eq_true, decide_eq_true_eq]
  simp only [subEntry, Bool.not_eq_true', Bool.and_eq_false_iff, decide_eq_false_iff_not]
  by_cases h : inside <;> simp only [h, not_true_eq_false, not_false_eq_true, or_true, or_false, and_true, and_false]
  omega

theorem padTo_of_length {n : Nat} {bs : List Byte} (h : bs.length = n) : padTo n bs = bs := by
  rw [padTo, List.take_of_length_le h.le, h, Nat.sub_self, List.replicate_zero, List.append_nil]

theorem exec_frameFetch_entry {q : PartId} {n : Fin 64} {bs : List Byte} {y : Stream} {d : StreamDecl} {s : State}
    (run : (s.part q).st = .running) (turn : (s.part q).turn ≠ 0) (replay : (s.part q).replay = none)
    (hy : (s.part q).stream n = some y) (hd : (s.part q).decl n = some d) (input : d.output = false)
    (may : mayFetch q y s = true) (len : bs.length = 32) :
    exec (.frameFetch q n (.data bs)) s = .next (if (!(subEntry bs).clear || decide ((subEntry bs).len < 1)
        || decide (d.bytes < (subEntry bs).len) || ((s.part q).windowOf (subEntry bs).buf (subEntry bs).len).isNone) = true then
        fetchFails q n y.taken csBadEntry (y.sqIova + 32 * (y.taken % y.entries)) (subEntry bs).user s
      else updStream q n (fun y => { y with
        fetch := some ⟨y.taken, (subEntry bs).buf, (subEntry bs).len, (subEntry bs).user, []⟩ }) s) := by
  change execFrameFetch q n (.data bs) s = _
  unfold execFrameFetch
  dsimp only
  rw [hy, hd]
  dsimp only
  rw [if_neg (by simp [run, turn, input, may]), replay]
  dsimp only
  rw [padTo_of_length len]

/-- The entry of a stream failure (R423). -/
def streamEntry (unit q n cstat addr index : Nat) : LogEntry :=
  { LogEntry.ofCode 0x0024 .stop with
    part := some q, src := 0x20, addr := addr, unit := unit, d0 := cstat % 256 + n % 64 * 256, d1 := index }

/-- A fetch that fails: its completion entry touches no core, die or log, then come its own entry in the log and the stop (R372). -/
theorem fetchFails_stops {q : Nat} {s : State} (run : (s.part q).st = .running) (replay : (s.part q).replay = none)
    (n k cstat addr : Nat) (user : Word) :
    let t := fetchFails q n k cstat addr user s
    (t.part q).st = .faulted ∧ (t.part q).stopStat = 0x02 ∧
    (QuietStop q s → ∃ l, SMap.get none s.hs.logNext t.hs.log = some l ∧ l.code = 0x0024) := by
  obtain ⟨unit, z, eq, frame, l, part⟩ : ∃ unit z,
      fetchFails q n k cstat addr user s = stopWithin q .faulted stBadCommand 0 (logEvent (streamEntry unit q n cstat addr k) z) ∧
      { z with parts := s.parts, portA := s.portA, portB := s.portB, out := s.out } = s ∧
      ∃ l, z.part q = { s.part q with streams := l } := by
    refine ⟨_, _, rfl, ?_, ?_⟩
    · exact (congrArg (fun t : State => { t with parts := s.parts }) (putCompletion_frame q n cstat 0 user k _ _).1 :)
    · refine (putCompletion_frame q n cstat 0 user k _ _).2.imp fun l part => part.trans ?_
      rw [updStream, State.part_updPart]
  have hs : z.hs = s.hs := (congrArg State.hs frame :)
  have core (c : Nat) : z.core c = s.core c := State.core_of (congrArg State.cores frame :) c
  have bulk (d : Nat) : z.bulkOf d q = s.bulkOf d q := by
    have dies : z.dies = s.dies := (congrArg State.dies frame :)
    rw [State.bulkOf, State.die_of dies, State.bulkOf]
  obtain ⟨st, stat, -⟩ := stopWithin_part q .faulted stBadCommand 0 (logEvent (streamEntry unit q n cstat addr k) z)
    (by rw [logEvent_part, part]; exact run) (by rw [logEvent_part, part]; simp [replay])
  intro t
  rw [show t = _ from eq]
  refine ⟨st, stat, fun quiet => ⟨_, stopWithin_logEvent_entry rfl hs ⟨fun c hc => ?_, fun d j hj => ?_⟩ .., rfl⟩⟩
  · rw [core]
    refine quiet.1 c ?_
    rw [part] at hc
    exact hc
  · rw [bulk] at hj
    exact quiet.2 d j hj

theorem frameFetchBeginsRule : FrameFetchBeginsRule := by
  intro q n bs y d s run turn replay hy hd input may len e good
  have next := exec_frameFetch_entry run turn replay hy hd input may len
  refine ⟨fun h => ?_, fun h => ?_⟩
  · rw [if_neg fun bad => (entryBad_iff (s.part q) d bs).1 bad h] at next
    exact ⟨_, next, updStream_stream hy _, rfl⟩
  · rw [if_pos ((entryBad_iff (s.part q) d bs).2 h)] at next
    exact ⟨_, next, fetchFails_stops run replay ..⟩

end Sys2Proof.Machine
end

section
/-! SUPPORT. Bytes stored in a core store (R163), and what the recorder's writes and the counts of an event leave (R273, R427). -/

namespace Sys2Proof.Machine

/-! Bytes stored word by word. -/

theorem maskedWord_parts (c w mask : Nat) (new : List Byte) (tag : Tag) (s : State) : (maskedWord c w mask new tag s).parts = s.parts := by
  unfold maskedWord
  split
  · rfl
  · exact (touch_changed c w .merge s).rest.parts_eq

theorem storeBytes_parts (c : Nat) (tag : Tag) (k a : Nat) (bs : List Byte) (s : State) :
    (storeBytes c tag k a bs s).parts = s.parts := by
  induction k generalizing a bs s with
  | zero => rfl
  | succ k ih =>
    unfold storeBytes
    split
    · rfl
    · exact (ih ..).trans (maskedWord_parts ..)

/-- A write under a mask meets its own word alone. -/
theorem maskedWord_word_ne {w i : Nat} (h : i ≠ w) (c mask : Nat) (new : List Byte) (tag : Tag) (s : State) :
    ((maskedWord c w mask new tag s).core c).word i = (s.core c).word i := by
  unfold maskedWord
  split
  · rw [State.core_updCore]
    exact ((putWord_spec ..).2 i h).1
  · have read := (touched_spec (s.core c) w).2.1 i h
    rw [State.core_updCore, touch_core]
    exact (SMap.get_set_ne TWord.zero h ..).trans read.1

/-- A write under a full mask leaves the word that its bytes spell. -/
theorem maskedWord_full (c w : Nat) (new : List Byte) (tag : Tag) (s : State) :
    ((maskedWord c w 255 new tag s).core c).word w = ⟨BitVec.ofNat 64 (leNat new), tag⟩ := by
  have full : maskedWord c w 255 new tag s = s.updCore c (putWord w ⟨BitVec.ofNat 64 (leNat new), tag⟩) := if_pos rfl
  rw [full, State.core_updCore]
  exact SMap.get_set TWord.zero ..

/-- Bytes stored from an address on leave the words before it. -/
theorem storeBytes_word_before {c i a : Nat} (h : i < a / 8) (tag : Tag) (k : Nat) (bs : List Byte) (s : State) :
    ((storeBytes c tag k a bs s).core c).word i = (s.core c).word i := by
  induction k generalizing a bs s with
  | zero => rfl
  | succ k ih =>
    unfold storeBytes
    split
    · rfl
    · refine (ih ?_ _ _).trans (maskedWord_word_ne (by omega) ..)
      exact h.trans_le (Nat.div_le_div_right (Nat.le_add_right ..))

theorem leNat_lt (bs : List Byte) : leNat bs < 256 ^ bs.length := by
  induction bs with
  | nil => exact Nat.one_pos
  | cons b bs ih =>
    have := b.isLt
    rw [leNat, List.length_cons, pow_succ]
    omega

/-- The field of eight bytes from the eighth on is that of what follows. -/
theorem fieldAt_drop (bs : List Byte) (k o n : Nat) : fieldAt (bs.drop k) o n = fieldAt bs (k + o) n := by
  rw [fieldAt, fieldAt, List.drop_drop]

/-- Bytes stored from a whole word on stand in its whole words. -/
theorem storeBytes_words {c a k : Nat} {bs : List Byte} (whole : a % 8 = 0) (fuel : bs.length / 8 < k) (tag : Tag) (s : State) {i : Nat}
    (hi : i < bs.length / 8) :
    (((storeBytes c tag k a bs s).core c).word (a / 8 + i)).data.toNat = fieldAt bs (8 * i) 8 := by
  induction k generalizing a bs s i with
  | zero => omega
  | succ k ih =>
    have some_bytes : ¬ bs.isEmpty = true := by
      intro e
      rw [List.isEmpty_iff.1 e] at hi
      simp at hi
    have eight : min (8 - a % 8) bs.length = 8 := by omega
    have take_length : (bs.take 8).length = 8 := by rw [List.length_take]; omega
    have word : padTo 8 (List.replicate (a % 8) 0 ++ bs.take 8) = bs.take 8 := by
      rw [whole, List.replicate_zero, List.nil_append, padTo_of_length take_length]
    have step : storeBytes c tag (k + 1) a bs s = storeBytes c tag k (a + 8) (bs.drop 8) (maskedWord c (a / 8) 255 (bs.take 8) tag s) := by
      rw [storeBytes, if_neg some_bytes]
      dsimp only
      rw [eight, word, whole]
      rfl
    rw [step]
    cases i with
    | zero =>
      have small : leNat (bs.take 8) < 2 ^ 64 := by
        have := leNat_lt (bs.take 8)
        rwa [take_length] at this
      change (((storeBytes c tag k (a + 8) _ _).core c).word (a / 8)).data.toNat = leNat (bs.take 8)
      rw [storeBytes_word_before (by omega), maskedWord_full]
      exact Nat.mod_eq_of_lt small
    | succ i =>
      have rest := ih (a := a + 8) (bs := bs.drop 8) (i := i) (by omega) (by rw [List.length_drop]; omega)
        (maskedWord c (a / 8) 255 (bs.take 8) tag s) (by rw [List.length_drop]; omega)
      rw [fieldAt_drop] at rest
      rw [show a / 8 + (i + 1) = (a + 8) / 8 + i by omega, rest]
      congr 1
      omega

/-! What is recorded, and what an event counts. -/

/-- Every core's store is as it was, and of the partition all but the errors of its page tables, its monitor, its recorder and
replay, and its mark of R62. -/
structure State.RecordsOnly (q : Nat) (s t : State) : Prop where
  store : ∀ c, (t.core c).store = (s.core c).store
  part : ∃ e m r y d, t.part q = { s.part q with ptErr := e, mon := m, recd := r, replay := y, nd := d }

namespace State.RecordsOnly

variable {q : Nat} {s t u : State}

theorem refl (q : Nat) (s : State) : RecordsOnly q s s := ⟨fun _ => rfl, _, _, _, _, _, rfl⟩

theorem trans (h : RecordsOnly q s t) (k : RecordsOnly q t u) : RecordsOnly q s u := by
  obtain ⟨e, m, r, y, d, hp⟩ := h.part
  obtain ⟨e', m', r', y', d', kp⟩ := k.part
  exact ⟨fun c => (k.store c).trans (h.store c), e', m', r', y', d', by rw [kp, hp]⟩

theorem of_eq (hcores : t.cores = s.cores) (hparts : t.parts = s.parts) : RecordsOnly q s t :=
  ⟨fun c => by rw [State.core_of hcores], _, _, _, _, _, State.part_of hparts q⟩

theorem reads (h : s.ReadsOnly q t) : RecordsOnly q s t := by
  obtain ⟨e, m, hp⟩ := h.part
  exact ⟨fun c => by rw [State.core_of h.cores], e, m, _, _, _, hp⟩

theorem updPart (i : Nat) (f : Part → Part) (s : State)
    (hf : ∀ x, ∃ r y d, f x = { x with recd := r, replay := y, nd := d } := by intro; exact ⟨_, _, _, rfl⟩) :
    RecordsOnly q s (s.updPart i f) := by
  refine ⟨fun _ => rfl, ?_⟩
  by_cases e : q = i
  · obtain ⟨r, y, d, h⟩ := hf (s.part i)
    rw [e, State.part_updPart, h]
    exact ⟨_, _, r, y, d, rfl⟩
  · rw [State.part_updPart_ne s e]
    exact ⟨_, _, _, _, _, rfl⟩

theorem ite {p : Prop} [Decidable p] (h : RecordsOnly q s t) (k : RecordsOnly q s u) : RecordsOnly q s (if p then t else u) := by
  split
  · exact h
  · exact k

theorem foldl {α : Type} {g : State → α → State} (hg : ∀ z a, RecordsOnly q z (g z a)) (l : List α) (s : State) :
    RecordsOnly q s (l.foldl g s) := by
  induction l generalizing s with
  | nil => exact refl q s
  | cons a l ih => exact (hg s a).trans (ih _)

theorem emit (o : Output) (s : State) : RecordsOnly q s (s.emit o) := of_eq rfl rfl

theorem submit (r : MemReq) (s : State) : RecordsOnly q s (submit r s) := by
  unfold Machine.submit
  split
  · exact of_eq rfl rfl
  · exact of_eq rfl rfl
  · exact ite (refl q s) (ite (updPart r.part (replayWrite r) s) (foldl (fun z _ => emit _ z) _ s))
  · exact refl q s

theorem recWrite (k va : Nat) (bs : List Byte) (s : State) : RecordsOnly q s (recWrite q k va bs s) := by
  induction k generalizing va bs s with
  | zero => exact refl q s
  | succ k ih =>
    have page := reads (State.ReadsOnly.walkRead (q := q) va true s)
    unfold Machine.recWrite
    refine ite (refl q s) (trans ?_ (ih _ _ _))
    generalize Machine.walkRead q va true s = x at page
    obtain ⟨z, x⟩ := x
    cases x with
    | fail => exact page
    | ok e => exact page.trans (submit _ z)

theorem recAppend (bs : List Byte) (s : State) : RecordsOnly q s (recAppend q bs s) := (updPart q _ s).trans (recWrite ..)

theorem recStop (code : Nat) (s : State) : RecordsOnly q s (recStop q code s) := by
  have closed := updPart (q := q) q (fun p => { p with recd := { p.recd with
    isOpen := false, fullstop := decide (code = 1), incomplete := decide (code = 2) } }) s
  exact ite (refl q s) (trans (ite (closed.trans (recAppend _ _)) closed) (recWrite ..))

theorem recInput (kind unit key sub : Nat) (content : List Byte) (s : State) : RecordsOnly q s (recInput q kind unit key sub content s) := by
  have item (flags : Nat) (bs : List Byte) (len turn : Nat) : RecordsOnly q s (recItem q kind flags unit len turn key sub bs s) :=
    ite (refl q s) (ite (recStop 1 s) (recAppend _ s))
  exact ite (item ..) (refl q s)

/-- The counts of an event (R37, R273). -/
theorem coreEvent (c evt sel : Nat) (s : State) : RecordsOnly q s (coreEvent q c evt sel s) := by
  have unit (v : UnitRef) (f : TurnUnit → TurnUnit) (z : State) : RecordsOnly q z (updTu q v f z) := by
    obtain ⟨g, part⟩ := updTu_part q v f z
    exact ⟨fun i => ((State.Counted.updTu q v f z).core i).store, _, _, _, _, _, part⟩
  have overflow (i turn : Nat) (z : State) : RecordsOnly q z (z.updCore i (Core.turnExc 13 turn)) :=
    ⟨fun j => ((State.Counted.updCore i _ z (.turnExc 13 turn)).core j).store, _, _, _, _, _, rfl⟩
  refine foldl (fun z i => ite ?_ (refl q z)) _ s
  unfold bumpCounter
  exact ite (unit ..) ((overflow ..).trans (updPart q _ _))

end State.RecordsOnly

end Sys2Proof.Machine
end

section
/-! PROOF. O44: a frame enters its slot once its pages translate and its lines have come (R273, R313, R327, R372, R375), and with it
every command of a stream's input. -/

namespace Sys2Proof.Machine

/-! The lines of a frame that are in HBM are asked for (R327). -/

/-- What the lines of a frame that are asked for leave of a partition: its port, its placement, and the stream but for the fetch. -/
def Part.asking (n : Nat) (x : Part) : PortId × List (Nat × Nat) × Option Stream :=
  (x.owner, x.place, (x.stream n).map fun y => { y with fetch := none })

theorem State.RecordsOnly.asking {q : Nat} {s t : State} (h : s.RecordsOnly q t) (n : Nat) :
    (t.part q).asking n = (s.part q).asking n := by
  obtain ⟨e, m, r, y, d, hp⟩ := h.part
  rw [hp]
  rfl

/-- A change of a stream's fetch. -/
theorem updStream_asking (q n : Nat) (f : Stream → Stream) (s : State)
    (hf : ∀ y, { f y with fetch := none } = { y with fetch := none } := by intro; rfl) :
    ((updStream q n f s).part q).asking n = (s.part q).asking n := by
  unfold Part.asking Part.stream updStream
  rw [State.part_updPart, SMap.get_upd, Option.map_map]
  congr 3
  exact funext hf

theorem frameAsk_asking (q n k va len : Nat) (s : State) : ((frameAsk q n k va len s).part q).asking n = (s.part q).asking n := by
  induction k generalizing va len s with
  | zero => rfl
  | succ k ih =>
    have page := (State.RecordsOnly.reads (State.ReadsOnly.hostXlate (q := q) va false s)).asking n
    unfold frameAsk
    split
    · rfl
    · refine (ih ..).trans ?_
      generalize hostXlate q va false s = x at page
      obtain ⟨z, x⟩ := x
      cases x with
      | fail => exact page
      | ok e =>
        refine Eq.trans ?_ page
        dsimp only
        split
        · split
          · rfl
          · exact ((State.RecordsOnly.submit (q := q) _ _).asking n).trans (updStream_asking q n _ z)
        · rfl

/-! A frame enters its slot. -/

/-- The bytes of a frame in its slot (R372). -/
def fillSlot (q : Nat) (f : Fetch) (y : Stream) (bytes : List (Byte × Nat)) (s : State) : State :=
  match (s.part q).physOf y.core with
  | some c => poisonSlot c (y.slotBase + y.slotStride * (f.k % y.nslot)) bytes
      (storeBytes c 0 (f.len / 8 + 2) (y.slotBase + y.slotStride * (f.k % y.nslot)) (bytes.map (·.1)) s)
  | none => s

theorem fillSlot_parts (q : Nat) (f : Fetch) (y : Stream) (bytes : List (Byte × Nat)) (s : State) :
    (fillSlot q f y bytes s).parts = s.parts := by
  unfold fillSlot
  split
  · exact storeBytes_parts ..
  · rfl

/-- Bytes without poison change no word of their slot after they have been stored. -/
theorem poisonSlot_clean {bytes : List (Byte × Nat)} (clean : ∀ e ∈ bytes, e.2 = 0) (c slot : Nat) (s : State) :
    (poisonSlot c slot bytes s).core c = s.core c := by
  have none_bad : (bytes.zipIdx.filter fun e => e.1.2 != 0) = [] := by
    refine List.filter_eq_nil_iff.2 fun e he => ?_
    simp [clean e.1 (List.fst_mem_of_mem_zipIdx he)]
  unfold poisonSlot
  rw [none_bad, State.core_updCore]
  rfl

theorem fillSlot_words {q c a : Nat} {f : Fetch} {y : Stream} {bytes : List (Byte × Nat)} {s : State}
    (core : (s.part q).physOf y.core = some c) (slot : a = y.slotBase + y.slotStride * (f.k % y.nslot)) (whole : a % 8 = 0)
    (len : bytes.length = f.len) (clean : ∀ e ∈ bytes, e.2 = 0) {i : Nat} (hi : i < f.len / 8) :
    (((fillSlot q f y bytes s).core c).word (a / 8 + i)).data.toNat = fieldAt (bytes.map (·.1)) (8 * i) 8 := by
  unfold fillSlot
  rw [core, ← slot]
  dsimp only
  rw [poisonSlot_clean clean]
  exact storeBytes_words whole (by rw [List.length_map]; omega) 0 s (by rw [List.length_map]; omega)

/-- A stream whose frame has come (R372). -/
def Stream.arrived (f : Fetch) (y : Stream) : Stream :=
  { y with fetch := none, taken := f.k + 1, frames := SMap.set Frame.none f.k ⟨f.len, true, none⟩ y.frames }

/-- A frame in its slot: its stream counts it, and the events of the cores that bind it change no store and no stream. -/
theorem putFrame_spec (q n : Nat) (f : Fetch) (y : Stream) (bytes : List (Byte × Nat)) (s : State) :
    (updStream q n (Stream.arrived f) (fillSlot q f y bytes s)).RecordsOnly q (putFrame q n f y bytes s) :=
  .foldl (fun z c => .coreEvent c 7 n z) (s.part q).phys _

/-- A fetch that completes: the frame in its slot, its item in an open record, and its completion entry (R375, R427). -/
theorem finishFetch_eq (q n : Nat) (f : Fetch) (y : Stream) (bytes : List (Byte × Nat)) (s : State) :
    ∃ z turn, finishFetch q n f y bytes s = putCompletion q n csOk f.len f.user f.k turn z ∧
      (updStream q n (Stream.arrived f) (fillSlot q f y bytes s)).RecordsOnly q z :=
  ⟨_, _, rfl, (putFrame_spec q n f y bytes s).trans (.recInput ..)⟩

/-- A fetch that completes, from a partition whose stream waits for the frame. -/
theorem finishFetch_completes {q n : Nat} {f : Fetch} {y : Stream} {s u : State} (hy : (s.part q).stream n = some y)
    (asked : (u.part q).asking n = (s.part q).asking n) (bytes : List (Byte × Nat)) :
    let t := finishFetch q n f y bytes u
    Completed q n y f.user f.len 0 f.k s t ∧
    (∀ z, (t.part q).stream n = some z → SMap.get Frame.none f.k z.frames = ⟨f.len, true, none⟩ ∧ z.sqTail = y.sqTail) ∧
    ∀ c, (t.core c).store = ((fillSlot q f y bytes u).core c).store := by
  simp only [Part.asking, Prod.mk.injEq, hy, Option.map_some, Option.map_eq_some_iff] at asked
  obtain ⟨owner, -, y', stream, same⟩ := asked
  have arrived : y'.arrived f = y.arrived f := (congrArg (Stream.arrived f) same :)
  obtain ⟨z, turn, eq, store, e, m, r, w, d, part⟩ := finishFetch_eq q n f y bytes u
  have filled : (fillSlot q f y bytes u).part q = u.part q := State.part_of (fillSlot_parts ..) q
  have here : (z.part q).stream n = some (y.arrived f) := by
    rw [part, ← arrived]
    exact updStream_stream (by rw [filled]; exact stream) (Stream.arrived f)
  have port : (z.part q).owner = (s.part q).owner := by
    rw [part, updStream, State.part_updPart, filled]
    exact owner
  obtain ⟨done, -, -, entry⟩ := putCompletion_spec here csOk f.len f.user f.k turn
  have cores : (putCompletion q n csOk f.len f.user f.k turn z).cores = z.cores :=
    (congrArg State.cores (putCompletion_frame q n csOk f.len f.user f.k turn z).1 :)
  intro t
  rw [show t = _ from eq]
  refine ⟨⟨⟨_, done, rfl, rfl, rfl⟩, _, by rw [port] at entry; exact entry, completionBytes_fields q n _ (by decide) ..⟩, fun x hx => ?_,
    fun c => ?_⟩
  · rw [done] at hx
    cases hx
    exact ⟨SMap.get_set Frame.none .., rfl⟩
  · rw [State.core_of cores, store]
    rfl

section
variable {q : PartId} {n : Fin 64} {bs : List Byte} {env : Env} {y : Stream} {f : Fetch} {s₀ s : State}

/-- A frame's answer whose pages translate: the lines in HBM are asked for, and once all have come the fetch completes. -/
theorem exec_frameFetchComplete_go (hs : s = applyUpsets env.upsets s₀) (run : (s.part q).st = .running) (open_turn : turnOpen q s = true)
    (hy : (s.part q).stream n = some y) (hf : y.fetch = some f) {va : Nat}
    (hva : va = (((s.part q).windowOf f.buf f.len).map fun w => w.dva + (f.buf - w.iova)).getD 0)
    (go : (moverX q false (f.len / 64 + 2) va f.len s).2 = .go) {u : State}
    (hu : u = frameAsk q n (f.len / 64 + 2) va f.len (moverX q false (f.len / 64 + 2) va f.len s).1) :
    exec (.frameFetchComplete q n (.data bs) env) s₀ = .next (if (((u.part q).fetchLines n).all fun e => e.2.isSome) = true then
        finishFetch q n f y (frameBytes ((u.part q).fetchLines n) (f.len / 64 + 2) va (padTo f.len bs)) u
      else u) := by
  change execFrameFetchComplete q n (.data bs) env s₀ = _
  unfold execFrameFetchComplete
  dsimp only
  rw [← hs, hy]
  dsimp only
  rw [hf]
  dsimp only
  rw [if_pos ⟨run, open_turn⟩, ← hva]
  generalize moverX q false (f.len / 64 + 2) va f.len s = x at go hu ⊢
  obtain ⟨z, x⟩ := x
  subst go hu
  rfl

end

theorem frameArrivesRule : FrameArrivesRule := by
  intro q n bs env y f s₀ s va x u lines got run open_turn hy hf go
  have next := exec_frameFetchComplete_go (bs := bs) (s₀ := s₀) rfl run open_turn hy hf rfl go rfl
  have reads : s.ReadsOnly q x.1 := .moverX ..
  have asked : (u.part q).asking n = (s.part q).asking n := (frameAsk_asking ..).trans ((State.RecordsOnly.reads reads).asking n)
  refine ⟨fun waits => ?_, fun all => ?_⟩
  · refine next.trans (congrArg _ (if_neg fun all => ?_))
    obtain ⟨e, he, lacks⟩ := List.any_eq_true.1 waits
    have has := List.all_eq_true.1 all e he
    rw [Option.isNone_iff_eq_none.1 lacks] at has
    exact nomatch has
  · obtain ⟨completed, frames, store⟩ := finishFetch_completes (f := f) hy asked got
    refine ⟨_, next.trans (congrArg _ (if_pos all)), completed, frames, fun c a core slot whole len clean i hi => ?_⟩
    have place : (u.part q).place = (s.part q).place := (congrArg (fun x => x.2.1) asked :)
    have there : (u.part q).physOf y.core = some c := by
      rw [Part.physOf, place]
      exact core
    rw [← fillSlot_words there slot whole len clean hi, Core.word, store]
    rfl

/-- Settles O44: the doorbells, the fetch of an entry, and the frame's arrival. -/
theorem streamInput : Obligations.StreamInput := ⟨streamDoorbellsRule, frameFetchBeginsRule, frameArrivesRule⟩

end Sys2Proof.Machine
end

section
/-! The canonical form and the queue under every step (O1, O3, O4, O5, O6, O60), and what only a reset withdraws (O7): each is a law of every
command, gathered here by the table's rows. -/

namespace Sys2Proof.Machine

/-- Every command keeps the canonical form. -/
theorem exec_canon {s t : State} (h : s.Canon) : ∀ c, exec c s = .next t → t.Canon
  | .powerGood _ => execPowerGood_canon _ s h t
  | .powerGoodWithdrawn _ => execPowerGoodWithdrawn_canon _ s h t
  | .modResetAssert => execModResetAssert_canon s h t
  | .modResetDeassert _ => execModResetDeassert_canon _ s h t
  | .pcieLinkUp _ => execPcieLinkUp_canon _ s h t
  | .perstAssert _ => execPerstAssert_canon _ s h t
  | .perstDeassert _ => execPerstDeassert_canon _ s h t
  | .functionLevelReset _ => execFunctionLevelReset_canon _ s h t
  | .pcieLinkDown _ => execPcieLinkDown_canon _ s h t
  | .d3hotEntry _ => execD3hotEntry_canon _ s h t
  | .trstNAssert => execTrstNAssert_canon s h t
  | .jtagBreak _ => execJtagBreak_canon _ s h t
  | .lossOfLock _ => execLossOfLock_canon _ s h t
  | .powerSample _ _ => execPowerSample_canon _ _ s h t
  | .junctionSample _ _ => execJunctionSample_canon _ _ s h t
  | .railSwitchOff => execRailSwitchOff_canon s h t
  | .bundleIssue _ _ => execBundleIssue_canon _ _ s h t
  | .vectorLoadFaultPoint _ _ => execVectorLoadFaultPoint_canon _ _ s h t
  | .ownActionDelivery _ => execOwnActionDelivery_canon _ s h t
  | .windowOverrun _ => execWindowOverrun_canon _ s h t
  | .haltNotice _ => execHaltNotice_canon _ s h t
  | .patrolScrub _ _ => execPatrolScrub_canon _ _ s h t
  | .turnDone _ _ => execTurnDone_canon _ _ s h t
  | .spurBroadcast _ => execSpurBroadcast_canon _ s h t
  | .spurReceipt _ _ _ => execSpurReceipt_canon _ _ _ s h t
  | .armFire _ _ _ => execArmFire_canon _ _ _ s h t
  | .quiescentPointStop _ => execQuiescentPointStop_canon _ s h t
  | .partStopTimeout _ => execPartStopTimeout_canon _ s h t
  | .tensorStreamComplete _ _ => execTensorStreamComplete_canon _ _ s h t
  | .passStart _ _ => execPassStart_canon _ _ s h t
  | .passRetire _ _ => execPassRetire_canon _ _ s h t
  | .passAbort _ _ => execPassAbort_canon _ _ s h t
  | .drainFrontStart _ _ => execDrainFrontStart_canon _ _ s h t
  | .drainRowVisit _ _ => execDrainRowVisit_canon _ _ s h t
  | .drainComplete _ => execDrainComplete_canon _ s h t
  | .monitorCounts _ => execMonitorCounts_canon _ s h t
  | .numericsLogWrite _ => execNumericsLogWrite_canon _ s h t
  | .moveStart _ _ _ => execMoveStart_canon _ _ _ s h t
  | .multicastSourceLine _ _ _ => execMulticastSourceLine_canon _ _ _ s h t
  | .moveComplete _ _ _ => execMoveComplete_canon _ _ _ s h t
  | .notifyIncrement _ => execNotifyIncrement_canon _ s h t
  | .messageAccept _ _ => execMessageAccept_canon _ _ s h t
  | .farCacheFill _ _ _ => execFarCacheFill_canon _ _ _ s h t
  | .bedStoreAccess _ _ => execBedStoreAccess_canon _ _ s h t
  | .sweepVisit _ => execSweepVisit_canon _ s h t
  | .bedCacheFill _ => execBedCacheFill_canon _ s h t
  | .regulatorRelease _ _ => execRegulatorRelease_canon _ _ s h t
  | .hbmQueueEntry _ _ => execHbmQueueEntry_canon _ _ s h t
  | .hbmServe _ _ _ _ => execHbmServe_canon _ _ _ _ s h t
  | .remapLineCopy _ _ => execRemapLineCopy_canon _ _ s h t
  | .remapFlip _ => execRemapFlip_canon _ s h t
  | .remapPersist _ => execRemapPersist_canon _ s h t
  | .hbmPatrolScrub _ _ => execHbmPatrolScrub_canon _ _ s h t
  | .hbmTempSample _ _ => execHbmTempSample_canon _ _ s h t
  | .tlbWalk _ _ _ _ _ => execTlbWalk_canon _ _ _ _ _ s h t
  | .faultQueueEnter _ _ => execFaultQueueEnter_canon _ _ s h t
  | .fqResumeRetry _ _ => execFqResumeRetry_canon _ _ s h t
  | .fqResumeAbort _ _ => execFqResumeAbort_canon _ _ s h t
  | .accessCounterDecay _ => execAccessCounterDecay_canon _ s h t
  | .hpqHeadRead _ => execHpqHeadRead_canon _ s h t
  | .hpqStatusRead _ => execHpqStatusRead_canon _ s h t
  | .hotPageRingWrite _ => execHotPageRingWrite_canon _ s h t
  | .migrationCopyComplete _ _ => execMigrationCopyComplete_canon _ _ s h t
  | .hostWindowReadFail _ _ _ => execHostWindowReadFail_canon _ _ _ s h t
  | .boundOverrun _ _ => execBoundOverrun_canon _ _ s h t
  | .degradationReadmission => execDegradationReadmission_canon s h t
  | .routeChangeComplete _ => execRouteChangeComplete_canon _ s h t
  | .streamDoorbell _ _ _ _ => execStreamDoorbell_canon _ _ _ _ s h t
  | .frameFetch _ _ _ => execFrameFetch_canon _ _ _ s h t
  | .frameFetchComplete _ _ _ _ => execFrameFetchComplete_canon _ _ _ _ s h t
  | .postCompletion _ _ => execPostCompletion_canon _ _ s h t
  | .noticeRingWrite _ => execNoticeRingWrite_canon _ s h t
  | .ntcBaseWrite _ _ => execNtcBaseWrite_canon _ _ s h t
  | .hprBaseWrite _ _ => execHprBaseWrite_canon _ _ s h t
  | .errCntRead _ => execErrCntRead_canon _ s h t
  | .errCnt2Read _ => execErrCnt2Read_canon _ s h t
  | .mbxRefusedRead _ _ => execMbxRefusedRead_canon _ _ s h t
  | .hmbRefusedRead _ => execHmbRefusedRead_canon _ s h t
  | .registerWrite _ _ _ => execRegisterWrite_canon _ _ _ s h t
  | .bar2Read _ _ _ _ => execBar2Read_canon _ _ _ _ s h t
  | .bar2Write p i bs => execBar2Write_canon p i bs s h t
  | .mbxCommandComplete _ _ => execMbxCommandComplete_canon _ _ s h t
  | .identify _ _ => execIdentify_canon _ _ s h t
  | .getHealth _ _ => execGetHealth_canon _ _ s h t
  | .setEpoch _ _ => execSetEpoch_canon _ _ s h t
  | .partCreate _ _ => execPartCreate_canon _ _ s h t
  | .partDestroy _ _ => execPartDestroy_canon _ _ s h t
  | .partStop _ _ => execPartStop_canon _ _ s h t
  | .partStart _ _ _ => execPartStart_canon _ _ _ s h t
  | .partReconfigure _ _ => execPartReconfigure_canon _ _ s h t
  | .partQuery _ _ => execPartQuery_canon _ _ s h t
  | .seedSet _ _ => execSeedSet_canon _ _ s h t
  | .imageLoad _ _ _ => execImageLoad_canon _ _ _ s h t
  | .memMap _ _ => execMemMap_canon _ _ s h t
  | .memMapMigrate _ _ => execMemMapMigrate_canon _ _ s h t
  | .memUnmap _ _ => execMemUnmap_canon _ _ s h t
  | .windowOpen _ _ => execWindowOpen_canon _ _ s h t
  | .windowClose _ _ => execWindowClose_canon _ _ s h t
  | .streamOpen _ _ => execStreamOpen_canon _ _ s h t
  | .streamClose _ _ => execStreamClose_canon _ _ s h t
  | .recordConfig _ _ => execRecordConfig_canon _ _ s h t
  | .replayRun _ _ => execReplayRun_canon _ _ s h t
  | .faultLogRead _ _ => execFaultLogRead_canon _ _ s h t
  | .repairStatus _ _ => execRepairStatus_canon _ _ s h t
  | .repairCommit _ _ => execRepairCommit_canon _ _ s h t
  | .fwUpdate _ _ _ => execFwUpdate_canon _ _ _ s h t
  | .attestQuote _ _ => execAttestQuote_canon _ _ s h t
  | .lanePlanSet _ _ => execLanePlanSet_canon _ _ s h t
  | .linkQuery _ _ => execLinkQuery_canon _ _ s h t
  | .diagRescueRead _ _ => execDiagRescueRead_canon _ _ s h t
  | .diagCoreStoreRead _ _ => execDiagCoreStoreRead_canon _ _ s h t
  | .diagStampRead _ _ => execDiagStampRead_canon _ _ s h t
  | .diagRegisterRead _ _ => execDiagRegisterRead_canon _ _ s h t
  | .diagDebugBreak _ _ => execDiagDebugBreak_canon _ _ s h t
  | .hmStatus _ => execHmStatus_canon _ s h t
  | .hmLog _ => execHmLog_canon _ s h t
  | .hmDieReset _ => execHmDieReset_canon _ s h t
  | .hmFwRestart _ => execHmFwRestart_canon _ s h t
  | .hmPortQuiesce _ => execHmPortQuiesce_canon _ s h t
  | .hmSnapshot _ => execHmSnapshot_canon _ s h t
  | .hmbComplete _ => execHmbComplete_canon _ s h t
  | .dieBistComplete _ _ => execDieBistComplete_canon _ _ s h t
  | .chatterWindowStart _ => execChatterWindowStart_canon _ s h t
  | .laneSpareSwap _ => execLaneSpareSwap_canon _ s h t
  | .flitCrcRetry _ _ _ => execFlitCrcRetry_canon _ _ _ s h t
  | .fecCodeword _ _ _ _ => execFecCodeword_canon _ _ _ _ s h t
  | .scaleoutLinkTrain _ _ => execScaleoutLinkTrain_canon _ _ s h t
  | .scaleoutLinkDown _ _ => execScaleoutLinkDown_canon _ _ s h t
  | .turnEndItem _ => execTurnEndItem_canon _ s h t
  | .i3cOffsetWrite _ => execI3cOffsetWrite_canon _ s h t
  | .setdasa _ => execSetdasa_canon _ s h t
  | .getVersion _ => execGetVersion_canon _ s h t
  | .getCapabilities _ => execGetCapabilities_canon _ s h t
  | .negotiateAlgorithms _ _ _ => execNegotiateAlgorithms_canon _ _ _ s h t
  | .getDigests _ => execGetDigests_canon _ s h t
  | .getCertificate _ _ _ _ => execGetCertificate_canon _ _ _ _ s h t
  | .challenge _ _ _ => execChallenge_canon _ _ _ s h t
  | .getMeasurements _ _ _ _ => execGetMeasurements_canon _ _ _ _ s h t
  | .mbxDoorbellRefused _ _ => execMbxDoorbellRefused_canon _ _ s h t
  | .hmbCmdRefused _ _ => execHmbCmdRefused_canon _ _ s h t
  | .controlCoreBoot => execControlCoreBoot_canon s h t
  | .computeDieReset _ => execComputeDieReset_canon _ s h t

/-- Every command leaves the queue, what has been put out, and the free values used. -/
theorem exec_fwd {z s t : State} (h : z.Forward s) : ∀ c, exec c s = .next t → z.Forward t
  | .powerGood _ => execPowerGood_fwd _ s h t
  | .powerGoodWithdrawn _ => execPowerGoodWithdrawn_fwd _ s h t
  | .modResetAssert => execModResetAssert_fwd s h t
  | .modResetDeassert _ => execModResetDeassert_fwd _ s h t
  | .pcieLinkUp _ => execPcieLinkUp_fwd _ s h t
  | .perstAssert _ => execPerstAssert_fwd _ s h t
  | .perstDeassert _ => execPerstDeassert_fwd _ s h t
  | .functionLevelReset _ => execFunctionLevelReset_fwd _ s h t
  | .pcieLinkDown _ => execPcieLinkDown_fwd _ s h t
  | .d3hotEntry _ => execD3hotEntry_fwd _ s h t
  | .trstNAssert => execTrstNAssert_fwd s h t
  | .jtagBreak _ => execJtagBreak_fwd _ s h t
  | .lossOfLock _ => execLossOfLock_fwd _ s h t
  | .powerSample _ _ => execPowerSample_fwd _ _ s h t
  | .junctionSample _ _ => execJunctionSample_fwd _ _ s h t
  | .railSwitchOff => execRailSwitchOff_fwd s h t
  | .bundleIssue _ _ => execBundleIssue_fwd _ _ s h t
  | .vectorLoadFaultPoint _ _ => execVectorLoadFaultPoint_fwd _ _ s h t
  | .ownActionDelivery _ => execOwnActionDelivery_fwd _ s h t
  | .windowOverrun _ => execWindowOverrun_fwd _ s h t
  | .haltNotice _ => execHaltNotice_fwd _ s h t
  | .patrolScrub _ _ => execPatrolScrub_fwd _ _ s h t
  | .turnDone _ _ => execTurnDone_fwd _ _ s h t
  | .spurBroadcast _ => execSpurBroadcast_fwd _ s h t
  | .spurReceipt _ _ _ => execSpurReceipt_fwd _ _ _ s h t
  | .armFire _ _ _ => execArmFire_fwd _ _ _ s h t
  | .quiescentPointStop _ => execQuiescentPointStop_fwd _ s h t
  | .partStopTimeout _ => execPartStopTimeout_fwd _ s h t
  | .tensorStreamComplete _ _ => execTensorStreamComplete_fwd _ _ s h t
  | .passStart _ _ => execPassStart_fwd _ _ s h t
  | .passRetire _ _ => execPassRetire_fwd _ _ s h t
  | .passAbort _ _ => execPassAbort_fwd _ _ s h t
  | .drainFrontStart _ _ => execDrainFrontStart_fwd _ _ s h t
  | .drainRowVisit _ _ => execDrainRowVisit_fwd _ _ s h t
  | .drainComplete _ => execDrainComplete_fwd _ s h t
  | .monitorCounts _ => execMonitorCounts_fwd _ s h t
  | .numericsLogWrite _ => execNumericsLogWrite_fwd _ s h t
  | .moveStart _ _ _ => execMoveStart_fwd _ _ _ s h t
  | .multicastSourceLine _ _ _ => execMulticastSourceLine_fwd _ _ _ s h t
  | .moveComplete _ _ _ => execMoveComplete_fwd _ _ _ s h t
  | .notifyIncrement _ => execNotifyIncrement_fwd _ s h t
  | .messageAccept _ _ => execMessageAccept_fwd _ _ s h t
  | .farCacheFill _ _ _ => execFarCacheFill_fwd _ _ _ s h t
  | .bedStoreAccess _ _ => execBedStoreAccess_fwd _ _ s h t
  | .sweepVisit _ => execSweepVisit_fwd _ s h t
  | .bedCacheFill _ => execBedCacheFill_fwd _ s h t
  | .regulatorRelease _ _ => execRegulatorRelease_fwd _ _ s h t
  | .hbmQueueEntry _ _ => execHbmQueueEntry_fwd _ _ s h t
  | .hbmServe _ _ _ _ => execHbmServe_fwd _ _ _ _ s h t
  | .remapLineCopy _ _ => execRemapLineCopy_fwd _ _ s h t
  | .remapFlip _ => execRemapFlip_fwd _ s h t
  | .remapPersist _ => execRemapPersist_fwd _ s h t
  | .hbmPatrolScrub _ _ => execHbmPatrolScrub_fwd _ _ s h t
  | .hbmTempSample _ _ => execHbmTempSample_fwd _ _ s h t
  | .tlbWalk _ _ _ _ _ => execTlbWalk_fwd _ _ _ _ _ s h t
  | .faultQueueEnter _ _ => execFaultQueueEnter_fwd _ _ s h t
  | .fqResumeRetry _ _ => execFqResumeRetry_fwd _ _ s h t
  | .fqResumeAbort _ _ => execFqResumeAbort_fwd _ _ s h t
  | .accessCounterDecay _ => execAccessCounterDecay_fwd _ s h t
  | .hpqHeadRead _ => execHpqHeadRead_fwd _ s h t
  | .hpqStatusRead _ => execHpqStatusRead_fwd _ s h t
  | .hotPageRingWrite _ => execHotPageRingWrite_fwd _ s h t
  | .migrationCopyComplete _ _ => execMigrationCopyComplete_fwd _ _ s h t
  | .hostWindowReadFail _ _ _ => execHostWindowReadFail_fwd _ _ _ s h t
  | .boundOverrun _ _ => execBoundOverrun_fwd _ _ s h t
  | .degradationReadmission => execDegradationReadmission_fwd s h t
  | .routeChangeComplete _ => execRouteChangeComplete_fwd _ s h t
  | .streamDoorbell _ _ _ _ => execStreamDoorbell_fwd _ _ _ _ s h t
  | .frameFetch _ _ _ => execFrameFetch_fwd _ _ _ s h t
  | .frameFetchComplete _ _ _ _ => execFrameFetchComplete_fwd _ _ _ _ s h t
  | .postCompletion _ _ => execPostCompletion_fwd _ _ s h t
  | .noticeRingWrite _ => execNoticeRingWrite_fwd _ s h t
  | .ntcBaseWrite _ _ => execNtcBaseWrite_fwd _ _ s h t
  | .hprBaseWrite _ _ => execHprBaseWrite_fwd _ _ s h t
  | .errCntRead _ => execErrCntRead_fwd _ s h t
  | .errCnt2Read _ => execErrCnt2Read_fwd _ s h t
  | .mbxRefusedRead _ _ => execMbxRefusedRead_fwd _ _ s h t
  | .hmbRefusedRead _ => execHmbRefusedRead_fwd _ s h t
  | .registerWrite _ _ _ => execRegisterWrite_fwd _ _ _ s h t
  | .bar2Read _ _ _ _ => execBar2Read_fwd _ _ _ _ s h t
  | .bar2Write p i bs => execBar2Write_fwd p i bs s h t
  | .mbxCommandComplete _ _ => execMbxCommandComplete_fwd _ _ s h t
  | .identify _ _ => execIdentify_fwd _ _ s h t
  | .getHealth _ _ => execGetHealth_fwd _ _ s h t
  | .setEpoch _ _ => execSetEpoch_fwd _ _ s h t
  | .partCreate _ _ => execPartCreate_fwd _ _ s h t
  | .partDestroy _ _ => execPartDestroy_fwd _ _ s h t
  | .partStop _ _ => execPartStop_fwd _ _ s h t
  | .partStart _ _ _ => execPartStart_fwd _ _ _ s h t
  | .partReconfigure _ _ => execPartReconfigure_fwd _ _ s h t
  | .partQuery _ _ => execPartQuery_fwd _ _ s h t
  | .seedSet _ _ => execSeedSet_fwd _ _ s h t
  | .imageLoad _ _ _ => execImageLoad_fwd _ _ _ s h t
  | .memMap _ _ => execMemMap_fwd _ _ s h t
  | .memMapMigrate _ _ => execMemMapMigrate_fwd _ _ s h t
  | .memUnmap _ _ => execMemUnmap_fwd _ _ s h t
  | .windowOpen _ _ => execWindowOpen_fwd _ _ s h t
  | .windowClose _ _ => execWindowClose_fwd _ _ s h t
  | .streamOpen _ _ => execStreamOpen_fwd _ _ s h t
  | .streamClose _ _ => execStreamClose_fwd _ _ s h t
  | .recordConfig _ _ => execRecordConfig_fwd _ _ s h t
  | .replayRun _ _ => execReplayRun_fwd _ _ s h t
  | .faultLogRead _ _ => execFaultLogRead_fwd _ _ s h t
  | .repairStatus _ _ => execRepairStatus_fwd _ _ s h t
  | .repairCommit _ _ => execRepairCommit_fwd _ _ s h t
  | .fwUpdate _ _ _ => execFwUpdate_fwd _ _ _ s h t
  | .attestQuote _ _ => execAttestQuote_fwd _ _ s h t
  | .lanePlanSet _ _ => execLanePlanSet_fwd _ _ s h t
  | .linkQuery _ _ => execLinkQuery_fwd _ _ s h t
  | .diagRescueRead _ _ => execDiagRescueRead_fwd _ _ s h t
  | .diagCoreStoreRead _ _ => execDiagCoreStoreRead_fwd _ _ s h t
  | .diagStampRead _ _ => execDiagStampRead_fwd _ _ s h t
  | .diagRegisterRead _ _ => execDiagRegisterRead_fwd _ _ s h t
  | .diagDebugBreak _ _ => execDiagDebugBreak_fwd _ _ s h t
  | .hmStatus _ => execHmStatus_fwd _ s h t
  | .hmLog _ => execHmLog_fwd _ s h t
  | .hmDieReset _ => execHmDieReset_fwd _ s h t
  | .hmFwRestart _ => execHmFwRestart_fwd _ s h t
  | .hmPortQuiesce _ => execHmPortQuiesce_fwd _ s h t
  | .hmSnapshot _ => execHmSnapshot_fwd _ s h t
  | .hmbComplete _ => execHmbComplete_fwd _ s h t
  | .dieBistComplete _ _ => execDieBistComplete_fwd _ _ s h t
  | .chatterWindowStart _ => execChatterWindowStart_fwd _ s h t
  | .laneSpareSwap _ => execLaneSpareSwap_fwd _ s h t
  | .flitCrcRetry _ _ _ => execFlitCrcRetry_fwd _ _ _ s h t
  | .fecCodeword _ _ _ _ => execFecCodeword_fwd _ _ _ _ s h t
  | .scaleoutLinkTrain _ _ => execScaleoutLinkTrain_fwd _ _ s h t
  | .scaleoutLinkDown _ _ => execScaleoutLinkDown_fwd _ _ s h t
  | .turnEndItem _ => execTurnEndItem_fwd _ s h t
  | .i3cOffsetWrite _ => execI3cOffsetWrite_fwd _ s h t
  | .setdasa _ => execSetdasa_fwd _ s h t
  | .getVersion _ => execGetVersion_fwd _ s h t
  | .getCapabilities _ => execGetCapabilities_fwd _ s h t
  | .negotiateAlgorithms _ _ _ => execNegotiateAlgorithms_fwd _ _ _ s h t
  | .getDigests _ => execGetDigests_fwd _ s h t
  | .getCertificate _ _ _ _ => execGetCertificate_fwd _ _ _ _ s h t
  | .challenge _ _ _ => execChallenge_fwd _ _ _ s h t
  | .getMeasurements _ _ _ _ => execGetMeasurements_fwd _ _ _ _ s h t
  | .mbxDoorbellRefused _ _ => execMbxDoorbellRefused_fwd _ _ s h t
  | .hmbCmdRefused _ _ => execHmbCmdRefused_fwd _ _ s h t
  | .controlCoreBoot => execControlCoreBoot_fwd s h t
  | .computeDieReset _ => execComputeDieReset_fwd _ s h t

/-- A command that neither gives or takes power good nor moves MOD_RESET_N. -/
def IsNoReset : Instr → Prop
  | .powerGood _ | .powerGoodWithdrawn _ | .modResetAssert | .modResetDeassert _ => False
  | _ => True

/-- Every other command keeps FAILED and a thermal trip. -/
theorem exec_latched {z s t : State} (h : z.Latched s) : ∀ c, IsNoReset c → exec c s = .next t → z.Latched t
  | .powerGood _, no => no.elim
  | .powerGoodWithdrawn _, no => no.elim
  | .modResetAssert, no => no.elim
  | .modResetDeassert _, no => no.elim
  | .pcieLinkUp _, _ => execPcieLinkUp_latched _ s h t
  | .perstAssert _, _ => execPerstAssert_latched _ s h t
  | .perstDeassert _, _ => execPerstDeassert_latched _ s h t
  | .functionLevelReset _, _ => execFunctionLevelReset_latched _ s h t
  | .pcieLinkDown _, _ => execPcieLinkDown_latched _ s h t
  | .d3hotEntry _, _ => execD3hotEntry_latched _ s h t
  | .trstNAssert, _ => execTrstNAssert_latched s h t
  | .jtagBreak _, _ => execJtagBreak_latched _ s h t
  | .lossOfLock _, _ => execLossOfLock_latched _ s h t
  | .powerSample _ _, _ => execPowerSample_latched _ _ s h t
  | .junctionSample _ _, _ => execJunctionSample_latched _ _ s h t
  | .railSwitchOff, _ => execRailSwitchOff_latched s h t
  | .bundleIssue _ _, _ => execBundleIssue_latched _ _ s h t
  | .vectorLoadFaultPoint _ _, _ => execVectorLoadFaultPoint_latched _ _ s h t
  | .ownActionDelivery _, _ => execOwnActionDelivery_latched _ s h t
  | .windowOverrun _, _ => execWindowOverrun_latched _ s h t
  | .haltNotice _, _ => execHaltNotice_latched _ s h t
  | .patrolScrub _ _, _ => execPatrolScrub_latched _ _ s h t
  | .turnDone _ _, _ => execTurnDone_latched _ _ s h t
  | .spurBroadcast _, _ => execSpurBroadcast_latched _ s h t
  | .spurReceipt _ _ _, _ => execSpurReceipt_latched _ _ _ s h t
  | .armFire _ _ _, _ => execArmFire_latched _ _ _ s h t
  | .quiescentPointStop _, _ => execQuiescentPointStop_latched _ s h t
  | .partStopTimeout _, _ => execPartStopTimeout_latched _ s h t
  | .tensorStreamComplete _ _, _ => execTensorStreamComplete_latched _ _ s h t
  | .passStart _ _, _ => execPassStart_latched _ _ s h t
  | .passRetire _ _, _ => execPassRetire_latched _ _ s h t
  | .passAbort _ _, _ => execPassAbort_latched _ _ s h t
  | .drainFrontStart _ _, _ => execDrainFrontStart_latched _ _ s h t
  | .drainRowVisit _ _, _ => execDrainRowVisit_latched _ _ s h t
  | .drainComplete _, _ => execDrainComplete_latched _ s h t
  | .monitorCounts _, _ => execMonitorCounts_latched _ s h t
  | .numericsLogWrite _, _ => execNumericsLogWrite_latched _ s h t
  | .moveStart _ _ _, _ => execMoveStart_latched _ _ _ s h t
  | .multicastSourceLine _ _ _, _ => execMulticastSourceLine_latched _ _ _ s h t
  | .moveComplete _ _ _, _ => execMoveComplete_latched _ _ _ s h t
  | .notifyIncrement _, _ => execNotifyIncrement_latched _ s h t
  | .messageAccept _ _, _ => execMessageAccept_latched _ _ s h t
  | .farCacheFill _ _ _, _ => execFarCacheFill_latched _ _ _ s h t
  | .bedStoreAccess _ _, _ => execBedStoreAccess_latched _ _ s h t
  | .sweepVisit _, _ => execSweepVisit_latched _ s h t
  | .bedCacheFill _, _ => execBedCacheFill_latched _ s h t
  | .regulatorRelease _ _, _ => execRegulatorRelease_latched _ _ s h t
  | .hbmQueueEntry _ _, _ => execHbmQueueEntry_latched _ _ s h t
  | .hbmServe _ _ _ _, _ => execHbmServe_latched _ _ _ _ s h t
  | .remapLineCopy _ _, _ => execRemapLineCopy_latched _ _ s h t
  | .remapFlip _, _ => execRemapFlip_latched _ s h t
  | .remapPersist _, _ => execRemapPersist_latched _ s h t
  | .hbmPatrolScrub _ _, _ => execHbmPatrolScrub_latched _ _ s h t
  | .hbmTempSample _ _, _ => execHbmTempSample_latched _ _ s h t
  | .tlbWalk _ _ _ _ _, _ => execTlbWalk_latched _ _ _ _ _ s h t
  | .faultQueueEnter _ _, _ => execFaultQueueEnter_latched _ _ s h t
  | .fqResumeRetry _ _, _ => execFqResumeRetry_latched _ _ s h t
  | .fqResumeAbort _ _, _ => execFqResumeAbort_latched _ _ s h t
  | .accessCounterDecay _, _ => execAccessCounterDecay_latched _ s h t
  | .hpqHeadRead _, _ => execHpqHeadRead_latched _ s h t
  | .hpqStatusRead _, _ => execHpqStatusRead_latched _ s h t
  | .hotPageRingWrite _, _ => execHotPageRingWrite_latched _ s h t
  | .migrationCopyComplete _ _, _ => execMigrationCopyComplete_latched _ _ s h t
  | .hostWindowReadFail _ _ _, _ => execHostWindowReadFail_latched _ _ _ s h t
  | .boundOverrun _ _, _ => execBoundOverrun_latched _ _ s h t
  | .degradationReadmission, _ => execDegradationReadmission_latched s h t
  | .routeChangeComplete _, _ => execRouteChangeComplete_latched _ s h t
  | .streamDoorbell _ _ _ _, _ => execStreamDoorbell_latched _ _ _ _ s h t
  | .frameFetch _ _ _, _ => execFrameFetch_latched _ _ _ s h t
  | .frameFetchComplete _ _ _ _, _ => execFrameFetchComplete_latched _ _ _ _ s h t
  | .postCompletion _ _, _ => execPostCompletion_latched _ _ s h t
  | .noticeRingWrite _, _ => execNoticeRingWrite_latched _ s h t
  | .ntcBaseWrite _ _, _ => execNtcBaseWrite_latched _ _ s h t
  | .hprBaseWrite _ _, _ => execHprBaseWrite_latched _ _ s h t
  | .errCntRead _, _ => execErrCntRead_latched _ s h t
  | .errCnt2Read _, _ => execErrCnt2Read_latched _ s h t
  | .mbxRefusedRead _ _, _ => execMbxRefusedRead_latched _ _ s h t
  | .hmbRefusedRead _, _ => execHmbRefusedRead_latched _ s h t
  | .registerWrite _ _ _, _ => execRegisterWrite_latched _ _ _ s h t
  | .bar2Read _ _ _ _, _ => execBar2Read_latched _ _ _ _ s h t
  | .bar2Write p i bs, _ => execBar2Write_latched p i bs s h t
  | .mbxCommandComplete _ _, _ => execMbxCommandComplete_latched _ _ s h t
  | .identify _ _, _ => execIdentify_latched _ _ s h t
  | .getHealth _ _, _ => execGetHealth_latched _ _ s h t
  | .setEpoch _ _, _ => execSetEpoch_latched _ _ s h t
  | .partCreate _ _, _ => execPartCreate_latched _ _ s h t
  | .partDestroy _ _, _ => execPartDestroy_latched _ _ s h t
  | .partStop _ _, _ => execPartStop_latched _ _ s h t
  | .partStart _ _ _, _ => execPartStart_latched _ _ _ s h t
  | .partReconfigure _ _, _ => execPartReconfigure_latched _ _ s h t
  | .partQuery _ _, _ => execPartQuery_latched _ _ s h t
  | .seedSet _ _, _ => execSeedSet_latched _ _ s h t
  | .imageLoad _ _ _, _ => execImageLoad_latched _ _ _ s h t
  | .memMap _ _, _ => execMemMap_latched _ _ s h t
  | .memMapMigrate _ _, _ => execMemMapMigrate_latched _ _ s h t
  | .memUnmap _ _, _ => execMemUnmap_latched _ _ s h t
  | .windowOpen _ _, _ => execWindowOpen_latched _ _ s h t
  | .windowClose _ _, _ => execWindowClose_latched _ _ s h t
  | .streamOpen _ _, _ => execStreamOpen_latched _ _ s h t
  | .streamClose _ _, _ => execStreamClose_latched _ _ s h t
  | .recordConfig _ _, _ => execRecordConfig_latched _ _ s h t
  | .replayRun _ _, _ => execReplayRun_latched _ _ s h t
  | .faultLogRead _ _, _ => execFaultLogRead_latched _ _ s h t
  | .repairStatus _ _, _ => execRepairStatus_latched _ _ s h t
  | .repairCommit _ _, _ => execRepairCommit_latched _ _ s h t
  | .fwUpdate _ _ _, _ => execFwUpdate_latched _ _ _ s h t
  | .attestQuote _ _, _ => execAttestQuote_latched _ _ s h t
  | .lanePlanSet _ _, _ => execLanePlanSet_latched _ _ s h t
  | .linkQuery _ _, _ => execLinkQuery_latched _ _ s h t
  | .diagRescueRead _ _, _ => execDiagRescueRead_latched _ _ s h t
  | .diagCoreStoreRead _ _, _ => execDiagCoreStoreRead_latched _ _ s h t
  | .diagStampRead _ _, _ => execDiagStampRead_latched _ _ s h t
  | .diagRegisterRead _ _, _ => execDiagRegisterRead_latched _ _ s h t
  | .diagDebugBreak _ _, _ => execDiagDebugBreak_latched _ _ s h t
  | .hmStatus _, _ => execHmStatus_latched _ s h t
  | .hmLog _, _ => execHmLog_latched _ s h t
  | .hmDieReset _, _ => execHmDieReset_latched _ s h t
  | .hmFwRestart _, _ => execHmFwRestart_latched _ s h t
  | .hmPortQuiesce _, _ => execHmPortQuiesce_latched _ s h t
  | .hmSnapshot _, _ => execHmSnapshot_latched _ s h t
  | .hmbComplete _, _ => execHmbComplete_latched _ s h t
  | .dieBistComplete _ _, _ => execDieBistComplete_latched _ _ s h t
  | .chatterWindowStart _, _ => execChatterWindowStart_latched _ s h t
  | .laneSpareSwap _, _ => execLaneSpareSwap_latched _ s h t
  | .flitCrcRetry _ _ _, _ => execFlitCrcRetry_latched _ _ _ s h t
  | .fecCodeword _ _ _ _, _ => execFecCodeword_latched _ _ _ _ s h t
  | .scaleoutLinkTrain _ _, _ => execScaleoutLinkTrain_latched _ _ s h t
  | .scaleoutLinkDown _ _, _ => execScaleoutLinkDown_latched _ _ s h t
  | .turnEndItem _, _ => execTurnEndItem_latched _ s h t
  | .i3cOffsetWrite _, _ => execI3cOffsetWrite_latched _ s h t
  | .setdasa _, _ => execSetdasa_latched _ s h t
  | .getVersion _, _ => execGetVersion_latched _ s h t
  | .getCapabilities _, _ => execGetCapabilities_latched _ s h t
  | .negotiateAlgorithms _ _ _, _ => execNegotiateAlgorithms_latched _ _ _ s h t
  | .getDigests _, _ => execGetDigests_latched _ s h t
  | .getCertificate _ _ _ _, _ => execGetCertificate_latched _ _ _ _ s h t
  | .challenge _ _ _, _ => execChallenge_latched _ _ _ s h t
  | .getMeasurements _ _ _ _, _ => execGetMeasurements_latched _ _ _ _ s h t
  | .mbxDoorbellRefused _ _, _ => execMbxDoorbellRefused_latched _ _ s h t
  | .hmbCmdRefused _ _, _ => execHmbCmdRefused_latched _ _ s h t
  | .controlCoreBoot, _ => execControlCoreBoot_latched s h t
  | .computeDieReset _, _ => execComputeDieReset_latched _ s h t

/-- Settles O1: the queue's front is not empty. -/
theorem stepRunsFront : Obligations.StepRunsFront := by
  intro c rest s
  rw [step]

/-- Settles O3: every meaning of the table is one next state. -/
theorem everyCommandGoes : Obligations.EveryCommandGoes := by
  intro c s
  cases c <;> exact ⟨_, rfl⟩

/-- Settles O5: after reset nothing is listed. -/
theorem resetCanon : Obligations.ResetCanon := by
  constructor <;> decide

/-- Settles O6: a cycle and every command keep the form, and the queue is no part of it. -/
theorem stepKeepsCanon : Obligations.StepKeepsCanon := by
  intro s t h go
  unfold step at go
  split at go
  · cases go
    exact tick_canon s h
  · rename_i c rest queue
    have canon : State.Canon { s with pending := rest } :=
      ⟨h.cores, h.parts, h.dies, h.beds, h.hbms, h.hbm, h.hbmErr, h.lanes, h.links⟩
    exact exec_canon canon c go

/-- Settles O4: a cycle puts out and takes nothing, and the front command leaves the queue's rest. -/
theorem stepServesQueueInOrder : Obligations.StepServesQueueInOrder := by
  intro s t go
  unfold step at go
  split at go
  · rename_i empty
    cases go
    obtain ⟨pending, out, free⟩ := tick_fwd s (z := s) ⟨rfl, List.prefix_rfl, le_rfl⟩
    exact ⟨by rw [pending, empty]; rfl, out, free⟩
  · rename_i c rest queue
    obtain ⟨pending, out, free⟩ := exec_fwd (z := { s with pending := rest }) ⟨rfl, List.prefix_rfl, le_rfl⟩ c go
    exact ⟨by rw [pending, queue]; rfl, out, free⟩

/-- Settles O7: each of the other commands keeps both. -/
theorem onlyResetLeavesFailed : Obligations.OnlyResetLeavesFailed := by
  intro c s t good withdrawn asserted deasserted go
  have other : IsNoReset c := by
    cases c with
    | powerGood b => exact good b rfl
    | powerGoodWithdrawn v => exact withdrawn v rfl
    | modResetAssert => exact asserted rfl
    | modResetDeassert b => exact deasserted b rfl
    | _ => trivial
  obtain ⟨health, trip⟩ := exec_latched (z := s) ⟨id, fun h => ⟨h, rfl⟩⟩ c other go
  exact ⟨health, trip⟩

/-- Settles O60: the reset state lists nothing, and what an unlisted key reads as is its Reset value. -/
theorem resetValues : Obligations.ResetValues := by
  have port : ∀ p, State.reset.port p = Port.reset := fun p => by cases p <;> rfl
  refine ⟨rfl, rfl, rfl, rfl, rfl, rfl, fun _ => ⟨rfl, rfl, rfl⟩, fun _ => ⟨rfl, rfl⟩, fun p => ?_, fun _ => rfl, fun _ => ⟨rfl, rfl⟩,
    fun _ => rfl, rfl, rfl, rfl, rfl, rfl, rfl, rfl⟩
  rw [port]
  exact ⟨rfl, rfl, rfl, rfl, rfl, rfl, rfl, rfl, rfl, rfl, rfl, rfl, rfl, rfl, rfl, rfl, rfl, rfl, rfl⟩

end Sys2Proof.Machine
end

section
/-! PROOF. O2: one REFCLK cycle (R448, R453). The cycles that turn units count change units alone. -/

namespace Sys2Proof.Machine

/-- Turn units differ, and what carries them; a die only in its bulk movers. -/
structure State.UnitsOnly (s t : State) : Prop where
  rest : { t with cores := s.cores, dies := s.dies, hbms := s.hbms, parts := s.parts } = s
  die : ∀ d, { t.die d with bulk := (s.die d).bulk } = s.die d

namespace State.UnitsOnly

variable {s t u : State}

theorem refl (s : State) : s.UnitsOnly s := ⟨rfl, fun _ => rfl⟩

theorem trans (h : s.UnitsOnly t) (k : t.UnitsOnly u) : s.UnitsOnly u :=
  ⟨(congrArg (fun x : State => { x with cores := s.cores, dies := s.dies, hbms := s.hbms, parts := s.parts }) k.rest :).trans h.rest,
    fun d => (congrArg (fun x : Die => { x with bulk := (s.die d).bulk }) (k.die d) :).trans (h.die d)⟩

theorem foldl {α : Type} {g : State → α → State} (hg : ∀ (z : State) a, z.UnitsOnly (g z a)) (l : List α) (z : State) : z.UnitsOnly (l.foldl g z) := by
  induction l generalizing z with
  | nil => exact refl z
  | cons a l ih => exact (hg z a).trans (ih _)

theorem updTu (q : Nat) (u : UnitRef) (f : TurnUnit → TurnUnit) (s : State) : s.UnitsOnly (updTu q u f s) := by
  refine ⟨updTu_frame q u f s, fun i => ?_⟩
  cases u with
  | bulk d =>
    unfold Machine.updTu updBulk
    by_cases e : i = d
    · rw [e, State.die_updDie]
    · rw [State.die_updDie_ne s e]
  | _ => rfl

theorem passTclk (n : Nat) (s : State) (q : Nat) : s.UnitsOnly (passTclk n s q) := by
  unfold Machine.passTclk
  split
  · refine foldl (fun z u => ?_) _ s
    dsimp only
    split
    · exact updTu ..
    · exact refl z
  · exact refl s

end State.UnitsOnly

/-- What a cycle does after the turn units have counted it. -/
def State.cycled (s : State) : State :=
  { s with
    hs := { s.hs with refcyc := (s.hs.refcyc + 1) % 2 ^ 48 }
    dies := SMap.mapVals Die.reset (fun d x => if x.up then
      { x with refcyc := (x.refcyc + 1) % 2 ^ 48, cclk := x.cclk + cclkPer d s } else x) s.dies
    beds := SMap.mapVals Bed.reset (fun _ x => if x.up then { x with refcyc := (x.refcyc + 1) % 2 ^ 48 } else x) s.beds
    hbms := SMap.mapVals Stack.reset (fun _ x => { x with
      regs := SMap.mapVals Regulator.reset (fun _ g => g.gain x.step) x.regs }) s.hbms
    cores := SMap.mapVals Core.reset (fun c x => x.passWindow (cclkPer (dieOfCore c) s)) s.cores }

theorem State.cycled_die_refcyc {s : State} (canon : s.Canon) {d : Nat} (up : (s.die d).up = true) :
    (s.cycled.die d).refcyc = ((s.die d).refcyc + 1) % 2 ^ 48 := by
  unfold State.cycled State.die
  rw [SMap.get_mapVals Die.reset _ d rfl ((SMap.wf_iff _).1 canon.dies).1]
  exact congrArg Die.refcyc (if_pos up)

theorem State.cycled_bed_refcyc {s : State} (canon : s.Canon) {b : Nat} (up : (s.bed b).up = true) :
    (s.cycled.bed b).refcyc = ((s.bed b).refcyc + 1) % 2 ^ 48 := by
  unfold State.cycled State.bed
  rw [SMap.get_mapVals Bed.reset _ b rfl ((SMap.wf_iff _).1 canon.beds).1]
  exact congrArg Bed.refcyc (if_pos up)

theorem tick_of_not_running {s : State} (off : s.running = false) : tick s = s := by
  unfold tick
  rw [off]
  rfl

/-- A cycle of a module that runs. -/
theorem tick_of_running {s : State} (on : s.running = true) : ∃ u, s.UnitsOnly u ∧ (s.Canon → u.Canon) ∧ tick s = u.cycled :=
  ⟨allParts.foldl (passTclk 4) s, .foldl (.passTclk 4) _ s, fun h => canon_foldl h fun _ _ k => passTclk_canon _ _ _ k, if_pos on⟩

/-- Settles O2: a step on an empty queue is a cycle, in which each counter of what is up goes on. -/
theorem emptyQueueTick : Obligations.EmptyQueueTick := by
  intro s empty
  have go : step s = .next (tick s) := by rw [step, empty]
  refine ⟨fun off => by rw [go, tick_of_not_running off], fun on canon => ?_⟩
  obtain ⟨u, ⟨rest, die⟩, kept, cycle⟩ := tick_of_running on
  have beds : u.beds = s.beds := (congrArg State.beds rest :)
  have hs : u.hs = s.hs := (congrArg State.hs rest :)
  refine ⟨u.cycled, by rw [go, cycle], ?_, fun d up => ?_, fun b up => ?_, ?_⟩
  · rw [← hs]
    rfl
  · have count : (u.die d).refcyc = (s.die d).refcyc := (congrArg Die.refcyc (die d) :)
    rw [State.cycled_die_refcyc (kept canon) ((congrArg Die.up (die d) :).trans up), count]
  · rw [← State.bed_of beds] at up ⊢
    exact State.cycled_bed_refcyc (kept canon) up
  · exact congrArg (fun x : State => { x with hs := u.cycled.hs, parts := u.parts, cores := u.cycled.cores, dies := u.cycled.dies
                                              beds := u.cycled.beds, hbms := u.cycled.hbms }) rest

end Sys2Proof.Machine
end

section
/-! SUPPORT. The power-up sequence (R470 to R474): what it leaves of the supply, the queue and the firmware that runs, and its health. -/

namespace Sys2Proof.Machine

/-- What the power-up sequence keeps once the firmware has started: the supply, the floor, the queue, and which firmware runs. -/
structure State.BootKept (s t : State) : Prop where
  power : t.power = s.power
  floor : t.flash.floor = s.flash.floor
  pending : t.pending = s.pending
  fwRun : t.hs.fwRun = s.hs.fwRun
  slot : t.hs.slot = s.hs.slot

theorem State.StopOnly.bootKept {s t : State} (h : s.StopOnly t) : s.BootKept t :=
  ⟨(congrArg State.power h.rest :), (congrArg (·.flash.floor) h.rest :), (congrArg State.pending h.rest :),
    (congrArg Headstock.fwRun h.hs :), (congrArg Headstock.slot h.hs :)⟩

/-- Beside health, its log entry and notices, and ALERT, FAILED does no more than stops do. -/
theorem enterFailed_stopOnly (s : State) : (setHealth .failed s).StopOnly (enterFailed s) :=
  stopOnly_foldl (State.StopOnly.refl _) fun _ _ h => stopWithin_stopOnly _ _ _ _ _ h

theorem State.StopOnly.flash_eq {s t : State} (h : s.StopOnly t) : t.flash = s.flash := (congrArg State.flash h.rest :)

theorem setHealth_flash (h : Health) (s : State) : (setHealth h s).flash = s.flash := (congrArg State.flash (setHealth_frame h s) :)

theorem enterFailed_flash (s : State) : (enterFailed s).flash = s.flash := (enterFailed_stopOnly s).flash_eq.trans (setHealth_flash ..)

namespace State.BootKept

variable {s t u : State}

theorem refl (s : State) : s.BootKept s := ⟨rfl, rfl, rfl, rfl, rfl⟩

theorem trans (h : s.BootKept t) (k : t.BootKept u) : s.BootKept u :=
  ⟨k.power.trans h.power, k.floor.trans h.floor, k.pending.trans h.pending, k.fwRun.trans h.fwRun, k.slot.trans h.slot⟩

theorem foldl {α : Type} {g : State → α → State} (h : s.BootKept t) (hg : ∀ z a, s.BootKept z → s.BootKept (g z a)) (l : List α) :
    s.BootKept (l.foldl g t) := by
  induction l generalizing t with
  | nil => exact h
  | cons a l ih => exact ih (hg t a h)

/-- A change of parts that the view does not show. -/
theorem of_hs (h : s.BootKept t) (hs : u.hs = t.hs) (power : u.power = t.power) (floor : u.flash.floor = t.flash.floor)
    (pending : u.pending = t.pending) : s.BootKept u :=
  h.trans ⟨power, floor, pending, congrArg Headstock.fwRun hs, congrArg Headstock.slot hs⟩

theorem logEvent (h : s.BootKept t) (e : LogEntry) : s.BootKept (logEvent e t) := ⟨h.power, h.floor, h.pending, h.fwRun, h.slot⟩

theorem drewN (h : s.BootKept t) (n : Nat) : s.BootKept (t.drewN n) := h.of_hs rfl rfl rfl rfl
theorem updCore (h : s.BootKept t) (c : Nat) (f : Core → Core) : s.BootKept (t.updCore c f) := h.of_hs rfl rfl rfl rfl
theorem updBed (h : s.BootKept t) (b : Nat) (f : Bed → Bed) : s.BootKept (t.updBed b f) := h.of_hs rfl rfl rfl rfl
theorem updStack (h : s.BootKept t) (k : Nat) (f : Stack → Stack) : s.BootKept (t.updStack k f) := h.of_hs rfl rfl rfl rfl
theorem updLane (h : s.BootKept t) (b : Nat) (f : Bundle → Bundle) : s.BootKept (t.updLane b f) := h.of_hs rfl rfl rfl rfl
theorem updLink (h : s.BootKept t) (l : Nat) (f : Link → Link) : s.BootKept (t.updLink l f) := h.of_hs rfl rfl rfl rfl

theorem updFlash (h : s.BootKept t) (f : Flash → Flash) (hf : ∀ x, (f x).floor = x.floor := by intro; rfl) : s.BootKept (t.updFlash f) :=
  h.of_hs rfl rfl (hf _) rfl

theorem updHs (h : s.BootKept t) (f : Headstock → Headstock) (hf : ∀ x, (f x).fwRun = x.fwRun ∧ (f x).slot = x.slot := by
    intro; exact ⟨rfl, rfl⟩) : s.BootKept (t.updHs f) :=
  h.trans ⟨rfl, rfl, rfl, (hf _).1, (hf _).2⟩

theorem setHealth (h : s.BootKept t) (x : Health) : s.BootKept (setHealth x t) := by
  unfold Machine.setHealth
  dsimp only
  split
  · exact h
  · exact ⟨h.power, h.floor, h.pending, h.fwRun, h.slot⟩

theorem enterFailed (h : s.BootKept t) : s.BootKept (enterFailed t) := (h.setHealth .failed).trans (enterFailed_stopOnly t).bootKept

theorem bistEntry (h : s.BootKept t) (cls addr code : Nat) (r : Res) : s.BootKept (bistEntry cls addr code r t) := h.logEvent _

theorem retireCore (h : s.BootKept t) (c cls : Nat) : s.BootKept (retireCore c cls t) := by
  unfold Machine.retireCore
  split
  · exact h
  · exact (h.updFlash _).bistEntry ..

theorem rowFails (h : s.BootKept t) (c r : Nat) : s.BootKept (rowFails c r t) := by
  unfold Machine.rowFails
  split <;> split
  · exact h
  · exact h.retireCore ..
  · exact h.retireCore ..
  · exact (h.updFlash _).bistEntry ..

theorem wayFails (h : s.BootKept t) (u : TlbUser) (w : Nat) : s.BootKept (wayFails u w t) := by
  unfold Machine.wayFails
  dsimp only
  split
  · exact h.retireCore ..
  all_goals
    split
    · exact h
    · exact (h.updFlash _).bistEntry ..

/-- A failure that BIST reports is marked in the repair record and logged. -/
theorem applyBist (h : s.BootKept t) (f : BistFail) : s.BootKept (applyBist t f) := by
  cases f with
  | core c k => exact h.retireCore c k
  | arrayRow c r => exact h.rowFails c r
  | tlbWay u w => exact h.wayFails u w
  | granule b g =>
    refine iteInduction (motive := s.BootKept) (fun _ => h) fun _ => ?_
    exact (h.updFlash _).bistEntry ..
  | bedDie _ => exact h
  | stack _ => exact h
  | fabric => exact h

theorem enableDie (h : s.BootKept t) (d : Nat) : s.BootKept (enableDie d t) := by
  unfold Machine.enableDie
  refine foldl ?_ (fun z e hz => hz.updCore ..) _
  exact h.of_hs rfl rfl rfl rfl

theorem bistStep (h : s.BootKept t) (boot : BootEnv) : s.BootKept (bistStep boot t) := by
  unfold Machine.bistStep
  have pending : s.BootKept (applyPending (fun _ => true) boot.bist t) := h.updFlash _
  have found := pending.foldl (fun z f hz => hz.applyBist f) boot.bist
  have beds := (found.updFlash fun f => { f with
    repair := { f.repair with ways := f.repair.ways ++ f.pendWays, granules := f.repair.granules ++ f.pendGranules }
    pendWays := [], pendGranules := [] }).foldl (fun z b hz => hz.updBed b fun x => { x with
    up := true, cacheMiB := SMap.get 0 b z.flash.repair.bedCache }) (List.range 4)
  refine ((beds.foldl (fun z d hz => ?_) _).updHs _).drewN 4
  dsimp only
  split
  · exact (hz.enableDie d).logEvent _
  · exact hz.enableDie d

theorem giveRole (h : s.BootKept t) (r c : Nat) : s.BootKept (giveRole r t c) := by
  unfold Machine.giveRole
  split
  · split
    · exact h.updLane ..
    · exact h
  · exact h

theorem laneStep (h : s.BootKept t) (boot : BootEnv) : s.BootKept (laneStep boot t) := by
  unfold Machine.laneStep giveRoles
  refine foldl (foldl ?_ (fun z c hz => hz.giveRole ..) _) (fun z c hz => hz.giveRole ..) _
  exact (h.foldl (fun z b hz => hz.updLane ..) _).updHs _

theorem hbmStep (h : s.BootKept t) : s.BootKept (hbmStep t) := by
  unfold Machine.hbmStep
  exact (h.foldl (fun z k hz => hz.updStack ..) _).updFlash _

theorem trainLink (h : s.BootKept t) (l : Nat) (peer : LinkPeer) : s.BootKept (trainLink l peer t) := by
  unfold Machine.trainLink
  dsimp only
  split
  · exact h.updLink ..
  · exact h

theorem linkStep (h : s.BootKept t) (boot : BootEnv) : s.BootKept (linkStep boot t) := by
  unfold Machine.linkStep
  exact (h.foldl (fun z l hz => hz.updLink ..) _).foldl (fun z e hz => (hz.trainLink ..).updLink ..) _

theorem healthStep (h : s.BootKept t) : s.BootKept (healthStep t) := (h.updHs _).setHealth _

theorem dieSteps (h : s.BootKept t) (boot : BootEnv) : s.BootKept (dieSteps boot t) := by
  unfold Machine.dieSteps
  dsimp only
  have laned := (h.bistStep boot).laneStep boot
  split
  · exact (h.updHs _).enterFailed
  · split
    · exact laned.enterFailed
    · split
      · exact laned.enterFailed
      · exact (laned.hbmStep.linkStep boot).healthStep

end State.BootKept

theorem enterFailed_not_initializing (s : State) : (enterFailed s).hs.health ≠ .initializing := by
  rw [enterFailed_health]
  decide

theorem healthStep_not_initializing (s : State) : (healthStep s).hs.health ≠ .initializing := by
  unfold healthStep
  dsimp only
  rw [setHealth_health]
  split <;> decide

theorem dieSteps_not_initializing (boot : BootEnv) (s : State) : (dieSteps boot s).hs.health ≠ .initializing := by
  unfold dieSteps
  dsimp only
  split
  · exact enterFailed_not_initializing _
  · split
    · exact enterFailed_not_initializing _
    · split
      · exact enterFailed_not_initializing _
      · exact healthStep_not_initializing _

end Sys2Proof.Machine
end

section
/-! PROOF. O8, O9: MOD_RESET_N, the loss of 48 V, and the power-up sequence. -/

namespace Sys2Proof.Machine

/-- What MOD_RESET_N leaves, whatever the supply then is. -/
theorem resetAll_afterModReset (s : State) (x : Power) : AfterModReset s { resetAll s with power := x } :=
  ⟨fun _ => rfl, fun _ => rfl, fun _ => rfl, fun _ => rfl, fun _ => rfl, fun _ => rfl, fun _ => rfl, fun _ => rfl, rfl, rfl,
    fun p => by cases p <;> rfl, rfl, rfl, rfl, rfl⟩

theorem good_of_running {s : State} (h : s.running = true) : s.power.good = true := (Bool.and_eq_true_iff.1 h).1

/-- Settles O8: both are the reset of the module, or nothing but the pin. -/
theorem moduleReset : Obligations.ModuleReset := by
  intro s
  refine ⟨fun on => ⟨resetAll s, congrArg _ (if_pos on), resetAll_afterModReset s _, (good_of_running on : s.power.good = true), rfl, rfl⟩,
    fun off => congrArg _ (if_neg (Bool.eq_false_iff.1 off)), fun v good out => ?_, fun v inside => ?_⟩
  · have lost : (s.power.good && (decide (v < 3700) || decide (6200 < v))) = true := by simpa [good] using out
    let off (x : Power) : Power := { x with good := false, rails := false, modReset := s.power.modReset, setFail := false }
    exact ⟨(resetAll s).updPower off, congrArg _ (if_pos lost), resetAll_afterModReset s _, rfl, rfl, rfl⟩
  · refine congrArg _ (if_neg fun lost => inside ?_)
    simpa using lost

/-- The state in which the power-up sequence has taken the boot selection and the set identifiers (R439, R470). -/
def powerTaken (boot : BootEnv) (s : State) : State :=
  s.updPower fun x => { x with rails := true, bootSel := boot.bootSel.val, setFail := x.setFail || !powerUp.distinctSet boot.setIds }

/-- And the rollback floor (R472). -/
def floorTaken (boot : BootEnv) (s : State) : State := (powerTaken boot s).updFlash applyFloor

theorem powerUp_of_bootSel_three {boot : BootEnv} (h : boot.bootSel.val = 3) (s : State) :
    powerUp boot s = enterFailed (powerTaken boot s) := by
  unfold powerUp
  exact if_pos h

theorem powerUp_eq {boot : BootEnv} (h : boot.bootSel.val ≠ 3) (s : State) : powerUp boot s =
    match bootSlot boot.bootSel (applyFloor s.flash) with
    | none => enterFailed (floorTaken boot s)
    | some n => if (floorTaken boot s).power.setFail then enterFailed (floorTaken boot s) else dieSteps boot (startFw n (floorTaken boot s)) := by
  unfold powerUp
  exact if_neg h

/-- The sequence that ends in FAILED before the firmware has started. -/
theorem floorTaken_failed (boot : BootEnv) (s : State) : (floorTaken boot s).BootKept (enterFailed (floorTaken boot s)) :=
  (State.BootKept.refl _).enterFailed

/-- A slot that boots: the firmware runs unless the matched set failed (R439, R470). -/
theorem powerUp_of_slot {boot : BootEnv} {s : State} {n : Nat} (h : boot.bootSel.val ≠ 3)
    (slot : bootSlot boot.bootSel (applyFloor s.flash) = some n) :
    ((floorTaken boot s).BootKept (powerUp boot s) ∧ (floorTaken boot s).power.setFail = true ∨
      (startFw n (floorTaken boot s)).BootKept (powerUp boot s)) ∧ (powerUp boot s).hs.health ≠ .initializing := by
  by_cases fails : (floorTaken boot s).power.setFail = true
  · have failed : powerUp boot s = enterFailed (floorTaken boot s) := by rw [powerUp_eq h, slot]; exact if_pos fails
    rw [failed]
    exact ⟨.inl ⟨floorTaken_failed boot s, fails⟩, enterFailed_not_initializing _⟩
  · have started : powerUp boot s = dieSteps boot (startFw n (floorTaken boot s)) := by rw [powerUp_eq h, slot]; exact if_neg fails
    rw [started]
    exact ⟨.inr ((State.BootKept.refl _).dieSteps boot), dieSteps_not_initializing boot _⟩

/-- The sequence on a module with power good and MOD_RESET_N deasserted, from a state that is s but for the supply. -/
theorem powerUp_poweredUp (boot : BootEnv) {s u : State} (hu : { u with power := s.power } = s) (good : u.power.good = true)
    (released : u.power.modReset = false) : PoweredUp boot s (powerUp boot u) := by
  have flash : u.flash = s.flash := (congrArg State.flash hu :)
  have queue : u.pending = s.pending := (congrArg State.pending hu :)
  have hs : u.hs = s.hs := (congrArg State.hs hu :)
  by_cases three : boot.bootSel.val = 3
  · have kept := (State.BootKept.refl (powerTaken boot u)).enterFailed
    rw [powerUp_of_bootSel_three three]
    obtain ⟨power, -, pending, run, -⟩ := kept
    refine ⟨by rw [power]; exact good, by rw [power]; exact released, by rw [power]; rfl, by rw [power]; rfl,
      enterFailed_not_initializing _, pending.trans queue, fun _ => ⟨enterFailed_health _, run.trans (congrArg _ hs), ?_⟩,
      fun h => absurd three h, fun h => absurd three h, fun _ h => absurd three h⟩
    rw [enterFailed_flash, ← flash]
    rfl
  · have supply {z t : State} (kept : z.BootKept t) (hz : z.power = (floorTaken boot u).power)
        (hf : z.flash = (floorTaken boot u).flash) (hp : z.pending = u.pending) : t.power.good = true ∧ t.power.modReset = false ∧
        t.power.rails = true ∧ t.power.bootSel = boot.bootSel.val ∧ t.pending = s.pending ∧ t.flash.floor = (applyFloor s.flash).floor := by
      rw [kept.power, kept.floor, kept.pending, hz, hf, hp, ← flash]
      exact ⟨good, released, rfl, rfl, queue, rfl⟩
    cases slot : bootSlot boot.bootSel (applyFloor s.flash) with
    | none =>
      have failed : powerUp boot u = enterFailed (floorTaken boot u) := by
        rw [powerUp_eq three, flash, slot]
      obtain ⟨good, released, rails, sel, pending, floor⟩ := supply (floorTaken_failed boot u) rfl rfl rfl
      rw [failed]
      exact ⟨good, released, rails, sel, enterFailed_not_initializing _, pending, fun h => absurd h three, fun _ => floor,
        fun _ _ => enterFailed_health _, fun n _ h => by rw [slot] at h; cases h⟩
    | some n =>
      obtain ⟨kept, healthy⟩ := powerUp_of_slot three (flash ▸ slot)
      have ends : (∃ z : State, z.BootKept (powerUp boot u) ∧ z.power = (floorTaken boot u).power ∧ z.flash = (floorTaken boot u).flash ∧
          z.pending = u.pending) ∧ ((powerUp boot u).power.setFail = false → (powerUp boot u).hs.fwRun = true ∧ (powerUp boot u).hs.slot = n) := by
        rcases kept with ⟨kept, fails⟩ | kept
        · exact ⟨⟨_, kept, rfl, rfl, rfl⟩, fun h => by rw [kept.power, fails] at h; cases h⟩
        · exact ⟨⟨_, kept, rfl, rfl, rfl⟩, fun _ => ⟨kept.fwRun, kept.slot⟩⟩
      obtain ⟨⟨z, kept, hz, hf, hp⟩, runs⟩ := ends
      obtain ⟨good, released, rails, sel, pending, floor⟩ := supply kept hz hf hp
      refine ⟨good, released, rails, sel, healthy, pending, fun h => absurd h three, fun _ => floor, fun _ h => (by rw [slot] at h; cases h),
        fun m _ h fails => ?_⟩
      rw [slot] at h
      cases h
      exact runs fails

/-- Settles O9: the two conditions of power-up, in either order. -/
theorem powerUpSequence : Obligations.PowerUpSequence := by
  intro boot s
  refine ⟨fun off released => ⟨_, ?_, powerUp_poweredUp boot (u := s.updPower fun x => { x with good := true, rails := true }) rfl rfl released⟩,
    fun off held => ?_, fun good => congrArg _ (if_pos good),
    fun good held => ⟨_, ?_, powerUp_poweredUp boot (u := s.updPower fun x => { x with modReset := false }) rfl good rfl⟩,
    fun off held => ?_, fun released => congrArg _ (if_neg (Bool.eq_false_iff.1 released))⟩
  · exact congrArg _ ((if_neg (Bool.eq_false_iff.1 off)).trans (if_neg (Bool.eq_false_iff.1 released)))
  · exact congrArg _ ((if_neg (Bool.eq_false_iff.1 off)).trans (if_pos held))
  · exact congrArg _ ((if_pos held).trans (if_pos good))
  · exact congrArg _ ((if_pos held).trans (if_neg (Bool.eq_false_iff.1 off)))

end Sys2Proof.Machine
end

section
/-! PROOF. O14: power and junction samples, thermal trips, and the rails that go off (R464 to R466). -/

namespace Sys2Proof.Machine

/-- The module entered FAILED from a state with the partitions of s (R424). -/
theorem enterFailed_failed {s u : State} (parts : u.parts = s.parts) : Failed s (enterFailed u) := by
  have part := State.part_of parts
  refine ⟨enterFailed_health u, fun q hq run => ?_, fun q idle => ?_⟩
  · obtain ⟨st, stat, -⟩ := enterFailed_part u q (List.mem_range.2 hq) (by rw [part]; exact run)
    exact ⟨st, stat⟩
  · rw [← part] at idle ⊢
    exact enterFailed_idle u q idle

theorem failed_logEvent {s t : State} (h : Failed s t) (e : LogEntry) : Failed s (logEvent e t) := h

/-- The supply's registers once a trip is in force. -/
def Power.tripped (cause src : Nat) (x : Power) : Power := { x with trip := true, tripCause := cause, tripSrc := src }

/-- A second trip is none (R466). -/
theorem thermalTrip_of_trip {s : State} (h : s.power.trip = true) (cause src d0 : Nat) : thermalTrip cause src d0 s = s := if_pos h

theorem thermalTrip_eq {s : State} (h : s.power.trip = false) (cause src d0 : Nat) : ∃ m e,
    thermalTrip cause src d0 s = logEvent e (enterFailed { s with power := s.power.tripped cause src, mgmt := m }) :=
  ⟨_, _, if_neg (Bool.eq_false_iff.1 h)⟩

theorem thermalTrip_power_of_untripped {s : State} (h : s.power.trip = false) (cause src d0 : Nat) :
    (thermalTrip cause src d0 s).power = s.power.tripped cause src := (thermalTrip_spec cause src d0 s).2 h

/-- A trip takes the module to FAILED (R466). -/
theorem thermalTrip_failed {s : State} (h : s.power.trip = false) (cause src d0 : Nat) : Failed s (thermalTrip cause src d0 s) := by
  obtain ⟨m, e, eq⟩ := thermalTrip_eq h cause src d0
  rw [eq]
  refine failed_logEvent ?_ e
  exact enterFailed_failed rfl

/-- What a trip leaves of the supply, whether or not one is in force already. -/
theorem thermalTrip_power (cause src d0 : Nat) (s : State) : { (thermalTrip cause src d0 s).power with
    trip := s.power.trip, tripCause := s.power.tripCause, tripSrc := s.power.tripSrc } = s.power := by
  cases h : s.power.trip with
  | true => rw [thermalTrip_of_trip h, ← h]
  | false => rw [thermalTrip_power_of_untripped h, Power.tripped, ← h]

/-- The STEP of a die changes by at most one and stays within 0 to 6 (R464). -/
def StepMoves (a b : Nat) : Prop := b = a ∨ b + 1 = a ∨ (b = a + 1 ∧ b ≤ 6)

theorem putStep_frame (d n : Nat) (s : State) : { putStep d n s with power := s.power, mgmt := s.mgmt } = s := by
  unfold putStep
  dsimp only
  split <;> rfl

theorem putStep_power (d n : Nat) (s : State) : (putStep d n s).power =
    { s.power with step := SMap.set 6 d n s.power.step, stepAge := SMap.set 100 d 0 s.power.stepAge } := by
  unfold putStep
  dsimp only
  split <;> rfl

/-- The step rules for a die do nothing, or give it a STEP next to its own. -/
theorem stepDie_cases (s : State) (d : Nat) : stepDie s d = s ∨ ∃ n, stepDie s d = putStep d n s ∧ StepMoves (s.power.stepOf d) n := by
  unfold stepDie
  dsimp only
  split
  · exact .inl rfl
  · split
    · split
      · exact .inr ⟨_, rfl, .inr (.inl (by omega))⟩
      · exact .inl rfl
    · split
      · exact .inr ⟨_, rfl, .inr (.inr (by omega))⟩
      · exact .inl rfl

/-- Of the supply, what the step rules may change: STEP of the dies of l, each as R464 has it. -/
structure State.Stepped (l : List Nat) (s t : State) : Prop where
  rest : { t with power := s.power, mgmt := s.mgmt } = s
  power : { t.power with step := s.power.step, stepAge := s.power.stepAge } = s.power
  moves : ∀ d ∈ l, StepMoves (s.power.stepOf d) (t.power.stepOf d)
  stays : ∀ d, d ∉ l → t.power.stepOf d = s.power.stepOf d

theorem stepDie_stepped (s : State) (d : Nat) : s.Stepped [d] (stepDie s d) := by
  rcases stepDie_cases s d with same | ⟨n, put, moves⟩
  · rw [same]
    exact ⟨rfl, rfl, fun _ _ => .inl rfl, fun _ _ => rfl⟩
  · rw [put]
    refine ⟨putStep_frame d n s, by rw [putStep_power], fun e he => ?_, fun e he => ?_⟩
    · cases List.mem_singleton.1 he
      rw [putStep_power]
      unfold Power.stepOf at moves ⊢
      rwa [SMap.get_set]
    · rw [putStep_power]
      unfold Power.stepOf
      rw [SMap.get_set_ne 6 fun h => he (List.mem_singleton.2 h)]

theorem State.Stepped.trans {l m : List Nat} {s t u : State} (h : s.Stepped l t) (k : t.Stepped m u) (apart : ∀ d ∈ l, d ∉ m) :
    s.Stepped (l ++ m) u := by
  refine ⟨(congrArg (fun x : State => { x with power := s.power, mgmt := s.mgmt }) k.rest :).trans h.rest,
    (congrArg (fun x : Power => { x with step := s.power.step, stepAge := s.power.stepAge }) k.power :).trans h.power,
    fun d hd => ?_, fun d hd => ?_⟩
  · by_cases first : d ∈ l
    · rw [k.stays d (apart d first)]
      exact h.moves d first
    · rw [← h.stays d first]
      exact k.moves d ((List.mem_append.1 hd).resolve_left first)
  · obtain ⟨hl, hm⟩ := not_or.1 fun e => hd (List.mem_append.2 e)
    rw [k.stays d hm, h.stays d hl]

theorem foldl_stepDie_stepped {l : List Nat} (hl : l.Nodup) (s : State) : s.Stepped l (l.foldl stepDie s) := by
  induction l generalizing s with
  | nil => exact ⟨rfl, rfl, fun _ h => (nomatch h), fun _ _ => rfl⟩
  | cons a l ih =>
    obtain ⟨out, rest⟩ := List.nodup_cons.1 hl
    refine (stepDie_stepped s a).trans (ih rest _) fun d hd => ?_
    cases List.mem_singleton.1 hd
    exact out

/-- A power sample as it enters the averages, with ALERT where the input leaves its range (R464, R477). -/
def sampleEntered (w v : Nat) (s : State) : State :=
  let outside := fun (v : Nat) => decide (v < 4000) || decide (6000 < v)
  let u := s.updPower (Power.sampled w v)
  if outside v && (s.power.vin == 0 || !outside s.power.vin) then { u with mgmt := { u.mgmt with alert := setBit u.mgmt.alert 0 true } }
  else u

theorem sampleEntered_frame (w v : Nat) (s : State) : { sampleEntered w v s with power := s.power, mgmt := s.mgmt } = s := by
  unfold sampleEntered
  dsimp only
  split <;> rfl

theorem sampleEntered_power (w v : Nat) (s : State) : (sampleEntered w v s).power = s.power.sampled w v := by
  unfold sampleEntered
  dsimp only
  split <;> rfl

/-- A power sample before the trips are judged: the averages, ALERT and each die's STEP. -/
def sampleTaken (w v : Nat) (s : State) : State := (List.range 12).foldl stepDie (sampleEntered w v s)

/-- What a taken sample shows (R464). -/
theorem sampleTaken_spec (w v : Nat) (s : State) : { sampleTaken w v s with power := s.power, mgmt := s.mgmt } = s ∧
    (sampleTaken w v s).power.hist = (w :: s.power.hist).take 1000 ∧ (sampleTaken w v s).power.vin = v ∧
    (sampleTaken w v s).power.trip = s.power.trip ∧
    ∀ d, d < 12 → StepMoves (s.power.stepOf d) ((sampleTaken w v s).power.stepOf d) := by
  have rest := sampleEntered_frame w v s
  have power := sampleEntered_power w v s
  obtain ⟨frame, supply, moves, -⟩ := foldl_stepDie_stepped (List.nodup_range (n := 12)) (sampleEntered w v s)
  unfold sampleTaken
  rw [power] at supply moves
  revert frame supply moves
  generalize (List.range 12).foldl stepDie (sampleEntered w v s) = t
  intro frame supply moves
  exact ⟨(congrArg (fun x : State => { x with power := s.power, mgmt := s.mgmt }) frame :).trans rest, (congrArg Power.hist supply :),
    (congrArg Power.vin supply :), (congrArg Power.trip supply :), fun d hd => moves d (List.mem_range.2 hd)⟩

/-- The trips that a power sample is judged by: one for P100, one for P10, or none (R465). -/
def tripsJudged (s : State) : State :=
  if s.power.above 10 2300 then thermalTrip 4 0x20 0 s
  else if 10000 ≤ s.power.overRun ∧ ((List.range 12).all fun d => s.power.stepOf d == 0) = true then thermalTrip 3 0x20 0 s
  else s

theorem tripsJudged_of_above {s : State} (h : s.power.above 10 2300 = true) : tripsJudged s = thermalTrip 4 0x20 0 s := if_pos h

theorem tripsJudged_cases (s : State) : tripsJudged s = s ∨ ∃ cause, tripsJudged s = thermalTrip cause 0x20 0 s := by
  unfold tripsJudged
  split
  · exact .inr ⟨4, rfl⟩
  · split
    · exact .inr ⟨3, rfl⟩
    · exact .inl rfl

theorem exec_powerSample {s : State} (on : s.running = true) (w v : Nat) :
    exec (.powerSample w v) s = .next (tripsJudged (sampleTaken w (v % 65536) s)) := by
  change execPowerSample w v s = _
  unfold execPowerSample tripsJudged sampleTaken sampleEntered
  dsimp only
  refine congrArg Host.Outcome.next ((if_pos on).trans ?_)
  generalize List.foldl stepDie _ (List.range 12) = u
  rfl

/-- Registers of the supply that a trip does not take. -/
theorem Power.registers_eq {x y : Power} (h : { x with trip := y.trip, tripCause := y.tripCause, tripSrc := y.tripSrc } = y) :
    x.hist = y.hist ∧ x.vin = y.vin ∧ x.junc = y.junc ∧ x.step = y.step :=
  ⟨(congrArg Power.hist h :), (congrArg Power.vin h :), (congrArg Power.junc h :), (congrArg Power.step h :)⟩

/-- A trip where none was in force shows in the trip's register, so where that is as before nothing has been done. -/
theorem thermalTrip_frame {cause src d0 : Nat} {s : State} (h : (thermalTrip cause src d0 s).power.trip = s.power.trip) :
    thermalTrip cause src d0 s = s := by
  cases trip : s.power.trip with
  | true => exact thermalTrip_of_trip trip ..
  | false =>
    rw [thermalTrip_power_of_untripped trip, Power.tripped, trip] at h
    cases h

theorem failed_of_parts {s u t : State} (h : Failed u t) (parts : u.parts = s.parts) : Failed s t := by
  obtain ⟨health, run, idle⟩ := h
  simp only [State.part_of parts] at run idle
  exact ⟨health, run, idle⟩

theorem powerSampleRule : PowerSampleRule := by
  intro w v s on
  have go := exec_powerSample on w v
  obtain ⟨rest, hist, vin, trip, moves⟩ := sampleTaken_spec w (v % 65536) s
  revert go rest hist vin trip moves
  generalize sampleTaken w (v % 65536) s = u
  intro go rest hist vin trip moves
  have parts : u.parts = s.parts := (congrArg State.parts rest :)
  have registers : (tripsJudged u).power.hist = u.power.hist ∧ (tripsJudged u).power.vin = u.power.vin ∧
      (tripsJudged u).power.step = u.power.step := by
    rcases tripsJudged_cases u with same | ⟨cause, tripped⟩
    · rw [same]
      exact ⟨rfl, rfl, rfl⟩
    · rw [tripped]
      obtain ⟨hist, vin, -, step⟩ := Power.registers_eq (thermalTrip_power cause 0x20 0 u)
      exact ⟨hist, vin, step⟩
  obtain ⟨thist, tvin, tstep⟩ := registers
  refine ⟨_, go, thist.trans hist, tvin.trans vin, fun d hd => ?_, fun untripped hot => ?_, fun same => ?_⟩
  · unfold Power.stepOf
    rw [tstep]
    exact moves d hd
  · have above : u.power.above 10 2300 = true := by
      rw [Power.above, hist, List.take_take]
      exact decide_eq_true hot
    rw [tripsJudged_of_above above, thermalTrip_power_of_untripped (trip.trans untripped)]
    exact ⟨rfl, rfl, rfl, failed_of_parts (thermalTrip_failed (trip.trans untripped) 4 0x20 0) parts⟩
  · rcases tripsJudged_cases u with stays | ⟨cause, tripped⟩
    · rw [stays]
      exact rest
    · rw [tripped] at same ⊢
      rw [thermalTrip_frame (same.trans trip.symm)]
      exact rest

/-- A junction sample before the trip is judged: the temperature held, and the die's STEP. -/
def junctionTaken (d : Nat) (x : Int) (s : State) : State :=
  stepDie (s.updPower fun y => { y with
    junc := SMap.set 0 d x y.junc, juncOk := SMap.upd 0 d (fun n => if x ≤ 95 then min 100 (n + 1) else 0) y.juncOk }) d

theorem junctionTaken_spec (d : Nat) (x : Int) (s : State) : { junctionTaken d x s with power := s.power, mgmt := s.mgmt } = s ∧
    (junctionTaken d x s).power.junc = SMap.set 0 d x s.power.junc ∧ (junctionTaken d x s).power.trip = s.power.trip ∧
    ∀ e, e ≠ d → (junctionTaken d x s).power.stepOf e = s.power.stepOf e := by
  obtain ⟨frame, supply, -, stays⟩ := stepDie_stepped (s.updPower fun y => { y with
    junc := SMap.set 0 d x y.junc, juncOk := SMap.upd 0 d (fun n => if x ≤ 95 then min 100 (n + 1) else 0) y.juncOk }) d
  exact ⟨(congrArg (fun z : State => { z with power := s.power, mgmt := s.mgmt }) frame :), (congrArg Power.junc supply :),
    (congrArg Power.trip supply :), fun e he => stays e fun h => he (List.mem_singleton.1 h)⟩

theorem exec_junctionSample {s : State} (on : s.running = true) (rails : s.power.rails = true) (d : DieId) (x : Int) :
    exec (.junctionSample d x) s = .next (if 110 ≤ x then thermalTrip 2 d 0 (junctionTaken d x s) else junctionTaken d x s) :=
  congrArg _ (if_pos (by rw [on, rails]; rfl))

theorem junctionSampleRule : JunctionSampleRule := by
  intro d x s on rails
  have go := exec_junctionSample on rails d x
  obtain ⟨rest, junc, trip, step⟩ := junctionTaken_spec d x s
  revert go rest junc trip step
  generalize junctionTaken d x s = u
  intro go rest junc trip step
  have held : SMap.get 0 d u.power.junc = x ∧ ∀ e, e ≠ d.val → SMap.get 0 e u.power.junc = SMap.get 0 e s.power.junc ∧
      u.power.stepOf e = s.power.stepOf e := by
    rw [junc]
    exact ⟨SMap.get_set .., fun e he => ⟨SMap.get_set_ne 0 he .., step e he⟩⟩
  by_cases hot : 110 ≤ x
  · rw [if_pos hot] at go
    obtain ⟨-, -, tjunc, tstep⟩ := Power.registers_eq (thermalTrip_power 2 d 0 u)
    refine ⟨_, go, ?_, ?_, fun untripped _ => ?_, fun cool => absurd hot (not_le.2 cool)⟩
    · rw [tjunc]
      exact held.1
    · unfold Power.stepOf
      rw [tjunc, tstep]
      exact held.2
    · rw [thermalTrip_power_of_untripped (trip.trans untripped)]
      exact ⟨rfl, rfl, rfl, failed_of_parts (thermalTrip_failed (trip.trans untripped) 2 d 0) (congrArg State.parts rest :)⟩
  · rw [if_neg hot] at go
    exact ⟨u, go, held.1, held.2, fun _ h => absurd h hot, fun _ => rest⟩

theorem exec_railSwitchOff {s : State} (trip : s.power.trip = true) (rails : s.power.rails = true) : exec .railSwitchOff s = .next { s with
    power := { s.power with rails := false }, cores := [], dies := [], beds := [], hbms := [], hbm := [], hbmErr := [] } :=
  congrArg _ (if_pos (by rw [trip, rails]; rfl))

theorem railsOffRule : RailsOffRule := fun _ trip rails => ⟨_, exec_railSwitchOff trip rails, rfl, fun _ => rfl, fun _ => rfl,
  fun _ => rfl, fun _ => rfl, fun _ => rfl, rfl, rfl, rfl, rfl, rfl, rfl, rfl, rfl, rfl, rfl, rfl⟩

/-- Settles O14: what a sample leaves is the sample taken, or a trip after it. -/
theorem powerManager : Obligations.PowerManager := ⟨powerSampleRule, junctionSampleRule, railsOffRule⟩

end Sys2Proof.Machine
end

section
/-! PROOF. O12: the test access ports, and a break request over JTAG (R131, R134, R456). -/

namespace Sys2Proof.Machine

/-- Of a core's pending exceptions only the immediate ones change. -/
theorem immediate_pend (v : Nat) (x : Core) : { (x.immediate v).pend with imm := x.pend.imm } = x.pend := by
  unfold Core.immediate
  split <;> rfl

/-- The break request to a core of a partition, on a module that runs with its rails on (R456). -/
theorem exec_jtagBreak {c : CoreId} {q : Nat} {s : State} (on : s.running = true) (rails : s.power.rails = true)
    (trst : s.power.trst = false) (part : (s.core c).part = some q) : exec (.jtagBreak c) s = .next (debugBreak c s) :=
  congrArg _ (if_pos (by simp [on, rails, trst, part]))

/-- Settles O12: the pin alone; and the break request waits or is taken at once. -/
theorem testAccessAndDebug : Obligations.TestAccessAndDebug := by
  intro c q s
  refine ⟨rfl, fun asserted => congrArg _ (if_neg (by simp [asserted])), fun on rails trst part => ⟨fun stands => ?_,
    fun runs delay branch vload imm clean passes => ?_⟩⟩
  · refine ⟨_, exec_jtagBreak on rails trst part, ?_⟩
    rw [debugBreak_waits stands, State.core_updCore]
    exact ⟨mem_immediate .., immediate_rest .., immediate_pend .., fun i hi => State.core_updCore_ne _ hi _, rfl⟩
  · obtain ⟨e, vec, entered⟩ := debugBreak_enters runs delay branch vload imm clean
    have raised : debugBreak c s = raiseImmediate c 15 s := if_pos (by rw [runs]; rfl)
    obtain ⟨others, rest⟩ := raiseImmediate_onlyCore clean 15
    refine ⟨_, exec_jtagBreak on rails trst part, ?_⟩
    rw [← vec] at passes ⊢
    rw [entered, enterCore_pc passes, enterCore_pend passes, enterCore_twait passes, raised]
    exact ⟨rfl, rfl, rfl, others, rest⟩

end Sys2Proof.Machine
end

section
/-! SUPPORT. The ports, which the movers, the accounting, stops and the undoing of migrations leave but for notices and mailboxes (R268
to R270, R327, R332, R338, R360). -/

namespace Sys2Proof.Machine

/-- Of the ports nothing differs but notices that wait and mailboxes. -/
structure State.PortsKept (s t : State) : Prop where
  port : ∀ p, { t.port p with notices := (s.port p).notices, mbx := (s.port p).mbx } = s.port p

theorem State.StopOnly.portsKept {s t : State} (h : s.StopOnly t) : s.PortsKept t := ⟨h.port⟩

theorem State.Accounted.portsKept {s t : State} (h : s.Accounted t) : s.PortsKept t :=
  ⟨fun p => (congrArg (fun x : Port => { x with mbx := (s.port p).mbx }) (h.port p) :)⟩

namespace State.PortsKept

variable {s t u : State}

theorem refl (s : State) : s.PortsKept s := ⟨fun _ => rfl⟩

theorem trans (h : s.PortsKept t) (k : t.PortsKept u) : s.PortsKept u := ⟨fun p =>
  (congrArg (fun x : Port => { x with notices := (s.port p).notices, mbx := (s.port p).mbx }) (k.port p) :).trans (h.port p)⟩

theorem of_ports (a : t.portA = s.portA) (b : t.portB = s.portB) : s.PortsKept t := by
  have same (p : PortId) : t.port p = s.port p := by
    cases p
    · exact a
    · exact b
  exact ⟨fun p => by rw [same]⟩

theorem ite {p : Prop} [Decidable p] (h : s.PortsKept t) (k : s.PortsKept u) : s.PortsKept (if p then t else u) := by
  split
  · exact h
  · exact k

theorem foldl {α : Type} {g : State → α → State} (hg : ∀ (z : State) a, z.PortsKept (g z a)) (l : List α) (s : State) :
    s.PortsKept (l.foldl g s) := by
  induction l generalizing s with
  | nil => exact refl s
  | cons a l ih => exact (hg s a).trans (ih _)

/-! Translations (R315, R318, R321) and requests (R284). -/

theorem chatter (r : Res) (a : Nat) (s : State) : s.PortsKept (chatter r a s) :=
  ((State.Accounted.refl s).chatter r a).portsKept

theorem chatterUe (r : Res) (a : Nat) (s : State) : s.PortsKept (chatterUe r a s) :=
  ((State.Accounted.refl s).chatterUe r a).portsKept

theorem walkRead (q va : Nat) (w : Bool) (s : State) : s.PortsKept (walkRead q va w s).1 := by
  refine foldl (fun z l => ?_) _ s
  unfold entryRead
  dsimp only
  split
  · exact refl z
  · exact trans (t := z.updPart q _) (of_ports rfl rfl) (chatter ..)
  · exact chatterUe ..

theorem setTlb (v : TlbUser) (l : List TlbEntry) (e : Bool) (s : State) : s.PortsKept (setTlb v l e s) := by
  cases v <;> exact of_ports rfl rfl

theorem translateFar (v : TlbUser) (q va : Nat) (w : Bool) (s : State) : s.PortsKept (translateFar v q va w s).1 := by
  unfold Machine.translateFar translate
  dsimp only
  split
  · exact refl s
  · split
    · exact walkRead ..
    · split
      · exact ((setTlb ..).trans (chatter ..)).trans (walkRead ..)
      · split <;> exact refl s

theorem tlbInstall (v : TlbUser) (e : TlbEntry) (s : State) : s.PortsKept (tlbInstall v e s) := ite (refl s) (setTlb ..)

theorem countWindow (d q va pa : Nat) (s : State) : s.PortsKept (countWindow d q va pa s) := by
  unfold Machine.countWindow
  split <;> exact of_ports rfl rfl

/-- What a mover's access does once its address has a translation. -/
theorem translated (v : TlbUser) (d q va pa : Nat) (e : TlbEntry) (s : State) :
    s.PortsKept (Machine.countWindow d q va pa (Machine.tlbInstall v e s)) := (tlbInstall ..).trans (countWindow ..)

theorem submit (r : MemReq) (s : State) : s.PortsKept (submit r s) := by
  unfold Machine.submit
  split
  · exact of_ports rfl rfl
  · exact of_ports rfl rfl
  · exact ite (refl s) (ite (of_ports rfl rfl) (foldl (fun (z : State) (e : Nat × List Byte) => of_ports (t := z.emit (.hostWrite _ e.1 e.2)) rfl rfl) _ s))
  · exact refl s

theorem flushWcb (c q : Nat) (p : WcbLine → Bool) (s : State) : s.PortsKept (flushWcb c q p s) :=
  trans (t := s.updCore c _) (of_ports rfl rfl) (foldl (fun z _ => submit _ z) _ _)

theorem farZero (c line : Nat) (ro : Bool) (s : State) : s.PortsKept (farZero c line ro s) := by
  have offered (v : CacheLine) (z : State) : z.PortsKept (offerVictim v z) := by
    refine ite ?_ (refl z)
    unfold offerFill
    split <;> exact of_ports rfl rfl
  exact trans (t := s.updCore c _) (of_ports rfl rfl) (offered ..)

/-! Core stores (R77). -/

theorem touch (c w : Nat) (how : CwHow) (s : State) : s.PortsKept (touch c w how s) := by
  have counted := (touch_changed c w how s).rest
  exact (counted.portsKept).trans (of_ports rfl rfl)

theorem copyWords (c r : Nat) (d : MoveDesc) (n pos : Nat) (s : State) (z : Nat) : s.PortsKept (copyWords c r d n pos (s, z)).1 := by
  induction n generalizing pos s z with
  | zero => exact refl s
  | succ n ih => exact (touch c _ .read s).trans (trans (t := (Machine.touch c _ .read s).updCore r _) (of_ports rfl rfl) (ih ..))

theorem storeRead (c n a : Nat) (s : State) : s.PortsKept (storeRead c n a s).1 := by
  induction n generalizing a s with
  | zero => exact refl s
  | succ n ih => exact (touch c _ .read s).trans (ih ..)

theorem deliverWords (q : Nat) (d : MoveDesc) (pos : Nat) (ws : List TWord) (s : State) : s.PortsKept (deliverWords q d pos ws s) := by
  refine foldl (fun z lc => ?_) _ s
  split
  · exact of_ports rfl rfl
  · exact refl z

/-! The step of a mover (R268, R270, R271). -/

theorem updHead (m : MoverRef) (q : Nat) (f : MoveJob → MoveJob) (s : State) : s.PortsKept (updHead m q f s) := by
  cases m <;> exact of_ports rfl rfl

theorem servedNow (m : MoverRef) (q : Nat) (s : State) : s.PortsKept (servedNow m q s) := by
  cases m <;> exact of_ports rfl rfl

theorem moveRead (m : MoverRef) (q : Nat) (d : MoveDesc) (pos want : Nat) (acc : List Byte) (bad : Nat) (s : State) :
    s.PortsKept (moveRead m q d pos want acc bad s) := by
  have looked := translateFar (moverTlb m) q (d.srcAt pos + acc.length) false s
  unfold Machine.moveRead
  dsimp only
  generalize Machine.translateFar (moverTlb m) q (d.srcAt pos + acc.length) false s = x at looked
  obtain ⟨z, x⟩ := x
  cases x with
  | fail => exact looked.trans ((updHead ..).trans (updHead ..))
  | ok e =>
    have found := looked.trans (translated (moverTlb m) (moverDie m) q (d.srcAt pos + acc.length) (e.at (d.srcAt pos + acc.length)) e z)
    have asked (y : State) (h : s.PortsKept y) (pa : Nat) :
        s.PortsKept (Machine.updHead m q (fun j => { j with phase := .reading want acc bad (some pa) }) y) := h.trans (updHead ..)
    dsimp only
    cases m with
    | core c =>
      dsimp only
      split
      · exact asked _ (found.trans (flushWcb ..)) _
      · exact (asked _ (found.trans (flushWcb ..)) _).trans (submit ..)
    | bulk b =>
      dsimp only
      split
      · exact asked _ found _
      · exact (asked _ found _).trans (submit ..)

theorem moveWrite (m : MoverRef) (q : Nat) (d : MoveDesc) (pos : Nat) (bytes : List Byte) (bad : Bool) (s : State) :
    s.PortsKept (moveWrite m q d pos bytes bad s).1 := by
  have looked := translateFar (moverTlb m) q (d.dstAt pos) true s
  unfold Machine.moveWrite
  dsimp only
  generalize Machine.translateFar (moverTlb m) q (d.dstAt pos) true s = x at looked
  obtain ⟨z, x⟩ := x
  cases x with
  | fail => exact looked.trans (updHead ..)
  | ok e =>
    have found := looked.trans (translated (moverTlb m) (moverDie m) q (d.dstAt pos) (e.at (d.dstAt pos)) e z)
    have written (y : State) (h : s.PortsKept y) (host : Bool) (r : MemReq) (f g : MoveJob → MoveJob) (n : Nat) :
        s.PortsKept (if host = true then (pieceDone m q n (Machine.submit r (Machine.updHead m q f y)), true)
          else (Machine.submit r (Machine.updHead m q g (Machine.updHead m q f y)), false)).1 := by
      split
      · exact h.trans ((updHead ..).trans ((submit ..).trans (updHead ..)))
      · exact h.trans ((updHead ..).trans ((updHead ..).trans (submit ..)))
    dsimp only
    cases m with
    | core c =>
      refine written _ ?_ _ _ _ _ _
      exact found.trans (ite (farZero ..) (of_ports rfl rfl))
    | bulk b => exact written _ found _ _ _ _ _

theorem coreToFar (m : MoverRef) (q c : Nat) (d : MoveDesc) (pos n : Nat) (s : State) : s.PortsKept (coreToFar m q c d pos n s).1 := by
  have read := storeRead c n (d.srcAt pos) s
  unfold Machine.coreToFar
  dsimp only
  generalize Machine.storeRead c n (d.srcAt pos) s = x at read
  obtain ⟨y, bs, p, k⟩ := x
  have looked := read.trans (translateFar (moverTlb m) q (d.dstAt pos) true y)
  dsimp only at looked ⊢
  generalize Machine.translateFar (moverTlb m) q (d.dstAt pos) true y = x at looked
  obtain ⟨z, x⟩ := x
  cases x with
  | fail => exact looked.trans (updHead ..)
  | ok e =>
    dsimp only
    split
    · exact looked.trans ((updHead ..).trans ((updHead ..).trans (moveWrite ..)))
    · exact looked.trans ((updHead ..).trans (moveWrite ..))

theorem movePiece (m : MoverRef) (q : Nat) (d : MoveDesc) (pos : Nat) (s : State) : s.PortsKept (movePiece m q d pos s).1 := by
  unfold Machine.movePiece
  split
  · exact moveWrite ..
  · dsimp only
    split
    · split
      · split
        · exact (copyWords ..).trans ((updHead ..).trans (updHead ..))
        · exact refl s
      · split
        · exact coreToFar ..
        · exact moveRead ..
    · split
      · exact refl s
      · exact moveRead ..

/-- A step for which the host has no answer. -/
theorem moveStep (m : MoverRef) (q : Nat) (env : Env) (s : State) : s.PortsKept (moveStep m q false env s).1 := by
  unfold Machine.moveStep
  split
  · exact refl s
  · dsimp only
    split
    · exact refl s
    · split
      · exact refl s
      · exact refl s
      · split
        · exact (servedNow ..).trans (moveRead ..)
        · exact refl s
      · split
        · exact refl s
        · split
          · exact (deliverWords ..).trans (updHead ..)
          · exact (servedNow ..).trans (moveWrite ..)
      · split
        · exact refl s
        · exact (servedNow ..).trans (movePiece ..)

theorem moveRun (m : MoverRef) (q : Nat) (env : Env) (n : Nat) (s : State) : s.PortsKept (moveRun m q false env n s) := by
  induction n generalizing s with
  | zero => exact refl s
  | succ n ih =>
    have step := moveStep m q env s
    unfold Machine.moveRun
    generalize Machine.moveStep m q false env s = x at step
    obtain ⟨z, go⟩ := x
    cases go with
    | true => exact step.trans (ih z)
    | false => exact step

theorem bulkRun (d n : Nat) (s : State) : s.PortsKept (bulkRun d n s) := by
  induction n generalizing s with
  | zero => exact refl s
  | succ n ih =>
    unfold Machine.bulkRun
    split
    · exact refl s
    next q _ =>
      have step := moveStep (.bulk (dieNum d)) q Env.quiet s
      exact ite (step.trans (ih _)) step

theorem moveOn (m : MoverRef) (q : Nat) (env : Env) (s : State) : s.PortsKept (moveOn m q false env s) := by
  have run := moveRun m q env (moveFuel m q s) s
  cases m with
  | core c => exact run
  | bulk d => exact run.trans (bulkRun ..)

/-! Fault queues (R330, R332). -/

theorem retryEngine (d q n e : Nat) (s : State) : s.PortsKept (retryEngine d q n s e) := by
  unfold Machine.retryEngine
  dsimp only
  split
  · split
    · refine (updHead (engineMover d e) q (fun j => { j with stall := none }) s).trans (trans ?_ (moveOn ..))
      exact ite (of_ports rfl rfl) (refl _)
    · exact refl s
  · exact refl s

theorem enterFault {d e : Nat} (h : enterFault d e s = some t) : s.PortsKept t := by
  have put (q n : Nat) (y : FqEntry) : s.PortsKept (putFault d e q n y s) :=
    trans (t := s.updDie d fun x => { x with fq := SMap.set FqEntry.free n y x.fq }) (of_ports rfl rfl) (updHead ..)
  unfold Machine.enterFault at h
  obtain ⟨⟨q, f⟩, -, h⟩ := Option.bind_eq_some_iff.1 h
  dsimp only at h
  split at h
  · cases h
    exact put ..
  · obtain ⟨n, -, rfl⟩ := Option.map_eq_some_iff.1 h
    exact put ..

theorem enterStalled (d n : Nat) (s : State) : s.PortsKept (enterStalled d n s) := by
  have drop (rest : List Nat) (z : State) : z.PortsKept (z.updDie d fun x => { x with stalled := rest }) := of_ports rfl rfl
  induction n generalizing s with
  | zero => exact refl s
  | succ n ih =>
    unfold Machine.enterStalled
    split
    · exact refl s
    · dsimp only
      split
      · exact (drop ..).trans (ih _)
      · split
        next z h => exact (enterFault h).trans ((drop ..).trans (ih _))
        · exact refl s

theorem fqRetry (d n : Nat) (s : State) : s.PortsKept (fqRetry d n s) := by
  refine ite (trans ?_ (enterStalled d 110 _)) (of_ports rfl rfl)
  exact trans (t := s.updDie d _) (of_ports rfl rfl) (foldl (fun z e => retryEngine d _ n e z) _ _)

theorem retryRegion (q va : Nat) (s : State) : s.PortsKept (retryRegion q va s) :=
  foldl (fun z d => foldl (fun y n => fqRetry d n y) _ z) _ s

theorem invalidate (q va len : Nat) (s : State) : s.PortsKept (invalidate q va len s) := of_ports rfl rfl

theorem updPart (q : Nat) (f : Part → Part) (s : State) : s.PortsKept (s.updPart q f) := of_ports rfl rfl

theorem updCore (c : Nat) (f : Core → Core) (s : State) : s.PortsKept (s.updCore c f) := of_ports rfl rfl

/-- A migration undone (R327). -/
theorem restoreMigration (q : Nat) (m : Migration) (s : State) : s.PortsKept (restoreMigration q m s) := by
  unfold Machine.restoreMigration endMigration
  exact (updPart ..).trans ((invalidate ..).trans (retryRegion ..))

/-! What the loss of a host does before its port's registers (R338, R367, R381). -/

theorem stopWithin (q : Nat) (st : PartSt) (a o : Nat) (s : State) : s.PortsKept (stopWithin q st a o s) :=
  (stopWithin_stopOnly q st a o s (.refl s)).portsKept

theorem abandonReplay (q : Nat) (s : State) : s.PortsKept (abandonReplay q s) := ite ((stopWithin ..).trans (updPart ..)) (refl s)

theorem abandonPart (p : PortId) (s : State) (q : Nat) : s.PortsKept (abandonPart p s q) := by
  have replayed : s.PortsKept (if (s.part q).replay.any fun y => y.port == p then Machine.abandonReplay q s else s) :=
    ite (abandonReplay ..) (refl s)
  unfold Machine.abandonPart
  dsimp only
  split
  · exact replayed.trans ((ite (restoreMigration ..) (refl _)).trans (updPart ..))
  · exact replayed.trans (updPart ..)

theorem abandonFlash (p : PortId) (s : State) (m : Nat) : s.PortsKept (abandonFlash p s m) :=
  ite (ite (of_ports rfl rfl) (of_ports rfl rfl)) (refl s)

theorem abandonPort (p : PortId) (s : State) : s.PortsKept (abandonPort p s) :=
  (foldl (abandonPart p) _ s).trans (foldl (abandonFlash p) _ _)

theorem hostLost (p : PortId) (o : Nat) (s : State) : s.PortsKept (hostLost p o s) := foldl (fun _ _ => ite (stopWithin ..) (refl _)) _ s

theorem dropPosts (p : PortId) (s : State) : s.PortsKept (dropPosts p s) := by
  refine foldl (fun z q => ite ?_ (refl z)) _ s
  exact (updPart ..).trans (foldl (fun z c => updCore c _ z) _ _)

end State.PortsKept

end Sys2Proof.Machine
end

section
/-! PROOF. O10: the port events and the pins of R381. -/

namespace Sys2Proof.Machine

/-- What a port event does before the port's registers (R381). -/
def hostDropped (p : PortId) (s : State) : State := dropPosts p (abandonPort p (hostLost p 7 s))

theorem portEvent_eq (p : PortId) (f : Port → Port → Port) (s : State) :
    portEvent p f s = (hostDropped p s).updPort p fun x => f x (portReset x) := by
  unfold portEvent hostDropped
  rfl

theorem hostDropped_portsKept (p : PortId) (s : State) : s.PortsKept (hostDropped p s) :=
  ((State.PortsKept.hostLost p 7 s).trans (.abandonPort p _)).trans (.dropPosts p _)

/-- A port event leaves the port as f makes it of the registers it had and their Reset values, whatever had to be abandoned. -/
theorem portEvent_port (p : PortId) (f : Port → Port → Port) (s : State) : ∃ x : Port,
    { x with notices := (s.port p).notices, mbx := (s.port p).mbx } = s.port p ∧ (portEvent p f s).port p = f x (portReset x) :=
  ⟨_, (hostDropped_portsKept p s).port p, by rw [portEvent_eq, State.port_updPort]⟩

theorem portReset_portAtReset (x : Port) (linkUp perst d3 : Bool) :
    PortAtReset { portReset x with linkUp := linkUp, perst := perst, d3 := d3 } :=
  ⟨rfl, rfl, rfl, rfl, rfl, rfl, rfl, rfl, rfl, rfl, rfl, rfl, rfl, rfl, rfl, rfl, rfl⟩

section
variable {p : PortId} {s : State} (on : s.running = true)
include on

theorem exec_perstAssert : exec (.perstAssert p) s = .next (portEvent p (fun _ y => { y with perst := true }) s) :=
  congrArg Host.Outcome.next (if_pos on)

theorem exec_functionLevelReset (up : (s.port p).linkUp = true) : exec (.functionLevelReset p) s =
    .next (portEvent p (fun x y => { y with linkUp := x.linkUp, perst := x.perst }) s) :=
  congrArg Host.Outcome.next (if_pos (by simp [on, up]))

theorem exec_pcieLinkDown (up : (s.port p).linkUp = true) : exec (.pcieLinkDown p) s = .next (linkLost p s) :=
  congrArg Host.Outcome.next (if_pos (by simp [on, up]))

theorem exec_d3hotEntry (up : (s.port p).linkUp = true) (d0 : (s.port p).d3 = false) : exec (.d3hotEntry p) s = .next (enterD3 p s) :=
  congrArg Host.Outcome.next (if_pos (by simp [on, up, d0]))

end

/-- The link of a port that is lost leaves it reset but for its pin (R381). -/
theorem linkLost_port (p : PortId) (s : State) : PortAtReset ((linkLost p s).port p) ∧ ((linkLost p s).port p).perst = (s.port p).perst ∧
    ((linkLost p s).port p).linkUp = false ∧ ((linkLost p s).port p).d3 = false ∧ ((linkLost p s).port p).bar2 = (s.port p).bar2 := by
  obtain ⟨x, same, port⟩ := portEvent_port p (fun x y => { y with perst := x.perst }) s
  unfold linkLost
  rw [port, ← same]
  exact ⟨portReset_portAtReset .., rfl, rfl, rfl, rfl⟩

/-- Settles O10: each event is the port's reset with its own word on link, pin and power state, or nothing. -/
theorem portEventsAndPins : Obligations.PortEventsAndPins := by
  intro p s
  have onlyPort (f : Port → Port) : (s.updPort p f).port p = f (s.port p) ∧
      (s.updPort p f).port (otherPort p) = s.port (otherPort p) ∧ { s.updPort p f with portA := s.portA, portB := s.portB } = s :=
    ⟨State.port_updPort .., State.port_otherPort_updPort .., State.updPort_frame ..⟩
  refine ⟨fun on => ⟨_, exec_perstAssert on, ?_⟩, fun on up => ⟨_, exec_functionLevelReset on up, ?_⟩,
    fun on up => ⟨_, exec_pcieLinkDown on up, linkLost_port p s⟩, fun on up d0 => ⟨_, exec_d3hotEntry on up d0, ?_⟩,
    ⟨_, rfl, onlyPort _⟩, fun on released => ⟨s.updPort p fun x => { x with linkUp := true }, ?_, onlyPort _⟩,
    fun on held => congrArg Host.Outcome.next (if_neg (by simp [held])), fun on down => ⟨?_, ?_, ?_⟩,
    fun off => ⟨s.updPort p fun x => { x with perst := true }, ?_, onlyPort _⟩⟩
  · obtain ⟨x, same, port⟩ := portEvent_port p (fun _ y => { y with perst := true }) s
    rw [port, ← same]
    exact ⟨portReset_portAtReset .., rfl, rfl, rfl, rfl⟩
  · obtain ⟨x, same, port⟩ := portEvent_port p (fun x y => { y with linkUp := x.linkUp, perst := x.perst }) s
    rw [← same] at up
    rw [port, ← same]
    exact ⟨portReset_portAtReset .., rfl, up, rfl, rfl⟩
  · obtain ⟨x, same, port⟩ := portEvent_port p (fun x y => { y with linkUp := x.linkUp, perst := x.perst, d3 := true }) s
    rw [← same] at up
    unfold enterD3
    rw [port, ← same]
    exact ⟨portReset_portAtReset .., rfl, up, rfl, rfl⟩
  · exact congrArg Host.Outcome.next (if_pos (by simp [on, released]))
  · exact congrArg Host.Outcome.next (if_neg (by simp [down]))
  · exact congrArg Host.Outcome.next (if_neg (by simp [down]))
  · exact congrArg Host.Outcome.next (if_neg (by simp [down]))
  · exact congrArg Host.Outcome.next (if_neg (Bool.eq_false_iff.1 off))

end Sys2Proof.Machine
end

section
/-! SUPPORT. Mailboxes under stops: no more than the result of a PART_STOP that waits (R338, R397). -/

namespace Sys2Proof.Machine

/-- Of the mailboxes nothing differs but results. -/
structure State.BoxesKept (s t : State) : Prop where
  box : ∀ p m, { t.mbx p m with result := (s.mbx p m).result } = s.mbx p m

namespace State.BoxesKept

variable {s t u : State}

theorem refl (s : State) : s.BoxesKept s := ⟨fun _ _ => rfl⟩

theorem trans (h : s.BoxesKept t) (k : t.BoxesKept u) : s.BoxesKept u := ⟨fun p m =>
  (congrArg (fun x : Mbx => { x with result := (s.mbx p m).result }) (k.box p m) :).trans (h.box p m)⟩

theorem of_mbx (h : ∀ p m, t.mbx p m = s.mbx p m) : s.BoxesKept t := ⟨fun p m => by rw [h]⟩

theorem foldl {α : Type} {g : State → α → State} (hg : ∀ (z : State) a, z.BoxesKept (g z a)) (l : List α) (s : State) :
    s.BoxesKept (l.foldl g s) := by
  induction l generalizing s with
  | nil => exact refl s
  | cons a l ih => exact (hg s a).trans (ih _)

theorem ite {p : Prop} [Decidable p] (h : s.BoxesKept t) (k : s.BoxesKept u) : s.BoxesKept (if p then t else u) := by
  split
  · exact h
  · exact k

theorem updCore (c : Nat) (f : Core → Core) (s : State) : s.BoxesKept (s.updCore c f) := of_mbx fun p m => by simp
theorem updPart (q : Nat) (f : Part → Part) (s : State) : s.BoxesKept (s.updPart q f) := of_mbx fun p m => by simp
theorem updDie (d : Nat) (f : Die → Die) (s : State) : s.BoxesKept (s.updDie d f) := of_mbx fun p m => by simp
theorem logEvent (e : LogEntry) (s : State) : s.BoxesKept (logEvent e s) := of_mbx fun p m => by cases p <;> rfl

theorem notifyPart (k q : Nat) (s : State) : s.BoxesKept (notifyPart k q s) := by
  unfold Machine.notifyPart notify
  refine of_mbx fun p m => ?_
  cases (s.part q).owner <;> cases p <;> rfl

theorem moveNote (q d n : Nat) (j : MoveJob) (s : State) : s.BoxesKept (moveNote q d n j s) := ite (refl s) (logEvent ..)

theorem noteMoves (q c : Nat) (s : State) : s.BoxesKept (noteMoves q c s) := by
  unfold Machine.noteMoves
  exact (foldl (fun z j => moveNote q _ _ j z) _ s).trans (updCore ..)

theorem noteBulk (q d : Nat) (s : State) : s.BoxesKept (noteBulk q d s) := by
  unfold Machine.noteBulk
  exact (foldl (fun z j => moveNote q _ _ j z) _ s).trans (updDie ..)

theorem flushMfaults (q c : Nat) (s : State) : s.BoxesKept (flushMfaults q c s) := by
  unfold Machine.flushMfaults
  exact (foldl (fun z f => logEvent _ z) _ s).trans (updCore ..)

theorem finishStop (q : Nat) (s : State) : s.BoxesKept (finishStop q s) := by
  unfold Machine.finishStop
  split
  · exact refl s
  next r n _ =>
    refine trans ⟨fun p m => ?_⟩ (updPart ..)
    by_cases box : p = r
    · subst box
      by_cases e : m = n
      · rw [e, State.mbx_updMbx]
      · rw [State.mbx_updMbx_ne _ _ e]
    · unfold State.mbx State.updMbx
      rw [State.port_updPort_ne _ box]

/-- A stop within the turn (R338). -/
theorem stopWithin (q : Nat) (st : PartSt) (a o : Nat) (s : State) : s.BoxesKept (stopWithin q st a o s) := by
  have units : s.BoxesKept ((List.range 12).foldl (fun s d => Machine.noteBulk q d s)
      ((s.part q).phys.foldl (fun s c => Machine.noteMoves q c (Machine.flushMfaults q c (s.updCore c Core.dropUnstarted))) s)) :=
    (foldl (fun z c => (updCore ..).trans ((flushMfaults ..).trans (noteMoves ..))) _ s).trans (foldl (fun z d => noteBulk q d z) _ _)
  have stopped (x : Part → Part) (e : LogEntry) := (units.trans (updPart q x _)).trans ((logEvent e _).trans (finishStop q _))
  unfold Machine.stopWithin
  dsimp only
  exact ite (ite (stopped ..) ((stopped ..).trans (notifyPart ..))) (refl s)

theorem hostLost (p : PortId) (o : Nat) (s : State) : s.BoxesKept (hostLost p o s) := foldl (fun _ _ => ite (stopWithin ..) (refl _)) _ s

theorem copy_eq (h : s.BoxesKept t) (p : PortId) (m : Nat) : (t.mbx p m).copy = (s.mbx p m).copy := (congrArg Mbx.copy (h.box p m) :)

theorem state_eq (h : s.BoxesKept t) (p : PortId) (m : Nat) : (t.mbx p m).state = (s.mbx p m).state := (congrArg Mbx.state (h.box p m) :)

end State.BoxesKept

end Sys2Proof.Machine
end

section
/-! PROOF. O11: what the loss of a host does outside its port, where nothing of the port's that would be abandoned is in hand. -/

namespace Sys2Proof.Machine

theorem hostLost_stopOnly {z : State} (p : PortId) (o : Nat) (s : State) (h : z.StopOnly s) : z.StopOnly (hostLost p o s) :=
  stopOnly_foldl h fun _ _ k => stopOnly_ite (stopWithin_stopOnly _ _ _ _ _ k) k

/-- The run of stops through the partitions of a port, its condition as the laws of Ops have it. -/
theorem hostLost_eq (p : PortId) (o : Nat) (s : State) : hostLost p o s =
    allParts.foldl (fun z q => if decide ((z.part q).owner = p) then stopWithin q .faulted stHostLost o z else z) s := by
  unfold hostLost
  simp only [decide_eq_true_eq]

/-- A RUNNING partition of the port that replays nothing (R381). -/
theorem hostLost_part {p : PortId} {s : State} {q : Nat} (hq : q < 16) (run : (s.part q).st = .running) (owner : (s.part q).owner = p)
    (replay : (s.part q).replay = none) (o : Nat) : let y := (hostLost p o s).part q
    y.st = .faulted ∧ y.stopStat = stHostLost ∧ y.incomplete = true ∧ y.turn = (s.part q).turn ∧ y.owner = (s.part q).owner ∧
      y.replay = (s.part q).replay ∧ y.migr = (s.part q).migr := by
  rw [hostLost_eq]
  exact foldl_stop_part .faulted (by decide) stHostLost o (fun x => decide (x.owner = p)) allParts s q (List.mem_range.2 hq)
    (decide_eq_true owner) run (by simp [replay])

theorem hostLost_part_of_idle {p : PortId} {s : State} {q : Nat} (h : (s.part q).st ≠ .running ∨ (s.part q).owner ≠ p) (o : Nat) :
    (hostLost p o s).part q = s.part q := by
  rw [hostLost_eq]
  exact foldl_stop_idle .faulted stHostLost o (fun x => decide (x.owner = p)) allParts s q (h.imp_right decide_eq_false)

theorem abandonPart_eq {p : PortId} {s : State} {q : Nat} (replay : (s.part q).replay = none) (migr : (s.part q).migr = none) :
    abandonPart p s q = s.updPart q fun x => { x with stopReq := x.stopReq.filter fun r => r.1 != p } := by
  unfold abandonPart
  dsimp only
  rw [replay]
  simp only [Option.any_none, Bool.false_eq_true, if_false]
  rw [migr]

/-- No command in hand of port p names a partition that replays or migrates, and none is FW_UPDATE. -/
structure State.Unhindered (p : PortId) (s : State) : Prop where
  part : ∀ q, q < 16 → (s.part q).replay = none ∧ (s.part q).migr = none
  box : ∀ m, fieldAt ((s.mbx p m).copy.read 0 2) 0 2 ≠ 0x0060

/-- Without anything in hand that is undone, what is abandoned is no more than that PART_STOPs wait. -/
structure State.ReqsOnly (s t : State) : Prop where
  rest : { t with parts := s.parts } = s
  part : ∀ q, { t.part q with stopReq := (s.part q).stopReq } = s.part q

theorem State.ReqsOnly.refl (s : State) : s.ReqsOnly s := ⟨rfl, fun _ => rfl⟩

theorem State.ReqsOnly.trans {s t u : State} (h : s.ReqsOnly t) (k : t.ReqsOnly u) : s.ReqsOnly u :=
  ⟨(congrArg (fun x : State => { x with parts := s.parts }) k.rest :).trans h.rest,
    fun q => (congrArg (fun x : Part => { x with stopReq := (s.part q).stopReq }) (k.part q) :).trans (h.part q)⟩

theorem State.ReqsOnly.port {s t : State} (h : s.ReqsOnly t) (p : PortId) : t.port p = s.port p := (congrArg (State.port · p) h.rest :)

theorem State.ReqsOnly.unhindered {p : PortId} {s t : State} (h : s.ReqsOnly t) (k : s.Unhindered p) : t.Unhindered p := by
  refine ⟨fun q hq => ?_, fun m => ?_⟩
  · rw [(congrArg Part.replay (h.part q) :), (congrArg Part.migr (h.part q) :)]
    exact k.part q hq
  · unfold State.mbx
    rw [h.port]
    exact k.box m

theorem abandonPart_reqsOnly {p : PortId} {s : State} (h : s.Unhindered p) {q : Nat} (hq : q < 16) : s.ReqsOnly (abandonPart p s q) := by
  obtain ⟨replay, migr⟩ := h.part q hq
  rw [abandonPart_eq replay migr]
  refine ⟨rfl, fun i => ?_⟩
  by_cases e : i = q
  · rw [e, State.part_updPart]
  · rw [State.part_updPart_ne s e]

theorem foldl_abandonPart_reqsOnly {p : PortId} {l : List Nat} (hl : ∀ q ∈ l, q < 16) {s : State} (h : s.Unhindered p) :
    s.ReqsOnly (l.foldl (abandonPart p) s) := by
  induction l generalizing s with
  | nil => exact .refl s
  | cons a l ih =>
    have first := abandonPart_reqsOnly h (hl a List.mem_cons_self)
    exact first.trans (ih (fun q hq => hl q (List.mem_cons_of_mem a hq)) (first.unhindered h))

theorem abandonFlash_eq {p : PortId} {s : State} (h : s.Unhindered p) (m : Nat) : abandonFlash p s m = s := by
  unfold abandonFlash
  exact if_neg fun k => h.box m (beq_iff_eq.1 (Bool.and_eq_true_iff.1 k).2)

theorem foldl_abandonFlash_eq {p : PortId} {s : State} (h : s.Unhindered p) (l : List Nat) : l.foldl (abandonFlash p) s = s := by
  induction l with
  | nil => rfl
  | cons a l ih => rw [List.foldl_cons, abandonFlash_eq h, ih]

theorem abandonPort_reqsOnly {p : PortId} {s : State} (h : s.Unhindered p) : s.ReqsOnly (abandonPort p s) := by
  have parts := foldl_abandonPart_reqsOnly (fun q hq => List.mem_range.1 hq) h (l := allParts)
  unfold abandonPort
  rw [foldl_abandonFlash_eq (parts.unhindered h)]
  exact parts

/-- Posts dropped change partitions and cores alone, and of a partition its posts. -/
structure State.PostsOnly (s t : State) : Prop where
  rest : { t with parts := s.parts, cores := s.cores } = s
  part : ∀ q, { t.part q with postQ := (s.part q).postQ } = s.part q

theorem State.PostsOnly.trans {s t u : State} (h : s.PostsOnly t) (k : t.PostsOnly u) : s.PostsOnly u :=
  ⟨(congrArg (fun x : State => { x with parts := s.parts, cores := s.cores }) k.rest :).trans h.rest,
    fun q => (congrArg (fun x : Part => { x with postQ := (s.part q).postQ }) (k.part q) :).trans (h.part q)⟩

/-- A partition and a core without posts that wait (R381, log 77). -/
def Part.postless (x : Part) : Part := { x with postQ := [] }
def Core.postless (x : Core) : Core := { x with jobs := { x.jobs with posted := [] } }

/-- The posts of one partition, if the port owns it. -/
def dropPostsOf (p : PortId) (s : State) (q : Nat) : State :=
  if (s.part q).owner = p then
    let s := s.updPart q Part.postless
    (s.part q).phys.foldl (fun s c => s.updCore c Core.postless) s
  else s

theorem dropPostsOf_spec (p : PortId) (s : State) (q : Nat) : s.PostsOnly (dropPostsOf p s q) ∧
    ∀ i, (dropPostsOf p s q).part i = if i = q ∧ (s.part i).owner = p then (s.part i).postless else s.part i := by
  unfold dropPostsOf
  split
  next owner =>
    dsimp only
    generalize ((s.updPart q _).part q).phys = cs
    have frame := foldl_updCore_frame (fun c => c) (fun _ => Core.postless) cs (s.updPart q Part.postless)
    revert frame
    generalize cs.foldl (fun s c => s.updCore c Core.postless) (s.updPart q Part.postless) = t
    intro frame
    have part (i : Nat) : t.part i = if i = q ∧ (s.part i).owner = p then (s.part i).postless else s.part i := by
      refine (congrArg (State.part · i) frame :).trans ?_
      by_cases e : i = q
      · subst e
        rw [State.part_updPart, if_pos ⟨rfl, owner⟩]
      · rw [State.part_updPart_ne s e, if_neg fun h => e h.1]
    refine ⟨⟨(congrArg (fun x : State => { x with parts := s.parts }) frame :), fun i => ?_⟩, part⟩
    rw [part]
    split <;> rfl
  next owner =>
    refine ⟨⟨rfl, fun _ => rfl⟩, fun i => (if_neg fun h => ?_).symm⟩
    obtain ⟨rfl, h⟩ := h
    exact owner h

theorem foldl_dropPostsOf_spec (p : PortId) (l : List Nat) (s : State) : s.PostsOnly (l.foldl (dropPostsOf p) s) ∧
    ∀ i, (s.part i).owner = p → i ∈ l ∨ (s.part i).postQ = [] → ((l.foldl (dropPostsOf p) s).part i).postQ = [] := by
  induction l generalizing s with
  | nil => exact ⟨⟨rfl, fun _ => rfl⟩, fun _ _ h => h.resolve_left List.not_mem_nil⟩
  | cons a l ih =>
    obtain ⟨first, part⟩ := dropPostsOf_spec p s a
    obtain ⟨rest, posts⟩ := ih (dropPostsOf p s a)
    refine ⟨first.trans rest, fun i owner waits => posts i ((congrArg Part.owner (first.part i) :).trans owner) ?_⟩
    rw [part]
    split
    next => exact .inr rfl
    next other =>
      refine waits.imp_left fun h => (List.mem_cons.1 h).resolve_left fun e => other ⟨e, owner⟩

theorem dropPosts_spec (p : PortId) (s : State) : s.PostsOnly (dropPosts p s) ∧
    ∀ q, q < 16 → (s.part q).owner = p → ((dropPosts p s).part q).postQ = [] := by
  obtain ⟨only, posts⟩ := foldl_dropPostsOf_spec p allParts s
  exact ⟨only, fun q hq owner => posts q owner (.inl (List.mem_range.2 hq))⟩

/-- A stop leaves what a replay or a migration has in hand. -/
theorem hostLost_unhindered {p : PortId} {s : State} (h : s.Unhindered p) (o : Nat) : (hostLost p o s).Unhindered p := by
  refine ⟨fun q hq => ?_, fun m => ?_⟩
  · obtain ⟨replay, migr⟩ := h.part q hq
    by_cases lost : (s.part q).st = .running ∧ (s.part q).owner = p
    · obtain ⟨-, -, -, -, -, r, g⟩ := hostLost_part hq lost.1 lost.2 replay o
      exact ⟨r.trans replay, g.trans migr⟩
    · rw [hostLost_part_of_idle (not_and_or.1 lost)]
      exact ⟨replay, migr⟩
  · rw [(State.BoxesKept.hostLost p o s).copy_eq]
    exact h.box m

/-- Of a partition the loss of a host changes, beside what a stop does, no more than its posts and that PART_STOPs wait. -/
theorem hostDropped_part {p : PortId} {s : State} (h : s.Unhindered p) (q : Nat) :
    { (hostDropped p s).part q with postQ := ((hostLost p 7 s).part q).postQ, stopReq := ((hostLost p 7 s).part q).stopReq } =
      (hostLost p 7 s).part q := by
  have reqs := (abandonPort_reqsOnly (hostLost_unhindered h 7)).part q
  have posts := (dropPosts_spec p (abandonPort p (hostLost p 7 s))).1.part q
  unfold hostDropped
  rw [← reqs, ← posts]

/-- What stops and what the loss of a host takes after them leave outside partitions, cores and ports (R381). -/
theorem hostDropped_frame {p : PortId} {s : State} (h : s.Unhindered p) :
    { hostDropped p s with hs := s.hs, portA := s.portA, portB := s.portB, parts := s.parts, cores := s.cores, dies := s.dies } = s ∧
    (hostDropped p s).dies = (hostLost p 7 s).dies ∧ (hostDropped p s).hs = (hostLost p 7 s).hs := by
  have rest := (hostLost_stopOnly p 7 s (.refl s)).rest
  have reqs := (abandonPort_reqsOnly (hostLost_unhindered h 7)).rest
  have posts := (dropPosts_spec p (abandonPort p (hostLost p 7 s))).1.rest
  unfold hostDropped
  revert rest reqs posts
  generalize hostLost p 7 s = u
  generalize abandonPort p u = w
  generalize dropPosts p w = t
  intro rest reqs posts
  refine ⟨?_, (congrArg State.dies posts :).trans (congrArg State.dies reqs :), (congrArg State.hs posts :).trans (congrArg State.hs reqs :)⟩
  rw [← rest, ← reqs, ← posts]

/-- A port event as the partitions and the rest of the module see it. -/
theorem portEvent_hostGone {p : PortId} {s : State} (none' : NoneInHand p s) (f : Port → Port → Port) : HostGone p s (portEvent p f s) := by
  have h : s.Unhindered p := ⟨none'.1, none'.2⟩
  have only := hostLost_stopOnly p 7 s (.refl s)
  obtain ⟨frame, dies, hs⟩ := hostDropped_frame h
  have kept := (hostDropped_portsKept p s).port (otherPort p)
  have part := hostDropped_part h
  have dropped : ∀ q, q < 16 → (s.part q).owner = p → ((hostDropped p s).part q).postQ = [] := by
    intro q hq owner
    refine (dropPosts_spec p (abandonPort p (hostLost p 7 s))).2 q hq ?_
    rw [(congrArg Part.owner ((abandonPort_reqsOnly (hostLost_unhindered h 7)).part q) :)]
    by_cases run : (s.part q).st = .running
    · obtain ⟨-, -, -, -, same, -⟩ := hostLost_part hq run owner (h.part q hq).1 7
      exact same.trans owner
    · rw [hostLost_part_of_idle (.inl run)]
      exact owner
  rw [portEvent_eq]
  revert frame dies hs kept part dropped
  generalize hostDropped p s = t
  intro frame dies hs kept part dropped
  unfold HostGone
  simp only [State.part_updPort, State.die_updPort, State.updPort_hs, State.port_otherPort_updPort, State.die_of dies, hs]
  refine ⟨fun q hq run owner => ?_, fun q hq other => ?_, dropped, ?_, only.die, only.hs, (congrArg Port.linkUp kept :),
    (congrArg Port.quiesced kept :)⟩
  · obtain ⟨st, stat, incomplete, turn, -⟩ := hostLost_part hq run owner (h.part q hq).1 7
    rw [← part q] at st stat incomplete turn
    exact ⟨st, stat, incomplete, turn⟩
  · have same := part q
    rw [hostLost_part_of_idle other] at same
    rw [← same]
    exact ⟨rfl, rfl, rfl⟩
  · refine Eq.trans ?_ frame
    cases p <;> rfl

end Sys2Proof.Machine

namespace Sys2Proof
open Machine

/-- Settles O11: each of the four is a port event. -/
theorem hostLost : Obligations.HostLost := by
  intro p s on none'
  exact ⟨⟨_, exec_perstAssert on, portEvent_hostGone none' _⟩, fun up => ⟨_, exec_functionLevelReset on up, portEvent_hostGone none' _⟩,
    fun up => ⟨_, exec_pcieLinkDown on up, portEvent_hostGone none' _⟩, fun up d0 => ⟨_, exec_d3hotEntry on up d0, portEvent_hostGone none' _⟩,
    fun d3 => congrArg Host.Outcome.next (if_neg (by simp [d3]))⟩

end Sys2Proof
end

section
/-! SUPPORT. A compute die that is fenced (R242, R353, R425): its partitions, its cores, and the rest of the module. -/

namespace Sys2Proof.Machine

/-- A stop because of a lost die, whatever the partition replays (R353). -/
theorem faultDieAbsent_part {q : Nat} {s : State} (h : (s.part q).st ≠ .empty) (o : Nat) :
    ((faultDieAbsent o q s).part q).st = .faulted ∧ ((faultDieAbsent o q s).part q).stopStat = stDieAbsent := by
  unfold faultDieAbsent
  split
  next run =>
    obtain ⟨st, stat, -⟩ := stopWithin_part q .faulted stDieAbsent o s run (by simp)
    exact ⟨st, stat⟩
  next empty => exact absurd empty h
  next =>
    rw [notifyPart_part, State.part_updPart]
    exact ⟨rfl, rfl⟩

theorem faultDieAbsent_part_ne {q i : Nat} (h : i ≠ q) (o : Nat) (s : State) : (faultDieAbsent o q s).part i = s.part i := by
  unfold faultDieAbsent
  split
  · exact stopWithin_part_ne h ..
  · rfl
  · rw [notifyPart_part, State.part_updPart_ne s h]

/-- The stops of the partitions that hold a group on die d (R353). -/
def dieLeft (d o : Nat) (l : List Nat) (s : State) : State :=
  l.foldl (fun s q => if (s.part q).onDie d then faultDieAbsent o q s else s) s

theorem dieLeft_stopOnly {z : State} (d o : Nat) (l : List Nat) (s : State) (h : z.StopOnly s) : z.StopOnly (dieLeft d o l s) :=
  stopOnly_foldl h fun _ _ k => stopOnly_ite (faultDieAbsent_stopOnly _ _ _ k) k

theorem dieLeft_part_of_not_mem {q : Nat} {l : List Nat} (h : q ∉ l) (d o : Nat) (s : State) : (dieLeft d o l s).part q = s.part q := by
  refine foldl_part_of_mem (fun a ha z => ?_) s
  split
  · exact faultDieAbsent_part_ne (fun e => h (by rw [e]; exact ha)) o z
  · rfl

theorem dieLeft_part_of_not_onDie {d q : Nat} {s : State} (h : (s.part q).onDie d = false) (o : Nat) (l : List Nat) :
    (dieLeft d o l s).part q = s.part q := by
  induction l generalizing s with
  | nil => rfl
  | cons a l ih =>
    have first : (if (s.part a).onDie d then faultDieAbsent o a s else s).part q = s.part q := by
      split
      next on => exact faultDieAbsent_part_ne (fun e => by rw [e, on] at h; cases h) o s
      next => rfl
    unfold dieLeft at ih ⊢
    rw [List.foldl_cons, ih (by rw [first]; exact h), first]

/-- A partition on the die that is not EMPTY is stopped, once. -/
theorem dieLeft_part_of_onDie {d q : Nat} {l : List Nat} (nodup : l.Nodup) (hq : q ∈ l) {s : State} (on : (s.part q).onDie d = true)
    (h : (s.part q).st ≠ .empty) (o : Nat) :
    ((dieLeft d o l s).part q).st = .faulted ∧ ((dieLeft d o l s).part q).stopStat = stDieAbsent := by
  obtain ⟨before, after, rfl⟩ := List.append_of_mem hq
  obtain ⟨out, -⟩ := List.nodup_middle.1 nodup |> List.nodup_cons.1
  have outBefore : q ∉ before := fun k => out (List.mem_append_left _ k)
  have outAfter : q ∉ after := fun k => out (List.mem_append_right _ k)
  have reached := dieLeft_part_of_not_mem outBefore d o s
  unfold dieLeft at reached ⊢
  rw [List.foldl_append, List.foldl_cons, if_pos (by rw [reached]; exact on)]
  have left := dieLeft_part_of_not_mem outAfter d o (faultDieAbsent o q (before.foldl (fun s q => if (s.part q).onDie d then faultDieAbsent o q s else s) s))
  unfold dieLeft at left
  rw [left]
  exact faultDieAbsent_part (by rw [reached]; exact h) o

/-- Nothing of a lost die's core is left of its tiles and jobs (R242). -/
def Core.Emptied (x : Core) : Prop := x.tiles = [] ∧ x.entries = [] ∧ x.jobs = Jobs.reset

theorem foldl_lost_core {l : List (Nat × Core)} {s : State} {c : Nat} (h : (∃ e ∈ l, e.1 = c) ∨ (s.core c).Emptied) :
    ((l.foldl (fun s e => s.updCore e.1 Core.lost) s).core c).Emptied := by
  induction l generalizing s with
  | nil => exact h.resolve_left fun ⟨_, he, _⟩ => nomatch he
  | cons a l ih =>
    refine ih ?_
    by_cases e : c = a.1
    · right
      rw [e, State.core_updCore]
      exact ⟨rfl, rfl, rfl⟩
    · rw [State.core_updCore_ne s e]
      refine h.imp_left fun ⟨x, hx, k⟩ => ⟨x, (List.mem_cons.1 hx).resolve_left fun same => e ?_, k⟩
      rw [← k, same]

/-- A core that a map does not list is as reset leaves it. -/
theorem SMap.get_of_forall_ne {α : Type} (d : α) {k : Nat} {m : SMap α} (h : ∀ e ∈ m, e.1 ≠ k) : SMap.get d k m = d := by
  induction m with
  | nil => rfl
  | cons a m ih =>
    obtain ⟨j, v⟩ := a
    exact (if_neg (h (j, v) List.mem_cons_self)).trans (ih fun e he => h e (List.mem_cons_of_mem _ he))

theorem loseDie_core {d c : Nat} (s : State) (h : dieOfCore c = d) : ((loseDie d s).core c).Emptied := by
  unfold loseDie
  dsimp only
  rw [State.core_updDie]
  refine foldl_lost_core ?_
  by_cases listed : ∃ e ∈ s.cores, e.1 = c
  · obtain ⟨e, he, k⟩ := listed
    exact .inl ⟨e, List.mem_filter.2 ⟨he, by simp [k, h]⟩, k⟩
  · right
    have reset : s.core c = Core.reset := SMap.get_of_forall_ne _ fun e he k => listed ⟨e, he, k⟩
    rw [reset]
    exact ⟨rfl, rfl, rfl⟩

/-- Cores and moves of bulk movers may differ; nothing else does. -/
structure State.DieLost (s t : State) : Prop where
  rest : { t with cores := s.cores, dies := s.dies } = s
  die : ∀ i, { t.die i with bulk := (s.die i).bulk } = s.die i

/-- A die loses the moves of its bulk movers, its cores what they held; nothing else differs. -/
theorem loseDie_dieLost (d : Nat) (s : State) : s.DieLost (loseDie d s) := by
  have cores := foldl_updCore_frame Prod.fst (fun _ => Core.lost) (s.cores.filter fun e => dieOfCore e.1 == d) s
  unfold loseDie
  dsimp only
  revert cores
  generalize List.foldl _ s _ = t
  intro cores
  have die (i : Nat) : t.die i = s.die i := (congrArg (State.die · i) cores :)
  refine ⟨(congrArg (fun x : State => { x with dies := s.dies }) cores :), fun i => ?_⟩
  by_cases e : i = d
  · rw [e, State.die_updDie, die]
  · rw [State.die_updDie_ne t e, die]

/-- A fenced die is a degradation (R353). -/
theorem degradedCond_of_fenced {d : Nat} {s : State} (hd : d < 12) (h : (s.die d).fenced = true) : s.degradedCond = true := by
  unfold State.degradedCond
  rw [List.any_eq_true.2 ⟨d, List.mem_range.2 hd, h⟩, Bool.true_or, Bool.true_or, Bool.true_or]

theorem updateHealth_health_of_degradedCond {s : State} (h : s.degradedCond = true) :
    (updateHealth s).hs.health = if s.hs.health = .ready then .degraded else s.hs.health := by
  unfold updateHealth
  split
  next ready => rw [if_pos h, setHealth_health, if_pos ready]
  next degraded => rw [if_pos h, if_neg (by simp [degraded])]
  next ready _ => rw [if_neg ready]

/-- The die's mark and the fault log's entry, before its partitions stop. -/
def dieMarked (d why : Nat) (s : State) : State :=
  logEvent { LogEntry.ofCode 0x0040 .health with src := d, d0 := why } (s.updDie d fun x => { x with fenced := true })

theorem dieMarked_die (d why : Nat) (s : State) (i : Nat) :
    (dieMarked d why s).die i = { s.die i with fenced := (s.die i).fenced || i == d } := by
  unfold dieMarked
  rw [logEvent_die]
  by_cases e : i = d
  · rw [e, State.die_updDie, beq_self_eq_true, Bool.or_true]
  · rw [State.die_updDie_ne s e, beq_false_of_ne e, Bool.or_false]

/-- What marking a die, stopping its partitions, emptying it and asking for the re-admission may change outside partitions and cores. -/
structure State.DieGone (d : Nat) (s t : State) : Prop where
  rest : { t with hs := s.hs, portA := s.portA, portB := s.portB, parts := s.parts, cores := s.cores, dies := s.dies } = s
  die : ∀ i, { t.die i with bulk := (s.die i).bulk } = { s.die i with fenced := (s.die i).fenced || i == d }
  hs : { t.hs with log := s.hs.log, logNext := s.hs.logNext, readmit := s.hs.readmit } = s.hs

theorem dieGone_of {d why : Nat} {s w u : State} (stop : (dieMarked d why s).StopOnly w) (lost : w.DieLost u) :
    s.DieGone d (degradation u) := by
  have hs : u.hs = w.hs := (congrArg State.hs lost.rest :)
  constructor
  case rest =>
    have rest := (congrArg (fun x : State =>
      { x with hs := s.hs, portA := s.portA, portB := s.portB, parts := s.parts, cores := s.cores, dies := s.dies }) lost.rest :)
    exact rest.trans (congrArg (fun x : State => { x with hs := s.hs, dies := s.dies }) stop.rest :)
  case die =>
    intro i
    have die : { u.die i with bulk := (s.die i).bulk } = { w.die i with bulk := (s.die i).bulk } :=
      (congrArg (fun x : Die => { x with bulk := (s.die i).bulk }) (lost.die i) :)
    have left : { w.die i with bulk := (s.die i).bulk } = { (dieMarked d why s).die i with bulk := (s.die i).bulk } :=
      (congrArg (fun x : Die => { x with bulk := (s.die i).bulk }) (stop.die i) :)
    rw [dieMarked_die] at left
    exact die.trans left
  case hs =>
    unfold degradation
    rw [State.updHs_hs, hs]
    exact (congrArg (fun h : Headstock => { h with log := s.hs.log, logNext := s.hs.logNext, readmit := s.hs.readmit }) stop.hs :)

/-- The marked die's partitions and cores gone, the re-admission asked for, and health to follow. -/
theorem fenceDie_eq (d why o : Nat) (s : State) :
    fenceDie d why o s = updateHealth (degradation (loseDie d (dieLeft d o allParts (dieMarked d why s)))) := rfl

theorem updateHealth_dieFenced {d : Nat} (hd : d < 12) {s t : State} (gone : s.DieGone d t)
    (cores : ∀ c, dieOfCore c = d → (t.core c).Emptied)
    (on : ∀ q, q < 16 → (s.part q).onDie d = true → (s.part q).st ≠ .empty → (t.part q).st = .faulted ∧ (t.part q).stopStat = stDieAbsent)
    (off : ∀ q, (s.part q).onDie d = false → t.part q = s.part q) : DieFenced d s (updateHealth t) := by
  have frame := updateHealth_frame t
  have rest := (congrArg (fun x : State =>
      { x with hs := s.hs, portA := s.portA, portB := s.portB, parts := s.parts, cores := s.cores, dies := s.dies }) frame :).trans gone.rest
  have fenced : (t.die d).fenced = true := (congrArg Die.fenced (gone.die d) :).trans (by simp)
  have health : t.hs.health = s.hs.health := (congrArg Headstock.health gone.hs :)
  have core (c : Nat) : (updateHealth t).core c = t.core c := (congrArg (State.core · c) frame :)
  have after := updateHealth_health_of_degradedCond (degradedCond_of_fenced hd fenced)
  unfold DieFenced
  simp only [updateHealth_die, updateHealth_part, core]
  rw [after, health]
  refine ⟨fenced, ?_, fun e he => ?_, cores, fun ready => if_pos ready, fun ready _ => if_neg ready, on, fun q _ => off q,
    (congrArg State.flash rest :), (congrArg State.hbm rest :), (congrArg State.beds rest :), (congrArg State.hbms rest :), (congrArg State.lanes rest :),
    (congrArg State.links rest :), (congrArg State.power rest :), (congrArg State.pending rest :), (congrArg State.out rest :),
    (congrArg State.free rest :)⟩
  · exact (congrArg (fun x : Die => { x with fenced := (s.die d).fenced }) (gone.die d) :)
  · refine (gone.die e).trans ?_
    rw [beq_false_of_ne he, Bool.or_false]

theorem fenceDie_dieFenced {d : Nat} (hd : d < 12) (s : State) (why o : Nat) : DieFenced d s (fenceDie d why o s) := by
  have stop := dieLeft_stopOnly d o allParts (dieMarked d why s) (.refl _)
  have part (q : Nat) : (dieMarked d why s).part q = s.part q := rfl
  have on (q : Nat) (hq : q < 16) (held : (s.part q).onDie d = true) (run : (s.part q).st ≠ .empty) :=
    dieLeft_part_of_onDie (d := d) (l := allParts) List.nodup_range (List.mem_range.2 hq) (s := dieMarked d why s)
      (by rw [part]; exact held) (by rw [part]; exact run) o
  have off (q : Nat) (free : (s.part q).onDie d = false) :=
    dieLeft_part_of_not_onDie (s := dieMarked d why s) (by rw [part]; exact free) o allParts
  rw [fenceDie_eq]
  revert stop on off
  generalize dieLeft d o allParts (dieMarked d why s) = w
  intro stop on off
  have lost := loseDie_dieLost d w
  have kept (q : Nat) : (degradation (loseDie d w)).part q = w.part q := (congrArg (State.part · q) lost.rest :)
  refine updateHealth_dieFenced hd (dieGone_of stop lost) (fun c hc => loseDie_core w hc) (fun q hq held run => ?_) (fun q free => ?_)
  · rw [kept]
    exact on q hq held run
  · rw [kept]
    exact off q free

/-- R451: the outcome by the clock. -/
theorem lossOfLockRule : LossOfLockRule := by
  intro s on
  refine ⟨fun d h => ?_, fun b => ?_, fun k => ?_, fun c hc => ?_, fun p up => ?_⟩
  · have fence : (if (s.die d).fenced then s else fenceDie d 0 0 s) = fenceDie d 0 0 s := if_neg (by simp [h])
    have fenced := fence.symm ▸ fenceDie_dieFenced d.isLt s 0 0
    exact ⟨⟨_, congrArg Host.Outcome.next (if_pos on), fenced⟩, ⟨_, congrArg Host.Outcome.next (if_pos on), fenced⟩,
      ⟨_, congrArg Host.Outcome.next (if_pos on), fenced⟩⟩
  · exact ⟨⟨_, congrArg Host.Outcome.next (if_pos on), enterFailed_failed rfl⟩, ⟨_, congrArg Host.Outcome.next (if_pos on), enterFailed_failed rfl⟩⟩
  · exact ⟨_, congrArg Host.Outcome.next (if_pos on), enterFailed_failed rfl⟩
  · rcases hc with rfl | rfl | rfl | rfl <;> exact ⟨_, congrArg Host.Outcome.next (if_pos on), enterFailed_failed rfl⟩
  · have lost : (if (s.port p).linkUp then linkLost p s else s) = linkLost p s := if_pos up
    obtain ⟨reset, -, down, -⟩ := linkLost_port p s
    exact ⟨_, (congrArg Host.Outcome.next (if_pos on)).trans (congrArg Host.Outcome.next lost), reset, fun h => portEvent_hostGone h _, down⟩

/-- R425: a compute die that resets on its own. -/
theorem computeDieResetRule : ComputeDieResetRule := fun d s on rails up h =>
  ⟨_, congrArg Host.Outcome.next (if_pos (by simp [on, rails, up, h])), fenceDie_dieFenced d.isLt s 1 0⟩

/-- Settles O13, by the fencing of a die, the entry to FAILED, and the link-down event. -/
theorem lossOfDies : Obligations.LossOfDies := ⟨lossOfLockRule, computeDieResetRule⟩

end Sys2Proof.Machine
end

section
/-! PROOF. O46: the base registers of the two rings, and the oldest notice's way out (R359 to R361). -/

namespace Sys2Proof.Machine

/-! The ring's registers (R359). -/

/-- A write of a ring's base register sets BASE, SIZE and EN; one that sets EN empties the ring. -/
theorem Ring.writeBase_spec (r : Ring) (v : Word) :
    (r.writeBase v).base = wf64 v 63 12 * 4096 ∧ (r.writeBase v).size = wf64 v 3 0 ∧
    ((r.writeBase v).en = true ↔ wbit v 4 = true ∧ wf64 v 3 0 ≤ 8) ∧
    (r.en = false → (r.writeBase v).en = true → (r.writeBase v).head = 0 ∧ (r.writeBase v).tail = 0 ∧ (r.writeBase v).drop = 0) ∧
    (r.en = true ∨ (r.writeBase v).en = false → (r.writeBase v).head = r.head ∧ (r.writeBase v).tail = r.tail ∧ (r.writeBase v).drop = r.drop) := by
  unfold Ring.writeBase
  dsimp only
  by_cases on : (wbit v 4 && decide (wf64 v 3 0 ≤ 8)) = true
  · have both : wbit v 4 = true ∧ wf64 v 3 0 ≤ 8 := by simpa using on
    by_cases was : r.en = true <;> simp [both.1, both.2, was]
  · have off : (wbit v 4 && decide (wf64 v 3 0 ≤ 8)) = false := Bool.not_eq_true _ ▸ on
    have neither : ¬ (wbit v 4 = true ∧ wf64 v 3 0 ≤ 8) := by simpa using on
    simp [off, neither]

theorem Ring.put_full {r : Ring} (on : r.en = true) (full : (r.tail + 65536 - r.head) % 65536 = 2 ^ (r.size + 4)) (n : Nat) :
    r.put n = ({ r with drop := bump16 r.drop }, none) := by
  unfold Ring.put
  dsimp only
  rw [if_neg (by simp [on]), if_pos full]

/-! The oldest notice (R360, R361). -/

theorem noticeBytes_fields (n : Notice) :
    (noticeBytes n).length = 32 ∧ fieldAt (noticeBytes n) 0 1 = n.kind % 256 ∧ fieldAt (noticeBytes n) 1 1 = n.part % 16 ∧
    fieldAt (noticeBytes n) 2 1 = n.status % 256 ∧ fieldAt (noticeBytes n) 3 1 = n.state % 16 ∧
    fieldAt (noticeBytes n) 8 8 = n.turn % 2 ^ 48 ∧ fieldAt (noticeBytes n) 16 8 = n.refcyc % 2 ^ 48 ∧
    fieldAt (noticeBytes n) 24 8 = n.epoch.toNat := by
  have epoch : n.epoch.toNat < 2 ^ 64 := n.epoch.isLt
  unfold noticeBytes
  simp only [List.length_append, length_leBytes, fieldAt_append_left, fieldAt_append_right, fieldAt_leBytes, Nat.reduceAdd, Nat.reduceLeDiff,
    Nat.reduceSub, Nat.reducePow, Nat.div_one, pow_zero, true_and]
  omega

section
variable {p : PortId} {n : Notice} {rest : List Notice} {s : State} (fw : s.hs.fwRun = true) (oldest : (s.port p).notices = n :: rest)
include fw oldest

theorem exec_noticeRingWrite_unwritten {r : Ring} (put : (s.port p).ntc.put 32 = (r, none)) :
    exec (.noticeRingWrite p) s = .next (s.updPort p fun x => { x with notices := rest, ntc := r }) := by
  refine congrArg Host.Outcome.next ?_
  rw [oldest]
  refine (if_pos fw).trans ?_
  rw [put]

theorem exec_noticeRingWrite_written {r : Ring} {a : Nat} (put : (s.port p).ntc.put 32 = (r, some a)) :
    exec (.noticeRingWrite p) s = .next (raiseVector p 5
      ((s.updPort p fun x => { x with notices := rest, ntc := r }).emit (.hostWrite p a (noticeBytes n)))) := by
  refine congrArg Host.Outcome.next ?_
  rw [oldest]
  refine (if_pos fw).trans ?_
  rw [put]

/-- A notice that is not written leaves the ring as the ring's rule says, and puts nothing out. -/
theorem noticeRingWrite_unwritten {r : Ring} (put : (s.port p).ntc.put 32 = (r, none)) :
    ∃ t, exec (.noticeRingWrite p) s = .next t ∧ (t.port p).notices = rest ∧ (t.port p).ntc = r ∧ t.out = s.out := by
  refine ⟨_, exec_noticeRingWrite_unwritten fw oldest put, ?_, ?_, State.updPort_out ..⟩ <;> rw [State.port_updPort]

theorem noticeRingWrite_written {r : Ring} {a : Nat} (put : (s.port p).ntc.put 32 = (r, some a)) :
    ∃ t, exec (.noticeRingWrite p) s = .next t ∧ (t.port p).notices = rest ∧ (t.port p).ntc = r ∧ Signalled p 5 s t ∧
      .hostWrite p a (noticeBytes n) ∈ t.out := by
  have next := exec_noticeRingWrite_written fw oldest put
  generalize hz : (s.updPort p fun x => { x with notices := rest, ntc := r }).emit (.hostWrite p a (noticeBytes n)) = z at next
  have port : z.port p = { s.port p with notices := rest, ntc := r } := by rw [← hz, State.port_emit, State.port_updPort]
  have written : .hostWrite p a (noticeBytes n) ∈ z.out := hz ▸ List.mem_append_right _ (List.mem_singleton.2 rfl)
  obtain ⟨signal, ⟨c, b, vector⟩, -, out, -⟩ := raiseVector_signalled (s := s) (z := z) (p := p) (v := 5) (by rw [port]; rfl)
  refine ⟨_, next, by rw [vector, port], by rw [vector, port], signal, ?_⟩
  obtain out | out := out <;> rw [out]
  · exact written
  · exact List.mem_append_left _ written

end

/-- Settles O46: the base registers by the ring's own rule, the notice by whether the ring takes it. -/
theorem noticeAndRings : Obligations.NoticeAndRings := by
  intro p s
  refine ⟨fun v reach => ⟨?_, ?_⟩, fun n rest fw oldest => ⟨fun room on => ?_, fun full on => ?_, fun off => ?_⟩⟩
  · refine ⟨_, congrArg Host.Outcome.next (if_pos reach), ?_, ?_, State.port_otherPort_updPort .., State.updPort_frame ..⟩ <;>
      rw [State.port_updPort]
    exact Ring.writeBase_spec ..
  · refine ⟨_, congrArg Host.Outcome.next (if_pos reach), ?_, ?_, State.port_otherPort_updPort .., State.updPort_frame ..⟩ <;>
      rw [State.port_updPort]
    exact Ring.writeBase_spec ..
  · obtain ⟨t, next, notices, ring, signal, written⟩ := noticeRingWrite_written fw oldest (Ring.put_room on room 32)
    exact ⟨t, _, next, notices, ring, signal, written, noticeBytes_fields n⟩
  · exact noticeRingWrite_unwritten fw oldest (Ring.put_full on full 32)
  · exact noticeRingWrite_unwritten fw oldest (Ring.put_off off 32)

end Sys2Proof.Machine
end

section
/-! PROOF. O58: the management target's registers and the SPDM exchange (R477, R479, R480). -/

namespace Sys2Proof.Machine

/-! What a request puts out. -/

theorem answerSpdm_replied (p : PortId) (a : Spdm) (s : State) : Replied p a (s.port p).doe s (answerSpdm p a s) := by
  cases p <;> exact ⟨rfl, rfl, rfl, rfl, rfl⟩

theorem setStage_replied (p : PortId) (a : Spdm) (g : DoeStage) (s : State) : Replied p a g s (answerSpdm p a (setStage p g s)) := by
  cases p <;> exact ⟨rfl, rfl, rfl, rfl, rfl⟩

section
variable {p : PortId} {s : State} (reach : s.reaches p = true) (fw : s.fwUp = true) (key : s.hs.keyReady = true)
include reach fw key

/-- A request that the firmware answers, its key being ready (R479). -/
theorem spdmRun_ready (f : State → State) : spdmRun p f s = f s :=
  (if_pos reach).trans (if_pos (by simp [fw, key]))

/-- A request of the last stage, in its order and out of it. -/
theorem spdmAfter_ready (stage : (s.port p).doe = .algorithms) (f : State → State) : spdmAfter p f s = f s :=
  (spdmRun_ready reach fw key _).trans (if_pos stage)

theorem spdmAfter_unexpected (stage : (s.port p).doe ≠ .algorithms) (f : State → State) :
    ∃ t, Host.Outcome.next (spdmAfter p f s) = (.next t : Answer) ∧ Replied p .unexpected (s.port p).doe s t :=
  ⟨_, congrArg Host.Outcome.next ((spdmRun_ready reach fw key _).trans (if_neg stage)), answerSpdm_replied ..⟩

/-- The requests that set the stage (R479). -/
theorem spdm_stages :
    (∃ t, exec (.getVersion p) s = .next t ∧ Replied p .version .version s t) ∧
    ((s.port p).doe = .version → ∃ t, exec (.getCapabilities p) s = .next t ∧ Replied p .capabilities .capabilities s t) ∧
    ((s.port p).doe ≠ .version → ∃ t, exec (.getCapabilities p) s = .next t ∧ Replied p .unexpected (s.port p).doe s t) ∧
    ((s.port p).doe = .capabilities →
      ∃ t, exec (.negotiateAlgorithms p true true) s = .next t ∧ Replied p .algorithms .algorithms s t) ∧
    ((s.port p).doe = .capabilities → ∀ x y, x = false ∨ y = false →
      ∃ t, exec (.negotiateAlgorithms p x y) s = .next t ∧ Replied p .noAlgorithm (s.port p).doe s t) ∧
    ((s.port p).doe ≠ .capabilities → ∀ x y,
      ∃ t, exec (.negotiateAlgorithms p x y) s = .next t ∧ Replied p .unexpected (s.port p).doe s t) := by
  have run (f : State → State) := spdmRun_ready reach fw key f
  refine ⟨⟨_, congrArg Host.Outcome.next (run _), setStage_replied ..⟩,
    fun g => ⟨_, congrArg Host.Outcome.next ((run _).trans (if_pos g)), setStage_replied ..⟩,
    fun g => ⟨_, congrArg Host.Outcome.next ((run _).trans (if_neg g)), answerSpdm_replied ..⟩,
    fun g => ⟨_, congrArg Host.Outcome.next ((run _).trans ((if_neg (not_not.2 g)).trans (if_pos rfl))), setStage_replied ..⟩,
    fun g x y no => ⟨_, congrArg Host.Outcome.next ((run _).trans ((if_neg (not_not.2 g)).trans (if_neg ?_))), answerSpdm_replied ..⟩,
    fun g x y => ⟨_, congrArg Host.Outcome.next ((run _).trans (if_pos g)), answerSpdm_replied ..⟩⟩
  rcases no with rfl | rfl <;> simp

/-- The requests about the certificate chain (R480). -/
theorem spdm_chain (stage : (s.port p).doe = .algorithms) :
    (∃ t, exec (.getDigests p) s = .next t ∧ Replied p (.digests (sha256 Config.endorsementChain)) (s.port p).doe s t) ∧
    (∀ o n, o < Config.endorsementChain.length → ∃ t bs, exec (.getCertificate p 0 o n) s = .next t ∧
      bs = (Config.endorsementChain.drop o).take n ∧
      Replied p (.certificate bs (Config.endorsementChain.length - o - bs.length)) (s.port p).doe s t) ∧
    (∀ k o n, k ≠ 0 ∨ Config.endorsementChain.length ≤ o →
      ∃ t, exec (.getCertificate p k o n) s = .next t ∧ Replied p .invalid (s.port p).doe s t) := by
  have after (f : State → State) := spdmAfter_ready reach fw key stage f
  refine ⟨⟨_, congrArg Host.Outcome.next (after _), answerSpdm_replied ..⟩,
    fun o n inside => ⟨_, _, congrArg Host.Outcome.next ((after _).trans (if_neg ?_)), rfl, answerSpdm_replied ..⟩,
    fun k o n absent => ⟨_, congrArg Host.Outcome.next ((after _).trans (if_pos absent)), answerSpdm_replied ..⟩⟩
  rintro (zero | outside)
  · exact zero rfl
  · exact absurd inside (Nat.not_lt.2 outside)

/-- The signed requests, each of which uses one free value (log 23). -/
theorem spdm_signed (stage : (s.port p).doe = .algorithms) :
    (∀ nonce, ∃ t sum sig, exec (.challenge p 0 nonce) s = .next t ∧
      t.out = s.out ++ [.spdm p (.challengeAuth (sha256 Config.endorsementChain) sum sig)] ∧ t.free = s.free + 1 ∧
      { t with out := s.out, free := s.free } = s) ∧
    (∀ sign nonce, ∃ t bl sig, exec (.getMeasurements p 0xFF sign nonce) s = .next t ∧
      t.out = s.out ++ [.spdm p (.measurements bl.length bl sig)] ∧ bl.map (·.1) = indicesFor p s ∧
      (∀ e ∈ bl, e.2 = measurement e.1 s) ∧ (sig.isSome = sign) ∧ { t with out := s.out, free := s.free } = s) := by
  have after (f : State → State) := spdmAfter_ready reach fw key stage f
  refine ⟨fun nonce => ⟨_, _, _, congrArg Host.Outcome.next ((after _).trans (if_neg (not_not.2 rfl))), rfl, rfl, rfl⟩,
    fun sign nonce => ⟨_, blocksOf (indicesFor p s) s,
      if sign then some (Config.identitySign (transcript nonce (blocksOf (indicesFor p s) s)) s.free) else none,
      congrArg Host.Outcome.next ((after _).trans ((if_neg (by decide)).trans (if_pos rfl))), ?_, ?_, fun e he => ?_, ?_, rfl⟩⟩
  · unfold blocksOf
    rw [List.length_map]
    rfl
  · exact (List.map_map ..).trans (List.map_id _)
  · obtain ⟨i, -, rfl⟩ := List.mem_map.1 he
    rfl
  · cases sign <;> rfl

end

/-- Settles O58, request by request along the stages of the exchange. -/
theorem managementAndSpdm : Obligations.ManagementAndSpdm := by
  refine fun s => ⟨fun on b a => ⟨congrArg Host.Outcome.next (if_pos on), congrArg Host.Outcome.next (if_pos on)⟩, fun p reach fw key => ?_⟩
  obtain ⟨version, caps, capsOut, algs, noAlgs, algsOut⟩ := spdm_stages reach fw key
  have chain (g : (s.port p).doe = .algorithms) := spdm_chain reach fw key g
  have signed (g : (s.port p).doe = .algorithms) := spdm_signed reach fw key g
  exact ⟨version, caps, capsOut, algs, noAlgs, algsOut, fun g => (chain g).1, fun g => (chain g).2.1, fun g => (chain g).2.2,
    fun g => (signed g).1, fun g => (signed g).2, fun g => ⟨spdmAfter_unexpected reach fw key g _,
      fun _ _ _ => spdmAfter_unexpected reach fw key g _, fun _ _ => spdmAfter_unexpected reach fw key g _,
      fun _ _ _ => spdmAfter_unexpected reach fw key g _⟩⟩

end Sys2Proof.Machine
end

section
/-! PROOF. O59: the restart of the firmware, and the turn end of a record (R427, R430, R454, R470). -/

namespace Sys2Proof.Machine

/-! What the recorder's writes leave (R430). -/

/-- Cores, HBM memory and the other partitions stay, and of partition q all but its page tables' errors and its monitor, and its recorder,
which goes on as f says. -/
structure State.Recorded (q : Nat) (f : Recorder → Recorder) (s t : State) : Prop where
  cores : t.cores = s.cores
  hbm : t.hbm = s.hbm
  others : ∀ i, i ≠ q → t.part i = s.part i
  part : ∃ e m, t.part q = { s.part q with ptErr := e, mon := m, recd := f (s.part q).recd }

namespace State.Recorded

variable {q : Nat} {f g : Recorder → Recorder} {s t u : State}

theorem refl (q : Nat) (s : State) : Recorded q id s s := ⟨rfl, rfl, fun _ _ => rfl, _, _, rfl⟩

theorem trans (h : Recorded q f s t) (k : Recorded q g t u) : Recorded q (g ∘ f) s u := by
  obtain ⟨e, m, hp⟩ := h.part
  obtain ⟨e', m', kp⟩ := k.part
  exact ⟨k.cores.trans h.cores, k.hbm.trans h.hbm, fun i hi => (k.others i hi).trans (h.others i hi), e', m', by rw [kp, hp]; rfl⟩

theorem recd (h : Recorded q f s t) : (t.part q).recd = f (s.part q).recd := by
  obtain ⟨e, m, part⟩ := h.part
  rw [part]

theorem replay (h : Recorded q f s t) : (t.part q).replay = (s.part q).replay := by
  obtain ⟨e, m, part⟩ := h.part
  rw [part]

theorem turnEnds (h : Recorded q f s t) : (t.part q).turnEnds = (s.part q).turnEnds := by
  obtain ⟨e, m, part⟩ := h.part
  rw [part]

theorem updPart (f : Recorder → Recorder) (s : State) : Recorded q f s (s.updPart q fun x => { x with recd := f x.recd }) :=
  ⟨rfl, rfl, fun _ hi => State.part_updPart_ne s hi _, _, _, State.part_updPart s q _⟩

theorem of_parts (cores : t.cores = s.cores) (hbm : t.hbm = s.hbm) (parts : t.parts = s.parts) : Recorded q id s t :=
  ⟨cores, hbm, fun i _ => State.part_of parts i, _, _, State.part_of parts q⟩

theorem walkRead (va : Nat) (w : Bool) (s : State) : Recorded q id s (walkRead q va w s).1 := by
  have reads := State.ReadsOnly.walkRead (q := q) va w s
  exact ⟨reads.cores, (State.MapsKept.walkRead q va w s).hbm, reads.others, reads.part⟩

theorem submit {r : MemReq} (s : State) (h : (s.part r.part).replay = none) : Recorded q id s (submit r s) := by
  have written (l : List (Nat × List Byte)) (p : PortId) (z : State) :
      Recorded q id z (l.foldl (fun s e => s.emit (.hostWrite p e.1 e.2)) z) := by
    induction l generalizing z with
    | nil => exact refl q z
    | cons a l ih => exact trans (of_parts (s := z) (t := z.emit (.hostWrite p a.1 a.2)) rfl rfl rfl) (ih _)
  unfold Machine.submit
  split
  · exact of_parts rfl rfl rfl
  · exact of_parts rfl rfl rfl
  · split
    · exact refl q s
    · rw [if_neg (by simp [h])]
      exact written _ _ s
  · exact refl q s

theorem recWrite (n va : Nat) (bs : List Byte) (s : State) (h : (s.part q).replay = none) : Recorded q id s (recWrite q n va bs s) := by
  induction n generalizing va bs s with
  | zero => exact refl q s
  | succ n ih =>
    have page := walkRead (q := q) va true s
    unfold Machine.recWrite
    split
    · exact refl q s
    · generalize Machine.walkRead q va true s = x at page
      obtain ⟨z, x⟩ := x
      have still : (z.part q).replay = none := page.replay.trans h
      cases x with
      | fail => exact page.trans (ih _ _ z still)
      | ok e => 
        have sent := submit (q := q) (r := { mkReq q 0xFFF (z.part q).recd.tu.turn e.ro (e.at va / 64) .recorder z with chk := false }.writing
          (padTo 64 (List.replicate (va % 64) 0 ++ bs.take (min (64 - va % 64) bs.length)))
          ((2 ^ min (64 - va % 64) bs.length - 1) * 2 ^ (va % 64)) 0) z still
        exact (page.trans sent).trans (ih _ _ _ (sent.replay.trans still))


/-- An appended item goes on in the ring and is counted. -/
theorem recAppend (bs : List Byte) (s : State) (h : (s.part q).replay = none) :
    Recorded q (fun r => { r with off := r.off + bs.length, items := r.items + 1 }) s (recAppend q bs s) := by
  have counted := updPart (q := q) (fun r => { r with off := r.off + bs.length, items := r.items + 1 }) s
  exact counted.trans (recWrite _ _ bs _ (counted.replay.trans h))

theorem recHead (s : State) (h : (s.part q).replay = none) : Recorded q id s (recHead q s) := recWrite _ _ _ s h

/-- The end of a record as incomplete (R427). -/
theorem recStop_incomplete (s : State) (h : (s.part q).replay = none) (on : (s.part q).recd.isOpen = true) :
    ∃ f, Recorded q f s (recStop q 2 s) ∧ ∀ r, (f r).isOpen = false ∧ (f r).incomplete = true := by
  have closed := updPart (q := q) (fun r => { r with isOpen := false, fullstop := false, incomplete := true }) s
  have still := closed.replay.trans h
  unfold Machine.recStop
  dsimp only
  rw [if_neg (by simp [on])]
  split
  · have item := closed.trans (recAppend (itemHeader 0x22 0 0xFFFF 0
      ((s.updPart q fun x => { x with recd := { x.recd with isOpen := false, fullstop := false, incomplete := true } }).part q).turn 0 2 0) _ still)
    exact ⟨_, item.trans (recHead _ (item.replay.trans h)), fun _ => ⟨rfl, rfl⟩⟩
  · exact ⟨_, closed.trans (recHead _ still), fun _ => ⟨rfl, rfl⟩⟩

end State.Recorded

theorem length_itemHeader (kind flags unit len turn key sub paylen : Nat) :
    (itemHeader kind flags unit len turn key sub paylen).length = 32 := by
  simp [itemHeader]

/-- The turn end appended to an open record that has room (R427). -/
def Recorder.ended (e : TurnEnd) (r : Recorder) : Recorder :=
  { r with off := r.off + 32 + e.payload.length, items := r.items + 1, last := e.turn, nd := r.nd || e.nd }

/-- The last turn and its mark are kept, and the header is written or the record ends. -/
def turnEndMarked (q : Nat) (e : TurnEnd) (s : State) : State :=
  s.updPart q fun x => { x with recd := { x.recd with last := e.turn, nd := x.recd.nd || e.nd } }

theorem turnEndMarked_recorded (q : Nat) (e : TurnEnd) (s : State) :
    State.Recorded q (fun r => { r with last := e.turn, nd := r.nd || e.nd }) s (turnEndMarked q e s) := .updPart _ s

theorem putTurnEnd_of_open {q : Nat} {e : TurnEnd} {s z : State} (on : (s.part q).recd.isOpen = true)
    (item : recItem q 0x20 (2 * b2n e.nd + 4 * b2n e.incomplete) 0xFFFF e.posts.length e.turn 0 0 e.payload s = z)
    (still : (z.part q).recd.isOpen = true) :
    putTurnEnd q e s = if e.incomplete then recStop q 2 (turnEndMarked q e z) else recHead q (turnEndMarked q e z) := by
  unfold putTurnEnd
  rw [if_pos on, item]
  exact if_pos still

/-- A turn end joins an open record with room; one that is incomplete ends it. -/
theorem putTurnEnd_recorded {q : Nat} {e : TurnEnd} {s : State} (h : (s.part q).replay = none) (on : (s.part q).recd.isOpen = true)
    (room : (s.part q).recd.off + 32 + e.payload.length ≤ (s.part q).recd.ringLen) :
    ∃ f, State.Recorded q f s (putTurnEnd q e s) ∧ (e.incomplete = false → ∀ r, f r = Recorder.ended e r) ∧
      (e.incomplete = true → ∀ r, (f r).isOpen = false ∧ (f r).incomplete = true) := by
  generalize hb : itemHeader 0x20 (2 * b2n e.nd + 4 * b2n e.incomplete) 0xFFFF e.posts.length e.turn 0 0 e.payload.length ++ e.payload = bs
  have length : bs.length = 32 + e.payload.length := by rw [← hb, List.length_append, length_itemHeader]
  have item : recItem q 0x20 (2 * b2n e.nd + 4 * b2n e.incomplete) 0xFFFF e.posts.length e.turn 0 0 e.payload s = recAppend q bs s :=
    hb ▸ (if_neg (by simp [on])).trans (if_neg (by omega))
  have added := State.Recorded.recAppend (q := q) bs s h
  generalize recAppend q bs s = z at item added
  have last := added.trans (turnEndMarked_recorded q e z)
  have still := last.replay.trans h
  rw [putTurnEnd_of_open on item (by rw [added.recd]; exact on)]
  cases inc : e.incomplete with
  | false =>
    rw [if_neg (by decide)]
    refine ⟨_, last.trans (.recHead _ still), fun _ r => ?_, fun no => absurd no (by decide)⟩
    simp [Recorder.ended, length, Nat.add_assoc]
  | true =>
    rw [if_pos rfl]
    obtain ⟨f, stopped, ended⟩ := State.Recorded.recStop_incomplete _ still (by rw [last.recd]; exact on)
    exact ⟨_, last.trans stopped, fun no => absurd no (by decide), fun _ r => ended _⟩

section
variable {q : PartId} {e : TurnEnd} {rest : List TurnEnd} {s : State}

/-- TURN_END_ITEM of a partition that replays nothing. -/
theorem exec_turnEndItem (on : s.running = true) (ends : (s.part q).turnEnds = e :: rest)
    (none_replays : ((putTurnEnd q e (s.updPart q fun x => { x with turnEnds := rest })).part q).replay = none) :
    exec (.turnEndItem q) s = .next (putTurnEnd q e (s.updPart q fun x => { x with turnEnds := rest })) := by
  refine congrArg Host.Outcome.next ?_
  rw [ends]
  refine (if_pos on).trans ?_
  dsimp only
  rw [none_replays]

theorem turnEndItem_records (on : s.running = true) (ends : (s.part q).turnEnds = e :: rest) (h : (s.part q).replay = none)
    (opened : (s.part q).recd.isOpen = true) (room : (s.part q).recd.off + 32 + e.payload.length ≤ (s.part q).recd.ringLen) :
    ∃ t, exec (.turnEndItem q) s = .next t ∧ (t.part q).turnEnds = rest ∧
      (e.incomplete = false → (t.part q).recd = Recorder.ended e (s.part q).recd) ∧
      (e.incomplete = true → (t.part q).recd.isOpen = false ∧ (t.part q).recd.incomplete = true) ∧
      (∀ i, i ≠ q.val → t.part i = s.part i) ∧ t.cores = s.cores ∧ t.hbm = s.hbm := by
  generalize hz : (s.updPart q fun x => { x with turnEnds := rest }) = z
  have part : z.part q = { s.part q with turnEnds := rest } := hz ▸ State.part_updPart ..
  have others (i : Nat) (hi : i ≠ q.val) : z.part i = s.part i := hz ▸ State.part_updPart_ne s hi _
  have cores : z.cores = s.cores := hz ▸ rfl
  have hbm : z.hbm = s.hbm := hz ▸ rfl
  obtain ⟨f, goes, added, ended⟩ := putTurnEnd_recorded (e := e) (s := z) (q := q) (by rw [part]; exact h) (by rw [part]; exact opened)
    (by rw [part]; exact room)
  have recd := goes.recd
  rw [part] at recd
  refine ⟨_, exec_turnEndItem on ends (by rw [hz, goes.replay, part]; exact h), ?_, fun full => ?_, fun inc => ?_, fun i hi => ?_, ?_, ?_⟩ <;> rw [hz]
  · rw [goes.turnEnds, part]
  · rw [recd, added full]
  · rw [recd]
    exact ended inc _
  · rw [goes.others i hi, others i hi]
  · rw [goes.cores, cores]
  · rw [goes.hbm, hbm]

end

/-- R454, R470: the control cores boot the slot that boots. -/
theorem controlCoreBoot_boots {s : State} (on : s.running = true) (restart : s.hs.fwRestart = true) {n : Nat}
    (slot : bootSlot s.power.bootSel s.flash = some n) : exec .controlCoreBoot s = .next (freeFaults (startFw n s)) := by
  refine congrArg Host.Outcome.next ((if_pos (by simp [on, restart])).trans ?_)
  rw [slot]

theorem controlCoreBoot_fails {s : State} (on : s.running = true) (restart : s.hs.fwRestart = true)
    (slot : bootSlot s.power.bootSel s.flash = none) :
    exec .controlCoreBoot s = .next (enterFailed (s.updHs fun h => { h with fwRestart := false })) := by
  refine congrArg Host.Outcome.next ((if_pos (by simp [on, restart])).trans ?_)
  rw [slot]

/-- Settles O59: the boot sets the headstock alone, the turn end is one write of the record. -/
theorem restartAndTurnEnd : Obligations.RestartAndTurnEnd := fun _ =>
  ⟨fun on restart => ⟨fun _ slot => ⟨_, controlCoreBoot_boots on restart slot, rfl, rfl, rfl, rfl, rfl, rfl, rfl⟩,
    fun slot => ⟨_, controlCoreBoot_fails on restart slot, enterFailed_health _⟩⟩,
    fun _ _ _ on ends h opened room => turnEndItem_records on ends h opened room⟩

end Sys2Proof.Machine
end

section
/-! SUPPORT. What an accepted doorbell leaves (R363, R364, R391). -/

namespace Sys2Proof.Machine

/-- A mailbox whose doorbell has been accepted, before its command has been checked. -/
def Mbx.rung (seen : Seen) (order : Nat) (b : Mbx) : Mbx :=
  { b with state := 1, seq := (b.seq + 1) % 2 ^ 32, copy := b.cmd, ran := false, result := none, order := order, seen := seen }

/-- The module once the doorbell has been accepted, before the command has been checked. -/
def rung (p : PortId) (m : Nat) (s : State) : State :=
  let s := s.updMbx p m fun b => { b with
    state := 1, seq := (b.seq + 1) % 2 ^ 32, copy := b.cmd, ran := false, result := none, order := s.hs.accepted }
  let s := s.updHs fun h => { h with accepted := h.accepted + 1 }
  s.updMbx p m fun b => { b with seen := seenBy b.command.part s }

theorem rung_mbx (p : PortId) (m : Nat) (s : State) : ∃ seen, (rung p m s).mbx p m = (s.mbx p m).rung seen s.hs.accepted := by
  unfold rung
  dsimp only
  rw [State.mbx_updMbx, State.mbx_updHs, State.mbx_updMbx]
  exact ⟨_, rfl⟩

theorem rung_mbx_ne {p o : PortId} {m i : Nat} (h : o ≠ p ∨ i ≠ m) (s : State) : (rung p m s).mbx o i = s.mbx o i := by
  have other (f : Mbx → Mbx) (z : State) : (z.updMbx p m f).mbx o i = z.mbx o i := by
    by_cases e : o = p
    · rw [e]
      exact State.mbx_updMbx_ne z p (h.resolve_left (not_not.2 e)) f
    · exact congrArg (fun x : Port => SMap.get Mbx.reset i x.mbx) (State.port_updPort_ne z e _)
  unfold rung
  dsimp only
  rw [other, State.mbx_updHs, other]

theorem rung_hs (p : PortId) (m : Nat) (s : State) : (rung p m s).hs = { s.hs with accepted := s.hs.accepted + 1 } := by
  cases p <;> rfl

theorem rung_frame (p : PortId) (m : Nat) (s : State) : { rung p m s with hs := s.hs, portA := s.portA, portB := s.portB } = s := by
  cases p <;> rfl

section
variable {p : PortId} {m : Nat} {s : State}

/-- An accepted doorbell, its command passing the checks or not (R364). -/
theorem ringMailbox_taken (h : doorbellTaken p m s = true) : ringMailbox p m s =
    match acceptStatus p m ((rung p m s).mbx p m).command (rung p m s) with
    | some st => (rung p m s).updMbx p m fun b => { b with result := some ⟨st, []⟩ }
    | none => rung p m s := if_pos h

theorem ringMailbox_refused (h : doorbellTaken p m s = false) : ringMailbox p m s = refuseDoorbell p m s := if_neg (by simp [h])

/-- An accepted doorbell leaves the command in hand, or ended with the status that a check gives. -/
theorem ringMailbox_spec (h : doorbellTaken p m s = true) : ∃ seen r,
    (ringMailbox p m s).mbx p m = { (s.mbx p m).rung seen s.hs.accepted with result := r } ∧
    (∀ i, i ≠ m → (ringMailbox p m s).mbx p i = s.mbx p i) ∧
    (ringMailbox p m s).hs = { s.hs with accepted := s.hs.accepted + 1 } ∧
    { ringMailbox p m s with hs := s.hs, portA := s.portA, portB := s.portB } = s := by
  obtain ⟨seen, box⟩ := rung_mbx p m s
  have hs := rung_hs p m s
  have frame := rung_frame p m s
  have others (i : Nat) (hi : i ≠ m) := rung_mbx_ne (p := p) (o := p) (.inr hi) s
  rw [ringMailbox_taken h]
  generalize rung p m s = z at box hs frame others ⊢
  cases acceptStatus p m (z.mbx p m).command z with
  | none => exact ⟨seen, none, box, others, hs, frame⟩
  | some st =>
    refine ⟨seen, some ⟨st, []⟩, ?_, fun i hi => (State.mbx_updMbx_ne z p hi _).trans (others i hi), ?_, ?_⟩
    · rw [State.mbx_updMbx, box]
    · rw [← hs]
      cases p <;> rfl
    · refine Eq.trans ?_ frame
      cases p <;> rfl

end

/-- A write of RING = 1 to a doorbell register (R362, R363). -/
theorem writeBar0_doorbell (p : PortId) (m : MbxId) (s : State) :
    writeBar0 p (0x0100 + 0x20 * m) (leBytes 1 8) s = ringMailbox p m s := by
  have hm := m.isLt
  have one : leBytes 1 8 = leBytes (1 : Word).toNat 8 := rfl
  rw [one, writeBar0_portReg p (by omega) (by omega)]
  have area : 0x0100 ≤ 0x0100 + 0x20 * m.val ∧ 0x0100 + 0x20 * m.val < 0x0180 ∧ (0x0100 + 0x20 * m.val) % 0x20 = 0 := by omega
  have box : (0x0100 + 0x20 * m.val - 0x0100) / 0x20 = m := by omega
  unfold writePortReg
  dsimp only
  rw [if_neg (by omega), if_neg (by omega), if_neg (by omega), if_neg (by omega), if_neg (by omega), if_pos area, mergeReg_leBytes, box]
  exact if_pos (by decide)

end Sys2Proof.Machine
end

section
/-! PROOF. O49: a mailbox's doorbell, HMB_CMD while BUSY, and the end of a command (R362, R363, R365, R377, R378). -/

namespace Sys2Proof.Machine

/-- Bytes read where they were written. -/
theorem Mem.read_write (m : Mem) (a : Nat) (bs : List Byte) : (m.write a bs).read a bs.length = bs := by
  refine List.ext_getElem (Mem.length_read ..) fun i hi hj => ?_
  have there := Mem.getD_read (m.write a bs) a hj
  rw [List.getD_eq_getElem _ _ hi, Mem.byte_write m a bs i hj] at there
  exact there

theorem Mem.read_write_of_length (m : Mem) (a : Nat) {bs : List Byte} {n : Nat} (h : bs.length = n) : (m.write a bs).read a n = bs :=
  h ▸ Mem.read_write m a bs

theorem length_respHeader (op len st tag seq : Nat) : (leBytes op 2 ++ leBytes len 2 ++ leBytes st 1 ++ leBytes 0 3 ++ leBytes tag 8 ++
    leBytes seq 4 ++ List.replicate 12 (0 : Byte)).length = 32 := by
  simp

/-- The response of a command that has ended: header and block (R365). -/
theorem Mbx.answered_resp (r : MbxResult) (b : Mbx) : (b.answered r).resp = b.resp.write 0 (leBytes b.command.op 2 ++
    leBytes r.data.length 2 ++ leBytes r.status 1 ++ leBytes 0 3 ++ leBytes b.command.tag 8 ++ leBytes b.seq 4 ++ List.replicate 12 0 ++ r.data) := by
  unfold Mbx.answered
  dsimp only

/-- MBX_COMMAND_COMPLETE of a mailbox with its result (R365). -/
theorem exec_mbxCommandComplete {p : PortId} {m : MbxId} {s : State} {r : MbxResult} (busy : (s.mbx p m).state = 1)
    (fw : s.fwUp = true) (result : (s.mbx p m).result = some r) :
    exec (.mbxCommandComplete p m) s = .next (completeMailbox p m r s) := by
  refine congrArg Host.Outcome.next ((if_pos ⟨busy, fw⟩).trans ?_)
  rw [result]

/-- HMB_CMD written while BUSY (R377, R378). -/
theorem exec_hmbCmdRefused_busy {p : PortId} {s : State} (reach : s.reaches p = true) (busy : (s.port p).hmb.state = 1) (v : Word) :
    exec (.hmbCmdRefused p v) s = .next (writeHmb p true (wf64 v 3 0) (wf64 v 63 32) s) :=
  congrArg Host.Outcome.next (if_pos (by simp [reach, busy]))

/-- Settles O49: the doorbell by whether it is taken, HMB_CMD, and the end of a command with its result. -/
theorem mailboxCommands : Obligations.MailboxCommands := by
  intro p m s
  refine ⟨fun reach bs eq => ⟨fun taken => ?_, fun refused => ?_⟩, fun reach busy v => ?_, fun r busy fw result => ?_⟩
  · obtain ⟨seen, r, box, others, hs, frame⟩ := ringMailbox_spec taken
    have next : exec (.registerWrite (.bar0 p) (0x0100 + 0x20 * m) bs) s = .next (ringMailbox p m s) := by
      rw [eq, exec_registerWrite_bar0 reach, writeBar0_doorbell]
    generalize ringMailbox p m s = t at next box others hs frame
    refine ⟨t, next, ?_⟩
    rw [box, hs]
    exact ⟨rfl, rfl, rfl, rfl, rfl, rfl, others, (congrArg State.parts frame :)⟩
  · refine ⟨_, congrArg Host.Outcome.next (if_pos (by simp [reach, refused])), ?_, ?_, fun i hi => State.mbx_updMbx_ne s p hi _,
      State.updMbx_frame ..⟩
    · rw [eq, exec_registerWrite_bar0 reach, writeBar0_doorbell, ringMailbox_refused refused]
    · exact State.mbx_updMbx ..
  · refine ⟨_, exec_hmbCmdRefused_busy reach busy v, ?_⟩
    have counted : writeHmb p true (wf64 v 3 0) (wf64 v 63 32) s =
        s.updPort p fun x => if x.hmb.state = 1 then { x with hmb := { x.hmb with refused := bump32 x.hmb.refused } }
          else if true && decide (wf64 v 3 0 ≠ 0) then { x with hmb := { x.hmb with state := 1, op := wf64 v 3 0, arg := wf64 v 63 32, done := none } }
          else { x with hmb := { x.hmb with arg := wf64 v 63 32 } } := rfl
    rw [counted, State.port_updPort, if_pos busy]
    exact ⟨rfl, rfl, State.updPort_frame ..⟩
  · obtain ⟨box, signal, -, -, -, -, frame⟩ := completeMailbox_spec (p := p) (m := m) (s := s) (z := s) r rfl
    refine ⟨_, exec_mbxCommandComplete busy fw result, ?_⟩
    rw [box]
    refine ⟨rfl, rfl, rfl, rfl, rfl, signal, ?_, frame⟩
    rw [Mbx.answered_resp]
    exact Mem.read_write_of_length _ 0 (by rw [List.length_append, length_respHeader])

end Sys2Proof.Machine
end

section
/-! SUPPORT. Blocks of bytes: lengths and cells (R10), and what the firmware's having taken up a command leaves as it was. -/

namespace Sys2Proof.Machine

@[simp] theorem length_beBytes (v n : Nat) : (beBytes v n).length = n := by simp [beBytes]

@[simp] theorem length_padTo (n : Nat) (bs : List Byte) : (padTo n bs).length = n := by
  unfold padTo
  rw [List.length_append, List.length_take, List.length_replicate]
  omega

theorem fieldAt_padTo (m : Nat) {bs : List Byte} {o n : Nat} (h : o + n ≤ bs.length) (fits : bs.length ≤ m) :
    fieldAt (padTo m bs) o n = fieldAt bs o n := by
  unfold padTo
  rw [List.take_of_length_le fits, fieldAt_append_left _ h]

theorem length_shaBlocks (n : Nat) (h : List Nat) (bs : List Byte) (h8 : h.length = 8) : (shaBlocks n h bs).length = 8 := by
  induction n generalizing h bs with
  | zero => exact h8
  | succ n ih => exact ih _ _ (by simp [shaBlock, h8])

/-- A digest has 32 bytes. -/
@[simp] theorem length_sha256 (bs : List Byte) : (sha256 bs).length = 32 := by
  unfold sha256
  dsimp only
  rw [List.length_flatMap, List.map_congr_left (g := fun _ => 4) fun w _ => length_beBytes w 4, List.map_const', List.sum_replicate,
    length_shaBlocks _ _ _ rfl]
  rfl

/-! Cells of one size. -/

section
variable {α : Type} {f : α → List Byte} {w : Nat} (size : ∀ a, (f a).length = w)
include size

theorem length_cells (l : List α) : (l.flatMap f).length = w * l.length := by
  induction l with
  | nil => rfl
  | cons a l ih => rw [List.flatMap_cons, List.length_append, ih, size, List.length_cons, Nat.mul_succ, Nat.add_comm]

/-- The i-th cell. -/
theorem take_drop_cells {l : List α} {i : Nat} {a : α} (h : l[i]? = some a) : ((l.flatMap f).drop (w * i)).take w = f a := by
  induction l generalizing i with
  | nil => cases h
  | cons b l ih =>
    rw [List.flatMap_cons]
    cases i with
    | zero =>
      obtain rfl : b = a := by simpa using h
      rw [Nat.mul_zero, List.drop_zero, ← size b, List.take_left]
    | succ i =>
      rw [Nat.mul_succ, Nat.add_comm, ← List.drop_drop, ← size b, List.drop_left, size]
      exact ih (by simpa using h)

/-- A field of the i-th cell. -/
theorem fieldAt_cells {l : List α} {i : Nat} {a : α} (h : l[i]? = some a) {o n : Nat} (fits : o + n ≤ w) :
    fieldAt (l.flatMap f) (w * i + o) n = fieldAt (f a) o n := by
  rw [← fieldAt_drop, ← take_drop_cells size h]
  unfold fieldAt
  rw [List.drop_take, List.take_take, Nat.min_eq_left (by omega)]

end

/-! A command that has been taken up. -/

theorem takenUp_frame (p : PortId) (m : Nat) (s : State) : { takenUp p m s with portA := s.portA, portB := s.portB } = s :=
  State.updMbx_frame ..

end Sys2Proof.Machine
end

section
/-! PROOF. O50: the commands that only ask (R389, R390, R398, R407, R408, R411, R413, R481). -/

namespace Sys2Proof.Machine

/-- A command that answers OK with a block and does nothing else. -/
theorem asks_only {i : Instr} {p : PortId} {m op : Nat} {s : State} (run : toRun p m op s = true) {g : Cmd → State → List Byte}
    {bs : List Byte} (meaning : exec i s = .next (runCmd p m op (fun c u => (u, .ok (g c u))) s))
    (block : g (s.mbx p m).command (takenUp p m s) = bs) : ∃ t, exec i s = .next t ∧ Answered p m 0 bs s t ∧ OnlyBox p m s t := by
  obtain ⟨answered, only⟩ := answers_only run (f := fun c u => (u, .ok (g c u))) (r := .ok bs) (by rw [block])
  exact ⟨_, meaning, answered, only⟩

theorem identifyBytes_fields (p : PortId) (s : State) :
    let bs := identifyBytes p s
    bs.length = 64 ∧ bs.take 5 = [1, 1, 2, 1, 0] ∧ fieldAt bs 5 1 = s.flash.activeSlot % 256 ∧ fieldAt bs 6 1 = portNum p ∧
    fieldAt bs 8 8 = s.build % 2 ^ 64 ∧ fieldAt bs 16 4 = s.flash.slotA.shownSvn % 2 ^ 32 ∧
    fieldAt bs 20 4 = s.flash.slotB.shownSvn % 2 ^ 32 ∧ fieldAt bs 24 4 = s.flash.floor % 2 ^ 32 ∧
    fieldAt bs 28 4 = s.flash.floorNext % 2 ^ 32 ∧ fieldAt bs 32 2 = enabledCores s % 2 ^ 16 ∧
    fieldAt bs 48 16 = Config.serial.toNat := by
  have serial : Config.serial.toNat % 2 ^ 128 = Config.serial.toNat := Nat.mod_eq_of_lt Config.serial.isLt
  have port : portNum p % 256 = portNum p := by cases p <;> rfl
  intro bs
  have block : bs = identifyBytes p s := rfl
  unfold identifyBytes at block
  rw [block]
  simp only [List.length_append, length_leBytes, List.length_replicate, List.length_cons, List.length_nil, fieldAt_append_left,
    fieldAt_append_right, fieldAt_leBytes, Nat.reduceAdd, Nat.reduceLeDiff, Nat.reduceSub, Nat.reducePow, Nat.div_one, pow_zero, true_and]
  exact ⟨rfl, port, serial⟩

theorem healthBytes_fields (s : State) :
    let bs := healthBytes s
    bs.length = 80 ∧ fieldAt bs 0 1 = s.modh.code ∧ fieldAt bs 8 4 = dieStates s % 2 ^ 32 ∧
    (∀ k, k < 8 → fieldAt bs (16 + 4 * k) 2 = wrapTo 16 (s.stack k).temp) ∧
    fieldAt bs 60 2 = ((List.range 48).filter fun b => (s.lane b).retired).length ∧ fieldAt bs 62 2 = enabledCores s % 2 ^ 16 ∧
    fieldAt bs 64 2 = s.hs.logNext % 2 ^ 16 ∧ fieldAt bs 72 8 = s.hs.epoch.toNat := by
  have temps := length_cells (f := fun k => leBytes ((s.stack k).step % 16 * 2 ^ 16 + s16 (s.stack k).temp) 4) (fun _ => length_leBytes ..)
    (List.range 8)
  have temp (k : Nat) (hk : k < 8) := fieldAt_cells
    (f := fun k => leBytes ((s.stack k).step % 16 * 2 ^ 16 + s16 (s.stack k).temp) 4) (fun _ => length_leBytes ..)
    (l := List.range 8) (i := k) (a := k) (by simp [hk]) (o := 0) (n := 2) (by omega)
  have few := List.length_filter_le (fun b => (s.lane b).retired) (List.range 48)
  rw [List.length_range] at temps few
  have epoch : s.hs.epoch.toNat % 2 ^ 64 = s.hs.epoch.toNat := Nat.mod_eq_of_lt s.hs.epoch.isLt
  have health : s.modh.code % 256 = s.modh.code := by cases s.modh <;> rfl
  unfold healthBytes
  generalize ((List.range 8).flatMap fun k => leBytes ((s.stack k).step % 16 * 2 ^ 16 + s16 (s.stack k).temp) 4) = cells at temps temp ⊢
  simp only [List.length_append, length_leBytes, List.length_replicate, temps, fieldAt_append_left,
    fieldAt_append_right, fieldAt_leBytes, Nat.reduceAdd, Nat.reduceMul, Nat.reduceLeDiff, Nat.reduceSub, Nat.reducePow, Nat.div_one, pow_zero, true_and]
  refine ⟨health, fun k hk => ?_, Nat.mod_eq_of_lt (by omega), epoch⟩
  iterate 7 rw [fieldAt_append_left _ (by simp only [List.length_append, length_leBytes, List.length_replicate, temps]; omega)]
  rw [fieldAt_append_right _ _ (by simp)]
  simp only [List.length_append, length_leBytes, List.length_replicate, Nat.reduceAdd, Nat.add_sub_cancel_left]
  refine (temp k hk).trans ((fieldAt_leBytes _ (by omega)).trans ?_)
  have signed : s16 (s.stack k).temp < 2 ^ 16 := by
    unfold s16 wrapTo
    omega
  unfold s16 at signed ⊢
  omega

/-! The fault log (R407). -/

theorem length_logEntryBytes (e : LogEntry) (k : Nat) : (e.bytes k).length = 64 := by simp [LogEntry.bytes]

/-- The bytes that the log shows at an index. -/
def logCell (start : Nat) (s : State) (i : Nat) : List Byte :=
  match SMap.get none ((start + i) % 4096) s.hs.log with
  | some e => e.bytes ((start + i) % 4096)
  | none => List.replicate 64 0

theorem logBytes_eq (start n : Nat) (s : State) : logBytes start n s = (List.range n).flatMap (logCell start s) := rfl

theorem length_logCell (start : Nat) (s : State) (i : Nat) : (logCell start s i).length = 64 := by
  unfold logCell
  split
  · exact length_logEntryBytes ..
  · simp

theorem length_logBytes (start n : Nat) (s : State) : (logBytes start n s).length = 64 * n := by
  rw [logBytes_eq, length_cells (length_logCell start s), List.length_range]

theorem logBytes_cell (start : Nat) (s : State) {n i : Nat} (h : i < n) :
    ((logBytes start n s).drop (64 * i)).take 64 = logCell start s i := by
  rw [logBytes_eq]
  exact take_drop_cells (length_logCell start s) (by simp [h])

/-- The block of FAULT_LOG_READ (R407). -/
def logBlock (start n : Nat) (s : State) : List Byte :=
  leBytes s.hs.logNext 2 ++ leBytes n 1 ++ List.replicate 5 0 ++ logBytes start n s

theorem logBlock_fields (start n : Nat) (hn : n ≤ 63) (s : State) :
    (logBlock start n s).length = 8 + 64 * n ∧ fieldAt (logBlock start n s) 0 2 = s.hs.logNext % 2 ^ 16 ∧
    fieldAt (logBlock start n s) 2 1 = n ∧
    ∀ i, i < n → ((logBlock start n s).drop (8 + 64 * i)).take 64 = logCell start s i := by
  unfold logBlock
  refine ⟨?_, ?_, ?_, fun i hi => ?_⟩
  · simp only [List.length_append, length_leBytes, List.length_replicate, length_logBytes]
  · simp [fieldAt_append_left, fieldAt_leBytes]
  · have small : n % 256 = n := Nat.mod_eq_of_lt (by omega)
    simp [fieldAt_append_left, fieldAt_append_right, fieldAt_leBytes, small]
  · rw [← List.drop_drop, List.drop_left' (by simp)]
    exact logBytes_cell start s hi

/-! Repairs, a partition, and the links (R398, R408, R413). -/

theorem repairBytes_fields (s : State) : (repairBytes s).length = 104 ∧
    ∀ d, d < 12 → fieldAt (repairBytes s) d 1 = coresOn d s.flash.repair.cores % 256 ∧
      fieldAt (repairBytes s) (12 + d) 1 = sparesOn d s % 256 ∧ fieldAt (repairBytes s) (24 + d) 1 = coresOn d s.flash.pendCores % 256 := by
  have cells (f : Nat → Nat) := length_wordBytes f 1 (List.range 12)
  have cell (f : Nat → Nat) (d : Nat) (hd : d < 12) : fieldAt ((List.range 12).flatMap fun d => leBytes (f d) 1) d 1 = f d % 256 := by
    have at' := fieldAt_wordBytes f 1 (List.range 12) (i := d) (a := d) (by simp [hd])
    rwa [Nat.one_mul] at at'
  have remaps := length_wordBytes (fun k => (s.stack k).used + (s.stack k).deferred * 2 ^ 11 + (s.stack k).unpersist.length * 2 ^ 22 +
    (s.stack k).pendingRows.length * 2 ^ 33 + (s.stack k).noSpare.length % 1024 * 2 ^ 38) 8 (List.range 8)
  simp only [List.length_range, Nat.reduceMul] at cells remaps
  unfold repairBytes
  refine ⟨?_, fun d hd => ⟨?_, ?_, ?_⟩⟩
  · simp only [List.length_append, List.length_replicate, cells]
    exact congrArg (_ + ·) remaps
  · iterate 4 rw [fieldAt_append_left _ (by simp only [List.length_append, List.length_replicate, cells]; omega)]
    exact cell _ d hd
  · iterate 3 rw [fieldAt_append_left _ (by simp only [List.length_append, List.length_replicate, cells]; omega)]
    rw [fieldAt_append_right _ _ (by rw [cells]; omega), cells, Nat.add_sub_cancel_left]
    exact cell _ d hd
  · iterate 2 rw [fieldAt_append_left _ (by simp only [List.length_append, List.length_replicate, cells]; omega)]
    rw [fieldAt_append_right _ _ (by simp only [List.length_append, cells]; omega), List.length_append, cells, cells, Nat.add_sub_cancel_left]
    exact cell _ d hd

theorem queryBytes_fields (x : Part) : (queryBytes x).length = 48 ∧ fieldAt (queryBytes x) 0 1 = x.st.code ∧
    fieldAt (queryBytes x) 1 1 = x.stopStat % 256 ∧
    fieldAt (queryBytes x) 2 1 = b2n x.incomplete + 2 * b2n x.revoked + 4 * b2n x.nd + 8 * portNum x.owner + 16 * b2n (x.recd.mode ≠ 0) ∧
    fieldAt (queryBytes x) 4 4 = x.place.length % 2 ^ 32 ∧ fieldAt (queryBytes x) 8 8 = x.turn % 2 ^ 64 ∧
    (queryBytes x).drop 16 = x.report.bytes := by
  have state : x.st.code % 256 = x.st.code := by cases x.st <;> rfl
  have bit (b : Bool) : b2n b ≤ 1 := by cases b <;> decide
  have port : portNum x.owner ≤ 1 := by cases x.owner <;> decide
  have flags : b2n x.incomplete + 2 * b2n x.revoked + 4 * b2n x.nd + 8 * portNum x.owner + 16 * b2n (x.recd.mode ≠ 0) < 256 := by
    have := bit x.incomplete
    have := bit x.revoked
    have := bit x.nd
    have := bit (x.recd.mode ≠ 0)
    omega
  have report : x.report.bytes.length = 32 := length_padTo ..
  unfold queryBytes
  simp only [List.length_append, length_leBytes, report, fieldAt_append_left, fieldAt_append_right, fieldAt_leBytes, Nat.reduceAdd,
    Nat.reduceLeDiff, Nat.reduceSub, Nat.reducePow, Nat.div_one, pow_zero, true_and]
  exact ⟨state, Nat.mod_eq_of_lt flags, List.drop_left' (by simp)⟩

/-- The block of LINK_QUERY (R413). -/
def linkBlock (s : State) : List Byte :=
  leBytes 64 2 ++ [0, 0] ++ ((List.range 64).flatMap fun b => leBytes (bundleEntry b s) 4) ++
    (List.range 36).flatMap fun l => leBytes (linkEntry l s) 8

theorem linkBlock_fields (s : State) :
    (linkBlock s).length = 548 ∧ fieldAt (linkBlock s) 0 2 = 64 ∧
    (∀ b, b < 64 → fieldAt (linkBlock s) (4 + 4 * b) 4 = bundleEntry b s % 2 ^ 32) ∧
    (∀ l, l < 36 → fieldAt (linkBlock s) (260 + 8 * l) 8 = linkEntry l s % 2 ^ 64) := by
  have bundles := length_wordBytes (bundleEntry · s) 4 (List.range 64)
  have links := length_wordBytes (linkEntry · s) 8 (List.range 36)
  simp only [List.length_range, Nat.reduceMul] at bundles links
  have head : (leBytes 64 2 ++ [0, 0]).length = 4 := by simp
  unfold linkBlock
  refine ⟨?_, ?_, fun b hb => ?_, fun l hl => ?_⟩
  · rw [List.length_append, List.length_append, head, bundles, links]
  · simp [fieldAt_append_left, fieldAt_leBytes]
  · rw [fieldAt_append_left _ (by rw [List.length_append, head, bundles]; omega), fieldAt_append_right _ _ (by rw [head]; omega), head,
      Nat.add_sub_cancel_left]
    exact fieldAt_wordBytes (bundleEntry · s) 4 _ (by simp [hb])
  · rw [fieldAt_append_right _ _ (by rw [List.length_append, head, bundles]; omega), List.length_append, head, bundles,
      Nat.add_sub_cancel_left]
    exact fieldAt_wordBytes (linkEntry · s) 8 _ (by simp [hl])

theorem bundleEntry_low (b : Nat) (s : State) :
    bundleEntry b s % 2 ^ 32 % 8 = (s.lane b).role % 4 + 4 * b2n (s.lane b).retired := by
  have bit : b2n (s.lane b).retired ≤ 1 := by cases (s.lane b).retired <;> decide
  unfold bundleEntry
  dsimp only
  omega

theorem linkEntry_low {l : Nat} {s : State} (h : (s.link l).lanes ≤ 4) : linkEntry l s % 2 ^ 64 % 32 =
    (if (s.link l).up then (s.link l).lanes else 0) + 8 * b2n (s.link l).spUsed + 16 * b2n (s.link l).up := by
  have bit (b : Bool) : b2n b ≤ 1 := by cases b <;> decide
  have up := bit (s.link l).up
  have spare := bit (s.link l).spUsed
  have lanes : (if (s.link l).up then (s.link l).lanes else 0) ≤ 4 := by
    split
    · exact h
    · omega
  unfold linkEntry
  dsimp only
  omega

/-! The quote (R411, R481). -/

/-- A measurement in a quote. -/
def quoteCell (s : State) (i : Nat) : List Byte :=
  padTo 8 (leBytes i 1) ++ leBytes (if i = 1 then s.hs.fw.svn else 0) 8 ++ padTo 32 (measurement i s)

theorem length_quoteCell (s : State) (i : Nat) : (quoteCell s i).length = 48 := by
  simp only [quoteCell, List.length_append, length_padTo, length_leBytes]

theorem evidence_eq (p : PortId) (nonce : List Byte) (is : List Nat) (s : State) : ∃ sig, sig.length = 384 ∧ evidence p nonce is s =
    leBytes 1 2 ++ leBytes is.length 1 ++ leBytes (portNum p) 1 ++ List.replicate 4 0 ++ padTo 32 nonce ++ sha256 Config.endorsementChain ++
      is.flatMap (quoteCell s) ++ sig := ⟨_, length_beBytes .., rfl⟩

theorem evidence_fields (p : PortId) (nonce : List Byte) {is : List Nat} (few : is.length < 256) (s : State) :
    let bs := evidence p nonce is s
    bs.length = 456 + 48 * is.length ∧ fieldAt bs 0 2 = 1 ∧ fieldAt bs 2 1 = is.length ∧ fieldAt bs 3 1 = portNum p ∧
    (nonce.length = 32 → (bs.drop 8).take 32 = nonce) ∧
    (∀ i a, is[i]? = some a → a < 256 → fieldAt bs (72 + 48 * i) 1 = a) := by
  obtain ⟨sig, length, block⟩ := evidence_eq p nonce is s
  have cells := length_cells (length_quoteCell s) is
  have port : portNum p % 256 = portNum p := by cases p <;> rfl
  intro bs
  have eq : bs = evidence p nonce is s := rfl
  rw [eq, block]
  refine ⟨?_, ?_, ?_, ?_, fun full => ?_, fun i a at' small => ?_⟩
  · simp only [List.length_append, length_leBytes, List.length_replicate, length_padTo, length_sha256, cells, length]
    omega
  · simp [fieldAt_append_left, fieldAt_leBytes]
  · simp [fieldAt_append_left, fieldAt_append_right, fieldAt_leBytes, Nat.mod_eq_of_lt few]
  · simp [fieldAt_append_left, fieldAt_append_right, fieldAt_leBytes, port]
  · rw [padTo_of_length full]
    iterate 3 rw [List.drop_append_of_le_length (by simp only [List.length_append, length_leBytes, List.length_replicate]; omega)]
    rw [List.drop_left' (by simp)]
    iterate 3 rw [List.take_append_of_le_length (by simp only [List.length_append, full]; omega)]
    exact List.take_of_length_le full.le
  · have inside : i < is.length := by
      by_contra out
      rw [List.getElem?_eq_none (by omega)] at at'
      cases at'
    have cell := fieldAt_cells (length_quoteCell s) at' (o := 0) (n := 1) (by omega)
    rw [fieldAt_append_left _ (by simp only [List.length_append, length_leBytes, List.length_replicate, length_padTo, length_sha256, cells]; omega),
      fieldAt_append_right _ _ (by simp only [List.length_append, length_leBytes, List.length_replicate, length_padTo, length_sha256]; omega)]
    simp only [List.length_append, length_leBytes, List.length_replicate, length_padTo, length_sha256, Nat.reduceAdd, Nat.add_sub_cancel_left]
    refine cell.trans ?_
    unfold quoteCell
    rw [List.append_assoc, fieldAt_append_left _ (by simp), fieldAt_padTo _ (by simp) (by simp), fieldAt_leBytes _ (by omega)]
    simp [Nat.mod_eq_of_lt small]

/-- FAULT_LOG_READ's run (R407). -/
def faultLogRun (c : Cmd) (s : State) : State × MbxResult :=
  if 4095 < c.field 0 2 ∨ c.field 2 1 < 1 ∨ 63 < c.field 2 1 ∨ c.zero 3 5 = false then (s, .only stBadParameter)
  else (s, .ok (logBlock (c.field 0 2) (c.field 2 1) s))

/-- A range that FAULT_LOG_READ allows. -/
def Cmd.logRange (c : Cmd) : Prop := c.field 0 2 < 4096 ∧ 1 ≤ c.field 2 1 ∧ c.field 2 1 ≤ 63 ∧ c.zero 3 5 = true

theorem faultLogRun_good {c : Cmd} (good : c.logRange) (s : State) : faultLogRun c s = (s, .ok (logBlock (c.field 0 2) (c.field 2 1) s)) := by
  obtain ⟨start, least, most, zero⟩ := good
  exact if_neg (by simp only [zero, Bool.true_eq_false, or_false]; omega)

theorem faultLogRun_bad {c : Cmd} (bad : ¬ c.logRange) (s : State) : faultLogRun c s = (s, .only stBadParameter) := by
  refine if_pos ?_
  unfold Cmd.logRange at bad
  cases zero : c.zero 3 5 with
  | false => simp
  | true =>
    simp only [zero, and_true, Bool.true_eq_false, or_false] at bad ⊢
    omega

section
variable {p : PortId} {m : MbxId} {s : State}

theorem faultLogRead_rule (run : toRun p m 0x0050 s = true) :
    let c := (s.mbx p m).command
    (c.logRange →
      ∃ t bs, exec (.faultLogRead p m) s = .next t ∧ Answered p m 0 bs s t ∧ OnlyBox p m s t ∧ bs.length = 8 + 64 * c.field 2 1 ∧
        fieldAt bs 0 2 = s.hs.logNext % 2 ^ 16 ∧ fieldAt bs 2 1 = c.field 2 1 ∧
        (∀ i k, i < c.field 2 1 → k = (c.field 0 2 + i) % 4096 →
          (SMap.get none k s.hs.log = none → (bs.drop (8 + 64 * i)).take 64 = List.replicate 64 0) ∧
          (∀ e, SMap.get none k s.hs.log = some e → (bs.drop (8 + 64 * i)).take 64 = e.bytes k))) ∧
    (¬ c.logRange → ∃ t, exec (.faultLogRead p m) s = .next t ∧ Answered p m 0x03 [] s t ∧ OnlyBox p m s t) := by
  intro c
  have meaning : exec (.faultLogRead p m) s = .next (runCmd p m 0x0050 faultLogRun s) := rfl
  have same : logBlock (c.field 0 2) (c.field 2 1) (takenUp p m s) = logBlock (c.field 0 2) (c.field 2 1) s :=
    (congrArg (logBlock (c.field 0 2) (c.field 2 1)) (takenUp_frame p m s) :)
  refine ⟨fun good => ?_, fun bad => ?_⟩
  · obtain ⟨length, next, count, cell⟩ := logBlock_fields (c.field 0 2) (c.field 2 1) good.2.2.1 s
    obtain ⟨answered, only⟩ := answers_only run (faultLogRun_good good _)
    refine ⟨_, _, meaning, same ▸ answered, only, length, next, count, fun i k hi hk => ?_⟩
    rw [cell i hi, hk]
    refine ⟨fun absent => ?_, fun e there => ?_⟩ <;> unfold logCell
    · rw [absent]
    · rw [there]
  · obtain ⟨answered, only⟩ := answers_only run (faultLogRun_bad bad _)
    exact ⟨_, meaning, answered, only⟩

/-- ATTEST_QUOTE's answer, and the free value that it uses (R411). -/
theorem attestQuote_ends (run : toRun p m 0x0061 s = true) {is : List Nat}
    (indices : ([1, 2, 3] ++ if (s.mbx p m).command.part < 16 then [16 + (s.mbx p m).command.part] else []) = is) :
    ∃ t, exec (.attestQuote p m) s = .next t ∧ Answered p m 0 (evidence p ((s.mbx p m).command.params.take 32) is s) s t ∧
      OnlyBox p m s { t with free := s.free } ∧ t.free = s.free + 1 := by
  have same : evidence p ((s.mbx p m).command.params.take 32) is (takenUp p m s) = evidence p ((s.mbx p m).command.params.take 32) is s :=
    (congrArg (evidence p ((s.mbx p m).command.params.take 32) is) (takenUp_frame p m s) :)
  have ended := runCmd_ends run fun c u => (u.drew, .ok (evidence p (c.params.take 32)
    ([1, 2, 3] ++ if c.part < 16 then [16 + c.part] else []) u))
  dsimp only at ended
  rw [indices, same] at ended
  have sends : ((takenUp p m s).drew.port p).sends m = (s.port p).sends m := by rw [State.port_drew, takenUp_sends]
  obtain ⟨-, -, only⟩ := completeMailbox_spec (s := s) (.ok (evidence p ((s.mbx p m).command.params.take 32) is s)) sends
  have drawn : (takenUp p m s).drew.free = s.free + 1 := by cases p <;> rfl
  refine ⟨_, congrArg Host.Outcome.next ended, completeMailbox_answered _ sends (State.mbx_drew ..), ?_, ?_⟩
  · have ends := onlyBox_withFree only s.free
    have base : ({ (takenUp p m s).drew with free := s.free } : State) = takenUp p m s := by cases p <;> rfl
    rw [base] at ends
    exact onlyBox_trans (onlyBox_takenUp p m s) (State.updMbx_out ..) ends
  · obtain ⟨-, -, -, -, frame⟩ := only
    exact (congrArg State.free frame :).trans drawn

end

/-- Settles O50: each of the commands is a block of bytes, whose fields are read off. -/
theorem moduleQueries : Obligations.ModuleQueries := by
  intro p m s c
  refine ⟨fun run => ?_, fun run => ?_, fun run => faultLogRead_rule run, fun run => ?_, fun run => ?_, fun run => ?_, fun run => ?_⟩
  · obtain ⟨t, next, answered, only⟩ := asks_only (i := .identify p m) run rfl (congrArg (identifyBytes p) (takenUp_frame p m s) :)
    exact ⟨t, _, next, answered, only, identifyBytes_fields p s⟩
  · obtain ⟨t, next, answered, only⟩ := asks_only (i := .getHealth p m) run rfl (congrArg healthBytes (takenUp_frame p m s) :)
    exact ⟨t, _, next, answered, only, healthBytes_fields s⟩
  · obtain ⟨t, next, answered, only⟩ := asks_only (i := .repairStatus p m) run rfl (congrArg repairBytes (takenUp_frame p m s) :)
    exact ⟨t, _, next, answered, only, repairBytes_fields s⟩
  · obtain ⟨t, next, answered, only⟩ := asks_only (i := .partQuery p m) run rfl (congrArg queryBytes (part_takenUp p m c.part s) :)
    exact ⟨t, _, next, answered, only, queryBytes_fields _⟩
  · obtain ⟨t, next, answered, only⟩ := asks_only (i := .linkQuery p m) run rfl (congrArg linkBlock (takenUp_frame p m s) :)
    obtain ⟨length, count, bundle, link⟩ := linkBlock_fields s
    refine ⟨t, _, next, answered, only, length, count, fun b hb => ?_, fun l hl lanes => ?_⟩
    · rw [bundle b hb, bundleEntry_low]
    · rw [link l hl, linkEntry_low lanes]
  · generalize indices : ([1, 2, 3] ++ if c.part < 16 then [16 + c.part] else []) = is
    have count : is.length = if c.part < 16 then 4 else 3 := by
      rw [← indices]
      split <;> rfl
    have first (i : Nat) (hi : i < 3) : is[i]? = some (i + 1) := by
      rw [← indices, List.getElem?_append_left hi]
      interval_cases i <;> rfl
    obtain ⟨t, next, answered, only, free⟩ := attestQuote_ends run indices
    obtain ⟨length, form, number, port, nonce, cell⟩ := evidence_fields p (c.params.take 32) (is := is) (by rw [count]; split <;> omega) s
    rw [count] at length number
    refine ⟨t, _, next, answered, only, free, length, form, number, port, fun full => ?_, fun i hi => cell i _ (first i hi) (by omega)⟩
    have whole : c.params.take 32 = c.params := List.take_of_length_le full.le
    rw [whole] at nonce ⊢
    exact nonce full

end Sys2Proof.Machine
end

section
/-! PROOF. O51: the commands that set something of the module (R391, R399, R405, R408 to R410, R412). -/

namespace Sys2Proof.Machine

/-! The end of a command that has changed what is no port's. -/

theorem onlyBox_withHs {p : PortId} {m : Nat} {s t : State} (h : OnlyBox p m s t) (x : Headstock) :
    OnlyBox p m { s with hs := x } { t with hs := x } := by
  obtain ⟨port, boxes, other, out, rest⟩ := h
  exact ⟨port, boxes, other, out, (congrArg (fun z : State => { z with hs := x }) rest :)⟩

theorem onlyBox_withStore {p : PortId} {m : Nat} {s t : State} (h : OnlyBox p m s t) (k : SMap Stack) (f : Flash) :
    OnlyBox p m { s with hbms := k, flash := f } { t with hbms := k, flash := f } := by
  obtain ⟨port, boxes, other, out, rest⟩ := h
  exact ⟨port, boxes, other, out, (congrArg (fun z : State => { z with hbms := k, flash := f }) rest :)⟩

theorem onlyBox_withFlash {p : PortId} {m : Nat} {s t : State} (h : OnlyBox p m s t) (f : Flash) :
    OnlyBox p m { s with flash := f } { t with flash := f } := by
  obtain ⟨port, boxes, other, out, rest⟩ := h
  exact ⟨port, boxes, other, out, (congrArg (fun z : State => { z with flash := f }) rest :)⟩

/-- What a command has changed of the units stands at its end. -/
theorem onlyBox_kept {p : PortId} {m : Nat} {s t : State} (h : OnlyBox p m s t) :
    t.hs = s.hs ∧ t.parts = s.parts ∧ t.hbms = s.hbms ∧ t.flash = s.flash := by
  obtain ⟨-, -, -, -, rest⟩ := h
  exact ⟨(congrArg State.hs rest :), (congrArg State.parts rest :), (congrArg State.hbms rest :), (congrArg State.flash rest :)⟩

/-- Once taken up and ended: of the module, the mailbox alone. -/
theorem onlyBox_of_takenUp {p : PortId} {m : Nat} {s t : State} (h : OnlyBox p m (takenUp p m s) t) : OnlyBox p m s t :=
  onlyBox_trans (onlyBox_takenUp p m s) (State.updMbx_out ..) h

section
variable {i : Instr} {p : PortId} {m op : Nat} {s z : State} {f : Cmd → State → State × MbxResult} {r : MbxResult}
variable (run : toRun p m op s = true) (meaning : exec i s = .next (runCmd p m op f s))
variable (ran : f (s.mbx p m).command (takenUp p m s) = (z, r))
include run meaning ran

/-- A command that changes none of the ports, with its answer. -/
theorem sets_unit (ports : z.port p = (takenUp p m s).port p) :
    ∃ t, exec i s = .next t ∧ Answered p m r.status r.data s t ∧ OnlyBox p m z t := by
  obtain ⟨answered, only⟩ := unitsCommand_ends (s := s) (z := z) r (by rw [ports]; exact ⟨rfl, rfl, rfl, rfl⟩)
  refine ⟨_, meaning, ?_⟩
  rw [runCmd_ends run, ran]
  exact ⟨answered, only⟩

/-- A command that only answers. -/
theorem answers_status (still : z = takenUp p m s) : ∃ t, exec i s = .next t ∧ Answered p m r.status r.data s t ∧ OnlyBox p m s t := by
  obtain ⟨answered, only⟩ := answers_only run (f := f) (r := r) (by rw [ran, still])
  exact ⟨_, meaning, answered, only⟩

end

section
variable {p : PortId} {m : MbxId} {s : State}

/-- R391: the epoch marker. -/
theorem setEpoch_sets (run : toRun p m 0x0003 s = true) (first : firstEpoch p m s = true) :
    ∃ t, exec (.setEpoch p m) s = .next t ∧ Answered p m 0 (leBytes s.hs.epoch.toNat 8) s t ∧
      t.hs = { s.hs with epoch := BitVec.ofNat 64 ((s.mbx p m).command.field 0 8) } ∧ OnlyBox p m s { t with hs := s.hs } := by
  have hs : (takenUp p m s).hs = s.hs := State.updMbx_hs ..
  obtain ⟨t, next, answered, only⟩ := sets_unit (i := .setEpoch p m) run (congrArg Host.Outcome.next (if_pos first)) rfl
    (State.port_updHs ..)
  refine ⟨t, next, hs ▸ answered, ?_, ?_⟩
  · rw [(onlyBox_kept only).1, State.updHs_hs, hs]
  · have ends := onlyBox_withHs only s.hs
    rw [← hs] at ends
    exact hs ▸ onlyBox_of_takenUp ends

/-- A command that sets fields of one partition. -/
theorem sets_part {i : Instr} {op q : Nat} {f : Cmd → State → State × MbxResult} {g : Part → Part} {bs : List Byte}
    (run : toRun p m op s = true) (meaning : exec i s = .next (runCmd p m op f s))
    (ran : f (s.mbx p m).command (takenUp p m s) = ((takenUp p m s).updPart q g, .ok bs)) :
    ∃ t, exec i s = .next t ∧ Answered p m 0 bs s t ∧ t.part q = g (s.part q) ∧ (∀ j, j ≠ q → t.part j = s.part j) ∧
      OnlyBox p m s { t with parts := s.parts } := by
  have parts : (takenUp p m s).parts = s.parts := State.updMbx_parts ..
  obtain ⟨t, next, answered, only⟩ := sets_unit run meaning ran (State.port_updPart ..)
  have same := State.part_of (onlyBox_kept only).2.1
  refine ⟨t, next, answered, ?_, fun j hj => ?_, ?_⟩
  · rw [same, State.part_updPart, part_takenUp]
  · rw [same, State.part_updPart_ne _ hj, part_takenUp]
  · have ends := onlyBox_withParts only s.parts
    rw [← parts] at ends
    exact parts ▸ onlyBox_of_takenUp ends

/-- R399: the seed for the next turn. -/
theorem seedSet_sets (run : toRun p m 0x0016 s = true) :
    let c := (s.mbx p m).command
    let x := s.part c.part
    ∃ t, exec (.seedSet p m) s = .next t ∧
      Answered p m 0 (leBytes (x.seedNext.getD x.seed).toNat 8 ++ leBytes (x.turn + 1) 8) s t ∧
      t.part c.part = { x with seedNext := some (BitVec.ofNat 64 (c.field 0 8)) } ∧ (∀ i, i ≠ c.part → t.part i = s.part i) ∧
      OnlyBox p m s { t with parts := s.parts } := by
  intro c x
  have part : (takenUp p m s).part c.part = x := part_takenUp ..
  exact sets_part (g := fun x => { x with seedNext := some (BitVec.ofNat 64 (c.field 0 8)) }) run rfl (by rw [← part])

/-! The recorder's mode (R405). -/

/-- RECORD_CONFIG's run. -/
def recordConfigRun (c : Cmd) (s : State) : State × MbxResult :=
  let mode := c.field 0 1
  let va := c.field 8 8
  let len := c.field 16 8
  let x := s.part c.part
  if 2 < mode ∨ c.zero 1 7 = false then (s, .only stBadParameter)
  else if mode = 0 then
    (if va = 0 ∧ len = 0 then (s.updPart c.part fun x => { x with recNext := some (0, 0, 0) }, .ok [])
     else (s, .only stBadParameter))
  else if len < 0x200000 ∨ len % 0x200000 ≠ 0 ∨ inCapacity true x.regNext va len = false then (s, .only stBadParameter)
  else (s.updPart c.part fun x => { x with recNext := some (mode, va, len) }, .ok [])

/-- A mode and a ring that RECORD_CONFIG takes: OFF without a ring, or a mode with a ring in writable mappings. -/
def Cmd.recordable (c : Cmd) (gs : List Region) : Prop := c.zero 1 7 = true ∧
  ((c.field 0 1 = 0 ∧ c.field 8 8 = 0 ∧ c.field 16 8 = 0) ∨
    (1 ≤ c.field 0 1 ∧ c.field 0 1 ≤ 2 ∧ 0x200000 ≤ c.field 16 8 ∧ c.field 16 8 % 0x200000 = 0 ∧
      inCapacity true gs (c.field 8 8) (c.field 16 8) = true))

theorem recordConfigRun_good {c : Cmd} {s : State} (good : c.recordable (s.part c.part).regNext) : recordConfigRun c s =
    (s.updPart c.part fun x => { x with recNext := some (c.field 0 1, c.field 8 8, c.field 16 8) }, .ok []) := by
  obtain ⟨clear, ⟨mode, va, len⟩ | ⟨least, most, large, aligned, inside⟩⟩ := good
  · unfold recordConfigRun
    simp [clear, mode, va, len]
  · unfold recordConfigRun
    dsimp only
    rw [if_neg (by simp only [clear, Bool.true_eq_false, or_false]; omega), if_neg (by omega),
      if_neg (by simp only [inside, Bool.true_eq_false, or_false]; omega)]

theorem recordConfigRun_bad {c : Cmd} {s : State} (bad : ¬ c.recordable (s.part c.part).regNext) :
    recordConfigRun c s = (s, .only stBadParameter) := by
  unfold recordConfigRun
  dsimp only
  by_cases first : 2 < c.field 0 1 ∨ c.zero 1 7 = false
  · exact if_pos first
  rw [if_neg first]
  obtain ⟨most, clear⟩ := not_or.1 first
  rw [Bool.not_eq_false] at clear
  by_cases off : c.field 0 1 = 0
  · rw [if_pos off, if_neg]
    exact fun ring => bad ⟨clear, .inl ⟨off, ring⟩⟩
  · rw [if_neg off, if_pos]
    by_contra ring
    obtain ⟨large, rest⟩ := not_or.1 ring
    obtain ⟨aligned, inside⟩ := not_or.1 rest
    rw [Bool.not_eq_false] at inside
    exact bad ⟨clear, .inr ⟨by omega, by omega, by omega, not_not.1 aligned, inside⟩⟩

theorem recordConfig_sets (run : toRun p m 0x0040 s = true) :
    let c := (s.mbx p m).command
    let x := s.part c.part
    (c.recordable x.regNext → ∃ t, exec (.recordConfig p m) s = .next t ∧ Answered p m 0 [] s t ∧
      t.part c.part = { x with recNext := some (c.field 0 1, c.field 8 8, c.field 16 8) } ∧ OnlyBox p m s { t with parts := s.parts }) ∧
    (¬ c.recordable x.regNext → ∃ t, exec (.recordConfig p m) s = .next t ∧ Answered p m 0x03 [] s t ∧ OnlyBox p m s t) := by
  intro c x
  have part : (takenUp p m s).part c.part = x := part_takenUp ..
  have meaning : exec (.recordConfig p m) s = .next (runCmd p m 0x0040 recordConfigRun s) := rfl
  refine ⟨fun good => ?_, fun bad => ?_⟩
  · obtain ⟨t, next, answered, set, -, only⟩ := sets_part run meaning (recordConfigRun_good (by rw [part]; exact good))
    exact ⟨t, next, answered, set, only⟩
  · exact answers_status run meaning (recordConfigRun_bad (by rw [part]; exact bad)) rfl

/-! The lane plan (R412). -/

/-- LANE_PLAN_SET's run. -/
def lanePlanRun (gone : List Nat) (c : Cmd) (s : State) : State × MbxResult :=
  let roles := (List.range 64).map fun b => c.field (4 + b) 1
  if c.field 0 2 ≠ 64 ∨ c.zero 2 2 = false ∨ planOk roles gone = false then (s, .only stBadParameter)
  else (s.updFlash fun f => { f with plan := some roles }, .ok [])

/-- A command that writes the boot flash. -/
theorem sets_flash {i : Instr} {op : Nat} {f : Cmd → State → State × MbxResult} {g : Flash → Flash} {r : MbxResult}
    (run : toRun p m op s = true) (meaning : exec i s = .next (runCmd p m op f s))
    (ran : f (s.mbx p m).command (takenUp p m s) = ((takenUp p m s).updFlash g, r)) :
    ∃ t, exec i s = .next t ∧ Answered p m r.status r.data s t ∧ t.flash = g s.flash ∧ OnlyBox p m s { t with flash := s.flash } := by
  have flash : (takenUp p m s).flash = s.flash := State.updMbx_flash ..
  obtain ⟨t, next, answered, only⟩ := sets_unit run meaning ran (State.port_updFlash ..)
  refine ⟨t, next, answered, ?_, ?_⟩
  · rw [(onlyBox_kept only).2.2.2, ← flash]
    rfl
  · have ends := onlyBox_withFlash only s.flash
    rw [← flash] at ends
    exact flash ▸ onlyBox_of_takenUp ends

theorem lanePlanSet_sets (run : toRun p m 0x0070 s = true) :
    let c := (s.mbx p m).command
    let roles := (List.range 64).map fun b => c.field (4 + b) 1
    let good := c.field 0 2 = 64 ∧ c.zero 2 2 = true ∧ planOk roles (s.mbx p m).seen.retired = true
    (good → ∃ t, exec (.lanePlanSet p m) s = .next t ∧
      Answered p m 0 [] s t ∧ t.flash = { s.flash with plan := some roles } ∧ OnlyBox p m s { t with flash := s.flash }) ∧
    (¬ good → ∃ t, exec (.lanePlanSet p m) s = .next t ∧ Answered p m 0x03 [] s t ∧ OnlyBox p m s t) := by
  intro c roles good
  have meaning : exec (.lanePlanSet p m) s = .next (runCmd p m 0x0070 (lanePlanRun (s.mbx p m).seen.retired) s) := rfl
  have refused : (c.field 0 2 ≠ 64 ∨ c.zero 2 2 = false ∨ planOk roles (s.mbx p m).seen.retired = false) ↔ ¬ good := by
    simp only [good, not_and_or, Bool.not_eq_true, ne_eq]
  refine ⟨fun h => ?_, fun h => ?_⟩
  · exact sets_flash run meaning (if_neg fun bad => refused.1 bad h)
  · exact answers_status run meaning (if_pos (refused.2 h)) rfl

/-! Repairs appended (R408). -/

/-- The remaps of a stack as the boot flash records them. -/
def Stack.remapRecs (x : Stack) : List RemapRec := x.unpersist.map fun u => ⟨u.1, u.2.1, u.2.2⟩

/-- Every stack's waiting remaps appended. -/
def persistAll (l : List Nat) (s : State) : State := l.foldl (fun s k => persistRemaps k s) s

theorem persistRemaps_frame (k : Nat) (s : State) : { persistRemaps k s with hbms := s.hbms, flash := s.flash } = s ∧
    { (persistRemaps k s).flash with remaps := s.flash.remaps } = s.flash := ⟨rfl, rfl⟩

theorem persistRemaps_stack (k : Nat) (s : State) : (persistRemaps k s).stack k = { s.stack k with unpersist := [] } :=
  State.stack_updStack ..

theorem persistRemaps_flash (k : Nat) (s : State) :
    (persistRemaps k s).flash.remaps = SMap.upd [] k (· ++ (s.stack k).remapRecs) s.flash.remaps := rfl

theorem persistRemaps_remaps (k : Nat) (s : State) :
    SMap.get [] k (persistRemaps k s).flash.remaps = SMap.get [] k s.flash.remaps ++ (s.stack k).remapRecs := by
  rw [persistRemaps_flash, SMap.get_upd]

theorem persistRemaps_ne {k i : Nat} (h : i ≠ k) (s : State) : (persistRemaps k s).stack i = s.stack i ∧
    SMap.get [] i (persistRemaps k s).flash.remaps = SMap.get [] i s.flash.remaps :=
  ⟨State.stack_updStack_ne _ h _, by rw [persistRemaps_flash, SMap.get_upd_ne _ h]⟩

theorem persistAll_frame (l : List Nat) (s : State) : { persistAll l s with hbms := s.hbms, flash := s.flash } = s ∧
    { (persistAll l s).flash with remaps := s.flash.remaps } = s.flash := by
  induction l generalizing s with
  | nil => exact ⟨rfl, rfl⟩
  | cons a l ih =>
    obtain ⟨rest, flash⟩ := ih (persistRemaps a s)
    exact ⟨(congrArg (fun z : State => { z with hbms := s.hbms, flash := s.flash }) rest :),
      (congrArg (fun f : Flash => { f with remaps := s.flash.remaps }) flash :)⟩

theorem persistAll_of_not_mem {l : List Nat} {k : Nat} (h : k ∉ l) (s : State) : (persistAll l s).stack k = s.stack k ∧
    SMap.get [] k (persistAll l s).flash.remaps = SMap.get [] k s.flash.remaps := by
  induction l generalizing s with
  | nil => exact ⟨rfl, rfl⟩
  | cons a l ih =>
    obtain ⟨first, out⟩ := not_or.1 (List.mem_cons.not.1 h)
    obtain ⟨stack, remaps⟩ := ih out (persistRemaps a s)
    obtain ⟨stack', remaps'⟩ := persistRemaps_ne first s
    exact ⟨stack.trans stack', remaps.trans remaps'⟩

theorem persistAll_of_mem {l : List Nat} (nodup : l.Nodup) {k : Nat} (h : k ∈ l) (s : State) :
    ((persistAll l s).stack k).unpersist = [] ∧
    SMap.get [] k (persistAll l s).flash.remaps = SMap.get [] k s.flash.remaps ++ (s.stack k).remapRecs := by
  induction l generalizing s with
  | nil => cases h
  | cons a l ih =>
    obtain ⟨out, rest⟩ := List.nodup_cons.1 nodup
    by_cases first : k = a
    · obtain ⟨stack, remaps⟩ := persistAll_of_not_mem (first ▸ out : k ∉ l) (persistRemaps a s)
      rw [first] at stack remaps ⊢
      exact ⟨(congrArg Stack.unpersist (stack.trans (persistRemaps_stack a s)) :), remaps.trans (persistRemaps_remaps a s)⟩
    · obtain ⟨stack, remaps⟩ := ih rest ((List.mem_cons.1 h).resolve_left first) (persistRemaps a s)
      obtain ⟨stack', remaps'⟩ := persistRemaps_ne first s
      rw [remaps', Stack.remapRecs, stack'] at remaps
      exact ⟨stack, remaps⟩

/-- What waits to be appended. -/
def repairsWaiting (s : State) : Nat := ((List.range 8).map fun k => (s.stack k).unpersist.length).sum
  + (s.flash.pendCores.filter fun c => !s.flash.pendWritten.contains c).length

/-- REPAIR_COMMIT's run. -/
def repairCommitRun (_ : Cmd) (s : State) : State × MbxResult :=
  (persistCores (persistAll (List.range 8) s), .ok (padTo 8 (leBytes (repairsWaiting s) 4)))

theorem exec_repairCommit : exec (.repairCommit p m) s = .next (runCmd p m 0x0052 repairCommitRun s) := rfl

theorem repairCommit_sets (run : toRun p m 0x0052 s = true) :
    ∃ t bs, exec (.repairCommit p m) s = .next t ∧ Answered p m 0 bs s t ∧ bs.length = 8 ∧
      (∀ k, k < 8 → (t.stack k).unpersist = [] ∧
        SMap.get [] k t.flash.remaps = SMap.get [] k s.flash.remaps ++ (s.stack k).remapRecs) ∧
      t.flash.pendWritten = s.flash.pendCores ∧ t.flash.repair = s.flash.repair ∧
      OnlyBox p m s { t with hbms := s.hbms, flash := s.flash } := by
  have base := takenUp_frame p m s
  have flash : (takenUp p m s).flash = s.flash := (congrArg State.flash base :)
  have hbms : (takenUp p m s).hbms = s.hbms := (congrArg State.hbms base :)
  have stack (k : Nat) : (takenUp p m s).stack k = s.stack k := (congrArg (State.stack · k) base :)
  obtain ⟨rest, kept⟩ := persistAll_frame (List.range 8) (takenUp p m s)
  have each (k : Nat) (hk : k < 8) := persistAll_of_mem List.nodup_range (List.mem_range.2 hk) (takenUp p m s)
  have ran : repairCommitRun (s.mbx p m).command (takenUp p m s) = (persistCores (persistAll (List.range 8) (takenUp p m s)),
    .ok (padTo 8 (leBytes (repairsWaiting (takenUp p m s)) 4))) := rfl
  revert rest kept each ran
  generalize persistAll (List.range 8) (takenUp p m s) = z
  intro rest kept each ran
  have ports : (persistCores z).port p = (takenUp p m s).port p := (congrArg (State.port · p) rest :)
  obtain ⟨t, next, answered, only⟩ := sets_unit run exec_repairCommit ran ports
  obtain ⟨-, -, stacks', flash'⟩ := onlyBox_kept only
  have stack' (k : Nat) : t.stack k = z.stack k := State.stack_of stacks' k
  refine ⟨t, _, next, answered, length_padTo .., fun k hk => ?_, ?_, ?_, ?_⟩
  · obtain ⟨done, remaps⟩ := each k hk
    rw [flash, stack] at remaps
    rw [stack', flash']
    exact ⟨done, remaps⟩
  · rw [flash', ← flash]
    exact (congrArg Flash.pendCores kept :)
  · rw [flash', ← flash]
    exact (congrArg Flash.repair kept :)
  · have ends := onlyBox_withStore only s.hbms s.flash
    have back : ({ persistCores z with hbms := s.hbms, flash := s.flash } : State) = takenUp p m s := by
      rw [← hbms, ← flash]
      exact rest
    rw [back] at ends
    exact onlyBox_of_takenUp ends

/-! A firmware update (R409, R410, R471). -/

theorem Flash.slot_putSlot {n : Nat} (hn : n ≤ 1) (x : FwSlot) (f : Flash) :
    (f.putSlot n x).slot n = x ∧ (f.putSlot n x).slot (1 - n) = f.slot (1 - n) := by
  unfold Flash.putSlot Flash.slot
  interval_cases n <;> exact ⟨rfl, rfl⟩

theorem Flash.putSlot_frame (n : Nat) (x : FwSlot) (f : Flash) :
    { f.putSlot n x with slotA := f.slotA, slotB := f.slotB } = f := by
  unfold Flash.putSlot
  split <;> rfl

/-- The flash with an image written to slot n, named or made the floor as the flags ask. -/
def Flash.updated (n : Nat) (x : FwSlot) (flags : Nat) (f : Flash) : Flash :=
  let f := f.putSlot n x
  let f := if bitOf flags 0 then { f with active := some n } else f
  if bitOf flags 1 then { f with floorPend := some x.svn } else f

theorem Flash.updated_spec {n : Nat} (hn : n ≤ 1) (x : FwSlot) (flags : Nat) (f : Flash) :
    (f.updated n x flags).slot n = x ∧ (f.updated n x flags).slot (1 - n) = f.slot (1 - n) ∧
    (f.updated n x flags).floor = f.floor ∧ (f.updated n x flags).repair = f.repair ∧
    (f.updated n x flags).active = (if bitOf flags 0 then some n else f.active) ∧
    (f.updated n x flags).floorPend = (if bitOf flags 1 then some x.svn else f.floorPend) := by
  obtain ⟨here, other⟩ := f.slot_putSlot hn x
  have frame := f.putSlot_frame n x
  have floor : (f.putSlot n x).floor = f.floor := (congrArg Flash.floor frame :)
  have repair : (f.putSlot n x).repair = f.repair := (congrArg Flash.repair frame :)
  have active : (f.putSlot n x).active = f.active := (congrArg Flash.active frame :)
  have pend : (f.putSlot n x).floorPend = f.floorPend := (congrArg Flash.floorPend frame :)
  unfold Flash.updated
  dsimp only
  cases bitOf flags 0 <;> cases bitOf flags 1 <;>
    refine ⟨here, other, floor, repair, ?_, ?_⟩ <;> simp [active, pend]

/-- A range and flags that FW_UPDATE takes. -/
def Cmd.updates (c : Cmd) : Prop := 4096 ≤ c.field 8 4 ∧ c.field 8 4 ≤ 2 ^ 24 ∧ c.field 8 4 % 4096 = 0 ∧
  c.field 0 8 + c.field 8 4 ≤ 2 ^ 44 ∧ c.field 12 1 < 4 ∧ c.zero 13 3 = true

section
variable {c : Cmd} {z : State} (good : c.updates)
include good

theorem Cmd.updates_passes : ¬ (c.field 8 4 < 4096 ∨ 2 ^ 24 < c.field 8 4 ∨ c.field 8 4 % 4096 ≠ 0 ∨ 2 ^ 44 < c.field 0 8 + c.field 8 4 ∨
    4 ≤ c.field 12 1 ∨ c.zero 13 3 = false) := by
  obtain ⟨least, most, pages, below, flags, zero⟩ := good
  simp only [zero, Bool.true_eq_false, or_false]
  omega

theorem fwUpdateRun_fail (f : HostFail) : fwUpdateRun (.fail f) c z =
    (z.updFlash (Flash.putSlot (1 - z.flash.activeSlot) FwSlot.invalid), .only stHostLost) := if_neg (Cmd.updates_passes good)

theorem fwUpdateRun_rejects {bs : List Byte} (bad : ¬ ((slotOf bs).checks = 3 ∧ z.flash.floorNext ≤ (slotOf bs).svn))
    (whole : bs.length = c.field 8 4) : fwUpdateRun (.data bs) c z =
      (z.updFlash (Flash.putSlot (1 - z.flash.activeSlot) FwSlot.invalid), .only stAuthFailed) := by
  refine (if_neg (Cmd.updates_passes good)).trans ?_
  dsimp only
  rw [padTo_of_length whole]
  exact if_pos (by omega)

theorem fwUpdateRun_writes {bs : List Byte} (pass : (slotOf bs).checks = 3 ∧ z.flash.floorNext ≤ (slotOf bs).svn)
    (whole : bs.length = c.field 8 4) : fwUpdateRun (.data bs) c z =
      (z.updFlash (Flash.updated (1 - z.flash.activeSlot) (slotOf bs) (c.field 12 1)),
        .ok (padTo 16 (leBytes (1 - z.flash.activeSlot) 4 ++ leBytes (slotOf bs).svn 4 ++
          leBytes (z.flash.updated (1 - z.flash.activeSlot) (slotOf bs) (c.field 12 1)).floorNext 4))) := by
  refine (if_neg (Cmd.updates_passes good)).trans ?_
  dsimp only
  rw [padTo_of_length whole]
  exact if_neg (by omega)

end

/-- The block of FW_UPDATE (R410). -/
theorem updateBlock_fields (n svn floor : Nat) (hn : n ≤ 1) (hs : svn < 2 ^ 32) :
    let r := padTo 16 (leBytes n 4 ++ leBytes svn 4 ++ leBytes floor 4)
    r.length = 16 ∧ fieldAt r 0 4 = n ∧ fieldAt r 4 4 = svn ∧ fieldAt r 8 4 = floor % 2 ^ 32 := by
  have slot : n % 2 ^ 32 = n := Nat.mod_eq_of_lt (by omega)
  have fixed : svn % 2 ^ 32 = svn := Nat.mod_eq_of_lt hs
  have cell (o : Nat) (h : o + 4 ≤ 12) := fieldAt_padTo (bs := leBytes n 4 ++ leBytes svn 4 ++ leBytes floor 4) 16 (o := o) (n := 4)
    (by simp; omega) (by simp)
  refine ⟨length_padTo .., (cell 0 (by omega)).trans ?_, (cell 4 (by omega)).trans ?_, (cell 8 (by omega)).trans ?_⟩
  · simpa [fieldAt_append_left, fieldAt_leBytes] using slot
  · simpa [fieldAt_append_left, fieldAt_append_right, fieldAt_leBytes] using fixed
  · simp [fieldAt_append_right, fieldAt_leBytes]

theorem exec_fwUpdate (image : HostReply) : exec (.fwUpdate p m image) s = .next (runCmd p m 0x0060 (fwUpdateRun image) s) := rfl

theorem fwUpdate_answers {bs : List Byte} (run : toRun p m 0x0060 s = true) (good : ((s.mbx p m).command).updates)
    (whole : bs.length = (s.mbx p m).command.field 8 4) :
    let c := (s.mbx p m).command
    let n := 1 - s.flash.activeSlot
    ∃ t, exec (.fwUpdate p m (.data bs)) s = .next t ∧
      t.flash.slot (1 - n) = s.flash.slot (1 - n) ∧ t.flash.floor = s.flash.floor ∧ t.flash.repair = s.flash.repair ∧
      OnlyBox p m s { t with flash := s.flash } ∧
      if fwChecks bs = 3 ∧ s.flash.floorNext ≤ fieldAt bs 4 4 then
        (∃ r, Answered p m 0 r s t ∧ r.length = 16 ∧ fieldAt r 0 4 = n ∧ fieldAt r 4 4 = fieldAt bs 4 4 ∧
          fieldAt r 8 4 = t.flash.floorNext % 2 ^ 32) ∧
        t.flash.slot n = slotOf bs ∧ t.flash.active = (if bitOf (c.field 12 1) 0 then some n else s.flash.active) ∧
        t.flash.floorPend = (if bitOf (c.field 12 1) 1 then some (fieldAt bs 4 4) else s.flash.floorPend)
      else
        Answered p m 0x07 [] s t ∧ (t.flash.slot n).checks = 0 ∧ t.flash.active = s.flash.active ∧
          t.flash.floorPend = s.flash.floorPend := by
  intro c n
  have hn : n ≤ 1 := Nat.sub_le ..
  have flash : (takenUp p m s).flash = s.flash := State.updMbx_flash ..
  by_cases pass : fwChecks bs = 3 ∧ s.flash.floorNext ≤ fieldAt bs 4 4
  · obtain ⟨t, next, answered, wrote, only⟩ := sets_flash run (exec_fwUpdate _)
      (fwUpdateRun_writes good (bs := bs) (by rw [flash]; exact pass) whole)
    rw [flash] at wrote answered
    obtain ⟨here, other, floor, repair, active, pend⟩ := s.flash.updated_spec hn (slotOf bs) (c.field 12 1)
    rw [← wrote] at here other floor repair active pend answered
    have svn : (slotOf bs).svn < 2 ^ 32 :=
      (leNat_lt _).trans_le (Nat.pow_le_pow_right (by omega) (by rw [List.length_take]; omega) : _ ≤ 256 ^ 4)
    refine ⟨t, next, other, floor, repair, only, ?_⟩
    rw [if_pos pass]
    exact ⟨⟨_, answered, updateBlock_fields n _ _ hn svn⟩, here, active, pend⟩
  · obtain ⟨t, next, answered, wrote, only⟩ := sets_flash run (exec_fwUpdate _)
      (fwUpdateRun_rejects good (bs := bs) (by rw [flash]; exact pass) whole)
    rw [flash] at wrote
    obtain ⟨here, other⟩ := s.flash.slot_putSlot hn FwSlot.invalid
    have frame := s.flash.putSlot_frame n FwSlot.invalid
    rw [← wrote] at here other frame
    refine ⟨t, next, other, (congrArg Flash.floor frame :), (congrArg Flash.repair frame :), only, ?_⟩
    rw [if_neg pass, here]
    exact ⟨answered, rfl, (congrArg Flash.active frame :), (congrArg Flash.floorPend frame :)⟩

theorem fwUpdate_unanswered (run : toRun p m 0x0060 s = true) (good : ((s.mbx p m).command).updates) (f : HostFail) :
    ∃ t, exec (.fwUpdate p m (.fail f)) s = .next t ∧ Answered p m 0x0D [] s t ∧
      (t.flash.slot (1 - s.flash.activeSlot)).checks = 0 := by
  have flash : (takenUp p m s).flash = s.flash := State.updMbx_flash ..
  obtain ⟨t, next, answered, wrote, -⟩ := sets_flash run (exec_fwUpdate _) (fwUpdateRun_fail good f)
  rw [flash] at wrote
  obtain ⟨here, -⟩ := s.flash.slot_putSlot (Nat.sub_le 1 s.flash.activeSlot) FwSlot.invalid
  rw [← wrote] at here
  exact ⟨t, next, answered, (congrArg FwSlot.checks here :)⟩

end

/-- Settles O51, setting by setting. -/
theorem moduleSettings : Obligations.ModuleSettings := by
  intro p m s c x
  refine ⟨fun later => congrArg Host.Outcome.next (if_neg (by simp [later])), fun run first => setEpoch_sets run first, fun run => seedSet_sets run,
    fun run => recordConfig_sets run, fun run => repairCommit_sets run, fun run => lanePlanSet_sets run,
    fun run least most pages below flags zero _ => ?_⟩
  have good : c.updates := ⟨least, most, pages, below, flags, zero⟩
  exact ⟨fun bs whole => fwUpdate_answers run good whole, fun f => fwUpdate_unanswered run good f⟩

end Sys2Proof.Machine
end

section
/-! PROOF. O52: PART_CREATE of a partition that is not EMPTY, and the partition that an accepted one leaves (R364, R394). -/

namespace Sys2Proof.Machine

/-! The refusal at acceptance (R364). -/

theorem conflicts_rung (p : PortId) (m : Nat) (c : Cmd) (cls : Nat) (s : State) : conflicts p m c cls (rung p m s) = conflicts p m c cls s := by
  have same (e : PortId × Nat) (he : e ∈ otherMailboxes p m) : (rung p m s).mbx e.1 e.2 = s.mbx e.1 e.2 := by
    have other : e ≠ (p, m) := bne_iff_ne.1 (List.mem_filter.1 he).2
    refine rung_mbx_ne ?_ s
    by_contra both
    obtain ⟨port, box⟩ := not_or.1 both
    exact other (Prod.ext (not_not.1 port) (not_not.1 box))
  unfold conflicts
  refine Bool.eq_iff_iff.2 ?_
  simp only [List.any_eq_true]
  exact exists_congr fun e => and_congr_right fun he => by rw [same e he]

theorem acceptStatus_create {p : PortId} {m : Nat} {c : Cmd} {s : State} (op : c.op = 0x0010) (clear : c.clear = true)
    (plen : c.plen = 144 + 16 * c.field 5 1) (short : c.plen ≤ 4064) (part : c.part < 16) (up : s.modh ≠ .failed)
    (alone : conflicts p m c 1 s = false) (held : (s.part c.part).st ≠ .empty) : acceptStatus p m c s = some stNoResources := by
  have info : opInfo c.op c.params = some ⟨.p, .empty, 1, 144 + 16 * fieldAt c.params 5 1⟩ := by rw [op]; rfl
  have state : stateStatus .empty (s.part c.part) = some stNoResources := by
    unfold stateStatus
    cases st : (s.part c.part).st
    case empty => exact absurd st held
    all_goals rfl
  unfold acceptStatus
  rw [info]
  dsimp only
  rw [if_neg, if_neg (fun failed => up failed.1), if_neg (fun owned => owned.2.2.2.2 op), if_neg (by rw [alone]; decide),
    if_pos ⟨part, by rw [state]; rfl⟩, state]
  simp only [clear, PartUse.ok, part, decide_true, Bool.not_true, Bool.false_or, Bool.or_false, Bool.or_eq_true, decide_eq_true_eq, not_or]
  exact ⟨not_not.2 plen, by omega⟩

/-- The command of a mailbox once its doorbell has been accepted is what stands in its command area. -/
theorem rung_command (p : PortId) (m : Nat) (s : State) :
    ((rung p m s).mbx p m).command = ({ s.mbx p m with copy := (s.mbx p m).cmd } : Mbx).command := by
  obtain ⟨seen, box⟩ := rung_mbx p m s
  rw [box]
  rfl

theorem doorbell_creates_refused {p : PortId} {m : MbxId} {s : State} {c : Cmd}
    (here : ({ s.mbx p m with copy := (s.mbx p m).cmd } : Mbx).command = c) (reach : s.reaches p = true)
    (taken : doorbellTaken p m s = true) (op : c.op = 0x0010) (clear : c.clear = true) (plen : c.plen = 144 + 16 * c.field 5 1)
    (short : c.plen ≤ 4064) (part : c.part < 16) (up : s.modh ≠ .failed) (alone : conflicts p m c 1 s = false)
    (held : (s.part c.part).st ≠ .empty) :
    ∃ t, exec (.registerWrite (.bar0 p) (0x0100 + 0x20 * m) (leBytes 1 8)) s = .next t ∧
      (t.mbx p m).result = some ⟨0x06, []⟩ ∧ t.parts = s.parts ∧ t.cores = s.cores := by
  have frame := rung_frame p m s
  have hs := rung_hs p m s
  have command := (rung_command p m s).trans here
  have still := conflicts_rung p m c 1 s
  have next : exec (.registerWrite (.bar0 p) (0x0100 + 0x20 * m) (leBytes 1 8)) s = .next (ringMailbox p m s) := by
    rw [exec_registerWrite_bar0 reach, writeBar0_doorbell]
  rw [ringMailbox_taken taken] at next
  generalize rung p m s = z at frame hs command still next
  have parts : z.parts = s.parts := (congrArg State.parts frame :)
  have health : z.modh = s.modh := by
    unfold State.modh
    rw [hs]
  have status := acceptStatus_create (p := p) (m := m) (s := z) op clear plen short part (by rw [health]; exact up) (by rw [still]; exact alone)
    (by rw [State.part_of parts]; exact held)
  rw [command, status] at next
  refine ⟨_, next, ?_, (State.updMbx_parts ..).trans parts, (State.updMbx_cores ..).trans (congrArg State.cores frame :)⟩
  rw [State.mbx_updMbx]
  rfl

/-! The partition that is built (R394). -/

/-- A partition as it is created: CONFIGURED in turn 0, owned by its port, holding nothing. -/
structure Part.Created (p : PortId) (y : Part) : Prop where
  st : y.st = .configured
  turn : y.turn = 0
  owner : y.owner = p
  regions : y.regions = []
  regNext : y.regNext = []
  changes : y.changes = []
  windows : y.windows = []
  winNext : y.winNext = []
  streams : y.streams = []
  mode : y.recd.mode = 0
  recNext : y.recNext = none

/-- A port holds no BAR2 page of partition q. -/
def Port.NoPages (q : Nat) (x : Port) : Prop := ∀ e ∈ x.bar2, ∀ g, e.2 = some g → g.1 ≠ q

theorem dropPages_noPages (q : Nat) (x : Port) : (dropPages q x).NoPages q := by
  intro e he g hg same
  obtain ⟨-, keep⟩ := List.mem_filter.1 he
  rw [hg] at keep
  simp [same] at keep

theorem clearUnits_noPages (q : Nat) (s : State) (o : PortId) : ((clearUnits q s).port o).NoPages q := by
  obtain ⟨z, eq, -, -⟩ := clearUnits_eq q s
  rw [eq]
  cases o
  · exact dropPages_noPages q _
  · exact dropPages_noPages q _

theorem buildPart_created (q : Nat) (p : PortId) (c : PartCfg) (i : Image) (place : List (Nat × Nat)) (rep : Report) (seed : Word)
    (s : State) : ((buildPart q p c i place rep seed s).part q).Created p ∧ ∀ o, ((buildPart q p c i place rep seed s).port o).NoPages q := by
  obtain ⟨n, created, eq⟩ : ∃ n : Part, n.Created p ∧ buildPart q p c i place rep seed s = loadUnits q c i
      (n.hbmAt.foldl (fun s e => zeroHbm [] e.1 e.2 s) ((clearUnits q (endRecord q 3 s)).updPart q fun _ => n)) :=
    ⟨_, ⟨rfl, rfl, rfl, rfl, rfl, rfl, rfl, rfl, rfl, rfl, rfl⟩, rfl⟩
  have pages := clearUnits_noPages q (endRecord q 3 s)
  rw [eq]
  generalize clearUnits q (endRecord q 3 s) = x at pages ⊢
  obtain ⟨parts, portA, portB⟩ := zeroHbm_foldl_kept n.hbmAt (x.updPart q fun _ => n)
  generalize n.hbmAt.foldl (fun s e => zeroHbm [] e.1 e.2 s) (x.updPart q fun _ => n) = z at parts portA portB ⊢
  obtain ⟨loaded, loadedA, loadedB, -, -⟩ := loadUnits_spec q c i z
  refine ⟨?_, fun o => ?_⟩
  · rw [State.part_of loaded, State.part_of parts, State.part_updPart]
    exact created
  · have same : (loadUnits q c i z).port o = x.port o := by
      cases o
      · exact loadedA.trans portA
      · exact loadedB.trans portB
    rw [same]
    exact pages o

/-- A record that is accepted is built: every other outcome has a status of its own. -/
theorem configure_ok {q : Nat} {p : PortId} {bs : List Byte} {keep : Option Image} {s : State} : (configure q p bs keep s).2.1 = 0 →
    ((configure q p bs keep s).1.part q).Created p ∧ ∀ o, ((configure q p bs keep s).1.port o).NoPages q := by
  have fails {st : Nat} {A : Prop} (h : st ≠ 0) (ok : st = 0) : A := absurd ok h
  unfold configure
  dsimp only
  split
  · exact fails (by decide : stBadParameter ≠ 0)
  split
  · exact fails (by decide : stBadParameter ≠ 0)
  split
  · exact fails (by decide : stNoResources ≠ 0)
  split
  · exact fails (by decide : stNoResources ≠ 0)
  split
  · exact fails (by decide : stNoResources ≠ 0)
  split
  · exact fun _ => buildPart_created ..
  · exact fails (by decide : stDeadline ≠ 0)

/-- PART_CREATE's end shows its status, and leaves the partition and the pages as the command has made them (R365). -/
theorem partCreate_ends {p : PortId} {m : MbxId} {s : State} (run : toRun p m 0x0010 s = true) :
    ∃ t, exec (.partCreate p m) s = .next t ∧ ((t.mbx p m).lastStat = 0 →
      (t.part (s.mbx p m).command.part).Created p ∧ ∀ o, (t.port o).NoPages (s.mbx p m).command.part) := by
  have ended := runCmd_ends run (configCmd p none)
  have ok := configure_ok (q := (s.mbx p m).command.part) (p := p) (bs := (s.mbx p m).command.params) (keep := none) (s := takenUp p m s)
  have parts : configCmd p none (s.mbx p m).command (takenUp p m s) =
      ((configure (s.mbx p m).command.part p (s.mbx p m).command.params none (takenUp p m s)).1,
        ⟨(configure (s.mbx p m).command.part p (s.mbx p m).command.params none (takenUp p m s)).2.1,
         (configure (s.mbx p m).command.part p (s.mbx p m).command.params none (takenUp p m s)).2.2⟩) := rfl
  rw [parts] at ended
  generalize configure (s.mbx p m).command.part p (s.mbx p m).command.params none (takenUp p m s) = x at ended ok
  obtain ⟨z, st, bs⟩ := x
  dsimp only at ended ok
  obtain ⟨box, -, only⟩ := completeMailbox_spec (p := p) (m := m) (s := z) (z := z) ⟨st, bs⟩ rfl
  refine ⟨_, congrArg Host.Outcome.next ended, fun status => ?_⟩
  rw [box] at status
  obtain ⟨created, pages⟩ := ok status
  obtain ⟨unitParts, -, -⟩ := onlyBox_units only
  refine ⟨State.part_of unitParts _ ▸ created, fun o => ?_⟩
  obtain ⟨port, -, other, -, -⟩ := only
  have bar2 : ((completeMailbox p m ⟨st, bs⟩ z).port o).bar2 = (z.port o).bar2 := by
    by_cases same : o = p
    · rw [same]
      exact (congrArg Port.bar2 port :)
    · have far : o = otherPort p := by cases o <;> cases p <;> simp [otherPort] at same ⊢
      rw [far, other]
  unfold Port.NoPages
  rw [bar2]
  exact pages o

/-- Settles O52: the checks of R364 in their order, and the partition as it is built. -/
theorem createdPartition : Obligations.CreatedPartition := by
  intro p m s
  refine ⟨fun reach taken op clear plen short part up alone held =>
    doorbell_creates_refused rfl reach taken op clear plen short part up alone held, fun run => ?_⟩
  obtain ⟨t, next, ends⟩ := partCreate_ends run
  refine ⟨t, next, fun status => ?_⟩
  obtain ⟨⟨st, turn, owner, regions, regNext, changes, windows, winNext, streams, mode, recNext⟩, pages⟩ := ends status
  exact ⟨st, turn, owner, regions, regNext, changes, windows, winNext, streams, mode, recNext, pages⟩

end Sys2Proof.Machine
end

section
/-! PROOF. O56: what HM_DIE_RESET leaves of the other dies (R379, R425, R268). -/

namespace Sys2Proof.Machine

/-- A move of die 1's bulk mover that has counted a zeroed word. -/
def countedBulkMove : MoveJob := { MoveJob.given 0 0 0 0 0 [] [] with zeroT := 1 }

/-- The module running, HM_DIE_RESET of die 0 in the hard mailbox of port a, and partition 0 RUNNING on core 0 with a move in the bulk
mover of die 1. -/
def countedBulkState : State :=
  { State.reset with
    power := { State.reset.power with modReset := false }
    hs := { State.reset.hs with bootDone := true }
    portA := { Port.reset with hmb := { Hmb.reset with state := 1, op := 3 } }
    parts := [(0, { Part.reset with st := .running, place := [(0, 0)] })]
    dies := [(1, { Die.reset with bulk := [(0, { Bulk.reset with moves := [countedBulkMove] })] })] }

/-- The counts of partition 0's moves in the bulk mover of a die. -/
def bulkCounts (d : Nat) (s : State) : List Nat := (s.bulkOf d 0).moves.map MoveJob.zeroT

/-- The counts in a command's next state. -/
def countsAfter (d : Nat) : Answer → List Nat
  | .next t => bulkCounts d t
  | _ => []

theorem countedBulkState_counts : bulkCounts 1 countedBulkState = [1] := by decide +kernel

theorem hmDieReset_takes_counts : countsAfter 1 (exec (.hmDieReset .a) countedBulkState) = [0] := by decide +kernel

/-- Refutes O56: HM_DIE_RESET of die 0 stops the partitions that hold a group on it, and a stop makes the entries of all moves of its
partition (R268), those of the bulk movers of the other dies too, and with that takes their counts; so the clause that no other die
differs fails. In `countedBulkState` die 1's bulk mover holds a move of the stopped partition that has counted a zeroed word. -/
theorem not_hardMailbox : ¬ Obligations.HardMailbox := by
  unfold Obligations.HardMailbox
  intro h
  obtain ⟨operations, -⟩ := h .a countedBulkState
  obtain ⟨-, -, dieReset, -⟩ := operations rfl
  obtain ⟨-, -, reset⟩ := dieReset rfl
  obtain ⟨t, next, -, -, others, -⟩ := reset rfl (Nat.zero_le 11)
  have taken := hmDieReset_takes_counts
  rw [next] at taken
  have kept : bulkCounts 1 t = bulkCounts 1 countedBulkState :=
    congrArg (fun x : Die => (SMap.get Bulk.reset 0 x.bulk).moves.map MoveJob.zeroT) (others 1 Nat.one_ne_zero)
  exact absurd (taken.symm.trans (kept.trans countedBulkState_counts)) (by decide)

end Sys2Proof.Machine
end

section
/-! PROOF. O43: re-admission, and the completion of a route change (R274, R346, R352, R353, R443). -/

namespace Sys2Proof.Machine

/-! What a re-admission is judged by stays as partitions are re-admitted. -/

/-- Lanes, links, lost dies and spare rows are as they were, and health with the request. -/
structure State.JudgedAlike (s t : State) : Prop where
  lanes : t.lanes = s.lanes
  links : t.links = s.links
  fenced : ∀ d, (t.die d).fenced = (s.die d).fenced
  spare : ∀ c, (t.core c).spareRow = (s.core c).spareRow
  health : t.hs.health = s.hs.health
  readmit : t.hs.readmit = s.hs.readmit

namespace State.JudgedAlike

variable {s t u : State}

theorem refl (s : State) : s.JudgedAlike s := ⟨rfl, rfl, fun _ => rfl, fun _ => rfl, rfl, rfl⟩

theorem trans (h : s.JudgedAlike t) (k : t.JudgedAlike u) : s.JudgedAlike u :=
  ⟨k.lanes.trans h.lanes, k.links.trans h.links, fun d => (k.fenced d).trans (h.fenced d), fun c => (k.spare c).trans (h.spare c),
    k.health.trans h.health, k.readmit.trans h.readmit⟩

theorem updPart (q : Nat) (f : Part → Part) (s : State) : s.JudgedAlike (s.updPart q f) := ⟨rfl, rfl, fun _ => rfl, fun _ => rfl, rfl, rfl⟩

theorem drew (s : State) : s.JudgedAlike s.drew := ⟨rfl, rfl, fun _ => rfl, fun _ => rfl, rfl, rfl⟩

theorem of_stop (only : s.StopOnly t) (cores : s.CoresStopKept t) : s.JudgedAlike t :=
  ⟨(congrArg State.lanes only.rest :), only.links_eq, fun d => (congrArg Die.fenced (only.die d) :), fun c => (cores c).kept.spareRow,
    (congrArg Headstock.health only.hs :), only.readmit_eq⟩

theorem stopWithin (q : Nat) (st : PartSt) (a o : Nat) (s : State) : s.JudgedAlike (stopWithin q st a o s) :=
  of_stop (stopWithin_stopOnly q st a o s (.refl s)) (stopWithin_cores q st a o s)

theorem notifyPart (k q : Nat) (s : State) : s.JudgedAlike (notifyPart k q s) :=
  of_stop (notifyPart_stopOnly k q s (.refl s)) ((CoresStopKept.refl s).notifyPart k q)

theorem ite {p : Prop} [Decidable p] (h : s.JudgedAlike t) (k : s.JudgedAlike u) : s.JudgedAlike (if p then t else u) := by
  split
  · exact h
  · exact k

/-! The judgement. -/

theorem lostDie (h : s.JudgedAlike t) (x : Part) : x.lostDie t = x.lostDie s := by
  unfold Part.lostDie
  simp only [h.fenced]

theorem capsOf (h : s.JudgedAlike t) (c : PartCfg) (hops : Nat) : capsOf c hops t = capsOf c hops s := by
  have lane (b : Nat) : t.lane b = s.lane b := congrArg (SMap.get Bundle.reset b) h.lanes
  have link : t.link = s.link := funext fun l => congrArg (SMap.get Link.reset l) h.links
  unfold Machine.capsOf minCap minLinkRate
  simp only [lane, link]

theorem spareOfPlace (h : s.JudgedAlike t) (l : List (Nat × Nat)) : spareOfPlace l t = spareOfPlace l s :=
  funext fun _ => by unfold Machine.spareOfPlace; rw [h.spare]

end State.JudgedAlike

/-! One partition (R346, R352, R353). -/

/-- What a re-admission with new capacities k makes of a partition x that holds no lost die. -/
structure Part.Readmitted (k : Caps) (ok : Bool) (x y : Part) : Prop where
  revokes : x.st = .running → ok = false → y.revoked = true ∧ y.st = .stopped ∧ y.stopStat = stRevoked
  goesOn : x.st = .running → ok = true → y.st = .running ∧ y.capsNext = some k ∧ y.revoked = x.revoked
  takes : x.st ≠ .running → ok = true ∨ x.st = .faulted → y.st = x.st ∧ y.caps = k ∧ y.capsNext = none ∧ y.revoked = x.revoked
  refuses : x.st ≠ .running → x.st ≠ .faulted → ok = false → y.st = x.st ∧ y.revoked = true

/-- A stop leaves the mark of a revoked admission. -/
theorem stopWithin_revoked (q : Nat) (st : PartSt) (a o : Nat) (s : State) (run : (s.part q).st = .running) :
    ((stopWithin q st a o s).part q).revoked = (s.part q).revoked := by
  unfold stopWithin
  dsimp only
  rw [if_pos run, quiet_part, finishStop_part_self, logEvent_part, State.part_updPart, stopUnits_part]
  rfl

section
variable {s : State} {q : Nat} {c : PartCfg} {i : Image}

theorem readmit_lost (cfg : (s.part q).cfg = some c) (img : (s.part q).img = some i) (lost : (s.part q).lostDie s = true) :
    readmit s q = s := by
  unfold readmit
  dsimp only
  rw [cfg, img]
  exact if_pos lost

theorem readmit_judgedAlike (s : State) (q : Nat) : s.JudgedAlike (readmit s q) := by
  have reported (f : Part → Part) : s.JudgedAlike (s.drew.updPart q f) := (State.JudgedAlike.drew s).trans (.updPart q f _)
  unfold readmit
  dsimp only
  split
  · refine .ite (.refl s) (.ite ((reported _).trans (.updPart ..)) ?_)
    have revoked (f g : Part → Part) := (reported f).trans (.updPart q g _)
    exact .ite ((revoked _ _).trans (.stopWithin ..)) (.ite (revoked _ _) ((revoked _ _).trans (.notifyPart ..)))
  · exact .refl s

theorem readmit_part_ne {j : Nat} (h : j ≠ q) (s : State) : (readmit s q).part j = s.part j := by
  have reported (f : Part → Part) : (s.drew.updPart q f).part j = s.part j := State.part_updPart_ne s.drew h f
  have twice (f g : Part → Part) : ((s.drew.updPart q f).updPart q g).part j = s.part j := (State.part_updPart_ne _ h g).trans (reported f)
  unfold readmit
  dsimp only
  split
  · split
    · rfl
    split
    · exact twice ..
    split
    · exact (stopWithin_part_ne h ..).trans (twice ..)
    split
    · exact twice ..
    · rw [notifyPart_part]
      exact twice ..
  · rfl

/-- Admission decides what a re-admission makes of a partition that holds no lost die. -/
theorem readmit_part (cfg : (s.part q).cfg = some c) (img : (s.part q).img = some i) (whole : (s.part q).lostDie s = false) :
    let k := capsOf c (s.part q).caps.hops s
    Part.Readmitted k (admitPartition c i k (spareOfPlace (s.part q).place s)).ok (s.part q) ((readmit s q).part q) := by
  intro k
  unfold readmit
  dsimp only
  rw [cfg, img]
  dsimp only
  rw [if_neg (by rw [whole]; decide)]
  generalize admitPartition c i k (spareOfPlace (s.part q).place s) = v
  have reported : (s.drew.updPart q fun x => { x with report := v.report s.freeVal }).part q = { s.part q with report := v.report s.freeVal } :=
    State.part_updPart ..
  generalize (s.drew.updPart q fun x => { x with report := v.report s.freeVal }) = z at reported ⊢
  by_cases taken : v.ok = true ∨ (s.part q).st = .faulted
  · rw [if_pos taken, State.part_updPart, reported]
    by_cases run : (s.part q).st = .running
    · have ok : v.ok = true := taken.resolve_right fun faulted => by rw [run] at faulted; cases faulted
      rw [if_pos run]
      exact ⟨fun _ bad => absurd (ok.symm.trans bad) (by decide), fun _ _ => ⟨run, rfl, rfl⟩, fun idle => absurd run idle, fun idle => absurd run idle⟩
    · rw [if_neg run]
      exact ⟨fun no => absurd no run, fun no => absurd no run, fun _ _ => ⟨rfl, rfl, rfl, rfl⟩,
        fun _ live bad => absurd taken (by simp [bad, live])⟩
  · obtain ⟨bad, live⟩ := not_or.1 taken
    have marked : (z.updPart q fun x => { x with revoked := true }).part q = { s.part q with report := v.report s.freeVal, revoked := true } := by
      rw [State.part_updPart, reported]
    rw [if_neg taken]
    generalize (z.updPart q fun x => { x with revoked := true }) = y at marked ⊢
    by_cases run : (s.part q).st = .running
    · have runs : (y.part q).st = .running := by rw [marked]; exact run
      obtain ⟨st, stat, -⟩ := stopWithin_part q .stopped stRevoked 0 y runs (by simp)
      have revoked := stopWithin_revoked q .stopped stRevoked 0 y runs
      rw [marked] at revoked
      rw [if_pos run]
      exact ⟨fun _ _ => ⟨revoked, st, stat⟩, fun _ ok => absurd ok bad, fun idle => absurd run idle, fun idle => absurd run idle⟩
    · have still : (if (s.part q).revoked = true then y else notifyPart 2 q y).part q = y.part q := by
        split
        · rfl
        · exact notifyPart_part ..
      rw [if_neg run, still, marked]
      exact ⟨fun no => absurd no run, fun no => absurd no run, fun _ ok => absurd ok taken, fun _ _ _ => ⟨rfl, rfl⟩⟩

end

/-! All partitions, one after the other (R352). -/

/-- The partitions of a list re-admitted. -/
def readmitAll (l : List Nat) (s : State) : State := l.foldl readmit s

theorem readmitAll_judgedAlike (l : List Nat) (s : State) : s.JudgedAlike (readmitAll l s) := by
  induction l generalizing s with
  | nil => exact .refl s
  | cons a l ih => exact (readmit_judgedAlike s a).trans (ih _)

theorem readmitAll_part_of_not_mem {q : Nat} {l : List Nat} (h : q ∉ l) (s : State) : (readmitAll l s).part q = s.part q := by
  induction l generalizing s with
  | nil => rfl
  | cons a l ih =>
    obtain ⟨first, out⟩ := not_or.1 (List.mem_cons.not.1 h)
    exact (ih out _).trans (readmit_part_ne first s)

/-- A partition is judged once, by what stood before all re-admissions. -/
theorem readmitAll_part {q : Nat} {l : List Nat} (nodup : l.Nodup) (hq : q ∈ l) {s : State} {c : PartCfg} {i : Image}
    (cfg : (s.part q).cfg = some c) (img : (s.part q).img = some i) :
    ((s.part q).lostDie s = true → (readmitAll l s).part q = s.part q) ∧
    ((s.part q).lostDie s = false → Part.Readmitted (capsOf c (s.part q).caps.hops s)
      (admitPartition c i (capsOf c (s.part q).caps.hops s) (spareOfPlace (s.part q).place s)).ok (s.part q) ((readmitAll l s).part q)) := by
  obtain ⟨before, after, rfl⟩ := List.append_of_mem hq
  obtain ⟨out, -⟩ := List.nodup_middle.1 nodup |> List.nodup_cons.1
  have alike := readmitAll_judgedAlike before s
  have reached := readmitAll_part_of_not_mem (fun k => out (List.mem_append_left _ k) : q ∉ before) s
  have left (z : State) := readmitAll_part_of_not_mem (fun k => out (List.mem_append_right _ k) : q ∉ after) z
  have order : readmitAll (before ++ q :: after) s = readmitAll after (readmit (readmitAll before s) q) := by
    unfold readmitAll
    rw [List.foldl_append, List.foldl_cons]
  rw [order, left]
  generalize readmitAll before s = z at alike reached
  rw [← alike.lostDie, ← alike.capsOf, ← alike.spareOfPlace, ← reached]
  rw [← reached] at cfg img
  exact ⟨fun lost => (congrArg (State.part · q) (readmit_lost cfg img lost) :), fun whole => readmit_part cfg img whole⟩

theorem exec_degradationReadmission {s : State} (on : s.running = true) (fw : s.hs.fwRun = true) (asked : s.hs.readmit = true)
    (routes : s.hs.routeHold = []) :
    exec .degradationReadmission s = .next (readmitAll allParts (s.updHs fun h => { h with readmit := false })) :=
  congrArg Host.Outcome.next (if_pos (by simp [on, fw, asked, routes]))

/-! The completion of a route change (R274, R443, R447). -/

/-- Bundle b is retired and stands in the repair record. -/
structure State.BundleGone (b : Nat) (s : State) : Prop where
  retired : (s.lane b).retired = true
  retiring : (s.lane b).retiring = false
  recorded : b ∈ s.flash.repair.bundles

theorem retireBundle_lanes (s : State) (b : Nat) : (retireBundle s b).lanes =
    (s.updLane b fun x => { x with retired := true, retiring := false, swaps := [] }).lanes := by
  unfold retireBundle laneDone degradation
  dsimp only
  split <;> rfl

theorem retireBundle_bundles (s : State) (b : Nat) :
    (retireBundle s b).flash.repair.bundles = s.flash.repair.bundles ++ [b] := by
  unfold retireBundle laneDone degradation
  dsimp only
  split <;> rfl

theorem retireBundle_gone (s : State) (b : Nat) : (retireBundle s b).BundleGone b := by
  have lane := State.lane_of (retireBundle_lanes s b) b
  rw [State.lane_updLane] at lane
  refine ⟨by rw [lane], by rw [lane], ?_⟩
  rw [retireBundle_bundles]
  exact List.mem_append_right _ (List.mem_singleton.2 rfl)

theorem retireBundle_lane_ne {b i : Nat} (h : i ≠ b) (s : State) : (retireBundle s b).lane i = s.lane i :=
  (State.lane_of (retireBundle_lanes s b) i).trans (State.lane_updLane_ne s h _)

theorem retireBundle_keeps {b i : Nat} {s : State} (h : s.BundleGone i) : (retireBundle s b).BundleGone i := by
  by_cases e : i = b
  · rw [e]
    exact retireBundle_gone s b
  · obtain ⟨retired, retiring, recorded⟩ := h
    have lane := retireBundle_lane_ne e s
    refine ⟨by rw [lane, retired], by rw [lane, retiring], ?_⟩
    rw [retireBundle_bundles]
    exact List.mem_append_left _ recorded

theorem retireAll_gone {l : List Nat} {b : Nat} {s : State} (h : b ∈ l ∨ s.BundleGone b) : (l.foldl retireBundle s).BundleGone b := by
  induction l generalizing s with
  | nil => exact h.resolve_left fun no => nomatch no
  | cons a l ih =>
    refine ih ?_
    by_cases e : b = a
    · rw [e]
      exact .inr (retireBundle_gone s a)
    · exact h.imp (fun here => (List.mem_cons.1 here).resolve_left e) retireBundle_keeps

theorem retireAll_lane_of_not_mem {l : List Nat} {b : Nat} (h : b ∉ l) (s : State) : (l.foldl retireBundle s).lane b = s.lane b := by
  induction l generalizing s with
  | nil => rfl
  | cons a l ih =>
    obtain ⟨first, out⟩ := not_or.1 (List.mem_cons.not.1 h)
    exact (ih out _).trans (retireBundle_lane_ne first s)

/-- Roles given anew leave what is retired, and the boot flash. -/
structure State.RolesOnly (s t : State) : Prop where
  retired : ∀ b, (t.lane b).retired = (s.lane b).retired
  retiring : ∀ b, (t.lane b).retiring = (s.lane b).retiring
  flash : t.flash = s.flash

theorem State.RolesOnly.trans {s t u : State} (h : s.RolesOnly t) (k : t.RolesOnly u) : s.RolesOnly u :=
  ⟨fun b => (k.retired b).trans (h.retired b), fun b => (k.retiring b).trans (h.retiring b), k.flash.trans h.flash⟩

theorem giveRole_rolesOnly (role : Nat) (s : State) (c : Nat) : s.RolesOnly (giveRole role s c) := by
  have given (b : Nat) : s.RolesOnly (s.updLane b fun x => { x with role := role }) := by
    refine ⟨fun i => ?_, fun i => ?_, rfl⟩ <;> by_cases e : i = b
    · rw [e, State.lane_updLane]
    · rw [State.lane_updLane_ne s e]
    · rw [e, State.lane_updLane]
    · rw [State.lane_updLane_ne s e]
  unfold giveRole
  split
  · split
    · exact given _
    · exact ⟨fun _ => rfl, fun _ => rfl, rfl⟩
  · exact ⟨fun _ => rfl, fun _ => rfl, rfl⟩

theorem giveRoles_rolesOnly (s : State) : s.RolesOnly (giveRoles s) := by
  have fold (role : Nat) (l : List Nat) (z : State) : z.RolesOnly (l.foldl (giveRole role) z) := by
    induction l generalizing z with
    | nil => exact ⟨fun _ => rfl, fun _ => rfl, rfl⟩
    | cons a l ih => exact (giveRole_rolesOnly role z a).trans (ih _)
  exact (fold 3 _ s).trans (fold 0 _ _)

/-- Lanes, boot flash and held spurs are as they were. -/
structure State.RoutesKept (s t : State) : Prop where
  lanes : t.lanes = s.lanes
  flash : t.flash = s.flash
  routeHold : t.hs.routeHold = s.hs.routeHold

theorem State.RoutesKept.trans {s t u : State} (h : s.RoutesKept t) (k : t.RoutesKept u) : s.RoutesKept u :=
  ⟨k.lanes.trans h.lanes, k.flash.trans h.flash, k.routeHold.trans h.routeHold⟩

theorem putHops_routesKept (hops : List (PartId × Nat)) (s : State) : s.RoutesKept (hops.foldl putHops s) := by
  induction hops generalizing s with
  | nil => exact ⟨rfl, rfl, rfl⟩
  | cons e hops ih => exact State.RoutesKept.trans (t := putHops s e) ⟨rfl, rfl, rfl⟩ (ih _)

theorem setHealth_routesKept (h : Health) (s : State) : s.RoutesKept (setHealth h s) := by
  have frame := setHealth_frame h s
  refine ⟨(congrArg State.lanes frame :), (congrArg State.flash frame :), ?_⟩
  unfold setHealth
  dsimp only
  split <;> rfl

theorem State.StopOnly.routesKept {s t : State} (h : s.StopOnly t) : s.RoutesKept t :=
  ⟨(congrArg State.lanes h.rest :), h.flash_eq, (congrArg Headstock.routeHold h.hs :)⟩

theorem enterFailed_routesKept (s : State) : s.RoutesKept (enterFailed s) :=
  (setHealth_routesKept .failed s).trans (enterFailed_stopOnly s).routesKept

theorem updateHealth_routesKept (s : State) : s.RoutesKept (updateHealth s) := by
  rcases updateHealth_cases s with same | ⟨h, same⟩ <;> rw [same]
  · exact ⟨rfl, rfl, rfl⟩
  · exact setHealth_routesKept h s

/-- The bundles that are being retired. -/
def retiringBundles (s : State) : List Nat := (List.range 64).filter fun b => (s.lane b).retiring

theorem mem_retiringBundles {s : State} {b : Nat} (hb : b < 64) : b ∈ retiringBundles s ↔ (s.lane b).retiring = true := by
  unfold retiringBundles
  simp [hb]

/-- The module with the retiring bundles retired, roles given anew, the spurs released and the new hops in force. -/
def rerouted (hops : List (PartId × Nat)) (s : State) : State :=
  hops.foldl putHops ((giveRoles ((retiringBundles s).foldl retireBundle s)).updHs fun h => { h with routeHold := [] })

theorem exec_routeChangeComplete {hops : List (PartId × Nat)} {s : State} (on : s.running = true) (fw : s.hs.fwRun = true)
    (opened : s.hs.routeHold ≠ [] ∨ ∃ b, b < 64 ∧ (s.lane b).retiring = true) (quiet : holdersQuiet s = true) :
    exec (.routeChangeComplete hops) s =
      .next (if (rerouted hops s).cutOff then enterFailed (rerouted hops s) else updateHealth (rerouted hops s)) := by
  have work : (!(retiringBundles s).isEmpty || !s.hs.routeHold.isEmpty) = true := by
    rw [Bool.or_eq_true, Bool.not_eq_true', Bool.not_eq_true', List.isEmpty_eq_false_iff, List.isEmpty_eq_false_iff]
    exact opened.symm.imp_left fun ⟨b, hb, h⟩ => List.ne_nil_of_mem ((mem_retiringBundles hb).2 h)
  exact congrArg Host.Outcome.next (if_pos (by rw [on, fw, quiet, Bool.true_and, Bool.true_and, Bool.and_true]; exact work))

theorem rerouted_spec (hops : List (PartId × Nat)) (s : State) : (rerouted hops s).hs.routeHold = [] ∧
    (∀ b, b < 64 → (s.lane b).retiring = true → (rerouted hops s).BundleGone b) ∧
    (∀ b, b < 64 → (s.lane b).retiring = false → ((rerouted hops s).lane b).retired = (s.lane b).retired) := by
  have gone (b : Nat) (h : b ∈ retiringBundles s) := retireAll_gone (s := s) (.inl h)
  have kept (b : Nat) (h : b ∉ retiringBundles s) := retireAll_lane_of_not_mem h s
  unfold rerouted
  generalize (retiringBundles s).foldl retireBundle s = z at gone kept ⊢
  have roles := giveRoles_rolesOnly z
  generalize giveRoles z = y at roles ⊢
  have routes := putHops_routesKept hops (y.updHs fun h => { h with routeHold := [] })
  generalize hops.foldl putHops (y.updHs fun h => { h with routeHold := [] }) = x at routes ⊢
  have lane (b : Nat) : x.lane b = y.lane b := State.lane_of routes.lanes b
  have flash : x.flash = z.flash := routes.flash.trans roles.flash
  refine ⟨routes.routeHold, fun b hb h => ?_, fun b hb h => ?_⟩
  · obtain ⟨retired, retiring, recorded⟩ := gone b ((mem_retiringBundles hb).2 h)
    exact ⟨by rw [lane, roles.retired, retired], by rw [lane, roles.retiring, retiring], flash ▸ recorded⟩
  · rw [lane, roles.retired, kept b fun here => by rw [(mem_retiringBundles hb).1 here] at h; cases h]

theorem routeChangeComplete_ends {hops : List (PartId × Nat)} {s : State} (on : s.running = true) (fw : s.hs.fwRun = true)
    (opened : s.hs.routeHold ≠ [] ∨ ∃ b, b < 64 ∧ (s.lane b).retiring = true) (quiet : holdersQuiet s = true) :
    ∃ t, exec (.routeChangeComplete hops) s = .next t ∧ t.hs.routeHold = [] ∧
      (∀ b, b < 64 → (s.lane b).retiring = true → (t.lane b).retired = true ∧ (t.lane b).retiring = false ∧ b ∈ t.flash.repair.bundles) ∧
      (∀ b, b < 64 → (s.lane b).retiring = false → (t.lane b).retired = (s.lane b).retired) := by
  have next := exec_routeChangeComplete (hops := hops) on fw opened quiet
  obtain ⟨hold, gone, kept⟩ := rerouted_spec hops s
  generalize rerouted hops s = z at next hold gone kept
  have after : z.RoutesKept (if z.cutOff then enterFailed z else updateHealth z) := by
    split
    · exact enterFailed_routesKept z
    · exact updateHealth_routesKept z
  generalize (if z.cutOff then enterFailed z else updateHealth z) = t at next after
  have lane (b : Nat) : t.lane b = z.lane b := State.lane_of after.lanes b
  refine ⟨t, next, after.routeHold.trans hold, fun b hb h => ?_, fun b hb h => ?_⟩
  · obtain ⟨retired, retiring, recorded⟩ := gone b hb h
    rw [lane, after.flash]
    exact ⟨retired, retiring, recorded⟩
  · rw [lane]
    exact kept b hb h

/-- Settles O43: each partition is judged by what stood before, and the route change ends as its bundles are retired. -/
theorem readmission : Obligations.Readmission := by
  intro s on fw
  refine ⟨fun asked routes => ?_, fun hops opened quiet => routeChangeComplete_ends on fw opened quiet⟩
  have next := exec_degradationReadmission on fw asked routes
  generalize hz : (s.updHs fun h => { h with readmit := false }) = z at next
  have part (q : Nat) : z.part q = s.part q := by rw [← hz]; rfl
  have caps (c : PartCfg) (hops : Nat) : capsOf c hops z = capsOf c hops s := by rw [← hz]; rfl
  have spare (l : List (Nat × Nat)) : spareOfPlace l z = spareOfPlace l s := by rw [← hz]; rfl
  have lost (x : Part) : x.lostDie z = x.lostDie s := by rw [← hz]; rfl
  have alike := readmitAll_judgedAlike allParts z
  have each (q : Nat) (hq : q < 16) {c : PartCfg} {i : Image} (cfg : (z.part q).cfg = some c) (img : (z.part q).img = some i) :=
    readmitAll_part (l := allParts) List.nodup_range (List.mem_range.2 hq) cfg img
  generalize readmitAll allParts z = t at next alike each
  refine ⟨t, next, ?_, ?_, fun q c i hq cfg img => ?_⟩
  · rw [alike.readmit, ← hz]
    rfl
  · rw [alike.health, ← hz]
    rfl
  · obtain ⟨left, judged⟩ := each q hq (by rw [part]; exact cfg) (by rw [part]; exact img)
    rw [part, lost] at left judged
    rw [caps, spare] at judged
    refine ⟨left, fun whole => ?_⟩
    obtain ⟨revokes, goesOn, takes, refuses⟩ := judged whole
    exact ⟨revokes, goesOn, takes, refuses⟩

end Sys2Proof.Machine
end
